-- ==== Sys2Proof/Word.lean ====
section
/-! DEFINITION. The word types of the Larura LX4 (R3, R50): bytes, 32-bit words, 64-bit words. -/
namespace Sys2Proof

/-- One byte (R3). -/
abbrev Byte := BitVec 8

/-- A 32-bit word: one vector register in one lane, one registered word (R50, R254). -/
abbrev Word := BitVec 32

/-- A 64-bit word: a uniform register, a mask of lanes, an instruction word (R50, R101). -/
abbrev DWord := BitVec 64

end Sys2Proof
end

