-- ==== Sys2Proof/Syntax.lean ====
section
/-! DEFINITION. The instructions and events of the opcode table, one constructor of `Instr` per row.
A variant the spec writes as a suffix (signed, format, size, operation) is an operand of its row's constructor. -/
namespace Sys2Proof

/-- The guard of an instruction word (R108, R109): predicate field and negate bit; field 31 is unguarded. -/
structure Guard where
  pred : BitVec 5
  neg : Bool
  deriving DecidableEq, Repr

/-- The unguarded word (R109). -/
def Guard.always : Guard := ⟨31, false⟩

/-- The post-step of an indirect operand (R56, R112). -/
inductive PostStep where
  | none | up | down
  deriving DecidableEq, Repr

/-- A format A operand, by class and kind (R112, R113). -/
inductive Opnd where
  | v (n : BitVec 8)
  | s (n : BitVec 6)
  | ind (st : PostStep) (k : BitVec 3)
  | zero
  | p (n : BitVec 5)
  | x (k : BitVec 3)
  | fsr
  deriving DecidableEq, Repr

/-- Rounding modes (R82). -/
inductive RMode where
  | rne | rz | ru | rd
  deriving DecidableEq, Repr

/-- Element formats, in the code order of R69 and R121. -/
inductive Fmt where
  | f32 | f16 | bf16 | e4m3 | e5m2 | e2m1 | i8 | i32
  deriving DecidableEq, Repr

/-- Combination of a comparison with a predicate (R149). -/
inductive Bop where
  | none | and | or | xor
  deriving DecidableEq, Repr

/-- Integer comparisons (R149). -/
inductive ICmp where
  | eq | ne | lt | le | gt | ge
  deriving DecidableEq, Repr

/-- Floating comparisons (R154). -/
inductive FCmp where
  | eq | ne | lt | le | gt | ge | num | nan
  deriving DecidableEq, Repr

/-- Reduction operations, in the index order of R122. -/
inductive RedOp where
  | addF32 | addI32 | minF32 | minSgn | minUns | maxF32 | maxSgn | maxUns | and | or | xor
  deriving DecidableEq, Repr

/-- Atomic variants, in the index order of R124; for RED, xchg is written set and cas does not exist. -/
inductive AtomVar where
  | add32 | add64 | addF32 | minSgn32 | minUns32 | minSgn64 | minUns64
  | maxSgn32 | maxUns32 | maxSgn64 | maxUns64 | and32 | and64 | or32 | or64 | xor32 | xor64
  | xchg32 | xchg64 | cas32 | cas64
  deriving DecidableEq, Repr

/-- Fields of an index register as IDXSET and IDXGET name them (R173). -/
inductive IdxField where
  | word | base | bound | offset | step | mode
  deriving DecidableEq, Repr

/-- Access sizes (R188). -/
inductive Size where
  | b8 | b16 | b32 | b64 | b128
  deriving DecidableEq, Repr

/-- Scopes (R259). -/
inductive Scope where
  | grp | die | pkg | sys
  deriving DecidableEq, Repr

/-- Comparisons of a monitor (R199). -/
inductive MonCmp where
  | eq | ne | ge | lt
  deriving DecidableEq, Repr

/-- The fields of a format L word that every memory instruction uses (R115). -/
structure LArgs where
  off : BitVec 24
  seg : BitVec 3
  tU : Bool
  aU : Bool
  a : BitVec 8
  t : BitVec 8
  deriving DecidableEq, Repr

/-- The release part of a format Y word: none, or the scope of the release (R116). -/
abbrev Rel := Option Scope

/-- The acquire part of a format Y word: none, or scope and region mask (R116). -/
abbrev AcqPart := Option (Scope × BitVec 16)

/-- The fields of an engine command word (R116, R205). -/
structure YArgs where
  acq : AcqPart
  rel : Rel
  cmp : BitVec 3
  ud : BitVec 6
  uc : BitVec 6
  ub : BitVec 6
  ua : BitVec 6
  deriving DecidableEq, Repr

/-- The fields of a format M readout or write (R218): n minus one, origin register, first vector register, tile. -/
structure RArgs where
  n1 : BitVec 4
  s : BitVec 6
  v : BitVec 8
  acc : BitVec 3
  deriving DecidableEq, Repr

/-- Forms of GETSYS and of its destination (R62, R238): vector register, or uniform register. -/
inductive SysDst where
  | v (n : BitVec 8)
  | s (n : BitVec 6)
  deriving DecidableEq, Repr

/-- System values (R62), in selector order. -/
inductive SysVal where
  | lane | group | team | core | die | pair | gridx | gridy | gridz | tick | vi
  deriving DecidableEq, Repr

/-- The kinds of unit that own words (R254, R268), in the owner-kind codes of R268. -/
inductive AgentKind where
  | l1 | stash | periscope | gather | serviceL1 | bridge | remote
  deriving DecidableEq, Repr

/-- An agent: its kind and the core, service core or chip it belongs to (R254, R268). -/
structure Agent where
  kind : AgentKind
  id : Nat
  deriving DecidableEq, Repr

/-- How memory is reached, for permissions and page-fault reports (R314). -/
inductive Access where
  | read | write | fetch | rmw
  deriving DecidableEq, Repr

/-- Whose walk a TABLE_WALK is: a die's, for a virtual interface (R312, R315); the IOD counts as die 4. -/
structure Walker where
  die : Nat
  vi : Nat
  deriving DecidableEq, Repr

/-- What an ENGINE_LINE_WRITTEN serves: a command, and one of its deliveries, or 16 for its next read (R187, R333). -/
structure EnginePart where
  cmd : Nat
  part : Nat
  deriving DecidableEq, Repr

/-- The structures an uncorrectable error can strike (R317, R321, R322); predicate words are numbered 2n and 2n + 1 for register n. -/
inductive ErrSite where
  | vector (gid lane n : Nat)
  | uniform (gid n : Nat)
  | predicate (gid n : Nat)
  | index (gid lane n : Nat)
  | groupControl (gid : Nat)
  | tileReg (task n : Nat)
  | stashWord (core addr : Nat)
  | l1Word (core pa : Nat)
  | icacheLine (core : Nat)
  | l2Word (pa : Nat)
  | l2Registration (pa : Nat)
  | accValue (task idx : Nat)
  | hbmWord (pa : Nat)
  | serviceL1 (core pa : Nat)
  | privilegedUse (core : Nat)
  | firmwareCore (core : Nat)
  | keyTable (die : Nat)
  | prismQueue (die : Nat)
  | spillTable (die : Nat)
  deriving DecidableEq, Repr

/-- A received fabric flit (R355): header, payload messages and the check value it carries. -/
structure Flit where
  dst : BitVec 10
  src : BitVec 10
  cls : BitVec 4
  vc : BitVec 4
  seqNo : BitVec 16
  payload : List Byte
  crc : DWord
  ack : BitVec 16
  deriving DecidableEq, Repr

/-- A register that a debug session names (R50, R52): a group's, in a lane where it has lanes, or one of the group's team. -/
inductive DebugReg where
  | vector (lane n : Nat)
  | uniform (n : Nat)
  | predicate (lane n : Nat)
  | index (lane k : Nat)
  | counter (k : Nat)
  | tile (n : Nat)
  | accumulator (n row col : Nat)
  | fsr
  | gsr
  | repeatLeft
  deriving DecidableEq, Repr

/-- What an open debug session does (R33, R61, R347, R348). -/
inductive DebugOp where
  | halt (gid : Nat)
  | resume (gid : Nat)
  | writeReg (gid : Nat) (r : DebugReg) (val : BitVec 128)
  | writeMem (va : DWord) (bytes : List Byte)
  | readVpc (gid lane : Nat)
  | readReg (gid : Nat) (r : DebugReg)
  | readInd (gid lane k : Nat)
  | readMem (va : DWord) (len : Nat)
  deriving DecidableEq, Repr

/-- The rows of spec/opcode_table.json: instructions first, by family, then the events of the device. -/
inductive Instr where
  -- family 0 (R144 to R151)
  | iadd (g : Guard) (d a b : Opnd)
  | isub (g : Guard) (d a b : Opnd)
  | imul (g : Guard) (d a b : Opnd)
  | imulh (g : Guard) (sgn : Bool) (d a b : Opnd)
  | imad (g : Guard) (d a b c : Opnd)
  | imin (g : Guard) (sgn : Bool) (d a b : Opnd)
  | imax (g : Guard) (sgn : Bool) (d a b : Opnd)
  | iabs (g : Guard) (d a : Opnd)
  | ineg (g : Guard) (d a : Opnd)
  | iaddSat (g : Guard) (sgn : Bool) (d a b : Opnd)
  | isubSat (g : Guard) (sgn : Bool) (d a b : Opnd)
  | iaddX2 (g : Guard) (d a b : Opnd)
  | isubX2 (g : Guard) (d a b : Opnd)
  | iminX2 (g : Guard) (sgn : Bool) (d a b : Opnd)
  | imaxX2 (g : Guard) (sgn : Bool) (d a b : Opnd)
  | and (g : Guard) (d a b : Opnd)
  | or (g : Guard) (d a b : Opnd)
  | xor (g : Guard) (d a b : Opnd)
  | not (g : Guard) (d a : Opnd)
  | shl (g : Guard) (d a b : Opnd)
  | shr (g : Guard) (d a b : Opnd)
  | sar (g : Guard) (d a b : Opnd)
  | rot (g : Guard) (d a b : Opnd)
  | bfe (g : Guard) (sgn : Bool) (d a b : Opnd)
  | bfi (g : Guard) (d a b c : Opnd)
  | popc (g : Guard) (d a : Opnd)
  | clz (g : Guard) (d a : Opnd)
  | brev (g : Guard) (d a : Opnd)
  | sel (g : Guard) (d a b c : Opnd)
  | mov (g : Guard) (d a : Opnd)
  | isetp (g : Guard) (sgn : Bool) (bop : Bop) (cmp : ICmp) (d a b c : Opnd)
  | lea (g : Guard) (sx : Bool) (sh : BitVec 3) (d a b : Opnd)
  | iadd64 (g : Guard) (d a b : Opnd)
  | movi (g : Guard) (u : Bool) (d : BitVec 8) (imm : Word)
  | moviHi (g : Guard) (d : BitVec 8) (imm : Word)
  | moviSx (g : Guard) (d : BitVec 8) (imm : Word)
  | iaddImm (g : Guard) (u : Bool) (d a : BitVec 8) (imm : Word)
  | imulImm (g : Guard) (u : Bool) (d a : BitVec 8) (imm : Word)
  | andImm (g : Guard) (u : Bool) (d a : BitVec 8) (imm : Word)
  | orImm (g : Guard) (u : Bool) (d a : BitVec 8) (imm : Word)
  | xorImm (g : Guard) (u : Bool) (d a : BitVec 8) (imm : Word)
  | shlImm (g : Guard) (u : Bool) (d a : BitVec 8) (imm : Word)
  | shrImm (g : Guard) (u : Bool) (d a : BitVec 8) (imm : Word)
  | sarImm (g : Guard) (u : Bool) (d a : BitVec 8) (imm : Word)
  | leaImm (g : Guard) (u : Bool) (d a : BitVec 8) (imm : Word)
  -- family 1 (R152 to R158)
  | fadd (g : Guard) (rnd : RMode) (mods : BitVec 6) (d a b : Opnd)
  | fsub (g : Guard) (rnd : RMode) (mods : BitVec 6) (d a b : Opnd)
  | fmul (g : Guard) (rnd : RMode) (mods : BitVec 6) (d a b : Opnd)
  | ffma (g : Guard) (rnd : RMode) (mods : BitVec 6) (d a b c : Opnd)
  | fmin (g : Guard) (mods : BitVec 6) (d a b : Opnd)
  | fmax (g : Guard) (mods : BitVec 6) (d a b : Opnd)
  | fclamp (g : Guard) (mods : BitVec 6) (d a b c : Opnd)
  | fsetp (g : Guard) (bop : Bop) (mods : BitVec 6) (cmp : FCmp) (d a b c : Opnd)
  | frnd (g : Guard) (rnd : RMode) (mods : BitVec 6) (d a : Opnd)
  | hadd2 (g : Guard) (bf : Bool) (mods : BitVec 6) (d a b : Opnd)
  | hfma2 (g : Guard) (bf : Bool) (mods : BitVec 6) (d a b c : Opnd)
  | fdot4 (g : Guard) (e5 : Bool) (mods : BitVec 6) (d a b c : Opnd)
  | faddImm (g : Guard) (u : Bool) (d a : BitVec 8) (imm : Word)
  | fmulImm (g : Guard) (u : Bool) (d a : BitVec 8) (imm : Word)
  -- family 2 (R159 to R165)
  | cvt (g : Guard) (dst src : Fmt) (inK toJ : BitVec 3) (rnd : RMode) (nanovf : Bool) (d a : Opnd)
  | cvtq (g : Guard) (slot : BitVec 3) (d a b c : Opnd)
  | cvtqAuto (g : Guard) (slot : BitVec 3) (d a c : Opnd)
  | cvtdq (g : Guard) (slot : BitVec 3) (d a b c : Opnd)
  | bscale (g : Guard) (slot : BitVec 3) (d a : Opnd)
  | exp2 (g : Guard) (mods : BitVec 6) (d a b c : Opnd)
  | lg2 (g : Guard) (mods : BitVec 6) (d a : Opnd)
  | rcp (g : Guard) (mods : BitVec 6) (d a : Opnd)
  | rsq (g : Guard) (mods : BitVec 6) (d a : Opnd)
  | sqrt (g : Guard) (mods : BitVec 6) (d a : Opnd)
  -- family 3 (R166 to R177)
  | perm (g : Guard) (d a b c : Opnd)
  | rfal (g : Guard) (d a : Opnd)
  | voteAny (g : Guard) (neg : Bool) (d a : Opnd)
  | voteAll (g : Guard) (neg : Bool) (d a : Opnd)
  | voteBallot (g : Guard) (neg : Bool) (d a : Opnd)
  | redv (g : Guard) (op : RedOp) (d a : Opnd)
  | scanv (g : Guard) (op : RedOp) (d a : Opnd)
  | scanvExcl (g : Guard) (op : RedOp) (d a : Opnd)
  | pand (g : Guard) (negA negB : Bool) (d a b : Opnd)
  | por (g : Guard) (negA negB : Bool) (d a b : Opnd)
  | pxor (g : Guard) (negA negB : Bool) (d a b : Opnd)
  | pnot (g : Guard) (negA : Bool) (d a : Opnd)
  | pmov (g : Guard) (negA : Bool) (d a : Opnd)
  | idxset (g : Guard) (f : IdxField) (d a : Opnd)
  | idxget (g : Guard) (f : IdxField) (d a : Opnd)
  | rpt (g : Guard) (steps : BitVec 4) (stride : BitVec 4) (count : BitVec 6)
  -- family 4 (R188 to R193)
  | ld (g : Guard) (sz : Size) (sx : Bool) (l : LArgs)
  | st (g : Guard) (sz : Size) (l : LArgs)
  | lda (g : Guard) (sz : Size) (sx : Bool) (sc : Scope) (l : LArgs)
  | stl (g : Guard) (sz : Size) (sc : Scope) (l : LArgs)
  | pref (g : Guard) (l : LArgs)
  | prefL2 (g : Guard) (l : LArgs)
  | stmap (g : Guard) (uc ub ua : BitVec 6)
  | stflush (g : Guard) (rel : Rel) (cmp : BitVec 3) (ub ua : BitVec 6)
  -- family 5 (R194 to R216, R282)
  | atom (g : Guard) (op : AtomVar) (sc : Scope) (l : LArgs)
  | groupSubmission (g : Guard) (l : LArgs)
  | red (g : Guard) (op : AtomVar) (sc : Scope) (l : LArgs)
  | fence (g : Guard) (sc : Scope) (ud : BitVec 6)
  | acq (g : Guard) (sc : Scope) (mask : BitVec 16)
  | rel (g : Guard) (sc : Scope)
  | monw (g : Guard) (k : BitVec 2) (cmp : MonCmp) (l : LArgs)
  | wait (g : Guard) (all : Bool) (count : BitVec 2) (d a b c : Opnd)
  | bar (g : Guard) (k : BitVec 3) (d : Opnd)
  | barArrive (g : Guard) (k : BitVec 3) (d : Opnd)
  | evtAdd (g : Guard) (k : BitVec 3) (d a : Opnd)
  | evtSub (g : Guard) (k : BitVec 3) (d a : Opnd)
  | evtSet (g : Guard) (k : BitVec 3) (d a : Opnd)
  | cpy (g : Guard) (y : YArgs)
  | cpym (g : Guard) (y : YArgs)
  | gath (g : Guard) (y : YArgs)
  | coll (g : Guard) (y : YArgs)
  -- family 6 (R217 to R232)
  | mapset (g : Guard) (s : BitVec 6) (ta : BitVec 4)
  | mma (g : Guard) (p z : Bool) (tb ta : BitVec 4) (acc : BitVec 3)
  | mmas (g : Guard) (p z : Bool) (lsel : BitVec 2) (v : BitVec 8) (tb ta : BitVec 4) (acc : BitVec 3)
  | mzero (g : Guard) (p : Bool) (acc : BitVec 3)
  | accrdF32 (g : Guard) (r : RArgs)
  | accrdPair (g : Guard) (r : RArgs)
  | accrdI32 (g : Guard) (r : RArgs)
  | accwrF32 (g : Guard) (r : RArgs)
  | accwrI32 (g : Guard) (r : RArgs)
  | mstat (g : Guard) (clr : Bool) (s : BitVec 6) (acc : BitVec 3)
  -- family 7 (R233 to R251)
  | bra (g : Guard) (off : Word)
  | brx (g : Guard) (lnk : BitVec 8)
  | call (g : Guard) (lnk : BitVec 8) (off : Word)
  | ret (g : Guard) (lnk : BitVec 8)
  | exit (g : Guard)
  | elect (g : Guard) (d : Opnd)
  | yield (g : Guard)
  | nop (g : Guard)
  | getsys (g : Guard) (x : SysVal) (d : SysDst)
  | trap (g : Guard) (code : BitVec 24)
  | rtt (g : Guard)
  | spawn (g : Guard) (rel : Rel) (ub ua : BitVec 6)
  | spawnc (g : Guard) (rel : Rel) (uc ub ua : BitVec 6)
  | uint (g : Guard) (payload : BitVec 24) (sa : BitVec 6)
  | setseg (g : Guard) (seg : BitVec 3) (sb sa : BitVec 6)
  | setrgn (g : Guard) (entry : BitVec 4) (sb sa : BitVec 6)
  | tlbinvPage (g : Guard) (sb sa : BitVec 6)
  | tlbinvVi (g : Guard) (sb : BitVec 6)
  | tlbinvAll (g : Guard)
  | icinvRange (g : Guard) (sb sa : BitVec 6)
  | icinvAll (g : Guard)
  | setviHandler (g : Guard) (sb sa : BitVec 6)
  | setviSwap (g : Guard) (sb sa : BitVec 6)
  | setviPtroot (g : Guard) (sb sa : BitVec 6)
  | setviState (g : Guard) (sb sa : BitVec 6)
  | setviUint (g : Guard) (sb sa : BitVec 6)
  | setviKeys (g : Guard) (sb sa : BitVec 6)
  | setviKeybase (g : Guard) (sb sa : BitVec 6)
  -- events of a group and its core (95)
  | clauseIssue (gid : Nat)
  | longLatencyResult (gid k : Nat) (lanes : DWord)
  | laneUnpark (gid lane : Nat)
  | waitTimeout (gid lane : Nat)
  | monitorFire (gid k : Nat)
  | monitorPoll (gid k : Nat)
  | swapOut (gid : Nat)
  | reinstatement (gid : Nat)
  | preemptionRequest (task : Nat)
  | preemptionSave (gid : Nat)
  | preemptionOverrun (gid : Nat)
  | preemptionSaveTimeout (gid : Nat)
  | timeSliceExpiry (die pair : Nat)
  | engineCommandEnqueue (gid : Nat)
  | engineCommandCompletion (cmd : Nat)
  | engineFault (cmd : Nat)
  | stashFillComplete (core line : Nat)
  | stashFillFault (core line : Nat)
  | matrixArrayQueueRoom (gid : Nat)
  | matrixStartTokenGrant (die : Nat)
  | lensLineRead (op core line : Nat)
  | matrixOperationRetire (op : Nat)
  | referenceTick
  -- events of submission and scheduling
  | dispatchRound (die : Nat)
  | taskEnd (task : Nat)
  | completionRecordWrite (vi page : Nat)
  | hostSubmission (vi page : Nat) (rec : List Byte)
  | hostSubmissionRetry (vi page : Nat) (rec : List Byte)
  | groupSubmissionRetry (gid : Nat)
  | submitPageWriteDrop (vi page : Nat)
  | gridRangeDeal (grid : Nat)
  | gridRangeExpansion (grid range : Nat)
  -- events of links and errors
  | dieFence (die : Nat)
  | ucieLinkDead (a b : Nat)
  | bermoistPortDead (port : Nat)
  | remoteChipUnreachable (chip : Nat)
  | fabricFlitReceive (port : Nat) (f : Flit)
  -- events of the memory system
  | registrationRequest (ag : Agent) (pa : Nat) (mask : BitVec 4) (val : Word)
  | revocation (pa : Nat)
  | writtenBack (pa : Nat)
  | notHeld (pa : Nat)
  | forward (ag : Agent) (pa : Nat)
  | writeBack (pa : Nat)
  | lineEviction (ag : Agent) (pa : Nat)
  | registrationSpill (pa : Nat)
  | redPerform (k : Nat)
  | remoteStoreRefusal (k : Nat)
  | replReplicaUpdate (k : Nat)
  | homeMove (vi : Nat) (va : DWord) (die frame : Nat)
  | tableWalk (walker : Walker) (va : DWord) (acc : Access)
  | uncorrectableError (site : ErrSite)
  | correctedError (die : Nat)
  | uintDelivery
  | coreRetirement (core : Nat)
  | routeRewrite (grid : Nat)
  -- events of the host, lifecycle and power
  | packageReset
  | flr (n : Nat)
  | hostBar2Read (n off len : Nat)
  | hostBar2Write (n off : Nat) (bytes : List Byte)
  | spdmRequest (req : List Byte)
  | nonceIssue
  | debugTokenUnlock (token : List Byte)
  | lifecycleDeploy (command : List Byte)
  | lifecycleReturn (command : List Byte)
  | errorBitClear
  | powerStateP0
  | powerStateP1
  | powerStateIdle
  | powerStateRetain
  | powerStateOff
  | powerStateEntry
  | pcapWrite (die : Nat) (val : Word)
  | didtWrite (die : Nat) (val : Word)
  | trctlWrite (die : Nat) (val : Word)
  | dlctlWrite (die : Nat) (val : Word)
  | errorCountClear (die : Nat) (unc : Bool)
  | registerWrite (off : Nat) (val : Word)
  | telemetryRecord (die : Nat)
  | thermalThrottle (die : Nat)
  | servicePartitionMaskWrite (j : Nat) (mask : Word)
  | configRecordApply (n : Nat)
  | configRecordQuiesceApply (n : Nat)
  | submissionPageEnable (vi page : Nat)
  | submissionPageDisable (vi page : Nat)
  | engineLineWritten (part : EnginePart)
  | meshLinkRetirement (a b : Nat)
  | frameOwnerChange (die frame : Nat) (vi : Option (BitVec 6))
  | debugSessionAccess (vi : Nat) (op : DebugOp)
  | firmwareRestartComplete
  deriving DecidableEq, Repr

end Sys2Proof
end

