-- ==== Sys2Proof/WellFormed.lean ====
section
/-! DEFINITION. Which instructions have a word: the static checks of R109 to R131 that an `Instr` can break.
`Instr.reserved` are the breaches of subcode 1, `Instr.accepted` the positions that R138 and each entry accept (subcode 3). -/
namespace Sys2Proof

/-- Position accepts (R112, R113, R138). -/
def Opnd.isV : Opnd → Bool | .v _ => true | _ => false
def Opnd.isS : Opnd → Bool | .s _ => true | _ => false
def Opnd.isInd : Opnd → Bool | .ind _ _ => true | _ => false
def Opnd.isZero : Opnd → Bool | .zero => true | _ => false
def Opnd.isP : Opnd → Bool | .p _ => true | _ => false
def Opnd.isX : Opnd → Bool | .x _ => true | _ => false
def Opnd.isFsr : Opnd → Bool | .fsr => true | _ => false

/-- A destination of R138: vector, uniform, indirect or zero. -/
def Opnd.dst (o : Opnd) : Bool := o.isV || o.isS || o.isInd || o.isZero

/-- A source of families 1 and 2 (R138). -/
def Opnd.srcF (o : Opnd) : Bool := o.isV || o.isS || o.isInd || o.isZero

/-- A source of family 0 (R138). -/
def Opnd.srcI (o : Opnd) : Bool := o.srcF || o.isP || o.isX

/-- A predicate register number beyond p23 is reserved (R113). -/
def Opnd.reserved : Opnd → Bool
  | .p n => decide (24 ≤ n.toNat)
  | _ => false

/-- A 64-bit operand (R139): uniform, even vector pair, or zero. -/
def Opnd.wide : Opnd → Bool
  | .s _ => true
  | .zero => true
  | .v n => n.toNat % 2 == 0
  | _ => false

/-- A source that differs from lane to lane (R53, R140). -/
def Opnd.perLane (o : Opnd) : Bool := o.isV || o.isInd || o.isP || o.isX

/-- The index register an operand post-steps (R58). -/
def Opnd.stepped : Opnd → Option (BitVec 3)
  | .ind .none _ => none
  | .ind _ k => some k
  | _ => none

/-- No index register is post-stepped in two positions (R58). -/
def stepsOk (l : List Opnd) : Bool := decide ((l.filterMap Opnd.stepped).Nodup)

/-- A uniform destination has no per-lane source (R53, R140). -/
def uniOk (d : Opnd) (srcs : List Opnd) : Bool := !d.isS || !(srcs.any Opnd.perLane)

/-- A lane-wise instruction of families 0 to 2 whose sources pass a test (R138, R140, R58). -/
def laneOk (src : Opnd → Bool) (d : Opnd) (srcs : List Opnd) : Bool :=
  d.dst && srcs.all src && uniOk d srcs && stepsOk (d :: srcs)

/-- MOV's sources by its destination (R148). -/
def movOk (d a : Opnd) : Bool :=
  match d with
  | .v _ | .ind _ _ | .zero => (a.srcI || a.isFsr) && stepsOk [d, a]
  | .s _ => a.isS || a.isZero || a.isFsr
  | .p _ | .x _ => a.srcI
  | .fsr => a.isS || a.isZero

/-- Elements of a format in a 32-bit register (R159). -/
def Fmt.count : Fmt → Nat
  | .f32 | .i32 => 1
  | .f16 | .bf16 => 2
  | .e4m3 | .e5m2 | .i8 => 4
  | .e2m1 => 8

/-- Mod bits of positions an instruction does not use must be 0 (R141). -/
def modsOk (used : BitVec 6) (m : BitVec 6) : Bool := m &&& ~~~used == 0

/-- Register numbers of format B: uniform ones lie below 64 (R114). -/
def bOk (u : Bool) (d a : BitVec 8) : Bool := !u || (decide (d.toNat < 64) && decide (a.toNat < 64))

/-- Bits of an access size, in bytes (R188). -/
def Size.bytes : Size → Nat
  | .b8 => 1 | .b16 => 2 | .b32 => 4 | .b64 => 8 | .b128 => 16

/-- Bytes of an atomic variant (R124). -/
def AtomVar.bytes : AtomVar → Nat
  | .add64 | .minSgn64 | .minUns64 | .maxSgn64 | .maxUns64 | .and64 | .or64 | .xor64 | .xchg64 | .cas64 => 8
  | _ => 4

/-- The compare-and-swap variants, which RED does not have (R124). -/
def AtomVar.isCas : AtomVar → Bool
  | .cas32 | .cas64 => true
  | _ => false

/-- Vector registers of a value of n bytes. -/
def vregsOf (n : Nat) : Nat := if n ≤ 4 then 1 else n / 4

/-- Reserved values of a format L word (R63, R115). DESIGN CHOICE (log 18): R115 names s0 to s63 and gives no subcode for a uniform
register field of 64 or more; it counts as a reserved value. -/
def LArgs.reserved (l : LArgs) : Bool :=
  decide (6 ≤ l.seg.toNat) || (l.aU && decide (64 ≤ l.a.toNat)) || (l.tU && decide (64 ≤ l.t.toNat))

/-- Alignment of the address register (R115). -/
def LArgs.addrOk (l : LArgs) : Bool := l.aU || l.a.toNat % 2 == 0

/-- Data registers of a load or store of n bytes (R115). -/
def LArgs.dataOk (l : LArgs) (n : Nat) (load : Bool) : Bool :=
  l.addrOk && (if l.tU then n != 16 && (l.aU || !load) else l.t.toNat % vregsOf n == 0)

/-- Data registers of ATOM and RED (R194, R195). -/
def LArgs.atomOk (l : LArgs) (op : AtomVar) (ret : Bool) : Bool :=
  l.addrOk && (!l.tU || l.aU || !ret) &&
    (if op.isCas then (if l.tU then op.bytes == 4 || l.t.toNat % 2 == 0 else l.t.toNat % (op.bytes / 2) == 0)
     else l.tU || l.t.toNat % vregsOf op.bytes == 0)

/-- The guard of a word (R109); `none` for an event. -/
def Instr.guard : Instr → Option Guard
  | .iadd g .. | .isub g .. | .imul g .. | .imulh g .. | .imad g .. | .imin g .. | .imax g .. | .iabs g .. | .ineg g ..
  | .iaddSat g .. | .isubSat g .. | .iaddX2 g .. | .isubX2 g .. | .iminX2 g .. | .imaxX2 g .. | .and g .. | .or g ..
  | .xor g .. | .not g .. | .shl g .. | .shr g .. | .sar g .. | .rot g .. | .bfe g .. | .bfi g .. | .popc g .. | .clz g ..
  | .brev g .. | .sel g .. | .mov g .. | .isetp g .. | .lea g .. | .iadd64 g .. | .movi g .. | .moviHi g .. | .moviSx g ..
  | .iaddImm g .. | .imulImm g .. | .andImm g .. | .orImm g .. | .xorImm g .. | .shlImm g .. | .shrImm g .. | .sarImm g ..
  | .leaImm g .. => some g
  | .fadd g .. | .fsub g .. | .fmul g .. | .ffma g .. | .fmin g .. | .fmax g .. | .fclamp g .. | .fsetp g .. | .frnd g ..
  | .hadd2 g .. | .hfma2 g .. | .fdot4 g .. | .faddImm g .. | .fmulImm g .. => some g
  | .cvt g .. | .cvtq g .. | .cvtqAuto g .. | .cvtdq g .. | .bscale g .. | .exp2 g .. | .lg2 g .. | .rcp g .. | .rsq g ..
  | .sqrt g .. => some g
  | .perm g .. | .rfal g .. | .voteAny g .. | .voteAll g .. | .voteBallot g .. | .redv g .. | .scanv g .. | .scanvExcl g ..
  | .pand g .. | .por g .. | .pxor g .. | .pnot g .. | .pmov g .. | .idxset g .. | .idxget g .. | .rpt g .. => some g
  | .ld g .. | .st g .. | .lda g .. | .stl g .. | .pref g .. | .prefL2 g .. | .stmap g .. | .stflush g .. => some g
  | .atom g .. | .groupSubmission g .. | .red g .. | .fence g .. | .acq g .. | .rel g .. | .monw g .. | .wait g ..
  | .bar g .. | .barArrive g .. | .evtAdd g .. | .evtSub g .. | .evtSet g .. | .cpy g .. | .cpym g .. | .gath g ..
  | .coll g .. => some g
  | .mapset g .. | .mma g .. | .mmas g .. | .mzero g .. | .accrdF32 g .. | .accrdPair g .. | .accrdI32 g .. | .accwrF32 g ..
  | .accwrI32 g .. | .mstat g .. => some g
  | .bra g .. | .brx g .. | .call g .. | .ret g .. | .exit g | .elect g .. | .yield g | .nop g | .getsys g .. | .trap g ..
  | .rtt g | .spawn g .. | .spawnc g .. | .uint g .. | .setseg g .. | .setrgn g .. | .tlbinvPage g .. | .tlbinvVi g ..
  | .tlbinvAll g | .icinvRange g .. | .icinvAll g | .setviHandler g .. | .setviSwap g .. | .setviPtroot g ..
  | .setviState g .. | .setviUint g .. | .setviKeys g .. | .setviKeybase g .. => some g
  | _ => none

/-- A row that is an event of the device and has no instruction word. -/
def Instr.isEvent (i : Instr) : Bool := i.guard.isNone

/-- The format A operands of a word. -/
def Instr.opnds : Instr → List Opnd
  | .iadd _ d a b | .isub _ d a b | .imul _ d a b | .imulh _ _ d a b | .imin _ _ d a b | .imax _ _ d a b
  | .iaddSat _ _ d a b | .isubSat _ _ d a b | .iaddX2 _ d a b | .isubX2 _ d a b | .iminX2 _ _ d a b | .imaxX2 _ _ d a b
  | .and _ d a b | .or _ d a b | .xor _ d a b | .shl _ d a b | .shr _ d a b | .sar _ d a b | .rot _ d a b
  | .bfe _ _ d a b | .lea _ _ _ d a b | .iadd64 _ d a b => [d, a, b]
  | .imad _ d a b c | .bfi _ d a b c | .sel _ d a b c | .isetp _ _ _ _ d a b c => [d, a, b, c]
  | .iabs _ d a | .ineg _ d a | .not _ d a | .popc _ d a | .clz _ d a | .brev _ d a | .mov _ d a => [d, a]
  | .fadd _ _ _ d a b | .fsub _ _ _ d a b | .fmul _ _ _ d a b | .fmin _ _ d a b | .fmax _ _ d a b
  | .hadd2 _ _ _ d a b => [d, a, b]
  | .ffma _ _ _ d a b c | .fclamp _ _ d a b c | .fsetp _ _ _ _ d a b c | .hfma2 _ _ _ d a b c
  | .fdot4 _ _ _ d a b c => [d, a, b, c]
  | .frnd _ _ _ d a => [d, a]
  | .cvt _ _ _ _ _ _ _ d a | .bscale _ _ d a | .lg2 _ _ d a | .rcp _ _ d a | .rsq _ _ d a | .sqrt _ _ d a => [d, a]
  | .cvtq _ _ d a b c | .cvtdq _ _ d a b c | .exp2 _ _ d a b c | .perm _ d a b c => [d, a, b, c]
  | .cvtqAuto _ _ d a c => [d, a, c]
  | .rfal _ d a | .voteAny _ _ d a | .voteAll _ _ d a | .voteBallot _ _ d a | .redv _ _ d a | .scanv _ _ d a
  | .scanvExcl _ _ d a | .pnot _ _ d a | .pmov _ _ d a | .idxset _ _ d a | .idxget _ _ d a => [d, a]
  | .pand _ _ _ d a b | .por _ _ _ d a b | .pxor _ _ _ d a b => [d, a, b]
  | .wait _ _ _ d a b c => [d, a, b, c]
  | .bar _ _ d | .barArrive _ _ d | .elect _ d => [d]
  | .evtAdd _ _ d a | .evtSub _ _ d a | .evtSet _ _ d a => [d, a]
  | _ => []

/-- A guard value that is reserved (R109). -/
def Guard.reserved (g : Guard) : Bool := (decide (24 ≤ g.pred.toNat) && g.pred != 31) || (g.pred == 31 && g.neg)

/-- Reserved values of an instruction's own fields (subcode 1). -/
def Instr.fieldReserved : Instr → Bool
  | .fadd _ _ m .. | .fsub _ _ m .. | .fmul _ _ m .. | .fmin _ m .. | .fmax _ m .. | .hadd2 _ _ m ..
  | .fsetp _ _ m .. => !modsOk 0x0F m
  | .frnd _ _ m .. | .lg2 _ m .. | .rcp _ m .. | .rsq _ m .. | .sqrt _ m .. => !modsOk 0x03 m
  | .cvt _ dst _ _ _ _ nanovf .. => nanovf && dst != .e4m3
  | .movi _ u d _ => u && decide (64 ≤ d.toNat)
  | .moviHi _ d _ | .moviSx _ d _ => decide (64 ≤ d.toNat)
  | .iaddImm _ u d a _ | .imulImm _ u d a _ | .andImm _ u d a _ | .orImm _ u d a _ | .xorImm _ u d a _
  | .shlImm _ u d a _ | .shrImm _ u d a _ | .sarImm _ u d a _ | .leaImm _ u d a _ | .faddImm _ u d a _
  | .fmulImm _ u d a _ => !bOk u d a
  | .ld _ _ _ l | .st _ _ l | .lda _ _ _ _ l | .stl _ _ _ l | .atom _ _ _ l | .red _ _ _ l | .groupSubmission _ l
  | .monw _ _ _ l => l.reserved
  | .pref _ l | .prefL2 _ l => l.reserved || l.tU || l.t != 0
  | .evtAdd _ k .. | .evtSub _ k .. | .evtSet _ k .. => decide (6 ≤ k.toNat)
  | .mmas _ _ _ lsel .. => lsel == 3
  | .accrdPair _ r => decide (8 ≤ r.n1.toNat)
  | .setseg _ seg .. => decide (6 ≤ seg.toNat)
  | _ => false

/-- A breach of subcode 1 that the instruction's fields show (R131). -/
def Instr.reserved (i : Instr) : Bool :=
  (match i.guard with | some g => g.reserved | none => false) || i.opnds.any Opnd.reserved || i.fieldReserved

/-- The operands, classes and combinations an instruction accepts (R138 to R251); false is subcode 3. DESIGN CHOICE (log 18): no rule
says which classes RFAL's source takes; it is read by lane and may be vector, uniform or indirect. No rule says which SCANV's source a
takes either; it combines one value of each lane and may be vector or indirect. -/
def Instr.accepted : Instr → Bool
  | .iadd _ d a b | .isub _ d a b | .imul _ d a b | .imulh _ _ d a b | .imin _ _ d a b | .imax _ _ d a b
  | .iaddSat _ _ d a b | .isubSat _ _ d a b | .iaddX2 _ d a b | .isubX2 _ d a b | .iminX2 _ _ d a b | .imaxX2 _ _ d a b
  | .and _ d a b | .or _ d a b | .xor _ d a b | .shl _ d a b | .shr _ d a b | .sar _ d a b | .rot _ d a b
  | .bfe _ _ d a b => laneOk Opnd.srcI d [a, b]
  | .imad _ d a b c | .bfi _ d a b c => laneOk Opnd.srcI d [a, b, c]
  | .iabs _ d a | .ineg _ d a | .not _ d a | .popc _ d a | .clz _ d a | .brev _ d a => laneOk Opnd.srcI d [a]
  | .sel _ d a b c => laneOk Opnd.srcI d [a, b, c] && c.isP
  | .mov _ d a => movOk d a
  | .isetp _ _ bop _ d a b c =>
    (d.isP || d.isZero) && a.srcI && b.srcI && (if bop = .none then c.isZero else c.isP) && stepsOk [a, b]
  | .lea _ _ _ d a b => d.wide && a.wide && b.srcI && uniOk d [a, b]
  | .iadd64 _ d a b => d.wide && a.wide && b.wide && uniOk d [a, b]
  | .leaImm _ u d a _ => u || (d.toNat % 2 == 0 && a.toNat % 2 == 0)
  | .fadd _ _ _ d a b | .fsub _ _ _ d a b | .fmul _ _ _ d a b | .fmin _ _ d a b | .fmax _ _ d a b
  | .hadd2 _ _ _ d a b => laneOk Opnd.srcF d [a, b]
  | .ffma _ _ _ d a b c | .fclamp _ _ d a b c | .hfma2 _ _ _ d a b c | .fdot4 _ _ _ d a b c
  | .exp2 _ _ d a b c => laneOk Opnd.srcF d [a, b, c]
  | .fsetp _ bop _ _ d a b c =>
    (d.isP || d.isZero) && a.srcF && b.srcF && (if bop = .none then c.isZero else c.isP) && stepsOk [a, b]
  | .frnd _ _ _ d a | .bscale _ _ d a | .lg2 _ _ d a | .rcp _ _ d a | .rsq _ _ d a | .sqrt _ _ d a =>
    laneOk Opnd.srcF d [a]
  | .cvt _ dst src inK toJ _ _ d a =>
    laneOk Opnd.srcF d [a] && !a.isZero && decide (dst ≠ src) && decide (inK.toNat < src.count) && decide (toJ.toNat < dst.count)
  | .cvtq _ _ d a b c | .cvtdq _ _ d a b c =>
    d.isV && a.isV && (b.isV || b.isS || b.isZero) && (c.isV || c.isS || c.isZero)
  | .cvtqAuto _ _ d a c => d.isV && a.isV && (c.isV || c.isS || c.isZero)
  | .perm _ d a b c =>
    (d.isV || d.isInd) && (a.isV || a.isS) && (b.isV || b.isS || b.isInd) && c.srcF && stepsOk [d, b, c]
  | .rfal _ d a => (d.isS || d.isV) && (a.isV || a.isS || a.isInd)
  | .voteAny _ _ d a | .voteAll _ _ d a => d.isP && a.isP
  | .voteBallot _ _ d a => d.isS && a.isP
  | .redv _ _ d a => (d.isS || d.isV || d.isInd) && (a.isV || a.isInd) && stepsOk [d, a]
  | .scanv _ _ d a | .scanvExcl _ _ d a => (d.isV || d.isInd) && (a.isV || a.isInd) && stepsOk [d, a]
  | .pand _ _ _ d a b | .por _ _ _ d a b | .pxor _ _ _ d a b => d.isP && a.isP && b.isP
  | .pnot _ _ d a | .pmov _ _ d a => d.isP && a.isP
  | .idxset _ _ d a => d.isX && a.srcF
  | .idxget _ _ d a => (d.isV || d.isInd) && a.isX
  | .ld _ sz sx l => l.dataOk sz.bytes true && (!sx || decide (sz.bytes ≤ 2))
  | .st _ sz l => l.dataOk sz.bytes false
  | .lda _ sz sx _ l => l.dataOk sz.bytes true && sz != .b128 && (!sx || decide (sz.bytes ≤ 2))
  | .stl _ sz _ l => l.dataOk sz.bytes false && sz != .b128
  | .pref _ l | .prefL2 _ l => l.addrOk
  | .atom _ op _ l => l.atomOk op true
  | .groupSubmission .. => false
  | .red _ op _ l => !op.isCas && l.atomOk op false
  | .monw _ _ _ l => l.aU && l.tU
  | .wait _ _ _ d a b c => (d.isV || d.isInd || d.isZero) && a.isS && (b.isS || b.isZero) && (c.isS || c.isZero)
  | .bar _ _ d | .barArrive _ _ d => d.isV || d.isInd || d.isZero
  | .evtAdd _ _ d a | .evtSub _ _ d a | .evtSet _ _ d a => (d.isV || d.isS || d.isZero) && (a.isS || a.isZero)
  | .mapset _ s _ => s.toNat % 2 == 0
  | .accrdF32 _ r | .accrdI32 _ r | .accwrF32 _ r | .accwrI32 _ r => decide (r.v.toNat + r.n1.toNat < 256)
  | .accrdPair _ r => decide (r.v.toNat + 2 * r.n1.toNat + 1 < 256)
  | .elect _ d => d.isP
  | .getsys _ x d => decide (x ≠ .lane) || (match d with | .v _ => true | .s _ => false)
  | _ => true

/-- A well-formed instruction: it has a word, and none of the static checks refuses it.
A GROUP_SUBMISSION is a use of ATOM's words (R282), so it has no word of its own. -/
def Instr.wf (i : Instr) : Bool := !i.isEvent && !i.reserved && i.accepted

/-- The family of a word (R108, R119 to R126); 8 for an event. -/
def Instr.family : Instr → Nat
  | .iadd .. | .isub .. | .imul .. | .imulh .. | .imad .. | .imin .. | .imax .. | .iabs .. | .ineg .. | .iaddSat ..
  | .isubSat .. | .iaddX2 .. | .isubX2 .. | .iminX2 .. | .imaxX2 .. | .and .. | .or .. | .xor .. | .not .. | .shl ..
  | .shr .. | .sar .. | .rot .. | .bfe .. | .bfi .. | .popc .. | .clz .. | .brev .. | .sel .. | .mov .. | .isetp ..
  | .lea .. | .iadd64 .. | .movi .. | .moviHi .. | .moviSx .. | .iaddImm .. | .imulImm .. | .andImm .. | .orImm ..
  | .xorImm .. | .shlImm .. | .shrImm .. | .sarImm .. | .leaImm .. => 0
  | .fadd .. | .fsub .. | .fmul .. | .ffma .. | .fmin .. | .fmax .. | .fclamp .. | .fsetp .. | .frnd .. | .hadd2 ..
  | .hfma2 .. | .fdot4 .. | .faddImm .. | .fmulImm .. => 1
  | .cvt .. | .cvtq .. | .cvtqAuto .. | .cvtdq .. | .bscale .. | .exp2 .. | .lg2 .. | .rcp .. | .rsq .. | .sqrt .. => 2
  | .perm .. | .rfal .. | .voteAny .. | .voteAll .. | .voteBallot .. | .redv .. | .scanv .. | .scanvExcl .. | .pand ..
  | .por .. | .pxor .. | .pnot .. | .pmov .. | .idxset .. | .idxget .. | .rpt .. => 3
  | .ld .. | .st .. | .lda .. | .stl .. | .pref .. | .prefL2 .. | .stmap .. | .stflush .. => 4
  | .atom .. | .groupSubmission .. | .red .. | .fence .. | .acq .. | .rel .. | .monw .. | .wait .. | .bar ..
  | .barArrive .. | .evtAdd .. | .evtSub .. | .evtSet .. | .cpy .. | .cpym .. | .gath .. | .coll .. => 5
  | .mapset .. | .mma .. | .mmas .. | .mzero .. | .accrdF32 .. | .accrdPair .. | .accrdI32 .. | .accwrF32 ..
  | .accwrI32 .. | .mstat .. => 6
  | .bra .. | .brx .. | .call .. | .ret .. | .exit .. | .elect .. | .yield .. | .nop .. | .getsys .. | .trap .. | .rtt ..
  | .spawn .. | .spawnc .. | .uint .. | .setseg .. | .setrgn .. | .tlbinvPage .. | .tlbinvVi .. | .tlbinvAll ..
  | .icinvRange .. | .icinvAll .. | .setviHandler .. | .setviSwap .. | .setviPtroot .. | .setviState .. | .setviUint ..
  | .setviKeys .. | .setviKeybase .. => 7
  | _ => 8

/-- The instructions that a service core lacks (R296). -/
def Instr.lacksService (i : Instr) : Bool :=
  match i with
  | .stmap .. | .stflush .. | .cpym .. | .gath .. | .coll .. => true
  | _ => i.family == 6

/-- The privileged instructions (R128). -/
def Instr.privileged : Instr → Bool
  | .setseg .. | .setrgn .. | .tlbinvPage .. | .tlbinvVi .. | .tlbinvAll .. | .icinvRange .. | .icinvAll ..
  | .setviHandler .. | .setviSwap .. | .setviPtroot .. | .setviState .. | .setviUint .. | .setviKeys ..
  | .setviKeybase .. => true
  | _ => false

/-- The engine class of a clause allows an instruction (R103). -/
def Instr.allowedIn (i : Instr) (cls : Nat) : Bool :=
  let f := i.family
  if f ≤ 3 then decide (cls ≤ 4)
  else if f ≤ 5 then cls == 1
  else if f = 6 then cls == 2
  else if i.privileged then cls == 4
  else decide (1 ≤ cls) && decide (cls ≤ 4)

end Sys2Proof
end

