-- ==== Sys2Proof/Decode.lean ====
section
/-! DEFINITION. From instruction words to instructions and back (R101 to R131). The decoder is total: a word is an
instruction or an illegal-instruction subcode, the lowest that it qualifies for (R131). -/
namespace Sys2Proof

/-- Bits [lo + n - 1 : lo] of a word. -/
def fld (w lo n : Nat) : Nat := w / 2 ^ lo % 2 ^ n

/-- A word read so far: breaches of subcodes 1, 2 and 3 that its bits show, and the instruction its fields name. -/
structure Raw where
  s1 : Bool
  s2 : Bool
  s3 : Bool
  i : Instr
  deriving DecidableEq, Repr

/-- The lowest subcode that a word qualifies for, or its instruction (R131). -/
def Raw.result (r : Raw) : Except Nat Instr :=
  if r.s1 || r.i.reserved then .error 1
  else if r.s2 then .error 2
  else if r.s3 || !r.i.accepted then .error 3
  else .ok r.i

/-- The guard (R108). -/
def guardOf (w : Nat) : Guard := ⟨BitVec.ofNat 5 (fld w 9 5), fld w 14 1 == 1⟩

/-- A rounding mode (R82). -/
def rmodeOf : Nat → RMode
  | 0 => .rne | 1 => .rz | 2 => .ru | _ => .rd

/-- A format code (R69). -/
def fmtOf : Nat → Fmt
  | 0 => .f32 | 1 => .f16 | 2 => .bf16 | 3 => .e4m3 | 4 => .e5m2 | 5 => .e2m1 | 6 => .i8 | _ => .i32

/-- A combination code (R149). -/
def bopOf : Nat → Bop
  | 0 => .none | 1 => .and | 2 => .or | _ => .xor

/-- An integer comparison code (R149). -/
def icmpOf : Nat → ICmp
  | 0 => .eq | 1 => .ne | 2 => .lt | 3 => .le | 4 => .gt | _ => .ge

/-- A floating comparison code (R154). -/
def fcmpOf : Nat → FCmp
  | 0 => .eq | 1 => .ne | 2 => .lt | 3 => .le | 4 => .gt | 5 => .ge | 6 => .num | _ => .nan

/-- A reduction index (R122). -/
def redOpOf : Nat → RedOp
  | 0 => .addF32 | 1 => .addI32 | 2 => .minF32 | 3 => .minSgn | 4 => .minUns | 5 => .maxF32 | 6 => .maxSgn
  | 7 => .maxUns | 8 => .and | 9 => .or | _ => .xor

/-- An atomic variant (R124). -/
def atomVarOf : Nat → AtomVar
  | 0 => .add32 | 1 => .add64 | 2 => .addF32 | 3 => .minSgn32 | 4 => .minUns32 | 5 => .minSgn64 | 6 => .minUns64
  | 7 => .maxSgn32 | 8 => .maxUns32 | 9 => .maxSgn64 | 10 => .maxUns64 | 11 => .and32 | 12 => .and64 | 13 => .or32
  | 14 => .or64 | 15 => .xor32 | 16 => .xor64 | 17 => .xchg32 | 18 => .xchg64 | 19 => .cas32 | _ => .cas64

/-- An index field selector (R173). -/
def idxFieldOf : Nat → IdxField
  | 0 => .word | 1 => .base | 2 => .bound | 3 => .offset | 4 => .step | _ => .mode

/-- A scope code (R115). -/
def scopeOf : Nat → Scope
  | 0 => .grp | 1 => .die | 2 => .pkg | _ => .sys

/-- A monitor comparison code (R199). -/
def monCmpOf : Nat → MonCmp
  | 0 => .eq | 1 => .ne | 2 => .ge | _ => .lt

/-- A system-value selector (R62). -/
def sysValOf : Nat → SysVal
  | 0 => .lane | 1 => .group | 2 => .team | 3 => .core | 4 => .die | 5 => .pair | 6 => .gridx | 7 => .gridy
  | 8 => .gridz | 9 => .tick | _ => .vi

/-- A format A operand from its class and field (R112, R113). -/
def opndOf (cls f : Nat) : Opnd :=
  match cls with
  | 0 => .v (BitVec.ofNat 8 f)
  | 1 => .s (BitVec.ofNat 6 f)
  | 2 => .ind (match fld f 3 2 with | 0 => .none | 1 => .up | _ => .down) (BitVec.ofNat 3 f)
  | _ => match fld f 5 3 with
    | 0 => .zero
    | 1 => .p (BitVec.ofNat 5 f)
    | 2 => .x (BitVec.ofNat 3 f)
    | 3 => .fsr
    | _ => .zero

/-- Reserved bits or values of an operand field (subcode 1) that its operand no longer shows. -/
def opndBad1 (cls f : Nat) : Bool :=
  match cls with
  | 0 => false
  | 1 => decide (64 ≤ f)
  | 2 => decide (32 ≤ f) || decide (fld f 3 2 = 3)
  | _ => match fld f 5 3 with
    | 0 => decide (fld f 0 5 ≠ 0)
    | 2 => decide (8 ≤ fld f 0 5)
    | 3 => decide (fld f 0 5 ≠ 0)
    | _ => false

/-- Kinds 4 to 7 of class 3 (subcode 2). -/
def opndBad2 (cls f : Nat) : Bool := decide (cls = 3) && decide (128 ≤ f)

/-- The fields of a format A word (R111). -/
structure AFields where
  g : Guard
  mods : BitVec 6
  sel : BitVec 3
  d : Opnd
  a : Opnd
  b : Opnd
  c : Opnd
  deriving DecidableEq, Repr

/-- An operand position that an instruction leaves unused holds class 3, kind 0, index 0 (R111). -/
def unusedBad (used : Bool) (cls f : Nat) : Bool := !used && !(decide (cls = 3) && decide (f = 0))

/-- A predicate number beyond p23 in a position that is unused (R113). -/
def predBad (cls f : Nat) : Bool := decide (cls = 3) && decide (fld f 5 3 = 1) && decide (24 ≤ fld f 0 5)

/-- Read a format A word (R111): which positions it uses, the mod bits and the largest sel it gives a meaning. -/
def rawA (w : Nat) (useA useB useC : Bool) (mask selMax : Nat) (mk : AFields → Instr) : Raw :=
  let cc := fld w 53 2
  let bc := fld w 51 2
  let ac := fld w 49 2
  let dc := fld w 47 2
  let c := fld w 39 8
  let b := fld w 31 8
  let a := fld w 23 8
  let d := fld w 15 8
  let mods := BitVec.ofNat 6 (fld w 58 6)
  let bad (f : Nat → Nat → Bool) : Bool := f dc d || f ac a || f bc b || f cc c
  { s1 := bad opndBad1 || bad predBad || !modsOk (BitVec.ofNat 6 mask) mods || decide (selMax < fld w 55 3)
    s2 := bad opndBad2
    s3 := unusedBad useA ac a || unusedBad useB bc b || unusedBad useC cc c
    i := mk ⟨guardOf w, mods, BitVec.ofNat 3 (fld w 55 3), opndOf dc d, opndOf ac a, opndOf bc b, opndOf cc c⟩ }

/-- Read a format B word (R114): guard, U, d, a and the immediate. -/
def rawB (w : Nat) (mk : Guard → Bool → BitVec 8 → BitVec 8 → Word → Instr) : Raw :=
  ⟨false, false, false,
    mk (guardOf w) (fld w 63 1 == 1) (BitVec.ofNat 8 (fld w 15 8)) (BitVec.ofNat 8 (fld w 23 8)) (BitVec.ofNat 32 (fld w 31 32))⟩

/-- MOVI by its selector (R151). -/
def rawMovi (w : Nat) : Raw :=
  let u := fld w 63 1 == 1
  let d := BitVec.ofNat 8 (fld w 15 8)
  let imm := BitVec.ofNat 32 (fld w 31 32)
  match fld w 23 8 with
  | 0 => ⟨false, false, false, .movi (guardOf w) u d imm⟩
  | 1 => ⟨u && decide (64 ≤ fld w 15 8), false, !u, if u then .moviHi (guardOf w) d imm else .nop (guardOf w)⟩
  | 2 => ⟨u && decide (64 ≤ fld w 15 8), false, !u, if u then .moviSx (guardOf w) d imm else .nop (guardOf w)⟩
  | _ => ⟨true, false, false, .nop (guardOf w)⟩

/-- RPT (R174, R176). -/
def rawRpt (w : Nat) : Raw :=
  { s1 := decide (fld w 63 1 ≠ 0) || decide (fld w 15 8 ≠ 0) || decide (fld w 23 8 ≠ 0) || decide (fld w 45 18 ≠ 0)
    s2 := false
    s3 := false
    i := .rpt (guardOf w) (BitVec.ofNat 4 (fld w 37 4)) (BitVec.ofNat 4 (fld w 41 4)) (BitVec.ofNat 6 (fld w 31 6)) }

/-- The fields of a format L word that every memory instruction uses (R115). -/
def largsOf (w : Nat) : LArgs :=
  ⟨BitVec.ofNat 24 (fld w 40 24), BitVec.ofNat 3 (fld w 33 3), fld w 32 1 == 1, fld w 31 1 == 1,
    BitVec.ofNat 8 (fld w 23 8), BitVec.ofNat 8 (fld w 15 8)⟩

/-- LD or LDA by the order field (R115, R123). -/
def rawLd (w : Nat) (sz : Size) (sx : Bool) : Raw :=
  match fld w 38 2 with
  | 0 => ⟨false, false, decide (fld w 36 2 ≠ 0), .ld (guardOf w) sz sx (largsOf w)⟩
  | 1 => ⟨false, false, false, .lda (guardOf w) sz sx (scopeOf (fld w 36 2)) (largsOf w)⟩
  | 2 => ⟨false, false, true, .ld (guardOf w) sz sx (largsOf w)⟩
  | _ => ⟨true, false, false, .ld (guardOf w) sz sx (largsOf w)⟩

/-- ST or STL by the order field (R115, R123). -/
def rawSt (w : Nat) (sz : Size) : Raw :=
  match fld w 38 2 with
  | 0 => ⟨false, false, decide (fld w 36 2 ≠ 0), .st (guardOf w) sz (largsOf w)⟩
  | 1 => ⟨false, false, true, .st (guardOf w) sz (largsOf w)⟩
  | 2 => ⟨false, false, false, .stl (guardOf w) sz (scopeOf (fld w 36 2)) (largsOf w)⟩
  | _ => ⟨true, false, false, .st (guardOf w) sz (largsOf w)⟩

/-- PREF (R191). -/
def rawPref (w : Nat) : Raw :=
  let bad := decide (fld w 36 2 ≠ 0)
  match fld w 38 2 with
  | 0 => ⟨bad, false, false, .pref (guardOf w) (largsOf w)⟩
  | 1 => ⟨bad, false, false, .prefL2 (guardOf w) (largsOf w)⟩
  | _ => ⟨true, false, false, .pref (guardOf w) (largsOf w)⟩

/-- ATOM and RED: order must be 0 (R194, R195). -/
def rawAtom (w : Nat) (mk : Guard → Scope → LArgs → Instr) : Raw :=
  ⟨decide (fld w 38 2 ≠ 0), false, false, mk (guardOf w) (scopeOf (fld w 36 2)) (largsOf w)⟩

/-- The fields of a format Y word (R116). -/
structure YFields where
  g : Guard
  acq : AcqPart
  rel : Rel
  cmp : BitVec 3
  ud : BitVec 6
  uc : BitVec 6
  ub : BitVec 6
  ua : BitVec 6
  deriving DecidableEq, Repr

/-- Read a format Y word: the operands it uses, whether cmp must be 7, the A and L it accepts (`none`: either),
and the subcode of a cmp, A or L that it refuses (R116, R216, R244). -/
def rawY (w : Nat) (useA useB useC useD cmp7 : Bool) (okA okL : Option Bool) (strict : Bool) (mk : YFields → Instr) : Raw :=
  let aBit := fld w 42 1 == 1
  let lBit := fld w 45 1 == 1
  let refused := (cmp7 && decide (fld w 39 3 ≠ 7)) || (match okA with | some x => aBit != x | none => false)
    || (match okL with | some x => lBit != x | none => false)
  let zero := (!useA && decide (fld w 15 6 ≠ 0)) || (!useB && decide (fld w 21 6 ≠ 0)) || (!useC && decide (fld w 27 6 ≠ 0))
    || (!useD && decide (fld w 33 6 ≠ 0)) || (!aBit && (decide (fld w 43 2 ≠ 0) || decide (fld w 48 16 ≠ 0)))
    || (!lBit && decide (fld w 46 2 ≠ 0))
  { s1 := zero || (strict && refused)
    s2 := false
    s3 := !strict && refused
    i := mk ⟨guardOf w, if aBit then some (scopeOf (fld w 43 2), BitVec.ofNat 16 (fld w 48 16)) else none,
      if lBit then some (scopeOf (fld w 46 2)) else none, BitVec.ofNat 3 (fld w 39 3), BitVec.ofNat 6 (fld w 33 6),
      BitVec.ofNat 6 (fld w 27 6), BitVec.ofNat 6 (fld w 21 6), BitVec.ofNat 6 (fld w 15 6)⟩ }

/-- An engine command's operands. -/
def YFields.args (y : YFields) : YArgs := ⟨y.acq, y.rel, y.cmp, y.ud, y.uc, y.ub, y.ua⟩

/-- Nonzero bits of format M fields that an instruction does not use (R218). -/
def mBad (w : Nat) (p z sel s v tb ta acc : Bool) : Bool :=
  decide (fld w 46 18 ≠ 0) || (!p && decide (fld w 45 1 ≠ 0)) || (!z && decide (fld w 44 1 ≠ 0))
    || (!sel && decide (fld w 40 4 ≠ 0)) || (!s && decide (fld w 34 6 ≠ 0)) || (!v && decide (fld w 26 8 ≠ 0))
    || (!tb && decide (fld w 22 4 ≠ 0)) || (!ta && decide (fld w 18 4 ≠ 0)) || (!acc && decide (fld w 15 3 ≠ 0))

/-- The fields of a readout or write (R218). -/
def rargsOf (w : Nat) : RArgs :=
  ⟨BitVec.ofNat 4 (fld w 40 4), BitVec.ofNat 6 (fld w 34 6), BitVec.ofNat 8 (fld w 26 8), BitVec.ofNat 3 (fld w 15 3)⟩

/-- Nonzero bits of format Z fields that an instruction does not use. -/
def zBad (w : Nat) (imm v sel vreg sb sa : Bool) : Bool :=
  (!imm && decide (fld w 40 24 ≠ 0)) || (!v && decide (fld w 39 1 ≠ 0)) || (!sel && decide (fld w 35 4 ≠ 0))
    || (!vreg && decide (fld w 27 8 ≠ 0)) || (!sb && decide (fld w 21 6 ≠ 0)) || (!sa && decide (fld w 15 6 ≠ 0))

/-- A two-source instruction of format A with no mod and no sel. -/
def raw2 (w : Nat) (mk : Guard → Opnd → Opnd → Opnd → Instr) : Raw :=
  rawA w true true false 0 0 fun x => mk x.g x.d x.a x.b

/-- A one-source instruction of format A with no mod and no sel. -/
def raw1 (w : Nat) (mk : Guard → Opnd → Opnd → Instr) : Raw :=
  rawA w true false false 0 0 fun x => mk x.g x.d x.a

/-- A three-source instruction of format A with no mod and no sel. -/
def raw3 (w : Nat) (mk : Guard → Opnd → Opnd → Opnd → Opnd → Instr) : Raw :=
  rawA w true true true 0 0 fun x => mk x.g x.d x.a x.b x.c

/-- An immediate form of format B (R151, R158). -/
def rawImm (w : Nat) (mk : Guard → Bool → BitVec 8 → BitVec 8 → Word → Instr) : Raw := rawB w mk

/-- Family 0 (R119). -/
def rawF0 (op w : Nat) : Option Raw :=
  match op with
  | 0x00 => some (raw2 w .iadd)
  | 0x01 => some (raw2 w .isub)
  | 0x02 => some (raw2 w .imul)
  | 0x03 => some (raw2 w fun g => .imulh g true)
  | 0x04 => some (raw2 w fun g => .imulh g false)
  | 0x05 => some (raw3 w .imad)
  | 0x06 => some (raw2 w fun g => .imin g true)
  | 0x07 => some (raw2 w fun g => .imin g false)
  | 0x08 => some (raw2 w fun g => .imax g true)
  | 0x09 => some (raw2 w fun g => .imax g false)
  | 0x0A => some (raw1 w .iabs)
  | 0x0B => some (raw1 w .ineg)
  | 0x0C => some (raw2 w .and)
  | 0x0D => some (raw2 w .or)
  | 0x0E => some (raw2 w .xor)
  | 0x0F => some (raw1 w .not)
  | 0x10 => some (raw2 w .shl)
  | 0x11 => some (raw2 w .shr)
  | 0x12 => some (raw2 w .sar)
  | 0x13 => some (raw2 w .rot)
  | 0x14 => some (raw2 w fun g => .bfe g false)
  | 0x15 => some (raw2 w fun g => .bfe g true)
  | 0x16 => some (raw3 w .bfi)
  | 0x17 => some (raw1 w .popc)
  | 0x18 => some (raw1 w .clz)
  | 0x19 => some (raw1 w .brev)
  | 0x1A => some (raw3 w .sel)
  | 0x1B => some (raw1 w .mov)
  | 0x1C => some (rawA w true true true 0x30 5 fun x =>
      .isetp x.g true (bopOf (x.mods.toNat / 16)) (icmpOf x.sel.toNat) x.d x.a x.b x.c)
  | 0x1D => some (rawA w true true true 0x30 5 fun x =>
      .isetp x.g false (bopOf (x.mods.toNat / 16)) (icmpOf x.sel.toNat) x.d x.a x.b x.c)
  | 0x1E => some (rawA w true true false 0x01 7 fun x => .lea x.g (x.mods.toNat % 2 == 1) x.sel x.d x.a x.b)
  | 0x1F => some (raw2 w .iadd64)
  | 0x20 => some (raw2 w fun g => .iaddSat g true)
  | 0x21 => some (raw2 w fun g => .iaddSat g false)
  | 0x22 => some (raw2 w fun g => .isubSat g true)
  | 0x23 => some (raw2 w fun g => .isubSat g false)
  | 0x24 => some (raw2 w .iaddX2)
  | 0x25 => some (raw2 w .isubX2)
  | 0x26 => some (raw2 w fun g => .iminX2 g true)
  | 0x27 => some (raw2 w fun g => .iminX2 g false)
  | 0x28 => some (raw2 w fun g => .imaxX2 g true)
  | 0x29 => some (raw2 w fun g => .imaxX2 g false)
  | 0x30 => some (rawMovi w)
  | 0x31 => some (rawImm w .iaddImm)
  | 0x32 => some (rawImm w .imulImm)
  | 0x33 => some (rawImm w .andImm)
  | 0x34 => some (rawImm w .orImm)
  | 0x35 => some (rawImm w .xorImm)
  | 0x36 => some (rawImm w .shlImm)
  | 0x37 => some (rawImm w .shrImm)
  | 0x38 => some (rawImm w .sarImm)
  | 0x39 => some (rawImm w .leaImm)
  | _ => none

/-- Family 1 (R120). -/
def rawF1 (op w : Nat) : Option Raw :=
  if op < 0x50 then
    let m := rmodeOf (op % 16 / 4)
    match op % 4 with
    | 0 => some (rawA w true true false 0x0F 0 fun x => .fadd x.g m x.mods x.d x.a x.b)
    | 1 => some (rawA w true true false 0x0F 0 fun x => .fsub x.g m x.mods x.d x.a x.b)
    | 2 => some (rawA w true true false 0x0F 0 fun x => .fmul x.g m x.mods x.d x.a x.b)
    | _ => some (rawA w true true true 0x3F 0 fun x => .ffma x.g m x.mods x.d x.a x.b x.c)
  else match op with
  | 0x50 => some (rawA w true true false 0x0F 0 fun x => .fmin x.g x.mods x.d x.a x.b)
  | 0x51 => some (rawA w true true false 0x0F 0 fun x => .fmax x.g x.mods x.d x.a x.b)
  | 0x52 => some (rawA w true true true 0x3F 0 fun x => .fclamp x.g x.mods x.d x.a x.b x.c)
  | 0x53 => some (rawA w true true true 0x3F 7 fun x =>
      .fsetp x.g (bopOf (x.mods.toNat / 16)) (x.mods &&& 0x0F) (fcmpOf x.sel.toNat) x.d x.a x.b x.c)
  | 0x54 => some (rawA w true false false 0x03 3 fun x => .frnd x.g (rmodeOf x.sel.toNat) x.mods x.d x.a)
  | 0x55 => some (rawA w true true false 0x0F 0 fun x => .hadd2 x.g false x.mods x.d x.a x.b)
  | 0x56 => some (rawA w true true false 0x0F 0 fun x => .hadd2 x.g true x.mods x.d x.a x.b)
  | 0x57 => some (rawA w true true true 0x3F 0 fun x => .hfma2 x.g false x.mods x.d x.a x.b x.c)
  | 0x58 => some (rawA w true true true 0x3F 0 fun x => .hfma2 x.g true x.mods x.d x.a x.b x.c)
  | 0x59 => some (rawA w true true true 0x3F 0 fun x => .fdot4 x.g false x.mods x.d x.a x.b x.c)
  | 0x5A => some (rawA w true true true 0x3F 0 fun x => .fdot4 x.g true x.mods x.d x.a x.b x.c)
  | 0x60 => some (rawImm w .faddImm)
  | 0x61 => some (rawImm w .fmulImm)
  | _ => none

/-- Family 2 (R121). -/
def rawF2 (op w : Nat) : Option Raw :=
  if op < 0xB8 then
    let d := (op - 0x80) / 7
    let j := (op - 0x80) % 7
    some (rawA w true false false 0x3F 7 fun x =>
      .cvt x.g (fmtOf d) (fmtOf (if j < d then j else j + 1)) x.sel (BitVec.ofNat 3 (x.mods.toNat / 4 % 8))
        (rmodeOf (x.mods.toNat % 4)) (x.mods.toNat / 32 == 1) x.d x.a)
  else match op with
  | 0xB8 =>
    if fld w 58 1 = 1 then some (rawA w true false true 0x01 7 fun x => .cvtqAuto x.g x.sel x.d x.a x.c)
    else some (rawA w true true true 0x01 7 fun x => .cvtq x.g x.sel x.d x.a x.b x.c)
  | 0xB9 => some (rawA w true true true 0 7 fun x => .cvtdq x.g x.sel x.d x.a x.b x.c)
  | 0xBA => some (rawA w true false false 0 7 fun x => .bscale x.g x.sel x.d x.a)
  | 0xBB => some (rawA w true true true 0x3F 0 fun x => .exp2 x.g x.mods x.d x.a x.b x.c)
  | 0xBC => some (rawA w true false false 0x03 0 fun x => .lg2 x.g x.mods x.d x.a)
  | 0xBD => some (rawA w true false false 0x03 0 fun x => .rcp x.g x.mods x.d x.a)
  | 0xBE => some (rawA w true false false 0x03 0 fun x => .rsq x.g x.mods x.d x.a)
  | 0xBF => some (rawA w true false false 0x03 0 fun x => .sqrt x.g x.mods x.d x.a)
  | _ => none

/-- Family 3 (R122). -/
def rawF3 (op w : Nat) : Option Raw :=
  if 0xC8 ≤ op ∧ op < 0xD3 then some (raw1 w fun g => .redv g (redOpOf (op - 0xC8)))
  else if 0xD8 ≤ op ∧ op < 0xE3 then some (raw1 w fun g => .scanv g (redOpOf (op - 0xD8)))
  else if 0xE8 ≤ op ∧ op < 0xF3 then some (raw1 w fun g => .scanvExcl g (redOpOf (op - 0xE8)))
  else match op with
  | 0xC0 => some (raw3 w .perm)
  | 0xC1 => some (raw1 w .rfal)
  | 0xC2 => some (rawA w true false false 1 0 fun x => .voteAny x.g (x.mods.toNat % 2 == 1) x.d x.a)
  | 0xC3 => some (rawA w true false false 1 0 fun x => .voteAll x.g (x.mods.toNat % 2 == 1) x.d x.a)
  | 0xC4 => some (rawA w true false false 1 0 fun x => .voteBallot x.g (x.mods.toNat % 2 == 1) x.d x.a)
  | 0xF8 => some (rawA w true true false 3 0 fun x => .pand x.g (x.mods.toNat % 2 == 1) (x.mods.toNat / 2 % 2 == 1) x.d x.a x.b)
  | 0xF9 => some (rawA w true true false 3 0 fun x => .por x.g (x.mods.toNat % 2 == 1) (x.mods.toNat / 2 % 2 == 1) x.d x.a x.b)
  | 0xFA => some (rawA w true true false 3 0 fun x => .pxor x.g (x.mods.toNat % 2 == 1) (x.mods.toNat / 2 % 2 == 1) x.d x.a x.b)
  | 0xFB => some (rawA w true false false 1 0 fun x => .pnot x.g (x.mods.toNat % 2 == 1) x.d x.a)
  | 0xFC => some (rawA w true false false 1 0 fun x => .pmov x.g (x.mods.toNat % 2 == 1) x.d x.a)
  | 0xFD => some (rawA w true false false 0 5 fun x => .idxset x.g (idxFieldOf x.sel.toNat) x.d x.a)
  | 0xFE => some (rawA w true false false 0 5 fun x => .idxget x.g (idxFieldOf x.sel.toNat) x.d x.a)
  | 0xFF => some (rawRpt w)
  | _ => none

/-- Family 4 (R123). -/
def rawF4 (op w : Nat) : Option Raw :=
  match op with
  | 0x100 => some (rawLd w .b8 false)
  | 0x101 => some (rawLd w .b8 true)
  | 0x102 => some (rawLd w .b16 false)
  | 0x103 => some (rawLd w .b16 true)
  | 0x104 => some (rawLd w .b32 false)
  | 0x105 => some (rawLd w .b64 false)
  | 0x106 => some (rawLd w .b128 false)
  | 0x108 => some (rawSt w .b8)
  | 0x109 => some (rawSt w .b16)
  | 0x10A => some (rawSt w .b32)
  | 0x10B => some (rawSt w .b64)
  | 0x10C => some (rawSt w .b128)
  | 0x110 => some (rawPref w)
  | 0x111 => some (rawY w true true true false true (some false) (some false) false fun y => .stmap y.g y.uc y.ub y.ua)
  | 0x112 => some (rawY w true true false false false (some false) none false fun y => .stflush y.g y.rel y.cmp y.ub y.ua)
  | _ => none

/-- Family 5 (R124). -/
def rawF5 (op w : Nat) : Option Raw :=
  if 0x140 ≤ op ∧ op < 0x155 then some (rawAtom w fun g => .atom g (atomVarOf (op - 0x140)))
  else if 0x158 ≤ op ∧ op < 0x16B then some (rawAtom w fun g => .red g (atomVarOf (op - 0x158)))
  else match op with
  | 0x170 => some (rawY w false false false true true (some false) (some true) false fun y => .fence y.g (y.rel.getD .grp) y.ud)
  | 0x171 => some (rawY w false false false false true (some true) (some false) false fun y =>
      .acq y.g (y.acq.getD (.grp, 0)).1 (y.acq.getD (.grp, 0)).2)
  | 0x172 => some (rawY w false false false false true (some false) (some true) false fun y => .rel y.g (y.rel.getD .grp))
  | 0x173 => some ⟨false, false, false, .monw (guardOf w) (BitVec.ofNat 2 (fld w 38 2)) (monCmpOf (fld w 36 2)) (largsOf w)⟩
  | 0x174 => some (rawA w true true true 0 7 fun x =>
      .wait x.g (decide (4 ≤ x.sel.toNat)) (BitVec.ofNat 2 x.sel.toNat) x.d x.a x.b x.c)
  | 0x175 =>
    if fld w 58 1 = 1 then some (rawA w false false false 1 7 fun x => .barArrive x.g x.sel x.d)
    else some (rawA w false false false 1 7 fun x => .bar x.g x.sel x.d)
  | 0x176 => some (rawA w true false false 0 5 fun x => .evtAdd x.g x.sel x.d x.a)
  | 0x177 => some (rawA w true false false 0 5 fun x => .evtSub x.g x.sel x.d x.a)
  | 0x178 => some (rawA w true false false 0 5 fun x => .evtSet x.g x.sel x.d x.a)
  | 0x179 => some (rawY w true true true false false none none false fun y => .cpy y.g y.args)
  | 0x17A => some (rawY w true true true true false none none false fun y => .cpym y.g y.args)
  | 0x17B => some (rawY w true true true true false none none false fun y => .gath y.g y.args)
  | 0x17C => some (rawY w true true true true false none none false fun y => .coll y.g y.args)
  | _ => none

/-- Family 6 (R125, R218). -/
def rawF6 (op w : Nat) : Option Raw :=
  let g := guardOf w
  let tb := BitVec.ofNat 4 (fld w 22 4)
  let ta := BitVec.ofNat 4 (fld w 18 4)
  let acc := BitVec.ofNat 3 (fld w 15 3)
  let p := fld w 45 1 == 1
  let z := fld w 44 1 == 1
  match op with
  | 0x180 => some ⟨mBad w false false false true false false true false, false, false,
      .mapset g (BitVec.ofNat 6 (fld w 34 6)) ta⟩
  | 0x181 => some ⟨mBad w true true false false false true true true, false, false, .mma g p z tb ta acc⟩
  | 0x182 => some ⟨mBad w true true true false true true true true || decide (4 ≤ fld w 40 4), false, false,
      .mmas g p z (BitVec.ofNat 2 (fld w 40 4)) (BitVec.ofNat 8 (fld w 26 8)) tb ta acc⟩
  | 0x183 => some ⟨mBad w true false false false false false false true, false, false, .mzero g p acc⟩
  | 0x184 => some ⟨mBad w false false true true true false false true, false, false, .accrdF32 g (rargsOf w)⟩
  | 0x185 => some ⟨mBad w false false true true true false false true, false, false, .accrdPair g (rargsOf w)⟩
  | 0x186 => some ⟨mBad w false false true true true false false true, false, false, .accrdI32 g (rargsOf w)⟩
  | 0x187 => some ⟨mBad w false false true true true false false true, false, false, .accwrF32 g (rargsOf w)⟩
  | 0x188 => some ⟨mBad w false false true true true false false true, false, false, .accwrI32 g (rargsOf w)⟩
  | 0x189 => some ⟨mBad w false false true true false false false true || decide (2 ≤ fld w 40 4), false, false,
      .mstat g (fld w 40 4 == 1) (BitVec.ofNat 6 (fld w 34 6)) acc⟩
  | _ => none

/-- Family 7 (R126, R233 to R251). -/
def rawF7 (op w : Nat) : Option Raw :=
  let g := guardOf w
  let lnk := BitVec.ofNat 8 (fld w 47 8)
  let off := BitVec.ofNat 32 (fld w 15 32)
  let jres := decide (fld w 55 9 ≠ 0)
  let sa := BitVec.ofNat 6 (fld w 15 6)
  let sb := BitVec.ofNat 6 (fld w 21 6)
  let none0 := zBad w false false false false false false
  let ab := zBad w false false true false true true
  match op with
  | 0x1C0 => some ⟨jres || decide (fld w 47 8 ≠ 0), false, false, .bra g off⟩
  | 0x1C1 => some ⟨jres || decide (fld w 15 32 ≠ 0), false, false, .brx g lnk⟩
  | 0x1C2 => some ⟨jres, false, false, .call g lnk off⟩
  | 0x1C3 => some ⟨jres || decide (fld w 15 32 ≠ 0), false, false, .ret g lnk⟩
  | 0x1C4 => some ⟨none0, false, false, .exit g⟩
  | 0x1C5 => some (rawA w false false false 0 0 fun x => .elect x.g x.d)
  | 0x1C6 => some (rawY w true true false false true (some false) none true fun y => .spawn y.g y.rel y.ub y.ua)
  | 0x1C7 => some (rawY w true true true false true (some false) none true fun y => .spawnc y.g y.rel y.uc y.ub y.ua)
  | 0x1C8 => some ⟨none0, false, false, .yield g⟩
  | 0x1C9 => some ⟨zBad w true false false false false false, false, false, .trap g (BitVec.ofNat 24 (fld w 40 24))⟩
  | 0x1CA => some ⟨none0, false, false, .rtt g⟩
  | 0x1CB => some ⟨none0, false, false, .nop g⟩
  | 0x1CC =>
    if fld w 39 1 = 1 then some ⟨zBad w false true true true false false, false, decide (11 ≤ fld w 35 4),
      .getsys g (sysValOf (fld w 35 4)) (.v (BitVec.ofNat 8 (fld w 27 8)))⟩
    else some ⟨zBad w false true true false false true, false, decide (11 ≤ fld w 35 4), .getsys g (sysValOf (fld w 35 4)) (.s sa)⟩
  | 0x1CD => some ⟨zBad w true false false false false true, false, false, .uint g (BitVec.ofNat 24 (fld w 40 24)) sa⟩
  | 0x1E0 => some ⟨ab || decide (6 ≤ fld w 35 4), false, false, .setseg g (BitVec.ofNat 3 (fld w 35 4)) sb sa⟩
  | 0x1E1 => some ⟨zBad w true false false false true true || decide (16 ≤ fld w 40 24), false, false,
      .setrgn g (BitVec.ofNat 4 (fld w 40 24)) sb sa⟩
  | 0x1E2 => match fld w 35 4 with
    | 0 => some ⟨ab, false, false, .tlbinvPage g sb sa⟩
    | 1 => some ⟨zBad w false false true false true false, false, false, .tlbinvVi g sb⟩
    | 2 => some ⟨zBad w false false true false false false, false, false, .tlbinvAll g⟩
    | _ => some ⟨true, false, false, .tlbinvAll g⟩
  | 0x1E3 => match fld w 35 4 with
    | 0 => some ⟨ab, false, false, .icinvRange g sb sa⟩
    | 1 => some ⟨zBad w false false true false false false, false, false, .icinvAll g⟩
    | _ => some ⟨true, false, false, .icinvAll g⟩
  | 0x1E4 => match fld w 35 4 with
    | 0 => some ⟨ab, false, false, .setviHandler g sb sa⟩
    | 1 => some ⟨ab, false, false, .setviSwap g sb sa⟩
    | 2 => some ⟨ab, false, false, .setviPtroot g sb sa⟩
    | 3 => some ⟨ab, false, false, .setviState g sb sa⟩
    | 4 => some ⟨ab, false, false, .setviUint g sb sa⟩
    | 5 => some ⟨ab, false, false, .setviKeys g sb sa⟩
    | 6 => some ⟨ab, false, false, .setviKeybase g sb sa⟩
    | _ => some ⟨true, false, false, .setviHandler g sb sa⟩
  | _ => none

/-- The opcode of a word (R108). -/
def opcodeOf (w : Nat) : Nat := w % 512

/-- Read a word's fields by the opcode map; `none` for an unassigned opcode (R127). -/
def rawOf (w : Nat) : Option Raw :=
  let op := opcodeOf w
  match op / 64 with
  | 0 => rawF0 op w
  | 1 => rawF1 op w
  | 2 => rawF2 op w
  | 3 => rawF3 op w
  | 4 => rawF4 op w
  | 5 => rawF5 op w
  | 6 => rawF6 op w
  | _ => rawF7 op w

/-- Decode an instruction word: the instruction, or the illegal-instruction subcode (R130, R131). -/
def decodeWord (w : Nat) : Except Nat Instr :=
  match rawOf w with
  | none => .error 0
  | some r => r.result

/-- The fields of a clause header (R102). -/
structure Header where
  count : Nat
  cls : Nat
  sp : Bool
  fuse : Bool
  park : Bool
  wait : Nat
  live : Nat
  deriving DecidableEq, Repr

/-- Read a clause header (R102). -/
def headerOf (w : Nat) : Header :=
  ⟨fld w 0 4, fld w 4 3, fld w 7 1 == 1, fld w 8 1 == 1, fld w 9 1 == 1, fld w 10 6, fld w 16 6⟩

/-- Bits [63:22] of a header are not all zero (R105). -/
def headerHigh (w : Nat) : Bool := decide (fld w 22 42 ≠ 0)

/-- A header with a reserved value (R105, subcode 6). -/
def headerBad (w : Nat) : Bool :=
  let h := headerOf w
  headerHigh w || decide (5 ≤ h.cls) || decide (32 < h.live) || (h.live != 0 && !h.sp)

/-- The header of a clause with no safe point, fuse, park or wait. -/
def plainHeader (cls count : Nat) : Nat := count + 16 * cls

/-- The instruction read from a table word: instruction words are 64 bits (R101), and an event has none. -/
def decodeTableWord (nbits w : Nat) : Option Instr :=
  if nbits ≤ 64 then (decodeWord (w % 2 ^ 64)).toOption else none

/-- A flag as a bit. -/
def bit (b : Bool) : Nat := if b then 1 else 0

/-- The code of a rounding mode (R82). -/
def RMode.code : RMode → Nat
  | .rne => 0 | .rz => 1 | .ru => 2 | .rd => 3

/-- The code of a format (R69). -/
def Fmt.code : Fmt → Nat
  | .f32 => 0 | .f16 => 1 | .bf16 => 2 | .e4m3 => 3 | .e5m2 => 4 | .e2m1 => 5 | .i8 => 6 | .i32 => 7

/-- The code of a combination (R149). -/
def Bop.code : Bop → Nat
  | .none => 0 | .and => 1 | .or => 2 | .xor => 3

/-- The code of an integer comparison (R149). -/
def ICmp.code : ICmp → Nat
  | .eq => 0 | .ne => 1 | .lt => 2 | .le => 3 | .gt => 4 | .ge => 5

/-- The code of a floating comparison (R154). -/
def FCmp.code : FCmp → Nat
  | .eq => 0 | .ne => 1 | .lt => 2 | .le => 3 | .gt => 4 | .ge => 5 | .num => 6 | .nan => 7

/-- The index of a reduction (R122). -/
def RedOp.code : RedOp → Nat
  | .addF32 => 0 | .addI32 => 1 | .minF32 => 2 | .minSgn => 3 | .minUns => 4 | .maxF32 => 5 | .maxSgn => 6
  | .maxUns => 7 | .and => 8 | .or => 9 | .xor => 10

/-- The index of an atomic variant (R124). -/
def AtomVar.code : AtomVar → Nat
  | .add32 => 0 | .add64 => 1 | .addF32 => 2 | .minSgn32 => 3 | .minUns32 => 4 | .minSgn64 => 5 | .minUns64 => 6
  | .maxSgn32 => 7 | .maxUns32 => 8 | .maxSgn64 => 9 | .maxUns64 => 10 | .and32 => 11 | .and64 => 12 | .or32 => 13
  | .or64 => 14 | .xor32 => 15 | .xor64 => 16 | .xchg32 => 17 | .xchg64 => 18 | .cas32 => 19 | .cas64 => 20

/-- The selector of an index field (R173). -/
def IdxField.code : IdxField → Nat
  | .word => 0 | .base => 1 | .bound => 2 | .offset => 3 | .step => 4 | .mode => 5

/-- The code of a scope (R115). -/
def Scope.code : Scope → Nat
  | .grp => 0 | .die => 1 | .pkg => 2 | .sys => 3

/-- The code of a monitor comparison (R199). -/
def MonCmp.code : MonCmp → Nat
  | .eq => 0 | .ne => 1 | .ge => 2 | .lt => 3

/-- The selector of a system value (R62). -/
def SysVal.code : SysVal → Nat
  | .lane => 0 | .group => 1 | .team => 2 | .core => 3 | .die => 4 | .pair => 5 | .gridx => 6 | .gridy => 7
  | .gridz => 8 | .tick => 9 | .vi => 10

/-- The size code of LD and ST in opcode order (R123). -/
def ldCode : Size → Bool → Nat
  | .b8, sx => bit sx
  | .b16, sx => 2 + bit sx
  | .b32, _ => 4
  | .b64, _ => 5
  | .b128, _ => 6

/-- The size code of ST (R123). -/
def stCode : Size → Nat
  | .b8 => 0 | .b16 => 1 | .b32 => 2 | .b64 => 3 | .b128 => 4

/-- The class of an operand (R112). -/
def Opnd.cls : Opnd → Nat
  | .v _ => 0
  | .s _ => 1
  | .ind _ _ => 2
  | _ => 3

/-- The field of an operand (R112, R113). -/
def Opnd.field : Opnd → Nat
  | .v n => n.toNat
  | .s n => n.toNat
  | .ind st k => k.toNat + 8 * (match st with | .none => 0 | .up => 1 | .down => 2)
  | .zero => 0
  | .p n => 32 + n.toNat
  | .x k => 64 + k.toNat
  | .fsr => 96

/-- Opcode and guard of a word (R108). -/
def encHead (op : Nat) (g : Guard) : Nat := op + g.pred.toNat * 2 ^ 9 + bit g.neg * 2 ^ 14

/-- A format A word (R111). -/
def encA (op : Nat) (g : Guard) (mods sel : Nat) (d a b c : Opnd) : Nat :=
  encHead op g + d.field * 2 ^ 15 + a.field * 2 ^ 23 + b.field * 2 ^ 31 + c.field * 2 ^ 39 + d.cls * 2 ^ 47
    + a.cls * 2 ^ 49 + b.cls * 2 ^ 51 + c.cls * 2 ^ 53 + sel * 2 ^ 55 + mods * 2 ^ 58

/-- A format B word (R114). -/
def encB (op : Nat) (g : Guard) (u : Bool) (d a imm : Nat) : Nat :=
  encHead op g + d * 2 ^ 15 + a * 2 ^ 23 + imm * 2 ^ 31 + bit u * 2 ^ 63

/-- A format L word (R115). -/
def encL (op : Nat) (g : Guard) (order scope : Nat) (l : LArgs) : Nat :=
  encHead op g + l.t.toNat * 2 ^ 15 + l.a.toNat * 2 ^ 23 + bit l.aU * 2 ^ 31 + bit l.tU * 2 ^ 32 + l.seg.toNat * 2 ^ 33
    + scope * 2 ^ 36 + order * 2 ^ 38 + l.off.toNat * 2 ^ 40

/-- A format Y word (R116). -/
def encY (op : Nat) (g : Guard) (acq : AcqPart) (rel : Rel) (cmp ud uc ub ua : Nat) : Nat :=
  encHead op g + ua * 2 ^ 15 + ub * 2 ^ 21 + uc * 2 ^ 27 + ud * 2 ^ 33 + cmp * 2 ^ 39
    + (match acq with | some (sc, m) => 2 ^ 42 + sc.code * 2 ^ 43 + m.toNat * 2 ^ 48 | none => 0)
    + (match rel with | some sc => 2 ^ 45 + sc.code * 2 ^ 46 | none => 0)

/-- An engine command's word. -/
def encCmd (op : Nat) (g : Guard) (y : YArgs) : Nat :=
  encY op g y.acq y.rel y.cmp.toNat y.ud.toNat y.uc.toNat y.ub.toNat y.ua.toNat

/-- A format M word (R117). -/
def encM (op : Nat) (g : Guard) (p z : Bool) (sel s v tb ta acc : Nat) : Nat :=
  encHead op g + acc * 2 ^ 15 + ta * 2 ^ 18 + tb * 2 ^ 22 + v * 2 ^ 26 + s * 2 ^ 34 + sel * 2 ^ 40 + bit z * 2 ^ 44
    + bit p * 2 ^ 45

/-- A readout or write word. -/
def encR (op : Nat) (g : Guard) (r : RArgs) : Nat :=
  encM op g false false r.n1.toNat r.s.toNat r.v.toNat 0 0 r.acc.toNat

/-- A format J word (R118). -/
def encJ (op : Nat) (g : Guard) (lnk off : Nat) : Nat := encHead op g + off * 2 ^ 15 + lnk * 2 ^ 47

/-- A format Z word (R118). -/
def encZ (op : Nat) (g : Guard) (imm : Nat) (vBit : Bool) (sel v sb sa : Nat) : Nat :=
  encHead op g + sa * 2 ^ 15 + sb * 2 ^ 21 + v * 2 ^ 27 + sel * 2 ^ 35 + bit vBit * 2 ^ 39 + imm * 2 ^ 40

/-- The word of a well-formed instruction (R111 to R126); 0 for an event, which has none. -/
def encode : Instr → Nat
  | .iadd g d a b => encA 0x000 g 0 0 d a b .zero
  | .isub g d a b => encA 0x001 g 0 0 d a b .zero
  | .imul g d a b => encA 0x002 g 0 0 d a b .zero
  | .imulh g sgn d a b => encA (if sgn then 0x003 else 0x004) g 0 0 d a b .zero
  | .imad g d a b c => encA 0x005 g 0 0 d a b c
  | .imin g sgn d a b => encA (if sgn then 0x006 else 0x007) g 0 0 d a b .zero
  | .imax g sgn d a b => encA (if sgn then 0x008 else 0x009) g 0 0 d a b .zero
  | .iabs g d a => encA 0x00A g 0 0 d a .zero .zero
  | .ineg g d a => encA 0x00B g 0 0 d a .zero .zero
  | .iaddSat g sgn d a b => encA (if sgn then 0x020 else 0x021) g 0 0 d a b .zero
  | .isubSat g sgn d a b => encA (if sgn then 0x022 else 0x023) g 0 0 d a b .zero
  | .iaddX2 g d a b => encA 0x024 g 0 0 d a b .zero
  | .isubX2 g d a b => encA 0x025 g 0 0 d a b .zero
  | .iminX2 g sgn d a b => encA (if sgn then 0x026 else 0x027) g 0 0 d a b .zero
  | .imaxX2 g sgn d a b => encA (if sgn then 0x028 else 0x029) g 0 0 d a b .zero
  | .and g d a b => encA 0x00C g 0 0 d a b .zero
  | .or g d a b => encA 0x00D g 0 0 d a b .zero
  | .xor g d a b => encA 0x00E g 0 0 d a b .zero
  | .not g d a => encA 0x00F g 0 0 d a .zero .zero
  | .shl g d a b => encA 0x010 g 0 0 d a b .zero
  | .shr g d a b => encA 0x011 g 0 0 d a b .zero
  | .sar g d a b => encA 0x012 g 0 0 d a b .zero
  | .rot g d a b => encA 0x013 g 0 0 d a b .zero
  | .bfe g sgn d a b => encA (if sgn then 0x015 else 0x014) g 0 0 d a b .zero
  | .bfi g d a b c => encA 0x016 g 0 0 d a b c
  | .popc g d a => encA 0x017 g 0 0 d a .zero .zero
  | .clz g d a => encA 0x018 g 0 0 d a .zero .zero
  | .brev g d a => encA 0x019 g 0 0 d a .zero .zero
  | .sel g d a b c => encA 0x01A g 0 0 d a b c
  | .mov g d a => encA 0x01B g 0 0 d a .zero .zero
  | .isetp g sgn bop cmp d a b c => encA (if sgn then 0x01C else 0x01D) g (16 * bop.code) cmp.code d a b c
  | .lea g sx sh d a b => encA 0x01E g (bit sx) sh.toNat d a b .zero
  | .iadd64 g d a b => encA 0x01F g 0 0 d a b .zero
  | .movi g u d imm => encB 0x030 g u d.toNat 0 imm.toNat
  | .moviHi g d imm => encB 0x030 g true d.toNat 1 imm.toNat
  | .moviSx g d imm => encB 0x030 g true d.toNat 2 imm.toNat
  | .iaddImm g u d a imm => encB 0x031 g u d.toNat a.toNat imm.toNat
  | .imulImm g u d a imm => encB 0x032 g u d.toNat a.toNat imm.toNat
  | .andImm g u d a imm => encB 0x033 g u d.toNat a.toNat imm.toNat
  | .orImm g u d a imm => encB 0x034 g u d.toNat a.toNat imm.toNat
  | .xorImm g u d a imm => encB 0x035 g u d.toNat a.toNat imm.toNat
  | .shlImm g u d a imm => encB 0x036 g u d.toNat a.toNat imm.toNat
  | .shrImm g u d a imm => encB 0x037 g u d.toNat a.toNat imm.toNat
  | .sarImm g u d a imm => encB 0x038 g u d.toNat a.toNat imm.toNat
  | .leaImm g u d a imm => encB 0x039 g u d.toNat a.toNat imm.toNat
  | .fadd g r m d a b => encA (0x040 + 4 * r.code) g m.toNat 0 d a b .zero
  | .fsub g r m d a b => encA (0x041 + 4 * r.code) g m.toNat 0 d a b .zero
  | .fmul g r m d a b => encA (0x042 + 4 * r.code) g m.toNat 0 d a b .zero
  | .ffma g r m d a b c => encA (0x043 + 4 * r.code) g m.toNat 0 d a b c
  | .fmin g m d a b => encA 0x050 g m.toNat 0 d a b .zero
  | .fmax g m d a b => encA 0x051 g m.toNat 0 d a b .zero
  | .fclamp g m d a b c => encA 0x052 g m.toNat 0 d a b c
  | .fsetp g bop m cmp d a b c => encA 0x053 g (16 * bop.code + m.toNat) cmp.code d a b c
  | .frnd g r m d a => encA 0x054 g m.toNat r.code d a .zero .zero
  | .hadd2 g bf m d a b => encA (if bf then 0x056 else 0x055) g m.toNat 0 d a b .zero
  | .hfma2 g bf m d a b c => encA (if bf then 0x058 else 0x057) g m.toNat 0 d a b c
  | .fdot4 g e5 m d a b c => encA (if e5 then 0x05A else 0x059) g m.toNat 0 d a b c
  | .faddImm g u d a imm => encB 0x060 g u d.toNat a.toNat imm.toNat
  | .fmulImm g u d a imm => encB 0x061 g u d.toNat a.toNat imm.toNat
  | .cvt g dst src inK toJ r nanovf d a =>
    encA (0x080 + 7 * dst.code + (if src.code < dst.code then src.code else src.code - 1)) g
      (r.code + 4 * toJ.toNat + 32 * bit nanovf) inK.toNat d a .zero .zero
  | .cvtq g slot d a b c => encA 0x0B8 g 0 slot.toNat d a b c
  | .cvtqAuto g slot d a c => encA 0x0B8 g 1 slot.toNat d a .zero c
  | .cvtdq g slot d a b c => encA 0x0B9 g 0 slot.toNat d a b c
  | .bscale g slot d a => encA 0x0BA g 0 slot.toNat d a .zero .zero
  | .exp2 g m d a b c => encA 0x0BB g m.toNat 0 d a b c
  | .lg2 g m d a => encA 0x0BC g m.toNat 0 d a .zero .zero
  | .rcp g m d a => encA 0x0BD g m.toNat 0 d a .zero .zero
  | .rsq g m d a => encA 0x0BE g m.toNat 0 d a .zero .zero
  | .sqrt g m d a => encA 0x0BF g m.toNat 0 d a .zero .zero
  | .perm g d a b c => encA 0x0C0 g 0 0 d a b c
  | .rfal g d a => encA 0x0C1 g 0 0 d a .zero .zero
  | .voteAny g neg d a => encA 0x0C2 g (bit neg) 0 d a .zero .zero
  | .voteAll g neg d a => encA 0x0C3 g (bit neg) 0 d a .zero .zero
  | .voteBallot g neg d a => encA 0x0C4 g (bit neg) 0 d a .zero .zero
  | .redv g op d a => encA (0x0C8 + op.code) g 0 0 d a .zero .zero
  | .scanv g op d a => encA (0x0D8 + op.code) g 0 0 d a .zero .zero
  | .scanvExcl g op d a => encA (0x0E8 + op.code) g 0 0 d a .zero .zero
  | .pand g na nb d a b => encA 0x0F8 g (bit na + 2 * bit nb) 0 d a b .zero
  | .por g na nb d a b => encA 0x0F9 g (bit na + 2 * bit nb) 0 d a b .zero
  | .pxor g na nb d a b => encA 0x0FA g (bit na + 2 * bit nb) 0 d a b .zero
  | .pnot g na d a => encA 0x0FB g (bit na) 0 d a .zero .zero
  | .pmov g na d a => encA 0x0FC g (bit na) 0 d a .zero .zero
  | .idxset g f d a => encA 0x0FD g 0 f.code d a .zero .zero
  | .idxget g f d a => encA 0x0FE g 0 f.code d a .zero .zero
  | .rpt g steps stride count => encB 0x0FF g false 0 0 (count.toNat + 64 * steps.toNat + 1024 * stride.toNat)
  | .ld g sz sx l => encL (0x100 + ldCode sz sx) g 0 0 l
  | .st g sz l => encL (0x108 + stCode sz) g 0 0 l
  | .lda g sz sx sc l => encL (0x100 + ldCode sz sx) g 1 sc.code l
  | .stl g sz sc l => encL (0x108 + stCode sz) g 2 sc.code l
  | .pref g l => encL 0x110 g 0 0 l
  | .prefL2 g l => encL 0x110 g 1 0 l
  | .stmap g uc ub ua => encY 0x111 g none none 7 0 uc.toNat ub.toNat ua.toNat
  | .stflush g rel cmp ub ua => encY 0x112 g none rel cmp.toNat 0 0 ub.toNat ua.toNat
  | .atom g op sc l => encL (0x140 + op.code) g 0 sc.code l
  | .groupSubmission g l => encL 0x152 g 0 3 l
  | .red g op sc l => encL (0x158 + op.code) g 0 sc.code l
  | .fence g sc ud => encY 0x170 g none (some sc) 7 ud.toNat 0 0 0
  | .acq g sc m => encY 0x171 g (some (sc, m)) none 7 0 0 0 0
  | .rel g sc => encY 0x172 g none (some sc) 7 0 0 0 0
  | .monw g k cmp l => encL 0x173 g k.toNat cmp.code l
  | .wait g all n d a b c => encA 0x174 g 0 (4 * bit all + n.toNat) d a b c
  | .bar g k d => encA 0x175 g 0 k.toNat d .zero .zero .zero
  | .barArrive g k d => encA 0x175 g 1 k.toNat d .zero .zero .zero
  | .evtAdd g k d a => encA 0x176 g 0 k.toNat d a .zero .zero
  | .evtSub g k d a => encA 0x177 g 0 k.toNat d a .zero .zero
  | .evtSet g k d a => encA 0x178 g 0 k.toNat d a .zero .zero
  | .cpy g y => encCmd 0x179 g y
  | .cpym g y => encCmd 0x17A g y
  | .gath g y => encCmd 0x17B g y
  | .coll g y => encCmd 0x17C g y
  | .mapset g s ta => encM 0x180 g false false 0 s.toNat 0 0 ta.toNat 0
  | .mma g p z tb ta acc => encM 0x181 g p z 0 0 0 tb.toNat ta.toNat acc.toNat
  | .mmas g p z lsel v tb ta acc => encM 0x182 g p z lsel.toNat 0 v.toNat tb.toNat ta.toNat acc.toNat
  | .mzero g p acc => encM 0x183 g p false 0 0 0 0 0 acc.toNat
  | .accrdF32 g r => encR 0x184 g r
  | .accrdPair g r => encR 0x185 g r
  | .accrdI32 g r => encR 0x186 g r
  | .accwrF32 g r => encR 0x187 g r
  | .accwrI32 g r => encR 0x188 g r
  | .mstat g clr s acc => encM 0x189 g false false (bit clr) s.toNat 0 0 0 acc.toNat
  | .bra g off => encJ 0x1C0 g 0 off.toNat
  | .brx g lnk => encJ 0x1C1 g lnk.toNat 0
  | .call g lnk off => encJ 0x1C2 g lnk.toNat off.toNat
  | .ret g lnk => encJ 0x1C3 g lnk.toNat 0
  | .exit g => encZ 0x1C4 g 0 false 0 0 0 0
  | .elect g d => encA 0x1C5 g 0 0 d .zero .zero .zero
  | .yield g => encZ 0x1C8 g 0 false 0 0 0 0
  | .nop g => encZ 0x1CB g 0 false 0 0 0 0
  | .getsys g x d => match d with
    | .v n => encZ 0x1CC g 0 true x.code n.toNat 0 0
    | .s n => encZ 0x1CC g 0 false x.code 0 0 n.toNat
  | .trap g code => encZ 0x1C9 g code.toNat false 0 0 0 0
  | .rtt g => encZ 0x1CA g 0 false 0 0 0 0
  | .spawn g rel ub ua => encY 0x1C6 g none rel 7 0 0 ub.toNat ua.toNat
  | .spawnc g rel uc ub ua => encY 0x1C7 g none rel 7 0 uc.toNat ub.toNat ua.toNat
  | .uint g payload sa => encZ 0x1CD g payload.toNat false 0 0 0 sa.toNat
  | .setseg g seg sb sa => encZ 0x1E0 g 0 false seg.toNat 0 sb.toNat sa.toNat
  | .setrgn g entry sb sa => encZ 0x1E1 g entry.toNat false 0 0 sb.toNat sa.toNat
  | .tlbinvPage g sb sa => encZ 0x1E2 g 0 false 0 0 sb.toNat sa.toNat
  | .tlbinvVi g sb => encZ 0x1E2 g 0 false 1 0 sb.toNat 0
  | .tlbinvAll g => encZ 0x1E2 g 0 false 2 0 0 0
  | .icinvRange g sb sa => encZ 0x1E3 g 0 false 0 0 sb.toNat sa.toNat
  | .icinvAll g => encZ 0x1E3 g 0 false 1 0 0 0
  | .setviHandler g sb sa => encZ 0x1E4 g 0 false 0 0 sb.toNat sa.toNat
  | .setviSwap g sb sa => encZ 0x1E4 g 0 false 1 0 sb.toNat sa.toNat
  | .setviPtroot g sb sa => encZ 0x1E4 g 0 false 2 0 sb.toNat sa.toNat
  | .setviState g sb sa => encZ 0x1E4 g 0 false 3 0 sb.toNat sa.toNat
  | .setviUint g sb sa => encZ 0x1E4 g 0 false 4 0 sb.toNat sa.toNat
  | .setviKeys g sb sa => encZ 0x1E4 g 0 false 5 0 sb.toNat sa.toNat
  | .setviKeybase g sb sa => encZ 0x1E4 g 0 false 6 0 sb.toNat sa.toNat
  | _ => 0

end Sys2Proof
end

