-- ==== Sys2Proof/Config.lean ====
section
/-! DEFINITION. What the package fixes: sizes the spec gives, and the free values it leaves open.
An `opaque` constant has no body a proof can see, so a claim about it holds for every value (log 4, 5, 8, 10, 22). -/
namespace Sys2Proof.Config

/-- Compute cores on a die (R8). -/
def coresPerDie : Nat := 96

/-- Compute dies of the package (R1). -/
def numDies : Nat := 4

/-- Bytes of a core's stash (R12). -/
def stashBytes : Nat := 262144

/-- Bytes of a stash or cache line (R12). -/
def lineBytes : Nat := 128

/-- Bytes of HBM4E on a die: the end of a die's physical offsets (R313). -/
def dieBytes : Nat := 0x1800000000


/-- Entries of a core's TLB and of a die's shared TLB (R315). -/
def coreTlb : Nat := 64
def dieTlb : Nat := 16384

/-- Commands a core's engine queue holds (R205). -/
def engineQueue : Nat := 32

/-- Matrix operations an array accepts (R225). -/
def arrayQueue : Nat := 4

/-- Free value: whether a plain load takes an unregistered copy when it may (R263); log 4. -/
opaque staleChoice : Nat → Nat → Bool

/-- Free value: which of the codes within a special function's bound is written (R98); log 5. -/
opaque specialChoice : Nat → Nat → Nat

/-- Free value: whether the home of a watched word has no room for another monitor (R200 gives no count); log 23. -/
opaque monitorRefused : Nat → Bool

/-- Free value: the base that the scheduling processor gives a group's V segment (R63), by group number; log 7. -/
opaque saveAreaBase : Nat → DWord

/-- Free value: the quantities a die measures, that telemetry reports:
energy, currents, temperature (R352); log 22. -/
opaque measured : Nat → Nat → Nat → DWord

/-- Free value: registration states that a die's 256 MiB spill table holds (R278 gives no entry size); log 24. -/
opaque spillRoom : Nat

/-- The hash of FIPS 180 that R341, R348 and R349 name, uninterpreted; log 10. -/
opaque sha256 : List Byte → BitVec 256

/-- Lines of 128 bytes in an L1 data cache and in an L1 instruction cache (R12, R16), and in an L2 slice (R10, R252). -/
def l1Lines : Nat := 1024
def icacheLines : Nat := 512
def sliceLines : Nat := 4096

/-- Free value: which line leaves a full cache (R10, R12, R16 name no policy); log 12. -/
opaque victim : Nat → Nat → Nat

/-- Free value: does a function of the host take an interrupt for a vector, with a payload queue at an address: is the vector among
those it has enabled, and does the queue's address translate (R344)? The host's settings are outside the package; log 44. -/
opaque hostTakes : Nat → Nat → Nat → Bool

/-- Verification of an RSASSA-PSS signature against a key digest (R348, R349), uninterpreted; log 10. -/
opaque signatureOk : BitVec 256 → List Byte → List Byte → Bool

/-- Signing with the device identity key (R349), uninterpreted; log 10. -/
opaque deviceSign : List Byte → List Byte

/-- The vendor key digest in fuses (R348); log 10. -/
opaque vendorKey : BitVec 256

/-- The device id (R346, R348); log 10. -/
opaque deviceId : BitVec 128

/-- The firmware images: controller 0, scheduling processor 1, loader 2, each with its signature (R349); log 10. -/
opaque firmwareImage : Nat → List Byte × List Byte

/-- Whether the fuses read without failure at a reset (R340 failure code 4); log 10. -/
opaque fusesRead : Nat → Bool

/-- The nonces the controller issues (R348); log 10. -/
opaque nonceOf : Nat → BitVec 256

/-- The check value of a fabric flit over its first 240 bytes (R355 names CRC-64, no polynomial); log 10. -/
opaque crc64 : List Byte → DWord

/-- The package's chip id in the platform's configuration (R356); log 8. -/
opaque platformChip : Nat → BitVec 10

/-- The port masks of the routing table the controller writes at boot (R356); log 8. -/
opaque platformRoute : Nat → Nat → BitVec 16

end Sys2Proof.Config
end

