-- ==== Sys2Proof/Machine/State.lean ====
section
/-! DEFINITION. The state of the package: groups, tasks, memory, registries, engines, queues, windows.
Every field is plain data. -/
namespace Sys2Proof.Machine

/-- Sparse words by key, in one canonical form: keys strictly rising, no listed word 0 (unlisted reads 0; log 1). -/
abbrev Store (w : Nat) := List (Nat × BitVec w)

/-- Why the machine stops. -/
inductive Fault where
  /-- Raised by `exec` of an instruction when no group is inside a clause; no step does that (safe). -/
  | noIssuingGroup
  deriving DecidableEq, Repr

/-- Why an instruction has no meaning. -/
inductive Refusal where
  /-- The instruction is not modelled: raised by its arm of `exec` (safe). -/
  | notModelled (mnemonic : String)
  /-- Raised by `step` for an agenda entry that is an instruction and not an event (safe). -/
  | notAnEvent
  deriving DecidableEq, Repr

/-- A register of a group by class and number, as R107 names registers. -/
inductive RegName where
  | v (n : Nat) | s (n : Nat) | p (n : Nat) | x (n : Nat)
  deriving DecidableEq, Repr

/-- One write of a result: a vector register in a lane, or a uniform register whole. -/
inductive RegWrite where
  | v (n lane : Nat) (val : Word)
  | s (n : Nat) (val : DWord)
  deriving DecidableEq, Repr

/-- How a load's bytes become register writes (R188). -/
structure LoadForm where
  bytes : Nat
  sx : Bool
  plain : Bool
  tU : Bool
  t : Nat
  deriving DecidableEq, Repr

/-- What an outstanding result still waits for (R106, R186, R225). -/
inductive PendSrc where
  /-- nothing: the writes are known -/
  | ready
  /-- a load of the S segment: (lane, stash address) pairs, and the lanes that receive it -/
  | stashLoad (core : Nat) (f : LoadForm) (accs : List (Nat × Nat)) (uni : Bool) (lanes : List Nat)
  /-- an ATOM of the S segment: (lane, stash address, operand, new value for cas); `rel`: the key of the first later release that
  covers it -/
  | stashAtom (core : Nat) (op : AtomVar) (f : LoadForm) (accs : List (Nat × Nat × DWord × DWord)) (uni : Bool) (lanes : List Nat) (rel : Option Nat)
  /-- a readout or status that takes effect in array order (R225) -/
  | array (entry : Nat)
  deriving DecidableEq, Repr

/-- A result outstanding from the issue of a long-latency instruction (R107); `busy`: written through an index
register, so that its window is busy (R60). -/
structure Pend where
  key : Nat
  names : List RegName
  busy : Bool
  writes : List RegWrite
  flags : BitVec 5
  src : PendSrc
  deriving DecidableEq, Repr

/-- Where a WAIT or BAR writes its status (R201, R203), resolved at issue. -/
inductive StatusDst where
  | none
  | v (n : Nat)
  deriving DecidableEq, Repr

/-- A parked lane (R41, R203); `released`: the barrier of its BAR has completed; `met`: its combined condition held in some tick
up to the deadline; `names`, `busy`: the registers its status is outstanding in (R107, R60). -/
structure Park where
  lane : Nat
  conds : List (BitVec 16)
  all : Bool
  join : Option Nat
  deadline : Option Nat
  dst : StatusDst
  onBar : Bool
  released : Bool
  met : Bool
  names : List RegName
  busy : Bool
  deriving DecidableEq, Repr

/-- A monitor of a group (R199, R200); `stash` monitors watch a stash word of their core. -/
structure Monitor where
  armed : Bool
  fired : Bool
  polling : Bool
  hit : Bool
  stash : Bool
  addr : Nat
  va : Nat
  cmp : MonCmp
  value : Word
  deriving DecidableEq, Repr

/-- The clause a group is inside: its words as fetched (R101, R250); `none` lies beyond the C limit (R105). -/
structure Clause where
  start : Nat
  header : DWord
  words : List (Option DWord)
  index : Nat
  issued : DWord
  lanes : DWord
  deriving DecidableEq, Repr

/-- A boundary trap that waits for the group's next clause boundary (R302, R303). -/
structure Boundary where
  cls : Nat
  sub : Nat
  opcode : Nat
  lanes : DWord
  addr : DWord
  infoA : DWord
  deriving DecidableEq, Repr

/-- One set of the delivery record (R184, R196): counts, first page, and when its first failure came. -/
structure Delivery where
  lost : Nat
  refused : Nat
  page : Nat
  first : Nat
  deriving DecidableEq, Repr

/-- A store or RED of some lanes held on an absent stash line until the line is present (R186); `rel`: the scope of the later releases
that cover it, and the key of the first. -/
structure Held where
  key : Nat
  gid : Nat
  core : Nat
  addr : Nat
  bytes : List Byte
  red : Option AtomVar
  rel : Option (Scope × Nat)
  plain : Bool
  lanes : DWord
  deriving DecidableEq, Repr

/-- An engine operation (R205). -/
inductive EngineOp where
  | stflush | cpy | cpym | gath | coll
  deriving DecidableEq, Repr

/-- An engine command from issue to completion (R205 to R215); `ua` and `ub` are operand values, `deliveries` the cores its
route delivers at, `done` its progress, `fetched` the bytes it has read, `parts` what it has read and not written yet, by delivery
and place in the range, `words` the words it has registered, `reached` the stash lines it has begun to write, `cleared` those among
them whose presence it cleared. -/
structure Cmd where
  key : Nat
  op : EngineOp
  gid : Nat
  task : Nat
  core : Nat
  opcode : Nat
  acq : AcqPart
  rel : Rel
  cmp : Nat
  ua : Nat
  ub : Nat
  control : DWord
  segs : List (DWord × DWord)
  deliveries : List Nat
  routeFault : Bool
  refused : BitVec 16
  done : Nat
  fetched : Nat
  parts : List (Nat × Nat × List Byte)
  sub : Nat
  ended : Bool
  words : List Nat
  reached : List (Nat × Nat)
  cleared : List (Nat × Nat)
  deriving DecidableEq, Repr

/-- An entry of a core's matrix array, in array order (R225). -/
inductive ArrKind where
  | mma | mmas | mzero
  | accrd (form : Nat) (row0 col0 n v : Nat) (lanes : DWord)
  | accwr (i32 : Bool) (row0 col0 : Nat) (vals : List (Nat × Nat × Word))
  | mstat (clr : Bool) (s : Nat)
  deriving DecidableEq, Repr

/-- The stages of a matrix operation at issue and after it (R225). -/
inductive ArrStage where
  | room | token | accepted
  deriving DecidableEq, Repr

/-- A family 6 instruction in the order of its array (R225), with what the Lens has read (R226). -/
structure ArrEntry where
  key : Nat
  gid : Nat
  task : Nat
  kind : ArrKind
  stage : ArrStage
  cores : List Nat
  acc : Nat
  z : Bool
  mapA : BitVec 128
  mapB : BitVec 128
  slotA : DWord
  slotB : DWord
  segBase : List (Nat × Nat)
  metaWords : List Word
  toRead : List (Nat × Nat)
  got : Store 8
  abort : Nat
  deriving DecidableEq, Repr

/-- What a group waits to issue (R60, R186, R192, R205, R225, R242, R282, R287); `again`: it tries its instruction again;
`fill`: it does so once the fills of the stash lines have ended, each line with the lanes that need it; `stmap`: an STMAP
waits after the lines that it has changed, `remap`: it goes on there;
`submit`: a submission that waits for room since a tick, `resubmit`: it is tried again, `answer`: it is answered now. -/
inductive Hold where
  | none
  | again
  | fill (core : Nat) (lines : List (Nat × DWord))
  | engine (c : Cmd) (ud : Nat)
  | stmap (done : Nat)
  | remap (done : Nat)
  | array (e : ArrEntry)
  | submit (since : Nat)
  | resubmit (since : Nat)
  | answer
  deriving DecidableEq, Repr

/-- Residency of a group (R43, R309, R310): `cause` 0 pre-emption, 1 swap-out; `live` the granules that its save writes. -/
inductive Residency where
  | resident
  | saving (cause since live : Nat)
  | out (cause live : Nat)
  | ended
  deriving DecidableEq, Repr

/-- A group: its registers, lanes, clause and everything it waits for (R50 to R74); `block` is the first lane position
of its lane block (R54); `repAt` is a reinstated repeat state, done and remaining, with the clause it belongs to (R177); `passed` is the clause that the last trap cut short, with the lanes of its issue set (R39, R307); the
words of predicate register n in `poisonP` are 2n and 2n + 1. -/
structure Group where
  gid : Nat
  task : Nat
  num : Nat
  core : Nat
  block : Nat
  width : Nat
  vgran : Nat
  sgran : Nat
  v : Store 32
  s : Store 64
  p : Store 64
  x : Store 32
  e : Store 6
  mon : List Monitor
  vpc : Store 32
  gsrE : Bool
  gsrH : Bool
  fsr : BitVec 5
  repDone : BitVec 8
  repLeft : BitVec 7
  repSteps : Option (BitVec 4 × Nat)
  repAt : Option (Nat × BitVec 8 × BitVec 7)
  segs : List (DWord × DWord)
  parks : List Park
  clause : Option Clause
  outs : List Pend
  boundary : List Boundary
  resume : DWord
  resumeIssue : Option (Nat × Bool)
  passed : Option (Nat × DWord)
  entryCls : Nat
  entrySub : Nat
  transfer : DWord
  delPkg : Delivery
  delOther : Delivery
  preempt : Option Nat
  residency : Residency
  hold : Hold
  parkedSince : Option Nat
  halted : Bool
  killed : Bool
  poisonV : List Nat
  poisonS : List Nat
  poisonP : List Nat
  poisonX : List Nat
  deriving DecidableEq, Repr

/-- A continuation record (R68). -/
structure ContRec where
  code : Nat
  shape : BitVec 16
  depth : Nat
  priority : Nat
  continuation : Bool
  wanted : Bool
  footprint : BitVec 32
  x : Nat
  y : Nat
  z : Nat
  keys : List Nat
  frame : DWord
  join : DWord
  launch : DWord
  deriving DecidableEq, Repr

/-- A launch record (R65). -/
structure Launch where
  entry : Nat
  gx : Nat
  gy : Nat
  gz : Nat
  shape : BitVec 16
  footprint : BitVec 32
  priority : Nat
  flags : BitVec 8
  keys : List (BitVec 32)
  frameSize : Nat
  regionPtr : DWord
  arena : DWord
  routePtr : DWord
  gBase : DWord
  gLim : DWord
  kBase : DWord
  kLim : DWord
  cBase : DWord
  cLim : DWord
  slots : List DWord
  deriving DecidableEq, Repr

/-- The states of a task (R28). -/
inductive TaskState where
  | queued | held | placed | done | killed | refused | discarded
  deriving DecidableEq, Repr

/-- One barrier of a team (R45): lanes by group number. -/
structure Barrier where
  armed : Bool
  expected : Store 64
  arrived : Store 64
  deriving DecidableEq, Repr

/-- A task: one team, from its record to its end (R27 to R32); `tileErr`: tile registers struck by an uncorrectable error
(R317); `teamSaved`: its tile registers and accumulator tiles are in the team area (R71, R310). -/
structure Task where
  uid : Nat
  vi : Nat
  grid : Nat
  spawned : Bool
  team : Bool
  linear : Nat
  seqNo : Nat
  cont : ContRec
  launch : Option Launch
  keys : List Nat
  state : TaskState
  rounds : Nat
  footRounds : Nat
  entry : Option Nat
  service : Bool
  privileged : Bool
  cores : List Nat
  stashBase : List Nat
  die : Nat
  tiles : Store 128
  acc : Store 40
  accPoison : List Nat
  teamSaved : Bool
  tstat : Store 4
  tileErr : List Nat
  barriers : List Barrier
  killing : Bool
  killInfo : DWord
  joinUnderflow : Bool
  joinFailed : Bool
  late : Nat
  lost : Nat
  refusedStores : Nat
  page : Nat
  endSteps : Nat
  ended : Bool
  deriving DecidableEq, Repr

/-- A range of team indices dealt to a die (R299). -/
structure Range where
  start : Nat
  count : Nat
  next : Nat
  die : Nat
  stage : Nat
  deriving DecidableEq, Repr

/-- A relocation record of a routed grid (R136): where the string lies in K, its direction and its deliveries. -/
structure Reloc where
  off : Nat
  dir : Nat
  dels : List (Int × Int)
  deriving DecidableEq, Repr

/-- A grid from acceptance to its completion record (R26, R288, R299); `relocs` is its relocation table as it was read when the
grid was accepted (R325), `reroute` says that a core or link has been retired since its strings were written (R331). -/
structure Grid where
  gridId : Nat
  vi : Nat
  page : Nat
  tag : DWord
  wanted : Bool
  interrupt : Option Nat
  launchPtr : DWord
  launch : Option Launch
  single : Bool
  privileged : Bool
  seqNo : Nat
  entry : Option Nat
  dealt : Bool
  ranges : List Range
  status : Nat
  notDone : Nat
  lost : Nat
  refused : Nat
  page1 : Nat
  ended : Bool
  excluded : List Nat
  routesWritten : Bool
  relocs : List Reloc
  reroute : Bool
  reissued : Bool
  deriving DecidableEq, Repr

/-- A continuation registered against a counter (R31, R243), which is named by its physical address, or on another
chip as its memory is kept here (`remoteKey`); `due`: the task whose decrement brought it to 0 and whose step 5 enqueues it; `launch`: the
spawner's launch record, where the record names none (R68). -/
structure Reg31 where
  vi : Nat
  grid : Nat
  counter : Nat
  queue : Nat
  bytes : List Byte
  service : Bool
  privileged : Bool
  launch : Option Launch
  due : Option Nat
  deriving DecidableEq, Repr

/-- What goes on when a completion record has been written: a task's step 5 (R29), or a grid's queue entry (R286). -/
inductive DueOwner where
  | none
  | task (uid : Nat)
  | grid (gridId : Nat)
  deriving DecidableEq, Repr

/-- A completion record that has become due (R288). -/
structure Due where
  vi : Nat
  page : Nat
  tag : DWord
  status : Nat
  lost : Nat
  refused : Nat
  first : Nat
  detail : Nat
  interrupt : Option Nat
  owner : DueOwner
  deriving DecidableEq, Repr

/-- A submission page in force (R280). -/
structure SubPage where
  vi : Nat
  page : Nat
  groupAddr : Nat
  base : Nat
  slots : Nat
  privileged : Bool
  enabled : Bool
  next : Nat
  drops : Nat
  deriving DecidableEq, Repr

/-- A queue in force: its segments' addresses in ring order (R285, R287). -/
structure Queue where
  vi : Nat
  num : Nat
  segs : List Nat
  deriving DecidableEq, Repr

/-- A queue entry in use (R286). -/
structure QEntry where
  vi : Nat
  queue : Nat
  addr : Nat
  state : Nat
  tag : DWord
  seqNo : Nat
  pointer : DWord
  flags : BitVec 32
  rounds : Nat
  footRounds : Nat
  deriving DecidableEq, Repr

/-- A key-table entry in use (R292 to R294): key and its virtual interface, holder and reserving records. -/
structure KeyEntry where
  vi : Nat
  die : Nat
  index : Nat
  key : Nat
  holder : Option Nat
  reserved : List (Nat × Nat)
  deriving DecidableEq, Repr

/-- A region-table entry (R248). -/
structure Region where
  base : Nat
  limit : Nat
  region : BitVec 4
  valid : Bool
  deriving DecidableEq, Repr

/-- A virtual interface (R251, R341, R345). -/
structure VI where
  num : Nat
  enabled : Bool
  handler : DWord
  swap : Nat
  ptroot : Nat
  ptrootNext : Nat
  uintBase : DWord
  keyShare : Nat
  keyBase : Nat
  regions : List Region
  pairs : List DWord
  queues : Nat
  pages : Nat
  partition : Nat
  timeShared : Bool
  slice : Nat
  poolBase : Nat
  poolSize : Nat
  poolUsed : List Nat
  ownerKey : BitVec 256
  pendingConfig : Bool
  deriving DecidableEq, Repr

/-- A release: who performed it, at what scope, and whether for a paired team (R254, R259). -/
structure Rls where
  agent : Agent
  scope : Scope
  paired : Bool
  deriving DecidableEq, Repr

/-- Who made a plain write (R268, R269): the core of the thread, its group where a lane wrote, and the key of the engine command that
wrote, 0 for none, with whether that command's team is paired. -/
structure Writer where
  core : Option Nat
  gid : Option Nat
  cmd : Nat
  pair : Bool
  deriving DecidableEq, Repr

/-- A byte of a registered word that a plain write left (R268, R269), with its writer and the releases since. -/
structure PlainByte where
  byte : Nat
  writer : Writer
  rels : List Rls
  deriving DecidableEq, Repr

/-- A registered word at its home (R254): owner, bytes written, released scope, the owner's value; and the bytes that a plain
write left (R268, R269). -/
structure Reg where
  pa : Nat
  owner : Agent
  mask : BitVec 4
  released : Option Scope
  spilled : Bool
  value : Word
  plain : List PlainByte
  deriving DecidableEq, Repr

/-- An unregistered copy of a word in an L1 (R255, R263), with the address and region it was filled under. -/
structure Copy where
  core : Nat
  pa : Nat
  vi : Nat
  va : Nat
  region : BitVec 4
  value : Word
  deriving DecidableEq, Repr

/-- A revocation sent at a tick and not yet answered, with the write it was sent for (R276, R277). -/
structure Revoke where
  pa : Nat
  owner : Agent
  since : Nat
  req : Option (Agent × BitVec 4 × Word)
  deriving DecidableEq, Repr

/-- A RED in a write buffer since a tick (R195, R276). -/
structure PostedRed where
  key : Nat
  gid : Nat
  since : Nat
  lane : Nat
  agent : Agent
  pa : Nat
  va : Nat
  op : AtomVar
  opnd : DWord
  deriving DecidableEq, Repr

/-- A store of an agent on its way to another replica (R19, R272), and the group it was made for: `store` is the same for all the
replicas of one store, `va` the page it is written to, and `counted` says that the store counts as lost already, or is an engine's
(R274). -/
structure ReplWrite where
  key : Nat
  store : Nat
  gid : Nat
  agent : Agent
  pa : Nat
  va : Nat
  counted : Bool
  bytes : List Byte
  deriving DecidableEq, Repr

/-- A store posted to another chip since a tick (R183, R276). -/
structure Posted where
  key : Nat
  gid : Nat
  vi : Nat
  since : Nat
  va : Nat
  bytes : List Byte
  deriving DecidableEq, Repr

/-- A stash line that is mapped, absent, or left unfinished (R185 to R187); `pa` is where its global line lies, once a fill or a
write has translated it, and 2^80 before that;
`writers` the engine commands with bytes outstanding in it; `whole` says that one has written all its bytes there while others had
some outstanding; `unfinished` is 0, or commands from that key on are later than the fault that left the line unfinished. -/
structure Line where
  core : Nat
  line : Nat
  mapped : Option Nat
  vi : Nat
  pa : Nat
  repl : Bool
  present : Bool
  unfinished : Nat
  filling : Bool
  writers : List Nat
  whole : Bool
  deriving DecidableEq, Repr

/-- A cached translation: in the TLB of a core, or in the shared TLB of a die (R315). -/
structure Tlb where
  core : Option Nat
  die : Nat
  vi : Nat
  base : Nat
  size : Nat
  pa : Nat
  perms : BitVec 3
  repl : Bool
  deriving DecidableEq, Repr

/-- A word held by an instruction cache (R250). -/
structure ICopy where
  core : Nat
  vi : Nat
  va : Nat
  value : DWord
  deriving DecidableEq, Repr

/-- The memory system; `homeVa` holds, by frame, the 8 KiB page of virtual addresses under which the frame was last reached, whose
bits give the home slices of its lines (R253); `remotePerms` what another chip refuses of a page, reads by bit 0 and writes by bit 1,
and in bits 4:2 the level at which its walk stops (R183, R314). -/
structure Mem where
  bytes : Store 8
  regs : List Reg
  copies : List Copy
  poison : List Nat
  revokes : List Revoke
  reds : List PostedRed
  repls : List ReplWrite
  stash : Store 8
  stashPoison : List Nat
  lines : List Line
  held : List Held
  tlb : List Tlb
  owners : Store 8
  icache : List ICopy
  posted : List Posted
  remotePerms : Store 5
  homeVa : Store 64
  deriving DecidableEq, Repr

/-- A compute die: start-token credit in hundredths of an ampere, error counts, telemetry (R297, R351, R352); `recordAt` is the tick of
its last telemetry interval. -/
structure Die where
  num : Nat
  fenced : Bool
  iodLink : Bool
  credit : Nat
  clock : Nat
  throttle : BitVec 8
  ecorr : DWord
  eunc : DWord
  trTail : Word
  trSeq : Word
  dlTail : Word
  dlSeq : Word
  waited : Bool
  recordAt : DWord
  deriving DecidableEq, Repr

/-- Lifecycle states (R346). -/
inductive Lifecycle where
  | manufacture | deployed | returned
  deriving DecidableEq, Repr

/-- Power states (R350). -/
inductive Power where
  | p0 | p1 | idle | retain | off
  deriving DecidableEq, Repr

/-- An open debug session (R348): level 1 for a virtual interface, 2 for all. -/
structure Session where
  level : Nat
  vi : Nat
  expiry : DWord
  deriving DecidableEq, Repr

/-- A posted user-level interrupt (R245, R288, R344), with the interrupt table it was posted under (R251). -/
structure Interrupt where
  vi : Nat
  base : DWord
  target : Nat
  payload : BitVec 24
  team : Nat
  core : Nat
  group : Nat
  deriving DecidableEq, Repr

/-- What the device has answered to the world outside: replies in the order given (R281, R338, R344, R349). -/
inductive Answer where
  | accept (tag : DWord)
  | retry
  | abort
  | readData (bytes : List Byte)
  | msix (fn vector : Nat)
  | spdm (bytes : List Byte)
  | nonce (n : BitVec 256)
  | status (code : Nat)
  | debugValue (val : BitVec 128)
  | debugName (n : Option Nat)
  deriving DecidableEq, Repr

/-- A host submission that could not be made durable at once: its page, its record, and when it came (R281). -/
structure HostSub where
  vi : Nat
  page : Nat
  bytes : List Byte
  since : Nat
  deriving DecidableEq, Repr

/-- The host, the management window and the controller (R337 to R356); `hostMem` is host memory, by function and address (log 44); `consumed`: service cores on which a privileged group
has consumed an uncorrectable error (R321); `waiting`: host submissions that wait for room (R281). -/
structure HostSide where
  window : Store 32
  stage : Nat
  failure : Nat
  error : Bool
  errCause : Nat
  power : Power
  requested : Power
  lifecycle : Lifecycle
  keysErased : Bool
  measurements : List (BitVec 256)
  nonces : Nat
  nonce : Option (BitVec 256)
  sessions : List Session
  debugSeen : BitVec 2
  answers : List Answer
  interrupts : List Interrupt
  hostMem : Store 8
  restarting : Bool
  consumed : List Nat
  waiting : List HostSub
  deriving DecidableEq, Repr

/-- The fabric and the mesh (R18, R19, R23, R354 to R356); `ackSeq`: the sequence that each port's neighbour has acknowledged last. -/
structure Fabric where
  chip : BitVec 10
  route : Store 16
  deadPorts : BitVec 16
  deadChips : List Nat
  recvSeq : Store 16
  recvAny : BitVec 16
  ackSeq : Store 16
  inbox : List (Nat × List Byte)
  retiredCores : List Nat
  retiredLinks : List (Nat × Nat)
  deadLinks : List (Nat × Nat)
  deriving DecidableEq, Repr

/-- One entry of the agenda: an event that happens now, or the group whose instruction is next. -/
inductive Input where
  | event (i : Instr)
  | turn (gid : Nat)
  deriving DecidableEq, Repr

/-- The virtual interface whose slice runs on a time-shared pair, and since when (R341). -/
structure Turn where
  die : Nat
  pair : Nat
  vi : Nat
  since : Nat
  deriving DecidableEq, Repr

/-- The state of the package. `inputs`, `cur`, `fresh`, `nextId`, `beat` and `rounds` are the model's own (log 2, 4): `beat`
counts steps since the last tick, `rounds` lists the dies that have a dispatch round to run (R291). -/
structure State where
  inputs : List Input
  cur : Option Nat
  fresh : Nat
  nextId : Nat
  beat : Nat
  rounds : List Nat
  tick : DWord
  groups : List Group
  tasks : List Task
  grids : List Grid
  mem : Mem
  vis : List VI
  pages : List SubPage
  queues : List Queue
  entries : List QEntry
  regs31 : List Reg31
  dues : List Due
  keys : List KeyEntry
  reservedCores : List (Nat × Nat)
  turns : List Turn
  cmds : List Cmd
  arrays : List ArrEntry
  dies : List Die
  seqNo : Nat
  host : HostSide
  fabric : Fabric
  deriving DecidableEq, Repr

/-- A virtual interface at reset: disabled, every parameter 0 (log 8). -/
def VI.reset (n : Nat) : VI :=
  { num := n, enabled := false, handler := 0, swap := 0, ptroot := 0, ptrootNext := 0, uintBase := 0
    keyShare := 0, keyBase := 0, regions := [], pairs := [0, 0, 0, 0], queues := 0, pages := 0
    partition := 0, timeShared := false, slice := 0, poolBase := 0, poolSize := 0, poolUsed := [], ownerKey := 0
    pendingConfig := false }

/-- A die at reset: credit 0 (R297), clock 4.0 GHz (R21). -/
def Die.reset (n : Nat) : Die :=
  { num := n, fenced := false, iodLink := true, credit := 0, clock := 4000, throttle := 0, ecorr := 0, eunc := 0
    trTail := 0, trSeq := 0, dlTail := 0, dlSeq := 0, waited := false, recordAt := 0 }

/-- The memory system at reset: nothing listed, every word HOME. -/
def Mem.reset : Mem :=
  { bytes := [], regs := [], copies := [], poison := [], revokes := [], reds := [], repls := [], stash := []
    stashPoison := [], lines := [], held := [], tlb := [], owners := [], icache := [], posted := []
    remotePerms := [], homeVa := [] }

/-- The host side at reset; each die's DIDT register reads 5 (R351). -/
def HostSide.reset : HostSide :=
  { window := [(0x401, 5), (0x441, 5), (0x481, 5), (0x4C1, 5)], stage := 0, failure := 0, error := false
    errCause := 0, power := .p0, requested := .p0, lifecycle := .manufacture, keysErased := false
    measurements := [0, 0, 0, 0, 0, 0, 0, 0], nonces := 0, nonce := none, sessions := [], debugSeen := 0
    answers := [], interrupts := [], hostMem := [], restarting := false, consumed := [], waiting := [] }

/-- The fabric and mesh at reset: nothing retired or dead. -/
def Fabric.reset : Fabric :=
  { chip := 0, route := [], deadPorts := 0, deadChips := [], recvSeq := [], recvAny := 0, ackSeq := [], inbox := []
    retiredCores := [], retiredLinks := [], deadLinks := [] }

/-- The package right after reset: no task, no group, nothing in memory (log 8 names each chosen value). -/
def State.reset : State :=
  { inputs := [], cur := none, fresh := 0, nextId := 1, beat := 0, rounds := [], tick := 0, groups := [], tasks := [], grids := []
    mem := Mem.reset, vis := [], pages := [], queues := [], entries := [], regs31 := [], dues := [], keys := []
    reservedCores := [], turns := [], cmds := [], arrays := [], dies := [Die.reset 0, Die.reset 1, Die.reset 2, Die.reset 3]
    seqNo := 1, host := HostSide.reset, fabric := Fabric.reset }

end Sys2Proof.Machine
end

