-- ==== Sys2Proof/Machine/Store.lean ====
section
/-! DEFINITION. Sparse words by key, bit fields, byte order, and lists of records named by a key. -/
namespace Sys2Proof.Machine

/-- The word at a key; 0 where nothing is listed (log 1). -/
def Store.get {w : Nat} : Store w → Nat → BitVec w
  | [], _ => 0
  | (k', x) :: r, k => if k' = k then x else Store.get r k

/-- Put a word in its place among rising keys. -/
def Store.insert {w : Nat} : Store w → Nat → BitVec w → Store w
  | [], k, x => [(k, x)]
  | (k', y) :: r, k, x => if k < k' then (k, x) :: (k', y) :: r else (k', y) :: Store.insert r k x

/-- Write a word: the key leaves the list, and comes back unless the word is what an unlisted key reads as. -/
def Store.set {w : Nat} (st : Store w) (k : Nat) (x : BitVec w) : Store w :=
  let rest := st.filter (fun c => c.1 ≠ k)
  if x = 0 then rest else Store.insert rest k x

/-- Every key of a list is above a bound, keys rise, and no word is 0. -/
def Store.above {w : Nat} : Store w → Option Nat → Bool
  | [], _ => true
  | (k, x) :: r, b => (match b with | none => true | some n => n < k) && x != 0 && Store.above r (some k)

/-- The canonical form. -/
def Store.wf {w : Nat} (st : Store w) : Bool := st.above none

/-- Write several words, in order. -/
def Store.setAll {w : Nat} (st : Store w) (l : List (Nat × BitVec w)) : Store w :=
  l.foldl (fun a c => a.set c.1 c.2) st

/-- The bytes at n consecutive keys. -/
def Store.read (st : Store 8) (a n : Nat) : List Byte := (List.range n).map (fun i => st.get (a + i))

/-- Write consecutive bytes. -/
def Store.write (st : Store 8) (a : Nat) : List Byte → Store 8
  | [] => st
  | b :: r => Store.write (st.set a b) (a + 1) r

/-- Little-endian value of bytes (R3). -/
def leNat : List Byte → Nat
  | [] => 0
  | b :: r => b.toNat + 256 * leNat r

/-- n little-endian bytes of a value (R3). -/
def leBytes : Nat → Nat → List Byte
  | 0, _ => []
  | n + 1, x => BitVec.ofNat 8 x :: leBytes n (x / 256)

/-- Bits [hi:lo] of a number. -/
def bits (x hi lo : Nat) : Nat := x / 2 ^ lo % 2 ^ (hi + 1 - lo)

/-- The little-endian field of n bytes at an offset of a record. -/
def field (r : List Byte) (off n : Nat) : Nat := leNat ((r.drop off).take n)

/-- Round a number down to a multiple. -/
def alignDown (x n : Nat) : Nat := x / n * n

/-- Round a number up to a multiple. -/
def alignUp (x n : Nat) : Nat := (x + n - 1) / n * n

/-- The lanes of a mask, below a width, in ascending order. -/
def lanesOf (w : Nat) (m : DWord) : List Nat := (List.range w).filter (fun i => m.getLsbD i)

/-- The mask that holds exactly the lanes for which a test holds. -/
def maskOf (w : Nat) (f : Nat → Bool) : DWord :=
  (List.range w).foldl (fun m i => if f i then m ||| (1#64 <<< i) else m) 0

/-- Mask with the lowest w bits set. -/
def fullMask (w : Nat) : DWord := BitVec.ofNat 64 (2 ^ w - 1)

/-- Signed value of the low n bits. -/
def signed (n x : Nat) : Int := if x % 2 ^ n < 2 ^ (n - 1) then (x % 2 ^ n : Nat) else ((x % 2 ^ n : Nat) : Int) - 2 ^ n

/-- n-bit two's complement code of an integer. -/
def wrapInt (n : Nat) (x : Int) : BitVec n := BitVec.ofInt n x

/-- Replace the records that a test names. -/
def modWhere {α : Type} (l : List α) (t : α → Bool) (f : α → α) : List α := l.map (fun a => if t a then f a else a)

/-- Replace the first record that a test names, or add the new one at the end. -/
def upsert {α : Type} (l : List α) (t : α → Bool) (x : α) : List α :=
  if l.any t then modWhere l t (fun _ => x) else l ++ [x]

/-- Put an element before the first that does not stay before it. -/
def insertBy {α : Type} (le : α → α → Bool) (x : α) : List α → List α
  | [] => [x]
  | y :: r => if le x y then x :: y :: r else y :: insertBy le x r

/-- The elements in rising order, equal ones as they stood. -/
def sortBy {α : Type} (le : α → α → Bool) (l : List α) : List α := l.foldr (insertBy le) []

/-- A number saturated at a largest value. -/
def satAt (m x : Nat) : Nat := if x ≤ m then x else m

end Sys2Proof.Machine
end

