-- ==== Sys2Proof/Machine/Float.lean ====
section
/-! DEFINITION. Number formats and exact arithmetic with one rounding (07_formats.md). -/
namespace Sys2Proof.Machine

/-- How a format treats its all-ones exponent and overflow (R75, R76, R83). -/
inductive FKind where
  | ieee | e4m3 | noSpecial
  deriving DecidableEq, Repr

/-- Layout of a floating format (R75). -/
structure FFmt where
  ebits : Nat
  fbits : Nat
  bias : Nat
  kind : FKind
  deriving DecidableEq, Repr

def fmtF32 : FFmt := ⟨8, 23, 127, .ieee⟩
def fmtF16 : FFmt := ⟨5, 10, 15, .ieee⟩
def fmtBF16 : FFmt := ⟨8, 7, 127, .ieee⟩
def fmtE4M3 : FFmt := ⟨4, 3, 7, .e4m3⟩
def fmtE5M2 : FFmt := ⟨5, 2, 15, .ieee⟩
def fmtE2M1 : FFmt := ⟨2, 1, 1, .noSpecial⟩
def fmtXF40 : FFmt := ⟨8, 31, 127, .ieee⟩

/-- A value of a floating format: a finite value is m × 2^e with a sign (R76). -/
inductive FVal where
  | nan (sig : Bool)
  | inf (neg : Bool)
  | fin (neg : Bool) (m : Nat) (e : Int)
  deriving DecidableEq, Repr

/-- Sticky flags as a set: NV [4], DZ [3], OF [2], UF [1], NX [0] (R87). -/
abbrev Flags := BitVec 5

def flNV : Flags := 16
def flDZ : Flags := 8
def flOF : Flags := 4
def flUF : Flags := 2
def flNX : Flags := 1

/-- Flags when a condition holds. -/
def flIf (c : Bool) (f : Flags) : Flags := if c then f else 0

/-- The value of a code (R76). -/
def FFmt.decode (f : FFmt) (code : Nat) : FVal :=
  let fr := code % 2 ^ f.fbits
  let ex := code / 2 ^ f.fbits % 2 ^ f.ebits
  let neg := code / 2 ^ (f.fbits + f.ebits) % 2 = 1
  let top := 2 ^ f.ebits - 1
  if ex = 0 then .fin neg fr (1 - (f.bias : Int) - f.fbits)
  else if f.kind = .ieee ∧ ex = top then
    (if fr = 0 then .inf neg else .nan (fr < 2 ^ (f.fbits - 1)))
  else if f.kind = .e4m3 ∧ ex = top ∧ fr = 2 ^ f.fbits - 1 then .nan false
  else .fin neg (2 ^ f.fbits + fr) ((ex : Int) - f.bias - f.fbits)

/-- Put a sign on a magnitude code. -/
def FFmt.withSign (f : FFmt) (neg : Bool) (mag : Nat) : Nat := if neg then mag + 2 ^ (f.fbits + f.ebits) else mag

/-- The canonical NaN (R77). -/
def FFmt.nanCode (f : FFmt) : Nat :=
  match f.kind with
  | .ieee => (2 ^ f.ebits - 1) * 2 ^ f.fbits + 2 ^ (f.fbits - 1)
  | .e4m3 => 2 ^ (f.ebits + f.fbits) - 1
  | .noSpecial => 0

/-- The code of ∞ in a format that has it. -/
def FFmt.infCode (f : FFmt) (neg : Bool) : Nat := f.withSign neg ((2 ^ f.ebits - 1) * 2 ^ f.fbits)

/-- The magnitude code of the largest finite value (R75). -/
def FFmt.maxMag (f : FFmt) : Nat :=
  match f.kind with
  | .ieee => (2 ^ f.ebits - 1) * 2 ^ f.fbits - 1
  | .e4m3 => 2 ^ (f.ebits + f.fbits) - 2
  | .noSpecial => 2 ^ (f.ebits + f.fbits) - 1

/-- floor of the binary logarithm of num / den, both positive. -/
def ilogRat (num den : Nat) : Int :=
  let l : Int := (Nat.log2 num : Int) - Nat.log2 den
  let ok := if 0 ≤ l then den * 2 ^ l.toNat ≤ num else den ≤ num * 2 ^ (-l).toNat
  if ok then l else l - 1

/-- num / den × 2^e as a multiple of 2^q, rounded by a mode (R82): the multiple, and whether it is inexact. -/
def roundAt (mode : RMode) (neg : Bool) (num den : Nat) (e q : Int) : Nat × Bool :=
  let sh := e - q
  let n := num * 2 ^ sh.toNat
  let d := den * 2 ^ (-sh).toNat
  let k := n / d
  let r := n % d
  let up := match mode with
    | .rne => decide (d < 2 * r) || (decide (2 * r = d) && k % 2 == 1)
    | .rz => false
    | .ru => !neg && r != 0
    | .rd => neg && r != 0
  (if up then k + 1 else k, r != 0)

/-- The magnitude code of n × 2^q, which is a value of the format or the one above its largest. -/
def FFmt.encodeMag (f : FFmt) (n : Nat) (q : Int) : Nat :=
  if n = 0 then 0
  else
    let l := Nat.log2 n
    let ex := q + l + f.bias
    if ex ≤ 0 then
      n * 2 ^ (q - (1 - (f.bias : Int) - f.fbits)).toNat
    else
      ex.toNat * 2 ^ f.fbits + (if l ≤ f.fbits then n * 2 ^ (f.fbits - l) else n / 2 ^ (l - f.fbits)) - 2 ^ f.fbits

/-- What is written on overflow (R83). -/
def FFmt.overflow (f : FFmt) (mode : RMode) (neg nanovf : Bool) : Nat :=
  match f.kind with
  | .ieee =>
    let toInf := match mode with | .rne => true | .rz => false | .ru => !neg | .rd => neg
    if toInf then f.infCode neg else f.withSign neg f.maxMag
  | .e4m3 => if nanovf then f.nanCode else f.withSign neg f.maxMag
  | .noSpecial => f.withSign neg f.maxMag

/-- Round an exact nonzero magnitude num / den × 2^e to a format: code and flags (R82, R83, R85, R86). -/
def FFmt.round (f : FFmt) (mode : RMode) (ftz nanovf neg : Bool) (num den : Nat) (e : Int) : Nat × Flags :=
  if num = 0 then (f.withSign neg 0, 0)
  else
    let l := ilogRat num den + e
    let emin : Int := 1 - (f.bias : Int)
    let q := max (l - f.fbits) (emin - f.fbits)
    let (n, inexact) := roundAt mode neg num den e q
    let mag := f.encodeMag n q
    if f.maxMag < mag then (f.overflow mode neg nanovf, flOF ||| flNX)
    else
      let (n', _) := roundAt mode neg num den e (l - f.fbits)
      let tiny := decide (l - f.fbits + Nat.log2 n' < emin)
      if ftz && decide (mag < 2 ^ f.fbits) && mag != 0 then (f.withSign neg 0, flUF ||| flNX)
      else (f.withSign neg mag, flIf inexact flNX ||| flIf (tiny && inexact) flUF)

/-- Read a subnormal as zero of its sign under ftz (R85). -/
def FVal.flush (f : FFmt) (ftz : Bool) : FVal → FVal
  | .fin neg m e => if ftz && decide (m < 2 ^ f.fbits) then .fin neg 0 e else .fin neg m e
  | x => x

def FVal.isNan : FVal → Bool
  | .nan _ => true
  | _ => false

def FVal.isSig : FVal → Bool
  | .nan s => s
  | _ => false

def FVal.isInf : FVal → Bool
  | .inf _ => true
  | _ => false

def FVal.isZero : FVal → Bool
  | .fin _ m _ => m == 0
  | _ => false

def FVal.neg : FVal → Bool
  | .nan _ => false
  | .inf n => n
  | .fin n _ _ => n

/-- The same value with its sign changed. -/
def FVal.negate : FVal → FVal
  | .nan s => .nan s
  | .inf n => .inf (!n)
  | .fin n m e => .fin (!n) m e

/-- Exact signed dyadic number m × 2^e. -/
structure Dy where
  m : Int
  e : Int
  deriving DecidableEq, Repr

def Dy.add (x y : Dy) : Dy :=
  let e := min x.e y.e
  ⟨x.m * 2 ^ (x.e - e).toNat + y.m * 2 ^ (y.e - e).toNat, e⟩

def Dy.mul (x y : Dy) : Dy := ⟨x.m * y.m, x.e + y.e⟩

/-- The order of two dyadic numbers: the sign of x − y. -/
def Dy.lt (x y : Dy) : Bool := decide ((x.add ⟨-y.m, y.e⟩).m < 0)

def Dy.le (x y : Dy) : Bool := decide ((x.add ⟨-y.m, y.e⟩).m ≤ 0)

/-- The dyadic value of a finite value; 0 otherwise. -/
def FVal.dy : FVal → Dy
  | .fin n m e => ⟨if n then -(m : Int) else m, e⟩
  | _ => ⟨0, 0⟩

/-- The product of two values (R84): 0 × ∞ is a NaN that counts as invalid. -/
def FVal.mul (x y : FVal) : FVal × Flags :=
  let inv := (x.isZero && y.isInf) || (x.isInf && y.isZero)
  let sig := x.isSig || y.isSig
  if inv then (.nan false, flNV)
  else match x, y with
    | .nan _, _ => (.nan false, flIf sig flNV)
    | _, .nan _ => (.nan false, flIf sig flNV)
    | .inf a, z => (.inf (a != z.neg), 0)
    | z, .inf a => (.inf (a != z.neg), 0)
    | .fin a m e, .fin b n g => (.fin (a != b) (m * n) (e + g), 0)

/-- The sum of two values, exact; the sign of an exact zero follows R152. -/
def FVal.add (mode : RMode) (x y : FVal) : FVal × Flags :=
  let sig := x.isSig || y.isSig
  match x, y with
  | .nan _, _ => (.nan false, flIf sig flNV)
  | _, .nan _ => (.nan false, flIf sig flNV)
  | .inf a, .inf b => if a = b then (.inf a, 0) else (.nan false, flNV)
  | .inf a, _ => (.inf a, 0)
  | _, .inf a => (.inf a, 0)
  | .fin a m e, .fin b n g =>
    let t := (FVal.fin a m e).dy.add (FVal.fin b n g).dy
    if t.m = 0 then (.fin (if m = 0 && n = 0 && a = b then a else mode = .rd) 0 0, 0)
    else (.fin (decide (t.m < 0)) t.m.natAbs t.e, 0)

/-- Write a value in a format: canonical NaN, infinity, or one rounding. -/
def FFmt.write (f : FFmt) (mode : RMode) (ftz : Bool) : FVal → Nat × Flags
  | .nan _ => (f.nanCode, 0)
  | .inf n => (f.infCode n, 0)
  | .fin n m e => f.round mode ftz false n m 1 e

/-- A binary operation: exact, then rounded; flags of both. -/
def FFmt.finish (f : FFmt) (mode : RMode) (ftz : Bool) (r : FVal × Flags) : Nat × Flags :=
  let (c, fl) := f.write mode ftz r.1
  (c, fl ||| r.2)

/-- Read a code under ftz. -/
def FFmt.read (f : FFmt) (ftz : Bool) (code : Nat) : FVal := (f.decode code).flush f ftz

/-- round(a + b) (R152). -/
def FFmt.add (f : FFmt) (mode : RMode) (ftz : Bool) (a b : Nat) : Nat × Flags :=
  f.finish mode ftz ((f.read ftz a).add mode (f.read ftz b))

/-- round(a − b) (R152). -/
def FFmt.sub (f : FFmt) (mode : RMode) (ftz : Bool) (a b : Nat) : Nat × Flags :=
  f.finish mode ftz ((f.read ftz a).add mode (f.read ftz b).negate)

/-- round(a × b) (R152). -/
def FFmt.mul (f : FFmt) (mode : RMode) (ftz : Bool) (a b : Nat) : Nat × Flags :=
  f.finish mode ftz ((f.read ftz a).mul (f.read ftz b))

/-- round(a × b + c) with one rounding; 0 × ∞ is invalid whatever c holds (R152, R84). -/
def FFmt.fma (f : FFmt) (mode : RMode) (ftz : Bool) (a b c : Nat) : Nat × Flags :=
  let (p, fl) := (f.read ftz a).mul (f.read ftz b)
  let z := f.read ftz c
  let (r, fl') := p.add mode z
  f.finish mode ftz (r, fl ||| fl')

/-- The order used by FMIN and FMAX: −0 below +0 (R153). -/
def FVal.below (x y : FVal) : Bool :=
  match x, y with
  | .inf n, y => n && y != .inf true
  | x, .inf n => !n && x != .inf false
  | .fin a m e, .fin b n g =>
    let d := ((FVal.fin a m e).dy.add ⟨-(FVal.fin b n g).dy.m, (FVal.fin b n g).dy.e⟩).m
    decide (d < 0) || (decide (d = 0) && a && !b)
  | _, _ => false

/-- The code of an input as read after the flush of R85. -/
def FFmt.flushCode (f : FFmt) (ftz : Bool) (c : Nat) : Nat :=
  if ftz && c / 2 ^ f.fbits % 2 ^ f.ebits == 0 then f.withSign (c / 2 ^ (f.fbits + f.ebits) % 2 = 1) 0 else c

/-- FMIN and FMAX (R153): NaN when either input is NaN, NV for a signalling one. -/
def FFmt.minmax (f : FFmt) (wantMax ftz : Bool) (a b : Nat) : Nat × Flags :=
  let x := f.read ftz a
  let y := f.read ftz b
  if x.isNan || y.isNan then (f.nanCode, flIf (x.isSig || y.isSig) flNV)
  else if wantMax then (f.flushCode ftz (if x.below y then b else a), 0)
  else (f.flushCode ftz (if y.below x then b else a), 0)

/-- FSETP's comparison (R154). -/
def FFmt.compare (f : FFmt) (cmp : FCmp) (ftz : Bool) (a b : Nat) : Bool × Flags :=
  let x := f.read ftz a
  let y := f.read ftz b
  let un := x.isNan || y.isNan
  let sig := x.isSig || y.isSig
  let eqv := !un && (x == y || (!x.isInf && !y.isInf && ((x.dy.add ⟨-y.dy.m, y.dy.e⟩).m == 0)))
  let ltv := !un && x.below y && !eqv
  let quiet := match cmp with | .eq | .ne | .num | .nan => true | _ => false
  let r := match cmp with
    | .eq => eqv
    | .ne => un || !eqv
    | .lt => ltv
    | .le => ltv || eqv
    | .gt => !un && !ltv && !eqv
    | .ge => !un && !ltv
    | .num => !un
    | .nan => un
  (r, flIf (sig || (un && !quiet)) flNV)

/-- FRND (R155): an integral value with the sign of the input. -/
def frnd (mode : RMode) (ftz : Bool) (a : Nat) : Nat × Flags :=
  match fmtF32.read ftz a with
  | .nan s => (fmtF32.nanCode, flIf s flNV)
  | .inf n => (fmtF32.infCode n, 0)
  | .fin n m e =>
    if m = 0 then (fmtF32.withSign n 0, 0)
    else if 0 ≤ e then (fmtF32.withSign n (fmtF32.encodeMag m e), 0)
    else
      let (k, inexact) := roundAt mode n m 1 e 0
      (fmtF32.withSign n (fmtF32.encodeMag k 0), flIf inexact flNX)

/-- Is a value of FFmt affected by ftz as a source or result of CVT (R85)? -/
def fmtFtz : Fmt → Bool
  | .f32 | .f16 | .bf16 => true
  | _ => false

/-- The floating layout of a format code; none for the integers. -/
def fmtLayout : Fmt → Option FFmt
  | .f32 => some fmtF32
  | .f16 => some fmtF16
  | .bf16 => some fmtBF16
  | .e4m3 => some fmtE4M3
  | .e5m2 => some fmtE5M2
  | .e2m1 => some fmtE2M1
  | .i8 => none
  | .i32 => none

/-- Width of an element in bits. -/
def fmtWidth : Fmt → Nat
  | .f32 | .i32 => 32
  | .f16 | .bf16 => 16
  | .e4m3 | .e5m2 | .i8 => 8
  | .e2m1 => 4

/-- The value of a code of any format, an integer being exact (R80, R84). -/
def fmtValue (f : Fmt) (ftz : Bool) (code : Nat) : FVal :=
  match fmtLayout f with
  | some ff => ff.read (ftz && fmtFtz f) code
  | none => let i := signed (fmtWidth f) code; .fin (decide (i < 0)) i.natAbs 0

/-- Round an exact value num / den × 2^e to an integer type, saturating with NV (R83). -/
def roundInt (w : Nat) (mode : RMode) (neg : Bool) (num den : Nat) (e : Int) : Nat × Flags :=
  let (k, inexact) := roundAt mode neg num den e 0
  let i : Int := if neg then -(k : Int) else k
  if i < -(2 ^ (w - 1)) then (2 ^ (w - 1), flNV)
  else if 2 ^ (w - 1) ≤ i then (2 ^ (w - 1) - 1, flNV)
  else ((BitVec.ofInt w i).toNat, flIf inexact flNX)

/-- convert(x) to a format (R82 to R86): code and flags. -/
def fmtConvert (f : Fmt) (mode : RMode) (ftz nanovf : Bool) (x : FVal) : Nat × Flags :=
  match fmtLayout f with
  | none =>
    match x with
    | .nan _ => (0, flNV)
    | .inf n => (if n then 2 ^ ((fmtWidth f) - 1) else 2 ^ ((fmtWidth f) - 1) - 1, flNV)
    | .fin n m e => roundInt (fmtWidth f) mode n m 1 e
  | some ff =>
    match x with
    | .nan s => if ff.kind = .noSpecial then (0, flNV) else (ff.nanCode, flIf s flNV)
    | .inf n => if ff.kind = .ieee then (ff.infCode n, 0) else (ff.overflow mode n nanovf, flOF ||| flNX)
    | .fin n m e => ff.round mode (ftz && fmtFtz f) nanovf n m 1 e

/-- convert(x / y) with the exact quotient of finite y > 0 (R94). -/
def fmtConvertQuot (f : Fmt) (mode : RMode) (nanovf : Bool) (x : FVal) (ym : Nat) (ye : Int) : Nat × Flags :=
  match fmtLayout f, x with
  | some ff, .fin n m e => ff.round mode false nanovf n m ym (e - ye)
  | _, x => fmtConvert f mode false nanovf x

/-- The value m × 2^e of an E3M5 code (R76, R79). -/
def e3m5 (code : Nat) : Nat × Int :=
  let fr := code % 32
  let ex := code / 32 % 8
  if ex = 0 then (fr, -7) else (32 + fr, (ex : Int) - 8)

/-- Largest finite value of a block-scaled format (R95). -/
def fmtMax : Fmt → Nat
  | .e2m1 => 6
  | .e4m3 => 448
  | .e5m2 => 57344
  | _ => 1

/-- Integer square root, one bit at a time. -/
def isqrtFrom : Nat → Nat → Nat → Nat
  | 0, _, r => r
  | b + 1, n, r => if (r + 2 ^ b) * (r + 2 ^ b) ≤ n then isqrtFrom b n (r + 2 ^ b) else isqrtFrom b n r

/-- floor of the square root. -/
def isqrt (n : Nat) : Nat := isqrtFrom (Nat.log2 n / 2 + 1) n 0

/-- √a, correctly rounded (R98): the root is taken with bits to spare and a sticky bit. -/
def fsqrt (ftz : Bool) (a : Nat) : Nat × Flags :=
  match fmtF32.read ftz a with
  | .nan s => (fmtF32.nanCode, flIf s flNV)
  | .inf n => if n then (fmtF32.nanCode, flNV) else (fmtF32.infCode false, 0)
  | .fin n m e =>
    if m = 0 then (fmtF32.withSign n 0, 0)
    else if n then (fmtF32.nanCode, flNV)
    else
      let m2 := if e % 2 = 0 then m else 2 * m
      let e2 := if e % 2 = 0 then e else e - 1
      let x := m2 * 2 ^ 80
      let r := isqrt x
      let stick := if r * r = x then 0 else 1
      fmtF32.round .rne ftz false false (2 * r + stick) 1 (e2 / 2 - 41)

/-- An interval lo ≤ value ≤ hi of nonnegative numbers at the scale 2^e, not both 0. -/
structure Encl where
  lo : Nat
  hi : Nat
  e : Int
  deriving DecidableEq, Repr

/-- Is the magnitude code within `bound` ulps of every value in the interval (R98)? DESIGN CHOICE (log 5): the code of infinity counts as
2^128, so that a value within the bound of 2^128 may be written as infinity. -/
def Encl.admits (x : Encl) (bound : Nat) (mag : Nat) : Bool :=
  let l := ilogRat x.lo 1 + x.e
  let ulp := max (l - 23) (-149)
  let v : Dy := match fmtF32.decode mag with
    | .fin _ m e => ⟨m, e⟩
    | _ => ⟨1, 128⟩
  let slack : Dy := ⟨bound, ulp⟩
  Dy.le ⟨x.hi, x.e⟩ (v.add slack) && Dy.le v (Dy.add ⟨x.lo, x.e⟩ slack)

/-- The magnitude codes near an enclosed value that the bound admits. -/
def Encl.codes (x : Encl) (bound : Nat) : List Nat :=
  let (c, _) := fmtF32.round .rz false false false x.lo 1 x.e
  ((List.range 12).map (fun i => c + i - 5)).filter (fun m => decide (m ≤ fmtF32.infCode false) && x.admits bound m)

/-- Is the enclosed value known exactly, and equal to the magnitude code's value? -/
def Encl.isExact (x : Encl) (mag : Nat) : Bool :=
  x.lo == x.hi && (match fmtF32.decode mag with
    | .fin _ m e => Dy.le ⟨x.lo, x.e⟩ ⟨m, e⟩ && Dy.le ⟨m, e⟩ ⟨x.lo, x.e⟩
    | _ => false)

/-- Write one of the admitted codes: which one is free (log 5). NX is raised when it differs from the exact value. DESIGN CHOICE
(log 5): UF is judged on the code written, where the exact value and it lie on both sides of the smallest normal number. -/
def Encl.pick (x : Encl) (bound pick : Nat) (ftz neg : Bool) : Nat × Flags :=
  let cs := x.codes bound
  let (rne, _) := fmtF32.round .rne false false false x.lo 1 x.e
  let m := cs.getD (pick % cs.length) rne
  let inexact := !x.isExact m
  if m = fmtF32.infCode false then (fmtF32.infCode neg, flOF ||| flNX)
  else if decide (m < 2 ^ 23) && ftz && m != 0 then (fmtF32.withSign neg 0, flUF ||| flNX)
  else (fmtF32.withSign neg m, flIf inexact flNX ||| flIf (decide (m < 2 ^ 23) && inexact) flUF)

/-- 1 / a (R98, R99); `pick` chooses among the codes within 1 ulp. -/
def frcp (pick : Nat) (ftz : Bool) (a : Nat) : Nat × Flags :=
  match fmtF32.read ftz a with
  | .nan s => (fmtF32.nanCode, flIf s flNV)
  | .inf n => (fmtF32.withSign n 0, 0)
  | .fin n m e =>
    if m = 0 then (fmtF32.infCode n, flDZ)
    else
      let l := Nat.log2 m
      if m = 2 ^ l ∧ -126 ≤ -(e + l) then fmtF32.round .rne ftz false n 1 1 (-(e + l))
      else
        let q := 2 ^ (l + 80) / m
        Encl.pick ⟨q, if q * m = 2 ^ (l + 80) then q else q + 1, -(e + l) - 80⟩ 1 pick ftz n

/-- 1 / √a (R98, R99); `pick` chooses among the codes within 1 ulp. -/
def frsq (pick : Nat) (ftz : Bool) (a : Nat) : Nat × Flags :=
  match fmtF32.read ftz a with
  | .nan s => (fmtF32.nanCode, flIf s flNV)
  | .inf n => if n then (fmtF32.nanCode, flNV) else (0, 0)
  | .fin n m e =>
    if m = 0 then (fmtF32.infCode n, flDZ)
    else if n then (fmtF32.nanCode, flNV)
    else
      let m2 := if e % 2 = 0 then m else 2 * m
      let e2 := if e % 2 = 0 then e else e - 1
      let r := isqrt (2 ^ 240 / m2)
      Encl.pick ⟨r, if r * r * m2 = 2 ^ 240 then r else r + 1, -120 - e2 / 2⟩ 1 pick ftz false

/-- Bits of log2 of a number in [1, 2), given as an interval at scale 2^−160: squaring gives one bit each. -/
def lgBits : Nat → Nat → Nat → Nat → Nat → Nat × Nat
  | 0, _, _, acc, n => (acc, n)
  | k + 1, lo, hi, acc, n =>
    let lo2 := lo * lo / 2 ^ 160
    let hi2 := hi * hi / 2 ^ 160 + 1
    if 2 ^ 161 ≤ lo2 then lgBits k (lo2 / 2) (hi2 / 2 + 1) (2 * acc + 1) (n + 1)
    else if hi2 < 2 ^ 161 then lgBits k lo2 hi2 (2 * acc) (n + 1)
    else (acc, n)

/-- log2 a (R98, R99); `pick` chooses among the codes within 1 ulp. -/
def flg2 (pick : Nat) (ftz : Bool) (a : Nat) : Nat × Flags :=
  match fmtF32.read ftz a with
  | .nan s => (fmtF32.nanCode, flIf s flNV)
  | .inf n => if n then (fmtF32.nanCode, flNV) else (fmtF32.infCode false, 0)
  | .fin n m e =>
    if m = 0 then (fmtF32.infCode true, flDZ)
    else if n then (fmtF32.nanCode, flNV)
    else
      let l := Nat.log2 m
      let ex : Int := e + l
      if m = 2 ^ l then fmtF32.round .rne ftz false (decide (ex < 0)) ex.natAbs 1 0
      else
        let f := m * 2 ^ 160 / 2 ^ l
        let (acc, k) := lgBits 90 f f 0 0
        let lo : Int := ex * 2 ^ k + acc
        if 0 ≤ lo then Encl.pick ⟨lo.toNat, (lo + 1).toNat, -(k : Int)⟩ 1 pick ftz false
        else Encl.pick ⟨(-(lo + 1)).toNat, (-lo).toNat, -(k : Int)⟩ 1 pick ftz true

/-- Product of 2^(2^−i) over the set bits of a fraction, as an interval at scale 2^−160. -/
def expBits : Nat → Nat → Nat → Nat → Nat → Nat → Nat × Nat
  | 0, _, _, _, lo, hi => (lo, hi)
  | k + 1, fr, cl, ch, lo, hi =>
    let cl' := isqrt (cl * 2 ^ 160)
    let ch' := isqrt (ch * 2 ^ 160) + 1
    if 2 ^ 63 ≤ fr % 2 ^ 64 then expBits k (2 * fr % 2 ^ 64) cl' ch' (lo * cl' / 2 ^ 160) (hi * ch' / 2 ^ 160 + 1)
    else expBits k (2 * fr % 2 ^ 64) cl' ch' lo hi

/-- 2^((a − b) × c) with no intermediate rounding (R98, R99); `pick` chooses among the codes within 2 ulp. -/
def fexp2 (pick : Nat) (ftz : Bool) (a b c : Nat) : Nat × Flags :=
  let (d, f1) := (fmtF32.read ftz a).add .rne (fmtF32.read ftz b).negate
  let z := fmtF32.read ftz c
  let (t, f2) := d.mul z
  let fl := f1 ||| f2 ||| flIf z.isSig flNV
  match t with
  | .nan _ => (fmtF32.nanCode, fl)
  | .inf n => (if n then 0 else fmtF32.infCode false, fl)
  | .fin n m e =>
    let big := decide (m ≠ 0) && decide (8 ≤ e + Nat.log2 m)
    if big then (if n then (0, fl ||| flUF ||| flNX) else (fmtF32.infCode false, fl ||| flOF ||| flNX))
    else
      let num : Int := (if n then -(m : Int) else m) * 2 ^ e.toNat
      let den : Nat := 2 ^ (-e).toNat
      let k := num / (den : Int)
      let r := (num % (den : Int)).toNat
      if 128 ≤ k then (fmtF32.infCode false, fl ||| flOF ||| flNX)
      else if k < -151 ∨ (k = -150 ∧ r = 0) ∨ k = -151 then (0, fl ||| flUF ||| flNX)
      else if r = 0 then
        let (x, f3) := fmtF32.round .rne ftz false false 1 1 k
        (x, fl ||| f3)
      else
        let fr := r * 2 ^ 64 / den
        let (lo, hi) := expBits 64 fr (2 ^ 161) (2 ^ 161) (2 ^ 160) (2 ^ 160)
        let (x, f3) := Encl.pick ⟨lo, hi + hi / 2 ^ 63 + 1, k - 160⟩ 2 pick ftz false
        (x, fl ||| f3)

end Sys2Proof.Machine
end

