-- ==== Sys2Proof/Machine/Memory.lean ====
section
/-! DEFINITION. The memory system: agents and scopes (R259), the registry (R254 to R258), copies (R263), REPL pages
(R272), posted REDs (R195) and the words of stash lines (R185). A physical address is die × 2^37 + offset (R313). -/
namespace Sys2Proof.Machine

/-- Service core n is core 384 + n of the model; compute cores are 0 to 383 (R8, R17). -/
def isService (core : Nat) : Bool := decide (384 ≤ core)

/-- The die of a core; 4 is the IOD (R17). -/
def dieOf (core : Nat) : Nat := if isService core then 4 else core / 96

/-- The L1 agent of a core (R254, R268). -/
def l1Of (core : Nat) : Agent := if isService core then ⟨.serviceL1, core - 384⟩ else ⟨.l1, core⟩

/-- The die an agent belongs to; 5 lies outside every die of the package. -/
def agentDie (a : Agent) : Nat :=
  match a.kind with
  | .l1 | .stash | .periscope | .gather => a.id / 96
  | .serviceL1 => 4
  | .bridge => 4
  | .remote => 5

/-- The core an agent belongs to, in the model's numbering. -/
def agentCore (a : Agent) : Option Nat :=
  match a.kind with
  | .l1 | .stash | .periscope | .gather => some a.id
  | .serviceL1 => some (a.id + 384)
  | .bridge | .remote => none

/-- Owner-kind code of the race record (R268). -/
def agentCode : AgentKind → Nat
  | .l1 => 0 | .stash => 1 | .periscope => 2 | .gather => 3 | .serviceL1 => 4 | .bridge => 5 | .remote => 6

/-- Are two cores the same, or the two cores of one pair (R9, R259)? -/
def sameTeamCore (paired : Bool) (c d : Nat) : Bool :=
  c == d || (paired && !isService c && !isService d && c / 2 == d / 2)

/-- Is agent b within scope sc of a thread of agent a (R259)? `paired`: the thread's team is paired. -/
def inScope (paired : Bool) (a : Agent) (sc : Scope) (b : Agent) : Bool :=
  match sc with
  | .grp => (match agentCore a, agentCore b with | some c, some d => sameTeamCore paired c d | _, _ => false)
  | .die => b.kind != .remote && agentDie a == agentDie b
  | .pkg => b.kind != .bridge && b.kind != .remote
  | .sys => true

/-- The wider of two scopes (R254). -/
def widerScope (a b : Scope) : Scope := if a.code < b.code then b else a

/-! ### Home slices (R10, R252, R253) -/

/-- The home slice of a virtual address on its home die: the two halves of its line number folded together, modulo 192. -/
def homeSlice (va : Nat) : Nat := Nat.xor (va / 2 ^ 7 % 2 ^ 24) (va / 2 ^ 31 % 2 ^ 23) % 192

/-- The global id of a slice of a die, and the local core beside which it lies (R10). -/
def sliceId (die slice : Nat) : Nat := 192 * die + slice
def sliceCore (slice : Nat) : Nat := slice / 2

/-- The HBM4E stack that backs a slice's lines. -/
def sliceStack (slice : Nat) : Nat := slice % 2

/-! ### Groups and tasks by their numbers -/

/-- A group by its id. -/
def State.group? (s : State) (gid : Nat) : Option Group := s.groups.find? (fun g => g.gid == gid)

/-- Put a changed group back. -/
def State.setGroup (s : State) (g : Group) : State := { s with groups := modWhere s.groups (fun x => x.gid == g.gid) (fun _ => g) }

/-- Change the group with an id. -/
def State.modGroup (s : State) (gid : Nat) (f : Group → Group) : State :=
  { s with groups := modWhere s.groups (fun g => g.gid == gid) f }

/-- A task by its id. -/
def State.task? (s : State) (uid : Nat) : Option Task := s.tasks.find? (fun t => t.uid == uid)

/-- Change the task with an id. -/
def State.modTask (s : State) (uid : Nat) (f : Task → Task) : State :=
  { s with tasks := modWhere s.tasks (fun t => t.uid == uid) f }

/-- Count a store in the delivery record (R184, R274). -/
def Group.countStore (g : Group) (pkg refused : Bool) (va now : Nat) : Group :=
  let add (d : Delivery) : Delivery :=
    { lost := if refused then d.lost else d.lost + 1, refused := if refused then d.refused + 1 else d.refused
      page := if d.lost + d.refused = 0 then alignDown va 8192 else d.page
      first := if d.lost + d.refused = 0 then now else d.first }
  if pkg then { g with delPkg := add g.delPkg } else { g with delOther := add g.delOther }

/-! ### Homes out of reach -/

/-- The home chip of an address (R311). -/
def chipOf (va : Nat) : Nat := va / 2 ^ 54 % 1024

/-- Is a chip reachable: in the routing table on a live port, and not found dead (R314, R354, R356)? -/
def State.reachable (s : State) (chip : Nat) : Bool :=
  !s.fabric.deadChips.contains chip && (s.fabric.route.get chip &&& ~~~s.fabric.deadPorts) != 0

/-- A fenced die (R322). -/
def State.fenced (s : State) (die : Nat) : Bool := s.dies.any (fun d => d.num == die && d.fenced)

/-- The live compute dies, ascending. -/
def State.liveDies (s : State) : List Nat := (List.range 4).filter (fun d => !s.fenced d)

/-- Host memory as functions of the device see it (R5, R344, R351; log 44): an address of one function. -/
def hostKey (fn iova : Nat) : Nat := 2 ^ 64 * fn + iova

/-- Memory homed on another chip is kept beside this package's, by virtual interface and virtual address, above 2^64 (R5, log 9). -/
def remoteKey (vi va : Nat) : Nat := 2 ^ 64 * (vi + 1) + va

/-- Is a home out of reach: on a fenced die or an unreachable chip (R274)? -/
def State.homeLost (s : State) (pa : Nat) : Bool := if 2 ^ 64 ≤ pa then !s.reachable (chipOf (pa - 2 ^ 64)) else s.fenced (pa / 2 ^ 37)

/-- The ring link between neighbouring dies is up: neither end is fenced (R18, R19). -/
def State.ringUp (s : State) (a b : Nat) : Bool :=
  !s.fabric.deadLinks.contains (min a b, max a b) && !s.fenced a && !s.fenced b

/-- Have two dies a ring path (R19)? Neighbours use their link; opposite dies go through either neighbour. -/
def State.ringPath (s : State) (a b : Nat) : Bool :=
  if (a + 2) % 4 = b then [(a + 1) % 4, (a + 3) % 4].any (fun m => s.ringUp a m && s.ringUp m b) else s.ringUp a b

/-- Has a die its link to the IOD (R18)? -/
def State.iodUp (s : State) (die : Nat) : Bool := !s.dies.any (fun d => d.num == die && !d.iodLink)

/-- Has a message of one die a path to another (R18, R19)? Die 4 is the IOD, which each die reaches by its own link. -/
def State.path (s : State) (a b : Nat) : Bool :=
  if a = b ∨ 4 < a ∨ 4 < b then true else if a = 4 then s.iodUp b else if b = 4 then s.iodUp a else s.ringPath a b

/-- The die of a home: memory of other chips lies behind the IOD (R18, R23). -/
def homeDie (pa : Nat) : Nat := if 2 ^ 64 ≤ pa then 4 else pa / 2 ^ 37

/-- Does an agent on a die without a path to the home own one of the words of n bytes (R19, R314; log 70)? -/
def State.cutOwner (s : State) (pa n : Nat) : Bool :=
  s.mem.regs.any (fun r => decide (r.pa < pa + n) && decide (pa < r.pa + 4) && !s.path (agentDie r.owner) (homeDie r.pa))

/-- Are n bytes at a home out of reach of a die: the home is lost, or a path that the access takes is dead (R19, R274, R314)? -/
def State.outOfReach (s : State) (die pa n : Nat) : Bool := s.homeLost pa || !s.path die (homeDie pa) || s.cutOwner pa n

/-- Does another chip refuse writes of an address (R183)? -/
def State.homeRefuses (s : State) (pa : Nat) : Bool :=
  decide (2 ^ 64 ≤ pa) && (s.mem.remotePerms.get ((pa - 2 ^ 64) / 8192)).getLsbD 1

/-! ### The registry -/

/-- The canonical form of memory: keys rise, and nothing is listed that reads as an unlisted address does (log 1). -/
def Memory.wf (m : Mem) : Bool :=
  m.bytes.wf && m.stash.wf && m.owners.wf && m.remotePerms.wf && m.homeVa.wf && m.regs.all (fun r => r.pa % 4 == 0)

/-- The word that holds a byte. -/
def wordOf (pa : Nat) : Nat := pa / 4 * 4

/-- The registry's state of a word: none is HOME (R254). -/
def Mem.reg? (m : Mem) (pw : Nat) : Option Reg := m.regs.find? (fun r => r.pa == pw)

/-- Bytes 0 to 3 of a word. -/
def byteOf (x : Word) (i : Nat) : Byte := BitVec.ofNat 8 (x.toNat / 2 ^ (8 * i))

/-- Put a byte into a word. -/
def putByte (x : Word) (i : Nat) (b : Byte) : Word :=
  BitVec.ofNat 32 (x.toNat - (byteOf x i).toNat * 2 ^ (8 * i) + b.toNat * 2 ^ (8 * i))

/-- The byte the registry gives: the owner's where it has written it, else the home's (R255, R256). -/
def Mem.byte (m : Mem) (pa : Nat) : Byte :=
  match m.reg? (wordOf pa) with
  | some r => if r.mask.getLsbD (pa % 4) then byteOf r.value (pa % 4) else m.bytes.get pa
  | none => m.bytes.get pa

/-- The current bytes of a range, read through the registry. -/
def Mem.read (m : Mem) (pa n : Nat) : List Byte := (List.range n).map (fun i => m.byte (pa + i))

/-- The current value of a word. -/
def Mem.word (m : Mem) (pw : Nat) : Word := BitVec.ofNat 32 (leNat (m.read pw 4))

/-- End a word's registration: the masked bytes are merged at the home (R256, R258). -/
def Mem.writeBack (m : Mem) (pw : Nat) : Mem :=
  match m.reg? pw with
  | none => m
  | some r =>
    let put (st : Store 8) (i : Nat) : Store 8 := if r.mask.getLsbD i then st.set (pw + i) (byteOf r.value i) else st
    { m with bytes := put (put (put (put m.bytes 0) 1) 2) 3, regs := m.regs.filter (fun x => x.pa != pw) }

/-- End several registrations. -/
def Mem.writeBackAll (m : Mem) (l : List Nat) : Mem := l.foldl Mem.writeBack m

/-- Does a word satisfy a monitor's comparison (R199)? -/
def monHolds (c : MonCmp) (w v : Word) : Bool :=
  match c with
  | .eq => w == v
  | .ne => w != v
  | .ge => decide (v.toNat ≤ w.toNat)
  | .lt => decide (w.toNat < v.toNat)

/-- A monitor that watches a word of memory sees its present value (R199). -/
def Monitor.see (m : Monitor) (stash : Bool) (addr : Nat) (w : Word) : Monitor :=
  if m.armed && m.stash == stash && m.addr == addr && !m.polling && monHolds m.cmp w m.value then { m with hit := true } else m

/-- After a write: every armed monitor of the word compares it (R199). -/
def State.watch (s : State) (pw : Nat) : State :=
  { s with groups := s.groups.map (fun g =>
      if g.mon.any (fun m => m.armed && !m.stash && m.addr == pw)
      then { g with mon := g.mon.map (fun m => m.see false pw (s.mem.word pw)) } else g) }

/-- After a write to a word of an unmapped stash line, keyed core × 2^18 + offset (R199). -/
def State.watchStash (s : State) (k : Nat) : State :=
  { s with groups := s.groups.map (fun g =>
      if g.mon.any (fun m => m.armed && m.stash && m.addr == k)
      then { g with mon := g.mon.map (fun m => m.see true k (BitVec.ofNat 32 (leNat (s.mem.stash.read k 4)))) } else g) }

/-- The stash line of an offset of a core's stash (R185): unlisted lines are unmapped and present. -/
def Mem.line? (m : Mem) (core line : Nat) : Option Line := m.lines.find? (fun l => l.core == core && l.line == line)

/-- Is a stash line present (R185)? -/
def Mem.present (m : Mem) (core line : Nat) : Bool :=
  match m.line? core line with
  | some l => l.present
  | none => true

/-- The global address of a stash offset when its line is mapped. -/
def Mem.mappedAt (m : Mem) (core off : Nat) : Option (Line × Nat) :=
  match m.line? core (off / 128) with
  | some l => l.mapped.map (fun va => (l, va + off % 128))
  | none => none

/-- Key of a stash byte. -/
def stashKey (core off : Nat) : Nat := core * 2 ^ 18 + off

/-- A stash holds bytes at an offset; a word of which all bytes are written anew is poisoned no more (R318). -/
def Mem.putStash (m : Mem) (core off : Nat) (bs : List Byte) : Mem :=
  let k := stashKey core off
  { m with
    stash := m.stash.write k bs
    stashPoison := m.stashPoison.filter (fun p => !(decide (k ≤ p) && decide (p + 4 ≤ k + bs.length))) }

/-- A core's stash copies of a word take its value, with the 8 aligned bytes around it: the core's threads have read or
written it (R263), and no copy of 8 bytes is half of one write (R267). -/
def Mem.setStashCopy (m : Mem) (core pw : Nat) : Mem :=
  let pd := alignDown pw 8
  let ls := m.lines.filter (fun l => l.core == core && l.mapped.isSome && l.present && !l.repl && l.pa == alignDown pw 128)
  ls.foldl (fun n l => n.putStash core (128 * l.line + pd % 128) (m.read pd 8)) m

/-- Remove a word's unregistered copy from one L1. -/
def Mem.dropCopy (m : Mem) (core pw : Nat) : Mem := { m with copies := m.copies.filter (fun c => !(c.core == core && c.pa == pw)) }

/-- No copy of a word that a core holds is older than the word now: its L1's goes, its stash's takes the value (R263). -/
def Mem.renew (m : Mem) (core pw : Nat) : Mem := (m.dropCopy core pw).setStashCopy core pw

/-- Any owner of a word but the agent is revoked (R255). -/
def Mem.cede (m : Mem) (ag : Agent) (pw : Nat) : Mem :=
  match m.reg? pw with
  | some r => if r.owner = ag then m else m.writeBack pw
  | none => m

/-- The registration of a word, or a new one of an agent that has written nothing. -/
def Mem.regFor (m : Mem) (ag : Agent) (pw : Nat) : Reg := (m.reg? pw).getD ⟨pw, ag, 0, none, false, 0, []⟩

/-- The masked bytes of a word, put over another. -/
def putBytes (x : Word) (mask : BitVec 4) (val : Word) : Word :=
  let put (x : Word) (i : Nat) : Word := if mask.getLsbD i then putByte x i (byteOf val i) else x
  put (put (put (put x 0) 1) 2) 3

/-- An agent as the writer of a word, where no group is known. -/
def agentWriter (ag : Agent) : Writer := ⟨agentCore ag, none, 0, false⟩

/-- A registration after a write of its owner, which clears the released scope (R254). `plain` is the writer of a write that is no STL
and no atomic: only plain writes count for races (R269). -/
def Reg.write (r : Reg) (plain : Option Writer) (mask : BitVec 4) (val : Word) : Reg :=
  { r with
    mask := r.mask ||| mask, released := none, spilled := false
    value := putBytes r.value mask val
    plain := match plain with
      | some w => r.plain.filter (fun e => !mask.getLsbD e.byte)
          ++ ((List.range 4).filter (fun i => mask.getLsbD i)).map (fun i => ⟨i, w, []⟩)
      | none => r.plain }

/-- A release of the bytes of a word that a test names: the word becomes RELEASED, or its scope widens (R254). -/
def Reg.releaseIf (r : Reg) (k : Rls) (t : PlainByte → Bool) : Reg :=
  { r with
    released := some (match r.released with | some o => widerScope o k.scope | none => k.scope)
    plain := r.plain.map (fun e => if t e && !e.rels.contains k then { e with rels := e.rels ++ [k] } else e) }

/-- A release of a word (R254). -/
def Reg.release (r : Reg) (k : Rls) : Reg := r.releaseIf k (fun _ => true)

/-- Words that an engine command has just written whole: it is their writer, for the races that R268 and R269 except. -/
def Mem.byEngine (m : Mem) (words : List Nat) (core cmd : Nat) (pair : Bool) : Mem :=
  { m with regs := m.regs.map (fun r => if words.contains r.pa then
      { r with plain := r.plain.map (fun e => { e with writer := ⟨some core, none, cmd, pair⟩ }) } else r) }

/-- A command's release of the words it has registered (R206, R209), and of what its group has written before it (R205, R261). -/
def Mem.releaseCmd (m : Mem) (words : List Nat) (gid cmd : Nat) (k : Rls) : Mem :=
  let mine (r : Reg) (e : PlainByte) : Bool := (e.writer.cmd == cmd && words.contains r.pa) || e.writer.gid == some gid
  { m with regs := m.regs.map (fun r => if r.plain.any (mine r) then r.releaseIf k (mine r) else r) }

/-- A word is registered to an agent that writes some of its bytes (R255); a whole write clears poison (R318). -/
def Mem.register (m : Mem) (plain : Option Writer) (ag : Agent) (pw : Nat) (mask : BitVec 4) (val : Word) : Mem :=
  let m0 := m.cede ag pw
  { m0 with
    regs := upsert m0.regs (fun r => r.pa == pw) ((m0.regFor ag pw).write plain mask val)
    poison := if mask = 0xF then m0.poison.filter (· != pw) else m0.poison }

/-- A write of some bytes of a word by an agent: the word is registered to it (R254, R255), and the copies of its core are
renewed (R263). -/
def State.storeWord (s : State) (plain : Option Writer) (ag : Agent) (pa : Nat) (mask : BitVec 4) (val : Word) : State :=
  let m := s.mem.register plain ag (wordOf pa) mask val
  { s with mem := match agentCore ag with | some c => m.renew c (wordOf pa) | none => m }.watch (wordOf pa)

/-- The words that n bytes at pa touch, with the mask and value of each. -/
def wordParts (pa : Nat) (bs : List Byte) : List (Nat × BitVec 4 × Word) :=
  let n := bs.length
  let k := (pa + n + 3) / 4 - pa / 4
  (List.range k).map (fun j =>
    let pw := wordOf pa + 4 * j
    let has (i : Nat) : Bool := decide (pa ≤ pw + i) && decide (pw + i < pa + n)
    let bit (i : Nat) : BitVec 4 := if has i then BitVec.ofNat 4 (2 ^ i) else 0
    let put (x : Word) (i : Nat) : Word := if has i then putByte x i (bs.getD (pw + i - pa) 0) else x
    (pw, bit 0 ||| bit 1 ||| bit 2 ||| bit 3, put (put (put (put 0 0) 1) 2) 3))

/-- A store of bytes by an agent to an ATOM page (R255, R256). -/
def State.storeAtom (s : State) (plain : Option Writer) (ag : Agent) (pa : Nat) (bs : List Byte) : State :=
  (wordParts pa bs).foldl (fun t p => t.storeWord plain ag p.1 p.2.1 p.2.2) s

/-- The replica of an address on a die (R313). -/
def replicaOf (pa die : Nat) : Nat := die * 2 ^ 37 + pa % 2 ^ 37

/-- Which replica an agent reads: its own die's, or the home die's for an agent of the IOD (R272). -/
def replicaFor (ag : Agent) (pa : Nat) : Nat := if agentDie ag < 4 then replicaOf pa (agentDie ag) else pa

/-- A core's stash copies of words of a REPL page, by 8 aligned bytes, take what the replica of its die holds: its threads have
read or written them (R263, R267, R272). -/
def Mem.renewRepl (m : Mem) (core pa n : Nat) : Mem :=
  let keys := (List.range (alignUp (pa + n) 8 - alignDown pa 8)).map (fun i => alignDown pa 8 + i)
  let src := replicaFor ⟨.stash, core⟩
  (m.lines.filter (fun l => l.core == core && l.mapped.isSome && l.present && l.repl)).foldl (fun n l =>
    (keys.filter (fun k => k % 8 == 0 && alignDown k 128 == l.pa)).foldl (fun n k =>
      n.putStash core (128 * l.line + k % 128) (m.bytes.read (src k) 8)) n) m

/-- A write of bytes at the home itself (R256). -/
def Mem.writeHome (m : Mem) (pa : Nat) (bs : List Byte) : Mem :=
  { m with
    bytes := m.bytes.write pa bs
    poison := m.poison.filter (fun p => !(decide (pa ≤ p) && decide (p + 4 ≤ pa + bs.length))) }

/-- Do two ranges of bytes share one? -/
def overlap (a n b m : Nat) : Bool := decide (a < b + m) && decide (b < a + n)

/-- Are two stores on their way from one source to one destination (R19)? A source is a core with its agents, or the bridge. -/
def ReplWrite.samePath (q r : ReplWrite) : Bool := agentCore q.agent == agentCore r.agent && q.pa / 2 ^ 37 == r.pa / 2 ^ 37

/-- Must a store on its way to a replica arrive before another that was sent later: on the same path, or of the same bytes (R19,
R272)? -/
def ReplWrite.precedes (q r : ReplWrite) : Bool := q.samePath r || overlap q.pa q.bytes.length r.pa r.bytes.length

/-- The members of a queue that a test names, with the older ones that must go before them. -/
def withOlder {α : Type} (before : α → α → Bool) (t : α → Bool) (l : List α) : List α :=
  l.foldr (fun q acc => if t q || acc.any (before q) then q :: acc else acc) []

/-- A store is lost on its way to a replica, and counted once (R272, R274). -/
def State.replLost (s : State) (r : ReplWrite) : State :=
  if s.mem.repls.any (fun q => q.store == r.store && q.counted) then s
  else { s with mem := { s.mem with repls := s.mem.repls.map (fun (q : ReplWrite) => if q.store == r.store then { q with counted := true } else q) } }.modGroup
    r.gid (fun g => g.countStore true false r.va s.fresh)

/-- A replica takes the bytes of a store that was on its way to it (R272); where the path has died the store is lost (R19, R274). -/
def State.replArrives (s : State) (r : ReplWrite) : State :=
  if s.path (agentDie r.agent) (homeDie r.pa) then
    { s with mem := { s.mem.writeHome r.pa r.bytes with repls := s.mem.repls.filter (fun q => q.key != r.key) } }
  else
    let t := s.replLost r
    { t with mem := { t.mem with repls := t.mem.repls.filter (fun q => q.key != r.key) } }

/-- Some replicas that are behind are brought up to date, in the order of R19 (R272). -/
def State.flushRepls (s : State) (t : ReplWrite → Bool) : State :=
  (withOlder ReplWrite.precedes t s.mem.repls).foldl State.replArrives s

/-- The stores that a core's agents, and those for one group, have on their way to the replicas of other dies all arrive (R272). -/
def State.flushOf (s : State) (core gid : Nat) : State := s.flushRepls (fun q => agentCore q.agent == some core || q.gid == gid)

/-- A store to a REPL page, for a group: the home replica, the writer's own and its core's copies at once, the others
later (R272); what its source sent to the home before arrives first (R19). -/
def State.storeRepl (s : State) (gid : Nat) (ag : Agent) (pa : Nat) (bs : List Byte) : State :=
  let s := s.flushRepls (fun q => agentCore q.agent == agentCore ag && q.pa / 2 ^ 37 == pa / 2 ^ 37)
  let own := replicaFor ag pa
  let rest := s.liveDies.filter (fun d => decide (replicaOf pa d ≠ pa) && decide (replicaOf pa d ≠ own))
  let m := (s.mem.writeHome pa bs).writeHome own bs
  let m1 := match agentCore ag with | some c => m.renewRepl c pa bs.length | none => m
  let va := (s.mem.homeVa.get (pa / 8192)).toNat * 8192
  let later := rest.map (fun d => (⟨s.nextId + d, s.nextId, gid, ag, replicaOf pa d, va, false, bs⟩ : ReplWrite))
  { s with mem := { m1 with repls := s.mem.repls ++ later }, nextId := s.nextId + 4 }

/-- A load from a REPL page: the agent's own replica (R272), which its core's copies are then no older than (R263). -/
def State.readRepl (s : State) (ag : Agent) (pa n : Nat) : State × List Byte :=
  ({ s with mem := match agentCore ag with | some c => s.mem.renewRepl c pa n | none => s.mem }, s.mem.bytes.read (replicaFor ag pa) n)

/-- A store by an agent, for a group, to a page with its attribute. -/
def State.store (s : State) (gid : Nat) (plain : Bool) (ag : Agent) (repl : Bool) (pa : Nat) (bs : List Byte) : State :=
  if repl then s.storeRepl gid ag pa bs
  else s.storeAtom (if plain then some { agentWriter ag with gid := some gid } else none) ag pa bs

/-- Stores on their way to replicas that an engine made since a state are not counted in a delivery record when they are lost (R274). -/
def State.noCount (s : State) (since : State) : State :=
  { s with mem := { s.mem with repls := s.mem.repls.map (fun (q : ReplWrite) => if since.nextId ≤ q.key then { q with counted := true } else q) } }

/-- A write by the device itself: any registration ends first, and the home takes the bytes. -/
def State.deviceWrite (s : State) (pa : Nat) (bs : List Byte) : State :=
  let ws := (wordParts pa bs).map (·.1)
  let m := (s.mem.writeBackAll ws).writeHome pa bs
  ws.foldl State.watch { s with mem := m }

/-- Bytes of memory homed on another chip, through the registry. -/
def Mem.remoteRead (m : Mem) (vi va n : Nat) : List Byte := m.read (remoteKey vi va) n

/-- Write bytes of memory homed on another chip; monitors of its words compare them (R199). -/
def State.remoteWrite (s : State) (vi va : Nat) (bs : List Byte) : State := s.deviceWrite (remoteKey vi va) bs

/-- A core's write of bytes homed on another chip: no copy that it holds of their words is older (R263). -/
def State.remoteStore (s : State) (core vi va : Nat) (bs : List Byte) : State :=
  let t := s.remoteWrite vi va bs
  { t with mem := (wordParts (remoteKey vi va) bs).foldl (fun m p => m.renew core p.1) t.mem }

/-- The L1's copy of a word. -/
def Mem.copyOf (m : Mem) (core pw : Nat) : Option Copy := m.copies.find? (fun c => c.core == core && c.pa == pw)

/-- The other word of the 8 aligned bytes that a word lies in. -/
def sibling (pw : Nat) : Nat := if pw % 8 < 4 then pw + 4 else pw - 4

/-- May a plain load take the L1's copy of a word: there is one, and the word is HOME (R263)? -/
def Mem.copyable (m : Mem) (core pw : Nat) : Bool := (m.copyOf core pw).isSome && (m.reg? pw).isNone

/-- Is the L1's copy of a word older than the word? -/
def Mem.stale (m : Mem) (core pw : Nat) : Bool := (m.copyOf core pw).any (fun c => c.value != m.word pw)

/-- A plain load of a word (R263): the L1's copy, or the current value, of which the L1 then keeps a copy and drops an older
one of the word's sibling, so that two copies are never halves of one write (R267). A stash copy is then no older. -/
def State.loadWord (s : State) (core : Nat) (old : Bool) (vi va : Nat) (region : BitVec 4) (pw : Nat) : State × Word :=
  match old, s.mem.copyOf core pw with
  | true, some c => ({ s with mem := s.mem.setStashCopy core pw }, c.value)
  | _, _ =>
    let m := if s.mem.stale core (sibling pw) then s.mem.dropCopy core (sibling pw) else s.mem
    let v := s.mem.word pw
    let cs := upsert m.copies (fun c => c.core == core && c.pa == pw) ⟨core, pw, vi, va, region, v⟩
    ({ s with mem := { m with copies := cs }.setStashCopy core pw }, v)

/-- The other words of the line become copies too, where they are HOME, not copied yet, and would not stand beside an older
copy of their sibling (R191, R263, R267). -/
def State.fillLine (s : State) (core : Nat) (vi va : Nat) (region : BitVec 4) (pa : Nat) : State :=
  let new := (List.range 32).filterMap (fun i =>
    let pw := alignDown pa 128 + 4 * i
    if (s.mem.reg? pw).isSome || (s.mem.copyOf core pw).isSome || s.mem.stale core (sibling pw) then none
    else some (⟨core, pw, vi, alignDown va 128 + 4 * i, region, s.mem.word pw⟩ : Copy))
  { s with mem := { s.mem with copies := s.mem.copies ++ new } }

/-- The words that n bytes touch. -/
def wordsAt (pa n : Nat) : List Nat := (List.range ((pa + n + 3) / 4 - pa / 4)).map (fun j => wordOf pa + 4 * j)

/-- Does a plain load take copies for the 8 aligned bytes around a word? That is free where it may take one of every word that its
instruction reads there, `all` being those words and `m` the memory before it (R180, R263, R267; log 4). -/
def State.takesCopy (s : State) (m : Mem) (core : Nat) (all : List Nat) (pw : Nat) : Bool :=
  Config.staleChoice s.fresh (alignDown pw 8) && (all.filter (fun q => alignDown q 8 == alignDown pw 8)).all (m.copyable core)

/-- A plain load of n bytes by a core's L1, in an instruction that reads the words `all`. -/
def State.loadBytes (s : State) (m : Mem) (all : List Nat) (core : Nat) (vi va : Nat) (region : BitVec 4) (pa n : Nat) : State × List Byte :=
  let ws := wordsAt pa n
  let old (pw : Nat) : Bool := s.takesCopy m core all pw
  let step (acc : State × List Byte) (pw : Nat) : State × List Byte :=
    let (s', w) := acc.1.loadWord core (old pw) vi (wordOf va + (pw - wordOf pa)) region pw
    (s', acc.2 ++ leBytes 4 w.toNat)
  let (s', bs) := ws.foldl step (s, [])
  (s'.fillLine core vi va region pa, (bs.drop (pa % 4)).take n)

/-- Words of a range that are poisoned (R318). -/
def Mem.poisonIn (m : Mem) (pa n : Nat) : Option Nat :=
  m.poison.find? (fun p => decide (p < pa + n) && decide (pa < p + 4))

/-- Is an access of a group by an agent no race with the write of a byte, for the thread that made it (R268, R269; log 55)? A lane's
write is none for its own group, and for an engine of its core; a command's is none for its core, or for the pair of a paired team. -/
def Writer.own (w : Writer) (gid : Nat) (ag : Agent) : Bool :=
  let near : Bool := match w.core, agentCore ag with
    | some c, some d => sameTeamCore w.pair c d
    | _, _ => false
  match w.gid with
  | some k => k == gid || (near && (ag.kind == .periscope || ag.kind == .gather))
  | none => near

/-- Has another thread's plain write left one of the masked bytes without a release to an agent since (R254, R268)? -/
def Reg.openTo (r : Reg) (mask : BitVec 4) (gid : Nat) (ag : Agent) : Bool :=
  r.plain.any (fun e => mask.getLsbD e.byte && !e.writer.own gid ag && !e.rels.any (fun k => inScope k.paired k.agent k.scope ag))

/-- The words of the range that a plain access of a group by an agent races on (R268), ascending. Bytes that only an STL or an atomic
wrote do not count, nor do those of a writer whose accesses are ordered with this one: the trap never fires on a program free of races
(R269; log 55). -/
def Mem.racing (m : Mem) (gid : Nat) (ag : Agent) (pa : Nat) (n : Nat) : List Reg :=
  (wordParts pa (List.replicate n 0)).filterMap (fun p =>
    match m.reg? p.1 with
    | some r => if r.owner ≠ ag && r.openTo p.2.1 gid ag then some r else none
    | none => none)

/-- A release by a core's thread: the words of its L1 and its stash, and of other stashes the bytes that commands of the core have
written, but for words of commands that still run (R189, R254; log 65). -/
def Mem.releaseCore (m : Mem) (core : Nat) (sc : Scope) (paired : Bool) (busy : List Nat) : Mem :=
  let k : Rls := ⟨l1Of core, sc, paired⟩
  let mine (e : PlainByte) : Bool := e.writer.core == some core
  { m with regs := m.regs.map (fun r =>
      if r.owner = l1Of core ∨ r.owner = ⟨.stash, core⟩ then r.release k
      else if r.owner.kind == .stash && r.plain.any mine && !busy.contains r.pa then r.releaseIf k mine
      else r) }

/-- The smaller or larger of two n-bit values, read signed or unsigned (R194). -/
def pickExt (n : Nat) (sgn max : Bool) (x y : Nat) : Nat :=
  let less := if sgn then decide (signed n x < signed n y) else decide (x < y)
  if less = max then y else x

/-- An atomic operation on a value of its width (R194): the new value of the word. -/
def atomApply (op : AtomVar) (old opnd new : Nat) : Nat :=
  match op with
  | .add32 => (old + opnd) % 2 ^ 32
  | .add64 => (old + opnd) % 2 ^ 64
  | .addF32 => (fmtF32.add .rne false old opnd).1
  | .minSgn32 => pickExt 32 true false old opnd
  | .minUns32 => pickExt 32 false false old opnd
  | .minSgn64 => pickExt 64 true false old opnd
  | .minUns64 => pickExt 64 false false old opnd
  | .maxSgn32 => pickExt 32 true true old opnd
  | .maxUns32 => pickExt 32 false true old opnd
  | .maxSgn64 => pickExt 64 true true old opnd
  | .maxUns64 => pickExt 64 false true old opnd
  | .and32 | .and64 => Nat.land old opnd
  | .or32 | .or64 => Nat.lor old opnd
  | .xor32 | .xor64 => Nat.xor old opnd
  | .xchg32 | .xchg64 => opnd
  | .cas32 | .cas64 => if old = opnd then new else old

/-- An ATOM on an ATOM page: the words are registered to the agent, and the operation is done there (R257). -/
def State.atomAt (s : State) (ag : Agent) (op : AtomVar) (pa opnd new : Nat) : State × Nat :=
  let old := leNat (s.mem.read pa op.bytes)
  (s.storeAtom none ag pa (leBytes op.bytes (atomApply op old opnd new)), old)

/-- A RED's word at its owner, or at the home of a HOME word (R257): nothing is registered. Poison stays under anything
but a whole write (R318). -/
def Mem.redWord (m : Mem) (op : AtomVar) (pw : Nat) (val : Word) : Mem :=
  let n := match m.reg? pw with
    | some r => { m with regs := modWhere m.regs (fun x => x.pa == pw) (fun _ => { r with mask := 0xF, value := val }) }
    | none => m.writeHome pw (leBytes 4 val.toNat)
  { n with poison := if op = AtomVar.xchg32 ∨ op = AtomVar.xchg64 then m.poison.filter (· != pw) else m.poison }

/-- A RED, word by word (R257). -/
def State.redAt (s : State) (op : AtomVar) (pa opnd : Nat) : State :=
  let new := leBytes op.bytes (atomApply op (leNat (s.mem.read pa op.bytes)) opnd 0)
  (wordParts pa new).foldl (fun t p => { t with mem := t.mem.redWord op p.1 p.2.2 }.watch p.1) s

/-- Some bytes of a word are written as a RED.set of them (R206, R257): nothing is registered, and the rest of the word stays. -/
def State.redPut (s : State) (pw : Nat) (mask : BitVec 4) (val : Word) : State :=
  { s with mem := s.mem.redWord (if mask = 0xF then .xchg32 else .or32) pw (putBytes (s.mem.word pw) mask val) }.watch pw

/-- Perform one posted RED: no later load of its lane returns an older value (R195). One whose home is out of reach is lost and
counted (R274, R314, R323). -/
def State.performRed (s : State) (r : PostedRed) : State :=
  if s.outOfReach (agentDie r.agent) r.pa r.op.bytes then s.modGroup r.gid (fun g => g.countStore true false r.va s.fresh)
  else
  let s1 := s.redAt r.op r.pa r.opnd.toNat
  match agentCore r.agent with
  | some c => { s1 with mem := (wordParts r.pa (List.replicate r.op.bytes 0)).foldl (fun m p => m.renew c p.1) s1.mem }
  | none => s1

/-- Must a RED be performed before a later one: of the same group, to bytes that overlap (R195, R265)? -/
def PostedRed.precedes (q r : PostedRed) : Bool := q.gid == r.gid && overlap q.pa q.op.bytes r.pa r.op.bytes

/-- Perform the posted REDs that a test names, in order, each after the earlier ones of its group to its bytes (R195). -/
def State.performReds (s : State) (t : PostedRed → Bool) : State :=
  let now := withOlder PostedRed.precedes t s.mem.reds
  now.foldl State.performRed { s with mem := { s.mem with reds := s.mem.reds.filter (fun r => !now.contains r) } }

/-- The REDs of a group to words that n bytes at pa touch are performed before the group reaches them again (R195). -/
def State.redsBefore (s : State) (gid pa n : Nat) : State :=
  s.performReds (fun r => r.gid == gid && decide (r.pa < pa + n) && decide (pa < r.pa + r.op.bytes))

/-- Change one stash line; a line that is unmapped, present and finished is not listed. -/
def Mem.setLine (m : Mem) (l : Line) : Mem :=
  let rest := m.lines.filter (fun x => !(x.core == l.core && x.line == l.line))
  { m with lines := if l.mapped.isNone && l.present && l.unfinished == 0 && !l.filling && l.writers.isEmpty then rest else rest ++ [l] }

/-- No command's own reads pass over the absence of a line that has become present again (R187). -/
def State.lineBack (s : State) (core line : Nat) : State :=
  { s with cmds := s.cmds.map (fun c => { c with cleared := c.cleared.filter (· != (core, line)) }) }

/-- The line of a core, as a record. -/
def Mem.lineOf (m : Mem) (core line : Nat) : Line :=
  (m.line? core line).getD ⟨core, line, none, 0, 0, false, true, 0, false, [], false⟩

/-- Words of a stash range that are poisoned, as keys. -/
def Mem.stashPoisonIn (m : Mem) (core off n : Nat) : Option Nat :=
  m.stashPoison.find? (fun p => decide (p < stashKey core off + n) && decide (stashKey core off < p + 4))

/-- The stash lines of n bytes at an offset of a core's stash. -/
def linesOf (off n : Nat) : List Nat := (List.range ((off + n + 127) / 128 - off / 128)).map (fun j => off / 128 + j)

/-- Bytes at an offset of a stash, cut at the ends of lines. -/
def linePieces (off : Nat) (bs : List Byte) : List (Nat × List Byte) :=
  (linesOf off bs.length).map (fun ln => let lo := max off (128 * ln); (lo, (bs.drop (lo - off)).take (128 * (ln + 1) - lo)))

/-- A range of bytes of a stash: offset and length. -/
abbrev StashRange := Nat × Nat

/-- Does an instruction that reads some ranges of a stash take the stash's own byte at a: of an unmapped line always, of a mapped one
when it is plain and, for the 8 aligned bytes around it, the free choice says so and no word that it reads there is registered (R180,
R263, R267; log 4)? -/
def State.ownByte (s : State) (plain : Bool) (core : Nat) (all : List StashRange) (a : Nat) : Bool :=
  match s.mem.mappedAt core a with
  | none => true
  | some (l, _) =>
    let pa := alignDown (l.pa + a % 128) 8
    let reads (b : Nat) : Bool := all.any (fun r => decide (r.1 ≤ b) && decide (b < r.1 + r.2))
    plain && Config.staleChoice s.fresh pa && (l.repl || (List.range 8).all (fun j =>
      !reads (alignDown a 8 + j) || (s.mem.reg? (wordOf (pa + j))).isNone))

/-- A byte of a present stash range as the core's own groups read it: the stash's own, the registry's, or for a REPL page that
of the die's replica (R263, R272). -/
def State.stashByte (s : State) (plain : Bool) (core : Nat) (all : List StashRange) (a : Nat) : Byte :=
  match s.mem.mappedAt core a with
  | some (l, _) =>
    let pa := l.pa + a % 128
    if s.ownByte plain core all a then s.mem.stash.get (stashKey core a)
    else if l.repl then s.mem.bytes.get (replicaFor ⟨.stash, core⟩ pa) else s.mem.byte pa
  | none => s.mem.stash.get (stashKey core a)

/-- Read a present stash range, plainly or through the registry (R189), in an instruction that reads the ranges `all`; the stash
keeps what was read, and the L1 holds no older copy. -/
def State.stashRead (s : State) (plain : Bool) (core : Nat) (all : List StashRange) (off n : Nat) : State × List Byte :=
  let bs := (List.range n).map (fun i => s.stashByte plain core all (off + i))
  let m := (wordParts off bs).foldl (fun m p => match s.mem.mappedAt core p.1 with
    | some (l, _) =>
      let pw := l.pa + p.1 % 128
      if s.ownByte plain core all (max off p.1) then (if l.repl then m else m.dropCopy core pw)
      else if l.repl then m.renewRepl core pw 4 else m.renew core pw
    | none => m) s.mem
  ({ s with mem := m }, bs)

/-- The first global address of a stash range whose home is out of reach, with its physical address (R274, R314, R323). -/
def State.stashLost (s : State) (core off n : Nat) : Option (Nat × Nat) :=
  (linesOf off n).findSome? (fun ln => match s.mem.line? core ln with
    | some l => (match l.mapped with
      | some va =>
        let lo := max off (128 * ln) - 128 * ln
        let len := min (off + n) (128 * (ln + 1)) - 128 * ln - lo
        if l.pa < 2 ^ 80 ∧ s.outOfReach (dieOf core) (l.pa + lo) len then some (va + lo, l.pa + lo) else none
      | none => none)
    | none => none)

/-- Write a present stash range for a group: a mapped line's words are registered to the stash (R185), or stored to a REPL
page. A store whose home is out of reach is lost and counted (R274). -/
def State.stashWrite (s : State) (gid : Nat) (plain : Bool) (core off : Nat) (bs : List Byte) : State :=
  match s.stashLost core off bs.length with
  | some (va, pa) => s.modGroup gid (fun g => g.countStore (decide (pa < 2 ^ 64)) false va s.fresh)
  | none =>
  (linePieces off bs).foldl (fun t p =>
    match t.mem.mappedAt core p.1 with
    | some (l, _) => t.store gid plain ⟨.stash, core⟩ l.repl (l.pa + p.1 % 128) p.2
    | none => (wordParts p.1 p.2).foldl (fun u w => u.watchStash (stashKey core w.1)) t) { s with mem := s.mem.putStash core off bs }

/-- The words of a mapped line that the stash owns. -/
def Mem.dirtyWords (m : Mem) (l : Line) : List Nat :=
  (m.regs.filter (fun r => r.owner = ⟨.stash, l.core⟩ && alignDown r.pa 128 == l.pa)).map (·.pa)

/-- Does the stash own a word of a mapped line? -/
def Mem.lineDirty (m : Mem) (l : Line) : Bool := !(m.dirtyWords l).isEmpty

/-- Before a line is unmapped, whose bytes are kept (R192): the words that the stash owns stand in it as they are now, and poisoned
words keep their poison (R318). -/
def Mem.keepLine (m : Mem) (l : Line) : Mem :=
  let own := m.dirtyWords l
  let at' (pw : Nat) : Nat := stashKey l.core (128 * l.line + pw % 128)
  let held := if l.present then (List.range 32).map (fun i => l.pa + 4 * i) else own
  { m with
    stash := own.foldl (fun st pw => st.write (at' pw) (m.read pw 4)) m.stash
    stashPoison := (m.stashPoison ++ (held.filter (fun pw => m.poison.contains (if l.repl then replicaFor ⟨.stash, l.core⟩ pw else pw))).map at').eraseDups }

/-- The words of a present mapped line that its stash does not own take their current values (R248, R263). -/
def Mem.refreshLine (m : Mem) (l : Line) : Mem :=
  let own := m.dirtyWords l
  (List.range 32).foldl (fun n i =>
    let pw := l.pa + 4 * i
    if own.contains pw then n
    else
      let bs := if l.repl then n.bytes.read (replicaFor ⟨.stash, l.core⟩ pw) 4 else n.read pw 4
      n.putStash l.core (128 * l.line + 4 * i) bs) m

/-- Write back the dirty words of a mapped line and give up their registration (R192, R193); with the numbers of words that
were lost, and refused (R274). -/
def State.flushLine (s : State) (core line : Nat) : State × Nat × Nat :=
  match s.mem.line? core line with
  | some l =>
    let ws := s.mem.dirtyWords l
    let gone : State := { s with mem := { s.mem with regs := s.mem.regs.filter (fun r => !ws.contains r.pa) } }
    if l.mapped.isNone then (s, 0, 0)
    else if s.outOfReach (dieOf core) l.pa 128 then (gone, ws.length, 0)
    else if s.homeRefuses l.pa then (gone, 0, ws.length)
    else ({ s with mem := s.mem.writeBackAll ws }, 0, 0)
  | none => (s, 0, 0)

/-- A poisoned word that a read of a stash range meets (R318): of the stash, or of the line's home or replica. -/
def State.stashBad (s : State) (core off n : Nat) : Option Nat :=
  match s.mem.stashPoisonIn core off n with
  | some p => some (p % 2 ^ 18)
  | none => (List.range n).findSome? (fun i => match s.mem.mappedAt core (off + i) with
    | some (l, va) =>
      let pa := l.pa + (off + i) % 128
      (s.mem.poisonIn (if l.repl then replicaFor ⟨.stash, core⟩ pa else pa) 1).map (fun _ => alignDown va 4)
    | none => none)

/-! ### Deferred accesses and the Lens (R186, R226) -/

/-- A deferred access: its key, group and lines, the key of the first release of its group since, and how it is applied. -/
structure Deferred where
  key : Nat
  gid : Nat
  lines : List Nat
  rel : Option Nat
  pend : Option Pend
  held : Option Held
  deriving DecidableEq, Repr

/-- The deferred accesses of a core, in the order they were issued. -/
def State.deferred (s : State) (core : Nat) : List Deferred :=
  let ps := (s.groups.filter (fun g => g.core == core)).flatMap (fun g => g.outs.filterMap (fun o => match o.src with
    | .stashLoad _ f as _ _ => some ⟨o.key, g.gid, as.flatMap (fun a => linesOf a.2 f.bytes), none, some o, none⟩
    | .stashAtom _ op _ as _ _ rel => some ⟨o.key, g.gid, as.flatMap (fun a => linesOf a.2.1 op.bytes), rel, some o, none⟩
    | _ => none))
  let hs := (s.mem.held.filter (fun h => h.core == core)).map (fun h =>
    (⟨h.key, h.gid, linesOf h.addr h.bytes.length, h.rel.map (fun r => r.2), none, some h⟩ : Deferred))
  sortBy (fun a b => decide (a.key ≤ b.key)) (ps ++ hs)

/-- Does a deferred access change the line? -/
def Deferred.writes (d : Deferred) : Bool :=
  d.held.isSome || d.pend.any (fun o => match o.src with | .stashAtom .. => true | _ => false)

/-- Is the Lens to observe a deferred write for an operation: an older one of the issuing group, or one that another group has
released before the issue (R226)? -/
def Deferred.beforeOp (d : Deferred) (e : ArrEntry) : Bool :=
  decide (d.key < e.key) && d.writes && (d.gid == e.gid || d.rel.any (fun k => decide (k ≤ e.key)))

/-- A deferred write waits for the Lens where an operation that is not to observe it has the line still to read (R226). -/
def State.lensHolds (s : State) (d : Deferred) (core line : Nat) : Bool :=
  d.writes && s.arrays.any (fun e => e.stage == .accepted && !d.beforeOp e && e.toRead.contains (core, line))

/-- Lines that a matrix operation has accepted to read and the Lens has not read yet (R226). -/
def State.lensPending (s : State) (core line : Nat) : Bool :=
  s.arrays.any (fun e => e.stage == .accepted && e.toRead.contains (core, line))

/-- Must a write of a task's team to n bytes of memory wait, for the Lens has yet to read a present line that is mapped to
them (R226)? -/
def State.lensWaits (s : State) (task pa n : Nat) : Bool :=
  s.arrays.any (fun e => e.stage == .accepted && e.task == task && e.toRead.any (fun k =>
    (s.mem.line? k.1 k.2).any (fun l => l.present && l.mapped.isSome && overlap l.pa 128 pa n)))

/-- Does a write that the Lens is to observe still wait for the line (R226)? -/
def State.writeBefore (s : State) (e : ArrEntry) (core line : Nat) : Bool :=
  (s.deferred core).any (fun d => d.beforeOp e && d.lines.contains line)

/-- Change an entry of the arrays. -/
def State.modEntry (s : State) (key : Nat) (f : ArrEntry → ArrEntry) : State :=
  { s with arrays := modWhere s.arrays (fun e => e.key == key) f }

/-- The Lens gives an operation up (R226, R232): subcode 7 or 8, the core it lies on, and the line's address. -/
def ArrEntry.fail (e : ArrEntry) (sub core addr : Nat) : ArrEntry :=
  if e.abort = 0 then { e with toRead := [], abort := sub + 16 * core + 2 ^ 14 * addr } else e

/-- The Lens reads one line that is present, or gives the operation up for poison in it (R226, R232 subcode 7). -/
def State.lensTake (s : State) (e : ArrEntry) (core line : Nat) : State :=
  if (s.stashBad core (128 * line) 128).isSome then s.modEntry e.key (fun d => d.fail 7 core 0)
  else
    let (s1, bs) := s.stashRead true core [(128 * line, 128)] (128 * line) 128
    s1.modEntry e.key (fun d =>
      { d with toRead := d.toRead.filter (· != (core, line)), got := d.got.write (stashKey core (128 * line)) bs })

/-- A present line is about to lose its presence: what the Lens has still to read of it is read first, but where a write that it is to
observe still waits (R226). -/
def State.lensFirst (s : State) (core line : Nat) : State :=
  (s.arrays.filter (fun e => e.stage == .accepted && e.toRead.contains (core, line))).foldl (fun u e =>
    if u.writeBefore e core line then u else u.lensTake e core line) s

/-! ### Answers to revocations (R277) -/

/-- Has the owner of a registered word a path to its home (R19)? -/
def State.ownerPath (s : State) (pw : Nat) : Bool := (s.mem.reg? pw).all (fun r => s.path (agentDie r.owner) (homeDie pw))

/-- Registrations end by an eviction or a write-back (R256, R258): the bytes of a word whose home is lost are lost with it, and over a
dead path nothing arrives (R19; log 70). -/
def State.giveBack (s : State) (ws : List Nat) : State :=
  let m := { s.mem with regs := s.mem.regs.filter (fun r => !(ws.contains r.pa && s.homeLost r.pa)) }
  { s with mem := m.writeBackAll (ws.filter s.ownerPath) }

/-- The revocation that a word waits for. -/
def State.revoke? (s : State) (pw : Nat) : Option Revoke := s.mem.revokes.find? (fun r => r.pa == pw)

/-- The revocation of a word is over, and its pending request is served (R277). -/
def State.serve (s : State) (v : Revoke) : State :=
  let s1 := { s with mem := { s.mem with revokes := s.mem.revokes.filter (fun r => r.pa != v.pa) } }
  match v.req with
  | some (ag, mask, val) => s1.storeWord (some (agentWriter ag)) ag v.pa mask val
  | none => s1

/-- Does the owner that a revocation names still hold the word? -/
def State.stillHeld (s : State) (v : Revoke) : Bool := (s.mem.reg? v.pa).any (fun r => r.owner == v.owner)

/-- The answer to a revocation (R276, R277): the owner gives its bytes, which the home merges, or had written the word back already. No
answer comes over a dead path (R19). -/
def State.answerRevoke (s : State) (v : Revoke) : State :=
  if !s.path (agentDie v.owner) (homeDie v.pa) then s else if s.stillHeld v then (s.giveBack [v.pa]).serve v else s.serve v

/-- WRITTEN_BACK (R277): the owner answers with its bytes. -/
def State.writtenBack (s : State) (pa : Nat) : State :=
  match s.revoke? (wordOf pa) with
  | some v => if s.stillHeld v then s.answerRevoke v else s
  | none => s

/-- NOT_HELD (R277): the owner had written the word back already. -/
def State.notHeld (s : State) (pa : Nat) : State :=
  match s.revoke? (wordOf pa) with
  | some v => if s.stillHeld v then s else s.answerRevoke v
  | none => s

end Sys2Proof.Machine
end

