-- ==== Sys2Proof/Machine/Translate.lean ====
section
/-! DEFINITION. Translation of virtual addresses (R311 to R316), regions (R248) and reachability of homes. -/
namespace Sys2Proof.Machine

/-- A page fault: subcode of R314, the access, the level at which the walk stopped, and the home when remote. -/
structure PageFault where
  sub : Nat
  acc : Access
  level : Nat
  remote : Bool
  chip : Nat
  deriving DecidableEq, Repr

/-- Where an address leads: a physical address of this package, or another chip; `lost`: a store to a fenced die,
which is lost and counted (R323). -/
structure Trans where
  pa : Nat
  size : Nat
  perms : BitVec 3
  repl : Bool
  remote : Bool
  lost : Bool
  deriving DecidableEq, Repr

/-- The level of the leaf that gave a translation (R312). -/
def Trans.level (t : Trans) : Nat := if t.size = 2 ^ 25 then 2 else if t.size = 2 ^ 19 then 1 else 0

/-- Access code of information A (R314). -/
def accCode : Access → Nat
  | .read => 0 | .write => 1 | .fetch => 2 | .rmw => 3

/-- Permissions needed, as bits X W R (R313, R314). -/
def accNeeds : Access → BitVec 3
  | .read => 1 | .write => 2 | .fetch => 4 | .rmw => 3

/-- A virtual interface by number. -/
def State.vi? (s : State) (n : Nat) : Option VI := s.vis.find? (fun v => v.num == n)

/-- A virtual interface, at its reset value when it has never been set. -/
def State.viOf (s : State) (n : Nat) : VI := (s.vi? n).getD (VI.reset n)

/-- Change a virtual interface. -/
def State.setVi (s : State) (v : VI) : State := { s with vis := upsert s.vis (fun x => x.num == v.num) v }

/-- The owner of the frame that holds a physical address: virtual interface number plus 1, or 0 for none (R316). -/
def State.ownerOf (s : State) (pa : Nat) : Nat := (s.mem.owners.get (pa / 8192)).toNat

/-- Does a virtual interface own every frame of n bytes at a page boundary (R316)? The owner table is listed once a frame. -/
def State.ownsAll (s : State) (vi pa n : Nat) : Bool :=
  (s.mem.owners.filter (fun e => decide (pa / 8192 ≤ e.1) && decide (e.1 < (pa + n) / 8192) && e.2.toNat == vi + 1)).length == n / 8192

/-- A physical address that a table entry may name (R313). -/
def paOk (pa : Nat) : Bool := decide (pa < 2 ^ 39) && decide (pa % 2 ^ 37 < Config.dieBytes)

/-- The levels of a walk: number, lowest address bit indexed, bits indexed, whether a leaf may stand there (R312). -/
def walkLevels : List (Nat × Nat × Nat × Bool) :=
  [(4, 45, 9, false), (3, 35, 10, false), (2, 25, 10, true), (1, 19, 6, true), (0, 13, 6, true)]

/-- One walk from a table down the levels that are left (R312, R313): the leaf's translation, or the failing subcode
and level. Every frame of the leaf must be owned, and every frame of its replicas (R316). -/
def walkFrom (s : State) (vi va : Nat) : List (Nat × Nat × Nat × Bool) → Nat → Except (Nat × Nat) Trans
  | [], _ => .error (3, 0)
  | (lv, lo, n, leafOk) :: rest, table =>
    if !paOk table || decide (table % 8192 ≠ 0) || s.ownerOf table != vi + 1 then .error (3, lv)
    else if s.fenced (table / 2 ^ 37) then .error (5, lv)
    else
      let e := leNat (s.mem.read (table + 8 * fld va lo n) 8)
      let frame := fld e 13 40 * 8192
      if fld e 0 1 = 0 then .error (0, lv)
      else if fld e 53 11 ≠ 0 ∨ fld e 6 7 ≠ 0 then .error (3, lv)
      else if fld e 1 1 = 0 then
        if lv = 0 then .error (3, lv) else walkFrom s vi va rest frame
      else if !leafOk then .error (3, lv)
      else
        let pa := frame + va % 2 ^ lo
        let repl := fld e 5 1 == 1
        let owned := s.ownsAll vi frame (2 ^ lo) && (!repl || s.liveDies.all (fun d => s.ownsAll vi (replicaOf frame d) (2 ^ lo)))
        if frame % 2 ^ lo ≠ 0 ∨ !paOk frame ∨ !paOk (frame + 2 ^ lo - 1) ∨ !owned then .error (3, lv)
        else .ok ⟨pa, 2 ^ lo, BitVec.ofNat 3 (fld e 2 3), repl, false, false⟩

/-- A walk from the root (R311, R312). -/
def walk (s : State) (vi va : Nat) : Except (Nat × Nat) Trans := walkFrom s vi va walkLevels (s.viOf vi).ptroot

/-- The state as a core translates in it: its own TLB, then the shared TLB of its die (R315). A die to which its own has no path counts
as fenced, and without a path to the IOD no other chip is reachable (R19, R314; log 70). -/
def State.seen (s : State) (core : Nat) : State :=
  let own := s.mem.tlb.filter (fun e => e.core == some core)
  let shared := s.mem.tlb.filter (fun e => e.core.isNone && e.die == dieOf core)
  { s with
    mem := { s.mem with tlb := own ++ shared }
    dies := s.dies.map (fun d => if s.path (dieOf core) d.num then d else { d with fenced := true })
    fabric := if s.path (dieOf core) 4 then s.fabric else { s.fabric with deadPorts := 0xFFFF } }

/-- A cached translation that covers an address (R315). -/
def State.tlb? (s : State) (vi va : Nat) : Option Trans :=
  (s.mem.tlb.find? (fun e => e.vi == vi && decide (e.base ≤ va) && decide (va < e.base + e.size))).map
    (fun e => ⟨e.pa + (va - e.base), e.size, e.perms, e.repl, false, false⟩)

/-- What an access makes of a translation (R313, R314, R323). -/
def judge (s : State) (acc : Access) (atomic : Bool) (chip : Nat) (t : Trans) : Except PageFault Trans :=
  if t.perms &&& accNeeds acc ≠ accNeeds acc then .error ⟨1, acc, t.level, false, chip⟩
  else if atomic && t.repl then .error ⟨2, acc, t.level, false, chip⟩
  else if s.fenced (t.pa / 2 ^ 37) then
    if acc = .write then .ok { t with lost := true } else .error ⟨5, acc, t.level, false, chip⟩
  else .ok t

/-- The translation that a walk gives for an access. -/
def walked (s : State) (vi : Nat) (acc : Access) (atomic : Bool) (va : Nat) : Except PageFault Trans :=
  match walk s vi va with
  | .error (sub, lv) => .error ⟨sub, acc, lv, false, chipOf va⟩
  | .ok t => judge s acc atomic (chipOf va) t

/-- The translation for an access of a virtual interface (R311 to R316). `atomic`: an ATOM, RED or MONW, which a REPL
page refuses. A cached entry under which the access would fault is not used: the device walks again from the root (R315). -/
def translate (s : State) (vi : Nat) (acc : Access) (atomic : Bool) (va : Nat) : Except PageFault Trans :=
  let chip := chipOf va
  if chip ≠ s.fabric.chip.toNat then
    if acc = .write then .ok ⟨va, 8192, 7, false, true, false⟩
    else if !s.reachable chip then .error ⟨5, acc, 0, true, chip⟩
    else
      let p := s.mem.remotePerms.get ((remoteKey vi va - 2 ^ 64) / 8192)
      if (p.getLsbD 0 && acc != .write) || (p.getLsbD 1 && (acc == .write || acc == .rmw)) then .error ⟨4, acc, fld p.toNat 2 3, true, chip⟩
      else .ok ⟨va, 8192, 7, false, true, false⟩
  else match (s.tlb? vi va).map (judge s acc atomic chip) with
    | some (.ok t) => .ok t
    | _ => walked s vi acc atomic va

/-- Information A of a page fault (R314). -/
def PageFault.info (p : PageFault) : DWord :=
  BitVec.ofNat 64 (accCode p.acc + 16 * p.level + 256 * bit p.remote + 2 ^ 16 * p.chip)

/-- A translation as a TLB entry. -/
def Trans.entry (t : Trans) (core : Option Nat) (die vi va : Nat) : Tlb :=
  ⟨core, die, vi, alignDown va t.size, t.size, t.pa - va % t.size, t.perms, t.repl⟩

/-- Does a TLB entry cover an address? -/
def Tlb.covers (e : Tlb) (vi va : Nat) : Bool := e.vi == vi && decide (e.base ≤ va) && decide (va < e.base + e.size)

/-- Put an entry into its TLB, in the place of the one that covered the address; the oldest goes when the TLB is full (R315). -/
def tlbPut (l : List Tlb) (room : Nat) (e : Tlb) (va : Nat) : List Tlb :=
  let mine (x : Tlb) : Bool := x.core == e.core && x.die == e.die
  if l.contains e then l
  else
    let l1 := l.filter (fun x => !(mine x && x.covers e.vi va))
    let full := decide (room ≤ (l1.filter mine).length)
    (if full then l1.erase ((l1.find? mine).getD e) else l1) ++ [e]

/-- Note under which page of virtual addresses a frame is reached, which settles the home slices of its lines (R253). -/
def State.noteHome (s : State) (va : Nat) (t : Trans) : State :=
  if t.remote then s else { s with mem := { s.mem with homeVa := s.mem.homeVa.set (t.pa / 8192) (BitVec.ofNat 64 (va / 8192)) } }

/-- Keep a translation that a core's access has used: in the core's TLB of 64 entries and its die's of 16,384 (R315). -/
def State.noteTlb (s : State) (core vi va : Nat) (t : Trans) : State :=
  if t.remote then s
  else
    let l := tlbPut s.mem.tlb Config.dieTlb (t.entry none (dieOf core) vi va) va
    { s with mem := { s.mem with tlb := tlbPut l Config.coreTlb (t.entry (some core) (dieOf core) vi va) va } }.noteHome va t

/-- The aligned 8 KiB pieces of a range: start and length of each. -/
def pagePieces (va n : Nat) : List (Nat × Nat) :=
  let k := (va + n - 1) / 8192 - va / 8192 + 1
  if n = 0 then []
  else (List.range k).map (fun j =>
    let lo := if j = 0 then va else alignDown va 8192 + 8192 * j
    let hi := if j + 1 = k then va + n else alignDown va 8192 + 8192 * (j + 1)
    (lo, hi - lo))

/-- Where a piece at an address stands in a range that starts at va; the range may pass the top of the address space. -/
def pieceOff (va p : Nat) : Nat := (p + 2 ^ 64 - va % 2 ^ 64) % 2 ^ 64

/-- Translate every page of a range before any byte of it is touched (R179): the pieces with their translations, or
the first failing address. -/
def translateRange (s : State) (vi : Nat) (acc : Access) (atomic : Bool) (va n : Nat) :
    Except (Nat × PageFault) (List (Nat × Nat × Trans)) :=
  (pagePieces (va % 2 ^ 64) n).mapM (fun p =>
    match translate s vi acc atomic (p.1 % 2 ^ 64) with
    | .ok t => .ok (p.1 % 2 ^ 64, p.2, t)
    | .error e => .error (p.1 % 2 ^ 64, e))

/-- A translated piece of an access, whose words may lie with an owner out of the home's reach: a read faults, and a write is lost (R19,
R274, R314; log 70). A store to another chip is posted, and meets this when it is delivered (R183). -/
def State.cutPiece (s : State) (vi : Nat) (acc : Access) (p : Nat × Nat × Trans) : Except (Nat × PageFault) (Nat × Nat × Trans) :=
  let t := p.2.2
  if t.repl || (t.remote && acc == .write) || !s.cutOwner (if t.remote then remoteKey vi p.1 else t.pa) p.2.1 then .ok p
  else if acc = .write then .ok (p.1, p.2.1, { t with lost := true })
  else .error (p.1, ⟨5, acc, t.level, t.remote, chipOf p.1⟩)

/-- Translate a range for a core: the pieces with their translations, or the first failing address. -/
def State.ranged (s : State) (core vi : Nat) (acc : Access) (atomic : Bool) (va n : Nat) :
    Except (Nat × PageFault) (List (Nat × Nat × Trans)) :=
  match translateRange (s.seen core) vi acc atomic va n with
  | .error e => .error e
  | .ok ps => ps.mapM (s.cutPiece vi acc)

/-- The level at which the walk of an address stops for a core (R314). -/
def State.levelAt (s : State) (core vi va : Nat) : Nat :=
  match translate (s.seen core) vi .read false va with
  | .ok t => t.level
  | .error e => e.level

/-- An enabled submission page that a range of a virtual interface's addresses reaches (R280). -/
def State.pageAt (s : State) (vi va n : Nat) : Option SubPage :=
  s.pages.find? (fun p => p.vi == vi && p.enabled && p.groupAddr != 0 && decide (p.groupAddr < va + n) && decide (va < p.groupAddr + 8192))

/-- Translate a range for a core's group, engine or stash: a submission page is recognised first, and refused with the
attribute subcode (R280, R282, R314). -/
def State.reach (s : State) (core vi : Nat) (acc : Access) (atomic : Bool) (va n : Nat) :
    Except (Nat × PageFault) (List (Nat × Nat × Trans)) :=
  match s.pageAt vi (va % 2 ^ 64) n with
  | some p => .error (max (va % 2 ^ 64) p.groupAddr, ⟨2, acc, 0, false, chipOf va⟩)
  | none => s.ranged core vi acc atomic va n

/-- The region of an address (R248): the lowest-numbered valid entry that covers it, else region 0. -/
def VI.regionOf (v : VI) (va : Nat) : BitVec 4 :=
  match v.regions.find? (fun r => r.valid && decide (r.base ≤ va) && decide (va < r.base + r.limit)) with
  | some r => r.region
  | none => 0

/-- The first core of the scheduling processor, service core 28 (R17), in whose TLBs the device's own accesses translate (log 66). -/
def schedulingCore : Nat := 412

/-- Where an agent reads a translated address of a virtual interface: a REPL page in its own replica (R272), another chip's memory
under its name here. -/
def Trans.from' (t : Trans) (ag : Agent) (vi va : Nat) : Nat :=
  if t.remote then remoteKey vi va else if t.repl then replicaFor ag t.pa else t.pa

/-- Read a range of memory through the registry for a core outside its groups' instructions: every piece must translate there, none
be poisoned (R315, R318). -/
def State.coreRead (s : State) (core vi va n : Nat) : Option (List Byte) :=
  match s.ranged core vi .read false va n with
  | .error _ => none
  | .ok ps =>
    let src (p : Nat × Nat × Trans) : Nat := p.2.2.from' (l1Of core) vi p.1
    if ps.any (fun p => (s.mem.poisonIn (src p) p.2.1).isSome) then none
    else some (ps.flatMap (fun p => s.mem.read (src p) p.2.1))

/-- Read a range of memory as the device does. -/
def State.deviceRead (s : State) (vi va n : Nat) : Option (List Byte) := s.coreRead schedulingCore vi va n

/-- Can a write to another chip not be delivered (R183, R274)? -/
def State.remoteFails (s : State) (vi va : Nat) : Bool := s.homeLost (remoteKey vi va) || s.homeRefuses (remoteKey vi va)

/-- Write a range of memory as the device does; false when a piece does not translate or cannot be delivered (nothing is then
written). -/
def State.devicePut (s : State) (vi va : Nat) (bs : List Byte) : State × Bool :=
  match s.ranged schedulingCore vi .write false va bs.length with
  | .error _ => (s, false)
  | .ok ps => if ps.any (fun p => p.2.2.lost || (p.2.2.remote && s.remoteFails vi p.1)) then (s, false)
    else (ps.foldl (fun t p =>
      let part := (bs.drop (pieceOff va p.1)).take p.2.1
      if p.2.2.remote then t.remoteWrite vi p.1 part
      else if p.2.2.repl then t.storeRepl 0 ⟨.bridge, 0⟩ p.2.2.pa part
      else t.deviceWrite p.2.2.pa part) s, true)

end Sys2Proof.Machine
end

