-- ==== Sys2Proof/Machine/Ops.lean ====
section
/-! DEFINITION. The shared operations on groups and tasks: registers, lanes and clauses (R33 to R36), traps and the
return from them (R302 to R308), kills (R46), and the issue of one instruction (R108 to R110, R51, R57, R303). -/
namespace Sys2Proof.Machine

/-! ### Groups, tasks and their registers -/

/-- The value of vpc in an exited lane (R33). -/
def exitedVpc : Word := 0xFFFFFFFF

/-- A vector register in a lane. -/
def Group.vget (g : Group) (n lane : Nat) : Word := g.v.get (n * 64 + lane)

/-- Write a vector register in a lane; the write clears poison (R318). -/
def Group.vset (g : Group) (n lane : Nat) (x : Word) : Group :=
  { g with v := g.v.set (n * 64 + lane) x, poisonV := g.poisonV.filter (· != n * 64 + lane) }

/-- A uniform register. -/
def Group.sget (g : Group) (n : Nat) : DWord := g.s.get n

/-- Write a uniform register. -/
def Group.sset (g : Group) (n : Nat) (x : DWord) : Group :=
  { g with s := g.s.set n x, poisonS := g.poisonS.filter (· != n) }

/-- A predicate in a lane. -/
def Group.pget (g : Group) (n lane : Nat) : Bool := (g.p.get n).getLsbD lane

/-- Write a predicate in a lane. -/
def Group.pset (g : Group) (n lane : Nat) (b : Bool) : Group :=
  let old := g.p.get n
  { g with p := g.p.set n (if b then old ||| (1#64 <<< lane) else old &&& ~~~(1#64 <<< lane)) }

/-- An index register in a lane (R55). -/
def Group.xget (g : Group) (k lane : Nat) : Word := g.x.get (k * 64 + lane)

/-- Write an index register in a lane. -/
def Group.xset (g : Group) (k lane : Nat) (x : Word) : Group :=
  { g with x := g.x.set (k * 64 + lane) x, poisonX := g.poisonX.filter (· != k * 64 + lane) }

/-- A segment's base and limit (R63). -/
def Group.seg (g : Group) (k : Nat) : DWord × DWord := g.segs.getD k (0, 0)

/-- Is a lane exited (R36)? -/
def Group.exited (g : Group) (lane : Nat) : Bool := g.vpc.get lane == exitedVpc

/-- Is a lane parked (R41)? -/
def Group.parked (g : Group) (lane : Nat) : Bool := g.parks.any (fun p => p.lane == lane)

/-- The lanes that have not exited. -/
def Group.live (g : Group) : DWord := maskOf g.width (fun i => !g.exited i)

/-- Set vpc in the lanes of a mask. -/
def Group.setVpc (g : Group) (m : DWord) (x : Word) : Group :=
  { g with vpc := (lanesOf g.width m).foldl (fun v l => v.set l x) g.vpc }

/-- Set vpc by a transfer (R105). -/
def Group.transferTo (g : Group) (m : DWord) (x : Word) : Group :=
  { g.setVpc m x with transfer := g.transfer ||| m }

/-- Set vpc without a transfer (R105). -/
def Group.arriveAt (g : Group) (m : DWord) (x : Word) : Group :=
  { g.setVpc m x with transfer := g.transfer &&& ~~~m }

/-- The lanes that may set the issue address: neither exited nor parked, and in a handler those of its resume mask
(R34, R304). -/
def Group.runnable (g : Group) : DWord :=
  maskOf g.width (fun i => !g.exited i && !g.parked i && (!g.gsrH || g.resume.getLsbD i))

/-- The issue address P (R34). -/
def Group.issueAddr (g : Group) : Option Nat :=
  match (lanesOf g.width g.runnable).map (fun l => (g.vpc.get l).toNat) with
  | [] => none
  | a :: r => some (r.foldl min a)

/-- The issue set at an address (R34). -/
def Group.issueSet (g : Group) (p : Nat) : DWord :=
  maskOf g.width (fun i => g.runnable.getLsbD i && (g.vpc.get i).toNat == p)

/-- Where the group's own blocks of R71 end, with the full vgran. -/
def Group.blocksEnd (g : Group) : Nat :=
  alignUp (alignUp (64 + 64 * g.sgran + 192 + 32 * g.width) 64 + 4 * g.width) 64 + 32 * g.width * g.vgran

/-- Bytes of the team area of R71. -/
def Task.areaBytes (t : Task) : Nat :=
  let f := t.cont.footprint.toNat
  64 * fld f 10 3 + 20480 * fld f 13 4 * t.cores.length

/-- The end A of a group's layout (R71, R324): the team area follows group 0's blocks. -/
def Group.layoutEnd (g : Group) (t : Task) : Nat :=
  if g.num = 0 then alignUp g.blocksEnd 64 + t.areaBytes else g.blocksEnd

/-- Registers of a footprint (R66). -/
def Group.vregs (g : Group) : Nat := 8 * g.vgran
def Group.sregs (g : Group) : Nat := 8 * g.sgran
def Task.tregs (t : Task) : Nat := 4 * fld t.cont.footprint.toNat 10 3
def Task.accs (t : Task) : Nat := fld t.cont.footprint.toNat 13 4

/-- Is the team paired (R25)? -/
def Task.paired (t : Task) : Bool := decide (1 < t.cores.length)

/-- Position of a core in a task: 0 leader, 1 follower. -/
def Task.coreSel (t : Task) (core : Nat) : Nat := t.cores.idxOf core

/-- The launch flags (R65). -/
def Launch.ftz (l : Launch) : Bool := l.flags.getLsbD 1
def Launch.race (l : Launch) : Bool := l.flags.getLsbD 2
def Launch.noreissue (l : Launch) : Bool := l.flags.getLsbD 0
def Launch.service (l : Launch) : Bool := l.flags.getLsbD 3

/-! ### Traps -/

/-- A trap as an instruction raises it: class and subcode (R302), and the fields of R305 and R306 that depend on it. -/
structure Trap where
  cls : Nat
  sub : Nat
  lanes : DWord
  addr : DWord
  infoA : DWord
  pos : Nat
  idx : Nat
  deriving DecidableEq, Repr

/-- An illegal-instruction trap. -/
def trapIllegal (sub : Nat) (act : DWord) : Trap := ⟨0, sub, act, 0, 0, 0, 0⟩

/-- A trap with lanes only. -/
def trapOf (cls sub : Nat) (lanes : DWord) : Trap := ⟨cls, sub, lanes, 0, 0, 0, 0⟩

/-- Where in the clause a trap returns to (R305). -/
structure ReturnPoint where
  clause : Nat
  index : Nat
  next : Bool
  opcode : Nat
  repDone : BitVec 8
  repLeft : BitVec 7
  deriving DecidableEq, Repr

/-- The cause record (R305). DESIGN CHOICE (log 78): a done count above 127 is written mod 128. -/
def causeRecord (t : Trap) (r : ReturnPoint) (resume tick : DWord) : List Byte :=
  leBytes 2 t.cls ++ leBytes 2 t.sub ++ leBytes 4 r.clause ++ leBytes 1 (r.index % 16 + 16 * bit r.next)
    ++ leBytes 1 (if t.cls = 3 then t.idx + 16 * t.pos else 0) ++ leBytes 2 r.opcode
    ++ leBytes 4 (r.repLeft.toNat + 128 * (r.repDone.toNat % 128)) ++ leBytes 8 t.lanes.toNat ++ leBytes 8 resume.toNat
    ++ leBytes 8 t.addr.toNat ++ leBytes 8 t.infoA.toNat ++ leBytes 8 0 ++ leBytes 8 tick.toNat

/-- Virtual address of a group's trap area (R304). -/
def Group.trapArea (g : Group) : Nat := ((g.seg 5).1.toNat + ((g.seg 5).2.toNat - 128)) % 2 ^ 64

/-- Write bytes at a virtual address as a group's own store; false when a page refuses it. -/
def State.groupPut (s : State) (g : Group) (vi va : Nat) (bs : List Byte) : State × Bool :=
  match s.reach g.core vi .write false va bs.length with
  | .error _ => (s, false)
  | .ok ps => if ps.any (fun p => p.2.2.lost || (p.2.2.remote && s.remoteFails vi p.1)) then (s, false) else (ps.foldl (fun t p =>
      let t := t.noteTlb g.core vi p.1 p.2.2
      let part := (bs.drop (pieceOff va p.1)).take p.2.1
      if p.2.2.remote then t.remoteWrite vi p.1 part
      else t.store g.gid true (l1Of g.core) p.2.2.repl p.2.2.pa part) s, true)

/-- Why a handler entry fails: the handler base is 0, or a fatal error of subcode 2 or 3 (R304). -/
inductive EntryFail where
  | noHandler
  | fatal (sub : Nat)
  deriving DecidableEq, Repr

/-- Enter the group's handler (R304): the record is written, the lanes of the resume mask go to the entry, gsr.H is set. -/
def enterHandler (s : State) (g : Group) (t : Task) (tr : Trap) (r : ReturnPoint) (resume : DWord) :
    Except EntryFail State :=
  let base := (s.viOf t.vi).handler
  let e := (base - (g.seg 4).1).toNat
  if base = 0 then .error .noHandler
  else if e % 8 ≠ 0 ∨ (g.seg 4).2.toNat ≤ e then .error (.fatal 2)
  else if (g.seg 5).2.toNat < g.layoutEnd t + 128 then .error (.fatal 3)
  else
    match s.groupPut g t.vi g.trapArea (causeRecord tr r resume s.tick) with
    | (_, false) => .error (.fatal 3)
    | (s', true) => .ok (s'.modGroup g.gid (fun h =>
        { h.arriveAt resume (BitVec.ofNat 32 e) with
          gsrH := true, resume := resume, clause := none, hold := .none, repDone := 0, repLeft := 0, repSteps := none
          entryCls := tr.cls, entrySub := tr.sub, resumeIssue := none, passed := g.clause.map (fun c => (c.start, c.issued)) }))

/-! ### Barriers, ends and kills -/

/-- Every lane still expected has arrived (R45). -/
def Barrier.complete (b : Barrier) : Bool := b.armed && b.expected.all (fun p => p.2 &&& ~~~(b.arrived.get p.1) == 0)

/-- A barrier that is not armed. -/
def Barrier.idle : Barrier := ⟨false, [], []⟩

/-- Lanes leave every expected set (R36, R45). -/
def Task.lanesGone (t : Task) (num : Nat) (m : DWord) : Task :=
  { t with barriers := t.barriers.map (fun b => { b with expected := b.expected.set num (b.expected.get num &&& ~~~m) }) }

/-- A condition of a WAIT names a barrier (R201). -/
def condBarrier (c : BitVec 16) : Option Nat := if c.toNat / 8192 = 2 then some (c.toNat % 8) else none

/-- Write a status to a lane's WAIT or BAR destination (R41). -/
def Group.writeStatus (g : Group) (p : Park) (st : Nat) : Group :=
  match p.dst with
  | .none => g
  | .v n => g.vset n p.lane (BitVec.ofNat 32 st)

/-- An acquire discards the L1's unregistered copies of the regions named (R197). -/
def Mem.discard (m : Mem) (core : Nat) (mask : BitVec 16) : Mem :=
  { m with copies := m.copies.filter (fun c => !(c.core == core && mask.getLsbD c.region.toNat)) }

/-- An acquire also clears presence of the team's clean mapped stash lines in those regions on the core (R197), of which the Lens takes
what it has still to read first (R226); the clean words of a dirty line take their current values, since no older ones may be read after
it (R263). -/
def State.acquire (s0 : State) (core vi lo hi : Nat) (mask : BitVec 16) : State :=
  let named (l : Line) : Bool := l.core == core && decide (lo ≤ 128 * l.line) && decide (128 * l.line < hi) && l.present
    && l.mapped.any (fun va => mask.getLsbD ((s0.viOf vi).regionOf va).toNat)
  let s := (s0.mem.lines.filter (fun l => named l && !s0.mem.lineDirty l)).foldl (fun u l => u.lensFirst core l.line) s0
  let m := s.mem.discard core mask
  let n := (m.lines.filter (fun l => named l && m.lineDirty l)).foldl Mem.refreshLine m
  { s with mem := { n with lines := modWhere m.lines (fun l => named l && !m.lineDirty l) (fun l => { l with present := false }) } }

/-- An acquire by a group at a scope; at .grp an unpaired team discards nothing (R197). -/
def State.acquireBy (s : State) (g : Group) (t : Task) (sc : Scope) (mask : BitVec 16) : State :=
  if sc = .grp ∧ !t.paired then s
  else s.acquire g.core t.vi (g.seg 1).1.toNat ((g.seg 1).1.toNat + (g.seg 1).2.toNat) mask

/-- A lane unparks with a status (R41, R203): a lane that a BAR parked acquires at .grp over every region. -/
def State.unpark (s : State) (g : Group) (t : Task) (p : Park) (st : Nat) : State :=
  let s1 := s.modGroup g.gid (fun h => { h.writeStatus p st with parks := h.parks.filter (fun q => q.lane != p.lane) })
  if p.onBar && st == 0 then s1.acquireBy g t .grp 0xFFFF else s1

/-- May a parked lane of a group unpark now: the group is resident, while it runs its handler the lane is of the resume mask
(R43, R304), and while a clause is in progress, or is the one that a return resumes (R307), the lane does not stand below it, so
that clauses go one at a time (R37, R39; log 33), nor at or below the clause of a reinstated repeat state that is still to be taken up,
which belongs to the lanes that were interrupted there (R177)? -/
def Group.wakes (g : Group) (lane : Nat) : Bool :=
  let here := (g.vpc.get lane).toNat
  g.residency == .resident && (!g.gsrH || g.resume.getLsbD lane) && g.clause.all (fun c => decide (c.start ≤ here))
    && (g.resumeIssue.isNone || (g.issueAddr.all (fun p => decide (p ≤ here)))) && g.repAt.all (fun r => decide (r.1 < here))

/-- Barriers that have completed are disarmed, and the lanes that a BAR parked on them are released (R45, R203): they
acquire and unpark at once, but where they must stay parked (R43, R304). -/
def State.settleBarriers (s : State) (uid : Nat) : State :=
  match s.task? uid with
  | none => s
  | some t =>
    let full (k : Nat) : Bool := (t.barriers.getD k Barrier.idle).complete
    if t.barriers.any Barrier.complete then
      let s1 := s.modTask uid (fun u => { u with barriers := u.barriers.map (fun b => if b.complete then Barrier.idle else b) })
      let mark (p : Park) : Park := if p.onBar && p.conds.any (fun c => (condBarrier c).any full) then { p with released := true } else p
      let s2 : State := { s1 with groups := modWhere s1.groups (fun g => g.task == uid) (fun g => { g with parks := g.parks.map mark }) }
      (s2.groups.filter (fun g => g.task == uid)).foldl (fun u g =>
        (g.parks.filter (fun p => p.released && g.wakes p.lane)).foldl (fun v p => v.unpark g t p 0) u) s2
    else s

/-- The empty set of a delivery record. -/
def Delivery.none : Delivery := ⟨0, 0, 0, 0⟩

/-- Does a set count no store? -/
def Delivery.empty (d : Delivery) : Bool := d.lost + d.refused == 0

/-- Sum two sets of delivery counts, saturating (R196). -/
def Delivery.sum (a b : Delivery) : Delivery :=
  { lost := a.lost + b.lost, refused := a.refused + b.refused
    page := if a.empty then b.page else if b.empty then a.page else if a.first ≤ b.first then a.page else b.page
    first := if a.empty then b.first else if b.empty then a.first else min a.first b.first }

/-- A group's unreported delivery counts go to its task (R274). -/
def State.reportCounts (s : State) (g : Group) : State :=
  let d := g.delPkg.sum g.delOther
  (s.modTask g.task (fun t => { t with lost := t.lost + d.lost, refusedStores := t.refusedStores + d.refused, page := if t.lost + t.refusedStores = 0 then d.page else t.page })).modGroup
    g.gid (fun h => { h with delPkg := Delivery.none, delOther := Delivery.none })

/-- A group ends (R36, R46): its lanes leave the barriers, and its unreported delivery counts go to the task (R274). -/
def State.endGroup (s : State) (gid : Nat) : State :=
  match s.group? gid with
  | none => s
  | some g =>
    let s1 := (s.reportCounts g).modTask g.task (fun t => t.lanesGone g.num (fullMask g.width))
    (s1.settleBarriers g.task).modGroup gid (fun h =>
      { h.setVpc (fullMask h.width) exitedVpc with
        residency := .ended, clause := none, hold := .none, parks := [], outs := [], boundary := [], gsrH := false
        mon := h.mon.map (fun m => { m with armed := false }) })

/-- A group whose lanes have all exited ends (R36). -/
def State.endIfExited (s : State) (gid : Nat) : State :=
  match s.group? gid with
  | some g => if g.live = 0 ∧ g.residency ≠ .ended then s.endGroup gid else s
  | none => s

/-- Does a condition of a WAIT hold (R41, R201)? A join counter is read through the registry at its virtual address. -/
def condHolds (s : State) (g : Group) (t : Task) (join : Option Nat) (c : BitVec 16) : Bool :=
  let arg := c.toNat % 8192
  match c.toNat / 8192 with
  | 0 => match g.mon[arg % 4]? with | some m => m.fired | none => false
  | 1 => decide ((g.e.get (arg % 8)).toNat ≤ arg / 8 % 64)
  | 2 => !(t.barriers.getD (arg % 8) Barrier.idle).armed
  | 3 => s.mem.present g.core ((g.seg 1).1.toNat / 128 + arg % 2048)
  | _ => match join with
    | some va => (s.coreRead g.core t.vi va 4).any (fun bs => leNat bs == 0)
    | none => false

/-- Does a parked lane's combined condition hold (R41)? A lane that a BAR parked waits for its own arming (R203). -/
def Park.holds (s : State) (g : Group) (t : Task) (p : Park) : Bool :=
  if p.onBar then p.released
  else if p.all then p.conds.all (condHolds s g t p.join) else p.conds.any (condHolds s g t p.join)

/-- A parked lane that names a barrier. -/
def Park.named (p : Park) : Bool := p.conds.any (fun c => (condBarrier c).isSome)

/-- Has a parked lane's time-out elapsed, with the tick in which it fell over (R41, R202)? -/
def Park.late (p : Park) (s : State) : Bool :=
  match p.deadline with
  | some d => decide (d < s.tick.toNat)
  | none => false

/-- Step 1 of R46 in one group: lanes parked on a barrier unpark with BROKEN, SATISFIED when an any-of WAIT has another condition that
holds (R202), or TIMEOUT when the time-out has elapsed before (R41). -/
def dissolve (s : State) (t : Task) (g : Group) : Group :=
  let other (p : Park) : Bool := !p.onBar && !p.all && p.conds.any (fun c => (condBarrier c).isNone && condHolds s g t p.join c)
  let st (p : Park) : Nat := if p.released || p.met || (!p.late s && other p) then 0 else if p.late s then 1 else 2
  { (g.parks.filter Park.named).foldl (fun h p => h.writeStatus p (st p)) g with parks := g.parks.filter (fun p => !p.named) }

/-- Information A of a TEAM_KILLED record (R306). -/
def killInfo (num cls sub : Nat) (byExit : Bool) : DWord := BitVec.ofNat 64 (num + 64 * bit byExit + 256 * cls + 2 ^ 16 * sub)

/-- A resident group of a killed team enters the handler with cause TEAM_KILLED, or ends at once (R46). -/
def State.teamKilled (s : State) (t : Task) (g : Group) (info : DWord) : State :=
  let h := { dissolve s t g with parks := [], repAt := none }
  let s1 := s.setGroup h
  match enterHandler s1 h t ⟨13, 0, 0, 0, info, 0, 0⟩ ⟨0, 0, false, 0, 0, 0⟩ h.live with
  | .ok s2 => s2.modGroup g.gid (fun k => { k with killed := true, boundary := [], preempt := none, parkedSince := none })
  | .error _ => s1.endGroup g.gid

/-- Kill a task's team (R46, R228): barriers are dissolved, its unretired matrix operations aborted, swapped-out groups
discarded, and every other resident group enters the handler with TEAM_KILLED. `by`: the group of the fatal trap. -/
def State.killTeam (s : State) (uid : Nat) (byGroup : Option Nat) (info : DWord) : State :=
  match s.task? uid with
  | none => s
  | some t =>
    let ends (u : State) : State := match byGroup with | some gid => u.endGroup gid | none => u
    if t.killing then ends s
    else
      let s1 := { s with arrays := s.arrays.filter (fun e => e.task != uid) }
      let s2 := ends (s1.modTask uid (fun k => { k with killing := true, killInfo := info
                                                        barriers := k.barriers.map (fun _ => ⟨false, [], []⟩) }))
      let others := s2.groups.filter (fun g => g.task == uid && some g.gid != byGroup && g.residency != .ended)
      others.foldl (fun u g =>
        match g.residency with
        | .resident | .saving _ _ _ => u.teamKilled t { g with residency := .resident } info
        | _ => u.endGroup g.gid) s2

/-- A trap fatal to a group kills its team (R46, R357). -/
def State.fatal (s : State) (g : Group) (cls sub : Nat) (byExit : Bool) : State :=
  s.killTeam g.task (some g.gid) (killInfo g.num cls sub byExit)

/-- Take a trap (R46, R304, R308): enter the handler, or kill the team when the trap is fatal. -/
def State.takeTrap (s : State) (g : Group) (t : Task) (tr : Trap) (r : ReturnPoint) (resume : DWord) : State :=
  if tr.cls = 12 ∨ g.gsrH then s.fatal g tr.cls tr.sub false
  else match enterHandler s g t tr r resume with
    | .ok s' => s'
    | .error .noHandler => s.fatal g tr.cls tr.sub false
    | .error (.fatal k) => s.fatal g 12 k false

/-- Return from a trap (R307, R357): the record is read from the trap area as it stands, the return clause's header as a fetch
reads it; where it cannot be fetched no index lies beyond its count, and the fetch faults when the clause is reached. DESIGN CHOICE
(log 14): a record that cannot be read, or that holds poison, is a fatal error of subcode 3, as for a trap area that an entry cannot
write; R307 gives no outcome. -/
def State.returnFromTrap (s : State) (g : Group) (t : Task) : State :=
  match s.coreRead g.core t.vi g.trapArea 64 with
  | none => s.fatal g 12 3 false
  | some rec0 =>
    let clause := field rec0 4 4
    let b8 := field rec0 8 1
    let rep := field rec0 12 4
    let resume := BitVec.ofNat 64 (field rec0 0x18 8) &&& g.live
    let index := b8 % 16
    let next := b8 / 16 % 2 == 1
    let at' := ((g.seg 4).1.toNat + clause) % 2 ^ 64
    let count := match s.reach g.core t.vi .fetch false at' 8 with
      | .ok ps => leNat (ps.flatMap (fun p => s.mem.read (p.2.2.from' (l1Of g.core) t.vi p.1) p.2.1)) % 16
      | .error _ => 15
    if clause % 8 ≠ 0 then s.fatal g 1 0 false
    else if count < index then s.fatal g 0 3 false
    else if next && index == count then
      s.modGroup g.gid (fun h =>
        { h.arriveAt resume (BitVec.ofNat 32 (clause + 8 * (count + 2))) with
          gsrH := false, clause := none, hold := .none, resumeIssue := none })
    else
      s.modGroup g.gid (fun h =>
        { h.transferTo resume (BitVec.ofNat 32 clause) with
          gsrH := false, clause := none, hold := .none, resume := resume, resumeIssue := some (index, next)
          repLeft := BitVec.ofNat 7 rep, repDone := BitVec.ofNat 8 (rep / 128 % 128) })

/-! ### The clause and the issue of an instruction -/

/-- Where the next clause in memory starts (R101). -/
def Clause.nextStart (c : Clause) : Word := BitVec.ofNat 32 (c.start + 8 * (c.header.toNat % 16 + 2))

/-- The end of a clause (R35): the lanes still in it take the next clause's start. -/
def Group.endClause (g : Group) (c : Clause) : Group :=
  { g.arriveAt c.lanes c.nextStart with clause := none, repDone := 0, repLeft := 0, repSteps := none }

/-- Go on after an instruction: to the next repeat, the next instruction, or the clause's end (R35, R175, R177). -/
def Group.advance (g : Group) : Group :=
  match g.clause with
  | none => g
  | some c =>
    if 1 < g.repLeft.toNat then { g with repDone := g.repDone + 1, repLeft := g.repLeft - 1, hold := .none }
    else
      let h := { g with repDone := 0, repLeft := 0, repSteps := none, hold := .none }
      if c.index + 1 < c.words.length then { h with clause := some { c with index := c.index + 1 } }
      else h.endClause { c with index := c.index + 1 }

/-- Lanes leave the clause (R35). -/
def Group.leave (g : Group) (m : DWord) : Group :=
  match g.clause with
  | none => g
  | some c => { g with clause := some { c with lanes := c.lanes &&& ~~~m } }

/-- What an instruction runs in: its group inside a clause, its task and launch record, and its active lanes (R34). -/
structure Ctx where
  s : State
  g : Group
  c : Clause
  t : Task
  l : Launch
  act : DWord
  deriving DecidableEq, Repr

/-- The active lanes as a list, ascending. -/
def Ctx.lanes (x : Ctx) : List Nat := lanesOf x.g.width x.act

/-- A once-per-issue instruction executes when some lane of the issue set has its guard true (R53). -/
def Ctx.any (x : Ctx) : Bool := x.act != 0

/-- The agent of the group's core. -/
def Ctx.agent (x : Ctx) : Agent := l1Of x.g.core

/-- Does a guard hold in a lane (R108)? DESIGN CHOICE (log 57): a word whose guard number is reserved (24 to 30) has no active
lanes that the spec names; its trap's lane mask takes the absent predicate as 0. -/
def guardHolds (gd : Guard) (g : Group) (lane : Nat) : Bool :=
  if gd.pred = 31 then true else g.pget gd.pred.toNat lane != gd.neg

/-- The context of the current group, which must be inside a clause. -/
def ctxOf (s : State) (gd : Guard) : Option Ctx := do
  let gid ← s.cur
  let g ← s.group? gid
  let c ← g.clause
  let t ← s.task? g.task
  let l ← t.launch
  pure ⟨s, g, c, t, l, maskOf g.width (fun i => c.lanes.getLsbD i && guardHolds gd g i)⟩

/-- How an instruction's effect ends: done, waiting to try again, or a trap. -/
inductive Res where
  | ok (s : State)
  | hold (s : State)
  | trap (t : Trap)
  deriving DecidableEq, Repr

/-- A read of a register by one lane in another (R167, R168, R224): the reader, the register's class and number as in R306, and the lane
it is read in. -/
structure FarRead where
  reader : Nat
  cls : Nat
  num : Nat
  lane : Nat
  deriving DecidableEq, Repr

/-- A register that a field of the word names (R51), by class, with how many from it; `far`: reads in other lanes, which only poison
concerns (R318). -/
inductive Use where
  | op (o : Opnd) (cnt : Nat)
  | far (l : List FarRead)
  | tile (n : Nat)
  | acc (n : Nat)
  deriving DecidableEq, Repr

/-- A named register with its operand position (0 d, 1 a, 2 b, 3 c) and whether active lanes read it. -/
structure Named where
  pos : Nat
  use : Use
  rd : Bool
  deriving DecidableEq, Repr

/-- An index register's window end (R55, R56). -/
def idxBound (x : Word) : Nat := if fld x.toNat 8 8 = 0 then 256 else fld x.toNat 8 8

/-- The register an indirect operand names in a lane, or the subcode of its bound fault (R56, R57). -/
def resolveIdx (x : Word) (vregs : Nat) : Except Nat Nat :=
  let w := idxBound x
  let base := fld x.toNat 0 8
  let off := fld x.toNat 16 8
  let check (n : Nat) : Except Nat Nat := if w ≤ n then .error 0 else if vregs ≤ n then .error 1 else .ok n
  match fld x.toNat 28 4 with
  | 1 => check (base + off)
  | 2 => if w ≤ base then .error 0 else check (base + off % (w - base))
  | _ => .error 2

/-- The register of an indirect operand in a lane; used after `boundFault` has passed. -/
def Group.indReg (g : Group) (k lane : Nat) : Nat :=
  match resolveIdx (g.xget k lane) g.vregs with
  | .ok n => n
  | .error _ => 0

/-- Vector registers of an index register's window over all lanes (R60, R107). -/
def Group.window (g : Group) (k : Nat) : List Nat :=
  (List.range 256).filter (fun n => (List.range g.width).any (fun i =>
    decide (fld (g.xget k i).toNat 0 8 ≤ n) && decide (n < idxBound (g.xget k i))))

/-- Does a directly named register lie beyond its footprint (R51)? -/
def Use.beyond (u : Use) (g : Group) (t : Task) : Bool :=
  match u with
  | .op (.v n) cnt => decide (g.vregs < n.toNat + cnt)
  | .op (.s n) cnt => decide (g.sregs < n.toNat + cnt)
  | .op _ _ | .far _ => false
  | .tile n => decide (t.tregs ≤ n)
  | .acc n => decide (t.accs ≤ n)

/-- The bound faults of one position: (subcode, position, index register, lanes) (R57). -/
def Named.faults (nm : Named) (x : Ctx) : List (Nat × Nat × Nat × DWord) :=
  if nm.use.beyond x.g x.t then [(1, nm.pos, 0, x.act)]
  else match nm.use with
    | .op (.ind _ k) _ =>
      [0, 1, 2].filterMap (fun sub =>
        let m := maskOf x.g.width (fun i => x.act.getLsbD i &&
          (match resolveIdx (x.g.xget k.toNat i) x.g.vregs with | .ok _ => false | .error e => e == sub))
        if m = 0 then none else some (sub, nm.pos, k.toNat, m))
    | _ => []

/-- The bound fault of an instruction (R57): the lowest subcode, then the first position. -/
def boundFault (x : Ctx) (names : List Named) : Option Trap :=
  let fs := names.flatMap (fun nm => nm.faults x)
  let best := fs.foldl (fun b f => match b with
    | none => some f
    | some y => if f.1 < y.1 ∨ (f.1 = y.1 ∧ f.2.1 < y.2.1) then some f else some y) (none : Option (Nat × Nat × Nat × DWord))
  best.map (fun f => ⟨3, f.1, f.2.2.2, 0, 0, f.2.1, f.2.2.1⟩)

/-- The lanes whose word of a predicate register is poisoned: a word holds 32 lanes (R317). -/
def Group.badPred (g : Group) (n : Nat) : DWord :=
  (if g.poisonP.contains (2 * n) then 0xFFFFFFFF else 0) ||| (if g.poisonP.contains (2 * n + 1) then 0xFFFFFFFF00000000 else 0)

/-- Is a register that a lane reads in another poisoned (R318)? -/
def Group.farBad (g : Group) (r : FarRead) : Bool :=
  match r.cls with
  | 0 => g.poisonV.contains (r.num * 64 + r.lane)
  | _ => g.poisonS.contains r.num

/-- The poisoned register that a position reads in active lanes (R318): class, number of the first, lanes of all. -/
def Named.poison (nm : Named) (x : Ctx) : Option (Nat × Nat × DWord) :=
  let vecs (n cnt : Nat) : Option (Nat × Nat × DWord) :=
    let bad (j : Nat) : DWord := maskOf x.g.width (fun i => x.act.getLsbD i && x.g.poisonV.contains ((n + j) * 64 + i))
    ((List.range cnt).find? (fun j => bad j != 0)).map (fun j => (0, n + j, (List.range cnt).foldl (fun m k => m ||| bad k) 0))
  if !nm.rd then none
  else match nm.use with
    | .op (.v n) cnt => vecs n.toNat cnt
    | .op (.s n) cnt => (List.range cnt).findSome? (fun j =>
        if x.g.poisonS.contains (n.toNat + j) && x.any then some (1, n.toNat + j, x.act) else none)
    | .op (.ind _ k) _ =>
      let m := maskOf x.g.width (fun i => x.act.getLsbD i && x.g.poisonV.contains (x.g.indReg k.toNat i * 64 + i))
      if m = 0 then none else some (0, x.g.indReg k.toNat ((lanesOf x.g.width m).getD 0 0), m)
    | .op (.p n) _ =>
      let m := x.act &&& x.g.badPred n.toNat
      if m = 0 then none else some (2, n.toNat, m)
    | .op (.x k) _ =>
      let m := maskOf x.g.width (fun i => x.act.getLsbD i && x.g.poisonX.contains (k.toNat * 64 + i))
      if m = 0 then none else some (3, k.toNat, m)
    | .far l => (match l.filter (x.g.farBad) with
      | [] => none
      | r :: more => some (r.cls, r.num, maskOf x.g.width (fun i => (r :: more).any (fun e => e.reader == i))))
    | _ => none

/-- The poisoned guard predicate that lanes of the clause read (R318). -/
def guardPoison (x : Ctx) (gd : Guard) : Option (Nat × Nat × DWord) :=
  let m := if gd.pred = 31 then 0 else x.c.lanes &&& x.g.badPred gd.pred.toNat
  if m = 0 then none else some (2, gd.pred.toNat, m)

/-- The poisoned index register that active lanes resolve an indirect operand with (R318). -/
def Named.indexPoison (nm : Named) (x : Ctx) : Option (Nat × Nat × DWord) :=
  match nm.use with
  | .op (.ind _ k) _ =>
    let m := maskOf x.g.width (fun i => x.act.getLsbD i && x.g.poisonX.contains (k.toNat * 64 + i))
    if m = 0 then none else some (3, k.toNat, m)
  | _ => none

/-- The deferred-error trap of an instruction's register reads (R318): the first poisoned register, and every lane that reads
poison (R306). -/
def regPoison (x : Ctx) (gd : Guard) (names : List Named) : Option Trap :=
  match (guardPoison x gd).toList ++ names.filterMap (fun nm => nm.indexPoison x) ++ names.filterMap (fun nm => nm.poison x) with
  | [] => none
  | p :: r => some ⟨11, 0, (p :: r).foldl (fun m e => m ||| e.2.2) 0, 0, BitVec.ofNat 64 (p.1 + 256 * p.2.1), 0, 0⟩

/-! ### The deferred-error log (R319, R353) -/

/-- A word of the management window (R340), by its offset. -/
def State.win (s : State) (off : Nat) : Nat := (s.host.window.get (off / 4)).toNat

/-- Write a word of the management window. -/
def State.winSet (s : State) (off val : Nat) : State :=
  { s with host := { s.host with window := s.host.window.set (off / 4) (BitVec.ofNat 32 val) } }

/-- Write a 32-byte entry of a die's ring (R351 to R353): a base in host memory, as function 0 sees it (log 44), or a physical address of a frame that no virtual
interface owns (R5; log 22). -/
def State.ringPut (s : State) (base ctl tail : Nat) (e : List Byte) : State :=
  let a := base + 32 * (tail % 2 ^ (ctl % 32))
  if ctl.testBit 8 then { s with host := { s.host with hostMem := s.host.hostMem.write (hostKey 0 a) e } }
  else if paOk a && s.ownerOf a == 0 && s.ownerOf (a + 31) == 0 then s.deviceWrite a e else s

/-- An entry of the deferred-error log (R353). -/
def deferredEntry (tick vi core num reg seq : Nat) : List Byte :=
  leBytes 8 tick ++ leBytes 2 vi ++ leBytes 2 core ++ leBytes 2 num ++ leBytes 2 reg ++ leBytes 8 0 ++ leBytes 4 seq ++ leBytes 4 (2 ^ 31)

/-- Log one deferred error of a group on its die (R353): register class and number as in R306. -/
def State.logDeferred (s : State) (g : Group) (t : Task) (reg : Nat × Nat) : State :=
  let die := dieOf g.core
  let off := 0x1000 + 0x100 * die
  match s.dies.find? (fun d => d.num == die) with
  | none => s
  | some d =>
    if !(s.win (off + 0x30)).testBit 31 then s
    else
      let base := s.win (off + 0x28) + 2 ^ 32 * s.win (off + 0x2C)
      let e := deferredEntry s.tick.toNat t.vi g.core g.num (reg.1 + 256 * reg.2) d.dlSeq.toNat
      let s1 := s.ringPut base (s.win (off + 0x30)) d.dlTail.toNat e
      { s1 with dies := modWhere s1.dies (fun x => x.num == die) (fun x => { x with dlTail := x.dlTail + 1, dlSeq := x.dlSeq + 1 }) }

/-- The poisoned registers that a position names and that no active lane reads there (R319): class and number. A source that the
instruction reads across lanes (`rd` false, no destination) stands in its `far` reads too; of a destination only its index register is
read, and a lane whose index does not resolve names no register. -/
def Named.idlePoison (nm : Named) (x : Ctx) : List (Nat × Nat) :=
  let free (i : Nat) : Bool := !nm.rd || !x.act.getLsbD i
  let idle (key : Nat → Nat) (l : List Nat) : Bool := (List.range x.g.width).any (fun i => free i && l.contains (key i))
  let index (k : Nat) : List (Nat × Nat) :=
    if (List.range x.g.width).any (fun i => !x.act.getLsbD i && x.g.poisonX.contains (k * 64 + i)) then [(3, k)] else []
  if !nm.rd && nm.pos == 0 then (match nm.use with | .op (.ind _ k) _ => index k.toNat | _ => [])
  else match nm.use with
    | .op (.v n) cnt => (List.range cnt).filterMap (fun j =>
        if idle (fun i => (n.toNat + j) * 64 + i) x.g.poisonV then some (0, n.toNat + j) else none)
    | .op (.s n) cnt => (List.range cnt).filterMap (fun j =>
        if !x.any && x.g.poisonS.contains (n.toNat + j) then some (1, n.toNat + j) else none)
    | .op (.p n) _ => if x.g.badPred n.toNat &&& fullMask x.g.width != 0 && x.act &&& x.g.badPred n.toNat == 0 then [(2, n.toNat)] else []
    | .op (.x k) _ => if idle (fun i => k.toNat * 64 + i) x.g.poisonX then [(3, k.toNat)] else []
    | .op (.ind _ k) _ =>
      index k.toNat ++ ((List.range x.g.width).filterMap (fun i =>
          match resolveIdx (x.g.xget k.toNat i) x.g.vregs with
          | .ok n => if free i && x.g.poisonV.contains (n * 64 + i) then some (0, n) else none
          | .error _ => none)).eraseDups
    | _ => []

/-- The guard predicate's poison that no lane of the clause reads (R319). -/
def idleGuard (x : Ctx) (gd : Guard) : List (Nat × Nat) :=
  if gd.pred != 31 && x.g.badPred gd.pred.toNat &&& fullMask x.g.width != 0 && x.c.lanes &&& x.g.badPred gd.pred.toNat == 0
  then [(2, gd.pred.toNat)] else []

/-- Does any register of a group hold poison? -/
def Group.clean (g : Group) : Bool := g.poisonV.isEmpty && g.poisonS.isEmpty && g.poisonP.isEmpty && g.poisonX.isEmpty

/-- A state after an instruction whose deferred errors are logged (R319). -/
def Ctx.logIdle (x : Ctx) (gd : Guard) (names : List Named) (s : State) : State :=
  if x.g.clean then s
  else (idleGuard x gd ++ names.flatMap (fun nm => nm.idlePoison x)).foldl (fun u r => u.logDeferred x.g x.t r) s

/-- Does a group that waits try its instruction again, and not only wait for its place? -/
def State.retries (s : State) (gid : Nat) : Bool :=
  match (s.group? gid).map (fun (g : Group) => g.hold) with
  | some (Hold.engine _ _) | some (Hold.array _) => false
  | _ => true

/-- The vector registers that a named use reaches, for the busy windows of R60. -/
def Use.vecs (u : Use) (g : Group) : List Nat :=
  match u with
  | .op (.v n) cnt => (List.range cnt).map (fun j => n.toNat + j)
  | .op (.ind _ k) _ => g.window k.toNat
  | _ => []

/-- The parked lanes whose status is outstanding (R106, R107). DESIGN CHOICE (log 33): while a handler runs, lanes outside its
resume mask cannot unpark (R304), and their status is not waited for; nor is that of lanes that only wake once a reinstated repeat state
is taken up (R177). -/
def Group.statusParks (g : Group) : List Park := g.parks.filter (fun p => (!g.gsrH || g.resume.getLsbD p.lane)
  && g.repAt.all (fun r => decide (r.1 < (g.vpc.get p.lane).toNat)))

/-- Does an instruction touch a busy window (R60), of an outstanding result or of a parked lane's status? -/
def Ctx.busy (x : Ctx) (names : List Named) : Bool :=
  let used := names.flatMap (fun nm => nm.use.vecs x.g)
  let touched (l : List RegName) : Bool := l.any (fun r => match r with | .v n => used.contains n | _ => false)
  x.g.outs.any (fun o => o.busy && touched o.names) || x.g.statusParks.any (fun p => p.busy && touched p.names)

/-- Does an instruction not wait for busy windows (R173; log 67)? -/
def skipsBusy : Instr → Bool
  | .idxset .. | .idxget .. => true
  | _ => false

/-- A lane neither exited nor parked, below the clause, that did not pass through it: it holds a cross-lane instruction back
(R39), in a handler too. -/
def Ctx.heldBack (x : Ctx) : Bool :=
  (List.range x.g.width).any (fun i =>
    !x.g.exited i && !x.g.parked i && !x.c.issued.getLsbD i && decide ((x.g.vpc.get i).toNat < x.c.start))

/-- The cross-lane instructions (R38, R166, R203, R217, R236). DESIGN CHOICE (log 33): WAIT, whose conditions R38 calls "VOTE-like
tests", is none of them, since it reads no other lane's register. -/
def isCrossLane : Instr → Bool
  | .rpt .. => false
  | .bar .. | .barArrive .. | .elect .. | .mmas .. => true
  | i => i.family == 3

/-- The post-steps of an instruction's indirect operands, in active lanes, after it completes (R56). -/
def Group.postStep (g : Group) (act : DWord) (names : List Named) : Group :=
  names.foldl (fun h nm => match nm.use with
    | .op (.ind .none _) _ => h
    | .op (.ind st k) _ => (lanesOf g.width act).foldl (fun u i =>
        let x := u.xget k.toNat i
        let step := signed 4 (fld x.toNat 24 4)
        let off : Int := fld x.toNat 16 8
        let new := (if st = .up then off + step else off - step) % 256
        u.xset k.toNat i (BitVec.ofNat 32 (x.toNat - fld x.toNat 16 8 * 2 ^ 16 + new.toNat * 2 ^ 16))) h
    | _ => h) g

/-- Where a trap raised at the current instruction returns (R302, R305). -/
def Ctx.returnPoint (x : Ctx) (next : Bool) : ReturnPoint :=
  { clause := x.c.start, index := x.c.index, next := next
    opcode := match x.c.words.getD x.c.index none with | some w => w.toNat % 512 | none => 0
    repDone := x.g.repDone, repLeft := x.g.repLeft }

/-- The scheduling processor's cores, 28 to 31 of the service cores (R16). -/
def isFirmware (core : Nat) : Bool := decide (412 ≤ core)

/-- Does a group run privileged (R343)? -/
def Group.privileged (g : Group) (t : Task) : Bool := isFirmware g.core || (isService g.core && t.privileged)

/-- A privileged group that takes a deferred error has consumed an uncorrectable error (R321). -/
def State.noteConsumed (s : State) (g : Group) (t : Task) (cls : Nat) : State :=
  if cls = 11 ∧ g.privileged t = true then { s with host := { s.host with consumed := s.host.consumed ++ [g.core] } } else s

/-- Raise a precise trap at the current instruction (R302): the resume mask is the lanes still in the clause. -/
def Ctx.raise (x : Ctx) (tr : Trap) : State :=
  (x.s.noteConsumed x.g x.t tr.cls).takeTrap x.g x.t tr (x.returnPoint false) x.c.lanes

/-- The lowest subcode of an illegal use of a decoded instruction (R131): by the state of the group or the launch record,
by what a service core lacks (3), by the clause's class (4), by privilege (5). -/
def illegalUse (i : Instr) (dyn : Ctx → Option Nat) (x : Ctx) : Option Nat :=
  let own := if isService x.g.core && i.lacksService then some (min 3 ((dyn x).getD 3)) else dyn x
  let cls := !i.allowedIn (x.c.header.toNat / 16 % 8)
  let priv := i.privileged && !x.g.privileged x.t
  let later := if cls then some 4 else if priv then some 5 else none
  match own, later with
  | some a, some b => some (min a b)
  | some a, none => some a
  | none, r => r

/-- Issue one instruction of the current group (R108 to R110, R130): the checks in the order of R303, then its effect. Registers are
read, and their poison met, once no busy window is touched (R60), for which IDXSET and IDXGET do not wait (R173; log 67).
`dyn`: the subcode of a use that the group's or the launch record's state makes illegal. -/
def issueDyn (i : Instr) (dyn : Ctx → Option Nat) (names : Ctx → List Named) (body : Ctx → Res) (s : State) :
    Host.Outcome State Fault Refusal :=
  match ctxOf s (i.guard.getD .always) with
  | none => .fault .noIssuingGroup
  | some x =>
    let nms := names x
    .next <|
      match illegalUse i dyn x with
      | some sub => x.raise (trapIllegal sub x.act)
      | none => match boundFault x nms with
        | some tr => x.raise tr
        | none =>
          if (x.busy nms && !skipsBusy i) || (isCrossLane i && x.heldBack) then s.modGroup x.g.gid (fun g => { g with hold := .again })
          else match regPoison x (i.guard.getD .always) nms with
            | some tr => x.raise tr
            | none => match body x with
              | .trap tr => x.raise tr
              | .hold s' => if s'.retries x.g.gid then s' else x.logIdle (i.guard.getD .always) nms s'
              | .ok s' => (x.logIdle (i.guard.getD .always) nms s').modGroup x.g.gid (fun g => (g.postStep x.act nms).advance)

/-- Issue with uses that raise subcode 3 by the group's or the launch record's state. -/
def issue (i : Instr) (dyn3 : Ctx → Bool) (names : Ctx → List Named) (body : Ctx → Res) (s : State) :
    Host.Outcome State Fault Refusal :=
  issueDyn i (fun x => if dyn3 x then some 3 else none) names body s

/-- No use depends on the group's state for subcode 3. -/
def noDyn (_ : Ctx) : Bool := false

/-- An effect that changes only the group. -/
def Ctx.okGroup (x : Ctx) (f : Group → Group) : Res := .ok (x.s.modGroup x.g.gid f)

end Sys2Proof.Machine
end

