-- ==== Sys2Proof/Machine/Flags.lean ====
section
/-! DEFINITION. fsr (R87): instructions set its sticky flags and never clear them. -/
namespace Sys2Proof.Machine

/-- Set the flags whose condition held (R87). -/
def Group.raiseFlags (g : Group) (f : Flags) : Group := { g with fsr := g.fsr ||| f }

/-- The union of the flags of several lanes (R87). -/
def unionFlags (l : List Flags) : Flags := l.foldl (fun a f => a ||| f) 0

/-- Write fsr whole: a MOV to fsr, which alone may clear flags (R148). -/
def Group.setFsr (g : Group) (x : Nat) : Group := { g with fsr := BitVec.ofNat 5 x }

end Sys2Proof.Machine
end

