-- ==== Sys2Proof/Machine/Operands.lean ====
section
/-! DEFINITION. Reading sources and writing destinations of format A and B words (R53, R56, R112, R113, R138 to R141),
lane by lane or once, at once or as a long-latency result (R106). -/
namespace Sys2Proof.Machine

/-- A 32-bit source in a lane (R138). -/
def Ctx.src (x : Ctx) (o : Opnd) (lane : Nat) : Nat :=
  match o with
  | .v n => (x.g.vget n.toNat lane).toNat
  | .s n => (x.g.sget n.toNat).toNat % 2 ^ 32
  | .ind _ k => (x.g.vget (x.g.indReg k.toNat lane) lane).toNat
  | .zero => 0
  | .p n => bit (x.g.pget n.toNat lane)
  | .x k => (x.g.xget k.toNat lane).toNat
  | .fsr => x.g.fsr.toNat

/-- A 64-bit source of LEA or IADD64 in a lane (R139). -/
def Ctx.src64 (x : Ctx) (o : Opnd) (lane : Nat) : Nat :=
  match o with
  | .v n => (x.g.vget n.toNat lane).toNat + 2 ^ 32 * (x.g.vget (n.toNat + 1) lane).toNat
  | .s n => (x.g.sget n.toNat).toNat
  | _ => 0

/-- Write a 32-bit result in a lane; indirect destinations are resolved before any post-step (R58, R112, R113).
The poison of a predicate's word of 32 lanes goes when every lane of it is written (R317, R318). -/
def Ctx.put (x : Ctx) (g : Group) (d : Opnd) (lane val : Nat) : Group :=
  match d with
  | .v n => g.vset n.toNat lane (BitVec.ofNat 32 val)
  | .ind _ k => g.vset (x.g.indReg k.toNat lane) lane (BitVec.ofNat 32 val)
  | .p n =>
    let whole (m : DWord) : Bool := fullMask x.g.width &&& m &&& ~~~x.act == 0
    { g.pset n.toNat lane (val != 0) with poisonP := g.poisonP.filter (fun k =>
        !((k == 2 * n.toNat && whole 0xFFFFFFFF) || (k == 2 * n.toNat + 1 && whole 0xFFFFFFFF00000000))) }
  | .x k => g.xset k.toNat lane (BitVec.ofNat 32 val)
  | _ => g

/-- A write of part of each word leaves the poison of the registers written in place (R318). -/
def Group.keepPoison (g old : Group) : Group := { g with poisonV := old.poisonV, poisonS := old.poisonS, poisonX := old.poisonX }

/-- Write a 64-bit result in a lane: an even pair (R139). -/
def Ctx.put64 (g : Group) (d : Opnd) (lane val : Nat) : Group :=
  match d with
  | .v n => (g.vset n.toNat lane (BitVec.ofNat 32 val)).vset (n.toNat + 1) lane (BitVec.ofNat 32 (val / 2 ^ 32))
  | _ => g

/-- The lanes a lane-wise instruction computes in: its active lanes, or one for a uniform destination (R53, R137). -/
def Ctx.workLanes (x : Ctx) (d : Opnd) : List Nat :=
  match d with
  | .s _ => if x.any then [0] else []
  | _ => x.lanes

/-- A lane-wise effect: every lane's result and flags from the old state, then the writes (R7, R137, R140). -/
def Ctx.laneWise (x : Ctx) (d : Opnd) (f : Nat → Nat × Flags) : Group :=
  let rs := (x.workLanes d).map (fun l => (l, f l))
  let g : Group := match d with
    | .s n => rs.foldl (fun h r => h.sset n.toNat (BitVec.ofNat 64 (r.2.1 % 2 ^ 32))) x.g
    | _ => rs.foldl (fun h r => x.put h d r.1 r.2.1) x.g
  g.raiseFlags (unionFlags (rs.map (fun r => r.2.2)))

/-- A lane-wise effect with a 64-bit result (R139, R150). -/
def Ctx.laneWise64 (x : Ctx) (d : Opnd) (f : Nat → Nat) : Group :=
  let rs := (x.workLanes d).map (fun l => (l, f l))
  match d with
  | .s n => rs.foldl (fun h r => h.sset n.toNat (BitVec.ofNat 64 r.2)) x.g
  | _ => rs.foldl (fun h r => Ctx.put64 h d r.1 r.2) x.g

/-- The named registers of a format A word: d written, the sources read. -/
def namesA (d : Opnd) (srcs : List Opnd) : List Named :=
  ⟨0, .op d 1, false⟩ :: srcs.mapIdx (fun j o => ⟨j + 1, .op o 1, true⟩)

/-- Registers of a 64-bit operand: a vector pair is two (R139). -/
def wideCount (o : Opnd) : Nat := if o.isV then 2 else 1

/-- The effect of a lane-wise instruction with integer results: no flag is raised (R142). -/
def intLanes (i : Instr) (d : Opnd) (srcs : List Opnd) (f : Ctx → Nat → Nat) (s : State) :
    Host.Outcome State Fault Refusal :=
  issue i noDyn (fun _ => namesA d srcs) (fun x => .ok (x.s.setGroup (x.laneWise d (fun l => (f x l, 0))))) s

/-- The effect of a lane-wise instruction with floating results and flags (R137, R87). -/
def fltLanes (i : Instr) (d : Opnd) (srcs : List Opnd) (f : Ctx → Nat → Nat × Flags) (s : State) :
    Host.Outcome State Fault Refusal :=
  issue i noDyn (fun _ => namesA d srcs) (fun x => .ok (x.s.setGroup (x.laneWise d (f x)))) s

/-- Registers a result is outstanding in (R107): all registers of the window for an indirect destination. -/
def Ctx.outNames (x : Ctx) (d : Opnd) (cnt : Nat) : List RegName :=
  match d with
  | .v n => (List.range cnt).map (fun j => .v (n.toNat + j))
  | .s n => [.s n.toNat]
  | .ind _ k => (x.g.window k.toNat).map .v
  | _ => []

/-- The writes of one lane's 32-bit result. -/
def Ctx.laneWrites (x : Ctx) (d : Opnd) (lane val : Nat) : List RegWrite :=
  match d with
  | .v n => [.v n.toNat lane (BitVec.ofNat 32 val)]
  | .ind _ k => [.v (x.g.indReg k.toNat lane) lane (BitVec.ofNat 32 val)]
  | .s n => [.s n.toNat (BitVec.ofNat 64 (val % 2 ^ 32))]
  | _ => []

/-- Leave a result outstanding (R107); nothing stays outstanding for a discarded result without flags. -/
def Ctx.outstanding (x : Ctx) (s : State) (names : List RegName) (busy : Bool) (writes : List RegWrite) (flags : Flags)
    (src : PendSrc) : State :=
  let p : Pend := { key := s.nextId, names := names, busy := busy, writes := writes, flags := flags, src := src }
  if names.isEmpty && writes.isEmpty && flags = 0 && src == .ready then s
  else { s.modGroup x.g.gid (fun g => { g with outs := g.outs ++ [p] }) with nextId := s.nextId + 1 }

/-- A lane-wise long-latency effect: results and flags land later (R106, R142). -/
def Ctx.laneWiseLong (x : Ctx) (d : Opnd) (f : Nat → Nat × Flags) : State :=
  let rs := (x.workLanes d).map (fun l => (l, f l))
  if rs.isEmpty then x.s
  else x.outstanding x.s (x.outNames d 1) d.isInd (rs.flatMap (fun r => x.laneWrites d r.1 r.2.1))
    (unionFlags (rs.map (fun r => r.2.2))) .ready

/-- The absolute value and negation modifiers of one position on a value with its sign bit at a place (R141). -/
def signMods (place : Nat) (abs neg : Bool) (x : Nat) : Nat :=
  let y := if abs && decide (x / 2 ^ place % 2 = 1) then x - 2 ^ place else x
  if neg then (if y / 2 ^ place % 2 = 1 then y - 2 ^ place else y + 2 ^ place) else y

/-- The modifiers of source position j (0 a, 1 b, 2 c) on every element of a width of a 32-bit word (R141). -/
def wordMods (w : Nat) (m : BitVec 6) (j : Nat) (x : Nat) : Nat :=
  (List.range (32 / w)).foldl (fun y e => signMods (w * e + w - 1) (m.getLsbD (2 * j + 1)) (m.getLsbD (2 * j)) y) x

/-- An FP32 source with its modifiers (R138, R141). -/
def Ctx.fsrc (x : Ctx) (m : BitVec 6) (j : Nat) (o : Opnd) (lane : Nat) : Nat := wordMods 32 m j (x.src o lane)

/-- Element k of width w of a 32-bit word (R159). -/
def elem (w k x : Nat) : Nat := x / 2 ^ (w * k) % 2 ^ w

/-- Put element k of width w into a word (R159, R160). -/
def putElem (w k old val : Nat) : Nat := old - elem w k old * 2 ^ (w * k) + val % 2 ^ w * 2 ^ (w * k)

/-- A register of format B: vector or uniform (R114). -/
def bOpnd (u : Bool) (n : BitVec 8) : Opnd := if u then .s (BitVec.ofNat 6 n.toNat) else .v n

end Sys2Proof.Machine
end

