-- ==== Sys2Proof/Machine/Access.lean ====
section
/-! DEFINITION. Accesses through segments: offsets and checks (R64, R178, R179), translation, races (R268), loads, stores
and atomics of memory and of stash lines, absent lines (R186), releases and acquires (R254, R197). -/
namespace Sys2Proof.Machine

/-- One access of an instruction: the lanes it serves, its lowest lane, and its segment offset (R178, R181). -/
structure Acc where
  lane : Nat
  mask : DWord
  off : Nat
  deriving DecidableEq, Repr

/-- An access with its address and the translated pieces of its range. -/
structure Located where
  acc : Acc
  va : Nat
  parts : List (Nat × Nat × Trans)
  deriving DecidableEq, Repr

/-- The accesses of a format L instruction: one a lane, or one for a uniform address (R115, R178). -/
def Ctx.accs (x : Ctx) (l : LArgs) : List Acc :=
  let off := signed 24 l.off.toNat
  let at64 (a : Nat) : Nat := (((a : Int) + off) % 2 ^ 64).toNat
  if l.aU then (if x.any then [⟨(x.lanes).getD 0 0, x.act, at64 (x.g.sget (l.a.toNat % 64)).toNat⟩] else [])
  else x.lanes.map (fun i => ⟨i, 1#64 <<< i, at64 (x.src64 (.v l.a) i)⟩)

/-- The address register of a format L word. -/
def addrName (l : LArgs) : Named := ⟨1, .op (bOpnd l.aU l.a) (if l.aU then 1 else 2), true⟩

/-- The data registers of a format L word, n of them. -/
def dataName (l : LArgs) (n : Nat) (rd : Bool) : Named := ⟨0, .op (bOpnd l.tU l.t) (if l.tU then 1 else n), rd⟩

/-- The segment fault of an instruction's accesses (R64): the lowest subcode that a lane raises. -/
def Ctx.segFault (x : Ctx) (seg n : Nat) (write aligned : Bool) (accs : List Acc) : Option Trap :=
  let bl := x.g.seg seg
  let subs (a : Acc) : List Nat :=
    (if bl.2.toNat < a.off + n then [0] else []) ++ (if write && (seg == 3 || seg == 4) then [1] else [])
      ++ (if aligned && (bl.1.toNat + a.off) % n != 0 then [2] else [])
  [0, 1, 2].findSome? (fun sub =>
    match accs.filter (fun a => (subs a).contains sub) with
    | [] => none
    | b :: r => some ⟨2, sub, (b :: r).foldl (fun m a => m ||| a.mask) 0, BitVec.ofNat 64 b.off, BitVec.ofNat 64 seg, 0, 0⟩)

/-- Translate one access in its core's TLB, refusing submission pages (R282). -/
def Ctx.locateOne (x : Ctx) (seg n : Nat) (acc : Access) (atomic : Bool) (a : Acc) : Except (Nat × PageFault) Located :=
  let va := ((x.g.seg seg).1.toNat + a.off) % 2 ^ 64
  (x.s.reach x.g.core x.t.vi acc atomic va n).map (fun ps => ⟨a, va, ps⟩)

/-- The page fault of several accesses (R178, R306): all lanes that fault, and the first faulting address. -/
def pageTrap (l : List (DWord × Nat × PageFault)) : Option Trap :=
  match l with
  | [] => none
  | p :: _ => some ⟨4, p.2.2.sub, l.foldl (fun m e => m ||| e.1) 0, BitVec.ofNat 64 p.2.1, p.2.2.info, 0, 0⟩

/-- Translate every access before any byte is touched (R178). -/
def Ctx.locate (x : Ctx) (seg n : Nat) (acc : Access) (atomic : Bool) (accs : List Acc) : Except Trap (List Located) :=
  let rs := accs.map (fun a => (a, x.locateOne seg n acc atomic a))
  match pageTrap (rs.filterMap (fun r => match r.2 with | .error e => some (r.1.mask, e.1, e.2) | .ok _ => none)) with
  | some t => .error t
  | none => .ok (rs.filterMap (fun r => r.2.toOption))

/-- The race trap of plain accesses of a group by an agent to physical ranges (R182, R268): the first racing word of the first access
that has one, with every lane that races on that word (R306). -/
def raceTrap (s : State) (gid : Nat) (ag : Agent) (store : Bool) (l : List (DWord × Nat × Nat × Nat)) : Option Trap :=
  let hits : List (DWord × Nat × Reg) := l.flatMap (fun e =>
    (s.mem.racing gid ag e.2.2.1 e.2.2.2).map (fun r => (e.1, alignDown e.2.1 4 + (r.pa - wordOf e.2.2.1), r)))
  match hits with
  | [] => none
  | h :: _ =>
    let same := hits.filter (fun k => k.2.2.pa == h.2.2.pa)
    some ⟨5, 0, same.foldl (fun m e => m ||| e.1) 0, BitVec.ofNat 64 h.2.1,
      BitVec.ofNat 64 (agentCode h.2.2.owner.kind + 8 * bit store + 2 ^ 16 * h.2.2.owner.id), 0, 0⟩

/-- The local, registered pieces of accesses, as (lanes, address, physical address, length). -/
def localParts (ls : List Located) : List (DWord × Nat × Nat × Nat) :=
  ls.flatMap (fun k => (k.parts.filter (fun p => !p.2.2.remote && !p.2.2.repl && !p.2.2.lost)).map
    (fun p => (k.acc.mask, p.1, p.2.2.pa, p.2.1)))

/-- The deferred-error trap of reads of poisoned memory by an agent for a virtual interface (R318). -/
def memPoison (s : State) (ag : Agent) (vi : Nat) (ls : List Located) : Option Trap :=
  let hits : List (DWord × Nat) := ls.flatMap (fun k => k.parts.filterMap (fun p =>
    let src := p.2.2.from' ag vi p.1
    (s.mem.poisonIn src p.2.1).map (fun w => (k.acc.mask, alignDown p.1 4 + (w - wordOf src)))))
  match hits with
  | [] => none
  | h :: _ => some ⟨11, 1, hits.foldl (fun m e => m ||| e.1) 0, BitVec.ofNat 64 h.2, 0, 0, 0⟩

/-! ### Loaded data -/

/-- Sign extension of n bytes to w bits. -/
def extend (sx : Bool) (n w x : Nat) : Nat := if sx then (signed (8 * n) x % 2 ^ w).toNat else x

/-- The register writes of loaded bytes (R188, R194). -/
def loadWrites (f : LoadForm) (lanes : List Nat) (bs : List Byte) : List RegWrite :=
  let v := leNat bs
  if f.tU then [.s f.t (BitVec.ofNat 64 (extend f.sx f.bytes 64 v))]
  else lanes.flatMap (fun i => (List.range (vregsOf f.bytes)).map (fun j =>
    .v (f.t + j) i (BitVec.ofNat 32 (extend f.sx f.bytes 32 v / 2 ^ (32 * j)))))

/-! ### Reads and writes of memory -/

/-- Does a write of bytes cover a poisoned word in part (R318)? -/
def Mem.poisonPart (m : Mem) (pa n : Nat) : Bool :=
  m.poison.any (fun w => decide (w < pa + n) && decide (pa < w + 4) && !(decide (pa ≤ w) && decide (w + 4 ≤ pa + n)))

/-- The die that a group's messages leave from; the IOD for one that is gone. -/
def State.groupDie (s : State) (gid : Nat) : Nat := ((s.group? gid).map (fun g => dieOf g.core)).getD 4

/-- A group's write of bytes homed on another chip: no copy that its core holds is older (R263). -/
def State.writeAway (s : State) (gid vi va : Nat) (bs : List Byte) : State :=
  match s.group? gid with
  | some g => s.remoteStore g.core vi va bs
  | none => s.remoteWrite vi va bs

/-- A posted store reaches its home on another chip, or is refused or lost and counted (R183, R274): for poison when it
would change part of a poisoned word (log 61). -/
def State.deliverPosted (s : State) (p : Posted) : State :=
  let s1 := { s with mem := { s.mem with posted := s.mem.posted.filter (fun q => q.key != p.key) } }
  let key := remoteKey p.vi p.va
  if s.outOfReach (s.groupDie p.gid) key p.bytes.length then s1.modGroup p.gid (fun g => g.countStore false false p.va s.fresh)
  else if s.homeRefuses key || s.mem.poisonPart key p.bytes.length then s1.modGroup p.gid (fun g => g.countStore false true p.va s.fresh)
  else s1.writeAway p.gid p.vi p.va p.bytes

/-- Deliver the posted stores that a test names, oldest first. -/
def State.deliverWhere (s : State) (t : Posted → Bool) : State :=
  (s.mem.posted.filter t).foldl State.deliverPosted s

/-- A RED of a group on a word of another chip (R183, R195): after the stores that the group has posted; it is lost or refused and
counted as a store is (R274). -/
def State.redRemote (s : State) (gid vi va : Nat) (op : AtomVar) (opnd : Nat) : State :=
  let t := s.deliverWhere (fun q => q.gid == gid)
  let key := remoteKey vi va
  if t.outOfReach (t.groupDie gid) key op.bytes then t.modGroup gid (fun g => g.countStore false false va t.fresh)
  else if t.homeRefuses key || (t.mem.poisonIn key op.bytes).isSome then t.modGroup gid (fun g => g.countStore false true va t.fresh)
  else t.writeAway gid vi va (leBytes op.bytes (atomApply op (leNat (t.mem.remoteRead vi va op.bytes)) opnd 0))

/-- Before a group reads a piece of memory, its earlier posted writes to the piece are performed (R40, R195). -/
def Ctx.settlePart (x : Ctx) (s : State) (p : Nat × Nat × Trans) : State :=
  if p.2.2.remote then s.deliverWhere (fun q => q.gid == x.g.gid && overlap q.va q.bytes.length p.1 p.2.1)
  else if p.2.2.repl then s
  else s.redsBefore x.g.gid p.2.2.pa p.2.1

/-- The same for every piece of an instruction's accesses. -/
def Ctx.settle (x : Ctx) (s : State) (ls : List Located) : State :=
  (ls.flatMap (fun k => k.parts)).foldl x.settlePart s

/-- The words of ATOM pages of this package that accesses touch. -/
def wordsRead (ls : List Located) : List Nat :=
  ls.flatMap (fun k => (k.parts.filter (fun p => !p.2.2.remote && !p.2.2.repl)).flatMap (fun p => wordsAt p.2.2.pa p.2.1))

/-- Read one piece of memory for a group: plain loads by R263, in an instruction that reads the words `all` of the memory `m`; others
through the registry. -/
def Ctx.readPart (x : Ctx) (m : Mem) (all : List Nat) (s : State) (plain : Bool) (p : Nat × Nat × Trans) : State × List Byte :=
  let s := s.noteTlb x.g.core x.t.vi p.1 p.2.2
  if p.2.2.remote then (s, s.mem.remoteRead x.t.vi p.1 p.2.1)
  else if p.2.2.repl then s.readRepl x.agent p.2.2.pa p.2.1
  else if plain then s.loadBytes m all x.g.core x.t.vi p.1 ((s.viOf x.t.vi).regionOf p.1) p.2.2.pa p.2.1
  else
    let m := (wordsAt p.2.2.pa p.2.1).foldl (fun m w => m.renew x.g.core w) s.mem
    ({ s with mem := m }, s.mem.read p.2.2.pa p.2.1)

/-- Read the bytes of a located access. -/
def Ctx.readAt (x : Ctx) (m : Mem) (all : List Nat) (s : State) (plain : Bool) (k : Located) : State × List Byte :=
  k.parts.foldl (fun acc p => let (s', b) := x.readPart m all acc.1 plain p; (s', acc.2 ++ b)) (s, [])

/-- Every access of a load is read, in ascending lane order; each byte has one value for all of them (R180). -/
def Ctx.readAll (x : Ctx) (s0 : State) (f : LoadForm) (ls : List Located) : State × List RegWrite :=
  let s := x.settle s0 ls
  ls.foldl (fun (acc : State × List RegWrite) k =>
    let (t, bs) := x.readAt s.mem (wordsRead ls) acc.1 f.plain k
    (t, acc.2 ++ loadWrites f (lanesOf x.g.width k.acc.mask) bs)) (s, [])

/-- Store the bytes of a located access (R183, R255, R272, R323). An STL to another chip is delivered at once, after the stores of
its group before it, so that no later LDA overtakes it (R189, R262). -/
def Ctx.writeAt (x : Ctx) (s : State) (plain : Bool) (k : Located) (bs : List Byte) : State :=
  k.parts.foldl (fun t p =>
    let t := t.noteTlb x.g.core x.t.vi p.1 p.2.2
    let part := (bs.drop (pieceOff k.va p.1)).take p.2.1
    if p.2.2.lost then t.modGroup x.g.gid (fun g => g.countStore true false p.1 t.fresh)
    else if p.2.2.remote then
      let m := { t.mem with posted := t.mem.posted ++ [⟨t.nextId, x.g.gid, x.t.vi, t.tick.toNat, p.1, part⟩] }
      let u := { t with mem := m, nextId := t.nextId + 1 }
      if plain then u else u.deliverWhere (fun q => q.gid == x.g.gid)
    else (t.redsBefore x.g.gid p.2.2.pa p.2.1).store x.g.gid plain x.agent p.2.2.repl p.2.2.pa part) s

/-- The registers a loaded result is outstanding in (R107). -/
def LoadForm.names (f : LoadForm) : List RegName :=
  if f.tU then [.s f.t] else (List.range (vregsOf f.bytes)).map (fun j => .v (f.t + j))

/-- The bytes of a data register in a lane, n of them (R188). -/
def Ctx.dataBytes (x : Ctx) (l : LArgs) (n lane : Nat) : List Byte :=
  if l.tU then leBytes n (x.g.sget (l.t.toNat % 64)).toNat
  else ((List.range (vregsOf n)).flatMap (fun j => leBytes 4 (x.g.vget (l.t.toNat + j) lane).toNat)).take n

/-- The lanes an access serves. -/
def Acc.lanes (a : Acc) (w : Nat) : List Nat := lanesOf w a.mask

/-! ### Stash lines -/

/-- What an access to stash lines meets (R186): all present; mapped absent lines, whose fills it starts; or only absent lines for which
it starts none: an engine command is writing a mapped one, or one is unmapped. -/
inductive StashView where
  | present
  | fill (lines : List Nat)
  | absent
  deriving DecidableEq, Repr

/-- The view of some lines of a core. -/
def Mem.viewLines (m : Mem) (core : Nat) (ls : List Nat) : StashView :=
  let gone (n : Nat) : Bool := !m.present core n && (m.lineOf core n).mapped.isSome
  match ls.eraseDups.filter (fun n => gone n && (m.lineOf core n).writers.isEmpty) with
  | n :: r => .fill (n :: r)
  | [] => if ls.all (fun n => m.present core n) then .present else .absent

/-- Start the fill of a mapped absent line (R186). -/
def Mem.startFill (m : Mem) (core line : Nat) : Mem :=
  let l := m.lineOf core line
  if l.mapped.isSome && !l.present && l.writers.isEmpty then m.setLine { l with filling := true } else m

/-- The stash offset of a segment offset (R63). -/
def Ctx.stashOff (x : Ctx) (a : Acc) : Nat := (x.g.seg 1).1.toNat + a.off

/-- The stash lines that an access touches. -/
def Ctx.accLines (x : Ctx) (n : Nat) (a : Acc) : List Nat := linesOf (x.stashOff a) n

/-- The fills of some lines are started and the group waits for them (R186; log 19). -/
def Ctx.waitFill (x : Ctx) (n : Nat) (accs : List Acc) (lines : List Nat) : Res :=
  let lanes (ln : Nat) : DWord := (accs.filter (fun a => (x.accLines n a).contains ln)).foldl (fun m a => m ||| a.mask) 0
  .hold ({ x.s with mem := lines.foldl (fun m ln => m.startFill x.g.core ln) x.s.mem }.modGroup x.g.gid (fun g =>
    { g with hold := .fill x.g.core (lines.map (fun ln => (ln, lanes ln))) }))

/-- Older accesses of the group to absent lines share a line with a new access (R181, R186). -/
def Ctx.behind (x : Ctx) (n : Nat) (accs : List Acc) : Bool :=
  let ls := accs.flatMap (x.accLines n)
  let pend := x.g.outs.flatMap (fun o => match o.src with
    | .stashLoad _ f as _ _ => as.flatMap (fun a => linesOf a.2 f.bytes)
    | .stashAtom _ op _ as _ _ _ => as.flatMap (fun a => linesOf a.2.1 op.bytes)
    | _ => [])
  let held := (x.s.mem.held.filter (fun h => h.gid == x.g.gid)).flatMap (fun h => linesOf h.addr h.bytes.length)
  (pend ++ held).any (fun n => ls.contains n)

/-- Physical ranges of the mapped words of a stash range, for races (R182, R185). -/
def Ctx.stashParts (x : Ctx) (n : Nat) (accs : List Acc) : List (DWord × Nat × Nat × Nat) :=
  accs.flatMap (fun a => (List.range n).filterMap (fun i =>
    match x.s.mem.mappedAt x.g.core (x.stashOff a + i) with
    | some (l, va) => if l.repl then none else some (a.mask, va, l.pa + (x.stashOff a + i) % 128, 1)
    | none => none))

/-- The deferred-error trap of reads of poisoned stash words (R318). -/
def Ctx.stashPoisonTrap (x : Ctx) (n : Nat) (accs : List Acc) : Option Trap :=
  match accs.filterMap (fun a => (x.s.stashBad x.g.core (x.stashOff a) n).map (fun w => (a.mask, w))) with
  | [] => none
  | h :: r => some ⟨11, 1, (h :: r).foldl (fun m e => m ||| e.1) 0, BitVec.ofNat 64 h.2, 0, 0, 0⟩

/-- The line of a stash offset that is mapped to a REPL page, with the global address (R272). -/
def State.stashRepl (s : State) (core off : Nat) : Option (Line × Nat) := (s.mem.mappedAt core off).filter (fun e => e.1.repl)

/-- The attribute page fault of an atomic or a RED through a line that is mapped to a REPL page (R272, R314). -/
def State.replFault (s : State) (core : Nat) (acc : Access) (e : Line × Nat) : PageFault :=
  ⟨2, acc, s.levelAt core e.1.vi e.2, false, chipOf e.2⟩

/-- The page fault of accesses of n bytes through present mapped lines: the attribute fault of an atomic or a RED on a REPL page (R272),
or that of a read whose home is out of reach (R314, R323). -/
def Ctx.stashFault (x : Ctx) (acc : Access) (atomic : Bool) (n : Nat) (accs : List Acc) : Option Trap :=
  pageTrap (accs.filterMap (fun a =>
    let off := x.stashOff a
    if !(x.accLines n a).all (x.s.mem.present x.g.core) then none
    else match (if atomic then x.s.stashRepl x.g.core off else none) with
      | some e => some (a.mask, e.2, x.s.replFault x.g.core acc e)
      | none => if acc = .write then none
        else (x.s.stashLost x.g.core off n).map (fun e =>
          (a.mask, e.1, ⟨5, acc, x.s.levelAt x.g.core x.t.vi e.1, decide (2 ^ 64 ≤ e.2), chipOf e.1⟩))))

/-- Earlier posted writes of a group to words that n bytes at a stash offset are mapped to, REDs and stores to other chips, are performed
before the group reaches them through the stash (R40, R195, R260, R265). -/
def State.redsAlias (s : State) (gid key core off n : Nat) : State :=
  let meets (pa len : Nat) : Bool := (List.range n).any (fun i =>
    match s.mem.mappedAt core (off + i) with
    | some (l, _) => !l.repl && overlap pa len (l.pa + (off + i) % 128) 1
    | none => false)
  (s.performReds (fun r => r.gid == gid && decide (r.key < key) && meets r.pa r.op.bytes)).deliverWhere
    (fun q => q.gid == gid && decide (q.key < key) && meets (remoteKey q.vi q.va) q.bytes.length)

/-- A line that the Lens of a team has still to read is about to become present, its global line at a home: what the team has posted to
it goes first, so that it changes no present line (R226). -/
def State.settleLine (s : State) (core line home : Nat) : State :=
  let team (gid : Nat) : Bool := s.arrays.any (fun e => e.stage == .accepted && e.toRead.contains (core, line)
    && (s.group? gid).any (fun g => g.task == e.task))
  if !s.lensPending core line then s
  else (s.performReds (fun r => overlap r.pa r.op.bytes home 128 && team r.gid)).deliverWhere
    (fun q => overlap (remoteKey q.vi q.va) q.bytes.length home 128 && team q.gid)

/-- Must the group's writes to located accesses wait for the Lens (R226)? -/
def Ctx.lensBlocks (x : Ctx) (ls : List Located) : Bool :=
  ls.any (fun k => k.parts.any (fun p => x.s.lensWaits x.t.uid (if p.2.2.remote then remoteKey x.t.vi p.1 else p.2.2.pa) p.2.1))

/-- An atomic operation on a present stash range (R194): on a mapped line the word is registered to the stash. -/
def State.stashAtomAt (s : State) (gid core : Nat) (op : AtomVar) (off opnd new : Nat) : State × Nat :=
  let old := match s.mem.mappedAt core off with
    | some (l, _) => leNat (s.mem.read (l.pa + off % 128) op.bytes)
    | none => leNat (s.mem.stash.read (stashKey core off) op.bytes)
  (s.stashWrite gid false core off (leBytes op.bytes (atomApply op old opnd new)), old)

/-- A RED on a present stash range (R195, R257); it is lost and counted as a store is (R274). -/
def State.stashRedAt (s : State) (gid core : Nat) (op : AtomVar) (off opnd : Nat) : State :=
  match s.stashLost core off op.bytes, s.mem.mappedAt core off with
  | some (va, pa), _ => s.modGroup gid (fun g => g.countStore (decide (pa < 2 ^ 64)) false va s.fresh)
  | none, some (l, _) =>
    let pa := l.pa + off % 128
    let s1 := s.redAt op pa opnd
    { s1 with mem := (wordParts pa (List.replicate op.bytes 0)).foldl (fun m p => m.renew core p.1) s1.mem }
  | none, none => (s.stashAtomAt gid core op off opnd 0).1

/-- The opcode of the load that a form stands for (R188). -/
def LoadForm.opcode (f : LoadForm) : Nat :=
  0x100 + (match f.bytes with | 1 => 0 | 2 => 2 | 4 => 4 | 8 => 5 | _ => 6) + (if f.sx then 1 else 0)

/-- Apply one deferred access of a core whose lines have become present (R186). Poison that it meets raises the deferred-error
trap at the group's next clause boundary, since the group has gone on (R303, R318; log 56). -/
def State.drainPend (s : State) (gid : Nat) (o : Pend) : State :=
  let land (t : State) (ws : List RegWrite) : State :=
    t.modGroup gid (fun g => { g with outs := modWhere g.outs (fun q => q.key == o.key) (fun q => { q with writes := ws, src := .ready }) })
  let poisoned (op w : Nat) (ls : List Nat) : State :=
    (land s []).modGroup gid (fun g => { g with boundary := g.boundary ++ [⟨11, 1, op, maskOf 64 (fun i => ls.contains i), BitVec.ofNat 64 w, 0⟩] })
  match o.src with
  | .stashLoad core f accs uni lanes =>
    let bad (a : Nat × Nat) : Option Nat := s.stashBad core a.2 f.bytes
    match accs.findSome? bad with
    | some w => poisoned f.opcode w (if uni then lanes else (accs.filter (fun a => (bad a).isSome)).map (fun a => a.1))
    | none =>
      let ranges : List StashRange := accs.map (fun a => (a.2, f.bytes))
      let s1 := ranges.foldl (fun t r => t.redsAlias gid o.key core r.1 r.2) s
      let (t, ws) := accs.foldl (fun (acc : State × List RegWrite) a =>
        let (t, bs) := acc.1.stashRead f.plain core ranges a.2 f.bytes
        (t, acc.2 ++ loadWrites f (if uni then lanes else [a.1]) bs)) (s1, [])
      land t ws
  | .stashAtom core op f accs uni lanes _ =>
    let bad (a : Nat × Nat × DWord × DWord) : Option Nat := s.stashBad core a.2.1 op.bytes
    match accs.findSome? bad with
    | some w => poisoned (0x140 + op.code) w (if uni then lanes else (accs.filter (fun a => (bad a).isSome)).map (fun a => a.1))
    | none =>
      let (t, ws) := accs.foldl (fun (acc : State × List RegWrite) a =>
        let (t, old) := (acc.1.redsAlias gid o.key core a.2.1 op.bytes).stashAtomAt gid core op a.2.1 a.2.2.1.toNat a.2.2.2.toNat
        (t, acc.2 ++ loadWrites f (if uni then lanes else [a.1]) (leBytes op.bytes old))) (s, [])
      land t ws
  | _ => s

/-- The opcode of a deferred access (R305). -/
def Deferred.opcode (d : Deferred) : Nat :=
  match d.pend, d.held with
  | some o, _ => (match o.src with
    | .stashLoad _ f _ _ _ => f.opcode
    | .stashAtom _ op _ _ _ _ _ => 0x140 + op.code
    | _ => 0)
  | none, some h => (match h.red with
    | some op => 0x158 + op.code
    | none => 0x108 + (match h.bytes.length with | 1 => 0 | 2 => 1 | 4 => 2 | 8 => 3 | _ => 4))
  | none, none => 0

/-- The stash offsets at which a deferred ATOM or RED acts; none for a load or a store. -/
def Deferred.atomics (d : Deferred) : List Nat :=
  match d.pend, d.held with
  | some o, _ => (match o.src with | .stashAtom _ _ _ as _ _ _ => as.map (fun a => a.2.1) | _ => [])
  | none, some h => if h.red.isSome then [h.addr] else []
  | none, none => []

/-- The lanes of a deferred access that wait for a line (R306). -/
def Deferred.lanesAt (d : Deferred) (line : Nat) : DWord :=
  match d.pend, d.held with
  | some o, _ =>
    let mask (uni : Bool) (lanes : List Nat) (n : Nat) (as : List (Nat × Nat)) : DWord :=
      if uni then maskOf 64 lanes.contains else maskOf 64 (fun i => as.any (fun a => a.1 == i && (linesOf a.2 n).contains line))
    (match o.src with
    | .stashLoad _ f as uni lanes => mask uni lanes f.bytes as
    | .stashAtom _ op _ as uni lanes _ => mask uni lanes op.bytes (as.map (fun a => (a.1, a.2.1)))
    | _ => 0)
  | none, some h => h.lanes
  | none, none => 0

/-- A deferred access takes a page fault at its group's next clause boundary, since the group has gone on, and stays deferred (R186;
log 32). A group takes one trap for an address, with the lanes of all its accesses that meet it and the opcode of the oldest. -/
def State.deferFault (s : State) (d : Deferred) (lanes : DWord) (va : Nat) (f : PageFault) : State :=
  let same (b : Boundary) : Bool := b.cls == 4 && b.addr == BitVec.ofNat 64 va
  s.modGroup d.gid (fun g =>
    { g with boundary :=
        if g.boundary.any same then g.boundary.map (fun b => if same b then { b with lanes := b.lanes ||| lanes } else b)
        else g.boundary ++ [⟨4, f.sub, d.opcode, lanes, BitVec.ofNat 64 va, f.info⟩] })

/-- The REPL page to which a line has been mapped while an ATOM or RED waited for it (R272). -/
def Deferred.replAt (d : Deferred) (s : State) (core : Nat) : Option (Line × Nat) := d.atomics.findSome? (s.stashRepl core)

/-- Such an ATOM or RED takes the attribute page fault, once its group is in no handler (R272). -/
def State.refuseDeferred (s : State) (d : Deferred) (core : Nat) (e : Line × Nat) : State :=
  if (s.group? d.gid).all (fun g => g.gsrH) then s
  else s.deferFault d (d.lanesAt e.1.line) e.2 (s.replFault core (if d.pend.isSome then .rmw else .write) e)

/-- Is a group's team paired? -/
def State.pairedGroup (s : State) (gid : Nat) : Bool := ((s.group? gid).bind (fun g => s.task? g.task)).any Task.paired

/-- Apply one deferred access. -/
def State.applyDeferred (s : State) (d : Deferred) : State :=
  match d.pend, d.held with
  | some o, _ => s.drainPend d.gid o
  | none, some h =>
    let s1 := { s with mem := { s.mem with held := s.mem.held.filter (fun q => q.key != h.key) } }
    let s1 := s1.redsAlias h.gid h.key h.core h.addr h.bytes.length
    let s2 := match h.red with
      | none => s1.stashWrite h.gid h.plain h.core h.addr h.bytes
      | some op => s1.stashRedAt h.gid h.core op h.addr (leNat h.bytes)
    match h.rel with
    | none => s2
    | some (sc, _) =>
      let words := (List.range h.bytes.length).filterMap (fun i => (s2.mem.mappedAt h.core (h.addr + i)).map (fun l => wordOf (l.1.pa + (h.addr + i) % 128)))
      { s2 with mem := { s2.mem with regs := s2.mem.regs.map (fun r =>
          if r.owner = ⟨.stash, h.core⟩ && words.contains r.pa then r.release ⟨l1Of h.core, sc, s.pairedGroup h.gid⟩ else r) } }
  | none, none => s

/-- An access that still waits starts the fill of a line that has been mapped meanwhile (R186). -/
def State.fillWaited (s : State) (core : Nat) : State :=
  { s with mem := ((s.deferred core).flatMap (fun d => d.lines)).foldl (fun m n => m.startFill core n) s.mem }

/-- When a line has become present: the deferred accesses that wait for nothing more are applied, in order; one that
still waits holds back later ones of its group that share a line (R186). An ATOM or RED on a line that is now mapped to a REPL page
faults instead, and waits on (R272). -/
def State.drainStash (s : State) (core : Nat) : State :=
  State.fillWaited ((s.deferred core).foldl (fun (acc : State × List (Nat × Nat)) d =>
    let waits (u : State) : State × List (Nat × Nat) := (u, acc.2 ++ d.lines.map (fun n => (d.gid, n)))
    if d.lines.all (fun n => acc.1.mem.present core n && !acc.1.lensHolds d core n) && !d.lines.any (fun n => acc.2.contains (d.gid, n))
    then (match d.replAt acc.1 core with
      | some e => waits (acc.1.refuseDeferred d core e)
      | none => (acc.1.applyDeferred d, acc.2))
    else waits acc.1) (s, [])).1 core

/-- The accesses, by their lines, that are made now, and those that wait: a line of theirs is absent, or shared with a lower lane's
access that waits, which comes first (R180, R186). -/
def Ctx.here {α : Type} (x : Ctx) (lines : α → List Nat) (accs : List α) : List α × List α :=
  let r := accs.foldl (fun (acc : List α × List α × List Nat) a =>
    if (lines a).all (fun ln => x.s.mem.present x.g.core ln && !acc.2.2.contains ln) then (acc.1 ++ [a], acc.2)
    else (acc.1, acc.2.1 ++ [a], acc.2.2 ++ lines a)) ([], [], [])
  (r.1, r.2.1)

/-- Must an access that writes present lines wait: for older accesses of its group that wait for a line of its own, or for the
Lens to read a line that it would change (R181, R226)? -/
def Ctx.stashWaits (x : Ctx) (n : Nat) (accs : List Acc) : Bool :=
  x.behind n accs || (accs.flatMap (x.accLines n)).any (fun ln => x.s.lensPending x.g.core ln)

/-- Leave a load of absent lines outstanding (R186). -/
def Ctx.deferLoad (x : Ctx) (f : LoadForm) (uni : Bool) (accs : List Acc) : State :=
  x.outstanding x.s f.names false [] 0
    (.stashLoad x.g.core f (accs.map (fun a => (a.lane, x.stashOff a))) uni x.lanes)

/-- Hold stores or REDs to absent lines in the core (R186). -/
def Ctx.holdStores (x : Ctx) (l : List (Acc × List Byte)) (red : Option AtomVar) (plain : Bool) : State :=
  l.foldl (fun t e =>
    let m := { t.mem with held := t.mem.held ++ [⟨t.nextId, x.g.gid, x.g.core, x.stashOff e.1, e.2, red, none, plain, e.1.mask⟩] }
    { t with mem := m, nextId := t.nextId + 1 }) x.s

/-! ### Releases -/

/-- The words that commands which still run have written. -/
def State.busyWords (s : State) : List Nat := s.cmds.flatMap (fun c => c.words)

/-- A result of an atomic that waits for a stash line (R186). -/
def Pend.isAtom (o : Pend) : Bool := match o.src with | .stashAtom .. => true | _ => false

/-- The atomics of a group that wait for stash lines are covered by its release (R186, R226). -/
def State.releaseAtoms (s : State) (gid : Nat) : State :=
  if (s.group? gid).any (fun g => g.outs.any Pend.isAtom) then
    s.modGroup gid (fun g => { g with outs := g.outs.map (fun o => match o.src with
      | .stashAtom c op f as u ls rel => { o with src := .stashAtom c op f as u ls (some (rel.getD s.nextId)) }
      | _ => o) })
  else s

/-- A release at a scope by a group (R254, R198): its REDs are performed, its stores to other chips delivered, those that its core or
its commands made brought to the replicas in the scope (R272), and the words of its L1 and stash agents, with what commands of its
core left in other stashes, become RELEASED (R189). -/
def State.release (s : State) (g : Group) (t : Task) (sc : Scope) : State :=
  let s1 := (s.performReds (fun r => r.gid == g.gid)).deliverWhere (fun q => q.gid == g.gid)
  let s2 := (if sc = .pkg ∨ sc = .sys then s1.flushOf g.core g.gid else s1).releaseAtoms g.gid
  let m := s2.mem.releaseCore g.core sc t.paired s2.busyWords
  { s2 with mem := { m with held := modWhere m.held (fun h => h.gid == g.gid) (fun h =>
      { h with rel := some (match h.rel with | some o => (widerScope o.1 sc, o.2) | none => (sc, s.nextId)) }) } }

/-- Must a later access of the group wait for one that is still deferred: its line has been mapped since, so that it may meet
the same word of memory (R40, R260); and for a release, an acquire or an atomic, a line of it is present, so that it only
waits for the Lens or for another line (R261, R262)? -/
def Ctx.orderWaits (x : Ctx) (sync : Bool) : Bool :=
  (x.s.deferred x.g.core).any (fun d => d.gid == x.g.gid && d.lines.any (fun n =>
    (x.s.mem.lineOf x.g.core n).mapped.isSome || (sync && x.s.mem.present x.g.core n)))

/-- The group tries the instruction again later. -/
def Ctx.again (x : Ctx) : Res := .hold (x.s.modGroup x.g.gid (fun g => { g with hold := .again }))

end Sys2Proof.Machine
end

