-- ==== Sys2Proof/Machine/MemoryInstr.lean ====
section
/-! DEFINITION. Family 4: loads, stores, prefetches and the mapping of stash lines (R188 to R192). -/
namespace Sys2Proof.Machine

/-- A uniform operand of a format Y or Z word. -/
def uName (pos : Nat) (n : BitVec 6) : Named := ⟨pos, .op (.s n) 1, true⟩

/-- The value of a uniform operand. -/
def Ctx.u (x : Ctx) (n : BitVec 6) : Nat := (x.g.sget n.toNat).toNat

/-- Reads of the S segment (R185, R186). -/
def Ctx.loadStash (x : Ctx) (f : LoadForm) (uni : Bool) (accs : List Acc) : Res :=
  let n := f.bytes
  match x.s.mem.viewLines x.g.core (accs.flatMap (x.accLines n)) with
  | .fill lines => x.waitFill n accs lines
  | .absent => .ok (x.deferLoad f uni accs)
  | .present =>
    if x.behind n accs then x.again
    else match x.stashFault .read false n accs with
    | some tr => .trap tr
    | none =>
      let race := if f.plain && x.l.race then raceTrap x.s x.g.gid ⟨.stash, x.g.core⟩ false (x.stashParts n accs) else none
      match race with
      | some tr => .trap tr
      | none => match x.stashPoisonTrap n accs with
        | some tr => .trap tr
        | none =>
          let ranges : List StashRange := accs.map (fun a => (x.stashOff a, n))
          let s1 := ranges.foldl (fun t r => t.redsAlias x.g.gid x.s.nextId x.g.core r.1 r.2) x.s
          let (s', ws) := accs.foldl (fun (acc : State × List RegWrite) a =>
            let (t, bs) := acc.1.stashRead f.plain x.g.core ranges (x.stashOff a) n
            (t, acc.2 ++ loadWrites f (a.lanes x.g.width) bs)) (s1, [])
          .ok (x.outstanding s' f.names false ws 0 .ready)

/-- Does an LDA or STL act as such: on an S access, only where a line of it is mapped (R189)? -/
def Ctx.syncs (x : Ctx) (seg n : Nat) (accs : List Acc) : Bool :=
  seg != 1 || accs.any (fun a => (x.accLines n a).any (fun ln => (x.s.mem.lineOf x.g.core ln).mapped.isSome))

/-- LD and LDA (R188, R189): a plain form is LD. -/
def Ctx.load (x : Ctx) (l : LArgs) (f0 : LoadForm) : Res :=
  let accs := x.accs l
  let seg := l.seg.toNat
  let f := { f0 with plain := f0.plain || !x.syncs seg f0.bytes accs }
  match x.segFault seg f.bytes false (!f0.plain) accs with
  | some tr => .trap tr
  | none =>
    if accs.isEmpty then .ok x.s
    else if x.orderWaits (!f.plain) then x.again
    else if seg = 1 then x.loadStash f l.aU accs
    else match x.locate seg f.bytes .read false accs with
      | .error tr => .trap tr
      | .ok ls =>
        match (if f.plain && x.l.race then raceTrap x.s x.g.gid x.agent false (localParts ls) else none) with
        | some tr => .trap tr
        | none => match memPoison x.s x.agent x.t.vi ls with
          | some tr => .trap tr
          | none =>
            let (s', ws) := x.readAll x.s f ls
            .ok (x.outstanding s' f.names false ws 0 .ready)

/-- The data registers of a load. -/
def loadForm (sz : Size) (sx plain : Bool) (l : LArgs) : LoadForm := ⟨sz.bytes, sx, plain, l.tU, if l.tU then l.t.toNat % 64 else l.t.toNat⟩

/-- Writes of the S segment (R185, R186): lines that are present are written now, absent ones later. -/
def Ctx.putStash (x : Ctx) (s0 : State) (n : Nat) (plain : Bool) (accs : List Acc) (data : Acc → List Byte) : Res :=
  let (now, later) := x.here (x.accLines n) accs
  match x.s.mem.viewLines x.g.core (accs.flatMap (x.accLines n)) with
  | .fill lines => x.waitFill n accs lines
  | _ =>
    if x.stashWaits n now then x.again
    else
      match (if plain && x.l.race then raceTrap x.s x.g.gid ⟨.stash, x.g.core⟩ true (x.stashParts n now) else none) with
      | some tr => .trap tr
      | none =>
        let s1 := now.foldl (fun t a =>
          (t.redsAlias x.g.gid x.s.nextId x.g.core (x.stashOff a) n).stashWrite x.g.gid plain x.g.core (x.stashOff a) (data a)) s0
        .ok ({ x with s := s1 }.holdStores (later.map (fun a => (a, data a))) none plain)

/-- ST and STL (R188, R189): `rel` is STL's release scope. -/
def Ctx.put4 (x : Ctx) (l : LArgs) (n : Nat) (rel0 : Option Scope) : Res :=
  let accs := x.accs l
  let seg := l.seg.toNat
  let rel := rel0.filter (fun _ => x.syncs seg n accs)
  let plain := rel.isNone
  let released (s : State) : State := match rel with | some sc => s.release x.g x.t sc | none => s
  let data (a : Acc) : List Byte := x.dataBytes l n ((a.lanes x.g.width).getLastD 0)
  match x.segFault seg n true rel0.isSome accs with
  | some tr => .trap tr
  | none =>
    if accs.isEmpty then .ok x.s
    else if x.orderWaits (!plain) then x.again
    else if seg = 1 then x.putStash (released x.s) n plain accs data
    else match x.locate seg n .write false accs with
      | .error tr => .trap tr
      | .ok ls =>
        match (if plain && x.l.race then raceTrap x.s x.g.gid x.agent true (localParts ls) else none) with
        | some tr => .trap tr
        | none =>
          if x.lensBlocks ls then x.again else .ok (ls.foldl (fun t k => x.writeAt t plain k (data k.acc)) (released x.s))

/-- LD (R188). -/
def execLd (g : Guard) (sz : Size) (sx : Bool) (l : LArgs) (s : State) : Host.Outcome State Fault Refusal :=
  issue (.ld g sz sx l) noDyn (fun _ => [dataName l (vregsOf sz.bytes) false, addrName l])
    (fun x => x.load l (loadForm sz sx true l)) s

/-- ST (R188). -/
def execSt (g : Guard) (sz : Size) (l : LArgs) (s : State) : Host.Outcome State Fault Refusal :=
  issue (.st g sz l) noDyn (fun _ => [dataName l (vregsOf sz.bytes) true, addrName l]) (fun x => x.put4 l sz.bytes none) s

/-- LDA (R189): an acquire load through the registry. -/
def execLda (g : Guard) (sz : Size) (sx : Bool) (sc : Scope) (l : LArgs) (s : State) : Host.Outcome State Fault Refusal :=
  issue (.lda g sz sx sc l) noDyn (fun _ => [dataName l (vregsOf sz.bytes) false, addrName l])
    (fun x => x.load l (loadForm sz sx false l)) s

/-- STL (R189): a release at its scope, then the store. -/
def execStl (g : Guard) (sz : Size) (sc : Scope) (l : LArgs) (s : State) : Host.Outcome State Fault Refusal :=
  issue (.stl g sz sc l) noDyn (fun _ => [dataName l (vregsOf sz.bytes) true, addrName l])
    (fun x => x.put4 l sz.bytes (some sc)) s

/-- The prefetch of one lane's line (R191): what would fault is dropped. -/
def Ctx.prefLine (x : Ctx) (l2 : Bool) (seg : Nat) (s : State) (a : Acc) : State :=
  if (x.g.seg seg).2.toNat ≤ a.off then s
  else if seg = 1 then { s with mem := s.mem.startFill x.g.core (x.stashOff a / 128) }
  else match x.locateOne seg 1 .read false a with
    | .error _ => s
    | .ok k =>
      k.parts.foldl (fun t p =>
        if l2 || p.2.2.remote || p.2.2.repl || (t.mem.poisonIn (alignDown p.2.2.pa 128) 128).isSome then t
        else t.fillLine x.g.core x.t.vi p.1 ((t.viOf x.t.vi).regionOf p.1) p.2.2.pa) s

/-- PREF (R191): the line into the L1. -/
def execPref (g : Guard) (l : LArgs) (s : State) : Host.Outcome State Fault Refusal :=
  issue (.pref g l) noDyn (fun _ => [addrName l]) (fun x => .ok ((x.accs l).foldl (x.prefLine false l.seg.toNat) x.s)) s

/-- PREF.l2 (R191): the line into its home slice, which changes no value. -/
def execPrefL2 (g : Guard) (l : LArgs) (s : State) : Host.Outcome State Fault Refusal :=
  issue (.prefL2 g l) noDyn (fun _ => [addrName l]) (fun x => .ok ((x.accs l).foldl (x.prefLine true l.seg.toNat) x.s)) s

/-- The engine-fault trap raised at issue, with the completion word it reports (R207, R208). -/
def engineTrap (sub : Nat) : Trap := ⟨7, sub, 0, 0, BitVec.ofNat 64 (256 * sub + 1), 0, 0⟩

/-- Count write-backs that were lost or refused, words of one line, in a delivery record (R196, R274). DESIGN CHOICE (log 71): each word
counts, where the spec counts stores. -/
def Group.countWords (g : Group) (pkg : Bool) (lost refused va now : Nat) : Group :=
  let h := (List.range lost).foldl (fun k _ => k.countStore pkg false va now) g
  (List.range refused).foldl (fun k _ => k.countStore pkg true va now) h

/-- Map or unmap one stash line (R192): a mapped line is the global line that holds the address (log 26). Its dirty words are
written back, and those that are lost count against the group (R196). A line that is mapped loses what it held, poison too (R318). -/
def State.mapLine (s : State) (gid core vi line : Nat) (target : Option Nat) : State :=
  let l := s.mem.lineOf core line
  let key := stashKey core (128 * line)
  let (s1, lost, refused) := { s with mem := if l.mapped.isSome && target.isNone then s.mem.keepLine l else s.mem }.flushLine core line
  let s2 := s1.modGroup gid (fun g => g.countWords (decide (l.pa < 2 ^ 64)) lost refused (l.mapped.getD 0) s.fresh)
  let l1 := { l with vi := vi, unfinished := 0, filling := false, whole := false }
  let m := match target with
    | none => s2.mem.setLine { l1 with mapped := none, present := true }
    | some va => { s2.mem with stashPoison := s2.mem.stashPoison.filter (fun p => !(decide (key ≤ p) && decide (p < key + 128))) }.setLine
        { l1 with mapped := some (alignDown va 128), pa := 2 ^ 80, present := false }
  { s2 with mem := m }.lineBack core line

/-- Must STMAP wait at a line: for an engine command that has bytes outstanding in it (R192), or for the Lens (R226)? -/
def State.mapWaits (s : State) (core line : Nat) : Bool :=
  !(s.mem.lineOf core line).writers.isEmpty || (s.mem.present core line && s.lensPending core line)

/-- STMAP's lines from number i, n of them, one after another (R192): the state, and the line at which it waits. -/
def State.mapLines (gid core vi first : Nat) (target : Nat → Option Nat) : Nat → Nat → State → State × Option Nat
  | 0, _, s => (s, none)
  | n + 1, i, s =>
    if s.mapWaits core (first + i) then (s, some i)
    else State.mapLines gid core vi first target n (i + 1) (s.mapLine gid core vi (first + i) (target i))

/-- How many lines a waiting STMAP has changed (R192). -/
def Hold.mapped : Hold → Nat
  | .stmap done | .remap done => done
  | _ => 0

/-- STMAP (R192). DESIGN CHOICE (log 71): where both ranges exceed their limits the fault names S. -/
def Ctx.stmap (x : Ctx) (ua ub uc : Nat) : Res :=
  let count := fld uc 0 12
  let unmap := fld uc 16 1 == 1
  let reserved := decide (fld uc 12 4 ≠ 0) || decide (fld uc 17 47 ≠ 0)
  let sl := x.g.seg 1
  let gl := x.g.seg 0
  if !x.any then .ok x.s
  else if count = 0 ∨ 2048 < count ∨ reserved ∨ ua % 128 ≠ 0 ∨ ub % 128 ≠ 0 then .trap (engineTrap 1)
  else if sl.2.toNat < ua + 128 * count then .trap ⟨2, 0, x.act, BitVec.ofNat 64 ua, 1, 0, 0⟩
  else if !unmap && decide (gl.2.toNat < ub + 128 * count) then .trap ⟨2, 0, x.act, BitVec.ofNat 64 ub, 0, 0, 0⟩
  else
    let first := (sl.1.toNat + ua) / 128
    let target (i : Nat) : Option Nat := if unmap then none else some ((gl.1.toNat + ub + 128 * i) % 2 ^ 64)
    let done := x.g.hold.mapped
    match State.mapLines x.g.gid x.g.core x.t.vi first target (count - done) done x.s with
    | (s1, none) => .ok (s1.drainStash x.g.core)
    | (s1, some i) => .hold ((s1.drainStash x.g.core).modGroup x.g.gid (fun g => { g with hold := .stmap i }))

/-- STMAP (R192). -/
def execStmap (g : Guard) (uc ub ua : BitVec 6) (s : State) : Host.Outcome State Fault Refusal :=
  issue (.stmap g uc ub ua) noDyn (fun _ => [uName 1 ua, uName 2 ub, uName 3 uc])
    (fun x => x.stmap (x.u ua) (x.u ub) (x.u uc)) s

end Sys2Proof.Machine
end

