-- ==== Sys2Proof/Machine/Sync.lean ====
section
/-! DEFINITION. Fences, acquires and releases, monitors, WAIT, barriers and event counters (R41, R45, R196 to R204). -/
namespace Sys2Proof.Machine

/-- Has the group a write that still waits for an absent stash line (R186)? -/
def Ctx.writesHeld (x : Ctx) : Bool :=
  x.s.mem.held.any (fun h => h.gid == x.g.gid)
    || x.g.outs.any Pend.isAtom

/-- The status word of FENCE (R196). -/
def fenceStatus (d : Delivery) : DWord :=
  BitVec.ofNat 64 (bit (d.lost == 0 && d.refused == 0) + 2 * satAt 63 d.lost + 128 * satAt 63 d.refused + alignDown d.page 8192)

/-- FENCE (R196): earlier writes are delivered at the scope, a release is performed, and the sets are reported. -/
def execFence (g : Guard) (sc : Scope) (ud : BitVec 6) (s : State) : Host.Outcome State Fault Refusal :=
  issue (.fence g sc ud) noDyn (fun _ => [⟨0, .op (.s ud) 1, false⟩]) (fun x =>
    if !x.any then .ok x.s
    else if x.writesHeld || x.orderWaits true then x.again
    else
      let s2 := x.s.release x.g x.t sc
      let h := (s2.group? x.g.gid).getD x.g
      let d : Delivery := match sc with
        | .grp | .die => Delivery.none
        | .pkg => h.delPkg
        | .sys => h.delPkg.sum h.delOther
      let s3 := s2.modGroup x.g.gid (fun k =>
        { k with delPkg := if sc = .pkg ∨ sc = .sys then Delivery.none else k.delPkg
                 delOther := if sc = .sys then Delivery.none else k.delOther })
      .ok (x.outstanding s3 [.s ud.toNat] false [.s ud.toNat (fenceStatus d)] 0 .ready)) s

/-- ACQ (R197). -/
def execAcq (g : Guard) (sc : Scope) (mask : BitVec 16) (s : State) : Host.Outcome State Fault Refusal :=
  issue (.acq g sc mask) noDyn (fun _ => []) (fun x =>
    if !x.any then .ok x.s else if x.orderWaits true then x.again else .ok (x.s.acquireBy x.g x.t sc mask)) s

/-- A release by the group, then the rest of an instruction: it waits while an earlier access of the group must come first
(R198, R261). -/
def Ctx.afterRelease (x : Ctx) (sc : Scope) (f : State → Res) : Res :=
  if x.orderWaits true then x.again else f (x.s.release x.g x.t sc)

/-- REL (R198). -/
def execRel (g : Guard) (sc : Scope) (s : State) : Host.Outcome State Fault Refusal :=
  issue (.rel g sc) noDyn (fun _ => []) (fun x => if x.any then x.afterRelease sc .ok else .ok x.s) s

/-! ### Monitors -/

/-- Does a condition of a WAIT name a monitor (R201)? -/
def condMonitor (c : BitVec 16) (k : Nat) : Bool := c.toNat / 8192 == 0 && c.toNat % 4 == k

/-- Arm a monitor (R199, R200): the check at arming counts, in polling mode too. Lanes that wait on it take it as not fired from now (R202). -/
def Ctx.arm (x : Ctx) (s : State) (k : Nat) (m : Monitor) (word : Word) (overflow : Bool) : Res :=
  let armed : Monitor := { m with polling := overflow, hit := monHolds m.cmp word m.value }
  .ok (s.modGroup x.g.gid (fun g =>
    { g with mon := g.mon.set k armed
             parks := g.parks.map (fun p => if p.conds.any (fun c => condMonitor c k) then { p with met := false } else p)
             boundary := if overflow then g.boundary ++ [⟨9, 0, 0, 0, BitVec.ofNat 64 m.va, BitVec.ofNat 64 k⟩] else g.boundary }))

/-- MONW's effect: an unmapped stash word is watched by the core, any other word through the registry (R199). -/
def Ctx.monw (x : Ctx) (k : Nat) (cmp : MonCmp) (l : LArgs) : Res :=
  let seg := l.seg.toNat
  let v : Word := BitVec.ofNat 32 (x.g.sget (l.t.toNat % 64)).toNat
  let accs := x.accs l
  let new (stash : Bool) (addr va : Nat) : Monitor := ⟨true, false, false, false, stash, addr, va, cmp, v⟩
  match x.segFault seg 4 false true accs, accs with
  | some tr, _ => .trap tr
  | none, [] => .ok x.s
  | none, a :: _ =>
    if seg = 1 then
      let off := x.stashOff a
      match x.s.mem.viewLines x.g.core (x.accLines 4 a) with
      | .fill lines => x.waitFill 4 [a] lines
      | .absent => x.again
      | .present =>
        if x.behind 4 [a] || x.orderWaits true then x.again
        else match x.stashFault .rmw true 4 [a], x.stashPoisonTrap 4 [a], x.s.mem.mappedAt x.g.core off with
        | some tr, _, _ => .trap tr
        | none, some tr, _ => .trap tr
        | none, none, some (ln, va) =>
          let pa := ln.pa + off % 128
          let s1 := x.s.redsAlias x.g.gid x.s.nextId x.g.core off 4
          x.arm s1 k (new false pa va) (s1.mem.word pa) (Config.monitorRefused x.s.fresh)
        | none, none, none => x.arm x.s k (new true (stashKey x.g.core off) off) (BitVec.ofNat 32 (leNat (x.s.mem.stash.read (stashKey x.g.core off) 4))) false
    else if x.orderWaits true then x.again
    else match x.locate seg 4 .rmw true accs with
      | .error tr => .trap tr
      | .ok ls =>
        match memPoison x.s x.agent x.t.vi ls, ls.flatMap (fun q => q.parts) with
        | some tr, _ => .trap tr
        | none, [] => .ok x.s
        | none, p :: _ =>
          let s1 := (x.settlePart x.s p).noteTlb x.g.core x.t.vi p.1 p.2.2
          if p.2.2.remote then
            x.arm s1 k (new false (remoteKey x.t.vi p.1) p.1) (BitVec.ofNat 32 (leNat (s1.mem.remoteRead x.t.vi p.1 4))) (Config.monitorRefused x.s.fresh)
          else x.arm s1 k (new false p.2.2.pa p.1) (s1.mem.word p.2.2.pa) (Config.monitorRefused x.s.fresh)

/-- MONW (R199, R200). -/
def execMonw (g : Guard) (k : BitVec 2) (cmp : MonCmp) (l : LArgs) (s : State) : Host.Outcome State Fault Refusal :=
  issue (.monw g k cmp l) noDyn (fun _ => [dataName l 1 true, addrName l]) (fun x => x.monw k.toNat cmp l) s

/-! ### WAIT and BAR -/

/-- A status destination resolved in a lane (R201). -/
def Ctx.statusDst (x : Ctx) (d : Opnd) (lane : Nat) : StatusDst :=
  match d with
  | .v n => .v n.toNat
  | .ind _ k => .v (x.g.indReg k.toNat lane)
  | _ => .none

/-- The active lanes leave the clause at this instruction and take the clause after it (R35, R41). -/
def Ctx.leaveNext (x : Ctx) (g : Group) : Group := (g.arriveAt x.act x.c.nextStart).leave x.act

/-- Write a long-latency status in the active lanes. -/
def Ctx.statusNow (x : Ctx) (s : State) (d : Opnd) (st : Nat) : State :=
  x.outstanding s (x.outNames d 1) d.isInd (x.lanes.flatMap (fun l => x.laneWrites d l st)) 0 .ready

/-- The four conditions of a WAIT's operand (R201). -/
def condsOf (w : Nat) : List (BitVec 16) := (List.range 4).map (fun j => BitVec.ofNat 16 (fld w (16 * j) 16))

/-- Is a condition badly encoded (R201)? -/
def condBad (c : BitVec 16) : Bool :=
  let arg := c.toNat % 8192
  match c.toNat / 8192 with
  | 0 => decide (4 ≤ arg)
  | 1 => decide (512 ≤ arg) || decide (6 ≤ arg % 8)
  | 2 => decide (8 ≤ arg)
  | 3 => decide (2048 ≤ arg)
  | 4 => arg != 0
  | _ => true

/-- The kind of a condition. -/
def condKind (c : BitVec 16) : Nat := c.toNat / 8192

/-- The illegal uses of WAIT that its operand values show (R201): nothing is checked when no lane is active. DESIGN CHOICE (log 77): a c that
is not zero although no condition is of kind 4 is subcode 3. -/
def Ctx.waitBad (x : Ctx) (count : Nat) (a c : Opnd) : Option Nat :=
  let all := condsOf (x.src64 a 0)
  let used := all.take count
  if !x.any then none
  else if used.any condBad || (all.drop count).any (fun k => k != 0) then some 1
  else if used.any (fun k => condKind k == 4) == c.isZero then some 3
  else none

/-- WAIT's segment checks (R201): a line number, then a join-counter offset. DESIGN CHOICE (log 58): the spec gives no outcome for
an offset that is no multiple of 4; it raises the alignment subcode of R64. -/
def Ctx.waitSeg (x : Ctx) (used : List (BitVec 16)) (c : Opnd) : Option Trap :=
  let off := x.src64 c 0
  match used.find? (fun k => condKind k == 3 && decide ((x.g.seg 1).2.toNat ≤ 128 * (k.toNat % 2048))) with
  | some k => some ⟨2, 0, x.act, BitVec.ofNat 64 (128 * (k.toNat % 2048)), 1, 0, 0⟩
  | none =>
    if c.isZero then none
    else if (x.g.seg 0).2.toNat < off + 4 then some ⟨2, 0, x.act, BitVec.ofNat 64 off, 0, 0, 0⟩
    else if off % 4 ≠ 0 then some ⟨2, 2, x.act, BitVec.ofNat 64 off, 0, 0, 0⟩
    else none

/-- WAIT's effect (R41, R201): a join counter is read after the group's earlier writes to it (R40). -/
def Ctx.wait (x : Ctx) (all : Bool) (count : Nat) (d a b c : Opnd) : Res :=
  let used := (condsOf (x.src64 a 0)).take count
  let tmo := x.src b 0
  if !x.any then .ok x.s
  else match x.waitSeg used c with
    | some tr => .trap tr
    | none =>
      let acc : Acc := ⟨(x.lanes).getD 0 0, x.act, x.src64 c 0⟩
      let join : Except Trap (Option Nat × State) :=
        if c.isZero then .ok (none, x.s)
        else match x.locate 0 4 .read false [acc] with
          | .error tr => .error tr
          | .ok ls => match memPoison x.s x.agent x.t.vi ls with
            | some tr => .error tr
            | none => .ok ((ls.head?).map (fun k => k.va), x.settle x.s ls)
      if !c.isZero && x.orderWaits true then x.again
      else match join with
      | .error tr => .trap tr
      | .ok (jv, s0) =>
        let holds := if all then used.all (condHolds s0 x.g x.t jv) else used.any (condHolds s0 x.g x.t jv)
        let s1 := s0.modGroup x.g.gid x.leaveNext
        if holds then .ok (x.statusNow s1 d 0)
        else if tmo = 0 then .ok (x.statusNow s1 d 1)
        else
          let due : Option Nat := if tmo = 2 ^ 32 - 1 then none else some (x.s.tick.toNat + tmo)
          .ok (s1.modGroup x.g.gid (fun g => { g with parks := g.parks ++ x.lanes.map (fun l =>
            (⟨l, used, all, jv, due, x.statusDst d l, false, false, false, x.outNames d 1, d.isInd⟩ : Park)) }))

/-- WAIT (R201). -/
def execWait (g : Guard) (all : Bool) (count : BitVec 2) (d a b c : Opnd) (s : State) : Host.Outcome State Fault Refusal :=
  issueDyn (.wait g all count d a b c) (fun x => x.waitBad (count.toNat + 1) a c) (fun _ => namesA d [a, b, c])
    (fun x => x.wait all (count.toNat + 1) d a b c) s

/-- The lanes of a team that have not exited, by group number (R45). -/
def State.teamLive (s : State) (uid : Nat) : Store 64 :=
  (s.groups.filter (fun g => g.task == uid)).foldl (fun st g => st.set g.num g.live) []

/-- Lanes of a group arrive at a barrier (R45): the first arrival arms it. -/
def Barrier.arrive (b : Barrier) (expected : Store 64) (num : Nat) (m : DWord) : Barrier :=
  let c : Barrier := if b.armed then b else ⟨true, expected, []⟩
  { c with arrived := c.arrived.set num (c.arrived.get num ||| m) }

/-- The arrival of the active lanes (R203), in the state after a release at .grp. -/
def Ctx.arrive (x : Ctx) (k : Nat) (park : Option Opnd) (s1 : State) : State :=
  let live := s1.teamLive x.t.uid
  let s2 := s1.modTask x.t.uid (fun t => { t with barriers := t.barriers.mapIdx (fun j b =>
    if j = k then b.arrive live x.g.num x.act else b) })
  let s3 := match park with
    | none => s2
    | some d => s2.modGroup x.g.gid (fun g =>
        let h := x.leaveNext g
        { h with parks := h.parks ++ x.lanes.map (fun l =>
            (⟨l, [BitVec.ofNat 16 (2 * 8192 + k)], true, none, none, x.statusDst d l, true, false, false, x.outNames d 1, d.isInd⟩ : Park)) })
  s3.settleBarriers x.t.uid

/-- BAR (R203): the arriving lanes park until the barrier completes. -/
def execBar (g : Guard) (k : BitVec 3) (d : Opnd) (s : State) : Host.Outcome State Fault Refusal :=
  issue (.bar g k d) noDyn (fun _ => namesA d []) (fun x => if x.any then x.afterRelease .grp (fun t => .ok (x.arrive k.toNat (some d) t)) else .ok x.s) s

/-- BAR.arrive (R203): the lanes go on. -/
def execBarArrive (g : Guard) (k : BitVec 3) (d : Opnd) (s : State) : Host.Outcome State Fault Refusal :=
  issue (.barArrive g k d) noDyn (fun _ => namesA d []) (fun x => if x.any then x.afterRelease .grp (fun t => .ok (x.arrive k.toNat none t)) else .ok x.s) s

/-! ### Event counters -/

/-- EVT's effect: the new value of the counter, written to the destination (R204). -/
def evtOp (i : Instr) (k : Nat) (d a : Opnd) (f : Nat → Nat → Nat) (s : State) : Host.Outcome State Fault Refusal :=
  issue i noDyn (fun _ => namesA d [a]) (fun x =>
    let new := f (x.g.e.get k).toNat (x.src a 0)
    if !x.any then .ok x.s
    else
      let h := x.laneWise d (fun _ => (new, 0))
      .ok (x.s.setGroup { h with e := h.e.set k (BitVec.ofNat 6 new) })) s

/-- EVT.add (R204). -/
def execEvtAdd (g : Guard) (k : BitVec 3) (d a : Opnd) (s : State) : Host.Outcome State Fault Refusal :=
  evtOp (.evtAdd g k d a) k.toNat d a (fun e x => min 63 (e + x)) s

/-- EVT.sub (R204). -/
def execEvtSub (g : Guard) (k : BitVec 3) (d a : Opnd) (s : State) : Host.Outcome State Fault Refusal :=
  evtOp (.evtSub g k d a) k.toNat d a (fun e x => e - x) s

/-- EVT.set (R204). -/
def execEvtSet (g : Guard) (k : BitVec 3) (d a : Opnd) (s : State) : Host.Outcome State Fault Refusal :=
  evtOp (.evtSet g k d a) k.toNat d a (fun _ x => min 63 x) s

end Sys2Proof.Machine
end

