-- ==== Sys2Proof/Machine/Queue.lean ====
section
/-! DEFINITION. Records, queues and submissions (R65 to R68, R242, R279 to R287): what an accepted record becomes. -/
namespace Sys2Proof.Machine

/-- Write memory of a virtual interface as the scheduling processor does: the tenant's write permission is not needed
(R285). False when a piece does not translate or cannot be delivered; nothing is then written. -/
def State.deviceForce (s : State) (vi va : Nat) (bs : List Byte) : State × Bool :=
  match s.ranged schedulingCore vi .read false va bs.length with
  | .error _ => (s, false)
  | .ok ps => if ps.any (fun p => p.2.2.remote && s.remoteFails vi p.1) then (s, false) else (ps.foldl (fun t p =>
      let part := (bs.drop (pieceOff va p.1)).take p.2.1
      if p.2.2.remote then t.remoteWrite vi p.1 part
      else if p.2.2.repl then t.storeRepl 0 ⟨.bridge, 0⟩ p.2.2.pa part else t.deviceWrite p.2.2.pa part) s, true)

/-- Read a launch record (R65); none when its pointer is misaligned or it cannot be read (R68, R299). -/
def State.readLaunch (s : State) (vi ptr : Nat) : Option Launch :=
  if ptr % 256 ≠ 0 then none
  else (s.deviceRead vi ptr 256).map (fun r =>
    let d (off : Nat) : DWord := BitVec.ofNat 64 (field r off 8)
    { entry := field r 0 4, gx := field r 4 2, gy := field r 6 2, gz := field r 8 2
      shape := BitVec.ofNat 16 (field r 0xA 2), footprint := BitVec.ofNat 32 (field r 0xC 4)
      priority := field r 0x10 1 % 4, flags := BitVec.ofNat 8 (field r 0x11 1)
      keys := [0, 1, 2, 3].map (fun k => BitVec.ofNat 32 (field r (0x14 + 4 * k) 4))
      frameSize := field r 0x24 4, regionPtr := d 0x28, arena := d 0x30, routePtr := d 0x38
      gBase := d 0x40, gLim := d 0x48, kBase := d 0x50, kLim := d 0x58, cBase := d 0x60, cLim := d 0x68
      slots := (List.range 8).map (fun k => d (0x80 + 8 * k)) })

/-- A continuation record (R68); reserved fields are ignored (R4). -/
def contOf (r : List Byte) : ContRec :=
  { code := field r 0 4, shape := BitVec.ofNat 16 (field r 4 2), depth := field r 6 1 / 4 % 16, priority := field r 6 1 % 4
    continuation := field r 7 1 / 2 % 2 == 1, wanted := field r 7 1 % 2 == 1, footprint := BitVec.ofNat 32 (field r 8 4)
    x := field r 0xC 2, y := field r 0xE 2, z := field r 0x10 2
    keys := [0, 1, 2, 3].map (fun k => field r (0x14 + 4 * k) 4 % 2 ^ 30)
    frame := BitVec.ofNat 64 (field r 0x28 8), join := BitVec.ofNat 64 (field r 0x30 8)
    launch := BitVec.ofNat 64 (field r 0x38 8) }

/-- The bytes of a record with its depth, continuation flag and launch pointer set by the device (R242, R243, R283). -/
def patchCont (r : List Byte) (depth : Nat) (cont : Option Bool) (launch : DWord) : List Byte :=
  let b6 := field r 6 1
  let b7 := field r 7 1
  let c7 := match cont with | some b => b7 - b7 / 2 % 2 * 2 + 2 * bit b | none => b7
  r.take 6 ++ leBytes 1 (b6 - b6 / 4 % 16 * 4 + depth * 4) ++ leBytes 1 c7 ++ (r.drop 8).take 48 ++ leBytes 8 launch.toNat

/-- The keys of a record: nonzero values, counted once, ascending (R293). -/
def keysOf (l : List Nat) : List Nat := (sortBy (fun a b => decide (a ≤ b)) (l.filter (· != 0))).eraseDups

/-! ### Placement hash and dies -/

/-- The hash of tile coordinates (R295). -/
def tileHash (x y z : Nat) : Nat := (x * 0x9E3779B1 + y * 0x85EBCA77 + z * 0xC2B2AE3D) % 2 ^ 32

/-- Is a compute core retired (R23)? -/
def State.retired (s : State) (core : Nat) : Bool := s.fabric.retiredCores.contains core

/-- Can a pair of a die host teams of a virtual interface (R299)? -/
def State.pairOk (s : State) (vi die pair : Nat) (paired : Bool) : Bool :=
  let a := die * 96 + 2 * pair
  (((s.viOf vi).pairs.getD die 0).getLsbD pair) && decide (pair < 48)
    && (if paired then !s.retired a && !s.retired (a + 1) else !s.retired a || !s.retired (a + 1))

/-- The dies eligible for a virtual interface (R299). -/
def State.eligible (s : State) (vi : Nat) (paired : Bool) : List Nat :=
  s.liveDies.filter (fun d => (List.range 48).any (fun p => s.pairOk vi d p paired))

/-- The first of some dies at or after a die, ascending and wrapping. -/
def firstFrom (ds : List Nat) (d : Nat) : Option Nat :=
  match ds.find? (fun e => decide (d ≤ e)) with
  | some e => some e
  | none => ds.head?

/-- The die a kind 1, SPAWN or SPAWNC record goes to (R291, R295, R296); 5 when none is eligible. -/
def State.dieOfRecord (s : State) (vi : Nat) (c : ContRec) (service : Bool) : Nat :=
  if service then 4
  else (firstFrom (s.eligible vi (c.shape.getLsbD 8)) (tileHash c.x c.y c.z % 768 / 192)).getD 5

/-! ### Queue entries -/

/-- The entries of a segment (R285). -/
def segEntries (seg : Nat) : List Nat := (List.range 31).map (fun i => seg + 128 * (i + 1))

/-- A queue of a virtual interface. -/
def State.queue? (s : State) (vi q : Nat) : Option Queue := s.queues.find? (fun x => x.vi == vi && x.num == q)

/-- Is an entry free (R286)? -/
def State.entryFree (s : State) (vi addr : Nat) : Bool := !s.entries.any (fun e => e.vi == vi && e.addr == addr)

/-- Write a queue segment as new: its header, and state 0 in every entry (R280, R285; log 21). -/
def State.freshSegment (s : State) (vi seg next seqNo : Nat) : State × Bool :=
  (segEntries seg).foldl (fun acc a => if acc.2 then acc.1.deviceForce vi a (leBytes 4 0) else acc)
    (s.deviceForce vi seg (leBytes 8 next ++ leBytes 8 seqNo))

/-- A free entry of a queue's current segment, linking a segment of the pool when it is full (R287). -/
def State.roomIn (s : State) (vi q : Nat) : Option (State × Nat) :=
  match s.queue? vi q with
  | none => none
  | some qu =>
    let last := qu.segs.getLastD 0
    match (segEntries last).find? (s.entryFree vi) with
    | some a => some (s, a)
    | none =>
      let v := s.viOf vi
      match (List.range (v.poolUsed.length + 1)).find? (fun i => !v.poolUsed.contains i && decide (i < v.poolSize)) with
      | none => none
      | some i =>
        let seg := v.poolBase + 4096 * i
        let seqNo := (s.deviceRead vi (last + 8) 8).map leNat |>.getD 0
        let (s1, ok1) := s.freshSegment vi seg (qu.segs.getD 0 0) (seqNo + 1)
        let (s2, ok2) := if ok1 then s1.deviceForce vi last (leBytes 8 seg) else (s, false)
        if ok2 then
          let s3 := { s2 with queues := modWhere s2.queues (fun x => x.vi == vi && x.num == q) (fun x => { x with segs := x.segs ++ [seg] }) }
          some (s3.setVi { v with poolUsed := v.poolUsed ++ [i] }, seg + 128)
        else none

/-- The bytes of a queue entry (R286). -/
def entryBytes (state : Nat) (tag : DWord) (seqNo : Nat) (pointer : DWord) (flags : BitVec 32) (cont : List Byte) : List Byte :=
  leBytes 4 state ++ leBytes 4 0 ++ leBytes 8 tag.toNat ++ leBytes 8 seqNo ++ leBytes 8 pointer.toNat
    ++ leBytes 4 flags.toNat ++ leBytes 4 0 ++ leBytes 24 0 ++ cont

/-- Put a record into a queue (R285, R286): none when no entry can be made durable now. The record's entry address and
acceptance sequence come with the state. -/
def State.enqueue (s : State) (vi q : Nat) (tag pointer : DWord) (flags : BitVec 32) (cont : List Byte) :
    Option (State × Nat × Nat) :=
  if s.host.restarting then none
  else match s.roomIn vi q with
    | none => none
    | some (s1, addr) =>
      match s1.deviceForce vi addr (entryBytes 1 tag s.seqNo pointer flags cont) with
      | (_, false) => none
      | (s2, true) =>
        let e : QEntry := { vi := vi, queue := q, addr := addr, state := 1, tag := tag, seqNo := s.seqNo, pointer := pointer
                            flags := flags, rounds := 0, footRounds := 0 }
        some ({ s2 with entries := s2.entries ++ [e], seqNo := s.seqNo + 1 }, addr, s.seqNo)

/-- A task before placement (R27, R74). -/
def newTask (uid vi grid : Nat) (spawned team : Bool) (linear seqNo : Nat) (c : ContRec) (entry : Option Nat)
    (service privileged : Bool) (die : Nat) : Task :=
  { uid := uid, vi := vi, grid := grid, spawned := spawned, team := team, linear := linear, seqNo := seqNo, cont := c
    launch := none, keys := keysOf c.keys, state := .queued, rounds := 0, footRounds := 0, entry := entry
    service := service, privileged := privileged, cores := [], stashBase := [], die := die, tiles := [], acc := []
    accPoison := [], teamSaved := false, tstat := [], tileErr := [], barriers := List.replicate 8 Barrier.idle, killing := false, killInfo := 0
    joinUnderflow := false, joinFailed := false, late := 0, lost := 0, refusedStores := 0, page := 0, endSteps := 0
    ended := false }

/-- The service flag of the launch record a pointer names, when it can be read. -/
def State.serviceLaunch (s : State) (vi ptr : Nat) : Bool :=
  match s.readLaunch vi ptr with
  | some l => l.service
  | none => false

/-- A grid before its ranges are dealt (R26, R299). -/
def newGrid (gridId vi : Nat) (p : SubPage) (tag : DWord) (wanted : Bool) (interrupt : Option Nat) (launchPtr : DWord)
    (single : Bool) (seqNo : Nat) (entry : Nat) : Grid :=
  { gridId := gridId, vi := vi, page := p.page, tag := tag, wanted := wanted, interrupt := interrupt, launchPtr := launchPtr
    launch := none, single := single, privileged := p.privileged, seqNo := seqNo, entry := some entry, dealt := single
    ranges := [], status := 0, notDone := 0, lost := 0, refused := 0, page1 := 0, ended := false, excluded := []
    routesWritten := false, relocs := [], reroute := false, reissued := false }

/-! ### Submissions -/

/-- The fields of a submission record (R283). -/
structure SubRec where
  queue : Nat
  kind : Nat
  wanted : Bool
  interrupt : Option Nat
  tag : DWord
  pointer : DWord
  flags : BitVec 32
  reserved : Bool
  deriving DecidableEq, Repr

/-- Read a submission record (R283). -/
def subOf (r : List Byte) : SubRec :=
  let b5 := field r 5 1
  { queue := field r 0 1 % 16, kind := field r 4 1 % 2, wanted := b5 % 2 == 1
    interrupt := if b5 / 2 % 2 = 1 then some (field r 6 1) else none
    tag := BitVec.ofNat 64 (field r 8 8), pointer := BitVec.ofNat 64 (field r 16 8), flags := BitVec.ofNat 32 (field r 4 4)
    reserved := decide (16 ≤ field r 0 4) || decide (2 ≤ field r 4 1) || decide (4 ≤ b5) || field r 7 1 != 0
      || field r 24 104 != 0 }

/-- How a submission ends (R282, R284, R287). -/
inductive SubResult where
  | accepted (s : State)
  | retry
  | refused
  | malformed
  deriving DecidableEq, Repr

/-- Is a queue of an enabled virtual interface enabled (R280, R345)? -/
def State.queueOn (s : State) (vi q : Nat) : Bool := (s.queue? vi q).isSome && (s.viOf vi).enabled

/-- Submit a record through a page (R283 to R287); while the scheduling processor's firmware restarts it receives Retry (R321). -/
def State.submit (s : State) (p : SubPage) (r : List Byte) : SubResult :=
  let f := subOf r
  let ptr := f.pointer.toNat
  if s.host.restarting then .retry
  else if f.reserved || !s.queueOn p.vi f.queue || ptr % (if f.kind = 0 then 256 else 64) != 0 then .refused
  else if f.kind = 0 then
    match s.enqueue p.vi f.queue f.tag f.pointer f.flags (leBytes 64 0) with
    | none => .retry
    | some (s1, addr, sq) =>
      let g := newGrid s1.nextId p.vi p f.tag f.wanted f.interrupt f.pointer false sq addr
      .accepted { s1 with grids := s1.grids ++ [g], nextId := s1.nextId + 1 }
  else
    match s.deviceRead p.vi ptr 64 with
    | none => .malformed
    | some c0 =>
      let bs := patchCont c0 1 none (BitVec.ofNat 64 (field c0 0x38 8))
      let c := contOf bs
      match s.enqueue p.vi f.queue f.tag f.pointer f.flags bs with
      | none => .retry
      | some (s1, addr, sq) =>
        let svc := s.serviceLaunch p.vi c.launch.toNat
        let g := newGrid s1.nextId p.vi p f.tag f.wanted f.interrupt c.launch true sq addr
        let t := newTask (s1.nextId + 1) p.vi s1.nextId false false 0 sq c (some addr) svc p.privileged
          (s.dieOfRecord p.vi c svc)
        .accepted { s1 with grids := s1.grids ++ [g], tasks := s1.tasks ++ [t], nextId := s1.nextId + 2 }

/-- Enqueue a task made by SPAWN or SPAWNC (R242, R243), with its spawner's launch record where its own names none (R68): none
when it must wait for room. -/
def State.enqueueTask (s : State) (vi grid q : Nat) (bs : List Byte) (service privileged : Bool) (launch : Option Launch) : Option State :=
  let c := contOf bs
  match s.enqueue vi q 0 0 0 bs with
  | none => none
  | some (s1, addr, sq) =>
    let t := newTask s1.nextId vi grid true false 0 sq c (some addr) service privileged (s.dieOfRecord vi c service)
    some { s1 with tasks := s1.tasks ++ [{ t with launch := launch }], nextId := s1.nextId + 1 }

/-- Write a completion record at once for a host submission that was refused or malformed (R283, R284). -/
def State.immediate (s : State) (p : SubPage) (r : List Byte) (status : Nat) : State :=
  let f := subOf r
  if f.wanted then
    let d : Due := { vi := p.vi, page := p.page, tag := f.tag, status := status, lost := 0, refused := 0, first := 0
                     detail := 0, interrupt := f.interrupt, owner := .none }
    { s with dues := s.dues ++ [d] }
  else s

end Sys2Proof.Machine
end

