-- ==== Sys2Proof/Machine/Atomics.lean ====
section
/-! DEFINITION. ATOM, RED and the group submission that an ATOM on a submit word is (R194, R195, R282). -/
namespace Sys2Proof.Machine

/-- One atomic operation: its access, the lane it returns to, its operand and, for cas, the new value. -/
structure AOp where
  acc : Acc
  lane : Nat
  opnd : Nat
  new : Nat
  deriving DecidableEq, Repr

/-- Vector or uniform registers that an atomic's data takes (R194). -/
def atomRegs (op : AtomVar) : Nat := if op.isCas then op.bytes / 2 else vregsOf op.bytes

/-- The data registers of ATOM and RED, as named registers. -/
def atomName (l : LArgs) (op : AtomVar) : Named :=
  ⟨0, .op (bOpnd l.tU l.t) (if l.tU then (if op.isCas && op.bytes == 8 then 2 else 1) else atomRegs op), true⟩

/-- The operand and new value of a lane (R194). -/
def Ctx.atomData (x : Ctx) (l : LArgs) (op : AtomVar) (lane : Nat) : Nat × Nat :=
  let v (j : Nat) : Nat := (x.g.vget (l.t.toNat + j) lane).toNat
  let u (j : Nat) : Nat := (x.g.sget (l.t.toNat % 64 + j)).toNat
  match l.tU, op.isCas, op.bytes == 8 with
  | false, false, false => (v 0, 0)
  | false, false, true => (v 0 + 2 ^ 32 * v 1, 0)
  | false, true, false => (v 0, v 1)
  | false, true, true => (v 0 + 2 ^ 32 * v 1, v 2 + 2 ^ 32 * v 3)
  | true, false, false => (u 0 % 2 ^ 32, 0)
  | true, false, true => (u 0, 0)
  | true, true, false => (u 0 % 2 ^ 32, u 0 / 2 ^ 32)
  | true, true, true => (u 0, u 1)

/-- The operations of an instruction, in ascending lane order (R180): one a lane, or one for uniform address and data. -/
def Ctx.aops (x : Ctx) (l : LArgs) (op : AtomVar) : List AOp :=
  (x.accs l).flatMap (fun a =>
    let lanes := if l.aU && !l.tU then x.lanes else [a.lane]
    lanes.map (fun i => let d := x.atomData l op i; ⟨a, i, d.1, d.2⟩))

/-- The form of the old value that ATOM returns (R194). -/
def atomForm (op : AtomVar) (l : LArgs) : LoadForm := ⟨op.bytes, false, false, l.tU, if l.tU then l.t.toNat % 64 else l.t.toNat⟩

/-! ### Submissions by ATOM (R282) -/

/-- The submission page whose submit word an access names, if the access may be a submission. DESIGN CHOICE (log 47): a page that was
disabled while the submission waited still answers Refused, and an ATOM issued after it was disabled is translated as ordinary memory,
where R280 says both that a submit ATOM returns Refused and that the addresses of a page not enabled are ordinary memory. -/
def Ctx.submitPage (x : Ctx) (seg : Nat) (op : AtomVar) (sc : Scope) (a : Acc) : Option SubPage :=
  let va := ((x.g.seg seg).1.toNat + a.off) % 2 ^ 64
  if seg = 0 ∧ op = AtomVar.xchg64 ∧ sc = Scope.sys then
    x.s.pages.find? (fun p => p.vi == x.t.vi && (p.enabled || x.g.hold != .none) && p.groupAddr != 0 && va == p.groupAddr + 0x80)
  else none

/-- The segment fault of a record offset (R282): not a multiple of 128, or beyond the G limit. -/
def Ctx.recordFault (x : Ctx) (ops : List AOp) : Option Trap :=
  let lim := (x.g.seg 0).2.toNat
  let sub (o : AOp) : Option Nat := if lim < o.opnd + 128 then some 0 else if o.opnd % 128 ≠ 0 then some 2 else none
  [0, 2].findSome? (fun k => match ops.filter (fun o => sub o == some k) with
    | [] => none
    | b :: r => some ⟨2, k, (b :: r).foldl (fun m o => m ||| (if o.acc.mask = 1#64 <<< o.lane then o.acc.mask else x.act)) 0,
        BitVec.ofNat 64 b.opnd, 0, 0, 0⟩)

/-- Is a submission tried for the first time, and not one that waits for room (R282)? -/
def Hold.firstTry : Hold → Bool
  | .resubmit _ | .answer => false
  | _ => true

/-- One lane's submission (R282, R284): the state and the status, or none while it must wait for room. One that is made while the
scheduling processor's firmware restarts is answered at once (R321). -/
def Ctx.submitOne (x : Ctx) (s : State) (p : SubPage) (final : Bool) (off : Nat) : Option (State × Nat) :=
  let va := ((x.g.seg 0).1.toNat + off) % 2 ^ 64
  match s.coreRead x.g.core x.t.vi va 128 with
  | none => some (s, 2)
  | some r =>
    if !p.enabled then some (s, 2)
    else match s.submit p r with
      | .accepted s' => some (s', 0)
      | .refused | .malformed => some (s, 2)
      | .retry => if final || (s.host.restarting && x.g.hold.firstTry) then some (s, 1) else none

/-! ### ATOM -/

/-- An ATOM on a located word (R194, R257). -/
def Ctx.atomLocated (x : Ctx) (s : State) (op : AtomVar) (k : Located) (o : AOp) : State × Nat :=
  match k.parts with
  | [] => (s, 0)
  | p :: _ =>
    let s := s.noteTlb x.g.core x.t.vi p.1 p.2.2
    if p.2.2.remote then
      let s := s.deliverWhere (fun q => q.gid == x.g.gid)
      let old := leNat (s.mem.remoteRead x.t.vi p.1 op.bytes)
      (s.remoteStore x.g.core x.t.vi p.1 (leBytes op.bytes (atomApply op old o.opnd o.new)), old)
    else (s.redsBefore x.g.gid p.2.2.pa op.bytes).atomAt x.agent op p.2.2.pa o.opnd o.new

/-- ATOM through the S segment (R186, R194, R272). -/
def Ctx.atomStash (x : Ctx) (op : AtomVar) (sc : Scope) (l : LArgs) (ops : List AOp) : Res :=
  let n := op.bytes
  let f := atomForm op l
  let accs := x.accs l
  match x.stashFault .rmw true n accs with
  | some tr => .trap tr
  | none => match x.s.mem.viewLines x.g.core (accs.flatMap (x.accLines n)) with
    | .fill lines => x.waitFill n accs lines
    | .absent =>
      .ok (x.outstanding (x.s.release x.g x.t sc) f.names false [] 0 (.stashAtom x.g.core op f
        (ops.map (fun o => (o.lane, x.stashOff o.acc, BitVec.ofNat 64 o.opnd, BitVec.ofNat 64 o.new))) false x.lanes none))
    | .present =>
      if x.stashWaits n accs then x.again
      else match x.stashPoisonTrap n accs with
        | some tr => .trap tr
        | none =>
          let (s2, ws) := ops.foldl (fun (acc : State × List RegWrite) o =>
            let t0 := acc.1.redsAlias x.g.gid x.s.nextId x.g.core (x.stashOff o.acc) n
            let (t, old) := t0.stashAtomAt x.g.gid x.g.core op (x.stashOff o.acc) o.opnd o.new
            (t, acc.2 ++ loadWrites f [o.lane] (leBytes n old))) (x.s.release x.g x.t sc, [])
          .ok (x.outstanding s2 f.names false ws 0 .ready)

/-- What an operation acts on. -/
inductive ATarget where
  | page (p : SubPage)
  | word (k : Located)
  deriving DecidableEq, Repr

/-- Since when a submission that has no room has been waiting (R282). -/
def Hold.asked (h : Hold) (now : Nat) : Nat :=
  match h with
  | .resubmit since => since
  | _ => now

/-- The effect of ATOM (R194), submissions among its accesses included (R282). -/
def Ctx.atom (x : Ctx) (op : AtomVar) (sc : Scope) (l : LArgs) : Res :=
  let n := op.bytes
  let seg := l.seg.toNat
  let f := atomForm op l
  let accs := x.accs l
  let ops := x.aops l op
  let sub (o : AOp) : Option SubPage := x.submitPage seg op sc o.acc
  match x.segFault seg n true true accs with
  | some tr => .trap tr
  | none =>
    if accs.isEmpty then .ok x.s
    else if x.orderWaits true then x.again
    else if seg = 1 then x.atomStash op sc l ops
    else match x.recordFault (ops.filter (fun o => (sub o).isSome)) with
      | some tr => .trap tr
      | none =>
        let plain := accs.filter (fun a => (x.submitPage seg op sc a).isNone)
        let recs : List Acc := (ops.filter (fun o => (sub o).isSome)).map (fun o => ⟨o.lane, 1#64 <<< o.lane, o.opnd⟩)
        match x.locate seg n .rmw true plain, x.locate 0 128 .read false recs with
        | .error tr, _ => .trap tr
        | .ok _, .error tr => .trap tr
        | .ok ls, .ok rs =>
          match memPoison x.s x.agent x.t.vi (ls ++ rs) with
          | some tr => .trap tr
          | none =>
            if x.lensBlocks ls then x.again else
            let s1 := x.s.release x.g x.t sc
            let final := x.g.hold == .answer
            let r := ops.foldl (fun (acc : Option (State × List RegWrite)) o =>
              acc.bind (fun c =>
                let done : Option (State × Nat) := match sub o with
                  | some p => x.submitOne c.1 p final o.opnd
                  | none => (ls.find? (fun k => k.acc == o.acc)).map (fun k => x.atomLocated c.1 op k o)
                done.map (fun d => (d.1, c.2 ++ loadWrites f [o.lane] (leBytes n d.2))))) (some (s1, []))
            match r with
            | some (s2, ws) => .ok (x.outstanding s2 f.names false ws 0 .ready)
            | none => .hold (x.s.modGroup x.g.gid (fun g => { g with hold := .submit (x.g.hold.asked x.s.tick.toNat) }))

/-- ATOM (R194). -/
def execAtom (g : Guard) (op : AtomVar) (sc : Scope) (l : LArgs) (s : State) : Host.Outcome State Fault Refusal :=
  issue (.atom g op sc l) noDyn (fun _ => [atomName l op, addrName l]) (fun x => x.atom op sc l) s

/-- A group submission (R282): the ATOM.xchg.b64.sys that names a submit word. -/
def execGroupSubmission (g : Guard) (l : LArgs) (s : State) : Host.Outcome State Fault Refusal :=
  issue (.groupSubmission g l) noDyn (fun _ => [atomName l .xchg64, addrName l]) (fun x => x.atom .xchg64 .sys l) s

/-! ### RED -/

/-- A RED on a located word: posted (R195), or performed at another chip, or lost and counted (R183, R274). -/
def Ctx.redLocated (x : Ctx) (s : State) (op : AtomVar) (k : Located) (o : AOp) : State :=
  match k.parts with
  | [] => s
  | p :: _ =>
    let s := s.noteTlb x.g.core x.t.vi p.1 p.2.2
    if p.2.2.lost then s.modGroup x.g.gid (fun g => g.countStore true false p.1 s.fresh)
    else if p.2.2.remote then s.redRemote x.g.gid x.t.vi p.1 op o.opnd
    else
      let r : PostedRed := ⟨s.nextId, x.g.gid, s.tick.toNat, o.lane, x.agent, p.2.2.pa, p.1, op, BitVec.ofNat 64 o.opnd⟩
      { s with mem := { s.mem with reds := s.mem.reds ++ [r] }, nextId := s.nextId + 1 }

/-- RED through the S segment (R186, R195, R272): on present lines now, on absent ones later. -/
def Ctx.redStash (x : Ctx) (op : AtomVar) (accs : List Acc) (ops : List AOp) : Res :=
  let n := op.bytes
  match x.stashFault .write true n accs with
  | some tr => .trap tr
  | none => match x.s.mem.viewLines x.g.core (accs.flatMap (x.accLines n)) with
    | .fill lines => x.waitFill n accs lines
    | _ =>
      let (now, later) := x.here (fun (o : AOp) => x.accLines n o.acc) ops
      if x.stashWaits n (now.map (fun (o : AOp) => o.acc)) then x.again
      else
        let s1 := now.foldl (fun (t : State) (o : AOp) =>
          (t.redsAlias x.g.gid x.s.nextId x.g.core (x.stashOff o.acc) n).stashRedAt x.g.gid x.g.core op (x.stashOff o.acc) o.opnd) x.s
        .ok ({ x with s := s1 }.holdStores (later.map (fun (o : AOp) => (o.acc, leBytes n o.opnd))) (some op) false)

/-- RED's effect (R195). -/
def Ctx.red (x : Ctx) (op : AtomVar) (l : LArgs) : Res :=
  let n := op.bytes
  let seg := l.seg.toNat
  let accs := x.accs l
  let ops := x.aops l op
  match x.segFault seg n true true accs with
  | some tr => .trap tr
  | none =>
    if accs.isEmpty then .ok x.s
    else if x.orderWaits false then x.again
    else if seg = 1 then x.redStash op accs ops
    else match x.locate seg n .write true accs with
      | .error tr => .trap tr
      | .ok ls => if x.lensBlocks ls then x.again else .ok (ops.foldl (fun t o => match ls.find? (fun k => k.acc == o.acc) with
          | some k => x.redLocated t op k o
          | none => t) x.s)

/-- RED (R195). -/
def execRed (g : Guard) (op : AtomVar) (sc : Scope) (l : LArgs) (s : State) : Host.Outcome State Fault Refusal :=
  issue (.red g op sc l) noDyn (fun _ => [atomName l op, addrName l]) (fun x => x.red op l) s

end Sys2Proof.Machine
end

