-- ==== Sys2Proof/Machine/Control.lean ====
section
/-! DEFINITION. Family 7 but for the privileged rows: transfers, EXIT, ELECT, GETSYS, TRAP, RTT, SPAWN, SPAWNC and UINT
(R233 to R245). -/
namespace Sys2Proof.Machine

/-- The misaligned-target trap of active lanes (R234, R306). -/
def Ctx.badTarget (x : Ctx) (target : Nat → Word) : Option Trap :=
  match x.lanes.filter (fun l => (target l).toNat % 8 != 0) with
  | [] => none
  | l :: r => some ⟨1, 0, maskOf x.g.width (fun i => (l :: r).contains i), BitVec.ofNat 64 (target l).toNat, 0, 0, 0⟩

/-- The active lanes leave the clause for their targets (R233). -/
def Ctx.goTo (x : Ctx) (g : Group) (target : Nat → Word) : Group :=
  (x.lanes.foldl (fun h l => h.transferTo (1#64 <<< l) (target l)) g).leave x.act

/-- A transfer (R233, R234); `link`: CALL's register. -/
def Ctx.transfer (x : Ctx) (target : Nat → Word) (link : Option Nat) : Res :=
  match x.badTarget target with
  | some tr => .trap tr
  | none => x.okGroup (fun g =>
      let h := match link with
        | some n => x.lanes.foldl (fun k l => k.vset n l x.c.nextStart) g
        | none => g
      x.goTo h target)

/-- The target of a relative transfer (R233). -/
def Ctx.relTarget (x : Ctx) (off : Word) : Word := BitVec.ofNat 32 x.c.start + off

/-- BRA (R233). -/
def execBra (g : Guard) (off : Word) (s : State) : Host.Outcome State Fault Refusal :=
  issue (.bra g off) noDyn (fun _ => []) (fun x => x.transfer (fun _ => x.relTarget off) none) s

/-- BRX (R233). -/
def execBrx (g : Guard) (lnk : BitVec 8) (s : State) : Host.Outcome State Fault Refusal :=
  issue (.brx g lnk) noDyn (fun _ => [⟨1, .op (.v lnk) 1, true⟩]) (fun x => x.transfer (fun l => x.g.vget lnk.toNat l) none) s

/-- CALL (R233). -/
def execCall (g : Guard) (lnk : BitVec 8) (off : Word) (s : State) : Host.Outcome State Fault Refusal :=
  issue (.call g lnk off) noDyn (fun _ => [⟨0, .op (.v lnk) 1, false⟩])
    (fun x => x.transfer (fun _ => x.relTarget off) (some lnk.toNat)) s

/-- RET (R233). -/
def execRet (g : Guard) (lnk : BitVec 8) (s : State) : Host.Outcome State Fault Refusal :=
  issue (.ret g lnk) noDyn (fun _ => [⟨1, .op (.v lnk) 1, true⟩]) (fun x => x.transfer (fun l => x.g.vget lnk.toNat l) none) s

/-- EXIT (R36, R235, R308): in a handler it is fatal, or ends a killed group. -/
def Ctx.exit (x : Ctx) : Res :=
  if !x.any then .ok x.s
  else if x.g.gsrH then
    .hold (if x.g.killed then x.s.endGroup x.g.gid else x.s.fatal x.g x.g.entryCls x.g.entrySub true)
  else
    let s1 := x.s.modGroup x.g.gid (fun g => (g.arriveAt x.act exitedVpc).leave x.act)
    let s2 := (s1.modTask x.t.uid (fun t => t.lanesGone x.g.num x.act)).settleBarriers x.t.uid
    .ok (s2.endIfExited x.g.gid)

/-- EXIT (R36, R235). -/
def execExit (g : Guard) (s : State) : Host.Outcome State Fault Refusal :=
  issue (.exit g) noDyn (fun _ => []) Ctx.exit s

/-- ELECT (R236): 1 in the lowest active lane. -/
def execElect (g : Guard) (d : Opnd) (s : State) : Host.Outcome State Fault Refusal :=
  intLanes (.elect g d) d [] (fun x l => bit (l == x.lanes.getD 0 0)) s

/-- YIELD (R237) changes no architectural state. -/
def execYield (g : Guard) (s : State) : Host.Outcome State Fault Refusal :=
  issue (.yield g) noDyn (fun _ => []) (fun x => .ok x.s) s

/-- NOP (R237). -/
def execNop (g : Guard) (s : State) : Host.Outcome State Fault Refusal :=
  issue (.nop g) noDyn (fun _ => []) (fun x => .ok x.s) s

/-! ### System values (R17, R62) -/

/-- %core of a core (R17). -/
def sysCore (core : Nat) : Nat := if isService core then core - 384 else core

/-- %team: a grid team's linear index; for other tasks it is computed from the record's coordinates (R62). -/
def sysTeam (t : Task) (l : Launch) : Nat :=
  if t.team then t.linear else (t.cont.x + l.gx * (t.cont.y + l.gy * t.cont.z)) % 2 ^ 32

/-- The value of a selector in a lane (R62). -/
def Ctx.sysVal (x : Ctx) (v : SysVal) (lane : Nat) : Nat :=
  match v with
  | .lane => lane
  | .group => x.g.num
  | .team => sysTeam x.t x.l
  | .core => sysCore x.g.core
  | .die => dieOf x.g.core
  | .pair => if isService x.g.core then 2 ^ 32 - 1 else x.g.core / 2
  | .gridx => x.t.cont.x
  | .gridy => x.t.cont.y
  | .gridz => x.t.cont.z
  | .tick => x.s.tick.toNat
  | .vi => x.t.vi

/-- The destination of GETSYS as an operand. -/
def sysOpnd : SysDst → Opnd
  | .v n => .v n
  | .s n => .s n

/-- GETSYS (R62, R238). -/
def execGetsys (g : Guard) (v : SysVal) (d : SysDst) (s : State) : Host.Outcome State Fault Refusal :=
  issue (.getsys g v d) noDyn (fun _ => namesA (sysOpnd d) []) (fun x =>
    .ok (x.s.setGroup (match d with
      | .v _ => x.laneWise (sysOpnd d) (fun l => (x.sysVal v l % 2 ^ 32, 0))
      | .s _ => x.laneWise64 (sysOpnd d) (fun l => x.sysVal v l)))) s

/-! ### TRAP and RTT -/

/-- TRAP (R239): the handler is entered with return past this instruction. -/
def execTrap (g : Guard) (code : BitVec 24) (s : State) : Host.Outcome State Fault Refusal :=
  issue (.trap g code) noDyn (fun _ => []) (fun x =>
    if !x.any then .ok x.s
    else .hold (x.s.takeTrap x.g x.t ⟨10, 0, x.act, 0, BitVec.ofNat 64 code.toNat, 0, 0⟩ (x.returnPoint true) x.c.lanes)) s

/-- RTT (R240, R307): illegal outside a handler; it ends a killed group. Fills that the handler has made possible start again
(R186). -/
def execRtt (g : Guard) (s : State) : Host.Outcome State Fault Refusal :=
  issue (.rtt g) (fun x => !x.g.gsrH) (fun _ => []) (fun x =>
    if !x.any then .ok x.s
    else .hold (if x.g.killed then x.s.endGroup x.g.gid else (x.s.returnFromTrap x.g x.t).fillWaited x.g.core)) s

/-! ### SPAWN and SPAWNC -/

/-- A segment fault of a G offset of n bytes that must be a multiple of m (R244). -/
def Ctx.gFault (x : Ctx) (off n m : Nat) (aligned : Nat) : Option Trap :=
  if (x.g.seg 0).2.toNat < off + n then some ⟨2, 0, x.act, BitVec.ofNat 64 off, 0, 0, 0⟩
  else if aligned % m ≠ 0 then some ⟨2, 2, x.act, BitVec.ofNat 64 off, 0, 0, 0⟩
  else none

/-- The lower subcode of two segment faults of one instruction (R64). -/
def lowerFault (a b : Option Trap) : Option Trap :=
  match a, b with
  | some p, some q => some (if q.sub < p.sub then q else p)
  | some p, none => some p
  | none, b => b

/-- One access of the whole issue at a G offset. -/
def Ctx.once (x : Ctx) (off : Nat) : Acc := ⟨x.lanes.getD 0 0, x.act, off⟩

/-- The G offset of a virtual address. -/
def Ctx.gOffset (x : Ctx) (va : Nat) : Nat := ((va : Int) - (x.g.seg 0).1.toNat) % 2 ^ 64 |>.toNat

/-- A queue selector that names no enabled queue (R244). -/
def Ctx.badQueue (x : Ctx) (ub : Nat) : Bool := decide (16 ≤ ub) || !x.s.queueOn x.t.vi ub

/-- The record of SPAWN or SPAWNC and its join counter, after the checks of R242 to R244 in the order of R303; the third
part is the counter of SPAWNC. -/
structure SpawnArgs where
  rec0 : List Byte
  join : Option Located
  counter : Option Located
  deriving DecidableEq, Repr

/-- Read a located range as the group does. -/
def Ctx.current (x : Ctx) (s : State) (k : Located) : List Byte := (x.readAt s.mem [] s false k).2

/-- The checks of SPAWN and SPAWNC: `deep` is SPAWN's depth check, `uc` SPAWNC's counter. -/
def Ctx.spawnChecks (x : Ctx) (ua ub : Nat) (uc : Option Nat) (deep : Bool) : Except Trap SpawnArgs :=
  let cf := match uc with | some c => x.gFault c 4 4 c | none => none
  match lowerFault (x.gFault ua 64 64 ua) cf with
  | some tr => .error tr
  | none =>
    if deep && decide (8 ≤ x.t.cont.depth) then .error (trapOf 8 0 x.act)
    else match x.locate 0 64 .read false [x.once ua], x.locate 0 4 .read false ((uc.toList).map x.once) with
      | .error tr, _ => .error tr
      | .ok _, .error tr => .error tr
      | .ok rs, .ok cs =>
        match memPoison x.s x.agent x.t.vi (rs ++ cs) with
        | some tr => if x.badQueue ub then .error (engineTrap 1) else .error tr
        | none =>
          let rec0 := rs.flatMap (fun k => x.current x.s k)
          let j := field rec0 0x30 8
          let off := x.gOffset j
          let jf := if j = 0 then none else x.gFault off 4 4 j
          match jf with
          | some tr => .error tr
          | none =>
            let js := if j = 0 ∨ !deep then .ok [] else x.locate 0 4 .rmw true [x.once off]
            match js with
            | .error tr => .error tr
            | .ok ks =>
              let full := ks.any (fun k => leNat (x.current x.s k) == 2 ^ 32 - 1)
              if full && (memPoison x.s x.agent x.t.vi ks).isNone then .error (trapOf 8 1 x.act)
              else if x.badQueue ub then .error (engineTrap 1)
              else match memPoison x.s x.agent x.t.vi ks with
                | some tr => .error tr
                | none => .ok ⟨rec0, ks.head?, cs.head?⟩

/-- The launch pointer a child takes (R242, R243). -/
def Ctx.childLaunch (x : Ctx) (rec0 : List Byte) : DWord :=
  let l := field rec0 0x38 8
  if l = 0 then x.t.cont.launch else BitVec.ofNat 64 l

/-- The spawner's launch record, for a child whose record names none (R68). -/
def Ctx.ownLaunch (x : Ctx) (rec0 : List Byte) : Option Launch := if field rec0 0x38 8 = 0 then some x.l else none

/-- The state in which an instruction that reads memory for itself issues: the group's posted REDs and stores are performed (R40,
R195), which may happen at any time. -/
def Ctx.settled (x : Ctx) : Ctx :=
  { x with s := (x.s.performReds (fun r => r.gid == x.g.gid)).deliverWhere (fun q => q.gid == x.g.gid) }

/-- SPAWN's effect in a settled state (R242). -/
def Ctx.spawn (x : Ctx) (rel : Rel) (ub ua : Nat) : Res :=
  if !x.any then .ok x.s
  else if x.orderWaits true then x.again
  else match x.spawnChecks ua ub none true with
    | .error tr => .trap tr
    | .ok a =>
      let s1 := match rel with | some sc => x.s.release x.g x.t sc | none => x.s
      let s2 := match a.join with
        | some k => (x.atomLocated s1 .add32 k ⟨k.acc, 0, 1, 0⟩).1
        | none => s1
      match s2.enqueueTask x.t.vi x.t.grid ub (patchCont a.rec0 (x.t.cont.depth + 1) (some false) (x.childLaunch a.rec0))
          x.t.service x.t.privileged (x.ownLaunch a.rec0) with
      | some s3 => .ok s3
      | none => x.again

/-- The name of a virtual interface's counter for registrations (R31). -/
def counterKey (vi : Nat) (k : Located) : Nat :=
  match k.parts with
  | p :: _ => if p.2.2.remote then remoteKey vi p.1 else p.2.2.pa
  | [] => 0

/-- SPAWNC's effect in a settled state (R243). -/
def Ctx.spawnc (x : Ctx) (rel : Rel) (uc ub ua : Nat) : Res :=
  if !x.any then .ok x.s
  else if x.orderWaits true then x.again
  else match x.spawnChecks ua ub (some uc) false with
    | .error tr => .trap tr
    | .ok a =>
      let s1 := match rel with | some sc => x.s.release x.g x.t sc | none => x.s
      let bs := patchCont a.rec0 x.t.cont.depth (some true) (x.childLaunch a.rec0)
      let zero := a.counter.all (fun k => leNat (x.current s1 k) == 0)
      if zero then
        match s1.enqueueTask x.t.vi x.t.grid ub bs x.t.service x.t.privileged (x.ownLaunch a.rec0) with
        | some s2 => .ok s2
        | none => x.again
      else
        let r : Reg31 := { vi := x.t.vi, grid := x.t.grid, counter := (a.counter.map (counterKey x.t.vi)).getD 0, queue := ub, bytes := bs
                           service := x.t.service, privileged := x.t.privileged, launch := x.ownLaunch a.rec0, due := none }
        .ok { s1 with regs31 := s1.regs31 ++ [r] }

/-- SPAWN (R241, R242). -/
def execSpawn (g : Guard) (rel : Rel) (ub ua : BitVec 6) (s : State) : Host.Outcome State Fault Refusal :=
  issue (.spawn g rel ub ua) noDyn (fun _ => [uName 1 ua, uName 2 ub]) (fun x => x.settled.spawn rel (x.u ub) (x.u ua)) s

/-- SPAWNC (R241, R243). -/
def execSpawnc (g : Guard) (rel : Rel) (uc ub ua : BitVec 6) (s : State) : Host.Outcome State Fault Refusal :=
  issue (.spawnc g rel uc ub ua) noDyn (fun _ => [uName 1 ua, uName 2 ub, uName 3 uc])
    (fun x => x.settled.spawnc rel (x.u uc) (x.u ub) (x.u ua)) s

/-- UINT (R245): a release at .sys, then the interrupt is posted. -/
def execUint (g : Guard) (payload : BitVec 24) (sa : BitVec 6) (s : State) : Host.Outcome State Fault Refusal :=
  issue (.uint g payload sa) noDyn (fun _ => [uName 1 sa]) (fun x =>
    if !x.any then .ok x.s
    else x.afterRelease .sys (fun s1 =>
      let n : Interrupt := { vi := x.t.vi, base := (s1.viOf x.t.vi).uintBase, target := x.u sa % 256, payload := payload
                             team := sysTeam x.t x.l, core := sysCore x.g.core, group := x.g.num }
      .ok { s1 with host := { s1.host with interrupts := s1.host.interrupts ++ [n] } })) s

end Sys2Proof.Machine
end

