-- ==== Sys2Proof/Machine/Integer.lean ====
section
/-! DEFINITION. Family 0: integer, logic, moves, comparisons, addresses and their immediate forms (R144 to R151). -/
namespace Sys2Proof.Machine

/-- Signed reading of 32 bits. -/
def s32 (x : Nat) : Int := signed 32 x

/-- A number reduced modulo 2^32. -/
def w32 (x : Nat) : Nat := x % 2 ^ 32

/-- An integer reduced modulo 2^32. -/
def wi32 (x : Int) : Nat := (x % 2 ^ 32).toNat

/-- An integer clamped to a range. -/
def clampInt (lo hi x : Int) : Int := if x < lo then lo else if hi < x then hi else x

/-- The smaller or larger of two values of a width (R144). -/
def minMax (w : Nat) (sgn max : Bool) (x y : Nat) : Nat := pickExt w sgn max x y

/-- Apply an operation to both 16-bit halves (R144). -/
def halves (f : Nat → Nat → Nat) (x y : Nat) : Nat := f (x % 2 ^ 16) (y % 2 ^ 16) % 2 ^ 16 + f (x / 2 ^ 16) (y / 2 ^ 16) % 2 ^ 16 * 2 ^ 16

/-- Shifts by the whole 32-bit count (R145). -/
def shlOp (x n : Nat) : Nat := if 32 ≤ n then 0 else w32 (x * 2 ^ n)
def shrOp (x n : Nat) : Nat := if 32 ≤ n then 0 else x / 2 ^ n
def sarOp (x n : Nat) : Nat := if 32 ≤ n then (if 2 ^ 31 ≤ x then 2 ^ 32 - 1 else 0) else wi32 (s32 x / 2 ^ n)
def rotOp (x n : Nat) : Nat := w32 (x * 2 ^ (n % 32)) + x / 2 ^ (32 - n % 32)

/-- BFE (R146). -/
def bfeOp (sgn : Bool) (x b : Nat) : Nat :=
  let pos := b % 256
  let len := min (b / 256 % 256) 32
  let wide : Int := if sgn then s32 x else x
  let f := wide / 2 ^ pos % 2 ^ len
  if sgn && decide (0 < len) && decide (2 ^ (len - 1) ≤ f) then wi32 (f - 2 ^ len) else wi32 f

/-- BFI (R146). -/
def bfiOp (x y c : Nat) : Nat :=
  let pos := c % 256
  let len := min (c / 256 % 256) 32
  let mask := w32 ((2 ^ len - 1) * 2 ^ pos)
  Nat.lor (Nat.land y (2 ^ 32 - 1 - mask)) (Nat.land (x * 2 ^ pos) mask)

/-- Bits of a 32-bit word, lowest first. -/
def bits32 (x : Nat) : List Nat := (List.range 32).map (fun i => x / 2 ^ i % 2)

/-- POPC, CLZ and BREV (R147). -/
def popcOp (x : Nat) : Nat := (bits32 x).foldl (· + ·) 0
def clzOp (x : Nat) : Nat := if x = 0 then 32 else 31 - Nat.log2 x
def brevOp (x : Nat) : Nat := (bits32 x).foldl (fun a b => 2 * a + b) 0

/-- An integer comparison (R149). -/
def icmpOp (sgn : Bool) (cmp : ICmp) (x y : Nat) : Bool :=
  let lt := if sgn then decide (s32 x < s32 y) else decide (x < y)
  match cmp with
  | .eq => x == y
  | .ne => x != y
  | .lt => lt
  | .le => lt || x == y
  | .gt => !lt && x != y
  | .ge => !lt

/-- A comparison combined with a predicate (R149). -/
def bopOp (bop : Bop) (t c : Bool) : Bool :=
  match bop with
  | .none => t
  | .and => t && c
  | .or => t || c
  | .xor => t != c

/-- d = a + b (R144). -/
def execIadd (g : Guard) (d a b : Opnd) (s : State) : Host.Outcome State Fault Refusal :=
  intLanes (.iadd g d a b) d [a, b] (fun x l => w32 (x.src a l + x.src b l)) s

/-- d = a − b (R144). -/
def execIsub (g : Guard) (d a b : Opnd) (s : State) : Host.Outcome State Fault Refusal :=
  intLanes (.isub g d a b) d [a, b] (fun x l => wi32 ((x.src a l : Int) - x.src b l)) s

/-- d = bits [31:0] of a × b (R144). -/
def execImul (g : Guard) (d a b : Opnd) (s : State) : Host.Outcome State Fault Refusal :=
  intLanes (.imul g d a b) d [a, b] (fun x l => w32 (x.src a l * x.src b l)) s

/-- d = bits [63:32] of the product (R144). -/
def execImulh (g : Guard) (sgn : Bool) (d a b : Opnd) (s : State) : Host.Outcome State Fault Refusal :=
  intLanes (.imulh g sgn d a b) d [a, b] (fun x l =>
    if sgn then wi32 (s32 (x.src a l) * s32 (x.src b l) / 2 ^ 32) else x.src a l * x.src b l / 2 ^ 32) s

/-- d = bits [31:0] of a × b + c (R144). -/
def execImad (g : Guard) (d a b c : Opnd) (s : State) : Host.Outcome State Fault Refusal :=
  intLanes (.imad g d a b c) d [a, b, c] (fun x l => w32 (x.src a l * x.src b l + x.src c l)) s

/-- d = the smaller of a and b (R144). -/
def execImin (g : Guard) (sgn : Bool) (d a b : Opnd) (s : State) : Host.Outcome State Fault Refusal :=
  intLanes (.imin g sgn d a b) d [a, b] (fun x l => minMax 32 sgn false (x.src a l) (x.src b l)) s

/-- d = the larger of a and b (R144). -/
def execImax (g : Guard) (sgn : Bool) (d a b : Opnd) (s : State) : Host.Outcome State Fault Refusal :=
  intLanes (.imax g sgn d a b) d [a, b] (fun x l => minMax 32 sgn true (x.src a l) (x.src b l)) s

/-- d = the absolute value of a (R144). -/
def execIabs (g : Guard) (d a : Opnd) (s : State) : Host.Outcome State Fault Refusal :=
  intLanes (.iabs g d a) d [a] (fun x l => if s32 (x.src a l) < 0 then wi32 (-(x.src a l : Int)) else x.src a l) s

/-- d = 0 − a (R144). -/
def execIneg (g : Guard) (d a : Opnd) (s : State) : Host.Outcome State Fault Refusal :=
  intLanes (.ineg g d a) d [a] (fun x l => wi32 (-(x.src a l : Int))) s

/-- d = a + b, clamped (R144). -/
def execIaddSat (g : Guard) (sgn : Bool) (d a b : Opnd) (s : State) : Host.Outcome State Fault Refusal :=
  intLanes (.iaddSat g sgn d a b) d [a, b] (fun x l =>
    if sgn then wi32 (clampInt (-2 ^ 31) (2 ^ 31 - 1) (s32 (x.src a l) + s32 (x.src b l)))
    else satAt (2 ^ 32 - 1) (x.src a l + x.src b l)) s

/-- d = a − b, clamped (R144). -/
def execIsubSat (g : Guard) (sgn : Bool) (d a b : Opnd) (s : State) : Host.Outcome State Fault Refusal :=
  intLanes (.isubSat g sgn d a b) d [a, b] (fun x l =>
    if sgn then wi32 (clampInt (-2 ^ 31) (2 ^ 31 - 1) (s32 (x.src a l) - s32 (x.src b l)))
    else x.src a l - x.src b l) s

/-- Each half: d.h = a.h + b.h modulo 2^16 (R144). -/
def execIaddX2 (g : Guard) (d a b : Opnd) (s : State) : Host.Outcome State Fault Refusal :=
  intLanes (.iaddX2 g d a b) d [a, b] (fun x l => halves (fun u v => u + v) (x.src a l) (x.src b l)) s

/-- Each half: d.h = a.h − b.h modulo 2^16 (R144). -/
def execIsubX2 (g : Guard) (d a b : Opnd) (s : State) : Host.Outcome State Fault Refusal :=
  intLanes (.isubX2 g d a b) d [a, b] (fun x l => halves (fun u v => u + 2 ^ 16 - v) (x.src a l) (x.src b l)) s

/-- Each half: the smaller (R144). -/
def execIminX2 (g : Guard) (sgn : Bool) (d a b : Opnd) (s : State) : Host.Outcome State Fault Refusal :=
  intLanes (.iminX2 g sgn d a b) d [a, b] (fun x l => halves (minMax 16 sgn false) (x.src a l) (x.src b l)) s

/-- Each half: the larger (R144). -/
def execImaxX2 (g : Guard) (sgn : Bool) (d a b : Opnd) (s : State) : Host.Outcome State Fault Refusal :=
  intLanes (.imaxX2 g sgn d a b) d [a, b] (fun x l => halves (minMax 16 sgn true) (x.src a l) (x.src b l)) s

/-- d = a AND b (R145). -/
def execAnd (g : Guard) (d a b : Opnd) (s : State) : Host.Outcome State Fault Refusal :=
  intLanes (.and g d a b) d [a, b] (fun x l => Nat.land (x.src a l) (x.src b l)) s

/-- d = a OR b (R145). -/
def execOr (g : Guard) (d a b : Opnd) (s : State) : Host.Outcome State Fault Refusal :=
  intLanes (.or g d a b) d [a, b] (fun x l => Nat.lor (x.src a l) (x.src b l)) s

/-- d = a XOR b (R145). -/
def execXor (g : Guard) (d a b : Opnd) (s : State) : Host.Outcome State Fault Refusal :=
  intLanes (.xor g d a b) d [a, b] (fun x l => Nat.xor (x.src a l) (x.src b l)) s

/-- d = a with every bit inverted (R145). -/
def execNot (g : Guard) (d a : Opnd) (s : State) : Host.Outcome State Fault Refusal :=
  intLanes (.not g d a) d [a] (fun x l => 2 ^ 32 - 1 - x.src a l) s

/-- d = a << n, 0 from n = 32 on (R145). -/
def execShl (g : Guard) (d a b : Opnd) (s : State) : Host.Outcome State Fault Refusal :=
  intLanes (.shl g d a b) d [a, b] (fun x l => shlOp (x.src a l) (x.src b l)) s

/-- d = a >> n, zero fill (R145). -/
def execShr (g : Guard) (d a b : Opnd) (s : State) : Host.Outcome State Fault Refusal :=
  intLanes (.shr g d a b) d [a, b] (fun x l => shrOp (x.src a l) (x.src b l)) s

/-- d = a >> n, sign fill (R145). -/
def execSar (g : Guard) (d a b : Opnd) (s : State) : Host.Outcome State Fault Refusal :=
  intLanes (.sar g d a b) d [a, b] (fun x l => sarOp (x.src a l) (x.src b l)) s

/-- d = a rotated left by n mod 32 (R145). -/
def execRot (g : Guard) (d a b : Opnd) (s : State) : Host.Outcome State Fault Refusal :=
  intLanes (.rot g d a b) d [a, b] (fun x l => rotOp (x.src a l) (x.src b l)) s

/-- d = the bit field of a that b names (R146). -/
def execBfe (g : Guard) (sgn : Bool) (d a b : Opnd) (s : State) : Host.Outcome State Fault Refusal :=
  intLanes (.bfe g sgn d a b) d [a, b] (fun x l => bfeOp sgn (x.src a l) (x.src b l)) s

/-- d = b with low bits of a inserted where c names (R146). -/
def execBfi (g : Guard) (d a b c : Opnd) (s : State) : Host.Outcome State Fault Refusal :=
  intLanes (.bfi g d a b c) d [a, b, c] (fun x l => bfiOp (x.src a l) (x.src b l) (x.src c l)) s

/-- d = the number of 1 bits of a (R147). -/
def execPopc (g : Guard) (d a : Opnd) (s : State) : Host.Outcome State Fault Refusal :=
  intLanes (.popc g d a) d [a] (fun x l => popcOp (x.src a l)) s

/-- d = the number of leading zero bits of a (R147). -/
def execClz (g : Guard) (d a : Opnd) (s : State) : Host.Outcome State Fault Refusal :=
  intLanes (.clz g d a) d [a] (fun x l => clzOp (x.src a l)) s

/-- Bit i of d is bit 31 − i of a (R147). -/
def execBrev (g : Guard) (d a : Opnd) (s : State) : Host.Outcome State Fault Refusal :=
  intLanes (.brev g d a) d [a] (fun x l => brevOp (x.src a l)) s

/-- d = a where c holds, else b (R148). -/
def execSel (g : Guard) (d a b c : Opnd) (s : State) : Host.Outcome State Fault Refusal :=
  intLanes (.sel g d a b c) d [a, b, c] (fun x l => if x.src c l = 1 then x.src a l else x.src b l) s

/-- MOV (R148): what is written depends on the destination. -/
def execMov (g : Guard) (d a : Opnd) (s : State) : Host.Outcome State Fault Refusal :=
  issue (.mov g d a) noDyn (fun _ => namesA d [a]) (fun x =>
    match d, a with
    | .s n, .s m => x.okGroup (fun h => if x.any then h.sset n.toNat (x.g.sget m.toNat) else h)
    | .fsr, _ => x.okGroup (fun h => if x.any then h.setFsr (x.src a 0) else h)
    | _, _ => .ok (x.s.setGroup (x.laneWise d (fun l => (x.src a l, 0))))) s

/-- ISETP (R149): a comparison into a predicate. -/
def execIsetp (g : Guard) (sgn : Bool) (bop : Bop) (cmp : ICmp) (d a b c : Opnd) (s : State) :
    Host.Outcome State Fault Refusal :=
  intLanes (.isetp g sgn bop cmp d a b c) d [a, b, c] (fun x l =>
    bit (bopOp bop (icmpOp sgn cmp (x.src a l) (x.src b l)) (x.src c l == 1))) s

/-- LEA (R150): d = (a + (ext(b) << N)) mod 2^64. -/
def execLea (g : Guard) (sx : Bool) (sh : BitVec 3) (d a b : Opnd) (s : State) : Host.Outcome State Fault Refusal :=
  issue (.lea g sx sh d a b) noDyn
    (fun _ => [⟨0, .op d (wideCount d), false⟩, ⟨1, .op a (wideCount a), true⟩, ⟨2, .op b 1, true⟩])
    (fun x => .ok (x.s.setGroup (x.laneWise64 d (fun l =>
      let off : Int := (if sx then s32 (x.src b l) else (x.src b l : Int)) * 2 ^ sh.toNat
      (((x.src64 a l : Int) + off) % 2 ^ 64).toNat)))) s

/-- IADD64 (R150): d = (a + b) mod 2^64. -/
def execIadd64 (g : Guard) (d a b : Opnd) (s : State) : Host.Outcome State Fault Refusal :=
  issue (.iadd64 g d a b) noDyn
    (fun _ => [⟨0, .op d (wideCount d), false⟩, ⟨1, .op a (wideCount a), true⟩, ⟨2, .op b (wideCount b), true⟩])
    (fun x => .ok (x.s.setGroup (x.laneWise64 d (fun l => (x.src64 a l + x.src64 b l) % 2 ^ 64)))) s

/-- MOVI (R151): d = imm, zero-extended in a uniform register. -/
def execMovi (g : Guard) (u : Bool) (d : BitVec 8) (imm : Word) (s : State) : Host.Outcome State Fault Refusal :=
  intLanes (.movi g u d imm) (bOpnd u d) [] (fun _ _ => imm.toNat) s

/-- MOVI.hi (R151): bits [63:32] of a uniform register, bits [31:0] kept; a partial write leaves poison (R318). -/
def execMoviHi (g : Guard) (d : BitVec 8) (imm : Word) (s : State) : Host.Outcome State Fault Refusal :=
  issue (.moviHi g d imm) noDyn (fun _ => namesA (bOpnd true d) [])
    (fun x => .ok (x.s.setGroup { x.laneWise64 (bOpnd true d) (fun _ =>
      imm.toNat * 2 ^ 32 + (x.g.sget (d.toNat % 64)).toNat % 2 ^ 32) with poisonS := x.g.poisonS })) s

/-- MOVI.sx (R151): a uniform register is imm sign-extended. -/
def execMoviSx (g : Guard) (d : BitVec 8) (imm : Word) (s : State) : Host.Outcome State Fault Refusal :=
  issue (.moviSx g d imm) noDyn (fun _ => namesA (bOpnd true d) [])
    (fun x => .ok (x.s.setGroup (x.laneWise64 (bOpnd true d) (fun _ => (s32 imm.toNat % 2 ^ 64).toNat)))) s

/-- IADD with an immediate (R151). -/
def execIaddImm (g : Guard) (u : Bool) (d a : BitVec 8) (imm : Word) (s : State) : Host.Outcome State Fault Refusal :=
  intLanes (.iaddImm g u d a imm) (bOpnd u d) [bOpnd u a] (fun x l => w32 (x.src (bOpnd u a) l + imm.toNat)) s

/-- IMUL with an immediate (R151). -/
def execImulImm (g : Guard) (u : Bool) (d a : BitVec 8) (imm : Word) (s : State) : Host.Outcome State Fault Refusal :=
  intLanes (.imulImm g u d a imm) (bOpnd u d) [bOpnd u a] (fun x l => w32 (x.src (bOpnd u a) l * imm.toNat)) s

/-- AND with an immediate (R151). -/
def execAndImm (g : Guard) (u : Bool) (d a : BitVec 8) (imm : Word) (s : State) : Host.Outcome State Fault Refusal :=
  intLanes (.andImm g u d a imm) (bOpnd u d) [bOpnd u a] (fun x l => Nat.land (x.src (bOpnd u a) l) imm.toNat) s

/-- OR with an immediate (R151). -/
def execOrImm (g : Guard) (u : Bool) (d a : BitVec 8) (imm : Word) (s : State) : Host.Outcome State Fault Refusal :=
  intLanes (.orImm g u d a imm) (bOpnd u d) [bOpnd u a] (fun x l => Nat.lor (x.src (bOpnd u a) l) imm.toNat) s

/-- XOR with an immediate (R151). -/
def execXorImm (g : Guard) (u : Bool) (d a : BitVec 8) (imm : Word) (s : State) : Host.Outcome State Fault Refusal :=
  intLanes (.xorImm g u d a imm) (bOpnd u d) [bOpnd u a] (fun x l => Nat.xor (x.src (bOpnd u a) l) imm.toNat) s

/-- SHL with an immediate (R151). -/
def execShlImm (g : Guard) (u : Bool) (d a : BitVec 8) (imm : Word) (s : State) : Host.Outcome State Fault Refusal :=
  intLanes (.shlImm g u d a imm) (bOpnd u d) [bOpnd u a] (fun x l => shlOp (x.src (bOpnd u a) l) imm.toNat) s

/-- SHR with an immediate (R151). -/
def execShrImm (g : Guard) (u : Bool) (d a : BitVec 8) (imm : Word) (s : State) : Host.Outcome State Fault Refusal :=
  intLanes (.shrImm g u d a imm) (bOpnd u d) [bOpnd u a] (fun x l => shrOp (x.src (bOpnd u a) l) imm.toNat) s

/-- SAR with an immediate (R151). -/
def execSarImm (g : Guard) (u : Bool) (d a : BitVec 8) (imm : Word) (s : State) : Host.Outcome State Fault Refusal :=
  intLanes (.sarImm g u d a imm) (bOpnd u d) [bOpnd u a] (fun x l => sarOp (x.src (bOpnd u a) l) imm.toNat) s

/-- LEA with an immediate (R151): the sign-extended immediate with no shift. -/
def execLeaImm (g : Guard) (u : Bool) (d a : BitVec 8) (imm : Word) (s : State) : Host.Outcome State Fault Refusal :=
  issue (.leaImm g u d a imm) noDyn
    (fun _ => [⟨0, .op (bOpnd u d) (wideCount (bOpnd u d)), false⟩, ⟨1, .op (bOpnd u a) (wideCount (bOpnd u a)), true⟩])
    (fun x => .ok (x.s.setGroup (x.laneWise64 (bOpnd u d) (fun l =>
      (((x.src64 (bOpnd u a) l : Int) + s32 imm.toNat) % 2 ^ 64).toNat)))) s

end Sys2Proof.Machine
end

