-- ==== Sys2Proof/Machine/FloatOps.lean ====
section
/-! DEFINITION. Family 1: floating point (R152 to R158), over the formats and roundings of Float.lean. -/
namespace Sys2Proof.Machine

/-- The launch's ftz flag (R85). -/
def Ctx.ftz (x : Ctx) : Bool := x.l.ftz

/-- d = round(a + b) (R152). -/
def execFadd (g : Guard) (rnd : RMode) (mods : BitVec 6) (d a b : Opnd) (s : State) : Host.Outcome State Fault Refusal :=
  fltLanes (.fadd g rnd mods d a b) d [a, b] (fun x l => fmtF32.add rnd x.ftz (x.fsrc mods 0 a l) (x.fsrc mods 1 b l)) s

/-- d = round(a − b) (R152). -/
def execFsub (g : Guard) (rnd : RMode) (mods : BitVec 6) (d a b : Opnd) (s : State) : Host.Outcome State Fault Refusal :=
  fltLanes (.fsub g rnd mods d a b) d [a, b] (fun x l => fmtF32.sub rnd x.ftz (x.fsrc mods 0 a l) (x.fsrc mods 1 b l)) s

/-- d = round(a × b) (R152). -/
def execFmul (g : Guard) (rnd : RMode) (mods : BitVec 6) (d a b : Opnd) (s : State) : Host.Outcome State Fault Refusal :=
  fltLanes (.fmul g rnd mods d a b) d [a, b] (fun x l => fmtF32.mul rnd x.ftz (x.fsrc mods 0 a l) (x.fsrc mods 1 b l)) s

/-- d = round(a × b + c), one rounding (R152). -/
def execFfma (g : Guard) (rnd : RMode) (mods : BitVec 6) (d a b c : Opnd) (s : State) :
    Host.Outcome State Fault Refusal :=
  fltLanes (.ffma g rnd mods d a b c) d [a, b, c]
    (fun x l => fmtF32.fma rnd x.ftz (x.fsrc mods 0 a l) (x.fsrc mods 1 b l) (x.fsrc mods 2 c l)) s

/-- d = the smaller of a and b (R153). -/
def execFmin (g : Guard) (mods : BitVec 6) (d a b : Opnd) (s : State) : Host.Outcome State Fault Refusal :=
  fltLanes (.fmin g mods d a b) d [a, b] (fun x l => fmtF32.minmax false x.ftz (x.fsrc mods 0 a l) (x.fsrc mods 1 b l)) s

/-- d = the larger of a and b (R153). -/
def execFmax (g : Guard) (mods : BitVec 6) (d a b : Opnd) (s : State) : Host.Outcome State Fault Refusal :=
  fltLanes (.fmax g mods d a b) d [a, b] (fun x l => fmtF32.minmax true x.ftz (x.fsrc mods 0 a l) (x.fsrc mods 1 b l)) s

/-- d = fmin(fmax(a, b), c) (R153). -/
def execFclamp (g : Guard) (mods : BitVec 6) (d a b c : Opnd) (s : State) : Host.Outcome State Fault Refusal :=
  fltLanes (.fclamp g mods d a b c) d [a, b, c] (fun x l =>
    let (m, f1) := fmtF32.minmax true x.ftz (x.fsrc mods 0 a l) (x.fsrc mods 1 b l)
    let (r, f2) := fmtF32.minmax false x.ftz m (x.fsrc mods 2 c l)
    (r, f1 ||| f2)) s

/-- FSETP (R154): a comparison into a predicate. -/
def execFsetp (g : Guard) (bop : Bop) (mods : BitVec 6) (cmp : FCmp) (d a b c : Opnd) (s : State) :
    Host.Outcome State Fault Refusal :=
  fltLanes (.fsetp g bop mods cmp d a b c) d [a, b, c] (fun x l =>
    let (t, f) := fmtF32.compare cmp x.ftz (x.fsrc mods 0 a l) (x.fsrc mods 1 b l)
    (bit (bopOp bop t (x.src c l == 1)), f)) s

/-- FRND (R155): a rounded to an integral value. -/
def execFrnd (g : Guard) (rnd : RMode) (mods : BitVec 6) (d a : Opnd) (s : State) : Host.Outcome State Fault Refusal :=
  fltLanes (.frnd g rnd mods d a) d [a] (fun x l => frnd rnd x.ftz (x.fsrc mods 0 a l)) s

/-- The packed 16-bit format of HADD2 and HFMA2 (R156). -/
def halfFmt (bf : Bool) : FFmt := if bf then fmtBF16 else fmtF16

/-- Join the results of both halves (R156). -/
def joinHalves (lo hi : Nat × Flags) : Nat × Flags := (lo.1 + hi.1 * 2 ^ 16, lo.2 ||| hi.2)

/-- HADD2 (R156): d.h = round(a.h + b.h) in each half. -/
def execHadd2 (g : Guard) (bf : Bool) (mods : BitVec 6) (d a b : Opnd) (s : State) : Host.Outcome State Fault Refusal :=
  fltLanes (.hadd2 g bf mods d a b) d [a, b] (fun x l =>
    let u := wordMods 16 mods 0 (x.src a l)
    let v := wordMods 16 mods 1 (x.src b l)
    let h (k : Nat) : Nat × Flags := (halfFmt bf).add .rne x.ftz (elem 16 k u) (elem 16 k v)
    joinHalves (h 0) (h 1)) s

/-- HFMA2 (R156): d.h = round(a.h × b.h + c.h) in each half, one rounding. -/
def execHfma2 (g : Guard) (bf : Bool) (mods : BitVec 6) (d a b c : Opnd) (s : State) : Host.Outcome State Fault Refusal :=
  fltLanes (.hfma2 g bf mods d a b c) d [a, b, c] (fun x l =>
    let u := wordMods 16 mods 0 (x.src a l)
    let v := wordMods 16 mods 1 (x.src b l)
    let w := wordMods 16 mods 2 (x.src c l)
    let h (k : Nat) : Nat × Flags := (halfFmt bf).fma .rne x.ftz (elem 16 k u) (elem 16 k v) (elem 16 k w)
    joinHalves (h 0) (h 1)) s

/-- The exact sum of several values; NaN when one is, or when both infinities occur (R90, R157). DESIGN CHOICE (log 59): R157 gives
no sign of an exact zero sum; it is −0 only when every term is a negative zero. -/
def sumVals (l : List FVal) : FVal × Flags :=
  let pos := l.any (fun v => v == .inf false)
  let neg := l.any (fun v => v == .inf true)
  if pos && neg then (.nan false, flNV)
  else if l.any FVal.isNan then (.nan false, 0)
  else if pos then (.inf false, 0)
  else if neg then (.inf true, 0)
  else
    let t := l.foldl (fun a v => Dy.add a v.dy) ⟨0, 0⟩
    if t.m = 0 then (.fin (l.all (fun v => v.neg)) 0 0, 0)
    else (.fin (decide (t.m < 0)) t.m.natAbs t.e, 0)

/-- FDOT4 (R157): c plus four FP8 products, exact, then one rounding. -/
def fdot4 (e5 ftz : Bool) (a b c : Nat) : Nat × Flags :=
  let f := if e5 then fmtE5M2 else fmtE4M3
  let prods := (List.range 4).map (fun i => (f.decode (elem 8 i a)).mul (f.decode (elem 8 i b)))
  let z := fmtF32.read ftz c
  let (v, fl) := sumVals (z :: prods.map (·.1))
  fmtF32.finish .rne ftz (v, fl ||| unionFlags (prods.map (·.2)) ||| flIf z.isSig flNV)

/-- FDOT4 (R157). -/
def execFdot4 (g : Guard) (e5 : Bool) (mods : BitVec 6) (d a b c : Opnd) (s : State) : Host.Outcome State Fault Refusal :=
  fltLanes (.fdot4 g e5 mods d a b c) d [a, b, c] (fun x l =>
    fdot4 e5 x.ftz (wordMods 8 mods 0 (x.src a l)) (wordMods 8 mods 1 (x.src b l)) (wordMods 32 mods 2 (x.src c l))) s

/-- FADD with an immediate (R158). -/
def execFaddImm (g : Guard) (u : Bool) (d a : BitVec 8) (imm : Word) (s : State) : Host.Outcome State Fault Refusal :=
  fltLanes (.faddImm g u d a imm) (bOpnd u d) [bOpnd u a] (fun x l =>
    fmtF32.add .rne x.ftz (x.src (bOpnd u a) l) imm.toNat) s

/-- FMUL with an immediate (R158). -/
def execFmulImm (g : Guard) (u : Bool) (d a : BitVec 8) (imm : Word) (s : State) : Host.Outcome State Fault Refusal :=
  fltLanes (.fmulImm g u d a imm) (bOpnd u d) [bOpnd u a] (fun x l =>
    fmtF32.mul .rne x.ftz (x.src (bOpnd u a) l) imm.toNat) s

end Sys2Proof.Machine
end

