-- ==== Sys2Proof/Machine/Convert.lean ====
section
/-! DEFINITION. Family 2: conversions, block quantisation and the special functions (R94 to R99, R159 to R165). -/
namespace Sys2Proof.Machine

/-- A format slot, decoded (R69). -/
structure Slot where
  fmt : Nat
  block : Nat
  band : Bool
  nanovf : Bool
  rnd : RMode
  limit : Nat
  high : Bool
  deriving DecidableEq, Repr

/-- Read a slot (R69). -/
def slotOf (w : DWord) : Slot :=
  let n := w.toNat
  ⟨fld n 0 4, fld n 4 2, fld n 6 1 == 1, fld n 7 1 == 1, rmodeOf (fld n 8 2), fld n 10 8, decide (fld n 18 46 ≠ 0)⟩

/-- The combinations that are valid (R70). -/
def Slot.valid (s : Slot) : Bool :=
  !s.high && (match s.fmt with
    | 5 => s.block == 1
    | 3 | 4 => s.block == 0 || s.block == 2
    | 0 | 1 | 2 | 6 | 7 => s.block == 0 && !s.band
    | _ => false)

/-- A slot of the launch record. -/
def Ctx.slot (x : Ctx) (k : Nat) : Slot := slotOf (x.l.slots.getD k 0)

/-- The slot's element format. -/
def Slot.elt (s : Slot) : Fmt := fmtOf s.fmt

/-- Formats that CVTQ, CVTDQ and BSCALE accept (R161, R164). -/
def Slot.quantOk (s : Slot) : Bool := s.valid && (s.fmt == 3 || s.fmt == 4 || s.fmt == 5)

/-- Elements of a block that one lane converts (R161). -/
def Slot.inputs (s : Slot) : Nat := if s.fmt = 5 then 8 else 32

/-- Registers that hold the codes of a block (R161). -/
def Slot.codeRegs (s : Slot) : Nat := if s.fmt = 5 then 1 else 8

/-- Where element k's code stands: register and bit width (R161). -/
def Slot.place (s : Slot) (k : Nat) : Nat × Nat × Nat := if s.fmt = 5 then (0, 4, k) else (k / 4, 8, k % 4)

/-- The band scale operand's use is the slot's (R161, R163). -/
def Slot.bandOk (s : Slot) (c : Opnd) : Bool := if s.band then !c.isZero else c.isZero

/-- A lane's band scale for CVTQ as m × 2^e, and whether it was replaced by 1.0 (R94). -/
def bandScale (s : Slot) (code : Nat) : Nat × Int × Flags :=
  if !s.band then (1, 0, 0)
  else match fmtBF16.decode code with
    | .fin neg m e => if neg || m < 2 ^ 7 then (1, 0, flNV) else (m, e, 0)
    | _ => (1, 0, flNV)

/-- Is the code a zero of its format (R94)? -/
def zeroCode (f : Fmt) (code : Nat) : Bool := code % 2 ^ (fmtWidth f - 1) == 0

/-- A block's codes, flags and underflow count under a conversion of each element (R94). -/
def gatherBlock (s : Slot) (ins : List FVal) (conv : FVal → Nat × Flags) : List Nat × Flags × Nat :=
  let rs := ins.map (fun v => (v, conv v))
  let under := rs.filter (fun r => (match r.1 with | .fin _ m _ => m != 0 | _ => false) && zeroCode s.elt r.2.1)
  (rs.map (fun r => r.2.1), unionFlags (rs.map (fun r => r.2.2)), under.length)

/-- Convert a block by R94 under a scale ym × 2^ye: codes, flags, and the underflow count. -/
def convertBlock (s : Slot) (nanovf : Bool) (ins : List FVal) (ym : Nat) (ye : Int) : List Nat × Flags × Nat :=
  gatherBlock s ins (fun v => fmtConvertQuot s.elt s.rnd nanovf v ym ye)

/-- An overflow that saturates (R95): the largest finite value of its sign; the flags stay. -/
def saturate (f : Fmt) (v : FVal) (r : Nat × Flags) : Nat × Flags :=
  match fmtLayout f with
  | some ff => if r.2 &&& flOF ≠ 0 then (ff.withSign v.neg ff.maxMag, r.2) else r
  | none => r

/-- Convert a block under a scale that CVTQ.auto chose: every overflow saturates (R95). -/
def saturateBlock (s : Slot) (ins : List FVal) (ym : Nat) (ye : Int) : List Nat × Flags × Nat :=
  gatherBlock s ins (fun v => saturate s.elt v (fmtConvertQuot s.elt s.rnd false v ym ye))

/-- Magnitude of a value as m × 2^e; 2^128 stands for an infinity. -/
def FVal.mag (v : FVal) : Dy :=
  match v with
  | .fin _ m e => ⟨m, e⟩
  | .inf _ => ⟨1, 2000⟩
  | .nan _ => ⟨0, 0⟩

/-- The largest magnitude of the inputs that are not NaN (R95). -/
def amaxOf (ins : List FVal) : Dy := ins.foldl (fun a v => if Dy.lt a v.mag then v.mag else a) ⟨0, 0⟩

/-- The scale code CVTQ.auto starts from (R95, step 2). -/
def autoScale (s : Slot) (amax : Dy) (bm : Nat) (be : Int) : Nat :=
  if amax.m = 0 then 0x60
  else
    let fits (code : Nat) : Bool :=
      let (m, e) := e3m5 code
      Dy.le amax (Dy.mul ⟨m, e⟩ (Dy.mul ⟨fmtMax s.elt, 0⟩ ⟨bm, be⟩))
    (((List.range 255).map (· + 1)).find? fits).getD 0xFF

/-- CVTQ.auto on one block (R95): codes, scale code, flags, underflow count. -/
def autoBlock (s : Slot) (ins : List FVal) (bm : Nat) (be : Int) : List Nat × Nat × Flags × Nat :=
  let code := autoScale s (amaxOf ins) bm be
  let conv (c : Nat) := let (m, e) := e3m5 c; saturateBlock s ins (m * bm) (e + be)
  let (cs, fl, n) := conv code
  if s.limit < n && decide (1 < code) then
    let (cs', fl', n') := conv (code - 1)
    (cs', code - 1, fl', n')
  else (cs, code, fl, n)

/-- The FP32 inputs of a lane's block. -/
def Ctx.blockIns (x : Ctx) (s : Slot) (a lane : Nat) : List FVal :=
  (List.range s.inputs).map (fun k => fmtF32.read x.ftz (x.g.vget (a + k) lane).toNat)

/-- Pack codes into registers (R78, R161). -/
def packCodes (s : Slot) (codes : List Nat) : List Nat :=
  (List.range s.codeRegs).map (fun j => (codes.mapIdx (fun k c => (k, c))).foldl (fun w p =>
    let (r, b, e) := s.place p.1
    if r = j then w + p.2 % 2 ^ b * 2 ^ (b * e) else w) 0)

/-- Write consecutive vector registers in a lane. -/
def Group.vsetAll (g : Group) (n lane : Nat) (xs : List Nat) : Group :=
  (xs.mapIdx (fun j v => (j, v))).foldl (fun h p => h.vset (n + p.1) lane (BitVec.ofNat 32 p.2)) g

/-- Number of a vector operand. -/
def vnum : Opnd → Nat
  | .v n => n.toNat
  | _ => 0

/-- Does a range of registers pass v255 (R161)? -/
def pastV255 (n cnt : Nat) : Bool := decide (256 < n + cnt)

/-- Add a CVTQ's underflow count to uflo after its registers are written (R96, R162): a posted RED.add at .grp, after the group's
accesses that still wait for stash lines mapped to memory (R40, R195), and for the Lens (R226); nothing where the team's frame size
is 0 (R65). -/
def Ctx.addUflo (x : Ctx) (s : State) (count : Nat) : Res :=
  if !x.any || x.l.frameSize = 0 then .ok s
  else if x.orderWaits false then x.again
  else
    let a : Acc := ⟨(x.lanes).getD 0 0, x.act, 0⟩
    match x.segFault 2 4 true true [a] with
    | some tr => .trap tr
    | none => match x.locate 2 4 .write true [a] with
      | .error tr => .trap tr
      | .ok ls =>
        if x.lensBlocks ls then x.again else .ok (ls.foldl (fun t k => k.parts.foldl (fun u p =>
          let u := u.noteTlb x.g.core x.t.vi p.1 p.2.2
          if p.2.2.lost then u.modGroup x.g.gid (fun g => g.countStore true false p.1 u.fresh)
          else if p.2.2.remote then u.redRemote x.g.gid x.t.vi p.1 .add32 count
          else
            let r : PostedRed := ⟨u.nextId, x.g.gid, u.tick.toNat, (x.lanes).getD 0 0, x.agent, p.2.2.pa, p.1, .add32, BitVec.ofNat 64 count⟩
            { u with mem := { u.mem with reds := u.mem.reds ++ [r] }, nextId := u.nextId + 1 }) t) s)

/-- CVT (R159, R160): one element converted. -/
def execCvt (g : Guard) (dst src : Fmt) (inK toJ : BitVec 3) (rnd : RMode) (nanovf : Bool) (d a : Opnd) (s : State) :
    Host.Outcome State Fault Refusal :=
  let narrow := fmtWidth dst != 32
  issue (.cvt g dst src inK toJ rnd nanovf d a) noDyn (fun _ => [⟨0, .op d 1, narrow⟩, ⟨1, .op a 1, true⟩]) (fun x =>
    let conv (l : Nat) : Nat × Flags :=
      fmtConvert dst rnd x.ftz nanovf (fmtValue src x.ftz (elem (fmtWidth src) inK.toNat (x.src a l)))
    if !narrow then .ok (x.s.setGroup (x.laneWise d conv))
    else match d with
      | .s n =>
        if x.any then
          let old := (x.g.sget n.toNat).toNat
          let (c, f) := conv 0
          x.okGroup (fun h => (h.sset n.toNat (BitVec.ofNat 64 (putElem (fmtWidth dst) toJ.toNat old c))).raiseFlags f)
        else .ok x.s
      | _ => .ok (x.s.setGroup (x.laneWise d (fun l =>
          let (c, f) := conv l
          (putElem (fmtWidth dst) toJ.toNat (x.src d l) c, f))))) s

/-- CVTQ with an explicit scale (R94, R161, R162). -/
def execCvtq (g : Guard) (slot : BitVec 3) (d a b c : Opnd) (s : State) : Host.Outcome State Fault Refusal :=
  issue (.cvtq g slot d a b c)
    (fun x => let k := x.slot slot.toNat
      !k.quantOk || !k.bandOk c || (if k.block = 0 then !b.isZero else b.isZero) || pastV255 (vnum a) k.inputs || pastV255 (vnum d) k.codeRegs)
    (fun x => let k := x.slot slot.toNat
      [⟨0, .op d k.codeRegs, false⟩, ⟨1, .op a k.inputs, true⟩, ⟨2, .op b 1, true⟩, ⟨3, .op c 1, true⟩])
    (fun x =>
      let k := x.slot slot.toNat
      let rs := x.lanes.map (fun l =>
        let (bm, be, f1) := bandScale k (x.src c l % 2 ^ 16)
        let code := x.src b l % 256
        let zero := k.block != 0 && code == 0
        let (sm, se) := if k.block = 0 then (1, 0) else e3m5 (if zero then 0x60 else code)
        let (cs, f2, n) := convertBlock k k.nanovf (x.blockIns k (vnum a) l) (sm * bm) (se + be)
        (l, packCodes k cs, f1 ||| f2 ||| flIf zero flNV, n))
      let g' := (rs.foldl (fun h r => h.vsetAll (vnum d) r.1 r.2.1) x.g).raiseFlags (unionFlags (rs.map (fun r => r.2.2.1)))
      x.addUflo (x.s.setGroup g') (rs.foldl (fun n r => n + r.2.2.2) 0)) s

/-- CVTQ.auto (R95, R161, R162). -/
def execCvtqAuto (g : Guard) (slot : BitVec 3) (d a c : Opnd) (s : State) : Host.Outcome State Fault Refusal :=
  issue (.cvtqAuto g slot d a c)
    (fun x => let k := x.slot slot.toNat
      !k.quantOk || !k.bandOk c || k.block == 0 || pastV255 (vnum a) k.inputs || pastV255 (vnum d) (k.codeRegs + 1))
    (fun x => let k := x.slot slot.toNat
      [⟨0, .op d (k.codeRegs + 1), false⟩, ⟨1, .op a k.inputs, true⟩, ⟨3, .op c 1, true⟩])
    (fun x =>
      let k := x.slot slot.toNat
      let rs := x.lanes.map (fun l =>
        let (bm, be, f1) := bandScale k (x.src c l % 2 ^ 16)
        let (cs, code, f2, n) := autoBlock k (x.blockIns k (vnum a) l) bm be
        (l, packCodes k cs ++ [code], f1 ||| f2, n))
      let g' := (rs.foldl (fun h r => h.vsetAll (vnum d) r.1 r.2.1) x.g).raiseFlags (unionFlags (rs.map (fun r => r.2.2.1)))
      x.addUflo (x.s.setGroup g') (rs.foldl (fun n r => n + r.2.2.2) 0)) s

/-- One element of CVTDQ (R163): element × block scale × band scale, one rounding. DESIGN CHOICE (log 59): the spec gives no order
of the two products; the element meets the block scale first, so a quiet NaN element under block scale 0 and an infinite band
scale raises no NV. -/
def dequant (k : Slot) (ftz : Bool) (code sm : Nat) (se : Int) (band : Nat) : Nat × Flags :=
  let e := (match fmtLayout k.elt with | some f => f.decode code | none => .fin false 0 0)
  let scaled := match e.mul (.fin false sm se) with | (v, f) => (v, f)
  let bv : FVal := if k.band then fmtBF16.decode band else .fin false 1 0
  let (v, f2) := scaled.1.mul bv
  fmtF32.finish k.rnd ftz (v, scaled.2 ||| f2)

/-- CVTDQ (R163). -/
def execCvtdq (g : Guard) (slot : BitVec 3) (d a b c : Opnd) (s : State) : Host.Outcome State Fault Refusal :=
  issue (.cvtdq g slot d a b c)
    (fun x => let k := x.slot slot.toNat
      !k.quantOk || !k.bandOk c || (if k.block = 0 then !b.isZero else b.isZero) || pastV255 (vnum a) k.codeRegs || pastV255 (vnum d) k.inputs)
    (fun x => let k := x.slot slot.toNat
      [⟨0, .op d k.inputs, false⟩, ⟨1, .op a k.codeRegs, true⟩, ⟨2, .op b 1, true⟩, ⟨3, .op c 1, true⟩])
    (fun x =>
      let k := x.slot slot.toNat
      let rs := x.lanes.map (fun l =>
        let sc : Nat × Int := if k.block = 0 then (1, 0) else e3m5 (x.src b l % 256)
        let vals : List (Nat × Flags) := (List.range k.inputs).map (fun (j : Nat) =>
          let pl := k.place j
          dequant k x.ftz (elem pl.2.1 pl.2.2 (x.g.vget (vnum a + pl.1) l).toNat) sc.1 sc.2 (x.src c l % 2 ^ 16))
        (l, vals))
      .ok (x.s.setGroup ((rs.foldl (fun h r => h.vsetAll (vnum d) r.1 (r.2.map (·.1))) x.g).raiseFlags
        (unionFlags (rs.flatMap (fun r => r.2.map (·.2))))))) s

/-- A BF16 result code under ftz (R85). -/
def flushBF16 (ftz : Bool) (r : Nat × Flags) : Nat × Flags :=
  if ftz && decide (r.1 < 2 ^ 7) && r.1 != 0 then (0, r.2 ||| flUF ||| flNX) else r

/-- BSCALE (R97): 2^k with k the smallest integer for which amax / fmax / 2^k ≤ 31.5; ftz flushes a subnormal result (R85). -/
def bscale (fmax : Nat) (ftz : Bool) (v : FVal) : Nat × Flags := flushBF16 ftz <|
  let pow (k : Int) : Nat := (fmtBF16.round .rne false false false 1 1 k).1
  match v with
  | .nan _ => (pow 0, flNV)
  | .inf _ => (pow 127, flOF)
  | .fin _ m e =>
    if m = 0 then (pow 0, 0)
    else
      let fits (k : Int) : Bool := Dy.le ⟨2 * m, e⟩ ⟨63 * fmax, k⟩
      let ks : List Int := (List.range 300).map (fun (i : Nat) => (i : Int) - 160)
      let k := (ks.find? fits).getD 128
      if 127 < k then (pow 127, flOF) else if k < -133 then (pow (-133), 0) else (pow k, 0)

/-- BSCALE (R164). -/
def execBscale (g : Guard) (slot : BitVec 3) (d a : Opnd) (s : State) : Host.Outcome State Fault Refusal :=
  issue (.bscale g slot d a) (fun x => !(x.slot slot.toNat).quantOk) (fun _ => namesA d [a])
    (fun x => .ok (x.s.setGroup (x.laneWise d (fun l =>
      bscale (fmtMax (x.slot slot.toNat).elt) x.ftz (fmtF32.read x.ftz (x.src a l)))))) s

/-- The free choice of a special function's code in a lane (log 5). -/
def Ctx.pick (x : Ctx) (lane : Nat) : Nat := Config.specialChoice x.s.fresh lane

/-- The effect of a special function: long-latency, with its flags (R165). -/
def specLanes (i : Instr) (d : Opnd) (srcs : List Opnd) (f : Ctx → Nat → Nat × Flags) (s : State) :
    Host.Outcome State Fault Refusal :=
  issue i noDyn (fun _ => namesA d srcs) (fun x => .ok (x.laneWiseLong d (f x))) s

/-- EXP2 (R98, R165): 2^((a − b) × c). -/
def execExp2 (g : Guard) (mods : BitVec 6) (d a b c : Opnd) (s : State) : Host.Outcome State Fault Refusal :=
  specLanes (.exp2 g mods d a b c) d [a, b, c]
    (fun x l => fexp2 (x.pick l) x.ftz (x.fsrc mods 0 a l) (x.fsrc mods 1 b l) (x.fsrc mods 2 c l)) s

/-- LG2 (R98, R165): log2 a. -/
def execLg2 (g : Guard) (mods : BitVec 6) (d a : Opnd) (s : State) : Host.Outcome State Fault Refusal :=
  specLanes (.lg2 g mods d a) d [a] (fun x l => flg2 (x.pick l) x.ftz (x.fsrc mods 0 a l)) s

/-- RCP (R98, R165): 1 / a. -/
def execRcp (g : Guard) (mods : BitVec 6) (d a : Opnd) (s : State) : Host.Outcome State Fault Refusal :=
  specLanes (.rcp g mods d a) d [a] (fun x l => frcp (x.pick l) x.ftz (x.fsrc mods 0 a l)) s

/-- RSQ (R98, R165): 1 / √a. -/
def execRsq (g : Guard) (mods : BitVec 6) (d a : Opnd) (s : State) : Host.Outcome State Fault Refusal :=
  specLanes (.rsq g mods d a) d [a] (fun x l => frsq (x.pick l) x.ftz (x.fsrc mods 0 a l)) s

/-- SQRT (R98, R165): √a, correctly rounded. -/
def execSqrt (g : Guard) (mods : BitVec 6) (d a : Opnd) (s : State) : Host.Outcome State Fault Refusal :=
  specLanes (.sqrt g mods d a) d [a] (fun x l => fsqrt x.ftz (x.fsrc mods 0 a l)) s

end Sys2Proof.Machine
end

