-- ==== Sys2Proof/Machine/CrossLane.lean ====
section
/-! DEFINITION. Family 3: cross-lane, predicate and index instructions, and RPT (R47 to R49, R166 to R177). -/
namespace Sys2Proof.Machine

/-- The reads of a source by lanes in other lanes (R318), given as (reader, lane read) pairs. -/
def Ctx.farReads (x : Ctx) (a : Opnd) (reads : List (Nat × Nat)) : Use :=
  .far (reads.filterMap (fun r => match a with
    | .v n => some ⟨r.1, 0, n.toNat, r.2⟩
    | .ind _ k => some ⟨r.1, 0, x.g.indReg k.toNat r.2, r.2⟩
    | .s n => some ⟨r.1, 1, n.toNat, r.2⟩
    | _ => none))

/-- The registers of an instruction that reads its source in other lanes, by (reader, lane read) pairs. -/
def Ctx.crossNames (x : Ctx) (d a : Opnd) (reads : List (Nat × Nat)) (srcs : List Opnd) : List Named :=
  ⟨0, .op d 1, false⟩ :: ⟨1, .op a 1, false⟩ :: ⟨1, x.farReads a reads, true⟩ :: srcs.mapIdx (fun j o => ⟨j + 2, .op o 1, true⟩)

/-- PERM (R167). -/
def execPerm (g : Guard) (d a b c : Opnd) (s : State) : Host.Outcome State Fault Refusal :=
  let src (x : Ctx) (l : Nat) : Nat := x.src b l
  issue (.perm g d a b c) noDyn
    (fun x => x.crossNames d a ((x.lanes.filter (fun l => decide (src x l < x.g.width))).map (fun l => (l, src x l))) [b, c])
    (fun x => .ok (x.laneWiseLong d (fun l => (if src x l < x.g.width then x.src a (src x l) else x.src c l, 0)))) s

/-- RFAL (R168): the value in the lowest-numbered active lane. -/
def execRfal (g : Guard) (d a : Opnd) (s : State) : Host.Outcome State Fault Refusal :=
  let low (x : Ctx) : Nat := x.lanes.getD 0 0
  issue (.rfal g d a) noDyn (fun x => x.crossNames d a (if x.any then [(low x, low x)] else []) [])
    (fun x => .ok (x.s.setGroup (x.laneWise d (fun _ => (x.src a (low x), 0))))) s

/-- A predicate source with its negation, in a lane. -/
def Ctx.psrc (x : Ctx) (neg : Bool) (a : Opnd) (lane : Nat) : Bool := (x.src a lane != 0) != neg

/-- VOTE.any (R169). -/
def execVoteAny (g : Guard) (neg : Bool) (d a : Opnd) (s : State) : Host.Outcome State Fault Refusal :=
  intLanes (.voteAny g neg d a) d [a] (fun x _ => bit (x.lanes.any (x.psrc neg a))) s

/-- VOTE.all (R169). -/
def execVoteAll (g : Guard) (neg : Bool) (d a : Opnd) (s : State) : Host.Outcome State Fault Refusal :=
  intLanes (.voteAll g neg d a) d [a] (fun x _ => bit (x.lanes.all (x.psrc neg a))) s

/-- VOTE.ballot (R169): a 64-bit mask to a uniform register. -/
def execVoteBallot (g : Guard) (neg : Bool) (d a : Opnd) (s : State) : Host.Outcome State Fault Refusal :=
  issue (.voteBallot g neg d a) noDyn (fun _ => namesA d [a]) (fun x =>
    .ok (x.s.setGroup (x.laneWise64 d (fun _ =>
      (maskOf x.g.width (fun l => x.act.getLsbD l && x.psrc neg a l)).toNat)))) s

/-- The identity of an operation (R48). -/
def redIdentity : RedOp → Nat
  | .addF32 => 2 ^ 31
  | .minF32 => fmtF32.infCode false
  | .maxF32 => fmtF32.infCode true
  | .addI32 | .or | .xor => 0
  | .and => 2 ^ 32 - 1
  | .minSgn => 2 ^ 31 - 1
  | .maxSgn => 2 ^ 31
  | .minUns => 2 ^ 32 - 1
  | .maxUns => 0

/-- One combining step (R47, R170). -/
def redStep (op : RedOp) (ftz : Bool) (x y : Nat) : Nat × Flags :=
  match op with
  | .addF32 => fmtF32.add .rne ftz x y
  | .minF32 => fmtF32.minmax false ftz x y
  | .maxF32 => fmtF32.minmax true ftz x y
  | .addI32 => (w32 (x + y), 0)
  | .minSgn => (minMax 32 true false x y, 0)
  | .minUns => (minMax 32 false false x y, 0)
  | .maxSgn => (minMax 32 true true x y, 0)
  | .maxUns => (minMax 32 false true x y, 0)
  | .and => (Nat.land x y, 0)
  | .or => (Nat.lor x y, 0)
  | .xor => (Nat.xor x y, 0)

/-- The widths of the tree's steps below w (R47). -/
def treeSteps (w : Nat) : List Nat := [1, 2, 4, 8, 16, 32].filter (fun k => decide (k < w))

/-- The reduction tree over one value per lane (R47): val[0] and the flags of its steps. -/
def redTree (op : RedOp) (ftz : Bool) (vals : List Nat) : Nat × Flags :=
  let one (acc : List Nat × Flags) (k : Nat) : List Nat × Flags :=
    let rs := acc.1.mapIdx (fun i v =>
      if i % (2 * k) = 0 then redStep op ftz v (acc.1.getD (i + k) (redIdentity op)) else (v, 0))
    (rs.map (fun r => r.1), acc.2 ||| unionFlags (rs.map (fun r => r.2)))
  let r := (treeSteps vals.length).foldl one (vals, 0)
  (r.1.getD 0 0, r.2)

/-- A value that a floating scan gives without combining it: a NaN is written canonical (R77), a subnormal flushed (R85). -/
def redAlone (op : RedOp) (ftz : Bool) (v : Nat) : Nat :=
  match op with
  | .addF32 | .minF32 | .maxF32 => if (fmtF32.decode v).isNan then fmtF32.nanCode else fmtF32.flushCode ftz v
  | _ => v

/-- The inclusive scan over one value per lane (R47): lane 0 combines nothing. -/
def scanTree (op : RedOp) (ftz : Bool) (vals : List Nat) : List Nat × Flags :=
  let one (acc : List Nat × Flags) (k : Nat) : List Nat × Flags :=
    let rs := acc.1.mapIdx (fun i v => if k ≤ i then redStep op ftz (acc.1.getD (i - k) 0) v else (v, 0))
    (rs.map (fun r => r.1), acc.2 ||| unionFlags (rs.map (fun r => r.2)))
  let r := (treeSteps vals.length).foldl one (vals, 0)
  (r.1.mapIdx (fun i v => if i = 0 then redAlone op ftz v else v), r.2)

/-- The values a reduction or scan combines: active operands, identities elsewhere (R47, R48). -/
def Ctx.treeVals (x : Ctx) (op : RedOp) (a : Opnd) : List Nat :=
  (List.range x.g.width).map (fun l => if x.act.getLsbD l then x.src a l else redIdentity op)

/-- gsr.E after a reduction or scan (R49). -/
def Ctx.noteEmpty (x : Ctx) : Ctx := { x with s := x.s.modGroup x.g.gid (fun g => { g with gsrE := !x.any }) }

/-- REDV (R170): long-latency; a uniform destination is written even with no active lane (R49). -/
def execRedv (g : Guard) (op : RedOp) (d a : Opnd) (s : State) : Host.Outcome State Fault Refusal :=
  issue (.redv g op d a) noDyn (fun _ => namesA d [a]) (fun x =>
    let y := x.noteEmpty
    let r := redTree op x.l.ftz (x.treeVals op a)
    let lanes := if d.isS then [0] else x.lanes
    .ok (if !x.any && !d.isS then y.s
         else y.outstanding y.s (x.outNames d 1) d.isInd (lanes.flatMap (fun l => x.laneWrites d l r.1))
           (if x.any then r.2 else 0) .ready)) s

/-- The effect of SCANV (R171) on the values that the tree starts from. -/
def Ctx.scan (x : Ctx) (op : RedOp) (d : Opnd) (vals : List Nat) : Res :=
  let y := x.noteEmpty
  let r := scanTree op x.l.ftz vals
  .ok (if !x.any then y.s
       else y.outstanding y.s (x.outNames d 1) d.isInd (x.lanes.flatMap (fun l => x.laneWrites d l (r.1.getD l 0))) r.2 .ready)

/-- SCANV (R171), inclusive. -/
def execScanv (g : Guard) (op : RedOp) (d a : Opnd) (s : State) : Host.Outcome State Fault Refusal :=
  issue (.scanv g op d a) noDyn (fun _ => namesA d [a]) (fun x => x.scan op d (x.treeVals op a)) s

/-- SCANV.excl (R171): the inclusive tree over the values moved up by one lane. -/
def execScanvExcl (g : Guard) (op : RedOp) (d a : Opnd) (s : State) : Host.Outcome State Fault Refusal :=
  issue (.scanvExcl g op d a) noDyn (fun _ => namesA d [a]) (fun x =>
    x.scan op d ((redIdentity op :: x.treeVals op a).take x.g.width)) s

/-- PAND (R172). -/
def execPand (g : Guard) (negA negB : Bool) (d a b : Opnd) (s : State) : Host.Outcome State Fault Refusal :=
  intLanes (.pand g negA negB d a b) d [a, b] (fun x l => bit (x.psrc negA a l && x.psrc negB b l)) s

/-- POR (R172). -/
def execPor (g : Guard) (negA negB : Bool) (d a b : Opnd) (s : State) : Host.Outcome State Fault Refusal :=
  intLanes (.por g negA negB d a b) d [a, b] (fun x l => bit (x.psrc negA a l || x.psrc negB b l)) s

/-- PXOR (R172). -/
def execPxor (g : Guard) (negA negB : Bool) (d a b : Opnd) (s : State) : Host.Outcome State Fault Refusal :=
  intLanes (.pxor g negA negB d a b) d [a, b] (fun x l => bit (x.psrc negA a l != x.psrc negB b l)) s

/-- PNOT (R172). -/
def execPnot (g : Guard) (negA : Bool) (d a : Opnd) (s : State) : Host.Outcome State Fault Refusal :=
  intLanes (.pnot g negA d a) d [a] (fun x l => bit (!x.psrc negA a l)) s

/-- PMOV (R172). -/
def execPmov (g : Guard) (negA : Bool) (d a : Opnd) (s : State) : Host.Outcome State Fault Refusal :=
  intLanes (.pmov g negA d a) d [a] (fun x l => bit (x.psrc negA a l)) s

/-- Where a field of an index register lies: lowest bit and width (R55, R173). -/
def idxPlace : IdxField → Nat × Nat
  | .word => (0, 32) | .base => (0, 8) | .bound => (8, 8) | .offset => (16, 8) | .step => (24, 4) | .mode => (28, 4)

/-- IDXSET on an index word (R173). -/
def idxPut (f : IdxField) (old val : Nat) : Nat :=
  let (lo, n) := idxPlace f
  old - fld old lo n * 2 ^ lo + val % 2 ^ n * 2 ^ lo

/-- IDXSET (R173). -/
def execIdxset (g : Guard) (f : IdxField) (d a : Opnd) (s : State) : Host.Outcome State Fault Refusal :=
  issue (.idxset g f d a) noDyn (fun _ => namesA d [a]) (fun x =>
    let h := x.laneWise d (fun l => (idxPut f (x.src d l) (x.src a l), 0))
    .ok (x.s.setGroup (if f = .word then h else h.keepPoison x.g))) s

/-- IDXGET (R173): step alone is sign-extended. -/
def execIdxget (g : Guard) (f : IdxField) (d a : Opnd) (s : State) : Host.Outcome State Fault Refusal :=
  intLanes (.idxget g f d a) d [a] (fun x l =>
    let (lo, n) := idxPlace f
    let v := fld (x.src a l) lo n
    if f = .step then wi32 (signed 4 v) else v) s

/-- Where the fields d, a, b and c of a format A word and their classes lie (R111). -/
def stepPlaces : List (Nat × Nat) := [(15, 47), (23, 49), (31, 51), (39, 53)]

/-- Does a format A word use the operand whose field and class lie at two places: does its instruction change with the field (R111)? -/
def operandUsed (w lo cls : Nat) : Bool :=
  let bare := w - fld w lo 8 * 2 ^ lo - fld w cls 2 * 2 ^ cls
  (rawOf bare).map (fun r => r.i) != (rawOf (bare + 2 ^ lo)).map (fun r => r.i)

/-- Does an instruction leave an operand position (0 d, 1 a, 2 b, 3 c) unused by what else it says: a comparison without a combination
(R149, R154), or a conversion whose slot has no block or band scale (R161, R163)? -/
def Instr.spares (slots : List DWord) : Instr → Nat → Bool
  | .isetp _ _ .none _ _ _ _ _, 3 | .fsetp _ .none _ _ _ _ _ _, 3 => true
  | .cvtq _ n _ _ _ _, 2 | .cvtdq _ n _ _ _ _, 2 => (slotOf (slots.getD n.toNat 0)).block == 0
  | .cvtq _ n _ _ _ _, 3 | .cvtdq _ n _ _ _ _, 3 | .cvtqAuto _ n _ _ _, 3 => !(slotOf (slots.getD n.toNat 0)).band
  | _, _ => false

/-- May a word be repeated, under a launch's format slots (R176)? n repeats, the step bits d a b c, and the stride. -/
def repeatOk (slots : List DWord) (w : Nat) (steps : BitVec 4) (n stride : Nat) : Bool :=
  match rawOf w with
  | none => false
  | some r =>
    decide (r.i.family ≤ 2) && !r.i.opnds.isEmpty &&
      (stepPlaces.mapIdx (fun j p => (j, p))).all (fun e => !steps.getLsbD e.1 || operandUsed w e.2.1 e.2.2 && !Instr.spares slots r.i e.1 &&
        (match fld w e.2.2 2 with
         | 0 => decide (fld w e.2.1 8 + (n - 1) * stride ≤ 255)
         | 1 => decide (fld w e.2.1 8 + (n - 1) * stride ≤ 63)
         | _ => false))

/-- A word with its stepped fields increased (R175), each within its 8 bits. -/
def stepWord (w : DWord) (steps : BitVec 4) (by' : Nat) : DWord :=
  (stepPlaces.mapIdx (fun j p => (j, p))).foldl (fun u e =>
    let old := fld w.toNat e.2.1 8
    if steps.getLsbD e.1 then BitVec.ofNat 64 (u.toNat - old * 2 ^ e.2.1 + (old + by') % 256 * 2 ^ e.2.1) else u) w

/-- Does every stepped field stay within v255 or s63 (R176)? A repeat state edited in the save area may break it (log 17). -/
def stepsFit (w : DWord) (steps : BitVec 4) (by' : Nat) : Bool :=
  (stepPlaces.mapIdx (fun j p => (j, p))).all (fun e => !steps.getLsbD e.1
    || decide (fld w.toNat e.2.1 8 + by' ≤ if fld w.toNat e.2.2 2 = 1 then 63 else 255))

/-- RPT (R174 to R177): the next instruction is issued n times, whatever lanes are active (log 17). -/
def execRpt (g : Guard) (steps : BitVec 4) (stride : BitVec 4) (count : BitVec 6) (s : State) :
    Host.Outcome State Fault Refusal :=
  let n := count.toNat + 1
  let k := stride.toNat + 1
  issue (.rpt g steps stride count)
    (fun x => match x.c.words[x.c.index + 1]? with
      | none => true
      | some none => false
      | some (some w) => !repeatOk x.l.slots w.toNat steps n k)
    (fun _ => []) (fun x =>
      .hold (x.s.modGroup x.g.gid (fun h =>
        { h with clause := some { x.c with index := x.c.index + 1 }, repDone := 0, repLeft := BitVec.ofNat 7 n
                 repSteps := some (steps, k) }))) s

end Sys2Proof.Machine
end

