-- ==== Sys2Proof/Machine/Vi.lean ====
section
/-! DEFINITION. Virtual interfaces as a whole: queue entries freed, keys released, grids that end, and a virtual interface
started or disabled (R26, R280, R285, R287, R294, R345). -/
namespace Sys2Proof.Machine

/-- Set the window's error bit; the first cause since it was cleared is kept (R340). -/
def State.flagError (s : State) (cause : Nat) : State :=
  if s.host.error then s else { s with host := { s.host with error := true, errCause := cause } }

/-- Drop the segments at a queue's head whose entries are all free, but the last; they return to the pool (R287). DESIGN CHOICE (log 72):
the descriptor's first segment, which lies outside the pool, returns nowhere and is not used again. -/
def State.trimQueue (s : State) (q : Queue) : State :=
  let gone := q.segs.dropLast.takeWhile (fun a => (segEntries a).all (s.entryFree q.vi))
  let kept := q.segs.drop gone.length
  if gone = [] then s
  else
    let v := s.viOf q.vi
    let s1 := { s with queues := modWhere s.queues (fun x => x.vi == q.vi && x.num == q.num) (fun x => { x with segs := kept }) }
    let s2 := (s1.deviceForce q.vi (kept.getLastD 0) (leBytes 8 (kept.headD 0))).1
    s2.setVi { v with poolUsed := v.poolUsed.filter (fun i => !gone.contains (v.poolBase + 4096 * i)) }

/-- An entry returns to state 0 (R286). -/
def State.freeEntry (s : State) (vi addr : Nat) : State :=
  match s.entries.find? (fun e => e.vi == vi && e.addr == addr) with
  | none => s
  | some e =>
    let s1 := (s.deviceForce vi addr (leBytes 4 0)).1
    let s2 := { s1 with entries := s1.entries.filter (fun x => !(x.vi == vi && x.addr == addr)) }
    match s2.queue? vi e.queue with
    | some q => s2.trimQueue q
    | none => s2

/-- Write an entry's state and its counts of denied rounds (R286, R291). -/
def State.setEntry (s : State) (vi addr st rounds foot : Nat) : State :=
  let s1 := (s.deviceForce vi addr (leBytes 4 st ++ leBytes 4 (satAt (2 ^ 32 - 1) rounds))).1
  let s2 := (s1.deviceForce vi (addr + 0x24) (leBytes 4 (satAt (2 ^ 32 - 1) foot))).1
  let es := modWhere s2.entries (fun x => x.vi == vi && x.addr == addr) (fun x => { x with state := st, rounds := rounds, footRounds := foot })
  { s2 with entries := es }

/-- Write an entry's state, its counts kept (R286). -/
def State.entryState (s : State) (vi addr st : Nat) : State :=
  match s.entries.find? (fun e => e.vi == vi && e.addr == addr) with
  | some e => s.setEntry vi addr st e.rounds e.footRounds
  | none => s

/-- A task gives up its keys and its reservations (R293, R294). -/
def State.releaseKeys (s : State) (uid : Nat) : State :=
  let ks := s.keys.map (fun k =>
    { k with holder := if k.holder = some uid then none else k.holder, reserved := k.reserved.filter (fun r => r.1 != uid) })
  { s with keys := ks.filter (fun k => k.holder.isSome || !k.reserved.isEmpty)
           reservedCores := s.reservedCores.filter (fun r => r.1 != uid) }

/-- A grid that has nothing left to run ends (R26): its record becomes due, its registrations are removed. -/
def State.gridSettle (s : State) (gridId : Nat) : State :=
  match s.grids.find? (fun g => g.gridId == gridId) with
  | none => s
  | some g =>
    let exhausted := g.dealt && g.ranges.all (fun r => decide (r.start + r.count ≤ r.next))
    if !g.ended && exhausted && (s.tasks.filter (fun t => t.grid == gridId)).all (fun t => t.ended) then
      let s1 := { s with
        grids := modWhere s.grids (fun x => x.gridId == gridId) (fun x => { x with ended := true })
        regs31 := s.regs31.filter (fun r => r.grid != gridId) }
      if g.wanted then
        let d : Due := { vi := g.vi, page := g.page, tag := g.tag, status := g.status, lost := g.lost, refused := g.refused
                         first := g.page1, detail := g.notDone, interrupt := g.interrupt, owner := .grid gridId }
        let s2 := match g.entry with | some a => s1.entryState g.vi a 4 | none => s1
        { s2 with dues := s2.dues ++ [d] }
      else match g.entry with
        | some a => s1.freeEntry g.vi a
        | none => s1
    else s

/-- Count tasks of a grid that did not end DONE and have no status of their own (R288, R289). DEDUCED (log 60): a grid that had
begun and whose remaining teams are discarded ends with status 1 at least. -/
def Grid.unrun (g : Grid) (n : Nat) : Grid :=
  { g with notDone := g.notDone + n, status := if n = 0 then g.status else max g.status 1 }

/-- A queued or held task is discarded (R28): without any step of R29. -/
def State.discardTask (s : State) (t : Task) : State :=
  let s1 := (s.modTask t.uid (fun k => { k with state := .discarded, ended := true })).releaseKeys t.uid
  let s2 := match t.entry with | some a => s1.freeEntry t.vi a | none => s1
  let s3 := { s2 with grids := modWhere s2.grids (fun g => g.gridId == t.grid) (fun g =>
    { g.unrun 1 with wanted := g.wanted && (!g.single || t.spawned) }) }
  s3.gridSettle t.grid

/-- Ranges of a grid that will not be expanded further: their teams did not end DONE. -/
def Grid.stop (g : Grid) : Grid :=
  { g.unrun (g.ranges.foldl (fun n r => n + (r.start + r.count - r.next)) 0) with ranges := g.ranges.map (fun r => { r with next := r.start + r.count }) }

/-- The grids of a virtual interface whose record is still QUEUED are discarded; others expand no further (R345). -/
def State.discardGrids (s : State) (vi : Nat) : State :=
  let mine := s.grids.filter (fun g => g.vi == vi && !g.ended)
  let s1 := { s with grids := modWhere s.grids (fun g => g.vi == vi && !g.ended) (fun g =>
    if g.dealt then g.stop else { g with ended := true }) }
  mine.foldl (fun u g =>
    if g.dealt then u else match g.entry with | some a => u.freeEntry vi a | none => u) s1

/-- Host submissions of a virtual interface that still wait receive Completer Abort (R345). -/
def State.abortWaiting (s : State) (vi : Nat) : State :=
  let gone := s.host.waiting.filter (fun h => h.vi == vi)
  { s with host := { s.host with
    waiting := s.host.waiting.filter (fun h => h.vi != vi), answers := s.host.answers ++ gone.map (fun _ => Answer.abort) } }

/-- SETVI.state 0 (R345): submissions that wait are refused, placed tasks are killed, waiting records discarded, keys and reservations
released. -/
def State.disableVi (s : State) (vi : Nat) : State :=
  let s1 := (s.setVi { s.viOf vi with enabled := false }).abortWaiting vi
  let placed := s1.tasks.filter (fun t => t.vi == vi && t.state == .placed)
  let waiting := s1.tasks.filter (fun t => t.vi == vi && (t.state == .queued || t.state == .held))
  let s2 := placed.foldl (fun u t => u.killTeam t.uid none 0) s1
  let s3 := (waiting.foldl State.discardTask s2).discardGrids vi
  let s4 := (s3.tasks.filter (fun t => t.vi == vi)).foldl (fun u t => u.releaseKeys t.uid) s3
  (s4.grids.filter (fun g => g.vi == vi)).foldl (fun u g => u.gridSettle g.gridId) s4

/-- The queues of a virtual interface and their entries are gone (R345): what remains of its tasks and grids has none any more. -/
def State.forgetQueues (s : State) (vi : Nat) : State :=
  { s with
    queues := s.queues.filter (fun q => q.vi != vi)
    entries := s.entries.filter (fun e => e.vi != vi)
    tasks := modWhere s.tasks (fun t => t.vi == vi) (fun t => { t with entry := none })
    grids := modWhere s.grids (fun g => g.vi == vi) (fun g => { g with entry := none }) }

/-- Link the queues that the descriptors of a virtual interface enable, each empty (R280, R345). -/
def State.linkQueues (s : State) (vi : Nat) : State :=
  let v := s.viOf vi
  let s0 := (s.forgetQueues vi).setVi { v with poolUsed := [] }
  (List.range (min 16 v.queues)).foldl (fun u q =>
    let off := 0x30000 + 0x100 * vi + 16 * q
    let seg := u.win off + 2 ^ 32 * u.win (off + 4)
    if u.win (off + 8) % 2 = 0 then u
    else if seg % 4096 ≠ 0 then u.flagError 4
    else match u.freshSegment vi seg seg 0 with
      | (u', true) => { u' with queues := u'.queues ++ [⟨vi, q, [seg]⟩] }
      | (_, false) => u.flagError 4) s0

/-- SETVI.state 1 (R345): the virtual interface starts with empty queues. -/
def State.enableVi (s : State) (vi : Nat) : State :=
  let s1 := s.setVi { s.viOf vi with enabled := true }
  if (s.viOf vi).enabled then s1 else s1.linkQueues vi

end Sys2Proof.Machine
end

