-- ==== Sys2Proof/Machine/System.lean ====
section
/-! DEFINITION. The privileged instructions (R246 to R251): SETSEG, SETRGN, TLBINV, ICINV and SETVI. -/
namespace Sys2Proof.Machine

/-- A group outside the scheduling processor (R246). -/
def Ctx.outside (x : Ctx) : Bool := !isFirmware x.g.core

/-- The rows reserved to the scheduling processor raise subcode 5 elsewhere (R246). -/
def firmwareOnly (x : Ctx) : Option Nat := if x.outside then some 5 else none

/-- Naming a virtual interface other than its own raises subcode 5 outside the scheduling processor (R246). -/
def Ctx.otherVi (x : Ctx) (vi : Nat) : Option Nat := if x.any && x.outside && vi != x.t.vi then some 5 else none

/-- No use is illegal. -/
def neverIllegal (_ : Ctx) : Option Nat := none

/-- The effect of a privileged instruction, which executes once per issue (R246). -/
def sysOp (i : Instr) (dyn : Ctx → Option Nat) (names : List Named) (f : Ctx → Res) (s : State) :
    Host.Outcome State Fault Refusal :=
  issueDyn i dyn (fun _ => names) (fun x => if x.any then f x else .ok x.s) s

/-- The limit that SETSEG writes (R247). DESIGN CHOICE (log 73): on a service core, which has no stash (R296), the limit of S stays 0. -/
def segLimit (core : Nat) (seg : BitVec 3) (lim : Nat) : DWord := if seg = 1 ∧ isService core = true then 0 else BitVec.ofNat 64 lim

/-- SETSEG (R247). -/
def execSetseg (g : Guard) (seg : BitVec 3) (sb sa : BitVec 6) (s : State) : Host.Outcome State Fault Refusal :=
  sysOp (.setseg g seg sb sa) neverIllegal [uName 1 sa, uName 2 sb] (fun x =>
    let base := x.u sa
    let lim := x.u sb
    if seg = 1 ∧ (base % 1024 ≠ 0 ∨ 262144 < base + lim) then .trap ⟨2, 0, x.act, BitVec.ofNat 64 base, 1, 0, 0⟩
    else x.okGroup (fun h => { h with segs := h.segs.set seg.toNat (BitVec.ofNat 64 base, segLimit h.core seg lim) })) s

/-- The sixteen entries of a region table (R248). -/
def VI.regionTable (v : VI) : List Region := (List.range 16).map (fun k => v.regions.getD k ⟨0, 0, 0, false⟩)

/-- The unregistered copies of a virtual interface's data in a range are discarded (R248), also the words of a mapped stash line
beside its dirty ones; what the Lens has still to read of a clean line is read first (R226). -/
def State.dropRange (s0 : State) (vi base len : Nat) : State :=
  let inside (va n : Nat) : Bool := decide (va < base + len) && decide (base < va + n)
  let named (l : Line) : Bool := l.vi == vi && l.present && l.mapped.any (fun va => inside va 128)
  let s := (s0.mem.lines.filter (fun l => named l && !s0.mem.lineDirty l)).foldl (fun u l => u.lensFirst l.core l.line) s0
  let m := (s.mem.lines.filter (fun l => named l && s.mem.lineDirty l)).foldl Mem.refreshLine s.mem
  let ls := modWhere s.mem.lines (fun l => named l && !s.mem.lineDirty l) (fun l => { l with present := false })
  { s with mem := { m with copies := s.mem.copies.filter (fun c => !(c.vi == vi && inside c.va 4)), lines := ls } }

/-- Set an entry of a virtual interface's region table (R248). -/
def State.setRegion (s : State) (vi k : Nat) (r : Region) : State :=
  let v := s.viOf vi
  let old := v.regionTable.getD k ⟨0, 0, 0, false⟩
  let s1 := s.setVi { v with regions := v.regionTable.set k r }
  (s1.dropRange vi old.base old.limit).dropRange vi r.base r.limit

/-- An entry from its two words (R248). -/
def regionOfWords (a b : Nat) : Region :=
  ⟨a, fld b 0 48, BitVec.ofNat 4 (fld b 48 4), fld b 52 1 == 1⟩

/-- SETRGN (R248). -/
def execSetrgn (g : Guard) (entry : BitVec 4) (sb sa : BitVec 6) (s : State) : Host.Outcome State Fault Refusal :=
  sysOp (.setrgn g entry sb sa) neverIllegal [uName 1 sa, uName 2 sb] (fun x =>
    .ok (x.s.setRegion x.t.vi entry.toNat (regionOfWords (x.u sa) (x.u sb)))) s

/-- Drop the translations that a test names (R249). -/
def State.dropTlb (s : State) (t : Tlb → Bool) : State := { s with mem := { s.mem with tlb := s.mem.tlb.filter (fun e => !t e) } }

/-- Walks of a virtual interface start at the root last set (R251). -/
def State.takeRoot (s : State) (vi : Nat) : State := s.setVi { s.viOf vi with ptroot := (s.viOf vi).ptrootNext }

/-- TLBINV.page (R249). -/
def execTlbinvPage (g : Guard) (sb sa : BitVec 6) (s : State) : Host.Outcome State Fault Refusal :=
  sysOp (.tlbinvPage g sb sa) (fun x => x.otherVi (x.u sb % 64)) [uName 1 sa, uName 2 sb] (fun x =>
    .ok (x.s.dropTlb (fun e => e.vi == x.u sb % 64 && decide (e.base ≤ x.u sa) && decide (x.u sa < e.base + e.size)))) s

/-- TLBINV.vi (R249). -/
def execTlbinvVi (g : Guard) (sb : BitVec 6) (s : State) : Host.Outcome State Fault Refusal :=
  sysOp (.tlbinvVi g sb) (fun x => x.otherVi (x.u sb % 64)) [uName 2 sb] (fun x =>
    .ok ((x.s.takeRoot (x.u sb % 64)).dropTlb (fun e => e.vi == x.u sb % 64))) s

/-- TLBINV.all (R249). -/
def execTlbinvAll (g : Guard) (s : State) : Host.Outcome State Fault Refusal :=
  sysOp (.tlbinvAll g) firmwareOnly [] (fun x => .ok (x.s.dropTlb (fun _ => true))) s

/-- Drop the words that instruction caches hold of a virtual interface's code (R250). -/
def State.dropCode (s : State) (vi : Nat) (t : Nat → Bool) : State :=
  { s with mem := { s.mem with icache := s.mem.icache.filter (fun e => !(e.vi == vi && t e.va)) } }

/-- ICINV.range (R250): whole 128-byte lines. -/
def execIcinvRange (g : Guard) (sb sa : BitVec 6) (s : State) : Host.Outcome State Fault Refusal :=
  sysOp (.icinvRange g sb sa) neverIllegal [uName 1 sa, uName 2 sb] (fun x =>
    .ok (x.s.dropCode x.t.vi (fun va => decide (alignDown (x.u sa) 128 ≤ va) && decide (va < alignUp (x.u sa + x.u sb) 128)))) s

/-- ICINV.all (R250). -/
def execIcinvAll (g : Guard) (s : State) : Host.Outcome State Fault Refusal :=
  sysOp (.icinvAll g) neverIllegal [] (fun x => .ok (x.s.dropCode x.t.vi (fun _ => true))) s

/-- The effect of SETVI: one parameter of the virtual interface in s_a (R251). -/
def setvi (i : Instr) (sb sa : BitVec 6) (f : Nat → VI → VI) (s : State) : Host.Outcome State Fault Refusal :=
  sysOp i firmwareOnly [uName 1 sa, uName 2 sb] (fun x =>
    .ok (x.s.setVi (f (x.u sb) (x.s.viOf (x.u sa % 64))))) s

/-- SETVI.handler (R251). -/
def execSetviHandler (g : Guard) (sb sa : BitVec 6) (s : State) : Host.Outcome State Fault Refusal :=
  setvi (.setviHandler g sb sa) sb sa (fun v k => { k with handler := BitVec.ofNat 64 v }) s

/-- SETVI.swap (R251). -/
def execSetviSwap (g : Guard) (sb sa : BitVec 6) (s : State) : Host.Outcome State Fault Refusal :=
  setvi (.setviSwap g sb sa) sb sa (fun v k => { k with swap := v }) s

/-- SETVI.ptroot (R251): walks use it after a following TLBINV.vi. -/
def execSetviPtroot (g : Guard) (sb sa : BitVec 6) (s : State) : Host.Outcome State Fault Refusal :=
  setvi (.setviPtroot g sb sa) sb sa (fun v k => { k with ptrootNext := v }) s

/-- SETVI.state (R251, R345): a reserved value is subcode 1. -/
def execSetviState (g : Guard) (sb sa : BitVec 6) (s : State) : Host.Outcome State Fault Refusal :=
  sysOp (.setviState g sb sa) (fun x => if x.any && decide (1 < x.u sb) then some 1 else firmwareOnly x)
    [uName 1 sa, uName 2 sb] (fun x =>
      .ok (if x.u sb = 0 then x.s.disableVi (x.u sa % 64) else x.s.enableVi (x.u sa % 64))) s

/-- SETVI.uint (R251). -/
def execSetviUint (g : Guard) (sb sa : BitVec 6) (s : State) : Host.Outcome State Fault Refusal :=
  setvi (.setviUint g sb sa) sb sa (fun v k => { k with uintBase := BitVec.ofNat 64 v }) s

/-- SETVI.keys (R251). -/
def execSetviKeys (g : Guard) (sb sa : BitVec 6) (s : State) : Host.Outcome State Fault Refusal :=
  setvi (.setviKeys g sb sa) sb sa (fun v k => { k with keyShare := v }) s

/-- SETVI.keybase (R251). DESIGN CHOICE (log 64): of a value above 4,095 the low 12 bits are taken, since the spec gives no outcome. -/
def execSetviKeybase (g : Guard) (sb sa : BitVec 6) (s : State) : Host.Outcome State Fault Refusal :=
  setvi (.setviKeybase g sb sa) sb sa (fun v k => { k with keyBase := v % 4096 }) s

end Sys2Proof.Machine
end

