-- ==== Sys2Proof/Machine/Engine.lean ====
section
/-! DEFINITION. Engine commands STFLUSH, CPY, CPYM, GATH and COLL: issue, route walk, one destination line at a time, and
completion (R187, R193, R205 to R215, R275, R328). -/
namespace Sys2Proof.Machine

/-! ### Routes (R211, R328) -/

/-- The core one step away in a heading, inside the mesh (R8). -/
def meshStep (core heading : Nat) : Option Nat :=
  let l := core % 96
  let r := l / 12
  let c := l % 12
  match heading with
  | 0 => if r = 0 then none else some (core - 12)
  | 1 => if c = 11 then none else some (core + 1)
  | 2 => if r = 7 then none else some (core + 12)
  | _ => if c = 0 then none else some (core - 1)

/-- The heading after a turn (R328). -/
def turned (heading turn : Nat) : Nat :=
  match turn with
  | 1 => (heading + 3) % 4
  | 2 => (heading + 1) % 4
  | _ => heading

/-- Is a mesh link retired? -/
def State.linkRetired (s : State) (a b : Nat) : Bool :=
  s.fabric.retiredLinks.contains (a, b) || s.fabric.retiredLinks.contains (b, a)

/-- Walk hops from a core (R211): the delivery cores, and whether a route fault cut the list. -/
def walkHops (s : State) (str : Nat) : Nat → Nat → Nat → Nat → List Nat → List Nat × Bool
  | 0, _, _, _, out => (out, true)
  | left + 1, i, core, heading, out =>
    let hop := fld str (4 * i) 4
    let h := turned heading (hop % 4)
    if 8 ≤ hop then (out, true)
    else match meshStep core h with
      | none => (out, true)
      | some n =>
        if s.retired n || s.linkRetired core n then (out, true)
        else
          let out' := if hop / 4 % 2 = 1 then out ++ [n] else out
          if hop % 4 = 3 then (out', false) else walkHops s str left (i + 1) n h out'

/-! ### Control words -/

/-- The control word of a CPY-family command (R210). -/
structure Control where
  length : Nat
  sseg : Nat
  dseg : Nat
  dir : Nat
  op : Nat
  consume : Bool
  reserved : Bool
  cw : Nat
  deriving DecidableEq, Repr

/-- Read a control word (R210). -/
def controlOf (w : Nat) : Control :=
  ⟨fld w 0 32, fld w 32 3, fld w 35 3, fld w 38 2, fld w 40 4, fld w 44 1 == 1, fld w 45 3 != 0, fld w 48 16⟩

/-- A segment of a command (R247: those in force at issue). -/
def Cmd.seg (c : Cmd) (k : Nat) : DWord × DWord := c.segs.getD k (0, 0)

/-- The completion-word offset of a command, divided by 8 (R207). -/
def Cmd.cwOff (c : Cmd) : Nat := 8 * fld c.control.toNat 48 16

/-- Does the completion word lie within the F limit (R207)? -/
def Cmd.cwOk (c : Cmd) : Bool := decide (c.cwOff + 8 ≤ (c.seg 2).2.toNat)

/-- The control errors of a command (R193, R208, R210, R213, R215, R216). -/
def Cmd.controlBad (c : Cmd) (ud : Nat) : Bool :=
  let k := controlOf c.control.toNat
  let routed := c.op != .cpy && c.op != .stflush
  (c.cmp == 6 && !c.cwOk) ||
  (if c.op = .stflush then
    let w := c.control.toNat
    c.ua % 128 != 0 || fld w 0 12 == 0 || decide (2048 < fld w 0 12) || fld w 12 4 != 0 || fld w 17 31 != 0
  else
    k.reserved || decide (3 < k.sseg) || decide (2 < k.dseg) || k.length % 4 != 0 || c.ua % 4 != 0 || c.ub % 4 != 0
      || (c.op == .cpym && k.dseg != 1) || (k.consume && c.op != .gath) || (k.op != 0 && c.op != .coll) || decide (10 < k.op)
      || (k.dir != 0 && !routed) || (routed && (ud % 8 != 0 || decide ((c.seg 3).2.toNat < ud + 8))))

/-- The engine agent of a command (R253, R268). -/
def Cmd.agent (c : Cmd) : Agent := ⟨if c.op = .gath ∨ c.op = .coll then .gather else .periscope, c.core⟩

/-- Bytes of the range that progress counts (R207). -/
def Cmd.total (c : Cmd) : Nat :=
  match c.op with
  | .stflush => 128 * fld c.control.toNat 0 12
  | .gath => c.deliveries.length * (controlOf c.control.toNat).length
  | _ => (controlOf c.control.toNat).length

/-! ### Places and partners -/

/-- A range's place: a stash, or memory of the virtual interface; base and limit. -/
structure Place where
  core : Option Nat
  base : Nat
  lim : Nat
  deriving DecidableEq, Repr

/-- A segment of the issuing team as a place. -/
def Cmd.place (c : Cmd) (k : Nat) : Place :=
  ⟨if k = 1 then some c.core else none, (c.seg k).1.toNat, (c.seg k).2.toNat⟩

/-- Stash bytes of a task. -/
def Task.stashBytes (t : Task) : Nat := 1024 * fld t.cont.footprint.toNat 17 9

/-- The one resident team of the issuing grid on a delivery core (R212); a team that is being killed takes nothing (R336). -/
def State.partner (s : State) (grid core : Nat) : Option Task :=
  match s.tasks.filter (fun t => t.grid == grid && t.state == .placed && t.cores.contains core) with
  | [t] => if t.killing then none else some t
  | _ => none

/-- The place of delivery j, when it is accepted (R212). -/
def Cmd.delivery (c : Cmd) (s : State) (j : Nat) : Option Place :=
  let core := c.deliveries.getD j 0
  let off := if c.op = .cpym then c.ua else c.ub
  match s.task? c.task with
  | none => none
  | some t0 => match s.partner t0.grid core with
    | none => none
    | some t =>
      if c.refused.getLsbD j || s.fenced (core / 96) || decide (t.stashBytes < off + (controlOf c.control.toNat).length) then none
      else some ⟨some core, t.stashBase.getD (t.coreSel core) 0, t.stashBytes⟩

/-- The deliveries that are refused now (R212). -/
def Cmd.refusedNow (c : Cmd) (s : State) : BitVec 16 :=
  (List.range c.deliveries.length).foldl (fun m j => if (c.delivery s j).isNone then m ||| BitVec.ofNat 16 (2 ^ j) else m) c.refused

/-- The accepted deliveries, in route order. -/
def Cmd.accepted (c : Cmd) (s : State) : List Place := (List.range c.deliveries.length).filterMap (c.delivery s)

/-- The next piece that a command reads: where it starts in the progress range, its sources with their offsets, the deliveries it
goes to (0 is the issuer's own destination), and its length, up to the end of a 128-byte source line (log 20). -/
structure Piece where
  at' : Nat
  srcs : List (Place × Nat)
  dsts : List Nat
  len : Nat
  deriving DecidableEq, Repr

/-- Bytes up to the end of a line. -/
def lineRest (a : Nat) : Nat := 128 - a % 128

/-- The next piece of a CPY-family command; none when nothing is left to read (R207, R210 to R215). A stash line is read whole in
one piece (R333). -/
def Cmd.piece (c : Cmd) (s : State) : Option Piece :=
  let k := controlOf c.control.toNat
  let p := c.fetched
  let part (srcs : List Place) (dsts : List Nat) (so left : Nat) : Option Piece :=
    let line := ((srcs.find? (fun x => x.core.isSome)).orElse (fun _ => srcs.head?)).map (fun x => lineRest (x.base + so))
    some ⟨p, srcs.map (fun x => (x, so)), dsts, min left (line.getD left)⟩
  if c.total ≤ p then none
  else match c.op with
    | .stflush => none
    | .cpy => part [c.place k.sseg] [0] (c.ub + p) (k.length - p)
    | .cpym =>
      let ds := (List.range c.deliveries.length).filter (fun j => (c.delivery s j).isSome)
      if ds.isEmpty then some ⟨p, [], [], k.length - p⟩ else part [c.place k.sseg] ds (c.ub + p) (k.length - p)
    | .gath =>
      let b := p % k.length
      match c.delivery s (p / k.length) with
      | none => some ⟨p, [], [], k.length - b⟩
      | some pl => part [pl] [0] (c.ub + b) (k.length - b)
    | .coll => part (c.place k.sseg :: c.accepted s) [0] (c.ub + p) (k.length - p)

/-- Where delivery j of a command goes; every range starts at ua. -/
def Cmd.target (c : Cmd) (s : State) (j : Nat) : Option Place :=
  if c.op = .cpym then c.delivery s j else some (c.place (controlOf c.control.toNat).dseg)

/-- The stash lines of a piece's ranges. -/
def stashLines (l : List (Place × Nat)) (n : Nat) : List (Nat × Nat) :=
  l.flatMap (fun e => match e.1.core with
    | some core => (linesOf (e.1.base + e.2) n).map (fun ln => (core, ln))
    | none => [])

/-- The stash lines of the bytes from lo to hi of a command's range at a place, within its limit (R187). -/
def Cmd.rangeLines (c : Cmd) (pl : Place) (lo hi : Nat) : List (Nat × Nat) :=
  let top := min hi (pl.lim - c.ua)
  if top ≤ lo then [] else stashLines [(pl, c.ua + lo)] (top - lo)

/-- The stash lines that a command still has to read its bytes for, from a point of its progress range, at delivery j. -/
def Cmd.aheadLines (c : Cmd) (s : State) (p j : Nat) : List (Nat × Nat) :=
  let k := controlOf c.control.toNat
  match c.op, c.target s j with
  | .stflush, _ | _, none => []
  | .gath, some pl => (List.range c.deliveries.length).flatMap (fun i =>
      if (c.delivery s i).isNone then [] else c.rangeLines pl (max p (i * k.length)) ((i + 1) * k.length))
  | _, some pl => c.rangeLines pl p k.length

/-- The deliveries that a command writes at. -/
def Cmd.targets (c : Cmd) : List Nat := if c.op = .cpym then List.range c.deliveries.length else [0]

/-- Every stash line that a command will write (R187). -/
def Cmd.destLines (c : Cmd) (s : State) : List (Nat × Nat) := (c.targets.flatMap (c.aheadLines s 0)).eraseDups

/-! ### Issue -/

/-- Change a command. -/
def State.modCmd (s : State) (key : Nat) (f : Cmd → Cmd) : State := { s with cmds := modWhere s.cmds (fun c => c.key == key) f }

/-- Note a command's outstanding bytes in its destination lines (R187, R192); a line is cleared as the command reaches it. -/
def State.reserveLines (s : State) (key : Nat) (ls : List (Nat × Nat)) : State :=
  { s with mem := ls.foldl (fun m e => let l := m.lineOf e.1 e.2; m.setLine { l with writers := l.writers ++ [key] }) s.mem }

/-- Read the route string and walk it (R211): deliveries, route fault, and the fault of the read. -/
def Cmd.route (c : Cmd) (s : State) (vi : Nat) (ud : Nat) : List Nat × Bool × Nat :=
  let va := ((c.seg 3).1.toNat + ud) % 2 ^ 64
  match s.reach c.core vi .read false va 8 with
  | .error _ => ([], false, 3)
  | .ok _ => match s.coreRead c.core vi va 8 with
    | none => ([], false, 5)
    | some bs =>
      let r := walkHops s (leNat bs) 16 0 c.core (controlOf c.control.toNat).dir []
      (r.1, r.2, 0)

/-- Put a command into its core's queue (R205, R206): its reads observe the group's earlier writes, its acquire is
performed, and its destination lines are noted. A control error ends it before it starts (R208). -/
def State.startCmd (s : State) (c0 : Cmd) (ud : Nat) (t : Task) (g : Group) : State :=
  let s0 := s.modGroup c0.gid (fun h => if c0.cmp < 6 then { h with e := h.e.set c0.cmp (h.e.get c0.cmp + 1) } else h)
  let routed := c0.op != .cpy && c0.op != .stflush
  if c0.controlBad ud then { s0 with cmds := s0.cmds ++ [{ c0 with sub := 1, ended := true }] }
  else
    let s1 := (s0.performReds (fun r => r.gid == c0.gid)).deliverWhere (fun q => q.gid == c0.gid)
    let (dl, cut, bad) := if routed && (controlOf c0.control.toNat).length != 0 then c0.route s1 t.vi ud else ([], false, 0)
    if bad ≠ 0 then { s1 with cmds := s1.cmds ++ [{ c0 with sub := bad, ended := true }] }
    else
      let c1 := { c0 with deliveries := dl, routeFault := cut }
      let c2 := { c1 with refused := c1.refusedNow s1 }
      let s2 := match c2.acq with | some a => s1.acquireBy g t a.1 a.2 | none => s1
      { s2 with cmds := s2.cmds ++ [c2] }.reserveLines c2.key (c2.destLines s2)

/-- Is there room for a command (R205)? -/
def State.engineRoom (s : State) (c : Cmd) (g : Group) : Bool :=
  (decide (6 ≤ c.cmp) || decide ((g.e.get c.cmp).toNat < 63)) && decide ((s.cmds.filter (fun d => d.core == c.core)).length < Config.engineQueue)

/-- The issue of an engine command (R205): it starts at once when there is room, and holds the group otherwise. -/
def Ctx.engine (x : Ctx) (op : EngineOp) (acq : AcqPart) (rel : Rel) (cmp ua ub ud : Nat) (control : DWord) : Res :=
  let c : Cmd :=
    { key := x.s.nextId, op := op, gid := x.g.gid, task := x.t.uid, core := x.g.core, opcode := (x.returnPoint false).opcode
      acq := acq, rel := rel, cmp := cmp, ua := ua, ub := ub, control := control, segs := x.g.segs, deliveries := []
      routeFault := false, refused := 0, done := 0, fetched := 0, parts := [], sub := 0, ended := false, words := [], reached := []
      cleared := [] }
  let s1 := { x.s with nextId := x.s.nextId + 1 }
  if !x.any then .ok x.s
  else if x.orderWaits true then x.again
  else if x.s.engineRoom c x.g then .ok (s1.startCmd c ud x.t x.g)
  else .hold (s1.modGroup x.g.gid (fun g => { g with hold := .engine c ud }))

/-- The operands of a CPY-family command. -/
def yNames (y : YArgs) (ud : Bool) : List Named :=
  [uName 1 y.ua, uName 2 y.ub, uName 3 y.uc] ++ (if ud then [uName 0 y.ud] else [])

/-- The issue of a CPY-family command. -/
def Ctx.copy (x : Ctx) (op : EngineOp) (y : YArgs) : Res :=
  x.engine op y.acq y.rel y.cmp.toNat (x.u y.ua) (x.u y.ub) (if op = .cpy then 0 else x.u y.ud) (x.g.sget y.uc.toNat)

/-- STFLUSH (R193). -/
def execStflush (g : Guard) (rel : Rel) (cmp : BitVec 3) (ub ua : BitVec 6) (s : State) : Host.Outcome State Fault Refusal :=
  issue (.stflush g rel cmp ub ua) noDyn (fun _ => [uName 1 ua, uName 2 ub])
    (fun x => x.engine .stflush none rel cmp.toNat (x.u ua) 0 0 (x.g.sget ub.toNat)) s

/-- CPY (R210). -/
def execCpy (g : Guard) (y : YArgs) (s : State) : Host.Outcome State Fault Refusal :=
  issue (.cpy g y) noDyn (fun _ => yNames y false) (fun x => x.copy .cpy y) s

/-- CPYM (R213). -/
def execCpym (g : Guard) (y : YArgs) (s : State) : Host.Outcome State Fault Refusal :=
  issue (.cpym g y) noDyn (fun _ => yNames y true) (fun x => x.copy .cpym y) s

/-- GATH (R214). -/
def execGath (g : Guard) (y : YArgs) (s : State) : Host.Outcome State Fault Refusal :=
  issue (.gath g y) noDyn (fun _ => yNames y true) (fun x => x.copy .gath y) s

/-- COLL (R215). -/
def execColl (g : Guard) (y : YArgs) (s : State) : Host.Outcome State Fault Refusal :=
  issue (.coll g y) noDyn (fun _ => yNames y true) (fun x => x.copy .coll y) s

/-! ### One piece at a time -/

/-- What a read or write of a piece meets: bytes and state, a wait, or an engine fault subcode. -/
inductive EngRes (α : Type) where
  | ok (a : α)
  | wait (s : State)
  | fault (sub : Nat)

/-- A race on an engine's read (R208, R268): words owned by an agent of the command's own team are read by forwarding. -/
def Cmd.races (c : Cmd) (s : State) (paired race : Bool) (pa n : Nat) : Bool :=
  race && (s.mem.racing c.gid c.agent pa n).any (fun r => !(agentCore r.owner).any (fun d => sameTeamCore paired c.core d))

/-- Does a write that the command's group made before it still wait for these lines (R205)? -/
def Cmd.writeWaits (c : Cmd) (s : State) (core : Nat) (ls : List Nat) : Bool :=
  (s.deferred core).any (fun d => d.gid == c.gid && decide (d.key < c.key) && d.writes && d.lines.any ls.contains)

/-- Read bytes of a place for a command (R186, R187, R206, R209). Of another core's stash it reads the current words, since the group's
earlier writes are observed (R205, R275; log 4). -/
def Cmd.readPlace (c : Cmd) (s : State) (t : Task) (race : Bool) (e : Place × Nat) (n : Nat) : EngRes (List Byte) :=
  if e.1.lim < e.2 + n then .fault 2
  else match e.1.core with
    | none =>
      let va := (e.1.base + e.2) % 2 ^ 64
      match s.reach c.core t.vi .read false va n with
      | .error _ => .fault 3
      | .ok ps =>
        if ps.any (fun p => !p.2.2.remote && !p.2.2.repl && c.races s t.paired race p.2.2.pa p.2.1) then .fault 4
        else if ps.any (fun p => (s.mem.poisonIn (p.2.2.from' c.agent t.vi p.1) p.2.1).isSome) then .fault 5
        else .ok (ps.flatMap (fun p => let src := p.2.2.from' c.agent t.vi p.1
          if p.2.2.repl then s.mem.bytes.read src p.2.1 else s.mem.read src p.2.1))
    | some core =>
      let off := e.1.base + e.2
      let absent := (linesOf off n).filter (fun ln =>
        !s.mem.present core ln && !c.cleared.contains (core, ln))
      match absent with
      | ln :: _ => .wait { s with mem := s.mem.startFill core ln }
      | [] =>
        let words := (List.range n).filterMap (fun i => (s.mem.mappedAt core (off + i)).bind (fun l =>
          if l.1.repl then none else some (l.1.pa + (off + i) % 128)))
        if c.writeWaits s core (linesOf off n) then .wait s
        else if (s.stashLost core off n).isSome then .fault 3
        else if words.any (fun pa => c.races s t.paired race pa 1) then .fault 4
        else if (s.stashBad core off n).isSome then .fault 5
        else .ok (s.stashRead (core == c.core) core [(off, n)] off n).2

/-- Read all the sources of a piece. -/
def Cmd.readAll (c : Cmd) (s : State) (t : Task) (race : Bool) (n : Nat) : List (Place × Nat) → EngRes (List (List Byte))
  | [] => .ok []
  | e :: r => match c.readPlace s t race e n with
    | .fault k => .fault k
    | .wait s' => .wait s'
    | .ok bs => match c.readAll s t race n r with
      | .ok l => .ok (bs :: l)
      | .wait s' => .wait s'
      | .fault k => .fault k

/-- COLL's combination, element by element in route order (R215): no ftz, no flag; a NaN is canonical with no delivery too (R77). -/
def collBytes (op : Nat) (srcs : List (List Byte)) : List Byte :=
  match srcs with
  | [] => []
  | [a] => (List.range (a.length / 4)).flatMap (fun k => leBytes 4 (redAlone (redOpOf op) false (field a (4 * k) 4)))
  | a :: r => (List.range (a.length / 4)).flatMap (fun k =>
      leBytes 4 (r.foldl (fun x b => (redStep (redOpOf op) false x (field b (4 * k) 4)).1) (field a (4 * k) 4)))

/-- Where a store that leaves the package's reach goes: lost is subcode 8, refused 3 (R208). -/
def State.awayFault (s : State) (vi : Nat) (ps : List (Nat × Nat × Trans)) : Option Nat :=
  if ps.any (fun p => p.2.2.lost || (p.2.2.remote && !s.reachable (chipOf p.1))) then some 8
  else if ps.any (fun p => p.2.2.remote && s.homeRefuses (remoteKey vi p.1)) then some 3
  else none

/-- The global line of a mapped line that a command writes is translated, unless a write to it has been (R209, R255, R282): the line
with its home, or an engine fault subcode. -/
def Cmd.anchor (c : Cmd) (s : State) (core line : Nat) : EngRes State :=
  let l := s.mem.lineOf core line
  match l.mapped with
  | none => .ok s
  | some va =>
    if !(s.mem.dirtyWords l).isEmpty && l.pa != 2 ^ 80 then .ok s
    else match s.reach c.core l.vi .write false va 128 with
      | .error _ | .ok [] => .fault 3
      | .ok (p :: r) => match s.awayFault l.vi (p :: r) with
        | some k => .fault k
        | none =>
          let home := if p.2.2.remote then remoteKey l.vi va else p.2.2.pa
          .ok ({ s with mem := s.mem.setLine { l with pa := home, repl := p.2.2.repl } }.noteHome va p.2.2)

/-- A command reaches a stash line: its presence is cleared before any byte of it is written (R187). -/
def State.reachLine (s : State) (key core line : Nat) : State :=
  let l := s.mem.lineOf core line
  let s1 := { s with mem := s.mem.setLine { l with present := false } }
  s1.modCmd key (fun c => { c with
    reached := if c.reached.contains (core, line) then c.reached else c.reached ++ [(core, line)]
    cleared := if l.present then c.cleared ++ [(core, line)] else c.cleared })

/-- A command notes words that it has just registered, and is their writer (R209, R268). -/
def State.wroteWords (s : State) (c : Cmd) (pair : Bool) (ws : List Nat) : State :=
  { s with mem := s.mem.byEngine ws c.core c.key pair }.modCmd c.key (fun d => { d with words := d.words ++ ws })

/-- Write bytes of a place for a command, within one line of a stash (R209): memory words are registered to the engine until
completion, mapped stash words to the receiving stash. -/
def Cmd.writePlace (c : Cmd) (s : State) (t : Task) (e : Place × Nat) (bs : List Byte) : EngRes State :=
  let n := bs.length
  if e.1.lim < e.2 + n then .fault 2
  else match e.1.core with
    | none =>
      let va := (e.1.base + e.2) % 2 ^ 64
      match s.reach c.core t.vi .write false va n with
      | .error _ => .fault 3
      | .ok ps => match s.awayFault t.vi ps with
        | some k => .fault k
        | none =>
          let key (p : Nat × Nat × Trans) : Nat := if p.2.2.remote then remoteKey t.vi p.1 else p.2.2.pa
          if ps.any (fun p => s.lensWaits c.task (key p) p.2.1) then .wait s
          else .ok (ps.foldl (fun u p =>
          let part := (bs.drop (pieceOff va p.1)).take p.2.1
          let u := u.noteHome p.1 p.2.2
          if p.2.2.remote then u.remoteStore c.core t.vi p.1 part
          else if p.2.2.repl then (u.storeRepl c.gid c.agent p.2.2.pa part).noCount u
          else (u.storeAtom (some (agentWriter c.agent)) c.agent p.2.2.pa part).wroteWords c t.paired (wordsAt p.2.2.pa part.length)) s)
    | some core =>
      let off := e.1.base + e.2
      match c.anchor s core (off / 128) with
      | .wait s' => .wait s'
      | .fault k => .fault k
      | .ok s0 => if (s0.stashLost core off n).isSome then .fault 8 else
        let s1 := ((s0.reachLine c.key core (off / 128)).stashWrite c.gid true core off bs).noCount s0
        let ws := (wordParts off bs).filterMap (fun w => (s1.mem.mappedAt core w.1).bind (fun l =>
          if l.1.repl then none else some (l.1.pa + w.1 % 128)))
        .ok (s1.wroteWords c t.paired ws)

/-- A line becomes present (R187): the words of a mapped line that no command wrote take their values from the global line (R185), and
what waited for it goes on. -/
def State.lineDone (s0 : State) (core line : Nat) : State :=
  let s := if (s0.mem.lineOf core line).mapped.isSome then s0.settleLine core line (s0.mem.lineOf core line).pa else s0
  let l := s.mem.lineOf core line
  let m := if l.mapped.isSome then s.mem.refreshLine l else s.mem
  ({ s with mem := m.setLine { l with writers := [], present := true, unfinished := 0, filling := false, whole := false } }.lineBack
    core line).drainStash core

/-- A command has no more bytes to write in a line (R187): it becomes present when no command has, and none left it
unfinished. -/
def State.finishLine (s : State) (key core line : Nat) : State :=
  let l := s.mem.lineOf core line
  let ws := l.writers.filter (· != key)
  let fine := decide (l.unfinished ≤ key)
  if ws.isEmpty && fine then s.lineDone core line
  else { s with mem := s.mem.setLine { l with writers := ws, whole := l.whole || fine } }

/-- A command that ends early leaves the lines absent that it had begun to write; it has no bytes outstanding in any other, which becomes
present where another command has written all its bytes and none is left (R187, R208). -/
def State.leaveLines (s : State) (c : Cmd) : State :=
  let begun (l : Line) : Bool := c.reached.contains (l.core, l.line)
  let left (l : Line) : Line :=
    let l1 := { l with writers := l.writers.filter (· != c.key) }
    if begun l then { l1 with present := false, unfinished := s.nextId, whole := false } else l1
  let mine := s.mem.lines.filter (fun l => l.writers.contains c.key)
  let m := mine.foldl (fun m l => m.setLine (left l)) s.mem
  let t : State := { s with mem := m, nextId := s.nextId + 1 }
  let u := (mine.filter (fun l => !begun l && (left l).writers.isEmpty && l.whole)).foldl (fun u l => u.lineDone l.core l.line) t
  ((mine.map (fun l => l.core)).eraseDups).foldl State.fillWaited u

/-- The command as it now stands. -/
def State.nowCmd (s : State) (c : Cmd) : Cmd := (s.cmds.find? (fun d => d.key == c.key)).getD c

/-- A command of a privileged group that reads poison has consumed an uncorrectable error (R321). -/
def State.consumedBy (s : State) (c : Cmd) (sub : Nat) : State :=
  if sub = 5 ∧ (isFirmware c.core || (isService c.core && (s.task? c.task).any (fun t => t.privileged))) = true then
    { s with host := { s.host with consumed := s.host.consumed ++ [c.core] } }
  else s

/-- A command stops with a fault (R208). -/
def State.faultCmd (s : State) (c : Cmd) (sub : Nat) : State :=
  ((s.consumedBy c sub).modCmd c.key (fun d => { d with sub := sub, ended := true })).leaveLines (s.nowCmd c)

/-- A command has served everything (R208, R211, R212): its outcome, and lines whose writing it gave up. -/
def State.endCmd (s : State) (c : Cmd) : State :=
  let c' := s.nowCmd c
  let sub := if c'.routeFault then 7 else if c'.refused ≠ 0 then 6 else 0
  let s1 := s.modCmd c.key (fun d => { d with sub := sub, ended := true })
  if s1.mem.lines.any (fun l => l.writers.contains c.key) then s1.leaveLines c' else s1

/-- One line of STFLUSH (R193): a word written back that is lost or refused stops it (R208). -/
def Cmd.flushStep (c : Cmd) (s : State) : Option State :=
  let sl := c.seg 1
  let ln := (sl.1.toNat + c.ua + c.done) / 128
  let inv := fld c.control.toNat 16 1 == 1
  let l := s.mem.lineOf c.core ln
  if sl.2.toNat < c.ua + 128 * fld c.control.toNat 0 12 then some (s.faultCmd c 2)
  else if !l.writers.isEmpty || (inv && l.present && s.lensPending c.core ln) || c.writeWaits s c.core [ln] then none
  else
    let (s1, lost, refused) := s.flushLine c.core ln
    if lost ≠ 0 then some (s1.faultCmd c 8)
    else if refused ≠ 0 then some (s1.faultCmd c 3)
    else
      let m := if inv && l.mapped.isSome then s1.mem.setLine { l with present := false } else s1.mem
      some ({ s1 with mem := m }.modCmd c.key (fun d => { d with done := d.done + 128 }))

/-- Progress: everything that has been read and no part of which is still to be written (R207). -/
def Cmd.progress (c : Cmd) : Nat := c.parts.foldl (fun n p => min n p.2.1) c.fetched

/-- Change the parts of a command that are still to be written. -/
def State.setParts (s : State) (key : Nat) (f : List (Nat × Nat × List Byte) → List (Nat × Nat × List Byte)) : State :=
  s.modCmd key (fun c => let d := { c with parts := f c.parts }; { d with done := d.progress })

/-- A piece as the parts that are written at delivery j: one a destination line of a stash. -/
def Cmd.partsAt (c : Cmd) (s : State) (p : Nat) (bs : List Byte) (j : Nat) : List (Nat × Nat × List Byte) :=
  match c.target s j with
  | none => []
  | some pl =>
    if pl.core.isNone then [(j, p, bs)]
    else (linePieces (pl.base + c.ua + p) bs).map (fun q => (j, q.1 - pl.base - c.ua, q.2))

/-- The next piece of a command is read (R205, R206, R213 to R215): none when it must wait for something other than a fill that it
starts (R186), for the Lens among it where it consumes what it reads (R214, R226). -/
def Cmd.fetchPiece (c : Cmd) (s : State) (t : Task) (race : Bool) : Option State :=
  match c.piece s with
  | none => if c.parts.isEmpty then some (s.endCmd c) else none
  | some p =>
    let next (u : State) : State := (u.modCmd c.key (fun d => { d with fetched := d.fetched + p.len })).setParts c.key id
    if p.srcs.isEmpty then some (next s)
    else match c.readAll s t race p.len p.srcs with
      | .fault k => some (s.faultCmd c k)
      | .wait s' => if s' = s then none else some s'
      | .ok bss =>
        let k := controlOf c.control.toNat
        let bs := if c.op = .coll then collBytes k.op bss else bss.headD []
        let s1 := (next s).setParts c.key (fun l => l ++ p.dsts.flatMap (c.partsAt s p.at' bs))
        let gone := if k.consume then (stashLines p.srcs p.len).filter (fun e =>
            p.srcs.any (fun q => decide (128 * (e.2 + 1) ≤ q.1.base + q.2 + p.len)) || (c.fetched + p.len) % k.length == 0) else []
        if gone.any (fun e => s.mem.present e.1 e.2 && s.lensPending e.1 e.2) then none
        else some { s1 with mem := gone.foldl (fun m e => m.setLine { m.lineOf e.1 e.2 with present := false }) s1.mem }

/-- Is a line one in which a command has more bytes to write at delivery j? -/
def Cmd.linesLeft (c : Cmd) (s : State) (pl : Place) (j : Nat) : List (Nat × Nat) :=
  c.aheadLines s c.fetched j
    ++ (c.parts.filter (fun p => p.1 == j)).flatMap (fun p => stashLines [(pl, c.ua + p.2.1)] p.2.2.length)

/-- The oldest part that a command has read for delivery j is written there (R187, R213): none while the Lens has yet to read the
line (R226). -/
def Cmd.writePart (c : Cmd) (s : State) (t : Task) (j p : Nat) (bs : List Byte) : Option State :=
  let rest (u : State) : State := u.setParts c.key (fun l => l.erase (j, p, bs))
  match c.target s j with
  | none => some (rest s)
  | some pl =>
    let ls := stashLines [(pl, c.ua + p)] bs.length
    if ls.any (fun e => s.mem.present e.1 e.2 && s.lensPending e.1 e.2) then none
    else match c.writePlace s t (pl, c.ua + p) bs with
      | .fault k => some (s.faultCmd c k)
      | .wait _ => none
      | .ok s1 =>
        let s2 := rest s1
        let left := (s2.nowCmd c).linesLeft s2 pl j
        some ((ls.filter (fun e => !left.contains e)).foldl (fun u e => u.finishLine c.key e.1 e.2) s2)

/-- One step of a command: a part for delivery j is written, or for any other j the next piece is read, or it ends. Deliveries go on
each on its own (R213, R332). -/
def Cmd.step (c0 : Cmd) (s0 : State) (t : Task) (race : Bool) (j : Nat) : Option State :=
  if c0.ended then none
  else if c0.op = .stflush then (if c0.total ≤ c0.done then some (s0.endCmd c0) else c0.flushStep s0)
  else
    let ref := c0.refusedNow s0
    let keep (l : List (Nat × Nat × List Byte)) := if c0.op = .cpym then l.filter (fun p => !ref.getLsbD p.1) else l
    let s := if ref = c0.refused then s0 else (s0.modCmd c0.key (fun d => { d with refused := ref })).setParts c0.key keep
    let c := s.nowCmd c0
    match c.parts.find? (fun p => p.1 == j), decide (j < 16) with
    | some p, true => c.writePart s t j p.2.1 p.2.2
    | none, true => none
    | _, false => c.fetchPiece s t race

/-! ### Completion (R206 to R208) -/

/-- The completion word (R207). -/
def Cmd.word (c : Cmd) : Nat := 1 + 256 * c.sub + 2 ^ 16 * c.refused.toNat + 2 ^ 32 * satAt (2 ^ 32 - 1) c.done

/-- The release of a command (R206, R209), its stores to replicas among it (R272), and the end of the engine's registrations. -/
def State.releaseCmd (s : State) (c : Cmd) (paired : Bool) : State :=
  let s := if c.rel = some .pkg ∨ c.rel = some .sys then s.flushOf c.core c.gid else s
  let m := match c.rel with
    | some sc => s.mem.releaseCmd c.words c.gid c.key ⟨c.agent, sc, paired⟩
    | none => s.mem
  { s with mem := m.writeBackAll ((m.regs.filter (fun r => c.words.contains r.pa && r.owner == c.agent)).map (fun r => r.pa)) }

/-- Write the completion word (R206), as an STL at the release's scope, or as a RED.set, which registers nothing and which a REPL page
refuses (R257, R272): the state, and subcode 3 or 8 when it could not be written. -/
def State.putWord (s : State) (c : Cmd) (vi : Nat) : State × Nat :=
  let va := ((c.seg 2).1.toNat + c.cwOff) % 2 ^ 64
  let bs := leBytes 8 c.word
  match s.reach c.core vi .write c.rel.isNone va 8 with
  | .error _ => (s, 3)
  | .ok ps => match s.awayFault vi ps with
    | some k => (s, k)
    | none => (ps.foldl (fun u p =>
      let part := (bs.drop (pieceOff va p.1)).take p.2.1
      if p.2.2.remote then u.remoteStore c.core vi p.1 part
      else if p.2.2.repl then (u.storeRepl c.gid c.agent p.2.2.pa part).noCount u
      else if c.rel.isSome then u.deviceWrite p.2.2.pa part
      else (wordParts p.2.2.pa part).foldl (fun v w => v.redPut w.1 w.2.1 w.2.2) u) s, 0)

/-- The group that a boundary trap goes to (R208, R232): the issuer, or the team's lowest-numbered resident group among
those that a test admits; where every one left is swapped out, the lowest-numbered of them, when it is back. -/
def State.trapGroup (s : State) (ok : Group → Bool) (gid task : Nat) : Option Group :=
  let lowest (l : List Group) : Option Group := l.foldl (fun b h => match b with
    | none => some h
    | some k => if h.num < k.num then some h else some k) none
  let team := s.groups.filter (fun h => h.task == task && h.residency != .ended && ok h)
  match s.group? gid with
  | some g => if g.residency ≠ .ended then some g else (lowest (team.filter (fun h => h.residency == .resident))).orElse (fun _ => lowest team)
  | none => none

/-- A boundary trap is left pending in a group; with no group left the task's status becomes 4 or 5 (R208, R232). -/
def State.pendTrap (s : State) (ok : Group → Bool) (gid task : Nat) (b : Boundary) (late : Nat) : State :=
  match s.trapGroup ok gid task with
  | some g => s.modGroup g.gid (fun h => { h with boundary := h.boundary ++ [b] })
  | none => s.modTask task (fun t => { t with late := max t.late late })

/-- Completion, with or without a fault (R206, R208). -/
def State.finishCmd (s : State) (c : Cmd) (t : Task) : State :=
  let s1 := (s.releaseCmd c t.paired).modGroup c.gid (fun g =>
    if c.cmp < 6 then { g with e := g.e.set c.cmp (if g.e.get c.cmp = 0 then 0 else g.e.get c.cmp - 1) } else g)
  let wordOk := c.cmp == 6 && c.cwOk
  let (s2, wsub) := if wordOk then s1.putWord c t.vi else (s1, 0)
  let tsub := if wordOk then wsub else c.sub
  let s3 := { s2 with cmds := s2.cmds.filter (fun d => d.key != c.key) }
  if tsub = 0 then s3
  else s3.pendTrap (fun _ => true) c.gid c.task ⟨7, tsub, c.opcode, 0, 0, BitVec.ofNat 64 c.word⟩ 4

end Sys2Proof.Machine
end

