-- ==== Sys2Proof/Machine/Matrix.lean ====
section
/-! DEFINITION. Family 6 and the matrix arrays: operand maps, MMA and MMAS from issue to retirement, MZERO, readouts and
writes of accumulator tiles, tile status (R88 to R93, R217 to R232). -/
namespace Sys2Proof.Machine

/-! ### Operand maps (R219, R220) -/

/-- The fields of an operand map (R219). -/
structure OMap where
  blk : Nat
  band : Nat
  swizzle : Nat
  slot : Nat
  pitch : Nat
  base : Nat
  reserved : Bool
  deriving DecidableEq, Repr

/-- Read a tile register as an operand map (R219). -/
def omapOf (w : BitVec 128) : OMap :=
  let n := w.toNat
  { blk := fld n 96 18, band := fld n 64 18, swizzle := fld n 35 3, slot := fld n 32 3, pitch := fld n 20 12
    base := fld n 0 18, reserved := fld n 114 14 != 0 || fld n 82 14 != 0 || fld n 38 26 != 0 || fld n 18 2 != 0 }

/-- What a map must satisfy when it is used (R219, R232 subcode 2). -/
def OMap.bad (m : OMap) (s : Slot) : Bool :=
  m.reserved || decide (4 < m.swizzle) || decide (m.pitch < 16) || m.base % 16 != 0
    || (s.band && m.band % 2 != 0) || (s.block != 0 && m.blk % 8 != 0)

/-- The segment offset of byte k of row r (R220). -/
def OMap.rowByte (m : OMap) (r k : Nat) : Nat :=
  m.base + 16 * m.pitch * r + 16 * Nat.xor (k / 16) (r % 2 ^ m.swizzle) + k % 16

/-- Block scales of a row (R220). -/
def blocksPerRow (fmt : Nat) : Nat := if fmt = 5 then 64 else 8

/-- Elements a block scale covers (R88). -/
def blockLen (fmt : Nat) : Nat := if fmt = 5 then 8 else 32

/-- The byte ranges of a map's rows, scales and band: offset and length (R220). -/
def OMap.spans (m : OMap) (s : Slot) (rowBytes : Nat) : List (Nat × Nat) :=
  (List.range 64).flatMap (fun r => (List.range (rowBytes / 16)).map (fun c => (m.rowByte r (16 * c), 16)))
    ++ (if s.block = 0 then [] else [(m.blk, 64 * blocksPerRow s.fmt)]) ++ (if s.band then [(m.band, 2)] else [])

/-- Does a range reach the limit (R232 subcode 3)? -/
def beyondLimit (l : List (Nat × Nat)) (lim : Nat) : Bool := l.any (fun e => decide (lim < e.1 + e.2))

/-- The format pairs that an operation accepts (R222). -/
def formatsOk (a b : Nat) (sparse : Bool) : Bool :=
  (a == 5 && b == 5) || ((a == 3 || a == 4) && (b == 3 || b == 4)) || (a == 6 && b == 6)
    || (!sparse && ((a == 2 && b == 2) || (a == 1 && b == 1)))

/-- Elements of a row that a format counts, for a dense operation (R222). -/
def denseK (fmt : Nat) : Nat := if fmt = 5 then 512 else if fmt = 1 ∨ fmt = 2 then 128 else 256

/-- Metadata words of a row (R224). -/
def metaPerRow (fmt : Nat) : Nat := if fmt = 5 then 16 else 8

/-! ### Accumulator tiles -/

/-- Key of a value of a tile: core of the team, tile, row, column. -/
def accKey (sel tile m n : Nat) : Nat := (sel * 8 + tile) * 4096 + m * 64 + n

/-- Key of a tile's status. -/
def tileKey (sel tile : Nat) : Nat := sel * 8 + tile

/-- Every value of a tile. -/
def tileKeys (sel tile : Nat) : List Nat := (List.range 4096).map (fun i => tileKey sel tile * 4096 + i)

/-- Is a key one of a tile's? -/
def inTile (sel tile k : Nat) : Bool := k / 4096 == tileKey sel tile

/-- A tile set to +0, its marks and status cleared (R223, R229, R318). -/
def Task.clearTile (t : Task) (sel tile : Nat) : Task :=
  { t with acc := t.acc.filter (fun c => !inTile sel tile c.1), accPoison := t.accPoison.filter (fun k => !inTile sel tile k)
           tstat := t.tstat.set (tileKey sel tile) 0 }

/-- The tile status that MSTAT reads (R231). -/
def Task.tileStatus (t : Task) (sel tile : Nat) : Nat :=
  (t.tstat.get (tileKey sel tile)).toNat % 8 + 8 * bit (t.accPoison.any (inTile sel tile))

/-! ### The arithmetic of an operation (R88 to R92) -/

/-- The bytes of a stash range as the Lens captured them. -/
def ArrEntry.byte (e : ArrEntry) (core off : Nat) : Nat :=
  (e.got.get (stashKey core (((e.segBase.lookup core).getD 0) + off))).toNat

/-- Element k of row r as a code (R220). -/
def ArrEntry.code (e : ArrEntry) (core : Nat) (m : OMap) (fmt r k : Nat) : Nat :=
  match fmt with
  | 5 => fld (e.byte core (m.rowByte r (k / 2))) (4 * (k % 2)) 4
  | 1 | 2 => e.byte core (m.rowByte r (2 * k)) + 256 * e.byte core (m.rowByte r (2 * k + 1))
  | _ => e.byte core (m.rowByte r k)

/-- The block scale of element k of row r (R88). -/
def ArrEntry.scale (e : ArrEntry) (core : Nat) (m : OMap) (s : Slot) (r k : Nat) : FVal :=
  if s.block = 0 then .fin false 1 0
  else
    let c := e3m5 (e.byte core (m.blk + blocksPerRow s.fmt * r + k / blockLen s.fmt))
    .fin false c.1 c.2

/-- The band scale (R88). -/
def ArrEntry.bandVal (e : ArrEntry) (core : Nat) (m : OMap) (s : Slot) : FVal :=
  if s.band then fmtBF16.decode (e.byte core m.band + 256 * e.byte core (m.band + 1)) else .fin false 1 0

/-- The stored element that a dense position holds under the 2:4 pattern, or none where it is pruned (R224); the selector is 1
only for the follower's rows of a paired operation. -/
def ArrEntry.sparseElt (e : ArrEntry) (sel fmt r k : Nat) : Option Nat :=
  let wpr := metaPerRow fmt
  let g := k / 4
  let w := (e.metaWords.getD (64 * sel * wpr + r * wpr + g / 8) 0).toNat
  let n := fld w (4 * (g % 8)) 4
  if n % 4 = k % 4 then some (2 * g) else if n / 4 = k % 4 then some (2 * g + 1) else none

/-- One operand element with its block scale (R88, R92). -/
def ArrEntry.operand (e : ArrEntry) (core : Nat) (m : OMap) (s : Slot) (r idx k : Nat) : FVal :=
  ((fmtValue s.elt false (e.code core m s.fmt r idx)).mul (e.scale core m s r k)).1

/-- A product of R89: both elements with their block scales, or the +0 of a pruned position (R92). -/
def ArrEntry.product (e : ArrEntry) (core lead sel : Nat) (mA mB : OMap) (sA sB : Slot) (m n k : Nat) : FVal :=
  let a := match e.kind with
    | .mmas => e.sparseElt sel sA.fmt m k
    | _ => some k
  match a with
  | none => .fin false 0 0
  | some j => ((e.operand core mA sA m j k).mul (e.operand lead mB sB n k k)).1

/-- floor(m × 2^e / 2^q). -/
def floorAt (m : Nat) (e q : Int) : Nat := if q ≤ e then m * 2 ^ (e - q).toNat else m / 2 ^ (q - e).toNat

/-- The sum of a summation group (R89, R90): exact inside a 32-bit window, or the IEEE outcome. A sum of nonzero products that
is exactly zero is +0 (DESIGN CHOICE, log 59: R89 gives no sign). -/
def groupSum (ps : List FVal) : FVal :=
  if ps.any FVal.isNan || (ps.any (· == .inf true) && ps.any (· == .inf false)) then .nan false
  else if ps.any (· == .inf true) then .inf true
  else if ps.any (· == .inf false) then .inf false
  else
    let nz : List (Bool × Nat × Int) := ps.filterMap (fun p => match p with
      | .fin s m e => if m = 0 then none else some (s, m, e)
      | _ => none)
    match nz.map (fun p => (Nat.log2 p.2.1 : Int) + p.2.2) with
    | [] => .fin (ps.all FVal.neg) 0 0
    | x :: r =>
      let q := r.foldl max x - 31
      let t : Int := nz.foldl (fun a p =>
        let f : Int := floorAt p.2.1 p.2.2 q
        if p.1 then a - f else a + f) 0
      .fin (decide (t < 0)) t.natAbs q

/-- One group added to an accumulator value (R89, R90): the code and the status bits it sets (R231). DESIGN CHOICE (log 59): NAN is set
whenever the sum written is a NaN, also where the accumulator value was one before. -/
def addGroup (acc : Nat) (s bandA bandB : FVal) : Nat × BitVec 4 :=
  let t := ((s.mul bandA).1.mul bandB).1
  let r := (fmtXF40.decode acc).add .rne t
  let w := fmtXF40.write .rne false r.1
  (w.1, (if r.1.isNan then 1 else 0) ||| (if w.2 &&& flOF != 0 then 2 else 0))

/-- One integer group added to an INT40 value, clamped (R91). -/
def addGroupInt (acc : Nat) (sum : Int) : Nat × BitVec 4 :=
  let t := signed 40 acc + sum
  if t < -(2 ^ 39) then (2 ^ 39, 4)
  else if 2 ^ 39 ≤ t then (2 ^ 39 - 1, 4)
  else ((BitVec.ofInt 40 t).toNat, 0)

/-- The new value of an accumulator element and the status bits it sets (R89 to R92). -/
def ArrEntry.element (e : ArrEntry) (core lead sel : Nat) (acc m n : Nat) : Nat × BitVec 4 :=
  let mA := omapOf e.mapA
  let mB := omapOf e.mapB
  let sA := slotOf e.slotA
  let sB := slotOf e.slotB
  (List.range (denseK sA.fmt / 32)).foldl (fun (c : Nat × BitVec 4) g =>
    let ps := (List.range 32).map (fun j => e.product core lead sel mA mB sA sB m n (32 * g + j))
    let r := if sA.fmt = 6 then
        addGroupInt c.1 (ps.foldl (fun (t : Int) p => t + p.dy.m * 2 ^ p.dy.e.toNat) 0)
      else addGroup c.1 (groupSum ps) (e.bandVal core mA sA) (e.bandVal lead mB sB)
    (r.1, c.2 ||| r.2)) (acc, 0)

/-- An operation's effect on the tile of one core (R223): a poisoned value stays poisoned (R318). -/
def ArrEntry.applyCore (e : ArrEntry) (t : Task) (core : Nat) : Task :=
  let sel := t.coreSel core
  let t1 := if e.z then t.clearTile sel e.acc else t
  let lead := e.cores.headD core
  let metaSel := if e.cores.length = 1 then 0 else sel
  (List.range 4096).foldl (fun u i =>
    let k := tileKey sel e.acc * 4096 + i
    let r := e.element core lead metaSel (t1.acc.get k).toNat (i / 64) (i % 64)
    { u with acc := u.acc.set k (BitVec.ofNat 40 r.1)
             tstat := u.tstat.set (tileKey sel e.acc) (u.tstat.get (tileKey sel e.acc) ||| r.2) }) t1

/-! ### Readout (R93) and writes (R81) -/

/-- The FP32 readout (R93). -/
def readF32 (ftz : Bool) (x : Nat) : Nat × Flags := fmtConvert .f32 .rne ftz false (fmtXF40.decode x)

/-- The head–tail readout (R93): ftz does not apply. -/
def readPair (x : Nat) : Nat × Nat × Flags :=
  match fmtXF40.decode x with
  | .nan s => (fmtF32.nanCode, 0, flIf s flNV)
  | .inf n => (fmtF32.infCode n, 0, 0)
  | .fin n m e =>
    let (h0, _) := fmtF32.round .rne false false n m 1 e
    let head := if h0 % 2 ^ 31 = fmtF32.infCode false then fmtF32.withSign n fmtF32.maxMag else h0
    let d := (FVal.fin n m e).dy.add (fmtF32.decode head).negate.dy
    let (tail, fl) := fmtF32.round .rne false false (decide (d.m < 0)) d.m.natAbs 1 d.e
    (head, tail, fl &&& flNX)

/-- The INT32 readout (R93). -/
def readI32 (x : Nat) : Nat × Flags :=
  let i := signed 40 x
  if i < -(2 ^ 31) then (2 ^ 31, flNV)
  else if 2 ^ 31 ≤ i then (2 ^ 31 - 1, flNV)
  else ((BitVec.ofInt 32 i).toNat, 0)

/-- The exact XF40 code of an FP32 code (R81). -/
def xf40OfF32 (x : Nat) : Nat := if (fmtF32.decode x).isNan then fmtXF40.nanCode else x % 2 ^ 32 * 256

/-! ### Issue -/

/-- The cores that an operation covers (R223, R227). -/
def Ctx.opCores (x : Ctx) (p : Bool) : List Nat := if p then x.t.cores else [x.g.core]

/-- Does a group's core follow in a paired operation that is accepted and has not retired (R227)? -/
def State.slaved (s : State) (core : Nat) : Bool :=
  s.arrays.any (fun e => e.stage == .accepted && e.cores.length == 2 && e.cores.getLastD 0 == core)

/-- The pairing fault (R227). -/
def Ctx.pairBad (x : Ctx) (p : Bool) : Bool := p && (!x.t.paired || x.g.core != x.t.cores.headD x.g.core)

/-- A matrix-fault trap at issue (R232, R306): bit 3 says that the fault lies on the follower. -/
def Ctx.matrixTrap (x : Ctx) (sub tile : Nat) (core : Nat) : Trap :=
  ⟨6, sub, x.act, 0, BitVec.ofNat 64 (tile + 8 * bit (x.t.coreSel core == 1)), 0, 0⟩

/-- The S segment of a core of the team: base and limit (R220). -/
def Ctx.segOn (x : Ctx) (core : Nat) : Nat × Nat :=
  if core = x.g.core then ((x.g.seg 1).1.toNat, (x.g.seg 1).2.toNat)
  else (x.t.stashBase.getD (x.t.coreSel core) 0, x.t.stashBytes)

/-- A tile register's value. -/
def Ctx.tile (x : Ctx) (n : BitVec 4) : BitVec 128 := x.t.tiles.get n.toNat

/-- The lowest matrix fault of an MMA or MMAS at issue (R232), with the core it lies on. -/
def Ctx.mmaFault (x : Ctx) (p sparse : Bool) (ta tb : BitVec 4) (words : List Word) : Option (Nat × Nat) :=
  let mA := omapOf (x.tile ta)
  let mB := omapOf (x.tile tb)
  let sA := x.slot mA.slot
  let sB := x.slot mB.slot
  let lead := (x.opCores p).headD x.g.core
  let rowA := if sparse then 128 else 256
  if !sA.valid || !sB.valid || !formatsOk sA.fmt sB.fmt sparse then some (1, x.g.core)
  else if mA.bad sA || mB.bad sB then some (2, x.g.core)
  else if x.pairBad p then
    if (x.opCores false).any (fun c => beyondLimit (mA.spans sA rowA) (x.segOn c).2) || beyondLimit (mB.spans sB 256) (x.segOn x.g.core).2
    then some (3, x.g.core) else some (4, x.g.core)
  else match (x.opCores p).find? (fun c => beyondLimit (mA.spans sA rowA) (x.segOn c).2
      || (c == lead && beyondLimit (mB.spans sB 256) (x.segOn c).2)) with
    | some c => some (3, c)
    | none =>
      if words.any (fun w => (List.range 8).any (fun h => decide (fld w.toNat (4 * h + 2) 2 ≤ fld w.toNat (4 * h) 2))) then some (5, x.g.core)
      else none

/-- The stash lines of byte ranges of a core. -/
def spanLines (core base : Nat) (l : List (Nat × Nat)) : List (Nat × Nat) :=
  (l.flatMap (fun e => (linesOf (base + e.1) e.2).map (fun n => (core, n)))).eraseDups

/-- The stash lines that the Lens reads for an operation (R226). -/
def ArrEntry.needs (e : ArrEntry) : List (Nat × Nat) :=
  let mA := omapOf e.mapA
  let mB := omapOf e.mapB
  let base (c : Nat) : Nat := (e.segBase.lookup c).getD 0
  let rowA := match e.kind with | .mmas => 128 | _ => 256
  let lead := e.cores.headD 0
  (e.cores.flatMap (fun c => spanLines c (base c) (mA.spans (slotOf e.slotA) rowA))
    ++ spanLines lead (base lead) (mB.spans (slotOf e.slotB) 256)).eraseDups

/-- Is there room for an operation in every array it covers (R225)? -/
def State.arrayRoom (s : State) (e : ArrEntry) : Bool :=
  e.cores.all (fun c => decide ((s.arrays.filter (fun d => d.cores.contains c &&
    (match d.kind with | .mma | .mmas => true | _ => false))).length < Config.arrayQueue))

/-- An entry of an array with nothing read. -/
def Ctx.entry (x : Ctx) (kind : ArrKind) (cores : List Nat) (acc : BitVec 3) (z : Bool) : ArrEntry :=
  { key := x.s.nextId, gid := x.g.gid, task := x.t.uid, kind := kind, stage := .accepted, cores := cores, acc := acc.toNat
    z := z, mapA := 0, mapB := 0, slotA := 0, slotB := 0, segBase := [], metaWords := [], toRead := [], got := [], abort := 0 }

/-- The group waits at issue with its operation, which asks for a token once it has room (R225). -/
def State.askArray (s : State) (e : ArrEntry) : State :=
  if s.arrayRoom e then
    let e1 := { e with stage := .token }
    { s with arrays := s.arrays ++ [e1] }.modGroup e.gid (fun g => { g with hold := .array e1 })
  else s.modGroup e.gid (fun g => { g with hold := .array { e with stage := .room } })

/-- The words of MMAS metadata (R224): word q lies in register v + q div L, lane q mod L. -/
def Ctx.metaWords (x : Ctx) (p : Bool) (l : Nat) (v : BitVec 8) (wpr : Nat) : List Word :=
  (List.range (64 * wpr * (if p then 2 else 1))).map (fun q => x.g.vget (v.toNat + q / l) (q % l))

/-- MMA and MMAS once their checks at issue have passed. -/
def Ctx.startMma (x : Ctx) (sparse p z : Bool) (words : List Word) (tb ta : BitVec 4) (acc : BitVec 3) : Res :=
  let cores := x.opCores p
  let slot (t : BitVec 4) : DWord := x.l.slots.getD (omapOf (x.tile t)).slot 0
  let e : ArrEntry := { x.entry (if sparse then .mmas else .mma) cores acc z with
    mapA := x.tile ta, mapB := x.tile tb, slotA := slot ta, slotB := slot tb
    segBase := cores.map (fun c => (c, (x.segOn c).1)), metaWords := words }
  .hold ({ x.s with nextId := x.s.nextId + 1 }.askArray e)

/-- The body of MMA and MMAS (R223, R225, R227); a map struck by an uncorrectable error is fatal (R317). -/
def Ctx.mma (x : Ctx) (sparse p z : Bool) (words : List Word) (tb ta : BitVec 4) (acc : BitVec 3) : Res :=
  if x.s.slaved x.g.core then x.again
  else if !x.any then .ok x.s
  else if x.t.tileErr.contains ta.toNat || x.t.tileErr.contains tb.toNat then .hold (x.s.fatal x.g 12 0 false)
  else match x.mmaFault p sparse ta tb words with
    | some f => .trap (x.matrixTrap f.1 acc.toNat f.2)
    | none => x.startMma sparse p z words tb ta acc

/-- The named registers of an MMA. -/
def mmaNames (tb ta : BitVec 4) (acc : BitVec 3) : List Named :=
  [⟨0, .acc acc.toNat, false⟩, ⟨1, .tile ta.toNat, false⟩, ⟨2, .tile tb.toNat, false⟩]

/-- MAPSET (R221). -/
def execMapset (g : Guard) (sn : BitVec 6) (ta : BitVec 4) (s : State) : Host.Outcome State Fault Refusal :=
  issue (.mapset g sn ta) noDyn (fun _ => [⟨0, .tile ta.toNat, false⟩, ⟨1, .op (.s sn) 2, true⟩]) (fun x =>
    if x.s.slaved x.g.core then x.again
    else if !x.any then .ok x.s
    else .ok (x.s.modTask x.t.uid (fun t => { t with
      tiles := t.tiles.set ta.toNat (x.g.sget (sn.toNat + 1) ++ x.g.sget sn.toNat), tileErr := t.tileErr.filter (· != ta.toNat) }))) s

/-- MMA (R223). -/
def execMma (g : Guard) (p z : Bool) (tb ta : BitVec 4) (acc : BitVec 3) (s : State) : Host.Outcome State Fault Refusal :=
  issue (.mma g p z tb ta acc) noDyn (fun _ => mmaNames tb ta acc) (fun x => x.mma false p z [] tb ta acc) s

/-- Registers that MMAS reads (R224): the metadata of one core, or of two. -/
def Ctx.metaRegs (x : Ctx) (p : Bool) (l : Nat) (ta : BitVec 4) : Nat :=
  64 * metaPerRow (x.slot (omapOf (x.tile ta)).slot).fmt / l * (if p then 2 else 1)

/-- The metadata that active lanes supply to MMAS (R224, R318). -/
def Ctx.metaReads (x : Ctx) (l : Nat) (v : BitVec 8) (cnt : Nat) : Use :=
  .far ((List.range cnt).flatMap (fun j => ((List.range l).filter (fun i => x.act.getLsbD i)).map (fun i => ⟨i, 0, v.toNat + j, i⟩)))

/-- MMAS (R223, R224). -/
def execMmas (g : Guard) (p z : Bool) (lsel : BitVec 2) (v : BitVec 8) (tb ta : BitVec 4) (acc : BitVec 3) (s : State) :
    Host.Outcome State Fault Refusal :=
  let l := 16 * 2 ^ lsel.toNat
  issue (.mmas g p z lsel v tb ta acc) (fun x => decide (x.g.width < l) || pastV255 v.toNat (x.metaRegs p l ta))
    (fun x => mmaNames tb ta acc ++ [⟨3, .op (.v v) (x.metaRegs p l ta), false⟩, ⟨3, x.metaReads l v (x.metaRegs p l ta), true⟩])
    (fun x => x.mma true p z (x.metaWords p l v (metaPerRow (x.slot (omapOf (x.tile ta)).slot).fmt)) tb ta acc) s

/-- An entry that joins the arrays of its cores at once (R225). -/
def Ctx.enter (x : Ctx) (e : ArrEntry) : State := { x.s with arrays := x.s.arrays ++ [e], nextId := x.s.nextId + 1 }

/-- MZERO (R229). -/
def execMzero (g : Guard) (p : Bool) (acc : BitVec 3) (s : State) : Host.Outcome State Fault Refusal :=
  issue (.mzero g p acc) noDyn (fun _ => [⟨0, .acc acc.toNat, false⟩]) (fun x =>
    if x.s.slaved x.g.core then x.again
    else if !x.any then .ok x.s
    else if x.pairBad p then .trap (x.matrixTrap 4 acc.toNat x.g.core)
    else .ok (x.enter (x.entry .mzero (x.opCores p) acc false))) s

/-- The origin of a readout (R230): row and column, none when it is illegal. -/
def Ctx.origin (x : Ctx) (r : RArgs) : Option (Nat × Nat) :=
  let o := (x.g.sget r.s.toNat).toNat
  let row := fld o 0 6
  let col := fld o 8 6
  if o ≠ row + 256 * col ∨ 64 < col + x.g.width ∨ 64 < row + r.n1.toNat + 1 then none else some (row, col)

/-- The named registers of a readout or write. -/
def readNames (r : RArgs) (cnt : Nat) (rd : Bool) : List Named :=
  [⟨0, .op (.v r.v) cnt, rd⟩, ⟨1, .acc r.acc.toNat, false⟩, ⟨2, .op (.s r.s) 1, true⟩]

/-- Has a value that an ACCRD reads become poisoned since its issue (R230)? -/
def Task.readPoison (t : Task) (sel tile row col n : Nat) (lanes : List Nat) : Bool :=
  (List.range n).any (fun j => lanes.any (fun l => t.accPoison.contains (accKey sel tile (row + j) (col + l))))

/-- A team's tile as it will stand once its entries accepted before have retired, as far as its marks go (R225, R229, R230): none
of them that clears marks is passed over. An operation that aborts meanwhile is met at the readout's turn. -/
def Task.queued (t : Task) (l : List ArrEntry) (core sel : Nat) : Task :=
  (l.filter (fun d => d.task == t.uid && d.stage == .accepted && d.cores.contains core)).foldl (fun u d => match d.kind with
    | .mzero => u.clearTile sel d.acc
    | .accwr _ row col vals =>
      let keys := vals.map (fun v => accKey sel d.acc (row + v.1) (col + v.2.1))
      { u with accPoison := u.accPoison.filter (fun k => !keys.contains k) }
    | .mma | .mmas => if d.z && d.abort == 0 then u.clearTile sel d.acc else u
    | _ => u) t

/-- ACCRD in its three forms: 0 f32, 1 pair, 2 i32 (R230): the value is read in array order. -/
def accrd (i : Instr) (form : Nat) (r : RArgs) (s : State) : Host.Outcome State Fault Refusal :=
  let n := r.n1.toNat + 1
  let cnt := if form = 1 then 2 * n else n
  issue i noDyn (fun _ => readNames r cnt false) (fun x =>
    if x.s.slaved x.g.core then x.again
    else if !x.any then .ok x.s
    else match x.origin r with
      | none => .trap (x.matrixTrap 6 r.acc.toNat x.g.core)
      | some (row, col) =>
        let sel := x.t.coreSel x.g.core
        if (x.t.queued x.s.arrays x.g.core sel).readPoison sel r.acc.toNat row col n x.lanes then .trap (x.matrixTrap 7 r.acc.toNat x.g.core)
        else
          let e := x.entry (.accrd form row col n r.v.toNat x.act) [x.g.core] r.acc false
          .ok (x.outstanding (x.enter e) ((List.range cnt).map (fun j => RegName.v (r.v.toNat + j))) false [] 0 (.array e.key))) s

/-- ACCRD.f32 (R230). -/
def execAccrdF32 (g : Guard) (r : RArgs) (s : State) : Host.Outcome State Fault Refusal := accrd (.accrdF32 g r) 0 r s

/-- ACCRD.pair (R230). -/
def execAccrdPair (g : Guard) (r : RArgs) (s : State) : Host.Outcome State Fault Refusal := accrd (.accrdPair g r) 1 r s

/-- ACCRD.i32 (R230). -/
def execAccrdI32 (g : Guard) (r : RArgs) (s : State) : Host.Outcome State Fault Refusal := accrd (.accrdI32 g r) 2 r s

/-- ACCWR (R230): the registers are read at issue, the values written in array order. -/
def accwr (i : Instr) (i32 : Bool) (r : RArgs) (s : State) : Host.Outcome State Fault Refusal :=
  let n := r.n1.toNat + 1
  issue i noDyn (fun _ => readNames r n true) (fun x =>
    if x.s.slaved x.g.core then x.again
    else if !x.any then .ok x.s
    else match x.origin r with
      | none => .trap (x.matrixTrap 6 r.acc.toNat x.g.core)
      | some (row, col) =>
        let vals := (List.range n).flatMap (fun j => x.lanes.map (fun l => (j, l, x.g.vget (r.v.toNat + j) l)))
        .ok (x.enter (x.entry (.accwr i32 row col vals) [x.g.core] r.acc false))) s

/-- ACCWR.f32 (R230). -/
def execAccwrF32 (g : Guard) (r : RArgs) (s : State) : Host.Outcome State Fault Refusal := accwr (.accwrF32 g r) false r s

/-- ACCWR.i32 (R230). -/
def execAccwrI32 (g : Guard) (r : RArgs) (s : State) : Host.Outcome State Fault Refusal := accwr (.accwrI32 g r) true r s

/-- MSTAT (R231): the status is read in array order. -/
def execMstat (g : Guard) (clr : Bool) (sd : BitVec 6) (acc : BitVec 3) (s : State) : Host.Outcome State Fault Refusal :=
  issue (.mstat g clr sd acc) noDyn (fun _ => [⟨0, .op (.s sd) 1, false⟩, ⟨1, .acc acc.toNat, false⟩]) (fun x =>
    if x.s.slaved x.g.core then x.again
    else if !x.any then .ok x.s
    else
      let e := x.entry (.mstat clr sd.toNat) [x.g.core] acc false
      .ok (x.outstanding (x.enter e) [.s sd.toNat] false [] 0 (.array e.key))) s

/-! ### Acceptance, the Lens and retirement -/

/-- The token of an operation is granted (R225, R226): it is accepted, its group goes on, and what its team has posted is performed
before the Lens reads. -/
def State.acceptOp (s : State) (e : ArrEntry) : State :=
  let e1 := { e with stage := .accepted, toRead := e.needs }
  let s1 := { s with arrays := s.arrays.filter (fun (d : ArrEntry) => d.key != e.key) ++ [e1] }
  let team (gid : Nat) : Bool := (s.group? gid).any (fun g => g.task == e.task)
  ((s1.performReds (fun r => team r.gid)).deliverWhere (fun q => team q.gid)).modGroup e.gid (fun g => g.advance)

/-- The Lens gives an operation up; the writes that waited for its reads go on (R226). -/
def State.failOp (s : State) (e : ArrEntry) (sub core addr : Nat) : State :=
  e.cores.foldl State.drainStash (s.modEntry e.key (fun d => d.fail sub core addr))

/-- The Lens reads one line that is present (R226); the writes that waited for it go on. -/
def State.lensRead (s : State) (e : ArrEntry) (core line : Nat) : State :=
  (core :: e.cores).foldl State.drainStash (s.lensTake e core line)

/-- Is an entry the next of every array it covers (R225)? -/
def State.firstInOrder (s : State) (e : ArrEntry) : Bool :=
  let acc : List ArrEntry := s.arrays.filter (fun d => d.stage == .accepted)
  (acc.takeWhile (fun (d : ArrEntry) => d.key != e.key)).all (fun d => !d.cores.any e.cores.contains)

/-- The result of a readout or status lands in its group's outstanding list (R106, R225). -/
def State.landArray (s : State) (e : ArrEntry) (ws : List RegWrite) (fl : Flags) : State :=
  let done (o : Pend) : Pend := { o with writes := ws, flags := fl, src := .ready }
  s.modGroup e.gid (fun g => { g with outs := modWhere g.outs (fun o => o.src == .array e.key) done })

/-- The writes and flags of an ACCRD (R93, R230). -/
def accrdWrites (t : Task) (sel tile form row col n v : Nat) (lanes : List Nat) (ftz : Bool) : List RegWrite × Flags :=
  (List.range n).foldl (fun acc j => lanes.foldl (fun (a : List RegWrite × Flags) l =>
    let x := (t.acc.get (accKey sel tile (row + j) (col + l))).toNat
    match form with
    | 1 =>
      let p := readPair x
      (a.1 ++ [.v (v + 2 * j) l (BitVec.ofNat 32 p.1), .v (v + 2 * j + 1) l (BitVec.ofNat 32 p.2.1)], a.2 ||| p.2.2)
    | 2 => let p := readI32 x; (a.1 ++ [.v (v + j) l (BitVec.ofNat 32 p.1)], a.2 ||| p.2)
    | _ => let p := readF32 ftz x; (a.1 ++ [.v (v + j) l (BitVec.ofNat 32 p.1)], a.2 ||| p.2)) acc) ([], 0)

/-- The values of an ACCWR are written, and lose their marks (R230). -/
def Task.accWrite (t : Task) (sel tile row col : Nat) (i32 : Bool) (vals : List (Nat × Nat × Word)) : Task :=
  vals.foldl (fun u e =>
    let k := accKey sel tile (row + e.1) (col + e.2.1)
    let x : BitVec 40 := if i32 then BitVec.ofInt 40 (signed 32 e.2.2.toNat) else BitVec.ofNat 40 (xf40OfF32 e.2.2.toNat)
    { u with acc := u.acc.set k x, accPoison := u.accPoison.filter (· != k) }) t

/-- An aborted operation (R232): the values it would have updated are marked, and a matrix fault waits for a boundary. -/
def State.abortOp (s : State) (t : Task) (e : ArrEntry) : State :=
  let keys := e.cores.flatMap (fun c => tileKeys (t.coreSel c) e.acc)
  let s1 := s.modTask t.uid (fun u => { u with accPoison := u.accPoison ++ keys.filter (fun k => !u.accPoison.contains k) })
  let op := match e.kind with | .mmas => 0x182 | _ => 0x181
  let fol := t.coreSel (e.abort / 16 % 1024) == 1
  s1.pendTrap (fun g => g.core == t.cores.headD g.core) e.gid e.task
    ⟨6, e.abort % 16, op, 0, BitVec.ofNat 64 (e.abort / 2 ^ 14), BitVec.ofNat 64 (e.acc + 8 * bit fol)⟩ 5

/-- An ACCRD that reaches a poisoned value at its turn writes nothing, and its matrix fault waits for a boundary (R230,
R232). -/
def State.poisonedRead (s : State) (t : Task) (e : ArrEntry) (form : Nat) : State :=
  (s.landArray e [] 0).pendTrap (fun g => g.core == e.cores.headD g.core) e.gid e.task
    ⟨6, 7, 0x184 + form, 0, 0, BitVec.ofNat 64 (e.acc + 8 * bit (t.coreSel (e.cores.headD 0) == 1))⟩ 5

/-- An entry takes effect (R223, R225, R229 to R231). -/
def State.retireOp (s : State) (t : Task) (e : ArrEntry) : State :=
  let s0 := { s with arrays := s.arrays.filter (fun d => d.key != e.key) }
  let core := e.cores.headD 0
  let sel := t.coreSel core
  let ftz := (t.launch.map Launch.ftz).getD false
  match e.kind with
  | .mma | .mmas =>
    if e.abort ≠ 0 then s0.abortOp t e else s0.modTask t.uid (fun u => e.cores.foldl (fun v c => e.applyCore v c) u)
  | .mzero => s0.modTask t.uid (fun u => e.cores.foldl (fun v c => v.clearTile (v.coreSel c) e.acc) u)
  | .accrd form row col n v lanes =>
    if t.readPoison sel e.acc row col n (lanesOf 64 lanes) then s0.poisonedRead t e form
    else
      let r := accrdWrites t sel e.acc form row col n v (lanesOf 64 lanes) ftz
      s0.landArray e r.1 r.2
  | .accwr i32 row col vals => s0.modTask t.uid (fun u => u.accWrite sel e.acc row col i32 vals)
  | .mstat clr sd =>
    let s1 := s0.landArray e [.s sd (BitVec.ofNat 64 (t.tileStatus sel e.acc))] 0
    if clr then s1.modTask t.uid (fun u => { u with tstat := u.tstat.set (tileKey sel e.acc) 0 }) else s1

end Sys2Proof.Machine
end

