-- ==== Sys2Proof/Machine/Issue.lean ====
section
/-! DEFINITION. CLAUSE_ISSUE (R34, R101 to R107, R177, R302, R307) and the landing of outstanding results (R106). -/
namespace Sys2Proof.Machine

/-! ### Registers that a clause names (R107) -/

/-- The registers a word names directly, with counts; the slots give CVTQ's and CVTDQ's. -/
def wordUses (slots : List DWord) (i : Instr) : List (Opnd × Nat) :=
  let k (n : BitVec 3) : Slot := slotOf (slots.getD n.toNat 0)
  let b (u : Bool) (n : BitVec 8) (cnt : Nat) : Opnd × Nat := (bOpnd u n, if u then 1 else cnt)
  let addr (l : LArgs) : Opnd × Nat := b l.aU l.a 2
  let s (n : BitVec 6) : Opnd × Nat := (.s n, 1)
  let y (a : YArgs) : List (Opnd × Nat) := [s a.ua, s a.ub, s a.uc, s a.ud]
  match i with
  | .lea _ _ _ d a x => [(d, wideCount d), (a, wideCount a), (x, 1)]
  | .iadd64 _ d a x => [(d, wideCount d), (a, wideCount a), (x, wideCount x)]
  | .movi _ u d _ => [b u d 1]
  | .moviHi _ d _ | .moviSx _ d _ => [b true d 1]
  | .iaddImm _ u d a _ | .imulImm _ u d a _ | .andImm _ u d a _ | .orImm _ u d a _ | .xorImm _ u d a _ | .shlImm _ u d a _
  | .shrImm _ u d a _ | .sarImm _ u d a _ | .faddImm _ u d a _ | .fmulImm _ u d a _ => [b u d 1, b u a 1]
  | .leaImm _ u d a _ => [b u d 2, b u a 2]
  | .cvtq _ n d a x c => [(d, (k n).codeRegs), (a, (k n).inputs), (x, 1), (c, 1)]
  | .cvtqAuto _ n d a c => [(d, (k n).codeRegs + 1), (a, (k n).inputs), (c, 1)]
  | .cvtdq _ n d a x c => [(d, (k n).inputs), (a, (k n).codeRegs), (x, 1), (c, 1)]
  | .ld _ sz _ l | .st _ sz l | .lda _ sz _ _ l | .stl _ sz _ l => [b l.tU l.t (vregsOf sz.bytes), addr l]
  | .pref _ l | .prefL2 _ l => [addr l]
  | .stmap _ uc ub ua => [s uc, s ub, s ua]
  | .stflush _ _ _ ub ua => [s ub, s ua]
  | .atom _ op _ l | .red _ op _ l =>
    [(bOpnd l.tU l.t, if l.tU then (if op.isCas && op.bytes == 8 then 2 else 1) else atomRegs op), addr l]
  | .fence _ _ ud => [s ud]
  | .monw _ _ _ l => [b l.tU l.t 1, addr l]
  | .cpy _ a => [s a.ua, s a.ub, s a.uc]
  | .cpym _ a | .gath _ a | .coll _ a => y a
  | .mapset _ n _ => [(.s n, 2)]
  | .accrdF32 _ r | .accrdI32 _ r | .accwrF32 _ r | .accwrI32 _ r => [(.v r.v, r.n1.toNat + 1), s r.s]
  | .accrdPair _ r => [(.v r.v, 2 * r.n1.toNat + 2), s r.s]
  | .mstat _ _ n _ => [s n]
  | .brx _ n | .call _ n _ | .ret _ n => [(.v n, 1)]
  | .getsys _ _ d => [(sysOpnd d, 1)]
  | .spawn _ _ ub ua => [s ub, s ua]
  | .spawnc _ _ uc ub ua => [s uc, s ub, s ua]
  | .uint _ _ sa => [s sa]
  | .setseg _ _ sb sa | .setrgn _ _ sb sa | .tlbinvPage _ sb sa | .icinvRange _ sb sa | .setviHandler _ sb sa | .setviSwap _ sb sa
  | .setviPtroot _ sb sa | .setviState _ sb sa | .setviUint _ sb sa | .setviKeys _ sb sa | .setviKeybase _ sb sa => [s sb, s sa]
  | .tlbinvVi _ sb => [s sb]
  | i => i.opnds.map (fun o => (o, 1))

/-- MMAS names the registers of its metadata (R224). -/
def sparseUses (slots : List DWord) (t : Task) (i : Instr) : List (Opnd × Nat) :=
  match i with
  | .mmas _ p _ lsel v _ ta _ =>
    let m := omapOf (t.tiles.get ta.toNat)
    [(.v v, 64 * metaPerRow (slotOf (slots.getD m.slot 0)).fmt / (16 * 2 ^ lsel.toNat) * (if p then 2 else 1))]
  | _ => []

/-- The registers of the results that are outstanding, of parked lanes' status too (R106, R107). -/
def Group.owed (g : Group) : List RegName := g.outs.flatMap (fun p => p.names) ++ g.statusParks.flatMap (fun p => p.names)

/-- Is a register of an operand outstanding (R107)? An indirect operand stands for its whole window. -/
def Group.outstandingIn (g : Group) (o : Opnd) (cnt : Nat) : Bool :=
  let names := g.owed
  match o with
  | .v n => names.any (fun r => match r with | .v k => decide (n.toNat ≤ k) && decide (k < n.toNat + cnt) | _ => false)
  | .s n => names.any (fun r => match r with | .s k => decide (n.toNat ≤ k) && decide (k < n.toNat + cnt) | _ => false)
  | .ind _ k => names.any (fun r => match r with | .v j => (g.window k.toNat).contains j | _ => false)
  | _ => false

/-- The words of a clause with each repeat of an RPT standing for itself (R107, R175); the first RPT has at least `least`
repeats, those of a repeat state that resumes it (R177). -/
def expandWords (least : Nat) : List (Option DWord) → List Nat
  | [] => []
  | none :: r => expandWords least r
  | some w :: r => match decodeWord w.toNat, r with
    | .ok (.rpt _ steps stride count), some v :: _ =>
      w.toNat :: (List.range (max least (count.toNat + 1))).map (fun j => (stepWord v steps (j * (stride.toNat + 1))).toNat) ++ expandWords 0 r
    | _, _ => w.toNat :: expandWords least r

/-- The repeat state with which a group begins a clause: a reinstated one belongs to its own clause (R177). -/
def Group.repState (g : Group) (start : Nat) : BitVec 8 × BitVec 7 :=
  match g.repAt with
  | some r => if r.1 = start then r.2 else (g.repDone, g.repLeft)
  | none => (g.repDone, g.repLeft)

/-- Does a clause name a register with an outstanding result (R104 step 5)? -/
def Group.clauseWaits (g : Group) (t : Task) (l : Launch) (rep : BitVec 8 × BitVec 7) (ws : List (Option DWord)) : Bool :=
  !g.owed.isEmpty && (expandWords (if rep.2 = 0 then 0 else rep.1.toNat + rep.2.toNat) ws).any (fun w => match decodeWord w with
    | .ok i => (wordUses l.slots i ++ sparseUses l.slots t i).any (fun u => g.outstandingIn u.1 u.2)
    | .error _ => false)

/-! ### Fetch (R101, R250, R314) -/

/-- A word as memory gives it to an instruction cache. -/
def State.codeWord (s : State) (core vi va : Nat) (t : Trans) : DWord :=
  BitVec.ofNat 64 (leNat (s.mem.read (t.from' (l1Of core) vi va) 8))

/-- Fetch one word: an instruction cache may hold an older one (R250), which of the two is free (log 4). -/
def State.fetchOne (s : State) (core vi va : Nat) (t : Trans) : State × DWord :=
  let cur := s.codeWord core vi va t
  let v := match s.mem.icache.find? (fun e => e.core == core && e.vi == vi && e.va == va) with
    | some e => if Config.staleChoice s.fresh (2 ^ 64 + va) then e.value else cur
    | none => cur
  let line := (List.range 16).filterMap (fun i =>
    let a := alignDown va 128 + 8 * i
    if a = va || s.mem.icache.any (fun e => e.core == core && e.vi == vi && e.va == a) then none
    else some (⟨core, vi, a, s.codeWord core vi a { t with pa := alignDown t.pa 128 + 8 * i }⟩ : ICopy))
  let rest := upsert s.mem.icache (fun e => e.core == core && e.vi == vi && e.va == va) ⟨core, vi, va, v⟩
  ({ s with mem := { s.mem with icache := rest ++ line } }.noteTlb core vi va t, v)

/-- Fetch n words of a clause from a C offset; a word beyond the C limit is none, and a fetch fault is found before any
instruction runs (R105, R314). -/
def State.fetchWords (s : State) (g : Group) (vi off : Nat) : Nat → Except (Nat × PageFault) (State × List (Option DWord))
  | 0 => .ok (s, [])
  | n + 1 =>
    if (g.seg 4).2.toNat < off + 8 then .ok (s, List.replicate (n + 1) none)
    else
      let va := ((g.seg 4).1.toNat + off) % 2 ^ 64
      match s.reach g.core vi .fetch false va 8 with
      | .error e => .error e
      | .ok [] => .ok (s, [])
      | .ok (p :: _) =>
        let (s1, w) := s.fetchOne g.core vi va p.2.2
        match s1.fetchWords g vi (off + 8) n with
        | .error e => .error e
        | .ok (s2, ws) => .ok (s2, some w :: ws)

/-! ### Boundary traps (R302, R303) -/

/-- The place of a boundary trap's class in the order of R303. -/
def boundaryRank (cls : Nat) : Nat := match cls with | 11 => 0 | 6 => 1 | 7 => 2 | _ => 3

/-- The boundary trap that is taken next. -/
def firstBoundary (l : List Boundary) : Option Boundary :=
  l.foldl (fun b x => match b with
    | none => some x
    | some y => if boundaryRank x.cls < boundaryRank y.cls then some x else some y) none

/-- Take a boundary trap at a clause start (R302, R304): the resume mask is the lanes there. -/
def State.takeBoundary (s : State) (g : Group) (t : Task) (p : Nat) (b : Boundary) : State :=
  let rep := g.repState p
  let h := { g with boundary := g.boundary.erase b, repAt := g.repAt.filter (fun r => r.1 != p) }
  let mask := maskOf g.width (fun i => !g.exited i && !g.parked i && (g.vpc.get i).toNat == p)
  ((s.setGroup h).noteConsumed h t b.cls).takeTrap h t ⟨b.cls, b.sub, b.lanes, b.addr, b.infoA, 0, 0⟩ ⟨p, 0, false, b.opcode, rep.1, rep.2⟩ mask

/-! ### CLAUSE_ISSUE -/

/-- Where a group issues next: the clause, its issue set, the index it starts at, whether step 1 of R104 applies, and
the lanes of the set that reach the header by a transfer (R34, R105, R177, R307). -/
structure IssuePoint where
  start : Nat
  lanes : DWord
  index : Nat
  step1 : Bool
  moved : DWord
  deriving DecidableEq, Repr

/-- The next issue of a group. DESIGN CHOICE (log 33): a group is never split into slice streams, which R38 leaves to the
device; the clauses of a diverged group go one at a time, the lowest address first. -/
def Group.issuePoint (g : Group) : Option IssuePoint :=
  let plain : Option IssuePoint := g.issueAddr.map (fun p =>
    ⟨p, g.issueSet p, 0, true, g.issueSet p &&& g.transfer⟩)
  match g.resumeIssue with
  | none => plain
  | some (idx, next) =>
    let m := g.resume &&& g.live
    match lanesOf g.width m with
    | [] => plain
    | l :: _ => some ⟨(g.vpc.get l).toNat, m, if next then idx + 1 else idx, false, m &&& g.transfer⟩

/-- A trap at a clause header (R105): instruction index and opcode are 0. -/
def State.headerTrap (s : State) (g : Group) (t : Task) (p : IssuePoint) (tr : Trap) : State :=
  let rep := g.repState p.start
  let h := { g with repAt := g.repAt.filter (fun r => r.1 != p.start) }
  (s.setGroup h).takeTrap h t tr ⟨p.start, 0, false, 0, rep.1, rep.2⟩ p.lanes

/-- The group is inside its clause (R104 step 6). A return from a trap resumes it: the lanes that the trap found to have passed
through the clause count as before (R39, R307). A repeat state resumes the RPT before the index, or the clause's first
instruction (R177); where that is no RPT the illegal-instruction trap of R177 is raised, for a return from a trap too, which
R177 does not name (DEDUCED, log 19). -/
def State.beginClause (s : State) (g : Group) (t : Task) (p : IssuePoint) (header : DWord) (ws : List (Option DWord)) : State :=
  let rep := g.repState p.start
  let before := match g.passed with | some (c, m) => if !p.step1 && c == p.start then m else 0 | none => 0
  let at' := if rep.2 = 0 then p.index else max 1 p.index
  let c : Clause := { start := p.start, header := header, words := ws, index := at', issued := p.lanes ||| before, lanes := p.lanes }
  let h := { g with clause := some c, resumeIssue := none, hold := .none, passed := if p.step1 then g.passed else none
                    repAt := g.repAt.filter (fun r => r.1 != p.start), repDone := rep.1, repLeft := rep.2 }
  let s := { s with cur := some g.gid }
  if rep.2 = 0 then s.setGroup { h with repDone := 0, repSteps := none }
  else match (ws.getD (at' - 1) none).map (fun w => decodeWord w.toNat) with
    | some (.ok (.rpt _ steps stride _)) => s.setGroup { h with repSteps := some (steps, stride.toNat + 1) }
    | _ =>
      let op := match ws.getD p.index none with | some w => w.toNat % 512 | none => 0
      (s.setGroup h).takeTrap h t (trapIllegal 3 p.lanes) ⟨p.start, p.index, false, op, rep.1, rep.2⟩ p.lanes

/-- CLAUSE_ISSUE of a group at an issue point (R104, R105). -/
def State.issueAt (s : State) (g : Group) (t : Task) (l : Launch) (p : IssuePoint) : State :=
  let cOff : DWord := BitVec.ofNat 64 p.start
  if p.start % 8 ≠ 0 then s.headerTrap g t p ⟨1, 0, p.moved, cOff, 0, 0, 0⟩
  else match s.fetchWords g t.vi p.start 1 with
    | .error e => s.headerTrap g t p ⟨4, e.2.sub, p.lanes, BitVec.ofNat 64 e.1, e.2.info, 0, 0⟩
    | .ok (s1, [some header]) =>
      let w := header.toNat
      let h := headerOf w
      if headerHigh w && p.moved != 0 then s1.headerTrap g t p ⟨1, 0, p.moved, cOff, 0, 0, 0⟩
      else if headerBad w then s1.headerTrap g t p (trapIllegal 6 p.lanes)
      else match s1.fetchWords g t.vi (p.start + 8) (h.count + 1) with
        | .error e => s1.headerTrap g t p ⟨4, e.2.sub, p.lanes, BitVec.ofNat 64 e.1, e.2.info, 0, 0⟩
        | .ok (s2, ws) =>
          let rep := g.repState p.start
          if p.step1 && h.sp && g.preempt.isSome then
            s.modGroup g.gid (fun k =>
              { k with residency := .saving 0 s.tick.toNat h.live, preempt := none, repDone := rep.1, repLeft := rep.2, repAt := none })
          else if (h.park && (!g.outs.isEmpty || !g.owed.isEmpty)) || (List.range 6).any (fun k => h.wait.testBit k && g.e.get k != 0)
              || g.clauseWaits t l rep ws then s
          else s2.beginClause g t p header ws
    | .ok _ => s.headerTrap g t p ⟨2, 0, p.lanes, cOff, 4, 0, 0⟩

/-- May a group issue a clause now: resident, its task placed, outside a clause, waiting for nothing, not halted by a
debugger? -/
def Group.canIssue (g : Group) : Bool :=
  g.residency == .resident && g.clause.isNone && g.hold == .none && !g.halted

/-- CLAUSE_ISSUE (R104): pending boundary traps first, then the clause at the issue address. -/
def State.clauseIssue (s : State) (gid : Nat) : State :=
  match s.group? gid with
  | none => s
  | some g => match s.task? g.task with
    | none => s
    | some t => match t.launch, g.issuePoint with
      | some l, some p =>
        if !g.canIssue then s
        else match (if g.gsrH || p.index != 0 then none else firstBoundary g.boundary) with
          | some b => s.takeBoundary g t p.start b
          | none => s.issueAt g t l p
      | _, _ => s

/-- CLAUSE_ISSUE (R104). -/
def execClauseIssue (gid : Nat) (s : State) : Host.Outcome State Fault Refusal := .next (s.clauseIssue gid)

/-! ### LONG_LATENCY_RESULT (R106) -/

/-- Land one write of a result. -/
def Group.land (g : Group) (w : RegWrite) : Group :=
  match w with
  | .v n lane val => g.vset n lane val
  | .s n val => g.sset n val

/-- Does a write belong to the lanes that land now? A uniform register lands whole. -/
def RegWrite.inLanes (w : RegWrite) (m : DWord) : Bool :=
  match w with
  | .v _ lane _ => m.getLsbD lane
  | .s _ _ => true

/-- The writes of an outstanding result land in some lanes (R106); its flags are set, and the result is no longer
outstanding, when the last one has (R87, R107). DESIGN CHOICE (log 62): a short-latency write of the same register later in the
clause does not stop a long-latency one from landing over it, where R106 leaves either as the final value. -/
def Group.landPend (g : Group) (k : Nat) (m : DWord) : Group :=
  match g.outs.find? (fun o => o.key == k && o.src == .ready) with
  | none => g
  | some o =>
    let (now, later) := o.writes.partition (fun w => w.inLanes m)
    let h := now.foldl Group.land g
    if later.isEmpty then { h with fsr := h.fsr ||| o.flags, outs := h.outs.filter (fun q => q.key != k) }
    else { h with outs := modWhere h.outs (fun q => q.key == k) (fun q => { q with writes := later }) }

/-- LONG_LATENCY_RESULT (R106). -/
def execLongLatencyResult (gid k : Nat) (lanes : DWord) (s : State) : Host.Outcome State Fault Refusal :=
  .next (s.modGroup gid (fun g => g.landPend k lanes))

end Sys2Proof.Machine
end

