-- ==== Sys2Proof/Machine/Residency.lean ====
section
/-! DEFINITION. Parked lanes and monitors as events, allocation on a core (R13, R54), and groups that are saved and
reinstated (R41, R43, R71 to R73, R199, R200, R309, R310). -/
namespace Sys2Proof.Machine

/-! ### Parked lanes and monitors -/

/-- Is a parked lane's WAIT satisfied: its combined condition holds in time, or has held while the lane could not unpark
(R41, R43, R304)? -/
def Park.satisfied (s : State) (g : Group) (t : Task) (p : Park) : Bool := p.met || (!p.late s && p.holds s g t)

/-- The parked lanes whose condition holds in time, as seen from outside the group (R43, R304). -/
def State.noteParks (s : State) : State :=
  if s.groups.all (fun g => g.parks.isEmpty) then s
  else { s with groups := s.groups.map (fun g => match s.task? g.task with
    | some t => { g with parks := g.parks.map (fun p => { p with met := p.satisfied s g t }) }
    | none => g) }

/-- LANE_UNPARK (R41, R202): a parked lane whose combined condition holds. -/
def State.laneUnpark (s : State) (gid lane : Nat) : State :=
  match s.group? gid with
  | none => s
  | some g => match s.task? g.task, g.parks.find? (fun p => p.lane == lane) with
    | some t, some p => if g.wakes lane && p.satisfied s g t then s.unpark g t p 0 else s
    | _, _ => s

/-- LANE_UNPARK (R41, R202). -/
def execLaneUnpark (gid lane : Nat) (s : State) : Host.Outcome State Fault Refusal := .next (s.laneUnpark gid lane)

/-- WAIT_TIMEOUT (R41, R202): TIMEOUT, but SATISFIED where the condition held in time. -/
def State.waitTimeout (s : State) (gid lane : Nat) : State :=
  match s.group? gid with
  | none => s
  | some g => match s.task? g.task, g.parks.find? (fun p => p.lane == lane) with
    | some t, some p =>
      if g.wakes lane && p.late s then s.unpark g t p (if p.satisfied s g t then 0 else 1) else s
    | _, _ => s

/-- WAIT_TIMEOUT (R41). -/
def execWaitTimeout (gid lane : Nat) (s : State) : Host.Outcome State Fault Refusal := .next (s.waitTimeout gid lane)

/-- Change a monitor of a group. -/
def State.modMon (s : State) (gid k : Nat) (f : Monitor → Monitor) : State :=
  s.modGroup gid (fun g => { g with mon := g.mon.mapIdx (fun j m => if j = k then f m else m) })

/-- A monitor that has seen its comparison hold fires (R199), but on a word whose home is fenced or out of reach of
the group's die (R314, R323). -/
def Monitor.fire (s : State) (die : Nat) (m : Monitor) : Monitor :=
  if m.armed && m.hit && (m.stash || !s.outOfReach die m.addr 4) then { m with fired := true } else m

/-- MONITOR_FIRE (R199). -/
def execMonitorFire (gid k : Nat) (s : State) : Host.Outcome State Fault Refusal := .next (s.modMon gid k (Monitor.fire s (s.groupDie gid)))

/-- The word that a polling monitor of a group on a die reads through the registry; none where its home is fenced or out of reach
(R200, R314, R323). -/
def Monitor.polled (m : Monitor) (s : State) (die : Nat) : Option Word :=
  if s.outOfReach die m.addr 4 then none else some (s.mem.word m.addr)

/-- A poll of a monitor (R200). -/
def Monitor.poll (m : Monitor) (s : State) (die : Nat) : Monitor :=
  if m.armed && m.polling && !m.fired && s.tick.toNat % 100 == 0 then
    match m.polled s die with
    | some w => if monHolds m.cmp w m.value then { m with hit := true, fired := true } else m
    | none => m
  else m

/-- MONITOR_POLL (R200): every 100 reference ticks. -/
def execMonitorPoll (gid k : Nat) (s : State) : Host.Outcome State Fault Refusal := .next (s.modMon gid k (fun m => m.poll s (s.groupDie gid)))

/-! ### What a core has left (R13, R54) -/

/-- Groups that hold registers of a core: a group that ended keeps them until its task frees its footprint (R29). -/
def State.holders (s : State) (core : Nat) : List Group :=
  s.groups.filter (fun g => g.core == core && (match g.residency with | .out _ _ => false | _ => true))

/-- Is there room in every lane position of a block for granules (R54)? A service core's slot holds one group (R16). -/
def State.blockFits (s : State) (core block width vgran : Nat) : Bool :=
  if isService core then !(s.holders core).any (fun g => g.block == block) else
  (List.range width).all (fun i =>
    decide (((s.holders core).filter (fun g => decide (g.block ≤ block + i) && decide (block + i < g.block + g.width))).foldl
      (fun n g => n + 8 * g.vgran) (8 * vgran) ≤ 1024))

/-- Is there room for a group's uniform granules, and for one more group (R13, R54)? -/
def State.groupFits (s : State) (core sgran more : Nat) : Bool :=
  decide ((s.holders core).foldl (fun n g => n + 8 * g.sgran) (8 * sgran * more) ≤ 1024)
    && decide ((s.holders core).length + more ≤ 32)

/-- Is a group resident, its save included? -/
def Group.here (g : Group) : Bool := match g.residency with | .resident | .saving _ _ _ => true | _ => false

/-- Does a placed task hold team state on its cores (R43, R310): until the team area is written, and once it is read back? -/
def Task.teamIn (t : Task) : Bool := t.state == .placed && !t.teamSaved

/-- The tasks that hold team state on a core. -/
def State.teamsOn (s : State) (core : Nat) : List Task := s.tasks.filter (fun t => t.cores.contains core && t.teamIn)

/-- Room for a team's tile registers, accumulator tiles and place (R13, R54). -/
def State.teamFits (s : State) (core tregs accs : Nat) : Bool :=
  let ts := s.teamsOn core
  decide (ts.length < 8) && decide (ts.foldl (fun n t => n + t.tregs) tregs ≤ 64) && decide (ts.foldl (fun n t => n + t.accs) accs ≤ 8)

/-! ### Save and restore (R71 to R73) -/

/-- The offsets of the save area's blocks after the header (R71). -/
def Group.offPred (g : Group) : Nat := 64 + 64 * g.sgran
def Group.offIdx (g : Group) : Nat := g.offPred + 192
def Group.offVpc (g : Group) : Nat := alignUp (g.offIdx + 32 * g.width) 64
def Group.offVec (g : Group) : Nat := alignUp (g.offVpc + 4 * g.width) 64

/-- The WAIT deadline of a save's header: all ones for none (R72). DESIGN CHOICE (log 50): where parked lanes have different deadlines
the field holds the earliest, which R72 leaves open. -/
def Group.deadline (g : Group) : Nat := g.parks.foldl (fun n p => match p.deadline with | some d => min n d | none => n) (2 ^ 64 - 1)

/-- The header of a save area (R72); a reinstated repeat state that its clause has not taken up yet is saved again (R177). DESIGN CHOICE
(log 78): a done count above 127, which only an edited save can lead to, is written mod 128. -/
def Group.saveHeader (g : Group) (cause : Nat) : List Byte :=
  let p := if cause = 1 then 2 ^ 32 - 1 else g.issueAddr.getD (2 ^ 32 - 1)
  let rep := match g.repAt with | some r => r.2 | none => (g.repDone, g.repLeft)
  let es := (List.range 6).foldl (fun n k => n + (g.e.get k).toNat * 2 ^ (6 * k)) 0
  leBytes 4 p ++ leBytes 4 (bit g.gsrE + 2 * bit g.gsrH) ++ leBytes 8 (fullMask g.width &&& ~~~g.live).toNat
    ++ leBytes 8 (maskOf g.width g.parked).toNat ++ leBytes 4 g.fsr.toNat ++ leBytes 4 (rep.2.toNat + 128 * (rep.1.toNat % 128))
    ++ leBytes 8 es ++ leBytes 8 g.deadline ++ leBytes 4 cause ++ leBytes 12 0

/-- The blocks of a save, with their V offsets (R71): `live` granules of the vector block are written. -/
def Group.saveBlocks (g : Group) (cause live : Nat) : List (Nat × List Byte) :=
  let w := List.range g.width
  [(0, g.saveHeader cause),
   (64, (List.range (8 * g.sgran)).flatMap (fun n => leBytes 8 (g.sget n).toNat)),
   (g.offPred, (List.range 24).flatMap (fun n => leBytes 8 (g.p.get n &&& fullMask g.width).toNat)),
   (g.offIdx, (List.range 8).flatMap (fun k => w.flatMap (fun i => leBytes 4 (g.xget k i).toNat))),
   (g.offVpc, w.flatMap (fun i => leBytes 4 (g.vpc.get i).toNat)),
   (g.offVec, (List.range (8 * live)).flatMap (fun n => w.flatMap (fun i => leBytes 4 (g.vget n i).toNat)))]

/-- V offsets of the poisoned register words of a save (R318). -/
def Group.savePoison (g : Group) (live : Nat) : List Nat :=
  (g.poisonS.flatMap (fun n => [64 + 8 * n, 68 + 8 * n])) ++ (g.poisonP.map (fun k => g.offPred + 4 * k))
    ++ (g.poisonX.map (fun k => g.offIdx + 4 * (k / 64 * g.width + k % 64)))
    ++ ((g.poisonV.filter (fun k => decide (k / 64 < 8 * live))).map (fun k => g.offVec + 4 * (k / 64 * g.width + k % 64)))

/-- The word that a core reads at a virtual address, wherever it lies. -/
def State.wordAt (s : State) (core vi va : Nat) : Option Nat :=
  match translate (s.seen core) vi .read false va with
  | .ok t => some (wordOf (t.from' (l1Of core) vi va))
  | .error _ => none

/-- Mark the word at a virtual address as poisoned. -/
def State.markPoison (s : State) (core vi va : Nat) : State :=
  match s.wordAt core vi va with
  | some w => { s with mem := { s.mem with poison := w :: s.mem.poison.filter (· != w) } }
  | none => s

/-- Is the word at a virtual address poisoned? -/
def State.poisonedAt (s : State) (core vi va : Nat) : Bool := (s.wordAt core vi va).any s.mem.poison.contains

/-- Write blocks at V offsets: none when one cannot be written. -/
def State.putBlocks (s : State) (g : Group) (vi : Nat) (l : List (Nat × List Byte)) : Option State :=
  l.foldl (fun (o : Option State) b => o.bind (fun u =>
    if b.2.isEmpty then some u
    else match u.groupPut g vi (((g.seg 5).1.toNat + b.1) % 2 ^ 64) b.2 with
      | (u', true) => some u'
      | (_, false) => none)) (some s)

/-- Read memory from a core, poisoned words included. -/
def State.readRaw (s : State) (core vi va n : Nat) : Option (List Byte) :=
  if n = 0 then some []
  else match s.reach core vi .read false va n with
    | .error _ => none
    | .ok ps => some (ps.flatMap (fun p => s.mem.read (p.2.2.from' (l1Of core) vi p.1) p.2.1))

/-- Values of a team's accumulator tiles, in the order of the team area (R71). -/
def Task.accBytes (t : Task) : List Byte :=
  (List.range t.cores.length).flatMap (fun sel => (List.range t.accs).flatMap (fun a =>
    (List.range 4096).flatMap (fun i => leBytes 5 (t.acc.get (tileKey sel a * 4096 + i)).toNat)))

/-- The team area (R71). -/
def Task.teamBytes (t : Task) : List Byte :=
  (List.range t.tregs).flatMap (fun n => leBytes 16 (t.tiles.get n).toNat) ++ t.accBytes

/-- Group 0 of a task. -/
def State.group0 (s : State) (t : Task) : Option Group := s.groups.find? (fun g => g.task == t.uid && g.num == 0)

/-- Where the team area starts in group 0's V segment (R71). -/
def Group.teamOff (g : Group) : Nat := alignUp g.blocksEnd 64

/-- Is a team's area to be written: a group is out, none is resident, and every operation of the team has retired (R71, R228,
R310)? -/
def State.teamLeaves (s : State) (t : Task) : Bool :=
  let gs := s.groups.filter (fun g => g.task == t.uid)
  t.teamIn && !gs.any Group.here && gs.any (fun g => match g.residency with | .out _ _ => true | _ => false)
    && !s.arrays.any (fun e => e.task == t.uid)

/-- Where the values of accumulator tiles stand in the team area, with their keys (R71). -/
def Task.accPlaces (t : Task) : List (Nat × Nat) :=
  (List.range t.cores.length).flatMap (fun sel => (List.range t.accs).flatMap (fun a =>
    (List.range 4096).map (fun i => (tileKey sel a * 4096 + i, 16 * t.tregs + 5 * ((sel * t.accs + a) * 4096 + i)))))

/-- The offsets of the words of the team area that hold poisoned values and maps (R318). -/
def Task.poisonOffs (t : Task) : List Nat :=
  let words (off n : Nat) : List Nat := (List.range ((off + n + 3) / 4 - off / 4)).map (fun j => off / 4 * 4 + 4 * j)
  ((t.tileErr.filter (fun n => decide (n < t.tregs))).flatMap (fun n => words (16 * n) 16)
    ++ (if t.accPoison.isEmpty then [] else (t.accPlaces.filter (fun p => t.accPoison.contains p.1)).flatMap (fun p => words p.2 5))).eraseDups

/-- Save the team area, once no group of the team is resident (R71, R310): poison goes with the words (R318). -/
def State.saveTeam (s : State) (t : Task) : Option State :=
  if !s.teamLeaves t then some s
  else match s.group0 t with
    | none => some s
    | some g0 => (s.putBlocks g0 t.vi [(g0.teamOff, t.teamBytes)]).map (fun u =>
        (t.poisonOffs.foldl (fun u off => u.markPoison g0.core t.vi (((g0.seg 5).1.toNat + g0.teamOff + off) % 2 ^ 64)) u).modTask t.uid
          (fun k => { k with tiles := [], acc := [], teamSaved := true }))

/-- The team areas of the teams whose last resident group has ended while others are out (R71): one that cannot be written is a
fatal error of a group that is out. -/
def State.saveTeams (s : State) : State :=
  (s.tasks.filter s.teamLeaves).foldl (fun u t => match u.saveTeam t with
    | some v => v
    | none => match u.groups.find? (fun g => g.task == t.uid && g.residency != .ended) with
      | some g => u.fatal g 12 3 false
      | none => u) s

/-- Save a group (R71, R72): none when the save area cannot be written. A live field beyond the footprint saves all of it. -/
def State.saveGroup (s : State) (g : Group) (t : Task) (cause live : Nat) : Option State :=
  let live := min live g.vgran
  if (g.seg 5).2.toNat < g.layoutEnd t then none
  else match s.putBlocks g t.vi (g.saveBlocks cause live) with
    | none => none
    | some s1 =>
      let s2 := (g.savePoison live).foldl (fun u off => u.markPoison g.core t.vi (((g.seg 5).1.toNat + off) % 2 ^ 64)) s1
      let s3 := s2.modGroup g.gid (fun h =>
        { h with residency := .out cause live, v := [], s := [], p := [], x := [], poisonV := [], poisonS := [], poisonP := []
                 poisonX := [], clause := none, hold := .none, preempt := none, resumeIssue := none, repAt := none })
      s3.saveTeam t

/-- Set the parked lanes and deadlines that a save area holds (R72, R73): a lane whose parked bit software has cleared goes on.
DESIGN CHOICE (log 50): a lane whose parked bit software newly sets is parked with no condition that can hold, until the header's
deadline, and writes no status; R73 does not say what it waits for. -/
def restoreParks (ps : List Park) (width : Nat) (mask : DWord) (old new : Nat) : List Park :=
  let due : Option Nat := if new = 2 ^ 64 - 1 then none else some new
  (ps.filter (fun p => mask.getLsbD p.lane)).map (fun p => if new = old then p else { p with deadline := due })
    ++ ((lanesOf width mask).filter (fun l => ps.all (fun p => p.lane != l))).map (fun l =>
      ⟨l, [], false, none, due, .none, false, false, false, [], false⟩)

/-- The group that a save area holds (R73), from its bytes. A repeat state belongs to the clause at the issue address (R177); where
every lane is parked, to the group's first issue. DESIGN CHOICE (log 50): where software makes the header and the vpc block disagree,
the header's issue address is not read, the address following from vpc (R34), and a lane is exited if the exited mask or its vpc word
says so. -/
def Group.restored (g : Group) (live : Nat) (b : List Byte) : Group :=
  let exited := BitVec.ofNat 64 (field b 8 8)
  let rep := field b 0x1C 4
  let left := BitVec.ofNat 7 rep
  let done := BitVec.ofNat 8 (rep / 128 % 128)
  let put32 (off : Nat) (k : Nat) (st : Store 32) (i : Nat) : Store 32 :=
    st.set (k * 64 + i) (BitVec.ofNat 32 (field b (off + 4 * (k * g.width + i)) 4))
  let file (off n : Nat) : Store 32 := (List.range n).foldl (fun st k => (List.range g.width).foldl (put32 off k) st) []
  let h : Group := { g with
    gsrE := field b 4 4 % 2 == 1, gsrH := field b 4 4 / 2 % 2 == 1, fsr := BitVec.ofNat 5 (field b 0x18 4)
    repLeft := left, repDone := done, repSteps := none, repAt := none
    e := (List.range 6).foldl (fun (st : Store 6) k => st.set k (BitVec.ofNat 6 (field b 0x20 8 / 2 ^ (6 * k)))) []
    parks := restoreParks g.parks g.width (BitVec.ofNat 64 (field b 0x10 8) &&& ~~~exited) g.deadline (field b 0x28 8)
    s := (List.range (8 * g.sgran)).foldl (fun (st : Store 64) n => st.set n (BitVec.ofNat 64 (field b (64 + 8 * n) 8))) []
    p := (List.range 24).foldl (fun (st : Store 64) n =>
      st.set n (BitVec.ofNat 64 (field b (g.offPred + 8 * n) 8) &&& fullMask g.width)) []
    x := file g.offIdx 8, v := file g.offVec (8 * live)
    vpc := (List.range g.width).foldl (fun (st : Store 32) i =>
      st.set i (if exited.getLsbD i then exitedVpc else BitVec.ofNat 32 (field b (g.offVpc + 4 * i) 4))) []
    transfer := fullMask g.width, residency := .resident, parkedSince := none }
  match h.issueAddr with
  | some p => if left = 0 then h else { h with repLeft := 0, repDone := 0, repAt := some (p, done, left) }
  | none => h

/-- The poisoned registers that a save area holds (R318). -/
def Group.restorePoison (g : Group) (live : Nat) (at' : Nat → Bool) : Group :=
  let keys (off n : Nat) : List Nat := (List.range n).flatMap (fun k => (List.range g.width).filterMap (fun i =>
    if at' (off + 4 * (k * g.width + i)) then some (k * 64 + i) else none))
  { g with
    poisonS := (List.range (8 * g.sgran)).filter (fun n => at' (64 + 8 * n) || at' (68 + 8 * n))
    poisonP := (List.range 48).filter (fun k => at' (g.offPred + 4 * k))
    poisonX := keys g.offIdx 8, poisonV := keys g.offVec (8 * live) }

/-- Read the team area back before the first group of the team issues (R310): a value or a map in a poisoned word of it is
poisoned too, but for a value that only shares a word with one that was poisoned at the save (R318; log 48). -/
def State.restoreTeam (s : State) (t : Task) : Option State :=
  if !t.teamSaved then some s
  else match s.group0 t with
    | none => some s
    | some g0 =>
      let base := (g0.seg 5).1.toNat + g0.teamOff
      let marks := t.poisonOffs
      let bad (mine : Bool) (off n : Nat) : Bool := !s.mem.poison.isEmpty && (List.range n).any (fun i =>
        (mine || !marks.contains ((off + i) / 4 * 4)) && s.poisonedAt g0.core t.vi ((base + off + i) % 2 ^ 64))
      (s.readRaw g0.core t.vi (base % 2 ^ 64) t.areaBytes).map (fun b => s.modTask t.uid (fun k =>
        { k with
          teamSaved := false
          tileErr := (List.range t.tregs).filter (fun n => bad (t.tileErr.contains n) (16 * n) 16)
          accPoison := if s.mem.poison.isEmpty then [] else (t.accPlaces.filter (fun p => bad (t.accPoison.contains p.1) p.2 5)).map (fun p => p.1)
          tiles := (List.range t.tregs).foldl (fun (st : Store 128) n => st.set n (BitVec.ofNat 128 (field b (16 * n) 16))) []
          acc := (List.range t.cores.length).foldl (fun (st : Store 40) sel => (List.range t.accs).foldl (fun st a =>
            (List.range 4096).foldl (fun st i => st.set (tileKey sel a * 4096 + i)
              (BitVec.ofNat 40 (field b (16 * t.tregs + 5 * ((sel * t.accs + a) * 4096 + i)) 5))) st) st) [] }))

/-- Restore a group from its save area (R73). -/
def State.restoreGroup (s : State) (g : Group) (t : Task) (live : Nat) : Option State :=
  match s.restoreTeam t with
  | none => none
  | some s1 =>
    let base := (g.seg 5).1.toNat
    (s1.readRaw g.core t.vi base (g.offVec + 32 * g.width * live)).map (fun b =>
      let h := (g.restored live b).restorePoison live (fun off => s1.poisonedAt g.core t.vi ((base + off) % 2 ^ 64))
      ((s1.setGroup h).modTask t.uid (fun k => k.lanesGone h.num (fullMask h.width &&& ~~~h.live))).settleBarriers t.uid |>.endIfExited g.gid)

/-! ### Pre-emption, swap-out and reinstatement -/

/-- The waits of R228: for matrix operations of the group, for a paired operation of the team, and for the last group for every
operation of the team. -/
def State.matrixWaits (s : State) (g : Group) : Bool :=
  s.arrays.any (fun e => e.gid == g.gid || (e.task == g.task && e.cores.length == 2))
    || (s.arrays.any (fun e => e.task == g.task) && !s.groups.any (fun h => h.task == g.task && h.gid != g.gid && h.here))

/-- What a save still waits for (R228, R310): results, engine commands that count in the group's counters, and matrix operations. -/
def State.saveWaits (s : State) (g : Group) : Bool :=
  !g.outs.isEmpty || s.cmds.any (fun c => c.gid == g.gid && decide (c.cmp < 6)) || s.matrixWaits g

/-- Are all live lanes of a group parked (R43)? -/
def Group.allParked (g : Group) : Bool := g.live != 0 && g.issueAddr.isNone && g.live == maskOf g.width g.parked && g.clause.isNone

/-- Save a group now, or take the fatal error of a save that cannot be written (R71, R320). -/
def State.saveNow (s : State) (g : Group) (t : Task) (cause live : Nat) : State :=
  match s.saveGroup g t cause live with
  | some s' => s'
  | none => s.fatal g 12 3 false

/-- Is a group between the repeats of an RPT that is the first instruction of a safe-point clause (R177)? -/
def Group.betweenRepeats (g : Group) : Option Nat :=
  match g.clause with
  | none => none
  | some c =>
    let h := headerOf c.header.toNat
    let first : Bool := match c.words.getD 0 none with
      | some w => (match decodeWord w.toNat with | .ok (.rpt ..) => true | _ => false)
      | none => false
    if c.index == 1 && g.repLeft != 0 && h.sp && first && g.hold == .none && g.residency == .resident && g.preempt.isSome then some h.live
    else none

/-- PREEMPTION_SAVE (R177, R309, R310): at a safe point, at a WAIT where every live lane is parked, or between the repeats
of R177, where the group leaves its clause first. -/
def State.preemptionSave (s : State) (gid : Nat) : State :=
  match s.group? gid with
  | none => s
  | some g => match s.task? g.task with
    | none => s
    | some t => match g.betweenRepeats with
      | some live => s.setGroup { g with clause := none, repSteps := none, preempt := none, residency := .saving 0 s.tick.toNat live }
      | none =>
        if g.residency = .resident ∧ g.preempt.isSome ∧ g.allParked then
          s.setGroup { g with preempt := none, residency := .saving 0 s.tick.toNat g.vgran }
        else if s.saveWaits g then s
        else match g.residency with
          | .saving cause _ live => s.saveNow g t cause live
          | _ => s

/-- PREEMPTION_SAVE (R310). -/
def execPreemptionSave (gid : Nat) (s : State) : Host.Outcome State Fault Refusal := .next (s.preemptionSave gid)

/-- Ask every group of a placed task to be pre-empted (R309). -/
def State.preemptTask (s : State) (uid : Nat) : State :=
  if (s.tasks.any (fun t => t.uid == uid && t.state == .placed && !t.ended)) then
    let ask (g : Group) : Bool := g.task == uid && g.residency == .resident && g.preempt.isNone
    { s with groups := modWhere s.groups ask (fun g => { g with preempt := some 0 }) }
  else s

/-- PREEMPTION_REQUEST (R309). -/
def execPreemptionRequest (task : Nat) (s : State) : Host.Outcome State Fault Refusal := .next (s.preemptTask task)

/-- PREEMPTION_OVERRUN (R309): 4,096 instructions issued since the request. -/
def State.preemptionOverrun (s : State) (gid : Nat) : State :=
  match s.group? gid with
  | some g => if g.residency = .resident ∧ 4096 ≤ g.preempt.getD 0 then s.fatal g 12 1 false else s
  | none => s

/-- PREEMPTION_OVERRUN (R309). -/
def execPreemptionOverrun (gid : Nat) (s : State) : Host.Outcome State Fault Refusal := .next (s.preemptionOverrun gid)

/-- PREEMPTION_SAVE_TIMEOUT (R309): more than 1,000,000 ticks for outstanding results. Ticks of R228's waits do not count: they put
off the tick from which the save counts (`State.nextTick`). -/
def State.preemptionSaveTimeout (s : State) (gid : Nat) : State :=
  match s.group? gid with
  | some g => match g.residency with
    | .saving 0 since _ =>
      if !g.outs.isEmpty && decide (since + 1000000 < s.tick.toNat) then s.fatal g 12 1 false else s
    | _ => s
  | none => s

/-- PREEMPTION_SAVE_TIMEOUT (R309). -/
def execPreemptionSaveTimeout (gid : Nat) (s : State) : Host.Outcome State Fault Refusal := .next (s.preemptionSaveTimeout gid)

/-- SWAP_OUT (R43): every live lane parked for longer than the threshold. -/
def State.swapOut (s : State) (gid : Nat) : State :=
  match s.group? gid with
  | none => s
  | some g => match s.task? g.task, g.parkedSince with
    | some t, some since =>
      let th := (s.viOf t.vi).swap
      if g.residency = .resident ∧ g.allParked ∧ th ≠ 0 ∧ since + th < s.tick.toNat ∧ !s.saveWaits g then s.saveNow g t 1 g.vgran else s
    | _, _ => s

/-- SWAP_OUT (R43). -/
def execSwapOut (gid : Nat) (s : State) : Host.Outcome State Fault Refusal := .next (s.swapOut gid)

/-- The enabled time-shared virtual interfaces whose masks name a pair, by number (R341). -/
def State.sharers (s : State) (die pair : Nat) : List Nat :=
  sortBy (fun a b => decide (a ≤ b)) ((s.vis.filter (fun v => v.enabled && v.timeShared && (v.pairs.getD die 0).getLsbD pair)).map (fun v => v.num))

/-- The turn of a pair. -/
def State.turn? (s : State) (die pair : Nat) : Option Turn := s.turns.find? (fun u => u.die == die && u.pair == pair)

/-- The virtual interface whose slice runs on a shared pair (R341): the lowest-numbered one before the first slice ends. -/
def State.running (s : State) (die pair : Nat) : Nat :=
  let l := s.sharers die pair
  match s.turn? die pair with
  | some u => if l.contains u.vi then u.vi else l.headD 0
  | none => l.headD 0

/-- May the tasks of a virtual interface run on a core now (R341)? -/
def State.inTurn (s : State) (vi core : Nat) : Bool :=
  let die := core / 96
  let pair := core % 96 / 2
  isService core || decide ((s.sharers die pair).length < 2) || s.running die pair == vi

/-- Does a saved group have a reason to come back (R43, R309), in its virtual interface's turn (R341)? -/
def State.wantsBack (s : State) (g : Group) (t : Task) (cause : Nat) : Bool :=
  t.cores.all (s.inTurn t.vi) && (cause != 1 || g.parks.any (fun p => p.satisfied s g t || p.late s))

/-- REINSTATEMENT (R43, R73, R310): on the same core, in the same lane block, once its resources are free again. -/
def State.reinstatement (s : State) (gid : Nat) : State :=
  match s.group? gid with
  | none => s
  | some g => match s.task? g.task, g.residency with
    | some t, .out cause live =>
      let team := t.teamIn || t.cores.all (fun c => s.teamFits c t.tregs t.accs)
      if s.wantsBack g t cause && s.blockFits g.core g.block g.width g.vgran && s.groupFits g.core g.sgran 1 && team then
        match s.restoreGroup g t live with
        | some s' => s'
        | none => s.fatal g 12 3 false
      else s
    | _, _ => s

/-- REINSTATEMENT (R43, R73). -/
def execReinstatement (gid : Nat) (s : State) : Host.Outcome State Fault Refusal := .next (s.reinstatement gid)

end Sys2Proof.Machine
end

