-- ==== Sys2Proof/Machine/CoreEvents.lean ====
section
/-! DEFINITION. Engine commands, stash fills, matrix arrays and the reference tick as events (R22, R186, R187, R205 to R208,
R225 to R227, R297). -/
namespace Sys2Proof.Machine

/-! ### Engine commands -/

/-- A command by its key. -/
def State.cmd? (s : State) (key : Nat) : Option Cmd := s.cmds.find? (fun c => c.key == key)

/-- ENGINE_COMMAND_ENQUEUE (R205): a command that waits at issue finds room, and its group goes on. -/
def State.engineEnqueue (s : State) (gid : Nat) : State :=
  match s.group? gid with
  | none => s
  | some g => match g.hold, s.task? g.task with
    | .engine c ud, some t => if s.engineRoom c g then (s.startCmd c ud t g).modGroup gid Group.advance else s
    | _, _ => s

/-- ENGINE_COMMAND_ENQUEUE (R205). -/
def execEngineCommandEnqueue (gid : Nat) (s : State) : Host.Outcome State Fault Refusal := .next (s.engineEnqueue gid)

/-- Must a command's completion word wait, for the Lens has yet to read a line that is mapped to it (R226)? -/
def Cmd.wordWaits (c : Cmd) (s : State) (vi : Nat) : Bool :=
  c.cmp == 6 && c.cwOk && (match s.reach c.core vi .write false (((c.seg 2).1.toNat + c.cwOff) % 2 ^ 64) 8 with
    | .ok ps => ps.any (fun p => s.lensWaits c.task (if p.2.2.remote then remoteKey vi p.1 else p.2.2.pa) p.2.1)
    | .error _ => false)

/-- A command that has ended signals its outcome (R206, R208); `fault` says which outcomes. -/
def State.signalCmd (s : State) (key : Nat) (fault : Bool) : State :=
  match s.cmd? key with
  | none => s
  | some c => match s.task? c.task with
    | some t => if c.ended && (c.sub != 0) == fault && !c.wordWaits s t.vi then s.finishCmd c t else s
    | none => s

/-- ENGINE_COMMAND_COMPLETION (R206, R207). -/
def execEngineCommandCompletion (cmd : Nat) (s : State) : Host.Outcome State Fault Refusal := .next (s.signalCmd cmd false)

/-- ENGINE_FAULT (R208). -/
def execEngineFault (cmd : Nat) (s : State) : Host.Outcome State Fault Refusal := .next (s.signalCmd cmd true)

/-- ENGINE_LINE_WRITTEN (R187): the oldest part that a command has read for delivery `part` is written, or, from 16 on, the
command reads its next piece or ends (log 20). -/
def State.engineStep (s : State) (key part : Nat) : State :=
  match s.cmd? key with
  | none => s
  | some c => match s.task? c.task with
    | some t => (c.step s t ((t.launch.map Launch.race).getD false) part).getD s
    | none => s

/-- ENGINE_LINE_WRITTEN (R187). -/
def execEngineLineWritten (part : EnginePart) (s : State) : Host.Outcome State Fault Refusal := .next (s.engineStep part.cmd part.part)

/-! ### Fills of stash lines (R186) -/

/-- Where a fill reads the global line of a stash line: its words keep the poison they have there (R318). -/
def State.fillSource (s : State) (l : Line) (va : Nat) : Except (Nat × PageFault) (Nat × Trans) :=
  match s.reach l.core l.vi .read false va 128 with
  | .error e => .error e
  | .ok ps => match ps with
    | p :: _ => .ok (p.2.2.from' ⟨.stash, l.core⟩ l.vi va, p.2.2)
    | [] => .error (va, ⟨0, .read, 0, false, chipOf va⟩)

/-- STASH_FILL_COMPLETE (R186, R187): the line holds its global line and is present, unless an engine has it to write. -/
def State.stashFill (s : State) (core line : Nat) : State :=
  match s.mem.line? core line with
  | none => s
  | some l => match l.filling, l.mapped with
    | true, some va =>
      match s.fillSource l va with
      | .error _ => s
      | .ok (src, t) =>
        if !l.writers.isEmpty then { s with mem := s.mem.setLine { l with filling := false } }
        else
          let home := if t.remote then src else t.pa
          let s := s.settleLine core line home
          let bs := if t.repl then s.mem.bytes.read src 128 else s.mem.read src 128
          let m := s.mem.setLine { l with present := true, filling := false, unfinished := 0, whole := false, pa := home, repl := t.repl }
          (({ s with mem := m.putStash core (128 * line) bs }.noteTlb core l.vi va t).lineBack core line).drainStash core
    | _, _ => s

/-- STASH_FILL_COMPLETE (R186). -/
def execStashFillComplete (core line : Nat) (s : State) : Host.Outcome State Fault Refusal := .next (s.stashFill core line)

/-- The page fault of a failed fill, raised precisely in a group that waits for the line (R186). -/
def State.fillTrap (s : State) (g : Group) (lanes : DWord) (va : Nat) (f : PageFault) : State :=
  match g.clause, s.task? g.task with
  | some c, some t =>
    let op := match c.words.getD c.index none with | some w => w.toNat % 512 | none => 0
    s.takeTrap g t ⟨4, f.sub, lanes, BitVec.ofNat 64 va, f.info, 0, 0⟩ ⟨c.start, c.index, false, op, g.repDone, g.repLeft⟩ c.lanes
  | _, _ => s

/-- Does a command wait to read a stash line (R186)? -/
def Cmd.waitsFor (c : Cmd) (s : State) (core line : Nat) : Bool :=
  !c.ended && (match c.piece s with
    | some p => (stashLines p.srcs p.len).contains (core, line) && !s.mem.present core line
    | none => false)

/-- The accesses that wait for a line whose fill has failed take its page fault at their groups' next clause boundary, since the
groups have gone on; they stay deferred, and a later fill may complete them (R186; log 32). -/
def State.deferredFaults (s : State) (core line va : Nat) (f : PageFault) : State :=
  ((s.deferred core).filter (fun d => d.lines.contains line)).foldl (fun u d => u.deferFault d (d.lanesAt line) va f) s

/-- STASH_FILL_FAULT (R186, R226): the line stays mapped and absent; every waiting access takes the page fault, commands
that wait for the line stop with subcode 3, and operations that still read it are aborted with subcode 8. -/
def State.stashFillFault (s : State) (core line : Nat) : State :=
  match s.mem.line? core line with
  | none => s
  | some l => match l.filling, l.mapped with
    | true, some va =>
      match s.fillSource l va with
      | .ok _ => s
      | .error (_, f) =>
        let s1 := { s with mem := s.mem.setLine { l with filling := false } }
        let s2 := (s1.cmds.filter (fun c => c.waitsFor s1 core line)).foldl (fun u c => u.faultCmd c 3) s1
        let s3 := (s2.arrays.filter (fun e => e.stage == .accepted && e.toRead.contains (core, line))).foldl (fun u e => u.failOp e 8 core va) s2
        let s4 := s3.deferredFaults core line va f
        s4.groups.foldl (fun u (g : Group) => match g.hold with
          | .fill c ls => if c = core then ((ls.find? (fun e => e.1 == line)).map (fun e => u.fillTrap g e.2 va f)).getD u else u
          | _ => u) s4
    | _, _ => s

/-- STASH_FILL_FAULT (R186). -/
def execStashFillFault (core line : Nat) (s : State) : Host.Outcome State Fault Refusal := .next (s.stashFillFault core line)

/-! ### Matrix arrays (R225 to R227, R297) -/

/-- MATRIX_ARRAY_QUEUE_ROOM (R225): a waiting operation finds room in every array it covers, and asks for its tokens, unless its
core is slaved to a paired operation (R227). -/
def State.matrixRoom (s : State) (gid : Nat) : State :=
  match (s.group? gid).map (fun (g : Group) => g.hold) with
  | some (Hold.array e) => if e.stage = .room ∧ s.arrayRoom e ∧ !s.slaved (e.cores.headD 0) then s.askArray e else s
  | _ => s

/-- MATRIX_ARRAY_QUEUE_ROOM (R225). -/
def execMatrixArrayQueueRoom (gid : Nat) (s : State) : Host.Outcome State Fault Refusal := .next (s.matrixRoom gid)

/-- The request that a die's Prism serves next, which no later one overtakes (R297). -/
def State.nextToken (s : State) (die : Nat) : Option ArrEntry :=
  s.arrays.find? (fun e => e.stage == .token && dieOf (e.cores.headD 0) == die)

/-- What an operation's tokens cost, in hundredths of an ampere (R297). -/
def ArrEntry.cost (e : ArrEntry) : Nat := 200 * e.cores.length

/-- Change a die. -/
def State.modDie (s : State) (n : Nat) (f : Die → Die) : State := { s with dies := modWhere s.dies (fun d => d.num == n) f }

/-- MATRIX_START_TOKEN_GRANT (R225, R297): the oldest request of a die is granted once the credit covers it, and once its core is not
slaved, if it has become so since it asked (R227). -/
def State.grantToken (s : State) (die : Nat) : State :=
  match s.nextToken die, s.dies.find? (fun d => d.num == die) with
  | some e, some d => if e.cost ≤ d.credit ∧ !s.slaved (e.cores.headD 0) then (s.modDie die (fun x => { x with credit := x.credit - e.cost })).acceptOp e else s
  | _, _ => s

/-- MATRIX_START_TOKEN_GRANT (R297). -/
def execMatrixStartTokenGrant (die : Nat) (s : State) : Host.Outcome State Fault Refusal := .next (s.grantToken die)

/-- LENS_LINE_READ (R226): a line is read once, when it is present; otherwise its fill is started where R186 calls for one. -/
def State.lensLine (s : State) (op core line : Nat) : State :=
  match s.arrays.find? (fun e => e.key == op) with
  | none => s
  | some e =>
    if e.stage ≠ .accepted ∨ !e.toRead.contains (core, line) then s
    else if s.mem.present core line then (if s.writeBefore e core line then s else s.lensRead e core line)
    else { s with mem := s.mem.startFill core line }

/-- LENS_LINE_READ (R226). -/
def execLensLineRead (op core line : Nat) (s : State) : Host.Outcome State Fault Refusal := .next (s.lensLine op core line)

/-- MATRIX_OPERATION_RETIRE (R225): the entry takes effect when it is the next of its arrays and nothing is left to read. -/
def State.matrixRetire (s : State) (op : Nat) : State :=
  match s.arrays.find? (fun e => e.key == op) with
  | none => s
  | some e => match s.task? e.task with
    | some t => if e.stage = .accepted ∧ e.toRead = [] ∧ s.firstInOrder e then s.retireOp t e else s
    | none => s

/-- MATRIX_OPERATION_RETIRE (R225). -/
def execMatrixOperationRetire (op : Nat) (s : State) : Host.Outcome State Fault Refusal := .next (s.matrixRetire op)

/-! ### The reference tick (R22, R297) -/

/-- The window offset of a die's DIDT register (R351). -/
def didtOff (die : Nat) : Nat := 0x1004 + 0x100 * die

/-- A die's credit grows by its limit over 100 each tick, up to 4 amperes (R297). -/
def Die.grow (d : Die) (limit : Nat) : Die := { d with credit := min 400 (d.credit + limit) }

/-- Does a die's first request wait for credit (R297, R352)? -/
def State.tokenWaits (s : State) (d : Die) : Bool := (s.nextToken d.num).any (fun e => decide (d.credit < e.cost))

/-- Writes that their agents posted 100 reference ticks ago are performed, and those that wait as long for another owner's
registration (R276, R277). -/
def State.overdue (s : State) : State :=
  let now := s.tick.toNat
  let s1 := if s.mem.reds.isEmpty && s.mem.posted.isEmpty then s
    else (s.performReds (fun r => decide (r.since + 100 ≤ now))).deliverWhere (fun p => decide (p.since + 100 ≤ now))
  (s1.mem.revokes.filter (fun v => v.req.isSome && decide (v.since + 100 ≤ now))).foldl State.answerRevoke s1

/-- A group's save that a wait of R228 holds up counts its ticks from a later one (R309). -/
def State.putOff (s : State) (g : Group) : Group :=
  match g.residency with
  | .saving cause since live => if s.matrixWaits g then { g with residency := .saving cause (since + 1) live } else g
  | _ => g

/-- REFERENCE_TICK (R22, R276, R297, R309). -/
def State.nextTick (s : State) : State :=
  let dies := s.dies.map (fun d => { d.grow (s.win (didtOff d.num)) with waited := d.waited || s.tokenWaits d })
  { s with tick := s.tick + 1, dies := dies, groups := s.groups.map s.putOff }.overdue

/-- REFERENCE_TICK (R22). -/
def execReferenceTick (s : State) : Host.Outcome State Fault Refusal := .next s.nextTick

end Sys2Proof.Machine
end

