-- ==== Sys2Proof/Machine/Route.lean ====
section
/-! DEFINITION. Grids as they are accepted: the distributor's checks, ranges and team tasks (R24 to R26, R65 to R67, R299), and
the loader's route strings and excluded clusters (R136, R325 to R331). -/
namespace Sys2Proof.Machine

/-! ### Checks of shapes, footprints and launch records -/

/-- The width that a shape's code names (R66). -/
def shapeWidth (shape : Nat) : Nat := [16, 32, 64, 4].getD (fld shape 6 2) 16

/-- The shape and footprint checks (R24, R25, R66, R296). -/
def shapeOk (shape foot : Nat) (service : Bool) : Bool :=
  let n := fld shape 0 6
  let paired := fld shape 8 1 == 1
  let maxima := decide (fld foot 17 9 ≤ 256) && decide (fld foot 13 4 ≤ 8) && decide (fld foot 10 3 ≤ 4) && decide (fld foot 6 4 ≤ 8)
    && decide (fld foot 0 6 ≤ 32)
  let own := if service then
      fld shape 6 2 == 3 && !paired && (n == 1 || n == 2) && fld foot 17 9 == 0 && fld foot 13 4 == 0 && fld foot 10 3 == 0
    else
      fld shape 6 2 != 3 && (if paired then n % 2 == 0 && decide (2 ≤ n) && decide (n ≤ 32) else decide (1 ≤ n) && decide (n ≤ 16))
  maxima && own

/-- Teams of a grid (R26). -/
def Launch.teams (l : Launch) : Nat := l.gx * l.gy * l.gz

/-- Is a grid routed (R325)? -/
def Launch.routed (l : Launch) : Bool := l.routePtr != 0

/-- Is a launch's team paired (R66)? -/
def Launch.paired (l : Launch) : Bool := l.shape.getLsbD 8

/-- The checks of a launch record (R24 to R26, R65 to R67, R327). -/
def Launch.ok (l : Launch) : Bool :=
  l.entry % 8 == 0 && decide (l.entry < l.cLim.toNat) && l.teams != 0 && decide (l.teams < 2 ^ 32)
    && shapeOk l.shape.toNat l.footprint.toNat l.service && l.keys.all (fun k => fld k.toNat 30 2 != 3)
    && (!l.routed || l.keys.all (fun k => k == 0))

/-- A team's key from its template entry (R67). -/
def teamKey (k : BitVec 32) (x i : Nat) : Nat :=
  let v := fld k.toNat 0 30
  match fld k.toNat 30 2 with
  | 1 => (v + x) % 2 ^ 30
  | 2 => (v + i) % 2 ^ 30
  | _ => v

/-! ### Route relocation (R136, R325 to R330) -/

/-- Read one relocation record (R136, R325): the record and its length. -/
def State.readReloc (s : State) (vi va kLim : Nat) : Option (Reloc × Nat) :=
  match s.deviceRead vi va 8 with
  | none => none
  | some h =>
    let n := field h 5 1
    let off := field h 0 4
    let len := alignUp (8 + 2 * n) 8
    if n = 0 ∨ 16 < n ∨ 4 ≤ field h 4 1 ∨ field h 6 2 ≠ 0 ∨ off % 8 ≠ 0 ∨ kLim < off + 8 then none
    else match s.deviceRead vi (va + 8) (len - 8) with
      | none => none
      | some b =>
        if (b.drop (2 * n)).any (fun x => x != 0) then none
        else some (⟨off, field h 4 1, (List.range n).map (fun j => (signed 8 (field b (2 * j) 1), signed 8 (field b (2 * j + 1) 1)))⟩, len)

/-- Read n records, back to back. -/
def State.readRelocs (s : State) (vi kLim : Nat) : Nat → Nat → Option (List Reloc)
  | 0, _ => some []
  | n + 1, va => match s.readReloc vi va kLim with
    | none => none
    | some (r, len) => (s.readRelocs vi kLim n (va + len)).map (fun l => r :: l)

/-- The relocation table of a routed grid (R325): none when it is malformed. -/
def State.relocTable (s : State) (vi : Nat) (l : Launch) : Option (List Reloc) :=
  let p := l.routePtr.toNat
  if p % 8 ≠ 0 then none
  else match s.deviceRead vi p 8 with
    | none => none
    | some h =>
      let n := field h 0 2
      if n = 0 ∨ 1024 < n ∨ field h 2 6 ≠ 0 then none else s.readRelocs vi l.kLim.toNat n (p + 8)

/-- Positions of a gang (R325). -/
def gangSize (paired : Bool) : Nat := if paired then 4 else 8

/-- The cells of a gang position in its cluster, as column and row: the leader first (R325). -/
def gangCells (paired : Bool) (p : Nat) : List (Nat × Nat) :=
  if paired then [(2 * (p % 2), p / 2), (2 * (p % 2) + 1, p / 2)] else [(p % 4, p / 4)]

/-- A cluster's core at a cell (R9). -/
def clusterCore (die cl : Nat) (c : Nat × Nat) : Nat := die * 96 + (2 * (cl / 3) + c.2) * 12 + 4 * (cl % 3) + c.1

/-- Positions that the gangs of a grid use. -/
def Launch.positions (l : Launch) : Nat := min (gangSize l.paired) l.teams

/-- The cells that some position uses. -/
def Launch.cells (l : Launch) : List (Nat × Nat) := (List.range l.positions).flatMap (gangCells l.paired)

/-- Is a core in a virtual interface's partition and not retired (R23, R341)? -/
def State.coreOk (s : State) (vi core : Nat) : Bool :=
  ((s.viOf vi).pairs.getD (core / 96) 0).getLsbD (core % 96 / 2) && !s.retired core

/-- The eligible clusters of a die, before any exclusion (R329). -/
def State.clustersOf (s : State) (vi : Nat) (l : Launch) (die : Nat) : List Nat :=
  (List.range 12).filter (fun cl => l.cells.all (fun c => s.coreOk vi (clusterCore die cl c)))

/-- Is a cell inside a cluster? -/
def inCluster (x y : Int) : Bool := decide (0 ≤ x) && decide (x < 4) && decide (0 ≤ y) && decide (y < 2)

/-- The valid issuers of a record (R329). -/
def Launch.issuers (l : Launch) (r : Reloc) : List (Nat × Nat) :=
  l.cells.filter (fun c => r.dels.all (fun d => inCluster (c.1 + d.1) (c.2 + d.2)))

/-- One column or row step in a heading (R8). -/
def headingStep (h : Nat) : Int × Int :=
  match h with
  | 0 => (0, -1)
  | 1 => (1, 0)
  | 2 => (0, 1)
  | _ => (-1, 0)

/-- A mesh step relative to the issuer: from a cell in a heading. -/
structure Step where
  x : Int
  y : Int
  h : Nat
  deriving DecidableEq, Repr

/-- Where a step leads. -/
def Step.dest (p : Step) : Int × Int := (p.x + (headingStep p.h).1, p.y + (headingStep p.h).2)

/-- Is a step blocked in a cluster, seen from an issuer (R329)? -/
def State.stepBlocked (s : State) (die cl : Nat) (i : Nat × Nat) (p : Step) : Bool :=
  let place (q : Int × Int) : Nat := clusterCore die cl (((i.1 : Int) + q.1).toNat, ((i.2 : Int) + q.2).toNat)
  s.retired (place p.dest) || s.linkRetired (place (p.x, p.y)) (place p.dest)

/-- Is a step blocked in some cluster, seen from some valid issuer? -/
def State.anyBlocked (s : State) (cls : List (Nat × Nat)) (iss : List (Nat × Nat)) (p : Step) : Bool :=
  cls.any (fun c => iss.any (fun i => s.stepBlocked c.1 c.2 i p))

/-- A partial route: where it stands, its heading, deliveries made, its hops (turn, deliver) and its steps, latest first. -/
structure Partial where
  x : Int
  y : Int
  h : Nat
  made : Nat
  hops : List (Nat × Bool)
  steps : List Step
  deriving DecidableEq, Repr

/-- Extend a partial route by a turn (R328, R329): none when the hop leaves the cluster, is blocked, or ends elsewhere than
on the last delivery. -/
def Partial.extend (p : Partial) (r : Reloc) (iss : List (Nat × Nat)) (blocked : Step → Bool) (turn : Nat) : Option Partial :=
  let st : Step := ⟨p.x, p.y, turned p.h turn⟩
  let d := st.dest
  let last := r.dels.length - 1
  let hit := r.dels.getD p.made (99, 99) == d
  if blocked st || iss.any (fun i => !inCluster (i.1 + d.1) (i.2 + d.2)) then none
  else if turn = 3 then
    if p.made = last ∧ hit then some ⟨d.1, d.2, st.h, p.made + 1, (3, true) :: p.hops, st :: p.steps⟩ else none
  else
    let del := decide (p.made < last) && hit
    some ⟨d.1, d.2, st.h, p.made + bit del, (turn, del) :: p.hops, st :: p.steps⟩

/-- Keep the first of the partial routes that stand alike. -/
def dedup (l : List Partial) : List Partial :=
  l.foldl (fun acc p => if acc.any (fun q => q.x == p.x && q.y == p.y && q.h == p.h && q.made == p.made) then acc else acc ++ [p]) []

/-- Search, hop by hop, in the order of turn codes (R329): the shortest route, the smallest among equals. -/
def searchRoute (r : Reloc) (iss : List (Nat × Nat)) (blocked : Step → Bool) : Nat → List Partial → Option Partial
  | 0, _ => none
  | n + 1, level =>
    match level.findSome? (fun p => p.extend r iss blocked 3) with
    | some q => some q
    | none => searchRoute r iss blocked n (dedup (level.flatMap (fun p => [0, 1, 2].filterMap (p.extend r iss blocked))))

/-- The route of a record (R329): at most 16 hops. -/
def routeOf (r : Reloc) (iss : List (Nat × Nat)) (blocked : Step → Bool) : Option Partial :=
  searchRoute r iss blocked 16 [⟨0, 0, r.dir, 0, [], []⟩]

/-- The string of a route (R136). -/
def Partial.string (p : Partial) : Nat :=
  (List.range 16).foldl (fun n i => match p.hops.reverse[i]? with
    | some (t, d) => n + (t + 4 * bit d) * 16 ^ i
    | none => n + 3 * 16 ^ i) 0

/-- What the loader finds for one record (R329, R330): its string, and the clusters it excludes. -/
def State.rewriteOne (s : State) (l : Launch) (cls : List (Nat × Nat)) (r : Reloc) : Option (Nat × List (Nat × Nat)) :=
  let iss := l.issuers r
  match routeOf r iss (s.anyBlocked cls iss) with
  | some p => some (p.string, [])
  | none => (routeOf r iss (fun _ => false)).map (fun p =>
      (p.string, cls.filter (fun c => p.steps.any (fun st => s.anyBlocked [c] iss st))))

/-- The loader's work for a routed grid's table (R329, R330): the strings by K offset, and the clusters excluded, as die × 12 +
cluster; none when the grid is refused. No die is eligible under R299 for a service grid (R296). -/
def State.routes (s : State) (vi : Nat) (l : Launch) (rs : List Reloc) : Option (List (Nat × Nat) × List Nat) :=
  let dies := s.eligible vi l.paired
  let cls := dies.flatMap (fun d => (s.clustersOf vi l d).map (fun c => (d, c)))
  match rs.mapM (fun r => (s.rewriteOne l cls r).map (fun e => (r.off, e))) with
  | none => none
  | some es =>
    let out := (es.flatMap (fun e => e.2.2)).eraseDups
    if l.service || dies.all (fun d => cls.any (fun c => c.1 == d && !out.contains c)) then some (es.map (fun e => (e.1, e.2.1)), out.map (fun c => c.1 * 12 + c.2))
    else none

/-- Change a grid. -/
def State.modGrid (s : State) (gridId : Nat) (f : Grid → Grid) : State :=
  { s with grids := modWhere s.grids (fun g => g.gridId == gridId) f }

/-- A grid by number. -/
def State.grid? (s : State) (gridId : Nat) : Option Grid := s.grids.find? (fun g => g.gridId == gridId)

/-- Is a grid at a quiesce point (R273): none of its tasks is placed, and no engine command of it runs? -/
def State.gridQuiet (s : State) (gridId : Nat) : Bool :=
  let mine := s.tasks.filter (fun t => t.grid == gridId)
  mine.all (fun t => t.state != .placed) && !s.cmds.any (fun c => mine.any (fun t => t.uid == c.task))

/-- The loader writes a route string in the grid's K image, on this package or on another chip (R329). DESIGN CHOICE (log 63): a
string whose K address cannot be written stays as it is. -/
def State.putString (s : State) (vi va str : Nat) : State :=
  (s.deviceForce vi va (leBytes 8 str)).1

/-- A grid gives up the teams that are not placed, with a status (R28, R330): waiting ones end as refused, others are not created. -/
def State.giveUp (s : State) (gridId status : Nat) : State :=
  let s1 := s.modGrid gridId (fun g =>
    { g with dealt := true, status := max g.status status
             notDone := g.notDone + g.ranges.foldl (fun n r => n + (r.start + r.count - r.next)) 0
             ranges := g.ranges.map (fun r => { r with next := r.start + r.count }) })
  let mine := s1.tasks.filter (fun t => t.grid == gridId && t.team && (t.state == .queued || t.state == .held))
  (mine.foldl (fun u t => (u.releaseKeys t.uid).modTask t.uid (fun k => { k with state := .refused, late := status })) s1).gridSettle gridId

/-- ROUTE_REWRITE (R329 to R331): before the first placement, and again after a retirement, at a quiesce point of the grid. -/
def State.routeRewrite (s : State) (gridId : Nat) : State :=
  match s.grid? gridId with
  | none => s
  | some g => match g.launch with
    | none => s
    | some l =>
      if g.ended || !l.routed || !s.gridQuiet gridId || (g.routesWritten && !g.reroute) then s
      else match s.routes g.vi l g.relocs with
        | none => (s.modGrid gridId (fun k => { k with routesWritten := true, reroute := false })).giveUp gridId 6
        | some (strs, out) =>
          (strs.foldl (fun u e => u.putString g.vi ((l.kBase.toNat + e.1) % 2 ^ 64) e.2) s).modGrid gridId
            (fun k => { k with routesWritten := true, reroute := false, excluded := out })

/-- A core or a mesh link has been retired: the strings of routed grids are due to be written again (R331). -/
def State.rerouteAll (s : State) : State :=
  { s with grids := s.grids.map (fun g => if g.routesWritten && !g.ended && g.launch.any Launch.routed then { g with reroute := true } else g) }

/-- ROUTE_REWRITE (R329). -/
def execRouteRewrite (grid : Nat) (s : State) : Host.Outcome State Fault Refusal := .next (s.routeRewrite grid)

/-! ### Ranges and team tasks (R26, R299) -/

/-- The ranges of a grid of n teams, dealt to dies in turn (R299). -/
def rangesOf (n : Nat) (dies : List Nat) : List Range :=
  (List.range ((n + 1023) / 1024)).map (fun j =>
    { start := 1024 * j, count := min 1024 (n - 1024 * j), next := 1024 * j, die := dies.getD (j % dies.length) 0, stage := 0 })

/-- Refuse a grid (R26, R289): it ends with status 6. -/
def State.refuseGrid (s : State) (gridId : Nat) : State :=
  (s.modGrid gridId (fun g => { g with dealt := true, status := max g.status 6 })).gridSettle gridId

/-- The ranges that a checked launch is dealt in, with its relocation table (R296, R299, R325): none when the grid is refused. -/
def State.dealtRanges (s : State) (vi : Nat) (l : Launch) : Option (List Range × List Reloc) :=
  match (if !l.ok then none else if l.routed then s.relocTable vi l else some []) with
  | none => none
  | some rs =>
    if l.service then
      if (s.viOf vi).partition = 0 || (l.routed && (s.routes vi l rs).isNone) then none else some ([{ start := 0, count := l.teams, next := 0, die := 4, stage := 0 }], rs)
    else
      let dies := s.eligible vi l.paired
      if dies.isEmpty || (l.routed && (s.routes vi l rs).isNone) then none else some (rangesOf l.teams dies, rs)

/-- GRID_RANGE_DEAL (R299): the grid is checked, and its ranges are dealt to the eligible dies. -/
def State.gridRangeDeal (s : State) (gridId : Nat) : State :=
  match s.grid? gridId with
  | none => s
  | some g =>
    if g.dealt || g.ended then s
    else match s.readLaunch g.vi g.launchPtr.toNat with
      | none => s.refuseGrid gridId
      | some l => match s.dealtRanges g.vi l with
        | none => s.refuseGrid gridId
        | some (rs, tab) =>
          let s1 := s.modGrid gridId (fun k => { k with launch := some l, dealt := true, ranges := rs, relocs := tab, privileged := k.privileged && l.service })
          match g.entry with
          | some a => s1.entryState g.vi a 3
          | none => s1

/-- GRID_RANGE_DEAL (R299). -/
def execGridRangeDeal (grid : Nat) (s : State) : Host.Outcome State Fault Refusal := .next (s.gridRangeDeal grid)

/-- The continuation record of a grid's team (R65, R67, R68). -/
def teamRecord (l : Launch) (launchPtr : DWord) (i : Nat) : ContRec :=
  let x := i % l.gx
  { code := l.entry, shape := l.shape, depth := 1, priority := l.priority, continuation := false, wanted := false
    footprint := l.footprint, x := x, y := i / l.gx % l.gy, z := i / (l.gx * l.gy), keys := l.keys.map (fun k => teamKey k x i)
    frame := l.arena + BitVec.ofNat 64 (i * l.frameSize), join := 0, launch := launchPtr }

/-- Has a range teams left to create? -/
def Range.open (r : Range) : Bool := decide (r.next < r.start + r.count)

/-- May a range's next team be created: no earlier range of its die has teams left (R299)? -/
def Grid.mayExpand (g : Grid) (j : Nat) : Bool :=
  match g.ranges[j]? with
  | some r => g.dealt && !g.ended && r.open && (g.ranges.take j).all (fun q => q.die != r.die || !q.open)
  | none => false

/-- GRID_RANGE_EXPANSION (R26, R299): a range's distributor creates its next team task. -/
def State.gridRangeExpansion (s : State) (gridId j : Nat) : State :=
  match s.grid? gridId with
  | none => s
  | some g => match g.ranges[j]?, g.launch with
    | some r, some l =>
      if !g.mayExpand j then s
      else
        let t := newTask s.nextId g.vi gridId false true r.next g.seqNo (teamRecord l g.launchPtr r.next) none l.service g.privileged r.die
        let s1 := s.modGrid gridId (fun k => { k with ranges := k.ranges.set j { r with next := r.next + 1, stage := 1 } })
        { s1 with tasks := s1.tasks ++ [{ t with launch := some l }], nextId := s1.nextId + 1 }
    | _, _ => s

/-- GRID_RANGE_EXPANSION (R26). -/
def execGridRangeExpansion (grid range : Nat) (s : State) : Host.Outcome State Fault Refusal := .next (s.gridRangeExpansion grid range)

end Sys2Proof.Machine
end

