-- ==== Sys2Proof/Machine/Schedule.lean ====
section
/-! DEFINITION. Dispatch rounds: keys, aging, placement of teams, gangs and service teams, and time slices (R27, R54, R63, R68, R74,
R185, R248, R291 to R296, R324, R326, R341, R343). -/
namespace Sys2Proof.Machine

/-! ### Keys (R292 to R294) -/

/-- Is a task's record older than another's (R291)? -/
def Task.older (a b : Task) : Bool := decide (a.seqNo < b.seqNo) || (a.seqNo == b.seqNo && decide (a.linear < b.linear))

/-- The home of a key (R292): die and entry; none while the share is 0 or no die lives, and past the table's last entry
(DESIGN CHOICE, log 64). -/
def State.keyHome (s : State) (vi k : Nat) : Option (Nat × Nat) :=
  let h := k * 0x9E3779B1 % 2 ^ 32
  let live := s.liveDies
  let v := s.viOf vi
  let entry := v.keyBase + h % 2 ^ 30 % v.keyShare
  if v.keyShare = 0 ∨ live = [] ∨ 4096 ≤ entry then none
  else some (live.getD (h / 2 ^ 30 % live.length) 0, entry)

/-- What stands in a table entry: more than one key only where a fence has brought held keys together, or reservations collide
(R294, R300; log 64). -/
def State.keyEntries (s : State) (home : Nat × Nat) : List KeyEntry := s.keys.filter (fun e => e.die == home.1 && e.index == home.2)

/-- The oldest record that reserves an entry (R294), with its key. -/
def State.topReserve (s : State) (es : List KeyEntry) : Option (Task × Nat) :=
  (es.flatMap (fun e => e.reserved)).foldl (fun b r => match s.task? r.1, b with
    | some t, some (u, k) => if t.older u then some (t, r.2) else some (u, k)
    | some t, none => some (t, r.2)
    | none, b => b) none

/-- Can a key be granted to a task (R292 to R294)? DESIGN CHOICE (log 64): only the key's home as it is now counts, and what was taken
before SETVI.keys or SETVI.keybase moved the homes stays in its old entry. -/
def State.keyOk (s : State) (t : Task) (k : Nat) : Bool :=
  match s.keyHome t.vi k with
  | none => false
  | some home =>
    let es := s.keyEntries home
    es.all (fun e => e.holder.isNone) && (match s.topReserve es with
      | none => true
      | some (u, j) => u.uid == t.uid || (t.older u && u.vi == t.vi && j == k))

/-- Change what stands for a key at its home, which is made when there is nothing. -/
def State.modKey (s : State) (vi k : Nat) (f : KeyEntry → KeyEntry) : State :=
  match s.keyHome vi k with
  | none => s
  | some home =>
    let mine (e : KeyEntry) : Bool := e.vi == vi && e.die == home.1 && e.index == home.2 && e.key == k
    let e := (s.keys.find? mine).getD ⟨vi, home.1, home.2, k, none, []⟩
    { s with keys := upsert s.keys mine (f e) }

/-- A task takes its keys (R293), and its reservations end. -/
def State.takeKeys (s : State) (t : Task) : State :=
  t.keys.foldl (fun u k => u.modKey t.vi k (fun e => { e with holder := some t.uid })) (s.releaseKeys t.uid)

/-- A task reserves its keys (R294). -/
def State.reserveKeys (s : State) (t : Task) : State :=
  t.keys.foldl (fun u k => u.modKey t.vi k (fun e =>
    { e with reserved := e.reserved.filter (fun r => r != (t.uid, k)) ++ [(t.uid, k)] })) s

/-! ### Room (R13, R24, R54, R185) -/

/-- What a task's record asks for (R66), per core. -/
structure Need where
  width : Nat
  vgran : Nat
  sgran : Nat
  tregs : Nat
  accs : Nat
  stash : Nat
  groups : Nat
  deriving DecidableEq, Repr

/-- The needs of a task on each of its cores; a paired team has half its groups on each (R25). -/
def Task.need (t : Task) : Need :=
  let f := t.cont.footprint.toNat
  let n := fld t.cont.shape.toNat 0 6
  { width := shapeWidth t.cont.shape.toNat, vgran := fld f 0 6, sgran := fld f 6 4, tregs := t.tregs, accs := t.accs
    stash := 1024 * fld f 17 9, groups := if t.cont.shape.getLsbD 8 then n / 2 else n }

/-- Vector words in use at a lane position of a core (R54). -/
def State.posUse (s : State) (core pos : Nat) : Nat :=
  ((s.holders core).filter (fun g => decide (g.block ≤ pos) && decide (pos < g.block + g.width))).foldl (fun n g => n + 8 * g.vgran) 0

/-- Choose the lowest lane block for each of some groups (R24, R54): blocks chosen so far count. -/
def pickBlocks (use : Nat → Nat) (width vgran : Nat) : Nat → List Nat → Option (List Nat)
  | 0, got => some got
  | n + 1, got =>
    match (List.range (64 / width)).find? (fun j => (List.range width).all (fun i =>
        decide (use (width * j + i) + 8 * vgran * (got.count (width * j) + 1) ≤ 1024))) with
    | some j => pickBlocks use width vgran n (got ++ [width * j])
    | none => none

/-- The stash ranges in use on a core: base and length (R54). -/
def State.stashUse (s : State) (core : Nat) : List (Nat × Nat) :=
  (s.tasks.filter (fun t => t.state == .placed && t.cores.contains core)).map (fun t => (t.stashBase.getD (t.coreSel core) 0, t.need.stash))

/-- The lowest base of a free range of a core's stash (R54, R63). -/
def State.stashRoom (s : State) (core len : Nat) : Option Nat :=
  let used := (s.stashUse core).filter (fun u => u.2 != 0)
  if len = 0 then some 0
  else (sortBy (fun a b => decide (a ≤ b)) (0 :: used.map (fun u => u.1 + u.2))).find? (fun b =>
    decide (b + len ≤ Config.stashBytes) && used.all (fun u => decide (b + len ≤ u.1) || decide (u.1 + u.2 ≤ b)))

/-- Does a team's share fit on a core now: lane blocks and stash base (R13, R54)? -/
def State.fitCore (s : State) (core : Nat) (k : Need) : Option (List Nat × Nat) :=
  if s.groupFits core k.sgran k.groups && s.teamFits core k.tregs k.accs then
    match pickBlocks (s.posUse core) k.width k.vgran k.groups [], s.stashRoom core k.stash with
    | some bs, some st => some (bs, st)
    | _, _ => none
  else none

/-- Could an empty core hold a team's share? -/
def Need.holdable (k : Need) : Bool := decide (8 * k.sgran * k.groups ≤ 1024) && (pickBlocks (fun _ => 0) k.width k.vgran k.groups []).isSome

/-! ### Where a record may go (R294 to R296, R326, R341) -/

/-- Is a core kept for an older record (R294)? -/
def State.coreKept (s : State) (t : Task) (core : Nat) : Bool :=
  s.reservedCores.any (fun r => r.2 == core && r.1 != t.uid && (s.task? r.1).any (fun u => u.older t))

/-- Mesh distance of two local cores (R295). -/
def meshDist (a b : Nat) : Nat :=
  ((a % 12 : Nat) - (b % 12 : Nat) : Int).natAbs + ((a / 12 : Nat) - (b / 12 : Nat) : Int).natAbs

/-- The cluster of a local core (R9). -/
def clusterOf (l : Nat) : Nat := l / 24 * 3 + l % 12 / 4

/-- The preferred core of a record, by local id (R295). -/
def ContRec.preferred (c : ContRec) : Nat := tileHash c.x c.y c.z % 192 / 2

/-- The rank of a unit of local cores in the search (R295): step, distance, lowest id. -/
def unitRank (pref : Nat) (u : List Nat) : Nat :=
  let step := if u.contains pref then 0 else if clusterOf (u.headD 0) = clusterOf pref then 1 else 2
  let dist := u.foldl (fun n c => min n (meshDist c pref)) 1000
  (step * 1000 + dist) * 1000 + u.headD 0

/-- The units of a die in the order of the search: cores, or pairs for a paired team (R295); global core ids. -/
def searchOrder (die pref : Nat) (paired : Bool) : List (List Nat) :=
  let units : List (List Nat) := if paired then (List.range 48).map (fun p => [2 * p, 2 * p + 1]) else (List.range 96).map (fun c => [c])
  (sortBy (fun a b => decide (unitRank pref a ≤ unitRank pref b)) units).map (fun u => u.map (fun c => die * 96 + c))

/-- Does a team fit on a unit now, its cores in the partition, in turn and not kept for an older record? -/
def State.fitUnit (s : State) (t : Task) (u : List Nat) : Option (List (Nat × List Nat × Nat)) :=
  if u.all (fun c => s.coreOk t.vi c && s.inTurn t.vi c && !s.coreKept t c) then
    u.mapM (fun c => (s.fitCore c t.need).map (fun f => (c, f.1, f.2)))
  else none

/-- The cores of a service partition (R342). -/
def State.partitionCores (s : State) (j : Nat) : List Nat :=
  if j = 0 then [] else ((List.range 28).filter (fun i => (s.win (0x7000 + 4 * j)).testBit i)).map (fun i => 384 + i)

/-- The free group slots of a service core, as lane blocks (R16, R24). -/
def State.freeSlots (s : State) (core : Nat) : List Nat := [0, 4].filter (fun b => !(s.holders core).any (fun g => g.block == b))

/-- The service core that a team takes (R296). -/
def State.fitService (s : State) (t : Task) : Option (List (Nat × List Nat × Nat)) :=
  let n := t.need.groups
  ((s.partitionCores (s.viOf t.vi).partition).find? (fun c => decide (n ≤ (s.freeSlots c).length) && !s.coreKept t c)).map
    (fun c => [(c, (s.freeSlots c).take n, 0)])

/-- Where a record is placed: cores with lane blocks and stash bases (R295, R296). -/
def State.findPlace (s : State) (t : Task) : Option (List (Nat × List Nat × Nat)) :=
  if t.service then s.fitService t
  else (searchOrder t.die t.cont.preferred (t.cont.shape.getLsbD 8)).findSome? (s.fitUnit t)

/-- The core or pair that an aged record reserves (R294): the first that could hold it if it were empty. -/
def State.reserveUnit (s : State) (t : Task) : List Nat :=
  if t.service then (s.partitionCores (s.viOf t.vi).partition).take 1
  else ((searchOrder t.die t.cont.preferred (t.cont.shape.getLsbD 8)).find? (fun u => u.all (s.coreOk t.vi) && t.need.holdable)).getD []

/-! ### Region images (R248) -/

/-- The image that a launch names; none for pointer 0 or one that cannot be read. -/
def State.regionImage (s : State) (vi : Nat) (l : Launch) : Option (List Region) :=
  if l.regionPtr = 0 then none
  else (s.deviceRead vi l.regionPtr.toNat 256).map (fun b =>
    (List.range 16).map (fun k => regionOfWords (field b (16 * k) 8) (field b (16 * k + 8) 8)))

/-- May the table be changed to an image: no placed task's grid names a different one (R248)? -/
def State.imageFree (s : State) (vi : Nat) (img : List Region) : Bool :=
  (s.tasks.filter (fun t => t.vi == vi && t.state == .placed)).all (fun t => match t.launch with
    | some l => (match s.regionImage vi l with | some i => i == img | none => true)
    | none => true)

/-- Must a task wait for its region image (R248)? -/
def State.imageWaits (s : State) (vi : Nat) (l : Launch) : Bool :=
  match s.regionImage vi l with
  | some img => (s.viOf vi).regionTable != img && !s.imageFree vi img
  | none => false

/-- Load a launch's image where it differs from the table in force (R248). -/
def State.loadImage (s : State) (vi : Nat) (l : Launch) : State :=
  match s.regionImage vi l with
  | some img => if (s.viOf vi).regionTable = img then s else (List.range 16).foldl (fun u k => u.setRegion vi k (img.getD k ⟨0, 0, 0, false⟩)) s
  | none => s

/-! ### Placement (R63, R74, R185, R324) -/

/-- A group as it is placed (R63, R74, R324). -/
def newGroup (gid num core block : Nat) (t : Task) (l : Launch) (stash : Nat) : Group :=
  let k := t.need
  let w := k.width
  let g : Group :=
    { gid := gid, task := t.uid, num := num, core := core, block := block, width := w, vgran := k.vgran, sgran := k.sgran
      v := [], s := [], p := [], x := [], e := [], mon := List.replicate 4 ⟨false, false, false, false, false, 0, 0, .eq, 0⟩
      vpc := [], gsrE := false, gsrH := false, fsr := 0, repDone := 0, repLeft := 0, repSteps := none, repAt := none, segs := [], parks := []
      clause := none, outs := [], boundary := [], resume := 0, resumeIssue := none, passed := none, entryCls := 0, entrySub := 0, transfer := 0
      delPkg := ⟨0, 0, 0, 0⟩, delOther := ⟨0, 0, 0, 0⟩, preempt := none, residency := .resident, hold := .none
      parkedSince := none, halted := false, killed := false, poisonV := [], poisonS := [], poisonP := [], poisonX := [] }
  let segs : List (DWord × DWord) :=
    [(l.gBase, l.gLim), (BitVec.ofNat 64 stash, BitVec.ofNat 64 k.stash), (t.cont.frame, BitVec.ofNat 64 l.frameSize), (l.kBase, l.kLim),
     (l.cBase, l.cLim), (Config.saveAreaBase gid, BitVec.ofNat 64 (g.layoutEnd t + 128))]
  ({ g with segs := segs }).transferTo (fullMask w) (BitVec.ofNat 32 t.cont.code)

/-- A stash allocation as it is placed (R185): every line unmapped and present, and reads as zero. -/
def Mem.clearStash (m : Mem) (core base len : Nat) : Mem :=
  let inside (k : Nat) : Bool := decide (stashKey core base ≤ k) && decide (k < stashKey core base + len)
  { m with
    stash := m.stash.filter (fun c => !inside c.1)
    stashPoison := m.stashPoison.filter (fun p => !inside p)
    lines := m.lines.filter (fun l => !(l.core == core && inside (stashKey core (128 * l.line)))) }

/-- Place a task on its cores (R27, R29, R74): region image, keys, footprint, and the acquire at .sys. -/
def State.placeTask (s : State) (t0 : Task) (l : Launch) (units : List (Nat × List Nat × Nat)) : State :=
  let t : Task := { t0 with
    state := .placed, launch := some l, cores := units.map (fun u => u.1), stashBase := units.map (fun u => u.2.2)
    privileged := t0.privileged && t0.service, barriers := List.replicate 8 Barrier.idle, tiles := [], acc := [], accPoison := [], teamSaved := false, tstat := []
    tileErr := [] }
  let s1 := ((s.loadImage t.vi l).takeKeys t).modTask t.uid (fun _ => t)
  let s2 := units.foldl (fun (u : State) e => { u with mem := u.mem.clearStash e.1 e.2.2 t.need.stash }) s1
  let spots := units.flatMap (fun e => e.2.1.map (fun b => (e.1, b, e.2.2)))
  let gs := spots.mapIdx (fun i e => newGroup (s2.nextId + i) i e.1 e.2.1 t l e.2.2)
  let s3 : State := { s2 with groups := s2.groups ++ gs, nextId := s2.nextId + gs.length }
  let s4 := units.foldl (fun u e => u.acquire e.1 t.vi 0 0 0xFFFF) s3
  match t.entry with
  | some a => s4.setEntry t.vi a 3 t.rounds t.footRounds
  | none => s4

/-! ### Trying a record (R68, R291, R292) -/

/-- A record ends without placement, with a status (R28, R289); what it reserved is free. -/
def State.refuseTask (s : State) (uid status : Nat) : State :=
  (s.releaseKeys uid).modTask uid (fun t => { t with state := .refused, late := status })

/-- Write a task's state and counts of denied rounds, in its entry too (R286, R291). -/
def State.deny (s : State) (t : Task) (st : TaskState) (code rounds foot : Nat) : State :=
  let s1 := s.modTask t.uid (fun k => { k with state := st, rounds := rounds, footRounds := foot })
  match t.entry with
  | some a => s1.setEntry t.vi a code rounds foot
  | none => s1

/-- A record denied a key (R291, R294). -/
def State.denyKeys (s : State) (t : Task) : State :=
  let s1 := s.deny t .held 2 (t.rounds + 1) t.footRounds
  if 64 ≤ t.rounds + 1 then s1.reserveKeys t else s1

/-- A record denied its footprint (R291, R294). -/
def State.denyRoom (s : State) (t : Task) (unit : List Nat) : State :=
  let s1 := s.deny t .queued 1 t.rounds (t.footRounds + 1)
  if 64 ≤ t.footRounds + 1 ∧ !s1.reservedCores.any (fun r => r.1 == t.uid) then
    { s1 with reservedCores := s1.reservedCores ++ unit.map (fun c => (t.uid, c)) }
  else s1

/-- The status of a record that is never placed (R66, R68, R283, R289, R292, R296): no die or partition for it; a malformed record;
a key while the key-table share is 0. DESIGN CHOICE (log 36): a HELD record goes to REFUSED too when the share has been set to 0, which
R292 says of records already queued and R28's table does not list; a key past the table's last entry is only never granted (log 64). -/
def State.refusal (s : State) (t : Task) (l : Option Launch) : Option Nat :=
  if t.die = 5 ∨ (t.service ∧ (s.viOf t.vi).partition = 0) then some 6
  else if l.isNone || (!t.spawned && !t.team && t.cont.launch == 0) || !shapeOk t.cont.shape.toNat t.cont.footprint.toNat t.service || (!t.spawned && t.cont.join.toNat % 4 != 0) then some 3
  else if !t.keys.isEmpty && (s.viOf t.vi).keyShare == 0 then some (if t.team then 6 else 3)
  else none

/-- Try a record that is placed on its own (R291); its launch record is read when it is first tried (R68). -/
def State.tryRecord (s0 : State) (t0 : Task) : State :=
  let l := match t0.launch with | some l => some l | none => s0.readLaunch t0.vi t0.cont.launch.toNat
  let t := { t0 with launch := l }
  let s := s0.modTask t0.uid (fun k => { k with launch := l })
  match s.refusal t l, l with
  | some st, _ => s.refuseTask t.uid st
  | none, none => s
  | none, some l =>
    if !t.keys.all (s.keyOk t) then s.denyKeys t
    else match s.findPlace t with
      | some units => if s.imageWaits t.vi l then s.denyRoom t (units.map (fun u => u.1)) else s.placeTask t l units
      | none => s.denyRoom t (s.reserveUnit t)

/-- The waiting members of a gang (R325), by position. -/
def State.gangOf (s : State) (grid gang m : Nat) : List Task :=
  sortBy (fun a b => decide (a.linear ≤ b.linear)) (s.tasks.filter (fun t =>
    t.grid == grid && t.team && t.linear / m == gang && (t.state == .queued || t.state == .held)))

/-- The cores of a gang position in a cluster (R325). -/
def gangCores (die cl : Nat) (paired : Bool) (p : Nat) : List Nat := (gangCells paired p).map (clusterCore die cl)

/-- Try a gang as one record (R326): its lowest team is given. It waits while strings are due to be written (R331). -/
def State.tryGang (s : State) (t : Task) (g : Grid) (l : Launch) : State :=
  let m := gangSize l.paired
  let gang := t.linear / m
  let mem := s.gangOf t.grid gang m
  let size := min m (l.teams - m * gang)
  let cls := ((List.range 12).map (fun i => (gang % 12 + i) % 12)).filter (fun cl =>
    !g.excluded.contains (t.die * 12 + cl) && (s.clustersOf t.vi l t.die).contains cl)
  let fit (cl : Nat) : Option (List (Task × List (Nat × List Nat × Nat))) :=
    mem.mapM (fun k => (s.fitUnit { k with linear := t.linear } (gangCores t.die cl l.paired (k.linear % m))).map (fun u => (k, u)))
  if mem.length ≠ size ∨ !g.routesWritten then s
  else match (if s.imageWaits t.vi l then none else cls.findSome? fit) with
    | some us => us.foldl (fun u e => u.placeTask e.1 l e.2) { s with reservedCores := s.reservedCores.filter (fun r => r.1 != t.uid) }
    | none => s.denyRoom t (match cls with
      | cl :: _ => (List.range 8).map (fun c => clusterCore t.die cl (c % 4, c / 4))
      | [] => [])

/-- Are a grid's strings due to be written again now, at a quiesce point of it (R331)? Nothing of the grid is placed meanwhile. -/
def State.rewriteDue (s : State) (g : Grid) : Bool := g.reroute && !g.ended && s.gridQuiet g.gridId

/-- Try one record, or its gang (R291, R326). No team of a routed grid is placed before its strings have been written (R331). -/
def State.tryTask (s : State) (uid : Nat) : State :=
  match s.task? uid with
  | none => s
  | some t =>
    if t.state ≠ .queued ∧ t.state ≠ .held then s
    else match t.launch, s.grid? t.grid with
      | some l, some g =>
        if s.rewriteDue g then s
        else if t.team && l.routed && !l.service then
          if ((s.gangOf t.grid (t.linear / gangSize l.paired) (gangSize l.paired)).head?.map (fun k => k.uid)) = some uid then s.tryGang t g l
          else s
        else if t.team && l.routed && !g.routesWritten then s
        else s.tryRecord t
      | none, some g => if s.rewriteDue g then s else s.tryRecord t
      | _, none => s.tryRecord t

/-- The records that a Prism, or the package distributor as die 4, tries in a round, in order (R291, R296). A record with
no eligible die is taken by the first round. -/
def State.waiting (s : State) (die : Nat) : List Task :=
  sortBy (fun a b => decide (b.cont.priority < a.cont.priority) || (a.cont.priority == b.cont.priority && !b.older a))
    (s.tasks.filter (fun t => (t.die == die || t.die == 5) && (t.state == .queued || t.state == .held)))

/-- DISPATCH_ROUND (R291): each waiting record is tried once. -/
def State.dispatchRound (s : State) (die : Nat) : State :=
  if s.fenced die then s else (s.waiting die).foldl (fun u t => u.tryTask t.uid) s

/-- DISPATCH_ROUND (R291). -/
def execDispatchRound (die : Nat) (s : State) : Host.Outcome State Fault Refusal := .next (s.dispatchRound die)

/-- The virtual interface after another in round-robin order by number (R341). -/
def nextShare (l : List Nat) (cur : Nat) : Nat := (l.find? (fun n => decide (cur < n))).getD (l.headD 0)

/-- TIME_SLICE_EXPIRY (R341): the slice of the running virtual interface on a shared pair is over. -/
def State.timeSliceExpiry (s : State) (die pair : Nat) : State :=
  let l := s.sharers die pair
  let cur := s.running die pair
  let since := match s.turn? die pair with | some u => u.since | none => 0
  if 2 ≤ l.length ∧ since + (s.viOf cur).slice ≤ s.tick.toNat then
    let on (t : Task) : Bool := t.vi == cur && t.cores.any (fun c => c / 96 == die && c % 96 / 2 == pair && !isService c)
    let s1 := (s.tasks.filter on).foldl (fun u t => u.preemptTask t.uid) s
    { s1 with turns := upsert s1.turns (fun u => u.die == die && u.pair == pair) ⟨die, pair, nextShare l cur, s.tick.toNat⟩ }
  else s

/-- TIME_SLICE_EXPIRY (R341). -/
def execTimeSliceExpiry (die pair : Nat) (s : State) : Host.Outcome State Fault Refusal := .next (s.timeSliceExpiry die pair)

end Sys2Proof.Machine
end

