-- ==== Sys2Proof/Machine/TaskEnd.lean ====
section
/-! DEFINITION. The end of a task, completion records, and submissions from outside (R26, R28 to R31, R185, R279 to R284, R288). -/
namespace Sys2Proof.Machine

/-! ### The steps of R29 -/

/-- A task's own status (R29). -/
def Task.ownStatus (t : Task) : Nat :=
  let base := match t.state with
    | .refused => t.late
    | .killed => if t.late = 7 then 7 else 1
    | _ => t.late
  if t.joinFailed ∧ (base ≤ 2 ∨ base = 4 ∨ base = 5) then 8
  else if t.joinUnderflow ∧ base ≤ 1 then 2
  else base

/-- Has a placed task nothing left to run (R28)? A store that still waits for an absent line holds it, but in a killed team. -/
def State.taskDone (s : State) (t : Task) : Bool :=
  let gs := s.groups.filter (fun g => g.task == t.uid)
  gs.all (fun g => g.residency == .ended) && !s.cmds.any (fun c => c.task == t.uid) && !s.arrays.any (fun e => e.task == t.uid)
    && (t.killing || !s.mem.held.any (fun h => gs.any (fun g => g.gid == h.gid)))

/-- Step 1 (R29): a release at .sys over every write of the task; stores that are lost or refused only now are counted in
the task (R274). -/
def State.endRelease (s : State) (t : Task) : State :=
  (s.groups.filter (fun g => g.task == t.uid)).foldl (fun u g =>
    let v := (u.release g t .sys).deliverWhere (fun q => q.gid == g.gid)
    let w := { v with mem := { v.mem with held := v.mem.held.filter (fun h => h.gid != g.gid) } }
    match w.group? g.gid with
    | some h => w.reportCounts h
    | none => w) s

/-- The write-back of one mapped stash line as its team ends (R185, R258): words lost or refused are counted, with the line's
page. -/
def State.endLine (s : State) (uid : Nat) (l : Line) : State :=
  let r := s.flushLine l.core l.line
  if r.2.1 + r.2.2 = 0 then r.1
  else r.1.modTask uid (fun t => { t with
    lost := t.lost + r.2.1, refusedStores := t.refusedStores + r.2.2, page := if t.page = 0 then alignDown (l.mapped.getD 0) 8192 else t.page })

/-- The mapped stash lines of a task's allocations. -/
def State.taskLines (s : State) (t : Task) : List Line :=
  s.mem.lines.filter (fun l => l.mapped.isSome && t.cores.any (fun c =>
    c == l.core && decide (t.stashBase.getD (t.coreSel c) 0 ≤ 128 * l.line) && decide (128 * l.line < t.stashBase.getD (t.coreSel c) 0 + t.need.stash)))

/-- Step 2 (R29, R185): stash lines are written back and unmapped, the footprint is freed, keys are released. -/
def State.endFree (s : State) (t : Task) : State :=
  let ls := s.taskLines t
  let s1 := ls.foldl (fun u l => u.endLine t.uid l) s
  let m := { s1.mem with lines := s1.mem.lines.filter (fun l => !ls.any (fun k => k.core == l.core && k.line == l.line)) }
  let s2 : State := { s1 with mem := m, groups := s1.groups.filter (fun g => g.task != t.uid) }
  s2.releaseKeys t.uid

/-- The decrement of a join counter (R29, R30): where it is, which names it too (R31), or none when it cannot be performed. -/
def State.joinAt (s : State) (t : Task) : Option Nat :=
  let p := t.cont.join.toNat
  if p % 4 ≠ 0 then none
  else match s.ranged schedulingCore t.vi .rmw true p 4 with
    | .error _ => none
    | .ok ps => match ps with
      | [(va, _, tr)] =>
        let key := if tr.remote then remoteKey t.vi va else tr.pa
        if (s.mem.poisonIn key 4).isSome then none else some key
      | _ => none

/-- Step 3 (R29 to R31): continuations registered against a counter that comes to 0 are the ones that step 5 enqueues. -/
def State.endJoin (s : State) (t : Task) : State :=
  if t.cont.join = 0 then s
  else match s.joinAt t with
    | none => s.modTask t.uid (fun k => { k with joinFailed := true })
    | some key =>
      let old := leNat (s.mem.read key 4)
      if old = 0 then s.modTask t.uid (fun k => { k with joinUnderflow := true })
      else
        let s1 := s.deviceWrite key (leBytes 4 (old - 1))
        if old = 1 then { s1 with regs31 := modWhere s1.regs31 (fun r => r.vi == t.vi && r.counter == key && r.due.isNone) (fun r => { r with due := some t.uid }) }
        else s1

/-- The page of a grid's submission (R288). -/
def State.gridPage (s : State) (gridId : Nat) : Nat := match s.grid? gridId with | some g => g.page | none => 0

/-- Step 4 (R29, R288): a spawned task's own record. -/
def State.endRecord (s : State) (t : Task) : State :=
  let d : Due := { vi := t.vi, page := s.gridPage t.grid, tag := 0, status := t.ownStatus, lost := t.lost, refused := t.refusedStores
                   first := t.page, detail := 0, interrupt := none, owner := .task t.uid }
  let s1 := match t.entry with | some a => s.entryState t.vi a 4 | none => s
  { s1 with dues := s1.dues ++ [d] }

/-- Enqueue a registered continuation (R31): none while it must wait for room. A disabled virtual interface's are dropped
(R345). DESIGN CHOICE (log 75): so is one whose queue is not enabled any more in a virtual interface started again. -/
def State.enqueueReg (s : State) (r : Reg31) : Option State :=
  if s.queueOn r.vi r.queue then s.enqueueTask r.vi r.grid r.queue r.bytes r.service r.privileged r.launch else some s

/-- Step 5 (R29, R31): none while a continuation waits for room. -/
def State.endContinue (s : State) (uid : Nat) : Option State :=
  (s.regs31.filter (fun r => r.due == some uid)).foldl (fun (o : Option State) r => o.bind (fun u => u.enqueueReg r))
    (some { s with regs31 := s.regs31.filter (fun r => r.due != some uid) })

/-- Ranges whose teams have all ended are finished (R299). -/
def Grid.finishRanges (g : Grid) (ts : List Task) : Grid :=
  { g with ranges := g.ranges.map (fun r =>
      if !r.open && (ts.filter (fun t => t.team && decide (r.start ≤ t.linear) && decide (t.linear < r.start + r.count))).all (fun t => t.ended)
      then { r with stage := 2 } else r) }

/-- The task has ended, for its grid (R26, R288, R289). -/
def State.endCount (s : State) (t : Task) : State :=
  let s1 := s.modTask t.uid (fun k => { k with ended := true, endSteps := 5 })
  let s2 := s1.modGrid t.grid (fun g =>
    { g with status := max g.status t.ownStatus, notDone := g.notDone + bit (t.state != .done), lost := g.lost + t.lost
             refused := g.refused + t.refusedStores, page1 := if g.page1 = 0 then t.page else g.page1 })
  let s3 := s2.modGrid t.grid (fun g => g.finishRanges (s2.tasks.filter (fun k => k.grid == t.grid)))
  let s4 := match t.entry with | some a => if t.spawned then s3.freeEntry t.vi a else s3 | none => s3
  s4.gridSettle t.grid

/-- Step 5 and the end, when the queue has room for the continuations. -/
def State.endLast (s : State) (uid : Nat) : State :=
  match s.endContinue uid with
  | none => s.modTask uid (fun t => { t with endSteps := 5 })
  | some s1 => match s1.task? uid with
    | some t => s1.endCount t
    | none => s1

/-- Steps 3 to 5 of R29. -/
def State.endSteps (s : State) (uid : Nat) : State :=
  match s.task? uid with
  | none => s
  | some t =>
    let s1 := s.endJoin t
    match s1.task? uid with
    | none => s1
    | some u => if u.spawned && u.cont.wanted then (s1.modTask uid (fun k => { k with endSteps := 4 })).endRecord u else s1.endLast uid

/-- TASK_END (R28, R29): a task that is refused, or has nothing left to run, takes its steps; step 5 follows its record. -/
def State.taskEnd (s : State) (uid : Nat) : State :=
  match s.task? uid with
  | none => s
  | some t =>
    if t.ended then s
    else if t.endSteps = 5 then s.endLast uid
    else if t.endSteps ≠ 0 then s
    else match t.state with
      | .refused => (s.modTask uid (fun k => { k with endSteps := 3 })).endSteps uid
      | .placed =>
        if s.taskDone t then
          let s1 := ((s.endRelease t).endFree t).modTask uid (fun k => { k with state := if k.killing then .killed else .done, endSteps := 3 })
          s1.endSteps uid
        else s
      | _ => s

/-- TASK_END (R29). -/
def execTaskEnd (task : Nat) (s : State) : Host.Outcome State Fault Refusal := .next (s.taskEnd task)

/-! ### Completion records (R288) -/

/-- The bytes of a completion record (R288). -/
def Due.bytes (d : Due) : List Byte :=
  leBytes 8 d.tag.toNat ++ leBytes 4 d.status ++ leBytes 2 (satAt 0xFFFF d.lost) ++ leBytes 2 (satAt 0xFFFF d.refused)
    ++ leBytes 8 (alignDown d.first 8192) ++ leBytes 4 d.detail ++ leBytes 4 (2 ^ 31)

/-- A submission page by number. -/
def State.page? (s : State) (vi page : Nat) : Option SubPage := s.pages.find? (fun p => p.vi == vi && p.page == page)

/-- The address of a page's next completion slot (R280, R288). -/
def SubPage.slotAddr (p : SubPage) : Nat := p.base + 32 * p.next

/-- The window offset of a page's descriptor (R280). -/
def pageOff (vi page : Nat) : Nat := 0x10000 + 0x800 * vi + 32 * page

/-- A page's next completion slot moves on (R280). -/
def State.nextSlot (s : State) (p : SubPage) : State :=
  let n := (p.next + 1) % 2 ^ p.slots
  ({ s with pages := modWhere s.pages (fun q => q.vi == p.vi && q.page == p.page) (fun q => { q with next := n }) }).winSet (pageOff p.vi p.page + 0x18) n

/-- The interrupt of a completion record (R288, R344). -/
def Due.interruptOf (d : Due) (base : DWord) : List Interrupt :=
  match d.interrupt with
  | some i => [{ vi := d.vi, base := base, target := i, payload := BitVec.ofNat 24 d.tag.toNat, team := 0, core := 0xFFFF, group := 0xFF }]
  | none => []

/-- What follows a record (R29 step 5, R286). -/
def State.afterRecord (s : State) (d : Due) : State :=
  match d.owner with
  | .none => s
  | .task uid => s.endLast uid
  | .grid gridId => match s.grid? gridId with
    | some g => (match g.entry with | some a => s.freeEntry g.vi a | none => s)
    | none => s

/-- The slot of a due record is free (R288). -/
def State.slotFree (s : State) (p : SubPage) : Bool :=
  match s.deviceRead p.vi (p.slotAddr + 0x1C) 4 with
  | some b => decide (leNat b < 2 ^ 31)
  | none => false

/-- Remove the first due record of a page. -/
def dropDue (vi page : Nat) : List Due → List Due
  | [] => []
  | d :: r => if d.vi = vi ∧ d.page = page then r else d :: dropDue vi page r

/-- COMPLETION_RECORD_WRITE (R288): the record that became due first on the page, once the next slot is free. DESIGN CHOICE (log 76): while
the slot cannot be read or written the record waits, and the page's later ones behind it. -/
def State.completionWrite (s : State) (vi page : Nat) : State :=
  match s.dues.find? (fun d => d.vi == vi && d.page == page), s.page? vi page with
  | some d, some p =>
    if !s.slotFree p then s
    else match s.devicePut vi p.slotAddr d.bytes with
      | (_, false) => s
      | (s1, true) =>
        let s2 := ({ s1 with dues := dropDue vi page s1.dues }).nextSlot p
        ({ s2 with host := { s2.host with interrupts := s2.host.interrupts ++ d.interruptOf (s2.viOf vi).uintBase } }).afterRecord d
  | _, _ => s

/-- COMPLETION_RECORD_WRITE (R288). -/
def execCompletionRecordWrite (vi page : Nat) (s : State) : Host.Outcome State Fault Refusal := .next (s.completionWrite vi page)

/-! ### Submissions from the host and their retries (R279 to R284) -/

/-- The device answers the world outside. -/
def State.answer (s : State) (a : Answer) : State := { s with host := { s.host with answers := s.host.answers ++ [a] } }

/-- A host write that is discarded and counted (R279 to R281). -/
def State.dropWrite (s : State) (vi page : Nat) : State :=
  { s with pages := modWhere s.pages (fun p => p.vi == vi && p.page == page) (fun p => { p with drops := satAt (2 ^ 64 - 1) (p.drops + 1) }) }

/-- SUBMIT_PAGE_WRITE_DROP (R281). -/
def execSubmitPageWriteDrop (vi page : Nat) (s : State) : Host.Outcome State Fault Refusal := .next (s.dropWrite vi page)

/-- Has the package booted: every image runs (R340, R349)? -/
def State.booted (s : State) : Bool := s.host.stage == 3

/-- An accepted submission brings an IDLE package back to P0 (R350). -/
def State.wake (s : State) : State :=
  if s.host.power = .idle then ({ s with host := { s.host with power := .p0, requested := .p0 } }).winSet 0x400 0 else s

/-- What a host read of a page's window finds: the drop count, and zeros, on a page that takes submissions or not (R279, R281). -/
def State.pageRead (s : State) (vi page off : Nat) : Byte :=
  match s.page? vi page with
  | some p => if p.enabled && decide (0x88 ≤ off) && decide (off < 0x90) then BitVec.ofNat 8 (p.drops / 2 ^ (8 * (off - 0x88))) else 0
  | none => 0

/-- The outcome of a host submission that reaches an enabled page of an enabled virtual interface: none while it cannot be made
durable. -/
def State.hostTry (s : State) (p : SubPage) (r : List Byte) : Option State :=
  let tag := (subOf r).tag
  match s.submit p r with
  | .accepted s1 => some (s1.wake.answer (.accept tag))
  | .refused => some ((s.immediate p r 6).answer (.accept tag))
  | .malformed => some ((s.immediate p r 3).answer (.accept tag))
  | .retry => none

/-- HOST_SUBMISSION (R279 to R281, R283, R284, R345): a DMWr to a submit window; one that cannot be made durable at once waits, and one
made while the scheduling processor's firmware restarts receives Retry (R321). Before boot has finished nothing is taken (R349). -/
def State.hostSubmit (s : State) (vi page : Nat) (r : List Byte) : State :=
  match s.page? vi page with
  | none => s.answer .abort
  | some p =>
    if !p.enabled then (s.dropWrite vi page).answer .abort
    else if !(s.viOf vi).enabled || !s.booted then s.answer .abort
    else if r.length ≠ 128 then s.dropWrite vi page
    else match s.hostTry p r with
      | some s1 => s1
      | none => if s.host.restarting then s.answer .retry else { s with host := { s.host with waiting := s.host.waiting ++ [⟨vi, page, r, s.tick.toNat⟩] } }

/-- HOST_SUBMISSION (R281). -/
def execHostSubmission (vi page : Nat) (r : List Byte) (s : State) : Host.Outcome State Fault Refusal := .next (s.hostSubmit vi page r)

/-- The host submission of a page and a record that has waited longest, and the others. -/
def takeSub (vi page : Nat) (r : List Byte) : List HostSub → Option (HostSub × List HostSub)
  | [] => none
  | h :: t => if h.vi = vi ∧ h.page = page ∧ h.bytes = r then some (h, t) else (takeSub vi page r t).map (fun e => (e.1, h :: e.2))

/-- HOST_SUBMISSION_RETRY (R281): a submission that waits is accepted once there is room; after 200 reference ticks it receives
Retry, and nothing is enqueued. -/
def State.hostSubmitRetry (s : State) (vi page : Nat) (r : List Byte) : State :=
  match takeSub vi page r s.host.waiting, s.page? vi page with
  | some (h, rest), some p =>
    let t : State := { s with host := { s.host with waiting := rest } }
    if !p.enabled then (t.dropWrite vi page).answer .abort
    else if !(s.viOf vi).enabled then t.answer .abort
    else match t.hostTry p r with
      | some u => u
      | none => if h.since + 200 ≤ s.tick.toNat then t.answer .retry else s
  | _, _ => s

/-- HOST_SUBMISSION_RETRY (R281). -/
def execHostSubmissionRetry (vi page : Nat) (r : List Byte) (s : State) : Host.Outcome State Fault Refusal :=
  .next (s.hostSubmitRetry vi page r)

/-- GROUP_SUBMISSION_RETRY (R282): after 200 reference ticks the group is answered, with Retry where there is still no room. -/
def State.groupSubmitRetry (s : State) (gid : Nat) : State :=
  match s.group? gid with
  | none => s
  | some g => match g.hold with
    | .submit since => if since + 200 ≤ s.tick.toNat then s.setGroup { g with hold := .answer } else s
    | _ => s

/-- GROUP_SUBMISSION_RETRY (R282). -/
def execGroupSubmissionRetry (gid : Nat) (s : State) : Host.Outcome State Fault Refusal := .next (s.groupSubmitRetry gid)

end Sys2Proof.Machine
end

