-- ==== Sys2Proof/Machine/MemEvents.lean ====
section
/-! DEFINITION. Events of the memory system: the registry's messages, evictions and spills, posted writes, home moves, walks and
frame owners (R183, R195, R254 to R258, R272, R273, R277, R278, R312, R315, R316). -/
namespace Sys2Proof.Machine

/-! ### The registry's messages (R255 to R258, R277, R278) -/

/-- A word of memory on a live die of this package. -/
def State.wordOk (s : State) (pa : Nat) : Bool := paOk pa && !s.fenced (pa / 2 ^ 37)

/-- Send a revocation to a word's owner (R277). -/
def State.sendRevoke (s : State) (pw : Nat) (owner : Agent) (req : Option (Agent × BitVec 4 × Word)) : State :=
  { s with mem := { s.mem with revokes := s.mem.revokes ++ [⟨pw, owner, s.tick.toNat, req⟩] } }

/-- REGISTRATION_REQUEST (R255): a write of masked bytes by an agent. Another owner is revoked first; requests for one word
are served one at a time (R277). Over a dead path no request arrives (R19; log 70). -/
def State.request (s : State) (ag : Agent) (pa : Nat) (mask : BitVec 4) (val : Word) : State :=
  let pw := wordOf pa
  if !s.wordOk pw || (s.revoke? pw).isSome || !s.path (agentDie ag) (homeDie pw) then s
  else match s.mem.reg? pw with
    | some r => if r.owner = ag then s.storeWord (some (agentWriter ag)) ag pw mask val else s.sendRevoke pw r.owner (some (ag, mask, val))
    | none => s.storeWord (some (agentWriter ag)) ag pw mask val

/-- REGISTRATION_REQUEST (R255). -/
def execRegistrationRequest (ag : Agent) (pa : Nat) (mask : BitVec 4) (val : Word) (s : State) : Host.Outcome State Fault Refusal :=
  .next (s.request ag pa mask val)

/-- REVOCATION (R277): the registry asks a word's owner to give it up. -/
def State.revoke (s : State) (pa : Nat) : State :=
  let pw := wordOf pa
  match s.revoke? pw, s.mem.reg? pw with
  | none, some r => s.sendRevoke pw r.owner none
  | _, _ => s

/-- REVOCATION (R277). -/
def execRevocation (pa : Nat) (s : State) : Host.Outcome State Fault Refusal := .next (s.revoke pa)

/-- WRITTEN_BACK (R277). -/
def execWrittenBack (pa : Nat) (s : State) : Host.Outcome State Fault Refusal := .next (s.writtenBack pa)

/-- NOT_HELD (R277). -/
def execNotHeld (pa : Nat) (s : State) : Host.Outcome State Fault Refusal := .next (s.notHeld pa)

/-- FORWARD (R255): the owner answers a reader and keeps its registration; the reader's copy, if its L1 has one, is renewed, and no
older copy of the word's sibling stays beside it (R267). All three need their paths (R19; log 70). -/
def State.forward (s : State) (ag : Agent) (pa : Nat) : State :=
  let pw := wordOf pa
  match s.mem.reg? pw, agentCore ag with
  | some r, some c =>
    if r.owner = ag ∨ !(s.path (agentDie ag) (homeDie pw) && s.ownerPath pw && s.path (agentDie r.owner) (agentDie ag)) then s
    else
      let m := { s.mem with copies := modWhere s.mem.copies (fun x => x.core == c && x.pa == pw) (fun x => { x with value := s.mem.word pw }) }
      { s with mem := if (m.copyOf c pw).isSome && m.stale c (sibling pw) then m.dropCopy c (sibling pw) else m }
  | _, _ => s

/-- FORWARD (R255). -/
def execForward (ag : Agent) (pa : Nat) (s : State) : Host.Outcome State Fault Refusal := .next (s.forward ag pa)

/-- WRITE_BACK (R256): the masked bytes are merged and the word becomes HOME. -/
def execWriteBack (pa : Nat) (s : State) : Host.Outcome State Fault Refusal := .next (s.giveBack [wordOf pa])

/-- LINE_EVICTION (R258): an agent's registrations in a line end; an L1 gives up its copies of the line too. -/
def State.evict (s : State) (ag : Agent) (pa : Nat) : State :=
  let line := alignDown pa 128
  let t := s.giveBack ((s.mem.regs.filter (fun r => r.owner == ag && alignDown r.pa 128 == line)).map (fun r => r.pa))
  let drop (c : Copy) : Bool := (agentCore ag).any (fun k => k == c.core && ag == l1Of k) && alignDown c.pa 128 == line
  { t with mem := { t.mem with copies := t.mem.copies.filter (fun c => !drop c) } }

/-- LINE_EVICTION (R258). -/
def execLineEviction (ag : Agent) (pa : Nat) (s : State) : Host.Outcome State Fault Refusal := .next (s.evict ag pa)

/-- REGISTRATION_SPILL (R278): a line's registration states go to its die's spill table; where the table is full, its oldest
ones are revoked and written back. -/
def State.spill (s : State) (pa : Nat) : State :=
  let line := alignDown pa 128
  let mine := s.mem.regs.filter (fun r => alignDown r.pa 128 == line && !r.spilled)
  let rest := s.mem.regs.filter (fun r => !(alignDown r.pa 128 == line && !r.spilled))
  let old := (rest.filter (fun r => r.spilled && r.pa / 2 ^ 37 == line / 2 ^ 37)).map (fun r => r.pa)
  let m := { s.mem with regs := rest ++ mine.map (fun (r : Reg) => { r with spilled := true }) }
  { s with mem := m.writeBackAll ((old.take (old.length + mine.length - Config.spillRoom)).filter s.ownerPath) }

/-- REGISTRATION_SPILL (R278). -/
def execRegistrationSpill (pa : Nat) (s : State) : Host.Outcome State Fault Refusal := .next (s.spill pa)

/-! ### Capacities (R10, R12, R16) -/

/-- The lines that an L1 data cache holds: of its copies and of the words it owns. -/
def Mem.l1Held (m : Mem) (core : Nat) : List Nat :=
  ((m.copies.filter (fun c => c.core == core)).map (fun c => alignDown c.pa 128)
    ++ (m.regs.filter (fun r => r.owner == l1Of core)).map (fun r => alignDown r.pa 128)).eraseDups

/-- The lines that an L1 instruction cache holds, by virtual interface and address. -/
def Mem.icacheHeld (m : Mem) (core : Nat) : List (Nat × Nat) :=
  ((m.icache.filter (fun e => e.core == core)).map (fun e => (e.vi, alignDown e.va 128))).eraseDups

/-- The slice that a line of this package's memory is homed in, by its global id (R10, R253). -/
def Mem.sliceAt (m : Mem) (pa : Nat) : Nat := sliceId (pa / 2 ^ 37) (homeSlice ((m.homeVa.get (pa / 8192)).toNat * 8192 + pa % 8192))

/-- The words whose registration states slices hold, not spilled (R254, R278). -/
def Mem.inSlices (m : Mem) : List Reg := m.regs.filter (fun r => !r.spilled && decide (r.pa < 2 ^ 39))

/-- The lines whose registration states a slice holds. -/
def Mem.sliceHeld (m : Mem) (slice : Nat) : List Nat :=
  ((m.inSlices.filter (fun r => m.sliceAt r.pa == slice)).map (fun r => alignDown r.pa 128)).eraseDups

/-- Lines leave a cache while it holds more than it has room for: which of them is free (log 12). -/
def State.shrink {α : Type} (s : State) (held : State → List α) (room : Nat) (drop : State → α → State) : State :=
  (List.range ((held s).length - room)).foldl (fun u k =>
    match (held u)[Config.victim s.fresh k % (held u).length]? with
    | some x => drop u x
    | none => u) s

/-- Every cache of the package is brought within its capacity (R10, R12, R16, R258, R278). -/
def State.fitCaches (s : State) : State :=
  let m := s.mem
  let cores := ((m.copies.map (fun c => c.core)) ++ m.regs.filterMap (fun r => agentCore r.owner)).eraseDups
  let s1 := if m.copies.length + m.regs.length ≤ Config.l1Lines then s
    else cores.foldl (fun u c => u.shrink (fun v => v.mem.l1Held c) Config.l1Lines (fun v a => v.evict (l1Of c) a)) s
  let s2 := if m.icache.length ≤ Config.icacheLines then s1
    else ((m.icache.map (fun e => e.core)).eraseDups).foldl (fun u c => u.shrink (fun v => v.mem.icacheHeld c) Config.icacheLines (fun v a =>
      { v with mem := { v.mem with icache := v.mem.icache.filter (fun e => !(e.core == c && e.vi == a.1 && alignDown e.va 128 == a.2)) } })) s1
  if m.regs.length ≤ Config.sliceLines then s2
  else ((s2.mem.inSlices.map (fun r => s2.mem.sliceAt r.pa)).eraseDups).foldl (fun u k =>
    u.shrink (fun v => v.mem.sliceHeld k) Config.sliceLines State.spill) s2

/-! ### Posted writes (R183, R195, R272) -/

/-- RED_PERFORM (R195, R257): after the earlier REDs of its group to the word. -/
def State.redPerform (s : State) (k : Nat) : State :=
  match s.mem.reds.find? (fun r => r.key == k) with
  | none => s
  | some r =>
    if s.mem.reds.any (fun q => decide (q.key < k) && q.gid == r.gid && overlap q.pa q.op.bytes r.pa r.op.bytes) then s
    else State.performRed { s with mem := { s.mem with reds := s.mem.reds.filter (fun q => q.key != k) } } r

/-- RED_PERFORM (R257). -/
def execRedPerform (k : Nat) (s : State) : Host.Outcome State Fault Refusal := .next (s.redPerform k)

/-- REMOTE_STORE_REFUSAL (R183, R274): a posted store is refused by its home and counted. -/
def State.remoteRefusal (s : State) (k : Nat) : State :=
  match s.mem.posted.find? (fun p => p.key == k) with
  | none => s
  | some p =>
    { s with mem := { s.mem with posted := s.mem.posted.filter (fun q => q.key != k) } }.modGroup p.gid (fun g => g.countStore false true p.va s.fresh)

/-- REMOTE_STORE_REFUSAL (R183). -/
def execRemoteStoreRefusal (k : Nat) (s : State) : Host.Outcome State Fault Refusal := .next (s.remoteRefusal k)

/-- REPL_REPLICA_UPDATE (R19, R272): in order with earlier updates of the same bytes, and with those from the same source to the
same die. -/
def State.replUpdate (s : State) (k : Nat) : State :=
  match s.mem.repls.find? (fun r => r.key == k) with
  | none => s
  | some r =>
    if s.mem.repls.any (fun q => decide (q.key < k) && (q.samePath r || overlap q.pa q.bytes.length r.pa r.bytes.length)) then s
    else s.replArrives r

/-- REPL_REPLICA_UPDATE (R272). -/
def execReplReplicaUpdate (k : Nat) (s : State) : Host.Outcome State Fault Refusal := .next (s.replUpdate k)

/-! ### Walks, frame owners and home moves (R273, R312, R315, R316) -/

/-- TABLE_WALK (R312, R315): a die's walk that succeeds is kept in its TLB; one that fails is not. The IOD counts as die 4. -/
def State.tableWalk (s : State) (die vi va : Nat) (acc : Access) : State :=
  if chipOf va ≠ s.fabric.chip.toNat ∨ 4 < die then s
  else match walk s vi va with
    | .ok t =>
      if t.perms &&& accNeeds acc = accNeeds acc then
        { s with mem := { s.mem with tlb := tlbPut s.mem.tlb Config.dieTlb (t.entry none die vi va) va } }
      else s
    | .error _ => s

/-- TABLE_WALK (R312). -/
def execTableWalk (walker : Walker) (va : DWord) (acc : Access) (s : State) : Host.Outcome State Fault Refusal :=
  .next (s.tableWalk walker.die walker.vi va.toNat acc)

/-- Drop the translations that map a frame, as a replica or not (R316). -/
def State.dropFrame (s : State) (pa : Nat) : State :=
  s.dropTlb (fun e => overlap e.pa e.size pa 8192 || (e.repl && overlap (e.pa % 2 ^ 37) e.size (pa % 2 ^ 37) 8192))

/-- Nothing of a frame's owner is left on its way to it (R5, R316): REDs, replica updates and requests for its words are performed,
registrations written back, copies dropped; mapped stash lines on it are absent until they are translated again, and monitors on it see
nothing any more. What a dead path keeps from arriving is lost (R19, R274; log 70). -/
def State.quitFrame (s : State) (pa : Nat) : State :=
  let inside (a : Nat) : Bool := decide (pa ≤ a) && decide (a < pa + 8192)
  let on (l : Line) : Bool := l.mapped.isSome && l.pa != 2 ^ 80 && (inside l.pa || (l.repl && decide (pa % 2 ^ 37 ≤ l.pa % 2 ^ 37) && decide (l.pa % 2 ^ 37 < pa % 2 ^ 37 + 8192)))
  let s1 := (s.performReds (fun r => inside r.pa)).flushRepls (fun q => inside q.pa)
  let s2 := (s1.mem.revokes.filter (fun v => inside v.pa)).foldl State.answerRevoke s1
  let m := s2.mem.writeBackAll (((s2.mem.regs.filter (fun r => inside r.pa)).map (fun r => r.pa)).filter s2.ownerPath)
  { s2 with
    mem := { m with
      regs := m.regs.filter (fun r => !inside r.pa)
      revokes := m.revokes.filter (fun v => !inside v.pa)
      copies := m.copies.filter (fun c => !inside c.pa)
      lines := m.lines.map (fun l => if on l then { l with pa := 2 ^ 80, repl := false, present := false } else l)
      homeVa := m.homeVa.set (pa / 8192) 0 }
    groups := s2.groups.map (fun g => { g with mon := g.mon.map (fun k => if !k.stash && inside k.addr then { k with addr := 2 ^ 80 } else k) }) }

/-- FRAME_OWNER_CHANGE (R316): the translations of the frame go first, and a new owner finds nothing of the old one's under way. -/
def State.frameOwner (s : State) (die frame : Nat) (vi : Option (BitVec 6)) : State :=
  let pa := die * 2 ^ 37 + 8192 * frame
  let new : Byte := match vi with | some n => BitVec.ofNat 8 (n.toNat + 1) | none => 0
  if decide (die < 4) && decide (8192 * frame < Config.dieBytes) && s.booted then
    let s0 := s.dropFrame pa
    let s1 := if s.mem.owners.get (pa / 8192) = new then s0 else s0.quitFrame pa
    { s1 with mem := { s1.mem with owners := s1.mem.owners.set (pa / 8192) new } }
  else s

/-- FRAME_OWNER_CHANGE (R316). -/
def execFrameOwnerChange (die frame : Nat) (vi : Option (BitVec 6)) (s : State) : Host.Outcome State Fault Refusal :=
  .next (s.frameOwner die frame vi)

/-- The table entry of the leaf that maps an address, below a table, with its page size. -/
def leafFrom (s : State) (va : Nat) : List (Nat × Nat × Nat × Bool) → Nat → Option (Nat × Nat)
  | [], _ => none
  | (_, lo, n, _) :: rest, table =>
    let a := table + 8 * fld va lo n
    let e := leNat (s.mem.read a 8)
    if fld e 0 1 = 0 then none
    else if fld e 1 1 = 1 then some (a, 2 ^ lo)
    else leafFrom s va rest (fld e 13 40 * 8192)

/-- Move the keys of a store from one range to another. -/
def Store.moveRange {w : Nat} (st : Store w) (old new n : Nat) : Store w :=
  let part := st.filter (fun c => decide (old ≤ c.1) && decide (c.1 < old + n))
  Store.setAll (st.filter (fun c => !(decide (new ≤ c.1) && decide (c.1 < new + n)))) (part.map (fun c => (c.1 - old + new, c.2)))

/-- An address after a move. -/
def moved (old new n a : Nat) : Nat := if old ≤ a ∧ a < old + n then a - old + new else a

/-- Steps 1, 2 and 4 of a home move (R273): registrations are revoked, stale ones of the new frame too, the page is copied, copies in
L1s and stashes go; monitors, counters and stores caught by the move follow the page. -/
def State.movePage (s : State) (old new n : Nat) : State :=
  let inside (a : Nat) : Bool := decide (old ≤ a) && decide (a < old + n)
  let s0 := s.performReds (fun r => inside r.pa)
  let there (a : Nat) : Bool := decide (new ≤ a) && decide (a < new + n)
  let m := s0.mem.writeBackAll ((s0.mem.regs.filter (fun r => inside r.pa || there r.pa)).map (fun r => r.pa))
  let m1 := { m with
    bytes := m.bytes.moveRange old new n
    poison := m.poison.filter (fun p => !(decide (new ≤ p) && decide (p < new + n))) ++ (m.poison.filter inside).map (moved old new n)
    copies := m.copies.filter (fun c => !(inside c.pa || there c.pa))
    revokes := m.revokes.map (fun v => { v with pa := moved old new n v.pa })
    homeVa := m.homeVa.moveRange (old / 8192) (new / 8192) (n / 8192)
    lines := m.lines.map (fun l => if l.mapped.isSome && (inside l.pa || there l.pa) then { l with present := false } else l) }
  { s0 with
    mem := m1
    groups := s0.groups.map (fun g => { g with mon := g.mon.map (fun k => if k.stash then k else { k with addr := moved old new n k.addr }) })
    regs31 := s0.regs31.map (fun r => { r with counter := moved old new n r.counter }) }

/-- The same for a REPL page (R272): stores on their way to its replicas arrive first, and every replica moves. -/
def State.moveRepl (s : State) (old new n : Nat) : State :=
  let s1 := s.flushRepls (fun q => decide (old % 2 ^ 37 ≤ q.pa % 2 ^ 37) && decide (q.pa % 2 ^ 37 < old % 2 ^ 37 + n))
  s1.liveDies.foldl (fun u d => u.movePage (replicaOf old d) (replicaOf new d) n) s1

/-- Are the frames that a page moves to owned by its virtual interface, those of its replicas too (R313, R316)? -/
def State.ownsNew (s : State) (vi new n : Nat) (repl : Bool) : Bool :=
  s.ownsAll vi new n && (!repl || s.liveDies.all (fun d => s.ownsAll vi (replicaOf new d) n))

/-- HOME_MOVE (R273): a page moves to a frame, at a moment when no engine command of the virtual interface runs; the new
frames must be aligned, whole, and owned by the virtual interface, and what the move takes must have its paths (R19; log 70). The launch record has no field for placement hints (R65), so no
grid names the page in any. -/
def State.homeMove (s : State) (vi va die frame : Nat) : State :=
  let new := die * 2 ^ 37 + 8192 * frame
  match walk s vi va, leafFrom s va walkLevels (s.viOf vi).ptroot with
  | .ok t, some (e, n) =>
    let old := alignDown t.pa n
    let fine := chipOf va == s.fabric.chip.toNat && decide (die < 4) && new % n == 0 && paOk new && paOk (new + n - 1) && !s.fenced die
      && !s.fenced (old / 2 ^ 37) && s.ownsNew vi new n t.repl && old != new
      && s.path (old / 2 ^ 37) die && !s.cutOwner old n && !s.cutOwner new n
      && !s.cmds.any (fun c => (s.task? c.task).any (fun k => k.vi == vi))
    if fine then
      let entry := leNat (s.mem.read e 8)
      let s1 := if t.repl then s.moveRepl old new n else s.movePage old new n
      (s1.deviceWrite (moved old new n e) (leBytes 8 (entry - fld entry 13 40 * 2 ^ 13 + new))).dropTlb
        (fun x => x.vi == vi && decide (x.base ≤ va) && decide (va < x.base + x.size))
    else s
  | _, _ => s

/-- HOME_MOVE (R273). -/
def execHomeMove (vi : Nat) (va : DWord) (die frame : Nat) (s : State) : Host.Outcome State Fault Refusal :=
  .next (s.homeMove vi va.toNat die frame)

end Sys2Proof.Machine
end

