-- ==== Sys2Proof/Machine/Errors.lean ====
section
/-! DEFINITION. Errors, retired and dead parts, die fences and the fabric (R19, R23, R300, R301, R317, R318, R321 to R323, R331,
R354 to R356). -/
namespace Sys2Proof.Machine

/-! ### Die fences (R300, R301, R322, R323) -/

/-- The work of a task that a fence ends is gone: commands, matrix operations, and writes not yet delivered (R29, R323). -/
def State.dropWork (s : State) (uid : Nat) : State :=
  let mine (gid : Nat) : Bool := s.groups.any (fun g => g.gid == gid && g.task == uid)
  { s with
    cmds := s.cmds.filter (fun c => c.task != uid)
    arrays := s.arrays.filter (fun e => e.task != uid)
    mem := { s.mem with
      reds := s.mem.reds.filter (fun r => !mine r.gid)
      repls := s.mem.repls.filter (fun r => !mine r.gid)
      held := s.mem.held.filter (fun h => !mine h.gid)
      posted := s.mem.posted.filter (fun p => !mine p.gid) } }

/-- The keys that a task holds are free; what it reserves stays (R300). -/
def State.freeKeys (s : State) (uid : Nat) : State :=
  let ks := s.keys.map (fun k => { k with holder := if k.holder = some uid then none else k.holder })
  { s with keys := ks.filter (fun k => k.holder.isSome || !k.reserved.isEmpty) }

/-- A store of a group is lost and counted (R274). -/
def State.countLost (s : State) (gid va : Nat) : State :=
  s.modGroup gid (fun g => g.countStore (chipOf va == s.fabric.chip.toNat) false va s.fresh)

/-- The stores of a group that are still on their way, by virtual address: posted to other chips, REDs, and held for mapped stash lines
(R183, R186, R195). -/
def State.underWay (s : State) (gid : Nat) : List Nat :=
  (s.mem.posted.filter (fun p => p.gid == gid)).map (fun p => p.va) ++ (s.mem.reds.filter (fun r => r.gid == gid)).map (fun r => r.va)
    ++ (s.mem.held.filter (fun h => h.gid == gid)).filterMap (fun h => (s.mem.mappedAt h.core h.addr).map (fun e => e.2))

/-- The stores that the groups of a task have under way are lost and counted (R274). -/
def State.loseWrites (s : State) (uid : Nat) : State :=
  (s.groups.filter (fun g => g.task == uid)).foldl (fun u g =>
    ((u.underWay g.gid).foldl (fun w va => w.countLost g.gid va) u)) s

/-- A placed task on the fenced die whose launch sets noreissue is killed (R28, R301), what it has under way counted by `loseWrites`;
its keys are free at once (R300). -/
def State.killFenced (s : State) (t : Task) : State :=
  let s2 := ((s.dropWork t.uid).freeKeys t.uid).modTask t.uid (fun k => { k with killing := true, late := 7, barriers := k.barriers.map (fun _ => Barrier.idle) })
  (s2.groups.filter (fun g => g.task == t.uid)).foldl (fun u g => if g.residency != .ended then u.endGroup g.gid else u.reportCounts g) s2

/-- The groups, keys and footprint of a task are gone with its die. -/
def State.dropTask (s : State) (t : Task) : State :=
  let s1 := s.dropWork t.uid
  ({ s1 with groups := s1.groups.filter (fun g => g.task != t.uid) }).freeKeys t.uid

/-- The die that a record of a fenced die is offered to next: the first eligible one after it, wrapping (R300); 5 for none. -/
def State.nextDie (s : State) (t : Task) (die : Nat) : Nat := (firstFrom (s.eligible t.vi (t.cont.shape.getLsbD 8)) (die + 1)).getD 5

/-- A placed kind 1 or spawned task goes back to QUEUED, on another die; reservations remain (R300). -/
def State.requeue (s : State) (t : Task) (die : Nat) : State :=
  let s1 := (s.dropTask t).modTask t.uid (fun k =>
    { k with state := .queued, cores := [], stashBase := [], tiles := [], acc := [], accPoison := [], teamSaved := false, tstat := [], tileErr := []
             killing := false, late := 0, die := s.nextDie t die })
  match t.entry with
  | some a => s1.entryState t.vi a 1
  | none => s1

/-- Does the launch that a task runs under, or its record names, set noreissue (R301)? -/
def Task.noreissue (t : Task) : Bool := (t.launch.map Launch.noreissue).getD false

/-- What a fence does to one task that was on the fenced die, or waited for it (R28, R300, R301). A team that has not
been placed goes with its range. DESIGN CHOICE (log 74): a record that only waits, QUEUED or HELD, stays so and is offered to the next
eligible die, as a placed one is. -/
def State.fenceTask (s : State) (die : Nat) (t : Task) : State :=
  if t.ended || t.endSteps != 0 then s
  else match t.state with
    | .placed =>
      if t.noreissue then s.killFenced t
      else if t.team then (s.dropTask t).modTask t.uid (fun k => { k with state := .discarded, ended := true })
      else s.requeue t die
    | .queued | .held =>
      if t.team then
        let s1 := (s.releaseKeys t.uid).modTask t.uid (fun k => { k with state := .discarded, ended := true })
        if t.noreissue then s1.modGrid t.grid (fun g => { g with notDone := g.notDone + 1 }) else s1
      else s.modTask t.uid (fun k => { k with die := s.nextDie t die })
    | _ => s

/-- What a fence does to a grid's ranges (R300, R301): dealt whole again, or given up when noreissue is set or no die is left, where
the teams that the fence discarded count as not DONE. -/
def State.fenceGrid (s : State) (die : Nat) (g : Grid) : State :=
  match g.launch with
  | none => s
  | some l =>
    let held (r : Range) : Bool := r.die == die && r.stage != 2
    if g.ended || !g.ranges.any held then s
    else
      let dies := s.eligible g.vi l.paired
      if l.noreissue || dies.isEmpty then
        let gone := if l.noreissue then 0
          else (s.tasks.filter (fun t => t.grid == g.gridId && t.team && t.die == die && t.state == .discarded)).length
        let rest := (g.ranges.filter held).foldl (fun n r => n + (r.start + r.count - r.next)) gone
        let status := if l.noreissue then 7 else 6
        s.modGrid g.gridId (fun k => { k with
          ranges := k.ranges.map (fun r => if held r then { r with next := r.start + r.count } else r)
          status := max k.status status, notDone := k.notDone + rest })
      else
        let step (acc : List Range × Nat) (r : Range) : List Range × Nat :=
          if held r then (acc.1 ++ [{ r with next := r.start, stage := 0, die := dies.getD (acc.2 % dies.length) 0 }], acc.2 + 1) else (acc.1 ++ [r], acc.2)
        s.modGrid g.gridId (fun k => { k with ranges := (k.ranges.foldl step ([], 0)).1, reissued := true })

/-- The key tables over the survivors (R292, R300): every holder and reservation moves to its key's new home; held keys that meet
in one entry stay held, and nothing is granted there before all are free. DESIGN CHOICE (log 64): a key that has no home by then is
dropped from the tables, its holder running on. -/
def State.rebuildKeys (s : State) : State :=
  { s with keys := s.keys.filterMap (fun e => (s.keyHome e.vi e.key).map (fun h => { e with die := h.1, index := h.2 })) }

/-- The registrations that a fence ends (R323): words homed elsewhere that agents of the die held come back HOME, poisoned. Of words
homed there only those of live stashes stay, whose write-back is lost and counted (R274). -/
def Mem.fence (m : Mem) (die : Nat) : Mem :=
  let gone (r : Reg) : Bool := agentDie r.owner == die || (r.pa / 2 ^ 37 == die && r.owner.kind != .stash)
  let bad := (m.regs.filter (fun r => gone r && r.pa / 2 ^ 37 != die)).map (fun r => r.pa)
  { m with
    regs := m.regs.filter (fun r => !gone r)
    poison := m.poison.filter (fun p => !bad.contains p) ++ bad
    copies := m.copies.filter (fun c => dieOf c.core != die)
    revokes := m.revokes.filter (fun v => agentDie v.owner != die && v.pa / 2 ^ 37 != die)
    icache := m.icache.filter (fun c => dieOf c.core != die)
    lines := m.lines.filter (fun l => dieOf l.core != die)
    tlb := m.tlb.filter (fun e => e.die != die)
    repls := m.repls.filter (fun r => r.pa / 2 ^ 37 != die && agentDie r.agent != die) }

/-- Requests of live agents that waited for an owner on the fenced die are served: the word is HOME again (R277, R323). -/
def State.serveFenced (s : State) (old : List Revoke) (die : Nat) : State :=
  let due (v : Revoke) : Bool := agentDie v.owner == die && v.pa / 2 ^ 37 != die && v.req.any (fun q => agentDie q.1 != die)
  (old.filter due).foldl State.serve s

/-- What a fence keeps from being delivered is lost, and counted (R272, R274): updates of replicas that leave or reach the die, and what
the tasks that end there had under way. -/
def State.fenceLosses (s : State) (die : Nat) : State :=
  let s1 := (s.mem.repls.filter (fun r => r.pa / 2 ^ 37 == die || agentDie r.agent == die)).foldl State.replLost s
  (s1.tasks.filter (fun t => t.die == die && t.state == .placed && t.endSteps == 0 && t.noreissue)).foldl (fun u t => u.loseWrites t.uid) s1

/-- The effects of a fence, all at once (R323). -/
def State.fenceDie (s0 : State) (die : Nat) : State :=
  if s0.fenced die || decide (4 ≤ die) then s0
  else
    let s := s0.fenceLosses die
    let s1 : State := { s with
      dies := modWhere s.dies (fun d => d.num == die) (fun d => { d with fenced := true })
      mem := s.mem.fence die
      reservedCores := s.reservedCores.filter (fun r => dieOf r.2 != die) }
    let s2 := (s1.tasks.filter (fun t => t.die == die)).foldl (fun u t => u.fenceTask die t) (s1.serveFenced s.mem.revokes die)
    let s3 := (s2.grids.foldl (fun u g => u.fenceGrid die g) s2).rebuildKeys
    s3.grids.foldl (fun u g => u.gridSettle g.gridId) s3

/-- The working links of a die (R322). -/
def State.workingLinks (s : State) (d : Nat) : Nat :=
  bit (s.ringUp d ((d + 1) % 4)) + bit (s.ringUp d ((d + 3) % 4)) + bit ((s.dies.find? (fun x => x.num == d)).any (fun x => x.iodLink))

/-- Is a die to be fenced for its links (R322)? -/
def State.fenceDue (s : State) (die : Nat) : Bool :=
  s.liveDies.contains die && (!((s.dies.find? (fun x => x.num == die)).any (fun x => x.iodLink))
    || s.liveDies.any (fun e => e != die && !s.ringPath die e
      && (decide (s.workingLinks die < s.workingLinks e) || (s.workingLinks die == s.workingLinks e && decide (e < die)))))

/-- DIE_FENCE (R322, R323). -/
def execDieFence (die : Nat) (s : State) : Host.Outcome State Fault Refusal := .next (if s.fenceDue die then s.fenceDie die else s)

/-- UCIE_LINK_DEAD (R18, R354): die 4 is the IOD. -/
def State.linkDead (s : State) (a b : Nat) : State :=
  if decide (a < 4) && b == 4 then { s with dies := modWhere s.dies (fun d => d.num == a) (fun d => { d with iodLink := false }) }
  else if decide (b < 4) && a == 4 then { s with dies := modWhere s.dies (fun d => d.num == b) (fun d => { d with iodLink := false }) }
  else if decide (a < 4) && decide (b < 4) && ((a + 1) % 4 == b || (b + 1) % 4 == a) then
    { s with fabric := { s.fabric with deadLinks := s.fabric.deadLinks.filter (· != (min a b, max a b)) ++ [(min a b, max a b)] } }
  else s

/-- UCIE_LINK_DEAD (R354). -/
def execUcieLinkDead (a b : Nat) (s : State) : Host.Outcome State Fault Refusal := .next (s.linkDead a b)

/-! ### The fabric (R354 to R356) -/

/-- BERMOIST_PORT_DEAD (R356): messages take the next live port of their masks from now on. -/
def execBermoistPortDead (port : Nat) (s : State) : Host.Outcome State Fault Refusal :=
  .next { s with fabric := { s.fabric with deadPorts := s.fabric.deadPorts ||| BitVec.ofNat 16 (if port < 16 then 2 ^ port else 0) } }

/-- REMOTE_CHIP_UNREACHABLE (R354, R274): the stores posted to it are lost and counted. -/
def State.chipDead (s : State) (chip : Nat) : State :=
  let s1 : State := { s with fabric := { s.fabric with deadChips := s.fabric.deadChips.filter (· != chip) ++ [chip] } }
  s1.deliverWhere (fun p => chipOf p.va == chip)

/-- REMOTE_CHIP_UNREACHABLE (R354). -/
def execRemoteChipUnreachable (chip : Nat) (s : State) : Host.Outcome State Fault Refusal := .next (s.chipDead chip)

/-- The first 240 bytes of a flit (R355). -/
def Flit.body (f : Flit) : List Byte :=
  let h := f.dst.toNat + 2 ^ 16 * f.src.toNat + 2 ^ 32 * f.cls.toNat + 2 ^ 36 * f.vc.toNat + 2 ^ 48 * f.seqNo.toNat
  leBytes 16 h ++ (f.payload ++ List.replicate 224 0).take 224

/-- Messages packed in a payload, each behind a 4-byte length (R355); none where the bytes are not such a sequence. -/
def unpackMsgs : Nat → List Byte → Option (List (List Byte))
  | 0, bs => if bs.all (· == 0) then some [] else none
  | k + 1, bs =>
    let n := field bs 0 4
    if bs.all (· == 0) then some []
    else if n = 0 ∨ bs.length < 4 + n then none
    else (unpackMsgs k (bs.drop (4 + n))).map (fun l => (bs.drop 4).take n :: l)

/-- The messages of a flit (R355). DESIGN CHOICE (log 68): the header does not say which form a payload has; one that reads as a
sequence of messages behind their lengths is taken for several, any other for one. -/
def Flit.messages (f : Flit) : List (List Byte) :=
  match unpackMsgs 56 f.payload with
  | some (m :: l) => m :: l
  | _ => [f.payload]

/-- FABRIC_FLIT_RECEIVE (R355): a flit whose check fails, or that has been delivered, is not taken, and its sender sends again from the
last sequence acknowledged; the messages of a defined class for this chip, on the channel of their class (log 68), are delivered in
order. -/
def State.flit (s : State) (port : Nat) (f : Flit) : State :=
  let seen := s.fabric.recvAny.getLsbD port
  let inOrder := !seen || f.seqNo == s.fabric.recvSeq.get port + 1
  if decide (port < 16) && !s.fabric.deadPorts.getLsbD port && Config.crc64 (Flit.body f) == f.crc && inOrder then
    let mine := f.dst == s.fabric.chip && decide (f.cls.toNat < 6) && f.vc == f.cls
    { s with fabric := { s.fabric with
      recvSeq := s.fabric.recvSeq.set port f.seqNo, recvAny := s.fabric.recvAny ||| BitVec.ofNat 16 (2 ^ port)
      ackSeq := s.fabric.ackSeq.set port f.ack
      inbox := if mine then s.fabric.inbox ++ (Flit.messages f).map (fun m => (f.cls.toNat + 16 * f.src.toNat, m)) else s.fabric.inbox } }
  else s

/-- FABRIC_FLIT_RECEIVE (R355). -/
def execFabricFlitReceive (port : Nat) (f : Flit) (s : State) : Host.Outcome State Fault Refusal := .next (s.flit port f)

/-! ### Retired cores and links (R23, R331) -/

/-- CORE_RETIREMENT (R23, R331). -/
def execCoreRetirement (core : Nat) (s : State) : Host.Outcome State Fault Refusal :=
  .next (if 384 ≤ core ∨ s.retired core then s else { s with fabric := { s.fabric with retiredCores := s.fabric.retiredCores ++ [core] } }.rerouteAll)

/-- MESH_LINK_RETIREMENT (R331): between two neighbours of one mesh. -/
def execMeshLinkRetirement (a b : Nat) (s : State) : Host.Outcome State Fault Refusal :=
  .next (if decide (a < 384) && (List.range 4).any (fun h => meshStep a h == some b) && !s.linkRetired a b
    then { s with fabric := { s.fabric with retiredLinks := s.fabric.retiredLinks ++ [(a, b)] } }.rerouteAll else s)

/-! ### Errors (R317, R318, R321) -/

/-- The partition that holds a service core (R342). -/
def State.partitionOf (s : State) (core : Nat) : Nat := ((List.range 8).find? (fun j => (s.partitionCores j).contains core)).getD 0

/-- Terminate a service partition (R321): every virtual interface bound to it is disabled. -/
def State.terminate (s : State) (j : Nat) : State :=
  if j = 0 then s else (s.vis.filter (fun v => v.partition == j && v.enabled)).foldl (fun u v => u.disableVi v.num) s

/-- An uncorrectable error that ends the work of a service core (R321): cores 28 to 31 restart the scheduling processor's
firmware, any other core's partition is terminated, once the firmware runs. -/
def State.errCore (s : State) (core : Nat) : State :=
  if isFirmware core then { s with host := { s.host with restarting := true } }
  else if s.host.restarting then { s with host := { s.host with consumed := s.host.consumed ++ [core] } }
  else s.terminate (s.partitionOf core)

/-- Mark a word of memory as poisoned (R318). -/
def State.poisonWord (s : State) (pa : Nat) : State :=
  { s with mem := { s.mem with poison := s.mem.poison.filter (· != wordOf pa) ++ [wordOf pa] } }

/-- A key is listed once. -/
def note (l : List Nat) (k : Nat) : List Nat := l.filter (· != k) ++ [k]

/-- An error in a stash word (R317): a word registered to the stash is poisoned wherever it goes. -/
def State.stashError (s : State) (core addr : Nat) : State :=
  let off := alignDown addr 4
  let far : Option Nat := (s.mem.mappedAt core off).bind (fun e =>
    let pw := e.1.pa + off % 128
    if (s.mem.reg? pw).any (fun r => r.owner == ⟨.stash, core⟩) then some pw else none)
  match far with
  | some pw => s.poisonWord pw
  | none => { s with mem := { s.mem with stashPoison := note s.mem.stashPoison (stashKey core off) } }

/-- An error in an L1's word (R317): poisoned when registered, dropped when clean. -/
def State.l1Error (s : State) (ag : Agent) (core pa : Nat) : State :=
  if (s.mem.reg? (wordOf pa)).any (fun r => r.owner == ag) then s.poisonWord pa else { s with mem := s.mem.dropCopy core (wordOf pa) }

/-- An error in an L2 line's registration state (R317): its words are poisoned at the home, registrations end unwritten. -/
def State.regError (s : State) (pa : Nat) : State :=
  let line := alignDown pa 128
  let s1 := { s with mem := { s.mem with regs := s.mem.regs.filter (fun r => alignDown r.pa 128 != line) } }
  (List.range 32).foldl (fun u i => u.poisonWord (line + 4 * i)) s1

/-- The service core whose own state a site is (R321): none for an instruction cache, whose line is only fetched again (R317). -/
def State.siteCore (s : State) (site : ErrSite) : Option Nat :=
  match site with
  | .vector gid _ _ | .uniform gid _ | .predicate gid _ | .index gid _ _ | .groupControl gid => (s.group? gid).map (fun g => g.core)
  | .serviceL1 core _ => some core
  | _ => none

/-- The effect of an uncorrectable error by structure (R317, R322). -/
def State.strikeAt (s : State) (site : ErrSite) : State :=
  match site with
  | .vector gid lane n => s.modGroup gid (fun g => if lane < g.width ∧ n < g.vregs then { g with poisonV := note g.poisonV (n * 64 + lane) } else g)
  | .uniform gid n => s.modGroup gid (fun g => if n < g.sregs then { g with poisonS := note g.poisonS n } else g)
  | .predicate gid n => s.modGroup gid (fun g => if n < 48 then { g with poisonP := note g.poisonP n } else g)
  | .index gid lane n => s.modGroup gid (fun g => if lane < g.width ∧ n < 8 then { g with poisonX := note g.poisonX (n * 64 + lane) } else g)
  | .groupControl gid => match s.group? gid with
    | some g => if g.here then s.fatal g 12 0 false else s
    | none => s
  | .tileReg task n => s.modTask task (fun t => if n < t.tregs then { t with tileErr := note t.tileErr n } else t)
  | .stashWord core addr => if core < 384 ∧ addr < Config.stashBytes then s.stashError core addr else s
  | .l1Word core pa => if core < 384 then s.l1Error (l1Of core) core pa else s
  | .icacheLine core => { s with mem := { s.mem with icache := s.mem.icache.filter (fun c => c.core != core) } }
  | .l2Word pa | .hbmWord pa => if paOk pa then s.poisonWord pa else s
  | .l2Registration pa => if paOk pa then s.regError pa else s
  | .accValue task idx => s.modTask task (fun t => { t with accPoison := note t.accPoison idx })
  | .serviceL1 core pa =>
    let s1 := s.l1Error (l1Of core) core pa
    if isService core && s.mem.regs.any (fun r => r.owner == l1Of core && alignDown r.pa 128 == alignDown pa 128) then s1.errCore core else s1
  | .privilegedUse core =>
    if s.host.consumed.contains core ∧ !s.host.restarting then
      State.errCore { s with host := { s.host with consumed := s.host.consumed.filter (· != core) } } core
    else s
  | .firmwareCore core => if isFirmware core then s.errCore core else s
  | .keyTable die | .prismQueue die | .spillTable die => s.fenceDie die

/-- The effect of an uncorrectable error: any error on cores 28 to 31 restarts the scheduling processor's firmware (R321). -/
def State.strike (s : State) (site : ErrSite) : State :=
  let t := s.strikeAt site
  if (s.siteCore site).any isFirmware then { t with host := { t.host with restarting := true } } else t

/-- The die that counts an error; 4 counts nothing (R351). An instruction cache reports none, and a use is no new error. -/
def State.errDie (s : State) (site : ErrSite) : Nat :=
  let ofGroup (gid : Nat) : Nat := match s.group? gid with | some g => dieOf g.core | none => 4
  match site with
  | .vector gid _ _ | .uniform gid _ | .predicate gid _ | .index gid _ _ | .groupControl gid => ofGroup gid
  | .tileReg t _ | .accValue t _ => match s.task? t with | some k => dieOf (k.cores.headD 384) | none => 4
  | .stashWord c _ | .l1Word c _ => dieOf c
  | .l2Word pa | .l2Registration pa | .hbmWord pa => pa / 2 ^ 37
  | .keyTable d | .prismQueue d | .spillTable d => d
  | .icacheLine _ | .serviceL1 _ _ | .privilegedUse _ | .firmwareCore _ => 4

/-- UNCORRECTABLE_ERROR (R317, R351). -/
def State.uncorrectable (s : State) (site : ErrSite) : State :=
  (s.strike site).modDie (s.errDie site) (fun d => { d with eunc := d.eunc + 1 })

/-- UNCORRECTABLE_ERROR (R317). -/
def execUncorrectableError (site : ErrSite) (s : State) : Host.Outcome State Fault Refusal := .next (s.uncorrectable site)

/-- CORRECTED_ERROR (R317): it is only counted. -/
def execCorrectedError (die : Nat) (s : State) : Host.Outcome State Fault Refusal := .next (s.modDie die (fun d => { d with ecorr := d.ecorr + 1 }))

/-- FIRMWARE_RESTART_COMPLETE (R321): submissions are taken again, and partitions whose errors waited are terminated. -/
def State.restarted (s : State) : State :=
  let s1 : State := { s with host := { s.host with restarting := false, consumed := [] } }
  s.host.consumed.foldl (fun u c => u.errCore c) s1

/-- FIRMWARE_RESTART_COMPLETE (R321). -/
def execFirmwareRestartComplete (s : State) : Host.Outcome State Fault Refusal := .next (if s.host.restarting then s.restarted else s)

end Sys2Proof.Machine
end

