-- ==== Sys2Proof/Machine/HostEvents.lean ====
section
/-! DEFINITION. The host's side: BAR2, user-level interrupts, the management window and its descriptors, configuration records, die
registers and telemetry (R280, R338 to R342, R344, R345, R351 to R353). -/
namespace Sys2Proof.Machine

/-! ### BAR2, function-level reset, interrupts -/

/-- The CXL.cache bridge's updates of replicas are performed (R272). -/
def State.flushBridge (s : State) : State := s.flushRepls (fun q => q.agent == ⟨.bridge, 0⟩)

/-- The CXL.cache bridge's writes to the memory of a virtual interface are released at .sys (R338): they lie in its frames; its updates
of replicas are performed (R272). -/
def State.releaseBridge (s0 : State) (vi : Nat) : State :=
  let s := s0.flushBridge
  { s with mem := { s.mem with regs := s.mem.regs.map (fun r =>
      if r.owner == ⟨.bridge, 0⟩ && s.ownerOf r.pa == vi + 1 then r.release ⟨⟨.bridge, 0⟩, .sys, false⟩ else r) } }

/-- HOST_BAR2_READ (R338): the bytes, or an abort where they cannot be read (log 25). -/
def State.bar2Read (s : State) (n off len : Nat) : State :=
  let s1 := s.releaseBridge n
  match (if off + len ≤ 2 ^ 36 then s1.deviceRead n off len else none) with
  | some bs => s1.answer (.readData bs)
  | none => s1.answer .abort

/-- HOST_BAR2_READ (R338). -/
def execHostBar2Read (n off len : Nat) (s : State) : Host.Outcome State Fault Refusal := .next (s.bar2Read n off len)

/-- HOST_BAR2_WRITE (R338): the words are registered to the bridge; a write that does not translate is dropped (log 25). -/
def State.bar2Write (s : State) (n off : Nat) (bs : List Byte) : State :=
  match (if off + bs.length ≤ 2 ^ 36 then s.ranged schedulingCore n .write false off bs.length else .ok []) with
  | .error _ => s
  | .ok ps => ps.foldl (fun u p =>
      let part := (bs.drop (p.1 - off)).take p.2.1
      let u := u.noteHome p.1 p.2.2
      if p.2.2.lost || (p.2.2.remote && u.remoteFails n p.1) then u
      else if p.2.2.remote then u.remoteWrite n p.1 part
      else u.store 0 true ⟨.bridge, 0⟩ p.2.2.repl p.2.2.pa part) s

/-- HOST_BAR2_WRITE (R338). -/
def execHostBar2Write (n off : Nat) (bytes : List Byte) (s : State) : Host.Outcome State Fault Refusal := .next (s.bar2Write n off bytes)

/-- FLR (R339): SETVI.state 0, then state 1; before boot the package stays in reset (R349). -/
def execFlr (n : Nat) (s : State) : Host.Outcome State Fault Refusal := .next (if n < 64 ∧ s.booted = true then (s.disableVi n).enableVi n else s)

/-- An interrupt that is not delivered is counted in its entry (R245, R344). -/
def State.dropInterrupt (s : State) (vi entry : Nat) (e : List Byte) : State :=
  (s.deviceForce vi (entry + 4) (leBytes 4 (satAt (2 ^ 32 - 1) (field e 4 4 + 1)))).1

/-- The 16 bytes of a queue entry (R344). -/
def Interrupt.bytes (i : Interrupt) : List Byte :=
  leBytes 4 i.payload.toNat ++ leBytes 4 i.team ++ leBytes 2 i.core ++ leBytes 1 i.group ++ leBytes 1 (i.vi % 64) ++ leBytes 4 0

/-- Deliver an interrupt (R344) through the table it was posted under (R251): to a host queue, in the host memory of the virtual
interface's own function (DESIGN CHOICE, log 44), with its MSI-X vector, or to a service
group's queue, whose replicas hold the entry before the tail moves (R272). One that the host does not take, or whose entry or tail
cannot be written, is dropped and counted. -/
def State.deliver (s : State) (i : Interrupt) : State :=
  let entry := (i.base.toNat + 32 * (i.target % 256)) % 2 ^ 64
  match s.deviceRead i.vi entry 32 with
  | none => s
  | some e =>
    let kind := field e 0 1 % 4
    let size := field e 0x10 4
    let tail := field e 0x1C 4
    let slot := field e 8 8 + 16 * (tail % size)
    let full := (tail + 2 ^ 32 - field e 0x18 4) % 2 ^ 32 = size
    let advance (u : State) : State × Bool := u.deviceForce i.vi (entry + 0x1C) (leBytes 4 ((tail + 1) % 2 ^ 32))
    let vector := field e 1 1 % 64
    if kind = 0 ∨ kind = 3 ∨ full then s.dropInterrupt i.vi entry e
    else if kind = 1 then
      if !Config.hostTakes i.vi vector (field e 8 8) then s.dropInterrupt i.vi entry e else
      match advance { s with host := { s.host with hostMem := s.host.hostMem.write (hostKey i.vi slot) i.bytes } } with
      | (u, true) => u.answer (.msix i.vi vector)
      | (_, false) => s.dropInterrupt i.vi entry e
    else match s.devicePut i.vi slot i.bytes with
      | (u, true) => (match advance u.flushBridge with
        | (v, true) => v
        | (_, false) => s.dropInterrupt i.vi entry e)
      | (_, false) => s.dropInterrupt i.vi entry e

/-- UINT_DELIVERY (R344): the interrupt posted first. -/
def State.uintDelivery (s : State) : State :=
  match s.host.interrupts with
  | [] => s
  | i :: r => ({ s with host := { s.host with interrupts := r } }).deliver i

/-- UINT_DELIVERY (R344). -/
def execUintDelivery (s : State) : Host.Outcome State Fault Refusal := .next s.uintDelivery

/-! ### The management window (R340, R280) -/

/-- ERROR_BIT_CLEAR (R340); before boot the package stays in reset (R349). -/
def execErrorBitClear (s : State) : Host.Outcome State Fault Refusal :=
  .next <| if !s.booted then s else { s with host := { s.host with error := false, errCause := 0 } }

/-- Is an offset a register of a die block that holds a value and does nothing more: TRBASE and DLBASE (R351)? -/
def dieBase (off : Nat) : Bool :=
  decide (0x1000 ≤ off) && decide (off < 0x1400) && [0x08, 0x0C, 0x28, 0x2C].contains (off % 0x100)

/-- Is an offset a word of a configuration record other than its apply word (R341)? -/
def configWord (off : Nat) : Bool := decide (0x8000 ≤ off) && decide (off < 0xA000) && off % 128 != 0x7C

/-- Is an offset a word of a queue descriptor (R280)? -/
def queueWord (off : Nat) : Bool := decide (0x30000 ≤ off) && decide (off < 0x34000)

/-- Is an offset a word of a submission-page descriptor (R280)? -/
def pageWord (off : Nat) : Bool := decide (0x10000 ≤ off) && decide (off < 0x30000)

/-- Bits of a window word that a read returns as they stand: every reserved bit reads as zero (R4, R280, R340 to R342, R351). -/
def windowMask (o : Nat) : Nat :=
  if o = 0x400 then 0x707
  else if 0x1000 ≤ o ∧ o < 0x1400 then
    (match o % 0x100 with
    | 0x00 => 0x80000FFF
    | 0x04 => 0xFF
    | 0x08 | 0x0C | 0x28 | 0x2C => 0xFFFFFFFF
    | 0x10 | 0x30 => 0x8000011F
    | _ => 0)
  else if 0x7004 ≤ o ∧ o < 0x7020 then 0xFFFFFFF
  else if 0x8000 ≤ o ∧ o < 0xA000 then
    (let r := o % 128
     if r < 0x20 then (if r % 8 = 0 then 0xFFFFFFFF else 0xFFFF)
     else if r = 0x20 then 0x3C01F
     else if r < 0x60 then 0xFFFFFFFF
     else if r = 0x78 then 0xFFF
     else if r = 0x7C then 0xC0000000 else 0)
  else if 0x10000 ≤ o ∧ o < 0x30000 then
    (match o % 32 with | 0x10 => 0x1F | 0x14 => 3 | 0x1C => 0 | _ => 0xFFFFFFFF)
  else if queueWord o then (match o % 16 with | 0x08 => 1 | 0x0C => 0 | _ => 0xFFFFFFFF)
  else 0

/-- The window offset of a register of a die block. -/
def dieOff (die reg : Nat) : Nat := 0x1000 + 0x100 * die + reg

/-- Is a die's cap in force: enabled, or in P1 (R350, R351)? -/
def State.capOn (s : State) (die : Nat) : Bool := (s.win (dieOff die 0)).testBit 31 || s.host.power == .p1

/-- Throttle reasons of a die that are in force (R351, R352): power cap, thermal, start tokens waited, P1 requested. -/
def State.reasons (s : State) (d : Die) : Nat :=
  bit (s.capOn d.num && d.throttle.getLsbD 0) + 2 * bit (d.throttle.getLsbD 1) + 4 * bit d.waited + 8 * bit (s.host.requested == .p1)

/-- A die's registers that the device keeps (R351): tails, counts and DSTAT. -/
def State.dieRead (s : State) (d : Die) (reg : Nat) : Nat :=
  match reg with
  | 0x14 => d.trTail.toNat
  | 0x18 => d.ecorr.toNat % 2 ^ 32
  | 0x1C => d.ecorr.toNat / 2 ^ 32
  | 0x20 => d.eunc.toNat % 2 ^ 32
  | 0x24 => d.eunc.toNat / 2 ^ 32
  | 0x34 => d.clock % 2 ^ 15 + 2 ^ 15 * bit d.fenced + 2 ^ 16 * s.reasons d
  | 0x38 => d.dlTail.toNat
  | _ => 0

/-- What a read of a word of the management window returns (R4, R340): boot status, the error word, the registers that the device
keeps, and every other word with its reserved bits zero. -/
def State.windowRead (s : State) (off : Nat) : Nat :=
  let o := alignDown off 4
  if o = 0 then s.host.stage % 256 + 256 * (s.host.failure % 256)
  else if o = 8 then bit s.host.error + 256 * (s.host.errCause % 256)
  else if 0x1000 ≤ o ∧ o < 0x1400 then
    Nat.land (s.win o) (windowMask o) + ((s.dies.find? (fun d => d.num == (o - 0x1000) / 0x100)).map (fun d => s.dieRead d (o % 0x100))).getD 0
  else Nat.land (s.win o) (windowMask o)

/-- REGISTER_WRITE (R340, R280): a word without a behaviour of its own holds what is written. A descriptor's field written
while its page is enabled is left, with cause 4, its read-only word 0x18 among them; the enable bit is set and cleared by its own
events, and so is a configuration record's apply bit. A package that has not booted stays in reset (R349). -/
def State.registerWrite (s : State) (off : Nat) (val : Word) : State :=
  let o := alignDown off 4
  if !s.booted then s
  else if dieBase o || configWord o || queueWord o then s.winSet o val.toNat
  else if decide (0x8000 ≤ o) && decide (o < 0xA000) then s.winSet o (s.win o / 2 ^ 30 * 2 ^ 30 + val.toNat % 2 ^ 30)
  else if pageWord o then
    let on := s.pages.any (fun p => p.enabled && pageOff p.vi p.page == alignDown o 32)
    if on then s.flagError 4
    else if o % 32 = 0x18 then s
    else s.winSet o (if o % 32 = 0x14 then val.toNat - val.toNat % 2 else val.toNat)
  else s

/-- REGISTER_WRITE (R340). -/
def execRegisterWrite (off : Nat) (val : Word) (s : State) : Host.Outcome State Fault Refusal := .next (s.registerWrite off val)

/-- A 64-bit field of the window. -/
def State.win64 (s : State) (off : Nat) : Nat := s.win off + 2 ^ 32 * s.win (off + 4)

/-- SUBMISSION_PAGE_ENABLE (R280): the descriptor is checked, and the page takes submissions or the error bit is set. -/
def State.pageEnable (s : State) (vi page : Nat) : State :=
  let o := pageOff vi page
  let ga := s.win64 o
  let base := s.win64 (o + 8)
  let slots := s.win (o + 0x10)
  let ctl := s.win (o + 0x14)
  let old := s.page? vi page
  let chip := s.fabric.chip.toNat
  if !(decide (vi < 64) && decide (page < 64)) || !s.booted || old.any (fun p => p.enabled) then s
  else
    let fine := decide (page < (s.viOf vi).pages) && ga % 8192 == 0 && (ga == 0 || chipOf ga == chip) && base % 4096 == 0 && chipOf base == chip
      && decide (4 ≤ slots) && decide (slots ≤ 16) && decide (ctl < 4) && s.win (o + 0x1C) == 0
      && !s.pages.any (fun p => p.vi == vi && p.enabled && ga != 0 && p.groupAddr == ga)
    if fine then
      let p : SubPage := { vi := vi, page := page, groupAddr := ga, base := base, slots := slots, privileged := ctl / 2 % 2 == 1
                           enabled := true, next := 0, drops := (old.map (fun q => q.drops)).getD 0 }
      (({ s with pages := upsert s.pages (fun q => q.vi == vi && q.page == page) p }).winSet (o + 0x14) (ctl - ctl % 2 + 1)).winSet (o + 0x18) 0
    else (s.winSet (o + 0x14) (ctl - ctl % 2)).flagError 4

/-- SUBMISSION_PAGE_ENABLE (R280). -/
def execSubmissionPageEnable (vi page : Nat) (s : State) : Host.Outcome State Fault Refusal := .next (s.pageEnable vi page)

/-- SUBMISSION_PAGE_DISABLE (R280): records already accepted still complete. -/
def State.pageDisable (s : State) (vi page : Nat) : State :=
  let o := pageOff vi page + 0x14
  if (s.page? vi page).any (fun p => p.enabled) then
    ({ s with pages := modWhere s.pages (fun q => q.vi == vi && q.page == page) (fun q => { q with enabled := false }) }).winSet o
      (s.win o - s.win o % 2)
  else s

/-- SUBMISSION_PAGE_DISABLE (R280). -/
def execSubmissionPageDisable (vi page : Nat) (s : State) : Host.Outcome State Fault Refusal := .next (s.pageDisable vi page)

/-- SERVICE_PARTITION_MASK_WRITE (R342): a mask that overlaps another is left, with cause 2. -/
def State.maskWrite (s : State) (j : Nat) (mask : Word) : State :=
  let m := mask.toNat % 2 ^ 28
  if j = 0 ∨ 8 ≤ j ∨ !s.booted then s
  else if (List.range 8).any (fun k => k != 0 && k != j && Nat.land (s.win (0x7000 + 4 * k)) m != 0) then s.flagError 2
  else s.winSet (0x7000 + 4 * j) m

/-- SERVICE_PARTITION_MASK_WRITE (R342). -/
def execServicePartitionMaskWrite (j : Nat) (mask : Word) (s : State) : Host.Outcome State Fault Refusal := .next (s.maskWrite j mask)

/-! ### Configuration records (R341) -/

/-- The window offset of a virtual interface's configuration record. -/
def configOff (n : Nat) : Nat := 0x8000 + 128 * n

/-- A virtual interface as its configuration record gives it (R341). -/
def State.configured (s : State) (n : Nat) : VI :=
  let o := configOff n
  let w := s.win (o + 0x20)
  { s.viOf n with
    pairs := (List.range 4).map (fun d => BitVec.ofNat 64 (s.win64 (o + 8 * d) % 2 ^ 48))
    queues := fld w 0 5, partition := fld w 14 3, timeShared := fld w 17 1 == 1, slice := s.win (o + 0x24), keyShare := s.win (o + 0x28)
    pages := s.win (o + 0x2C), poolSize := s.win64 (o + 0x30), poolBase := s.win64 (o + 0x58)
    ownerKey := BitVec.ofNat 256 ((List.range 8).foldl (fun k i => k + s.win (o + 0x38 + 4 * i) * 2 ^ (32 * i)) 0)
    keyBase := fld (s.win (o + 0x78)) 0 12 }

/-- Is a reserved field of a configuration record set (R341)? -/
def State.configReserved (s : State) (n : Nat) : Bool :=
  let o := configOff n
  let w := s.win (o + 0x20)
  (List.range 4).any (fun d => decide (2 ^ 48 ≤ s.win64 (o + 8 * d))) || fld w 5 9 != 0 || fld w 18 14 != 0
    || (List.range 6).any (fun i => s.win (o + 0x60 + 4 * i) != 0) || fld (s.win (o + 0x78)) 12 20 != 0 || s.win (o + 0x7C) % 2 ^ 30 != 0

/-- Does a record clash with another virtual interface's pairs or key-table run (R341)? -/
def VI.clash (v u : VI) : Bool :=
  let pairs := (List.range 4).any (fun d => (v.pairs.getD d 0 &&& u.pairs.getD d 0) != 0) && !(v.timeShared && u.timeShared)
  pairs || (v.keyShare != 0 && u.keyShare != 0 && decide (v.keyBase < u.keyBase + u.keyShare) && decide (u.keyBase < v.keyBase + v.keyShare))

/-- Is a configuration record rejected (R341)? -/
def State.configBad (s : State) (n : Nat) : Bool :=
  let v := s.configured n
  s.configReserved n || v.poolBase % 4096 != 0 || decide (4096 < v.keyBase + v.keyShare) || s.vis.any (fun u => u.num != n && v.clash u)

/-- Apply a configuration record whole (R280, R341): its queues are linked, and the virtual interface is started. -/
def State.configPut (s : State) (n : Nat) : State :=
  let s1 := (s.setVi { s.configured n with pendingConfig := false, enabled := true }).linkQueues n
  s1.winSet (configOff n + 0x7C) 0

/-- A configuration record is rejected (R341): nothing changes but its error and apply bits and the window's error bit. -/
def State.configReject (s : State) (n : Nat) : State :=
  ((s.winSet (configOff n + 0x7C) (2 ^ 30)).setVi { s.viOf n with pendingConfig := false }).flagError 1

/-- A configuration record's apply bit stands; its reserved bits stay as they are until the record is checked (R341). -/
def State.configWait (s : State) (n : Nat) : State :=
  (s.winSet (configOff n + 0x7C) (2 ^ 31 + s.win (configOff n + 0x7C) % 2 ^ 30)).setVi { s.viOf n with pendingConfig := true }

/-- CONFIG_RECORD_APPLY (R341): the record is checked, and applied at once when the virtual interface is disabled. While the
firmware restarts the bit stands (R321); before boot nothing is taken (R349). -/
def State.configApply (s : State) (n : Nat) : State :=
  if decide (64 ≤ n) || !s.booted then s
  else if s.host.restarting then s.configWait n
  else if s.configBad n then s.configReject n
  else if (s.viOf n).enabled then s.configWait n
  else s.configPut n

/-- CONFIG_RECORD_APPLY (R341). -/
def execConfigRecordApply (n : Nat) (s : State) : Host.Outcome State Fault Refusal := .next (s.configApply n)

/-- A quiesce of a virtual interface's tasks (R341): it has none, placed or waiting, and no grid or command. -/
def State.viQuiet (s : State) (n : Nat) : Bool :=
  s.tasks.all (fun t => t.vi != n || t.ended) && s.grids.all (fun g => g.vi != n || g.ended) && s.dues.all (fun d => d.vi != n)

/-- CONFIG_RECORD_QUIESCE_APPLY (R341): the record is checked as it stands now, so that what is applied has been checked. -/
def State.configQuiesce (s : State) (n : Nat) : State :=
  if (s.viOf n).pendingConfig && (s.viQuiet n || !(s.viOf n).enabled) && !s.host.restarting then
    (if s.configBad n then s.configReject n else s.configPut n)
  else s

/-- CONFIG_RECORD_QUIESCE_APPLY (R341). -/
def execConfigRecordQuiesceApply (n : Nat) (s : State) : Host.Outcome State Fault Refusal := .next (s.configQuiesce n)

/-! ### Die registers and telemetry (R351 to R353) -/

/-- PCAP_WRITE (R351): a cap out of range is left, with cause 3; before boot the package stays in reset (R349). -/
def execPcapWrite (die : Nat) (val : Word) (s : State) : Host.Outcome State Fault Refusal :=
  .next (if 4 ≤ die ∨ s.booted = false then s
    else if fld val.toNat 0 12 < 100 ∨ 1200 < fld val.toNat 0 12 then s.flagError 3
    else s.winSet (dieOff die 0) (fld val.toNat 0 12 + 2 ^ 31 * fld val.toNat 31 1))

/-- DIDT_WRITE (R351): the credit is kept, and the limit applies from the next reference tick; not before boot (R349). -/
def execDidtWrite (die : Nat) (val : Word) (s : State) : Host.Outcome State Fault Refusal :=
  .next (if 4 ≤ die ∨ s.booted = false then s
    else if fld val.toNat 0 8 < 5 ∨ 200 < fld val.toNat 0 8 then s.flagError 3
    else s.winSet (dieOff die 4) (fld val.toNat 0 8))

/-- The defined fields of TRCTL and DLCTL (R351). -/
def ringCtl (val : Word) : Nat := fld val.toNat 0 5 + 2 ^ 8 * fld val.toNat 8 1 + 2 ^ 31 * fld val.toNat 31 1

/-- TRCTL_WRITE (R351, R352): the sequence counts up from 0 after enable; not before boot (R349). -/
def execTrctlWrite (die : Nat) (val : Word) (s : State) : Host.Outcome State Fault Refusal :=
  let on := !(s.win (dieOff die 0x10)).testBit 31 && val.getLsbD 31
  .next (if 4 ≤ die ∨ s.booted = false then s
    else (s.winSet (dieOff die 0x10) (ringCtl val)).modDie die (fun d => if on then { d with trSeq := 0 } else d))

/-- DLCTL_WRITE (R351, R353); not before boot (R349). -/
def execDlctlWrite (die : Nat) (val : Word) (s : State) : Host.Outcome State Fault Refusal :=
  let on := !(s.win (dieOff die 0x30)).testBit 31 && val.getLsbD 31
  .next (if 4 ≤ die ∨ s.booted = false then s
    else (s.winSet (dieOff die 0x30) (ringCtl val)).modDie die (fun d => if on then { d with dlSeq := 0 } else d))

/-- ERROR_COUNT_CLEAR (R351); not before boot (R349). -/
def execErrorCountClear (die : Nat) (unc : Bool) (s : State) : Host.Outcome State Fault Refusal :=
  .next (if !s.booted then s else s.modDie die (fun d => if unc then { d with eunc := 0 } else { d with ecorr := 0 }))

/-- The power-cap throttle of one telemetry interval (R351): `power` is the die's 10 ms average in watts. -/
def Die.cap (d : Die) (cap power : Nat) : Die :=
  if cap < power then { d with clock := max 1000 (d.clock - 100), throttle := d.throttle ||| 1 }
  else if power * 100 < cap * 95 then
    let c := min 4000 (d.clock + 100)
    { d with clock := c, throttle := if c = 4000 then d.throttle &&& ~~~1 else d.throttle }
  else d

/-- The bytes of a telemetry record (R352); quantities that the die measures are free values (log 22). -/
def State.telemetryBytes (s : State) (d : Die) : List Byte :=
  let q (k n : Nat) : List Byte := leBytes n (Config.measured s.fresh d.num k).toNat
  leBytes 8 s.tick.toNat ++ q 0 4 ++ q 1 2 ++ q 2 2 ++ q 3 2 ++ leBytes 1 d.num ++ leBytes 1 (s.reasons d) ++ leBytes 2 d.clock
    ++ leBytes 2 0 ++ leBytes 4 d.trSeq.toNat ++ leBytes 4 (2 ^ 31)

/-- TELEMETRY_RECORD (R351, R352): every 100,000 ticks, once, the cap is compared while it is in force, and an enabled die writes its
record. -/
def State.telemetry (s : State) (die : Nat) : State :=
  match s.dies.find? (fun d => d.num == die) with
  | none => s
  | some d0 =>
    if s.tick = 0 ∨ s.tick.toNat % 100000 ≠ 0 ∨ d0.recordAt = s.tick then s
    else
      let d := if s.capOn die then d0.cap (fld (s.win (dieOff die 0)) 0 12) (Config.measured s.fresh die 4).toNat
        else { d0 with throttle := d0.throttle &&& ~~~1 }
      let ctl := s.win (dieOff die 0x10)
      let on := ctl.testBit 31
      let s1 := if on then s.ringPut (s.win64 (dieOff die 8)) ctl d.trTail.toNat (s.telemetryBytes d) else s
      s1.modDie die (fun _ => { d with recordAt := s.tick, waited := false, throttle := d.throttle &&& ~~~2, trTail := if on then d.trTail + 1 else d.trTail, trSeq := if on then d.trSeq + 1 else d.trSeq })

/-- TELEMETRY_RECORD (R352). -/
def execTelemetryRecord (die : Nat) (s : State) : Host.Outcome State Fault Refusal := .next (s.telemetry die)

/-- THERMAL_THROTTLE (R351): one step of 100 MHz, with the thermal reason. -/
def execThermalThrottle (die : Nat) (s : State) : Host.Outcome State Fault Refusal :=
  .next (s.modDie die (fun d => { d with clock := max 1000 (d.clock - 100), throttle := d.throttle ||| 2 }))

end Sys2Proof.Machine
end

