-- ==== Sys2Proof/Machine/Lifecycle.lean ====
section
/-! DEFINITION. Package reset and boot, lifecycle, power states, attestation and debug (R61, R346 to R350, R356). -/
namespace Sys2Proof.Machine

/-! ### Boot (R349, R356) -/

/-- Does a firmware image verify against the vendor key (R349)? -/
def imageOk (k : Nat) : Bool := Config.signatureOk Config.vendorKey (Config.firmwareImage k).1 (Config.firmwareImage k).2

/-- A measurement register extended with an image (R349). -/
def extendMeasure (m : BitVec 256) (img : List Byte) : BitVec 256 :=
  Config.sha256 (leBytes 32 m.toNat ++ leBytes 32 (Config.sha256 img).toNat)

/-- Verify and measure one image (R349): image k goes into register k (log 10). -/
def HostSide.measure (h : HostSide) (k : Nat) : HostSide :=
  { h with measurements := h.measurements.set k (extendMeasure (h.measurements.getD k 0) (Config.firmwareImage k).1) }

/-- Boot (R340, R349): the fuses are read, then each image is verified, measured and run; the first that fails stops the boot
with its failure code. -/
def HostSide.boot (h : HostSide) (resets : Nat) : HostSide :=
  if !Config.fusesRead resets then { h with stage := 0, failure := 4 }
  else if !imageOk 0 then { h with stage := 0, failure := 1 }
  else if !imageOk 1 then { h.measure 0 with stage := 1, failure := 2 }
  else if !imageOk 2 then { (h.measure 0).measure 1 with stage := 2, failure := 3 }
  else { ((h.measure 0).measure 1).measure 2 with stage := 3, failure := 0 }

/-- What lies outside the device, or in its fuses, across a reset: host memory, what was answered, the lifecycle and the
parts found bad (log 8). -/
def State.wiped (s : State) : State :=
  { State.reset with
    inputs := s.inputs, fresh := s.fresh
    host := { HostSide.reset with
      lifecycle := s.host.lifecycle, keysErased := s.host.keysErased, nonces := s.host.nonces, answers := s.host.answers, hostMem := s.host.hostMem }
    fabric := { Fabric.reset with retiredCores := s.fabric.retiredCores, retiredLinks := s.fabric.retiredLinks } }

/-- The routing table as the platform gives it (R356). -/
def platformRoutes : Store 16 := (List.range 1024).foldl (fun st c => st.set c (Config.platformRoute 0 c)) []

/-- PACKAGE_RESET (R349, R356): everything starts over, and the package boots. -/
def State.packageReset (s : State) : State :=
  let w := s.wiped
  let h := w.host.boot s.fresh
  if h.stage = 0 then { w with host := h }
  else { w with host := h, fabric := { w.fabric with chip := Config.platformChip 0, route := platformRoutes } }

/-- PACKAGE_RESET (R349). -/
def execPackageReset (s : State) : Host.Outcome State Fault Refusal := .next s.packageReset

/-! ### Power states (R347, R350) -/

/-- Codes of power states (R350). -/
def powerCode : Power → Nat
  | .p0 => 0 | .p1 => 1 | .idle => 2 | .retain => 3 | .off => 4

/-- The power register shows the requested and the current state (R350). -/
def State.showPower (s : State) : State := s.winSet 0x400 (powerCode s.host.requested + 256 * powerCode s.host.power)

/-- Sessions that a test names end, and their halted groups resume (R347). -/
def State.endSessions (s : State) (t : Session → Bool) : State :=
  let gone := s.host.sessions.filter t
  let mine (g : Group) : Bool := gone.any (fun e => e.level == 2 || (s.task? g.task).any (fun k => k.vi == e.vi))
  { s with
    host := { s.host with sessions := s.host.sessions.filter (fun e => !t e) }
    groups := s.groups.map (fun g => if g.halted && mine g then { g with halted := false } else g) }

/-- A request that is granted at once (R350); before boot the package stays in reset (R349). -/
def State.powerNow (s : State) (p : Power) : State :=
  if s.host.power = .off ∨ s.booted = false then s else ({ s with host := { s.host with power := p, requested := p } }).showPower

/-- POWER_STATE_P0 (R350). -/
def execPowerStateP0 (s : State) : Host.Outcome State Fault Refusal := .next (s.powerNow .p0)

/-- POWER_STATE_P1 (R350). -/
def execPowerStateP1 (s : State) : Host.Outcome State Fault Refusal := .next (s.powerNow .p1)

/-- A request that waits (R350): the current state keeps its value; not before boot (R349). -/
def State.powerLater (s : State) (p : Power) : State :=
  if s.host.power = .off ∨ s.booted = false then s else ({ s with host := { s.host with requested := p } }).showPower

/-- POWER_STATE_IDLE (R350). -/
def execPowerStateIdle (s : State) : Host.Outcome State Fault Refusal := .next (s.powerLater .idle)

/-- POWER_STATE_RETAIN (R350). -/
def execPowerStateRetain (s : State) : Host.Outcome State Fault Refusal := .next (s.powerLater .retain)

/-- No task is placed and no record is queued (R350). -/
def State.quiet (s : State) : Bool :=
  s.tasks.all (fun t => t.state != .placed && t.state != .queued && t.state != .held) && s.grids.all (fun g => g.ended || (g.dealt && g.ranges.all (fun r => !r.open)))

/-- POWER_STATE_ENTRY (R347, R350): RETAIN ends the sessions of level VI. -/
def State.powerEntry (s : State) : State :=
  if s.quiet && (s.host.requested == .idle || s.host.requested == .retain) && s.host.power != s.host.requested && s.host.power != .off then
    let s1 := ({ s with host := { s.host with power := s.host.requested } }).showPower
    if s.host.requested = .retain then s1.endSessions (fun e => e.level == 1) else s1
  else s

/-- POWER_STATE_ENTRY (R350). -/
def execPowerStateEntry (s : State) : Host.Outcome State Fault Refusal := .next s.powerEntry

/-- POWER_STATE_OFF (R347, R350): all state but the fuses is lost; every session has ended. -/
def execPowerStateOff (s : State) : Host.Outcome State Fault Refusal :=
  let w := s.wiped
  .next { w with host := { w.host with power := .off, requested := .off } }.showPower

/-! ### Lifecycle (R346) -/

/-- A vendor-signed command ends with its 384-byte signature over the bytes before it (log 10). -/
def vendorSigned (c : List Byte) : Bool :=
  decide (384 ≤ c.length) && Config.signatureOk Config.vendorKey (c.take (c.length - 384)) (c.drop (c.length - 384))

/-- Does the controller's firmware run: has its image been verified (R349)? -/
def HostSide.runs (h : HostSide) : Bool := h.stage != 0

/-- LIFECYCLE_DEPLOY (R346), once the controller runs (R349). -/
def execLifecycleDeploy (command : List Byte) (s : State) : Host.Outcome State Fault Refusal :=
  .next (if s.host.runs = true ∧ s.host.lifecycle = .manufacture ∧ vendorSigned command then { s with host := { s.host with lifecycle := .deployed } } else s)

/-- The window without the owner keys of its configuration records (R341, R346). -/
def eraseKeys (w : Store 32) : Store 32 :=
  w.filter (fun c => !(decide (0x8000 ≤ 4 * c.1) && decide (4 * c.1 < 0xA000) && decide (0x38 ≤ 4 * c.1 % 128) && decide (4 * c.1 % 128 < 0x58)))

/-- LIFECYCLE_RETURN (R346): bound to the device id; the identity key and every owner key are erased, once the controller runs (R349). -/
def execLifecycleReturn (command : List Byte) (s : State) : Host.Outcome State Fault Refusal :=
  .next (if s.host.runs = true ∧ s.host.lifecycle = .deployed ∧ vendorSigned command ∧ field command 0 16 = Config.deviceId.toNat then
    { s with host := { s.host with lifecycle := .returned, keysErased := true, window := eraseKeys s.host.window }
             vis := s.vis.map (fun v => { v with ownerKey := 0 }) }
    else s)

/-! ### Attestation (R349) -/

/-- Codes of lifecycle states in a report (log 10). -/
def lifeCode : Lifecycle → Nat
  | .manufacture => 0 | .deployed => 1 | .returned => 2

/-- A measurement report (R349): the registers, the lifecycle state, the debug levels open since boot. -/
def HostSide.report (h : HostSide) : List Byte :=
  h.measurements.flatMap (fun m => leBytes 32 m.toNat) ++ leBytes 1 (lifeCode h.lifecycle) ++ leBytes 1 h.debugSeen.toNat

/-- SPDM's negotiation of algorithms is answered with RSASSA-3072 and SHA-256 where the request offers both (R349; PRESUMED,
log 10: the messages of SPDM 1.2). -/
def spdmAlgorithms (r : List Byte) : List Byte :=
  if (field r 8 4).testBit 2 && (field r 12 4).testBit 0 then
    [0x12, 0x63, 0, 0] ++ leBytes 2 36 ++ [1, 0] ++ leBytes 4 2 ++ leBytes 4 4 ++ leBytes 4 1 ++ leBytes 16 0
  else [0x12, 0x7F, 0x07, 0x00]

/-- SPDM_REQUEST (R349): a request for measurements of version 1.2 is answered with a signed report, one for algorithms with those
of R349; other requests are answered as unsupported (log 10). A controller whose image has failed answers nothing. -/
def State.spdm (s : State) (r : List Byte) : State :=
  if !s.host.runs then s
  else if field r 0 1 = 0x12 ∧ field r 1 1 = 0xE3 then s.answer (.spdm (spdmAlgorithms r))
  else if field r 0 1 = 0x12 ∧ field r 1 1 = 0xE0 ∧ !s.host.keysErased then
    s.answer (.spdm ([0x12, 0x60] ++ s.host.report ++ Config.deviceSign s.host.report))
  else s.answer (.spdm [0x12, 0x7F, 0x07, 0x00])

/-- SPDM_REQUEST (R349). -/
def execSpdmRequest (req : List Byte) (s : State) : Host.Outcome State Fault Refusal := .next (s.spdm req)

/-! ### Debug (R33, R61, R347, R348) -/

/-- NONCE_ISSUE (R348), once the controller runs (R349). -/
def execNonceIssue (s : State) : Host.Outcome State Fault Refusal :=
  let n := Config.nonceOf s.host.nonces
  .next (if !s.host.runs then s else ({ s with host := { s.host with nonce := some n, nonces := s.host.nonces + 1 } }).answer (.nonce n))

/-- May a level be unlocked now (R347)? -/
def State.unlockOk (s : State) (level : Nat) : Bool :=
  if level = 1 then s.host.lifecycle != .returned && (s.host.power == .p0 || s.host.power == .p1 || s.host.power == .idle)
  else level == 2 && s.host.lifecycle != .deployed && s.host.power != .off

/-- Is a debug token good (R348)? -/
def State.tokenOk (s : State) (k : List Byte) : Bool :=
  let level := field k 0 4
  let key := if level = 1 then (s.viOf (field k 4 4)).ownerKey else Config.vendorKey
  k.length == 512 && s.unlockOk level && decide (s.tick.toNat ≤ field k 8 8) && field k 0x10 16 == Config.deviceId.toNat
    && s.host.nonce == some (BitVec.ofNat 256 (field k 0x20 32)) && Config.signatureOk key (k.take 0x80) (k.drop 0x80)

/-- DEBUG_TOKEN_UNLOCK (R348): a session opens and the nonce is spent, or status 3 is given and nothing changes. A controller
that does not run answers nothing (R349). -/
def State.unlock (s : State) (k : List Byte) : State :=
  if !s.host.runs then s
  else if s.tokenOk k then
    let e : Session := { level := field k 0 4, vi := field k 4 4, expiry := BitVec.ofNat 64 (field k 8 8) }
    ({ s with host := { s.host with
      nonce := none, sessions := s.host.sessions ++ [e], debugSeen := s.host.debugSeen ||| BitVec.ofNat 2 e.level } }).answer (.status 0)
  else s.answer (.status 3)

/-- DEBUG_TOKEN_UNLOCK (R348). -/
def execDebugTokenUnlock (token : List Byte) (s : State) : Host.Outcome State Fault Refusal := .next (s.unlock token)

/-- Does an open session reach a virtual interface (R348)? -/
def State.sessionFor (s : State) (vi : Nat) : Bool :=
  s.host.sessions.any (fun e => (e.level == 2 || e.vi == vi) && decide (s.tick.toNat ≤ e.expiry.toNat))

/-- The group of a virtual interface that a session names, with its task. -/
def State.debugGroup (s : State) (vi gid : Nat) : Option (Group × Task) :=
  (s.group? gid).bind (fun g => (s.task? g.task).bind (fun t => if t.vi = vi then some (g, t) else none))

/-- Has a group a register, within its width and its team's footprint (R50, R51)? -/
def Group.hasReg (g : Group) (t : Task) : DebugReg → Bool
  | .vector lane n => decide (lane < g.width) && decide (n < g.vregs)
  | .uniform n => decide (n < g.sregs)
  | .predicate lane n => decide (lane < g.width) && decide (n < 24)
  | .index lane k => decide (lane < g.width) && decide (k < 8)
  | .counter k => decide (k < 6)
  | .tile n => decide (n < t.tregs)
  | .accumulator n row col => decide (n < t.accs) && decide (row < 64) && decide (col < 64)
  | .fsr | .gsr | .repeatLeft => true

/-- The value of a register that a session reads (R50, R52); an accumulator value is that of the group's own core. -/
def Group.regValue (g : Group) (t : Task) : DebugReg → BitVec 128
  | .vector lane n => (g.vget n lane).setWidth 128
  | .uniform n => (g.sget n).setWidth 128
  | .predicate lane n => BitVec.ofNat 128 (bit (g.pget n lane))
  | .index lane k => (g.xget k lane).setWidth 128
  | .counter k => (g.e.get k).setWidth 128
  | .tile n => t.tiles.get n
  | .accumulator n row col => (t.acc.get (accKey (t.coreSel g.core) n row col)).setWidth 128
  | .fsr => g.fsr.setWidth 128
  | .gsr => BitVec.ofNat 128 (bit g.gsrE + 2 * bit g.gsrH)
  | .repeatLeft => g.repLeft.setWidth 128

/-- A session writes a register: the low bits of a value, in the register's width. Only the device writes gsr (R52); the count of a
repeat is read only. -/
def State.writeReg (s : State) (g : Group) (t : Task) (r : DebugReg) (val : BitVec 128) : State :=
  match r with
  | .vector lane n => s.setGroup (g.vset n lane (val.setWidth 32))
  | .uniform n => s.setGroup (g.sset n (val.setWidth 64))
  | .predicate lane n => s.setGroup (g.pset n lane (val.getLsbD 0))
  | .index lane k => s.setGroup (g.xset k lane (val.setWidth 32))
  | .counter k => s.setGroup { g with e := g.e.set k (val.setWidth 6) }
  | .tile n => s.modTask t.uid (fun k => { k with tiles := k.tiles.set n val, tileErr := k.tileErr.filter (· != n) })
  | .accumulator n row col =>
    let key := accKey (t.coreSel g.core) n row col
    s.modTask t.uid (fun k => { k with acc := k.acc.set key (val.setWidth 40), accPoison := k.accPoison.filter (· != key) })
  | .fsr => s.setGroup (g.setFsr (val.toNat % 32))
  | .gsr | .repeatLeft => s

/-- What an open session does (R33, R61, R347): only a halted group's registers are written; nothing writes vpc. A register that the
group does not have is not written, and a read of it gets no value (DESIGN CHOICE, log 79). -/
def State.debug (s : State) (vi : Nat) (op : DebugOp) : State :=
  let on (gid : Nat) (f : Group → Task → State) : State := match s.debugGroup vi gid with | some (g, t) => f g t | none => s
  match op with
  | .halt gid => on gid (fun g _ => s.setGroup { g with halted := true })
  | .resume gid => on gid (fun g _ => s.setGroup { g with halted := false })
  | .writeReg gid r val => on gid (fun g t => if g.halted && g.hasReg t r then s.writeReg g t r val else s)
  | .writeMem va bytes => (s.devicePut vi va.toNat bytes).1
  | .readVpc gid lane => on gid (fun g _ => s.answer (.debugValue ((g.vpc.get lane).setWidth 128)))
  | .readReg gid r => on gid (fun g t => s.answer (if g.hasReg t r then .debugValue (g.regValue t r) else .abort))
  | .readInd gid lane k => on gid (fun g _ => s.answer (.debugName (resolveIdx (g.xget k lane) g.vregs).toOption))
  | .readMem va len => match s.deviceRead vi va.toNat len with
    | some bs => s.answer (.readData bs)
    | none => s.answer .abort

/-- DEBUG_SESSION_ACCESS (R347, R348). -/
def execDebugSessionAccess (vi : Nat) (op : DebugOp) (s : State) : Host.Outcome State Fault Refusal :=
  .next (if s.sessionFor vi then s.debug vi op else s)

end Sys2Proof.Machine
end

