-- ==== Sys2Proof/Machine/Dispatch.lean ====
section
/-! DEFINITION. What each row of the opcode table does: one arm per constructor of Instr. -/
namespace Sys2Proof.Machine

/-- Execute one instruction of the current group, or let one event of the device happen. -/
def exec (i : Instr) (s : State) : Host.Outcome State Fault Refusal :=
  match i with
  | .iadd g d a b => Sys2Proof.Machine.execIadd g d a b s
  | .isub g d a b => Sys2Proof.Machine.execIsub g d a b s
  | .imul g d a b => Sys2Proof.Machine.execImul g d a b s
  | .imulh g sgn d a b => Sys2Proof.Machine.execImulh g sgn d a b s
  | .imad g d a b c => Sys2Proof.Machine.execImad g d a b c s
  | .imin g sgn d a b => Sys2Proof.Machine.execImin g sgn d a b s
  | .imax g sgn d a b => Sys2Proof.Machine.execImax g sgn d a b s
  | .iabs g d a => Sys2Proof.Machine.execIabs g d a s
  | .ineg g d a => Sys2Proof.Machine.execIneg g d a s
  | .iaddSat g sgn d a b => Sys2Proof.Machine.execIaddSat g sgn d a b s
  | .isubSat g sgn d a b => Sys2Proof.Machine.execIsubSat g sgn d a b s
  | .iaddX2 g d a b => Sys2Proof.Machine.execIaddX2 g d a b s
  | .isubX2 g d a b => Sys2Proof.Machine.execIsubX2 g d a b s
  | .iminX2 g sgn d a b => Sys2Proof.Machine.execIminX2 g sgn d a b s
  | .imaxX2 g sgn d a b => Sys2Proof.Machine.execImaxX2 g sgn d a b s
  | .and g d a b => Sys2Proof.Machine.execAnd g d a b s
  | .or g d a b => Sys2Proof.Machine.execOr g d a b s
  | .xor g d a b => Sys2Proof.Machine.execXor g d a b s
  | .not g d a => Sys2Proof.Machine.execNot g d a s
  | .shl g d a b => Sys2Proof.Machine.execShl g d a b s
  | .shr g d a b => Sys2Proof.Machine.execShr g d a b s
  | .sar g d a b => Sys2Proof.Machine.execSar g d a b s
  | .rot g d a b => Sys2Proof.Machine.execRot g d a b s
  | .bfe g sgn d a b => Sys2Proof.Machine.execBfe g sgn d a b s
  | .bfi g d a b c => Sys2Proof.Machine.execBfi g d a b c s
  | .popc g d a => Sys2Proof.Machine.execPopc g d a s
  | .clz g d a => Sys2Proof.Machine.execClz g d a s
  | .brev g d a => Sys2Proof.Machine.execBrev g d a s
  | .sel g d a b c => Sys2Proof.Machine.execSel g d a b c s
  | .mov g d a => Sys2Proof.Machine.execMov g d a s
  | .isetp g sgn bop cmp d a b c => Sys2Proof.Machine.execIsetp g sgn bop cmp d a b c s
  | .lea g sx sh d a b => Sys2Proof.Machine.execLea g sx sh d a b s
  | .iadd64 g d a b => Sys2Proof.Machine.execIadd64 g d a b s
  | .movi g u d imm => Sys2Proof.Machine.execMovi g u d imm s
  | .moviHi g d imm => Sys2Proof.Machine.execMoviHi g d imm s
  | .moviSx g d imm => Sys2Proof.Machine.execMoviSx g d imm s
  | .iaddImm g u d a imm => Sys2Proof.Machine.execIaddImm g u d a imm s
  | .imulImm g u d a imm => Sys2Proof.Machine.execImulImm g u d a imm s
  | .andImm g u d a imm => Sys2Proof.Machine.execAndImm g u d a imm s
  | .orImm g u d a imm => Sys2Proof.Machine.execOrImm g u d a imm s
  | .xorImm g u d a imm => Sys2Proof.Machine.execXorImm g u d a imm s
  | .shlImm g u d a imm => Sys2Proof.Machine.execShlImm g u d a imm s
  | .shrImm g u d a imm => Sys2Proof.Machine.execShrImm g u d a imm s
  | .sarImm g u d a imm => Sys2Proof.Machine.execSarImm g u d a imm s
  | .leaImm g u d a imm => Sys2Proof.Machine.execLeaImm g u d a imm s
  | .fadd g rnd mods d a b => Sys2Proof.Machine.execFadd g rnd mods d a b s
  | .fsub g rnd mods d a b => Sys2Proof.Machine.execFsub g rnd mods d a b s
  | .fmul g rnd mods d a b => Sys2Proof.Machine.execFmul g rnd mods d a b s
  | .ffma g rnd mods d a b c => Sys2Proof.Machine.execFfma g rnd mods d a b c s
  | .fmin g mods d a b => Sys2Proof.Machine.execFmin g mods d a b s
  | .fmax g mods d a b => Sys2Proof.Machine.execFmax g mods d a b s
  | .fclamp g mods d a b c => Sys2Proof.Machine.execFclamp g mods d a b c s
  | .fsetp g bop mods cmp d a b c => Sys2Proof.Machine.execFsetp g bop mods cmp d a b c s
  | .frnd g rnd mods d a => Sys2Proof.Machine.execFrnd g rnd mods d a s
  | .hadd2 g bf mods d a b => Sys2Proof.Machine.execHadd2 g bf mods d a b s
  | .hfma2 g bf mods d a b c => Sys2Proof.Machine.execHfma2 g bf mods d a b c s
  | .fdot4 g e5 mods d a b c => Sys2Proof.Machine.execFdot4 g e5 mods d a b c s
  | .faddImm g u d a imm => Sys2Proof.Machine.execFaddImm g u d a imm s
  | .fmulImm g u d a imm => Sys2Proof.Machine.execFmulImm g u d a imm s
  | .cvt g dst src inK toJ rnd nanovf d a => Sys2Proof.Machine.execCvt g dst src inK toJ rnd nanovf d a s
  | .cvtq g slot d a b c => Sys2Proof.Machine.execCvtq g slot d a b c s
  | .cvtqAuto g slot d a c => Sys2Proof.Machine.execCvtqAuto g slot d a c s
  | .cvtdq g slot d a b c => Sys2Proof.Machine.execCvtdq g slot d a b c s
  | .bscale g slot d a => Sys2Proof.Machine.execBscale g slot d a s
  | .exp2 g mods d a b c => Sys2Proof.Machine.execExp2 g mods d a b c s
  | .lg2 g mods d a => Sys2Proof.Machine.execLg2 g mods d a s
  | .rcp g mods d a => Sys2Proof.Machine.execRcp g mods d a s
  | .rsq g mods d a => Sys2Proof.Machine.execRsq g mods d a s
  | .sqrt g mods d a => Sys2Proof.Machine.execSqrt g mods d a s
  | .perm g d a b c => Sys2Proof.Machine.execPerm g d a b c s
  | .rfal g d a => Sys2Proof.Machine.execRfal g d a s
  | .voteAny g neg d a => Sys2Proof.Machine.execVoteAny g neg d a s
  | .voteAll g neg d a => Sys2Proof.Machine.execVoteAll g neg d a s
  | .voteBallot g neg d a => Sys2Proof.Machine.execVoteBallot g neg d a s
  | .redv g op d a => Sys2Proof.Machine.execRedv g op d a s
  | .scanv g op d a => Sys2Proof.Machine.execScanv g op d a s
  | .scanvExcl g op d a => Sys2Proof.Machine.execScanvExcl g op d a s
  | .pand g negA negB d a b => Sys2Proof.Machine.execPand g negA negB d a b s
  | .por g negA negB d a b => Sys2Proof.Machine.execPor g negA negB d a b s
  | .pxor g negA negB d a b => Sys2Proof.Machine.execPxor g negA negB d a b s
  | .pnot g negA d a => Sys2Proof.Machine.execPnot g negA d a s
  | .pmov g negA d a => Sys2Proof.Machine.execPmov g negA d a s
  | .idxset g f d a => Sys2Proof.Machine.execIdxset g f d a s
  | .idxget g f d a => Sys2Proof.Machine.execIdxget g f d a s
  | .rpt g steps stride count => Sys2Proof.Machine.execRpt g steps stride count s
  | .ld g sz sx l => Sys2Proof.Machine.execLd g sz sx l s
  | .st g sz l => Sys2Proof.Machine.execSt g sz l s
  | .lda g sz sx sc l => Sys2Proof.Machine.execLda g sz sx sc l s
  | .stl g sz sc l => Sys2Proof.Machine.execStl g sz sc l s
  | .pref g l => Sys2Proof.Machine.execPref g l s
  | .prefL2 g l => Sys2Proof.Machine.execPrefL2 g l s
  | .stmap g uc ub ua => Sys2Proof.Machine.execStmap g uc ub ua s
  | .stflush g rel cmp ub ua => Sys2Proof.Machine.execStflush g rel cmp ub ua s
  | .atom g op sc l => Sys2Proof.Machine.execAtom g op sc l s
  | .groupSubmission g l => Sys2Proof.Machine.execGroupSubmission g l s
  | .red g op sc l => Sys2Proof.Machine.execRed g op sc l s
  | .fence g sc ud => Sys2Proof.Machine.execFence g sc ud s
  | .acq g sc mask => Sys2Proof.Machine.execAcq g sc mask s
  | .rel g sc => Sys2Proof.Machine.execRel g sc s
  | .monw g k cmp l => Sys2Proof.Machine.execMonw g k cmp l s
  | .wait g all count d a b c => Sys2Proof.Machine.execWait g all count d a b c s
  | .bar g k d => Sys2Proof.Machine.execBar g k d s
  | .barArrive g k d => Sys2Proof.Machine.execBarArrive g k d s
  | .evtAdd g k d a => Sys2Proof.Machine.execEvtAdd g k d a s
  | .evtSub g k d a => Sys2Proof.Machine.execEvtSub g k d a s
  | .evtSet g k d a => Sys2Proof.Machine.execEvtSet g k d a s
  | .cpy g y => Sys2Proof.Machine.execCpy g y s
  | .cpym g y => Sys2Proof.Machine.execCpym g y s
  | .gath g y => Sys2Proof.Machine.execGath g y s
  | .coll g y => Sys2Proof.Machine.execColl g y s
  | .mapset g sr ta => Sys2Proof.Machine.execMapset g sr ta s
  | .mma g p z tb ta acc => Sys2Proof.Machine.execMma g p z tb ta acc s
  | .mmas g p z lsel v tb ta acc => Sys2Proof.Machine.execMmas g p z lsel v tb ta acc s
  | .mzero g p acc => Sys2Proof.Machine.execMzero g p acc s
  | .accrdF32 g r => Sys2Proof.Machine.execAccrdF32 g r s
  | .accrdPair g r => Sys2Proof.Machine.execAccrdPair g r s
  | .accrdI32 g r => Sys2Proof.Machine.execAccrdI32 g r s
  | .accwrF32 g r => Sys2Proof.Machine.execAccwrF32 g r s
  | .accwrI32 g r => Sys2Proof.Machine.execAccwrI32 g r s
  | .mstat g clr sr acc => Sys2Proof.Machine.execMstat g clr sr acc s
  | .bra g off => Sys2Proof.Machine.execBra g off s
  | .brx g lnk => Sys2Proof.Machine.execBrx g lnk s
  | .call g lnk off => Sys2Proof.Machine.execCall g lnk off s
  | .ret g lnk => Sys2Proof.Machine.execRet g lnk s
  | .exit g => Sys2Proof.Machine.execExit g s
  | .elect g d => Sys2Proof.Machine.execElect g d s
  | .yield g => Sys2Proof.Machine.execYield g s
  | .nop g => Sys2Proof.Machine.execNop g s
  | .getsys g x d => Sys2Proof.Machine.execGetsys g x d s
  | .trap g code => Sys2Proof.Machine.execTrap g code s
  | .rtt g => Sys2Proof.Machine.execRtt g s
  | .spawn g rel ub ua => Sys2Proof.Machine.execSpawn g rel ub ua s
  | .spawnc g rel uc ub ua => Sys2Proof.Machine.execSpawnc g rel uc ub ua s
  | .uint g payload sa => Sys2Proof.Machine.execUint g payload sa s
  | .setseg g seg sb sa => Sys2Proof.Machine.execSetseg g seg sb sa s
  | .setrgn g entry sb sa => Sys2Proof.Machine.execSetrgn g entry sb sa s
  | .tlbinvPage g sb sa => Sys2Proof.Machine.execTlbinvPage g sb sa s
  | .tlbinvVi g sb => Sys2Proof.Machine.execTlbinvVi g sb s
  | .tlbinvAll g => Sys2Proof.Machine.execTlbinvAll g s
  | .icinvRange g sb sa => Sys2Proof.Machine.execIcinvRange g sb sa s
  | .icinvAll g => Sys2Proof.Machine.execIcinvAll g s
  | .setviHandler g sb sa => Sys2Proof.Machine.execSetviHandler g sb sa s
  | .setviSwap g sb sa => Sys2Proof.Machine.execSetviSwap g sb sa s
  | .setviPtroot g sb sa => Sys2Proof.Machine.execSetviPtroot g sb sa s
  | .setviState g sb sa => Sys2Proof.Machine.execSetviState g sb sa s
  | .setviUint g sb sa => Sys2Proof.Machine.execSetviUint g sb sa s
  | .setviKeys g sb sa => Sys2Proof.Machine.execSetviKeys g sb sa s
  | .setviKeybase g sb sa => Sys2Proof.Machine.execSetviKeybase g sb sa s
  | .clauseIssue gid => Sys2Proof.Machine.execClauseIssue gid s
  | .longLatencyResult gid k lanes => Sys2Proof.Machine.execLongLatencyResult gid k lanes s
  | .laneUnpark gid lane => Sys2Proof.Machine.execLaneUnpark gid lane s
  | .waitTimeout gid lane => Sys2Proof.Machine.execWaitTimeout gid lane s
  | .monitorFire gid k => Sys2Proof.Machine.execMonitorFire gid k s
  | .monitorPoll gid k => Sys2Proof.Machine.execMonitorPoll gid k s
  | .swapOut gid => Sys2Proof.Machine.execSwapOut gid s
  | .reinstatement gid => Sys2Proof.Machine.execReinstatement gid s
  | .preemptionRequest task => Sys2Proof.Machine.execPreemptionRequest task s
  | .preemptionSave gid => Sys2Proof.Machine.execPreemptionSave gid s
  | .preemptionOverrun gid => Sys2Proof.Machine.execPreemptionOverrun gid s
  | .preemptionSaveTimeout gid => Sys2Proof.Machine.execPreemptionSaveTimeout gid s
  | .timeSliceExpiry die pair => Sys2Proof.Machine.execTimeSliceExpiry die pair s
  | .engineCommandEnqueue gid => Sys2Proof.Machine.execEngineCommandEnqueue gid s
  | .engineCommandCompletion cmd => Sys2Proof.Machine.execEngineCommandCompletion cmd s
  | .engineFault cmd => Sys2Proof.Machine.execEngineFault cmd s
  | .stashFillComplete core line => Sys2Proof.Machine.execStashFillComplete core line s
  | .stashFillFault core line => Sys2Proof.Machine.execStashFillFault core line s
  | .matrixArrayQueueRoom gid => Sys2Proof.Machine.execMatrixArrayQueueRoom gid s
  | .matrixStartTokenGrant die => Sys2Proof.Machine.execMatrixStartTokenGrant die s
  | .lensLineRead op core line => Sys2Proof.Machine.execLensLineRead op core line s
  | .matrixOperationRetire op => Sys2Proof.Machine.execMatrixOperationRetire op s
  | .referenceTick => Sys2Proof.Machine.execReferenceTick s
  | .dispatchRound die => Sys2Proof.Machine.execDispatchRound die s
  | .taskEnd task => Sys2Proof.Machine.execTaskEnd task s
  | .completionRecordWrite vi page => Sys2Proof.Machine.execCompletionRecordWrite vi page s
  | .hostSubmission vi page rec => Sys2Proof.Machine.execHostSubmission vi page rec s
  | .hostSubmissionRetry vi page rec => Sys2Proof.Machine.execHostSubmissionRetry vi page rec s
  | .groupSubmissionRetry gid => Sys2Proof.Machine.execGroupSubmissionRetry gid s
  | .submitPageWriteDrop vi page => Sys2Proof.Machine.execSubmitPageWriteDrop vi page s
  | .gridRangeDeal grid => Sys2Proof.Machine.execGridRangeDeal grid s
  | .gridRangeExpansion grid range => Sys2Proof.Machine.execGridRangeExpansion grid range s
  | .dieFence die => Sys2Proof.Machine.execDieFence die s
  | .ucieLinkDead a b => Sys2Proof.Machine.execUcieLinkDead a b s
  | .bermoistPortDead port => Sys2Proof.Machine.execBermoistPortDead port s
  | .remoteChipUnreachable chip => Sys2Proof.Machine.execRemoteChipUnreachable chip s
  | .fabricFlitReceive port f => Sys2Proof.Machine.execFabricFlitReceive port f s
  | .registrationRequest ag pa mask val => Sys2Proof.Machine.execRegistrationRequest ag pa mask val s
  | .revocation pa => Sys2Proof.Machine.execRevocation pa s
  | .writtenBack pa => Sys2Proof.Machine.execWrittenBack pa s
  | .notHeld pa => Sys2Proof.Machine.execNotHeld pa s
  | .forward ag pa => Sys2Proof.Machine.execForward ag pa s
  | .writeBack pa => Sys2Proof.Machine.execWriteBack pa s
  | .lineEviction ag pa => Sys2Proof.Machine.execLineEviction ag pa s
  | .registrationSpill pa => Sys2Proof.Machine.execRegistrationSpill pa s
  | .redPerform k => Sys2Proof.Machine.execRedPerform k s
  | .remoteStoreRefusal k => Sys2Proof.Machine.execRemoteStoreRefusal k s
  | .replReplicaUpdate k => Sys2Proof.Machine.execReplReplicaUpdate k s
  | .homeMove vi va die frame => Sys2Proof.Machine.execHomeMove vi va die frame s
  | .tableWalk walker va acc => Sys2Proof.Machine.execTableWalk walker va acc s
  | .uncorrectableError site => Sys2Proof.Machine.execUncorrectableError site s
  | .correctedError die => Sys2Proof.Machine.execCorrectedError die s
  | .uintDelivery => Sys2Proof.Machine.execUintDelivery s
  | .coreRetirement core => Sys2Proof.Machine.execCoreRetirement core s
  | .routeRewrite grid => Sys2Proof.Machine.execRouteRewrite grid s
  | .packageReset => Sys2Proof.Machine.execPackageReset s
  | .flr n => Sys2Proof.Machine.execFlr n s
  | .hostBar2Read n off len => Sys2Proof.Machine.execHostBar2Read n off len s
  | .hostBar2Write n off bytes => Sys2Proof.Machine.execHostBar2Write n off bytes s
  | .spdmRequest req => Sys2Proof.Machine.execSpdmRequest req s
  | .nonceIssue => Sys2Proof.Machine.execNonceIssue s
  | .debugTokenUnlock token => Sys2Proof.Machine.execDebugTokenUnlock token s
  | .lifecycleDeploy command => Sys2Proof.Machine.execLifecycleDeploy command s
  | .lifecycleReturn command => Sys2Proof.Machine.execLifecycleReturn command s
  | .errorBitClear => Sys2Proof.Machine.execErrorBitClear s
  | .powerStateP0 => Sys2Proof.Machine.execPowerStateP0 s
  | .powerStateP1 => Sys2Proof.Machine.execPowerStateP1 s
  | .powerStateIdle => Sys2Proof.Machine.execPowerStateIdle s
  | .powerStateRetain => Sys2Proof.Machine.execPowerStateRetain s
  | .powerStateOff => Sys2Proof.Machine.execPowerStateOff s
  | .powerStateEntry => Sys2Proof.Machine.execPowerStateEntry s
  | .pcapWrite die val => Sys2Proof.Machine.execPcapWrite die val s
  | .didtWrite die val => Sys2Proof.Machine.execDidtWrite die val s
  | .trctlWrite die val => Sys2Proof.Machine.execTrctlWrite die val s
  | .dlctlWrite die val => Sys2Proof.Machine.execDlctlWrite die val s
  | .errorCountClear die unc => Sys2Proof.Machine.execErrorCountClear die unc s
  | .registerWrite off val => Sys2Proof.Machine.execRegisterWrite off val s
  | .telemetryRecord die => Sys2Proof.Machine.execTelemetryRecord die s
  | .thermalThrottle die => Sys2Proof.Machine.execThermalThrottle die s
  | .servicePartitionMaskWrite j mask => Sys2Proof.Machine.execServicePartitionMaskWrite j mask s
  | .configRecordApply n => Sys2Proof.Machine.execConfigRecordApply n s
  | .configRecordQuiesceApply n => Sys2Proof.Machine.execConfigRecordQuiesceApply n s
  | .submissionPageEnable vi page => Sys2Proof.Machine.execSubmissionPageEnable vi page s
  | .submissionPageDisable vi page => Sys2Proof.Machine.execSubmissionPageDisable vi page s
  | .engineLineWritten part => Sys2Proof.Machine.execEngineLineWritten part s
  | .meshLinkRetirement a b => Sys2Proof.Machine.execMeshLinkRetirement a b s
  | .frameOwnerChange die frame vi => Sys2Proof.Machine.execFrameOwnerChange die frame vi s
  | .debugSessionAccess vi op => Sys2Proof.Machine.execDebugSessionAccess vi op s
  | .firmwareRestartComplete => Sys2Proof.Machine.execFirmwareRestartComplete s

end Sys2Proof.Machine
end

