-- ==== Sys2Proof/Machine/Agenda.lean ====
section
/-! DEFINITION. What happens next: the agenda, the group that goes on with its clause, the device's own events in a fixed
order, and the reference tick when nothing else is left to do (log 2). -/
namespace Sys2Proof.Machine

/-! ### The instruction of a group inside its clause (R104, R175, R177) -/

/-- May a group issue the next instruction of its clause? -/
def Group.canRun (g : Group) : Bool :=
  let free := match g.hold with | .none | .answer | .resubmit _ | .remap _ => true | _ => false
  g.residency == .resident && g.clause.isSome && free && !g.halted

/-- The group whose instruction is next: the current one, while it can go on. -/
def State.runner (s : State) : Option Group :=
  match s.cur.bind s.group? with
  | some g => if g.canRun then some g else s.groups.find? Group.canRun
  | none => s.groups.find? Group.canRun

/-- The word that a group issues: in a repeat, the word of the clause with its fields stepped (R175). -/
def Group.wordNow (g : Group) (w : DWord) : DWord :=
  match g.repLeft.toNat, g.repSteps with
  | _ + 1, some (steps, k) => stepWord w steps (g.repDone.toNat * k)
  | _, _ => w

/-- A trap that a word raises before it is an instruction: beyond the C limit (R105), or illegal (R131). -/
def State.wordTrap (s : State) (w : Nat) (tr : Ctx → Trap) : Host.Outcome State Fault Refusal :=
  match ctxOf s (guardOf w) with
  | some x => .next (x.raise (tr x))
  | none => .fault .noIssuingGroup

/-- The trap of a word that lies beyond the C limit (R105, R306). -/
def beyondTrap (x : Ctx) : Trap := ⟨2, 0, x.c.lanes, BitVec.ofNat 64 (x.c.start + 8 * (x.c.index + 1)), 4, 0, 0⟩

/-- The subcode of a word that does not decode: the lowest that it qualifies for (R131), where WAIT's operand values count too
(R201). -/
def staticSub (w sub : Nat) (x : Ctx) : Nat :=
  match rawOf w with
  | some r => (match r.i with
    | .wait _ _ count _ (.s n) _ c => min sub ((x.waitBad (count.toNat + 1) (.s n) c).getD sub)
    | _ => sub)
  | none => sub

/-- Does a repeat state that software has edited step a field past its last register (R176, R177; log 17)? -/
def Group.stepsPast (g : Group) (w : DWord) : Bool :=
  match g.repLeft.toNat, g.repSteps with
  | _ + 1, some (steps, k) => !stepsFit w steps (g.repDone.toNat * k)
  | _, _ => false

/-- A group issues its next instruction: one that does not decode raises the illegal-instruction trap (R131). The checks of R176 are
made when an RPT is reached, so that of them only the last register is tested for a repeat state that software has edited: where its
RPT is the clause's last word the segment fault of a word beyond the limit follows, and a word that R176 does not let repeat is issued
with its fields stepped (DEDUCED, log 17). -/
def State.issueWord (s : State) (g : Group) (c : Clause) : Host.Outcome State Fault Refusal :=
  match c.words.getD c.index none with
  | none => s.wordTrap (31 * 512) beyondTrap
  | some w => match decodeWord (g.wordNow w).toNat with
    | .ok i => if g.stepsPast w then s.wordTrap (g.wordNow w).toNat (fun x => trapIllegal 3 x.act) else exec i s
    | .error sub => s.wordTrap (g.wordNow w).toNat (fun x => trapIllegal (staticSub (g.wordNow w).toNat sub x) x.act)

/-- Does a group's hold stand for an instruction that has not issued yet, and is tried again? -/
def Hold.notYet (h : Hold) : Bool := match h with | .again | .fill .. | .submit _ | .stmap _ => true | _ => false

/-- Count an instruction issued since the group's pre-emption was asked for (R309), but none that is still to be tried again. -/
def State.countIssue (s : State) (gid : Nat) : State :=
  s.modGroup gid (fun h => if h.hold.notYet then h else { h with preempt := h.preempt.map (· + 1) })

/-- The same for an outcome. -/
def countOut (gid : Nat) (o : Host.Outcome State Fault Refusal) : Host.Outcome State Fault Refusal :=
  match o with
  | .next t => .next (t.countIssue gid)
  | .fault f => .fault f
  | .refused r => .refused r

/-- One instruction of a group inside its clause; a pre-emption is served between the repeats of R177, and overruns at 4,096
instructions (R309). -/
def State.runGroup (s : State) (g : Group) : Host.Outcome State Fault Refusal :=
  match g.clause with
  | none => .next s
  | some c =>
    if g.betweenRepeats.isSome then .next (s.preemptionSave g.gid)
    else if 4096 ≤ g.preempt.getD 0 then .next (s.preemptionOverrun g.gid)
    else countOut g.gid (State.issueWord { s with cur := some g.gid } g c)

/-! ### The device's own events -/

/-- Events of a group that may be ready. -/
def Group.events (g : Group) : List Instr :=
  let held : List Instr := match g.hold with
    | .engine _ _ => [.engineCommandEnqueue g.gid]
    | .array _ => [.matrixArrayQueueRoom g.gid]
    | .submit _ => [.groupSubmissionRetry g.gid]
    | _ => []
  g.outs.map (fun o => .longLatencyResult g.gid o.key (fullMask g.width)) ++ held
    ++ (List.range 4).map (fun k => .monitorFire g.gid k)
    ++ g.parks.flatMap (fun p => [.laneUnpark g.gid p.lane, .waitTimeout g.gid p.lane])
    ++ [.preemptionSave g.gid, .preemptionOverrun g.gid, .preemptionSaveTimeout g.gid, .swapOut g.gid, .reinstatement g.gid]

/-- Events of commands, stash lines, matrix operations and posted writes that may be ready. -/
def State.coreEvents (s : State) : List Instr :=
  s.cmds.flatMap (fun c => ((c.parts.map (fun p => p.1)).eraseDups ++ [16]).map (fun j => .engineLineWritten ⟨c.key, j⟩)
      ++ [.engineCommandCompletion c.key, .engineFault c.key])
    ++ (s.mem.lines.filter (fun l => l.filling)).flatMap (fun l => [.stashFillComplete l.core l.line, .stashFillFault l.core l.line])
    ++ (s.dies.map (fun d => .matrixStartTokenGrant d.num))
    ++ s.arrays.flatMap (fun e => e.toRead.map (fun l => .lensLineRead e.key l.1 l.2) ++ [.matrixOperationRetire e.key])
    ++ s.mem.revokes.flatMap (fun r => [.writtenBack r.pa, .notHeld r.pa])
    ++ s.mem.reds.map (fun r => .redPerform r.key) ++ s.mem.repls.map (fun r => .replReplicaUpdate r.key)

/-- A range of a grid is expanded while fewer than 8 of its teams wait (R26: lazily; R325: a gang has 8). -/
def State.expands (s : State) (g : Grid) (j : Nat) : Bool :=
  match g.ranges[j]? with
  | some r => g.mayExpand j && decide ((s.tasks.filter (fun t => t.grid == g.gridId && t.team && decide (r.start ≤ t.linear)
      && decide (t.linear < r.start + r.count) && (t.state == .queued || t.state == .held))).length < 8)
  | none => false

/-- Events of tasks, grids and completion records that may be ready. -/
def State.taskEvents (s : State) : List Instr :=
  (s.tasks.filter (fun t => !t.ended)).map (fun t => .taskEnd t.uid)
    ++ s.dues.map (fun d => .completionRecordWrite d.vi d.page) ++ s.host.waiting.map (fun h => .hostSubmissionRetry h.vi h.page h.bytes)
    ++ (s.grids.filter (fun g => !g.dealt && !g.ended)).map (fun g => .gridRangeDeal g.gridId)
    ++ (s.grids.filter (fun g => g.dealt && !g.ended && (!g.routesWritten || g.reroute))).map (fun g => .routeRewrite g.gridId)
    ++ s.grids.flatMap (fun g => ((List.range g.ranges.length).filter (s.expands g)).map (fun j => .gridRangeExpansion g.gridId j))

/-- Events of dies, interrupts and the host's side that may be ready. -/
def State.packageEvents (s : State) : List Instr :=
  s.dies.map (fun d => .dieFence d.num) ++ [.uintDelivery, .powerStateEntry]
    ++ (s.vis.filter (fun v => v.pendingConfig)).map (fun v => .configRecordQuiesceApply v.num)
    ++ s.host.consumed.map (fun c => .uncorrectableError (.privilegedUse c))
    ++ (s.vis.filter (fun v => v.enabled && v.timeShared)).flatMap (fun v => (List.range 4).flatMap (fun d =>
        ((List.range 48).filter (fun p => (v.pairs.getD d 0).getLsbD p)).map (fun p => .timeSliceExpiry d p)))

/-- The groups in turn, from the one after the current group. -/
def State.inOrder (s : State) : List Group :=
  let later (g : Group) : Bool := match s.cur with | some c => decide (c < g.gid) | none => true
  s.groups.filter later ++ s.groups.filter (fun g => !later g)

/-- Every event that may be ready, in the order in which the model tries them. -/
def State.ready (s : State) : List Instr :=
  s.packageEvents ++ s.coreEvents ++ s.groups.flatMap Group.events ++ s.taskEvents ++ s.inOrder.map (fun g => .clauseIssue g.gid)

/-- The first of some events that changes something. -/
def State.firstEvent (s : State) : List Instr → Option State
  | [] => none
  | i :: r => match exec i s with
    | .next t => if t = s then s.firstEvent r else some t
    | _ => s.firstEvent r

/-- Steps of the model between two reference ticks while there is work (log 16). -/
def stepsPerTick : Nat := 40

/-- A die with a dispatch round to run and records to try (R291). -/
def State.roundDue (s : State) : Option Nat := s.rounds.find? (fun d => !(s.waiting d).isEmpty)

/-- What happens when no group is inside a clause: a tick that is due, strings to be written again before anything of their grid is
placed (R331), a dispatch round, an event that is ready, or a tick. -/
def State.idle (s : State) : State :=
  if stepsPerTick ≤ s.beat then s.nextTick
  else match s.grids.find? s.rewriteDue, s.roundDue with
    | some g, _ => s.routeRewrite g.gridId
    | none, some d => State.dispatchRound { s with rounds := s.rounds.filter (· != d) } d
    | none, none => (s.firstEvent s.ready).getD s.nextTick

/-! ### What a step leaves behind -/

/-- What a dispatch round depends on (R291): records that wait, tasks that ended, keys held, groups on their cores. -/
def State.roundKey (s : State) : List (Nat × Bool × Bool) × List (Option Nat) × List (Nat × Bool) :=
  (s.tasks.map (fun t => (t.uid, t.state == .queued || t.state == .held, t.ended)), s.keys.map (fun e => e.holder),
    s.groups.map (fun g => (g.gid, g.here)))

/-- Events that come round with the tick: polls of monitors every 100 ticks (R200), telemetry every 100,000 (R352). -/
def State.periodic (s : State) : List Input :=
  let t := s.tick.toNat
  (if t % 100 = 0 then s.groups.flatMap (fun g => (List.range 4).filterMap (fun k =>
      if (g.mon[k]?).any (fun m => m.armed && m.polling && !m.fired) then some (Input.event (.monitorPoll g.gid k)) else none)) else [])
    ++ (if t % 100000 = 0 then s.dies.map (fun d => Input.event (.telemetryRecord d.num)) else [])

/-- The hold of a group after a step: it tries its instruction again after an event, or once the stash lines it needs are there
(R186); a submission keeps the tick in which it began (R282), an STMAP the lines that it has changed (R192). -/
def Hold.after (h : Hold) (m : Mem) (event : Bool) : Hold :=
  match h with
  | .again => if event then .none else .again
  | .fill core ls => if ls.all (fun e => m.present core e.1 || !(m.lineOf core e.1).filling) then .none else .fill core ls
  | .submit since => if event then .resubmit since else .submit since
  | .stmap done => if event then .remap done else .stmap done
  | k => k

/-- A group after a step: it may try again, and the time since which all its live lanes are parked is kept (R43). -/
def Group.settled (g : Group) (m : Mem) (now : Nat) (event : Bool) : Group :=
  let h : Group := { g with hold := g.hold.after m event }
  if h.allParked then { h with parkedSince := some (h.parkedSince.getD now) } else { h with parkedSince := none }

/-- What the device does at once after a step: conditions of parked lanes are seen (R41), team areas written (R71), caches brought
within their capacities (R12). -/
def State.follow (s : State) : State := s.noteParks.saveTeams.fitCaches

/-- The model's own bookkeeping after a step. -/
def State.settle (old next : State) (event : Bool) : State :=
  let new := next.follow
  let ticked := old.tick != new.tick
  let every := ticked && new.tick.toNat % 1000 == 0
  { new with
    fresh := new.fresh + 1
    beat := if ticked then 0 else new.beat + 1
    rounds := if every || old.roundKey != new.roundKey then [0, 1, 2, 3, 4] else new.rounds
    inputs := (if ticked then new.periodic else []) ++ new.inputs
    groups := new.groups.map (fun g => g.settled new.mem new.tick.toNat event) }

/-- An outcome after the bookkeeping. -/
def settleOut (old : State) (event : Bool) (o : Host.Outcome State Fault Refusal) : Host.Outcome State Fault Refusal :=
  match o with
  | .next t => .next (State.settle old t event)
  | .fault f => .fault f
  | .refused r => .refused r

/-- One entry of the agenda, with the rest of the agenda still to come. -/
def State.takeInput (s : State) (i : Input) (rest : List Input) : Host.Outcome State Fault Refusal :=
  let t : State := { s with inputs := rest }
  match i with
  | .event e => if e.isEvent then settleOut t true (exec e t) else .refused .notAnEvent
  | .turn gid => settleOut t false (.next { t with cur := some gid })

/-- One step: the agenda first, then the group inside its clause, then the device's own events. -/
def State.advanceOne (s : State) : Host.Outcome State Fault Refusal :=
  match s.inputs with
  | i :: r => s.takeInput i r
  | [] => match s.runner with
    | some g => settleOut s false (s.runGroup g)
    | none => settleOut s true (.next s.idle)

end Sys2Proof.Machine
end

