-- ==== Sys2Proof/Machine/Step.lean ====
section
/-! DEFINITION. The step of the machine, and a state whose next step runs a given word. -/
namespace Sys2Proof.Machine

/-- One step of the package: the agenda, a group inside its clause, or the device itself (log 2). -/
def step (s : State) : Host.Outcome State Fault Refusal := s.advanceOne

/-- The clause header with one instruction that allows a word's family (R102, R103). -/
def fetchHeader (i : Option Instr) : DWord :=
  match i with
  | some k => if k.family = 6 then 0x20 else if k.privileged then 0x40 else 0x10
  | none => 0x10

/-- A launch record for `State.withFetchWord`: one team, every segment as large as it may be. -/
def fetchLaunch : Launch :=
  { entry := 0, gx := 1, gy := 1, gz := 1, shape := 0x81, footprint := 0, priority := 0, flags := 0, keys := [], frameSize := 0
    regionPtr := 0, arena := 0, routePtr := 0, gBase := 0, gLim := 0x1000000000, kBase := 0, kLim := 0x1000000000, cBase := 0
    cLim := 0x1000000000, slots := [] }

/-- The task of `State.withFetchWord`: one group with the largest footprint, on core 0, or on a service core for a
privileged instruction (R16, R66, R128). -/
def fetchTask (uid : Nat) (priv : Bool) : Task :=
  let shape : BitVec 16 := if priv then 0xC1 else 0x81
  let foot : BitVec 32 := if priv then 0x220 else 0x2011220
  let c : ContRec := { code := 0, shape := shape, depth := 1, priority := 0, continuation := false, wanted := false
                       footprint := foot, x := 0, y := 0, z := 0, keys := [], frame := 0, join := 0, launch := 0 }
  { newTask uid 0 0 false true 0 0 c none priv priv (if priv then 4 else 0) with
    launch := some fetchLaunch, state := .placed, cores := [if priv then 412 else 0], stashBase := [0] }

/-- A group of that task inside a clause of one word (R101, R104). -/
def fetchGroup (gid : Nat) (t : Task) (header w : DWord) : Group :=
  let g := newGroup gid 0 (t.cores.headD 0) 0 t fetchLaunch 0
  { g with clause := some ⟨0, header, [some w], 0, fullMask g.width, fullMask g.width⟩ }

/-- The state in which the next step issues a word: a placed task's group is inside a clause that holds it (log 2). -/
def State.withFetchWord (s : State) (nbits w : Nat) : State :=
  let word : DWord := BitVec.ofNat 64 (w % 2 ^ nbits)
  let i := (decodeWord word.toNat).toOption
  let t := fetchTask s.nextId (i.any Instr.privileged)
  let g := fetchGroup (s.nextId + 1) t (fetchHeader i) word
  { s with
    inputs := [], cur := some (s.nextId + 1), nextId := s.nextId + 2, tasks := s.tasks ++ [t], groups := s.groups ++ [g] }

end Sys2Proof.Machine
end

