-- ==== Sys2Proof/Safety.lean ====
section
/-! DEFINITION. The terms that claims use: runs that go on, registers as places, an instruction that is ready to execute, and
what a lane-wise instruction leaves behind. -/
namespace Sys2Proof.Machine

/-! ### Runs -/

/-- A state from which the next step neither faults nor is refused. -/
def State.goesOn (s : State) : Prop := ∃ t, step s = .next t

/-- The state after some steps, when each of them goes on. -/
def State.after (s : State) : Nat → Option State
  | 0 => some s
  | n + 1 => match step s with
    | .next t => t.after n
    | _ => none

/-- A run of some steps that neither faults nor is refused. -/
def State.safeRun (s : State) (n : Nat) : Prop := (s.after n).isSome = true

/-! ### Registers as places -/

/-- A register that an operand of a word can name: a vector or index register in one lane, a uniform register, a predicate in
one lane (R50, R55). -/
inductive RegPlace where
  | v (n lane : Nat)
  | s (n : Nat)
  | p (n lane : Nat)
  | x (k lane : Nat)
  deriving DecidableEq, Repr

/-- A lane number is below 64 (R50). -/
def RegPlace.ok : RegPlace → Prop
  | .v _ l | .p _ l | .x _ l => l < 64
  | .s _ => True

/-- What a place holds; a predicate is 0 or 1. -/
def Group.look (g : Group) : RegPlace → DWord
  | .v n l => (g.vget n l).setWidth 64
  | .s n => g.sget n
  | .p n l => if g.pget n l then 1 else 0
  | .x k l => (g.xget k l).setWidth 64

/-- What a place holds when a 32-bit result is written to it (R140, R148): a predicate holds whether it is not 0. -/
def RegPlace.keeps : RegPlace → Word → DWord
  | .p _ _, w => if w = 0 then 0 else 1
  | _, w => w.setWidth 64

/-- The place that an operand names in a lane; the zero operand and fsr name none (R56, R112, R113). -/
def Group.placeOf (g : Group) (o : Opnd) (lane : Nat) : Option RegPlace :=
  match o with
  | .v n => some (.v n.toNat lane)
  | .s n => some (.s n.toNat)
  | .ind _ k => some (.v (g.indReg k.toNat lane) lane)
  | .p n => some (.p n.toNat lane)
  | .x k => some (.x k.toNat lane)
  | .zero | .fsr => none

/-- The 32-bit value of a source operand in a lane (R138). -/
def Group.word (g : Group) (o : Opnd) (lane : Nat) : Word :=
  match o with
  | .v n => g.vget n.toNat lane
  | .s n => (g.sget n.toNat).setWidth 32
  | .ind _ k => g.vget (g.indReg k.toNat lane) lane
  | .zero => 0
  | .p n => if g.pget n.toNat lane then 1 else 0
  | .x k => g.xget k.toNat lane
  | .fsr => g.fsr.setWidth 32

/-- The 64-bit value of a source operand in a lane (R139). -/
def Group.word64 (g : Group) (o : Opnd) (lane : Nat) : DWord :=
  match o with
  | .v n => (g.vget (n.toNat + 1) lane) ++ (g.vget n.toNat lane)
  | .s n => g.sget n.toNat
  | _ => 0

/-- An index register after one post-step (R55, R56): only its offset changes, modulo 256. -/
def steppedIndex (st : PostStep) (w : Word) : Word :=
  let off : BitVec 8 := w.extractLsb' 16 8
  let by' : BitVec 8 := (w.extractLsb' 24 4).signExtend 8
  match st with
  | .none => w
  | .up => (w.extractLsb' 24 8) ++ (off + by') ++ (w.extractLsb' 0 16)
  | .down => (w.extractLsb' 24 8) ++ (off - by') ++ (w.extractLsb' 0 16)

/-- An index register after the post-steps of an instruction's operands. -/
def steppedBy (ops : List Opnd) (k : Nat) (w : Word) : Word :=
  ops.foldl (fun u o => match o with | .ind st j => if j.toNat = k then steppedIndex st u else u | _ => u) w

/-! ### An instruction that executes -/

/-- An instruction with these register names executes now: its clause's engine class and its task's privilege allow it, its core
has it, no register lies out of bounds, none is poisoned, no busy window is touched (R173 aside), and no lower lane holds a cross-lane
instruction back (R39, R51, R57, R60, R103, R128, R296, R318). -/
def Ctx.ready (x : Ctx) (i : Instr) (nms : List Named) : Bool :=
  i.allowedIn (x.c.header.toNat / 16 % 8) && (!i.privileged || x.g.privileged x.t) && !(isService x.g.core && i.lacksService)
    && (boundFault x nms).isNone && x.g.clean && (!x.busy nms || skipsBusy i) && !(isCrossLane i && x.heldBack)

/-- A state in which the current group is about to execute an instruction: its context, and the instruction is ready. -/
def Runs (i : Instr) (nms : Ctx → List Named) (s : State) (x : Ctx) : Prop :=
  ctxOf s (i.guard.getD .always) = some x ∧ x.ready i (nms x) = true

/-! ### What a lane-wise instruction leaves behind -/

/-- The index registers of a group after the post-steps of an instruction's operands, which its active lanes take (R56). -/
def Ctx.afterSteps (x : Ctx) (ops : List Opnd) (q : RegPlace) (old : DWord) : DWord :=
  match q with
  | .x k l => if x.lanes.contains l then (steppedBy ops k (old.setWidth 32)).setWidth 64 else old
  | _ => old

/-- Every place that the destination names in a lane holds that lane's result, and every other place is unchanged, but for the
post-steps of index registers. -/
def Ctx.wrote (x : Ctx) (ops : List Opnd) (d : Opnd) (ls : List Nat) (val : Nat → Word) (h : Group) : Prop :=
  (∀ l ∈ ls, ∀ q, x.g.placeOf d l = some q → h.look q = x.afterSteps ops q (q.keeps (val l))) ∧
  (∀ q : RegPlace, q.ok → (∀ l ∈ ls, x.g.placeOf d l ≠ some q) → h.look q = x.afterSteps ops q (x.g.look q))

/-- A group is another with its registers v, s, p and x changed, and some flags of fsr raised: every other field is equal. -/
def Group.movesOn (h base : Group) (raised : Flags) : Prop :=
  h = { base with v := h.v, s := h.s, p := h.p, x := h.x, fsr := base.fsr ||| raised }

/-- An instruction, when ready, answers a next state in which only its group has changed: its destination holds each lane's
result, the flags of its lanes are raised, every other register is unchanged, and the group goes on with its clause. -/
def LaneWise (i : Instr) (d : Opnd) (srcs : List Opnd) (val : Ctx → Nat → Word) (flags : Ctx → Nat → Flags) : Prop :=
  ∀ s x, Runs i (fun _ => namesA d srcs) s x →
    ∃ h, Sys2Proof.Machine.exec i s = .next (s.setGroup h) ∧ x.wrote (d :: srcs) d (x.workLanes d) (val x) h
      ∧ h.movesOn x.g.advance (unionFlags ((x.workLanes d).map (flags x)))

/-- No flag is raised. -/
def noFlags (_ : Ctx) (_ : Nat) : Flags := 0

end Sys2Proof.Machine
end

