-- ==== Sys2Proof/Safety/Values.lean ====
section
/-! DEFINITION. Values that claims name, written over 32-bit words as the spec words them, apart from the model's own
arithmetic over numbers. -/
namespace Sys2Proof.Machine

/-- The smaller of two words, read signed or unsigned (R144). -/
def wordMin {w : Nat} (sgn : Bool) (a b : BitVec w) : BitVec w := if (if sgn then b.slt a else b.ult a) then b else a

/-- The larger of two words, read signed or unsigned (R144). -/
def wordMax {w : Nat} (sgn : Bool) (a b : BitVec w) : BitVec w := if (if sgn then a.slt b else a.ult b) then b else a

/-- An integer clamped to a range, as a word (R144). -/
def wordClamp (lo hi i : Int) : Word := BitVec.ofInt 32 (max lo (min hi i))

/-- The integer a word stands for, signed or unsigned (R144). -/
def wordInt (sgn : Bool) (a : Word) : Int := if sgn then a.toInt else a.toNat

/-- The least and greatest integers of 32 bits, signed or unsigned (R144). -/
def wordLeast (sgn : Bool) : Int := if sgn then -2 ^ 31 else 0
def wordGreatest (sgn : Bool) : Int := if sgn then 2 ^ 31 - 1 else 2 ^ 32 - 1

/-- Bits [63:32] of a product, signed or unsigned (R144). -/
def wordMulHigh (sgn : Bool) (a b : Word) : Word :=
  if sgn then (a.signExtend 64 * b.signExtend 64).extractLsb' 32 32 else (a.setWidth 64 * b.setWidth 64).extractLsb' 32 32

/-- An operation on each 16-bit half (R144). -/
def wordHalves (f : BitVec 16 → BitVec 16 → BitVec 16) (a b : Word) : Word :=
  f (a.extractLsb' 16 16) (b.extractLsb' 16 16) ++ f (a.extractLsb' 0 16) (b.extractLsb' 0 16)

/-- A number of n bits, bit by bit. -/
def ofBits (n : Nat) (f : Nat → Bool) : BitVec n := (List.range n).foldl (fun w j => if f j then w ||| (1#n <<< j) else w) 0

/-- A word bit by bit. -/
def wordOfBits (f : Nat → Bool) : Word := ofBits 32 f

/-- A value with element j of width w replaced by a code (R159, R160). -/
def withElement {n : Nat} (w j : Nat) (old : BitVec n) (code : Nat) : BitVec n :=
  ofBits n (fun i => if w * j ≤ i ∧ i < w * j + w then code.testBit (i - w * j) else old.getLsbD i)

/-- Element k of width w of a word, as a code (R159). -/
def element (w k : Nat) (x : Word) : Nat := (x >>> (w * k)).toNat % 2 ^ w

/-- Bit j of a word that is extended without end, by its sign or by zeros (R146). -/
def wordBit (sgn : Bool) (a : Word) (j : Nat) : Bool := if j < 32 then a.getLsbD j else sgn && a.msb

/-- The position and the length that BFE and BFI read from a word (R146). -/
def fieldPos (c : Word) : Nat := c.toNat % 256
def fieldLen (c : Word) : Nat := min (c.toNat / 256 % 256) 32

/-- BFE (R146): a field of a, whose last bit fills the rest in the signed form. -/
def wordExtract (sgn : Bool) (a b : Word) : Word :=
  wordOfBits (fun j =>
    if j < fieldLen b then wordBit sgn a (fieldPos b + j)
    else sgn && decide (0 < fieldLen b) && wordBit sgn a (fieldPos b + fieldLen b - 1))

/-- BFI (R146): b with low bits of a at a field's place. -/
def wordInsert (a b c : Word) : Word :=
  wordOfBits (fun j => if fieldPos c ≤ j ∧ j < fieldPos c + fieldLen c then a.getLsbD (j - fieldPos c) else b.getLsbD j)

/-- POPC (R147): how many bits are 1. -/
def wordPop (a : Word) : Word := BitVec.ofNat 32 ((List.range 32).countP a.getLsbD)

/-- CLZ (R147): how many bits from bit 31 down are 0 before the first 1. -/
def wordLead (a : Word) : Word := BitVec.ofNat 32 (((List.range 32).find? a.getMsbD).getD 32)

/-- BREV (R147). -/
def wordReverse (a : Word) : Word := wordOfBits (fun j => a.getLsbD (31 - j))

/-- ISETP's comparison (R149). -/
def wordCompare (sgn : Bool) (cmp : ICmp) (a b : Word) : Bool :=
  match cmp with
  | .eq => decide (wordInt sgn a = wordInt sgn b)
  | .ne => decide (wordInt sgn a ≠ wordInt sgn b)
  | .lt => decide (wordInt sgn a < wordInt sgn b)
  | .le => decide (wordInt sgn a ≤ wordInt sgn b)
  | .gt => decide (wordInt sgn b < wordInt sgn a)
  | .ge => decide (wordInt sgn b ≤ wordInt sgn a)

/-- A comparison combined with a predicate (R149, R154). -/
def combine (bop : Bop) (t c : Bool) : Bool :=
  match bop with
  | .none => t
  | .and => t && c
  | .or => t || c
  | .xor => t ^^ c

/-- A predicate's value as a word (R138). -/
def predWord (b : Bool) : Word := if b then 1 else 0

/-! ### Floating point -/

/-- The modifiers of a source position on an FP32 word: the sign is cleared, then inverted (R141). -/
def wordSigned (abs neg : Bool) (a : Word) : Word :=
  let y := if abs then a &&& 0x7FFFFFFF else a
  if neg then y ^^^ 0x80000000 else y

/-- The modifiers of a source position on each half of a word (R141, R156). -/
def halvesSigned (abs neg : Bool) (a : Word) : Word :=
  let y := if abs then a &&& 0x7FFF7FFF else a
  if neg then y ^^^ 0x80008000 else y

/-- The modifiers of a source position on each byte of a word (R141, R157). -/
def bytesSigned (abs neg : Bool) (a : Word) : Word :=
  let y := if abs then a &&& 0x7F7F7F7F else a
  if neg then y ^^^ 0x80808080 else y

/-- An FP32 source with the modifiers of its position, as a code (R138, R141). -/
def Ctx.fword (x : Ctx) (m : BitVec 6) (j : Nat) (o : Opnd) (l : Nat) : Nat :=
  (wordSigned (m.getLsbD (2 * j + 1)) (m.getLsbD (2 * j)) (x.g.word o l)).toNat

/-- Half k of a source of packed halves with its modifiers, as a code (R156). -/
def Ctx.fhalf (x : Ctx) (m : BitVec 6) (j : Nat) (o : Opnd) (k l : Nat) : Nat :=
  ((halvesSigned (m.getLsbD (2 * j + 1)) (m.getLsbD (2 * j)) (x.g.word o l)).extractLsb' (16 * k) 16).toNat

/-- Four bytes of a source with their modifiers (R157). -/
def Ctx.fbytes (x : Ctx) (m : BitVec 6) (j : Nat) (o : Opnd) (l : Nat) : Nat :=
  (bytesSigned (m.getLsbD (2 * j + 1)) (m.getLsbD (2 * j)) (x.g.word o l)).toNat

/-- A code as a 32-bit result. -/
def codeWord (r : Nat × Flags) : Word := BitVec.ofNat 32 r.1

/-- Two 16-bit codes as one word, half 0 lowest (R156). -/
def codeHalves (lo hi : Nat × Flags) : Word := BitVec.ofNat 16 hi.1 ++ BitVec.ofNat 16 lo.1

/-! ### What correct rounding is, over the rational numbers (R76, R82) -/

/-- The number a value stands for. -/
def FVal.rat : FVal → ℚ
  | .fin neg m e => (if neg then -1 else 1) * (m : ℚ) * (2 : ℚ) ^ e
  | _ => 0

/-! ### Cross-lane values -/

/-- One step of a reduction over integers (R170). -/
def wordReduce (op : RedOp) (a b : Word) : Word :=
  match op with
  | .addI32 => a + b
  | .minSgn => wordMin true a b
  | .minUns => wordMin false a b
  | .maxSgn => wordMax true a b
  | .maxUns => wordMax false a b
  | .and => a &&& b
  | .or => a ||| b
  | .xor => a ^^^ b
  | .addF32 | .minF32 | .maxF32 => 0

/-- What an empty reduction gives (R48). -/
def wordIdentity (op : RedOp) : Word :=
  match op with
  | .addI32 | .or | .xor | .maxUns => 0
  | .and | .minUns => 0xFFFFFFFF
  | .minSgn => 0x7FFFFFFF
  | .maxSgn => 0x80000000
  | .addF32 => 0x80000000
  | .minF32 => 0x7F800000
  | .maxF32 => 0xFF800000

/-- Does an operation work on integers? -/
def intReduction (op : RedOp) : Bool :=
  match op with
  | .addF32 | .minF32 | .maxF32 => false
  | _ => true

/-- An integer reduction over some lanes, in any order (R47, R48). -/
def Ctx.reduce (x : Ctx) (op : RedOp) (a : Opnd) (ls : List Nat) : Word :=
  ls.foldl (fun w l => wordReduce op w (x.g.word a l)) (wordIdentity op)

/-- A predicate source, negated or not (R172). -/
def Ctx.psource (x : Ctx) (neg : Bool) (a : Opnd) (l : Nat) : Bool := decide (x.g.word a l ≠ 0) ^^ neg

/-- Bits of an index word replaced (R173). -/
def withBits (lo n : Nat) (old val : Word) : Word :=
  wordOfBits (fun i => if lo ≤ i ∧ i < lo + n then val.getLsbD (i - lo) else old.getLsbD i)

end Sys2Proof.Machine
end

