-- ==== Sys2Proof/Safety/Effects.lean ====
section
/-! DEFINITION. The shapes of effect that claims name: results in registers at once, results that land later, and a change of
the group alone. -/
namespace Sys2Proof.Machine

/-- The operands among the registers that an instruction names. -/
def namedOps (nms : List Named) : List Opnd := nms.filterMap (fun nm => match nm.use with | .op o _ => some o | _ => none)

/-- Each place listed holds what is listed with it, and every other place is unchanged, but for the post-steps of index
registers. -/
def Ctx.left (x : Ctx) (ops : List Opnd) (res : List (RegPlace × DWord)) (h : Group) : Prop :=
  (∀ r ∈ res, h.look r.1 = x.afterSteps ops r.1 r.2) ∧
  (∀ q : RegPlace, q.ok → q ∉ res.map Prod.fst → h.look q = x.afterSteps ops q (x.g.look q))

/-- A state is another but for one group, which is now h. -/
def State.onlyGroup (t s : State) (h : Group) : Prop :=
  t = { s with groups := t.groups } ∧ t.groups.map Group.gid = s.groups.map Group.gid ∧
    t.group? h.gid = some h ∧ ∀ j, j ≠ h.gid → t.group? j = s.group? j

/-- A ready instruction answers a next state in which only its group has changed: the places listed hold their results, the
flags are raised, every other register is unchanged, and the group, changed otherwise as `also` says, goes on with its clause. -/
def ComputesWith (i : Instr) (nms : Ctx → List Named) (ok : Ctx → Prop) (also : Ctx → Group → Group)
    (res : Ctx → List (RegPlace × DWord)) (fl : Ctx → Flags) : Prop :=
  ∀ s x, Runs i nms s x → ok x →
    ∃ t h, Sys2Proof.Machine.exec i s = .next t ∧ t.onlyGroup s h ∧ x.left (namedOps (nms x)) (res x) h
      ∧ h.movesOn (also x x.g.advance) (fl x)

/-- `ComputesWith` with nothing changed otherwise. -/
def Computes (i : Instr) (nms : Ctx → List Named) (ok : Ctx → Prop) (res : Ctx → List (RegPlace × DWord)) (fl : Ctx → Flags) : Prop :=
  ComputesWith i nms ok (fun _ g => g) res fl

/-- A ready instruction answers a next state in which its result is outstanding (R106, R107): no register has changed but for
post-steps, and the group, changed otherwise as `also` says, goes on with its clause. -/
def DefersWith (i : Instr) (nms : Ctx → List Named) (ok : Ctx → Prop) (also : Ctx → Group → Group) (names : Ctx → List RegName)
    (busy : Bool) (writes : Ctx → List RegWrite) (fl : Ctx → Flags) : Prop :=
  ∀ s x, Runs i nms s x → ok x →
    ∃ t h, Sys2Proof.Machine.exec i s = .next t ∧ t.onlyGroup { s with nextId := s.nextId + 1 } h
      ∧ (∀ q : RegPlace, q.ok → h.look q = x.afterSteps (namedOps (nms x)) q (x.g.look q))
      ∧ h = { also x x.g.advance with x := h.x, outs := x.g.outs ++ [⟨s.nextId, names x, busy, writes x, fl x, .ready⟩] }

/-- A ready instruction that touches no index register answers the state in which its group has been changed by a function and
goes on with its clause; nothing else has changed. -/
def Changes (i : Instr) (nms : Ctx → List Named) (ok : Ctx → Prop) (f : Ctx → Group → Group) : Prop :=
  ∀ s x, Runs i nms s x → ok x → Sys2Proof.Machine.exec i s = .next (s.modGroup x.g.gid (fun g => (f x g).advance))

/-- The place of a 32-bit destination in a lane, with its result (R140). -/
def Ctx.placed (x : Ctx) (d : Opnd) (l : Nat) (w : Word) : List (RegPlace × DWord) :=
  match x.g.placeOf d l with
  | some q => [(q, q.keeps w)]
  | none => []

/-- The 32-bit results of an instruction in each lane it works in. -/
def Ctx.inLanes (x : Ctx) (d : Opnd) (val : Nat → Word) : List (RegPlace × DWord) :=
  (x.workLanes d).flatMap (fun l => x.placed d l (val l))

/-- The flags of every lane an instruction works in. -/
def Ctx.lanesFlags (x : Ctx) (d : Opnd) (fl : Nat → Flags) : Flags := unionFlags ((x.workLanes d).map fl)

/-- No further condition. -/
def always (_ : Ctx) : Prop := True

/-- The places of a 64-bit destination in a lane, with the parts of a value (R139, R150). -/
def widePlaces (d : Opnd) (l : Nat) (w : DWord) : List (RegPlace × DWord) :=
  match d with
  | .v n => [(.v n.toNat l, (w.extractLsb' 0 32).setWidth 64), (.v (n.toNat + 1) l, (w.extractLsb' 32 32).setWidth 64)]
  | .s n => [(.s n.toNat, w)]
  | _ => []

/-- The places of consecutive vector registers in a lane, with their words (R161). -/
def rowPlaces (n l : Nat) (ws : List Word) : List (RegPlace × DWord) := ws.mapIdx (fun j w => (.v (n + j) l, w.setWidth 64))

/-- The writes of one lane's 32-bit result that lands later (R106, R140). -/
def Ctx.landing (x : Ctx) (d : Opnd) (l : Nat) (w : Word) : List RegWrite :=
  match x.g.placeOf d l with
  | some (.v n k) => [.v n k w]
  | some (.s n) => [.s n (w.setWidth 64)]
  | _ => []

/-- A long-latency instruction over its lanes: its results and flags are outstanding, unless there is nothing to land. -/
def Defers (i : Instr) (d : Opnd) (nms : Ctx → List Named) (val : Ctx → Nat → Word) (fl : Ctx → Nat → Flags) : Prop :=
  let writes (x : Ctx) : List RegWrite := (x.workLanes d).flatMap (fun l => x.landing d l (val x l))
  let empty (x : Ctx) : Prop := x.workLanes d = [] ∨ (x.outNames d 1 = [] ∧ writes x = [] ∧ x.lanesFlags d (fl x) = 0)
  DefersWith i nms (fun x => ¬empty x) (fun _ g => g) (fun x => x.outNames d 1) d.isInd writes (fun x => x.lanesFlags d (fl x)) ∧
  Computes i nms empty (fun _ => []) (fun _ => 0)

/-- A group at the next word of its clause, with repeats to go (R175). -/
def Group.repeating (h : Group) (c : Clause) (left : BitVec 7) (steps : BitVec 4 × Nat) : Group :=
  { h with clause := some { c with index := c.index + 1 }, repDone := 0, repLeft := left, repSteps := some steps }

end Sys2Proof.Machine
end

