-- ==== Sys2Proof/Safety/Access.lean ====
section
/-! DEFINITION. What claims say of memory: bytes as software reads them, the accesses of an instruction to pages of this
package, and what a step leaves of memory. -/
namespace Sys2Proof.Machine

/-! ### Where an access goes -/

/-- A piece of memory of this package on an ATOM page, on a die that is up. -/
def Trans.home (t : Trans) : Bool := !t.remote && !t.repl && !t.lost

/-- Every piece of an access is of that kind. -/
def Located.home (k : Located) : Bool := k.parts.all (fun p => p.2.2.home)

/-- Which byte of an access stands at a physical address. -/
def Located.indexOf (k : Located) (pa : Nat) : Option Nat :=
  k.parts.reverse.findSome? (fun p =>
    if p.2.2.pa ≤ pa ∧ pa < p.2.2.pa + p.2.1 then some (pieceOff k.va p.1 + (pa - p.2.2.pa)) else none)

/-- The bytes of an access, given what stands at each physical address. -/
def Located.fetch (k : Located) (m : Nat → Byte) : List Byte :=
  k.parts.flatMap (fun p => (List.range p.2.1).map (fun i => m (p.2.2.pa + i)))

/-- The byte that the last of several accesses leaves at a physical address. -/
def storedAt (ls : List Located) (data : Acc → Nat → Byte) (pa : Nat) : Option Byte :=
  ls.reverse.findSome? (fun k => (k.indexOf pa).map (data k.acc))

/-- Byte i of the data that an access stores, from its lane's registers, lowest register and byte first (R188). -/
def Ctx.dataByte (x : Ctx) (l : LArgs) (a : Acc) (i : Nat) : Byte :=
  let lane := (a.lanes x.g.width).getLastD 0
  if l.tU then (x.g.sget (l.t.toNat % 64)).extractLsb' (8 * i) 8
  else (x.g.vget (l.t.toNat + i / 4) lane).extractLsb' (8 * (i % 4)) 8

/-- The group has no posted RED that is still to be performed (R195). -/
abbrev Ctx.noReds (x : Ctx) : Prop := ∀ r ∈ x.s.mem.reds, r.gid ≠ x.g.gid

/-- No store to another chip of the group is on its way, and no atomic of it waits for a stash line; nor, for a release at a scope that
waits for it, is a store of the core or of the group on its way to a replica (R272, R254). -/
abbrev Ctx.nothingSent (x : Ctx) (sc : Scope) : Prop :=
  (sc = .pkg ∨ sc = .sys → ∀ q ∈ x.s.mem.repls, agentCore q.agent ≠ some x.g.core ∧ q.gid ≠ x.g.gid) ∧
  (∀ q ∈ x.s.mem.posted, q.gid ≠ x.g.gid) ∧ x.g.outs.any Pend.isAtom = false

/-- A byte that a plain load may read: the current one, or, of a word that no agent owns, a copy that the core's L1 holds
(R263). -/
def Ctx.mayRead (x : Ctx) (pa : Nat) (b : Byte) : Prop :=
  b = x.s.mem.byte pa ∨ (x.s.mem.reg? (wordOf pa) = none ∧
    ∃ c ∈ x.s.mem.copies, c.core = x.g.core ∧ c.pa = wordOf pa ∧ b = byteOf c.value (pa % 4))

/-- A key of the stash inside a mapped line: the line's bytes there are a copy of memory (R185). -/
def Mem.cacheKey (m : Mem) (k : Nat) : Prop :=
  ∃ l ∈ m.lines, l.mapped.isSome = true ∧ stashKey l.core (128 * l.line) ≤ k ∧ k < stashKey l.core (128 * l.line) + 128

/-- No byte of the stash outside mapped lines has changed, nor any poison there. -/
def Mem.stashKept (m n : Mem) : Prop := ∀ k, ¬ n.cacheKey k → m.stash.get k = n.stash.get k ∧ (k ∈ m.stashPoison ↔ k ∈ n.stashPoison)

/-- Two lists of groups are equal but for what their monitors have seen. -/
def sameButMonitors (a b : List Group) : Prop := List.Forall₂ (fun g h => g = { h with mon := g.mon }) a b

/-- A state is another but for memory and what monitors have seen of it. -/
def State.besideMemory (t u : State) : Prop := t = { u with mem := t.mem, groups := t.groups } ∧ sameButMonitors t.groups u.groups

/-- The accesses of a format L instruction, each translated to memory of this package, with no fault, race or poison in the
way (R64, R178, R182, R280, R318). -/
structure Ctx.Reaches (x : Ctx) (l : LArgs) (n : Nat) (acc : Access) (write plain atomic : Bool) (ls : List Located) : Prop where
  segment : l.seg.toNat ≠ 1
  inside : x.segFault l.seg.toNat n write (!plain) (x.accs l) = none
  some' : x.accs l ≠ []
  pages : x.locate l.seg.toNat n acc atomic (x.accs l) = .ok ls
  home : ∀ k ∈ ls, k.home = true
  noRace : plain = true → x.l.race = true → raceTrap x.s x.g.gid x.agent write (localParts ls) = none
  clean : write = false → memPoison x.s x.agent x.t.vi ls = none
  order : x.orderWaits (!plain) = false
  lens : write = true → x.lensBlocks ls = false

/-- The accesses of a format L instruction through the S segment, all to lines that are present and unmapped, with nothing in
the way (R185, R186). -/
structure Ctx.ReachesStash (x : Ctx) (l : LArgs) (n : Nat) (write plain : Bool) : Prop where
  segment : l.seg.toNat = 1
  inside : x.segFault 1 n write (!plain) (x.accs l) = none
  some' : x.accs l ≠ []
  present : ∀ a ∈ x.accs l, ∀ ln ∈ x.accLines n a, x.s.mem.line? x.g.core ln = none
  inOrder : x.behind n (x.accs l) = false
  lens : write = true → ∀ a ∈ x.accs l, ∀ ln ∈ x.accLines n a, x.s.lensPending x.g.core ln = false
  clean : write = false → x.stashPoisonTrap n (x.accs l) = none
  order : x.orderWaits false = false

/-- The accesses of a format L instruction through the S segment, all to lines that are present, mapped ones of ATOM pages with a home
within reach, with nothing in the way (R182, R185, R186, R226, R318); each line has one record. -/
structure Ctx.ReachesLines (x : Ctx) (l : LArgs) (n : Nat) (write plain : Bool) : Prop where
  segment : l.seg.toNat = 1
  inside : x.segFault 1 n write (!plain) (x.accs l) = none
  some' : x.accs l ≠ []
  present : ∀ a ∈ x.accs l, ∀ ln ∈ x.accLines n a, x.s.mem.present x.g.core ln = true
  one : ∀ a ∈ x.accs l, ∀ ln ∈ x.accLines n a, ∀ r ∈ x.s.mem.lines, r.core = x.g.core → r.line = ln →
    x.s.mem.line? x.g.core ln = some r ∧ r.repl = false
  reach : ∀ a ∈ x.accs l, x.s.stashLost x.g.core (x.stashOff a) n = none
  inOrder : x.behind n (x.accs l) = false
  lens : write = true → ∀ a ∈ x.accs l, ∀ ln ∈ x.accLines n a, x.s.lensPending x.g.core ln = false
  clean : write = false → x.stashPoisonTrap n (x.accs l) = none
  order : x.orderWaits (!plain) = false
  noRace : plain = true → x.l.race = true → raceTrap x.s x.g.gid ⟨.stash, x.g.core⟩ write (x.stashParts n (x.accs l)) = none
  posted : ∀ q ∈ x.s.mem.posted, q.gid ≠ x.g.gid

/-- What the Lens has taken of the lines that it was still to read is all that has changed in the arrays (R226). -/
def lensTook (before after : List ArrEntry) : Prop :=
  after.map (fun e => { e with toRead := [], got := [], abort := 0 }) = before.map (fun e => { e with toRead := [], got := [], abort := 0 })

/-! ### Loads -/

/-- The physical addresses of an access, byte by byte. -/
def Located.places (k : Located) : List Nat := k.parts.flatMap (fun p => (List.range p.2.1).map (fun j => p.2.2.pa + j))

/-- A load leaves its result outstanding and no byte of memory changed; each byte it reads satisfies `reads`. -/
def Loads (i : Instr) (l : LArgs) (f : LoadForm) (reads : Ctx → Nat → Byte → Prop) : Prop :=
  ∀ s x ls, Runs i (fun _ => [dataName l (vregsOf f.bytes) false, addrName l]) s x →
    x.Reaches l f.bytes .read false f.plain false ls → x.noReds →
    ∃ (m : Mem) (data : Located → List Byte),
      Sys2Proof.Machine.exec i s = .next { s.modGroup x.g.gid (fun g =>
        Group.advance { g with outs := g.outs ++ [⟨s.nextId, f.names, false,
          ls.flatMap (fun k => loadWrites f (k.acc.lanes x.g.width) (data k)), 0, .ready⟩] }) with mem := m, nextId := s.nextId + 1 } ∧
      (∀ k ∈ ls, List.Forall₂ (fun pa b => reads x pa b) k.places (data k)) ∧
      m = { s.mem with copies := m.copies, stash := m.stash, stashPoison := m.stashPoison, tlb := m.tlb, homeVa := m.homeVa } ∧ m.stashKept s.mem ∧
      ∀ pa, m.byte pa = s.mem.byte pa

/-! ### Stores -/

/-- A store leaves each byte of memory as the last access to it stored, and every other byte unchanged. -/
def Stores (i : Instr) (l : LArgs) (n : Nat) (plain : Bool) (ok : Ctx → Prop) : Prop :=
  ∀ s x ls, Runs i (fun _ => [dataName l (vregsOf n) true, addrName l]) s x → ok x →
    x.Reaches l n .write true plain false ls → x.noReds →
    ∃ t, Sys2Proof.Machine.exec i s = .next t ∧ t.besideMemory (s.modGroup x.g.gid Group.advance) ∧
      (∀ pa, t.mem.byte pa = (storedAt ls (x.dataByte l) pa).getD (s.mem.byte pa)) ∧
      t.mem = { s.mem with bytes := t.mem.bytes, regs := t.mem.regs, copies := t.mem.copies, stash := t.mem.stash, stashPoison := t.mem.stashPoison
                           poison := t.mem.poison, tlb := t.mem.tlb, homeVa := t.mem.homeVa, held := t.mem.held } ∧ t.mem.stashKept s.mem

/-! ### The stash -/

/-- The bytes of a core's stash at an offset. -/
def Mem.stashBytes (m : Mem) (core off n : Nat) : List Byte := (List.range n).map (fun i => m.stash.get (stashKey core (off + i)))

/-- The byte that the last of several accesses through the S segment leaves at a key of the stash. -/
def Ctx.stashStored (x : Ctx) (l : LArgs) (n : Nat) (k : Nat) : Option Byte :=
  (x.accs l).reverse.findSome? (fun a =>
    let lo := stashKey x.g.core (x.stashOff a)
    if lo ≤ k ∧ k < lo + n then some (x.dataByte l a (k - lo)) else none)

/-- The physical address that a byte of a core's stash is mapped to (R185). -/
def Mem.placeAt (m : Mem) (core off : Nat) : Option Nat := (m.mappedAt core off).map (fun e => e.1.pa + off % 128)

/-- The byte that the last of several accesses through mapped lines leaves at a physical address. -/
def Ctx.mappedStored (x : Ctx) (l : LArgs) (n : Nat) (pa : Nat) : Option Byte :=
  (x.accs l).reverse.findSome? (fun a => (List.range n).findSome? (fun i =>
    if x.s.mem.placeAt x.g.core (x.stashOff a + i) = some pa then some (x.dataByte l a i) else none))

/-- The absent lines of some accesses whose fills they start: mapped ones that no engine command is writing (R186). -/
def Ctx.fillable (x : Ctx) (n : Nat) (accs : List Acc) (ln : Nat) : Prop :=
  (∃ a ∈ accs, ln ∈ x.accLines n a) ∧ x.s.mem.present x.g.core ln = false ∧ (x.s.mem.lineOf x.g.core ln).mapped.isSome = true ∧
    (x.s.mem.lineOf x.g.core ln).writers = []

/-! ### Atomics -/

/-- The two halves' low part: a value of the operation's width. -/
def atomWidth (op : AtomVar) (v : DWord) : DWord := if op.bytes = 8 then v else (v.setWidth 32).setWidth 64

/-- The value an atomic operation leaves (R194); values of 32 bits stand in the low half. -/
def atomValue (op : AtomVar) (old opnd new : DWord) : DWord :=
  let lo (v : DWord) : Word := v.setWidth 32
  match op with
  | .add32 => (lo old + lo opnd).setWidth 64
  | .add64 => old + opnd
  | .addF32 => BitVec.ofNat 64 (fmtF32.add .rne false (lo old).toNat (lo opnd).toNat).1
  | .minSgn32 => (wordMin true (lo old) (lo opnd)).setWidth 64
  | .minUns32 => (wordMin false (lo old) (lo opnd)).setWidth 64
  | .minSgn64 => wordMin true old opnd
  | .minUns64 => wordMin false old opnd
  | .maxSgn32 => (wordMax true (lo old) (lo opnd)).setWidth 64
  | .maxUns32 => (wordMax false (lo old) (lo opnd)).setWidth 64
  | .maxSgn64 => wordMax true old opnd
  | .maxUns64 => wordMax false old opnd
  | .and32 | .and64 => old &&& opnd
  | .or32 | .or64 => old ||| opnd
  | .xor32 | .xor64 => old ^^^ opnd
  | .xchg32 | .xchg64 => opnd
  | .cas32 | .cas64 => if old = opnd then new else old

/-- n bytes at a physical address, as a number. -/
def valueAt (m : Nat → Byte) (pa n : Nat) : DWord := BitVec.ofNat 64 (leNat ((List.range n).map (fun i => m (pa + i))))

/-- What stands at each physical address after one atomic operation. -/
def atomStep (op : AtomVar) (m : Nat → Byte) (pa : Nat) (opnd new : DWord) : Nat → Byte :=
  fun q => if pa ≤ q ∧ q < pa + op.bytes then (atomValue op (valueAt m pa op.bytes) opnd new).extractLsb' (8 * (q - pa)) 8 else m q

/-- Several atomic operations, in order: what stands in memory after them, and the old value of each. -/
def atomRun (op : AtomVar) : (Nat → Byte) → List (Nat × Nat × DWord × DWord) → (Nat → Byte) × List (Nat × DWord)
  | m, [] => (m, [])
  | m, (lane, pa, opnd, new) :: r =>
    let z := atomRun op (atomStep op m pa opnd new) r
    (z.1, (lane, valueAt m pa op.bytes) :: z.2)

/-- The first piece of the access that an operation acts on: the only one, as its address is aligned. -/
def AOp.at' (o : AOp) (ls : List Located) : Option (Nat × Nat × Trans) := (ls.find? (fun k => k.acc == o.acc)).bind (fun k => k.parts.head?)

/-- The operations of an atomic instruction with their physical addresses, in ascending lane order (R180). -/
def Ctx.atomOps (x : Ctx) (l : LArgs) (op : AtomVar) (ls : List Located) : List (Nat × Nat × DWord × DWord) :=
  (x.aops l op).filterMap (fun o => (o.at' ls).map (fun p => (o.lane, p.2.2.pa, BitVec.ofNat 64 o.opnd, BitVec.ofNat 64 o.new)))

/-- The operations of an atomic instruction through the S segment, each with a name of the place it acts on. -/
def Ctx.stashOps (x : Ctx) (l : LArgs) (op : AtomVar) (place : Nat → Nat) : List (Nat × Nat × DWord × DWord) :=
  (x.aops l op).map (fun o => (o.lane, place (x.stashOff o.acc), BitVec.ofNat 64 o.opnd, BitVec.ofNat 64 o.new))

/-- The outstanding result of an atomic instruction: the old value that each lane's operation met. -/
def atomWrites (op : AtomVar) (l : LArgs) (olds : List (Nat × DWord)) : List RegWrite :=
  olds.flatMap (fun r => loadWrites (atomForm op l) [r.1] (leBytes op.bytes r.2.toNat))

/-- The posted REDs of an instruction, in ascending lane order, with the keys they take (R195). -/
def Ctx.posts (x : Ctx) (l : LArgs) (op : AtomVar) (ls : List Located) : List PostedRed :=
  ((x.aops l op).filterMap (fun o => (o.at' ls).map (fun p => (o, p)))).mapIdx (fun j e =>
    ⟨x.s.nextId + j, x.g.gid, x.s.tick.toNat, e.1.lane, x.agent, e.2.2.2.pa, e.2.1, op, BitVec.ofNat 64 e.1.opnd⟩)

end Sys2Proof.Machine
end

