-- ==== Sys2Proof/Safety/Control.lean ====
section
/-! DEFINITION. What claims say of lanes that leave a clause, of results that a group waits for, of engine commands and matrix
operations as they are issued, and of the entry to a handler. -/
namespace Sys2Proof.Machine

/-- Index registers after the post-steps of an instruction's operands; nothing else of them has changed. -/
def Ctx.stepped (x : Ctx) (ops : List Opnd) (h : Group) : Prop :=
  ∀ k l, l < 64 → h.look (.x k l) = x.afterSteps ops (.x k l) (x.g.look (.x k l))

/-- A ready instruction answers a next state in which only its group has changed, to the group that a function gives, but for
the post-steps of index registers. -/
def GoesTo (i : Instr) (nms : Ctx → List Named) (ok : Ctx → Prop) (f : Ctx → Group) : Prop :=
  ∀ s x, Runs i nms s x → ok x →
    ∃ t h, Sys2Proof.Machine.exec i s = .next t ∧ t.onlyGroup s h ∧ x.stepped (namedOps (nms x)) h ∧ h = { f x with x := h.x }

/-- `GoesTo` with a result outstanding (R106, R107). -/
def GoesToWith (i : Instr) (nms : Ctx → List Named) (ok : Ctx → Prop) (f : Ctx → Group) (names : Ctx → List RegName) (busy : Bool)
    (writes : Ctx → List RegWrite) : Prop :=
  ∀ s x, Runs i nms s x → ok x →
    ∃ t h, Sys2Proof.Machine.exec i s = .next t ∧ t.onlyGroup { s with nextId := s.nextId + 1 } h ∧ x.stepped (namedOps (nms x)) h
      ∧ h = { f x with x := h.x, outs := (f x).outs ++ [⟨s.nextId, names x, busy, writes x, 0, .ready⟩] }

/-- An instruction whose active lanes leave the clause and receive a status in a register that lands later (R41, R201). -/
def LeavesWith (i : Instr) (nms : Ctx → List Named) (ok : Ctx → Prop) (d : Opnd) (status : Nat) : Prop :=
  let writes (x : Ctx) : List RegWrite := x.lanes.flatMap (fun l => x.landing d l (BitVec.ofNat 32 status))
  let none' (x : Ctx) : Prop := x.outNames d 1 = [] ∧ writes x = []
  GoesToWith i nms (fun x => ok x ∧ ¬none' x) (fun x => (x.leaveNext x.g).advance) (fun x => x.outNames d 1) d.isInd writes ∧
  GoesTo i nms (fun x => ok x ∧ none' x) (fun x => (x.leaveNext x.g).advance)

/-- The join counter that a WAIT reads: none when it names none, else where its 4 bytes stand (R201), with nothing of the group
before it still on its way. -/
def Ctx.joinAt (x : Ctx) (c : Opnd) (jv : Option Nat) : Prop :=
  (c.isZero = true ∧ jv = none) ∨
  (c.isZero = false ∧ ∃ k, x.locate 0 4 .read false [⟨x.lanes.getD 0 0, x.act, (x.g.word64 c 0).toNat⟩] = .ok [k] ∧
    memPoison x.s x.agent x.t.vi [k] = none ∧ jv = some k.va ∧ x.orderWaits true = false ∧ (∀ q ∈ x.s.mem.reds, q.gid ≠ x.g.gid) ∧
    ∀ q ∈ x.s.mem.posted, q.gid ≠ x.g.gid)

/-- Does a WAIT's combination of conditions hold (R201)? -/
def Ctx.combined (x : Ctx) (all : Bool) (conds : List (BitVec 16)) (jv : Option Nat) : Prop :=
  if all then ∀ k ∈ conds, condHolds x.s x.g x.t jv k = true else ∃ k ∈ conds, condHolds x.s x.g x.t jv k = true

/-- The registrations after a release at a scope: those of the core's L1 and stash, and of other stashes the bytes that completed
commands of the core wrote (R189, R254; DEDUCED, log 65). -/
def Ctx.releasedRegs (x : Ctx) (sc : Scope) : List Reg :=
  let k : Rls := ⟨l1Of x.g.core, sc, x.t.paired⟩
  let mine (e : PlainByte) : Bool := e.writer.core == some x.g.core
  x.s.mem.regs.map (fun r =>
    if r.owner = l1Of x.g.core ∨ r.owner = ⟨.stash, x.g.core⟩ then r.release k
    else if r.owner.kind = .stash ∧ r.plain.any mine = true ∧ r.pa ∉ x.s.busyWords then r.releaseIf k mine else r)

/-- Memory after a release by a group with no posted RED: no byte of it has changed (R198, R254). -/
def Ctx.releasedMem (x : Ctx) (sc : Scope) (m : Mem) : Prop :=
  m = { x.s.mem with regs := x.releasedRegs sc, held := m.held } ∧ ∀ pa, m.byte pa = x.s.mem.byte pa

/-- The lanes of a transfer: each active lane's vpc is its target, reached by a transfer, and it has left the clause; every other
lane is as it was (R105, R233). -/
def Ctx.transferred (x : Ctx) (target : Nat → Word) (k : Group) : Prop :=
  k = { x.g with vpc := k.vpc, transfer := x.g.transfer ||| x.act, v := k.v, poisonV := k.poisonV, clause := some { x.c with lanes := x.c.lanes &&& ~~~x.act } } ∧
  ∀ l, l < 64 → k.vpc.get l = if l ∈ x.lanes then target l else x.g.vpc.get l

/-- The place that a write of a result goes to. -/
def RegWrite.place : RegWrite → RegPlace
  | .v n l _ => .v n l
  | .s n _ => .s n

/-- What a write of a result leaves there. -/
def RegWrite.leaves : RegWrite → DWord
  | .v _ _ w => w.setWidth 64
  | .s _ w => w

/-! ### Engine commands -/

/-- An engine command as an instruction makes it (R205, R206). -/
def Ctx.command (x : Ctx) (op : EngineOp) (acq : AcqPart) (rel : Rel) (cmp ua ub : Nat) (control : DWord) : Cmd :=
  { key := x.s.nextId, op := op, gid := x.g.gid, task := x.t.uid, core := x.g.core, opcode := (x.returnPoint false).opcode
    acq := acq, rel := rel, cmp := cmp, ua := ua, ub := ub, control := control, segs := x.g.segs, deliveries := [], routeFault := false
    refused := 0, done := 0, fetched := 0, parts := [], sub := 0, ended := false, words := [], reached := [], cleared := [] }

/-- A group's completion counter counts a command that is issued (R204, R205). -/
def Group.counts (g : Group) (cmp : Nat) : Group := if cmp < 6 then { g with e := g.e.set cmp (g.e.get cmp + 1) } else g

/-- An instruction that issues an engine command: it waits while there is no room; a control error ends it before it starts; else
it joins its core's queue with its deliveries, and no byte of memory has changed (R205 to R211). Nothing that the group deferred
makes it wait. -/
def Commands (i : Instr) (nms : List Named) (cmd : Ctx → Cmd) (ud : Ctx → Nat) : Prop :=
  ∀ s x, Runs i (fun _ => nms) s x → x.any = true → x.orderWaits true = false →
    let c := cmd x
    (s.engineRoom c x.g = false → Sys2Proof.Machine.exec i s =
      .next ({ s with nextId := s.nextId + 1 }.modGroup x.g.gid (fun g => { g with hold := .engine c (ud x) }))) ∧
    (s.engineRoom c x.g = true → c.controlBad (ud x) = true → Sys2Proof.Machine.exec i s =
      .next ({ s with nextId := s.nextId + 1, cmds := s.cmds ++ [{ c with sub := 1, ended := true }] }.modGroup x.g.gid
        (fun g => (g.counts c.cmp).advance))) ∧
    (s.engineRoom c x.g = true → c.controlBad (ud x) = false → x.noReds → (∀ q ∈ s.mem.posted, q.gid ≠ x.g.gid) →
      let routed := c.op ≠ .cpy ∧ c.op ≠ .stflush ∧ (controlOf c.control.toNat).length ≠ 0
      ∀ dl cut, (routed → c.route s x.t.vi (ud x) = (dl, cut, 0)) → (¬routed → dl = [] ∧ cut = false) →
      let c1 := { c with deliveries := dl, routeFault := cut }
      let c2 := { c1 with refused := c1.refusedNow s }
      ∃ (m : Mem) (ar : List ArrEntry), Sys2Proof.Machine.exec i s = .next { s.modGroup x.g.gid (fun g => (g.counts c.cmp).advance) with
          nextId := s.nextId + 1, cmds := s.cmds ++ [c2], mem := m, arrays := ar } ∧
        m = { s.mem with copies := m.copies, lines := m.lines, stash := m.stash, stashPoison := m.stashPoison } ∧
        (∀ pa, m.byte pa = s.mem.byte pa) ∧ lensTook s.arrays ar ∧
        (c.acq = none ∨ (∀ n, s.lensPending x.g.core n = false) → ar = s.arrays))

/-! ### Matrix operations -/

/-- An entry of a matrix array as an instruction makes it (R225). -/
def Ctx.arrayEntry (x : Ctx) (kind : ArrKind) (cores : List Nat) (acc : BitVec 3) : ArrEntry :=
  { key := x.s.nextId, gid := x.g.gid, task := x.t.uid, kind := kind, stage := .accepted, cores := cores, acc := acc.toNat
    z := false, mapA := 0, mapB := 0, slotA := 0, slotB := 0, segBase := [], metaWords := [], toRead := [], got := [], abort := 0 }

/-- No follower of a paired operation, and some lane is active: a matrix instruction may go on (R227). -/
def Ctx.mayUseArray (x : Ctx) : Prop := x.s.slaved x.g.core = false ∧ x.any = true

/-! ### Handlers -/

/-- What a trap needs to enter the group's handler (R304): the state u holds the cause record in the trap area. -/
structure Ctx.Enters (x : Ctx) (tr : Trap) (r : ReturnPoint) (u : State) : Prop where
  outside : x.g.gsrH = false
  cls : tr.cls ≠ 12
  handler : (x.s.viOf x.t.vi).handler ≠ 0
  aligned : ((x.s.viOf x.t.vi).handler - (x.g.seg 4).1).toNat % 8 = 0
  inside : ((x.s.viOf x.t.vi).handler - (x.g.seg 4).1).toNat < (x.g.seg 4).2.toNat
  area : x.g.layoutEnd x.t + 128 ≤ (x.g.seg 5).2.toNat
  written : x.s.groupPut x.g x.t.vi x.g.trapArea (causeRecord tr r x.c.lanes x.s.tick) = (u, true)

/-- A group in its handler (R304): the lanes of its clause are at the handler's entry, gsr.H is set, the clause is left. -/
def Group.handles (g : Group) (entry : Word) (mask : DWord) (tr : Trap) (passed : Option (Nat × DWord)) : Group :=
  { g.arriveAt mask entry with
    gsrH := true, resume := mask, clause := none, hold := .none, repDone := 0, repLeft := 0, repSteps := none
    entryCls := tr.cls, entrySub := tr.sub, resumeIssue := none, passed := passed }

/-- The state in which the group has entered its handler. -/
def Ctx.entered (x : Ctx) (tr : Trap) (u : State) : State :=
  u.modGroup x.g.gid (fun g => g.handles (BitVec.ofNat 32 ((x.s.viOf x.t.vi).handler - (x.g.seg 4).1).toNat) x.c.lanes tr
    (x.g.clause.map (fun c => (c.start, c.issued))))

end Sys2Proof.Machine
end

