-- ==== Sys2Proof/Certificates/Slice0/Obligations.lean ====
section
/-! DEFINITION. The claims for the provers. -/
open Sys2Proof Sys2Proof.Machine

/-! ### Family 0 -/

/-- O1. Integer arithmetic computes as the table of R144 says, in every active lane, the packed forms in each 16-bit half, and changes
nothing else. -/
def Obligations.IntegerArithmetic : Prop :=
  (∀ g d a b, LaneWise (.iadd g d a b) d [a, b] (fun x l => x.g.word a l + x.g.word b l) noFlags) ∧
  (∀ g d a b, LaneWise (.isub g d a b) d [a, b] (fun x l => x.g.word a l - x.g.word b l) noFlags) ∧
  (∀ g d a b, LaneWise (.imul g d a b) d [a, b] (fun x l => x.g.word a l * x.g.word b l) noFlags) ∧
  (∀ g sgn d a b, LaneWise (.imulh g sgn d a b) d [a, b] (fun x l => wordMulHigh sgn (x.g.word a l) (x.g.word b l)) noFlags) ∧
  (∀ g d a b c, LaneWise (.imad g d a b c) d [a, b, c]
    (fun x l => x.g.word a l * x.g.word b l + x.g.word c l) noFlags) ∧
  (∀ g sgn d a b, LaneWise (.imin g sgn d a b) d [a, b] (fun x l => wordMin sgn (x.g.word a l) (x.g.word b l)) noFlags) ∧
  (∀ g sgn d a b, LaneWise (.imax g sgn d a b) d [a, b] (fun x l => wordMax sgn (x.g.word a l) (x.g.word b l)) noFlags) ∧
  (∀ g d a, LaneWise (.iabs g d a) d [a] (fun x l => if (x.g.word a l).msb then 0 - x.g.word a l else x.g.word a l) noFlags) ∧
  (∀ g d a, LaneWise (.ineg g d a) d [a] (fun x l => 0 - x.g.word a l) noFlags) ∧
  (∀ g sgn d a b, LaneWise (.iaddSat g sgn d a b) d [a, b] (fun x l =>
    wordClamp (wordLeast sgn) (wordGreatest sgn) (wordInt sgn (x.g.word a l) + wordInt sgn (x.g.word b l))) noFlags) ∧
  (∀ g sgn d a b, LaneWise (.isubSat g sgn d a b) d [a, b] (fun x l =>
    wordClamp (wordLeast sgn) (wordGreatest sgn) (wordInt sgn (x.g.word a l) - wordInt sgn (x.g.word b l))) noFlags) ∧
  (∀ g d a b, LaneWise (.iaddX2 g d a b) d [a, b] (fun x l => wordHalves (· + ·) (x.g.word a l) (x.g.word b l)) noFlags) ∧
  (∀ g d a b, LaneWise (.isubX2 g d a b) d [a, b] (fun x l => wordHalves (· - ·) (x.g.word a l) (x.g.word b l)) noFlags) ∧
  (∀ g sgn d a b, LaneWise (.iminX2 g sgn d a b) d [a, b]
    (fun x l => wordHalves (wordMin sgn) (x.g.word a l) (x.g.word b l)) noFlags) ∧
  (∀ g sgn d a b, LaneWise (.imaxX2 g sgn d a b) d [a, b]
    (fun x l => wordHalves (wordMax sgn) (x.g.word a l) (x.g.word b l)) noFlags)

/-- O2. Logic and shifts, where a count of 32 or more shifts everything out (R145); bit fields, counts and reversal (R146, R147); SEL
chooses by a predicate and ISETP writes a comparison, combined with a predicate where the form has one (R148, R149). -/
def Obligations.LogicFieldsAndCompares : Prop :=
  (∀ g d a b, LaneWise (.and g d a b) d [a, b] (fun x l => x.g.word a l &&& x.g.word b l) noFlags) ∧
  (∀ g d a b, LaneWise (.or g d a b) d [a, b] (fun x l => x.g.word a l ||| x.g.word b l) noFlags) ∧
  (∀ g d a b, LaneWise (.xor g d a b) d [a, b] (fun x l => x.g.word a l ^^^ x.g.word b l) noFlags) ∧
  (∀ g d a, LaneWise (.not g d a) d [a] (fun x l => ~~~(x.g.word a l)) noFlags) ∧
  (∀ g d a b, LaneWise (.shl g d a b) d [a, b] (fun x l => x.g.word a l <<< (x.g.word b l).toNat) noFlags) ∧
  (∀ g d a b, LaneWise (.shr g d a b) d [a, b] (fun x l => x.g.word a l >>> (x.g.word b l).toNat) noFlags) ∧
  (∀ g d a b, LaneWise (.sar g d a b) d [a, b] (fun x l => (x.g.word a l).sshiftRight (x.g.word b l).toNat) noFlags) ∧
  (∀ g d a b, LaneWise (.rot g d a b) d [a, b] (fun x l => (x.g.word a l).rotateLeft ((x.g.word b l).toNat % 32)) noFlags) ∧
  (∀ g sgn d a b, LaneWise (.bfe g sgn d a b) d [a, b] (fun x l => wordExtract sgn (x.g.word a l) (x.g.word b l)) noFlags) ∧
  (∀ g d a b c, LaneWise (.bfi g d a b c) d [a, b, c]
    (fun x l => wordInsert (x.g.word a l) (x.g.word b l) (x.g.word c l)) noFlags) ∧
  (∀ g d a, LaneWise (.popc g d a) d [a] (fun x l => wordPop (x.g.word a l)) noFlags) ∧
  (∀ g d a, LaneWise (.clz g d a) d [a] (fun x l => wordLead (x.g.word a l)) noFlags) ∧
  (∀ g d a, LaneWise (.brev g d a) d [a] (fun x l => wordReverse (x.g.word a l)) noFlags) ∧
  (∀ g d a b n, LaneWise (.sel g d a b (.p n)) d [a, b, .p n]
    (fun x l => if x.g.pget n.toNat l then x.g.word a l else x.g.word b l) noFlags) ∧
  (∀ g sgn bop cmp d a b c, LaneWise (.isetp g sgn bop cmp d a b c) d [a, b, c]
    (fun x l => predWord (combine bop (wordCompare sgn cmp (x.g.word a l) (x.g.word b l)) (x.g.word c l == 1))) noFlags)

/-- O3. MOV (R148): a uniform source is copied whole to a uniform register; fsr takes five bits, and may lose flags; every
other destination takes the 32-bit value. IDXSET replaces one field of an index register and IDXGET reads one, step alone with its
sign (R55, R173). Where the source steps the destination's own index register, the value written is the one that is stepped: that is the
model's reading (log 34). -/
def Obligations.MovesAndIndexFields : Prop :=
  (∀ g n m, Computes (.mov g (.s n) (.s m)) (fun _ => namesA (.s n) [.s m]) always
    (fun x => if x.any then [(.s n.toNat, x.g.sget m.toNat)] else []) (fun _ => 0)) ∧
  (∀ g a, Changes (.mov g .fsr a) (fun _ => namesA .fsr [a]) (fun _ => a.isInd = false)
    (fun x h => if x.any then { h with fsr := (x.g.word a 0).setWidth 5 } else h)) ∧
  (∀ g d a, d ≠ .fsr → (∀ n m, ¬(d = .s n ∧ a = .s m)) → LaneWise (.mov g d a) d [a] (fun x l => x.g.word a l) noFlags) ∧
  (∀ g f k a, LaneWise (.idxset g f (.x k) a) (.x k) [a]
    (fun x l => withBits (idxPlace f).1 (idxPlace f).2 (x.g.xget k.toNat l) (x.g.word a l)) noFlags) ∧
  (∀ g f d k, LaneWise (.idxget g f d (.x k)) d [.x k]
    (fun x l => if f = .step then ((x.g.xget k.toNat l).extractLsb' 24 4).signExtend 32
      else withBits 0 (idxPlace f).2 0 ((x.g.xget k.toNat l) >>> (idxPlace f).1)) noFlags)

/-- O4. The 64-bit address instructions, in registers, and with an immediate (R150, R151); the immediate forms have the meaning of their
namesakes with the immediate as b, and MOVI builds constants (R151). -/
def Obligations.AddressesAndImmediates : Prop :=
  (∀ g sx sh d a b, Computes (.lea g sx sh d a b)
    (fun _ => [⟨0, .op d (wideCount d), false⟩, ⟨1, .op a (wideCount a), true⟩, ⟨2, .op b 1, true⟩]) always
    (fun x => (x.workLanes d).flatMap (fun l => widePlaces d l (x.g.word64 a l +
      ((if sx then (x.g.word b l).signExtend 64 else (x.g.word b l).setWidth 64) <<< sh.toNat)))) (fun _ => 0)) ∧
  (∀ g d a b, Computes (.iadd64 g d a b)
    (fun _ => [⟨0, .op d (wideCount d), false⟩, ⟨1, .op a (wideCount a), true⟩, ⟨2, .op b (wideCount b), true⟩]) always
    (fun x => (x.workLanes d).flatMap (fun l => widePlaces d l (x.g.word64 a l + x.g.word64 b l))) (fun _ => 0)) ∧
  (∀ g u d a imm, Computes (.leaImm g u d a imm)
    (fun _ => [⟨0, .op (bOpnd u d) (wideCount (bOpnd u d)), false⟩, ⟨1, .op (bOpnd u a) (wideCount (bOpnd u a)), true⟩]) always
    (fun x => (x.workLanes (bOpnd u d)).flatMap (fun l => widePlaces (bOpnd u d) l (x.g.word64 (bOpnd u a) l + imm.signExtend 64)))
    (fun _ => 0)) ∧
  (∀ g u d a imm, LaneWise (.iaddImm g u d a imm) (bOpnd u d) [bOpnd u a] (fun x l => x.g.word (bOpnd u a) l + imm) noFlags) ∧
  (∀ g u d a imm, LaneWise (.imulImm g u d a imm) (bOpnd u d) [bOpnd u a] (fun x l => x.g.word (bOpnd u a) l * imm) noFlags) ∧
  (∀ g u d a imm, LaneWise (.andImm g u d a imm) (bOpnd u d) [bOpnd u a] (fun x l => x.g.word (bOpnd u a) l &&& imm) noFlags) ∧
  (∀ g u d a imm, LaneWise (.orImm g u d a imm) (bOpnd u d) [bOpnd u a] (fun x l => x.g.word (bOpnd u a) l ||| imm) noFlags) ∧
  (∀ g u d a imm, LaneWise (.xorImm g u d a imm) (bOpnd u d) [bOpnd u a] (fun x l => x.g.word (bOpnd u a) l ^^^ imm) noFlags) ∧
  (∀ g u d a imm, LaneWise (.shlImm g u d a imm) (bOpnd u d) [bOpnd u a] (fun x l => x.g.word (bOpnd u a) l <<< imm.toNat) noFlags) ∧
  (∀ g u d a imm, LaneWise (.shrImm g u d a imm) (bOpnd u d) [bOpnd u a] (fun x l => x.g.word (bOpnd u a) l >>> imm.toNat) noFlags) ∧
  (∀ g u d a imm, LaneWise (.sarImm g u d a imm) (bOpnd u d) [bOpnd u a]
    (fun x l => (x.g.word (bOpnd u a) l).sshiftRight imm.toNat) noFlags) ∧
  (∀ g u d imm, LaneWise (.movi g u d imm) (bOpnd u d) [] (fun _ _ => imm) noFlags) ∧
  (∀ g d imm, Computes (.moviHi g d imm) (fun _ => namesA (bOpnd true d) []) always
    (fun x => if x.any then [(.s (d.toNat % 64), imm ++ (x.g.sget (d.toNat % 64)).setWidth 32)] else []) (fun _ => 0)) ∧
  (∀ g d imm, Computes (.moviSx g d imm) (fun _ => namesA (bOpnd true d) []) always
    (fun x => if x.any then [(.s (d.toNat % 64), imm.signExtend 64)] else []) (fun _ => 0))

/-! ### Family 1 -/

/-- The FP32 results of a lane-wise instruction over two sources with modifiers. -/
def Sys2Proof.float2 (mods : BitVec 6) (a b : Opnd) (f : Bool → Nat → Nat → Nat × Flags) (x : Ctx) (l : Nat) : Nat × Flags :=
  f x.l.ftz (x.fword mods 0 a l) (x.fword mods 1 b l)

/-- The FP32 results of a lane-wise instruction over three sources with modifiers. -/
def Sys2Proof.float3 (mods : BitVec 6) (a b c : Opnd) (f : Bool → Nat → Nat → Nat → Nat × Flags) (x : Ctx) (l : Nat) : Nat × Flags :=
  f x.l.ftz (x.fword mods 0 a l) (x.fword mods 1 b l) (x.fword mods 2 c l)

/-- Two 16-bit results, with the flags of both (R156). -/
def Sys2Proof.halfPair (h : Nat → Nat × Flags) : Nat × Flags := ((codeHalves (h 0) (h 1)).toNat, (h 0).2 ||| (h 1).2)

/-- A lane-wise instruction whose result and flags a function of the context gives. -/
def Sys2Proof.LaneWiseBy (i : Instr) (d : Opnd) (srcs : List Opnd) (f : Ctx → Nat → Nat × Flags) : Prop :=
  LaneWise i d srcs (fun x l => codeWord (f x l)) (fun x l => (f x l).2)

/-- O5. FP32 arithmetic: the modifiers, one operation with one rounding by the launch's ftz, and the flags raised (R141, R152,
R155, R158); FMIN, FMAX, FCLAMP and FSETP (R153, R154), and the packed formats (R156, R157). The sign of FDOT4's exact zero sums is the
model's choice (log 59). -/
def Obligations.FloatInstructions : Prop :=
  (∀ g r m d a b, LaneWiseBy (.fadd g r m d a b) d [a, b] (float2 m a b (fmtF32.add r))) ∧
  (∀ g r m d a b, LaneWiseBy (.fsub g r m d a b) d [a, b] (float2 m a b (fmtF32.sub r))) ∧
  (∀ g r m d a b, LaneWiseBy (.fmul g r m d a b) d [a, b] (float2 m a b (fmtF32.mul r))) ∧
  (∀ g r m d a b c, LaneWiseBy (.ffma g r m d a b c) d [a, b, c] (float3 m a b c (fmtF32.fma r))) ∧
  (∀ g r m d a, LaneWiseBy (.frnd g r m d a) d [a] (fun x l => frnd r x.l.ftz (x.fword m 0 a l))) ∧
  (∀ g u d a imm, LaneWiseBy (.faddImm g u d a imm) (bOpnd u d) [bOpnd u a]
    (fun x l => fmtF32.add .rne x.l.ftz (x.g.word (bOpnd u a) l).toNat imm.toNat)) ∧
  (∀ g u d a imm, LaneWiseBy (.fmulImm g u d a imm) (bOpnd u d) [bOpnd u a]
    (fun x l => fmtF32.mul .rne x.l.ftz (x.g.word (bOpnd u a) l).toNat imm.toNat)) ∧
  (∀ g m d a b, LaneWiseBy (.fmin g m d a b) d [a, b] (float2 m a b (fmtF32.minmax false))) ∧
  (∀ g m d a b, LaneWiseBy (.fmax g m d a b) d [a, b] (float2 m a b (fmtF32.minmax true))) ∧
  (∀ g m d a b c, LaneWiseBy (.fclamp g m d a b c) d [a, b, c] (float3 m a b c (fun ftz u v w =>
    let r := fmtF32.minmax true ftz u v
    ((fmtF32.minmax false ftz r.1 w).1, r.2 ||| (fmtF32.minmax false ftz r.1 w).2)))) ∧
  (∀ g bop m cmp d a b c, LaneWise (.fsetp g bop m cmp d a b c) d [a, b, c]
    (fun x l => predWord (combine bop (fmtF32.compare cmp x.l.ftz (x.fword m 0 a l) (x.fword m 1 b l)).1 (x.g.word c l == 1)))
    (fun x l => (fmtF32.compare cmp x.l.ftz (x.fword m 0 a l) (x.fword m 1 b l)).2)) ∧
  (∀ g bf m d a b, LaneWiseBy (.hadd2 g bf m d a b) d [a, b]
    (fun x l => halfPair (fun k => (halfFmt bf).add .rne x.l.ftz (x.fhalf m 0 a k l) (x.fhalf m 1 b k l)))) ∧
  (∀ g bf m d a b c, LaneWiseBy (.hfma2 g bf m d a b c) d [a, b, c]
    (fun x l => halfPair (fun k => (halfFmt bf).fma .rne x.l.ftz (x.fhalf m 0 a k l) (x.fhalf m 1 b k l) (x.fhalf m 2 c k l)))) ∧
  (∀ g e5 m d a b c, LaneWiseBy (.fdot4 g e5 m d a b c) d [a, b, c]
    (fun x l => fdot4 e5 x.l.ftz (x.fbytes m 0 a l) (x.fbytes m 1 b l) (x.fword m 2 c l)))

/-! ### Family 2 -/

/-- O6. CVT converts one element: a 32-bit destination takes the result, a narrow one keeps its other bits (R159, R160). -/
def Obligations.Conversions : Prop :=
  ∀ g dst src inK toJ rnd nanovf d a, (Instr.cvt g dst src inK toJ rnd nanovf d a).wf = true →
    let nms := fun (_ : Ctx) => ([⟨0, .op d 1, fmtWidth dst != 32⟩, ⟨1, .op a 1, true⟩] : List Named)
    let conv := fun (x : Ctx) (l : Nat) => fmtConvert dst rnd x.l.ftz nanovf
      (fmtValue src x.l.ftz (element (fmtWidth src) inK.toNat (x.g.word a l)))
    (fmtWidth dst = 32 → Computes (.cvt g dst src inK toJ rnd nanovf d a) nms Machine.always
      (fun x => x.inLanes d (fun l => codeWord (conv x l))) (fun x => x.lanesFlags d (fun l => (conv x l).2))) ∧
    (fmtWidth dst ≠ 32 → d.isS = false → Computes (.cvt g dst src inK toJ rnd nanovf d a) nms Machine.always
      (fun x => x.inLanes d (fun l => withElement (fmtWidth dst) toJ.toNat (x.g.word d l) (conv x l).1))
      (fun x => x.lanesFlags d (fun l => (conv x l).2))) ∧
    (fmtWidth dst ≠ 32 → ∀ n, d = .s n → Computes (.cvt g dst src inK toJ rnd nanovf d a) nms Machine.always
      (fun x => if x.any then [(.s n.toNat, withElement (fmtWidth dst) toJ.toNat (x.g.sget n.toNat) (conv x 0).1)] else [])
      (fun x => if x.any then (conv x 0).2 else 0))

/-- The conditions of a block conversion (R161): the slot, its band scale, its block scale and the register ranges. -/
def Sys2Proof.blockOk (k : Slot) (b c : Opnd) (a na d nd : Nat) : Prop :=
  k.quantOk = true ∧ k.bandOk c = true ∧ (k.block = 0 ↔ b.isZero = true) ∧ a + na ≤ 256 ∧ d + nd ≤ 256

/-- The block scale that CVTQ divides by, as m × 2^e, and whether code 0 was replaced by 1.0 (R94). -/
def Sys2Proof.quantScale (k : Slot) (code : Nat) : Nat × Int × Flags :=
  if k.block = 0 then (1, 0, 0) else if code = 0 then ((e3m5 0x60).1, (e3m5 0x60).2, flNV) else ((e3m5 code).1, (e3m5 code).2, 0)

/-- An instruction that computes and counts (R65, R96): in a team whose frame size is 0 nothing is counted; in one with a frame whose first
word is there, the sum over the lanes goes to it as a posted RED.add; where its F limit leaves no room for the word the instruction takes
the segment fault (R64). -/
def Sys2Proof.ComputesAndCounts (i : Instr) (nms : Ctx → List Named) (ok : Ctx → Prop) (res : Ctx → List (RegPlace × DWord))
    (fl : Ctx → Flags) (count : Ctx → Nat → Nat) : Prop :=
  Computes i nms (fun x => ok x ∧ x.l.frameSize = 0) res fl ∧
  (∀ s x, Runs i nms s x → ok x → x.any = true → x.l.frameSize ≠ 0 → x.orderWaits false = false → (x.g.seg 2).2.toNat < 4 →
    exec i s = .next (x.raise ⟨2, 0, x.act, 0, 2, 0, 0⟩)) ∧
  ∀ s x k p, Runs i nms s x → ok x → x.any = true → x.l.frameSize ≠ 0 → 4 ≤ (x.g.seg 2).2.toNat → (x.g.seg 2).1.toNat % 4 = 0 →
    x.orderWaits false = false → x.locate 2 4 .write true [⟨x.lanes.headD 0, x.act, 0⟩] = .ok [k] → k.parts = [p] → p.2.2.home = true →
    x.lensBlocks [k] = false →
    let s1 := s.noteTlb x.g.core x.t.vi p.1 p.2.2
    let red : PostedRed := ⟨s.nextId, x.g.gid, s.tick.toNat, x.lanes.headD 0, x.agent, p.2.2.pa, p.1, .add32,
      BitVec.ofNat 64 (x.lanes.map (count x)).sum⟩
    ∃ t h, exec i s = .next t ∧
      t.onlyGroup { s1 with mem := { s1.mem with reds := s.mem.reds ++ [red] }, nextId := s.nextId + 1 } h ∧
      x.left (namedOps (nms x)) (res x) h ∧ h.movesOn x.g.advance (fl x)

/-- O7. CVTQ writes the packed codes of each lane's block, CVTQ.auto the scale code after them (R94, R95, R161, R162);
CVTDQ gives back every element (R163); BSCALE writes its power of two (R97, R164).
In a team with a frame the number of elements that CVTQ or CVTQ.auto flushed to 0 is added to the team's uflo by a posted RED
(R96, R162). The flags after a step of CVTQ.auto and the codes of its overflows are the model's reading (log 28), and the order in which
CVTDQ's element meets its scales, and so when it raises NV, is its choice (log 59). -/
def Obligations.BlockConversions : Prop :=
  (∀ g slot n a b c,
    let r := fun (x : Ctx) (l : Nat) =>
      let k := x.slot slot.toNat
      let q := quantScale k ((x.g.word b l).toNat % 256)
      let t := bandScale k ((x.g.word c l).toNat % 2 ^ 16)
      let z := convertBlock k k.nanovf (x.blockIns k (vnum a) l) (q.1 * t.1) (q.2.1 + t.2.1)
      (packCodes k z.1, t.2.2 ||| z.2.1 ||| q.2.2, z.2.2)
    ComputesAndCounts (.cvtq g slot (.v n) a b c)
      (fun x => let k := x.slot slot.toNat
        [⟨0, .op (.v n) k.codeRegs, false⟩, ⟨1, .op a k.inputs, true⟩, ⟨2, .op b 1, true⟩, ⟨3, .op c 1, true⟩])
      (fun x => let k := x.slot slot.toNat
        blockOk k b c (vnum a) k.inputs n.toNat k.codeRegs)
      (fun x => x.lanes.flatMap (fun l => rowPlaces n.toNat l ((r x l).1.map (BitVec.ofNat 32))))
      (fun x => unionFlags (x.lanes.map (fun l => (r x l).2.1))) (fun x l => (r x l).2.2)) ∧
  (∀ g slot n a c,
    let r := fun (x : Ctx) (l : Nat) =>
      let k := x.slot slot.toNat
      let t := bandScale k ((x.g.word c l).toNat % 2 ^ 16)
      let z := autoBlock k (x.blockIns k (vnum a) l) t.1 t.2.1
      (packCodes k z.1 ++ [z.2.1], t.2.2 ||| z.2.2.1, z.2.2.2)
    ComputesAndCounts (.cvtqAuto g slot (.v n) a c)
      (fun x => let k := x.slot slot.toNat
        [⟨0, .op (.v n) (k.codeRegs + 1), false⟩, ⟨1, .op a k.inputs, true⟩, ⟨3, .op c 1, true⟩])
      (fun x => let k := x.slot slot.toNat
        k.quantOk = true ∧ k.bandOk c = true ∧ k.block ≠ 0 ∧ vnum a + k.inputs ≤ 256 ∧ n.toNat + k.codeRegs + 1 ≤ 256)
      (fun x => x.lanes.flatMap (fun l => rowPlaces n.toNat l ((r x l).1.map (BitVec.ofNat 32))))
      (fun x => unionFlags (x.lanes.map (fun l => (r x l).2.1))) (fun x l => (r x l).2.2)) ∧
  (∀ g slot n a b c,
    let r := fun (x : Ctx) (l : Nat) =>
      let k := x.slot slot.toNat
      let sc : Nat × Int := if k.block = 0 then (1, 0) else e3m5 ((x.g.word b l).toNat % 256)
      (List.range k.inputs).map (fun j => dequant k x.l.ftz
        (element (k.place j).2.1 (k.place j).2.2 (x.g.vget (vnum a + (k.place j).1) l)) sc.1 sc.2 ((x.g.word c l).toNat % 2 ^ 16))
    Computes (.cvtdq g slot (.v n) a b c)
      (fun x => let k := x.slot slot.toNat
        [⟨0, .op (.v n) k.inputs, false⟩, ⟨1, .op a k.codeRegs, true⟩, ⟨2, .op b 1, true⟩, ⟨3, .op c 1, true⟩])
      (fun x => let k := x.slot slot.toNat
        blockOk k b c (vnum a) k.codeRegs n.toNat k.inputs)
      (fun x => x.lanes.flatMap (fun l => rowPlaces n.toNat l ((r x l).map codeWord)))
      (fun x => unionFlags (x.lanes.flatMap (fun l => (r x l).map (fun v => v.2))))) ∧
  (∀ g slot d a,
    let r := fun (x : Ctx) (l : Nat) => bscale (fmtMax (x.slot slot.toNat).elt) x.l.ftz (fmtF32.read x.l.ftz (x.g.word a l).toNat)
    Computes (.bscale g slot d a) (fun _ => namesA d [a]) (fun x => (x.slot slot.toNat).quantOk = true)
      (fun x => x.inLanes d (fun l => codeWord (r x l))) (fun x => x.lanesFlags d (fun l => (r x l).2)))

/-- O8. The special functions are long-latency: each lane's result and its flags land later (R165). EXP2, LG2, RCP and RSQ take the code
that a free choice of the lane names (log 5); how far it lies from the exact value is no part of this. -/
def Obligations.SpecialFunctions : Prop :=
  (∀ g m d a b c, let r := fun (x : Ctx) l => fexp2 (x.pick l) x.l.ftz (x.fword m 0 a l) (x.fword m 1 b l) (x.fword m 2 c l)
    Defers (.exp2 g m d a b c) d (fun _ => namesA d [a, b, c]) (fun x l => codeWord (r x l)) (fun x l => (r x l).2)) ∧
  (∀ g m d a, let r := fun (x : Ctx) l => flg2 (x.pick l) x.l.ftz (x.fword m 0 a l)
    Defers (.lg2 g m d a) d (fun _ => namesA d [a]) (fun x l => codeWord (r x l)) (fun x l => (r x l).2)) ∧
  (∀ g m d a, let r := fun (x : Ctx) l => frcp (x.pick l) x.l.ftz (x.fword m 0 a l)
    Defers (.rcp g m d a) d (fun _ => namesA d [a]) (fun x l => codeWord (r x l)) (fun x l => (r x l).2)) ∧
  (∀ g m d a, let r := fun (x : Ctx) l => frsq (x.pick l) x.l.ftz (x.fword m 0 a l)
    Defers (.rsq g m d a) d (fun _ => namesA d [a]) (fun x l => codeWord (r x l)) (fun x l => (r x l).2)) ∧
  (∀ g m d a, let r := fun (x : Ctx) l => fsqrt x.l.ftz (x.fword m 0 a l)
    Defers (.sqrt g m d a) d (fun _ => namesA d [a]) (fun x l => codeWord (r x l)) (fun x l => (r x l).2))

/-! ### Family 3 -/

/-- O9. PERM reads the lane that b names, or c where there is no such lane, and its result lands later (R167); RFAL gives every
active lane the value of the lowest one (R168); votes over the active lanes (R169), and predicate logic (R172). -/
def Obligations.LanesVotesAndPredicates : Prop :=
  (∀ g d a b c, Defers (.perm g d a b c) d (fun x => x.crossNames d a
      ((x.lanes.filter (fun l => decide ((x.g.word b l).toNat < x.g.width))).map (fun l => (l, (x.g.word b l).toNat))) [b, c])
    (fun x l => if (x.g.word b l).toNat < x.g.width then x.g.word a (x.g.word b l).toNat else x.g.word c l) noFlags) ∧
  (∀ g d a, Computes (.rfal g d a) (fun x => x.crossNames d a (if x.any = true then [(x.lanes.headD 0, x.lanes.headD 0)] else []) []) Machine.always
    (fun x => x.inLanes d (fun _ => x.g.word a (x.lanes.headD 0))) (fun _ => 0)) ∧
  (∀ g neg d a, LaneWise (.voteAny g neg d a) d [a] (fun x _ => predWord (x.lanes.any (x.psource neg a))) noFlags) ∧
  (∀ g neg d a, LaneWise (.voteAll g neg d a) d [a] (fun x _ => predWord (x.lanes.all (x.psource neg a))) noFlags) ∧
  (∀ g neg d a, Computes (.voteBallot g neg d a) (fun _ => namesA d [a]) Machine.always
    (fun x => (x.workLanes d).flatMap (fun l => widePlaces d l (ofBits 64 (fun k => x.lanes.contains k && x.psource neg a k))))
    (fun _ => 0)) ∧
  (∀ g na nb d a b, LaneWise (.pand g na nb d a b) d [a, b] (fun x l => predWord (x.psource na a l && x.psource nb b l)) noFlags) ∧
  (∀ g na nb d a b, LaneWise (.por g na nb d a b) d [a, b] (fun x l => predWord (x.psource na a l || x.psource nb b l)) noFlags) ∧
  (∀ g na nb d a b, LaneWise (.pxor g na nb d a b) d [a, b] (fun x l => predWord (x.psource na a l ^^ x.psource nb b l)) noFlags) ∧
  (∀ g na d a, LaneWise (.pnot g na d a) d [a] (fun x l => predWord (!x.psource na a l)) noFlags) ∧
  (∀ g na d a, LaneWise (.pmov g na d a) d [a] (fun x l => predWord (x.psource na a l)) noFlags)

/-- The outstanding result of a reduction or scan in some lanes, with gsr.E noted (R49, R170, R171). -/
def Sys2Proof.reduces (i : Instr) (d a : Opnd) (lanes : Ctx → List Nat) (val : Ctx → Nat → Word) (fl : Ctx → Flags) : Prop :=
  let writes (x : Ctx) : List RegWrite := (lanes x).flatMap (fun l => x.landing d l (val x l))
  DefersWith i (fun _ => namesA d [a])
    (fun x => lanes x ≠ [] ∧ ¬(x.outNames d 1 = [] ∧ writes x = [] ∧ fl x = 0)) (fun x g => { g with gsrE := !x.any })
    (fun x => x.outNames d 1) d.isInd writes fl ∧
  ComputesWith i (fun _ => namesA d [a])
    (fun x => lanes x = [] ∨ (x.outNames d 1 = [] ∧ writes x = [] ∧ fl x = 0)) (fun x g => { g with gsrE := !x.any })
    (fun _ => []) (fun _ => 0)

/-- O10. An integer reduction combines the active lanes in any order, a uniform destination taking the identity when there is
none; an integer scan combines the active lanes up to each lane, or below it; gsr.E notes an empty set; a floating reduction combines
the active lanes by the tree of R47, idle lanes holding the identity (R47 to R49, R170, R171). -/
def Obligations.Reductions : Prop :=
  (∀ (op : RedOp), intReduction op = true →
    (∀ g d a, reduces (.redv g op d a) d a (fun x => if d.isS then [0] else x.lanes) (fun x _ => x.reduce op a x.lanes) (fun _ => 0)) ∧
    (∀ g d a, reduces (.scanv g op d a) d a Ctx.lanes (fun x l => x.reduce op a (x.lanes.filter (fun k => k ≤ l))) (fun _ => 0)) ∧
    (∀ g d a, reduces (.scanvExcl g op d a) d a Ctx.lanes (fun x l => x.reduce op a (x.lanes.filter (fun k => k < l))) (fun _ => 0))) ∧
  (∀ (op : RedOp), intReduction op = false →
    (∀ g d a, reduces (.redv g op d a) d a (fun x => if d.isS then [0] else x.lanes)
      (fun x _ => BitVec.ofNat 32 (redTree op x.l.ftz (x.treeVals op a)).1)
      (fun x => if x.any then (redTree op x.l.ftz (x.treeVals op a)).2 else 0)) ∧
    (∀ g d a, reduces (.scanv g op d a) d a Ctx.lanes
      (fun x l => BitVec.ofNat 32 ((scanTree op x.l.ftz (x.treeVals op a)).1.getD l 0))
      (fun x => (scanTree op x.l.ftz (x.treeVals op a)).2)) ∧
    (∀ g d a, reduces (.scanvExcl g op d a) d a Ctx.lanes
      (fun x l => BitVec.ofNat 32 ((scanTree op x.l.ftz ((redIdentity op :: x.treeVals op a).take x.g.width)).1.getD l 0))
      (fun x => (scanTree op x.l.ftz ((redIdentity op :: x.treeVals op a).take x.g.width)).2)))

/-- The places of the operands d, a, b and c in a format A word: the lowest bit of each 8-bit field (R111). -/
def Sys2Proof.fieldBit : Nat → Nat
  | 0 => 15 | 1 => 23 | 2 => 31 | _ => 39

/-- O11. RPT sets up the repeats of the next word of the clause, which must be one it may repeat whatever lanes are active; in repeat j each
stepped register field of the word stands j strides higher, and every other bit of it is as it was; after a repeat the next one follows, done
and remaining counting it, and after the last the group goes on with its clause, or leaves it, with no repeat state (R174 to R177). That a
next word beyond the C limit does not stop RPT, and traps when it is issued, is the model's reading (log 17). -/
def Obligations.Repeats : Prop :=
  (∀ g steps stride count s x, Runs (.rpt g steps stride count) (fun _ => []) s x →
    ∀ w, x.c.words[x.c.index + 1]? = some w →
      (∀ v, w = some v → repeatOk x.l.slots v.toNat steps (count.toNat + 1) (stride.toNat + 1) = true) →
      exec (.rpt g steps stride count) s = .next (s.modGroup x.g.gid (fun h =>
        Group.repeating h x.c (count.setWidth 7 + 1) (steps, stride.toNat + 1)))) ∧
  (∀ (g : Group) (w : DWord), g.repLeft = 0 → g.wordNow w = w) ∧
  (∀ (g : Group) (w : DWord) steps k, g.repLeft ≠ 0 → g.repSteps = some (steps, k) →
    (∀ j < 4, (g.wordNow w).extractLsb' (fieldBit j) 8 =
      if steps.getLsbD j = true then w.extractLsb' (fieldBit j) 8 + BitVec.ofNat 8 (g.repDone.toNat * k) else w.extractLsb' (fieldBit j) 8) ∧
    (∀ b, b < 15 ∨ 47 ≤ b → (g.wordNow w).getLsbD b = w.getLsbD b)) ∧
  (∀ (g : Group) c, g.clause = some c →
    (1 < g.repLeft.toNat → g.advance = { g with repDone := g.repDone + 1, repLeft := g.repLeft - 1, hold := .none }) ∧
    (g.repLeft.toNat ≤ 1 → c.index + 1 < c.words.length → g.advance = { g with
      repDone := 0, repLeft := 0, repSteps := none, hold := .none, clause := some { c with index := c.index + 1 } }) ∧
    (g.repLeft.toNat ≤ 1 → c.words.length ≤ c.index + 1 → g.advance = { g.arriveAt c.lanes (BitVec.ofNat 32 (c.start + 8 * (c.header.toNat % 16 + 2))) with
      repDone := 0, repLeft := 0, repSteps := none, hold := .none, clause := none }))

/-! ### Family 4 -/

/-- O12. Loads from memory of this package: LD reads each byte's current value, or an older copy that the core's L1 holds of a
word no agent owns; LDA reads the current value. Neither changes a byte (R188, R189, R263).
Which of the two an LD gives is free (log 4). -/
def Obligations.MemoryLoads : Prop :=
  (∀ g sz sx l, Loads (.ld g sz sx l) l (loadForm sz sx true l) Ctx.mayRead) ∧
  (∀ g sz sx sc l, Loads (.lda g sz sx sc l) l (loadForm sz sx false l) (fun x pa b => b = x.s.mem.byte pa))

/-- O13. Stores to memory of this package: ST and STL leave the bytes of each lane's data register where its address says, the
highest lane's where several agree, and every other byte as it was (R180, R183, R188, R189). STL first releases at its scope; nothing
that the release waits for may be on its way.
That a uniform address keeps the highest active lane's vector data is the model's reading (log 27). -/
def Obligations.MemoryStores : Prop :=
  (∀ g sz l, Stores (.st g sz l) l sz.bytes true Machine.always) ∧
  (∀ g sz sc l, Stores (.stl g sz sc l) l sz.bytes false (fun x => x.nothingSent sc))

/-- O14. The S segment, through lines that are present and unmapped: a load reads the stash's own bytes, a store changes exactly
the bytes it stores to, and neither touches memory (R185, R188, R189); an STL there releases nothing, and an LDA is a plain load. -/
def Obligations.StashAccesses : Prop :=
  (∀ i l f, (∃ g sz sx, i = .ld g sz sx l ∧ f = loadForm sz sx true l) ∨ (∃ g sz sx sc, i = .lda g sz sx sc l ∧ f = loadForm sz sx false l) →
    ∀ s x, Runs i (fun _ => [dataName l (vregsOf f.bytes) false, addrName l]) s x → x.ReachesStash l f.bytes false f.plain →
      exec i s = .next { s.modGroup x.g.gid (fun g =>
          Group.advance { g with outs := g.outs ++ [⟨s.nextId, f.names, false,
            (x.accs l).flatMap (fun a => loadWrites f (a.lanes x.g.width) (s.mem.stashBytes x.g.core (x.stashOff a) f.bytes)), 0, .ready⟩] })
          with nextId := s.nextId + 1 }) ∧
  (∀ i l n plain, (∃ g sz, i = .st g sz l ∧ n = sz.bytes ∧ plain = true) ∨ (∃ g sz sc, i = .stl g sz sc l ∧ n = sz.bytes ∧ plain = false) →
    ∀ s x, Runs i (fun _ => [dataName l (vregsOf n) true, addrName l]) s x → x.ReachesStash l n true plain →
      ∃ t, exec i s = .next t ∧ t.besideMemory (s.modGroup x.g.gid Group.advance) ∧
        (∀ k, t.mem.stash.get k = (x.stashStored l n k).getD (s.mem.stash.get k)) ∧
        t.mem = { s.mem with stash := t.mem.stash, stashPoison := t.mem.stashPoison })

/-- The loads and stores of format L: the data's width, whether it stores, and whether it is plain. -/
def Sys2Proof.loadStore (i : Instr) (l : LArgs) (n : Nat) (write plain : Bool) : Prop :=
  (∃ g sz sx, i = .ld g sz sx l ∧ n = sz.bytes ∧ write = false ∧ plain = true) ∨
  (∃ g sz sx sc, i = .lda g sz sx sc l ∧ n = sz.bytes ∧ write = false ∧ plain = false) ∨
  (∃ g sz, i = .st g sz l ∧ n = sz.bytes ∧ write = true ∧ plain = true) ∨
  (∃ g sz sc, i = .stl g sz sc l ∧ n = sz.bytes ∧ write = true ∧ plain = false)

/-- The form of a load's result. -/
def Sys2Proof.loadOf (i : Instr) (l : LArgs) (f : LoadForm) : Prop :=
  (∃ g sz sx, i = .ld g sz sx l ∧ f = loadForm sz sx true l) ∨ (∃ g sz sx sc, i = .lda g sz sx sc l ∧ f = loadForm sz sx false l)

/-- O15. Mapped and absent stash lines (R185, R186, R189, R263). A load through present mapped lines gives each byte's current value, or for an
LD the copy in the stash of a byte whose word no agent owns (which of the two is free, log 4); a store leaves its bytes at the places in
memory that the lines are mapped to, in words that the stash then owns, or in the stash where a line is unmapped, and no other byte
changes. An access to a mapped absent line that no command writes starts its fill, and its group waits (log 19). Where only lines that no
fill brings are absent, a load is outstanding and an ATOM too, and stores and REDs are held. -/
def Obligations.StashLines : Prop :=
  (∀ i l f, loadOf i l f → ∀ s x, Runs i (fun _ => [dataName l (vregsOf f.bytes) false, addrName l]) s x →
    x.ReachesLines l f.bytes false f.plain → x.noReds →
    ∃ (m : Mem) (data : Acc → List Byte), exec i s = .next { s.modGroup x.g.gid (fun g =>
        Group.advance { g with outs := g.outs ++ [⟨s.nextId, f.names, false,
          (x.accs l).flatMap (fun a => loadWrites f (a.lanes x.g.width) (data a)), 0, .ready⟩] })
        with mem := m, nextId := s.nextId + 1 } ∧
      (∀ a ∈ x.accs l, (data a).length = f.bytes ∧ ∀ j < f.bytes,
        let off := x.stashOff a + j
        match s.mem.placeAt x.g.core off with
        | none => (data a).getD j 0 = s.mem.stash.get (stashKey x.g.core off)
        | some pa => (data a).getD j 0 = s.mem.byte pa ∨ (f.plain = true ∧ s.mem.reg? (wordOf (alignDown pa 8 + off % 8)) = none ∧
            (data a).getD j 0 = s.mem.stash.get (stashKey x.g.core off))) ∧
      m = { s.mem with copies := m.copies, stash := m.stash, stashPoison := m.stashPoison } ∧ m.stashKept s.mem ∧
      ∀ pa, m.byte pa = s.mem.byte pa) ∧
  (∀ i l n plain, loadStore i l n true plain → ∀ s x, Runs i (fun _ => [dataName l (vregsOf n) true, addrName l]) s x →
    x.ReachesLines l n true plain → x.noReds → (∀ g sz sc, i = .stl g sz sc l → x.nothingSent sc) →
    ∃ t, exec i s = .next t ∧ t.besideMemory (s.modGroup x.g.gid Group.advance) ∧
      (∀ pa, t.mem.byte pa = (x.mappedStored l n pa).getD (s.mem.byte pa)) ∧
      (∀ pa b, x.mappedStored l n pa = some b → ∃ r, t.mem.reg? (wordOf pa) = some r ∧ r.owner = ⟨.stash, x.g.core⟩) ∧
      (∀ k, ¬ s.mem.cacheKey k → t.mem.stash.get k = (x.stashStored l n k).getD (s.mem.stash.get k))) ∧
  (∀ i l n nms, (∃ write plain, loadStore i l n write plain ∧ nms = [dataName l (vregsOf n) write, addrName l]) ∨
      (∃ g op sc, (i = .atom g op sc l ∨ i = .red g op sc l) ∧ n = op.bytes ∧ nms = [atomName l op, addrName l]) →
    ∀ s x, Runs i (fun _ => nms) s x → l.seg = 1 → x.orderWaits true = false → (∃ aligned, x.segFault 1 n true aligned (x.accs l) = none ∧
        (aligned = false → ∃ plain, loadStore i l n plain true)) →
      (∀ acc, x.stashFault acc true n (x.accs l) = none) → (∃ ln, x.fillable n (x.accs l) ln) →
      ∃ (m : Mem) (ls : List (Nat × DWord)), exec i s = .next ({ s with mem := m }.modGroup x.g.gid (fun g => { g with hold := .fill x.g.core ls })) ∧
        (∀ ln, ln ∈ ls.map Prod.fst ↔ x.fillable n (x.accs l) ln) ∧ m = { s.mem with lines := m.lines } ∧
        ∀ c ln, m.line? c ln = (s.mem.line? c ln).map (fun r => if c = x.g.core ∧ ln ∈ ls.map Prod.fst then { r with filling := true } else r)) ∧
  (∀ i l f, loadOf i l f → ∀ s x, Runs i (fun _ => [dataName l (vregsOf f.bytes) false, addrName l]) s x → l.seg = 1 → x.orderWaits true = false →
    x.segFault 1 f.bytes false (!f.plain) (x.accs l) = none → (∀ ln, ¬ x.fillable f.bytes (x.accs l) ln) →
    (∃ a ∈ x.accs l, ∃ ln ∈ x.accLines f.bytes a, s.mem.present x.g.core ln = false) →
    ∃ plain, exec i s = .next { s.modGroup x.g.gid (fun g => Group.advance { g with outs := g.outs ++ [⟨s.nextId, f.names, false, [], 0,
        .stashLoad x.g.core { f with plain := plain } ((x.accs l).map (fun a => (a.lane, x.stashOff a))) l.aU x.lanes⟩] }) with
      nextId := s.nextId + 1 } ∧ (f.plain = true → plain = true)) ∧
  (∀ i l n red nms, (∃ plain, loadStore i l n true plain ∧ red = none ∧ nms = [dataName l (vregsOf n) true, addrName l]) ∨
      (∃ g op sc, i = .red g op sc l ∧ n = op.bytes ∧ red = some op ∧ nms = [atomName l op, addrName l]) →
    ∀ s x, Runs i (fun _ => nms) s x → l.seg = 1 → x.accs l ≠ [] → x.orderWaits true = false →
      (∃ aligned, x.segFault 1 n true aligned (x.accs l) = none ∧ (aligned = false → loadStore i l n true true)) →
      x.noReds → (∀ g sz sc, i = .stl g sz sc l → x.nothingSent sc) → (∀ ln, ¬ x.fillable n (x.accs l) ln) →
      (∀ a ∈ x.accs l, ∃ ln ∈ x.accLines n a, s.mem.present x.g.core ln = false) →
      ∃ t, exec i s = .next t ∧ t = { s.modGroup x.g.gid Group.advance with mem := t.mem, nextId := t.nextId } ∧
        (∀ pa, t.mem.byte pa = s.mem.byte pa) ∧ t.mem.stash = s.mem.stash ∧
        (t.mem.held.drop s.mem.held.length).map (fun h => (h.gid, h.core, h.addr, h.bytes, h.red)) =
          match red with
          | none => (x.accs l).map (fun a => (x.g.gid, x.g.core, x.stashOff a, (List.range n).map (x.dataByte l a), none))
          | some op => (x.aops l op).map (fun o => (x.g.gid, x.g.core, x.stashOff o.acc, leBytes n o.opnd, some op))) ∧
  (∀ g op sc l s x, Runs (.atom g op sc l) (fun _ => [atomName l op, addrName l]) s x → l.seg = 1 → x.orderWaits true = false →
    x.segFault 1 op.bytes true true (x.accs l) = none → x.stashFault .rmw true op.bytes (x.accs l) = none →
    (∀ ln, ¬ x.fillable op.bytes (x.accs l) ln) → x.noReds → x.nothingSent sc →
    (∃ a ∈ x.accs l, ∃ ln ∈ x.accLines op.bytes a, s.mem.present x.g.core ln = false) →
    ∃ m, x.releasedMem sc m ∧ exec (.atom g op sc l) s = .next { s.modGroup x.g.gid (fun g => Group.advance { g with
        outs := g.outs ++ [⟨s.nextId, (atomForm op l).names, false, [], 0, .stashAtom x.g.core op (atomForm op l)
          ((x.aops l op).map (fun o => (o.lane, x.stashOff o.acc, BitVec.ofNat 64 o.opnd, BitVec.ofNat 64 o.new))) false x.lanes none⟩] }) with
      mem := m, nextId := s.nextId + 1 })

/-- A located access to another chip, at the names of its bytes here. -/
def Sys2Proof.atRemote (vi : Nat) (k : Located) : Located :=
  { k with parts := k.parts.map (fun p => (p.1, p.2.1, { p.2.2 with pa := remoteKey vi p.1 })) }

/-- The pieces that a store writes, with their bytes. -/
def Sys2Proof.storePieces (x : Ctx) (l : LArgs) (n : Nat) (ls : List Located) : List (Nat × Trans × List Byte) :=
  ls.flatMap (fun k => k.parts.map (fun p =>
    (p.1, p.2.2, ((x.dataBytes l n ((k.acc.lanes x.g.width).getLastD 0)).drop (pieceOff k.va p.1)).take p.2.1)))

/-- O16. Memory of other chips and REPL pages (R183, R189, R262, R272). A store to another chip is posted: no byte changes yet; an STL there has
arrived before its group goes on. A store to a REPL page goes to the home replica and the writer's own at once, and to the replicas of the
other live dies later. A load of a REPL page reads the core's own replica, one of another chip's memory what stands there. -/
def Obligations.RemoteAndReplicas : Prop :=
  (∀ i l n plain, loadStore i l n true plain → ∀ s x ls, Runs i (fun _ => [dataName l (vregsOf n) true, addrName l]) s x →
    l.seg.toNat ≠ 1 → x.accs l ≠ [] → x.segFault l.seg.toNat n true (!plain) (x.accs l) = none → x.orderWaits (!plain) = false →
    x.locate l.seg.toNat n .write false (x.accs l) = .ok ls → x.lensBlocks ls = false →
    let es := storePieces x l n ls
    ((∀ e ∈ es, e.2.1.remote = true ∧ e.2.1.lost = false) → plain = true →
      exec i s = .next { s.modGroup x.g.gid Group.advance with
        mem := { s.mem with posted := s.mem.posted ++ es.mapIdx (fun j e => ⟨s.nextId + j, x.g.gid, x.t.vi, s.tick.toNat, e.1, e.2.2⟩) }
        nextId := s.nextId + es.length }) ∧
    ((∀ e ∈ es, e.2.1.remote = true ∧ e.2.1.lost = false ∧ s.outOfReach (dieOf x.g.core) (remoteKey x.t.vi e.1) e.2.2.length = false ∧
        s.homeRefuses (remoteKey x.t.vi e.1) = false ∧ s.mem.poisonPart (remoteKey x.t.vi e.1) e.2.2.length = false) →
      x.noReds → (∀ g sz sc, i = .stl g sz sc l → x.nothingSent sc) → plain = false →
      ∃ t, exec i s = .next t ∧ t.besideMemory { s.modGroup x.g.gid Group.advance with nextId := t.nextId } ∧
        (∀ pa, t.mem.byte pa = (storedAt (ls.map (atRemote x.t.vi)) (x.dataByte l) pa).getD (s.mem.byte pa)) ∧
        ((∀ q ∈ s.mem.posted, q.key < s.nextId) → t.mem.posted = s.mem.posted)) ∧
    ((∀ e ∈ es, e.2.1.remote = false ∧ e.2.1.repl = true ∧ e.2.1.lost = false) → x.noReds → (∀ g sz sc, i = .stl g sz sc l → x.nothingSent sc) →
      ∃ m : Mem, (plain = true → m = s.mem) ∧ (∀ g sz sc, i = .stl g sz sc l → x.releasedMem sc m) ∧
        exec i s = .next ((es.foldl (fun (t : State) e => (t.noteTlb x.g.core x.t.vi e.1 e.2.1).storeRepl x.g.gid x.agent e.2.1.pa e.2.2)
          { s with mem := m }).modGroup x.g.gid Group.advance)) ∧
    ((∀ e ∈ es, e.2.1.lost = true) → x.noReds → (∀ g sz sc, i = .stl g sz sc l → x.nothingSent sc) →
      ∃ t h, exec i s = .next t ∧ t.group? x.g.gid = some h ∧ h.delPkg.lost = x.g.delPkg.lost + es.length ∧
        h.delPkg.refused = x.g.delPkg.refused ∧ ∀ pa, t.mem.byte pa = s.mem.byte pa)) ∧
  (∀ (s : State) gid ag pa bs, bs.length ≤ 2 ^ 37 → (∀ q ∈ s.mem.repls, ¬(agentCore q.agent = agentCore ag ∧ q.pa / 2 ^ 37 = pa / 2 ^ 37)) →
    let t := s.storeRepl gid ag pa bs
    let own := if agentDie ag < 4 then agentDie ag * 2 ^ 37 + pa % 2 ^ 37 else pa
    t = { s with mem := t.mem, nextId := s.nextId + 4 } ∧
    (∀ i < bs.length, t.mem.bytes.get (pa + i) = bs.getD i 0 ∧ t.mem.bytes.get (own + i) = bs.getD i 0) ∧
    (∀ a, (a < pa ∨ pa + bs.length ≤ a) → (a < own ∨ own + bs.length ≤ a) → t.mem.bytes.get a = s.mem.bytes.get a) ∧
    (∃ later, t.mem.repls = s.mem.repls ++ later ∧ ∀ q, q ∈ later ↔ ∃ d ∈ s.liveDies, q.pa = d * 2 ^ 37 + pa % 2 ^ 37 ∧ q.pa ≠ pa ∧ q.pa ≠ own ∧
      q.key = s.nextId + d ∧ q.store = s.nextId ∧ q.gid = gid ∧ q.agent = ag ∧ q.bytes = bs ∧ q.counted = false ∧
      q.va = (s.mem.homeVa.get (pa / 8192)).toNat * 8192)) ∧
  (∀ i l f, loadOf i l f → ∀ s x ls, Runs i (fun _ => [dataName l (vregsOf f.bytes) false, addrName l]) s x →
    l.seg.toNat ≠ 1 → x.accs l ≠ [] → x.segFault l.seg.toNat f.bytes false (!f.plain) (x.accs l) = none → x.orderWaits (!f.plain) = false →
    x.locate l.seg.toNat f.bytes .read false (x.accs l) = .ok ls → memPoison s x.agent x.t.vi ls = none →
    (∀ k ∈ ls, ∀ p ∈ k.parts, p.2.2.remote = true ∨ p.2.2.repl = true) → (∀ q ∈ s.mem.posted, q.gid ≠ x.g.gid) →
    ∃ m : Mem, exec i s = .next { s.modGroup x.g.gid (fun g =>
        Group.advance { g with outs := g.outs ++ [⟨s.nextId, f.names, false, ls.flatMap (fun k => loadWrites f (k.acc.lanes x.g.width)
          (k.parts.flatMap (fun p => if p.2.2.remote = true then s.mem.read (remoteKey x.t.vi p.1) p.2.1
            else s.mem.bytes.read (replicaFor x.agent p.2.2.pa) p.2.1))), 0, .ready⟩] }) with mem := m, nextId := s.nextId + 1 } ∧
      m = { s.mem with stash := m.stash, stashPoison := m.stashPoison, tlb := m.tlb, homeVa := m.homeVa } ∧ m.stashKept s.mem)

/-- The memory instructions: the access's width, whether it writes, whether its address must be aligned, how it translates, and the
registers that the word names. -/
def Sys2Proof.accessForm (i : Instr) (l : LArgs) (n : Nat) (write aligned : Bool) (acc : Access) (nms : List Named) : Prop :=
  (∃ g sz sx, i = .ld g sz sx l ∧ n = sz.bytes ∧ write = false ∧ aligned = false ∧ acc = .read ∧ nms = [dataName l (vregsOf n) false, addrName l]) ∨
  (∃ g sz sx sc, i = .lda g sz sx sc l ∧ n = sz.bytes ∧ write = false ∧ aligned = true ∧ acc = .read ∧ nms = [dataName l (vregsOf n) false, addrName l]) ∨
  (∃ g sz, i = .st g sz l ∧ n = sz.bytes ∧ write = true ∧ aligned = false ∧ acc = .write ∧ nms = [dataName l (vregsOf n) true, addrName l]) ∨
  (∃ g sz sc, i = .stl g sz sc l ∧ n = sz.bytes ∧ write = true ∧ aligned = true ∧ acc = .write ∧ nms = [dataName l (vregsOf n) true, addrName l]) ∨
  (∃ g op sc, i = .atom g op sc l ∧ n = op.bytes ∧ write = true ∧ aligned = true ∧ acc = .rmw ∧ nms = [atomName l op, addrName l]) ∨
  (∃ g op sc, i = .red g op sc l ∧ n = op.bytes ∧ write = true ∧ aligned = true ∧ acc = .write ∧ nms = [atomName l op, addrName l]) ∨
  (∃ g k cmp, i = .monw g k cmp l ∧ n = 4 ∧ write = false ∧ aligned = true ∧ acc = .rmw ∧ nms = [dataName l 1 true, addrName l])

/-- The REPL attribute matters to an access: an ATOM, a RED or a MONW. -/
def Sys2Proof.atomicForm (i : Instr) : Bool := match i with | .atom .. | .red .. | .monw .. => true | _ => false

/-- No access of an instruction is a submission (R282). -/
def Sys2Proof.noSubmission (x : Ctx) (i : Instr) (l : LArgs) : Prop :=
  ∀ g op sc, i = .atom g op sc l → ∀ a ∈ x.accs l, x.submitPage l.seg.toNat op sc a = none

/-- The places of an access in this package's memory, piece by piece, whose words are registered (R254, R272). -/
def Sys2Proof.localPiece (p : Nat × Nat × Trans) : Prop := p.2.2.remote = false ∧ p.2.2.repl = false ∧ p.2.2.lost = false

/-- A plain access of n bytes at a place races on a registered word (R268): an agent other than the accessing one owns it, and another thread's
plain write has left one of the bytes, which it has not released to that agent since. -/
def Sys2Proof.racesOn (x : Ctx) (pa n : Nat) (r : Reg) : Prop :=
  x.s.mem.reg? r.pa = some r ∧ r.owner ≠ x.agent ∧ ∃ e ∈ r.plain, r.pa % 4 = 0 ∧ e.byte < 4 ∧ pa ≤ r.pa + e.byte ∧ r.pa + e.byte < pa + n ∧
    e.writer.own x.g.gid x.agent = false ∧ ∀ k ∈ e.rels, inScope k.paired k.agent k.scope x.agent = false

/-- An instruction whose checks before its registers' bounds have passed (R131, R303). -/
def Sys2Proof.mayIssue (i : Instr) (s : State) (x : Ctx) : Prop :=
  ctxOf s (i.guard.getD .always) = some x ∧ i.allowedIn (x.c.header.toNat / 16 % 8) = true ∧ (i.privileged = true → x.g.privileged x.t = true) ∧
    (isService x.g.core = true → i.lacksService = false)

/-- The index that an index register gives in a lane, or the subcode of its bound fault (R55 to R57). -/
def Sys2Proof.boundSub (w : Word) (vregs : Nat) : Option Nat :=
  let e := if w.toNat / 2 ^ 8 % 256 = 0 then 256 else w.toNat / 2 ^ 8 % 256
  let base := w.toNat % 256
  let off := w.toNat / 2 ^ 16 % 256
  let mode := w.toNat / 2 ^ 28
  if mode ≠ 1 ∧ mode ≠ 2 then some 2
  else if mode = 2 ∧ e ≤ base then some 0
  else
    let n := if mode = 1 then base + off else base + off % (e - base)
    if e ≤ n then some 0 else if vregs ≤ n then some 1 else none

/-- O17. The stops of a memory access, before anything is read or written. A segment fault in any active lane traps with its lowest subcode (R64,
R178, R303); a page fault traps with the first one's subcode, address and information, for every lane that faults (R178, R306, R314); a
plain access that races traps with the word, its owner and every lane that reaches the word (R182, R268, R306; which accesses of one core count is the
model's reading, log 55); a read of poisoned memory takes the deferred-error trap (R318). A register beyond the footprint, or an index
that does not resolve, raises the bound fault with the lowest subcode and position (R51, R57), and a read of a poisoned register the
deferred-error trap (R318): said of the memory instructions and of IADD. -/
def Obligations.AccessTraps : Prop :=
  (∀ i l n write aligned acc nms, accessForm i l n write aligned acc nms → ∀ s x, Runs i (fun _ => nms) s x → ∀ a ∈ x.accs l,
    (∀ sub, (sub = 0 ∧ (x.g.seg l.seg.toNat).2.toNat < a.off + n ∨
        sub = 1 ∧ write = true ∧ (l.seg.toNat = 3 ∨ l.seg.toNat = 4) ∨
        sub = 2 ∧ aligned = true ∧ ((x.g.seg l.seg.toNat).1.toNat + a.off) % n ≠ 0) →
      ∃ tr, exec i s = .next (x.raise tr) ∧ tr.cls = 2 ∧ tr.sub ≤ sub ∧ (tr.sub = sub → tr.lanes &&& a.mask = a.mask) ∧
        tr.infoA = l.seg.setWidth 64 ∧ (∃ b ∈ x.accs l, tr.addr = BitVec.ofNat 64 b.off)) ∧
    (x.segFault l.seg.toNat n write aligned (x.accs l) = none → l.seg.toNat ≠ 1 → x.orderWaits true = false → noSubmission x i l →
      (∀ va e, x.locateOne l.seg.toNat n acc (atomicForm i) a = .error (va, e) →
        ∃ tr b vb eb, exec i s = .next (x.raise tr) ∧ tr.cls = 4 ∧ tr.lanes &&& a.mask = a.mask ∧
          b ∈ x.accs l ∧ x.locateOne l.seg.toNat n acc (atomicForm i) b = .error (vb, eb) ∧ tr.sub = eb.sub ∧ tr.addr = BitVec.ofNat 64 vb ∧
          tr.infoA = BitVec.ofNat 64 (accCode eb.acc + 16 * eb.level + (if eb.remote = true then 256 else 0) + 2 ^ 16 * eb.chip)) ∧
      (∀ ls, x.locate l.seg.toNat n acc (atomicForm i) (x.accs l) = .ok ls →
        (aligned = false → x.l.race = true → ∀ k ∈ ls, ∀ p ∈ k.parts, localPiece p → ∀ r, racesOn x p.2.2.pa p.2.1 r →
          ∃ tr q pq kq, exec i s = .next (x.raise tr) ∧ tr.cls = 5 ∧ tr.sub = 0 ∧ kq ∈ ls ∧ pq ∈ kq.parts ∧ localPiece pq ∧
            racesOn x pq.2.2.pa pq.2.1 q ∧ tr.addr = BitVec.ofNat 64 (alignDown pq.1 4 + (q.pa - wordOf pq.2.2.pa)) ∧
            tr.infoA = BitVec.ofNat 64 (agentCode q.owner.kind + 8 * (if write = true then 1 else 0) + 2 ^ 16 * q.owner.id) ∧
            (q = r → tr.lanes &&& k.acc.mask = k.acc.mask)) ∧
        ((aligned = true ∨ x.l.race = false) → write = false ∨ acc = .rmw → ∀ k ∈ ls, ∀ p ∈ k.parts,
          (∃ w ∈ s.mem.poison, w < p.2.2.from' x.agent x.t.vi p.1 + p.2.1 ∧ p.2.2.from' x.agent x.t.vi p.1 < w + 4) →
          ∃ tr, exec i s = .next (x.raise tr) ∧ tr.cls = 11 ∧ tr.sub = 1 ∧ tr.lanes &&& k.acc.mask = k.acc.mask)))) ∧
  (∀ i nms, (∃ l n write aligned acc, accessForm i l n write aligned acc nms) ∨ (∃ g d a b, i = .iadd g d a b ∧ nms = namesA d [a, b]) →
    ∀ s x, mayIssue i s x →
      (∀ nm ∈ nms, (nm.use.beyond x.g x.t = true →
          ∃ tr, exec i s = .next (x.raise tr) ∧ tr.cls = 3 ∧ tr.sub ≤ 1 ∧ (tr.sub = 1 → tr.pos ≤ nm.pos)) ∧
        (∀ st k c lane e, nm.use = .op (.ind st k) c → lane ∈ x.lanes → boundSub (x.g.xget k.toNat lane) (8 * x.g.vgran) = some e →
          ∃ tr, exec i s = .next (x.raise tr) ∧ tr.cls = 3 ∧ tr.sub ≤ e ∧ (tr.sub = e → tr.pos ≤ nm.pos ∧
            (tr.pos = nm.pos → tr.idx = k.toNat ∧ tr.lanes.getLsbD lane = true)))) ∧
      (boundFault x nms = none → x.busy nms = false → ∀ nm ∈ nms, nm.rd = true →
        (∀ m c j lane, nm.use = .op (.v m) c → j < c → lane ∈ x.lanes → (m.toNat + j) * 64 + lane ∈ x.g.poisonV →
          ∃ tr, exec i s = .next (x.raise tr) ∧ tr.cls = 11 ∧ tr.sub = 0 ∧ tr.lanes.getLsbD lane = true) ∧
        (∀ m c j, nm.use = .op (.s m) c → j < c → x.any = true → m.toNat + j ∈ x.g.poisonS →
          ∃ tr, exec i s = .next (x.raise tr) ∧ tr.cls = 11 ∧ tr.sub = 0 ∧ tr.lanes &&& x.act = x.act)))

/-- O18. PREF reads lines ahead: no byte of memory or of the stash changes, no register, and no other state but copies and the
fills of stash lines (R191). PREF keeps in the core's L1 a copy of every word of the line that no agent owns, where it has none yet and holds
no older copy of the word beside it; PREF.l2 keeps none there. Both start the fill of the mapped absent stash line that an S address names,
and of no other line. -/
def Obligations.Prefetches : Prop :=
  ∀ i l, (∃ g, i = .pref g l ∨ i = .prefL2 g l) → ∀ s x, Runs i (fun _ => [addrName l]) s x →
    ∃ m : Mem, exec i s = .next { s.modGroup x.g.gid Group.advance with mem := m } ∧
      m = { s.mem with copies := m.copies, lines := m.lines } ∧ (∀ pa, m.byte pa = s.mem.byte pa) ∧
      (∀ c ∈ s.mem.copies, c ∈ m.copies) ∧ (∀ c ∈ m.copies, c ∉ s.mem.copies → c.core = x.g.core ∧ c.value = s.mem.word c.pa ∧ s.mem.reg? c.pa = none) ∧
      ((∃ g, i = .prefL2 g l) → m.copies = s.mem.copies) ∧
      (∀ g, i = .pref g l → l.seg.toNat ≠ 1 → ∀ a ∈ x.accs l, a.off < (x.g.seg l.seg.toNat).2.toNat →
        ∀ k p, x.locateOne l.seg.toNat 1 .read false a = .ok k → k.parts = [p] → p.2.2.home = true →
        s.mem.poisonIn (alignDown p.2.2.pa 128) 128 = none → ∀ j < 32,
        let pw := alignDown p.2.2.pa 128 + 4 * j
        s.mem.reg? pw = none → s.mem.copyOf x.g.core pw = none → s.mem.stale x.g.core (sibling pw) = false →
        ∃ c ∈ m.copies, c.core = x.g.core ∧ c.pa = pw ∧ c.value = s.mem.word pw) ∧
      (∀ c n, m.line? c n = (s.mem.line? c n).map (fun r =>
        if l.seg.toNat = 1 ∧ c = x.g.core ∧ (∃ a ∈ x.accs l, a.off < (x.g.seg 1).2.toNat ∧ x.stashOff a / 128 = n) ∧
          r.mapped.isSome = true ∧ r.present = false ∧ r.writers = [] then { r with filling := true } else r))

/-- O19. STMAP, when its checks pass, nothing waits for the core's stash and no home that must take what the lines held is out of reach: each line of the range is mapped to its address (log 26
chooses the line for an address that is no multiple of 128) and absent, or unmapped and present; what the lines held is written
back, so that no byte of memory changes as software reads it; no other line changes, and no stash byte but those of an unmapped line,
which keeps what it held; a line that is mapped loses the poison it held (R192, R318).
When a fill starts is the model's reading (log 32). -/
def Obligations.StashMapping : Prop :=
  ∀ g uc ub ua s x, Runs (.stmap g uc ub ua) (fun _ => [uName 1 ua, uName 2 ub, uName 3 uc]) s x → x.any = true →
    let count := fld (x.u uc) 0 12
    let unmap := fld (x.u uc) 16 1 == 1
    let first := ((x.g.seg 1).1.toNat + x.u ua) / 128
    1 ≤ count → count ≤ 2048 → fld (x.u uc) 12 4 = 0 → fld (x.u uc) 17 47 = 0 → x.u ua % 128 = 0 → x.u ub % 128 = 0 →
    x.u ua + 128 * count ≤ (x.g.seg 1).2.toNat → (unmap = false → x.u ub + 128 * count ≤ (x.g.seg 0).2.toNat) →
    s.deferred x.g.core = [] → Memory.wf s.mem = true → x.g.hold.mapped = 0 →
    (∀ j < count, let l := s.mem.lineOf x.g.core (first + j)
      l.writers = [] ∧ (s.mem.present x.g.core (first + j) = true → s.lensPending x.g.core (first + j) = false) ∧
      (l.mapped.isSome = true → s.mem.dirtyWords l ≠ [] → s.outOfReach (dieOf x.g.core) l.pa 128 = false ∧ s.homeRefuses l.pa = false)) →
    let mine := fun (p : Nat × Nat) => decide (p.1 = x.g.core ∧ first ≤ p.2 ∧ p.2 < first + count)
    ∃ m : Mem, exec (.stmap g uc ub ua) s = .next { s.modGroup x.g.gid Group.advance with
        mem := m, cmds := s.cmds.map (fun c => { c with cleared := c.cleared.filter (fun p => !mine p) }) } ∧
      (∀ pa, m.byte pa = s.mem.byte pa) ∧
      (∀ j < count, (m.lineOf x.g.core (first + j)).mapped =
          (if unmap then none else some (alignDown (((x.g.seg 0).1.toNat + x.u ub + 128 * j) % 2 ^ 64) 128)) ∧
        m.present x.g.core (first + j) = unmap) ∧
      (∀ c n, (c ≠ x.g.core ∨ n < first ∨ first + count ≤ n) → m.line? c n = s.mem.line? c n) ∧
      (∀ k, (∀ j < count, k < stashKey x.g.core (128 * (first + j)) ∨ stashKey x.g.core (128 * (first + j)) + 128 ≤ k) →
        m.stash.get k = s.mem.stash.get k) ∧
      (unmap = false → m.stash = s.mem.stash ∧ ∀ p, p ∈ m.stashPoison ↔ p ∈ s.mem.stashPoison ∧
        ∀ j < count, p < stashKey x.g.core (128 * (first + j)) ∨ stashKey x.g.core (128 * (first + j)) + 128 ≤ p) ∧
      m = { s.mem with bytes := m.bytes, regs := m.regs, lines := m.lines, stash := m.stash, stashPoison := m.stashPoison }

/-! ### Family 5 -/

/-- O20. ATOM on memory of this package: the lanes' operations happen in ascending lane order, each leaves its value and returns
the one it met, and every other byte is unchanged (R180, R194). Through the S segment it does the same in an unmapped line's bytes, and through a
mapped line in the memory that the line is mapped to (R185, R194).
That vector data at a uniform address acts once per active lane is the model's reading (log 27). -/
def Obligations.Atomics : Prop :=
  (∀ g op sc l s x ls, Runs (.atom g op sc l) (fun _ => [atomName l op, addrName l]) s x →
    x.Reaches l op.bytes .rmw true false true ls → x.noReds → memPoison s x.agent x.t.vi ls = none →
    (∀ a ∈ x.accs l, x.submitPage l.seg.toNat op sc a = none) → x.nothingSent sc →
    let run := atomRun op s.mem.byte (x.atomOps l op ls)
    ∃ t, exec (.atom g op sc l) s = .next t ∧
      t.besideMemory { s.modGroup x.g.gid (fun g => Group.advance { g with outs := g.outs ++ [⟨s.nextId, (atomForm op l).names, false,
        atomWrites op l run.2, 0, .ready⟩] }) with nextId := s.nextId + 1 } ∧
      (∀ pa, t.mem.byte pa = run.1 pa) ∧ t.mem.stashKept s.mem) ∧
  (∀ g op sc l s x, Runs (.atom g op sc l) (fun _ => [atomName l op, addrName l]) s x → x.ReachesLines l op.bytes true false →
    x.stashPoisonTrap op.bytes (x.accs l) = none → x.noReds → x.nothingSent sc →
    let result := fun olds => { s.modGroup x.g.gid (fun g => Group.advance { g with outs := g.outs ++ [⟨s.nextId, (atomForm op l).names, false,
        atomWrites op l olds, 0, .ready⟩] }) with nextId := s.nextId + 1 }
    ((∀ a ∈ x.accs l, ∀ ln ∈ x.accLines op.bytes a, ((s.mem.lineOf x.g.core ln).mapped).isNone = true) →
      let run := atomRun op s.mem.stash.get (x.stashOps l op (stashKey x.g.core))
      ∃ t, exec (.atom g op sc l) s = .next t ∧ t.besideMemory (result run.2) ∧ (∀ k, t.mem.stash.get k = run.1 k) ∧ ∀ pa, t.mem.byte pa = s.mem.byte pa) ∧
    (∀ place : Nat → Nat, (∀ a ∈ x.accs l, ∀ j < op.bytes, s.mem.placeAt x.g.core (x.stashOff a + j) = some (place (x.stashOff a) + j)) →
      let run := atomRun op s.mem.byte (x.stashOps l op place)
      ∃ t, exec (.atom g op sc l) s = .next t ∧ t.besideMemory (result run.2) ∧ (∀ pa, t.mem.byte pa = run.1 pa) ∧ t.mem.stashKept s.mem))

/-- O21. An ATOM.xchg.b64.sys of one lane that names the submit word of an enabled page submits the record its operand names:
what it returns is 0 when the submission is accepted, 2 when it is refused or malformed (R282). -/
def Obligations.GroupSubmissions : Prop :=
  ∀ i g l, i = .atom g .xchg64 .sys l ∨ i = .groupSubmission g l →
    ∀ s x o p rs, Runs i (fun _ => [atomName l .xchg64, addrName l]) s x →
      x.segFault 0 8 true true (x.accs l) = none → x.orderWaits true = false → l.seg = 0 → x.aops l .xchg64 = [o] → x.accs l = [o.acc] →
      x.submitPage 0 .xchg64 .sys o.acc = some p → x.recordFault [o] = none →
      x.locate 0 128 .read false [⟨o.lane, 1#64 <<< o.lane, o.opnd⟩] = .ok rs → memPoison s x.agent x.t.vi rs = none →
      let s1 := s.release x.g x.t .sys
      let answer := fun (s2 : State) (st : Nat) => (x.outstanding s2 (atomForm .xchg64 l).names false
        (loadWrites (atomForm .xchg64 l) [o.lane] (leBytes 8 st)) 0 .ready).modGroup x.g.gid Group.advance
      ∀ r, s1.coreRead x.g.core x.t.vi (((x.g.seg 0).1.toNat + o.opnd) % 2 ^ 64) 128 = some r → p.enabled = true →
        (∀ s2, s1.submit p r = .accepted s2 → exec i s = .next (answer s2 0)) ∧
        (s1.submit p r = .refused ∨ s1.submit p r = .malformed → exec i s = .next (answer s1 2))

/-- O22. RED on memory of this package is posted: nothing is returned and no byte changes until it is performed (R195). Through present lines of
the S segment it changes the stash's bytes, or the memory that a line is mapped to (R185, R195).
That vector data at a uniform address posts one RED per active lane is the model's reading (log 27). -/
def Obligations.PostedReductions : Prop :=
  (∀ g op sc l s x ls, Runs (.red g op sc l) (fun _ => [atomName l op, addrName l]) s x →
    x.Reaches l op.bytes .write true false true ls →
    let ps := x.posts l op ls
    ∃ m : Mem, exec (.red g op sc l) s = .next { s.modGroup x.g.gid Group.advance with mem := m, nextId := s.nextId + ps.length } ∧
      m = { s.mem with reds := s.mem.reds ++ ps, tlb := m.tlb, homeVa := m.homeVa }) ∧
  (∀ g op sc l s x, Runs (.red g op sc l) (fun _ => [atomName l op, addrName l]) s x → x.ReachesLines l op.bytes true false → x.noReds →
    ((∀ a ∈ x.accs l, ∀ ln ∈ x.accLines op.bytes a, ((s.mem.lineOf x.g.core ln).mapped).isNone = true) →
      let run := atomRun op s.mem.stash.get (x.stashOps l op (stashKey x.g.core))
      ∃ t, exec (.red g op sc l) s = .next t ∧ t.besideMemory (s.modGroup x.g.gid Group.advance) ∧ (∀ k, t.mem.stash.get k = run.1 k) ∧
        ∀ pa, t.mem.byte pa = s.mem.byte pa) ∧
    (∀ place : Nat → Nat, (∀ a ∈ x.accs l, ∀ j < op.bytes, s.mem.placeAt x.g.core (x.stashOff a + j) = some (place (x.stashOff a) + j)) →
      let run := atomRun op s.mem.byte (x.stashOps l op place)
      ∃ t, exec (.red g op sc l) s = .next t ∧ t.besideMemory (s.modGroup x.g.gid Group.advance) ∧ (∀ pa, t.mem.byte pa = run.1 pa) ∧
        t.mem.stashKept s.mem))

/-- O23. FENCE reports the delivery counts of its scope and clears them; with REL it makes every word its core owns RELEASED at
its scope or a wider one; ACQ drops the core's unowned copies of the regions it names, and its team's clean mapped stash lines there are
absent; none changes a byte (R196 to R198, R254). That a release covers what completed commands of the core left in other stashes is
the model's reading (log 65). -/
def Obligations.Fences : Prop :=
  (∀ g sc s x, Runs (.rel g sc) (fun _ => []) s x → x.any = true → x.noReds → x.nothingSent sc → x.orderWaits true = false →
    ∃ m : Mem, exec (.rel g sc) s = .next { s.modGroup x.g.gid Group.advance with mem := m } ∧
      x.releasedMem sc m) ∧
  (∀ g sc ud s x, Runs (.fence g sc ud) (fun _ => [⟨0, .op (.s ud) 1, false⟩]) s x → x.any = true → x.noReds → x.writesHeld = false →
    x.nothingSent sc → x.orderWaits true = false →
    let d : Delivery := match sc with
      | .grp | .die => Delivery.none
      | .pkg => x.g.delPkg
      | .sys => x.g.delPkg.sum x.g.delOther
    ∃ m : Mem, exec (.fence g sc ud) s = .next { s.modGroup x.g.gid (fun g => Group.advance { g with
        delPkg := if sc = .pkg ∨ sc = .sys then Delivery.none else g.delPkg
        delOther := if sc = .sys then Delivery.none else g.delOther
        outs := g.outs ++ [⟨s.nextId, [.s ud.toNat], false, [.s ud.toNat (fenceStatus d)], 0, .ready⟩] }) with mem := m, nextId := s.nextId + 1 } ∧
      x.releasedMem sc m) ∧
  (∀ g sc mask s x, Runs (.acq g sc mask) (fun _ => []) s x → x.orderWaits true = false →
    ∃ (m : Mem) (ar : List ArrEntry), exec (.acq g sc mask) s = .next { s.modGroup x.g.gid Group.advance with mem := m, arrays := ar } ∧
      m = { s.mem with copies := m.copies, lines := m.lines, stash := m.stash, stashPoison := m.stashPoison } ∧
      (∀ pa, m.byte pa = s.mem.byte pa) ∧ lensTook s.arrays ar ∧
      let drops := x.any = true ∧ ¬(sc = .grp ∧ x.t.paired = false)
      (∀ c ∈ m.copies, c ∈ s.mem.copies ∧ (drops → ¬(c.core = x.g.core ∧ mask.getLsbD c.region.toNat = true))) ∧
      ((∀ n, s.lensPending x.g.core n = false) ∨ ¬drops → ar = s.arrays ∧
        m.copies = (if drops then s.mem.copies.filter (fun c => !(c.core == x.g.core && mask.getLsbD c.region.toNat)) else s.mem.copies)) ∧
      ∀ c n, m.line? c n = (s.mem.line? c n).map (fun l =>
        if drops ∧ c = x.g.core ∧ (x.g.seg 1).1.toNat ≤ 128 * n ∧ 128 * n < (x.g.seg 1).1.toNat + (x.g.seg 1).2.toNat ∧
          l.mapped.any (fun va => mask.getLsbD ((s.viOf x.t.vi).regionOf va).toNat) = true ∧
          (∀ r ∈ s.mem.regs, ¬(r.owner = ⟨.stash, c⟩ ∧ alignDown r.pa 128 = l.pa))
        then { l with present := false } else l))

/-- The monitor that MONW arms: it watches a word and has not fired; whether the word satisfies it already is noted. -/
def Sys2Proof.armedMonitor (stash : Bool) (addr va : Nat) (cmp : MonCmp) (v word : Word) (polls : Bool) : Monitor :=
  { armed := true, fired := false, hit := monHolds cmp word v, polling := polls, stash := stash, addr := addr, va := va
    cmp := cmp, value := v }

/-- A parked lane that waits on a monitor which is armed again waits for it anew (R202). -/
def Sys2Proof.rearmed (k : BitVec 2) (p : Park) : Park := if p.conds.any (fun c => condMonitor c k.toNat) then { p with met := false } else p

/-- O24. MONW arms a monitor on a word of memory, or leaves it polling where the core has no room and a trap of class 9 pending;
on an unmapped word of the stash it never polls (R199, R200).
Whether there is room is free (log 23). -/
def Obligations.Monitors : Prop :=
  (∀ g k cmp l s x a p, Runs (.monw g k cmp l) (fun _ => [dataName l 1 true, addrName l]) s x → x.accs l = [a] →
    x.Reaches l 4 .rmw false false true [⟨a, p.1, [p]⟩] → x.noReds →
    let polls := Config.monitorRefused s.fresh
    let m := armedMonitor false p.2.2.pa p.1 cmp ((x.g.sget (l.t.toNat % 64)).setWidth 32) (s.mem.word p.2.2.pa) polls
    exec (.monw g k cmp l) s = .next ((s.noteTlb x.g.core x.t.vi p.1 p.2.2).modGroup x.g.gid (fun g => Group.advance { g with
      mon := g.mon.set k.toNat m
      parks := g.parks.map (fun p => rearmed k p)
      boundary := if polls then g.boundary ++ [⟨9, 0, 0, 0, BitVec.ofNat 64 p.1, BitVec.ofNat 64 k.toNat⟩] else g.boundary }))) ∧
  (∀ g k cmp l s x a, Runs (.monw g k cmp l) (fun _ => [dataName l 1 true, addrName l]) s x → x.accs l = [a] → l.seg = 1 →
    x.segFault 1 4 false true [a] = none → (∀ ln ∈ x.accLines 4 a, s.mem.line? x.g.core ln = none) →
    x.behind 4 [a] = false → x.orderWaits true = false → x.stashPoisonTrap 4 [a] = none →
    let key := stashKey x.g.core (x.stashOff a)
    let m := armedMonitor true key (x.stashOff a) cmp ((x.g.sget (l.t.toNat % 64)).setWidth 32)
      (BitVec.ofNat 32 (leNat (s.mem.stash.read key 4))) false
    exec (.monw g k cmp l) s = .next (s.modGroup x.g.gid (fun g => Group.advance { g with
      mon := g.mon.set k.toNat m, parks := g.parks.map (fun p => rearmed k p) })))

/-- O25. WAIT (R41, R201): the active lanes leave the clause. Where the combination holds their status is 0; where it does not
and the time-out is 0 it is 1; else they park with their conditions, destination and deadline, none for an all-ones time-out. -/
def Obligations.Waits : Prop :=
  ∀ g all n d a b c jv,
    let used := fun (x : Ctx) => (condsOf (x.g.word64 a 0).toNat).take (BitVec.toNat n + 1)
    let fine := fun (x : Ctx) => x.any = true ∧ x.waitBad (n.toNat + 1) a c = none ∧ x.waitSeg (used x) c = none ∧ x.joinAt c jv
    LeavesWith (.wait g all n d a b c) (fun _ => namesA d [a, b, c]) (fun x => fine x ∧ x.combined all (used x) jv) d 0 ∧
    LeavesWith (.wait g all n d a b c) (fun _ => namesA d [a, b, c])
      (fun x => fine x ∧ ¬x.combined all (used x) jv ∧ x.g.word b 0 = 0) d 1 ∧
    GoesTo (.wait g all n d a b c) (fun _ => namesA d [a, b, c])
      (fun x => fine x ∧ ¬x.combined all (used x) jv ∧ x.g.word b 0 ≠ 0)
      (fun x => Group.advance { x.leaveNext x.g with parks := x.g.parks ++ x.lanes.map (fun l =>
        ⟨l, used x, all, jv, if x.g.word b 0 = 0xFFFFFFFF then none else some (x.s.tick.toNat + (x.g.word b 0).toNat), x.statusDst d l, false, false, false, x.outNames d 1, d.isInd⟩) })

/-- O26. BAR and BAR.arrive (R45, R203): after a release at .grp the active lanes have arrived, and BAR's are parked. Nothing that the group deferred makes it wait. While lanes
are missing nothing more happens; the arrival that completes the barrier disarms it and releases every lane that a BAR parked on
it, and those that may wake are free, with status 0. Which may wake while their group runs a handler, or is inside a clause above
them, is the model's reading (log 33). EVT adds to, subtracts from or sets an event counter, saturating at 63 and at 0, and gives the new
value (R204). -/
def Obligations.BarriersAndEvents : Prop :=
  (∀ i g k d parks, i = .bar g k d ∧ parks = true ∨ i = .barArrive g k d ∧ parks = false →
    ∀ s x, Runs i (fun _ => namesA d []) s x → x.any = true → x.noReds → x.nothingSent .grp → x.orderWaits true = false →
      let bars := fun (t : Task) => t.barriers.mapIdx (fun j b => if j = BitVec.toNat k then b.arrive (s.teamLive x.t.uid) x.g.num x.act else b)
      let waiting := { x.leaveNext x.g with parks := x.g.parks ++ x.lanes.map (fun l =>
        ⟨l, [BitVec.ofNat 16 (2 * 8192 + k.toNat)], true, none, none, x.statusDst d l, true, false, false, x.outNames d 1, d.isInd⟩) }
      let own := if parks = true then waiting else x.g
      (((bars x.t).any Barrier.complete = false →
        ∃ t h m, exec i s = .next t ∧ x.releasedMem .grp m ∧
          t.onlyGroup { s.modTask x.t.uid (fun t => { t with barriers := bars t }) with mem := m } h ∧ x.stepped [d] h ∧
          h = { own.advance with x := h.x }) ∧
      (((bars x.t).getD k.toNat Barrier.idle).complete = true →
        ∃ t, exec i s = .next t ∧
          (∀ u, t.task? x.t.uid = some u → (u.barriers.getD k.toNat Barrier.idle).armed = false) ∧
          (∀ j h, t.group? j = some h → h.task = x.t.uid → ∀ p ∈ h.parks, p.onBar = true →
            p.conds.any (fun c => (condBarrier c) == some k.toNat) = true →
            p.released = true ∧ (if j = x.g.gid then own else h).wakes p.lane = false) ∧
          (parks = true → ∀ n, d = .v n → ∀ h, t.group? x.g.gid = some h →
            ∀ l ∈ x.lanes, own.wakes l = true → h.vget n.toNat l = 0)))) ∧
  (∀ g k d a,
    let does := fun (i : Instr) (f : Nat → Nat → Nat) =>
      let new := fun (x : Ctx) => f (x.g.e.get (BitVec.toNat (k : BitVec 3))).toNat (x.g.word a 0).toNat
      ComputesWith i (fun _ => namesA d [a]) (fun x => x.any = true)
        (fun x h => { h with e := h.e.set k.toNat (BitVec.ofNat 6 (new x)) }) (fun x => x.inLanes d (fun _ => BitVec.ofNat 32 (new x))) (fun _ => 0)
    does (.evtAdd g k d a) (fun e y => min 63 (e + y)) ∧ does (.evtSub g k d a) (fun e y => e - y) ∧
    does (.evtSet g k d a) (fun _ y => min 63 y))

/-- O27. The engine instructions put their commands into their core's queue (R193, R205 to R215). -/
def Obligations.EngineCommands : Prop :=
  (∀ g rel cmp ub ua, Commands (.stflush g rel cmp ub ua) [uName 1 ua, uName 2 ub]
    (fun x => x.command .stflush none rel cmp.toNat (x.u ua) 0 (x.g.sget ub.toNat)) (fun _ => 0)) ∧
  (∀ g y, Commands (.cpy g y) (yNames y false)
    (fun x => x.command .cpy y.acq y.rel y.cmp.toNat (x.u y.ua) (x.u y.ub) (x.g.sget y.uc.toNat)) (fun _ => 0)) ∧
  (∀ g y, Commands (.cpym g y) (yNames y true)
    (fun x => x.command .cpym y.acq y.rel y.cmp.toNat (x.u y.ua) (x.u y.ub) (x.g.sget y.uc.toNat)) (fun x => x.u y.ud)) ∧
  (∀ g y, Commands (.gath g y) (yNames y true)
    (fun x => x.command .gath y.acq y.rel y.cmp.toNat (x.u y.ua) (x.u y.ub) (x.g.sget y.uc.toNat)) (fun x => x.u y.ud)) ∧
  (∀ g y, Commands (.coll g y) (yNames y true)
    (fun x => x.command .coll y.acq y.rel y.cmp.toNat (x.u y.ua) (x.u y.ub) (x.g.sget y.uc.toNat)) (fun x => x.u y.ud))

/-! ### Family 6 -/

/-- O28. Matrix instructions (R217 to R232): MAPSET writes a tile register; MMA and MMAS, once checked, ask for a place and a token
in the arrays of their cores; MZERO, the readouts (of values that carry no mark once what was accepted before has retired), the writes and MSTAT take their place in array order, a readout and a status
outstanding until then. That an ACCRD judges a mark as it will stand once what was accepted before it has retired is the model's reading
(log 50). -/
def Obligations.MatrixIssue : Prop :=
  (∀ g sn ta s x, Runs (.mapset g sn ta) (fun _ => [⟨0, .tile ta.toNat, false⟩, ⟨1, .op (.s sn) 2, true⟩]) s x → x.mayUseArray →
    exec (.mapset g sn ta) s = .next ((s.modTask x.t.uid (fun t => { t with
      tiles := t.tiles.set ta.toNat (x.g.sget (sn.toNat + 1) ++ x.g.sget sn.toNat)
      tileErr := t.tileErr.filter (· != ta.toNat) })).modGroup x.g.gid Group.advance)) ∧
  (∀ i sparse p z nms words tb ta acc,
    ((∃ g, i = .mma g p z tb ta acc) ∧ sparse = false ∧ nms = (fun _ => mmaNames tb ta acc) ∧ words = (fun _ => [])) ∨
    (∃ g lsel v, i = .mmas g p z lsel v tb ta acc ∧ sparse = true ∧
      nms = (fun x => mmaNames tb ta acc ++ [⟨3, .op (.v v) (x.metaRegs p (16 * 2 ^ lsel.toNat) ta), false⟩,
        ⟨3, x.metaReads (16 * 2 ^ lsel.toNat) v (x.metaRegs p (16 * 2 ^ lsel.toNat) ta), true⟩]) ∧
      words = (fun x => x.metaWords p (16 * 2 ^ lsel.toNat) v (metaPerRow (x.slot (omapOf (x.tile ta)).slot).fmt))) →
    ∀ s x, Runs i nms s x → x.mayUseArray → x.t.tileErr.contains ta.toNat = false → x.t.tileErr.contains tb.toNat = false →
      (∀ g lsel v, i = .mmas g p z lsel v tb ta acc → 16 * 2 ^ lsel.toNat ≤ x.g.width ∧ pastV255 v.toNat (x.metaRegs p (16 * 2 ^ lsel.toNat) ta) = false) →
      x.mmaFault p sparse ta tb (words x) = none →
      let cores := if p = true then x.t.cores else [x.g.core]
      let slot := fun (t : BitVec 4) => x.l.slots.getD (omapOf (x.t.tiles.get t.toNat)).slot 0
      let e : ArrEntry := { x.arrayEntry (if sparse = true then .mmas else .mma) cores acc with
        z := z, mapA := x.t.tiles.get ta.toNat, mapB := x.t.tiles.get tb.toNat, slotA := slot ta, slotB := slot tb
        segBase := cores.map (fun c => (c, (x.segOn c).1)), metaWords := words x }
      (s.arrayRoom e = true → exec i s = .next ({ s with nextId := s.nextId + 1, arrays := s.arrays ++ [{ e with stage := .token }] }.modGroup
        x.g.gid (fun g => { g with hold := .array { e with stage := .token } }))) ∧
      (s.arrayRoom e = false → exec i s = .next ({ s with nextId := s.nextId + 1 }.modGroup x.g.gid
        (fun g => { g with hold := .array { e with stage := .room } })))) ∧
  (∀ g p acc s x, Runs (.mzero g p acc) (fun _ => [⟨0, .acc acc.toNat, false⟩]) s x → x.mayUseArray → x.pairBad p = false →
    exec (.mzero g p acc) s = .next ({ s with
      nextId := s.nextId + 1
      arrays := s.arrays ++ [x.arrayEntry .mzero (if p = true then x.t.cores else [x.g.core]) acc] }.modGroup x.g.gid Group.advance)) ∧
  (∀ i form r cnt, (∃ g, i = .accrdF32 g r) ∧ form = 0 ∧ cnt = r.n1.toNat + 1 ∨ (∃ g, i = .accrdPair g r) ∧ form = 1 ∧ cnt = 2 * (r.n1.toNat + 1) ∨
      (∃ g, i = .accrdI32 g r) ∧ form = 2 ∧ cnt = r.n1.toNat + 1 →
    ∀ s x row col, Runs i (fun _ => readNames r cnt false) s x → x.mayUseArray → x.origin r = some (row, col) →
      (∀ j < r.n1.toNat + 1, ∀ l ∈ x.lanes, (x.t.queued s.arrays x.g.core (x.t.coreSel x.g.core)).accPoison.contains (accKey (x.t.coreSel x.g.core) r.acc.toNat (row + j) (col + l)) = false) →
      exec i s = .next ({ s with
        nextId := s.nextId + 2
        arrays := s.arrays ++ [x.arrayEntry (.accrd form row col (r.n1.toNat + 1) r.v.toNat x.act) [x.g.core] r.acc] }.modGroup x.g.gid
          (fun g => Group.advance { g with
            outs := g.outs ++ [(⟨s.nextId + 1, (List.range cnt).map (fun j => .v (r.v.toNat + j)), false, [], 0, .array s.nextId⟩ : Pend)] }))) ∧
  (∀ i i32 r, (∃ g, i = .accwrF32 g r) ∧ i32 = false ∨ (∃ g, i = .accwrI32 g r) ∧ i32 = true →
    ∀ s x row col, Runs i (fun _ => readNames r (r.n1.toNat + 1) true) s x → x.mayUseArray → x.origin r = some (row, col) →
      exec i s = .next ({ s with
        nextId := s.nextId + 1
        arrays := s.arrays ++ [x.arrayEntry (.accwr i32 row col ((List.range (r.n1.toNat + 1)).flatMap (fun j =>
          x.lanes.map (fun l => (j, l, x.g.vget (r.v.toNat + j) l))))) [x.g.core] r.acc] }.modGroup x.g.gid Group.advance)) ∧
  (∀ g clr sd acc s x, Runs (.mstat g clr sd acc) (fun _ => [⟨0, .op (.s sd) 1, false⟩, ⟨1, .acc acc.toNat, false⟩]) s x → x.mayUseArray →
    exec (.mstat g clr sd acc) s = .next ({ s with
      nextId := s.nextId + 2
      arrays := s.arrays ++ [x.arrayEntry (.mstat clr sd.toNat) [x.g.core] acc] }.modGroup x.g.gid (fun g => Group.advance { g with
        outs := g.outs ++ [(⟨s.nextId + 1, [.s sd.toNat], false, [], 0, .array s.nextId⟩ : Pend)] })))

/-! ### Family 7 -/

/-- O29. Transfers (R101, R233, R234): the active lanes leave the clause for their targets, relative to the clause's start for BRA
and CALL, in a vector register for BRX and RET; CALL leaves the start of the clause after it in its link register. A target that is
no multiple of 8 in an active lane traps with class 1 and those lanes, and the lowest one's target. -/
def Obligations.Transfers : Prop :=
  (∀ i nms target link,
    (∃ g off, i = .bra g off ∧ nms = [] ∧ target = (fun (x : Ctx) _ => BitVec.ofNat 32 x.c.start + off) ∧ link = none) ∨
    (∃ g n, i = .brx g n ∧ nms = [⟨1, .op (.v n) 1, true⟩] ∧ target = (fun (x : Ctx) l => x.g.vget n.toNat l) ∧ link = none) ∨
    (∃ g n off, i = .call g n off ∧ nms = [⟨0, .op (.v n) 1, false⟩] ∧ target = (fun (x : Ctx) _ => BitVec.ofNat 32 x.c.start + off) ∧ link = some n) ∨
    (∃ g n, i = .ret g n ∧ nms = [⟨1, .op (.v n) 1, true⟩] ∧ target = (fun (x : Ctx) l => x.g.vget n.toNat l) ∧ link = none) →
    ∀ s x, Runs i (fun _ => nms) s x →
      ((∀ l ∈ x.lanes, (target x l).toNat % 8 = 0) → ∃ (t : State) (k : Group), exec i s = .next t ∧ t.onlyGroup s k.advance ∧ x.transferred (target x) k ∧
        ∀ n l, l < 64 → k.vget n l = if link.map BitVec.toNat = some n ∧ l ∈ x.lanes
          then BitVec.ofNat 32 (x.c.start + 8 * (x.c.header.toNat % 16 + 2)) else x.g.vget n l) ∧
      (∀ l ∈ x.lanes, (target x l).toNat % 8 ≠ 0 → (∀ k ∈ x.lanes, k < l → (target x k).toNat % 8 = 0) →
        exec i s = .next (x.raise ⟨1, 0, maskOf x.g.width (fun k => x.act.getLsbD k && (target x k).toNat % 8 != 0),
          (target x l).setWidth 64, 0, 0, 0⟩)))

/-- The value that GETSYS gives for a selector in a lane (R17, R62). -/
def Sys2Proof.sysWord (x : Ctx) (v : SysVal) (l : Nat) : Nat :=
  match v with
  | .lane => l
  | .group => x.g.num
  | .team => if x.t.team then x.t.linear else (x.t.cont.x + x.l.gx * (x.t.cont.y + x.l.gy * x.t.cont.z)) % 2 ^ 32
  | .core => if 384 ≤ x.g.core then x.g.core - 384 else x.g.core
  | .die => dieOf x.g.core
  | .pair => if 384 ≤ x.g.core then 0xFFFFFFFF else x.g.core / 2
  | .gridx => x.t.cont.x
  | .gridy => x.t.cont.y
  | .gridz => x.t.cont.z
  | .tick => x.s.tick.toNat
  | .vi => x.t.vi

/-- O30. ELECT, YIELD, NOP and GETSYS (R62, R236 to R238). -/
def Obligations.LaneAndSystemValues : Prop :=
  (∀ g d, LaneWise (.elect g d) d [] (fun x l => if l = x.lanes.headD 0 then 1 else 0) noFlags) ∧
  (∀ i g, i = .yield g ∨ i = .nop g → Changes i (fun _ => []) Machine.always (fun _ h => h)) ∧
  (∀ g v n, Computes (.getsys g v (.v n)) (fun _ => namesA (.v n) []) Machine.always
    (fun x => x.inLanes (.v n) (fun l => BitVec.ofNat 32 (sysWord x v l))) (fun _ => 0)) ∧
  (∀ g v n, Computes (.getsys g v (.s n)) (fun _ => namesA (.s n) []) Machine.always
    (fun x => if x.any = true then [(.s n.toNat, BitVec.ofNat 64 (sysWord x v 0))] else []) (fun _ => 0))

/-- What a lane parked on a dissolved barrier receives (R46, R202): SATISFIED where its barrier had completed, its condition had held in
time, or another condition of an any-of WAIT holds; TIMEOUT where its time-out has elapsed before; else BROKEN. -/
def Sys2Proof.dissolvedStatus (s : State) (g : Group) (t : Task) (p : Park) (status : Word) : Prop :=
  let past := ∃ d, p.deadline = some d ∧ d < s.tick.toNat
  let other := p.onBar = false ∧ p.all = false ∧ ∃ c ∈ p.conds, condBarrier c = none ∧ condHolds s g t p.join c = true
  (p.released = true ∨ p.met = true ∨ ¬past ∧ other → status = 0) ∧ (p.released = false → p.met = false → past → status = 1) ∧
  (p.released = false → p.met = false → ¬past → ¬other → status = 2)

/-- Where a group's handler starts (R304): its vpc value, from the handler base of its virtual interface. -/
def Sys2Proof.handlerAt (s : State) (t : Task) (g : Group) : Word := BitVec.ofNat 32 ((s.viOf t.vi).handler - (g.seg 4).1).toNat

/-- A group's entry to its handler meets the checks of R304, and its trap area can be written. -/
def Sys2Proof.handlerOk (s : State) (t : Task) (g : Group) : Prop :=
  (s.viOf t.vi).handler ≠ 0 ∧ ((s.viOf t.vi).handler - (g.seg 4).1).toNat % 8 = 0 ∧
  ((s.viOf t.vi).handler - (g.seg 4).1).toNat < (g.seg 4).2.toNat ∧ g.layoutEnd t + 128 ≤ (g.seg 5).2.toNat ∧
  ∀ bs : List Byte, bs.length = 64 → (s.groupPut g t.vi g.trapArea bs).2 = true

/-- O31. EXIT outside a handler (R36, R45, R235), where no barrier completes by it: the active lanes exit, leave the clause and the
team's barriers; when no lane is left the group has ended. In its handler a killed group ends, and EXIT is fatal to another. A trap that is
fatal to a group kills its team (R46, R202, R357): the team's barriers are dissolved, and lanes parked on them have BROKEN, or the outcome
that came first; its matrix operations are aborted; the group and those that are swapped out have ended, and every other one has entered the handler with
cause TEAM_KILLED, or has ended where it cannot; a resident group whose handler entry meets the checks of R304 has entered, with its live
lanes at the handler; a team that is being killed already loses that group alone. -/
def Obligations.ExitsAndKills : Prop :=
  (∀ g s x, Runs (.exit g) (fun _ => []) s x → x.any = true → x.g.gsrH = false →
    ((x.t.lanesGone x.g.num x.act).barriers.any Barrier.complete = false → x.g.live &&& ~~~x.act ≠ 0 → x.g.residency ≠ .ended →
      ∃ (t : State) (k : Group), exec (.exit g) s = .next t ∧ t.onlyGroup (s.modTask x.t.uid (fun u => u.lanesGone x.g.num x.act)) k.advance ∧
        k = { x.g with vpc := k.vpc, transfer := x.g.transfer &&& ~~~x.act, clause := some { x.c with lanes := x.c.lanes &&& ~~~x.act } } ∧
        ∀ l, l < 64 → k.exited l = (x.g.exited l || x.lanes.contains l)) ∧
    ((∀ m, (x.t.lanesGone x.g.num m).barriers.any Barrier.complete = false) → x.g.live &&& ~~~x.act = 0 → x.g.residency ≠ .ended →
      ∃ t k, exec (.exit g) s = .next t ∧ t.group? x.g.gid = some k ∧ k.residency = .ended ∧ k.live = 0 ∧ k.clause = none ∧ t.mem = s.mem)) ∧
  (∀ i, (∃ g, i = .exit g ∨ i = .rtt g) → ∀ s x, Runs i (fun _ => []) s x → x.any = true → x.g.gsrH = true → x.g.killed = true →
    exec i s = .next (s.endGroup x.g.gid)) ∧
  (∀ g s x, Runs (.exit g) (fun _ => []) s x → x.any = true → x.g.gsrH = true → x.g.killed = false →
    exec (.exit g) s = .next (s.fatal x.g x.g.entryCls x.g.entrySub true)) ∧
  (∀ s g t tr r m, tr.cls = 12 ∨ g.gsrH = true → State.takeTrap s g t tr r m = s.fatal g tr.cls tr.sub false) ∧
  (∀ (s : State) g t p n, p ∈ g.parks → p.named = true → p.dst = .v n → (g.parks.map Park.lane).Nodup → (∀ q ∈ g.parks, q.lane < 64) →
    dissolvedStatus s g t p ((dissolve s t g).vget n p.lane) ∧ ∀ q ∈ (dissolve s t g).parks, q ∈ g.parks ∧ q.named = false) ∧
  (∀ (s : State) t h info, s.group? h.gid = some h → handlerOk s t h →
    ∃ k, (s.teamKilled t h info).group? h.gid = some k ∧ k.killed = true ∧ k.gsrH = true ∧ k.entryCls = 13 ∧ k.resume = h.live ∧ k.parks = [] ∧
      k.clause = none ∧ ∀ l, l < 64 → h.live.getLsbD l = true → k.vpc.get l = handlerAt s t h) ∧
  (∀ (s : State) g t cls sub byExit, s.group? g.gid = some g → s.task? g.task = some t →
    let u := s.fatal g cls sub byExit
    (t.killing = true → u = s.endGroup g.gid) ∧
    (t.killing = false →
      (∃ k, u.task? g.task = some k ∧ k.killing = true ∧ (∀ b ∈ k.barriers, b.armed = false) ∧
        k.killInfo = BitVec.ofNat 64 (g.num + 64 * (if byExit = true then 1 else 0) + 256 * cls + 2 ^ 16 * sub)) ∧
      u.arrays = s.arrays.filter (fun e => e.task != g.task) ∧ u.groups.map Group.gid = s.groups.map Group.gid ∧
      (∀ h ∈ u.groups, h.task = g.task → h.residency = .ended ∨
        (h.gid ≠ g.gid ∧ h.residency = .resident ∧ h.killed = true ∧ h.gsrH = true ∧ h.entryCls = 13 ∧ h.parks = [] ∧ h.clause = none)) ∧
      (∀ j, (∀ h ∈ s.groups, h.gid = j → h.task = g.task ∧ (j = g.gid ∨ h.here = false)) → ∀ h ∈ u.groups, h.gid = j → h.residency = .ended) ∧
      (∀ h ∈ s.groups, (∀ k ∈ s.groups, k.gid = h.gid → k = h) → h.task = g.task → h.gid ≠ g.gid → h.here = true →
        (h.parks.map Park.lane).Nodup → (∀ q ∈ h.parks, q.lane < 64) → ∀ p n, p ∈ h.parks → p.named = true → p.dst = .v n →
        p.released = false → p.met = false → p.deadline = none → p.onBar = true ∨ p.all = true ∨ (∀ c ∈ p.conds, (condBarrier c).isSome = true) →
        ∃ k, u.group? h.gid = some k ∧ k.vget n p.lane = 2) ∧
      (∀ h ∈ s.groups, (∀ k ∈ s.groups, k.gid = h.gid → k = h) → h.task = g.task → h.gid ≠ g.gid → h.residency = .resident →
        (∀ k ∈ s.groups, k.task = g.task → k.here = true → k.gid = g.gid ∨ k.gid = h.gid) → handlerOk s t h →
        ∃ k, u.group? h.gid = some k ∧ k.killed = true ∧ k.gsrH = true ∧ k.entryCls = 13 ∧ k.resume = h.live ∧
          ∀ l, l < 64 → h.live.getLsbD l = true → k.vpc.get l = handlerAt s t h)))

/-- The fields of a cause record (R305, R306). -/
def Sys2Proof.recordHolds (b : List Byte) (tr : Trap) (r : ReturnPoint) (resume tick : DWord) : Prop :=
  b.length = 64 ∧ field b 0 2 = tr.cls ∧ field b 2 2 = tr.sub ∧ field b 4 4 = r.clause ∧ field b 8 1 = r.index + (if r.next = true then 16 else 0) ∧
  field b 9 1 = (if tr.cls = 3 then tr.idx + 16 * tr.pos else 0) ∧ field b 0xA 2 = r.opcode ∧
  field b 0xC 4 % 128 = r.repLeft.toNat ∧ field b 0xC 4 / 128 = r.repDone.toNat % 128 ∧ field b 0x10 8 = tr.lanes.toNat ∧ field b 0x18 8 = resume.toNat ∧
  field b 0x20 8 = tr.addr.toNat ∧ field b 0x28 8 = tr.infoA.toNat ∧ field b 0x30 8 = 0 ∧ field b 0x38 8 = tick.toNat

/-- The bytes of some pieces of memory as a core fetches them (R272). -/
def Sys2Proof.fetchedBytes (s : State) (core vi : Nat) (ps : List (Nat × Nat × Trans)) : List Byte :=
  ps.flatMap (fun p => if p.2.2.remote then s.mem.remoteRead vi p.1 p.2.1
    else s.mem.read (if p.2.2.repl then replicaFor (l1Of core) p.2.2.pa else p.2.2.pa) p.2.1)

/-- O32. TRAP enters the handler with return past it (R239, R302, R304); the cause record that an entry writes holds the fields of R305; RTT returns from it as the record in the trap area says: the
resume lanes that have not exited are at the clause, or past it, and gsr.H is clear, where nothing is deferred on an absent line
(R240, R307); outside a handler RTT is illegal. -/
def Obligations.TrapAndReturn : Prop :=
  (∀ g code s x u, Runs (.trap g code) (fun _ => []) s x → x.any = true →
    let tr : Trap := ⟨10, 0, x.act, 0, code.setWidth 64, 0, 0⟩
    x.Enters tr (x.returnPoint true) u → exec (.trap g code) s = .next (x.entered tr u)) ∧
  (∀ (x : Ctx) tr r u, x.Enters tr r u → x.s.takeTrap x.g x.t tr r x.c.lanes = x.entered tr u) ∧
  (∀ tr r resume tick, tr.cls < 2 ^ 16 → tr.sub < 2 ^ 16 → tr.pos < 4 → tr.idx < 8 → r.clause < 2 ^ 32 → r.index < 16 → r.opcode < 512 →
    recordHolds (causeRecord tr r resume tick) tr r resume tick) ∧
  (∀ g s x bytes, Runs (.rtt g) (fun _ => []) s x → x.any = true → x.g.gsrH = true → x.g.killed = false →
    s.deferred x.g.core = [] → s.coreRead x.g.core x.t.vi x.g.trapArea 64 = some bytes →
    let clause := field bytes 4 4
    let index := field bytes 8 1 % 16
    let next := field bytes 8 1 / 16 % 2 = 1
    let resume := BitVec.ofNat 64 (field bytes 0x18 8) &&& x.g.live
    ∀ ps, s.reach x.g.core x.t.vi .fetch false (((x.g.seg 4).1.toNat + clause) % 2 ^ 64) 8 = .ok ps →
      let count := leNat (fetchedBytes s x.g.core x.t.vi ps) % 16
      clause % 8 = 0 → index ≤ count →
      (next ∧ index = count → exec (.rtt g) s = .next (s.modGroup x.g.gid (fun h =>
        { h.arriveAt resume (BitVec.ofNat 32 (clause + 8 * (count + 2))) with
          gsrH := false, clause := none, hold := .none, resumeIssue := none }))) ∧
      (¬(next ∧ index = count) → exec (.rtt g) s = .next (s.modGroup x.g.gid (fun h =>
        { h.transferTo resume (BitVec.ofNat 32 clause) with
          gsrH := false, clause := none, hold := .none, resume := resume, resumeIssue := some (index, decide next)
          repLeft := BitVec.ofNat 7 (field bytes 12 4), repDone := BitVec.ofNat 8 (field bytes 12 4 / 128 % 128) })))) ∧
  (∀ g s x, ctxOf s g = some x → x.g.gsrH = false → (Instr.rtt g).allowedIn (x.c.header.toNat / 16 % 8) = true →
    exec (.rtt g) s = .next (x.raise (trapIllegal 3 x.act)))

/-- O33. How a trap is taken, and what makes it fatal (R46, R304, R307, R308, R318, R320, R321). A precise trap, a deferred error too, enters the
handler as R304 says; a deferred error that a privileged group takes is noted as consumed. With a handler base of 0 the trap is fatal; an
entry outside C or misaligned is a fatal error of subcode 2, no room for the trap area of subcode 3. RTT with a return clause that is no
multiple of 8, or an index beyond the clause's count, is fatal with the class and subcode of R357. That a trap area which cannot be written, or
read, is a fatal error of subcode 3 is the model's choice (log 14). -/
def Obligations.HandlerEntry : Prop :=
  (∀ (x : Ctx) tr u, let y : Ctx := if tr.cls = 11 ∧ x.g.privileged x.t = true
      then { x with s := { x.s with host := { x.s.host with consumed := x.s.host.consumed ++ [x.g.core] } } } else x
    y.Enters tr (x.returnPoint false) u → x.raise tr = y.entered tr u) ∧
  (∀ (s : State) g t tr r m, tr.cls ≠ 12 → g.gsrH = false →
    let base := (s.viOf t.vi).handler
    let e := (base - (g.seg 4).1).toNat
    (base = 0 → s.takeTrap g t tr r m = s.fatal g tr.cls tr.sub false) ∧
    (base ≠ 0 → e % 8 ≠ 0 ∨ (g.seg 4).2.toNat ≤ e → s.takeTrap g t tr r m = s.fatal g 12 2 false) ∧
    (base ≠ 0 → e % 8 = 0 → e < (g.seg 4).2.toNat → (g.seg 5).2.toNat < g.layoutEnd t + 128 → s.takeTrap g t tr r m = s.fatal g 12 3 false) ∧
    (base ≠ 0 → e % 8 = 0 → e < (g.seg 4).2.toNat → g.layoutEnd t + 128 ≤ (g.seg 5).2.toNat →
      (s.groupPut g t.vi g.trapArea (causeRecord tr r m s.tick)).2 = false → s.takeTrap g t tr r m = s.fatal g 12 3 false)) ∧
  (∀ g s x, Runs (.rtt g) (fun _ => []) s x → x.any = true → x.g.gsrH = true → x.g.killed = false → (s.fatal x.g 1 0 false).deferred x.g.core = [] →
    (s.fatal x.g 0 3 false).deferred x.g.core = [] → (s.fatal x.g 12 3 false).deferred x.g.core = [] →
    (s.coreRead x.g.core x.t.vi x.g.trapArea 64 = none → exec (.rtt g) s = .next (s.fatal x.g 12 3 false)) ∧
    (∀ bytes, s.coreRead x.g.core x.t.vi x.g.trapArea 64 = some bytes →
      (field bytes 4 4 % 8 ≠ 0 → exec (.rtt g) s = .next (s.fatal x.g 1 0 false)) ∧
      (∀ ps, field bytes 4 4 % 8 = 0 → s.reach x.g.core x.t.vi .fetch false (((x.g.seg 4).1.toNat + field bytes 4 4) % 2 ^ 64) 8 = .ok ps →
        leNat (fetchedBytes s x.g.core x.t.vi ps) % 16 < field bytes 8 1 % 16 → exec (.rtt g) s = .next (s.fatal x.g 0 3 false))))

/-- O34. SPAWN and SPAWNC, once their checks pass and their queue has room, add 1 to the record's join counter (SPAWN) and create a task whose record is the one in memory with its
depth, continuation bit and launch pointer set, with the spawner's launch record where it names none,
SPAWNC's at once where its counter is 0 and else registered against it; what the group has posted before is performed first (R40, R195).
UINT posts its interrupt (R241 to R245). -/
def Obligations.Spawns : Prop :=
  (∀ g rel ub ua s x a, Runs (.spawn g rel ub ua) (fun _ => [uName 1 ua, uName 2 ub]) s x → x.any = true →
    let y := x.settled
    y.orderWaits true = false → y.spawnChecks (x.u ua) (x.u ub) none true = .ok a →
    let s0 := match rel with | some sc => y.s.release x.g x.t sc | none => y.s
    let s1 := match a.join with | some k => (y.atomLocated s0 .add32 k ⟨k.acc, 0, 1, 0⟩).1 | none => s0
    let c := patchCont a.rec0 (x.t.cont.depth + 1) (some false) (x.childLaunch a.rec0)
    ∀ s2 addr sq, s1.enqueue x.t.vi (x.u ub) 0 0 0 c = some (s2, addr, sq) →
      exec (.spawn g rel ub ua) s = .next ({ s2 with
        nextId := s2.nextId + 1
        tasks := s2.tasks ++ [{ newTask s2.nextId x.t.vi x.t.grid true false 0 sq (contOf c) (some addr) x.t.service x.t.privileged
          (s1.dieOfRecord x.t.vi (contOf c) x.t.service) with launch := x.ownLaunch a.rec0 }] }.modGroup x.g.gid Group.advance)) ∧
  (∀ g rel uc ub ua s x a k, Runs (.spawnc g rel uc ub ua) (fun _ => [uName 1 ua, uName 2 ub, uName 3 uc]) s x → x.any = true →
    let y := x.settled
    y.orderWaits true = false → y.spawnChecks (x.u ua) (x.u ub) (some (x.u uc)) false = .ok a → a.counter = some k →
    let s1 := match rel with | some sc => y.s.release x.g x.t sc | none => y.s
    let c := patchCont a.rec0 x.t.cont.depth (some true) (x.childLaunch a.rec0)
    (leNat (y.current s1 k) = 0 → ∀ s2 addr sq, s1.enqueue x.t.vi (x.u ub) 0 0 0 c = some (s2, addr, sq) →
      exec (.spawnc g rel uc ub ua) s = .next ({ s2 with
        nextId := s2.nextId + 1
        tasks := s2.tasks ++ [{ newTask s2.nextId x.t.vi x.t.grid true false 0 sq (contOf c) (some addr) x.t.service x.t.privileged
          (s1.dieOfRecord x.t.vi (contOf c) x.t.service) with launch := x.ownLaunch a.rec0 }] }.modGroup x.g.gid Group.advance)) ∧
    (leNat (y.current s1 k) ≠ 0 → exec (.spawnc g rel uc ub ua) s = .next ({ s1 with
      regs31 := s1.regs31 ++ [(⟨x.t.vi, x.t.grid, counterKey x.t.vi k, x.u ub, c, x.t.service, x.t.privileged, x.ownLaunch a.rec0, none⟩ : Reg31)] }.modGroup x.g.gid Group.advance))) ∧
  (∀ g payload sa s x, Runs (.uint g payload sa) (fun _ => [uName 1 sa]) s x → x.any = true → x.noReds → x.nothingSent .sys →
    x.orderWaits true = false →
    ∃ m, x.releasedMem .sys m ∧ exec (.uint g payload sa) s = .next { s.modGroup x.g.gid Group.advance with
      mem := m
      host := { s.host with interrupts := s.host.interrupts ++
        [(⟨x.t.vi, (s.viOf x.t.vi).uintBase, x.u sa % 256, payload, sysWord x .team 0, sysWord x .core 0, x.g.num⟩ : Interrupt)] } })

/-- A privileged instruction that changes the state of the machine by a function, and no register (R246). -/
def Sys2Proof.Privileged (i : Instr) (nms : List Named) (ok : Ctx → Prop) (f : Ctx → State → State) : Prop :=
  ∀ s x, Runs i (fun _ => nms) s x → x.any = true → ok x → exec i s = .next ((f x s).modGroup x.g.gid Group.advance)

/-- SETVI sets one parameter of the virtual interface that s_a names, on the scheduling processor (R251). -/
def Sys2Proof.SetsVi (i : Instr) (sb sa : BitVec 6) (f : Nat → VI → VI) : Prop :=
  Privileged i [uName 1 sa, uName 2 sb] (fun x => 412 ≤ x.g.core)
    (fun x s => { s with vis := upsert s.vis (fun v => v.num == (s.viOf (x.u sa % 64)).num) (f (x.u sb) (s.viOf (x.u sa % 64))) })

/-- O35. The privileged instructions (R246 to R251).
SETRGN's virtual interface keeps, of the copies in L1s, those that lie in neither the old nor the new extent of the entry, and its clean
mapped stash lines of the others are absent (R248). That S keeps the limit 0 on a service core is the model's choice (log 73). What disabling a virtual interface reports is the model's reading in part (log 31), and that
SETVI.keybase takes the low 12 bits of a value above 4,095 is its choice (log 64). -/
def Obligations.PrivilegedInstructions : Prop :=
  (∀ g seg sb sa, Changes (.setseg g seg sb sa) (fun _ => [uName 1 sa, uName 2 sb])
    (fun x => x.any = true ∧ ¬(seg = 1 ∧ (x.u sa % 1024 ≠ 0 ∨ 262144 < x.u sa + x.u sb)))
    (fun x h => { h with segs := h.segs.set seg.toNat (x.g.sget sa.toNat, if seg = 1 ∧ 384 ≤ h.core then 0 else x.g.sget sb.toNat) })) ∧
  (∀ g entry sb sa s x, Runs (.setrgn g entry sb sa) (fun _ => [uName 1 sa, uName 2 sb]) s x → x.any = true →
    ∃ t, exec (.setrgn g entry sb sa) s = .next t ∧
      (t.viOf x.t.vi).regions = (s.viOf x.t.vi).regionTable.set entry.toNat
        ⟨x.u sa, x.u sb % 2 ^ 48, BitVec.ofNat 4 (x.u sb / 2 ^ 48), decide (x.u sb / 2 ^ 52 % 2 = 1)⟩ ∧
      (let old := (s.viOf x.t.vi).regionTable.getD entry.toNat ⟨0, 0, 0, false⟩
       let touched := fun (va n : Nat) => decide (va < old.base + old.limit ∧ old.base < va + n ∨ va < x.u sa + x.u sb % 2 ^ 48 ∧ x.u sa < va + n)
       (∀ c ∈ t.mem.copies, c ∈ s.mem.copies ∧ ¬(c.vi = x.t.vi ∧ touched c.va 4 = true)) ∧
       ((∀ c n, s.lensPending c n = false) → t.arrays = s.arrays ∧
         t.mem.copies = s.mem.copies.filter (fun c => !(c.vi == x.t.vi && touched c.va 4))) ∧
       t.mem.lines = s.mem.lines.map (fun l =>
         if l.vi = x.t.vi ∧ l.mapped.any (fun va => touched va 128) = true ∧ s.mem.lineDirty l = false then { l with present := false } else l)) ∧
      t.mem = { s.mem with copies := t.mem.copies, lines := t.mem.lines, stash := t.mem.stash, stashPoison := t.mem.stashPoison } ∧
      lensTook s.arrays t.arrays ∧ t.groups = (s.modGroup x.g.gid Group.advance).groups) ∧
  (∀ g sb sa, Privileged (.tlbinvPage g sb sa) [uName 1 sa, uName 2 sb] (fun x => 412 ≤ x.g.core ∨ x.u sb % 64 = x.t.vi) (fun x s => { s with
    mem := { s.mem with tlb := s.mem.tlb.filter (fun e => !(e.vi == x.u sb % 64 && e.base ≤ x.u sa && x.u sa < e.base + e.size)) } })) ∧
  (∀ g sb, Privileged (.tlbinvVi g sb) [uName 2 sb] (fun x => 412 ≤ x.g.core ∨ x.u sb % 64 = x.t.vi) (fun x s =>
    let v := s.viOf (x.u sb % 64)
    { s with
      vis := upsert s.vis (fun y => y.num == v.num) { v with ptroot := v.ptrootNext }
      mem := { s.mem with tlb := s.mem.tlb.filter (fun e => !(e.vi == x.u sb % 64)) } })) ∧
  (∀ g, Privileged (.tlbinvAll g) [] (fun x => 412 ≤ x.g.core) (fun _ s => { s with mem := { s.mem with tlb := [] } })) ∧
  (∀ g sb sa, Privileged (.icinvRange g sb sa) [uName 1 sa, uName 2 sb] Machine.always (fun x s => { s with
    mem := { s.mem with icache := s.mem.icache.filter (fun e =>
      !(e.vi == x.t.vi && (alignDown (x.u sa) 128 ≤ e.va && e.va < alignUp (x.u sa + x.u sb) 128))) } })) ∧
  (∀ g, Privileged (.icinvAll g) [] Machine.always (fun x s =>
    { s with mem := { s.mem with icache := s.mem.icache.filter (fun e => !(e.vi == x.t.vi)) } })) ∧
  (∀ g sb sa, SetsVi (.setviHandler g sb sa) sb sa (fun v k => { k with handler := BitVec.ofNat 64 v })) ∧
  (∀ g sb sa, SetsVi (.setviSwap g sb sa) sb sa (fun v k => { k with swap := v })) ∧
  (∀ g sb sa, SetsVi (.setviPtroot g sb sa) sb sa (fun v k => { k with ptrootNext := v })) ∧
  (∀ g sb sa, SetsVi (.setviUint g sb sa) sb sa (fun v k => { k with uintBase := BitVec.ofNat 64 v })) ∧
  (∀ g sb sa, SetsVi (.setviKeys g sb sa) sb sa (fun v k => { k with keyShare := v })) ∧
  (∀ g sb sa, SetsVi (.setviKeybase g sb sa) sb sa (fun v k => { k with keyBase := v % 4096 })) ∧
  (∀ g sb sa s x, Runs (.setviState g sb sa) (fun _ => [uName 1 sa, uName 2 sb]) s x → x.any = true → 412 ≤ x.g.core → x.u sb ≤ 1 →
    exec (.setviState g sb sa) s = .next ((if x.u sb = 0 then s.disableVi (x.u sa % 64) else s.enableVi (x.u sa % 64)).modGroup x.g.gid Group.advance) ∧
    (x.u sb = 1 → ((s.enableVi (x.u sa % 64)).viOf (x.u sa % 64)).enabled = true) ∧
    (x.u sb = 0 → ((s.disableVi (x.u sa % 64)).viOf (x.u sa % 64)).enabled = false))

/-- O36. A virtual interface disabled and started (R280, R285, R345). Disabling it answers the host's waiting submissions with Completer Abort, kills its
placed tasks, discards its queued and held records without a completion record, and releases its keys and its reservations. Starting
a disabled one gives it the queues that its descriptors enable, each with its first segment alone and no record; nothing of an older
record is left, and no completion record that is due changes. -/
def Obligations.InterfaceStates : Prop :=
  (∀ (s : State) vi, let u := s.disableVi vi
    (u.viOf vi).enabled = false ∧ u.host.waiting = s.host.waiting.filter (fun h => h.vi != vi) ∧
    u.host.answers = s.host.answers ++ List.replicate (s.host.waiting.filter (fun h => h.vi == vi)).length .abort ∧
    (∀ t ∈ s.tasks, t.vi = vi → (∀ k ∈ s.tasks, k.uid = t.uid → k = t) →
      (t.state = .placed → ∃ k, u.task? t.uid = some k ∧ k.killing = true) ∧
      (t.state = .queued ∨ t.state = .held → ∃ k, u.task? t.uid = some k ∧ k.state = .discarded ∧ k.ended = true)) ∧
    (∀ t ∈ s.tasks, t.vi = vi → (∀ k ∈ u.keys, k.holder ≠ some t.uid ∧ ∀ r ∈ k.reserved, r.1 ≠ t.uid) ∧ ∀ r ∈ u.reservedCores, r.1 ≠ t.uid) ∧
    (∀ g ∈ s.grids, (∀ k ∈ s.grids, k.gridId = g.gridId → k = g) → g.single = true →
      (∃ t ∈ s.tasks, t.grid = g.gridId ∧ t.vi = vi ∧ t.ended = false ∧ (t.state = .queued ∨ t.state = .held) ∧ t.spawned = false ∧
        ∀ k ∈ s.tasks, k.uid = t.uid → k = t) →
      ∀ d ∈ u.dues, d.owner = .grid g.gridId → d ∈ s.dues)) ∧
  (∀ (s : State) vi, (s.viOf vi).enabled = false → let u := s.enableVi vi
    (u.viOf vi).enabled = true ∧ (u.viOf vi).poolUsed = [] ∧ u.dues = s.dues ∧
    (∀ q ∈ u.queues, q.vi = vi → q.num < 16 ∧ q.num < (s.viOf vi).queues ∧
      let off := 0x30000 + 0x100 * vi + 16 * q.num
      s.win (off + 8) % 2 = 1 ∧ q.segs = [s.win off + 2 ^ 32 * s.win (off + 4)]) ∧
    u.queues.filter (fun q => q.vi != vi) = s.queues.filter (fun q => q.vi != vi) ∧ (∀ e ∈ u.entries, e.vi ≠ vi) ∧
    (∀ t ∈ u.tasks, t.vi = vi → t.entry = none) ∧ (∀ g ∈ u.grids, g.vi = vi → g.entry = none)) ∧
  (∀ (s : State) vi, (s.viOf vi).enabled = true → s.enableVi vi = s.setVi { s.viOf vi with enabled := true })

/-- O37. Illegal uses (R109, R131, R296, R303): an instruction in a clause of another engine class, a privileged instruction in an unprivileged
group, and one that a service core lacks trap with class 0, before anything is read or written. A reserved guard: a word with guard 24 to
30, or guard 31 with negate 1, whose opcode is assigned raises the illegal-instruction trap with subcode 1 when a group issues it (R109).
Which lanes that trap's mask names is the model's choice (log 57). -/
def Obligations.IllegalUses : Prop :=
  (∀ i s x, i.isEvent = false → ctxOf s (i.guard.getD .always) = some x →
    (i.allowedIn (x.c.header.toNat / 16 % 8) = false → ∃ sub ≤ 4, exec i s = .next (x.raise (trapIllegal sub x.act))) ∧
    (i.privileged = true → x.g.privileged x.t = false → ∃ sub ≤ 5, exec i s = .next (x.raise (trapIllegal sub x.act))) ∧
    (i.lacksService = true → 384 ≤ x.g.core → ∃ sub ≤ 3, exec i s = .next (x.raise (trapIllegal sub x.act)))) ∧
  (∀ w : DWord, rawOf w.toNat ≠ none → (24 ≤ w.toNat / 2 ^ 9 % 32 ∧ w.toNat / 2 ^ 9 % 32 ≤ 30 ∨ w.toNat / 2 ^ 9 % 32 = 31 ∧ w.toNat / 2 ^ 14 % 2 = 1) →
    decodeWord w.toNat = .error 1 ∧
    ∀ s g c x, s.inputs = [] → s.runner = some g → g.clause = some c → g.betweenRepeats = none → g.preempt.getD 0 < 4096 →
      c.words[c.index]? = some (some w) → g.repLeft = 0 → ctxOf { s with cur := some g.gid } (guardOf w.toNat) = some x →
      step s = settleOut s false (countOut g.gid (.next (x.raise (trapIllegal 1 x.act)))))

/-! ### Events of groups -/

/-- O38. CLAUSE_ISSUE (R34, R104, R105): a group outside a clause, with no boundary trap pending, issues at the least vpc of its
lanes that may run, with the lanes that stand there as its issue set, unless results that the clause names, its wait counters or its
park bit hold it; a misaligned address, a header beyond the C limit, a bad header and a fetch fault of the header or of a later word of the
clause (R314) trap before any instruction of the clause, an invalid target with the lanes that reached it by a transfer. That the whole
clause is fetched as its header issues is the model's reading (log 49). The resumed repeat state of R177 is no part of this. -/
def Obligations.ClauseIssue : Prop :=
  (∀ (g : Group) p, g.issueAddr = some p ↔
    ((∃ l < g.width, g.runnable.getLsbD l = true ∧ (g.vpc.get l).toNat = p) ∧ ∀ l < g.width, g.runnable.getLsbD l = true → p ≤ (g.vpc.get l).toNat)) ∧
  (∀ s gid g t l p, s.group? gid = some g → s.task? g.task = some t → t.launch = some l → g.canIssue = true → g.boundary = [] →
    g.resumeIssue = none → g.repLeft = 0 → g.repAt = none → g.preempt = none → g.issueAddr = some p →
    let lanes := g.issueSet p
    let traps := fun (u : State) (tr : Trap) => exec (.clauseIssue gid) s = .next ((u.setGroup g).takeTrap g t tr ⟨p, 0, false, 0, g.repDone, 0⟩ lanes)
    (p % 8 ≠ 0 → traps s ⟨1, 0, lanes &&& g.transfer, BitVec.ofNat 64 p, 0, 0, 0⟩) ∧
    (p % 8 = 0 → ∀ s1, s.fetchWords g t.vi p 1 = .ok (s1, [none]) → traps s ⟨2, 0, lanes, BitVec.ofNat 64 p, 4, 0, 0⟩) ∧
    (p % 8 = 0 → ∀ va f, s.fetchWords g t.vi p 1 = .error (va, f) → traps s ⟨4, f.sub, lanes, BitVec.ofNat 64 va, f.info, 0, 0⟩) ∧
    (p % 8 = 0 → ∀ s1 w, s.fetchWords g t.vi p 1 = .ok (s1, [some w]) →
      (headerHigh w.toNat = true → lanes &&& g.transfer ≠ 0 → traps s1 ⟨1, 0, lanes &&& g.transfer, BitVec.ofNat 64 p, 0, 0, 0⟩) ∧
      (¬(headerHigh w.toNat = true ∧ lanes &&& g.transfer ≠ 0) → headerBad w.toNat = true → traps s1 (trapIllegal 6 lanes)) ∧
      (¬(headerHigh w.toNat = true ∧ lanes &&& g.transfer ≠ 0) → headerBad w.toNat = false → ∀ va f,
        s1.fetchWords g t.vi (p + 8) ((headerOf w.toNat).count + 1) = .error (va, f) → traps s1 ⟨4, f.sub, lanes, BitVec.ofNat 64 va, f.info, 0, 0⟩) ∧
      (¬(headerHigh w.toNat = true ∧ lanes &&& g.transfer ≠ 0) → headerBad w.toNat = false →
        ∀ s2 ws, s1.fetchWords g t.vi (p + 8) ((headerOf w.toNat).count + 1) = .ok (s2, ws) →
          let waits := ((headerOf w.toNat).park = true ∧ (g.outs ≠ [] ∨ g.owed ≠ [])) ∨ (∃ k < 6, (headerOf w.toNat).wait.testBit k = true ∧ g.e.get k ≠ 0) ∨
            g.clauseWaits t l (g.repDone, 0) ws = true
          (waits → exec (.clauseIssue gid) s = .next s) ∧
          (¬waits → exec (.clauseIssue gid) s = .next ({ s2 with cur := some g.gid }.setGroup { g with
            clause := some ⟨p, w, ws, 0, lanes, lanes⟩, hold := .none, repDone := 0, repSteps := none })))))

/-- O39. LONG_LATENCY_RESULT lands the writes of an outstanding result, with its flags; places that it does not name are unchanged
(R87, R106, R107). LANE_UNPARK and WAIT_TIMEOUT end the parking of a lane with its status (R41, R202, R203). MONITOR_FIRE and
MONITOR_POLL set a monitor's fired bit (R199, R200), but on a word whose home is fenced or out of reach of the group's die (R314, R323).
Where their condition does not hold, nothing changes.
Which parked lanes may wake while their group runs a handler, and that a condition that held in time while they could not wake
counts, is the model's reading (log 33). -/
def Obligations.WaitingLanes : Prop :=
  (∀ s gid g k o, s.group? gid = some g → g.outs.find? (fun q => q.key == k && q.src == .ready) = some o →
    (o.writes.map Machine.RegWrite.place).Nodup → (∀ w ∈ o.writes, w.place.ok) → (∀ n l v, .v n l v ∈ o.writes → l < g.width) → g.width ≤ 64 →
    ∃ t h, exec (.longLatencyResult gid k (fullMask g.width)) s = .next t ∧ t.onlyGroup s h ∧
      (∀ w ∈ o.writes, h.look w.place = w.leaves) ∧
      (∀ q : RegPlace, q.ok → q ∉ o.writes.map Machine.RegWrite.place → h.look q = g.look q) ∧
      h = { g with v := h.v, s := h.s, poisonV := h.poisonV, poisonS := h.poisonS, fsr := g.fsr ||| o.flags
                   outs := g.outs.filter (fun q => q.key != k) }) ∧
  (∀ s gid lane g t p, lane < 64 → s.group? gid = some g → s.task? g.task = some t → g.parks.find? (fun q => q.lane == lane) = some p →
    let ends := fun (i : Instr) (status : Word) => ∃ u h, exec i s = .next u ∧
      u.onlyGroup { s with
        mem := if p.onBar = true ∧ status = 0 then (s.acquireBy g t .grp 0xFFFF).mem else s.mem
        arrays := if p.onBar = true ∧ status = 0 then (s.acquireBy g t .grp 0xFFFF).arrays else s.arrays } h ∧
      h = { g with v := h.v, poisonV := h.poisonV, parks := g.parks.filter (fun q => q.lane != lane) } ∧
      ∀ n l, l < 64 → h.vget n l = if p.dst = .v n ∧ l = lane then status else g.vget n l
    let late := p.deadline.any (fun d => decide (d < s.tick.toNat))
    let sat := p.met = true ∨ (late = false ∧ p.holds s g t = true)
    (g.wakes lane = true → sat → ends (.laneUnpark gid lane) 0) ∧
    (g.wakes lane = false ∨ ¬sat → exec (.laneUnpark gid lane) s = .next s) ∧
    (∀ d, p.deadline = some d → d < s.tick.toNat → g.wakes lane = true → ends (.waitTimeout gid lane) (if p.met = true then 0 else 1)) ∧
    (g.wakes lane = false ∨ p.deadline = none ∨ (∃ d, p.deadline = some d ∧ s.tick.toNat ≤ d) → exec (.waitTimeout gid lane) s = .next s)) ∧
  (∀ s gid k g m, s.group? gid = some g → g.mon[k]? = some m →
    let becomes := fun (i : Instr) (n : Monitor) => ∃ u h, exec i s = .next u ∧ u.onlyGroup s h ∧ h = { g with mon := g.mon.set k n }
    becomes (.monitorFire gid k) { m with fired := m.fired || (m.armed && m.hit && (m.stash || !s.outOfReach (s.groupDie gid) m.addr 4)) } ∧
    (m.armed = true → m.polling = true → m.fired = false → s.tick.toNat % 100 = 0 → s.outOfReach (s.groupDie gid) m.addr 4 = false →
      becomes (.monitorPoll gid k) (if monHolds m.cmp (s.mem.word m.addr) m.value = true then { m with hit := true, fired := true } else m)) ∧
    (m.armed = false ∨ m.polling = false ∨ m.fired = true ∨ s.tick.toNat % 100 ≠ 0 → becomes (.monitorPoll gid k) m))

/-- The bytes of a group's save area (R71, R72): the header, then uniform registers, predicates, index registers, vpc, and the vector
registers of `live` granules. -/
def Sys2Proof.areaHolds (g : Group) (cause live : Nat) (b : List Byte) : Prop :=
  let up := fun (n : Nat) => (n + 63) / 64 * 64
  let offP := 64 + 64 * g.sgran
  let offX := offP + 192
  let offC := up (offX + 32 * g.width)
  let offV := up (offC + 4 * g.width)
  (field b 0 4 = if cause = 1 then 2 ^ 32 - 1 else g.issueAddr.getD (2 ^ 32 - 1)) ∧
  field b 4 4 = (if g.gsrE = true then 1 else 0) + (if g.gsrH = true then 2 else 0) ∧
  (∀ l < 64, (field b 8 8).testBit l = (decide (l < g.width) && g.exited l) ∧ (field b 0x10 8).testBit l = (decide (l < g.width) && g.parked l)) ∧
  field b 0x18 4 = g.fsr.toNat ∧
  field b 0x1C 4 % 128 = (g.repAt.elim g.repLeft (fun r => r.2.2)).toNat ∧ field b 0x1C 4 / 128 = (g.repAt.elim g.repDone (fun r => r.2.1)).toNat % 128 ∧
  (∀ k < 6, field b 0x20 8 / 2 ^ (6 * k) % 64 = (g.e.get k).toNat) ∧
  field b 0x28 8 = g.parks.foldl (fun n p => p.deadline.elim n (min n)) (2 ^ 64 - 1) ∧ field b 0x30 4 = cause ∧ field b 0x34 12 = 0 ∧
  (∀ n < 8 * g.sgran, field b (64 + 8 * n) 8 = (g.sget n).toNat) ∧
  (∀ n < 24, ∀ l < 64, (field b (offP + 8 * n) 8).testBit l = (decide (l < g.width) && g.pget n l)) ∧
  (∀ k < 8, ∀ l < g.width, field b (offX + 4 * (k * g.width + l)) 4 = (g.xget k l).toNat) ∧
  (∀ l < g.width, field b (offC + 4 * l) 4 = (g.vpc.get l).toNat) ∧
  (∀ n < 8 * live, ∀ l < g.width, field b (offV + 4 * (n * g.width + l)) 4 = (g.vget n l).toNat)

/-- A group that has come back from its save area is as it was (R73): its registers, but for vector registers that were not saved,
which read 0; a repeat state in progress belongs to the clause at its issue address (R177). -/
def Sys2Proof.cameBack (g : Group) (live : Nat) (h : Group) : Prop :=
  (∀ n < 8 * g.sgran, h.sget n = g.sget n) ∧ (∀ n < 24, ∀ l < g.width, h.pget n l = g.pget n l) ∧ (∀ k < 8, ∀ l < g.width, h.xget k l = g.xget k l) ∧
  (∀ l < g.width, h.vpc.get l = g.vpc.get l) ∧ (∀ n l, l < g.width → h.vget n l = if n < 8 * live then g.vget n l else 0) ∧
  (∀ k < 6, h.e.get k = g.e.get k) ∧
  h = { g with s := h.s, p := h.p, x := h.x, vpc := h.vpc, v := h.v, e := h.e, transfer := h.transfer, residency := .resident, parkedSince := none
               repLeft := h.repLeft, repDone := h.repDone, repAt := h.repAt, repSteps := none } ∧
  (g.repAt = none → g.repLeft ≠ 0 → ∀ p, g.issueAddr = some p → h.repLeft = 0 ∧ h.repAt = some (p, BitVec.ofNat 8 (g.repDone.toNat % 128), g.repLeft)) ∧
  (g.repAt = none → g.repLeft = 0 → h.repLeft = 0 ∧ h.repAt = none)

/-- O40. Pre-emption, swap-out and reinstatement (R41, R43, R71 to R73, R309, R310, R341): a request marks the resident groups of a
placed task; at a WAIT where every live lane is parked the group starts to save; a save writes the blocks of R71 and R72 at the start of the group's V segment and leaves the group out of its core; what an area
that holds those blocks gives back is the group as it was (R73); a group that is not saved in time dies with its
team; a group comes back when it has a reason to and its resources are free; an expired slice asks the running tasks to leave.
The base of the save area is free (log 7), and a group comes back only in its virtual interface's turn (log 54). That a save or a
reinstatement whose area is out of reach is fatal with subcode 3 is the model's reading (log 38), and so is which deadline the header holds and
what counts where software changes an area (log 50). -/
def Obligations.Residence : Prop :=
  (∀ s uid, s.tasks.any (fun t => t.uid == uid && t.state == .placed && !t.ended) = true →
    exec (.preemptionRequest uid) s = .next { s with
      groups := s.groups.map (fun g => if g.task = uid ∧ g.residency = .resident ∧ g.preempt = none then { g with preempt := some 0 } else g) }) ∧
  (∀ s gid g t, s.group? gid = some g → s.task? g.task = some t →
    let leaves := fun (i : Instr) (cause live : Nat) => ∀ u, s.saveGroup g t cause live = some u →
      exec i s = .next u ∧ ∃ h, u.group? gid = some h ∧ h.residency = .out cause (min live g.vgran) ∧ h.v = [] ∧ h.s = [] ∧ h.clause = none ∧ h.parks = g.parks ∧
        (g.clean = true → (∃ k ∈ s.groups, k.task = g.task ∧ k.gid ≠ gid ∧ k.here = true) →
          ∃ m, s.putBlocks g t.vi (g.saveBlocks cause (min live g.vgran)) = some m ∧ u.mem = m.mem)
    (g.betweenRepeats = none → g.residency = .resident → g.preempt ≠ none → g.allParked = true →
      exec (.preemptionSave gid) s = .next (s.setGroup { g with preempt := none, residency := .saving 0 s.tick.toNat g.vgran })) ∧
    (g.betweenRepeats = none → s.saveWaits g = false →
      (∀ cause since live, g.residency = .saving cause since live → leaves (.preemptionSave gid) cause live ∧
        (s.saveGroup g t cause live = none → exec (.preemptionSave gid) s = .next (s.fatal g 12 3 false))) ∧
      (∀ since, g.parkedSince = some since → g.residency = .resident → g.allParked = true → (s.viOf t.vi).swap ≠ 0 →
        since + (s.viOf t.vi).swap < s.tick.toNat → leaves (.swapOut gid) 1 g.vgran)) ∧
    (g.residency = .resident → 4096 ≤ g.preempt.getD 0 → exec (.preemptionOverrun gid) s = .next (s.fatal g 12 1 false)) ∧
    (g.preempt.getD 0 < 4096 → exec (.preemptionOverrun gid) s = .next s) ∧
    (∀ since live, g.residency = .saving 0 since live →
      (g.outs ≠ [] → since + 1000000 < s.tick.toNat →
        exec (.preemptionSaveTimeout gid) s = .next (s.fatal g 12 1 false)) ∧
      (g.outs = [] ∨ s.tick.toNat ≤ since + 1000000 → exec (.preemptionSaveTimeout gid) s = .next s)) ∧
    (∀ cause live, g.residency = .out cause live → s.wantsBack g t cause = true → s.blockFits g.core g.block g.width g.vgran = true →
      s.groupFits g.core g.sgran 1 = true → (t.teamIn = true ∨ ∀ c ∈ t.cores, s.teamFits c t.tregs t.accs = true) →
      (∀ u, s.restoreGroup g t live = some u → exec (.reinstatement gid) s = .next u ∧
        (t.teamSaved = false → s.mem.poison = [] → ∃ b, s.readRaw g.core t.vi (g.seg 5).1.toNat (g.offVec + 32 * g.width * live) = some b ∧
          let h := { g.restored live b with poisonV := [], poisonS := [], poisonP := [], poisonX := [] }
          (h.live ≠ 0 → (t.lanesGone h.num (fullMask h.width &&& ~~~h.live)).barriers.any Barrier.complete = false → u.group? gid = some h))) ∧
      (s.restoreGroup g t live = none → exec (.reinstatement gid) s = .next (s.fatal g 12 3 false)))) ∧
  (∀ (g : Group) cause live, g.width ≤ 64 → cause < 2 ^ 32 →
    let bs := g.saveBlocks cause live
    bs.map Prod.fst = [0, 64, g.offPred, g.offIdx, g.offVpc, g.offVec] ∧
    (∀ b : List Byte, (∀ e ∈ bs, ∀ j < e.2.length, b[e.1 + j]? = e.2[j]?) → areaHolds g cause live b)) ∧
  (∀ (s : State) g vi va bs u va0 tr, s.groupPut g vi va bs = (u, true) → s.reach g.core vi .write false va bs.length = .ok [(va0, bs.length, tr)] →
    tr.home = true → pieceOff va va0 = 0 →
    (∀ j < bs.length, u.mem.byte (tr.pa + j) = bs.getD j 0) ∧ ∀ pa, pa < tr.pa ∨ tr.pa + bs.length ≤ pa → u.mem.byte pa = s.mem.byte pa) ∧
  (∀ (g : Group) cause live b, g.width ≤ 64 → areaHolds g cause live b → (∀ p ∈ g.parks, p.lane < g.width ∧ g.exited p.lane = false) →
    cameBack g live (g.restored live b)) ∧
  (∀ s die pair u, 2 ≤ (s.sharers die pair).length → s.turn? die pair = some u → u.since + (s.viOf (s.running die pair)).slice ≤ s.tick.toNat →
    ∃ t, exec (.timeSliceExpiry die pair) s = .next t ∧ t.turn? die pair = some ⟨die, pair, nextShare (s.sharers die pair) (s.running die pair), s.tick.toNat⟩ ∧
      t.mem = s.mem ∧ t.tasks = s.tasks)

/-! ### Events of engines, stashes and arrays -/

/-- O41. Engine commands (R205 to R208, R212): a waiting command starts when there is room; a command that has served everything ends with
its outcome; its completion lowers its counter, or writes its word, which without a release registers nothing (R206, R257), and removes it; a fault without a word leaves a boundary trap of class 7. A CPY
between pages of this package reads a piece and changes no byte; a piece that it has read it leaves at the destination, and every
other byte unchanged. That a piece ends with its source line is the model's choice (log 20). -/
def Obligations.EngineProgress : Prop :=
  (∀ s gid g t c ud, s.group? gid = some g → s.task? g.task = some t → g.hold = .engine c ud →
    (s.engineRoom c g = true → exec (.engineCommandEnqueue gid) s = .next ((s.startCmd c ud t g).modGroup gid Group.advance)) ∧
    (s.engineRoom c g = false → exec (.engineCommandEnqueue gid) s = .next s)) ∧
  (∀ s key c t, s.cmds.find? (fun d => d.key == key) = some c → s.task? c.task = some t → c.ended = false →
    (c.op = .stflush → c.total ≤ c.done) → (c.op ≠ .stflush → c.total ≤ c.fetched ∧ c.parts = [] ∧ c.refusedNow s = c.refused) →
    s.mem.lines.any (fun l => l.writers.contains key) = false →
    exec (.engineLineWritten ⟨key, 16⟩) s = .next { s with
      cmds := s.cmds.map (fun d => if d.key = key then { d with sub := if c.routeFault = true then 7 else if c.refused = 0#16 then 0 else 6, ended := true } else d) }) ∧
  (∀ s key c t, s.cmds.find? (fun d => d.key == key) = some c → s.task? c.task = some t → c.ended = true → c.cmp ≠ 6 → c.rel = none → c.words = [] →
    let counted := fun (g : Group) => if c.cmp < 6 then { g with e := g.e.set c.cmp (if g.e.get c.cmp = 0 then 0 else g.e.get c.cmp - 1) } else g
    (c.sub = 0 → exec (.engineCommandCompletion key) s = .next { s.modGroup c.gid counted with cmds := s.cmds.filter (fun d => d.key != key) } ∧
      exec (.engineFault key) s = .next s) ∧
    (c.sub ≠ 0 → exec (.engineCommandCompletion key) s = .next s ∧
      ∀ g, s.group? c.gid = some g → g.residency ≠ .ended → exec (.engineFault key) s = .next ({ s with
        cmds := s.cmds.filter (fun d => d.key != key) }.modGroup c.gid (fun g => { counted g with
          boundary := g.boundary ++ [(⟨7, c.sub, c.opcode, 0, 0, BitVec.ofNat 64 c.word⟩ : Boundary)] })))) ∧
  (∀ s key c t va tr, s.cmds.find? (fun d => d.key == key) = some c → s.task? c.task = some t → c.ended = true → c.cmp = 6 → c.cwOk = true →
    c.rel = none → c.words = [] → s.reach c.core t.vi .write true (((c.seg 2).1.toNat + c.cwOff) % 2 ^ 64) 8 = .ok [(va, 8, tr)] →
    c.wordWaits s t.vi = false → tr.home = true → pieceOff (((c.seg 2).1.toNat + c.cwOff) % 2 ^ 64) va = 0 →
    ∃ u, exec (if c.sub = 0 then .engineCommandCompletion key else .engineFault key) s = .next u ∧
      (∀ j < 8, u.mem.byte (tr.pa + j) = BitVec.ofNat 8 (c.word / 256 ^ j)) ∧
      (∀ pa, pa < tr.pa ∨ tr.pa + 8 ≤ pa → u.mem.byte pa = s.mem.byte pa) ∧ u.cmds = s.cmds.filter (fun d => d.key != key) ∧
      ∀ pw, (u.mem.reg? pw).map (fun r => r.owner) = (s.mem.reg? pw).map (fun r => r.owner)) ∧
  (∀ s key c t, s.cmds.find? (fun d => d.key == key) = some c → s.task? c.task = some t → c.ended = false → c.op = .cpy →
    c.deliveries = [] → (t.launch.map Launch.race).getD false = false →
    (∀ p a ao va ra, c.piece s = some p → p.srcs = [(a, ao)] → p.dsts = [0] → a.core = none → ao + p.len ≤ a.lim →
      (controlOf c.control.toNat).consume = false → (∀ b, c.target s 0 = some b → b.core = none) →
      s.reach c.core t.vi .read false ((a.base + ao) % 2 ^ 64) p.len = .ok [(va, p.len, ra)] → ra.home = true →
      s.mem.poisonIn ra.pa p.len = none →
      ∃ u d, exec (.engineLineWritten ⟨key, 16⟩) s = .next u ∧ u = { s with cmds := u.cmds } ∧ u.cmds.find? (fun d => d.key == key) = some d ∧
        d.fetched = c.fetched + p.len ∧ d.parts = c.parts ++ [(0, p.at', (List.range p.len).map (fun j => s.mem.byte (ra.pa + j)))] ∧
        d.done = d.parts.foldl (fun n q => min n q.2.1) d.fetched) ∧
    (∀ p bs b vb rb, c.parts.find? (fun q => q.1 == 0) = some (0, p, bs) → c.target s 0 = some b → b.core = none →
      c.ua + p + bs.length ≤ b.lim → s.reach c.core t.vi .write false ((b.base + (c.ua + p)) % 2 ^ 64) bs.length = .ok [(vb, bs.length, rb)] →
      rb.home = true → s.lensWaits c.task rb.pa bs.length = false → pieceOff ((b.base + (c.ua + p)) % 2 ^ 64) vb = 0 →
      ∃ u, exec (.engineLineWritten ⟨key, 0⟩) s = .next u ∧ (∀ j < bs.length, u.mem.byte (rb.pa + j) = bs.getD j 0) ∧
        (∀ pa, pa < rb.pa ∨ rb.pa + bs.length ≤ pa → u.mem.byte pa = s.mem.byte pa) ∧
        (∃ d, u.cmds.find? (fun d => d.key == key) = some d ∧ d.fetched = c.fetched ∧ d.parts = c.parts.erase (0, p, bs) ∧
          d.done = d.parts.foldl (fun n q => min n q.2.1) d.fetched)))

/-- O42. A fill brings the bytes of its global line into the stash and makes the line present (R186, R187); one whose page faults leaves
it mapped and absent, and reaches no group where none waits for it.
Who sees a failed fill is the model's reading in part (log 32). -/
def Obligations.StashFills : Prop :=
  (∀ s core line l va va0 t, s.mem.line? core line = some l → l.filling = true → l.mapped = some va → l.writers = [] →
    s.reach core l.vi .read false va 128 = .ok [(va0, 128, t)] → t.home = true → s.deferred core = [] → s.lensPending core line = false →
    l.core = core → l.line = line →
    ∃ u, exec (.stashFillComplete core line) s = .next u ∧ u.mem.present core line = true ∧
      (∀ j < 128, u.mem.stash.get (stashKey core (128 * line) + j) = s.mem.byte (t.pa + j)) ∧
      (∀ k, k < stashKey core (128 * line) ∨ stashKey core (128 * line) + 128 ≤ k → u.mem.stash.get k = s.mem.stash.get k) ∧
      (∀ c n, c ≠ core ∨ n ≠ line → u.mem.line? c n = s.mem.line? c n) ∧ u.mem.bytes = s.mem.bytes ∧ u.mem.regs = s.mem.regs ∧
      u = { s with mem := u.mem, cmds := s.cmds.map (fun c => { c with cleared := c.cleared.filter (fun e => e != (core, line)) }) }) ∧
  (∀ s core line l va e, s.mem.line? core line = some l → l.filling = true → l.mapped = some va → l.core = core → l.line = line →
    s.reach core l.vi .read false va 128 = .error e → (∀ c, s.deferred c = []) →
    ((∀ k ∈ s.mem.lines, k.writers = []) ∨ ∀ c ∈ s.cmds, c.waitsFor { s with mem := s.mem.setLine { l with filling := false } } core line = false) →
    (∀ g ∈ s.groups, ∀ ls, g.hold = .fill core ls → ∀ e ∈ ls, e.1 ≠ line) →
    ∃ u, exec (.stashFillFault core line) s = .next u ∧ u.groups = s.groups ∧ u.mem.bytes = s.mem.bytes ∧ u.mem.stash = s.mem.stash ∧
      (∃ k, u.mem.line? core line = some k ∧ k.mapped = some va ∧ k.filling = false) ∧
      (l.writers = [] → l.present = false → u.mem.present core line = false))

/-- O43. The matrix arrays (R223 to R231, R297) and the reference tick (R22, R297): a waiting operation asks for its token when there is
room; the oldest request of a die is granted once its credit covers it and its core is not slaved, is accepted, and its group goes on; the Lens captures a line;
an entry takes effect in array order; a tick counts, raises each die's credit,
leaves no write of an agent unperformed that was posted 100 ticks ago, or has waited as long for another owner (R276), and puts off the
saves that a wait of R228 holds up (R309). The sign of an exact zero and the status NAN are the model's choice (log 59). -/
def Obligations.MatrixProgress : Prop :=
  (∀ s gid g e, s.group? gid = some g → g.hold = .array e → e.stage = .room →
    (s.arrayRoom e = true → s.slaved (e.cores.headD 0) = false → exec (.matrixArrayQueueRoom gid) s = .next ({ s with arrays := s.arrays ++ [{ e with stage := .token }] }.modGroup e.gid
      (fun h => { h with hold := .array { e with stage := .token } }))) ∧
    (s.arrayRoom e = false ∨ s.slaved (e.cores.headD 0) = true → exec (.matrixArrayQueueRoom gid) s = .next s)) ∧
  (∀ s die e d, s.nextToken die = some e → s.dies.find? (fun x => x.num == die) = some d →
    (200 * e.cores.length ≤ d.credit → s.slaved (e.cores.headD 0) = false → (∀ r ∈ s.mem.reds, ∀ g, s.group? r.gid = some g → g.task ≠ e.task) →
      (∀ q ∈ s.mem.posted, ∀ g, s.group? q.gid = some g → g.task ≠ e.task) → exec (.matrixStartTokenGrant die) s = .next ({ s with
      dies := s.dies.map (fun (x : Die) => if x.num = die then { x with credit := x.credit - 200 * e.cores.length } else x)
      arrays := s.arrays.filter (fun (x : ArrEntry) => x.key != e.key) ++ [{ e with stage := .accepted, toRead := e.needs }] }.modGroup e.gid Group.advance)) ∧
    (d.credit < 200 * e.cores.length ∨ s.slaved (e.cores.headD 0) = true → exec (.matrixStartTokenGrant die) s = .next s)) ∧
  (∀ s op core line e, s.arrays.find? (fun x => x.key == op) = some e → e.stage = .accepted → e.toRead.contains (core, line) = true →
    s.mem.line? core line = none → s.mem.stashPoisonIn core (128 * line) 128 = none → (∀ c, s.deferred c = []) →
    ∃ u d, exec (.lensLineRead op core line) s = .next u ∧ u.arrays.find? (fun x => x.key == op) = some d ∧
      d.toRead = e.toRead.filter (· != (core, line)) ∧
      (∀ j < 128, d.got.get (stashKey core (128 * line) + j) = s.mem.stash.get (stashKey core (128 * line) + j)) ∧
      d = { e with toRead := d.toRead, got := d.got } ∧ u.mem = { s.mem with stash := u.mem.stash } ∧
      (∀ k, u.mem.stash.get k = s.mem.stash.get k) ∧ u.groups = s.groups ∧ u.tasks = s.tasks) ∧
  (∀ s op e t, s.arrays.find? (fun x => x.key == op) = some e → s.task? e.task = some t → e.stage = .accepted → e.toRead = [] →
    s.firstInOrder e = true →
    let core := e.cores.headD 0
    let sel := t.coreSel core
    ∃ u, exec (.matrixOperationRetire op) s = .next u ∧ u.arrays = s.arrays.filter (fun x => x.key != e.key) ∧ u.mem = s.mem ∧
      (∀ v, u.task? e.task = some v →
        (e.kind = .mma ∨ e.kind = .mmas → e.abort = 0 → e.cores = [core] → ∀ m < 64, ∀ n < 64,
          let old := if e.z = true then 0 else (t.acc.get (accKey sel e.acc m n)).toNat
          v.acc.get (accKey sel e.acc m n) = BitVec.ofNat 40 (e.element core core 0 old m n).1) ∧
        (e.kind = .mzero → ∀ c ∈ e.cores, ∀ m < 64, ∀ n < 64, v.acc.get (accKey (t.coreSel c) e.acc m n) = 0) ∧
        (∀ i32 row col vals, e.kind = .accwr i32 row col vals → (vals.map (fun x => accKey sel e.acc (row + x.1) (col + x.2.1))).Nodup →
          ∀ x ∈ vals, v.acc.get (accKey sel e.acc (row + x.1) (col + x.2.1)) =
            if i32 = true then x.2.2.signExtend 40 else BitVec.ofNat 40 (xf40OfF32 x.2.2.toNat))) ∧
      (∀ clr sd g, e.kind = .mstat clr sd → s.group? e.gid = some g →
        (∃ h, u.group? e.gid = some h ∧ h = { g with outs := h.outs } ∧
          ∀ o ∈ h.outs, (∃ q ∈ g.outs, q.src = .array e.key ∧ o.key = q.key ∧ o.src = .ready ∧
            o.writes = [.s sd (BitVec.ofNat 64 (t.tileStatus sel e.acc))]) ∨ (o ∈ g.outs ∧ o.src ≠ .array e.key)) ∧
        (clr = true → ∀ v, u.task? e.task = some v → v.tstat.get (tileKey sel e.acc) = 0)) ∧
      (∀ form row col n r lanes g, e.kind = .accrd form row col n r lanes → s.group? e.gid = some g →
        (∀ j < n, ∀ l ∈ lanesOf 64 lanes, accKey sel e.acc (row + j) (col + l) ∉ t.accPoison) → ∃ h, u.group? e.gid = some h ∧ h = { g with outs := h.outs } ∧
          ∀ o ∈ h.outs, (∃ q ∈ g.outs, q.src = .array e.key ∧ o.key = q.key ∧ o.src = .ready ∧
            let val := fun (j l : Nat) => (t.acc.get (accKey sel e.acc (row + j) (col + l))).toNat
            o.writes = (List.range n).flatMap (fun j => (lanesOf 64 lanes).flatMap (fun l =>
              if form = 1 then [.v (r + 2 * j) l (BitVec.ofNat 32 (readPair (val j l)).1), .v (r + 2 * j + 1) l (BitVec.ofNat 32 (readPair (val j l)).2.1)]
              else if form = 2 then [.v (r + j) l (BitVec.ofNat 32 (readI32 (val j l)).1)]
              else [.v (r + j) l (BitVec.ofNat 32 (readF32 ((t.launch.map Launch.ftz).getD false) (val j l)).1)])))
            ∨ (o ∈ g.outs ∧ o.src ≠ .array e.key))) ∧
  (∀ s, ∃ u, exec .referenceTick s = .next u ∧ u.tick = s.tick + 1 ∧
    (∀ r ∈ u.mem.reds, u.tick.toNat < r.since + 100) ∧ (∀ q ∈ u.mem.posted, u.tick.toNat < q.since + 100) ∧
    (∀ v ∈ u.mem.revokes, v.req.isSome = true → u.tick.toNat < v.since + 100) ∧
    u.dies.map Die.credit = s.dies.map (fun d => min 400 (d.credit + s.win (0x1004 + 0x100 * d.num))) ∧ ((∀ r ∈ s.mem.reds, u.tick.toNat < r.since + 100) → (∀ q ∈ s.mem.posted, u.tick.toNat < q.since + 100) →
      (∀ v ∈ s.mem.revokes, v.req.isSome = true → u.tick.toNat < v.since + 100) →
      u = { s with tick := u.tick, dies := u.dies, groups := u.groups } ∧ List.Forall₂ (fun h g => h = g ∧ s.matrixWaits g = false ∨ h = g ∧ (∀ c n l, g.residency ≠ .saving c n l) ∨
        ∃ c n l, g.residency = .saving c n l ∧ s.matrixWaits g = true ∧ h = { g with residency := .saving c (n + 1) l }) u.groups s.groups))

/-! ### Tasks, grids and submissions -/

/-- A record that is tried on its own (R291): it waits, it is no member of a gang (R325), and its grid's strings are written and not due to
be written again (R331). -/
def Sys2Proof.triedAlone (s : State) (t : Machine.Task) : Prop :=
  s.task? t.uid = some t ∧ (t.state = .queued ∨ t.state = .held) ∧ (∀ g, s.grid? t.grid = some g → s.rewriteDue g = false) ∧
  (t.team = false ∨ ∀ l, t.launch = some l → l.routed = true → l.service = true ∧ ∀ g, s.grid? t.grid = some g → g.routesWritten = true)

/-- O44. Grids and tasks (R26, R28, R29, R65 to R68, R74, R289, R291, R294, R299, R326, R329, R331): a grid's launch record is checked and its teams are dealt
in ranges of at most 1,024; a range creates its next team task; a routed grid's strings are written when they are due and its clusters
excluded, or it is given up; a round tries each waiting record once, by priority and then by age, teams of a grid among them; it reads a
record's launch record where it has none yet, and
places a record with its registers clear and its lanes at its entry, or counts its denial, the 64th of which reserves its keys or its
core; a gang is placed whole on the first cluster where every position fits, or is denied as one; a task that has nothing left to run ends,
and its groups and keys are gone.
The order of refusals and the wait for region images are the model's readings in part (log 36, 37). -/
def Obligations.TasksAndGrids : Prop :=
  (∀ s id g, s.grid? id = some g → g.dealt = false → g.ended = false →
    (∀ l rs tab, s.readLaunch g.vi g.launchPtr.toNat = some l → s.dealtRanges g.vi l = some (rs, tab) →
      ∃ u, exec (.gridRangeDeal id) s = .next u ∧
        (∃ k, u.grid? id = some k ∧ k = { g with launch := some l, dealt := true, ranges := rs, relocs := tab, privileged := g.privileged && l.service }) ∧
        (l.service = false → (∀ j r, rs[j]? = some r → r.start = 1024 * j ∧ r.count = min 1024 (l.teams - 1024 * j) ∧ r.next = r.start) ∧
          rs.length = (l.teams + 1023) / 1024)) ∧
    ((s.readLaunch g.vi g.launchPtr.toNat).bind (s.dealtRanges g.vi) = none →
      ∃ u k, exec (.gridRangeDeal id) s = .next u ∧ u.grid? id = some k ∧ 6 ≤ k.status ∧ k.dealt = true)) ∧
  (∀ s id j g r l, s.grid? id = some g → g.ranges[j]? = some r → g.launch = some l → g.mayExpand j = true →
    ∃ u k, exec (.gridRangeExpansion id j) s = .next u ∧ u.tasks = s.tasks ++ [k] ∧ k.uid = s.nextId ∧ k.grid = id ∧ k.team = true ∧
      k.linear = r.next ∧ k.state = .queued ∧ k.launch = some l ∧ k.cont.code = l.entry ∧ k.cont.launch = g.launchPtr ∧
      k.cont.x = r.next % l.gx ∧ k.cont.y = r.next / l.gx % l.gy ∧ k.cont.z = r.next / (l.gx * l.gy) ∧
      k.cont.frame = l.arena + BitVec.ofNat 64 (r.next * l.frameSize) ∧
      (∃ h, u.grid? id = some h ∧ h = { g with ranges := g.ranges.set j { r with next := r.next + 1, stage := 1 } })) ∧
  (∀ s id g l, s.grid? id = some g → g.launch = some l → g.ended = false → s.gridQuiet id = true → l.routed = true →
    (g.routesWritten = false ∨ g.reroute = true → ∃ u k, exec (.routeRewrite id) s = .next u ∧ u.grid? id = some k ∧
      k.routesWritten = true ∧ k.reroute = false ∧
      (∀ strs out, s.routes g.vi l g.relocs = some (strs, out) → k.excluded = out ∧ k.status = g.status) ∧
      (s.routes g.vi l g.relocs = none → k.excluded = g.excluded ∧ 6 ≤ k.status ∧ k.ranges.all (fun r => !r.open) = true)) ∧
    (g.routesWritten = true → g.reroute = false → exec (.routeRewrite id) s = .next s)) ∧
  (∀ (s : State) die, let w := s.waiting die
    w.Perm (s.tasks.filter (fun t => (t.die == die || t.die == 5) && (t.state == .queued || t.state == .held))) ∧
    w.Pairwise (fun a b => b.cont.priority < a.cont.priority ∨ b.cont.priority = a.cont.priority ∧
      (a.seqNo < b.seqNo ∨ a.seqNo = b.seqNo ∧ a.linear ≤ b.linear)) ∧
    exec (.dispatchRound die) s = .next (if s.fenced die = true then s else w.foldl (fun u t => u.tryTask t.uid) s)) ∧
  (∀ s t, triedAlone s t →
    let u := s.tryTask t.uid
    let l0 := match t.launch with | some l => some l | none => s.readLaunch t.vi t.cont.launch.toNat
    let t0 := { t with launch := l0 }
    let s0 := s.modTask t.uid (fun k => { k with launch := l0 })
    (∀ st, s0.refusal t0 l0 = some st → u.task? t.uid = some { t0 with state := .refused, late := st } ∧ u.groups = s.groups ∧ u.mem = s.mem) ∧
    (∀ l, l0 = some l → s0.refusal t0 l0 = none →
      (t.keys.all (s0.keyOk t0) = false → u.task? t.uid = some { t0 with state := .held, rounds := t.rounds + 1 } ∧ u.groups = s.groups ∧
        (64 ≤ t.rounds + 1 → ∀ k ∈ t.keys, ∀ home, s0.keyHome t.vi k = some home →
          ∃ e ∈ u.keys, e.vi = t.vi ∧ e.die = home.1 ∧ e.index = home.2 ∧ e.key = k ∧ (t.uid, k) ∈ e.reserved)) ∧
      (t.keys.all (s0.keyOk t0) = true →
        (s0.findPlace t0 = none ∨ s0.imageWaits t.vi l = true → u.task? t.uid = some { t0 with state := .queued, footRounds := t.footRounds + 1 } ∧
          u.groups = s.groups ∧ (t.footRounds + 1 < 64 → u.reservedCores = s.reservedCores) ∧
          (s0.findPlace t0 = none → 64 ≤ t.footRounds + 1 → (∀ r ∈ s.reservedCores, r.1 ≠ t.uid) →
            u.reservedCores = s.reservedCores ++ (s0.reserveUnit t0).map (fun c => (t.uid, c)))) ∧
        (∀ units, s0.findPlace t0 = some units → s0.imageWaits t.vi l = false → ∃ k, u.task? t.uid = some k ∧ k.state = .placed ∧
          k.launch = some l ∧ k.cores = units.map (fun e => e.1) ∧ (k.privileged = true → t.service = true) ∧
          (∀ g ∈ u.groups.drop s.groups.length, g.task = t.uid ∧ g.residency = .resident ∧ g.v = [] ∧ g.s = [] ∧ g.p = [] ∧ g.x = [] ∧ g.e = [] ∧
            g.fsr = 0 ∧ g.gsrH = false ∧ g.clause = none ∧ ∀ lane < g.width, g.vpc.get lane = BitVec.ofNat 32 t.cont.code) ∧
          (u.groups.drop s.groups.length).map Group.core = units.flatMap (fun e => e.2.1.map (fun _ => e.1)))))) ∧
  (∀ (s : State) (t : Machine.Task) (g : Grid) l, s.task? t.uid = some t → t.state = .queued ∨ t.state = .held → s.grid? t.grid = some g → t.launch = some l → t.team = true →
    l.routed = true → l.service = false →
    let u := s.tryTask t.uid
    let m := gangSize l.paired
    let gang := t.linear / m
    let mem := s.gangOf t.grid gang m
    let allowed := fun (cl : Nat) => !g.excluded.contains (t.die * 12 + cl) && (s.clustersOf t.vi l t.die).contains cl
    let cls := ((List.range 12).map (fun i => (gang % 12 + i) % 12)).filter allowed
    let fits := fun (cl : Nat) => mem.mapM (fun k => (s.fitUnit { k with linear := t.linear } (gangCores t.die cl l.paired (k.linear % m))).map (fun e => (k, e)))
    mem.Pairwise (fun a b => a.linear ≤ b.linear) ∧
    mem.Perm (s.tasks.filter (fun k => k.grid == t.grid && k.team && k.linear / m == gang && (k.state == .queued || k.state == .held))) ∧
    (s.rewriteDue g = true ∨ g.routesWritten = false ∨ (∀ k, mem.head? = some k → k.uid ≠ t.uid) ∨ mem.length ≠ min m (l.teams - m * gang) → u = s) ∧
    (s.rewriteDue g = false → g.routesWritten = true → mem.head? = some t → mem.length = min m (l.teams - m * gang) → (mem.map Task.uid).Nodup →
      (∀ k ∈ mem, s.task? k.uid = some k) →
      (∀ pre cl post es, cls = pre ++ cl :: post → (∀ c ∈ pre, fits c = none) → fits cl = some es → s.imageWaits t.vi l = false →
        ∀ k ∈ mem, ∃ h, u.task? k.uid = some h ∧ h.state = .placed ∧ h.cores = gangCores t.die cl l.paired (k.linear % m) ∧ h.launch = some l) ∧
      (s.imageWaits t.vi l = true ∨ (∀ c ∈ cls, fits c = none) → u.task? t.uid = some { t with state := .queued, footRounds := t.footRounds + 1 } ∧
        (∀ k ∈ mem, k.uid ≠ t.uid → u.task? k.uid = some k) ∧ u.groups = s.groups ∧
        (64 ≤ t.footRounds + 1 → (∀ r ∈ s.reservedCores, r.1 ≠ t.uid) → ∀ cl post, cls = cl :: post →
          u.reservedCores = s.reservedCores ++ (List.range 8).map (fun c => (t.uid, clusterCore t.die cl (c % 4, c / 4))))))) ∧
  (∀ s uid t, s.task? uid = some t → t.ended = false → t.endSteps = 0 →
    (t.state = .placed → s.taskDone t = true → ∃ u, exec (.taskEnd uid) s = .next u ∧ (∀ g ∈ u.groups, g.task ≠ uid) ∧
      (∀ e ∈ u.keys, e.holder ≠ some uid) ∧ ∀ k, u.task? uid = some k → k.state = (if t.killing = true then .killed else .done)) ∧
    (t.state = .placed → s.taskDone t = false → exec (.taskEnd uid) s = .next s) ∧
    (t.state = .queued ∨ t.state = .held → exec (.taskEnd uid) s = .next s))

/-- O45. Keys and places (R292 to R296): a key's home is its hash's; a key is granted where nothing of its entry is held and no older
record reserves it, and not where another key's reservation stands alone; a task that takes its keys holds each at its home and reserves
none. The hash of a record's tile coordinates gives its die and its preferred core; cores and pairs are searched by the steps of R295,
the nearest first; the first one that fits is taken, its cores in the partition, in turn and kept for no older record, its lane blocks and
its stash range free; a service team takes the lowest-numbered core with slots enough (R296); an aged record reserves the first that
could hold it (R294). What a key past the table's last entry meets, and one taken before SETVI moved the homes, is the model's choice (log 64). -/
def Obligations.Placement : Prop :=
  (∀ (s : State) vi k, (s.viOf vi).keyShare ≠ 0 → s.liveDies ≠ [] →
    let h := k * 0x9E3779B1 % 2 ^ 32
    let e := (s.viOf vi).keyBase + h % 2 ^ 30 % (s.viOf vi).keyShare
    s.keyHome vi k = if e < 4096 then s.liveDies[h / 2 ^ 30 % s.liveDies.length]?.map (fun d => (d, e)) else none) ∧
  (∀ (s : State) (t : Machine.Task) k home, s.keyHome t.vi k = some home →
    let there := fun (e : KeyEntry) => e ∈ s.keys ∧ e.die = home.1 ∧ e.index = home.2
    let asks := fun (u : Machine.Task) (j : Nat) => ∃ e r, there e ∧ r ∈ e.reserved ∧ s.task? r.1 = some u ∧ r.2 = j
    ((∃ e, there e ∧ e.holder ≠ none) → s.keyOk t k = false) ∧
    (s.task? t.uid = some t → (∃ u j, asks u j ∧ u.older t = true) → s.keyOk t k = false) ∧
    ((∃ u j, asks u j) → (∀ u j, asks u j → j ≠ k ∧ u.uid ≠ t.uid) → s.keyOk t k = false) ∧
    ((∀ e, there e → e.holder = none) → (∀ u j, asks u j → u.uid = t.uid ∨ t.older u = true ∧ u.vi = t.vi ∧ j = k) → s.keyOk t k = true)) ∧
  (∀ (s : State) (t : Machine.Task), (∀ k ∈ t.keys, ∀ home, s.keyHome t.vi k = some home →
      ∃ e ∈ (s.takeKeys t).keys, e.vi = t.vi ∧ (e.die, e.index) = home ∧ e.key = k ∧ e.holder = some t.uid) ∧
    ∀ e ∈ (s.takeKeys t).keys, ∀ r ∈ e.reserved, r.1 ≠ t.uid) ∧
  (∀ (s : State) vi (c : ContRec),
    let h := (c.x * 0x9E3779B1 + c.y * 0x85EBCA77 + c.z * 0xC2B2AE3D) % 2 ^ 32
    let d := h % 768 / 192
    let ok := s.eligible vi (c.shape.getLsbD 8)
    c.preferred = h % 192 / 2 ∧ (d ∈ ok → s.dieOfRecord vi c false = d) ∧ (ok = [] → s.dieOfRecord vi c false = 5) ∧
    ∀ j < 4, d ∉ ok → (d + j) % 4 ∈ ok → (∀ i < j, (d + i) % 4 ∉ ok) → s.dieOfRecord vi c false = (d + j) % 4) ∧
  (∀ die pref (paired : Bool), pref < 96 →
    let units : List (List Nat) := if paired = true then (List.range 48).map (fun p => [2 * p, 2 * p + 1]) else (List.range 96).map (fun c => [c])
    let dist := fun (c : Nat) => ((c % 12 : Nat) - (pref % 12 : Nat) : Int).natAbs + ((c / 12 : Nat) - (pref / 12 : Nat) : Int).natAbs
    let near := fun (u : List Nat) => u.foldl (fun n c => min n (dist c)) 1000
    let mates := fun (u : List Nat) => clusterOf (u.headD 0) = clusterOf pref
    ∃ L : List (List Nat), L.Perm units ∧ searchOrder die pref paired = L.map (fun u => u.map (fun c => die * 96 + c)) ∧
      L.Pairwise (fun a b => pref ∈ a ∨ pref ∉ b ∧ (mates a ∧ ¬mates b ∨
        (mates a ↔ mates b) ∧ (near a < near b ∨ near a = near b ∧ a.headD 0 ≤ b.headD 0)))) ∧
  (∀ (s : State) (t : Machine.Task), t.service = false →
    let order := searchOrder t.die t.cont.preferred (t.cont.shape.getLsbD 8)
    (∀ es, s.findPlace t = some es ↔ ∃ pre u post, order = pre ++ u :: post ∧ (∀ w ∈ pre, s.fitUnit t w = none) ∧ s.fitUnit t u = some es) ∧
    (t.need.holdable = true → ∀ pre u post, order = pre ++ u :: post → (∀ w ∈ pre, w.all (s.coreOk t.vi) = false) → u.all (s.coreOk t.vi) = true →
      s.reserveUnit t = u) ∧
    (t.need.holdable = false ∨ (∀ w ∈ order, w.all (s.coreOk t.vi) = false) → s.reserveUnit t = [])) ∧
  (∀ (s : State) (t : Machine.Task) u es, s.fitUnit t u = some es →
    let n := t.need
    es.map (fun e => e.1) = u ∧ ∀ e ∈ es, s.coreOk t.vi e.1 = true ∧ s.inTurn t.vi e.1 = true ∧
      (∀ r ∈ s.reservedCores, r.2 = e.1 → r.1 ≠ t.uid → ∀ k, s.task? r.1 = some k → k.older t = false) ∧
      s.groupFits e.1 n.sgran n.groups = true ∧ s.teamFits e.1 n.tregs n.accs = true ∧ e.2.1.length = n.groups ∧
      (∀ b ∈ e.2.1, b % n.width = 0 ∧ b + n.width ≤ 64 ∧ ∀ i < n.width, s.posUse e.1 (b + i) + 8 * n.vgran * e.2.1.count b ≤ 1024) ∧
      (n.stash ≠ 0 → e.2.2 + n.stash ≤ Config.stashBytes ∧
        ∀ r ∈ s.stashUse e.1, r.2 ≠ 0 → e.2.2 + n.stash ≤ r.1 ∨ r.1 + r.2 ≤ e.2.2)) ∧
  (∀ (s : State) (t : Machine.Task), t.service = true →
    let n := t.need.groups
    let order := s.partitionCores (s.viOf t.vi).partition
    s.reserveUnit t = order.take 1 ∧
    ∀ c bs, s.findPlace t = some [(c, bs, 0)] ↔ ∃ pre post, order = pre ++ c :: post ∧ (∀ w ∈ pre, (s.freeSlots w).length < n ∨ s.coreKept t w = true) ∧
      n ≤ (s.freeSlots c).length ∧ s.coreKept t c = false ∧ bs = (s.freeSlots c).take n)

/-- O46. Submissions and completion records (R279 to R288): a write to no page, or to one that takes none, is aborted, one of another length is dropped and counted; a submission is answered Accept
when its record is made durable, refused or malformed, the latter two with an immediate record if one is wanted, and waits while it
cannot be made durable; it is tried again, and after 200 ticks answered Retry, which enqueues nothing; one made while the scheduling
processor's firmware restarts is answered Retry at once (R321); a completion record is written to the page's next slot when it is free.
The bytes of queue segments and the length check are the model's readings (log 21, 47). -/
def Obligations.Submissions : Prop :=
  (∀ s vi page, exec (.submitPageWriteDrop vi page) s = .next { s with
    pages := s.pages.map (fun p => if p.vi = vi ∧ p.page = page then { p with drops := min (2 ^ 64 - 1) (p.drops + 1) } else p) }) ∧
  (∀ s vi page r, (s.page? vi page = none → exec (.hostSubmission vi page r) s = .next { s with host := { s.host with answers := s.host.answers ++ [.abort] } }) ∧
    (∀ p, s.page? vi page = some p →
      (p.enabled = false → exec (.hostSubmission vi page r) s = .next { s with
        pages := s.pages.map (fun p => if p.vi = vi ∧ p.page = page then { p with drops := min (2 ^ 64 - 1) (p.drops + 1) } else p)
        host := { s.host with answers := s.host.answers ++ [.abort] } }) ∧
      (p.enabled = true → (s.viOf vi).enabled = true → s.host.stage = 3 → List.length r ≠ 128 →
        exec (.hostSubmission vi page r) s = exec (.submitPageWriteDrop vi page) s))) ∧
  (∀ s vi page r p, List.length r = 128 → s.page? vi page = some p →
    let tag := BitVec.ofNat 64 (field r 8 8)
    let answers := fun (u : State) (a : List Answer) => ({ u with host := { u.host with answers := u.host.answers ++ a } } : State)
    (p.enabled = true → (s.viOf vi).enabled = false ∨ s.host.stage ≠ 3 → exec (.hostSubmission vi page r) s = .next (answers s [.abort])) ∧
    (p.enabled = true → (s.viOf vi).enabled = true → s.host.stage = 3 →
      (∀ u, s.submit p r = .accepted u → u.host.power ≠ .idle → exec (.hostSubmission vi page r) s = .next (answers u [.accept tag]) ∧
        (field r 4 1 % 2 = 0 → ∃ g, u.grids = s.grids ++ [g] ∧ g.vi = p.vi ∧ g.page = p.page ∧ g.tag = tag ∧ g.dealt = false ∧
          g.launchPtr = BitVec.ofNat 64 (field r 16 8) ∧ g.wanted = decide (field r 5 1 % 2 = 1))) ∧
      (∀ status, (s.submit p r = .refused ∧ status = 6) ∨ (s.submit p r = .malformed ∧ status = 3) →
        ∃ ds, exec (.hostSubmission vi page r) s = .next { answers s [.accept tag] with dues := s.dues ++ ds } ∧
          (field r 5 1 % 2 = 0 → ds = []) ∧ (field r 5 1 % 2 = 1 → ∃ d, ds = [d] ∧ d.vi = p.vi ∧ d.page = p.page ∧ d.tag = tag ∧ d.status = status)) ∧
      (s.host.restarting = true → exec (.hostSubmission vi page r) s = .next (answers s [.retry])) ∧
      (s.submit p r = .retry → s.host.restarting = false → exec (.hostSubmission vi page r) s =
        .next { s with host := { s.host with waiting := s.host.waiting ++ [⟨vi, page, r, s.tick.toNat⟩] } })) ∧
    (takeSub vi page r s.host.waiting = none → exec (.hostSubmissionRetry vi page r) s = .next s) ∧
    (∀ h rest, takeSub vi page r s.host.waiting = some (h, rest) → p.enabled = true → (s.viOf vi).enabled = true →
      let w := ({ s with host := { s.host with waiting := rest } } : State)
      (∀ u, w.submit p r = .accepted u → u.host.power ≠ .idle → exec (.hostSubmissionRetry vi page r) s = .next (answers u [.accept tag])) ∧
      (w.submit p r = .retry → exec (.hostSubmissionRetry vi page r) s = .next (if h.since + 200 ≤ s.tick.toNat then answers w [.retry] else s)))) ∧
  (∀ s gid g since, s.group? gid = some g → g.hold = .submit since →
    (since + 200 ≤ s.tick.toNat → ∃ u, exec (.groupSubmissionRetry gid) s = .next u ∧ u.onlyGroup s { g with hold := .answer }) ∧
    (s.tick.toNat < since + 200 → exec (.groupSubmissionRetry gid) s = .next s)) ∧
  (∀ s vi page d p va tr, s.dues.find? (fun d => d.vi == vi && d.page == page) = some d → s.page? vi page = some p →
    (s.slotFree p = false → exec (.completionRecordWrite vi page) s = .next s) ∧
    (s.slotFree p = true → s.ranged schedulingCore vi .write false p.slotAddr 32 = .ok [(va, 32, tr)] → tr.home = true → pieceOff p.slotAddr va = 0 →
      ∃ u : State, exec (.completionRecordWrite vi page) s = .next (u.afterRecord d) ∧
        (∀ j < 32, u.mem.byte (tr.pa + j) = d.bytes.getD j 0) ∧ (∀ pa, pa < tr.pa ∨ tr.pa + 32 ≤ pa → u.mem.byte pa = s.mem.byte pa) ∧
        u.dues = dropDue vi page s.dues ∧ u.host.interrupts = s.host.interrupts ++ d.interruptOf (s.viOf vi).uintBase ∧
        (∀ q, u.page? vi page = some q → q = { p with next := (p.next + 1) % 2 ^ p.slots })))

/-! ### Events of the memory system -/

/-- O47. The registry (R254 to R258, R277, R278): a write is registered to its agent and leaves its masked bytes, another owner being revoked
first; the end of a registration changes no byte, but that a word whose home is out of reach loses what its owner held (R274); a forward changes
nothing but the reader's copy, and an older copy of the word's other half of 8 bytes goes (R267). A request and an answer whose path is
dead do not arrive (R19; log 70).
What the messages stand for, and that such a copy goes, is the model's reading (log 35). -/
def Obligations.Registry : Prop :=
  (∀ s ag pa mask val, s.wordOk (wordOf pa) = true → s.revoke? (wordOf pa) = none →
    (s.path (agentDie ag) (homeDie (wordOf pa)) = false → exec (.registrationRequest ag pa mask val) s = .next s) ∧
    (s.path (agentDie ag) (homeDie (wordOf pa)) = true → (∀ r, s.mem.reg? (wordOf pa) = some r → r.owner = ag) → ∃ u, exec (.registrationRequest ag pa mask val) s = .next u ∧
      (∃ r, u.mem.reg? (wordOf pa) = some r ∧ r.owner = ag ∧ r.released = none) ∧
      (∀ j < 4, u.mem.byte (wordOf pa + j) = if mask.getLsbD j = true then byteOf val j else s.mem.byte (wordOf pa + j)) ∧
      (∀ a, wordOf a ≠ wordOf pa → u.mem.byte a = s.mem.byte a) ∧ u.besideMemory s) ∧
    (∀ r, s.mem.reg? (wordOf pa) = some r → r.owner ≠ ag → s.path (agentDie ag) (homeDie (wordOf pa)) = true → exec (.registrationRequest ag pa mask val) s =
      .next { s with mem := { s.mem with revokes := s.mem.revokes ++ [⟨wordOf pa, r.owner, s.tick.toNat, some (ag, mask, val)⟩] } }) ∧
    (∀ r, s.mem.reg? (wordOf pa) = some r → exec (.revocation pa) s =
      .next { s with mem := { s.mem with revokes := s.mem.revokes ++ [⟨wordOf pa, r.owner, s.tick.toNat, none⟩] } })) ∧
  (∀ s pa v, s.revoke? (wordOf pa) = some v → s.path (agentDie v.owner) (homeDie (wordOf pa)) = false →
    exec (.writtenBack pa) s = .next s ∧ exec (.notHeld pa) s = .next s) ∧
  (∀ s pa v, s.revoke? (wordOf pa) = some v → v.req = none → s.path (agentDie v.owner) (homeDie (wordOf pa)) = true →
    (s.stillHeld v = true → ∃ u, exec (.writtenBack pa) s = .next u ∧ u.mem.reg? (wordOf pa) = none ∧
      (∀ a, u.mem.byte a = if s.homeLost (wordOf pa) = true ∧ wordOf a = wordOf pa then s.mem.bytes.get a else s.mem.byte a) ∧
      u.mem.revokes = s.mem.revokes.filter (fun r => r.pa != wordOf pa) ∧ u = { s with mem := u.mem } ∧ exec (.notHeld pa) s = .next s) ∧
    (s.stillHeld v = false → exec (.notHeld pa) s = .next { s with mem := { s.mem with
      revokes := s.mem.revokes.filter (fun r => r.pa != wordOf pa) } } ∧ exec (.writtenBack pa) s = .next s)) ∧
  (∀ s pa v ag mask val, s.revoke? (wordOf pa) = some v → v.req = some (ag, mask, val) → s.path (agentDie v.owner) (homeDie (wordOf pa)) = true →
    exec (if s.stillHeld v = true then .writtenBack pa else .notHeld pa) s = (match s.stillHeld v with
      | true => .next (State.storeWord { s with mem := { (if s.homeLost (wordOf pa) = true
            then { s.mem with regs := s.mem.regs.filter (fun r => r.pa != wordOf pa) } else s.mem.writeBack (wordOf pa)) with
          revokes := s.mem.revokes.filter (fun r => r.pa != wordOf pa) } } (some (agentWriter ag)) ag (wordOf pa) mask val)
      | false => .next (State.storeWord { s with mem := { s.mem with revokes := s.mem.revokes.filter (fun r => r.pa != wordOf pa) } } (some (agentWriter ag)) ag
          (wordOf pa) mask val))) ∧
  (∀ s ag pa r c, s.mem.reg? (wordOf pa) = some r → agentCore ag = some c → r.owner ≠ ag → s.path (agentDie ag) (homeDie (wordOf pa)) = true →
    s.path (agentDie r.owner) (homeDie (wordOf pa)) = true → s.path (agentDie r.owner) (agentDie ag) = true → ∃ cs, exec (.forward ag pa) s =
      .next { s with mem := { s.mem with copies := cs } } ∧
    (let new := s.mem.copies.map (fun x => if x.core = c ∧ x.pa = wordOf pa then { x with value := s.mem.word (wordOf pa) } else x)
     let sib := if wordOf pa % 8 < 4 then wordOf pa + 4 else wordOf pa - 4
     ((∃ x ∈ new, x.core = c ∧ x.pa = wordOf pa) → (∀ y ∈ new, y.core = c → y.pa = sib → y.value ≠ s.mem.word sib) →
       cs = new.filter (fun y => !(y.core == c && y.pa == sib))) ∧
     ((∀ x ∈ new, x.core = c → x.pa ≠ wordOf pa) ∨ (∀ y ∈ new, y.core = c → y.pa = sib → y.value = s.mem.word sib) → cs = new))) ∧
  (∀ s pa, s.ownerPath (wordOf pa) = false → s.homeLost (wordOf pa) = false → exec (.writeBack pa) s = .next s) ∧
  (∀ s pa, s.ownerPath (wordOf pa) = true ∨ s.homeLost (wordOf pa) = true → ∃ m, exec (.writeBack pa) s = .next { s with mem := m } ∧ m.reg? (wordOf pa) = none ∧
    (∀ a, m.byte a = if s.homeLost (wordOf pa) = true ∧ wordOf a = wordOf pa then s.mem.bytes.get a else s.mem.byte a) ∧
    m = { s.mem with bytes := m.bytes, regs := m.regs }) ∧
  (∀ s ag pa, Memory.wf s.mem = true → ∃ m, exec (.lineEviction ag pa) s = .next { s with mem := m } ∧
    ((∀ r ∈ s.mem.regs, s.homeLost r.pa = false) → ∀ a, m.byte a = s.mem.byte a) ∧
    ((∀ r ∈ s.mem.regs, s.ownerPath r.pa = true) → ∀ r ∈ m.regs, ¬(r.owner = ag ∧ alignDown r.pa 128 = alignDown pa 128)) ∧ m = { s.mem with bytes := m.bytes, regs := m.regs, copies := m.copies }) ∧
  (∀ s pa, Memory.wf s.mem = true → ∃ m, exec (.registrationSpill pa) s = .next { s with mem := m } ∧
    m = { s.mem with bytes := m.bytes, regs := m.regs } ∧ (∀ r ∈ m.regs, alignDown r.pa 128 = alignDown pa 128 → r.spilled = true) ∧
    ((s.mem.regs.map Reg.pa).Nodup → ∀ a, m.byte a = s.mem.byte a))

/-- O48. Posted writes, walks, owners and moves (R183, R195, R257, R272 to R274, R312, R315, R316): a RED that is performed leaves its value and
no other byte changed, after the earlier REDs of its group there; a refused remote store is counted; a replica takes its bytes in order, those of one source
in the order of its stores (R19), or, over a dead path, is lost and the store counted once (R19, R274); a walk's translation is kept in its die's TLB, which holds 16,384; a page that moves has its bytes at its new frame, and no registration or translation of it is left; a frame's
owner changes after its translations are gone, and a new owner finds no registration, copy, mapped line or posted write of the old one's on it (R5).
Memory of other chips and the moment of a home move are the model's (log 9, 40), and so is that a new owner of a frame finds its bytes as they
were (log 69) and that no answer comes over a dead path before its die is fenced (log 70). -/
def Obligations.PostedWrites : Prop :=
  (∀ s k r, s.mem.reds.find? (fun q => q.key == k) = some r →
    (s.mem.reds.any (fun q => q.key < k && q.gid == r.gid && overlap q.pa q.op.bytes r.pa r.op.bytes) = true →
      exec (.redPerform k) s = .next s) ∧
    (s.mem.reds.any (fun q => q.key < k && q.gid == r.gid && overlap q.pa q.op.bytes r.pa r.op.bytes) = false → s.outOfReach (agentDie r.agent) r.pa r.op.bytes = false →
      r.pa % r.op.bytes = 0 →
      (r.op.bytes = 4 → r.opnd.toNat < 2 ^ 32) →
      ∃ u, exec (.redPerform k) s = .next u ∧ u.mem.reds = s.mem.reds.filter (fun q => q.key != k) ∧
        ∀ a, u.mem.byte a = atomStep r.op s.mem.byte r.pa r.opnd 0 a)) ∧
  (∀ s k p g, s.mem.posted.find? (fun q => q.key == k) = some p → s.group? p.gid = some g →
    ∃ u h, exec (.remoteStoreRefusal k) s = .next u ∧ u.onlyGroup { s with mem := { s.mem with posted := s.mem.posted.filter (fun q => q.key != k) } } h ∧
      h = { g with delOther := h.delOther } ∧ h.delOther.refused = g.delOther.refused + 1 ∧ h.delOther.lost = g.delOther.lost ∧
      (g.delOther.lost + g.delOther.refused = 0 → h.delOther.page = alignDown p.va 8192)) ∧
  (∀ s k r, s.mem.repls.find? (fun q => q.key == k) = some r →
    let before := s.mem.repls.any (fun q => q.key < k && ((agentCore q.agent == agentCore r.agent && q.pa / 2 ^ 37 == r.pa / 2 ^ 37)
      || overlap q.pa q.bytes.length r.pa r.bytes.length))
    (before = true → exec (.replReplicaUpdate k) s = .next s) ∧
    (before = false → s.path (agentDie r.agent) (homeDie r.pa) = false → ∃ u, exec (.replReplicaUpdate k) s = .next u ∧
      u.mem.repls.map (fun q => q.key) = (s.mem.repls.map (fun q => q.key)).filter (· != k) ∧ u.mem.bytes = s.mem.bytes ∧
      ∀ g, s.group? r.gid = some g → ∃ h, u.group? r.gid = some h ∧ h = { g with delPkg := h.delPkg } ∧
        h.delPkg.lost = g.delPkg.lost + (if s.mem.repls.any (fun q => q.store == r.store && q.counted) = true then 0 else 1)) ∧
    (before = false → s.path (agentDie r.agent) (homeDie r.pa) = true →
      ∃ u, exec (.replReplicaUpdate k) s = .next u ∧ u.mem.repls = s.mem.repls.filter (fun q => q.key != k) ∧
        (∀ j (h : j < r.bytes.length), u.mem.bytes.get (r.pa + j) = r.bytes[j]) ∧
        (∀ a, a < r.pa ∨ r.pa + r.bytes.length ≤ a → u.mem.bytes.get a = s.mem.bytes.get a))) ∧
  (∀ s die vi va acc t, die ≤ 4 → chipOf (BitVec.toNat (va : DWord)) = s.fabric.chip.toNat → walk s vi va.toNat = .ok t →
    t.perms &&& accNeeds acc = accNeeds acc → ∃ l, exec (.tableWalk ⟨die, vi⟩ va acc) s = .next { s with mem := { s.mem with tlb := l } } ∧
      let e : Tlb := ⟨none, die, vi, alignDown va.toNat t.size, t.size, t.pa - va.toNat % t.size, t.perms, t.repl⟩
      let shared := fun (l : List Tlb) => (l.filter (fun x => x.core == none && x.die == die)).length
      e ∈ l ∧ (∀ x ∈ l, x ∈ s.mem.tlb ∨ x = e) ∧ (shared s.mem.tlb ≤ 16384 → shared l ≤ 16384)) ∧
  (∀ s die vi va acc e, walk s vi (BitVec.toNat (va : DWord)) = .error e → exec (.tableWalk ⟨die, vi⟩ va acc) s = .next s) ∧
  (∀ s vi va die frame t e n, walk s vi (BitVec.toNat (va : DWord)) = .ok t → leafFrom s va.toNat walkLevels (s.viOf vi).ptroot = some (e, n) →
    let new := die * 2 ^ 37 + 8192 * frame
    let old := alignDown t.pa n
    t.repl = false → chipOf va.toNat = s.fabric.chip.toNat → die < 4 → new % n = 0 → paOk new = true → paOk (new + n - 1) = true →
    s.fenced die = false → s.fenced (old / 2 ^ 37) = false → s.ownsNew vi new n false = true → old ≠ new →
    s.path (old / 2 ^ 37) die = true → s.cutOwner old n = false → s.cutOwner new n = false →
    s.cmds.any (fun c => (s.task? c.task).any (fun k => k.vi == vi)) = false → Memory.wf s.mem = true → s.mem.reds = [] →
    ∃ u, exec (.homeMove vi va die frame) s = .next u ∧
      (∀ j < n, (new + j < moved old new n e ∨ moved old new n e + 8 ≤ new + j) → u.mem.byte (new + j) = s.mem.byte (old + j)) ∧
      (∀ r ∈ u.mem.regs, ¬(old ≤ r.pa ∧ r.pa < old + n)) ∧ (∀ x ∈ u.mem.tlb, ¬(x.vi = vi ∧ x.base ≤ va.toNat ∧ va.toNat < x.base + x.size))) ∧
  (∀ s die frame owner, die < 4 → 8192 * frame < Config.dieBytes → s.booted = true → ∃ u, exec (.frameOwnerChange die frame owner) s = .next u ∧
    u.ownerOf (die * 2 ^ 37 + 8192 * frame) = (match owner with | some n => BitVec.toNat n + 1 | none => 0) ∧
    (∀ e ∈ u.mem.tlb, overlap e.pa e.size (die * 2 ^ 37 + 8192 * frame) 8192 = false) ∧
    (let pa := die * 2 ^ 37 + 8192 * frame
     let on := fun (a : Nat) => pa ≤ a ∧ a < pa + 8192
     (s.ownerOf pa = u.ownerOf pa → u = { s with mem := { s.mem with tlb := u.mem.tlb, owners := u.mem.owners } }) ∧
     (s.ownerOf pa ≠ u.ownerOf pa →
       (∀ r ∈ u.mem.regs, ¬on r.pa) ∧ (∀ c ∈ u.mem.copies, ¬on c.pa) ∧ (∀ r ∈ u.mem.reds, ¬on r.pa) ∧ (∀ q ∈ u.mem.repls, ¬on q.pa) ∧
       (∀ v ∈ u.mem.revokes, ¬on v.pa) ∧ (∀ l ∈ u.mem.lines, l.mapped.isSome = true → ¬on l.pa) ∧
       (Memory.wf s.mem = true → (∀ r ∈ s.mem.reds, ¬on r.pa) → (∀ q ∈ s.mem.repls, ¬on q.pa) → (∀ v ∈ s.mem.revokes, ¬on v.pa) →
         (∀ r ∈ s.mem.regs, on r.pa → s.ownerPath r.pa = true) → ∀ a, u.mem.byte a = s.mem.byte a))))

/-! ### Errors, dead parts and fences -/

/-- What a fence does to a task of its die (R28, R300, R301): one that has ended stays; a placed one whose launch sets noreissue is killed with
status 7, and its keys are free at once; of others nothing is left on the die, and a team goes with its range, any other record back to
QUEUED on the next eligible die. That a record which only waits moves there as it stands is the model's choice (log 74). -/
def Sys2Proof.fencedTask (u : State) (die : Nat) (t k : Machine.Task) : Prop :=
  let gone := (∀ g ∈ u.groups, g.task ≠ t.uid) ∧ ∀ e ∈ u.keys, e.holder ≠ some t.uid
  let again := t.launch.any Launch.noreissue = false
  (t.ended = true ∨ t.endSteps ≠ 0 → k = t) ∧
  (t.ended = false → t.endSteps = 0 →
    (t.state = .placed → ¬again → k.killing = true ∧ k.late = 7 ∧ (∀ g ∈ u.groups, g.task = t.uid → g.residency = .ended) ∧
      ∀ e ∈ u.keys, e.holder ≠ some t.uid) ∧
    (t.team = true → t.state = .placed ∧ again → k.state = .discarded ∧ k.ended = true ∧ gone) ∧
    (t.team = true → t.state = .queued ∨ t.state = .held → k.state = .discarded ∧ k.ended = true) ∧
    let next := (firstFrom (u.eligible t.vi (t.cont.shape.getLsbD 8)) (die + 1)).getD 5
    (t.team = false → t.state = .placed ∧ again → k.state = .queued ∧ k.cores = [] ∧ gone ∧ k.die = next) ∧
    (t.team = false → t.state = .queued ∨ t.state = .held → k.state = t.state ∧ k.rounds = t.rounds ∧ k.footRounds = t.footRounds ∧ k.die = next))

/-- What a fence does to a grid with ranges of its die that are not finished (R300, R301): they are dealt whole again to an eligible die, or
given up, with status 7 where the launch sets noreissue and 6 where no die is left. -/
def Sys2Proof.fencedGrid (u : State) (die : Nat) (g : Grid) (l : Launch) (k : Grid) : Prop :=
  let held := fun (r : Range) => r.die = die ∧ r.stage ≠ 2
  let again := l.noreissue = false ∧ u.eligible g.vi l.paired ≠ []
  k.ranges.length = g.ranges.length ∧ (∀ (j : Nat) r q, g.ranges[j]? = some r → k.ranges[j]? = some q →
    q.start = r.start ∧ q.count = r.count ∧ (¬held r → q = r) ∧ (held r → again → q.next = r.start ∧ q.stage = 0 ∧ q.die ∈ u.eligible g.vi l.paired) ∧
    (held r → ¬again → q.next = r.start + r.count)) ∧
  (again → k.reissued = true) ∧ (¬again → (if l.noreissue = true then 7 else 6) ≤ k.status)

/-- A group whose delivery record counts one lost store more in the package's set (R184, R274). -/
def Sys2Proof.countsLost (g : Group) (va : Nat) (h : Group) : Prop :=
  h = { g with delPkg := h.delPkg } ∧ h.delPkg.lost = g.delPkg.lost + 1 ∧ h.delPkg.refused = g.delPkg.refused ∧
  h.delPkg.page = if g.delPkg.lost + g.delPkg.refused = 0 then alignDown va 8192 else g.delPkg.page

/-- O49. Errors and dead parts (R18, R23, R274, R300, R301, R317, R318, R321 to R323, R331, R351, R354 to R356): a fenced die's registrations of
words homed elsewhere come back poisoned, and nothing of its agents is left; requests of others that waited for its agents are served; its
tasks and ranges are queued or dealt again, or given up; a store to it through a stash line, and a RED that is performed only now, are
counted as lost, as are the updates of replicas that a fence cuts off and what a killed task has under way (R272, R274); dead links, ports and chips are not used again; a flit is taken once, in order, when its check holds, and the messages packed in
it one by one; retired cores and links are noted, and the strings of routed
grids are due to be written again; an uncorrectable error poisons what it struck, or fences the die
whose dispatch or spill table it struck, and is counted.
What a flit and a retirement leave alone is the model's reading (log 43, 51), how a payload tells its form, and that a channel is that of its
class, its choice (log 68), and so is what a dead path stops before its die is fenced (log 70). -/
def Obligations.ErrorsAndFences : Prop :=
  (∀ s die, s.fenceDue die = true → s.dies.any (fun d => d.num == die) = true → (∀ t ∈ s.tasks, t.die ≠ die) → s.grids = [] → (∀ v ∈ s.mem.revokes, agentDie v.owner ≠ die) →
    ∃ u, exec (.dieFence die) s = .next u ∧ u.fenced die = true ∧
    u.mem.regs = s.mem.regs.filter (fun r => agentDie r.owner != die && (r.pa / 2 ^ 37 != die || r.owner.kind == .stash)) ∧ u.mem.bytes = s.mem.bytes ∧
    (∀ r ∈ s.mem.regs, agentDie r.owner = die → r.pa / 2 ^ 37 ≠ die → r.pa ∈ u.mem.poison) ∧ (∀ c ∈ u.mem.copies, dieOf c.core ≠ die) ∧
    (∀ q ∈ u.mem.repls, q.pa / 2 ^ 37 ≠ die ∧ agentDie q.agent ≠ die) ∧ u.tasks = s.tasks ∧
    ((∀ q ∈ s.mem.repls, q.pa / 2 ^ 37 ≠ die ∧ agentDie q.agent ≠ die) → u.groups = s.groups)) ∧
  (∀ (s : State) die q g, s.fenceDue die = true → (∀ t ∈ s.tasks, t.die ≠ die) → s.grids = [] → (∀ v ∈ s.mem.revokes, agentDie v.owner ≠ die) →
    s.mem.repls = [q] → q.counted = false → q.pa / 2 ^ 37 = die ∨ agentDie q.agent = die → s.group? q.gid = some g →
    ∃ u h, exec (.dieFence die) s = .next u ∧ u.mem.repls = [] ∧ u.group? q.gid = some h ∧ countsLost g q.va h) ∧
  (∀ (s : State) uid g, s.groups = [g] → g.task = uid → ∃ h, (s.loseWrites uid).groups = [h] ∧ h = { g with delPkg := h.delPkg, delOther := h.delOther } ∧
    h.delPkg.lost + h.delOther.lost = g.delPkg.lost + g.delOther.lost + (s.underWay g.gid).length) ∧
  (∀ (s : State) die v ag mask val, s.fenceDue die = true → (∀ t ∈ s.tasks, t.die ≠ die) → s.grids = [] → s.mem.revokes = [v] → agentDie v.owner = die →
    v.pa / 2 ^ 37 ≠ die → v.pa % 4 = 0 → v.req = some (ag, mask, val) → agentDie ag ≠ die → ∃ u, exec (.dieFence die) s = .next u ∧ u.mem.revokes = [] ∧
      ∀ j < 4, mask.getLsbD j = true → u.mem.byte (v.pa + j) = byteOf val j) ∧
  (∀ s die, s.fenceDue die = true → (s.tasks.map Task.uid).Nodup → (s.grids.map Grid.gridId).Nodup → ∃ u, exec (.dieFence die) s = .next u ∧
    (∀ t ∈ s.tasks, t.die = die → ∃ k, u.task? t.uid = some k ∧ fencedTask u die t k) ∧
    (∀ g ∈ s.grids, ∀ l, g.launch = some l → g.ended = false → (∃ r ∈ g.ranges, r.die = die ∧ r.stage ≠ 2) →
      ∃ k, u.grid? g.gridId = some k ∧ fencedGrid u die g l k)) ∧
  (∀ (s : State) core off n l va, s.mem.line? core (off / 128) = some l → l.mapped = some va → 0 < n → (off + n - 1) / 128 = off / 128 → l.pa < 2 ^ 39 → l.pa % 128 = 0 →
    s.fenced (l.pa / 2 ^ 37) = true → s.stashLost core off n = some (va + off % 128, l.pa + off % 128)) ∧
  (∀ (s : State) gid g plain core off bs va pa, s.group? gid = some g → s.stashLost core off (List.length bs) = some (va, pa) → pa < 2 ^ 39 →
    ∃ h, (s.stashWrite gid plain core off bs).onlyGroup s h ∧ countsLost g va h) ∧
  (∀ s k r g, s.mem.reds.find? (fun q => q.key == k) = some r → s.outOfReach (agentDie r.agent) r.pa r.op.bytes = true → s.group? r.gid = some g →
    s.mem.reds.any (fun q => q.key < k && q.gid == r.gid && overlap q.pa q.op.bytes r.pa r.op.bytes) = false →
    ∃ u h, exec (.redPerform k) s = .next u ∧ u.onlyGroup { s with mem := { s.mem with reds := s.mem.reds.filter (fun q => q.key != k) } } h ∧ countsLost g r.va h) ∧
  (∀ s die, s.fenceDue die = false → exec (.dieFence die) s = .next s) ∧
  (∀ s a, a < 4 → exec (.ucieLinkDead a 4) s = .next { s with dies := s.dies.map (fun d => if d.num = a then { d with iodLink := false } else d) }) ∧
  (∀ s a, a < 4 → ∃ u, exec (.ucieLinkDead a ((a + 1) % 4)) s = .next u ∧ u.ringUp a ((a + 1) % 4) = false ∧ u = { s with fabric := u.fabric }) ∧
  (∀ s port, port < 16 → exec (.bermoistPortDead port) s =
    .next { s with fabric := { s.fabric with deadPorts := s.fabric.deadPorts ||| 1#16 <<< port } }) ∧
  (∀ s chip, ∃ u, exec (.remoteChipUnreachable chip) s = .next u ∧ u.reachable chip = false ∧ (∀ p ∈ u.mem.posted, chipOf p.va ≠ chip) ∧
    u.mem.bytes = s.mem.bytes ∧ u.mem.regs = s.mem.regs) ∧
  (∀ s port f, port < 16 → s.fabric.deadPorts.getLsbD port = false → Config.crc64 (Flit.body f) = f.crc →
    (s.fabric.recvAny.getLsbD port = false ∨ f.seqNo = s.fabric.recvSeq.get port + 1) → f.dst = s.fabric.chip → f.cls.toNat < 6 → f.vc = f.cls →
    ∃ u, exec (.fabricFlitReceive port f) s = .next u ∧ u.fabric.inbox = s.fabric.inbox ++ (Flit.messages f).map (fun m => (f.cls.toNat + 16 * f.src.toNat, m)) ∧
      u.fabric.recvSeq.get port = f.seqNo ∧ u.fabric.ackSeq.get port = f.ack ∧ u = { s with fabric := u.fabric }) ∧
  (∀ (f : Flit) (ms : List (List Byte)) n, ms ≠ [] → (∀ m ∈ ms, m ≠ []) → f.payload.length ≤ 224 →
    f.payload = ms.flatMap (fun m => leBytes 4 m.length ++ m) ++ List.replicate n 0 → Flit.messages f = ms) ∧
  (∀ f : Flit, field f.payload 0 4 = 0 ∨ f.payload.length < 4 + field f.payload 0 4 → Flit.messages f = [f.payload]) ∧
  (∀ s port f, Config.crc64 (Flit.body f) ≠ f.crc ∨ (s.fabric.recvAny.getLsbD port = true ∧ f.seqNo ≠ s.fabric.recvSeq.get port + 1) →
    exec (.fabricFlitReceive port f) s = .next s) ∧
  (∀ s gs, gs = s.grids.map (fun g => if g.routesWritten = true ∧ g.ended = false ∧ g.launch.any Launch.routed = true then { g with reroute := true } else g) →
    (∀ core, core < 384 → s.retired core = false → exec (.coreRetirement core) s =
      .next { s with fabric := { s.fabric with retiredCores := s.fabric.retiredCores ++ [core] }, grids := gs }) ∧
    (∀ a b h, a < 384 → h < 4 → meshStep a h = some b → ∃ u, exec (.meshLinkRetirement a b) s = .next u ∧ u.linkRetired a b = true ∧
      u = { s with fabric := u.fabric, grids := if s.linkRetired a b = true then s.grids else gs })) ∧
  (∀ s die, exec (.correctedError die) s = .next { s with dies := s.dies.map (fun d => if d.num = die then { d with ecorr := d.ecorr + 1 } else d) }) ∧
  (∀ s site, ∃ u, exec (.uncorrectableError site) s = .next u ∧
    (∀ gid lane n g, site = .vector gid lane n → s.group? gid = some g → lane < g.width → n < g.vregs → ∃ h, u.onlyGroup { s with dies := u.dies, host := u.host } h ∧
      u.host = { s.host with restarting := s.host.restarting || decide (412 ≤ g.core) } ∧ h = { g with poisonV := h.poisonV } ∧ ∀ k, k ∈ h.poisonV ↔ k ∈ g.poisonV ∨ k = n * 64 + lane) ∧
    (∀ pa, site = .hbmWord pa ∨ site = .l2Word pa → paOk pa = true → u = { s with dies := u.dies, mem := { s.mem with poison := u.mem.poison } } ∧
      ∀ k, k ∈ u.mem.poison ↔ k ∈ s.mem.poison ∨ k = wordOf pa) ∧
    (∀ core pa, site = .stashWord core pa → core < 384 → pa < Config.stashBytes → s.mem.line? core (pa / 128) = none →
      u = { s with dies := u.dies, mem := { s.mem with stashPoison := u.mem.stashPoison } } ∧
      ∀ k, k ∈ u.mem.stashPoison ↔ k ∈ s.mem.stashPoison ∨ k = stashKey core (alignDown pa 4)) ∧
    (∀ die, site = .keyTable die ∨ site = .prismQueue die ∨ site = .spillTable die → die < 4 → s.dies.any (fun d => d.num == die) = true →
      u.fenced die = true) ∧
    (∀ pa, site = .hbmWord pa → u.dies = s.dies.map (fun d => if d.num = pa / 2 ^ 37 then { d with eunc := d.eunc + 1 } else d))) ∧
  (∀ s, s.host.restarting = true → s.host.consumed = [] →
    exec .firmwareRestartComplete s = .next { s with host := { s.host with restarting := false, consumed := [] } }) ∧
  (∀ s, s.host.restarting = false → exec .firmwareRestartComplete s = .next s)

/-! ### The host's side -/

/-- The window's word at an offset takes a value, and nothing else changes. -/
def Sys2Proof.setsWord (i : Instr) (s : State) (off val : Nat) : Prop :=
  ∃ u, exec i s = .next u ∧ u.win off = val ∧ (∀ o, o / 4 ≠ off / 4 → u.win o = s.win o) ∧ u = { s with host := { s.host with window := u.host.window } }

/-- The error bit is set with a cause, the first cause being kept, and nothing else changes (R340). -/
def Sys2Proof.flagsCause (i : Instr) (s : State) (cause : Nat) : Prop :=
  exec i s = .next { s with host := { s.host with error := true, errCause := if s.host.error = true then s.host.errCause else cause } }

/-- O50. The management window and the host's accesses (R280, R338 to R342, R344, R351, R352): each register takes what its rule says or leaves it
and sets the error bit, once the package has booted; a word reads with its reserved bits zero (R4); a die's record is written every
100,000 ticks when it is enabled; pages are enabled when their descriptors are good; interrupts are delivered through the table they were
posted under, or counted in its entry where it is unused, full or refused; BAR2 reads and writes the
virtual interface's memory.
A BAR2 access that does not translate, the cap in P1, and what a configuration record starts are the model's readings (log 25, 40, 41), and so are
which vectors the host takes, and that each function has a host memory of its own (log 44), the table in force when an interrupt is posted (log 30), and where a ring without the host bit may lie
(log 22); measured quantities are free (log 22), and the device's own accesses translate on one core (log 66). -/
def Obligations.HostAccesses : Prop :=
  (∀ s, s.booted = true → exec .errorBitClear s = .next { s with host := { s.host with error := false, errCause := 0 } }) ∧
  (∀ s die val, s.booted = true → die < 4 →
    (100 ≤ BitVec.toNat (val : Word) % 4096 → val.toNat % 4096 ≤ 1200 →
      setsWord (.pcapWrite die val) s (0x1000 + 0x100 * die) (val.toNat % 4096 + 2 ^ 31 * (val.toNat / 2 ^ 31))) ∧
    (val.toNat % 4096 < 100 ∨ 1200 < val.toNat % 4096 → flagsCause (.pcapWrite die val) s 3) ∧
    (5 ≤ val.toNat % 256 → val.toNat % 256 ≤ 200 → setsWord (.didtWrite die val) s (0x1004 + 0x100 * die) (val.toNat % 256)) ∧
    (val.toNat % 256 < 5 ∨ 200 < val.toNat % 256 → flagsCause (.didtWrite die val) s 3)) ∧
  (∀ s die val, s.booted = true → die < 4 →
    let ctl := BitVec.toNat (val : Word) % 32 + 256 * (val.toNat / 256 % 2) + 2 ^ 31 * (val.toNat / 2 ^ 31)
    let newly := fun (off : Nat) => decide (s.win off / 2 ^ 31 % 2 = 0 ∧ val.toNat / 2 ^ 31 = 1)
    (∃ u, exec (.trctlWrite die val) s = .next u ∧ u.win (0x1010 + 0x100 * die) = ctl ∧
      u.dies = s.dies.map (fun d => if d.num = die ∧ newly (0x1010 + 0x100 * die) then { d with trSeq := 0 } else d)) ∧
    (∃ u, exec (.dlctlWrite die val) s = .next u ∧ u.win (0x1030 + 0x100 * die) = ctl ∧
      u.dies = s.dies.map (fun d => if d.num = die ∧ newly (0x1030 + 0x100 * die) then { d with dlSeq := 0 } else d))) ∧
  (∀ s i, s.booted = false → i = .errorBitClear ∨ (∃ die val, i = .pcapWrite die val ∨ i = .didtWrite die val ∨ i = .trctlWrite die val ∨ i = .dlctlWrite die val) ∨
    (∃ die unc, i = .errorCountClear die unc) ∨ (∃ n, i = .flr n ∨ i = .configRecordApply n) ∨ (∃ off val, i = .registerWrite off val) → exec i s = .next s) ∧
  (∀ s die unc, s.booted = true → exec (.errorCountClear die unc) s = .next { s with
    dies := s.dies.map (fun d => if d.num = die then (if unc = true then { d with eunc := 0 } else { d with ecorr := 0 }) else d) }) ∧
  (∀ s die, exec (.thermalThrottle die) s = .next { s with
    dies := s.dies.map (fun d => if d.num = die then { d with clock := max 1000 (d.clock - 100), throttle := d.throttle ||| 2 } else d) }) ∧
  (∀ s die, s.dies.find? (fun x => x.num == die) = none ∨ s.tick = 0 ∨ s.tick.toNat % 100000 ≠ 0 ∨
    (∀ d, s.dies.find? (fun x => x.num == die) = some d → d.recordAt = s.tick) → exec (.telemetryRecord die) s = .next s) ∧
  (∀ (s : State) die d, die < 4 → s.dies.find? (fun x => x.num == die) = some d →
    let w := s.windowRead (0x1034 + 0x100 * die)
    w % 2 ^ 15 = d.clock % 2 ^ 15 ∧ w.testBit 15 = d.fenced ∧ w.testBit 16 = (s.capOn die && d.throttle.getLsbD 0) ∧ w.testBit 17 = d.throttle.getLsbD 1 ∧
      w.testBit 18 = d.waited ∧ w.testBit 19 = decide (s.host.requested = .p1) ∧ w < 2 ^ 20) ∧
  (∀ s die d, s.dies.find? (fun x => x.num == die) = some d → s.tick ≠ 0 → s.tick.toNat % 100000 = 0 → d.recordAt ≠ s.tick →
    let ctl := s.win (0x1010 + 0x100 * die)
    let on := ctl.testBit 31
    let slot := s.win (0x1008 + 0x100 * die) + 2 ^ 32 * s.win (0x100C + 0x100 * die) + 32 * (d.trTail.toNat % 2 ^ (ctl % 32))
    let power := (Config.measured s.fresh die 4).toNat
    let cap := s.win (0x1000 + 0x100 * die) % 4096
    ∃ u k, exec (.telemetryRecord die) s = .next u ∧ u.dies.find? (fun x => x.num == die) = some k ∧
      k.waited = false ∧ k.recordAt = s.tick ∧ k.trTail = (if on = true then d.trTail + 1 else d.trTail) ∧ k.trSeq = (if on = true then d.trSeq + 1 else d.trSeq) ∧
      (s.capOn die = true → cap < power → k.clock = max 1000 (d.clock - 100)) ∧
      (s.capOn die = true → power ≤ cap → cap * 95 ≤ power * 100 → k.clock = d.clock) ∧
      (s.capOn die = true → power * 100 < cap * 95 → power ≤ cap → k.clock = min 4000 (d.clock + 100)) ∧ (s.capOn die = false → k.clock = d.clock) ∧
      (on = false → u = { s with dies := u.dies }) ∧
      (on = true →
        let tells := fun (e : List Byte) => field e 0 8 = s.tick.toNat ∧ field e 8 4 = (Config.measured s.fresh die 0).toNat % 2 ^ 32 ∧
          field e 18 1 = d.num % 256 ∧ field e 20 2 = k.clock % 2 ^ 16 ∧ field e 24 4 = d.trSeq.toNat ∧ field e 28 4 = 2 ^ 31
        (ctl.testBit 8 = true → tells ((List.range 32).map (fun j => u.host.hostMem.get (hostKey 0 (slot + j)))) ∧
          u = { s with dies := u.dies, host := { s.host with hostMem := u.host.hostMem } }) ∧
        (ctl.testBit 8 = false → paOk slot = true → s.ownerOf slot = 0 → s.ownerOf (slot + 31) = 0 → tells ((List.range 32).map (fun j => u.mem.byte (slot + j))) ∧
          (∀ pa, pa < slot ∨ slot + 32 ≤ pa → u.mem.byte pa = s.mem.byte pa) ∧ u.besideMemory { s with dies := u.dies }))) ∧
  (∀ s : State, s.windowRead 0 = s.host.stage % 256 + 256 * (s.host.failure % 256) ∧
    s.windowRead 8 = (if s.host.error = true then 1 else 0) + 256 * (s.host.errCause % 256) ∧
    (∀ vi q, vi < 64 → q < 16 → s.windowRead (0x30008 + 0x100 * vi + 16 * q) < 2 ∧ s.windowRead (0x3000C + 0x100 * vi + 16 * q) = 0) ∧
    (∀ vi page, vi < 64 → page < 64 → s.windowRead (0x10010 + 0x800 * vi + 32 * page) < 32 ∧ s.windowRead (0x1001C + 0x800 * vi + 32 * page) = 0) ∧
    (∀ n i, n < 64 → i < 6 → s.windowRead (0x8060 + 128 * n + 4 * i) = 0 ∧ s.windowRead (0x8078 + 128 * n) < 4096)) ∧
  (∀ s off val, (0x8000 ≤ off ∧ off < 0xA000 ∧ off % 128 ≠ 0x7C ∨ 0x30000 ≤ off ∧ off < 0x34000) → off % 4 = 0 → s.host.stage = 3 →
    setsWord (.registerWrite off val) s off (BitVec.toNat (val : Word))) ∧
  (∀ s j mask, 0 < j → j < 8 → s.host.stage = 3 →
    ((∀ k < 8, k ≠ 0 → k ≠ j → Nat.land (s.win (0x7000 + 4 * k)) (BitVec.toNat (mask : Word) % 2 ^ 28) = 0) →
      setsWord (.servicePartitionMaskWrite j mask) s (0x7000 + 4 * j) (mask.toNat % 2 ^ 28)) ∧
    ((∃ k < 8, k ≠ 0 ∧ k ≠ j ∧ Nat.land (s.win (0x7000 + 4 * k)) (mask.toNat % 2 ^ 28) ≠ 0) → flagsCause (.servicePartitionMaskWrite j mask) s 2)) ∧
  (∀ s n, n < 64 → s.host.stage = 3 → s.host.restarting = false → s.configBad n = false →
    ((s.viOf n).enabled = true → ∃ u, exec (.configRecordApply n) s = .next u ∧ (u.viOf n).pendingConfig = true ∧ u.win (0x807C + 128 * n) = 2 ^ 31) ∧
    ((s.viOf n).enabled = false → exec (.configRecordApply n) s = .next (s.configPut n)) ∧
    ((s.viOf n).pendingConfig = true → s.viQuiet n = true → exec (.configRecordQuiesceApply n) s = .next (s.configPut n)) ∧
    ((s.configPut n).viOf n).enabled = true ∧ ((s.configPut n).viOf n).pairs = (List.range 4).map (fun d => BitVec.ofNat 64 (s.win64 (0x8000 + 128 * n + 8 * d) % 2 ^ 48)) ∧
    ((s.configPut n).viOf n).keyShare = s.win (0x8028 + 128 * n)) ∧
  (∀ s n, n < 64 → s.host.stage = 3 → s.host.restarting = true → ∃ u, exec (.configRecordApply n) s = .next u ∧ (u.viOf n).pendingConfig = true ∧
    u.win (0x807C + 128 * n) = 2 ^ 31 + s.win (0x807C + 128 * n) % 2 ^ 30 ∧ u.mem = s.mem) ∧
  (∀ s n i, n < 64 → s.host.stage = 3 → s.host.restarting = false → s.configBad n = true → i = .configRecordApply n ∨
    (i = .configRecordQuiesceApply n ∧ (s.viOf n).pendingConfig = true ∧ s.viQuiet n = true) → ∃ u, exec i s = .next u ∧ u.host.error = true ∧
    u.win (0x807C + 128 * n) = 2 ^ 30 ∧ (u.viOf n).enabled = (s.viOf n).enabled ∧ u.mem = s.mem) ∧
  (∀ s vi page, vi < 64 → page < 64 → s.host.stage = 3 → (∀ p, s.page? vi page = some p → p.enabled = false) → ∃ u, exec (.submissionPageEnable vi page) s = .next u ∧
    let o := pageOff vi page
    (page < (s.viOf vi).pages → s.win64 o = 0 → s.win64 (o + 8) % 4096 = 0 → chipOf (s.win64 (o + 8)) = s.fabric.chip.toNat → 4 ≤ s.win (o + 0x10) →
      s.win (o + 0x10) ≤ 16 → s.win (o + 0x14) < 4 → s.win (o + 0x1C) = 0 → ∃ p, u.page? vi page = some p ∧ p.enabled = true ∧
        p.slots = s.win (o + 0x10) ∧ p.privileged = decide (2 ≤ s.win (o + 0x14)) ∧ u.win (o + 0x18) = 0) ∧
    (s.win64 (pageOff vi page + 8) % 4096 ≠ 0 → u.host.error = true ∧ u.pages = s.pages) ∧
    (∀ p, u.page? vi page = some p → p.enabled = true → p.base = s.win64 (pageOff vi page + 8) ∧ p.groupAddr = s.win64 (pageOff vi page) ∧
      p.next = 0 ∧ 4 ≤ p.slots ∧ p.slots ≤ 16)) ∧
  (∀ s vi page p, s.page? vi page = some p → p.enabled = true → ∃ u q, exec (.submissionPageDisable vi page) s = .next u ∧
    u.page? vi page = some q ∧ q = { p with enabled := false } ∧ u.tasks = s.tasks ∧ u.grids = s.grids ∧ u.entries = s.entries) ∧
  (∀ s n, n < 64 → s.booted = true → exec (.flr n) s = .next ((s.disableVi n).enableVi n)) ∧
  (∀ s, s.host.interrupts = [] → exec .uintDelivery s = .next s) ∧
  (∀ s i r, s.host.interrupts = i :: r → ∃ u, exec .uintDelivery s = .next u ∧ u.host.interrupts = r ∧
    let entry := (i.base.toNat + 32 * (i.target % 256)) % 2 ^ 64
    (∀ e, s.deviceRead i.vi entry 32 = some e →
      let kind := field e 0 1 % 4
      let slot := field e 8 8 + 16 * (field e 0x1C 4 % field e 0x10 4)
      let full := (field e 0x1C 4 + 2 ^ 32 - field e 0x18 4) % 2 ^ 32 = field e 0x10 4
      let takes := Config.hostTakes i.vi (field e 1 1 % 64) (field e 8 8)
      let moves := fun (v w : State) => v.deviceForce i.vi (entry + 0x1C) (leBytes 4 ((field e 0x1C 4 + 1) % 2 ^ 32)) = (w, true)
      let s1 := ({ s with host := { s.host with interrupts := r } } : State)
      (kind = 1 → ¬full → takes = true → ∀ w, moves { s1 with host := { s1.host with hostMem := s.host.hostMem.write (hostKey i.vi slot) i.bytes } } w →
        u.mem = w.mem ∧ u.host.answers = s.host.answers ++ [.msix i.vi (field e 1 1 % 64)] ∧
        (∀ j < 16, u.host.hostMem.get (hostKey i.vi slot + j) = i.bytes.getD j 0)) ∧
      (kind = 2 → ¬full → ∀ v w, s1.devicePut i.vi slot i.bytes = (v, true) → moves v.flushBridge w → u = w) ∧
      (kind = 0 ∨ kind = 3 ∨ full ∨ (kind = 1 ∧ takes = false) → u.host.answers = s.host.answers ∧ u.host.hostMem = s.host.hostMem ∧
        ∀ va tr, s.ranged schedulingCore i.vi .read false (entry + 4) 4 = .ok [(va, 4, tr)] → tr.home = true → va = entry + 4 →
          valueAt u.mem.byte tr.pa 4 = BitVec.ofNat 64 (min (2 ^ 32 - 1) (field e 4 4 + 1)) ∧
          (∀ pa, pa < tr.pa ∨ tr.pa + 4 ≤ pa → u.mem.byte pa = s.mem.byte pa)))) ∧
  (∀ s n off len, let f := s.flushBridge; ∃ u a, exec (.hostBar2Read n off len) s = .next u ∧ u.host.answers = s.host.answers ++ [a] ∧
    (∀ pa, u.mem.byte pa = f.mem.byte pa) ∧ ((∀ q ∈ s.mem.repls, q.agent ≠ ⟨.bridge, 0⟩) → f = s) ∧ (∀ q ∈ f.mem.repls, q.agent ≠ ⟨.bridge, 0⟩) ∧
    (∀ bs, off + len ≤ 2 ^ 36 → f.deviceRead n off len = some bs → a = .readData bs) ∧ (2 ^ 36 < off + len → a = .abort)) ∧
  (∀ s n off bytes va tr, off + List.length bytes ≤ 2 ^ 36 → s.ranged schedulingCore n .write false off bytes.length = .ok [(va, bytes.length, tr)] →
    tr.home = true → va = off → ∃ u, exec (.hostBar2Write n off bytes) s = .next u ∧ (∀ j < bytes.length, u.mem.byte (tr.pa + j) = bytes.getD j 0) ∧
      (∀ pa, pa < tr.pa ∨ tr.pa + bytes.length ≤ pa → u.mem.byte pa = s.mem.byte pa) ∧ u.besideMemory s) ∧
  (∀ s n off bytes e, off + List.length bytes ≤ 2 ^ 36 → s.ranged schedulingCore n .write false off bytes.length = .error e →
    exec (.hostBar2Write n off bytes) s = .next s)

/-- O51. Reset, power, lifecycle, attestation and debug (R346 to R350, R356): a package reset starts everything over, but for what lies
outside the device or in its fuses; a request for P0 or P1 is granted at once, IDLE and RETAIN when the package is quiet, OFF loses
all state; a vendor-signed command moves the lifecycle; a nonce is answered; a good token opens a session; only a halted group's registers
are written by one, among them its team's; a package that has not booted grants no power request, and a controller whose image has
failed answers and does nothing (R349).
What a reset keeps, the codes of requests and the layout of commands are the model's choices (log 8, 10), and so is what a session does not write (log 42, 79). -/
def Obligations.Lifecycle : Prop :=
  (∀ s, ∃ u, exec .packageReset s = .next u ∧ u.groups = [] ∧ u.tasks = [] ∧ u.grids = [] ∧ u.mem = State.reset.mem ∧ u.vis = [] ∧ u.tick = 0 ∧
    u.dies = State.reset.dies ∧ u.host.lifecycle = s.host.lifecycle ∧ u.host.power = .p0 ∧ u.host.sessions = [] ∧
    u.fabric.retiredCores = s.fabric.retiredCores ∧
    (Config.fusesRead s.fresh = true → imageOk 0 = true → imageOk 1 = true → imageOk 2 = true → u.host.stage = 3 ∧ u.host.failure = 0 ∧
      u.fabric.chip = Config.platformChip 0 ∧ u.host.measurements.length = 8) ∧
    (Config.fusesRead s.fresh = false → u.host.stage = 0 ∧ u.host.failure = 4)) ∧
  (∀ s, s.host.stage ≠ 3 → ∀ i, i = .powerStateP0 ∨ i = .powerStateP1 ∨ i = .powerStateIdle ∨ i = .powerStateRetain → exec i s = .next s) ∧
  (∀ s, s.host.power ≠ .off → s.host.stage = 3 →
    (∀ i p, (i = .powerStateP0 ∧ p = .p0 ∨ i = .powerStateP1 ∧ p = .p1) → ∃ u, exec i s = .next u ∧ u.host.power = p ∧ u.host.requested = p ∧
      u.win 0x400 = powerCode p + 256 * powerCode p ∧ u.groups = s.groups ∧ u.mem = s.mem) ∧
    (∀ i p, (i = .powerStateIdle ∧ p = .idle ∨ i = .powerStateRetain ∧ p = .retain) → ∃ u, exec i s = .next u ∧ u.host.power = s.host.power ∧
      u.host.requested = p ∧ u.groups = s.groups ∧ u.mem = s.mem) ∧
    (s.quiet = true → s.host.requested = .idle ∨ s.host.requested = .retain → s.host.power ≠ s.host.requested →
      ∃ u, exec .powerStateEntry s = .next u ∧ u.host.power = s.host.requested ∧ (s.host.requested = .retain → ∀ e ∈ u.host.sessions, e.level ≠ 1)) ∧
    (s.quiet = false → exec .powerStateEntry s = .next s)) ∧
  (∀ s, ∃ u, exec .powerStateOff s = .next u ∧ u.groups = [] ∧ u.tasks = [] ∧ u.mem = State.reset.mem ∧ u.host.sessions = [] ∧ u.host.power = .off ∧
    u.win 0x400 = 0x404 ∧
    u.host.lifecycle = s.host.lifecycle) ∧
  (∀ s i, s.host.stage = 0 → i = .nonceIssue ∨ (∃ c, i = .lifecycleDeploy c ∨ i = .lifecycleReturn c ∨ i = .debugTokenUnlock c ∨ i = .spdmRequest c) →
    exec i s = .next s) ∧
  (∀ s c, (s.host.stage ≠ 0 → s.host.lifecycle = .manufacture → vendorSigned c = true → exec (.lifecycleDeploy c) s = .next { s with host := { s.host with lifecycle := .deployed } }) ∧
    (s.host.lifecycle ≠ .manufacture ∨ vendorSigned c = false → exec (.lifecycleDeploy c) s = .next s) ∧
    (s.host.stage ≠ 0 → s.host.lifecycle = .deployed → vendorSigned c = true → field c 0 16 = Config.deviceId.toNat → ∃ w : Store 32,
      exec (.lifecycleReturn c) s = .next { s with
        host := { s.host with lifecycle := .returned, keysErased := true, window := w }, vis := s.vis.map (fun v => { v with ownerKey := 0 }) } ∧
      ∀ k, w.get k = if 0x8000 ≤ 4 * k ∧ 4 * k < 0xA000 ∧ 0x38 ≤ 4 * k % 128 ∧ 4 * k % 128 < 0x58 then 0 else s.host.window.get k) ∧
    (s.host.lifecycle ≠ .deployed ∨ vendorSigned c = false → exec (.lifecycleReturn c) s = .next s)) ∧
  (∀ s req, s.host.stage ≠ 0 → ∃ bytes, exec (.spdmRequest req) s = .next { s with host := { s.host with answers := s.host.answers ++ [.spdm bytes] } } ∧
    (field req 0 1 = 0x12 → field req 1 1 = 0xE0 → s.host.keysErased = false → bytes = [0x12, 0x60] ++ s.host.report ++ Config.deviceSign s.host.report) ∧
    (field req 0 1 = 0x12 → field req 1 1 = 0xE3 → (field req 8 4).testBit 2 = true → (field req 12 4).testBit 0 = true →
      field bytes 1 1 = 0x63 ∧ field bytes 12 4 = 4 ∧ field bytes 16 4 = 1)) ∧
  (∀ s, s.host.stage ≠ 0 → ∃ n, exec .nonceIssue s = .next { s with
    host := { s.host with nonce := some n, nonces := s.host.nonces + 1, answers := s.host.answers ++ [.nonce n] } }) ∧
  (∀ s k, s.host.stage ≠ 0 → (s.tokenOk k = false → exec (.debugTokenUnlock k) s = .next { s with host := { s.host with answers := s.host.answers ++ [.status 3] } }) ∧
    (s.tokenOk k = true → ∃ u, exec (.debugTokenUnlock k) s = .next u ∧ u.host.nonce = none ∧
      u.host.sessions = s.host.sessions ++ [⟨field k 0 4, field k 4 4, BitVec.ofNat 64 (field k 8 8)⟩] ∧ u.host.answers = s.host.answers ++ [.status 0] ∧
      u = { s with host := u.host })) ∧
  (∀ s vi op, s.sessionFor vi = false → exec (.debugSessionAccess vi op) s = .next s) ∧
  (∀ s vi gid g t, s.sessionFor vi = true → s.debugGroup vi gid = some (g, t) →
    exec (.debugSessionAccess vi (.halt gid)) s = .next (s.setGroup { g with halted := true }) ∧
    exec (.debugSessionAccess vi (.resume gid)) s = .next (s.setGroup { g with halted := false }) ∧
    (g.halted = false → ∀ r val, exec (.debugSessionAccess vi (.writeReg gid r val)) s = .next s) ∧
    (g.halted = true →
      (∀ lane n val, lane < g.width → n < g.vregs → exec (.debugSessionAccess vi (.writeReg gid (.vector lane n) val)) s =
        .next (s.setGroup (g.vset n lane (val.setWidth 32)))) ∧
      (∀ n val, n < g.sregs → exec (.debugSessionAccess vi (.writeReg gid (.uniform n) val)) s = .next (s.setGroup (g.sset n (val.setWidth 64)))) ∧
      (∀ lane n val, lane < g.width → n < 24 → exec (.debugSessionAccess vi (.writeReg gid (.predicate lane n) val)) s =
        .next (s.setGroup (g.pset n lane (val.getLsbD 0)))) ∧
      (∀ lane k val, lane < g.width → k < 8 → exec (.debugSessionAccess vi (.writeReg gid (.index lane k) val)) s =
        .next (s.setGroup (g.xset k lane (val.setWidth 32)))) ∧
      (∀ n val, n < t.tregs → s.task? t.uid = some t → ∃ u k, exec (.debugSessionAccess vi (.writeReg gid (.tile n) val)) s = .next u ∧ u.groups = s.groups ∧
        u.mem = s.mem ∧ u.task? t.uid = some k ∧ k.tiles.get n = val ∧ ∀ m, m ≠ n → k.tiles.get m = t.tiles.get m) ∧
      (∀ n row col val, n < t.accs → row < 64 → col < 64 → s.task? t.uid = some t → ∃ u k,
        exec (.debugSessionAccess vi (.writeReg gid (.accumulator n row col) val)) s = .next u ∧ u.groups = s.groups ∧
        u.mem = s.mem ∧ u.task? t.uid = some k ∧ k.acc.get (accKey (t.coreSel g.core) n row col) = val.setWidth 40 ∧
        ∀ key, key ≠ accKey (t.coreSel g.core) n row col → k.acc.get key = t.acc.get key)) ∧
    (let answers := fun (a : BitVec 128) => ({ s with host := { s.host with answers := s.host.answers ++ [.debugValue a] } } : State)
     (∀ lane, exec (.debugSessionAccess vi (.readVpc gid lane)) s = .next (answers ((g.vpc.get lane).setWidth 128))) ∧
     (∀ lane n, lane < g.width → n < g.vregs → exec (.debugSessionAccess vi (.readReg gid (.vector lane n))) s =
       .next (answers ((g.vget n lane).setWidth 128))) ∧
     (∀ n, n < g.sregs → exec (.debugSessionAccess vi (.readReg gid (.uniform n))) s = .next (answers ((g.sget n).setWidth 128))) ∧
     (∀ k, k < 6 → exec (.debugSessionAccess vi (.readReg gid (.counter k))) s = .next (answers ((g.e.get k).setWidth 128))) ∧
     (∀ n, n < t.tregs → exec (.debugSessionAccess vi (.readReg gid (.tile n))) s = .next (answers (t.tiles.get n))) ∧
     exec (.debugSessionAccess vi (.readReg gid .fsr)) s = .next (answers (g.fsr.setWidth 128)) ∧
     exec (.debugSessionAccess vi (.readReg gid .gsr)) s =
       .next (answers (BitVec.ofNat 128 ((if g.gsrE = true then 1 else 0) + if g.gsrH = true then 2 else 0)))))

/-! ### The machine as a whole -/

/-- O52. Words written out from the encodings of the spec decode to the instructions that they stand for, one of each family at least
(R108 to R126, R131; the words are those that the spec writes out in its examples). -/
def Obligations.DecodedWords : Prop :=
  decodeWord 0x007C_0000_0884_3E1B = .ok (.mov .always (.v 8) (.ind .down 1)) ∧
  decodeWord 0x0060_0002_8303_BE40 = .ok (.fadd .always .rne 0 (.v 7) (.v 6) (.v 5)) ∧
  decodeWord 0x2078_0000_0102_BE95 = .ok (.cvt .always .e4m3 .f32 0 2 .rne false (.v 5) (.v 2)) ∧
  decodeWord 0x0078_8000_0481_3EC9 = .ok (.redv .always .addI32 (.s 2) (.v 9)) ∧
  decodeWord 0x0000_0061_8000_3EFF = .ok (.rpt .always 3 0 3) ∧
  decodeWord 0x0000_0000_0106_3F06 = .ok (.ld .always .b128 false ⟨0, 0, false, false, 2, 12⟩) ∧
  decodeWord 0x0000_8031_8203_3F52 = .ok (.atom .always .xchg64 .sys ⟨128, 0, true, true, 4, 6⟩) ∧
  decodeWord 0x0000_A100_1840_BF79 = .ok (.cpy .always ⟨none, some .pkg, 2, 0, 3, 2, 1⟩) ∧
  decodeWord 0x0000_2000_0041_0B81 = .ok (.mma ⟨5, false⟩ true false 1 0 2) ∧
  decodeWord 0x0000_0F18_4001_3F84 = .ok (.accrdF32 .always ⟨15, 6, 16, 2⟩) ∧
  decodeWord 0x0000_7FFF_FFE4_3FC0 = .ok (.bra .always (BitVec.ofInt 32 (-56))) ∧
  decodeWord 0x0000_0080_0800_3FCC = .ok (.getsys .always .lane (.v 1)) ∧
  decodeWord 0x0000_A380_0040_BFC6 = .ok (.spawn .always (some .pkg) 2 1) ∧
  decodeWord 0x0000_0000_0000_3FCA = .ok (.rtt .always) ∧
  decodeWord 0x0008_0002_8082_4600 = .error 3 ∧ decodeWord 0x0008_0002_8082_445B = .error 0 ∧ decodeWord 0x0060_0002_8303_B640 = .error 1

/-- O53. Decoding the word of a well-formed instruction gives the instruction back, whatever its operands are. -/
def Obligations.EncodeDecode : Prop := ∀ i : Instr, i.wf = true → encode i < 2 ^ 64 ∧ decodeWord (encode i) = .ok i

/-- O54. Only words of well-formed instructions decode, and each word has one meaning: encoding what was read gives the word back. -/
def Obligations.DecodeEncode : Prop := ∀ w i, w < 2 ^ 64 → decodeWord w = .ok i → i.wf = true ∧ encode i = w

/-- O55. A step runs the instruction whose turn it is: when no event is on the agenda, the group that goes on with its clause issues the
next word of it (stepped, inside a repeat); a word that decodes is executed, and counted for a pre-emption; what follows is what the device
does at once (parked lanes see their conditions, team areas and full caches are written back) and the model's own bookkeeping (log 2); a
word that does not decode raises the illegal-instruction trap with its subcode, or a lower one of a WAIT's operand values; a word beyond the
C limit raises the segment fault (R104, R105, R131, R175). An event on the agenda is executed the same way. That an edited repeat which would
step past the last register traps with subcode 3 is the model's reading (log 17); which lanes an illegal word's mask names is its choice (log 57). -/
def Obligations.StepRuns : Prop :=
  (∀ s g c, s.inputs = [] → s.runner = some g → g.clause = some c → g.betweenRepeats = none → g.preempt.getD 0 < 4096 →
    let now := { s with cur := some g.gid }
    (∀ w, c.words[c.index]? = some (some w) →
      (g.repLeft = 0 → g.wordNow w = w) ∧
      (∀ i, decodeWord (g.wordNow w).toNat = .ok i → g.stepsPast w = false → step s = settleOut s false (countOut g.gid (exec i now))) ∧
      (∀ i x, decodeWord (g.wordNow w).toNat = .ok i → g.stepsPast w = true → ctxOf now (guardOf (g.wordNow w).toNat) = some x →
        step s = settleOut s false (countOut g.gid (.next (x.raise (trapIllegal 3 x.act))))) ∧
      (∀ sub x, decodeWord (g.wordNow w).toNat = .error sub → ctxOf now (guardOf (g.wordNow w).toNat) = some x →
        ∃ k ≤ sub, step s = settleOut s false (countOut g.gid (.next (x.raise (trapIllegal k x.act)))) ∧
          (∀ r, rawOf (g.wordNow w).toNat = some r → (∀ gd all count d a b c, r.i ≠ .wait gd all count d a b c) → k = sub))) ∧
    (∀ x, c.words[c.index]? = some none → ctxOf now ⟨31, false⟩ = some x →
      step s = settleOut s false (countOut g.gid (.next (x.raise { trapOf 2 0 x.c.lanes with
        addr := BitVec.ofNat 64 (x.c.start + 8 * (x.c.index + 1)), infoA := 4 }))))) ∧
  (∀ s i rest, s.inputs = .event i :: rest → i.isEvent = true → step s = settleOut { s with inputs := rest } true (exec i { s with inputs := rest })) ∧
  (∀ s t e u, settleOut s e (.next t) = .next u →
    u = { t.follow with inputs := u.inputs, fresh := t.follow.fresh + 1, beat := u.beat, rounds := u.rounds, groups := u.groups } ∧
    u.groups.map Group.gid = t.follow.groups.map Group.gid ∧
    ∀ g ∈ t.follow.groups, ∃ h ∈ u.groups, h = { g with hold := h.hold, parkedSince := h.parkedSince } ∧
      (h.hold = g.hold ∨ h.hold = .none ∨ (∃ n, g.hold = .submit n ∧ h.hold = .resubmit n) ∨ ∃ n, g.hold = .stmap n ∧ h.hold = .remap n)) ∧
  (∀ t : State, (∀ k ∈ t.tasks, t.teamLeaves k = false) → t.follow = { t with mem := t.follow.mem, groups := t.follow.groups } ∧
    List.Forall₂ (fun h g => ∃ ps, h = { g with parks := ps } ∧ List.Forall₂ (fun q p => ∃ b, q = { p with met := b }) ps g.parks) t.follow.groups t.groups ∧
    (Memory.wf t.mem = true → (t.mem.regs.map Reg.pa).Nodup → (∀ r ∈ t.mem.regs, t.homeLost r.pa = false) →
      ∀ pa, t.follow.mem.byte pa = t.mem.byte pa))

/-- O56. Reset: nothing runs, no reference tick has passed, no word is registered, the credit of each die is 0, its limit reads 5, and its
arithmetic clock is 4.0 GHz (R21, R22, R297, R340, R351); memory has its canonical form. That each virtual interface is disabled and memory
reads 0 is the model's choice (log 1, log 8). -/
def Obligations.ResetState : Prop :=
  State.reset.tick = 0 ∧ State.reset.groups = [] ∧ State.reset.tasks = [] ∧ State.reset.grids = [] ∧ State.reset.mem.regs = [] ∧
  State.reset.dies.map Die.num = [0, 1, 2, 3] ∧ (∀ d ∈ State.reset.dies, d.credit = 0 ∧ d.clock = 4000 ∧ d.fenced = false ∧ d.ecorr = 0 ∧ d.eunc = 0) ∧
  (∀ die < 4, State.reset.win (0x1004 + 0x100 * die) = 5) ∧ State.reset.win 0 = 0 ∧ (∀ n, (State.reset.viOf n).enabled = false) ∧
  (∀ pa, State.reset.mem.byte pa = 0) ∧ Memory.wf State.reset.mem = true

/-- O57. Every step keeps the canonical form of memory: no address is listed twice or out of order, nothing is listed that an unlisted address
reads as, and the registry names aligned words. -/
def Obligations.StepKeepsMemory : Prop :=
  ∀ s t, Memory.wf s.mem = true → step s = .next t → Memory.wf t.mem = true

/-- The value of a magnitude code of a format. -/
def Sys2Proof.magValue (f : FFmt) (c : Nat) : ℚ :=
  match f.decode c with
  | .fin _ m e => (m : ℚ) * (2 : ℚ) ^ e
  | _ => 0

/-- A magnitude code is what a rounding mode makes of a positive value x with a sign, among the finite values of the format (R82): nearest
with ties to the even code, or the nearest not larger, or not smaller, in magnitude. -/
def Sys2Proof.roundsTo (f : FFmt) (mode : RMode) (neg : Bool) (x : ℚ) (c : Nat) : Prop :=
  let down := magValue f c ≤ x ∧ ∀ k ≤ f.maxMag, magValue f k ≤ x → magValue f k ≤ magValue f c
  let up := x ≤ magValue f c ∧ ∀ k ≤ f.maxMag, x ≤ magValue f k → magValue f c ≤ magValue f k
  match mode with
  | .rne => ∀ k ≤ f.maxMag, |magValue f c - x| ≤ |magValue f k - x| ∧ (|magValue f c - x| = |magValue f k - x| → k ≠ c → c % 2 = 0)
  | .rz => down
  | .ru => if neg = true then down else up
  | .rd => if neg = true then up else down

/-- What one rounding of an exact value leaves: of a value that is not 0 what the format's rounding makes of it, of 0 a zero of the given
sign with no flag (R82, R152). -/
def Sys2Proof.oneRounding (f : FFmt) (mode : RMode) (ftz : Bool) (q : ℚ) (zero : Bool) (r : Nat × Flags) : Prop :=
  (q ≠ 0 → ∃ (neg : Bool) (num den : Nat) (e : Int), 0 < num ∧ 0 < den ∧ q = (if neg = true then -1 else 1) * ((num : ℚ) / den * (2 : ℚ) ^ e) ∧
    r = f.round mode ftz false neg num den e) ∧
  (q = 0 → r = (f.withSign zero 0, 0))

/-- O58. One rounding (R82 to R85, R152, R157): a result that does not overflow is the value of the format that the mode picks for the exact value, and NX is
raised exactly when it differs; one that overflows has an exact value beyond the largest finite value, OF and NX are raised, and the
result is as R83's table says; under ftz a result that would be subnormal is a zero of its sign, with UF and NX (R85). A sum, a
difference, a product and a product with an addend are the exact value of what was read, rounded once, the sign of an exact zero as R152
says; NaNs, infinities and 0 × ∞ as R84 says. FDOT4 rounds its exact sum once; the sign of its exact zero is the model's choice (log 59). -/
def Obligations.CorrectRounding : Prop :=
  (∀ f ∈ [fmtF32, fmtF16, fmtBF16, fmtE4M3, fmtE5M2, fmtE2M1, fmtXF40], ∀ mode nanovf neg (num den : Nat) (e : Int), 0 < num → 0 < den →
    let x : ℚ := (num : ℚ) / den * (2 : ℚ) ^ e
    let r := f.round mode false nanovf neg num den e
    (r.2 &&& flOF = 0 → ∃ c ≤ f.maxMag, r.1 = f.withSign neg c ∧ roundsTo f mode neg x c ∧ (r.2 &&& flNX = 0 ↔ magValue f c = x)) ∧
    (r.2 &&& flOF ≠ 0 → r.2 = flOF ||| flNX ∧ magValue f f.maxMag < x ∧
      (f.kind = .ieee → r.1 = if mode = .rne ∨ mode = .ru ∧ neg = false ∨ mode = .rd ∧ neg = true then f.infCode neg else f.withSign neg f.maxMag) ∧
      (f.kind = .e4m3 → r.1 = if nanovf = true then f.nanCode else f.withSign neg f.maxMag) ∧
      (f.kind = .noSpecial → r.1 = f.withSign neg f.maxMag)) ∧
    (let m := r.1 % 2 ^ (f.fbits + f.ebits)
     f.round mode true nanovf neg num den e = if 0 < m ∧ m < 2 ^ f.fbits then (f.withSign neg 0, flUF ||| flNX) else r)) ∧
  (∀ f ∈ [fmtF32, fmtF16, fmtBF16], ∀ (mode : RMode) ftz a b c,
    let x := f.read ftz a
    let y := f.read ftz b
    let z := f.read ftz c
    let fin := fun (v : FVal) => v.isNan = false ∧ v.isInf = false
    let bad := ((f.nanCode, flNV) : Nat × Flags)
    let quiet := fun (sig : Bool) => ((f.nanCode, if sig = true then flNV else 0) : Nat × Flags)
    let sign := x.neg != y.neg
    let inv := x.isZero = true ∧ y.isInf = true ∨ x.isInf = true ∧ y.isZero = true
    (fin x → fin y →
      oneRounding f mode ftz (x.rat + y.rat) (if x.isZero = true ∧ y.isZero = true ∧ x.neg = y.neg then x.neg else mode == .rd) (f.add mode ftz a b) ∧
      oneRounding f mode ftz (x.rat - y.rat) (if x.isZero = true ∧ y.isZero = true ∧ x.neg ≠ y.neg then x.neg else mode == .rd) (f.sub mode ftz a b) ∧
      oneRounding f mode ftz (x.rat * y.rat) sign (f.mul mode ftz a b) ∧
      (fin z → oneRounding f mode ftz (x.rat * y.rat + z.rat)
        (if (x.isZero = true ∨ y.isZero = true) ∧ z.isZero = true ∧ sign = z.neg then z.neg else mode == .rd) (f.fma mode ftz a b c))) ∧
    (x.isNan = true ∨ y.isNan = true →
      f.add mode ftz a b = quiet (x.isSig || y.isSig) ∧ f.sub mode ftz a b = quiet (x.isSig || y.isSig) ∧ f.mul mode ftz a b = quiet (x.isSig || y.isSig)) ∧
    (x.isNan = true ∨ y.isNan = true ∨ z.isNan = true → ¬inv → f.fma mode ftz a b c = quiet (x.isSig || y.isSig || z.isSig)) ∧
    (inv → f.mul mode ftz a b = bad ∧ f.fma mode ftz a b c = bad) ∧
    (x.isNan = false → y.isNan = false → x.isInf = true ∨ y.isInf = true →
      let first := if x.isInf = true then x.neg else y.neg
      let second := if x.isInf = true then x.neg else !y.neg
      f.add mode ftz a b = (if x.isInf = true ∧ y.isInf = true ∧ x.neg ≠ y.neg then bad else (f.infCode first, 0)) ∧
      f.sub mode ftz a b = (if x.isInf = true ∧ y.isInf = true ∧ x.neg = y.neg then bad else (f.infCode second, 0)) ∧
      (¬inv → f.mul mode ftz a b = (f.infCode sign, 0)) ∧
      (¬inv → z.isNan = false → f.fma mode ftz a b c = if z.isInf = true ∧ z.neg ≠ sign then bad else (f.infCode sign, 0))) ∧
    (fin x → fin y → z.isInf = true → f.fma mode ftz a b c = (f.infCode z.neg, 0))) ∧
  (∀ (e5 ftz : Bool) a b c,
    let f := if e5 = true then fmtE5M2 else fmtE4M3
    let part := fun (w k : Nat) => f.decode (w / 256 ^ k % 256)
    let z := fmtF32.read ftz c
    (z.isNan = false → z.isInf = false → (∀ k < 4, (part a k).isNan = false ∧ (part a k).isInf = false ∧ (part b k).isNan = false ∧ (part b k).isInf = false) →
      ∃ zero, oneRounding fmtF32 .rne ftz (z.rat + (part a 0).rat * (part b 0).rat + (part a 1).rat * (part b 1).rat + (part a 2).rat * (part b 2).rat +
        (part a 3).rat * (part b 3).rat) zero (fdot4 e5 ftz a b c)) ∧
    (z.isNan = true ∨ (∃ k < 4, (part a k).isNan = true ∨ (part b k).isNan = true) → (fdot4 e5 ftz a b c).1 = fmtF32.nanCode))

/-- O59. The codes of block scales and their values: 0, the subnormals, 0.25, 1.0, 16 and 31.5, and each code larger in value than the
code before it (R79). -/
def Obligations.BlockScaleCodes : Prop :=
  ∀ value : Nat → ℚ, value = (fun c => ((e3m5 c).1 : ℚ) * (2 : ℚ) ^ (e3m5 c).2) →
    value 0x00 = 0 ∧ value 0x01 = 1 / 2 ^ 7 ∧ value 0x1F = 31 / 2 ^ 7 ∧ value 0x20 = 1 / 4 ∧ value 0x5F = 63 / 64 ∧ value 0x60 = 1 ∧ value 0xE0 = 16 ∧
    value 0xFF = 63 / 2 ∧ ∀ c d, c < d → d < 256 → value c < value d

/-- O60. The identities of the reductions (R48): the codes of −0.0, of the infinities, and the ends of the 32-bit integers. -/
def Obligations.ReductionIdentities : Prop :=
  fmtF32.decode (redIdentity .addF32) = .fin true 0 (-149) ∧ fmtF32.decode (redIdentity .minF32) = .inf false ∧
  fmtF32.decode (redIdentity .maxF32) = .inf true ∧ redIdentity .addI32 = 0 ∧ redIdentity .or = 0 ∧ redIdentity .xor = 0 ∧
  (BitVec.ofNat 32 (redIdentity .and) : Word) = BitVec.allOnes 32 ∧ ((redIdentity .minSgn : Nat) : Int) = 2 ^ 31 - 1 ∧
  (BitVec.ofNat 32 (redIdentity .maxSgn) : Word).toInt = -(2 ^ 31) ∧ redIdentity .minUns = 2 ^ 32 - 1 ∧ redIdentity .maxUns = 0
end

