-- ==== Sys2Proof/Laws/Encoding.lean ====
section
/-! SUPPORT. The fields of an encoded word, format by format, and operands read back from their class and field. -/
namespace Sys2Proof

/-- A field between lower and higher ones. -/
theorem fld_mid {lo x hi p n : Nat} (hl : lo < 2 ^ p) (hx : x < 2 ^ n) : fld (lo + x * 2 ^ p + hi * 2 ^ (p + n)) p n = x := by
  unfold fld
  have h : lo + x * 2 ^ p + hi * 2 ^ (p + n) = lo + 2 ^ p * (x + 2 ^ n * hi) := by rw [Nat.pow_add]; ring
  rw [h, Nat.add_mul_div_left _ _ (Nat.two_pow_pos p), Nat.div_eq_of_lt hl, Nat.zero_add, Nat.add_mul_mod_self_left, Nat.mod_eq_of_lt hx]

theorem bit_lt (b : Bool) : bit b < 2 := by cases b <;> decide

@[simp] theorem bit_beq (b : Bool) : (bit b == 1) = b := by cases b <;> rfl

theorem Opnd.field_lt (o : Opnd) : o.field < 256 := by
  cases o with
  | v n => exact n.isLt
  | s n => have := n.isLt; simp only [Opnd.field]; omega
  | ind st k => have := k.isLt; cases st <;> simp only [Opnd.field] <;> omega
  | zero => simp [Opnd.field]
  | p n => have := n.isLt; simp only [Opnd.field]; omega
  | x k => have := k.isLt; simp only [Opnd.field]; omega
  | fsr => simp [Opnd.field]

theorem Opnd.cls_lt (o : Opnd) : o.cls < 4 := by cases o <;> simp [Opnd.cls]

/-- An operand is what its class and field name (R112, R113). -/
theorem opndOf_cls_field (o : Opnd) : opndOf o.cls o.field = o := by
  cases o with
  | v n => simp [Opnd.cls, Opnd.field, opndOf]
  | s n => simp [Opnd.cls, Opnd.field, opndOf]
  | ind st k => revert k; cases st <;> decide
  | zero => rfl
  | p n => revert n; decide
  | x k => revert k; decide
  | fsr => rfl

/-- An operand that is no reserved predicate shows no breach of subcode 1 (R112, R113). -/
theorem opndBad1_field (o : Opnd) : opndBad1 o.cls o.field = false := by
  cases o with
  | v n => rfl
  | s n => have := n.isLt; simp [Opnd.cls, Opnd.field, opndBad1]; exact decide_eq_false (by omega)
  | ind st k => revert k; cases st <;> decide
  | zero => rfl
  | p n => revert n; decide
  | x k => revert k; decide
  | fsr => rfl

theorem opndBad2_field (o : Opnd) : opndBad2 o.cls o.field = false := by
  cases o with
  | v n => rfl
  | s n => rfl
  | ind st k => rfl
  | zero => rfl
  | p n => revert n; decide
  | x k => revert k; decide
  | fsr => rfl

theorem predBad_field (o : Opnd) (h : o.reserved = false) : predBad o.cls o.field = false := by
  cases o with
  | v n => rfl
  | s n => rfl
  | ind st k => rfl
  | zero => rfl
  | p n => revert h; revert n; decide
  | x k => revert k; decide
  | fsr => rfl

/-- The low 15 bits of every word (R108). -/
theorem encHead_lt {op : Nat} (g : Guard) (ho : op < 512) : encHead op g < 2 ^ 15 := by
  have := g.pred.isLt
  have := bit_lt g.neg
  simp only [encHead]; omega

theorem head_fields {op : Nat} (g : Guard) (ho : op < 512) (hi : Nat) :
    opcodeOf (encHead op g + hi * 2 ^ 15) = op ∧ guardOf (encHead op g + hi * 2 ^ 15) = g := by
  have := g.pred.isLt
  have := bit_lt g.neg
  refine ⟨by simp only [opcodeOf, encHead]; omega, ?_⟩
  have h1 : fld (encHead op g + hi * 2 ^ 15) 9 5 = g.pred.toNat := by simp only [fld, encHead]; omega
  have h2 : fld (encHead op g + hi * 2 ^ 15) 14 1 = bit g.neg := by simp only [fld, encHead]; omega
  rw [guardOf, h1, h2]; simp

/-- The fields of a format A word (R111). -/
theorem encA_fields {op mods sel : Nat} (g : Guard) (d a b c : Opnd) (ho : op < 512) (hm : mods < 64) (hs : sel < 8) :
    let w := encA op g mods sel d a b c
    w < 2 ^ 64 ∧ opcodeOf w = op ∧ guardOf w = g ∧ fld w 15 8 = d.field ∧ fld w 23 8 = a.field ∧ fld w 31 8 = b.field ∧ fld w 39 8 = c.field ∧
      fld w 47 2 = d.cls ∧ fld w 49 2 = a.cls ∧ fld w 51 2 = b.cls ∧ fld w 53 2 = c.cls ∧ fld w 55 3 = sel ∧ fld w 58 6 = mods := by
  have := encHead_lt g ho
  have := d.field_lt; have := a.field_lt; have := b.field_lt; have := c.field_lt
  have := d.cls_lt; have := a.cls_lt; have := b.cls_lt; have := c.cls_lt
  intro w
  have hw : w = encHead op g + (d.field + a.field * 2 ^ 8 + b.field * 2 ^ 16 + c.field * 2 ^ 24 + d.cls * 2 ^ 32 + a.cls * 2 ^ 34 + b.cls * 2 ^ 36 +
      c.cls * 2 ^ 38 + sel * 2 ^ 40 + mods * 2 ^ 43) * 2 ^ 15 := by simp only [w, encA]; ring
  have hh := head_fields g ho (d.field + a.field * 2 ^ 8 + b.field * 2 ^ 16 + c.field * 2 ^ 24 + d.cls * 2 ^ 32 + a.cls * 2 ^ 34 + b.cls * 2 ^ 36 +
      c.cls * 2 ^ 38 + sel * 2 ^ 40 + mods * 2 ^ 43)
  rw [← hw] at hh
  refine ⟨by simp only [hw]; omega, hh.1, hh.2, ?_⟩
  generalize encHead op g = e at *
  clear hh
  refine ⟨?_, ?_, ?_, ?_, ?_, ?_, ?_, ?_, ?_, ?_⟩ <;> (simp only [fld, hw]; omega)

/-- The fields of a format B word (R114). -/
theorem encB_fields {op d a imm : Nat} (g : Guard) (u : Bool) (ho : op < 512) (hd : d < 256) (ha : a < 256) (hi : imm < 2 ^ 32) :
    let w := encB op g u d a imm
    w < 2 ^ 64 ∧ opcodeOf w = op ∧ guardOf w = g ∧ fld w 15 8 = d ∧ fld w 23 8 = a ∧ fld w 31 32 = imm ∧ fld w 63 1 = bit u := by
  have := encHead_lt g ho
  have := bit_lt u
  intro w
  have hw : w = encHead op g + (d + a * 2 ^ 8 + imm * 2 ^ 16 + bit u * 2 ^ 48) * 2 ^ 15 := by simp only [w, encB]; ring
  have hh := head_fields g ho (d + a * 2 ^ 8 + imm * 2 ^ 16 + bit u * 2 ^ 48)
  rw [← hw] at hh
  refine ⟨by simp only [hw]; omega, hh.1, hh.2, ?_⟩
  generalize encHead op g = e at *
  clear hh
  refine ⟨?_, ?_, ?_, ?_⟩ <;> (simp only [fld, hw]; omega)

/-- The fields of a format L word (R115). -/
theorem encL_fields {op order scope : Nat} (g : Guard) (l : LArgs) (ho : op < 512) (hr : order < 4) (hs : scope < 4) :
    let w := encL op g order scope l
    w < 2 ^ 64 ∧ opcodeOf w = op ∧ guardOf w = g ∧ fld w 36 2 = scope ∧ fld w 38 2 = order ∧ largsOf w = l := by
  have := encHead_lt g ho
  have := l.off.isLt; have := l.seg.isLt; have := l.a.isLt; have := l.t.isLt
  have := bit_lt l.aU; have := bit_lt l.tU
  intro w
  have hw : w = encHead op g + (l.t.toNat + l.a.toNat * 2 ^ 8 + bit l.aU * 2 ^ 16 + bit l.tU * 2 ^ 17 + l.seg.toNat * 2 ^ 18 + scope * 2 ^ 21 +
      order * 2 ^ 23 + l.off.toNat * 2 ^ 25) * 2 ^ 15 := by simp only [w, encL]; ring
  have hh := head_fields g ho (l.t.toNat + l.a.toNat * 2 ^ 8 + bit l.aU * 2 ^ 16 + bit l.tU * 2 ^ 17 + l.seg.toNat * 2 ^ 18 + scope * 2 ^ 21 +
      order * 2 ^ 23 + l.off.toNat * 2 ^ 25)
  rw [← hw] at hh
  refine ⟨by simp only [hw]; omega, hh.1, hh.2, ?_⟩
  generalize encHead op g = e at *
  clear hh
  have h1 : fld w 40 24 = l.off.toNat := by simp only [fld, hw]; omega
  have h2 : fld w 33 3 = l.seg.toNat := by simp only [fld, hw]; omega
  have h3 : fld w 32 1 = bit l.tU := by simp only [fld, hw]; omega
  have h4 : fld w 31 1 = bit l.aU := by simp only [fld, hw]; omega
  have h5 : fld w 23 8 = l.a.toNat := by simp only [fld, hw]; omega
  have h6 : fld w 15 8 = l.t.toNat := by simp only [fld, hw]; omega
  refine ⟨by simp only [fld, hw]; omega, by simp only [fld, hw]; omega, ?_⟩
  simp [largsOf, h1, h2, h3, h4, h5, h6]

/-- The fields of a format J word (R118). -/
theorem encJ_fields {op lnk off : Nat} (g : Guard) (ho : op < 512) (hl : lnk < 256) (hf : off < 2 ^ 32) :
    let w := encJ op g lnk off
    w < 2 ^ 64 ∧ opcodeOf w = op ∧ guardOf w = g ∧ fld w 15 32 = off ∧ fld w 47 8 = lnk ∧ fld w 55 9 = 0 := by
  have := encHead_lt g ho
  intro w
  have hw : w = encHead op g + (off + lnk * 2 ^ 32) * 2 ^ 15 := by simp only [w, encJ]; ring
  have hh := head_fields g ho (off + lnk * 2 ^ 32)
  rw [← hw] at hh
  refine ⟨by simp only [hw]; omega, hh.1, hh.2, ?_⟩
  generalize encHead op g = e at *
  clear hh
  refine ⟨?_, ?_, ?_⟩ <;> (simp only [fld, hw]; omega)

/-- The fields of a format Z word (R118). -/
theorem encZ_fields {op imm sel v sb sa : Nat} (g : Guard) (vBit : Bool) (ho : op < 512) (hi : imm < 2 ^ 24) (hs : sel < 16) (hv : v < 256)
    (hb : sb < 64) (ha : sa < 64) :
    let w := encZ op g imm vBit sel v sb sa
    w < 2 ^ 64 ∧ opcodeOf w = op ∧ guardOf w = g ∧ fld w 15 6 = sa ∧ fld w 21 6 = sb ∧ fld w 27 8 = v ∧ fld w 35 4 = sel ∧ fld w 39 1 = bit vBit ∧
      fld w 40 24 = imm := by
  have := encHead_lt g ho
  have := bit_lt vBit
  intro w
  have hw : w = encHead op g + (sa + sb * 2 ^ 6 + v * 2 ^ 12 + sel * 2 ^ 20 + bit vBit * 2 ^ 24 + imm * 2 ^ 25) * 2 ^ 15 := by
    simp only [w, encZ]; ring
  have hh := head_fields g ho (sa + sb * 2 ^ 6 + v * 2 ^ 12 + sel * 2 ^ 20 + bit vBit * 2 ^ 24 + imm * 2 ^ 25)
  rw [← hw] at hh
  refine ⟨by simp only [hw]; omega, hh.1, hh.2, ?_⟩
  generalize encHead op g = e at *
  clear hh
  refine ⟨?_, ?_, ?_, ?_, ?_, ?_⟩ <;> (simp only [fld, hw]; omega)

/-- The fields of a format M word (R117). -/
theorem encM_fields {op sel s v tb ta acc : Nat} (g : Guard) (p z : Bool) (ho : op < 512) (hl : sel < 16) (hs : s < 64) (hv : v < 256)
    (hb : tb < 16) (ha : ta < 16) (hc : acc < 8) :
    let w := encM op g p z sel s v tb ta acc
    w < 2 ^ 64 ∧ opcodeOf w = op ∧ guardOf w = g ∧ fld w 15 3 = acc ∧ fld w 18 4 = ta ∧ fld w 22 4 = tb ∧ fld w 26 8 = v ∧ fld w 34 6 = s ∧
      fld w 40 4 = sel ∧ fld w 44 1 = bit z ∧ fld w 45 1 = bit p ∧ fld w 46 18 = 0 := by
  have := encHead_lt g ho
  have := bit_lt p; have := bit_lt z
  intro w
  have hw : w = encHead op g + (acc + ta * 2 ^ 3 + tb * 2 ^ 7 + v * 2 ^ 11 + s * 2 ^ 19 + sel * 2 ^ 25 + bit z * 2 ^ 29 + bit p * 2 ^ 30) * 2 ^ 15 := by
    simp only [w, encM]; ring
  have hh := head_fields g ho (acc + ta * 2 ^ 3 + tb * 2 ^ 7 + v * 2 ^ 11 + s * 2 ^ 19 + sel * 2 ^ 25 + bit z * 2 ^ 29 + bit p * 2 ^ 30)
  rw [← hw] at hh
  refine ⟨by simp only [hw]; omega, hh.1, hh.2, ?_⟩
  generalize encHead op g = e at *
  clear hh
  refine ⟨?_, ?_, ?_, ?_, ?_, ?_, ?_, ?_, ?_⟩ <;> (simp only [fld, hw]; omega)

theorem Scope.code_lt (sc : Scope) : sc.code < 4 := by cases sc <;> decide
@[simp] theorem scopeOf_code (sc : Scope) : scopeOf sc.code = sc := by cases sc <;> rfl

/-- The fields of a format Y word (R116). -/
theorem encY_fields {op cmp ud uc ub ua : Nat} (g : Guard) (acq : AcqPart) (rel : Rel) (ho : op < 512) (hm : cmp < 8) (hd : ud < 64)
    (hc : uc < 64) (hb : ub < 64) (ha : ua < 64) :
    let w := encY op g acq rel cmp ud uc ub ua
    w < 2 ^ 64 ∧ opcodeOf w = op ∧ guardOf w = g ∧ fld w 15 6 = ua ∧ fld w 21 6 = ub ∧ fld w 27 6 = uc ∧ fld w 33 6 = ud ∧ fld w 39 3 = cmp ∧
      (fld w 42 1 == 1) = acq.isSome ∧ (fld w 45 1 == 1) = rel.isSome ∧
      (∀ sc m, acq = some (sc, m) → fld w 43 2 = sc.code ∧ fld w 48 16 = m.toNat) ∧ (acq = none → fld w 43 2 = 0 ∧ fld w 48 16 = 0) ∧
      (∀ sc, rel = some sc → fld w 46 2 = sc.code) ∧ (rel = none → fld w 46 2 = 0) := by
  have := encHead_lt g ho
  obtain ⟨a1, a2, a3, hA1, hA2, hA3, hacq⟩ : ∃ a1 a2 a3, a1 < 2 ∧ a2 < 4 ∧ a3 < 2 ^ 16 ∧
      (match acq with | some (sc, m) => 2 ^ 42 + sc.code * 2 ^ 43 + m.toNat * 2 ^ 48 | none => 0) = a1 * 2 ^ 42 + a2 * 2 ^ 43 + a3 * 2 ^ 48 ∧
      (a1 == 1) = acq.isSome ∧ (∀ sc m, acq = some (sc, m) → a2 = sc.code ∧ a3 = m.toNat) ∧ (acq = none → a2 = 0 ∧ a3 = 0) := by
    cases acq with
    | none => exact ⟨0, 0, 0, by omega, by omega, by omega, rfl, rfl, fun _ _ h => (nomatch h), fun _ => ⟨rfl, rfl⟩⟩
    | some q =>
      refine ⟨1, q.1.code, q.2.toNat, by omega, Scope.code_lt _, q.2.isLt, by simp, rfl, fun sc m h => ?_, fun h => (nomatch h)⟩
      cases h; exact ⟨rfl, rfl⟩
  obtain ⟨r1, r2, hR1, hR2, hrel⟩ : ∃ r1 r2, r1 < 2 ∧ r2 < 4 ∧
      (match rel with | some sc => 2 ^ 45 + sc.code * 2 ^ 46 | none => 0) = r1 * 2 ^ 45 + r2 * 2 ^ 46 ∧
      (r1 == 1) = rel.isSome ∧ (∀ sc, rel = some sc → r2 = sc.code) ∧ (rel = none → r2 = 0) := by
    cases rel with
    | none => exact ⟨0, 0, by omega, by omega, rfl, rfl, fun _ h => (nomatch h), fun _ => rfl⟩
    | some sc =>
      refine ⟨1, sc.code, by omega, Scope.code_lt _, by simp, rfl, fun c h => ?_, fun h => (nomatch h)⟩
      cases h; rfl
  obtain ⟨hacq, has, hac, han⟩ := hacq
  obtain ⟨hrel, hrs, hrc, hrn⟩ := hrel
  intro w
  have hw : w = encHead op g + (ua + ub * 2 ^ 6 + uc * 2 ^ 12 + ud * 2 ^ 18 + cmp * 2 ^ 24 + a1 * 2 ^ 27 + a2 * 2 ^ 28 + r1 * 2 ^ 30 + r2 * 2 ^ 31 +
      a3 * 2 ^ 33) * 2 ^ 15 := by
    have hy : w = encHead op g + ua * 2 ^ 15 + ub * 2 ^ 21 + uc * 2 ^ 27 + ud * 2 ^ 33 + cmp * 2 ^ 39 + (a1 * 2 ^ 42 + a2 * 2 ^ 43 + a3 * 2 ^ 48) +
        (r1 * 2 ^ 45 + r2 * 2 ^ 46) := by rw [← hacq, ← hrel]; rfl
    rw [hy]; ring
  have hh := head_fields g ho (ua + ub * 2 ^ 6 + uc * 2 ^ 12 + ud * 2 ^ 18 + cmp * 2 ^ 24 + a1 * 2 ^ 27 + a2 * 2 ^ 28 + r1 * 2 ^ 30 + r2 * 2 ^ 31 +
      a3 * 2 ^ 33)
  rw [← hw] at hh
  refine ⟨by simp only [hw]; omega, hh.1, hh.2, ?_⟩
  generalize encHead op g = e at *
  clear hh hacq hrel
  have f1 : fld w 42 1 = a1 := by simp only [fld, hw]; omega
  have f2 : fld w 43 2 = a2 := by simp only [fld, hw]; omega
  have f3 : fld w 48 16 = a3 := by simp only [fld, hw]; omega
  have f4 : fld w 45 1 = r1 := by simp only [fld, hw]; omega
  have f5 : fld w 46 2 = r2 := by simp only [fld, hw]; omega
  rw [f1, f2, f3, f4, f5]
  exact ⟨by simp only [fld, hw]; omega, by simp only [fld, hw]; omega, by simp only [fld, hw]; omega, by simp only [fld, hw]; omega,
    by simp only [fld, hw]; omega, has, hrs, hac, han, hrc, hrn⟩

end Sys2Proof
end

