-- ==== Sys2Proof/Laws/Exec.lean ====
section
/-! SUPPORT. One arm of `exec` each: which meaning an instruction has. -/
namespace Sys2Proof.Machine

theorem exec_iadd {g d a b} {s : State} : exec (.iadd g d a b) s = execIadd g d a b s := rfl
theorem exec_isub {g d a b} {s : State} : exec (.isub g d a b) s = execIsub g d a b s := rfl
theorem exec_imul {g d a b} {s : State} : exec (.imul g d a b) s = execImul g d a b s := rfl
theorem exec_imulh {g sgn d a b} {s : State} : exec (.imulh g sgn d a b) s = execImulh g sgn d a b s := rfl
theorem exec_imad {g d a b c} {s : State} : exec (.imad g d a b c) s = execImad g d a b c s := rfl
theorem exec_imin {g sgn d a b} {s : State} : exec (.imin g sgn d a b) s = execImin g sgn d a b s := rfl
theorem exec_imax {g sgn d a b} {s : State} : exec (.imax g sgn d a b) s = execImax g sgn d a b s := rfl
theorem exec_iabs {g d a} {s : State} : exec (.iabs g d a) s = execIabs g d a s := rfl
theorem exec_ineg {g d a} {s : State} : exec (.ineg g d a) s = execIneg g d a s := rfl
theorem exec_iaddSat {g sgn d a b} {s : State} : exec (.iaddSat g sgn d a b) s = execIaddSat g sgn d a b s := rfl
theorem exec_isubSat {g sgn d a b} {s : State} : exec (.isubSat g sgn d a b) s = execIsubSat g sgn d a b s := rfl
theorem exec_iaddX2 {g d a b} {s : State} : exec (.iaddX2 g d a b) s = execIaddX2 g d a b s := rfl
theorem exec_isubX2 {g d a b} {s : State} : exec (.isubX2 g d a b) s = execIsubX2 g d a b s := rfl
theorem exec_iminX2 {g sgn d a b} {s : State} : exec (.iminX2 g sgn d a b) s = execIminX2 g sgn d a b s := rfl
theorem exec_imaxX2 {g sgn d a b} {s : State} : exec (.imaxX2 g sgn d a b) s = execImaxX2 g sgn d a b s := rfl
theorem exec_and {g d a b} {s : State} : exec (.and g d a b) s = execAnd g d a b s := rfl
theorem exec_or {g d a b} {s : State} : exec (.or g d a b) s = execOr g d a b s := rfl
theorem exec_xor {g d a b} {s : State} : exec (.xor g d a b) s = execXor g d a b s := rfl
theorem exec_not {g d a} {s : State} : exec (.not g d a) s = execNot g d a s := rfl
theorem exec_shl {g d a b} {s : State} : exec (.shl g d a b) s = execShl g d a b s := rfl
theorem exec_shr {g d a b} {s : State} : exec (.shr g d a b) s = execShr g d a b s := rfl
theorem exec_sar {g d a b} {s : State} : exec (.sar g d a b) s = execSar g d a b s := rfl
theorem exec_rot {g d a b} {s : State} : exec (.rot g d a b) s = execRot g d a b s := rfl
theorem exec_bfe {g sgn d a b} {s : State} : exec (.bfe g sgn d a b) s = execBfe g sgn d a b s := rfl
theorem exec_bfi {g d a b c} {s : State} : exec (.bfi g d a b c) s = execBfi g d a b c s := rfl
theorem exec_popc {g d a} {s : State} : exec (.popc g d a) s = execPopc g d a s := rfl
theorem exec_clz {g d a} {s : State} : exec (.clz g d a) s = execClz g d a s := rfl
theorem exec_brev {g d a} {s : State} : exec (.brev g d a) s = execBrev g d a s := rfl
theorem exec_sel {g d a b c} {s : State} : exec (.sel g d a b c) s = execSel g d a b c s := rfl
theorem exec_mov {g d a} {s : State} : exec (.mov g d a) s = execMov g d a s := rfl
theorem exec_isetp {g sgn bop cmp d a b c} {s : State} : exec (.isetp g sgn bop cmp d a b c) s = execIsetp g sgn bop cmp d a b c s := rfl
theorem exec_lea {g sx sh d a b} {s : State} : exec (.lea g sx sh d a b) s = execLea g sx sh d a b s := rfl
theorem exec_iadd64 {g d a b} {s : State} : exec (.iadd64 g d a b) s = execIadd64 g d a b s := rfl
theorem exec_movi {g u d imm} {s : State} : exec (.movi g u d imm) s = execMovi g u d imm s := rfl
theorem exec_moviHi {g d imm} {s : State} : exec (.moviHi g d imm) s = execMoviHi g d imm s := rfl
theorem exec_moviSx {g d imm} {s : State} : exec (.moviSx g d imm) s = execMoviSx g d imm s := rfl
theorem exec_iaddImm {g u d a imm} {s : State} : exec (.iaddImm g u d a imm) s = execIaddImm g u d a imm s := rfl
theorem exec_imulImm {g u d a imm} {s : State} : exec (.imulImm g u d a imm) s = execImulImm g u d a imm s := rfl
theorem exec_andImm {g u d a imm} {s : State} : exec (.andImm g u d a imm) s = execAndImm g u d a imm s := rfl
theorem exec_orImm {g u d a imm} {s : State} : exec (.orImm g u d a imm) s = execOrImm g u d a imm s := rfl
theorem exec_xorImm {g u d a imm} {s : State} : exec (.xorImm g u d a imm) s = execXorImm g u d a imm s := rfl
theorem exec_shlImm {g u d a imm} {s : State} : exec (.shlImm g u d a imm) s = execShlImm g u d a imm s := rfl
theorem exec_shrImm {g u d a imm} {s : State} : exec (.shrImm g u d a imm) s = execShrImm g u d a imm s := rfl
theorem exec_sarImm {g u d a imm} {s : State} : exec (.sarImm g u d a imm) s = execSarImm g u d a imm s := rfl
theorem exec_leaImm {g u d a imm} {s : State} : exec (.leaImm g u d a imm) s = execLeaImm g u d a imm s := rfl
theorem exec_fadd {g rnd mods d a b} {s : State} : exec (.fadd g rnd mods d a b) s = execFadd g rnd mods d a b s := rfl
theorem exec_fsub {g rnd mods d a b} {s : State} : exec (.fsub g rnd mods d a b) s = execFsub g rnd mods d a b s := rfl
theorem exec_fmul {g rnd mods d a b} {s : State} : exec (.fmul g rnd mods d a b) s = execFmul g rnd mods d a b s := rfl
theorem exec_ffma {g rnd mods d a b c} {s : State} : exec (.ffma g rnd mods d a b c) s = execFfma g rnd mods d a b c s := rfl
theorem exec_fmin {g mods d a b} {s : State} : exec (.fmin g mods d a b) s = execFmin g mods d a b s := rfl
theorem exec_fmax {g mods d a b} {s : State} : exec (.fmax g mods d a b) s = execFmax g mods d a b s := rfl
theorem exec_fclamp {g mods d a b c} {s : State} : exec (.fclamp g mods d a b c) s = execFclamp g mods d a b c s := rfl
theorem exec_fsetp {g bop mods cmp d a b c} {s : State} : exec (.fsetp g bop mods cmp d a b c) s = execFsetp g bop mods cmp d a b c s := rfl
theorem exec_frnd {g rnd mods d a} {s : State} : exec (.frnd g rnd mods d a) s = execFrnd g rnd mods d a s := rfl
theorem exec_hadd2 {g bf mods d a b} {s : State} : exec (.hadd2 g bf mods d a b) s = execHadd2 g bf mods d a b s := rfl
theorem exec_hfma2 {g bf mods d a b c} {s : State} : exec (.hfma2 g bf mods d a b c) s = execHfma2 g bf mods d a b c s := rfl
theorem exec_fdot4 {g e5 mods d a b c} {s : State} : exec (.fdot4 g e5 mods d a b c) s = execFdot4 g e5 mods d a b c s := rfl
theorem exec_faddImm {g u d a imm} {s : State} : exec (.faddImm g u d a imm) s = execFaddImm g u d a imm s := rfl
theorem exec_fmulImm {g u d a imm} {s : State} : exec (.fmulImm g u d a imm) s = execFmulImm g u d a imm s := rfl
theorem exec_cvt {g dst src inK toJ rnd nanovf d a} {s : State} : exec (.cvt g dst src inK toJ rnd nanovf d a) s = execCvt g dst src inK toJ rnd nanovf d a s := rfl
theorem exec_cvtq {g slot d a b c} {s : State} : exec (.cvtq g slot d a b c) s = execCvtq g slot d a b c s := rfl
theorem exec_cvtqAuto {g slot d a c} {s : State} : exec (.cvtqAuto g slot d a c) s = execCvtqAuto g slot d a c s := rfl
theorem exec_cvtdq {g slot d a b c} {s : State} : exec (.cvtdq g slot d a b c) s = execCvtdq g slot d a b c s := rfl
theorem exec_bscale {g slot d a} {s : State} : exec (.bscale g slot d a) s = execBscale g slot d a s := rfl
theorem exec_exp2 {g mods d a b c} {s : State} : exec (.exp2 g mods d a b c) s = execExp2 g mods d a b c s := rfl
theorem exec_lg2 {g mods d a} {s : State} : exec (.lg2 g mods d a) s = execLg2 g mods d a s := rfl
theorem exec_rcp {g mods d a} {s : State} : exec (.rcp g mods d a) s = execRcp g mods d a s := rfl
theorem exec_rsq {g mods d a} {s : State} : exec (.rsq g mods d a) s = execRsq g mods d a s := rfl
theorem exec_sqrt {g mods d a} {s : State} : exec (.sqrt g mods d a) s = execSqrt g mods d a s := rfl
theorem exec_perm {g d a b c} {s : State} : exec (.perm g d a b c) s = execPerm g d a b c s := rfl
theorem exec_rfal {g d a} {s : State} : exec (.rfal g d a) s = execRfal g d a s := rfl
theorem exec_voteAny {g neg d a} {s : State} : exec (.voteAny g neg d a) s = execVoteAny g neg d a s := rfl
theorem exec_voteAll {g neg d a} {s : State} : exec (.voteAll g neg d a) s = execVoteAll g neg d a s := rfl
theorem exec_voteBallot {g neg d a} {s : State} : exec (.voteBallot g neg d a) s = execVoteBallot g neg d a s := rfl
theorem exec_redv {g op d a} {s : State} : exec (.redv g op d a) s = execRedv g op d a s := rfl
theorem exec_scanv {g op d a} {s : State} : exec (.scanv g op d a) s = execScanv g op d a s := rfl
theorem exec_scanvExcl {g op d a} {s : State} : exec (.scanvExcl g op d a) s = execScanvExcl g op d a s := rfl
theorem exec_pand {g negA negB d a b} {s : State} : exec (.pand g negA negB d a b) s = execPand g negA negB d a b s := rfl
theorem exec_por {g negA negB d a b} {s : State} : exec (.por g negA negB d a b) s = execPor g negA negB d a b s := rfl
theorem exec_pxor {g negA negB d a b} {s : State} : exec (.pxor g negA negB d a b) s = execPxor g negA negB d a b s := rfl
theorem exec_pnot {g negA d a} {s : State} : exec (.pnot g negA d a) s = execPnot g negA d a s := rfl
theorem exec_pmov {g negA d a} {s : State} : exec (.pmov g negA d a) s = execPmov g negA d a s := rfl
theorem exec_idxset {g f d a} {s : State} : exec (.idxset g f d a) s = execIdxset g f d a s := rfl
theorem exec_idxget {g f d a} {s : State} : exec (.idxget g f d a) s = execIdxget g f d a s := rfl
theorem exec_rpt {g steps stride count} {s : State} : exec (.rpt g steps stride count) s = execRpt g steps stride count s := rfl
theorem exec_ld {g sz sx l} {s : State} : exec (.ld g sz sx l) s = execLd g sz sx l s := rfl
theorem exec_st {g sz l} {s : State} : exec (.st g sz l) s = execSt g sz l s := rfl
theorem exec_lda {g sz sx sc l} {s : State} : exec (.lda g sz sx sc l) s = execLda g sz sx sc l s := rfl
theorem exec_stl {g sz sc l} {s : State} : exec (.stl g sz sc l) s = execStl g sz sc l s := rfl
theorem exec_pref {g l} {s : State} : exec (.pref g l) s = execPref g l s := rfl
theorem exec_prefL2 {g l} {s : State} : exec (.prefL2 g l) s = execPrefL2 g l s := rfl
theorem exec_stmap {g uc ub ua} {s : State} : exec (.stmap g uc ub ua) s = execStmap g uc ub ua s := rfl
theorem exec_stflush {g rel cmp ub ua} {s : State} : exec (.stflush g rel cmp ub ua) s = execStflush g rel cmp ub ua s := rfl
theorem exec_atom {g op sc l} {s : State} : exec (.atom g op sc l) s = execAtom g op sc l s := rfl
theorem exec_groupSubmission {g l} {s : State} : exec (.groupSubmission g l) s = execGroupSubmission g l s := rfl
theorem exec_red {g op sc l} {s : State} : exec (.red g op sc l) s = execRed g op sc l s := rfl
theorem exec_fence {g sc ud} {s : State} : exec (.fence g sc ud) s = execFence g sc ud s := rfl
theorem exec_acq {g sc mask} {s : State} : exec (.acq g sc mask) s = execAcq g sc mask s := rfl
theorem exec_rel {g sc} {s : State} : exec (.rel g sc) s = execRel g sc s := rfl
theorem exec_monw {g k cmp l} {s : State} : exec (.monw g k cmp l) s = execMonw g k cmp l s := rfl
theorem exec_wait {g all count d a b c} {s : State} : exec (.wait g all count d a b c) s = execWait g all count d a b c s := rfl
theorem exec_bar {g k d} {s : State} : exec (.bar g k d) s = execBar g k d s := rfl
theorem exec_barArrive {g k d} {s : State} : exec (.barArrive g k d) s = execBarArrive g k d s := rfl
theorem exec_evtAdd {g k d a} {s : State} : exec (.evtAdd g k d a) s = execEvtAdd g k d a s := rfl
theorem exec_evtSub {g k d a} {s : State} : exec (.evtSub g k d a) s = execEvtSub g k d a s := rfl
theorem exec_evtSet {g k d a} {s : State} : exec (.evtSet g k d a) s = execEvtSet g k d a s := rfl
theorem exec_cpy {g y} {s : State} : exec (.cpy g y) s = execCpy g y s := rfl
theorem exec_cpym {g y} {s : State} : exec (.cpym g y) s = execCpym g y s := rfl
theorem exec_gath {g y} {s : State} : exec (.gath g y) s = execGath g y s := rfl
theorem exec_coll {g y} {s : State} : exec (.coll g y) s = execColl g y s := rfl
theorem exec_mapset {g sr ta} {s : State} : exec (.mapset g sr ta) s = execMapset g sr ta s := rfl
theorem exec_mma {g p z tb ta acc} {s : State} : exec (.mma g p z tb ta acc) s = execMma g p z tb ta acc s := rfl
theorem exec_mmas {g p z lsel v tb ta acc} {s : State} : exec (.mmas g p z lsel v tb ta acc) s = execMmas g p z lsel v tb ta acc s := rfl
theorem exec_mzero {g p acc} {s : State} : exec (.mzero g p acc) s = execMzero g p acc s := rfl
theorem exec_accrdF32 {g r} {s : State} : exec (.accrdF32 g r) s = execAccrdF32 g r s := rfl
theorem exec_accrdPair {g r} {s : State} : exec (.accrdPair g r) s = execAccrdPair g r s := rfl
theorem exec_accrdI32 {g r} {s : State} : exec (.accrdI32 g r) s = execAccrdI32 g r s := rfl
theorem exec_accwrF32 {g r} {s : State} : exec (.accwrF32 g r) s = execAccwrF32 g r s := rfl
theorem exec_accwrI32 {g r} {s : State} : exec (.accwrI32 g r) s = execAccwrI32 g r s := rfl
theorem exec_mstat {g clr sr acc} {s : State} : exec (.mstat g clr sr acc) s = execMstat g clr sr acc s := rfl
theorem exec_bra {g off} {s : State} : exec (.bra g off) s = execBra g off s := rfl
theorem exec_brx {g lnk} {s : State} : exec (.brx g lnk) s = execBrx g lnk s := rfl
theorem exec_call {g lnk off} {s : State} : exec (.call g lnk off) s = execCall g lnk off s := rfl
theorem exec_ret {g lnk} {s : State} : exec (.ret g lnk) s = execRet g lnk s := rfl
theorem exec_exit {g} {s : State} : exec (.exit g) s = execExit g s := rfl
theorem exec_elect {g d} {s : State} : exec (.elect g d) s = execElect g d s := rfl
theorem exec_yield {g} {s : State} : exec (.yield g) s = execYield g s := rfl
theorem exec_nop {g} {s : State} : exec (.nop g) s = execNop g s := rfl
theorem exec_getsys {g x d} {s : State} : exec (.getsys g x d) s = execGetsys g x d s := rfl
theorem exec_trap {g code} {s : State} : exec (.trap g code) s = execTrap g code s := rfl
theorem exec_rtt {g} {s : State} : exec (.rtt g) s = execRtt g s := rfl
theorem exec_spawn {g rel ub ua} {s : State} : exec (.spawn g rel ub ua) s = execSpawn g rel ub ua s := rfl
theorem exec_spawnc {g rel uc ub ua} {s : State} : exec (.spawnc g rel uc ub ua) s = execSpawnc g rel uc ub ua s := rfl
theorem exec_uint {g payload sa} {s : State} : exec (.uint g payload sa) s = execUint g payload sa s := rfl
theorem exec_setseg {g seg sb sa} {s : State} : exec (.setseg g seg sb sa) s = execSetseg g seg sb sa s := rfl
theorem exec_setrgn {g entry sb sa} {s : State} : exec (.setrgn g entry sb sa) s = execSetrgn g entry sb sa s := rfl
theorem exec_tlbinvPage {g sb sa} {s : State} : exec (.tlbinvPage g sb sa) s = execTlbinvPage g sb sa s := rfl
theorem exec_tlbinvVi {g sb} {s : State} : exec (.tlbinvVi g sb) s = execTlbinvVi g sb s := rfl
theorem exec_tlbinvAll {g} {s : State} : exec (.tlbinvAll g) s = execTlbinvAll g s := rfl
theorem exec_icinvRange {g sb sa} {s : State} : exec (.icinvRange g sb sa) s = execIcinvRange g sb sa s := rfl
theorem exec_icinvAll {g} {s : State} : exec (.icinvAll g) s = execIcinvAll g s := rfl
theorem exec_setviHandler {g sb sa} {s : State} : exec (.setviHandler g sb sa) s = execSetviHandler g sb sa s := rfl
theorem exec_setviSwap {g sb sa} {s : State} : exec (.setviSwap g sb sa) s = execSetviSwap g sb sa s := rfl
theorem exec_setviPtroot {g sb sa} {s : State} : exec (.setviPtroot g sb sa) s = execSetviPtroot g sb sa s := rfl
theorem exec_setviState {g sb sa} {s : State} : exec (.setviState g sb sa) s = execSetviState g sb sa s := rfl
theorem exec_setviUint {g sb sa} {s : State} : exec (.setviUint g sb sa) s = execSetviUint g sb sa s := rfl
theorem exec_setviKeys {g sb sa} {s : State} : exec (.setviKeys g sb sa) s = execSetviKeys g sb sa s := rfl
theorem exec_setviKeybase {g sb sa} {s : State} : exec (.setviKeybase g sb sa) s = execSetviKeybase g sb sa s := rfl
theorem exec_clauseIssue {gid} {s : State} : exec (.clauseIssue gid) s = execClauseIssue gid s := rfl
theorem exec_longLatencyResult {gid k lanes} {s : State} : exec (.longLatencyResult gid k lanes) s = execLongLatencyResult gid k lanes s := rfl
theorem exec_laneUnpark {gid lane} {s : State} : exec (.laneUnpark gid lane) s = execLaneUnpark gid lane s := rfl
theorem exec_waitTimeout {gid lane} {s : State} : exec (.waitTimeout gid lane) s = execWaitTimeout gid lane s := rfl
theorem exec_monitorFire {gid k} {s : State} : exec (.monitorFire gid k) s = execMonitorFire gid k s := rfl
theorem exec_monitorPoll {gid k} {s : State} : exec (.monitorPoll gid k) s = execMonitorPoll gid k s := rfl
theorem exec_swapOut {gid} {s : State} : exec (.swapOut gid) s = execSwapOut gid s := rfl
theorem exec_reinstatement {gid} {s : State} : exec (.reinstatement gid) s = execReinstatement gid s := rfl
theorem exec_preemptionRequest {task} {s : State} : exec (.preemptionRequest task) s = execPreemptionRequest task s := rfl
theorem exec_preemptionSave {gid} {s : State} : exec (.preemptionSave gid) s = execPreemptionSave gid s := rfl
theorem exec_preemptionOverrun {gid} {s : State} : exec (.preemptionOverrun gid) s = execPreemptionOverrun gid s := rfl
theorem exec_preemptionSaveTimeout {gid} {s : State} : exec (.preemptionSaveTimeout gid) s = execPreemptionSaveTimeout gid s := rfl
theorem exec_timeSliceExpiry {die pair} {s : State} : exec (.timeSliceExpiry die pair) s = execTimeSliceExpiry die pair s := rfl
theorem exec_engineCommandEnqueue {gid} {s : State} : exec (.engineCommandEnqueue gid) s = execEngineCommandEnqueue gid s := rfl
theorem exec_engineCommandCompletion {cmd} {s : State} : exec (.engineCommandCompletion cmd) s = execEngineCommandCompletion cmd s := rfl
theorem exec_engineFault {cmd} {s : State} : exec (.engineFault cmd) s = execEngineFault cmd s := rfl
theorem exec_stashFillComplete {core line} {s : State} : exec (.stashFillComplete core line) s = execStashFillComplete core line s := rfl
theorem exec_stashFillFault {core line} {s : State} : exec (.stashFillFault core line) s = execStashFillFault core line s := rfl
theorem exec_matrixArrayQueueRoom {gid} {s : State} : exec (.matrixArrayQueueRoom gid) s = execMatrixArrayQueueRoom gid s := rfl
theorem exec_matrixStartTokenGrant {die} {s : State} : exec (.matrixStartTokenGrant die) s = execMatrixStartTokenGrant die s := rfl
theorem exec_lensLineRead {op core line} {s : State} : exec (.lensLineRead op core line) s = execLensLineRead op core line s := rfl
theorem exec_matrixOperationRetire {op} {s : State} : exec (.matrixOperationRetire op) s = execMatrixOperationRetire op s := rfl
theorem exec_referenceTick {s : State} : exec (.referenceTick) s = execReferenceTick s := rfl
theorem exec_dispatchRound {die} {s : State} : exec (.dispatchRound die) s = execDispatchRound die s := rfl
theorem exec_taskEnd {task} {s : State} : exec (.taskEnd task) s = execTaskEnd task s := rfl
theorem exec_completionRecordWrite {vi page} {s : State} : exec (.completionRecordWrite vi page) s = execCompletionRecordWrite vi page s := rfl
theorem exec_hostSubmission {vi page rec} {s : State} : exec (.hostSubmission vi page rec) s = execHostSubmission vi page rec s := rfl
theorem exec_hostSubmissionRetry {vi page rec} {s : State} : exec (.hostSubmissionRetry vi page rec) s = execHostSubmissionRetry vi page rec s := rfl
theorem exec_groupSubmissionRetry {gid} {s : State} : exec (.groupSubmissionRetry gid) s = execGroupSubmissionRetry gid s := rfl
theorem exec_submitPageWriteDrop {vi page} {s : State} : exec (.submitPageWriteDrop vi page) s = execSubmitPageWriteDrop vi page s := rfl
theorem exec_gridRangeDeal {grid} {s : State} : exec (.gridRangeDeal grid) s = execGridRangeDeal grid s := rfl
theorem exec_gridRangeExpansion {grid range} {s : State} : exec (.gridRangeExpansion grid range) s = execGridRangeExpansion grid range s := rfl
theorem exec_dieFence {die} {s : State} : exec (.dieFence die) s = execDieFence die s := rfl
theorem exec_ucieLinkDead {a b} {s : State} : exec (.ucieLinkDead a b) s = execUcieLinkDead a b s := rfl
theorem exec_bermoistPortDead {port} {s : State} : exec (.bermoistPortDead port) s = execBermoistPortDead port s := rfl
theorem exec_remoteChipUnreachable {chip} {s : State} : exec (.remoteChipUnreachable chip) s = execRemoteChipUnreachable chip s := rfl
theorem exec_fabricFlitReceive {port f} {s : State} : exec (.fabricFlitReceive port f) s = execFabricFlitReceive port f s := rfl
theorem exec_registrationRequest {ag pa mask val} {s : State} : exec (.registrationRequest ag pa mask val) s = execRegistrationRequest ag pa mask val s := rfl
theorem exec_revocation {pa} {s : State} : exec (.revocation pa) s = execRevocation pa s := rfl
theorem exec_writtenBack {pa} {s : State} : exec (.writtenBack pa) s = execWrittenBack pa s := rfl
theorem exec_notHeld {pa} {s : State} : exec (.notHeld pa) s = execNotHeld pa s := rfl
theorem exec_forward {ag pa} {s : State} : exec (.forward ag pa) s = execForward ag pa s := rfl
theorem exec_writeBack {pa} {s : State} : exec (.writeBack pa) s = execWriteBack pa s := rfl
theorem exec_lineEviction {ag pa} {s : State} : exec (.lineEviction ag pa) s = execLineEviction ag pa s := rfl
theorem exec_registrationSpill {pa} {s : State} : exec (.registrationSpill pa) s = execRegistrationSpill pa s := rfl
theorem exec_redPerform {k} {s : State} : exec (.redPerform k) s = execRedPerform k s := rfl
theorem exec_remoteStoreRefusal {k} {s : State} : exec (.remoteStoreRefusal k) s = execRemoteStoreRefusal k s := rfl
theorem exec_replReplicaUpdate {k} {s : State} : exec (.replReplicaUpdate k) s = execReplReplicaUpdate k s := rfl
theorem exec_homeMove {vi va die frame} {s : State} : exec (.homeMove vi va die frame) s = execHomeMove vi va die frame s := rfl
theorem exec_tableWalk {walker va acc} {s : State} : exec (.tableWalk walker va acc) s = execTableWalk walker va acc s := rfl
theorem exec_uncorrectableError {site} {s : State} : exec (.uncorrectableError site) s = execUncorrectableError site s := rfl
theorem exec_correctedError {die} {s : State} : exec (.correctedError die) s = execCorrectedError die s := rfl
theorem exec_uintDelivery {s : State} : exec (.uintDelivery) s = execUintDelivery s := rfl
theorem exec_coreRetirement {core} {s : State} : exec (.coreRetirement core) s = execCoreRetirement core s := rfl
theorem exec_routeRewrite {grid} {s : State} : exec (.routeRewrite grid) s = execRouteRewrite grid s := rfl
theorem exec_packageReset {s : State} : exec (.packageReset) s = execPackageReset s := rfl
theorem exec_flr {n} {s : State} : exec (.flr n) s = execFlr n s := rfl
theorem exec_hostBar2Read {n off len} {s : State} : exec (.hostBar2Read n off len) s = execHostBar2Read n off len s := rfl
theorem exec_hostBar2Write {n off bytes} {s : State} : exec (.hostBar2Write n off bytes) s = execHostBar2Write n off bytes s := rfl
theorem exec_spdmRequest {req} {s : State} : exec (.spdmRequest req) s = execSpdmRequest req s := rfl
theorem exec_nonceIssue {s : State} : exec (.nonceIssue) s = execNonceIssue s := rfl
theorem exec_debugTokenUnlock {token} {s : State} : exec (.debugTokenUnlock token) s = execDebugTokenUnlock token s := rfl
theorem exec_lifecycleDeploy {command} {s : State} : exec (.lifecycleDeploy command) s = execLifecycleDeploy command s := rfl
theorem exec_lifecycleReturn {command} {s : State} : exec (.lifecycleReturn command) s = execLifecycleReturn command s := rfl
theorem exec_errorBitClear {s : State} : exec (.errorBitClear) s = execErrorBitClear s := rfl
theorem exec_powerStateP0 {s : State} : exec (.powerStateP0) s = execPowerStateP0 s := rfl
theorem exec_powerStateP1 {s : State} : exec (.powerStateP1) s = execPowerStateP1 s := rfl
theorem exec_powerStateIdle {s : State} : exec (.powerStateIdle) s = execPowerStateIdle s := rfl
theorem exec_powerStateRetain {s : State} : exec (.powerStateRetain) s = execPowerStateRetain s := rfl
theorem exec_powerStateOff {s : State} : exec (.powerStateOff) s = execPowerStateOff s := rfl
theorem exec_powerStateEntry {s : State} : exec (.powerStateEntry) s = execPowerStateEntry s := rfl
theorem exec_pcapWrite {die val} {s : State} : exec (.pcapWrite die val) s = execPcapWrite die val s := rfl
theorem exec_didtWrite {die val} {s : State} : exec (.didtWrite die val) s = execDidtWrite die val s := rfl
theorem exec_trctlWrite {die val} {s : State} : exec (.trctlWrite die val) s = execTrctlWrite die val s := rfl
theorem exec_dlctlWrite {die val} {s : State} : exec (.dlctlWrite die val) s = execDlctlWrite die val s := rfl
theorem exec_errorCountClear {die unc} {s : State} : exec (.errorCountClear die unc) s = execErrorCountClear die unc s := rfl
theorem exec_registerWrite {off val} {s : State} : exec (.registerWrite off val) s = execRegisterWrite off val s := rfl
theorem exec_telemetryRecord {die} {s : State} : exec (.telemetryRecord die) s = execTelemetryRecord die s := rfl
theorem exec_thermalThrottle {die} {s : State} : exec (.thermalThrottle die) s = execThermalThrottle die s := rfl
theorem exec_servicePartitionMaskWrite {j mask} {s : State} : exec (.servicePartitionMaskWrite j mask) s = execServicePartitionMaskWrite j mask s := rfl
theorem exec_configRecordApply {n} {s : State} : exec (.configRecordApply n) s = execConfigRecordApply n s := rfl
theorem exec_configRecordQuiesceApply {n} {s : State} : exec (.configRecordQuiesceApply n) s = execConfigRecordQuiesceApply n s := rfl
theorem exec_submissionPageEnable {vi page} {s : State} : exec (.submissionPageEnable vi page) s = execSubmissionPageEnable vi page s := rfl
theorem exec_submissionPageDisable {vi page} {s : State} : exec (.submissionPageDisable vi page) s = execSubmissionPageDisable vi page s := rfl
theorem exec_engineLineWritten {part} {s : State} : exec (.engineLineWritten part) s = execEngineLineWritten part s := rfl
theorem exec_meshLinkRetirement {a b} {s : State} : exec (.meshLinkRetirement a b) s = execMeshLinkRetirement a b s := rfl
theorem exec_frameOwnerChange {die frame vi} {s : State} : exec (.frameOwnerChange die frame vi) s = execFrameOwnerChange die frame vi s := rfl
theorem exec_debugSessionAccess {vi op} {s : State} : exec (.debugSessionAccess vi op) s = execDebugSessionAccess vi op s := rfl
theorem exec_firmwareRestartComplete {s : State} : exec (.firmwareRestartComplete) s = execFirmwareRestartComplete s := rfl

end Sys2Proof.Machine
end

