-- ==== Sys2Proof/Laws/Store.lean ====
section
/-! SUPPORT. Sparse words: what a read gives after a write, and that every write keeps the canonical form. -/
namespace Sys2Proof.Machine

variable {w : Nat}

@[simp] theorem Store.get_nil (k : Nat) : Store.get ([] : Store w) k = 0 := rfl

theorem Store.get_filter_same (st : Store w) (k : Nat) : Store.get (st.filter (fun c => c.1 ≠ k)) k = 0 := by
  induction st with
  | nil => rfl
  | cons c r ih =>
    by_cases h : c.1 = k
    · simpa [List.filter_cons, h] using ih
    · simpa [List.filter_cons, h, Store.get] using ih

theorem Store.get_filter_ne (st : Store w) {k j : Nat} (h : j ≠ k) :
    Store.get (st.filter (fun c => c.1 ≠ k)) j = Store.get st j := by
  induction st with
  | nil => rfl
  | cons c r ih =>
    obtain ⟨n, x⟩ := c
    by_cases hn : n = k
    · subst hn
      simpa [List.filter_cons, Store.get, Ne.symm h] using ih
    · simp only [List.filter_cons, ne_eq, hn, not_false_eq_true, decide_true, if_true, Store.get]
      split
      · rfl
      · simpa using ih

theorem Store.get_insert_same (st : Store w) (k : Nat) (x : BitVec w) (h : ∀ c ∈ st, c.1 ≠ k) :
    Store.get (Store.insert st k x) k = x := by
  induction st with
  | nil => simp [Store.insert, Store.get]
  | cons c r ih =>
    obtain ⟨n, y⟩ := c
    have hn : n ≠ k := h (n, y) (by simp)
    have hr : ∀ c ∈ r, c.1 ≠ k := fun c hc => h c (by simp [hc])
    simp only [Store.insert]
    split
    · simp [Store.get]
    · simpa [Store.get, hn] using ih hr

theorem Store.get_insert_ne (st : Store w) {k j : Nat} (x : BitVec w) (h : j ≠ k) :
    Store.get (Store.insert st k x) j = Store.get st j := by
  induction st with
  | nil => simp [Store.insert, Store.get, Ne.symm h]
  | cons c r ih =>
    obtain ⟨n, y⟩ := c
    simp only [Store.insert]
    split
    · simp [Store.get, Ne.symm h]
    · simp only [Store.get, ih]

/-- A read of the key written gives the word written. -/
@[simp] theorem Store.get_set_same (st : Store w) (k : Nat) (x : BitVec w) : (st.set k x).get k = x := by
  unfold Store.set
  by_cases h : x = 0
  · simpa [h] using Store.get_filter_same st k
  · simp only [h, if_false]
    exact Store.get_insert_same _ _ _ (by intro c hc; simpa using (List.mem_filter.mp hc).2)

/-- A write leaves every other key alone. -/
theorem Store.get_set_ne (st : Store w) {k j : Nat} (x : BitVec w) (h : j ≠ k) : (st.set k x).get j = st.get j := by
  unfold Store.set
  by_cases hx : x = 0
  · simpa [hx] using Store.get_filter_ne st h
  · simp only [hx, if_false]
    rw [Store.get_insert_ne _ _ h, Store.get_filter_ne st h]

/-- A read after a write, at any key. -/
theorem Store.get_set (st : Store w) (k j : Nat) (x : BitVec w) : (st.set k x).get j = if j = k then x else st.get j := by
  split
  · subst j; exact Store.get_set_same st k x
  · exact Store.get_set_ne st x ‹_›

theorem Store.above_mono (st : Store w) {a b : Option Nat} (h : Store.above st b)
    (hab : ∀ n, a = some n → ∃ m, b = some m ∧ n ≤ m) : Store.above st a := by
  cases st with
  | nil => rfl
  | cons c r =>
    obtain ⟨k, x⟩ := c
    simp only [Store.above, Bool.and_eq_true] at h ⊢
    refine ⟨⟨?_, h.1.2⟩, h.2⟩
    cases a with
    | none => rfl
    | some n =>
      obtain ⟨m, rfl, hm⟩ := hab n rfl
      have : m < k := by simpa using h.1.1
      simpa using Nat.lt_of_le_of_lt hm this

theorem Store.above_filter (st : Store w) (t : Nat × BitVec w → Bool) {b : Option Nat} (h : Store.above st b) :
    Store.above (st.filter t) b := by
  induction st generalizing b with
  | nil => rfl
  | cons c r ih =>
    obtain ⟨k, x⟩ := c
    simp only [Store.above, Bool.and_eq_true] at h
    by_cases ht : t (k, x)
    · simp only [List.filter_cons, ht, if_true, Store.above, Bool.and_eq_true]
      exact ⟨h.1, ih h.2⟩
    · simp only [List.filter_cons, ht]
      refine Store.above_mono _ (ih h.2) ?_
      intro n hn
      subst hn
      exact ⟨k, rfl, Nat.le_of_lt (by simpa using h.1.1)⟩

theorem Store.above_insert (st : Store w) (k : Nat) (x : BitVec w) (hx : x ≠ 0) {b : Option Nat} (h : Store.above st b)
    (hk : ∀ n, b = some n → n < k) (hne : ∀ c ∈ st, c.1 ≠ k) : Store.above (Store.insert st k x) b := by
  induction st generalizing b with
  | nil =>
    cases b with
    | none => simpa [Store.insert, Store.above] using hx
    | some n => simpa [Store.insert, Store.above, hk n rfl] using hx
  | cons c r ih =>
    obtain ⟨n, y⟩ := c
    have hn : n ≠ k := hne (n, y) (by simp)
    have hr : ∀ c ∈ r, c.1 ≠ k := fun c hc => hne c (by simp [hc])
    simp only [Store.above, Bool.and_eq_true] at h
    simp only [Store.insert]
    split
    · rename_i hlt
      simp only [Store.above, Bool.and_eq_true]
      refine ⟨⟨?_, by simpa using hx⟩, ⟨by simpa using hlt, h.1.2⟩, h.2⟩
      cases b with
      | none => rfl
      | some m => simpa using hk m rfl
    · rename_i hge
      simp only [Store.above, Bool.and_eq_true]
      refine ⟨h.1, ih h.2 ?_ hr⟩
      intro m hm
      cases hm
      omega

/-- A write keeps the canonical form. -/
theorem Store.wf_set (st : Store w) (k : Nat) (x : BitVec w) (h : st.wf) : (st.set k x).wf := by
  unfold Store.set
  by_cases hx : x = 0
  · simp only [hx, if_true]
    exact Store.above_filter st _ h
  · simp only [hx, if_false]
    exact Store.above_insert _ _ _ hx (Store.above_filter st _ h) (by simp)
      (by intro c hc; simpa using (List.mem_filter.mp hc).2)

/-- Several writes keep the canonical form. -/
theorem Store.wf_setAll (st : Store w) (l : List (Nat × BitVec w)) (h : st.wf) : (st.setAll l).wf := by
  unfold Store.setAll
  induction l generalizing st with
  | nil => exact h
  | cons c r ih => exact ih _ (Store.wf_set st _ _ h)

/-- A write of bytes keeps the canonical form. -/
theorem Store.wf_write (st : Store 8) (a : Nat) (bs : List Byte) (h : st.wf) : (st.write a bs).wf := by
  induction bs generalizing st a with
  | nil => exact h
  | cons b r ih => exact ih _ _ (Store.wf_set st _ _ h)

/-- A byte outside the bytes written reads as before. -/
theorem Store.get_write_out (st : Store 8) (a : Nat) (bs : List Byte) {k : Nat} (h : k < a ∨ a + bs.length ≤ k) :
    (st.write a bs).get k = st.get k := by
  induction bs generalizing st a with
  | nil => rfl
  | cons b r ih =>
    simp only [List.length_cons] at h
    rw [Store.write, ih _ _ (by omega), Store.get_set_ne _ _ (by omega)]

/-- A byte inside the bytes written reads as written. -/
theorem Store.get_write_in (st : Store 8) (a : Nat) (bs : List Byte) {i : Nat} (h : i < bs.length) :
    (st.write a bs).get (a + i) = bs[i] := by
  induction bs generalizing st a i with
  | nil => simp at h
  | cons b r ih =>
    cases i with
    | zero => rw [Store.write, Store.get_write_out _ _ _ (by omega)]; simp
    | succ j =>
      have := ih (st.set a b) (a + 1) (i := j) (by simpa using h)
      simpa [Store.write, Nat.add_assoc, Nat.add_comm 1 j] using this

theorem Store.above_get_zero (st : Store w) {n : Nat} (h : Store.above st (some n)) {k : Nat} (hk : k ≤ n) : st.get k = 0 := by
  induction st generalizing n with
  | nil => rfl
  | cons c r ih =>
    obtain ⟨m, y⟩ := c
    simp only [Store.above, Bool.and_eq_true] at h
    have hm : n < m := by simpa using h.1.1
    have : m ≠ k := by omega
    simpa [Store.get, this] using ih h.2 (by omega)

/-- Two canonical lists that read alike are equal. -/
theorem Store.above_ext {s t : Store w} {b : Option Nat} (hs : Store.above s b) (ht : Store.above t b)
    (h : ∀ k, s.get k = t.get k) : s = t := by
  induction s generalizing t b with
  | nil =>
    cases t with
    | nil => rfl
    | cons c r =>
      obtain ⟨m, y⟩ := c
      simp only [Store.above, Bool.and_eq_true] at ht
      have := h m
      simp [Store.get] at this
      simp [← this] at ht
  | cons c r ih =>
    obtain ⟨n, x⟩ := c
    simp only [Store.above, Bool.and_eq_true] at hs
    cases t with
    | nil =>
      have := h n
      simp [Store.get] at this
      simp [this] at hs
    | cons d u =>
      obtain ⟨m, y⟩ := d
      simp only [Store.above, Bool.and_eq_true] at ht
      have hnm : n = m := by
        rcases Nat.lt_trichotomy n m with hlt | heq | hgt
        · have h1 := h n
          rw [show Store.get ((m, y) :: u) n = Store.get u n by simp [Store.get, Nat.ne_of_gt hlt],
            Store.above_get_zero u ht.2 (Nat.le_of_lt hlt)] at h1
          simp [Store.get] at h1
          simp [h1] at hs
        · exact heq
        · have h1 := h m
          rw [show Store.get ((n, x) :: r) m = Store.get r m by simp [Store.get, Nat.ne_of_gt hgt],
            Store.above_get_zero r hs.2 (Nat.le_of_lt hgt)] at h1
          simp [Store.get] at h1
          simp [← h1] at ht
      subst hnm
      have hxy : x = y := by simpa [Store.get] using h n
      subst hxy
      congr 1
      refine ih hs.2 ht.2 (fun k => ?_)
      by_cases hk : n = k
      · subst hk
        rw [Store.above_get_zero r hs.2 (Nat.le_refl _), Store.above_get_zero u ht.2 (Nat.le_refl _)]
      · simpa [Store.get, hk] using h k

end Sys2Proof.Machine
end

