-- ==== Sys2Proof/Laws/Group.lean ====
section
/-! SUPPORT. Registers of a group: what a read gives after a write, and which fields a write leaves alone. -/
namespace Sys2Proof.Machine

/-! ### Lanes of a mask -/

theorem mem_lanesOf {w : Nat} {m : DWord} {l : Nat} : l ∈ lanesOf w m ↔ l < w ∧ m.getLsbD l = true := by
  simp [lanesOf]

theorem lanesOf_lt {w : Nat} {m : DWord} {l : Nat} (h : l ∈ lanesOf w m) : l < 64 := by
  have := (mem_lanesOf.mp h).2
  by_contra hl
  rw [BitVec.getLsbD_of_ge _ _ (by omega)] at this
  exact absurd this (by simp)

theorem lanesOf_nodup (w : Nat) (m : DWord) : (lanesOf w m).Nodup := List.nodup_range.filter _

/-! ### One write -/

theorem Group.look_vset (g : Group) {n l : Nat} (w : Word) (hl : l < 64) {q : RegPlace} (hq : q.ok) :
    (g.vset n l w).look q = if q = .v n l then w.setWidth 64 else g.look q := by
  cases q with
  | v m k =>
    simp only [RegPlace.ok] at hq
    simp only [Group.look, Group.vset, Group.vget, Store.get_set, RegPlace.v.injEq]
    by_cases h : m = n ∧ k = l
    · simp [h]
    · have hk : m * 64 + k ≠ n * 64 + l := fun hk => h ⟨by omega, by omega⟩
      simp [h, hk]
  | s m => rfl
  | p m k => rfl
  | x m k => rfl

theorem Group.look_sset (g : Group) (n : Nat) (w : DWord) (q : RegPlace) :
    (g.sset n w).look q = if q = .s n then w else g.look q := by
  cases q with
  | v m k => rfl
  | s m => simp only [Group.look, Group.sset, Group.sget, Store.get_set, RegPlace.s.injEq]
  | p m k => rfl
  | x m k => rfl

theorem Group.look_xset (g : Group) {n l : Nat} (w : Word) (hl : l < 64) {q : RegPlace} (hq : q.ok) :
    (g.xset n l w).look q = if q = .x n l then w.setWidth 64 else g.look q := by
  cases q with
  | x m k =>
    simp only [RegPlace.ok] at hq
    simp only [Group.look, Group.xset, Group.xget, Store.get_set, RegPlace.x.injEq]
    by_cases h : m = n ∧ k = l
    · simp [h]
    · have hk : m * 64 + k ≠ n * 64 + l := fun hk => h ⟨by omega, by omega⟩
      simp [h, hk]
  | s m => rfl
  | p m k => rfl
  | v m k => rfl

theorem Group.pget_pset (g : Group) {n l m k : Nat} (b : Bool) (hl : l < 64) (hk : k < 64) :
    (g.pset n l b).pget m k = if m = n ∧ k = l then b else g.pget m k := by
  simp only [Group.pget, Group.pset, Store.get_set]
  by_cases hm : m = n
  · subst hm
    by_cases h : k = l
    · subst h
      cases b <;> simp [hk]
    · have hne : l ≤ k → k - l ≠ 0 := by omega
      cases b <;> simp [h, hk]
      · omega
      · intro h1 h2; omega
  · simp [hm]

theorem Group.look_pset (g : Group) {n l : Nat} (b : Bool) (hl : l < 64) {q : RegPlace} (hq : q.ok) :
    (g.pset n l b).look q = if q = .p n l then (if b then 1 else 0) else g.look q := by
  cases q with
  | p m k =>
    simp only [RegPlace.ok] at hq
    simp only [Group.look, Group.pget_pset g b hl hq, RegPlace.p.injEq]
    by_cases h : m = n ∧ k = l
    · simp [h]
    · simp [h]
  | s m => rfl
  | x m k => rfl
  | v m k => rfl

end Sys2Proof.Machine
end

