-- ==== Sys2Proof/Laws/Issue.lean ====
section
/-! SUPPORT. The issue of one instruction: what it answers when the instruction is ready, and how groups are replaced. -/
namespace Sys2Proof.Machine

/-! ### Replacing groups -/

theorem modWhere_modWhere {α : Type} (l : List α) (t : α → Bool) (f h : α → α) (hf : ∀ a, t a = true → t (f a) = true) :
    modWhere (modWhere l t f) t h = modWhere l t (fun a => h (f a)) := by
  simp only [modWhere, List.map_map]
  refine List.map_congr_left (fun a _ => ?_)
  by_cases ha : t a = true
  · simp [ha, hf a ha]
  · simp [ha]

/-- A group that is replaced and then changed is replaced by the changed group. -/
theorem State.modGroup_setGroup (s : State) (h : Group) (f : Group → Group) (hf : ∀ k : Group, k.gid = h.gid → (f k).gid = h.gid) :
    (s.setGroup h).modGroup h.gid f = s.setGroup (f h) := by
  have hg : (f h).gid = h.gid := hf h rfl
  simp only [State.modGroup, State.setGroup, hg]
  rw [modWhere_modWhere]
  · intro a _; simp

/-- Changing a group twice. -/
theorem State.modGroup_modGroup (s : State) (gid : Nat) (f h : Group → Group) (hf : ∀ k : Group, k.gid = gid → (f k).gid = gid) :
    (s.modGroup gid f).modGroup gid h = s.modGroup gid (fun k => h (f k)) := by
  simp only [State.modGroup]
  rw [modWhere_modWhere]
  intro a ha
  simp only [beq_iff_eq] at ha ⊢
  exact hf a ha

/-! ### The context -/

/-- The context of the current group holds that state. -/
theorem ctxOf_state {s : State} {gd : Guard} {x : Ctx} (h : ctxOf s gd = some x) : x.s = s := by
  simp only [ctxOf, Option.bind_eq_bind, Option.bind_eq_some_iff] at h
  obtain ⟨_, _, _, _, _, _, _, _, _, _, h⟩ := h
  simp only [Option.pure_def, Option.some.injEq] at h
  rw [← h]

/-- A lane that executes is a lane of the group. -/
theorem Ctx.lanes_lt {x : Ctx} {l : Nat} (h : l ∈ x.lanes) : l < 64 := lanesOf_lt h

theorem Ctx.workLanes_lt {x : Ctx} {d : Opnd} {l : Nat} (h : l ∈ x.workLanes d) : l < 64 := by
  cases d <;> simp only [Ctx.workLanes] at h <;> first | exact Ctx.lanes_lt h | (split at h <;> simp_all)

theorem Ctx.workLanes_nodup (x : Ctx) (d : Opnd) : (x.workLanes d).Nodup := by
  cases d <;> simp only [Ctx.workLanes] <;> first | exact lanesOf_nodup _ _ | (split <;> simp)

/-! ### A ready instruction -/

theorem maskOf_false {w : Nat} {f : Nat → Bool} (h : ∀ i, f i = false) : maskOf w f = 0 := by
  unfold maskOf
  generalize List.range w = r
  suffices ∀ m : DWord, r.foldl (fun m i => if f i then m ||| (1#64 <<< i) else m) m = m from this 0
  intro m
  induction r generalizing m with
  | nil => rfl
  | cons a t ih => simp [List.foldl_cons, h a, ih]

/-- In a group without poison no read raises a deferred error. -/
theorem regPoison_clean (x : Ctx) (gd : Guard) (nms : List Named) (h : x.g.clean = true) : regPoison x gd nms = none := by
  simp only [Group.clean, Bool.and_eq_true, List.isEmpty_iff] at h
  obtain ⟨⟨⟨hv, hs⟩, hp⟩, hx⟩ := h
  have hf : ∀ l : List FarRead, l.filter x.g.farBad = [] := fun l => by
    simp only [List.filter_eq_nil_iff, Group.farBad, hv, hs]
    intro r _
    split <;> simp
  have hn : ∀ nm : Named, nm.poison x = none := by
    intro nm
    unfold Named.poison
    split
    · rfl
    · split <;> simp [hv, hs, hp, hx, hf, Group.badPred, maskOf_false]
  have hi : ∀ nm : Named, nm.indexPoison x = none := by
    intro nm
    unfold Named.indexPoison
    split <;> simp [hx, maskOf_false]
  have hg : guardPoison x gd = none := by simp [guardPoison, Group.badPred, hp]
  simp [regPoison, hn, hi, hg]

/-- What a ready instruction answers: the effect of its body, the post-steps of its operands, and the clause goes on. -/
theorem issueDyn_ready {i : Instr} {dyn : Ctx → Option Nat} {nms : Ctx → List Named} {body : Ctx → Res} {s : State} {x : Ctx}
    (h : Runs i nms s x) (hd : dyn x = none) :
    issueDyn i dyn nms body s = .next (match body x with
      | .trap tr => x.raise tr
      | .hold s' => s'
      | .ok s' => s'.modGroup x.g.gid (fun g => (g.postStep x.act (nms x)).advance)) := by
  obtain ⟨hc, hr⟩ := h
  simp only [Ctx.ready, Bool.and_eq_true, Bool.not_eq_true', Bool.or_eq_true, Bool.and_eq_false_imp,
    Option.isNone_iff_eq_none] at hr
  obtain ⟨⟨⟨⟨⟨⟨ha, hp⟩, hs⟩, hb⟩, hcl⟩, hbu⟩, hx⟩ := hr
  have hown : (isService x.g.core && i.lacksService) = false := by
    cases hS : isService x.g.core
    · rfl
    · simpa [hS] using hs hS
  have hpriv : (i.privileged && !x.g.privileged x.t) = false := by
    rcases hp with hp | hp <;> simp [hp]
  have hill : illegalUse i dyn x = none := by
    simp [illegalUse, hown, hd, ha, hpriv]
  have hbz : (x.busy (nms x) && !skipsBusy i) = false := by rcases hbu with hbu | hbu <;> simp [hbu]
  have hcr : (isCrossLane i && x.heldBack) = false := by
    cases hX : isCrossLane i
    · rfl
    · simpa [hX] using hx hX
  simp only [issueDyn, hc, hill, hb, regPoison_clean x _ _ hcl, hbz, hcr, Bool.or_self, Bool.false_eq_true, if_false, Ctx.logIdle, hcl,
    if_true]
  cases body x <;> simp

/-- `issueDyn_ready` where one test says whether a use is illegal. -/
theorem issue_ready {i : Instr} {dyn : Ctx → Bool} {nms : Ctx → List Named} {body : Ctx → Res} {s : State} {x : Ctx}
    (h : Runs i nms s x) (hd : dyn x = false) :
    issue i dyn nms body s = .next (match body x with
      | .trap tr => x.raise tr
      | .hold s' => s'
      | .ok s' => s'.modGroup x.g.gid (fun g => (g.postStep x.act (nms x)).advance)) :=
  issueDyn_ready h (by simp [hd])

/-- Whether a group's own write can be made depends on how many bytes it writes, not on which (R304). -/
theorem groupPut_ok_length {s : State} {g : Group} {vi va : Nat} {as bs : List Byte} (h : as.length = bs.length) :
    (s.groupPut g vi va as).2 = (s.groupPut g vi va bs).2 := by
  simp only [State.groupPut, h]
  split
  · rfl
  · split <;> rfl

end Sys2Proof.Machine
end

