-- ==== Sys2Proof/Laws/LaneWise.lean ====
section
/-! SUPPORT. Lane-wise effects: what every register holds after the writes and post-steps of an instruction. -/
namespace Sys2Proof.Machine

/-! ### Post-steps (R55, R56) -/

theorem signed4_mod (st off : Nat) (hs : st < 16) (ho : off < 256) (up : Bool) :
    ((if up then (off : Int) + signed 4 st else (off : Int) - signed 4 st) % 256).toNat
      = (if up then off + (if st < 8 then st else st + 240) else off + 256 - (if st < 8 then st else st + 240)) % 256 := by
  have : signed 4 st = if st < 8 then (st : Int) else st - 16 := by
    simp only [signed]
    have h : st % 16 = st := Nat.mod_eq_of_lt hs
    norm_num
    rw [show (st : Int) % 16 = st by omega, h]
  rw [this]
  by_cases h8 : st < 8 <;> cases up <;> simp only [h8, if_true, if_false, Bool.false_eq_true] <;> omega

theorem steppedIndex_toNat (st : PostStep) (w : Word) (h : st ≠ .none) :
    (steppedIndex st w).toNat = w.toNat - fld w.toNat 16 8 * 2 ^ 16 +
      (((if st = .up then (fld w.toNat 16 8 : Int) + signed 4 (fld w.toNat 24 4) else (fld w.toNat 16 8 : Int) - signed 4 (fld w.toNat 24 4)) % 256).toNat) * 2 ^ 16 := by
  have hw := w.isLt
  have happ (a b : BitVec 8) (c : BitVec 16) : (a ++ b ++ c).toNat = a.toNat * 2 ^ 24 + b.toNat * 2 ^ 16 + c.toNat := by
    have hc := c.isLt
    have hb := b.isLt
    rw [BitVec.toNat_append, ← Nat.shiftLeft_add_eq_or_of_lt hc, BitVec.toNat_append, ← Nat.shiftLeft_add_eq_or_of_lt hb,
      Nat.shiftLeft_eq, Nat.shiftLeft_eq]
    omega
  have hse : ((w.extractLsb' 24 4).signExtend 8).toNat = if fld w.toNat 24 4 < 8 then fld w.toNat 24 4 else fld w.toNat 24 4 + 240 := by
    have h4 : (w.extractLsb' 24 4).toNat = fld w.toNat 24 4 := by
      simp [fld, Nat.shiftRight_eq_div_pow]
    rw [BitVec.toNat_signExtend, BitVec.msb_eq_decide]
    simp only [h4, BitVec.toNat_setWidth]
    have : fld w.toNat 24 4 < 16 := by simp only [fld]; omega
    by_cases h8 : fld w.toNat 24 4 < 8
    · rw [if_neg (by simpa using h8), if_pos h8]; omega
    · rw [if_pos (by simpa using h8), if_neg h8]; omega
  have hoff : (w.extractLsb' 16 8).toNat = fld w.toNat 16 8 := by
    simp [fld, Nat.shiftRight_eq_div_pow]
  have hhi : (w.extractLsb' 24 8).toNat = w.toNat / 2 ^ 24 := by
    simp only [BitVec.extractLsb'_toNat, Nat.shiftRight_eq_div_pow]; omega
  have hlo : (w.extractLsb' 0 16).toNat = w.toNat % 2 ^ 16 := by simp
  have hs : fld w.toNat 24 4 < 16 := by simp only [fld]; omega
  have ho : fld w.toNat 16 8 < 256 := by simp only [fld]; omega
  have hmod := signed4_mod _ _ hs ho
  have hfo : fld w.toNat 16 8 = w.toNat / 2 ^ 16 % 2 ^ 8 := rfl
  cases st with
  | none => exact absurd rfl h
  | up =>
    have hm := hmod true
    simp only [if_true] at hm
    simp only [steppedIndex, happ, if_true, hm, BitVec.toNat_add, hse, hoff, hhi, hlo]
    generalize (if fld w.toNat 24 4 < 8 then fld w.toNat 24 4 else fld w.toNat 24 4 + 240) = e
    rw [hfo]
    omega
  | down =>
    have hm := hmod false
    simp only [Bool.false_eq_true, if_false] at hm
    have hne : PostStep.down ≠ PostStep.up := by decide
    simp only [steppedIndex, happ, hne, if_false, hm, BitVec.toNat_sub, hse, hoff, hhi, hlo]
    have hel : (if fld w.toNat 24 4 < 8 then fld w.toNat 24 4 else fld w.toNat 24 4 + 240) < 256 := by
      split <;> omega
    generalize (if fld w.toNat 24 4 < 8 then fld w.toNat 24 4 else fld w.toNat 24 4 + 240) = e at hel ⊢
    rw [hfo]
    omega

/-- The post-step of an index register, as `Group.postStep` computes it. -/
theorem postStep_word (st : PostStep) (w : Word) (h : st ≠ .none) :
    BitVec.ofNat 32 (w.toNat - fld w.toNat 16 8 * 2 ^ 16 +
      (((if st = .up then (fld w.toNat 16 8 : Int) + signed 4 (fld w.toNat 24 4) else (fld w.toNat 16 8 : Int) - signed 4 (fld w.toNat 24 4)) % 256).toNat) * 2 ^ 16)
      = steppedIndex st w := by
  rw [← steppedIndex_toNat st w h, BitVec.ofNat_toNat, BitVec.setWidth_eq]

/-! ### Groups that differ in their registers only -/

/-- A group is another with other registers v, s, p and x. -/
def Group.regsOf (h g : Group) : Prop := h = { g with v := h.v, s := h.s, p := h.p, x := h.x }

theorem Group.regsOf_refl (g : Group) : g.regsOf g := rfl

theorem Group.regsOf_trans {a b c : Group} (h1 : a.regsOf b) (h2 : b.regsOf c) : a.regsOf c := by
  unfold Group.regsOf at *
  rw [h1, h2]

theorem Group.regsOf_clean {a b : Group} (h : a.regsOf b) (hc : b.clean = true) : a.clean = true := by
  unfold Group.regsOf at h
  rw [h]; exact hc

theorem Group.clean_iff (g : Group) : g.clean = true ↔ g.poisonV = [] ∧ g.poisonS = [] ∧ g.poisonP = [] ∧ g.poisonX = [] := by
  simp [Group.clean, and_assoc]

theorem Group.vset_regsOf {g : Group} (hc : g.clean = true) (n l : Nat) (w : Word) : (g.vset n l w).regsOf g := by
  obtain ⟨h, -, -, -⟩ := (Group.clean_iff g).mp hc
  simp only [Group.regsOf, Group.vset, h, List.filter_nil]

theorem Group.sset_regsOf {g : Group} (hc : g.clean = true) (n : Nat) (w : DWord) : (g.sset n w).regsOf g := by
  obtain ⟨-, h, -, -⟩ := (Group.clean_iff g).mp hc
  simp only [Group.regsOf, Group.sset, h, List.filter_nil]

theorem Group.xset_regsOf {g : Group} (hc : g.clean = true) (n l : Nat) (w : Word) : (g.xset n l w).regsOf g := by
  obtain ⟨-, -, -, h⟩ := (Group.clean_iff g).mp hc
  simp only [Group.regsOf, Group.xset, h, List.filter_nil]

theorem Group.pset_regsOf (g : Group) (n l : Nat) (b : Bool) : (g.pset n l b).regsOf g := rfl

/-- A fold of updates of registers updates registers only. -/
theorem foldl_regsOf {α : Type} (l : List α) (f : Group → α → Group) (hf : ∀ (h : Group) (a : α), h.clean = true → (f h a).regsOf h)
    {g : Group} (hc : g.clean = true) : (l.foldl f g).regsOf g := by
  induction l generalizing g with
  | nil => exact Group.regsOf_refl g
  | cons a t ih =>
    have h1 := hf g a hc
    exact Group.regsOf_trans (ih (Group.regsOf_clean h1 hc)) h1

/-- The clause goes on in the same way whatever the registers and the flags hold. -/
theorem Group.advance_regs (g : Group) (v : Store 32) (s : Store 64) (p : Store 64) (x : Store 32) (f : Flags) :
    ({ g with v := v, s := s, p := p, x := x, fsr := f }).advance = { g.advance with v := v, s := s, p := p, x := x, fsr := f } := by
  cases hc : g.clause with
  | none => simp only [Group.advance, hc]
  | some c =>
    simp only [Group.advance, hc]
    split
    · rfl
    · split <;> rfl

/-- Places depend on the registers v, s, p and x only. -/
theorem Group.look_congr {g h : Group} (hv : h.v = g.v) (hs : h.s = g.s) (hp : h.p = g.p) (hx : h.x = g.x) (q : RegPlace) :
    h.look q = g.look q := by
  cases g; cases h
  simp only at hv hs hp hx
  subst hv; subst hs; subst hp; subst hx
  cases q <;> rfl

theorem Group.advance_look (g : Group) (q : RegPlace) : g.advance.look q = g.look q := by
  have h : g.advance.v = g.v ∧ g.advance.s = g.s ∧ g.advance.p = g.p ∧ g.advance.x = g.x := by
    cases hc : g.clause with
    | none => simp only [Group.advance, hc, and_self]
    | some c =>
      simp only [Group.advance, hc]
      split
      · exact ⟨rfl, rfl, rfl, rfl⟩
      · split <;> exact ⟨rfl, rfl, rfl, rfl⟩
  exact Group.look_congr h.1 h.2.1 h.2.2.1 h.2.2.2 q

/-! ### Writes of one destination in several lanes -/

/-- A write of a lane's result (R140), at any place. -/
theorem Ctx.look_put (x : Ctx) (g : Group) (d : Opnd) {l : Nat} (w : Word) (hd : ∀ n, d ≠ .s n) (hl : l < 64) {q : RegPlace}
    (hq : q.ok) : (x.put g d l w.toNat).look q = if x.g.placeOf d l = some q then q.keeps w else g.look q := by
  cases d with
  | s n => exact absurd rfl (hd n)
  | v n =>
    simp only [Ctx.put, BitVec.ofNat_toNat, BitVec.setWidth_eq, Group.placeOf, Option.some.injEq, Group.look_vset g w hl hq,
      @eq_comm _ q]
    split
    · subst q; rfl
    · rfl
  | ind st k =>
    simp only [Ctx.put, BitVec.ofNat_toNat, BitVec.setWidth_eq, Group.placeOf, Option.some.injEq, Group.look_vset g w hl hq,
      @eq_comm _ q]
    split
    · subst q; rfl
    · rfl
  | x k =>
    simp only [Ctx.put, BitVec.ofNat_toNat, BitVec.setWidth_eq, Group.placeOf, Option.some.injEq, Group.look_xset g w hl hq,
      @eq_comm _ q]
    split
    · subst q; rfl
    · rfl
  | p n =>
    have key : (x.put g (.p n) l w.toNat).look q = (g.pset n.toNat l (w.toNat != 0)).look q := by
      cases q <;> rfl
    rw [key, Group.look_pset g _ hl hq]
    simp only [Group.placeOf, Option.some.injEq, @eq_comm _ q]
    split
    · subst q
      have : (w.toNat != 0) = true ↔ w ≠ 0 := by
        simp [bne_iff_ne, ← BitVec.toNat_inj]
      by_cases hw : w = 0
      · subst hw; rfl
      · simp [this, RegPlace.keeps]
    · rfl
  | zero => simp [Ctx.put, Group.placeOf]
  | fsr => simp [Ctx.put, Group.placeOf]

/-- Places that a destination names in two lanes are of those lanes. -/
theorem Group.placeOf_inj (g : Group) (d : Opnd) (hd : ∀ n, d ≠ .s n) {a b : Nat} {q : RegPlace} (ha : g.placeOf d a = some q)
    (hb : g.placeOf d b = some q) : a = b := by
  cases d <;> simp only [Group.placeOf, Option.some.injEq, reduceCtorEq] at ha hb
  · subst ha; simp only [RegPlace.v.injEq] at hb; exact hb.2.symm
  · exact absurd rfl (hd _)
  · subst ha; simp only [RegPlace.v.injEq] at hb; exact hb.2.symm
  · subst ha; simp only [RegPlace.p.injEq] at hb; exact hb.2.symm
  · subst ha; simp only [RegPlace.x.injEq] at hb; exact hb.2.symm

/-- After the results of several lanes are written, a place that the destination names in a lane holds that lane's result. -/
theorem Ctx.look_puts (x : Ctx) (d : Opnd) (hd : ∀ n, d ≠ .s n) (val : Nat → Word) {q : RegPlace} (hq : q.ok) (ls : List Nat)
    (hls : ∀ l ∈ ls, l < 64) (g : Group) :
    (∀ l ∈ ls, x.g.placeOf d l = some q → (ls.foldl (fun h l => x.put h d l (val l).toNat) g).look q = q.keeps (val l)) ∧
    ((∀ l ∈ ls, x.g.placeOf d l ≠ some q) → (ls.foldl (fun h l => x.put h d l (val l).toNat) g).look q = g.look q) := by
  induction ls generalizing g with
  | nil => simp
  | cons a t ih =>
    obtain ⟨ih1, ih2⟩ := ih (fun l h => hls l (by simp [h])) (x.put g d a (val a).toNat)
    have ha : a < 64 := hls a (by simp)
    refine ⟨?_, ?_⟩
    · intro l hl hp
      by_cases ht : ∃ m ∈ t, x.g.placeOf d m = some q
      · obtain ⟨m, hm, hpm⟩ := ht
        have : m = l := x.g.placeOf_inj d hd hpm hp
        subst this
        exact ih1 m hm hpm
      · have hne : ∀ m ∈ t, x.g.placeOf d m ≠ some q := fun m hm h => ht ⟨m, hm, h⟩
        rw [List.foldl_cons, ih2 hne, x.look_put g d (val a) hd ha hq]
        rcases List.mem_cons.mp hl with rfl | h
        · simp [hp]
        · exact absurd hp (hne l h)
    · intro hne
      rw [List.foldl_cons, ih2 (fun l h => hne l (by simp [h])), x.look_put g d (val a) hd ha hq, if_neg (hne a (by simp))]

theorem Ctx.put_regsOf (x : Ctx) {g : Group} (hc : g.clean = true) (d : Opnd) (l val : Nat) : (x.put g d l val).regsOf g := by
  cases d with
  | v n => exact Group.vset_regsOf hc _ _ _
  | ind st k => exact Group.vset_regsOf hc _ _ _
  | x k => exact Group.xset_regsOf hc _ _ _
  | s n => exact Group.regsOf_refl g
  | zero => exact Group.regsOf_refl g
  | fsr => exact Group.regsOf_refl g
  | p n =>
    obtain ⟨-, -, h, -⟩ := (Group.clean_iff g).mp hc
    have hp : x.put g (.p n) l val = { g.pset n.toNat l (val != 0) with poisonP := [] } := by simp only [Ctx.put, h, List.filter_nil]
    rw [hp, Group.regsOf, Group.pset_regsOf g n.toNat l (val != 0), h]

/-! ### Post-steps -/

theorem foldl_xset_look (g : Group) (k : Nat) (f : Word → Word) {q : RegPlace} (hq : q.ok) (ls : List Nat) (hls : ∀ l ∈ ls, l < 64)
    (hn : ls.Nodup) :
    (ls.foldl (fun u i => u.xset k i (f (u.xget k i))) g).look q =
      match q with
      | .x j l => if j = k ∧ l ∈ ls then (f (g.xget j l)).setWidth 64 else g.look q
      | _ => g.look q := by
  induction ls generalizing g with
  | nil => cases q <;> simp
  | cons a t ih =>
    have ha : a < 64 := hls a (by simp)
    obtain ⟨hat, hnt⟩ := List.nodup_cons.mp hn
    rw [List.foldl_cons, ih _ (fun l h => hls l (by simp [h])) hnt]
    cases q with
    | x j l =>
      have hx : (g.xset k a (f (g.xget k a))).look (.x j l) = if j = k ∧ l = a then (f (g.xget k a)).setWidth 64 else g.look (.x j l) := by
        rw [Group.look_xset g _ ha hq]; simp
      simp only [RegPlace.ok] at hq
      by_cases hj : j = k
      · subst hj
        by_cases hl : l = a
        · subst hl
          simp only [hat, and_false, if_false, hx, true_and, if_true, List.mem_cons, true_or]
        · have hg : (g.xset j a (f (g.xget j a))).xget j l = g.xget j l := by
            simp only [Group.xget, Group.xset]
            exact Store.get_set_ne _ _ (by omega)
          simp only [hg, hx, hl, and_false, if_false, List.mem_cons, false_or]
      · simp only [hj, false_and, if_false, hx]
    | v j l => exact Group.look_xset g _ ha hq
    | s j => exact Group.look_xset g _ ha hq
    | p j l => exact Group.look_xset g _ ha hq

theorem foldl_xset_regsOf {g : Group} (hc : g.clean = true) (k : Nat) (f : Word → Word) (ls : List Nat) :
    (ls.foldl (fun u i => u.xset k i (f (u.xget k i))) g).regsOf g :=
  foldl_regsOf ls _ (fun _ _ h => Group.xset_regsOf h _ _ _) hc

/-- One operand's post-step (R56). -/
def Group.stepOne (g : Group) (ls : List Nat) (o : Opnd) : Group :=
  match o with
  | .ind .none _ => g
  | .ind st k => ls.foldl (fun u i => u.xset k.toNat i (steppedIndex st (u.xget k.toNat i))) g
  | _ => g

theorem Group.postStep_eq (g : Group) (act : DWord) (nms : List Named) :
    g.postStep act nms = nms.foldl (fun h nm => match nm.use with | .op o _ => h.stepOne (lanesOf g.width act) o | _ => h) g := by
  unfold Group.postStep
  congr 1
  funext h nm
  have key : ∀ st : PostStep, st ≠ .none → ∀ k : Nat, ∀ l : List Nat, ∀ r : Group,
      (l.foldl (fun u i =>
        let x := u.xget k i
        let step := signed 4 (fld x.toNat 24 4)
        let off : Int := fld x.toNat 16 8
        let new := (if st = .up then off + step else off - step) % 256
        u.xset k i (BitVec.ofNat 32 (x.toNat - fld x.toNat 16 8 * 2 ^ 16 + new.toNat * 2 ^ 16))) r)
      = l.foldl (fun u i => u.xset k i (steppedIndex st (u.xget k i))) r := by
    intro st hst k l r
    congr 1
    funext u i
    simp only [postStep_word _ _ hst]
  obtain ⟨pos, use, rd⟩ := nm
  cases use with
  | op o cnt =>
    cases o with
    | ind st k =>
      cases st with
      | none => rfl
      | up => exact key .up (by decide) _ _ _
      | down => exact key .down (by decide) _ _ _
    | _ => rfl
  | _ => rfl

theorem Group.stepOne_regsOf {g : Group} (hc : g.clean = true) (ls : List Nat) (o : Opnd) : (g.stepOne ls o).regsOf g := by
  unfold Group.stepOne
  split
  · exact Group.regsOf_refl g
  · exact foldl_xset_regsOf hc _ _ _
  · exact Group.regsOf_refl g

/-- One operand's post-step, at any place. -/
theorem Group.stepOne_look (g : Group) (o : Opnd) {q : RegPlace} (hq : q.ok) (ls : List Nat) (hls : ∀ l ∈ ls, l < 64) (hn : ls.Nodup) :
    (g.stepOne ls o).look q = match q with
      | .x j l => if l ∈ ls then (steppedBy [o] j (g.xget j l)).setWidth 64 else g.look q
      | _ => g.look q := by
  have other : ∀ q : RegPlace, (match q with
      | .x j l => if l ∈ ls then g.look (.x j l) else g.look q
      | _ => g.look q) = g.look q := by
    intro q; cases q <;> simp
  cases o with
  | ind st k =>
    by_cases hst : st = .none
    · subst hst
      have := other q
      cases q with
      | x j l =>
        simp only [Group.stepOne, steppedBy, List.foldl_cons, List.foldl_nil, steppedIndex, ite_self]
        split <;> rfl
      | _ => rfl
    · have h1 : g.stepOne ls (.ind st k) = ls.foldl (fun u i => u.xset k.toNat i (steppedIndex st (u.xget k.toNat i))) g := by
        cases st with
        | none => exact absurd rfl hst
        | up => rfl
        | down => rfl
      rw [h1, foldl_xset_look g _ _ hq ls hls hn]
      cases q with
      | x j l =>
        simp only [steppedBy, List.foldl_cons, List.foldl_nil]
        by_cases hj : k.toNat = j
        · simp [hj]
        · have hj' : j ≠ k.toNat := fun h => hj h.symm
          simp only [hj', hj, false_and, if_false]
          split <;> rfl
      | _ => rfl
  | _ => exact (by cases q <;> first | rfl | (simp only [Group.stepOne, steppedBy, List.foldl_cons, List.foldl_nil]; split <;> rfl))

theorem steppedBy_cons (o : Opnd) (t : List Opnd) (k : Nat) (w : Word) : steppedBy (o :: t) k w = steppedBy t k (steppedBy [o] k w) := rfl

/-- The post-steps of several operands, at any place. -/
theorem Group.steps_look (ops : List Opnd) {q : RegPlace} (hq : q.ok) (ls : List Nat) (hls : ∀ l ∈ ls, l < 64) (hn : ls.Nodup)
    (g : Group) : (ops.foldl (fun h o => h.stepOne ls o) g).look q = match q with
      | .x j l => if l ∈ ls then (steppedBy ops j (g.xget j l)).setWidth 64 else g.look q
      | _ => g.look q := by
  induction ops generalizing g with
  | nil => cases q <;> first | rfl | (simp only [List.foldl_nil]; split <;> rfl)
  | cons o t ih =>
    rw [List.foldl_cons, ih]
    have h1 := g.stepOne_look o hq ls hls hn
    cases q with
    | x j l =>
      simp only at h1 ⊢
      by_cases hl : l ∈ ls
      · simp only [hl, if_true] at h1 ⊢
        have : (g.stepOne ls o).xget j l = steppedBy [o] j (g.xget j l) := by
          have h2 : ((g.stepOne ls o).xget j l).setWidth 64 = (steppedBy [o] j (g.xget j l)).setWidth 64 := h1
          have h3 := congrArg (BitVec.setWidth 32) h2
          simpa using h3
        rw [this, steppedBy_cons o t]
      · simpa [hl] using h1
    | _ => exact h1

theorem Group.steps_regsOf (ops : List Opnd) (ls : List Nat) {g : Group} (hc : g.clean = true) :
    (ops.foldl (fun h o => h.stepOne ls o) g).regsOf g :=
  foldl_regsOf ops _ (fun _ _ h => Group.stepOne_regsOf h ls _) hc

/-- The post-steps of the registers that an instruction names are those of its operands. -/
theorem Group.postStep_named (g : Group) (act : DWord) (nms : List Named) :
    g.postStep act nms = (namedOps nms).foldl (fun h o => h.stepOne (lanesOf g.width act) o) g := by
  rw [Group.postStep_eq]
  generalize lanesOf g.width act = ls
  induction nms generalizing g with
  | nil => rfl
  | cons nm t ih =>
    obtain ⟨pos, use, rd⟩ := nm
    cases use with
    | op o cnt => exact ih _
    | far l => exact ih _
    | tile n => exact ih _
    | acc n => exact ih _

theorem namedOps_namesA (d : Opnd) (srcs : List Opnd) : namedOps (namesA d srcs) = d :: srcs := by
  have : ∀ (j : Nat), namedOps (srcs.mapIdx (fun j' o => (⟨j' + j + 1, .op o 1, true⟩ : Named))) = srcs := by
    induction srcs with
    | nil => intro j; rfl
    | cons a t ih =>
      intro j
      have h := ih (j + 1)
      rw [List.mapIdx_cons]
      have hf : (fun (i : Nat) (o : Opnd) => (⟨i + 1 + j + 1, .op o 1, true⟩ : Named)) = fun i o => ⟨i + (j + 1) + 1, .op o 1, true⟩ := by
        funext i o
        have : i + 1 + j + 1 = i + (j + 1) + 1 := by omega
        rw [this]
      rw [hf]
      simp only [namedOps, List.filterMap_cons] at h ⊢
      rw [h]
  have h := this 0
  simp only [namedOps, namesA, List.filterMap_cons] at h ⊢
  simp only [Nat.add_zero] at h
  rw [h]

/-- What a group holds once its registers have been written, its flags raised, its operands stepped, and its clause moved on. -/
theorem Ctx.finish_spec (x : Ctx) (nms : List Named) (f : Flags) {g : Group} (hc : x.g.clean = true) (hr : g.regsOf x.g) :
    (∀ q : RegPlace, q.ok → ((((g.raiseFlags f).postStep x.act nms).advance).look q = x.afterSteps (namedOps nms) q (g.look q))) ∧
      (((g.raiseFlags f).postStep x.act nms).advance).movesOn x.g.advance f := by
  have hw : x.g.width = g.width := by unfold Group.regsOf at hr; rw [hr]
  have hfl : g.raiseFlags f = { g with fsr := x.g.fsr ||| f } := by
    unfold Group.regsOf at hr
    unfold Group.raiseFlags
    rw [hr]
  refine ⟨?_, ?_⟩
  · intro q hq
    rw [Group.advance_look, Group.postStep_named, Group.steps_look _ hq _ (fun l h => lanesOf_lt h) (lanesOf_nodup _ _), hfl]
    cases q with
    | x j l =>
      simp only [Ctx.afterSteps, Ctx.lanes, List.contains_eq_mem, decide_eq_true_eq, hw]
      by_cases hm : l ∈ lanesOf g.width x.act
      · simp only [hm, if_true, Group.look]
        have : ((g.xget j l).setWidth 64 : DWord).setWidth 32 = g.xget j l := by simp
        rw [this]; rfl
      · simp only [hm, if_false]; rfl
    | v j l => rfl
    | s j => rfl
    | p j l => rfl
  · have hclean : ({ g with fsr := x.g.fsr ||| f } : Group).clean = true := by
      have := Group.regsOf_clean hr hc
      exact this
    rw [hfl, Group.postStep_named]
    have h2 := Group.steps_regsOf (namedOps nms) (lanesOf g.width x.act) hclean
    have hgw : ({ g with fsr := x.g.fsr ||| f } : Group).width = g.width := rfl
    rw [hgw]
    generalize ((namedOps nms).foldl (fun h o => h.stepOne (lanesOf g.width x.act) o) { g with fsr := x.g.fsr ||| f }) = k at h2 ⊢
    have hk : k = { x.g with v := k.v, s := k.s, p := k.p, x := k.x, fsr := x.g.fsr ||| f } := by
      unfold Group.regsOf at h2 hr
      rw [h2, hr]
    have hf : x.g.advance.fsr = x.g.fsr := by
      unfold Group.advance
      split
      · rfl
      · split
        · rfl
        · split <;> rfl
    unfold Group.movesOn
    rw [hk, Group.advance_regs, hf]

theorem Group.postStep_gid (g : Group) (act : DWord) (nms : List Named) : (g.postStep act nms).gid = g.gid := by
  rw [Group.postStep_named]
  have : ∀ (ops : List Opnd) (ls : List Nat) (u : Group), (ops.foldl (fun h o => h.stepOne ls o) u).gid = u.gid := by
    intro ops ls
    induction ops with
    | nil => intro u; rfl
    | cons o t ih =>
      intro u
      rw [List.foldl_cons, ih]
      unfold Group.stepOne
      split
      · rfl
      · have : ∀ (l : List Nat) (k : Nat) (f : Word → Word) (u : Group), (l.foldl (fun u i => u.xset k i (f (u.xget k i))) u).gid = u.gid := by
          intro l k f
          induction l with
          | nil => intro u; rfl
          | cons a t ih => intro u; rw [List.foldl_cons, ih]; rfl
        exact this _ _ _ _
      · rfl
  exact this _ _ _

theorem Group.advance_gid (g : Group) : g.advance.gid = g.gid := by
  unfold Group.advance
  split
  · rfl
  · split
    · rfl
    · split <;> rfl

theorem Runs.clean {i : Instr} {nms : Ctx → List Named} {s : State} {x : Ctx} (h : Runs i nms s x) : x.g.clean = true := by
  have := h.2
  simp only [Ctx.ready, Bool.and_eq_true] at this
  exact this.1.1.2

/-- An instruction whose effect replaces its group by one with other registers and more flags. -/
theorem computes_of_issue {i : Instr} {dyn : Ctx → Option Nat} {nms : Ctx → List Named} {body : Ctx → Res} {s : State} {x : Ctx}
    (hexec : exec i s = issueDyn i dyn nms body s) (hx : Runs i nms s x) (hd : dyn x = none) {g : Group} {f : Flags}
    (hb : body x = .ok (x.s.setGroup (g.raiseFlags f))) (hr : g.regsOf x.g) :
    ∃ h, exec i s = .next (s.setGroup h) ∧ (∀ q : RegPlace, q.ok → h.look q = x.afterSteps (namedOps (nms x)) q (g.look q)) ∧
      h.movesOn x.g.advance f := by
  obtain ⟨h1, h2⟩ := x.finish_spec (nms x) f hx.clean hr
  refine ⟨_, ?_, h1, h2⟩
  rw [hexec, issueDyn_ready hx hd, hb, ctxOf_state hx.1]
  simp only
  have hgid : (g.raiseFlags f).gid = x.g.gid := by
    unfold Group.regsOf at hr
    rw [hr]; rfl
  rw [← hgid, State.modGroup_setGroup]
  intro k hk
  rw [Group.advance_gid, Group.postStep_gid, hk]

/-! ### A whole instruction -/

/-- The group after the results of a lane-wise instruction are written. -/
theorem Ctx.laneWise_spec (x : Ctx) (d : Opnd) (val : Nat → Word) (fl : Nat → Flags) (hc : x.g.clean = true) :
    ∃ g : Group, x.laneWise d (fun l => ((val l).toNat, fl l)) = { g with fsr := x.g.fsr ||| unionFlags ((x.workLanes d).map fl) } ∧ g.regsOf x.g ∧
      ∀ q : RegPlace, q.ok →
        (∀ l ∈ x.workLanes d, x.g.placeOf d l = some q → g.look q = q.keeps (val l)) ∧
        ((∀ l ∈ x.workLanes d, x.g.placeOf d l ≠ some q) → g.look q = x.g.look q) := by
  by_cases hd : ∃ n, d = .s n
  · obtain ⟨n, rfl⟩ := hd
    by_cases ha : x.any = true
    · refine ⟨x.g.sset n.toNat ((val 0).setWidth 64), ?_, Group.sset_regsOf hc _ _, ?_⟩
      · have : BitVec.ofNat 64 ((val 0).toNat % 4294967296) = (val 0).setWidth 64 := by
          have := (val 0).isLt
          apply BitVec.eq_of_toNat_eq
          simp only [BitVec.toNat_ofNat, BitVec.toNat_setWidth]
          omega
        simp only [Ctx.laneWise, Ctx.workLanes, ha, if_true, List.map_cons, List.map_nil, List.foldl_cons, List.foldl_nil, Group.raiseFlags,
          Nat.reducePow, this]
        rfl
      · intro q hq
        simp only [Ctx.workLanes, ha, if_true, List.mem_singleton, forall_eq, Group.placeOf, Option.some.injEq]
        refine ⟨?_, ?_⟩
        · rintro rfl
          rw [Group.look_sset, if_pos rfl]
          rfl
        · intro h
          rw [Group.look_sset, if_neg (fun e => h (by rw [e]))]
    · refine ⟨x.g, ?_, Group.regsOf_refl _, ?_⟩
      · simp [Ctx.laneWise, Ctx.workLanes, ha, Group.raiseFlags]
      · intro q _
        simp [Ctx.workLanes, ha]
  · have hd' : ∀ n, d ≠ .s n := fun n h => hd ⟨n, h⟩
    refine ⟨(x.workLanes d).foldl (fun h l => x.put h d l (val l).toNat) x.g, ?_, ?_, ?_⟩
    · have hm : ∀ (ls : List Nat) (g : Group), ((ls.map (fun l => (l, (val l).toNat, fl l))).foldl (fun h r => x.put h d r.1 r.2.1) g)
          = ls.foldl (fun h l => x.put h d l (val l).toNat) g := by
        intro ls g; rw [List.foldl_map]
      have hf : ∀ g : Group, g.regsOf x.g → g.raiseFlags (unionFlags ((x.workLanes d).map fl)) = { g with fsr := x.g.fsr ||| unionFlags ((x.workLanes d).map fl) } := by
        intro g hg
        unfold Group.regsOf at hg
        unfold Group.raiseFlags
        rw [hg]
      have hr : ((x.workLanes d).foldl (fun h l => x.put h d l (val l).toNat) x.g).regsOf x.g :=
        foldl_regsOf _ _ (fun _ _ h => x.put_regsOf h d _ _) hc
      rw [← hf _ hr, ← hm]
      unfold Ctx.laneWise
      cases d with
      | s n => exact absurd rfl (hd' n)
      | _ => simp only [List.map_map]; rfl
    · exact foldl_regsOf _ _ (fun _ _ h => x.put_regsOf h d _ _) hc
    · intro q hq
      exact x.look_puts d hd' val hq _ (fun l h => Ctx.workLanes_lt h) x.g

/-- An instruction that issues a lane-wise effect is lane-wise. -/
theorem laneWise_of_issue {i : Instr} {d : Opnd} {srcs : List Opnd} {f : Ctx → Nat → Nat × Flags} {val : Ctx → Nat → Word}
    {fl : Ctx → Nat → Flags} {s : State}
    (hexec : exec i s = issue i noDyn (fun _ => namesA d srcs) (fun x => .ok (x.s.setGroup (x.laneWise d (f x)))) s)
    {x : Ctx} (hx : Runs i (fun _ => namesA d srcs) s x) (hf : ∀ l, f x l = ((val x l).toNat, fl x l)) :
    ∃ h, exec i s = .next (s.setGroup h) ∧ x.wrote (d :: srcs) d (x.workLanes d) (val x) h
      ∧ h.movesOn x.g.advance (unionFlags ((x.workLanes d).map (fl x))) := by
  obtain ⟨g, hg, hr, hl⟩ := x.laneWise_spec d (val x) (fl x) hx.clean
  have hff : f x = fun l => ((val x l).toNat, fl x l) := funext hf
  have hb : (Res.ok (x.s.setGroup (x.laneWise d (f x)))) = .ok (x.s.setGroup (g.raiseFlags (unionFlags ((x.workLanes d).map (fl x))))) := by
    rw [hff, hg]
    unfold Group.regsOf at hr
    unfold Group.raiseFlags
    rw [hr]
  obtain ⟨h, he, hlook, hm⟩ := computes_of_issue (dyn := fun x => if noDyn x then some 3 else none) hexec hx rfl hb hr
  refine ⟨h, he, ⟨?_, ?_⟩, hm⟩
  · intro l hl' q hp
    have hq : q.ok := by
      have := Ctx.workLanes_lt hl'
      cases d <;> simp only [Group.placeOf, Option.some.injEq, reduceCtorEq] at hp <;> subst hp <;> first | exact this | trivial
    rw [hlook q hq, namedOps_namesA, (hl q hq).1 l hl' hp]
  · intro q hq hne
    rw [hlook q hq, namedOps_namesA, (hl q hq).2 hne]

/-- A lane-wise integer instruction (R142, R144): what the provers show of its result is one equation over the sources. -/
theorem laneWise_of_int {i : Instr} {d : Opnd} {srcs : List Opnd} {f : Ctx → Nat → Nat} {val : Ctx → Nat → Word}
    (hexec : ∀ s, exec i s = intLanes i d srcs f s) (hf : ∀ x l, f x l = (val x l).toNat) : LaneWise i d srcs val noFlags := by
  intro s x hx
  exact laneWise_of_issue (f := fun x l => (f x l, 0)) (hexec s) hx (fun l => by rw [hf]; rfl)

/-- A lane-wise floating instruction (R87, R137). -/
theorem laneWise_of_flt {i : Instr} {d : Opnd} {srcs : List Opnd} {f : Ctx → Nat → Nat × Flags} {val : Ctx → Nat → Word}
    {fl : Ctx → Nat → Flags} (hexec : ∀ s, exec i s = fltLanes i d srcs f s) (hf : ∀ x l, f x l = ((val x l).toNat, fl x l)) :
    LaneWise i d srcs val fl := by
  intro s x hx
  exact laneWise_of_issue (hexec s) hx (hf x)

/-! ### Lists of results -/

/-- One write of a list of results in registers; a predicate is written 1 or 0. -/
def Group.putPlace (g : Group) (q : RegPlace) (w : DWord) : Group :=
  match q with
  | .v n l => g.vset n l (w.setWidth 32)
  | .s n => g.sset n w
  | .p n l => g.pset n l (w != 0)
  | .x k l => g.xset k l (w.setWidth 32)

/-- Does a value fit the place? -/
def RegPlace.fits (q : RegPlace) (w : DWord) : Prop :=
  match q with
  | .v _ l | .x _ l => l < 64 ∧ (w.setWidth 32).setWidth 64 = w
  | .s _ => True
  | .p _ l => l < 64 ∧ (w = 0 ∨ w = 1)

theorem Group.look_putPlace (g : Group) {q r : RegPlace} {w : DWord} (hf : q.fits w) (hr : r.ok) :
    (g.putPlace q w).look r = if r = q then w else g.look r := by
  cases q with
  | v n l => simp only [Group.putPlace, RegPlace.fits] at *; rw [Group.look_vset g _ hf.1 hr, hf.2]
  | x n l => simp only [Group.putPlace, RegPlace.fits] at *; rw [Group.look_xset g _ hf.1 hr, hf.2]
  | s n => exact Group.look_sset g n w r
  | p n l =>
    simp only [Group.putPlace, RegPlace.fits] at *
    rw [Group.look_pset g _ hf.1 hr]
    rcases hf.2 with h | h <;> subst h <;> rfl

theorem Group.putPlace_regsOf {g : Group} (hc : g.clean = true) (q : RegPlace) (w : DWord) : (g.putPlace q w).regsOf g := by
  cases q with
  | v n l => exact Group.vset_regsOf hc _ _ _
  | s n => exact Group.sset_regsOf hc _ _
  | p n l => exact Group.pset_regsOf _ _ _ _
  | x n l => exact Group.xset_regsOf hc _ _ _

/-- A list of results in distinct places: each place holds its result, and every other place is unchanged. -/
theorem look_putPlaces (res : List (RegPlace × DWord)) (hn : (res.map Prod.fst).Nodup) (hf : ∀ r ∈ res, r.1.fits r.2) (g : Group) :
    (∀ r ∈ res, (res.foldl (fun h r => h.putPlace r.1 r.2) g).look r.1 = r.2) ∧
    (∀ q : RegPlace, q.ok → q ∉ res.map Prod.fst → (res.foldl (fun h r => h.putPlace r.1 r.2) g).look q = g.look q) := by
  induction res generalizing g with
  | nil => simp
  | cons a t ih =>
    rw [List.map_cons, List.nodup_cons] at hn
    obtain ⟨ih1, ih2⟩ := ih hn.2 (fun r hr => hf r (by simp [hr])) (g.putPlace a.1 a.2)
    have hok : ∀ r : RegPlace × DWord, r.1.fits r.2 → r.1.ok := by
      intro r h
      obtain ⟨q, w⟩ := r
      cases q <;> simp only [RegPlace.fits, RegPlace.ok] at * <;> exact h.1
    refine ⟨?_, ?_⟩
    · intro r hr
      rw [List.foldl_cons]
      rcases List.mem_cons.mp hr with rfl | h
      · rw [ih2 r.1 (hok r (hf r (by simp))) hn.1, g.look_putPlace (hf r (by simp)) (hok r (hf r (by simp))), if_pos rfl]
      · exact ih1 r h
    · intro q hq hne
      rw [List.map_cons, List.mem_cons, not_or] at hne
      rw [List.foldl_cons, ih2 q hq hne.2, g.look_putPlace (hf a (by simp)) hq, if_neg hne.1]

theorem putPlaces_regsOf (res : List (RegPlace × DWord)) {g : Group} (hc : g.clean = true) :
    (res.foldl (fun h r => h.putPlace r.1 r.2) g).regsOf g :=
  foldl_regsOf res _ (fun _ _ h => Group.putPlace_regsOf h _ _) hc

theorem find_modWhere_same {l : List Group} {gid : Nat} {g : Group} (f : Group → Group) (hf : ∀ k : Group, k.gid = gid → (f k).gid = gid)
    (h : l.find? (fun k => k.gid == gid) = some g) : (modWhere l (fun k => k.gid == gid) f).find? (fun k => k.gid == gid) = some (f g) := by
  induction l with
  | nil => simp at h
  | cons a t ih =>
    by_cases ha : a.gid = gid
    · rw [List.find?_cons_of_pos (by simpa using ha)] at h
      obtain rfl := Option.some.inj h
      simp [modWhere, ha, hf a ha]
    · rw [List.find?_cons_of_neg (by simpa using ha)] at h
      have := ih h
      simp only [modWhere, List.map_cons, beq_iff_eq, ha, if_false] at this ⊢
      rw [List.find?_cons_of_neg (by simpa using ha)]
      exact this

theorem find_modWhere_ne {l : List Group} {gid j : Nat} (f : Group → Group) (hf : ∀ k : Group, k.gid = gid → (f k).gid = gid)
    (hj : j ≠ gid) : (modWhere l (fun k => k.gid == gid) f).find? (fun k => k.gid == j) = l.find? (fun k => k.gid == j) := by
  induction l with
  | nil => rfl
  | cons a t ih =>
    simp only [modWhere] at ih
    by_cases ha : a.gid = gid
    · have h1 : ¬ (f a).gid = j := by rw [hf a ha]; exact fun e => hj e.symm
      have h2 : ¬ a.gid = j := by rw [ha]; exact fun e => hj e.symm
      rw [List.find?_cons_of_neg (by simpa using h2)]
      simp only [modWhere, List.map_cons, ha, beq_self_eq_true, if_true]
      rw [List.find?_cons_of_neg (by simpa using h1)]
      exact ih
    · by_cases hb : a.gid = j
      · subst hb
        simp [modWhere, hj]
      · simp only [modWhere, List.map_cons, beq_iff_eq, ha, if_false] at ih ⊢
        rw [List.find?_cons_of_neg (by simpa using hb), List.find?_cons_of_neg (by simpa using hb)]
        exact ih

theorem map_gid_modWhere (l : List Group) (gid : Nat) (f : Group → Group) (hf : ∀ k : Group, k.gid = gid → (f k).gid = gid) :
    (modWhere l (fun k => k.gid == gid) f).map Group.gid = l.map Group.gid := by
  simp only [modWhere, List.map_map]
  refine List.map_congr_left (fun a _ => ?_)
  by_cases ha : a.gid = gid <;> simp [ha, hf]

/-- Replacing a group changes only that group. -/
theorem State.setGroup_onlyGroup {s : State} {h g : Group} (hg : s.group? h.gid = some g) : (s.setGroup h).onlyGroup s h :=
  ⟨rfl, map_gid_modWhere _ _ _ (fun _ _ => rfl), find_modWhere_same (fun _ => h) (fun _ _ => rfl) hg,
    fun _ hj => find_modWhere_ne _ (fun _ _ => rfl) hj⟩

/-- Changing a group changes only that group. -/
theorem State.modGroup_onlyGroup {s : State} {g : Group} (f : Group → Group) (hg : s.group? g.gid = some g)
    (hf : ∀ k : Group, (f k).gid = k.gid) : (s.modGroup g.gid f).onlyGroup s (f g) := by
  have h1 : ∀ k : Group, k.gid = g.gid → (f k).gid = g.gid := fun k hk => by rw [hf k, hk]
  have hfg := hf g
  refine ⟨rfl, map_gid_modWhere _ _ _ h1, ?_, ?_⟩
  · rw [hfg]; exact find_modWhere_same f h1 hg
  · rw [hfg]; exact fun _ hj => find_modWhere_ne _ h1 hj

/-- The context's group is the state's. -/
theorem ctxOf_group {s : State} {gd : Guard} {x : Ctx} (h : ctxOf s gd = some x) : s.group? x.g.gid = some x.g := by
  simp only [ctxOf, Option.bind_eq_bind, Option.bind_eq_some_iff] at h
  obtain ⟨gid, _, g, hg, _, _, _, _, _, _, h⟩ := h
  simp only [Option.pure_def, Option.some.injEq] at h
  rw [← h]
  have := List.find?_some (by simpa [State.group?] using hg)
  simp only [beq_iff_eq] at this
  simpa [this] using hg

/-- An instruction that writes a list of results computes them: the provers show that its effect is that list. -/
theorem computes_of_places {i : Instr} {dyn : Ctx → Option Nat} {nms : Ctx → List Named} {body : Ctx → Res} {ok : Ctx → Prop}
    {res : Ctx → List (RegPlace × DWord)} {fl : Ctx → Flags} (hexec : ∀ s, exec i s = issueDyn i dyn nms body s)
    (hd : ∀ x, ok x → dyn x = none)
    (hb : ∀ x, x.g.clean = true → ok x → body x = .ok (x.s.setGroup (((res x).foldl (fun h r => h.putPlace r.1 r.2) x.g).raiseFlags (fl x))))
    (hn : ∀ x, ok x → ((res x).map Prod.fst).Nodup) (hf : ∀ x, ok x → ∀ r ∈ res x, r.1.fits r.2) :
    Computes i nms ok res fl := by
  intro s x hx hok
  obtain ⟨l1, l2⟩ := look_putPlaces (res x) (hn x hok) (hf x hok) x.g
  obtain ⟨h, he, hl, hm⟩ := computes_of_issue (hexec s) hx (hd x hok) (hb x hx.clean hok) (putPlaces_regsOf (res x) hx.clean)
  have hgid : h.gid = x.g.gid := by
    unfold Group.movesOn at hm
    rw [hm]
    exact Group.advance_gid _
  refine ⟨_, h, he, State.setGroup_onlyGroup (by rw [hgid]; exact ctxOf_group hx.1), ⟨?_, ?_⟩, hm⟩
  · intro r hr
    have hro : r.1.ok := by
      have := hf x hok r hr
      obtain ⟨q, w⟩ := r
      cases q <;> simp only [RegPlace.fits, RegPlace.ok] at * <;> exact this.1
    rw [hl _ hro, l1 r hr]
  · intro q hq hne
    rw [hl q hq, l2 q hq hne]

/-! ### Sources -/

theorem Ctx.src_eq (x : Ctx) (o : Opnd) (l : Nat) : x.src o l = (x.g.word o l).toNat := by
  cases o with
  | p n => simp only [Ctx.src, Group.word, bit]; split <;> rfl
  | s n => simp [Ctx.src, Group.word]
  | fsr => simp [Ctx.src, Group.word]; omega
  | _ => rfl

end Sys2Proof.Machine
end

