-- ==== Sys2Proof/Laws/State.lean ====
section
/-! SUPPORT. Each named update of the state, field by field: what it changes, and that it changes nothing else. -/
namespace Sys2Proof.Machine

/-! ### setGroup -/

@[simp] theorem State.setGroup_inputs (s : State) (g : Group) : (s.setGroup g).inputs = s.inputs := rfl
@[simp] theorem State.setGroup_cur (s : State) (g : Group) : (s.setGroup g).cur = s.cur := rfl
@[simp] theorem State.setGroup_fresh (s : State) (g : Group) : (s.setGroup g).fresh = s.fresh := rfl
@[simp] theorem State.setGroup_nextId (s : State) (g : Group) : (s.setGroup g).nextId = s.nextId := rfl
@[simp] theorem State.setGroup_beat (s : State) (g : Group) : (s.setGroup g).beat = s.beat := rfl
@[simp] theorem State.setGroup_rounds (s : State) (g : Group) : (s.setGroup g).rounds = s.rounds := rfl
@[simp] theorem State.setGroup_tick (s : State) (g : Group) : (s.setGroup g).tick = s.tick := rfl
@[simp] theorem State.setGroup_groups (s : State) (g : Group) : (s.setGroup g).groups = modWhere s.groups (fun x => x.gid == g.gid) (fun _ => g) := rfl
@[simp] theorem State.setGroup_tasks (s : State) (g : Group) : (s.setGroup g).tasks = s.tasks := rfl
@[simp] theorem State.setGroup_grids (s : State) (g : Group) : (s.setGroup g).grids = s.grids := rfl
@[simp] theorem State.setGroup_mem (s : State) (g : Group) : (s.setGroup g).mem = s.mem := rfl
@[simp] theorem State.setGroup_vis (s : State) (g : Group) : (s.setGroup g).vis = s.vis := rfl
@[simp] theorem State.setGroup_pages (s : State) (g : Group) : (s.setGroup g).pages = s.pages := rfl
@[simp] theorem State.setGroup_queues (s : State) (g : Group) : (s.setGroup g).queues = s.queues := rfl
@[simp] theorem State.setGroup_entries (s : State) (g : Group) : (s.setGroup g).entries = s.entries := rfl
@[simp] theorem State.setGroup_regs31 (s : State) (g : Group) : (s.setGroup g).regs31 = s.regs31 := rfl
@[simp] theorem State.setGroup_dues (s : State) (g : Group) : (s.setGroup g).dues = s.dues := rfl
@[simp] theorem State.setGroup_keys (s : State) (g : Group) : (s.setGroup g).keys = s.keys := rfl
@[simp] theorem State.setGroup_reservedCores (s : State) (g : Group) : (s.setGroup g).reservedCores = s.reservedCores := rfl
@[simp] theorem State.setGroup_turns (s : State) (g : Group) : (s.setGroup g).turns = s.turns := rfl
@[simp] theorem State.setGroup_cmds (s : State) (g : Group) : (s.setGroup g).cmds = s.cmds := rfl
@[simp] theorem State.setGroup_arrays (s : State) (g : Group) : (s.setGroup g).arrays = s.arrays := rfl
@[simp] theorem State.setGroup_dies (s : State) (g : Group) : (s.setGroup g).dies = s.dies := rfl
@[simp] theorem State.setGroup_seqNo (s : State) (g : Group) : (s.setGroup g).seqNo = s.seqNo := rfl
@[simp] theorem State.setGroup_host (s : State) (g : Group) : (s.setGroup g).host = s.host := rfl
@[simp] theorem State.setGroup_fabric (s : State) (g : Group) : (s.setGroup g).fabric = s.fabric := rfl

/-! ### modGroup -/

@[simp] theorem State.modGroup_inputs (s : State) (gid : Nat) (f : Group → Group) : (s.modGroup gid f).inputs = s.inputs := rfl
@[simp] theorem State.modGroup_cur (s : State) (gid : Nat) (f : Group → Group) : (s.modGroup gid f).cur = s.cur := rfl
@[simp] theorem State.modGroup_fresh (s : State) (gid : Nat) (f : Group → Group) : (s.modGroup gid f).fresh = s.fresh := rfl
@[simp] theorem State.modGroup_nextId (s : State) (gid : Nat) (f : Group → Group) : (s.modGroup gid f).nextId = s.nextId := rfl
@[simp] theorem State.modGroup_beat (s : State) (gid : Nat) (f : Group → Group) : (s.modGroup gid f).beat = s.beat := rfl
@[simp] theorem State.modGroup_rounds (s : State) (gid : Nat) (f : Group → Group) : (s.modGroup gid f).rounds = s.rounds := rfl
@[simp] theorem State.modGroup_tick (s : State) (gid : Nat) (f : Group → Group) : (s.modGroup gid f).tick = s.tick := rfl
@[simp] theorem State.modGroup_groups (s : State) (gid : Nat) (f : Group → Group) : (s.modGroup gid f).groups = modWhere s.groups (fun x => x.gid == gid) f := rfl
@[simp] theorem State.modGroup_tasks (s : State) (gid : Nat) (f : Group → Group) : (s.modGroup gid f).tasks = s.tasks := rfl
@[simp] theorem State.modGroup_grids (s : State) (gid : Nat) (f : Group → Group) : (s.modGroup gid f).grids = s.grids := rfl
@[simp] theorem State.modGroup_mem (s : State) (gid : Nat) (f : Group → Group) : (s.modGroup gid f).mem = s.mem := rfl
@[simp] theorem State.modGroup_vis (s : State) (gid : Nat) (f : Group → Group) : (s.modGroup gid f).vis = s.vis := rfl
@[simp] theorem State.modGroup_pages (s : State) (gid : Nat) (f : Group → Group) : (s.modGroup gid f).pages = s.pages := rfl
@[simp] theorem State.modGroup_queues (s : State) (gid : Nat) (f : Group → Group) : (s.modGroup gid f).queues = s.queues := rfl
@[simp] theorem State.modGroup_entries (s : State) (gid : Nat) (f : Group → Group) : (s.modGroup gid f).entries = s.entries := rfl
@[simp] theorem State.modGroup_regs31 (s : State) (gid : Nat) (f : Group → Group) : (s.modGroup gid f).regs31 = s.regs31 := rfl
@[simp] theorem State.modGroup_dues (s : State) (gid : Nat) (f : Group → Group) : (s.modGroup gid f).dues = s.dues := rfl
@[simp] theorem State.modGroup_keys (s : State) (gid : Nat) (f : Group → Group) : (s.modGroup gid f).keys = s.keys := rfl
@[simp] theorem State.modGroup_reservedCores (s : State) (gid : Nat) (f : Group → Group) : (s.modGroup gid f).reservedCores = s.reservedCores := rfl
@[simp] theorem State.modGroup_turns (s : State) (gid : Nat) (f : Group → Group) : (s.modGroup gid f).turns = s.turns := rfl
@[simp] theorem State.modGroup_cmds (s : State) (gid : Nat) (f : Group → Group) : (s.modGroup gid f).cmds = s.cmds := rfl
@[simp] theorem State.modGroup_arrays (s : State) (gid : Nat) (f : Group → Group) : (s.modGroup gid f).arrays = s.arrays := rfl
@[simp] theorem State.modGroup_dies (s : State) (gid : Nat) (f : Group → Group) : (s.modGroup gid f).dies = s.dies := rfl
@[simp] theorem State.modGroup_seqNo (s : State) (gid : Nat) (f : Group → Group) : (s.modGroup gid f).seqNo = s.seqNo := rfl
@[simp] theorem State.modGroup_host (s : State) (gid : Nat) (f : Group → Group) : (s.modGroup gid f).host = s.host := rfl
@[simp] theorem State.modGroup_fabric (s : State) (gid : Nat) (f : Group → Group) : (s.modGroup gid f).fabric = s.fabric := rfl

/-! ### modTask -/

@[simp] theorem State.modTask_inputs (s : State) (uid : Nat) (f : Task → Task) : (s.modTask uid f).inputs = s.inputs := rfl
@[simp] theorem State.modTask_cur (s : State) (uid : Nat) (f : Task → Task) : (s.modTask uid f).cur = s.cur := rfl
@[simp] theorem State.modTask_fresh (s : State) (uid : Nat) (f : Task → Task) : (s.modTask uid f).fresh = s.fresh := rfl
@[simp] theorem State.modTask_nextId (s : State) (uid : Nat) (f : Task → Task) : (s.modTask uid f).nextId = s.nextId := rfl
@[simp] theorem State.modTask_beat (s : State) (uid : Nat) (f : Task → Task) : (s.modTask uid f).beat = s.beat := rfl
@[simp] theorem State.modTask_rounds (s : State) (uid : Nat) (f : Task → Task) : (s.modTask uid f).rounds = s.rounds := rfl
@[simp] theorem State.modTask_tick (s : State) (uid : Nat) (f : Task → Task) : (s.modTask uid f).tick = s.tick := rfl
@[simp] theorem State.modTask_groups (s : State) (uid : Nat) (f : Task → Task) : (s.modTask uid f).groups = s.groups := rfl
@[simp] theorem State.modTask_tasks (s : State) (uid : Nat) (f : Task → Task) : (s.modTask uid f).tasks = modWhere s.tasks (fun x => x.uid == uid) f := rfl
@[simp] theorem State.modTask_grids (s : State) (uid : Nat) (f : Task → Task) : (s.modTask uid f).grids = s.grids := rfl
@[simp] theorem State.modTask_mem (s : State) (uid : Nat) (f : Task → Task) : (s.modTask uid f).mem = s.mem := rfl
@[simp] theorem State.modTask_vis (s : State) (uid : Nat) (f : Task → Task) : (s.modTask uid f).vis = s.vis := rfl
@[simp] theorem State.modTask_pages (s : State) (uid : Nat) (f : Task → Task) : (s.modTask uid f).pages = s.pages := rfl
@[simp] theorem State.modTask_queues (s : State) (uid : Nat) (f : Task → Task) : (s.modTask uid f).queues = s.queues := rfl
@[simp] theorem State.modTask_entries (s : State) (uid : Nat) (f : Task → Task) : (s.modTask uid f).entries = s.entries := rfl
@[simp] theorem State.modTask_regs31 (s : State) (uid : Nat) (f : Task → Task) : (s.modTask uid f).regs31 = s.regs31 := rfl
@[simp] theorem State.modTask_dues (s : State) (uid : Nat) (f : Task → Task) : (s.modTask uid f).dues = s.dues := rfl
@[simp] theorem State.modTask_keys (s : State) (uid : Nat) (f : Task → Task) : (s.modTask uid f).keys = s.keys := rfl
@[simp] theorem State.modTask_reservedCores (s : State) (uid : Nat) (f : Task → Task) : (s.modTask uid f).reservedCores = s.reservedCores := rfl
@[simp] theorem State.modTask_turns (s : State) (uid : Nat) (f : Task → Task) : (s.modTask uid f).turns = s.turns := rfl
@[simp] theorem State.modTask_cmds (s : State) (uid : Nat) (f : Task → Task) : (s.modTask uid f).cmds = s.cmds := rfl
@[simp] theorem State.modTask_arrays (s : State) (uid : Nat) (f : Task → Task) : (s.modTask uid f).arrays = s.arrays := rfl
@[simp] theorem State.modTask_dies (s : State) (uid : Nat) (f : Task → Task) : (s.modTask uid f).dies = s.dies := rfl
@[simp] theorem State.modTask_seqNo (s : State) (uid : Nat) (f : Task → Task) : (s.modTask uid f).seqNo = s.seqNo := rfl
@[simp] theorem State.modTask_host (s : State) (uid : Nat) (f : Task → Task) : (s.modTask uid f).host = s.host := rfl
@[simp] theorem State.modTask_fabric (s : State) (uid : Nat) (f : Task → Task) : (s.modTask uid f).fabric = s.fabric := rfl

/-! ### modGrid -/

@[simp] theorem State.modGrid_inputs (s : State) (id : Nat) (f : Grid → Grid) : (s.modGrid id f).inputs = s.inputs := rfl
@[simp] theorem State.modGrid_cur (s : State) (id : Nat) (f : Grid → Grid) : (s.modGrid id f).cur = s.cur := rfl
@[simp] theorem State.modGrid_fresh (s : State) (id : Nat) (f : Grid → Grid) : (s.modGrid id f).fresh = s.fresh := rfl
@[simp] theorem State.modGrid_nextId (s : State) (id : Nat) (f : Grid → Grid) : (s.modGrid id f).nextId = s.nextId := rfl
@[simp] theorem State.modGrid_beat (s : State) (id : Nat) (f : Grid → Grid) : (s.modGrid id f).beat = s.beat := rfl
@[simp] theorem State.modGrid_rounds (s : State) (id : Nat) (f : Grid → Grid) : (s.modGrid id f).rounds = s.rounds := rfl
@[simp] theorem State.modGrid_tick (s : State) (id : Nat) (f : Grid → Grid) : (s.modGrid id f).tick = s.tick := rfl
@[simp] theorem State.modGrid_groups (s : State) (id : Nat) (f : Grid → Grid) : (s.modGrid id f).groups = s.groups := rfl
@[simp] theorem State.modGrid_tasks (s : State) (id : Nat) (f : Grid → Grid) : (s.modGrid id f).tasks = s.tasks := rfl
@[simp] theorem State.modGrid_grids (s : State) (id : Nat) (f : Grid → Grid) : (s.modGrid id f).grids = modWhere s.grids (fun x => x.gridId == id) f := rfl
@[simp] theorem State.modGrid_mem (s : State) (id : Nat) (f : Grid → Grid) : (s.modGrid id f).mem = s.mem := rfl
@[simp] theorem State.modGrid_vis (s : State) (id : Nat) (f : Grid → Grid) : (s.modGrid id f).vis = s.vis := rfl
@[simp] theorem State.modGrid_pages (s : State) (id : Nat) (f : Grid → Grid) : (s.modGrid id f).pages = s.pages := rfl
@[simp] theorem State.modGrid_queues (s : State) (id : Nat) (f : Grid → Grid) : (s.modGrid id f).queues = s.queues := rfl
@[simp] theorem State.modGrid_entries (s : State) (id : Nat) (f : Grid → Grid) : (s.modGrid id f).entries = s.entries := rfl
@[simp] theorem State.modGrid_regs31 (s : State) (id : Nat) (f : Grid → Grid) : (s.modGrid id f).regs31 = s.regs31 := rfl
@[simp] theorem State.modGrid_dues (s : State) (id : Nat) (f : Grid → Grid) : (s.modGrid id f).dues = s.dues := rfl
@[simp] theorem State.modGrid_keys (s : State) (id : Nat) (f : Grid → Grid) : (s.modGrid id f).keys = s.keys := rfl
@[simp] theorem State.modGrid_reservedCores (s : State) (id : Nat) (f : Grid → Grid) : (s.modGrid id f).reservedCores = s.reservedCores := rfl
@[simp] theorem State.modGrid_turns (s : State) (id : Nat) (f : Grid → Grid) : (s.modGrid id f).turns = s.turns := rfl
@[simp] theorem State.modGrid_cmds (s : State) (id : Nat) (f : Grid → Grid) : (s.modGrid id f).cmds = s.cmds := rfl
@[simp] theorem State.modGrid_arrays (s : State) (id : Nat) (f : Grid → Grid) : (s.modGrid id f).arrays = s.arrays := rfl
@[simp] theorem State.modGrid_dies (s : State) (id : Nat) (f : Grid → Grid) : (s.modGrid id f).dies = s.dies := rfl
@[simp] theorem State.modGrid_seqNo (s : State) (id : Nat) (f : Grid → Grid) : (s.modGrid id f).seqNo = s.seqNo := rfl
@[simp] theorem State.modGrid_host (s : State) (id : Nat) (f : Grid → Grid) : (s.modGrid id f).host = s.host := rfl
@[simp] theorem State.modGrid_fabric (s : State) (id : Nat) (f : Grid → Grid) : (s.modGrid id f).fabric = s.fabric := rfl

/-! ### setVi -/

@[simp] theorem State.setVi_inputs (s : State) (v : VI) : (s.setVi v).inputs = s.inputs := rfl
@[simp] theorem State.setVi_cur (s : State) (v : VI) : (s.setVi v).cur = s.cur := rfl
@[simp] theorem State.setVi_fresh (s : State) (v : VI) : (s.setVi v).fresh = s.fresh := rfl
@[simp] theorem State.setVi_nextId (s : State) (v : VI) : (s.setVi v).nextId = s.nextId := rfl
@[simp] theorem State.setVi_beat (s : State) (v : VI) : (s.setVi v).beat = s.beat := rfl
@[simp] theorem State.setVi_rounds (s : State) (v : VI) : (s.setVi v).rounds = s.rounds := rfl
@[simp] theorem State.setVi_tick (s : State) (v : VI) : (s.setVi v).tick = s.tick := rfl
@[simp] theorem State.setVi_groups (s : State) (v : VI) : (s.setVi v).groups = s.groups := rfl
@[simp] theorem State.setVi_tasks (s : State) (v : VI) : (s.setVi v).tasks = s.tasks := rfl
@[simp] theorem State.setVi_grids (s : State) (v : VI) : (s.setVi v).grids = s.grids := rfl
@[simp] theorem State.setVi_mem (s : State) (v : VI) : (s.setVi v).mem = s.mem := rfl
@[simp] theorem State.setVi_vis (s : State) (v : VI) : (s.setVi v).vis = upsert s.vis (fun x => x.num == v.num) v := rfl
@[simp] theorem State.setVi_pages (s : State) (v : VI) : (s.setVi v).pages = s.pages := rfl
@[simp] theorem State.setVi_queues (s : State) (v : VI) : (s.setVi v).queues = s.queues := rfl
@[simp] theorem State.setVi_entries (s : State) (v : VI) : (s.setVi v).entries = s.entries := rfl
@[simp] theorem State.setVi_regs31 (s : State) (v : VI) : (s.setVi v).regs31 = s.regs31 := rfl
@[simp] theorem State.setVi_dues (s : State) (v : VI) : (s.setVi v).dues = s.dues := rfl
@[simp] theorem State.setVi_keys (s : State) (v : VI) : (s.setVi v).keys = s.keys := rfl
@[simp] theorem State.setVi_reservedCores (s : State) (v : VI) : (s.setVi v).reservedCores = s.reservedCores := rfl
@[simp] theorem State.setVi_turns (s : State) (v : VI) : (s.setVi v).turns = s.turns := rfl
@[simp] theorem State.setVi_cmds (s : State) (v : VI) : (s.setVi v).cmds = s.cmds := rfl
@[simp] theorem State.setVi_arrays (s : State) (v : VI) : (s.setVi v).arrays = s.arrays := rfl
@[simp] theorem State.setVi_dies (s : State) (v : VI) : (s.setVi v).dies = s.dies := rfl
@[simp] theorem State.setVi_seqNo (s : State) (v : VI) : (s.setVi v).seqNo = s.seqNo := rfl
@[simp] theorem State.setVi_host (s : State) (v : VI) : (s.setVi v).host = s.host := rfl
@[simp] theorem State.setVi_fabric (s : State) (v : VI) : (s.setVi v).fabric = s.fabric := rfl

/-! ### modDie -/

@[simp] theorem State.modDie_inputs (s : State) (n : Nat) (f : Die → Die) : (s.modDie n f).inputs = s.inputs := rfl
@[simp] theorem State.modDie_cur (s : State) (n : Nat) (f : Die → Die) : (s.modDie n f).cur = s.cur := rfl
@[simp] theorem State.modDie_fresh (s : State) (n : Nat) (f : Die → Die) : (s.modDie n f).fresh = s.fresh := rfl
@[simp] theorem State.modDie_nextId (s : State) (n : Nat) (f : Die → Die) : (s.modDie n f).nextId = s.nextId := rfl
@[simp] theorem State.modDie_beat (s : State) (n : Nat) (f : Die → Die) : (s.modDie n f).beat = s.beat := rfl
@[simp] theorem State.modDie_rounds (s : State) (n : Nat) (f : Die → Die) : (s.modDie n f).rounds = s.rounds := rfl
@[simp] theorem State.modDie_tick (s : State) (n : Nat) (f : Die → Die) : (s.modDie n f).tick = s.tick := rfl
@[simp] theorem State.modDie_groups (s : State) (n : Nat) (f : Die → Die) : (s.modDie n f).groups = s.groups := rfl
@[simp] theorem State.modDie_tasks (s : State) (n : Nat) (f : Die → Die) : (s.modDie n f).tasks = s.tasks := rfl
@[simp] theorem State.modDie_grids (s : State) (n : Nat) (f : Die → Die) : (s.modDie n f).grids = s.grids := rfl
@[simp] theorem State.modDie_mem (s : State) (n : Nat) (f : Die → Die) : (s.modDie n f).mem = s.mem := rfl
@[simp] theorem State.modDie_vis (s : State) (n : Nat) (f : Die → Die) : (s.modDie n f).vis = s.vis := rfl
@[simp] theorem State.modDie_pages (s : State) (n : Nat) (f : Die → Die) : (s.modDie n f).pages = s.pages := rfl
@[simp] theorem State.modDie_queues (s : State) (n : Nat) (f : Die → Die) : (s.modDie n f).queues = s.queues := rfl
@[simp] theorem State.modDie_entries (s : State) (n : Nat) (f : Die → Die) : (s.modDie n f).entries = s.entries := rfl
@[simp] theorem State.modDie_regs31 (s : State) (n : Nat) (f : Die → Die) : (s.modDie n f).regs31 = s.regs31 := rfl
@[simp] theorem State.modDie_dues (s : State) (n : Nat) (f : Die → Die) : (s.modDie n f).dues = s.dues := rfl
@[simp] theorem State.modDie_keys (s : State) (n : Nat) (f : Die → Die) : (s.modDie n f).keys = s.keys := rfl
@[simp] theorem State.modDie_reservedCores (s : State) (n : Nat) (f : Die → Die) : (s.modDie n f).reservedCores = s.reservedCores := rfl
@[simp] theorem State.modDie_turns (s : State) (n : Nat) (f : Die → Die) : (s.modDie n f).turns = s.turns := rfl
@[simp] theorem State.modDie_cmds (s : State) (n : Nat) (f : Die → Die) : (s.modDie n f).cmds = s.cmds := rfl
@[simp] theorem State.modDie_arrays (s : State) (n : Nat) (f : Die → Die) : (s.modDie n f).arrays = s.arrays := rfl
@[simp] theorem State.modDie_dies (s : State) (n : Nat) (f : Die → Die) : (s.modDie n f).dies = modWhere s.dies (fun d => d.num == n) f := rfl
@[simp] theorem State.modDie_seqNo (s : State) (n : Nat) (f : Die → Die) : (s.modDie n f).seqNo = s.seqNo := rfl
@[simp] theorem State.modDie_host (s : State) (n : Nat) (f : Die → Die) : (s.modDie n f).host = s.host := rfl
@[simp] theorem State.modDie_fabric (s : State) (n : Nat) (f : Die → Die) : (s.modDie n f).fabric = s.fabric := rfl

/-! ### winSet -/

@[simp] theorem State.winSet_inputs (s : State) (off val : Nat) : (s.winSet off val).inputs = s.inputs := rfl
@[simp] theorem State.winSet_cur (s : State) (off val : Nat) : (s.winSet off val).cur = s.cur := rfl
@[simp] theorem State.winSet_fresh (s : State) (off val : Nat) : (s.winSet off val).fresh = s.fresh := rfl
@[simp] theorem State.winSet_nextId (s : State) (off val : Nat) : (s.winSet off val).nextId = s.nextId := rfl
@[simp] theorem State.winSet_beat (s : State) (off val : Nat) : (s.winSet off val).beat = s.beat := rfl
@[simp] theorem State.winSet_rounds (s : State) (off val : Nat) : (s.winSet off val).rounds = s.rounds := rfl
@[simp] theorem State.winSet_tick (s : State) (off val : Nat) : (s.winSet off val).tick = s.tick := rfl
@[simp] theorem State.winSet_groups (s : State) (off val : Nat) : (s.winSet off val).groups = s.groups := rfl
@[simp] theorem State.winSet_tasks (s : State) (off val : Nat) : (s.winSet off val).tasks = s.tasks := rfl
@[simp] theorem State.winSet_grids (s : State) (off val : Nat) : (s.winSet off val).grids = s.grids := rfl
@[simp] theorem State.winSet_mem (s : State) (off val : Nat) : (s.winSet off val).mem = s.mem := rfl
@[simp] theorem State.winSet_vis (s : State) (off val : Nat) : (s.winSet off val).vis = s.vis := rfl
@[simp] theorem State.winSet_pages (s : State) (off val : Nat) : (s.winSet off val).pages = s.pages := rfl
@[simp] theorem State.winSet_queues (s : State) (off val : Nat) : (s.winSet off val).queues = s.queues := rfl
@[simp] theorem State.winSet_entries (s : State) (off val : Nat) : (s.winSet off val).entries = s.entries := rfl
@[simp] theorem State.winSet_regs31 (s : State) (off val : Nat) : (s.winSet off val).regs31 = s.regs31 := rfl
@[simp] theorem State.winSet_dues (s : State) (off val : Nat) : (s.winSet off val).dues = s.dues := rfl
@[simp] theorem State.winSet_keys (s : State) (off val : Nat) : (s.winSet off val).keys = s.keys := rfl
@[simp] theorem State.winSet_reservedCores (s : State) (off val : Nat) : (s.winSet off val).reservedCores = s.reservedCores := rfl
@[simp] theorem State.winSet_turns (s : State) (off val : Nat) : (s.winSet off val).turns = s.turns := rfl
@[simp] theorem State.winSet_cmds (s : State) (off val : Nat) : (s.winSet off val).cmds = s.cmds := rfl
@[simp] theorem State.winSet_arrays (s : State) (off val : Nat) : (s.winSet off val).arrays = s.arrays := rfl
@[simp] theorem State.winSet_dies (s : State) (off val : Nat) : (s.winSet off val).dies = s.dies := rfl
@[simp] theorem State.winSet_seqNo (s : State) (off val : Nat) : (s.winSet off val).seqNo = s.seqNo := rfl
@[simp] theorem State.winSet_host (s : State) (off val : Nat) : (s.winSet off val).host = { s.host with window := s.host.window.set (off / 4) (BitVec.ofNat 32 val) } := rfl
@[simp] theorem State.winSet_fabric (s : State) (off val : Nat) : (s.winSet off val).fabric = s.fabric := rfl

/-! ### answer -/

@[simp] theorem State.answer_inputs (s : State) (a : Answer) : (s.answer a).inputs = s.inputs := rfl
@[simp] theorem State.answer_cur (s : State) (a : Answer) : (s.answer a).cur = s.cur := rfl
@[simp] theorem State.answer_fresh (s : State) (a : Answer) : (s.answer a).fresh = s.fresh := rfl
@[simp] theorem State.answer_nextId (s : State) (a : Answer) : (s.answer a).nextId = s.nextId := rfl
@[simp] theorem State.answer_beat (s : State) (a : Answer) : (s.answer a).beat = s.beat := rfl
@[simp] theorem State.answer_rounds (s : State) (a : Answer) : (s.answer a).rounds = s.rounds := rfl
@[simp] theorem State.answer_tick (s : State) (a : Answer) : (s.answer a).tick = s.tick := rfl
@[simp] theorem State.answer_groups (s : State) (a : Answer) : (s.answer a).groups = s.groups := rfl
@[simp] theorem State.answer_tasks (s : State) (a : Answer) : (s.answer a).tasks = s.tasks := rfl
@[simp] theorem State.answer_grids (s : State) (a : Answer) : (s.answer a).grids = s.grids := rfl
@[simp] theorem State.answer_mem (s : State) (a : Answer) : (s.answer a).mem = s.mem := rfl
@[simp] theorem State.answer_vis (s : State) (a : Answer) : (s.answer a).vis = s.vis := rfl
@[simp] theorem State.answer_pages (s : State) (a : Answer) : (s.answer a).pages = s.pages := rfl
@[simp] theorem State.answer_queues (s : State) (a : Answer) : (s.answer a).queues = s.queues := rfl
@[simp] theorem State.answer_entries (s : State) (a : Answer) : (s.answer a).entries = s.entries := rfl
@[simp] theorem State.answer_regs31 (s : State) (a : Answer) : (s.answer a).regs31 = s.regs31 := rfl
@[simp] theorem State.answer_dues (s : State) (a : Answer) : (s.answer a).dues = s.dues := rfl
@[simp] theorem State.answer_keys (s : State) (a : Answer) : (s.answer a).keys = s.keys := rfl
@[simp] theorem State.answer_reservedCores (s : State) (a : Answer) : (s.answer a).reservedCores = s.reservedCores := rfl
@[simp] theorem State.answer_turns (s : State) (a : Answer) : (s.answer a).turns = s.turns := rfl
@[simp] theorem State.answer_cmds (s : State) (a : Answer) : (s.answer a).cmds = s.cmds := rfl
@[simp] theorem State.answer_arrays (s : State) (a : Answer) : (s.answer a).arrays = s.arrays := rfl
@[simp] theorem State.answer_dies (s : State) (a : Answer) : (s.answer a).dies = s.dies := rfl
@[simp] theorem State.answer_seqNo (s : State) (a : Answer) : (s.answer a).seqNo = s.seqNo := rfl
@[simp] theorem State.answer_host (s : State) (a : Answer) : (s.answer a).host = { s.host with answers := s.host.answers ++ [a] } := rfl
@[simp] theorem State.answer_fabric (s : State) (a : Answer) : (s.answer a).fabric = s.fabric := rfl

/-! ### watch -/

@[simp] theorem State.watch_inputs (s : State) (pw : Nat) : (s.watch pw).inputs = s.inputs := rfl
@[simp] theorem State.watch_cur (s : State) (pw : Nat) : (s.watch pw).cur = s.cur := rfl
@[simp] theorem State.watch_fresh (s : State) (pw : Nat) : (s.watch pw).fresh = s.fresh := rfl
@[simp] theorem State.watch_nextId (s : State) (pw : Nat) : (s.watch pw).nextId = s.nextId := rfl
@[simp] theorem State.watch_beat (s : State) (pw : Nat) : (s.watch pw).beat = s.beat := rfl
@[simp] theorem State.watch_rounds (s : State) (pw : Nat) : (s.watch pw).rounds = s.rounds := rfl
@[simp] theorem State.watch_tick (s : State) (pw : Nat) : (s.watch pw).tick = s.tick := rfl
@[simp] theorem State.watch_tasks (s : State) (pw : Nat) : (s.watch pw).tasks = s.tasks := rfl
@[simp] theorem State.watch_grids (s : State) (pw : Nat) : (s.watch pw).grids = s.grids := rfl
@[simp] theorem State.watch_mem (s : State) (pw : Nat) : (s.watch pw).mem = s.mem := rfl
@[simp] theorem State.watch_vis (s : State) (pw : Nat) : (s.watch pw).vis = s.vis := rfl
@[simp] theorem State.watch_pages (s : State) (pw : Nat) : (s.watch pw).pages = s.pages := rfl
@[simp] theorem State.watch_queues (s : State) (pw : Nat) : (s.watch pw).queues = s.queues := rfl
@[simp] theorem State.watch_entries (s : State) (pw : Nat) : (s.watch pw).entries = s.entries := rfl
@[simp] theorem State.watch_regs31 (s : State) (pw : Nat) : (s.watch pw).regs31 = s.regs31 := rfl
@[simp] theorem State.watch_dues (s : State) (pw : Nat) : (s.watch pw).dues = s.dues := rfl
@[simp] theorem State.watch_keys (s : State) (pw : Nat) : (s.watch pw).keys = s.keys := rfl
@[simp] theorem State.watch_reservedCores (s : State) (pw : Nat) : (s.watch pw).reservedCores = s.reservedCores := rfl
@[simp] theorem State.watch_turns (s : State) (pw : Nat) : (s.watch pw).turns = s.turns := rfl
@[simp] theorem State.watch_cmds (s : State) (pw : Nat) : (s.watch pw).cmds = s.cmds := rfl
@[simp] theorem State.watch_arrays (s : State) (pw : Nat) : (s.watch pw).arrays = s.arrays := rfl
@[simp] theorem State.watch_dies (s : State) (pw : Nat) : (s.watch pw).dies = s.dies := rfl
@[simp] theorem State.watch_seqNo (s : State) (pw : Nat) : (s.watch pw).seqNo = s.seqNo := rfl
@[simp] theorem State.watch_host (s : State) (pw : Nat) : (s.watch pw).host = s.host := rfl
@[simp] theorem State.watch_fabric (s : State) (pw : Nat) : (s.watch pw).fabric = s.fabric := rfl

/-! ### watchStash -/

@[simp] theorem State.watchStash_inputs (s : State) (k : Nat) : (s.watchStash k).inputs = s.inputs := rfl
@[simp] theorem State.watchStash_cur (s : State) (k : Nat) : (s.watchStash k).cur = s.cur := rfl
@[simp] theorem State.watchStash_fresh (s : State) (k : Nat) : (s.watchStash k).fresh = s.fresh := rfl
@[simp] theorem State.watchStash_nextId (s : State) (k : Nat) : (s.watchStash k).nextId = s.nextId := rfl
@[simp] theorem State.watchStash_beat (s : State) (k : Nat) : (s.watchStash k).beat = s.beat := rfl
@[simp] theorem State.watchStash_rounds (s : State) (k : Nat) : (s.watchStash k).rounds = s.rounds := rfl
@[simp] theorem State.watchStash_tick (s : State) (k : Nat) : (s.watchStash k).tick = s.tick := rfl
@[simp] theorem State.watchStash_tasks (s : State) (k : Nat) : (s.watchStash k).tasks = s.tasks := rfl
@[simp] theorem State.watchStash_grids (s : State) (k : Nat) : (s.watchStash k).grids = s.grids := rfl
@[simp] theorem State.watchStash_mem (s : State) (k : Nat) : (s.watchStash k).mem = s.mem := rfl
@[simp] theorem State.watchStash_vis (s : State) (k : Nat) : (s.watchStash k).vis = s.vis := rfl
@[simp] theorem State.watchStash_pages (s : State) (k : Nat) : (s.watchStash k).pages = s.pages := rfl
@[simp] theorem State.watchStash_queues (s : State) (k : Nat) : (s.watchStash k).queues = s.queues := rfl
@[simp] theorem State.watchStash_entries (s : State) (k : Nat) : (s.watchStash k).entries = s.entries := rfl
@[simp] theorem State.watchStash_regs31 (s : State) (k : Nat) : (s.watchStash k).regs31 = s.regs31 := rfl
@[simp] theorem State.watchStash_dues (s : State) (k : Nat) : (s.watchStash k).dues = s.dues := rfl
@[simp] theorem State.watchStash_keys (s : State) (k : Nat) : (s.watchStash k).keys = s.keys := rfl
@[simp] theorem State.watchStash_reservedCores (s : State) (k : Nat) : (s.watchStash k).reservedCores = s.reservedCores := rfl
@[simp] theorem State.watchStash_turns (s : State) (k : Nat) : (s.watchStash k).turns = s.turns := rfl
@[simp] theorem State.watchStash_cmds (s : State) (k : Nat) : (s.watchStash k).cmds = s.cmds := rfl
@[simp] theorem State.watchStash_arrays (s : State) (k : Nat) : (s.watchStash k).arrays = s.arrays := rfl
@[simp] theorem State.watchStash_dies (s : State) (k : Nat) : (s.watchStash k).dies = s.dies := rfl
@[simp] theorem State.watchStash_seqNo (s : State) (k : Nat) : (s.watchStash k).seqNo = s.seqNo := rfl
@[simp] theorem State.watchStash_host (s : State) (k : Nat) : (s.watchStash k).host = s.host := rfl
@[simp] theorem State.watchStash_fabric (s : State) (k : Nat) : (s.watchStash k).fabric = s.fabric := rfl

end Sys2Proof.Machine
end

