-- ==== Sys2Proof/Laws/Memory.lean ====
section
/-! SUPPORT. Memory operations keep the canonical form of memory, and the end of a registration changes no byte. -/
namespace Sys2Proof.Machine

/-! ### The canonical form -/

/-- The canonical form, part by part. -/
theorem Memory.wf_iff {m : Mem} : Memory.wf m = true ↔
    m.bytes.wf = true ∧ m.stash.wf = true ∧ m.owners.wf = true ∧ m.remotePerms.wf = true ∧ m.homeVa.wf = true ∧ ∀ r ∈ m.regs, r.pa % 4 = 0 := by
  simp only [Memory.wf, Bool.and_eq_true, List.all_eq_true, beq_iff_eq, and_assoc]

/-- It depends on six fields alone. -/
theorem Memory.wf_of {m n : Mem} (h : Memory.wf m = true) (hb : n.bytes = m.bytes) (hs : n.stash = m.stash)
    (ho : n.owners = m.owners) (hp : n.remotePerms = m.remotePerms) (hv : n.homeVa = m.homeVa) (hr : n.regs = m.regs) : Memory.wf n = true := by
  simp only [Memory.wf, hb, hs, ho, hp, hv, hr]; exact h

theorem Memory.wf_reset : Memory.wf Mem.reset = true := by decide

/-- A map of the registrations that keeps their words keeps the form. -/
theorem Memory.wf_mapRegs {m : Mem} (f : Reg → Reg) (hf : ∀ r, (f r).pa = r.pa) (h : Memory.wf m = true) :
    Memory.wf { m with regs := m.regs.map f } = true := by
  rw [Memory.wf_iff] at h ⊢
  refine ⟨h.1, h.2.1, h.2.2.1, h.2.2.2.1, h.2.2.2.2.1, fun r hr => ?_⟩
  obtain ⟨q, hq, rfl⟩ := List.mem_map.mp hr
  rw [hf]; exact h.2.2.2.2.2 q hq

/-- Registrations that a test drops leave the form. -/
theorem Memory.wf_filterRegs {m : Mem} (t : Reg → Bool) (h : Memory.wf m = true) :
    Memory.wf { m with regs := m.regs.filter t } = true := by
  rw [Memory.wf_iff] at h ⊢
  exact ⟨h.1, h.2.1, h.2.2.1, h.2.2.2.1, h.2.2.2.2.1, fun r hr => h.2.2.2.2.2 r (List.mem_of_mem_filter hr)⟩

/-- A registration of an aligned word, put among the others. -/
theorem Memory.wf_upsertRegs {m : Mem} (t : Reg → Bool) (r : Reg) (hr : r.pa % 4 = 0) (h : Memory.wf m = true) :
    Memory.wf { m with regs := upsert m.regs t r } = true := by
  rw [Memory.wf_iff] at h ⊢
  refine ⟨h.1, h.2.1, h.2.2.1, h.2.2.2.1, h.2.2.2.2.1, fun q hq => ?_⟩
  simp only [upsert] at hq
  split at hq
  · obtain ⟨p, hp, rfl⟩ := List.mem_map.mp hq
    split
    · exact hr
    · exact h.2.2.2.2.2 p hp
  · rcases List.mem_append.mp hq with hq | hq
    · exact h.2.2.2.2.2 q hq
    · rw [List.mem_singleton.mp hq]; exact hr

theorem Memory.wf_bytes {m : Mem} {b : Store 8} (hb : b.wf = true) (h : Memory.wf m = true) : Memory.wf { m with bytes := b } = true := by
  rw [Memory.wf_iff] at h ⊢; exact ⟨hb, h.2⟩

theorem Memory.wf_stash {m : Mem} {b : Store 8} (hb : b.wf = true) (h : Memory.wf m = true) : Memory.wf { m with stash := b } = true := by
  rw [Memory.wf_iff] at h ⊢; exact ⟨h.1, hb, h.2.2⟩

theorem Memory.wf_homeVa {m : Mem} {b : Store 64} (hb : b.wf = true) (h : Memory.wf m = true) : Memory.wf { m with homeVa := b } = true := by
  rw [Memory.wf_iff] at h ⊢; exact ⟨h.1, h.2.1, h.2.2.1, h.2.2.2.1, hb, h.2.2.2.2.2⟩

theorem Memory.homeVa_wf {m : Mem} (h : Memory.wf m = true) : m.homeVa.wf = true := (Memory.wf_iff.mp h).2.2.2.2.1

theorem Memory.bytes_wf {m : Mem} (h : Memory.wf m = true) : m.bytes.wf = true := (Memory.wf_iff.mp h).1
theorem Memory.stash_wf {m : Mem} (h : Memory.wf m = true) : m.stash.wf = true := (Memory.wf_iff.mp h).2.1
theorem Memory.regs_aligned {m : Mem} (h : Memory.wf m = true) {r : Reg} (hr : r ∈ m.regs) : r.pa % 4 = 0 :=
  (Memory.wf_iff.mp h).2.2.2.2.2 r hr

/-- A property that every step of a fold keeps. -/
theorem foldl_keeps {α β : Type} (P : β → Prop) (f : β → α → β) (hf : ∀ b a, P b → P (f b a)) (l : List α) (b : β) (h : P b) :
    P (l.foldl f b) := by
  induction l generalizing b with
  | nil => exact h
  | cons a r ih => exact ih _ (hf _ _ h)

/-! ### The registry -/

theorem Mem.writeBack_wf {m : Mem} (pw : Nat) (h : Memory.wf m = true) : Memory.wf (m.writeBack pw) = true := by
  unfold Mem.writeBack
  split
  · exact h
  · apply Memory.wf_filterRegs (m := { m with bytes := _ })
    refine Memory.wf_bytes ?_ h
    have hp : ∀ (st : Store 8) (c : Bool) (k : Nat) (x : Byte), st.wf = true → (if c then st.set k x else st).wf = true := by
      intro st c k x hs; split
      · exact Store.wf_set _ _ _ hs
      · exact hs
    exact hp _ _ _ _ (hp _ _ _ _ (hp _ _ _ _ (hp _ _ _ _ (Memory.bytes_wf h))))

theorem Mem.writeBackAll_wf {m : Mem} (l : List Nat) (h : Memory.wf m = true) : Memory.wf (m.writeBackAll l) = true :=
  foldl_keeps (fun n => Memory.wf n = true) Mem.writeBack (fun _ _ hb => Mem.writeBack_wf _ hb) l m h

theorem Mem.dropCopy_wf {m : Mem} (core pw : Nat) (h : Memory.wf m = true) : Memory.wf (m.dropCopy core pw) = true :=
  Memory.wf_of h rfl rfl rfl rfl rfl rfl

theorem Mem.putStash_wf {m : Mem} (core off : Nat) (bs : List Byte) (h : Memory.wf m = true) : Memory.wf (m.putStash core off bs) = true :=
  Memory.wf_of (Memory.wf_stash (Store.wf_write _ (stashKey core off) bs (Memory.stash_wf h)) h) rfl rfl rfl rfl rfl rfl

theorem Mem.setStashCopy_wf {m : Mem} (core pw : Nat) (h : Memory.wf m = true) :
    Memory.wf (m.setStashCopy core pw) = true :=
  foldl_keeps (fun n => Memory.wf n = true) _ (fun _ _ hb => Mem.putStash_wf _ _ _ hb) _ m h

theorem Mem.renew_wf {m : Mem} (core pw : Nat) (h : Memory.wf m = true) : Memory.wf (m.renew core pw) = true :=
  Mem.setStashCopy_wf _ _ (Mem.dropCopy_wf _ _ h)

theorem wordOf_aligned (pa : Nat) : wordOf pa % 4 = 0 := by simp [wordOf]

theorem Mem.reg?_pa {m : Mem} {pw : Nat} {r : Reg} (h : m.reg? pw = some r) : r.pa = pw := by
  simpa using List.find?_some h

theorem Mem.reg?_mem {m : Mem} {pw : Nat} {r : Reg} (h : m.reg? pw = some r) : r ∈ m.regs := List.mem_of_find?_eq_some h

theorem Mem.cede_wf {m : Mem} (ag : Agent) (pw : Nat) (h : Memory.wf m = true) : Memory.wf (m.cede ag pw) = true := by
  unfold Mem.cede
  split
  · split
    · exact h
    · exact Mem.writeBack_wf _ h
  · exact h

theorem Mem.regFor_pa (m : Mem) (ag : Agent) (pw : Nat) : (m.regFor ag pw).pa = pw := by
  unfold Mem.regFor
  cases hr : m.reg? pw with
  | none => rfl
  | some r => exact Mem.reg?_pa hr

theorem Mem.register_wf {m : Mem} (plain : Option Writer) (ag : Agent) {pw : Nat} (hp : pw % 4 = 0) (mask : BitVec 4) (val : Word)
    (h : Memory.wf m = true) : Memory.wf (m.register plain ag pw mask val) = true := by
  unfold Mem.register
  exact Memory.wf_of (Memory.wf_upsertRegs (fun r => r.pa == pw) (((m.cede ag pw).regFor ag pw).write plain mask val)
    (by rw [show ∀ r : Reg, (r.write plain mask val).pa = r.pa from fun _ => rfl, Mem.regFor_pa]; exact hp) (Mem.cede_wf ag pw h)) rfl rfl rfl rfl rfl rfl

theorem State.storeWord_wf {s : State} (plain : Option Writer) (ag : Agent) (pa : Nat) (mask : BitVec 4) (val : Word)
    (h : Memory.wf s.mem = true) : Memory.wf (s.storeWord plain ag pa mask val).mem = true := by
  have hm := Mem.register_wf plain ag (wordOf_aligned pa) mask val h
  unfold State.storeWord
  rw [State.watch_mem]
  dsimp only
  split
  · exact Mem.renew_wf _ _ hm
  · exact hm

theorem State.storeAtom_wf {s : State} (plain : Option Writer) (ag : Agent) (pa : Nat) (bs : List Byte) (h : Memory.wf s.mem = true) :
    Memory.wf (s.storeAtom plain ag pa bs).mem = true :=
  foldl_keeps (fun t : State => Memory.wf t.mem = true) _ (fun _ _ hb => State.storeWord_wf _ _ _ _ _ hb) _ s h

theorem Mem.writeHome_wf {m : Mem} (pa : Nat) (bs : List Byte) (h : Memory.wf m = true) : Memory.wf (m.writeHome pa bs) = true :=
  Memory.wf_of (Memory.wf_bytes (Store.wf_write _ pa bs (Memory.bytes_wf h)) h) rfl rfl rfl rfl rfl rfl

theorem Mem.renewRepl_wf {m : Mem} (core pa n : Nat) (h : Memory.wf m = true) : Memory.wf (m.renewRepl core pa n) = true :=
  foldl_keeps (fun n => Memory.wf n = true) _
    (fun _ _ hb => foldl_keeps (fun n => Memory.wf n = true) _ (fun _ _ hc => Mem.putStash_wf _ _ _ hc) _ _ hb) _ m h

theorem State.replLost_wf {s : State} (r : ReplWrite) (h : Memory.wf s.mem = true) : Memory.wf (s.replLost r).mem = true := by
  unfold State.replLost
  split
  · exact h
  · exact Memory.wf_of h rfl rfl rfl rfl rfl rfl

theorem State.replArrives_wf {s : State} (r : ReplWrite) (h : Memory.wf s.mem = true) : Memory.wf (s.replArrives r).mem = true := by
  unfold State.replArrives
  split
  · exact Memory.wf_of (Mem.writeHome_wf r.pa r.bytes h) rfl rfl rfl rfl rfl rfl
  · exact Memory.wf_of (State.replLost_wf r h) rfl rfl rfl rfl rfl rfl

theorem State.flushRepls_wf {s : State} (t : ReplWrite → Bool) (h : Memory.wf s.mem = true) : Memory.wf (s.flushRepls t).mem = true := by
  unfold State.flushRepls
  generalize withOlder ReplWrite.precedes t s.mem.repls = l
  exact foldl_keeps (fun u : State => Memory.wf u.mem = true) _ (fun _ r hb => State.replArrives_wf r hb) l s h

theorem State.storeRepl_wf {s : State} (gid : Nat) (ag : Agent) (pa : Nat) (bs : List Byte) (h : Memory.wf s.mem = true) :
    Memory.wf (s.storeRepl gid ag pa bs).mem = true := by
  unfold State.storeRepl
  have hf := State.flushRepls_wf (fun q => agentCore q.agent == agentCore ag && q.pa / 2 ^ 37 == pa / 2 ^ 37) h
  generalize s.flushRepls _ = u at hf ⊢
  have hm := Mem.writeHome_wf (replicaFor ag pa) bs (Mem.writeHome_wf pa bs hf)
  dsimp only
  split
  · exact Memory.wf_of (Mem.renewRepl_wf _ pa bs.length hm) rfl rfl rfl rfl rfl rfl
  · exact Memory.wf_of hm rfl rfl rfl rfl rfl rfl

theorem State.readRepl_wf {s : State} (ag : Agent) (pa n : Nat) (h : Memory.wf s.mem = true) :
    Memory.wf (s.readRepl ag pa n).1.mem = true := by
  unfold State.readRepl
  dsimp only
  split
  · exact Mem.renewRepl_wf _ _ _ h
  · exact h

theorem State.store_wf {s : State} (gid : Nat) (plain : Bool) (ag : Agent) (repl : Bool) (pa : Nat) (bs : List Byte)
    (h : Memory.wf s.mem = true) : Memory.wf (s.store gid plain ag repl pa bs).mem = true := by
  unfold State.store; split
  · exact State.storeRepl_wf _ _ _ _ h
  · exact State.storeAtom_wf _ _ _ _ h

theorem State.watches_mem (ws : List Nat) (s : State) : (ws.foldl State.watch s).mem = s.mem := by
  induction ws generalizing s with
  | nil => rfl
  | cons a r ih => exact ih _

theorem State.deviceWrite_wf {s : State} (pa : Nat) (bs : List Byte) (h : Memory.wf s.mem = true) :
    Memory.wf (s.deviceWrite pa bs).mem = true := by
  simp only [State.deviceWrite, State.watches_mem]
  exact Mem.writeHome_wf _ _ (Mem.writeBackAll_wf _ h)

theorem State.remoteWrite_wf {s : State} (vi va : Nat) (bs : List Byte) (h : Memory.wf s.mem = true) :
    Memory.wf (s.remoteWrite vi va bs).mem = true := State.deviceWrite_wf _ _ h

/-! ### Loads, releases and atomics -/

theorem State.loadWord_wf {s : State} (core : Nat) (old : Bool) (vi va : Nat) (region : BitVec 4) (pw : Nat) (h : Memory.wf s.mem = true) :
    Memory.wf (s.loadWord core old vi va region pw).1.mem = true := by
  unfold State.loadWord
  split
  · exact Mem.setStashCopy_wf _ _ h
  · refine Mem.setStashCopy_wf _ _ ?_
    split
    · exact Memory.wf_of (Mem.dropCopy_wf core (sibling pw) h) rfl rfl rfl rfl rfl rfl
    · exact Memory.wf_of h rfl rfl rfl rfl rfl rfl

theorem State.fillLine_wf {s : State} (core vi va : Nat) (region : BitVec 4) (pa : Nat) (h : Memory.wf s.mem = true) :
    Memory.wf (s.fillLine core vi va region pa).mem = true := Memory.wf_of h rfl rfl rfl rfl rfl rfl

theorem State.loadBytes_wf {s : State} (m : Mem) (all : List Nat) (core vi va : Nat) (region : BitVec 4) (pa n : Nat)
    (h : Memory.wf s.mem = true) : Memory.wf (s.loadBytes m all core vi va region pa n).1.mem = true := by
  unfold State.loadBytes
  refine State.fillLine_wf core vi va region pa ?_
  refine foldl_keeps (fun a : State × List Byte => Memory.wf a.1.mem = true) _ (fun a p ha => ?_) _ (s, []) h
  exact State.loadWord_wf core _ vi (wordOf va + (p - wordOf pa)) region p ha

theorem Mem.releaseCore_wf {m : Mem} (core : Nat) (sc : Scope) (paired : Bool) (busy : List Nat) (h : Memory.wf m = true) :
    Memory.wf (m.releaseCore core sc paired busy) = true :=
  Memory.wf_mapRegs _ (fun r => by
    split
    · rfl
    · split <;> rfl) h

theorem State.atomAt_wf {s : State} (ag : Agent) (op : AtomVar) (pa opnd new : Nat) (h : Memory.wf s.mem = true) :
    Memory.wf (s.atomAt ag op pa opnd new).1.mem = true := State.storeAtom_wf _ _ _ _ h

theorem Memory.wf_poison (n : Mem) (p : List Nat) : Memory.wf n = true → Memory.wf { n with poison := p } = true := fun hn => hn

/-- A registration takes other contents. -/
theorem Memory.wf_modRegs {m : Mem} {r : Reg} {pw : Nat} (hr : m.reg? pw = some r) (mask : BitVec 4) (val : Word) (h : Memory.wf m = true) :
    Memory.wf { m with regs := modWhere m.regs (fun x => x.pa == pw) (fun _ => { r with mask := mask, value := val }) } = true := by
  rw [Memory.wf_iff] at h ⊢
  refine ⟨h.1, h.2.1, h.2.2.1, h.2.2.2.1, h.2.2.2.2.1, fun q hq => ?_⟩
  obtain ⟨u, hu, rfl⟩ := List.mem_map.mp hq
  split
  · exact h.2.2.2.2.2 r (Mem.reg?_mem hr)
  · exact h.2.2.2.2.2 u hu

theorem Mem.redWord_wf {m : Mem} (op : AtomVar) (pw : Nat) (val : Word) (h : Memory.wf m = true) : Memory.wf (m.redWord op pw val) = true := by
  cases hr : m.reg? pw with
  | none =>
    simp only [Mem.redWord, hr]
    exact Memory.wf_poison _ _ (Mem.writeHome_wf pw (leBytes 4 val.toNat) h)
  | some r =>
    simp only [Mem.redWord, hr]
    exact Memory.wf_poison { m with regs := _ } _ (Memory.wf_modRegs hr 0xF val h)

theorem State.redAt_wf {s : State} (op : AtomVar) (pa opnd : Nat) (h : Memory.wf s.mem = true) :
    Memory.wf (s.redAt op pa opnd).mem = true := by
  unfold State.redAt
  refine foldl_keeps (fun t : State => Memory.wf t.mem = true) _ (fun t p hb => ?_) _ s h
  rw [State.watch_mem]
  exact Mem.redWord_wf op p.1 p.2.2 hb

theorem State.performRed_wf {s : State} (r : PostedRed) (h : Memory.wf s.mem = true) : Memory.wf (s.performRed r).mem = true := by
  unfold State.performRed
  split
  · exact h
  dsimp only
  split
  · exact foldl_keeps (fun m => Memory.wf m = true) _ (fun _ _ hb => Mem.renew_wf _ _ hb) _ _ (State.redAt_wf _ _ _ h)
  · exact State.redAt_wf _ _ _ h

theorem State.performReds_wf {s : State} (t : PostedRed → Bool) (h : Memory.wf s.mem = true) : Memory.wf (s.performReds t).mem = true :=
  foldl_keeps (fun t : State => Memory.wf t.mem = true) State.performRed (fun _ _ hb => State.performRed_wf _ hb) _ _
    (Memory.wf_of h rfl rfl rfl rfl rfl rfl)

theorem State.redsBefore_wf {s : State} (gid pa n : Nat) (h : Memory.wf s.mem = true) : Memory.wf (s.redsBefore gid pa n).mem = true :=
  State.performReds_wf _ h

/-! ### The stash -/

theorem Mem.setLine_wf {m : Mem} (l : Line) (h : Memory.wf m = true) : Memory.wf (m.setLine l) = true :=
  Memory.wf_of h rfl rfl rfl rfl rfl rfl

theorem State.stashRead_wf {s : State} (plain : Bool) (core : Nat) (all : List StashRange) (off n : Nat) (h : Memory.wf s.mem = true) :
    Memory.wf (s.stashRead plain core all off n).1.mem = true := by
  refine foldl_keeps (fun m => Memory.wf m = true) _ (fun m p hb => ?_) _ s.mem h
  split
  · dsimp only
    split
    · split
      · exact hb
      · exact Mem.dropCopy_wf _ _ hb
    · split
      · exact Mem.renewRepl_wf _ _ _ hb
      · exact Mem.renew_wf _ _ hb
  · exact hb

theorem State.watchesStash_mem {α : Type} (k : α → Nat) (ws : List α) (s : State) :
    (ws.foldl (fun u w => u.watchStash (k w)) s).mem = s.mem := by
  induction ws generalizing s with
  | nil => rfl
  | cons a r ih => exact ih _

theorem State.stashWrite_wf {s : State} (gid : Nat) (plain : Bool) (core off : Nat) (bs : List Byte) (h : Memory.wf s.mem = true) :
    Memory.wf (s.stashWrite gid plain core off bs).mem = true := by
  unfold State.stashWrite
  split
  · exact h
  refine foldl_keeps (fun t : State => Memory.wf t.mem = true) _ (fun t p hb => ?_) _ _
    (Memory.wf_of (Memory.wf_stash (Store.wf_write _ (stashKey core off) bs (Memory.stash_wf h)) h) rfl rfl rfl rfl rfl rfl)
  split
  · exact State.store_wf _ _ _ _ _ _ hb
  · rw [State.watchesStash_mem]; exact hb

theorem Mem.refreshLine_wf {m : Mem} (l : Line) (h : Memory.wf m = true) : Memory.wf (m.refreshLine l) = true := by
  refine foldl_keeps (fun n : Mem => Memory.wf n = true) _ (fun n i hn => ?_) _ m h
  dsimp only
  split
  · exact hn
  · exact Memory.wf_stash (Store.wf_write _ _ _ (Memory.stash_wf hn)) hn

theorem State.flushLine_wf {s : State} (core line : Nat) (h : Memory.wf s.mem = true) : Memory.wf (s.flushLine core line).1.mem = true := by
  unfold State.flushLine
  split
  · dsimp only
    split
    · exact h
    · split
      · exact Memory.wf_filterRegs _ h
      · split
        · exact Memory.wf_filterRegs _ h
        · exact Mem.writeBackAll_wf _ h
  · exact h

/-! ### Pages that move -/

theorem Store.filter_wf {w : Nat} (st : Store w) (t : Nat × BitVec w → Bool) (h : st.wf = true) : Store.wf (st.filter t) = true :=
  Store.above_filter st t h

theorem Store.moveRange_wf {w : Nat} (st : Store w) (old new n : Nat) (h : st.wf = true) : (st.moveRange old new n).wf = true :=
  Store.wf_setAll _ _ (Store.filter_wf st _ h)

theorem State.movePage_wf {s : State} (old new n : Nat) (h : Memory.wf s.mem = true) :
    Memory.wf (s.movePage old new n).mem = true := by
  have hs : ∀ t, Memory.wf (s.performReds t).mem = true := fun t => State.performReds_wf t h
  have hw : ∀ t l, Memory.wf ((s.performReds t).mem.writeBackAll l) = true := fun t l => Mem.writeBackAll_wf l (hs t)
  unfold State.movePage
  exact Memory.wf_of (Memory.wf_homeVa (Store.moveRange_wf _ _ _ _ (Memory.homeVa_wf (hw _ _)))
    (Memory.wf_bytes (Store.moveRange_wf _ _ _ _ (Memory.bytes_wf (hw _ _))) (hw _ _))) rfl rfl rfl rfl rfl rfl

/-! ### Bytes -/

/-- What a byte of a word is: the owner's where it has written it, else the home's (R255, R256). -/
theorem Mem.byte_of_none {m : Mem} {pa : Nat} (h : m.reg? (wordOf pa) = none) : m.byte pa = m.bytes.get pa := by
  simp [Mem.byte, h]

theorem Mem.byte_of_some {m : Mem} {pa : Nat} {r : Reg} (h : m.reg? (wordOf pa) = some r) :
    m.byte pa = if r.mask.getLsbD (pa % 4) then byteOf r.value (pa % 4) else m.bytes.get pa := by
  simp [Mem.byte, h]

theorem wordOf_add_mod (pa : Nat) : wordOf pa + pa % 4 = pa := by unfold wordOf; omega

theorem Mem.reg?_writeBack_same (m : Mem) (pw : Nat) : (m.writeBack pw).reg? pw = none := by
  unfold Mem.writeBack
  split
  · assumption
  · simp [Mem.reg?]

theorem Mem.reg?_writeBack_ne (m : Mem) {pw k : Nat} (h : k ≠ pw) : (m.writeBack pw).reg? k = m.reg? k := by
  unfold Mem.writeBack
  split
  · rfl
  · unfold Mem.reg?
    rw [List.find?_filter]
    congr 1; funext r
    by_cases hk : r.pa = k
    · simp [hk, h]
    · simp [hk]

/-- The home of a word after its registration ends holds what the registry gave; every other home is unchanged. -/
theorem Mem.bytes_writeBack (m : Mem) {pw : Nat} (hp : pw % 4 = 0) (a : Nat) :
    (m.writeBack pw).bytes.get a = if wordOf a = pw then m.byte a else m.bytes.get a := by
  have hw : wordOf a = pw ↔ pw ≤ a ∧ a < pw + 4 := by unfold wordOf; omega
  unfold Mem.writeBack
  split
  · rename_i h
    split
    · rename_i he; rw [Mem.byte_of_none (he ▸ h)]
    · rfl
  · rename_i r h
    have hput : ∀ (st : Store 8) (i : Nat), (if r.mask.getLsbD i then st.set (pw + i) (byteOf r.value i) else st).get a =
        if a = pw + i ∧ r.mask.getLsbD i = true then byteOf r.value i else st.get a := by
      intro st i
      by_cases hm : r.mask.getLsbD i = true
      · simp [hm, Store.get_set]
      · simp [hm]
    simp only [hput]
    by_cases he : wordOf a = pw
    · rw [if_pos he, Mem.byte_of_some (he ▸ h)]
      obtain ⟨h1, h2⟩ := hw.mp he
      obtain ⟨i, hi, rfl⟩ : ∃ i < 4, a = pw + i := ⟨a - pw, by omega, by omega⟩
      have hmod : (pw + i) % 4 = i := by omega
      rw [hmod]
      have : i = 0 ∨ i = 1 ∨ i = 2 ∨ i = 3 := by omega
      rcases this with rfl | rfl | rfl | rfl <;> simp
    · rw [if_neg he]
      have hn : ∀ i < 4, a ≠ pw + i := fun i hi e => he (hw.mpr (by omega))
      simp [hn 3 (by omega), hn 2 (by omega), hn 1 (by omega), (by have := hn 0 (by omega); simpa using this : a ≠ pw)]

/-- The end of a registration changes no byte (R256, R258). -/
theorem Mem.byte_writeBack (m : Mem) {pw : Nat} (hp : pw % 4 = 0) (a : Nat) : (m.writeBack pw).byte a = m.byte a := by
  by_cases he : wordOf a = pw
  · rw [Mem.byte_of_none (by rw [he]; exact Mem.reg?_writeBack_same m pw), Mem.bytes_writeBack m hp, if_pos he]
  · have hr := Mem.reg?_writeBack_ne m he
    have hb := Mem.bytes_writeBack m hp a
    rw [if_neg he] at hb
    simp only [Mem.byte, hr, hb]

theorem Mem.byte_writeBackAll (m : Mem) (l : List Nat) (hl : ∀ p ∈ l, p % 4 = 0) (a : Nat) : (m.writeBackAll l).byte a = m.byte a := by
  unfold Mem.writeBackAll
  induction l generalizing m with
  | nil => rfl
  | cons p r ih =>
    rw [List.foldl_cons, ih _ (fun q hq => hl q (List.mem_cons_of_mem _ hq)), Mem.byte_writeBack m (hl p (List.mem_cons_self ..))]

theorem byteOf_toNat (x : Word) (i : Nat) : (byteOf x i).toNat = x.toNat / 2 ^ (8 * i) % 256 := by
  simp [byteOf, BitVec.toNat_ofNat]

/-- One byte of a word after another byte is put into it. -/
theorem byteOf_putByte (x : Word) (b : Byte) {i j : Nat} (hi : i < 4) (hj : j < 4) :
    byteOf (putByte x i b) j = if j = i then b else byteOf x j := by
  apply BitVec.eq_of_toNat_eq
  have hx : x.toNat < 2 ^ 32 := x.isLt
  have hb : b.toNat < 256 := b.isLt
  have hp : (putByte x i b).toNat = (x.toNat - x.toNat / 2 ^ (8 * i) % 256 * 2 ^ (8 * i) + b.toNat * 2 ^ (8 * i)) % 2 ^ 32 := by
    simp [putByte, byteOf_toNat, BitVec.toNat_ofNat]
  rw [byteOf_toNat, hp]
  have hi' : i = 0 ∨ i = 1 ∨ i = 2 ∨ i = 3 := by omega
  have hj' : j = 0 ∨ j = 1 ∨ j = 2 ∨ j = 3 := by omega
  rcases hi' with rfl | rfl | rfl | rfl <;> rcases hj' with rfl | rfl | rfl | rfl <;>
    simp only [if_true, if_false, byteOf_toNat, Nat.reduceMul, Nat.reducePow, Nat.reduceEqDiff, OfNat.ofNat_ne_zero, one_ne_zero, zero_ne_one,
      OfNat.zero_ne_ofNat, OfNat.ofNat_ne_one, OfNat.one_ne_ofNat] <;> omega

/-- One byte of a word after some of its bytes are put over it. -/
theorem byteOf_putBytes (x : Word) (mask : BitVec 4) (val : Word) {j : Nat} (hj : j < 4) :
    byteOf (putBytes x mask val) j = if mask.getLsbD j then byteOf val j else byteOf x j := by
  have step : ∀ (y : Word) (i : Nat), i < 4 → byteOf (if mask.getLsbD i then putByte y i (byteOf val i) else y) j =
      if j = i ∧ mask.getLsbD i = true then byteOf val i else byteOf y j := by
    intro y i hi
    split
    · rename_i hm; rw [byteOf_putByte y _ hi hj]; simp [hm]
    · rename_i hm; simp [hm]
  simp only [putBytes]
  rw [step _ 3 (by omega), step _ 2 (by omega), step _ 1 (by omega), step _ 0 (by omega)]
  have hj' : j = 0 ∨ j = 1 ∨ j = 2 ∨ j = 3 := by omega
  rcases hj' with rfl | rfl | rfl | rfl <;> simp

theorem Mem.byte_cede (m : Mem) (ag : Agent) {pw : Nat} (hp : pw % 4 = 0) (a : Nat) : (m.cede ag pw).byte a = m.byte a := by
  unfold Mem.cede
  split
  · split
    · rfl
    · exact Mem.byte_writeBack m hp a
  · rfl

theorem find?_modWhere {α : Type} (l : List α) (t : α → Bool) (x : α) (hx : t x = true) (h : l.any t = true) :
    (modWhere l t (fun _ => x)).find? t = some x := by
  induction l with
  | nil => simp at h
  | cons a r ih =>
    rw [show modWhere (a :: r) t (fun _ => x) = (if t a then x else a) :: modWhere r t (fun _ => x) from rfl]
    by_cases ha : t a = true
    · simp [ha, hx]
    · simp [ha, ih (by simpa [ha] using h)]

theorem find?_modWhere_ne {α : Type} (l : List α) (t u : α → Bool) (x : α) (hx : u x = false) (htu : ∀ a, t a = true → u a = false) :
    (modWhere l t (fun _ => x)).find? u = l.find? u := by
  induction l with
  | nil => rfl
  | cons a r ih =>
    rw [show modWhere (a :: r) t (fun _ => x) = (if t a then x else a) :: modWhere r t (fun _ => x) from rfl]
    by_cases ha : t a = true
    · simp [ha, hx, htu a ha, ih]
    · simp [ha, List.find?_cons, ih]

theorem find?_upsert {α : Type} (l : List α) (t : α → Bool) (x : α) (hx : t x = true) : (upsert l t x).find? t = some x := by
  unfold upsert
  split
  · rename_i h; exact find?_modWhere l t x hx h
  · rename_i h
    rw [List.find?_append, List.find?_eq_none.mpr (by simpa using h)]
    simp [hx]

theorem find?_upsert_ne {α : Type} (l : List α) (t u : α → Bool) (x : α) (hx : u x = false) (htu : ∀ a, t a = true → u a = false) :
    (upsert l t x).find? u = l.find? u := by
  unfold upsert
  split
  · exact find?_modWhere_ne l t u x hx htu
  · rw [List.find?_append]; cases l.find? u <;> simp [hx]

/-- A write changes the masked bytes of its word, as software reads them, and no other byte (R255). -/
theorem Mem.byte_register (m : Mem) (plain : Option Writer) (ag : Agent) {pw : Nat} (hp : pw % 4 = 0) (mask : BitVec 4) (val : Word) (a : Nat) :
    (m.register plain ag pw mask val).byte a = if wordOf a = pw ∧ mask.getLsbD (a % 4) = true then byteOf val (a % 4) else m.byte a := by
  rw [← Mem.byte_cede m ag hp a]
  have hpa := Mem.regFor_pa (m.cede ag pw) ag pw
  by_cases he : wordOf a = pw
  · have hr : (m.register plain ag pw mask val).reg? (wordOf a) = some (((m.cede ag pw).regFor ag pw).write plain mask val) := by
      rw [he]
      exact find?_upsert _ (fun r : Reg => r.pa == pw) _ (by simpa [Reg.write] using hpa)
    rw [Mem.byte_of_some hr]
    have hj : a % 4 < 4 := Nat.mod_lt _ (by omega)
    simp only [Reg.write, he, true_and, BitVec.getLsbD_or, byteOf_putBytes _ _ _ hj]
    by_cases hm : mask.getLsbD (a % 4) = true
    · simp [hm]
    · have hb : (m.register plain ag pw mask val).bytes = (m.cede ag pw).bytes := rfl
      cases hc : (m.cede ag pw).reg? pw with
      | none => rw [Mem.byte_of_none (by rw [he]; exact hc), hb]; simp [hm, Mem.regFor, hc]
      | some r => rw [Mem.byte_of_some (r := r) (by rw [he]; exact hc), hb]; simp [hm, Mem.regFor, hc]
  · have hr : (m.register plain ag pw mask val).reg? (wordOf a) = (m.cede ag pw).reg? (wordOf a) := by
      refine find?_upsert_ne _ _ _ _ ?_ ?_
      · simp only [Reg.write, hpa]; simpa using fun h => he h.symm
      · intro r hr
        have : r.pa = pw := by simpa using hr
        simp only [this]; simpa using fun h => he h.symm
    rw [if_neg (fun h => he h.1)]
    simp only [Mem.byte, hr]
    rfl

/-- A stash copy takes other contents: no byte of memory changes. -/
theorem Mem.byte_renew (m : Mem) (core pw a : Nat) : (m.renew core pw).byte a = m.byte a := by
  have h : (m.renew core pw).bytes = m.bytes ∧ (m.renew core pw).regs = m.regs := by
    unfold Mem.renew Mem.setStashCopy
    refine foldl_keeps (fun n : Mem => n.bytes = m.bytes ∧ n.regs = m.regs) _ (fun _ _ hb => ?_) _ _ ⟨rfl, rfl⟩
    exact hb
  simp only [Mem.byte, Mem.reg?, h.1, h.2]

/-- `Mem.byte_register` for a store of one word. -/
theorem State.byte_storeWord (s : State) (plain : Option Writer) (ag : Agent) (pa : Nat) (mask : BitVec 4) (val : Word) (a : Nat) :
    (s.storeWord plain ag pa mask val).mem.byte a =
      if wordOf a = wordOf pa ∧ mask.getLsbD (a % 4) = true then byteOf val (a % 4) else s.mem.byte a := by
  rw [← Mem.byte_register s.mem plain ag (wordOf_aligned pa) mask val a]
  unfold State.storeWord
  rw [State.watch_mem]
  dsimp only
  split
  · exact Mem.byte_renew _ _ _ _
  · rfl

/-! ### Stores of several words -/

/-- The j-th word that some bytes touch. -/
def partAt (pa : Nat) (bs : List Byte) (j : Nat) : Nat × BitVec 4 × Word :=
  let n := bs.length
  let pw := wordOf pa + 4 * j
  let has (i : Nat) : Bool := decide (pa ≤ pw + i) && decide (pw + i < pa + n)
  let bit (i : Nat) : BitVec 4 := if has i then BitVec.ofNat 4 (2 ^ i) else 0
  let put (x : Word) (i : Nat) : Word := if has i then putByte x i (bs.getD (pw + i - pa) 0) else x
  (pw, bit 0 ||| bit 1 ||| bit 2 ||| bit 3, put (put (put (put 0 0) 1) 2) 3)

theorem wordParts_eq (pa : Nat) (bs : List Byte) :
    wordParts pa bs = (List.range ((pa + bs.length + 3) / 4 - pa / 4)).map (partAt pa bs) := rfl

/-- Which bytes of a word a part writes. -/
theorem partAt_mask (pa : Nat) (bs : List Byte) (j : Nat) {i : Nat} (hi : i < 4) :
    (partAt pa bs j).2.1.getLsbD i = (decide (pa ≤ wordOf pa + 4 * j + i) && decide (wordOf pa + 4 * j + i < pa + bs.length)) := by
  have h : ∀ (c : Bool) (k : Nat), k < 4 → (if c then BitVec.ofNat 4 (2 ^ k) else 0 : BitVec 4).getLsbD i = (c && decide (i = k)) := by
    intro c k hk
    have hi' : i = 0 ∨ i = 1 ∨ i = 2 ∨ i = 3 := by omega
    have hk' : k = 0 ∨ k = 1 ∨ k = 2 ∨ k = 3 := by omega
    cases c <;> rcases hi' with rfl | rfl | rfl | rfl <;> rcases hk' with rfl | rfl | rfl | rfl <;> decide
  simp only [partAt, BitVec.getLsbD_or]
  rw [h _ 0 (by omega), h _ 1 (by omega), h _ 2 (by omega), h _ 3 (by omega)]
  have hi' : i = 0 ∨ i = 1 ∨ i = 2 ∨ i = 3 := by omega
  rcases hi' with rfl | rfl | rfl | rfl <;> simp

/-- The bytes that a part writes. -/
theorem partAt_byte (pa : Nat) (bs : List Byte) (j : Nat) {i : Nat} (hi : i < 4) (h : (partAt pa bs j).2.1.getLsbD i = true) :
    byteOf (partAt pa bs j).2.2 i = bs.getD (wordOf pa + 4 * j + i - pa) 0 := by
  rw [partAt_mask pa bs j hi] at h
  have step : ∀ (y : Word) (c : Bool) (k : Nat) (b : Byte), k < 4 → byteOf (if c then putByte y k b else y) i =
      if i = k ∧ c = true then b else byteOf y i := by
    intro y c k b hk
    split
    · rename_i hc; rw [byteOf_putByte y _ hk hi]; simp [hc]
    · rename_i hc; simp [hc]
  simp only [partAt]
  rw [step _ _ 3 _ (by omega), step _ _ 2 _ (by omega), step _ _ 1 _ (by omega), step _ _ 0 _ (by omega)]
  have hi' : i = 0 ∨ i = 1 ∨ i = 2 ∨ i = 3 := by omega
  rcases hi' with rfl | rfl | rfl | rfl <;> simp_all

/-- A byte after the first words of a store. -/
theorem State.byte_storeParts (plain : Option Writer) (ag : Agent) (pa : Nat) (bs : List Byte) (s : State) (k a : Nat) :
    (((List.range k).map (partAt pa bs)).foldl (fun t p => t.storeWord plain ag p.1 p.2.1 p.2.2) s).mem.byte a =
      if pa ≤ a ∧ a < pa + bs.length ∧ a < wordOf pa + 4 * k then bs.getD (a - pa) 0 else s.mem.byte a := by
  induction k with
  | zero =>
    have : ¬(pa ≤ a ∧ a < pa + bs.length ∧ a < wordOf pa + 4 * 0) := by unfold wordOf; omega
    rw [if_neg this]; rfl
  | succ k ih =>
    rw [List.range_succ, List.map_append, List.foldl_append]
    simp only [List.map_cons, List.map_nil, List.foldl_cons, List.foldl_nil]
    rw [State.byte_storeWord, ih]
    have hj : a % 4 < 4 := Nat.mod_lt _ (by omega)
    have hw : wordOf (partAt pa bs k).1 = wordOf pa + 4 * k := by simp only [partAt, wordOf]; omega
    rw [hw]
    by_cases he : wordOf a = wordOf pa + 4 * k
    · have ha : wordOf pa + 4 * k + a % 4 = a := by rw [← he]; exact wordOf_add_mod a
      by_cases hm : (partAt pa bs k).2.1.getLsbD (a % 4) = true
      · rw [if_pos ⟨he, hm⟩, partAt_byte pa bs k hj hm, ha]
        rw [partAt_mask pa bs k hj, ha] at hm
        simp only [Bool.and_eq_true, decide_eq_true_eq] at hm
        rw [if_pos ⟨hm.1, hm.2, by omega⟩]
      · rw [if_neg (fun h => hm h.2)]
        rw [partAt_mask pa bs k hj, ha] at hm
        simp only [Bool.and_eq_true, decide_eq_true_eq] at hm
        rw [if_neg (by omega), if_neg (by omega)]
    · rw [if_neg (fun h => he h.1)]
      have : a < wordOf pa + 4 * k ↔ a < wordOf pa + 4 * (k + 1) := by
        have := wordOf_add_mod a
        have h4 : wordOf a % 4 = 0 := wordOf_aligned a
        have h5 : wordOf pa % 4 = 0 := wordOf_aligned pa
        omega
      simp only [this]

/-- A store leaves its bytes where they belong, as software reads them, and every other byte as it was (R255, R256). -/
theorem State.byte_storeAtom (s : State) (plain : Option Writer) (ag : Agent) (pa : Nat) (bs : List Byte) (a : Nat) :
    (s.storeAtom plain ag pa bs).mem.byte a = if pa ≤ a ∧ a < pa + bs.length then bs.getD (a - pa) 0 else s.mem.byte a := by
  unfold State.storeAtom
  rw [wordParts_eq, State.byte_storeParts]
  have : a < pa + bs.length → a < wordOf pa + 4 * ((pa + bs.length + 3) / 4 - pa / 4) := by unfold wordOf; omega
  by_cases h : pa ≤ a ∧ a < pa + bs.length
  · rw [if_pos ⟨h.1, h.2, this h.2⟩, if_pos h]
  · rw [if_neg (fun h' => h ⟨h'.1, h'.2.1⟩), if_neg h]

theorem Mem.reg?_writeBack_none (m : Mem) (pw k : Nat) (h : m.reg? k = none) : (m.writeBack pw).reg? k = none := by
  by_cases hk : k = pw
  · rw [hk]; exact Mem.reg?_writeBack_same m pw
  · rw [Mem.reg?_writeBack_ne m hk]; exact h

theorem Mem.reg?_writeBackAll (m : Mem) (l : List Nat) {k : Nat} (hk : k ∈ l ∨ m.reg? k = none) : (m.writeBackAll l).reg? k = none := by
  unfold Mem.writeBackAll
  induction l generalizing m with
  | nil => simpa using hk
  | cons p r ih =>
    rw [List.foldl_cons]
    refine ih _ ?_
    rcases hk with hk | hk
    · rcases List.mem_cons.mp hk with rfl | hk
      · exact .inr (Mem.reg?_writeBack_same m k)
      · exact .inl hk
    · exact .inr (Mem.reg?_writeBack_none m p k hk)

/-- Words that some bytes touch. -/
theorem mem_wordParts {pa : Nat} {bs : List Byte} {a : Nat} (h1 : pa ≤ a) (h2 : a < pa + bs.length) :
    wordOf a ∈ (wordParts pa bs).map (fun p => p.1) := by
  rw [wordParts_eq]
  simp only [List.map_map, List.mem_map, List.mem_range, Function.comp]
  exact ⟨a / 4 - pa / 4, by omega, by simp only [partAt, wordOf]; omega⟩

theorem wordParts_aligned {pa : Nat} {bs : List Byte} : ∀ p ∈ (wordParts pa bs).map (fun p => p.1), p % 4 = 0 := by
  intro p hp
  rw [wordParts_eq] at hp
  simp only [List.map_map, List.mem_map, Function.comp] at hp
  obtain ⟨j, -, rfl⟩ := hp
  simp only [partAt, wordOf]; omega

/-- A write by the device leaves its bytes at the home, where software reads them, and every other byte as it was. -/
theorem State.byte_deviceWrite (s : State) (pa : Nat) (bs : List Byte) (a : Nat) :
    (s.deviceWrite pa bs).mem.byte a = if pa ≤ a ∧ a < pa + bs.length then bs.getD (a - pa) 0 else s.mem.byte a := by
  simp only [State.deviceWrite, State.watches_mem]
  by_cases h : pa ≤ a ∧ a < pa + bs.length
  · rw [if_pos h, Mem.byte_of_none (by
      show (s.mem.writeBackAll _).reg? (wordOf a) = none
      exact Mem.reg?_writeBackAll _ _ (.inl (mem_wordParts h.1 h.2)))]
    obtain ⟨i, rfl⟩ : ∃ i, a = pa + i := ⟨a - pa, by omega⟩
    have hi : i < bs.length := by omega
    rw [show (Mem.writeHome _ pa bs).bytes = Store.write _ pa bs from rfl, Store.get_write_in _ _ _ hi]
    rw [show pa + i - pa = i by omega, List.getD_eq_getElem _ _ hi]
  · rw [if_neg h, ← Mem.byte_writeBackAll s.mem _ wordParts_aligned a]
    unfold Mem.byte
    rw [show (Mem.writeHome (s.mem.writeBackAll ((wordParts pa bs).map (fun p => p.1))) pa bs).reg? (wordOf a) =
      (s.mem.writeBackAll ((wordParts pa bs).map (fun p => p.1))).reg? (wordOf a) from rfl]
    rw [show (Mem.writeHome (s.mem.writeBackAll ((wordParts pa bs).map (fun p => p.1))) pa bs).bytes.get a =
      (s.mem.writeBackAll ((wordParts pa bs).map (fun p => p.1))).bytes.get a from Store.get_write_out _ _ _ (by omega)]

end Sys2Proof.Machine
end

