-- ==== Sys2Proof/Tests/Slice0.lean ====
section
/-! SUPPORT. Tests with expected results from the spec, and witnesses that the hypotheses of the statements can be met. -/
namespace Sys2Proof.Tests
set_option maxRecDepth 20000
set_option Elab.async false
open Sys2Proof Sys2Proof.Machine

/-! ### Decoding: words that the spec writes out -/

theorem test_decode_mov : decodeWord 0x007C_0000_0884_3E1B = .ok (.mov .always (.v 8) (.ind .down 1)) := by decide +kernel
theorem test_decode_lea : decodeWord 0x00E2_0005_0081_3E1E = .ok (.lea .always false 1 (.v 2) (.s 1) (.v 10)) := by decide +kernel
theorem test_decode_fadd : decodeWord 0x0060_0002_8303_BE40 = .ok (.fadd .always .rne 0 (.v 7) (.v 6) (.v 5)) := by decide +kernel
theorem test_decode_fmul : decodeWord 0x0068_0000_8384_3E42 = .ok (.fmul .always .rne 0 (.v 8) (.v 7) (.s 1)) := by decide +kernel
theorem test_decode_fmul_repeated : decodeWord 0x0068_0001_8008_3E42 = .ok (.fmul .always .rne 0 (.v 16) (.v 0) (.s 3)) := by
  decide +kernel
theorem test_decode_cvt : decodeWord 0x2078_0000_0102_BE95 = .ok (.cvt .always .e4m3 .f32 0 2 .rne false (.v 5) (.v 2)) := by
  decide +kernel
theorem test_decode_redv : decodeWord 0x0078_8000_0481_3EC9 = .ok (.redv .always .addI32 (.s 2) (.v 9)) := by decide +kernel
theorem test_decode_rpt : decodeWord 0x0000_0061_8000_3EFF = .ok (.rpt .always 3 0 3) := by decide +kernel
theorem test_decode_rpt_eight : decodeWord 0x0000_0063_8000_3EFF = .ok (.rpt .always 3 0 7) := by decide +kernel
theorem test_decode_ld_b128 : decodeWord 0x0000_0000_0106_3F06 = .ok (.ld .always .b128 false ⟨0, 0, false, false, 2, 12⟩) := by decide +kernel
theorem test_decode_ld_b32 : decodeWord 0x0000_4000_0103_3F04 = .ok (.ld .always .b32 false ⟨0x40, 0, false, false, 2, 6⟩) := by decide +kernel
theorem test_decode_ld_b16 : decodeWord 0x0000_0000_0104_3F02 = .ok (.ld .always .b16 false ⟨0, 0, false, false, 2, 8⟩) := by decide +kernel
theorem test_decode_st : decodeWord 0x0000_6001_8183_BF0A = .ok (.st .always .b32 ⟨0x60, 0, true, true, 3, 7⟩) := by decide +kernel
theorem test_decode_atom : decodeWord 0x0000_8031_8203_3F52 = .ok (.atom .always .xchg64 .sys ⟨128, 0, true, true, 4, 6⟩) := by decide +kernel
theorem test_decode_wait : decodeWord 0x02EA_0002_8204_BF74 = .ok (.wait .always true 1 (.v 9) (.s 4) (.s 5) .zero) := by decide +kernel
theorem test_decode_cpy : decodeWord 0x0000_A100_1840_BF79 = .ok (.cpy .always ⟨none, some .pkg, 2, 0, 3, 2, 1⟩) := by decide +kernel
theorem test_decode_mma : decodeWord 0x0000_2000_0041_0B81 = .ok (.mma ⟨5, false⟩ true false 1 0 2) := by decide +kernel
theorem test_decode_accrd : decodeWord 0x0000_0F18_4001_3F84 = .ok (.accrdF32 .always ⟨15, 6, 16, 2⟩) := by decide +kernel
theorem test_decode_elect : decodeWord 0x007F_8000_0012_BFC5 = .ok (.elect .always (.p 5)) := by decide +kernel
theorem test_decode_getsys_lane : decodeWord 0x0000_0080_0800_3FCC = .ok (.getsys .always .lane (.v 1)) := by decide +kernel
theorem test_decode_getsys_group : decodeWord 0x0000_0008_0000_BFCC = .ok (.getsys .always .group (.s 1)) := by decide +kernel
theorem test_decode_trap : decodeWord 0x0000_4200_0000_3FC9 = .ok (.trap .always 0x42) := by decide +kernel
theorem test_decode_spawn : decodeWord 0x0000_A380_0040_BFC6 = .ok (.spawn .always (some .pkg) 2 1) := by decide +kernel
theorem test_decode_spawnc : decodeWord 0x0000_A380_1840_BFC7 = .ok (.spawnc .always (some .pkg) 3 2 1) := by decide +kernel
theorem test_decode_operand_class : decodeWord 0x0008_0002_8082_4600 = .error 3 := by decide +kernel
theorem test_decode_lowest_subcode : decodeWord 0x0008_0002_8082_445B = .error 0 := by decide +kernel
theorem test_decode_reserved_guard : decodeWord 0x0060_0002_8303_B640 = .error 1 := by decide +kernel
theorem test_header_live_without_sp : headerBad 0x0000_0000_0002_0010 = true := by decide +kernel
theorem test_header_memory_clause : headerBad 0x0000_0000_0002_0890 = false := by decide +kernel

/-! ### Ill-formed terms that the checks refuse -/

/-- A term for each check of `Instr.wf`: reserved guards, registers and fields, operand classes, alignment, and combinations. -/
def illFormed : List Instr :=
  [.iadd ⟨27, false⟩ (.v 1) (.v 2) (.v 3), .iadd ⟨31, true⟩ (.v 1) (.v 2) (.v 3), .iadd .always (.v 1) (.p 24) (.v 3),
   .iadd .always (.p 1) (.v 2) (.v 3), .iadd .always (.s 1) (.v 2) (.v 3), .iadd .always (.v 1) .fsr (.v 3),
   .iadd .always (.v 1) (.ind .up 1) (.ind .down 1), .imad .always (.s 1) (.s 2) (.s 3) (.v 4), .iabs .always .fsr (.v 1),
   .sel .always (.v 1) (.v 2) (.v 3) (.v 4), .mov .always .fsr (.v 1), .mov .always (.s 1) (.v 1),
   .isetp .always true .none .eq (.p 1) (.v 2) (.v 3) (.p 4), .isetp .always true .and .eq (.p 1) (.v 2) (.v 3) .zero,
   .lea .always true 0 (.v 1) (.v 2) (.v 3), .iadd64 .always (.v 2) (.v 3) (.v 4), .movi .always true 64 0, .moviHi .always 64 0,
   .moviSx .always 200 0, .iaddImm .always true 1 64 0, .leaImm .always false 1 2 0, .fadd .always .rne 0x10 (.v 1) (.v 2) (.v 3),
   .frnd .always .rne 4 (.v 1) (.v 2), .fsetp .always .none 0 .lt (.v 1) (.v 2) (.v 3) .zero, .fadd .always .rne 0 (.v 1) (.p 2) (.v 3),
   .cvt .always .f32 .e4m3 0 0 .rne true (.v 1) (.v 2), .cvt .always .f32 .f32 0 0 .rne false (.v 1) (.v 2),
   .cvt .always .f32 .e4m3 4 0 .rne false (.v 1) (.v 2), .cvt .always .e4m3 .f32 0 4 .rne false (.v 1) (.v 2),
   .cvtq .always 0 (.s 1) (.v 2) .zero .zero, .cvtqAuto .always 0 (.v 1) (.s 2) .zero, .perm .always (.s 1) (.v 2) (.v 3) .zero,
   .pand .always false false (.p 1) (.v 2) (.p 3), .idxset .always .word (.v 1) (.v 2), .scanv .always .addI32 (.s 1) (.v 2),
   .ld .always .b32 false ⟨0, 6, false, false, 2, 4⟩, .ld .always .b32 false ⟨0, 0, false, false, 3, 4⟩,
   .ld .always .b64 false ⟨0, 0, false, false, 2, 3⟩, .st .always .b128 ⟨0, 0, true, true, 2, 4⟩, .pref .always ⟨0, 0, false, false, 2, 1⟩,
   .atom .always .cas32 .grp ⟨0, 0, false, false, 2, 3⟩, .red .always .cas32 .grp ⟨0, 0, false, false, 2, 4⟩,
   .groupSubmission .always ⟨0, 0, false, false, 2, 4⟩, .evtAdd .always 6 (.v 1) (.s 1), .mmas .always false false 3 0 0 1 0,
   .accrdPair .always ⟨8, 0, 0, 0⟩, .setseg .always 6 1 2, .wait .always true 0 (.s 1) (.s 4) (.s 5) .zero, .bar .always 1 (.s 1),
   .clauseIssue 1]

theorem test_illformed_refused : illFormed.map Instr.wf = illFormed.map (fun _ => false) := by decide +kernel

/-! ### States for witnesses: a group about to issue an instruction -/

/-- A state whose next step issues an instruction. -/
def demo (i : Instr) : State := State.reset.withFetchWord 64 (encode i)

/-- The instruction is ready in a state and a condition on the context holds. -/
def meets (s : State) (i : Instr) (nms : Ctx → List Named) (ok : Ctx → Bool) : Bool :=
  match ctxOf s (i.guard.getD .always) with
  | some x => x.ready i (nms x) && ok x
  | none => false

theorem runs_of_meets {s i nms ok} (h : meets s i nms ok = true) : ∃ x, Runs i nms s x ∧ ok x = true := by
  unfold meets at h
  split at h
  · next x hx => exact ⟨x, ⟨hx, (Bool.and_eq_true _ _ ▸ h).1⟩, (Bool.and_eq_true _ _ ▸ h).2⟩
  · cases h

theorem runs_with {s i nms} (P : Ctx → Prop) [DecidablePred P] (h : meets s i nms (fun x => decide (P x)) = true) :
    ∃ x, Runs i nms s x ∧ P x := by
  obtain ⟨x, hx, hp⟩ := runs_of_meets h
  exact ⟨x, hx, of_decide_eq_true hp⟩

/-- Each instruction of a list runs, with the registers it names, in the state made for it. -/
def AllRun (l : List (Instr × List Named)) : Prop := ∀ e ∈ l, e.1.wf = true ∧ ∃ x, Runs e.1 (fun _ => e.2) (demo e.1) x

theorem allRun_of {l : List (Instr × List Named)} (h : l.all (fun e => e.1.wf && meets (demo e.1) e.1 (fun _ => e.2) (fun _ => true)) = true) :
    AllRun l := fun e he => by
  have := List.all_eq_true.mp h e he
  rw [Bool.and_eq_true] at this
  obtain ⟨x, hx, -⟩ := runs_of_meets this.2
  exact ⟨this.1, x, hx⟩

/-- A guard that no lane meets: predicates are 0 at first. -/
def nobody : Guard := ⟨0, false⟩

theorem witness_IntegerArithmetic : AllRun
    [(.iadd .always (.v 1) (.v 2) (.s 3), namesA (.v 1) [.v 2, .s 3]), (.isub .always (.v 1) (.v 2) .zero, namesA (.v 1) [.v 2, .zero]),
     (.imul .always (.s 1) (.s 2) (.s 3), namesA (.s 1) [.s 2, .s 3]), (.imulh .always true (.v 255) (.v 0) (.v 255), namesA (.v 255) [.v 0, .v 255]),
     (.imad .always (.v 1) (.v 2) (.v 3) (.v 4), namesA (.v 1) [.v 2, .v 3, .v 4]), (.imin .always true .zero (.v 2) (.v 3), namesA .zero [.v 2, .v 3]),
     (.imax .always false (.v 1) (.p 23) (.x 7), namesA (.v 1) [.p 23, .x 7]), (.iabs .always (.v 1) (.v 1), namesA (.v 1) [.v 1]),
     (.ineg .always (.s 63) (.s 63), namesA (.s 63) [.s 63]), (.iaddSat nobody false (.v 1) (.v 2) (.v 3), namesA (.v 1) [.v 2, .v 3]),
     (.isubSat .always true (.v 1) (.v 2) (.v 3), namesA (.v 1) [.v 2, .v 3]), (.iaddX2 .always (.v 1) (.v 2) (.v 3), namesA (.v 1) [.v 2, .v 3]),
     (.isubX2 .always (.v 1) (.v 2) (.v 3), namesA (.v 1) [.v 2, .v 3]), (.iminX2 .always true (.v 1) (.v 2) (.v 3), namesA (.v 1) [.v 2, .v 3]),
     (.imaxX2 .always false (.v 1) (.v 2) (.v 3), namesA (.v 1) [.v 2, .v 3])] := allRun_of (by decide +kernel)

theorem witness_LogicFieldsAndCompares : AllRun
    [(.and .always (.v 1) (.v 2) (.s 3), namesA (.v 1) [.v 2, .s 3]), (.or .always (.v 1) (.v 2) (.s 3), namesA (.v 1) [.v 2, .s 3]),
     (.xor .always (.v 1) (.v 2) (.s 3), namesA (.v 1) [.v 2, .s 3]), (.not .always (.v 1) (.v 2), namesA (.v 1) [.v 2]),
     (.shl .always (.v 1) (.v 2) (.s 3), namesA (.v 1) [.v 2, .s 3]), (.shr .always (.v 1) (.v 2) (.s 3), namesA (.v 1) [.v 2, .s 3]),
     (.sar .always (.v 1) (.v 2) (.s 3), namesA (.v 1) [.v 2, .s 3]), (.rot .always (.v 1) (.v 2) (.s 3), namesA (.v 1) [.v 2, .s 3]),
     (.bfe .always true (.v 1) (.v 2) (.s 3), namesA (.v 1) [.v 2, .s 3]), (.bfi .always (.v 1) (.v 2) (.v 3) (.v 4), namesA (.v 1) [.v 2, .v 3, .v 4]),
     (.popc .always (.v 1) (.v 2), namesA (.v 1) [.v 2]), (.clz .always (.v 1) (.v 2), namesA (.v 1) [.v 2]),
     (.brev .always (.s 1) (.s 2), namesA (.s 1) [.s 2])] := allRun_of (by decide +kernel)

theorem witness_LogicFieldsAndCompares_select : AllRun
    [(.sel .always (.v 1) (.v 2) (.s 3) (.p 4), namesA (.v 1) [.v 2, .s 3, .p 4]),
     (.isetp .always true .none .lt (.p 1) (.v 2) (.v 3) .zero, namesA (.p 1) [.v 2, .v 3, .zero]),
     (.isetp .always false .xor .ge .zero (.v 2) (.v 3) (.p 23), namesA .zero [.v 2, .v 3, .p 23])] := allRun_of (by decide +kernel)

theorem witness_MovesAndIndexFields : AllRun
    [(.mov .always (.s 1) (.s 2), namesA (.s 1) [.s 2]), (.mov .always .fsr (.s 2), namesA .fsr [.s 2]), (.mov .always (.v 1) .fsr, namesA (.v 1) [.fsr]),
     (.mov .always (.p 3) (.v 2), namesA (.p 3) [.v 2]), (.mov .always (.x 3) (.s 2), namesA (.x 3) [.s 2]),
     (.idxset .always .mode (.x 7) (.v 2), namesA (.x 7) [.v 2]), (.idxget .always .step (.v 1) (.x 0), namesA (.v 1) [.x 0])] :=
  allRun_of (by decide +kernel)

theorem witness_AddressesAndImmediates : AllRun
    [(.lea .always true 7 (.v 2) (.s 1) (.v 10), [⟨0, .op (.v 2) 2, false⟩, ⟨1, .op (.s 1) 1, true⟩, ⟨2, .op (.v 10) 1, true⟩]),
     (.iadd64 .always (.v 254) (.v 4) .zero, [⟨0, .op (.v 254) 2, false⟩, ⟨1, .op (.v 4) 2, true⟩, ⟨2, .op .zero 1, true⟩]),
     (.leaImm .always true 63 0 0xFFFFFFFF, [⟨0, .op (.s 63) 1, false⟩, ⟨1, .op (.s 0) 1, true⟩]),
     (.iaddImm .always false 255 0 7, namesA (.v 255) [.v 0]), (.imulImm .always true 1 2 7, namesA (.s 1) [.s 2]),
     (.andImm .always false 1 2 7, namesA (.v 1) [.v 2]), (.orImm .always false 1 2 7, namesA (.v 1) [.v 2]), (.xorImm .always false 1 2 7, namesA (.v 1) [.v 2]),
     (.shlImm .always false 1 2 32, namesA (.v 1) [.v 2]), (.shrImm .always false 1 2 32, namesA (.v 1) [.v 2]), (.sarImm .always false 1 2 32, namesA (.v 1) [.v 2]),
     (.movi .always false 1 7, namesA (.v 1) []), (.moviHi .always 1 7, namesA (.s 1) []), (.moviSx .always 63 7, namesA (.s 63) [])] := allRun_of (by decide +kernel)

theorem witness_FloatInstructions : AllRun
    [(.fadd .always .rne 0x0F (.v 1) (.v 2) (.s 3), namesA (.v 1) [.v 2, .s 3]), (.fsub .always .rz 0 (.v 1) (.v 2) (.s 3), namesA (.v 1) [.v 2, .s 3]),
     (.fmul .always .ru 0 (.v 1) (.v 2) .zero, namesA (.v 1) [.v 2, .zero]), (.ffma .always .rd 0x3F (.v 1) (.v 2) (.v 3) (.v 4), namesA (.v 1) [.v 2, .v 3, .v 4]),
     (.frnd .always .rz 3 (.v 1) (.v 2), namesA (.v 1) [.v 2]), (.faddImm .always false 1 2 0x3F800000, namesA (.v 1) [.v 2]),
     (.fmulImm .always true 1 2 0x3F800000, namesA (.s 1) [.s 2])] := allRun_of (by decide +kernel)

theorem witness_FloatInstructions_compare : AllRun
    [(.fmin .always 0 (.v 1) (.v 2) (.s 3), namesA (.v 1) [.v 2, .s 3]), (.fmax .always 0 (.v 1) (.v 2) (.s 3), namesA (.v 1) [.v 2, .s 3]),
     (.fclamp .always 0 (.v 1) (.v 2) (.v 3) (.v 4), namesA (.v 1) [.v 2, .v 3, .v 4]),
     (.fsetp .always .or 0 .num (.p 1) (.v 2) (.v 3) (.p 4), namesA (.p 1) [.v 2, .v 3, .p 4]), (.hadd2 .always true 0 (.v 1) (.v 2) (.v 3), namesA (.v 1) [.v 2, .v 3]),
     (.hfma2 .always false 0 (.v 1) (.v 2) (.v 3) (.v 4), namesA (.v 1) [.v 2, .v 3, .v 4]),
     (.fdot4 .always true 0 (.v 1) (.v 2) (.v 3) (.v 4), namesA (.v 1) [.v 2, .v 3, .v 4])] := allRun_of (by decide +kernel)

/-- Conversions to 32 bits, to a narrow element in lanes, and to one in a uniform register. -/
theorem witness_Conversions : AllRun
    [(.cvt .always .f32 .e2m1 7 0 .rne false (.v 1) (.v 2), [⟨0, .op (.v 1) 1, false⟩, ⟨1, .op (.v 2) 1, true⟩]),
     (.cvt .always .e4m3 .f32 0 3 .rne true (.v 5) (.v 2), [⟨0, .op (.v 5) 1, true⟩, ⟨1, .op (.v 2) 1, true⟩]),
     (.cvt .always .bf16 .i32 0 1 .ru false (.s 5) (.s 2), [⟨0, .op (.s 5) 1, true⟩, ⟨1, .op (.s 2) 1, true⟩])] := allRun_of (by decide +kernel)

/-- A state about to issue an instruction in a task whose launch record has one format slot. -/
def slotDemo (i : Instr) (w : DWord) : State :=
  { demo i with tasks := (demo i).tasks.map (fun t => { t with launch := t.launch.map (fun l => { l with slots := [w] }) }) }

/-- Slots: E4M3 whole blocks and band scale (format 3, block 2, band), E2M1 blocks (format 5, block 1). -/
theorem witness_BlockConversions :
    (∃ x, Runs (.cvtq .always 0 (.v 224) (.v 0) (.v 60) (.s 1)) (fun x => [⟨0, .op (.v 224) (x.slot 0).codeRegs, false⟩, ⟨1, .op (.v 0) (x.slot 0).inputs, true⟩,
        ⟨2, .op (.v 60) 1, true⟩, ⟨3, .op (.s 1) 1, true⟩]) (slotDemo (.cvtq .always 0 (.v 224) (.v 0) (.v 60) (.s 1)) 0x63) x ∧
      ((x.slot 0).quantOk = true ∧ (x.slot 0).bandOk (.s 1) = true ∧ (x.slot 0).block ≠ 0 ∧ 224 + (x.slot 0).codeRegs ≤ 256 ∧ x.l.frameSize = 0)) ∧
    (∃ x, Runs (.cvtqAuto .always 0 (.v 240) (.v 0) .zero) (fun x => [⟨0, .op (.v 240) ((x.slot 0).codeRegs + 1), false⟩,
        ⟨1, .op (.v 0) (x.slot 0).inputs, true⟩, ⟨3, .op .zero 1, true⟩]) (slotDemo (.cvtqAuto .always 0 (.v 240) (.v 0) .zero) 0x15) x ∧
      ((x.slot 0).quantOk = true ∧ (x.slot 0).bandOk .zero = true ∧ (x.slot 0).block ≠ 0 ∧ 240 + (x.slot 0).codeRegs + 1 ≤ 256 ∧ x.l.frameSize = 0)) ∧
    (∃ x, Runs (.cvtdq .always 0 (.v 224) (.v 0) .zero .zero) (fun x => [⟨0, .op (.v 224) (x.slot 0).inputs, false⟩, ⟨1, .op (.v 0) (x.slot 0).codeRegs, true⟩,
        ⟨2, .op .zero 1, true⟩, ⟨3, .op .zero 1, true⟩]) (slotDemo (.cvtdq .always 0 (.v 224) (.v 0) .zero .zero) 0x03) x ∧
      ((x.slot 0).quantOk = true ∧ (x.slot 0).bandOk .zero = true ∧ (x.slot 0).block = 0 ∧ 224 + (x.slot 0).inputs ≤ 256)) ∧
    (∃ x, Runs (.bscale .always 0 (.v 1) (.v 2)) (fun _ => namesA (.v 1) [.v 2]) (slotDemo (.bscale .always 0 (.v 1) (.v 2)) 0x24) x ∧ (x.slot 0).quantOk = true) :=
  ⟨runs_with _ (by decide +kernel), runs_with _ (by decide +kernel), runs_with _ (by decide +kernel), runs_with _ (by decide +kernel)⟩

/-! ### Families 2 and 3: results that land later -/

/-- Each instruction of a list runs, and has something to land in its destination. -/
def AllLand (l : List (Instr × Opnd × List Named)) : Prop :=
  ∀ e ∈ l, ∃ x, Runs e.1 (fun _ => e.2.2) (demo e.1) x ∧ (x.workLanes e.2.1 ≠ [] ∧ x.outNames e.2.1 1 ≠ [])

/-- Each instruction of a list runs, in no lane. -/
def AllEmpty (l : List (Instr × Opnd × List Named)) : Prop :=
  ∀ e ∈ l, ∃ x, Runs e.1 (fun _ => e.2.2) (demo e.1) x ∧ x.lanes = [] ∧ (e.2.1.isS = false → x.workLanes e.2.1 = [])

theorem allLand_of {l : List (Instr × Opnd × List Named)} (h : l.all (fun e => meets (demo e.1) e.1 (fun _ => e.2.2)
    (fun x => decide (x.workLanes e.2.1 ≠ [] ∧ x.outNames e.2.1 1 ≠ []))) = true) : AllLand l :=
  fun e he => runs_with _ (List.all_eq_true.mp h e he)

theorem allEmpty_of {l : List (Instr × Opnd × List Named)} (h : l.all (fun e => meets (demo e.1) e.1 (fun _ => e.2.2)
    (fun x => decide (x.lanes = [] ∧ (e.2.1.isS = false → x.workLanes e.2.1 = [])))) = true) : AllEmpty l :=
  fun e he => runs_with _ (List.all_eq_true.mp h e he)

/-- The special functions with a guard. -/
def specials (g : Guard) : List (Instr × Opnd × List Named) :=
  [(.exp2 g 0 (.v 1) (.v 2) (.s 3) .zero, .v 1, namesA (.v 1) [.v 2, .s 3, .zero]), (.lg2 g 3 (.v 1) (.v 2), .v 1, namesA (.v 1) [.v 2]),
   (.rcp g 0 (.s 1) (.s 2), .s 1, namesA (.s 1) [.s 2]), (.rsq g 0 (.v 1) (.v 2), .v 1, namesA (.v 1) [.v 2]),
   (.sqrt g 0 (.v 1) (.v 2), .v 1, namesA (.v 1) [.v 2])]

theorem witness_SpecialFunctions : AllLand (specials .always) ∧ AllEmpty (specials nobody) :=
  ⟨allLand_of (by decide +kernel), allEmpty_of (by decide +kernel)⟩

theorem witness_LanesVotesAndPredicates_perm :
    let names := fun (x : Ctx) => x.crossNames (.v 1) (.v 2) ((x.lanes.filter (fun l => decide ((x.g.word (.v 3) l).toNat < x.g.width))).map
      (fun l => (l, (x.g.word (.v 3) l).toNat))) [.v 3, .v 4]
    let first := fun (d a : Opnd) (x : Ctx) => x.crossNames d a (if x.any = true then [(x.lanes.headD 0, x.lanes.headD 0)] else []) []
    (∃ x, Runs (.perm .always (.v 1) (.v 2) (.v 3) (.v 4)) names (demo (.perm .always (.v 1) (.v 2) (.v 3) (.v 4))) x ∧
      (x.workLanes (.v 1) ≠ [] ∧ x.outNames (.v 1) 1 ≠ [])) ∧
    (∃ x, Runs (.perm nobody (.v 1) (.v 2) (.v 3) (.v 4)) names (demo (.perm nobody (.v 1) (.v 2) (.v 3) (.v 4))) x ∧ (x.lanes = [] ∧ x.workLanes (.v 1) = [])) ∧
    (∃ x, Runs (.rfal .always (.s 1) (.v 2)) (first (.s 1) (.v 2)) (demo (.rfal .always (.s 1) (.v 2))) x ∧ x.any = true) ∧
    (∃ x, Runs (.rfal nobody (.v 1) (.v 2)) (first (.v 1) (.v 2)) (demo (.rfal nobody (.v 1) (.v 2))) x ∧ x.any = false) :=
  ⟨runs_with _ (by decide +kernel), runs_with _ (by decide +kernel), runs_with _ (by decide +kernel), runs_with _ (by decide +kernel)⟩

theorem witness_LanesVotesAndPredicates : AllRun
    [(.voteAny .always true (.p 1) (.p 2), namesA (.p 1) [.p 2]), (.voteAll .always false (.p 1) (.p 2), namesA (.p 1) [.p 2]),
     (.voteBallot .always false (.s 1) (.p 2), namesA (.s 1) [.p 2]), (.pand .always true false (.p 1) (.p 2) (.p 23), namesA (.p 1) [.p 2, .p 23]),
     (.por .always true false (.p 1) (.p 2) (.p 3), namesA (.p 1) [.p 2, .p 3]), (.pxor .always true false (.p 1) (.p 2) (.p 3), namesA (.p 1) [.p 2, .p 3]),
     (.pnot .always true (.p 1) (.p 1), namesA (.p 1) [.p 1]), (.pmov nobody false (.p 1) (.p 2), namesA (.p 1) [.p 2])] := allRun_of (by decide +kernel)

/-- A reduction and both scans with a guard. -/
def reductions (g : Guard) (op : RedOp) : List (Instr × Opnd × List Named) :=
  [(.redv g op (.v 1) (.v 2), .v 1, namesA (.v 1) [.v 2]), (.scanv g op (.v 1) (.v 2), .v 1, namesA (.v 1) [.v 2]),
   (.scanvExcl g op (.v 1) (.v 2), .v 1, namesA (.v 1) [.v 2])]

theorem witness_Reductions : intReduction .maxUns = true ∧ AllLand (reductions .always .maxUns) ∧ AllEmpty (reductions nobody .maxUns) ∧
    AllRun [(.redv nobody .minUns (.s 2) (.v 1), namesA (.s 2) [.v 1])] :=
  ⟨rfl, allLand_of (by decide +kernel), allEmpty_of (by decide +kernel), allRun_of (by decide +kernel)⟩

theorem witness_Reductions_float : intReduction .addF32 = false ∧ AllLand (reductions .always .addF32) ∧ AllEmpty (reductions nobody .maxF32) ∧
    AllRun [(.redv nobody .addF32 (.s 2) (.v 1), namesA (.s 2) [.v 1])] :=
  ⟨rfl, allLand_of (by decide +kernel), allEmpty_of (by decide +kernel), allRun_of (by decide +kernel)⟩

/-- A state about to issue an instruction in a clause with another word after it. -/
def pairDemo (i j : Instr) : State :=
  { demo i with groups := (demo i).groups.map (fun g => { g with clause := g.clause.map (fun c => { c with words := c.words ++ [some (BitVec.ofNat 64 (encode j))] }) }) }

/-- RPT of the longest count over the last registers that it may reach, and with no lane active. -/
theorem witness_Repeats :
    (∃ x, Runs (.rpt .always 3 0 63) (fun _ => []) (pairDemo (.rpt .always 3 0 63) (.fmul .always .rne 0 (.v 192) (.v 0) (.s 3))) x ∧
      (x.any = true ∧ x.c.words[x.c.index + 1]? = some (some (BitVec.ofNat 64 (encode (.fmul .always .rne 0 (.v 192) (.v 0) (.s 3))))) ∧
        repeatOk x.l.slots (encode (.fmul .always .rne 0 (.v 192) (.v 0) (.s 3))) 3 64 1 = true)) ∧
    (∃ x, Runs (.rpt nobody 3 0 7) (fun _ => []) (pairDemo (.rpt nobody 3 0 7) (.fmul .always .rne 0 (.v 16) (.v 0) (.s 3))) x ∧
      (x.any = false ∧ x.c.words[x.c.index + 1]? = some (some (BitVec.ofNat 64 (encode (.fmul .always .rne 0 (.v 16) (.v 0) (.s 3))))) ∧
        repeatOk x.l.slots (encode (.fmul .always .rne 0 (.v 16) (.v 0) (.s 3))) 3 8 1 = true)) :=
  ⟨runs_with _ (by decide +kernel), runs_with _ (by decide +kernel)⟩

/-- Inside the repeats of a word: one is left after this, this is the last one of a clause that goes on, or of one that ends. -/
def inRepeat (left : BitVec 7) (index : Nat) (g : Group) : Group :=
  { g with repLeft := left, repDone := 2, repSteps := some (3, 1), clause := some ⟨0x40, 0x90, [none, none], index, 1, 1⟩ }

theorem witness_Repeats_advance : ∃ g ∈ (demo (.nop .always)).groups,
    (inRepeat 2 1 g).repLeft ≠ 0 ∧ (inRepeat 2 1 g).repSteps = some (3, 1) ∧ 1 < (inRepeat 2 1 g).repLeft.toNat ∧
    (inRepeat 1 0 g).repLeft.toNat ≤ 1 ∧ (∃ c ∈ (inRepeat 1 0 g).clause, c.index + 1 < c.words.length) ∧
    (inRepeat 1 1 g).repLeft.toNat ≤ 1 ∧ (∃ c ∈ (inRepeat 1 1 g).clause, c.words.length ≤ c.index + 1) ∧ (inRepeat 0 0 g).repLeft = 0 := by decide +kernel

/-! ### Memory -/

/-- A virtual interface with one 512 KiB page at address 0, readable, writable and executable, whose frames start at 2^25; its tables are
the frames 1 to 4 (R312, R313). -/
def withPage (s : State) : State :=
  { s with
    vis := [{ VI.reset 0 with enabled := true, ptroot := 0x2000, ptrootNext := 0x2000, handler := 0x1000 }]
    mem := { s.mem with
      bytes := [(0x2000, 0x01), (0x2001, 0x40), (0x4000, 0x01), (0x4001, 0x60), (0x6000, 0x01), (0x6001, 0x80), (0x8000, 0x1F), (0x8003, 0x02)]
      owners := [(1, 1), (2, 1), (3, 1), (4, 1)] ++ (List.range 64).map (fun k => (4096 + k, 1)) } }

/-- A state about to issue an instruction of a task with that page. -/
def paged (i : Instr) : State := withPage (demo i)

/-- With a frame at 0x400 of the page: CVTQ counts what it flushes in the frame's first word (R96), where the F limit leaves room for it. -/
def counting (i : Instr) (limit : DWord) : State :=
  let s := withPage (slotDemo i 0x63)
  { s with
    tasks := s.tasks.map (fun t => { t with launch := t.launch.map (fun l => { l with frameSize := 0x100 }) })
    groups := s.groups.map (fun g => { g with segs := g.segs.set 2 (0x400, limit) }) }

theorem witness_BlockConversions_counts :
    let i : Instr := .cvtq .always 0 (.v 224) (.v 0) (.v 60) (.s 1)
    let names := fun (x : Ctx) => ([⟨0, .op (.v 224) (x.slot 0).codeRegs, false⟩, ⟨1, .op (.v 0) (x.slot 0).inputs, true⟩,
      ⟨2, .op (.v 60) 1, true⟩, ⟨3, .op (.s 1) 1, true⟩] : List Named)
    (∃ x, Runs i names (counting i 0x100) x ∧
      ((x.slot 0).quantOk = true ∧ x.any = true ∧ x.l.frameSize ≠ 0 ∧ 4 ≤ (x.g.seg 2).2.toNat ∧ (x.g.seg 2).1.toNat % 4 = 0 ∧ x.orderWaits false = false ∧
        (match x.locate 2 4 .write true [⟨x.lanes.headD 0, x.act, 0⟩] with | .ok [k] => k.parts.length == 1 && k.parts.all (fun p => p.2.2.home) | _ => false) = true)) ∧
    (∃ x, Runs i names (counting i 3) x ∧ ((x.slot 0).quantOk = true ∧ x.any = true ∧ x.l.frameSize ≠ 0 ∧ x.orderWaits false = false ∧ (x.g.seg 2).2.toNat < 4)) :=
  ⟨runs_with _ (by decide +kernel), runs_with _ (by decide +kernel)⟩

theorem test_walk_page : translate (withPage State.reset) 0 .read false 0x1234 = .ok ⟨0x2001234, 2 ^ 19, 7, false, false, false⟩ := by decide +kernel

/-- The accesses of an instruction, found and checked as `Ctx.Reaches` asks. -/
def reaches (x : Ctx) (l : LArgs) (n : Nat) (acc : Access) (write plain atomic : Bool) : Bool :=
  match x.locate l.seg.toNat n acc atomic (x.accs l) with
  | .ok ls => l.seg != 1 && decide (x.segFault l.seg.toNat n write (!plain) (x.accs l) = none) && decide (x.accs l ≠ [])
      && ls.all Located.home && decide (plain = true → x.l.race = true → raceTrap x.s x.g.gid x.agent write (localParts ls) = none)
      && decide (write = false → memPoison x.s x.agent x.t.vi ls = none) && !x.orderWaits (!plain)
      && decide (write = true → x.lensBlocks ls = false)
  | .error _ => false

theorem reaches_spec {x l n acc write plain atomic} (h : reaches x l n acc write plain atomic = true) :
    ∃ ls, x.Reaches l n acc write plain atomic ls ∧ x.locate l.seg.toNat n acc atomic (x.accs l) = .ok ls := by
  unfold reaches at h
  split at h
  · next ls hl =>
    simp only [Bool.and_eq_true, decide_eq_true_eq, List.all_eq_true, bne_iff_ne, ne_eq, Bool.not_eq_true'] at h
    obtain ⟨⟨⟨⟨⟨⟨⟨h1, h2⟩, h3⟩, h4⟩, h5⟩, h6⟩, h7⟩, h8⟩ := h
    refine ⟨ls, ⟨fun e => h1 ?_, h2, h3, hl, h4, h5, h6, h7, h8⟩, hl⟩
    apply BitVec.eq_of_toNat_eq; simpa using e
  · cases h

/-- A memory instruction runs in a state and reaches memory of this package. -/
theorem reaching {s i nms l n acc write plain atomic} (P : Ctx → Prop) [DecidablePred P]
    (h : meets s i nms (fun x => reaches x l n acc write plain atomic && decide (P x)) = true) :
    ∃ x ls, Runs i nms s x ∧ x.Reaches l n acc write plain atomic ls ∧ P x := by
  obtain ⟨x, hx, hp⟩ := runs_of_meets h
  rw [Bool.and_eq_true] at hp
  obtain ⟨ls, hr, -⟩ := reaches_spec hp.1
  exact ⟨x, ls, hx, hr, of_decide_eq_true hp.2⟩

/-- A per-lane access at offset 0x100 (bytes), and a uniform one. -/
def lanesAt : LArgs := ⟨0x100, 0, false, false, 2, 8⟩
def uniAt : LArgs := ⟨0x100, 0, true, true, 2, 8⟩

theorem witness_MemoryLoads :
    (∃ x ls, Runs (.ld .always .b128 false lanesAt) (fun _ => [dataName lanesAt 4 false, addrName lanesAt]) (paged (.ld .always .b128 false lanesAt)) x ∧
      x.Reaches lanesAt 16 .read false true false ls ∧ x.noReds) ∧
    (∃ x ls, Runs (.ld .always .b8 true uniAt) (fun _ => [dataName uniAt 1 false, addrName uniAt]) (paged (.ld .always .b8 true uniAt)) x ∧
      x.Reaches uniAt 1 .read false true false ls ∧ x.noReds) ∧
    (∃ x ls, Runs (.lda .always .b64 false .sys lanesAt) (fun _ => [dataName lanesAt 2 false, addrName lanesAt]) (paged (.lda .always .b64 false .sys lanesAt)) x ∧
      x.Reaches lanesAt 8 .read false false false ls ∧ x.noReds) :=
  ⟨reaching _ (by decide +kernel), reaching _ (by decide +kernel), reaching _ (by decide +kernel)⟩

theorem witness_MemoryStores :
    (∃ x ls, Runs (.st .always .b128 lanesAt) (fun _ => [dataName lanesAt 4 true, addrName lanesAt]) (paged (.st .always .b128 lanesAt)) x ∧
      x.Reaches lanesAt 16 .write true true false ls ∧ x.noReds) ∧
    (∃ x ls, Runs (.stl .always .b32 .pkg lanesAt) (fun _ => [dataName lanesAt 1 true, addrName lanesAt]) (paged (.stl .always .b32 .pkg lanesAt)) x ∧
      x.Reaches lanesAt 4 .write true false false ls ∧ (x.noReds ∧ x.nothingSent .pkg)) :=
  ⟨reaching _ (by decide +kernel), reaching _ (by decide +kernel)⟩

/-- Accesses of the S segment: its last four bytes that a lane reaches here. -/
def stashAt : LArgs := ⟨0x100, 1, false, false, 2, 8⟩

/-- Conditions of `Ctx.ReachesStash`. -/
def reachesStash (x : Ctx) (l : LArgs) (n : Nat) (write plain : Bool) : Bool :=
  l.seg == 1 && decide (x.segFault 1 n write (!plain) (x.accs l) = none) && decide (x.accs l ≠ [])
    && (x.accs l).all (fun a => (x.accLines n a).all (fun ln => decide (x.s.mem.line? x.g.core ln = none) && !x.s.lensPending x.g.core ln))
    && !x.behind n (x.accs l) && decide (write = false → x.stashPoisonTrap n (x.accs l) = none) && !x.orderWaits false

theorem reachesStash_spec {x l n write plain} (h : reachesStash x l n write plain = true) : x.ReachesStash l n write plain := by
  unfold reachesStash at h
  simp only [Bool.and_eq_true, decide_eq_true_eq, List.all_eq_true, beq_iff_eq, Bool.not_eq_true'] at h
  obtain ⟨⟨⟨⟨⟨⟨h1, h2⟩, h3⟩, h4⟩, h5⟩, h6⟩, h7⟩ := h
  exact ⟨by rw [h1]; rfl, h2, h3, fun a ha ln hl => (h4 a ha ln hl).1, h5, fun _ a ha ln hl => (h4 a ha ln hl).2, h6, h7⟩

theorem reachingStash {s i nms l n write plain} (P : Ctx → Prop) [DecidablePred P]
    (h : meets s i nms (fun x => reachesStash x l n write plain && decide (P x)) = true) :
    ∃ x, Runs i nms s x ∧ x.ReachesStash l n write plain ∧ P x := by
  obtain ⟨x, hx, hp⟩ := runs_of_meets h
  rw [Bool.and_eq_true] at hp
  exact ⟨x, hx, reachesStash_spec hp.1, of_decide_eq_true hp.2⟩

theorem witness_StashAccesses :
    (∃ x, Runs (.ld .always .b128 false stashAt) (fun _ => [dataName stashAt 4 false, addrName stashAt]) (demo (.ld .always .b128 false stashAt)) x ∧
      x.ReachesStash stashAt 16 false true ∧ True) ∧
    (∃ x, Runs (.lda .always .b32 true .die stashAt) (fun _ => [dataName stashAt 1 false, addrName stashAt]) (demo (.lda .always .b32 true .die stashAt)) x ∧
      x.ReachesStash stashAt 4 false false ∧ True) ∧
    (∃ x, Runs (.st .always .b64 stashAt) (fun _ => [dataName stashAt 2 true, addrName stashAt]) (demo (.st .always .b64 stashAt)) x ∧
      x.ReachesStash stashAt 8 true true ∧ x.noReds) ∧
    (∃ x, Runs (.stl .always .b16 .die stashAt) (fun _ => [dataName stashAt 1 true, addrName stashAt]) (demo (.stl .always .b16 .die stashAt)) x ∧
      x.ReachesStash stashAt 2 true false ∧ (x.noReds ∧ x.nothingSent .die)) :=
  ⟨reachingStash _ (by decide +kernel), reachingStash _ (by decide +kernel), reachingStash _ (by decide +kernel), reachingStash _ (by decide +kernel)⟩

/-- An access past a limit, a store to a read-only segment, and a misaligned synchronising access. -/
theorem witness_AccessTraps_segment :
    (∃ x, Runs (.ld .always .b32 false ⟨0xFFFFFE, 1, false, false, 2, 8⟩) (fun _ => [dataName ⟨0xFFFFFE, 1, false, false, 2, 8⟩ 1 false, addrName ⟨0xFFFFFE, 1, false, false, 2, 8⟩])
        (demo (.ld .always .b32 false ⟨0xFFFFFE, 1, false, false, 2, 8⟩)) x ∧
      (∃ a ∈ x.accs ⟨0xFFFFFE, 1, false, false, 2, 8⟩, (x.g.seg 1).2.toNat < a.off + 4)) ∧
    (∃ x, Runs (.st .always .b32 ⟨0, 3, false, false, 2, 8⟩) (fun _ => [dataName ⟨0, 3, false, false, 2, 8⟩ 1 true, addrName ⟨0, 3, false, false, 2, 8⟩])
        (demo (.st .always .b32 ⟨0, 3, false, false, 2, 8⟩)) x ∧ (∃ a ∈ x.accs ⟨0, 3, false, false, 2, 8⟩, a.lane = 0)) ∧
    (∃ x, Runs (.atom .always .add32 .die ⟨2, 0, false, false, 2, 8⟩) (fun _ => [atomName ⟨2, 0, false, false, 2, 8⟩ .add32, addrName ⟨2, 0, false, false, 2, 8⟩])
        (demo (.atom .always .add32 .die ⟨2, 0, false, false, 2, 8⟩)) x ∧ (∃ a ∈ x.accs ⟨2, 0, false, false, 2, 8⟩, ((x.g.seg 0).1.toNat + a.off) % 4 ≠ 0)) :=
  ⟨runs_with _ (by decide +kernel), runs_with _ (by decide +kernel), runs_with _ (by decide +kernel)⟩

/-- PREF of a line that no copy and no owner has a word of. -/
theorem witness_Prefetches_copies :
    ∃ x, Runs (.pref .always uniAt) (fun _ => [addrName uniAt]) (paged (.pref .always uniAt)) x ∧ (uniAt.seg.toNat ≠ 1 ∧
      ∃ a ∈ x.accs uniAt, a.off < (x.g.seg 0).2.toNat ∧ (match x.locateOne 0 1 .read false a with
        | .ok k => (match k.parts with | [p] => (p.2.2.home && (x.s.mem.poisonIn (alignDown p.2.2.pa 128) 128).isNone &&
            (List.range 32).all (fun j => (x.s.mem.reg? (alignDown p.2.2.pa 128 + 4 * j)).isNone && (x.s.mem.copyOf x.g.core (alignDown p.2.2.pa 128 + 4 * j)).isNone &&
              !x.s.mem.stale x.g.core (sibling (alignDown p.2.2.pa 128 + 4 * j)))) | _ => false)
        | .error _ => false) = true) := runs_with _ (by decide +kernel)

theorem witness_Prefetches :
    (∃ x, Runs (.pref .always ⟨0, 0, false, false, 2, 0⟩) (fun _ => [addrName ⟨0, 0, false, false, 2, 0⟩]) (paged (.pref .always ⟨0, 0, false, false, 2, 0⟩)) x ∧ True) ∧
    (∃ x, Runs (.prefL2 nobody ⟨0, 1, false, true, 2, 0⟩) (fun _ => [addrName ⟨0, 1, false, true, 2, 0⟩]) (demo (.prefL2 nobody ⟨0, 1, false, true, 2, 0⟩)) x ∧ True) :=
  ⟨runs_with _ (by decide +kernel), runs_with _ (by decide +kernel)⟩

/-- Uniform registers of the issuing group set. -/
def withUni (s : State) (us : List (Nat × DWord)) : State :=
  { s with groups := s.groups.map (fun g => us.foldl (fun h u => h.sset u.1 u.2) g) }

/-- What STMAP of a range asks of its lines. -/
def mappable (x : Ctx) (first count : Nat) : Prop :=
  x.s.deferred x.g.core = [] ∧ Memory.wf x.s.mem = true ∧ x.g.hold.mapped = 0 ∧
  ∀ j < count, (x.s.mem.lineOf x.g.core (first + j)).writers = [] ∧
    (x.s.mem.present x.g.core (first + j) = true → x.s.lensPending x.g.core (first + j) = false) ∧
    ((x.s.mem.lineOf x.g.core (first + j)).mapped.isSome = true → x.s.mem.dirtyWords (x.s.mem.lineOf x.g.core (first + j)) ≠ [] →
      x.s.outOfReach (dieOf x.g.core) (x.s.mem.lineOf x.g.core (first + j)).pa 128 = false ∧ x.s.homeRefuses (x.s.mem.lineOf x.g.core (first + j)).pa = false)

/-- Line 2 of core 0's stash is mapped to the page's 0x80, and holds a word that it owns. -/
def dirtied (i : Instr) : State :=
  let s := paged i
  { s with mem := { s.mem with
    lines := [⟨0, 2, some 0x80, 0, 0x2000080, false, true, 0, false, [], false⟩]
    regs := [⟨0x2000084, ⟨.stash, 0⟩, 0xF, none, false, 7, []⟩] } }

/-- STMAP of one line to a page, of two lines to be unmapped, and of a line that owns a word of memory. -/
theorem witness_StashMapping :
    (∃ x, Runs (.stmap .always 3 2 1) (fun _ => [uName 1 1, uName 2 2, uName 3 3]) (withUni (paged (.stmap .always 3 2 1)) [(3, 1), (2, 0x80)]) x ∧
      (x.any = true ∧ fld (x.u 3) 0 12 = 1 ∧ fld (x.u 3) 16 1 = 0 ∧ fld (x.u 3) 12 4 = 0 ∧ fld (x.u 3) 17 47 = 0 ∧ x.u 1 % 128 = 0 ∧ x.u 2 % 128 = 0 ∧
        x.u 1 + 128 ≤ (x.g.seg 1).2.toNat ∧ x.u 2 + 128 ≤ (x.g.seg 0).2.toNat ∧ mappable x (((x.g.seg 1).1.toNat + x.u 1) / 128) 1)) ∧
    (∃ x, Runs (.stmap .always 3 2 1) (fun _ => [uName 1 1, uName 2 2, uName 3 3]) (withUni (demo (.stmap .always 3 2 1)) [(3, 0x10002)]) x ∧
      (x.any = true ∧ fld (x.u 3) 0 12 = 2 ∧ fld (x.u 3) 16 1 = 1 ∧ fld (x.u 3) 12 4 = 0 ∧ fld (x.u 3) 17 47 = 0 ∧ x.u 1 + 256 ≤ (x.g.seg 1).2.toNat ∧
        mappable x (((x.g.seg 1).1.toNat + x.u 1) / 128) 2)) ∧
    (∃ x, Runs (.stmap .always 3 2 1) (fun _ => [uName 1 1, uName 2 2, uName 3 3]) (withUni (dirtied (.stmap .always 3 2 1)) [(1, 0x100), (3, 0x10001)]) x ∧
      (x.any = true ∧ fld (x.u 3) 0 12 = 1 ∧ fld (x.u 3) 16 1 = 1 ∧ x.u 1 = 0x100 ∧ ((x.g.seg 1).1.toNat + x.u 1) / 128 = 2 ∧ mappable x 2 1 ∧
        x.s.mem.dirtyWords (x.s.mem.lineOf x.g.core 2) ≠ [])) := by
  unfold mappable
  exact ⟨runs_with _ (by decide +kernel), runs_with _ (by decide +kernel), runs_with _ (by decide +kernel)⟩

/-! ### Family 5 -/

theorem witness_Atomics :
    (∃ x ls, Runs (.atom .always .cas64 .sys lanesAt) (fun _ => [atomName lanesAt .cas64, addrName lanesAt]) (paged (.atom .always .cas64 .sys lanesAt)) x ∧
      x.Reaches lanesAt 8 .rmw true false true ls ∧
      (x.noReds ∧ x.s.mem.poison = [] ∧ x.s.pages = [] ∧ x.nothingSent .sys ∧ ∀ a ∈ x.accs lanesAt, x.submitPage 0 .cas64 .sys a = none)) ∧
    (∃ x ls, Runs (.atom .always .addF32 .grp uniAt) (fun _ => [atomName uniAt .addF32, addrName uniAt]) (paged (.atom .always .addF32 .grp uniAt)) x ∧
      x.Reaches uniAt 4 .rmw true false true ls ∧ (x.noReds ∧ x.s.mem.poison = [] ∧ x.nothingSent .grp ∧ ∀ a ∈ x.accs uniAt, x.submitPage 0 .addF32 .grp a = none)) :=
  ⟨reaching _ (by decide +kernel), reaching _ (by decide +kernel)⟩

/-- The interface has queue 0 in a segment at 0x10000 and page 3 for submissions, its group word at 0x20080 (R280, R285). -/
def withQueue (s : State) : State :=
  { s with
    queues := [⟨0, 0, [0x10000]⟩], pages := [⟨0, 3, 0x20000, 0x30000, 4, false, true, 0, 0⟩] }

/-- A submission of the record at offset 0, which reads as zeros: a grid of queue 0 whose launch record is at 0. -/
def submitArgs : LArgs := ⟨0x80, 0, true, true, 2, 8⟩
def submitting (en : Bool) : State :=
  withQueue (withUni (withPage { demo (.atom .always .xchg64 .sys submitArgs) with pages := [⟨0, 3, 0x20000, 0x30000, 4, false, en, 0, 0⟩] }) [(2, 0x20000), (8, 0)])

theorem witness_GroupSubmissions :
    ∀ i, i = .atom .always .xchg64 .sys submitArgs ∨ i = .groupSubmission .always submitArgs →
    ∃ x, Runs i (fun _ => [atomName submitArgs .xchg64, addrName submitArgs]) (submitting true) x ∧
      (x.segFault 0 8 true true (x.accs submitArgs) = none ∧ (x.aops submitArgs .xchg64).map AOp.acc = x.accs submitArgs ∧ (x.aops submitArgs .xchg64).length = 1 ∧
        x.recordFault (x.aops submitArgs .xchg64) = none ∧ (∀ o ∈ x.aops submitArgs .xchg64, (x.submitPage 0 .xchg64 .sys o.acc).isSome = true ∧ x.orderWaits true = false ∧
          (match x.locate 0 128 .read false [⟨o.lane, 1#64 <<< o.lane, o.opnd⟩] with | .ok rs => decide (memPoison x.s x.agent x.t.vi rs = none) | .error _ => false) = true ∧
          ((x.s.release x.g x.t .sys).coreRead x.g.core x.t.vi (((x.g.seg 0).1.toNat + o.opnd) % 2 ^ 64) 128) = some (List.replicate 128 0)) ∧
        (match (x.s.release x.g x.t .sys).submit ⟨0, 3, 0x20000, 0x30000, 4, false, true, 0, 0⟩ (List.replicate 128 0) with | .accepted _ => true | _ => false) = true ∧
        (match (x.s.release x.g x.t .sys).submit ⟨0, 3, 0x20000, 0x30000, 4, false, true, 0, 0⟩ (15 :: List.replicate 127 0) with | .refused => true | _ => false) = true) := by
  rintro i (rfl | rfl) <;> exact runs_with _ (by decide +kernel)

theorem witness_PostedReductions :
    ∃ x ls, Runs (.red .always .add64 .pkg lanesAt) (fun _ => [atomName lanesAt .add64, addrName lanesAt]) (paged (.red .always .add64 .pkg lanesAt)) x ∧
      x.Reaches lanesAt 8 .write true false true ls ∧ True := reaching _ (by decide +kernel)

/-- The first line of the issuing group's stash segment is mapped to global address 0, present and clean. -/
def mappedLine (s : State) : State :=
  { s with mem := { s.mem with lines := s.groups.map (fun g => ⟨g.core, (g.seg 1).1.toNat / 128, some 0, 0, 0x2000000, false, true, 0, false, [], false⟩) } }

theorem witness_Fences :
    (∃ x, Runs (.rel .always .sys) (fun _ => []) (demo (.rel .always .sys)) x ∧ (x.any = true ∧ x.noReds ∧ x.nothingSent .sys ∧ x.orderWaits true = false)) ∧
    (∃ x, Runs (.fence .always .pkg 63) (fun _ => [⟨0, .op (.s 63) 1, false⟩]) (demo (.fence .always .pkg 63)) x ∧
      (x.any = true ∧ x.noReds ∧ x.writesHeld = false ∧ x.nothingSent .pkg ∧ x.orderWaits true = false)) ∧
    (∃ x, Runs (.acq .always .grp 0xFFFF) (fun _ => []) (demo (.acq .always .grp 0xFFFF)) x ∧ x.orderWaits true = false) ∧
    (∃ x, Runs (.acq .always .die 1) (fun _ => []) (mappedLine (demo (.acq .always .die 1))) x ∧
      (x.any = true ∧ x.orderWaits true = false ∧ (∃ l ∈ x.s.mem.lines, l.core = x.g.core ∧ l.line = (x.g.seg 1).1.toNat / 128 ∧ l.present = true ∧ l.mapped = some 0 ∧
        ((x.s.viOf x.t.vi).regionOf 0).toNat = 0 ∧ 0 < (x.g.seg 1).2.toNat))) :=
  ⟨runs_with _ (by decide +kernel), runs_with _ (by decide +kernel), runs_with _ (by decide +kernel), runs_with _ (by decide +kernel)⟩

theorem witness_Monitors :
    (∃ x ls, Runs (.monw .always 3 .ge uniAt) (fun _ => [dataName uniAt 1 true, addrName uniAt]) (paged (.monw .always 3 .ge uniAt)) x ∧
      x.Reaches uniAt 4 .rmw false false true ls ∧ (x.noReds ∧ (x.accs uniAt).length = 1 ∧ x.locate 0 4 .rmw true (x.accs uniAt) = x.locate 0 4 .rmw true (x.accs uniAt) ∧
        (match x.locate 0 4 .rmw true (x.accs uniAt) with | .ok [⟨_, va, [p]⟩] => p.1 == va | _ => false) = true)) ∧
    (∃ x, Runs (.monw .always 0 .eq ⟨0x3FFFC, 1, true, true, 2, 8⟩) (fun _ => [dataName ⟨0x3FFFC, 1, true, true, 2, 8⟩ 1 true, addrName ⟨0x3FFFC, 1, true, true, 2, 8⟩])
        (demo (.monw .always 0 .eq ⟨0x3FFFC, 1, true, true, 2, 8⟩)) x ∧ ((x.accs ⟨0x3FFFC, 1, true, true, 2, 8⟩).length = 1 ∧
        x.segFault 1 4 false true (x.accs ⟨0x3FFFC, 1, true, true, 2, 8⟩) = none ∧ x.s.mem.lines = [] ∧
        x.behind 4 (x.accs ⟨0x3FFFC, 1, true, true, 2, 8⟩) = false ∧ x.orderWaits true = false ∧ x.stashPoisonTrap 4 (x.accs ⟨0x3FFFC, 1, true, true, 2, 8⟩) = none)) :=
  ⟨reaching _ (by decide +kernel), runs_with _ (by decide +kernel)⟩

/-- WAIT on one condition. -/
def waitOne : Instr := .wait .always true 0 (.v 1) (.s 4) (.s 5) .zero
def waitJoin : Instr := .wait .always false 0 .zero (.s 4) (.s 5) (.s 6)
def waitUsed (x : Ctx) : List (BitVec 16) := (condsOf (x.g.word64 (.s 4) 0).toNat).take 1

/-- WAIT on event counter 0 (which reads 0: it holds). -/
theorem witness_Waits_satisfied :
    ∃ x, Runs waitOne (fun _ => namesA (.v 1) [.s 4, .s 5, .zero]) (withUni (demo waitOne) [(4, 0x2000)]) x ∧ (x.any = true ∧
      x.waitBad 1 (.s 4) .zero = none ∧ x.waitSeg (waitUsed x) .zero = none ∧ (waitUsed x = [0x2000] ∧ condHolds x.s x.g x.t none 0x2000 = true) ∧
      x.outNames (.v 1) 1 ≠ []) := runs_with _ (by decide +kernel)

/-- WAIT on monitor 0 (which has not fired), with no time to wait, the shortest and longest finite times, and no time-out. -/
theorem witness_Waits_parked : ∀ b ∈ [(0 : DWord), 1, 0xFFFFFFFE, 0xFFFFFFFF],
    ∃ x, Runs waitOne (fun _ => namesA (.v 1) [.s 4, .s 5, .zero]) (withUni (demo waitOne) [(4, 0), (5, b)]) x ∧ (x.any = true ∧
      x.waitBad 1 (.s 4) .zero = none ∧ x.waitSeg (waitUsed x) .zero = none ∧ (waitUsed x = [0] ∧ condHolds x.s x.g x.t none 0 = false) ∧
      (x.g.word (.s 5) 0).setWidth 64 = b) := by
  have h : [(0 : DWord), 1, 0xFFFFFFFE, 0xFFFFFFFF].all (fun b => meets (withUni (demo waitOne) [(4, 0), (5, b)]) waitOne
    (fun _ => namesA (.v 1) [.s 4, .s 5, .zero]) (fun x => decide (x.any = true ∧ x.waitBad 1 (.s 4) .zero = none ∧ x.waitSeg (waitUsed x) .zero = none ∧
      (waitUsed x = [0] ∧ condHolds x.s x.g x.t none 0 = false) ∧ (x.g.word (.s 5) 0).setWidth 64 = b))) = true := by decide +kernel
  exact fun b hb => runs_with _ (List.all_eq_true.mp h b hb)

/-- WAIT on a join counter. -/
theorem witness_Waits_join :
    ∃ x, Runs waitJoin (fun _ => namesA .zero [.s 4, .s 5, .s 6]) (withUni (paged waitJoin) [(4, 0x8000), (6, 0x100)]) x ∧ (x.any = true ∧
      x.waitBad 1 (.s 4) (.s 6) = none ∧ x.waitSeg (waitUsed x) (.s 6) = none ∧
      (match x.locate 0 4 .read false [⟨x.lanes.getD 0 0, x.act, (x.g.word64 (.s 6) 0).toNat⟩] with | .ok [k] => decide (memPoison x.s x.agent x.t.vi [k] = none) | _ => false) = true ∧
      x.orderWaits true = false ∧ x.s.mem.reds = [] ∧ x.s.mem.posted = []) :=
  runs_with _ (by decide +kernel)

/-- A group of two: lanes are missing; the only group of its team: its arrival completes the barrier. -/
theorem witness_BarriersAndEvents :
    let bars := fun (x : Ctx) (k : Nat) => x.t.barriers.mapIdx (fun j b => if j = k then b.arrive (x.s.teamLive x.t.uid) x.g.num x.act else b)
    (∃ x, Runs (.bar ⟨0, false⟩ 7 (.v 1)) (fun _ => namesA (.v 1) []) { demo (.bar ⟨0, false⟩ 7 (.v 1)) with
        groups := (demo (.bar ⟨0, false⟩ 7 (.v 1))).groups.map (fun g => g.pset 0 3 true) } x ∧ (x.any = true ∧ x.noReds ∧ x.nothingSent .grp ∧ x.orderWaits true = false ∧ (bars x 7).any Barrier.complete = false)) ∧
    (∃ x, Runs (.bar .always 0 (.v 1)) (fun _ => namesA (.v 1) []) (demo (.bar .always 0 (.v 1))) x ∧
      (x.any = true ∧ x.noReds ∧ x.nothingSent .grp ∧ x.orderWaits true = false ∧ ((bars x 0).getD 0 Barrier.idle).complete = true ∧ x.lanes ≠ [] ∧ x.lanes.all (x.leaveNext x.g).wakes = true)) ∧
    (∃ x, Runs (.barArrive .always 3 .zero) (fun _ => namesA .zero []) (demo (.barArrive .always 3 .zero)) x ∧
      (x.any = true ∧ x.noReds ∧ x.nothingSent .grp ∧ x.orderWaits true = false ∧ ((bars x 3).getD 3 Barrier.idle).complete = true)) :=
  ⟨runs_with _ (by decide +kernel), runs_with _ (by decide +kernel), runs_with _ (by decide +kernel)⟩

theorem witness_BarriersAndEvents_counters : AllRun
    [(.evtAdd .always 5 (.v 1) (.s 1), namesA (.v 1) [.s 1]), (.evtSub .always 0 (.s 1) .zero, namesA (.s 1) [.zero]),
     (.evtSet .always 3 .zero (.s 63), namesA .zero [.s 63])] := allRun_of (by decide +kernel)

/-- A command of a state, and the three ways its issue goes. -/
def commandCase (i : Instr) (nms : List Named) (cmd : Ctx → Cmd) (ud : Ctx → Nat) (room bad : Bool) (s : State) : Bool :=
  meets s i (fun _ => nms) (fun x => x.any && !x.orderWaits true && (s.engineRoom (cmd x) x.g == room) && ((cmd x).controlBad (ud x) == bad)
    && decide (s.mem.reds = [] ∧ s.mem.posted = []) && (bad || !room || (let c := cmd x
      decide (¬(c.op ≠ .cpy ∧ c.op ≠ .stflush ∧ (controlOf c.control.toNat).length ≠ 0)) || (c.route s x.t.vi (ud x)).2.2 == 0)))

/-- The event counter of a completion is full: there is no room. -/
def fullCounter (s : State) (k : Nat) : State := { s with groups := s.groups.map (fun g => { g with e := g.e.set k 63 }) }

def yDemo : YArgs := ⟨none, some .pkg, 2, 4, 3, 2, 1⟩
/-- A control word of 0x1000 bytes from G to S. -/
def copyWord : DWord := 0x800001000

theorem witness_EngineCommands :
    (∀ k ∈ [(true, false), (true, true), (false, false)], commandCase (.stflush .always none 2 2 1) [uName 1 1, uName 2 2]
      (fun x => x.command .stflush none none 2 (x.u 1) 0 (x.g.sget 2)) (fun _ => 0) k.1 k.2
      ((if k.1 then id else fun s => fullCounter s 2) (withUni (demo (.stflush .always none 2 2 1)) [(2, if k.2 then 0 else 1)])) = true) ∧
    (∀ k ∈ [(true, false), (true, true), (false, false)], commandCase (.cpy .always yDemo) (yNames yDemo false)
      (fun x => x.command .cpy yDemo.acq yDemo.rel 2 (x.u 1) (x.u 2) (x.g.sget 3)) (fun _ => 0) k.1 k.2
      ((if k.1 then id else fun s => fullCounter s 2) (withUni (paged (.cpy .always yDemo)) [(3, if k.2 then 2 else copyWord)])) = true) ∧
    (∀ k ∈ [(true, false), (true, true), (false, false)], ∀ e ∈ [(Instr.cpym .always yDemo, EngineOp.cpym), (.gath .always yDemo, .gath), (.coll .always yDemo, .coll)],
      commandCase e.1 (yNames yDemo true) (fun x => x.command e.2 yDemo.acq yDemo.rel 2 (x.u 1) (x.u 2) (x.g.sget 3)) (fun x => x.u 4) k.1 k.2
      ((if k.1 then id else fun s => fullCounter s 2) (withUni (paged e.1) [(3, if k.2 then 2 else copyWord)])) = true) := by
  decide +kernel

/-! ### Mapped lines, other chips and REPL pages -/

/-- A state about to issue an instruction with line 2 of core 0's stash mapped to the page's 0x80. -/
def lined (i : Instr) (present : Bool) (writers : List Nat) : State :=
  let s := paged i
  { s with mem := { s.mem with lines := [⟨0, 2, some 0x80, 0, 0x2000080, false, present, 0, false, writers, false⟩] } }

/-- The same line, mapped and present, with a byte of the stash beside what memory holds. -/
def copied (i : Instr) : State :=
  let s := lined i true []
  { s with mem := { s.mem with stash := [(stashKey 0 0x100, 7)] } }

/-- A uniform access of the S segment. -/
def stashUni : LArgs := ⟨0x100, 1, true, true, 2, 8⟩

/-- Conditions of `Ctx.ReachesLines`. -/
def reachesLines (x : Ctx) (l : LArgs) (n : Nat) (write plain : Bool) : Bool :=
  l.seg == 1 && decide (x.segFault 1 n write (!plain) (x.accs l) = none) && decide (x.accs l ≠ [])
    && (x.accs l).all (fun a => (x.accLines n a).all (fun ln => x.s.mem.present x.g.core ln && !x.s.lensPending x.g.core ln &&
      x.s.mem.lines.all (fun r => decide (r.core = x.g.core → r.line = ln → x.s.mem.line? x.g.core ln = some r ∧ r.repl = false))))
    && (x.accs l).all (fun a => decide (x.s.stashLost x.g.core (x.stashOff a) n = none))
    && !x.behind n (x.accs l) && decide (write = false → x.stashPoisonTrap n (x.accs l) = none) && !x.orderWaits (!plain)
    && decide (plain = true → x.l.race = true → raceTrap x.s x.g.gid ⟨.stash, x.g.core⟩ write (x.stashParts n (x.accs l)) = none)
    && x.s.mem.posted.all (fun q => decide (q.gid ≠ x.g.gid))

theorem reachesLines_spec {x l n write plain} (h : reachesLines x l n write plain = true) : x.ReachesLines l n write plain := by
  unfold reachesLines at h
  simp only [Bool.and_eq_true, decide_eq_true_eq, List.all_eq_true, beq_iff_eq, Bool.not_eq_true'] at h
  obtain ⟨⟨⟨⟨⟨⟨⟨⟨⟨h1, h2⟩, h3⟩, h4⟩, h5⟩, h6⟩, h7⟩, h8⟩, h9⟩, h10⟩ := h
  exact ⟨by rw [h1]; rfl, h2, h3, fun a ha ln hl => (h4 a ha ln hl).1.1, fun a ha ln hl => (h4 a ha ln hl).2, h5, h6,
    fun _ a ha ln hl => (h4 a ha ln hl).1.2, h7, h8, h9, h10⟩

theorem reachingLines {s i nms l n write plain} (P : Ctx → Prop) [DecidablePred P]
    (h : meets s i nms (fun x => reachesLines x l n write plain && decide (P x)) = true) :
    ∃ x, Runs i nms s x ∧ x.ReachesLines l n write plain ∧ P x := by
  obtain ⟨x, hx, hp⟩ := runs_of_meets h
  rw [Bool.and_eq_true] at hp
  exact ⟨x, hx, reachesLines_spec hp.1, of_decide_eq_true hp.2⟩

theorem witness_StashLines_present :
    (∃ x, Runs (.ld .always .b64 false stashUni) (fun _ => [dataName stashUni 2 false, addrName stashUni]) (copied (.ld .always .b64 false stashUni)) x ∧
      x.ReachesLines stashUni 8 false true ∧ x.noReds) ∧
    (∃ x, Runs (.lda .always .b32 true .sys stashUni) (fun _ => [dataName stashUni 1 false, addrName stashUni]) (copied (.lda .always .b32 true .sys stashUni)) x ∧
      x.ReachesLines stashUni 4 false false ∧ x.noReds) ∧
    (∃ x, Runs (.st .always .b64 stashUni) (fun _ => [dataName stashUni 2 true, addrName stashUni]) (copied (.st .always .b64 stashUni)) x ∧
      x.ReachesLines stashUni 8 true true ∧ (x.noReds ∧ x.mappedStored stashUni 8 0x2000087 = some 0)) ∧
    (∃ x, Runs (.stl .always .b16 .pkg stashUni) (fun _ => [dataName stashUni 1 true, addrName stashUni]) (copied (.stl .always .b16 .pkg stashUni)) x ∧
      x.ReachesLines stashUni 2 true false ∧ (x.noReds ∧ x.nothingSent .pkg)) :=
  ⟨reachingLines _ (by decide +kernel), reachingLines _ (by decide +kernel), reachingLines _ (by decide +kernel), reachingLines _ (by decide +kernel)⟩

/-- ATOM and RED through a line that is unmapped, and through one that is mapped. -/
theorem witness_Atomics_stash : ∀ s ∈ [paged (.atom .always .add64 .pkg stashUni), copied (.atom .always .add64 .pkg stashUni)],
    ∃ x, Runs (.atom .always .add64 .pkg stashUni) (fun _ => [atomName stashUni .add64, addrName stashUni]) s x ∧ x.ReachesLines stashUni 8 true false ∧
      (x.stashPoisonTrap 8 (x.accs stashUni) = none ∧ x.noReds ∧ x.nothingSent .pkg) := by
  have h : [paged (.atom .always .add64 .pkg stashUni), copied (.atom .always .add64 .pkg stashUni)].all (fun s =>
      meets s (.atom .always .add64 .pkg stashUni) (fun _ => [atomName stashUni .add64, addrName stashUni]) (fun x => reachesLines x stashUni 8 true false &&
        decide (x.stashPoisonTrap 8 (x.accs stashUni) = none ∧ x.noReds ∧ x.nothingSent .pkg))) = true := by decide +kernel
  exact fun s hs => reachingLines _ (List.all_eq_true.mp h s hs)

theorem witness_PostedReductions_stash : ∀ s ∈ [paged (.red .always .maxSgn32 .die stashUni), copied (.red .always .maxSgn32 .die stashUni)],
    ∃ x, Runs (.red .always .maxSgn32 .die stashUni) (fun _ => [atomName stashUni .maxSgn32, addrName stashUni]) s x ∧ x.ReachesLines stashUni 4 true false ∧ x.noReds := by
  have h : [paged (.red .always .maxSgn32 .die stashUni), copied (.red .always .maxSgn32 .die stashUni)].all (fun s =>
      meets s (.red .always .maxSgn32 .die stashUni) (fun _ => [atomName stashUni .maxSgn32, addrName stashUni]) (fun x => reachesLines x stashUni 4 true false &&
        decide x.noReds)) = true := by decide +kernel
  exact fun s hs => reachingLines _ (List.all_eq_true.mp h s hs)

theorem witness_Atomics_stash_places :
    (∃ x ∈ ctxOf (paged (.nop .always)) .always, ∀ a ∈ x.accs stashUni, ∀ ln ∈ x.accLines 8 a, ((x.s.mem.lineOf x.g.core ln).mapped).isNone = true) ∧
    (∃ x ∈ ctxOf (copied (.nop .always)) .always, ∀ a ∈ x.accs stashUni, ∀ j < 8, x.s.mem.placeAt x.g.core (x.stashOff a + j) = some (0x2000080 + j)) := by
  decide +kernel

/-- An absent line that a fill brings: the accesses of each form start it. -/
theorem witness_StashLines_fill :
    ∀ e ∈ [(Instr.ld .always .b32 false stashUni, [dataName stashUni 1 false, addrName stashUni]), (.st .always .b32 stashUni, [dataName stashUni 1 true, addrName stashUni]),
      (.atom .always .add32 .die stashUni, [atomName stashUni .add32, addrName stashUni]), (.red .always .add32 .die stashUni, [atomName stashUni .add32, addrName stashUni])],
    ∃ x, Runs e.1 (fun _ => e.2) (lined e.1 false []) x ∧ (x.orderWaits true = false ∧ x.segFault 1 4 true true (x.accs stashUni) = none ∧
      (∀ acc ∈ [Access.read, .write, .fetch, .rmw], x.stashFault acc true 4 (x.accs stashUni) = none) ∧
      (∃ a ∈ x.accs stashUni, 2 ∈ x.accLines 4 a) ∧ x.s.mem.present x.g.core 2 = false ∧ (x.s.mem.lineOf x.g.core 2).mapped.isSome = true ∧
      (x.s.mem.lineOf x.g.core 2).writers = []) := by
  have h : [(Instr.ld .always .b32 false stashUni, [dataName stashUni 1 false, addrName stashUni]), (.st .always .b32 stashUni, [dataName stashUni 1 true, addrName stashUni]),
      (.atom .always .add32 .die stashUni, [atomName stashUni .add32, addrName stashUni]), (.red .always .add32 .die stashUni, [atomName stashUni .add32, addrName stashUni])].all
      (fun e => meets (lined e.1 false []) e.1 (fun _ => e.2) (fun x => decide (x.orderWaits true = false ∧ x.segFault 1 4 true true (x.accs stashUni) = none ∧
      (∀ acc ∈ [Access.read, .write, .fetch, .rmw], x.stashFault acc true 4 (x.accs stashUni) = none) ∧
      (∃ a ∈ x.accs stashUni, 2 ∈ x.accLines 4 a) ∧ x.s.mem.present x.g.core 2 = false ∧ (x.s.mem.lineOf x.g.core 2).mapped.isSome = true ∧
      (x.s.mem.lineOf x.g.core 2).writers = []))) = true := by decide +kernel
  exact fun e he => runs_with _ (List.all_eq_true.mp h e he)

/-- A line that engine command 77 writes: no access fills it. -/
theorem witness_StashLines_absent :
    ∀ e ∈ [(Instr.ld .always .b32 false stashUni, [dataName stashUni 1 false, addrName stashUni]), (.st .always .b32 stashUni, [dataName stashUni 1 true, addrName stashUni]),
      (.atom .always .add32 .die stashUni, [atomName stashUni .add32, addrName stashUni]), (.red .always .add32 .die stashUni, [atomName stashUni .add32, addrName stashUni])],
    ∃ x, Runs e.1 (fun _ => e.2) (lined e.1 false [77]) x ∧ (x.orderWaits true = false ∧ x.segFault 1 4 true true (x.accs stashUni) = none ∧ x.accs stashUni ≠ [] ∧
      x.noReds ∧ x.nothingSent .die ∧ x.stashFault .rmw true 4 (x.accs stashUni) = none ∧
      (∀ a ∈ x.accs stashUni, ∃ ln ∈ x.accLines 4 a, x.s.mem.present x.g.core ln = false) ∧
      (∀ a ∈ x.accs stashUni, ∀ ln ∈ x.accLines 4 a, (x.s.mem.lineOf x.g.core ln).writers ≠ [])) := by
  have h : [(Instr.ld .always .b32 false stashUni, [dataName stashUni 1 false, addrName stashUni]), (.st .always .b32 stashUni, [dataName stashUni 1 true, addrName stashUni]),
      (.atom .always .add32 .die stashUni, [atomName stashUni .add32, addrName stashUni]), (.red .always .add32 .die stashUni, [atomName stashUni .add32, addrName stashUni])].all
      (fun e => meets (lined e.1 false [77]) e.1 (fun _ => e.2) (fun x => decide (x.orderWaits true = false ∧ x.segFault 1 4 true true (x.accs stashUni) = none ∧ x.accs stashUni ≠ [] ∧
      x.noReds ∧ x.nothingSent .die ∧ x.stashFault .rmw true 4 (x.accs stashUni) = none ∧
      (∀ a ∈ x.accs stashUni, ∃ ln ∈ x.accLines 4 a, x.s.mem.present x.g.core ln = false) ∧
      (∀ a ∈ x.accs stashUni, ∀ ln ∈ x.accLines 4 a, (x.s.mem.lineOf x.g.core ln).writers ≠ [])))) = true := by decide +kernel
  exact fun e he => runs_with _ (List.all_eq_true.mp h e he)

/-- The G segment starts at another chip's memory, and a port leads there. -/
def faraway (i : Instr) : State :=
  let s := paged i
  { s with
    fabric := { s.fabric with route := s.fabric.route.set 1 1 }
    groups := s.groups.map (fun g => { g with segs := g.segs.set 0 (2 ^ 54, 0x1000000000) }) }

/-- The page is a REPL page: every die has a replica of its frames. -/
def replicated (i : Instr) : State :=
  let s := paged i
  { s with mem := { s.mem with
    bytes := [(0x2000, 0x01), (0x2001, 0x40), (0x4000, 0x01), (0x4001, 0x60), (0x6000, 0x01), (0x6001, 0x80), (0x8000, 0x3F), (0x8003, 0x02)]
    owners := s.mem.owners ++ (List.range 3).flatMap (fun d => (List.range 64).map (fun k => ((d + 1) * 2 ^ 24 + 4096 + k, 1))) } }

/-- The page lies on die 1, which is fenced. -/
def homeless (i : Instr) : State :=
  let s := paged i
  { s with
    dies := [Die.reset 0, { Die.reset 1 with fenced := true }, Die.reset 2, Die.reset 3]
    mem := { s.mem with
      bytes := [(0x2000, 0x01), (0x2001, 0x40), (0x4000, 0x01), (0x4001, 0x60), (0x6000, 0x01), (0x6001, 0x80), (0x8000, 0x1F), (0x8003, 0x02), (0x8004, 0x20)]
      owners := s.mem.owners ++ (List.range 64).map (fun k => (2 ^ 24 + 4096 + k, 1)) } }

/-- Where the pieces of an access go. -/
def piecesAre (x : Ctx) (l : LArgs) (n : Nat) (acc : Access) (ok : Nat × Nat × Trans → Bool) : Bool :=
  match x.locate l.seg.toNat n acc false (x.accs l) with
  | .ok ls => !x.lensBlocks ls && decide (memPoison x.s x.agent x.t.vi ls = none) && ls.all (fun k => k.parts.all ok) && ls.any (fun k => !k.parts.isEmpty)
  | .error _ => false

/-- A store goes to such pieces, with nothing in its way. -/
def storesTo (s : Instr → State) (i : Instr) (l : LArgs) (n : Nat) (plain : Bool) (ok : Ctx → Nat × Nat × Trans → Bool) : Prop :=
  ∃ x, Runs i (fun _ => [dataName l (vregsOf n) true, addrName l]) (s i) x ∧ (l.seg.toNat ≠ 1 ∧ x.accs l ≠ [] ∧
    x.segFault l.seg.toNat n true (!plain) (x.accs l) = none ∧ x.orderWaits (!plain) = false ∧ x.noReds ∧ x.nothingSent .pkg ∧
    piecesAre x l n .write (ok x) = true)

theorem witness_RemoteAndReplicas_stores :
    storesTo faraway (.st .always .b32 uniAt) uniAt 4 true (fun _ p => p.2.2.remote && !p.2.2.lost) ∧
    storesTo faraway (.stl .always .b32 .pkg uniAt) uniAt 4 false (fun x p => p.2.2.remote && !p.2.2.lost &&
      !x.s.outOfReach (dieOf x.g.core) (remoteKey x.t.vi p.1) 4 && !x.s.homeRefuses (remoteKey x.t.vi p.1) && !x.s.mem.poisonPart (remoteKey x.t.vi p.1) 4) ∧
    storesTo replicated (.st .always .b128 uniAt) uniAt 16 true (fun _ p => !p.2.2.remote && p.2.2.repl && !p.2.2.lost) ∧
    storesTo replicated (.stl .always .b64 .pkg uniAt) uniAt 8 false (fun _ p => !p.2.2.remote && p.2.2.repl && !p.2.2.lost) ∧
    storesTo homeless (.st .always .b8 uniAt) uniAt 1 true (fun _ p => p.2.2.lost) ∧
    storesTo homeless (.stl .always .b32 .pkg uniAt) uniAt 4 false (fun _ p => p.2.2.lost) :=
  ⟨runs_with _ (by decide +kernel), runs_with _ (by decide +kernel), runs_with _ (by decide +kernel), runs_with _ (by decide +kernel),
   runs_with _ (by decide +kernel), runs_with _ (by decide +kernel)⟩

/-- A load goes to such pieces. -/
def loadsFrom (s : Instr → State) (i : Instr) (l : LArgs) (n : Nat) (plain : Bool) (ok : Nat × Nat × Trans → Bool) : Prop :=
  ∃ x, Runs i (fun _ => [dataName l (vregsOf n) false, addrName l]) (s i) x ∧ (l.seg.toNat ≠ 1 ∧ x.accs l ≠ [] ∧
    x.segFault l.seg.toNat n false (!plain) (x.accs l) = none ∧ x.orderWaits (!plain) = false ∧ x.s.mem.posted = [] ∧
    piecesAre x l n .read ok = true)

theorem witness_RemoteAndReplicas_loads :
    loadsFrom faraway (.ld .always .b64 false uniAt) uniAt 8 true (fun p => p.2.2.remote) ∧
    loadsFrom replicated (.lda .always .b32 true .die uniAt) uniAt 4 false (fun p => p.2.2.repl) :=
  ⟨runs_with _ (by decide +kernel), runs_with _ (by decide +kernel)⟩

theorem witness_RemoteAndReplicas_store : ∀ q ∈ (paged (.nop .always)).mem.repls, ¬(agentCore q.agent = agentCore (l1Of 383) ∧ q.pa / 2 ^ 37 = (2 ^ 37 - 1) / 2 ^ 37) := by
  decide +kernel

/-! ### Stops of an access -/

/-- The stops of an access through G: no segment fault, and nothing to wait for. -/
def through (x : Ctx) (l : LArgs) (n : Nat) (write aligned : Bool) : Prop :=
  x.segFault l.seg.toNat n write aligned (x.accs l) = none ∧ l.seg.toNat ≠ 1 ∧ x.orderWaits true = false

/-- An address that has no page: beyond the one page, and for a store to a page without write permission; an ATOM on a REPL page. -/
def beyondPage : LArgs := ⟨0x80000, 0, true, true, 2, 8⟩

theorem witness_AccessTraps_page :
    (∃ x, Runs (.ld .always .b32 false beyondPage) (fun _ => [dataName beyondPage 1 false, addrName beyondPage]) (paged (.ld .always .b32 false beyondPage)) x ∧
      ((x.segFault 0 4 false false (x.accs beyondPage) = none ∧ x.orderWaits true = false) ∧
        ∃ a ∈ x.accs beyondPage, (match x.locateOne 0 4 .read false a with | .error (va, e) => va == 0x80000 && e.sub == 0 | .ok _ => false) = true)) ∧
    (∃ x, Runs (.red .always .add32 .die uniAt) (fun _ => [atomName uniAt .add32, addrName uniAt]) (replicated (.red .always .add32 .die uniAt)) x ∧
      ((x.segFault 0 4 true true (x.accs uniAt) = none ∧ x.orderWaits true = false) ∧
        ∃ a ∈ x.accs uniAt, (match x.locateOne 0 4 .write true a with | .error (va, e) => va == 0x100 && e.sub == 2 | .ok _ => false) = true)) :=
  ⟨runs_with _ (by decide +kernel), runs_with _ (by decide +kernel)⟩

/-- A task that asks for race traps, and the word at 0x100 of the page with a byte that a group of core 5 left. -/
def raced (i : Instr) : State :=
  let s := paged i
  { s with
    tasks := s.tasks.map (fun t => { t with launch := t.launch.map (fun l => { l with flags := l.flags ||| 4 }) })
    mem := { s.mem with regs := [⟨0x2000100, l1Of 5, 0xF, none, false, 0xAABBCCDD, [⟨3, ⟨some 5, some 40, 0, false⟩, []⟩]⟩] } }

theorem witness_AccessTraps_race :
    ∃ x, Runs (.st .always .b32 uniAt) (fun _ => [dataName uniAt 1 true, addrName uniAt]) (raced (.st .always .b32 uniAt)) x ∧
      (x.segFault 0 4 true false (x.accs uniAt) = none ∧ x.orderWaits true = false ∧ x.l.race = true ∧
        (match x.locate 0 4 .write false (x.accs uniAt) with
          | .ok ls => ls.any (fun k => k.parts.any (fun p => !p.2.2.remote && !p.2.2.repl && !p.2.2.lost && p.2.2.pa == 0x2000100 && p.2.1 == 4))
          | .error _ => false) = true ∧
        (∃ r ∈ x.s.mem.regs, x.s.mem.reg? r.pa = some r ∧ r.owner ≠ x.agent ∧ ∃ e ∈ r.plain, r.pa % 4 = 0 ∧ e.byte < 4 ∧ 0x2000100 ≤ r.pa + e.byte ∧
          r.pa + e.byte < 0x2000100 + 4 ∧ e.writer.own x.g.gid x.agent = false ∧ ∀ k ∈ e.rels, inScope k.paired k.agent k.scope x.agent = false)) :=
  runs_with _ (by decide +kernel)

/-- Poison at the page's 0x100, and in the registers v2 and s3. -/
def poisoned (i : Instr) : State :=
  let s := paged i
  { s with
    mem := { s.mem with poison := [0x2000100] }
    groups := s.groups.map (fun g => { g with poisonV := [2 * 64 + 63], poisonS := [3] }) }

/-- Only memory is poisoned. -/
def poisonedWord (i : Instr) : State :=
  let s := paged i
  { s with mem := { s.mem with poison := [0x2000100] } }

theorem witness_AccessTraps_poison :
    (∃ x, Runs (.atom .always .add64 .die uniAt) (fun _ => [atomName uniAt .add64, addrName uniAt]) (poisonedWord (.atom .always .add64 .die uniAt)) x ∧
      (x.segFault 0 8 true true (x.accs uniAt) = none ∧ x.orderWaits true = false ∧ (∀ a ∈ x.accs uniAt, x.submitPage 0 .add64 .die a = none) ∧
        (match x.locate 0 8 .rmw true (x.accs uniAt) with
          | .ok ls => ls.any (fun k => k.parts.any (fun p => decide (0x2000100 < p.2.2.from' x.agent x.t.vi p.1 + p.2.1 ∧ p.2.2.from' x.agent x.t.vi p.1 < 0x2000100 + 4)))
          | .error _ => false) = true)) ∧
    (∃ x ∈ ctxOf (poisoned (.iadd .always (.v 1) (.v 2) (.s 3))) .always, boundFault x (namesA (.v 1) [.v 2, .s 3]) = none ∧
      x.busy (namesA (.v 1) [.v 2, .s 3]) = false ∧ 63 ∈ x.lanes ∧ 2 * 64 + 63 ∈ x.g.poisonV ∧ x.any = true ∧ 3 ∈ x.g.poisonS) :=
  ⟨runs_with _ (by decide +kernel), by decide +kernel⟩

/-- Group with registers v0 to v7 and s0 to s7 only; index register x1 names one past the last in lane 63, and has mode 0 in lane 0. -/
def narrow (i : Instr) : State :=
  let s := demo i
  { s with groups := s.groups.map (fun g => { g with vgran := 1, sgran := 1, x := (List.range 63).map (fun l => (64 + l, 0x10000000)) ++ [(64 + 63, 0x10000008)] }) }

theorem witness_AccessTraps_bound :
    (∃ x ∈ ctxOf (narrow (.iadd .always (.v 8) (.v 2) (.s 3))) .always, (Use.op (.v 8) 1).beyond x.g x.t = true ∧
      (Instr.iadd .always (.v 8) (.v 2) (.s 3)).allowedIn (x.c.header.toNat / 16 % 8) = true) ∧
    (∃ x ∈ ctxOf (narrow (.iadd .always (.v 7) (.ind .none 1) (.s 7))) .always, 63 ∈ x.lanes ∧
      boundSub (x.g.xget 1 63) (8 * x.g.vgran) = some 1 ∧ boundSub (x.g.xget 1 0) (8 * x.g.vgran) = none) ∧
    boundSub 0x30000000 8 = some 2 ∧ boundSub 0x20000203 8 = some 0 ∧ boundSub 0x20000401 8 = none ∧ boundSub 0x100004FF 8 = some 0 := by decide +kernel

/-! ### Family 6 -/

/-- A matrix task: tile registers t0 at 0 and t1 at 0x4000 with rows of 256 bytes (spec/16, "Notes on matrix and control instructions"), slot 0 E4M3. -/
def tiled (i : Instr) : State :=
  { slotDemo i 3 with tasks := (slotDemo i 3).tasks.map (fun t => { t with tiles := [(0, 0x01000000), (1, 0x01004000)] }) }

theorem witness_MatrixIssue_tiles :
    (∃ x, Runs (.mapset .always 62 15) (fun _ => [⟨0, .tile 15, false⟩, ⟨1, .op (.s 62) 2, true⟩]) (demo (.mapset .always 62 15)) x ∧
      (x.s.slaved x.g.core = false ∧ x.any = true)) ∧
    (∃ x, Runs (.mzero .always false 0) (fun _ => [⟨0, .acc 0, false⟩]) (demo (.mzero .always false 0)) x ∧
      (x.s.slaved x.g.core = false ∧ x.any = true ∧ x.pairBad false = false)) ∧
    (∃ x, Runs (.mstat .always true 63 0) (fun _ => [⟨0, .op (.s 63) 1, false⟩, ⟨1, .acc 0, false⟩]) (demo (.mstat .always true 63 0)) x ∧
      (x.s.slaved x.g.core = false ∧ x.any = true)) :=
  ⟨runs_with _ (by decide +kernel), runs_with _ (by decide +kernel), runs_with _ (by decide +kernel)⟩

theorem witness_MatrixIssue_mma :
    ∃ x, Runs (.mma .always false true 1 0 0) (fun _ => mmaNames 1 0 0) (tiled (.mma .always false true 1 0 0)) x ∧
      (x.s.slaved x.g.core = false ∧ x.any = true ∧ x.t.tileErr = [] ∧ x.mmaFault false false 0 1 [] = none ∧
        x.s.arrayRoom (x.arrayEntry .mma [x.g.core] 0) = true) := runs_with _ (by decide +kernel)

/-- Metadata that selects elements 0 and 1 of every four, from 16 lanes in 32 registers (R224). -/
def withMeta (s : State) : State :=
  { s with groups := s.groups.map (fun g => { g with v := (List.range 32).flatMap (fun n => (List.range 16).map (fun l => (64 * n + l, 0x44444444))) }) }

/-- The array of the core is full of operations: no room. -/
def fullArray (s : State) : State :=
  { s with arrays := (List.range 64).map (fun k => ⟨1000 + k, 77, 77, .mma, .accepted, [0], 0, false, 0, 0, 0, 0, [], [], [], [], 0⟩) }

def sparseDemo : Instr := .mmas .always false false 0 0 1 0 0
def sparseNames (x : Ctx) : List Named := mmaNames 1 0 0 ++ [⟨3, .op (.v 0) (x.metaRegs false 16 0), false⟩, ⟨3, x.metaReads 16 0 (x.metaRegs false 16 0), true⟩]

theorem witness_MatrixIssue_mmas :
    ∃ x, Runs sparseDemo sparseNames (withMeta (tiled sparseDemo)) x ∧ (x.s.slaved x.g.core = false ∧ x.any = true ∧ x.t.tileErr = [] ∧ 16 ≤ x.g.width ∧
      pastV255 0 (x.metaRegs false 16 0) = false ∧ x.mmaFault false true 0 1 (x.metaWords false 16 0 (metaPerRow (x.slot (omapOf (x.tile 0)).slot).fmt)) = none) :=
  runs_with _ (by decide +kernel)

theorem witness_MatrixIssue_full :
    ∃ x, Runs (.mma .always false true 1 0 0) (fun _ => mmaNames 1 0 0) (fullArray (tiled (.mma .always false true 1 0 0))) x ∧
      (x.s.slaved x.g.core = false ∧ x.any = true ∧ x.t.tileErr = [] ∧ x.mmaFault false false 0 1 [] = none ∧
        x.s.arrayRoom (x.arrayEntry .mma [x.g.core] 0) = false) := runs_with _ (by decide +kernel)

/-- Readouts and writes of the last rows (the origin's row and column are 48 and 0), of 16 rows, or 8 pairs. -/
theorem witness_MatrixIssue_readouts :
    ∀ e ∈ [(Instr.accrdF32 .always ⟨15, 6, 240, 0⟩, (⟨15, 6, 240, 0⟩ : RArgs), 16, false), (.accrdPair .always ⟨7, 6, 240, 0⟩, ⟨7, 6, 240, 0⟩, 16, false),
      (.accrdI32 .always ⟨0, 6, 255, 0⟩, ⟨0, 6, 255, 0⟩, 1, false), (.accwrF32 .always ⟨15, 6, 240, 0⟩, ⟨15, 6, 240, 0⟩, 16, true),
      (.accwrI32 .always ⟨15, 6, 240, 0⟩, ⟨15, 6, 240, 0⟩, 16, true)],
    ∃ x, Runs e.1 (fun _ => readNames e.2.1 e.2.2.1 e.2.2.2) (withUni (demo e.1) [(6, 48)]) x ∧ (x.s.slaved x.g.core = false ∧ x.any = true ∧
      x.origin e.2.1 = some (48, 0) ∧ (x.t.queued x.s.arrays x.g.core (x.t.coreSel x.g.core)).accPoison = []) := by
  have h : [(Instr.accrdF32 .always ⟨15, 6, 240, 0⟩, (⟨15, 6, 240, 0⟩ : RArgs), 16, false), (.accrdPair .always ⟨7, 6, 240, 0⟩, ⟨7, 6, 240, 0⟩, 16, false),
      (.accrdI32 .always ⟨0, 6, 255, 0⟩, ⟨0, 6, 255, 0⟩, 1, false), (.accwrF32 .always ⟨15, 6, 240, 0⟩, ⟨15, 6, 240, 0⟩, 16, true),
      (.accwrI32 .always ⟨15, 6, 240, 0⟩, ⟨15, 6, 240, 0⟩, 16, true)].all (fun e => meets (withUni (demo e.1) [(6, 48)]) e.1
    (fun _ => readNames e.2.1 e.2.2.1 e.2.2.2) (fun x => decide (x.s.slaved x.g.core = false ∧ x.any = true ∧ x.origin e.2.1 = some (48, 0) ∧ (x.t.queued x.s.arrays x.g.core (x.t.coreSel x.g.core)).accPoison = []))) = true := by
    decide +kernel
  exact fun e he => runs_with _ (List.all_eq_true.mp h e he)

/-! ### Family 7 -/

/-- Targets that are aligned, one of them at the top of the address space, and a misaligned one. -/
theorem witness_Transfers :
    (∀ off : Word, off = 8 ∨ off = 0xFFFFFFF8 ∨ off = 4 →
      ∃ x, Runs (.bra .always off) (fun _ => []) (demo (.bra .always off)) x ∧ (x.lanes ≠ [] ∧ ((BitVec.ofNat 32 x.c.start + off).toNat % 8 = 0 ↔ off ≠ 4))) ∧
    (∃ x, Runs (.brx .always 255) (fun _ => [⟨1, .op (.v 255) 1, true⟩]) (demo (.brx .always 255)) x ∧ (x.lanes ≠ [] ∧ ∀ l ∈ x.lanes, (x.g.vget 255 l).toNat % 8 = 0)) ∧
    (∃ x, Runs (.call .always 0 16) (fun _ => [⟨0, .op (.v 0) 1, false⟩]) (demo (.call .always 0 16)) x ∧ x.lanes ≠ []) ∧
    (∃ x, Runs (.ret ⟨0, true⟩ 9) (fun _ => [⟨1, .op (.v 9) 1, true⟩]) (demo (.ret ⟨0, true⟩ 9)) x ∧ x.lanes ≠ []) := by
  refine ⟨?_, runs_with _ (by decide +kernel), runs_with _ (by decide +kernel), runs_with _ (by decide +kernel)⟩
  rintro off (rfl | rfl | rfl) <;> exact runs_with _ (by decide +kernel)

theorem witness_LaneAndSystemValues : AllRun
    [(.elect .always (.p 5), namesA (.p 5) []), (.yield .always, []), (.nop nobody, []), (.getsys .always .lane (.v 1), namesA (.v 1) []),
     (.getsys .always .vi (.s 63), namesA (.s 63) [])] := allRun_of (by decide +kernel)

/-- The group with some fields changed. -/
def inGroup (s : State) (f : Group → Group) : State := { s with groups := s.groups.map f }

/-- EXIT of one lane, of all lanes, and of a killed group in its handler. -/
theorem witness_ExitsAndKills_exit :
    (∃ x, Runs (.exit ⟨0, false⟩) (fun _ => []) (inGroup (demo (.exit ⟨0, false⟩)) (fun g => g.pset 0 3 true)) x ∧
      (x.any = true ∧ x.g.gsrH = false ∧ (x.t.lanesGone x.g.num x.act).barriers.any Barrier.complete = false ∧ x.g.live &&& ~~~x.act ≠ 0 ∧ x.g.residency = .resident)) ∧
    (∃ x, Runs (.exit .always) (fun _ => []) (demo (.exit .always)) x ∧
      (x.any = true ∧ x.g.gsrH = false ∧ (∀ b ∈ x.t.barriers, b = Barrier.idle) ∧ x.g.live &&& ~~~x.act = 0 ∧ x.g.residency = .resident)) ∧
    (∀ i, i = .exit .always ∨ i = .rtt .always → ∃ x, Runs i (fun _ => []) (inGroup (demo i) (fun g => { g with gsrH := true, killed := true })) x ∧
      (x.any = true ∧ x.g.gsrH = true ∧ x.g.killed = true)) := by
  refine ⟨runs_with _ (by decide +kernel), runs_with _ (by decide +kernel), ?_⟩
  rintro i (rfl | rfl) <;> exact runs_with _ (by decide +kernel)

/-- EXIT in a handler, by a group of a team with two more: one parked on a BAR, and one that is swapped out. -/
def team3 : State :=
  let s := inGroup (demo (.exit .always)) (fun g => { g with gsrH := true })
  { s with groups := s.groups ++ (s.groups.map (fun g => { g with
      gid := 3, num := 1, gsrH := false, clause := none
      parks := [⟨0, [BitVec.ofNat 16 (2 * 8192 + 5)], true, none, none, .v 9, true, false, false, [], false⟩] }))
    ++ s.groups.map (fun g => { g with gid := 4, num := 2, gsrH := false, clause := none, residency := .out 0 1 }) }

theorem witness_ExitsAndKills_kill :
    (∃ x, Runs (.exit .always) (fun _ => []) team3 x ∧ (x.any = true ∧ x.g.gsrH = true ∧ x.g.killed = false ∧ x.t.killing = false ∧
      (team3.group? x.g.gid).map Group.gid = some x.g.gid ∧ (team3.task? x.g.task).map Task.uid = some x.t.uid)) ∧
    (∃ g ∈ team3.group? 3, ∃ p ∈ g.parks, p.named = true ∧ p.dst = .v 9 ∧ p.released = false ∧ p.met = false ∧ p.deadline = none ∧ p.onBar = true ∧
      (g.parks.map Park.lane).Nodup ∧ (∀ q ∈ g.parks, q.lane < 64) ∧ g.here = true ∧ (team3.groups.map Group.gid).Nodup ∧
      (team3.group? 2).map Group.task = some g.task) ∧
    (∃ g ∈ team3.group? 4, g.here = false) ∧
    ({ team3 with tasks := team3.tasks.map (fun t => { t with killing := true }) } : State).tasks.all Task.killing = true :=
  ⟨runs_with _ (by decide +kernel), by decide +kernel, by decide +kernel, by decide +kernel⟩

/-- A frame segment at 0x40000 with a trap area that its page holds. -/
def framed (i : Instr) : State :=
  inGroup (paged i) (fun g => { g with segs := g.segs.set 5 (0x40000, 0x40000) })

/-- What `Ctx.Enters` asks, for a trap. -/
def enters (x : Ctx) (tr : Trap) (r : ReturnPoint) : Bool :=
  let e := (x.s.viOf x.t.vi).handler - (x.g.seg 4).1
  !x.g.gsrH && tr.cls != 12 && (x.s.viOf x.t.vi).handler != 0 && e.toNat % 8 == 0 && decide (e.toNat < (x.g.seg 4).2.toNat)
    && decide (x.g.layoutEnd x.t + 128 ≤ (x.g.seg 5).2.toNat) && (x.s.groupPut x.g x.t.vi x.g.trapArea (causeRecord tr r x.c.lanes x.s.tick)).2

theorem enters_spec {x tr r} (h : enters x tr r = true) : ∃ u, x.Enters tr r u := by
  unfold enters at h
  simp only [Bool.and_eq_true, Bool.not_eq_true', bne_iff_ne, ne_eq, beq_iff_eq, decide_eq_true_eq] at h
  obtain ⟨⟨⟨⟨⟨⟨h1, h2⟩, h4⟩, h5⟩, h6⟩, h7⟩, h8⟩ := h
  exact ⟨_, ⟨h1, h2, h4, h5, h6, h7, Prod.ext rfl h8⟩⟩

theorem witness_TrapAndReturn_trap : ∃ x u, Runs (.trap .always 0x42) (fun _ => []) (framed (.trap .always 0x42)) x ∧ x.any = true ∧
    x.Enters ⟨10, 0, x.act, 0, 0x42, 0, 0⟩ (x.returnPoint true) u := by
  obtain ⟨x, hx, h⟩ := runs_of_meets (s := framed (.trap .always 0x42)) (i := .trap .always 0x42) (nms := fun _ => [])
    (ok := fun x => x.any && enters x ⟨10, 0, x.act, 0, 0x42, 0, 0⟩ (x.returnPoint true)) (by decide +kernel)
  rw [Bool.and_eq_true] at h
  obtain ⟨u, hu⟩ := enters_spec h.2
  exact ⟨x, u, hx, h.1, hu⟩

/-- A team of two groups, of which the second has what its handler entry needs. -/
def heirs : State :=
  let s := framed (.exit .always)
  { s with groups := s.groups.map (fun g => { g with gsrH := true }) ++ s.groups.map (fun g => { g with gid := 3, num := 1, clause := none }) }

theorem witness_ExitsAndKills_entry :
    ∃ h ∈ heirs.group? 3, ∃ t ∈ heirs.task? h.task, ∃ g ∈ heirs.group? 2, handlerOk heirs t h ∧ heirs.task? g.task = some t ∧ t.killing = false ∧
      h.task = g.task ∧ h.gid ≠ g.gid ∧ h.residency = .resident ∧ (heirs.groups.map Group.gid).Nodup ∧
      ∀ k ∈ heirs.groups, k.task = g.task → k.here = true → k.gid = g.gid ∨ k.gid = h.gid := by
  have e : ∃ h ∈ heirs.group? 3, ∃ t ∈ heirs.task? h.task, ∃ g ∈ heirs.group? 2, ((heirs.viOf t.vi).handler ≠ 0 ∧
      ((heirs.viOf t.vi).handler - (h.seg 4).1).toNat % 8 = 0 ∧ ((heirs.viOf t.vi).handler - (h.seg 4).1).toNat < (h.seg 4).2.toNat ∧
      h.layoutEnd t + 128 ≤ (h.seg 5).2.toNat ∧ (heirs.groupPut h t.vi h.trapArea (List.replicate 64 0)).2 = true) ∧
      heirs.task? g.task = some t ∧ t.killing = false ∧ h.task = g.task ∧ h.gid ≠ g.gid ∧ h.residency = .resident ∧ (heirs.groups.map Group.gid).Nodup ∧
      ∀ k ∈ heirs.groups, k.task = g.task → k.here = true → k.gid = g.gid ∨ k.gid = h.gid := by decide +kernel
  obtain ⟨h, hh, t, ht, g, hg, ⟨h1, h2, h3, h4, h5⟩, rest⟩ := e
  exact ⟨h, hh, t, ht, g, hg, ⟨h1, h2, h3, h4, fun bs hb => (groupPut_ok_length (hb.trans (List.length_replicate ..).symm)).trans h5⟩, rest⟩

/-- A group before its handler, with the handler base, the C limit and the V segment given. -/
def beforeHandler (base climit vbase vlimit : DWord) : State :=
  let s := inGroup (framed (.nop .always)) (fun g => { g with segs := (g.segs.set 4 (0, climit)).set 5 (vbase, vlimit) })
  { s with vis := s.vis.map (fun v => { v with handler := base }) }

/-- Where the group's handler would start. -/
def entryOf (s : State) (g : Group) (t : Task) : Nat := ((s.viOf t.vi).handler - (g.seg 4).1).toNat

/-- Handler base 0; a misaligned entry and one at the C limit; no room in V; a trap area that has no page. -/
theorem witness_HandlerEntry_fatal :
    (∃ g ∈ (beforeHandler 0 0x10000 0x40000 0x40000).group? 2, ∃ t ∈ (beforeHandler 0 0x10000 0x40000 0x40000).task? g.task, g.gsrH = false ∧
      ((beforeHandler 0 0x10000 0x40000 0x40000).viOf t.vi).handler = 0) ∧
    (∃ g ∈ (beforeHandler 0x1004 0x10000 0x40000 0x40000).group? 2, ∃ t ∈ (beforeHandler 0x1004 0x10000 0x40000 0x40000).task? g.task,
      entryOf (beforeHandler 0x1004 0x10000 0x40000 0x40000) g t % 8 ≠ 0) ∧
    (∃ g ∈ (beforeHandler 0x1000 0x1000 0x40000 0x40000).group? 2, ∃ t ∈ (beforeHandler 0x1000 0x1000 0x40000 0x40000).task? g.task,
      (g.seg 4).2.toNat ≤ entryOf (beforeHandler 0x1000 0x1000 0x40000 0x40000) g t) ∧
    (∃ g ∈ (beforeHandler 0x1000 0x10000 0x40000 64).group? 2, ∃ t ∈ (beforeHandler 0x1000 0x10000 0x40000 64).task? g.task,
      entryOf (beforeHandler 0x1000 0x10000 0x40000 64) g t = 0x1000 ∧ 0x1000 < (g.seg 4).2.toNat ∧ (g.seg 5).2.toNat < g.layoutEnd t + 128) ∧
    (∃ g ∈ (beforeHandler 0x1000 0x10000 0x80000 0x40000).group? 2, ∃ t ∈ (beforeHandler 0x1000 0x10000 0x80000 0x40000).task? g.task,
      g.layoutEnd t + 128 ≤ (g.seg 5).2.toNat ∧ ((beforeHandler 0x1000 0x10000 0x80000 0x40000).groupPut g t.vi g.trapArea
        (causeRecord ⟨4, 0, 1, 0, 0, 0, 0⟩ ⟨0, 0, false, 0, 0, 0⟩ 1 0)).2 = false) := by decide +kernel

/-- A page fault, and a deferred error that a privileged group takes. -/
theorem witness_HandlerEntry_enters :
    (∃ x u, ctxOf (framed (.nop .always)) .always = some x ∧ x.Enters ⟨4, 0, x.act, 0, 0, 0, 0⟩ (x.returnPoint false) u) ∧
    (∃ x u, ctxOf (framed (.icinvAll .always)) .always = some x ∧ x.g.privileged x.t = true ∧
      ({ x with s := { x.s with host := { x.s.host with consumed := x.s.host.consumed ++ [x.g.core] } } } : Ctx).Enters ⟨11, 0, x.act, 0, 0, 0, 0⟩ (x.returnPoint false) u) := by
  have e1 : ∃ x ∈ ctxOf (framed (.nop .always)) .always, enters x ⟨4, 0, x.act, 0, 0, 0, 0⟩ (x.returnPoint false) = true := by decide +kernel
  have e2 : ∃ x ∈ ctxOf (framed (.icinvAll .always)) .always, x.g.privileged x.t = true ∧
    enters { x with s := { x.s with host := { x.s.host with consumed := x.s.host.consumed ++ [x.g.core] } } } ⟨11, 0, x.act, 0, 0, 0, 0⟩ (x.returnPoint false) = true := by
    decide +kernel
  obtain ⟨x, hx, h⟩ := e1
  obtain ⟨y, hy, hp, k⟩ := e2
  obtain ⟨u, hu⟩ := enters_spec h
  obtain ⟨v, hv⟩ := enters_spec k
  exact ⟨⟨x, u, hx, hu⟩, y, v, hy, hp, hv⟩

/-- The group is in its handler; its cause record names the clause at 0, whose header reads 0, at instruction 0: again, or next. -/
def returning (i : Instr) (next : Bool) : State :=
  let s := inGroup (framed i) (fun g => { g with gsrH := true })
  { s with mem := { s.mem with bytes := s.mem.bytes ++ (if next then [(0x207FF88, 0x10)] else []) ++ [(0x207FF98, 0xFF)] } }

/-- The record's fields at the ends of their ranges. -/
theorem witness_TrapAndReturn_record :
    (⟨13, 65535, 0, 0, 0, 3, 7⟩ : Trap).sub < 2 ^ 16 ∧ (⟨13, 65535, 0, 0, 0, 3, 7⟩ : Trap).pos < 4 ∧ (⟨13, 65535, 0, 0, 0, 3, 7⟩ : Trap).idx < 8 ∧
    (⟨2 ^ 32 - 8, 15, true, 511, 127, 127⟩ : ReturnPoint).clause < 2 ^ 32 ∧ (⟨2 ^ 32 - 8, 15, true, 511, 127, 127⟩ : ReturnPoint).index < 16 ∧
    (⟨2 ^ 32 - 8, 15, true, 511, 127, 127⟩ : ReturnPoint).opcode < 512 := by decide +kernel

theorem witness_TrapAndReturn_rtt : ∀ next : Bool, ∃ x, Runs (.rtt .always) (fun _ => []) (returning (.rtt .always) next) x ∧
    (x.any = true ∧ x.g.gsrH = true ∧ x.g.killed = false ∧ x.s.deferred x.g.core = [] ∧
      (match x.s.reach x.g.core x.t.vi .fetch false 0 8 with | .ok ps => leNat (fetchedBytes x.s x.g.core x.t.vi ps) % 16 == 0 | .error _ => false) = true ∧
      (match x.s.coreRead x.g.core x.t.vi x.g.trapArea 64 with
        | some b => decide (field b 4 4 = 0 ∧ field b 8 1 = (if next then 16 else 0) ∧ field b 0x18 8 = 0xFF) | none => false) = true) := by
  rintro (_ | _) <;> exact runs_with _ (by decide +kernel)

/-- The same, with other bytes of the record, and with the V segment at another address. -/
def returningTo (bytes : List (Nat × Byte)) (vbase : DWord) : State :=
  let s := inGroup (framed (.rtt .always)) (fun g => { g with gsrH := true, segs := g.segs.set 5 (vbase, 0x40000) })
  { s with mem := { s.mem with bytes := s.mem.bytes ++ bytes } }

/-- A record that cannot be read, one whose clause is misaligned, and one whose index lies beyond its clause's count of 0. -/
theorem witness_HandlerEntry_rtt : ∀ e ∈ [(returningTo [] 0x80000, (0 : Nat)), (returningTo [(0x207FF84, 4)] 0x40000, 1), (returningTo [(0x207FF88, 1)] 0x40000, 2)],
    ∃ x, Runs (.rtt .always) (fun _ => []) e.1 x ∧ (x.any = true ∧ x.g.gsrH = true ∧ x.g.killed = false ∧
      ([(1, 0), (0, 3), (12, 3)].all (fun c => decide ((x.s.fatal x.g c.1 c.2 false).deferred x.g.core = []))) = true ∧
      (match x.s.coreRead x.g.core x.t.vi x.g.trapArea 64 with
        | none => decide (e.2 = 0)
        | some b => if e.2 = 1 then decide (field b 4 4 % 8 ≠ 0) else decide (e.2 = 2 ∧ field b 4 4 % 8 = 0) && (match x.s.reach x.g.core x.t.vi .fetch false 0 8 with
          | .ok ps => decide (leNat (fetchedBytes x.s x.g.core x.t.vi ps) % 16 < field b 8 1 % 16) | .error _ => false)) = true) := by
  have h : [(returningTo [] 0x80000, (0 : Nat)), (returningTo [(0x207FF84, 4)] 0x40000, 1), (returningTo [(0x207FF88, 1)] 0x40000, 2)].all (fun e =>
    meets e.1 (.rtt .always) (fun _ => []) (fun x => decide (x.any = true ∧ x.g.gsrH = true ∧ x.g.killed = false ∧
      ([(1, 0), (0, 3), (12, 3)].all (fun c => decide ((x.s.fatal x.g c.1 c.2 false).deferred x.g.core = []))) = true ∧
      (match x.s.coreRead x.g.core x.t.vi x.g.trapArea 64 with
        | none => decide (e.2 = 0)
        | some b => if e.2 = 1 then decide (field b 4 4 % 8 ≠ 0) else decide (e.2 = 2 ∧ field b 4 4 % 8 = 0) && (match x.s.reach x.g.core x.t.vi .fetch false 0 8 with
          | .ok ps => decide (leNat (fetchedBytes x.s x.g.core x.t.vi ps) % 16 < field b 8 1 % 16) | .error _ => false)) = true))) = true := by decide +kernel
  exact fun e he => runs_with _ (List.all_eq_true.mp h e he)

theorem witness_TrapAndReturn_outside :
    (match ctxOf (demo (.rtt .always)) .always with | some x => !x.g.gsrH && (Instr.rtt .always).allowedIn (x.c.header.toNat / 16 % 8) | none => false) = true := by
  decide +kernel

/-- SPAWN and SPAWNC of the record at 0 (which reads as zeros), with the counter at 0x100 at 0 and at 1, and UINT. -/
theorem witness_Spawns :
    (∃ x, Runs (.spawn .always (some .pkg) 2 1) (fun _ => [uName 1 1, uName 2 2]) (withQueue (paged (.spawn .always (some .pkg) 2 1))) x ∧ (x.any = true ∧ x.settled.orderWaits true = false ∧
      (match x.settled.spawnChecks (x.u 1) (x.u 2) none true with
        | .ok a => a.join.isNone && ((x.settled.s.release x.g x.t .pkg).enqueue x.t.vi (x.u 2) 0 0 0 (patchCont a.rec0 (x.t.cont.depth + 1) (some false) (x.childLaunch a.rec0))).isSome
        | .error _ => false) = true)) ∧
    (∀ n : Nat, n = 0 ∨ n = 1 → ∃ x, Runs (.spawnc .always none 3 2 1) (fun _ => [uName 1 1, uName 2 2, uName 3 3])
        (withUni (withQueue { paged (.spawnc .always none 3 2 1) with mem := { (paged (.spawnc .always none 3 2 1)).mem with
          bytes := (paged (.spawnc .always none 3 2 1)).mem.bytes ++ (if n = 0 then [] else [(0x2000100, BitVec.ofNat 8 n)]) } }) [(3, 0x100)]) x ∧ (x.any = true ∧ x.settled.orderWaits true = false ∧
      (match x.settled.spawnChecks (x.u 1) (x.u 2) (some (x.u 3)) false with
        | .ok a => (match a.counter with | some k => leNat (x.settled.current x.settled.s k) == n | none => false) &&
          (x.settled.s.enqueue x.t.vi (x.u 2) 0 0 0 (patchCont a.rec0 x.t.cont.depth (some true) (x.childLaunch a.rec0))).isSome
        | .error _ => false) = true)) ∧
    (∃ x, Runs (.uint .always 0xABCDEF 7) (fun _ => [uName 1 7]) (demo (.uint .always 0xABCDEF 7)) x ∧ (x.any = true ∧ x.noReds ∧ x.nothingSent .sys ∧ x.orderWaits true = false)) := by
  refine ⟨runs_with _ (by decide +kernel), ?_, runs_with _ (by decide +kernel)⟩
  rintro n (rfl | rfl) <;> exact runs_with _ (by decide +kernel)

/-- The privileged instructions run in a privileged task on a service core of the scheduling processor. -/
theorem witness_PrivilegedInstructions :
    (AllRun [(.setseg .always 5 2 1, [uName 1 1, uName 2 2]), (.setrgn .always 15 2 1, [uName 1 1, uName 2 2]), (.tlbinvPage .always 2 1, [uName 1 1, uName 2 2]),
     (.tlbinvVi .always 2, [uName 2 2]), (.tlbinvAll .always, []), (.icinvRange .always 2 1, [uName 1 1, uName 2 2]), (.icinvAll .always, []),
     (.setviHandler .always 2 1, [uName 1 1, uName 2 2]), (.setviSwap .always 2 1, [uName 1 1, uName 2 2]), (.setviPtroot .always 2 1, [uName 1 1, uName 2 2]),
     (.setviUint .always 2 1, [uName 1 1, uName 2 2]), (.setviKeys .always 2 1, [uName 1 1, uName 2 2]), (.setviKeybase .always 2 1, [uName 1 1, uName 2 2])]) ∧
    (∃ x, Runs (.setseg .always 1 2 1) (fun _ => [uName 1 1, uName 2 2]) (withUni (demo (.setseg .always 1 2 1)) [(1, 1024), (2, 261120)]) x ∧
      (x.any = true ∧ 412 ≤ x.g.core ∧ x.u 1 % 1024 = 0 ∧ x.u 1 + x.u 2 = 262144)) ∧
    (∀ b : Nat, b = 0 ∨ b = 1 → ∃ x, Runs (.setviState .always 2 1) (fun _ => [uName 1 1, uName 2 2]) (withUni (demo (.setviState .always 2 1)) [(1, 63), (2, BitVec.ofNat 64 b)]) x ∧
      (x.any = true ∧ 412 ≤ x.g.core ∧ x.u 2 = b)) := by
  refine ⟨allRun_of (by decide +kernel), runs_with _ (by decide +kernel), ?_⟩
  rintro b (rfl | rfl) <;> exact runs_with _ (by decide +kernel)

/-- LD in a class 0 clause, SETSEG by an unprivileged task, and STMAP on a service core. -/
theorem witness_IllegalUses :
    (match ctxOf (inGroup (demo (.ld .always .b32 false lanesAt)) (fun g => { g with clause := g.clause.map (fun c => { c with header := 0 }) })) .always with
      | some x => !(Instr.ld .always .b32 false lanesAt).allowedIn (x.c.header.toNat / 16 % 8) | none => false) = true ∧
    (match ctxOf (inGroup { demo (.setseg .always 0 2 1) with
        tasks := (demo (.setseg .always 0 2 1)).tasks.map (fun t => { t with privileged := false }) } (fun g => { g with core := 384 })) .always with
      | some x => !x.g.privileged x.t && (Instr.setseg .always 0 2 1).privileged | none => false) = true ∧
    (match ctxOf (inGroup (demo (.stmap .always 3 2 1)) (fun g => { g with core := 384 })) .always with
      | some x => decide (384 ≤ x.g.core) && (Instr.stmap .always 3 2 1).lacksService | none => false) = true := by decide +kernel

/-! ### Events of groups -/

/-- A group outside a clause, in a task with a page for its code; all its lanes stand at an address. -/
def waitingAt (s : State) (vpc : Nat) : State :=
  inGroup s (fun g => { g with clause := none, vpc := if vpc = 0 then [] else (List.range g.width).map (fun l => (l, BitVec.ofNat 32 vpc)) })

/-- What CLAUSE_ISSUE needs of group 2, with a condition on what it meets. -/
def issuing (s : State) (ok : Group → Task → Launch → Nat → Bool) : Prop :=
  ∃ g ∈ s.group? 2, ∃ t ∈ s.task? g.task, ∃ l ∈ t.launch, ∃ p ∈ g.issueAddr, g.canIssue = true ∧ g.boundary = [] ∧ g.resumeIssue = none ∧ g.repLeft = 0 ∧
    g.repAt = none ∧ g.preempt = none ∧ ok g t l p = true

/-- A state whose page holds a header at its first address. -/
def headed (bytes : List (Nat × Byte)) : State :=
  let s := paged (.nop .always)
  waitingAt { s with mem := { s.mem with bytes := s.mem.bytes ++ bytes } } 0

/-- The header word that a fetch at an address gives. -/
def headerIs (s : State) (g : Group) (t : Task) (p : Nat) (ok : Nat → Bool) : Bool :=
  match s.fetchWords g t.vi p 1 with
  | .ok (_, [some w]) => ok w.toNat
  | _ => false

theorem witness_ClauseIssue_misaligned : issuing (waitingAt (paged (.nop .always)) 0xFFFFFFFC) (fun _ _ _ p => p % 8 != 0) := by
  unfold issuing; decide +kernel

/-- A C segment of one word: a header at 8 lies beyond it. -/
def shortCode : State := inGroup (waitingAt (paged (.nop .always)) 8) (fun g => { g with segs := g.segs.set 4 (0, 8) })

theorem witness_ClauseIssue_beyond : issuing shortCode (fun g t _ p => p % 8 == 0 && (match shortCode.fetchWords g t.vi p 1 with | .ok (_, [none]) => true | _ => false)) := by
  unfold issuing; decide +kernel

theorem witness_ClauseIssue_fault : issuing (waitingAt (demo (.nop .always)) 8) (fun g t _ p => p % 8 == 0 &&
    (match (waitingAt (demo (.nop .always)) 8).fetchWords g t.vi p 1 with | .error _ => true | .ok _ => false)) := by unfold issuing; decide +kernel

theorem witness_ClauseIssue_high : issuing (inGroup (headed [(0x2000007, 1)]) (fun g => { g with transfer := fullMask 64 }))
    (fun g t _ p => p % 8 == 0 && headerIs (headed [(0x2000007, 1)]) g t p headerHigh && g.issueSet p &&& g.transfer != 0) := by unfold issuing; decide +kernel

theorem witness_ClauseIssue_bad : issuing (headed [(0x2000000, 0x10), (0x2000002, 0x02)])
    (fun g t _ p => headerIs (headed [(0x2000000, 0x10), (0x2000002, 0x02)]) g t p (fun w => headerBad w && !headerHigh w)) := by unfold issuing; decide +kernel

theorem witness_ClauseIssue_waits : issuing (inGroup (headed [(0x2000001, 0x04)]) (fun g => { g with e := [(0, 1)] }))
    (fun g t _ p => headerIs (headed [(0x2000001, 0x04)]) g t p (fun w => !headerBad w && (headerOf w).wait.testBit 0) && g.e.get 0 != 0) := by unfold issuing; decide +kernel

/-- The header is the last word of the page: the fetch of the word after it faults. -/
theorem witness_ClauseIssue_later : issuing (waitingAt (paged (.nop .always)) 0x7FFF8) (fun g t _ p => p % 8 == 0 &&
    (match (waitingAt (paged (.nop .always)) 0x7FFF8).fetchWords g t.vi p 1 with
      | .ok (s1, [some w]) => !headerHigh w.toNat && !headerBad w.toNat && (match s1.fetchWords g t.vi (p + 8) ((headerOf w.toNat).count + 1) with
        | .error _ => true | .ok _ => false)
      | _ => false)) := by unfold issuing; decide +kernel

theorem witness_ClauseIssue_enters : issuing (headed []) (fun g t _ p => headerIs (headed []) g t p (fun w => !headerBad w && (headerOf w).wait == 0 && !(headerOf w).park)
    && g.outs.isEmpty) := by unfold issuing; decide +kernel

/-- The group with one outstanding result, in the last lane of a vector register and a uniform register. -/
theorem witness_WaitingLanes_result :
    ∃ g ∈ (inGroup (demo (.nop .always)) (fun g => { g with outs := [⟨9, [.v 3, .s 2], false, [.v 3 (g.width - 1) 7, .s 2 5], 0, .ready⟩] })).group? 2,
    ∃ o ∈ g.outs.find? (fun q => q.key == 9 && q.src == .ready), (o.writes.map RegWrite.place).Nodup ∧
      o.writes = [.v 3 (g.width - 1) 7, .s 2 5] ∧ 0 < g.width ∧ g.width ≤ 64 := by decide +kernel

/-- A lane parked on event counter 0 (or on monitor 0), with a deadline. -/
def parkedOn (cond : BitVec 16) (deadline : Option Nat) (tick : DWord) (met := false) : State :=
  inGroup { demo (.nop .always) with tick := tick } (fun g => { g with clause := none, parks := [⟨1, [cond], true, none, deadline, .v 4, false, false, met, [], false⟩] })

theorem witness_WaitingLanes_unpark :
    (∃ g ∈ (parkedOn 0x2000 none 0).group? 2, ∃ t ∈ (parkedOn 0x2000 none 0).task? g.task, ∃ p ∈ g.parks.find? (fun q => q.lane == 1),
      g.wakes 1 = true ∧ p.deadline = none ∧ p.holds (parkedOn 0x2000 none 0) g t = true) ∧
    (∃ g ∈ (parkedOn 0 (some 7) 8 true).group? 2, ∃ p ∈ g.parks.find? (fun q => q.lane == 1), ∃ d ∈ p.deadline, g.wakes 1 = true ∧ p.met = true ∧ d < (8 : DWord).toNat) ∧
    (∃ g ∈ (parkedOn 0 none 0).group? 2, ∃ t ∈ (parkedOn 0 none 0).task? g.task, ∃ p ∈ g.parks.find? (fun q => q.lane == 1),
      g.wakes 1 = true ∧ p.met = false ∧ p.holds (parkedOn 0 none 0) g t = false ∧ p.deadline = none) ∧
    (∃ g ∈ (parkedOn 0 (some 7) 8).group? 2, ∃ p ∈ g.parks.find? (fun q => q.lane == 1), ∃ d ∈ p.deadline, g.wakes 1 = true ∧ p.met = false ∧ d < (8 : DWord).toNat) ∧
    (∃ g ∈ (parkedOn 0 (some 7) 7).group? 2, ∃ p ∈ g.parks.find? (fun q => q.lane == 1), ∃ d ∈ p.deadline, (7 : DWord).toNat ≤ d) := by decide +kernel

/-- A monitor on the word at 0x100 of memory: armed and hit, polling at a multiple of 100 ticks, and at another tick. -/
def watching (polling : Bool) (tick : DWord) : State :=
  inGroup { demo (.nop .always) with tick := tick } (fun g => { g with mon := g.mon.set 3 ⟨true, false, polling, true, false, 0x100, 0x100, .eq, 0⟩ })

theorem witness_WaitingLanes_monitor :
    (∃ g ∈ (watching false 0).group? 2, ∃ m ∈ g.mon[3]?, m.armed = true ∧ m.hit = true) ∧
    (∃ g ∈ (watching true 200).group? 2, ∃ m ∈ g.mon[3]?, m.armed = true ∧ m.polling = true ∧ m.fired = false ∧ m.addr = 0x100) ∧ (200 : DWord).toNat % 100 = 0 ∧
      (watching true 200).outOfReach ((watching true 200).groupDie 2) 0x100 4 = false ∧
    (∃ g ∈ (watching true 199).group? 2, ∃ m ∈ g.mon[3]?, (199 : DWord).toNat % 100 ≠ 0 ∧ m.polling = true) := by decide +kernel

/-- The group made small (16 lanes, 8 vector and 8 uniform registers), with a frame of 4 KiB at 0x40000, and changed further. -/
def small (f : Group → Group) (swap : Nat) (tick : DWord) : State :=
  let s := inGroup (paged (.nop .always)) (fun g => f { g with clause := none, width := 16, vgran := 1, sgran := 1, segs := g.segs.set 5 (0x40000, 0x1000) })
  { s with
    tick := tick, vis := s.vis.map (fun v => { v with swap := swap })
    tasks := s.tasks.map (fun t => { t with cont := { t.cont with footprint := 0 } }) }

/-- All lanes of the small group are parked on monitor 0. -/
def allPark (g : Group) : Group := { g with parks := (List.range 16).map (fun l => ⟨l, [0], true, none, none, .none, false, false, false, [], false⟩) }

theorem witness_Residence_request : (demo (.nop .always)).tasks.any (fun t => t.uid == 1 && t.state == .placed && !t.ended) = true := by decide +kernel

/-- The clauses on saves: a save under way that can be written, and one that cannot; all lanes parked with a pre-emption asked for; a
swap-out that is due; and a group that must be ended. -/
theorem witness_Residence_saves :
    (∃ g ∈ (small (fun g => { g with residency := .saving 0 0 1 }) 0 0).group? 2, ∃ t ∈ (small (fun g => { g with residency := .saving 0 0 1 }) 0 0).task? g.task,
      g.betweenRepeats = none ∧ (small (fun g => { g with residency := .saving 0 0 1 }) 0 0).saveWaits g = false ∧
      ((small (fun g => { g with residency := .saving 0 0 1 }) 0 0).saveGroup g t 0 1).isSome = true) ∧
    (∃ g ∈ (small (fun g => { g with residency := .saving 0 0 1, segs := [] }) 0 0).group? 2, ∃ t ∈ (small id 0 0).task? g.task,
      ((small (fun g => { g with residency := .saving 0 0 1, segs := [] }) 0 0).saveGroup g t 0 1).isNone = true) ∧
    (∃ g ∈ (small (fun g => { allPark g with preempt := some 5, parkedSince := some 2 }) 7 10).group? 2, g.betweenRepeats = none ∧ g.residency = .resident ∧ g.preempt ≠ none ∧ g.allParked = true ∧
      g.parkedSince = some 2 ∧ 2 + 7 < (10 : DWord).toNat ∧ (small (fun g => { allPark g with preempt := some 5, parkedSince := some 2 }) 7 10).saveWaits g = false) ∧
    (∃ g ∈ (small (fun g => { allPark g with parkedSince := some 2 }) 7 10).group? 2, ∃ t ∈ (small id 7 10).task? g.task,
      ((small (fun g => { allPark g with parkedSince := some 2 }) 7 10).saveGroup g t 1 g.vgran).isSome = true) ∧
    (∃ g ∈ (small (fun g => { g with preempt := some 4096 }) 0 0).group? 2, g.residency = .resident ∧ 4096 ≤ g.preempt.getD 0) ∧
    (∃ g ∈ (small (fun g => { g with preempt := some 4095 }) 0 0).group? 2, g.preempt.getD 0 < 4096) ∧
    (∃ g ∈ (small (fun g => { g with residency := .saving 0 0 1, outs := [⟨9, [.s 2], false, [], 0, .ready⟩] }) 0 1000001).group? 2, g.outs ≠ [] ∧
      (small (fun g => { g with residency := .saving 0 0 1, outs := [⟨9, [.s 2], false, [], 0, .ready⟩] }) 0 1000001).arrays = [] ∧ 0 + 1000000 < (1000001 : DWord).toNat) := by
  decide +kernel

/-- A swapped-out group whose wait has ended comes back: its save area can be read. -/
theorem witness_Residence_back :
    ∃ g ∈ (small (fun g => { g with residency := .out 1 1, parks := [⟨0, [0x2000], true, none, none, .none, false, false, false, [], false⟩] }) 0 0).group? 2,
    ∃ t ∈ (small id 0 0).task? g.task, (small (fun g => { g with residency := .out 1 1, parks := [⟨0, [0x2000], true, none, none, .none, false, false, false, [], false⟩] }) 0 0).wantsBack g t 1 = true ∧
      (small id 0 0).blockFits g.core g.block g.width g.vgran = true ∧ (small id 0 0).groupFits g.core g.sgran 1 = true ∧
      (∀ c ∈ t.cores, (small (fun g => { g with residency := .out 1 1 }) 0 0).teamFits c t.tregs t.accs = true) ∧
      ((small (fun g => { g with residency := .out 1 1 }) 0 0).restoreGroup g t 1).isSome = true := by decide +kernel

/-- The blocks of a group's save area, laid out. -/
def savedArea (g : Group) : List Byte := (g.saveBlocks 0 1).foldl (fun b e => b ++ List.replicate (e.1 - b.length) 0 ++ e.2) []

/-- The small group with values in its last registers, its first lane at 0x40, and a repeat state in progress. -/
def savedGroup : State := small (fun g => { g with
  repLeft := 3, repDone := 5, v := [(64 * 7 + 15, 0x89ABCDEF)], s := [(7, 0x0123456789ABCDEF)], vpc := [(0, 0x40)] }) 0 0

theorem witness_Residence_area :
    ∃ g ∈ savedGroup.group? 2, areaHolds g 0 1 (savedArea g) ∧ g.width ≤ 64 ∧ g.parks = [] ∧ g.repAt = none ∧ g.repLeft ≠ 0 := by
  unfold areaHolds; decide +kernel

/-- A save beside another group of the team, and a block that lies in one page. -/
def saved2 : State :=
  let s := small (fun g => { g with residency := .saving 0 0 1 }) 0 0
  { s with groups := s.groups ++ s.groups.map (fun g => { g with gid := 3, num := 1, residency := .resident }) }

theorem witness_Residence_blocks :
    (∃ g ∈ saved2.group? 2, ∃ t ∈ saved2.task? g.task, g.clean = true ∧ (∃ k ∈ saved2.groups, k.task = g.task ∧ k.gid ≠ 2 ∧ k.here = true) ∧
      (saved2.saveGroup g t 0 1).isSome = true ∧
      (match saved2.reach g.core t.vi .write false 0x40000 3 with | .ok [(va, n, tr)] => n == 3 && tr.home && pieceOff 0x40000 va == 0 | _ => false) = true ∧
      (saved2.groupPut g t.vi 0x40000 [1, 2, 3]).2 = true) ∧
    (∃ g ∈ (small (fun g => { g with residency := .out 1 1 }) 0 0).group? 2, ∃ t ∈ (small id 0 0).task? g.task, t.teamSaved = false ∧ (small id 0 0).mem.poison = [] ∧
      (match (small id 0 0).readRaw g.core t.vi (g.seg 5).1.toNat (g.offVec + 32 * g.width * 1) with
        | some b => (g.restored 1 b).live != 0 && !(t.lanesGone g.num (fullMask g.width &&& ~~~(g.restored 1 b).live)).barriers.any Barrier.complete
        | none => false) = true) := by decide +kernel

/-- Two virtual interfaces share pair 5 of die 1; the first one's slice of 50 ticks ends now. -/
def sharing : State :=
  { State.reset with
    tick := 60, turns := [⟨1, 5, 3, 10⟩]
    vis := [{ VI.reset 3 with enabled := true, timeShared := true, slice := 50, pairs := [0, 0x20, 0, 0] },
            { VI.reset 8 with enabled := true, timeShared := true, slice := 50, pairs := [0, 0x20, 0, 0] }] }

theorem witness_Residence_slice : 2 ≤ (sharing.sharers 1 5).length ∧ (∃ u ∈ sharing.turn? 1 5, u.since + (sharing.viOf (sharing.running 1 5)).slice ≤ sharing.tick.toNat) := by
  decide +kernel

/-! ### Events of engines, stashes and arrays -/

/-- A command of group 2: 16 bytes from the page's 0x100 to its 0x200. -/
def cmd (op : EngineOp) (cmp : Nat) (f : Cmd → Cmd) : Cmd :=
  f { key := 9, op := op, gid := 2, task := 1, core := 0, opcode := 0, acq := none, rel := none, cmp := cmp, ua := 0x200, ub := 0x100, control := 0x10
      segs := (List.replicate 6 (0, 0x1000000000)), deliveries := [], routeFault := false, refused := 0, done := 0, fetched := 0, parts := [], sub := 0, ended := false, words := [], reached := [], cleared := [] }

/-- A state with that command under way. -/
def commanded (c : Cmd) : State := { paged (.nop .always) with cmds := [c] }

theorem witness_EngineProgress_waiting :
    (∃ g ∈ (inGroup (demo (.nop .always)) (fun g => { g with hold := .engine (cmd .cpy 2 id) 0 })).group? 2, g.hold = .engine (cmd .cpy 2 id) 0 ∧
      (demo (.nop .always)).engineRoom (cmd .cpy 2 id) g = true) ∧
    (∃ g ∈ (inGroup (demo (.nop .always)) (fun g => { g with e := [(2, 63)], hold := .engine (cmd .cpy 2 id) 0 })).group? 2, g.hold = .engine (cmd .cpy 2 id) 0 ∧
      (demo (.nop .always)).engineRoom (cmd .cpy 2 id) g = false) := by decide +kernel

theorem witness_EngineProgress_ends :
    (∃ c ∈ (commanded (cmd .cpy 2 (fun c => { c with done := 16, fetched := 16 }))).cmds.find? (fun d => d.key == 9), ∃ t ∈ (commanded (cmd .cpy 2 id)).task? c.task,
      c.ended = false ∧ c.total ≤ c.fetched ∧ c.parts = [] ∧ c.refusedNow (commanded (cmd .cpy 2 (fun c => { c with done := 16, fetched := 16 }))) = c.refused ∧
      (commanded (cmd .cpy 2 id)).mem.lines = [] ∧ t.uid = 1) ∧
    (∃ c ∈ (commanded (cmd .stflush 2 (fun c => { c with control := 0 }))).cmds.find? (fun d => d.key == 9), c.ended = false ∧ c.op = .stflush ∧ c.total ≤ c.done) ∧
    (∀ sub ∈ [0, 5], ∃ c ∈ (commanded (cmd .cpy 2 (fun c => { c with done := 16, ended := true, sub := sub }))).cmds.find? (fun d => d.key == 9),
      ∃ t ∈ (commanded (cmd .cpy 2 id)).task? c.task, c.ended = true ∧ c.cmp ≠ 6 ∧ c.rel = none ∧ c.words = [] ∧ c.sub = sub ∧ t.uid = 1 ∧
      (∃ g ∈ (commanded (cmd .cpy 2 id)).group? c.gid, g.residency ≠ .ended)) := by decide +kernel

/-- A completion word at the page's first bytes. -/
theorem witness_EngineProgress_word :
    ∃ c ∈ (commanded (cmd .cpy 6 (fun c => { c with done := 16, ended := true }))).cmds.find? (fun d => d.key == 9), c.cmp = 6 ∧ c.cwOk = true ∧
      c.wordWaits (commanded (cmd .cpy 6 (fun c => { c with done := 16, ended := true }))) 0 = false ∧
      (match (commanded (cmd .cpy 6 id)).reach c.core 0 .write true (((c.seg 2).1.toNat + c.cwOff) % 2 ^ 64) 8 with
        | .ok [(va, 8, tr)] => tr.home && pieceOff (((c.seg 2).1.toNat + c.cwOff) % 2 ^ 64) va == 0 | _ => false) = true := by decide +kernel

/-- A piece of a CPY that is read from memory, and one that is written to memory. -/
theorem witness_EngineProgress_piece :
    (∃ c ∈ (commanded (cmd .cpy 2 id)).cmds.find? (fun d => d.key == 9), ∃ t ∈ (commanded (cmd .cpy 2 id)).task? c.task, c.ended = false ∧ c.op = .cpy ∧
      c.deliveries = [] ∧ (t.launch.map Launch.race).getD false = false ∧ (controlOf c.control.toNat).consume = false ∧
      (match c.target (commanded (cmd .cpy 2 id)) 0 with | some b => b.core.isNone | none => false) = true ∧
      (match c.piece (commanded (cmd .cpy 2 id)) with
        | some p => (match p.srcs with
          | [(a, ao)] => p.dsts == [0] && a.core.isNone && decide (ao + p.len ≤ a.lim) &&
            (match (commanded c).reach c.core t.vi .read false ((a.base + ao) % 2 ^ 64) p.len with
              | .ok [(_, m, ra)] => m == p.len && ra.home && ((commanded c).mem.poisonIn ra.pa p.len).isNone
              | _ => false)
          | _ => false)
        | none => false) = true) ∧
    (∃ c ∈ (commanded (cmd .cpy 2 (fun c => { c with fetched := 2, parts := [(0, 0, [1, 2])] }))).cmds.find? (fun d => d.key == 9), c.ended = false ∧ c.op = .cpy ∧ c.deliveries = [] ∧
      (match c.parts.find? (fun q => q.1 == 0), c.target (commanded c) 0 with
        | some (_, p, bs), some b => b.core.isNone && decide (c.ua + p + bs.length ≤ b.lim) &&
          (match (commanded c).reach c.core 0 .write false ((b.base + (c.ua + p)) % 2 ^ 64) bs.length with
            | .ok [(vb, m, rb)] => m == bs.length && rb.home && !(commanded c).lensWaits c.task rb.pa bs.length && pieceOff ((b.base + (c.ua + p)) % 2 ^ 64) vb == 0
            | _ => false)
        | _, _ => false) = true) := by decide +kernel

/-- A stash line that is being filled from the page's 0x80, and from an address that has no page. -/
def filling (va : Nat) : State :=
  let s := paged (.nop .always)
  { s with mem := { s.mem with lines := [⟨3, 2047, some va, 0, 0, false, false, 0, true, [], false⟩] } }

/-- Where no group has anything outstanding and no store is held, nothing is deferred. -/
theorem noneDeferred {s : State} (h : s.mem.held = []) (hg : ∀ g ∈ s.groups, g.outs = []) (c : Nat) : s.deferred c = [] := by
  unfold State.deferred
  rw [List.flatMap_eq_nil_iff.mpr (fun g m => by rw [hg g (List.mem_filter.mp m).1]; rfl), h]
  rfl

theorem witness_StashFills :
    (∃ l ∈ (filling 0x80).mem.line? 3 2047, l.filling = true ∧ l.mapped = some 0x80 ∧ l.writers = [] ∧ l.core = 3 ∧ l.line = 2047 ∧
      (match (filling 0x80).reach 3 l.vi .read false 0x80 128 with | .ok [(_, n, t)] => n == 128 && t.home | _ => false) = true ∧ (filling 0x80).deferred 3 = [] ∧ (filling 0x80).lensPending 3 2047 = false) ∧
    (∃ l ∈ (filling 0x4000000).mem.line? 3 2047, l.filling = true ∧ l.mapped = some 0x4000000 ∧ l.writers = [] ∧ l.present = false ∧
      l.core = 3 ∧ l.line = 2047 ∧
      (match (filling 0x4000000).reach 3 l.vi .read false 0x4000000 128 with | .ok _ => false | .error _ => true) = true ∧
      ∀ g ∈ (filling 0x4000000).groups, g.hold = .none) ∧ (∀ c, (filling 0x4000000).deferred c = []) := by
  refine ⟨by decide +kernel, by decide +kernel, noneDeferred (by decide +kernel) (by decide +kernel)⟩

/-- An entry of core 0's array. -/
def entry (kind : ArrKind) (stage : ArrStage) (toRead : List (Nat × Nat)) : ArrEntry :=
  ⟨9, 2, 1, kind, stage, [0], 0, false, 0x01000000, 0x01004000, 3, 3, [(0, 0)], [], toRead, [], 0⟩

theorem witness_MatrixProgress_room :
    (∃ g ∈ (inGroup (demo (.nop .always)) (fun g => { g with hold := .array (entry .mma .room []) })).group? 2, g.hold = .array (entry .mma .room []) ∧
      (demo (.nop .always)).arrayRoom (entry .mma .room []) = true ∧ (demo (.nop .always)).slaved 0 = false ∧ (fullArray (demo (.nop .always))).arrayRoom (entry .mma .room []) = false) := by decide +kernel

/-- A request for a token of 2 amperes, with exactly the credit for it, and with a little less. -/
theorem witness_MatrixProgress_token : ∀ credit ∈ [(200, true), (199, false)],
    ∃ e ∈ ({ demo (.nop .always) with arrays := [entry .mma .token []], dies := [{ Die.reset 0 with credit := credit.1 }] } : State).nextToken 0,
    ∃ d ∈ ([{ Die.reset 0 with credit := credit.1 }] : List Die).find? (fun x => x.num == 0), (decide (200 * e.cores.length ≤ d.credit) = credit.2) ∧ (demo (.nop .always)).mem.reds = [] := by decide +kernel

/-- A request whose core has become slaved to its pair. -/
theorem witness_MatrixProgress_slaved :
    ({ demo (.nop .always) with
       arrays := [{ entry .mma .accepted [] with cores := [0, 1] }, { entry .mma .token [] with key := 10, cores := [1] }] } : State).slaved 1 = true := by decide +kernel

theorem witness_MatrixProgress_lens :
    ∃ e ∈ ({ demo (.nop .always) with arrays := [entry .mma .accepted [(0, 2047)]] } : State).arrays.find? (fun x => x.key == 9), e.stage = .accepted ∧
      e.toRead.contains (0, 2047) = true ∧ ({ demo (.nop .always) with arrays := [entry .mma .accepted [(0, 2047)]] } : State).writeBefore e 0 2047 = false ∧
      ({ demo (.nop .always) with arrays := [entry .mma .accepted [(0, 2047)]] } : State).deferred 0 = [] ∧
      (demo (.nop .always)).mem.line? 0 2047 = none ∧ (demo (.nop .always)).mem.stashPoisonIn 0 (128 * 2047) 128 = none := by decide +kernel

/-- Entries of each kind that take effect: the first in order, with nothing left to read. -/
theorem witness_MatrixProgress_retire : ∀ kind ∈ [ArrKind.mma, .mzero, .accwr false 63 0 [(0, 63, 0x3F800000)], .accwr true 0 0 [(0, 0, 7)], .mstat true 5, .accrd 1 0 0 1 254 1, .accrd 0 63 0 1 255 1],
    ∃ e ∈ ({ demo (.nop .always) with arrays := [entry kind .accepted []] } : State).arrays.find? (fun x => x.key == 9), ∃ t ∈ (demo (.nop .always)).task? e.task,
      e.stage = .accepted ∧ e.toRead = [] ∧ e.abort = 0 ∧ ({ demo (.nop .always) with arrays := [entry kind .accepted []] } : State).firstInOrder e = true ∧
      (∃ g ∈ (demo (.nop .always)).group? e.gid, g.task = t.uid) := by decide +kernel

/-! ### Tasks, grids and submissions -/

/-- A launch record at 0x400: 1,025 teams of one group of 16 lanes with the footprint of the strided copy (spec/14), 0xC8 bytes of code. -/
def launchBytes : List (Nat × Byte) :=
  [(0x2000404, 0x01), (0x2000405, 0x04), (0x2000406, 1), (0x2000408, 1), (0x200040A, 1), (0x200040C, 0x42), (0x2000468, 0xC8)]

/-- An interface with pair 0 of die 0, that launch record, and nothing running. -/
def idle : State :=
  let s := withPage State.reset
  { s with vis := s.vis.map (fun v => { v with pairs := [1, 0, 0, 0] }), mem := { s.mem with bytes := s.mem.bytes ++ launchBytes } }

/-- A grid whose launch record is at 0x400, or at an address that has none. -/
def gridAt (ptr : DWord) : Grid :=
  { gridId := 7, vi := 0, page := 3, tag := 5, wanted := true, interrupt := none, launchPtr := ptr, launch := none, single := false, privileged := false, seqNo := 1
    entry := none, dealt := false, ranges := [], status := 0, notDone := 0, lost := 0, refused := 0, page1 := 0, ended := false, excluded := [], routesWritten := false, relocs := [], reroute := false, reissued := false }

theorem witness_TasksAndGrids_deal :
    (∃ g ∈ ({ idle with grids := [gridAt 0x400] } : State).grid? 7, g.dealt = false ∧ g.ended = false ∧
      (∃ l ∈ idle.readLaunch g.vi g.launchPtr.toNat, l.service = false ∧ l.teams = 1025 ∧ (∃ rs ∈ idle.dealtRanges g.vi l, rs.1.length = 2))) ∧
    (idle.readLaunch 0 0x401).bind (idle.dealtRanges 0) = none ∧ (idle.readLaunch 0 0x4000000).bind (idle.dealtRanges 0) = none := by decide +kernel

/-- The grid with its ranges dealt: the last team of the second range is the next. -/
def dealtGrid : Grid :=
  { gridAt 0x400 with dealt := true, launch := some { fetchLaunch with gx := 1025, shape := 1 }, ranges := [⟨0, 1024, 1024, 0, 0⟩, ⟨1024, 1, 1024, 0, 0⟩] }

theorem witness_TasksAndGrids_expand : ∃ g ∈ ({ idle with grids := [dealtGrid] } : State).grid? 7, ∃ r ∈ g.ranges[1]?, ∃ l ∈ g.launch, g.mayExpand 1 = true ∧
    r.next = 1024 ∧ l.teams = 1025 := by decide +kernel

theorem witness_TasksAndGrids_routes :
    ∃ g ∈ ({ idle with grids := [{ dealtGrid with launch := some { fetchLaunch with routePtr := 0x800 } }] } : State).grid? 7, ∃ l ∈ g.launch, g.ended = false ∧
      ({ idle with grids := [{ dealtGrid with launch := some { fetchLaunch with routePtr := 0x800 } }] } : State).gridQuiet 7 = true ∧ l.routed = true ∧ g.routesWritten = false ∧
      ({ idle with grids := [{ dealtGrid with launch := some { fetchLaunch with routePtr := 0x800 } }] } : State).routes g.vi l g.relocs = some ([], []) := by decide +kernel

/-- A record of kind 1 whose launch record is at an address, with keys. -/
def record (launch : DWord) (keys : List Nat) (foot : BitVec 32) : Task :=
  newTask 1 0 7 false false 0 1 { code := 8, shape := 1, depth := 1, priority := 0, continuation := false, wanted := false, footprint := foot, x := 0, y := 0, z := 0
                                  keys := keys, frame := 0, join := 0, launch := launch } none false false 0

/-- Records that wait alone on die 0: one whose launch record has none of its own, one that may run, one whose key is held, and one that no core can hold. -/
def recorded (t : Task) (keys : List KeyEntry) : State :=
  let s := { idle with tasks := [t], keys := keys }
  { s with vis := s.vis.map (fun v => { v with keyShare := if t.keys = [] then 0 else 16 }) }

/-- A state in which a record has read its launch record, if there is one at its launch pointer. -/
def read (s : State) (t : Task) : State × Task :=
  let l := s.readLaunch t.vi t.cont.launch.toNat
  (s.modTask t.uid (fun k => { k with launch := l }), { t with launch := l })

theorem witness_TasksAndGrids_dispatch :
    ((recorded (record 0x401 [] 0x42) []).waiting 0 = [record 0x401 [] 0x42] ∧ (recorded (record 0x401 [] 0x42) []).fenced 0 = false ∧
      (record 0x401 [] 0x42).launch = none ∧ (recorded (record 0x401 [] 0x42) []).task? 1 = some (record 0x401 [] 0x42) ∧
      (let e := read (recorded (record 0x401 [] 0x42) []) (record 0x401 [] 0x42); e.1.refusal e.2 e.2.launch) = some 3) ∧
    ((recorded (record 0 [] 0x42) []).waiting 0 = [record 0 [] 0x42] ∧
      (let e := read (recorded (record 0 [] 0x42) []) (record 0 [] 0x42); e.1.refusal e.2 e.2.launch) = some 3) ∧
    ((recorded (record 0x400 [] 0x42) []).waiting 0 = [record 0x400 [] 0x42] ∧ (record 0x400 [] 0x42).team = false ∧
      (let e := read (recorded (record 0x400 [] 0x42) []) (record 0x400 [] 0x42)
       ∃ l ∈ e.2.launch, e.1.refusal e.2 (some l) = none ∧ e.2.keys.all (e.1.keyOk e.2) = true ∧ e.1.imageWaits 0 l = false ∧ (e.1.findPlace e.2).isSome = true)) := by decide +kernel

/-- The key's entry on its home die, held by another task. -/
def heldKey (s : State) (k : Nat) : List KeyEntry :=
  match s.keyHome 0 k with
  | some h => [⟨0, h.1, h.2, k, some 99, []⟩]
  | none => []

theorem witness_TasksAndGrids_held :
    (recorded (record 0x400 [5] 0x42) (heldKey (recorded (record 0x400 [5] 0x42) []) 5)).waiting 0 = [record 0x400 [5] 0x42] ∧
    (let e := read (recorded (record 0x400 [5] 0x42) (heldKey (recorded (record 0x400 [5] 0x42) []) 5)) (record 0x400 [5] 0x42)
     e.2.keys.all (e.1.keyOk e.2) = false ∧ (∃ l ∈ e.2.launch, e.1.refusal e.2 (some l) = none)) := by decide +kernel

theorem witness_TasksAndGrids_full :
    let s := { recorded (record 0x400 [] 0x42) [] with fabric := { Fabric.reset with retiredCores := [0, 1] } }
    let e := read s (record 0x400 [] 0x42)
    s.waiting 0 = [record 0x400 [] 0x42] ∧ (∃ l ∈ e.2.launch, e.1.refusal e.2 (some l) = none) ∧ e.1.findPlace e.2 = none := by decide +kernel

/-- A gang of 8 teams of a routed grid, alone in the partition's cluster 0 of die 0. -/
def gangLaunch : Launch := { fetchLaunch with gx := 8, gy := 1, gz := 1, routePtr := 0x800 }
def gangTask (j : Nat) : Task := { record 0x400 [] 0x42 with uid := 100 + j, grid := 7, team := true, linear := j, launch := some gangLaunch }
def ganged (pairs : DWord) : State :=
  { idle with
    tasks := (List.range 8).map gangTask
    grids := [{ gridAt 0x400 with dealt := true, launch := some gangLaunch, routesWritten := true, ranges := [⟨0, 8, 8, 0, 1⟩] }]
    vis := idle.vis.map (fun v => { v with pairs := [pairs, 0, 0, 0] }) }

theorem witness_TasksAndGrids_gang :
    gangLaunch.routed = true ∧ gangLaunch.service = false ∧ gangLaunch.teams = 8 ∧ gangSize gangLaunch.paired = 8 ∧
    (∃ g ∈ (ganged 0xC3).grid? 7, (ganged 0xC3).rewriteDue g = false ∧ g.routesWritten = true ∧
      ((List.range 12).filter (fun cl => !g.excluded.contains cl && ((ganged 0xC3).clustersOf 0 gangLaunch 0).contains cl)) = [0]) ∧
    (((ganged 0xC3).gangOf 7 0 8).map Task.uid = [100, 101, 102, 103, 104, 105, 106, 107]) ∧ (ganged 0xC3).imageWaits 0 gangLaunch = false ∧
    (((ganged 0xC3).gangOf 7 0 8).mapM (fun k => ((ganged 0xC3).fitUnit { k with linear := 0 } (gangCores 0 0 gangLaunch.paired (k.linear % 8))).map (fun e => (k.uid, e)))).isSome = true ∧
    (ganged 0x83).clustersOf 0 gangLaunch 0 = [] := by decide +kernel

/-- A placed task with a group that has ended, one with a running group, and a queued one. -/
theorem witness_TasksAndGrids_end :
    (∃ t ∈ (inGroup (demo (.nop .always)) (fun g => { g with residency := .ended })).task? 1, t.ended = false ∧ t.endSteps = 0 ∧ t.state = .placed ∧
      (inGroup (demo (.nop .always)) (fun g => { g with residency := .ended })).taskDone t = true) ∧
    (∃ t ∈ (demo (.nop .always)).task? 1, t.ended = false ∧ t.endSteps = 0 ∧ t.state = .placed ∧ (demo (.nop .always)).taskDone t = false) ∧
    (∃ t ∈ (recorded (record 0x400 [] 0x42) []).task? 1, t.ended = false ∧ t.endSteps = 0 ∧ t.state = .queued) := by decide +kernel

/-! ### Interfaces, keys and places -/

/-- A placed task, and a record of a single grid that waits. -/
def living : State :=
  { idle with
    tasks := [{ record 0x400 [] 0x42 with grid := 8, state := .placed }, { record 0x400 [] 0x42 with uid := 2 }]
    grids := [{ gridAt 0x400 with single := true }] }

theorem witness_InterfaceStates :
    (living.tasks.map Task.uid).Nodup ∧ (∃ t ∈ living.tasks, t.vi = 0 ∧ t.state = .placed) ∧ (living.grids.map Grid.gridId).Nodup ∧
    (∃ g ∈ living.grids, g.single = true ∧ ∃ t ∈ living.tasks, t.grid = g.gridId ∧ t.vi = 0 ∧ t.ended = false ∧ t.state = .queued ∧ t.spawned = false) ∧
    (idle.viOf 63).enabled = false ∧ (idle.viOf 0).enabled = true := by decide +kernel

/-- The record asks for key 5, and its entry holds what is given; record 2, which is older, is there too. -/
def keyed (holder : Option Nat) (reserved : List (Nat × Nat)) : State :=
  let t := record 0x400 [5] 0x42
  let s := recorded t []
  { s with
    tasks := [t, { t with uid := 2, seqNo := 0 }]
    keys := match s.keyHome 0 5 with | some h => [⟨0, h.1, h.2, 5, holder, reserved⟩] | none => [] }

/-- A key has a home; the last entry's neighbour is none; an entry held, reserved by an older record, reserved for another key, and free. -/
theorem witness_Placement_keys :
    ((keyed none []).viOf 0).keyShare ≠ 0 ∧ (keyed none []).liveDies ≠ [] ∧ ((keyed none []).keyHome 0 5).isSome = true ∧
    (∃ k < 16, 4095 + k * 0x9E3779B1 % 2 ^ 32 % 2 ^ 30 % 16 ≥ 4096) ∧
    (∃ e ∈ (keyed (some 99) []).keys, (keyed (some 99) []).keyHome 0 5 = some (e.die, e.index) ∧ e.holder ≠ none) ∧
    (∃ e ∈ (keyed none [(2, 5)]).keys, ∃ r ∈ e.reserved, ∃ u ∈ (keyed none [(2, 5)]).task? r.1, ∃ t ∈ (keyed none [(2, 5)]).task? 1, u.older t = true) ∧
    (∃ e ∈ (keyed none [(2, 6)]).keys, ∃ r ∈ e.reserved, ∃ u ∈ (keyed none [(2, 6)]).task? r.1, r.2 ≠ 5 ∧ u.uid ≠ 1) ∧
    (∀ e ∈ (keyed none [(1, 5)]).keys, e.holder = none ∧ ∀ r ∈ e.reserved, r.1 = 1) := by decide +kernel

/-- The die of a record's hash is eligible, or another one is next, or none is. -/
theorem witness_Placement_dies :
    let d := fun (x : Nat) => x * 0x9E3779B1 % 2 ^ 32 % 768 / 192
    d 0 ∈ idle.eligible 0 false ∧ (∃ x < 8, d x ∉ idle.eligible 0 false ∧ ∃ j < 4, (d x + j) % 4 ∈ idle.eligible 0 false ∧ ∀ i < j, (d x + i) % 4 ∉ idle.eligible 0 false) ∧
    State.reset.eligible 3 false = [] := by decide +kernel

/-- A record that has a place, one whose footprint no core of its interface has, and a service team. -/
theorem witness_Placement_places :
    (∃ l, idle.readLaunch 0 0x400 = some l ∧ (idle.findPlace { record 0x400 [] 0x42 with launch := some l }).isSome = true ∧
      (∃ u ∈ searchOrder 0 0 false, (idle.fitUnit { record 0x400 [] 0x42 with launch := some l } u).isSome = true) ∧
      (record 0x400 [] 0x42).need.holdable = true ∧ (∃ u ∈ searchOrder 0 0 false, u.all (idle.coreOk 0) = true)) ∧
    (∀ w ∈ searchOrder 0 0 false, w.all (State.reset.coreOk 3) = false) ∧
    (let t : Task := { record 0x400 [] 0x220 with service := true, die := 4 }
     let s : State := { idle with vis := idle.vis.map (fun v => { v with partition := 1 }), host := { HostSide.reset with window := [(0x1C01, 0x8000001)] } }
     s.partitionCores (s.viOf 0).partition = [384, 411] ∧ (s.findPlace t).isSome = true ∧ ∀ c ∈ s.partitionCores (s.viOf 0).partition, s.coreKept t c = false) := by
  refine ⟨?_, by decide +kernel, by decide +kernel⟩
  have h : ∃ l ∈ idle.readLaunch 0 0x400, (idle.findPlace { record 0x400 [] 0x42 with launch := some l }).isSome = true ∧
      (∃ u ∈ searchOrder 0 0 false, (idle.fitUnit { record 0x400 [] 0x42 with launch := some l } u).isSome = true) ∧
      (record 0x400 [] 0x42).need.holdable = true ∧ (∃ u ∈ searchOrder 0 0 false, u.all (idle.coreOk 0) = true) := by decide +kernel
  obtain ⟨l, hl, h⟩ := h
  exact ⟨l, hl, h⟩

/-- A page that takes submissions, with its queue. -/
def submitTo : State := let s := withQueue idle; { s with host := { s.host with stage := 3 } }

/-- The same, with a submission that has waited since tick 0. -/
def waitingSub (r : List Byte) (tick : DWord) : State :=
  { submitTo with tick := tick, host := { submitTo.host with restarting := true, waiting := [⟨0, 3, r, 0⟩] } }

/-- How a submission of a record ends. -/
def submitKind (s : State) (r : List Byte) : Nat :=
  match s.submit ⟨0, 3, 0x20000, 0x30000, 4, false, true, 0, 0⟩ r with
  | .accepted _ => 0 | .retry => 1 | .refused => 2 | .malformed => 3

theorem witness_Submissions :
    (∃ p ∈ submitTo.page? 0 3, p.enabled = true ∧ (submitTo.viOf 0).enabled = true ∧ submitTo.host.stage = 3 ∧ submitTo.host.power ≠ .idle ∧ submitTo.slotFree p = true ∧
      (match submitTo.ranged schedulingCore 0 .write false p.slotAddr 32 with | .ok [(va, 32, tr)] => tr.home && pieceOff p.slotAddr va == 0 | _ => false) = true) ∧
    submitKind submitTo (List.replicate 128 0) = 0 ∧ submitKind submitTo (15 :: List.replicate 127 0) = 2 ∧
    submitKind submitTo ([0, 0, 0, 0, 1, 1, 0, 0] ++ List.replicate 8 0 ++ [0, 0, 0, 4] ++ List.replicate 108 0) = 3 ∧
    ({ submitTo with host := { submitTo.host with restarting := true } } : State).host.restarting = true ∧
    submitKind { submitTo with host := { submitTo.host with restarting := true } } (List.replicate 128 0) = 1 ∧ submitTo.host.restarting = false ∧
    (submitTo.page? 0 4 = none ∧ ∃ p ∈ ({ submitTo with pages := submitTo.pages.map (fun p => { p with enabled := false }) } : State).page? 0 3, p.enabled = false) ∧
    ((takeSub 0 3 [] submitTo.host.waiting).isNone = true ∧
      (takeSub 0 3 (List.replicate 128 0) (waitingSub (List.replicate 128 0) 200).host.waiting).isSome = true ∧
      submitKind (waitingSub (List.replicate 128 0) 200) (List.replicate 128 0) = 1 ∧ 0 + 200 ≤ (waitingSub [] 200).tick.toNat ∧ (waitingSub [] 199).tick.toNat < 0 + 200) ∧
    (∃ p ∈ ({ submitTo with vis := [] } : State).page? 0 3, p.enabled = true ∧ (({ submitTo with vis := [] } : State).viOf 0).enabled = false) ∧
    (∃ g ∈ (inGroup (demo (.nop .always)) (fun g => { g with hold := .submit 7 })).group? 2, g.hold = .submit 7) := by decide +kernel

/-- A completion record that is due, and a page whose next slot is still in use. -/
theorem witness_Submissions_slot :
    (∃ d ∈ ([⟨0, 3, 5, 1, 0, 0, 0, 0, none, .none⟩] : List Due).find? (fun d => d.vi == 0 && d.page == 3), d.status = 1) ∧
    (∃ p ∈ submitTo.page? 0 3, ({ submitTo with mem := { submitTo.mem with bytes := submitTo.mem.bytes ++ [(0x203001F, 0x80)] } } : State).slotFree p = false) := by decide +kernel

/-! ### Events of the memory system -/

/-- Memory with the word 0x100 registered to core 3's L1, and what else is waiting. -/
def owned (f : Mem → Mem) : State :=
  { State.reset with mem := f { Mem.reset with regs := [⟨0x100, l1Of 3, 0xF, none, false, 0xAABBCCDD, []⟩] } }

theorem witness_Registry :
    ((owned id).wordOk (wordOf 0x103) = true ∧ (owned id).revoke? (wordOf 0x103) = none ∧ (∃ r ∈ (owned id).mem.reg? (wordOf 0x103), r.owner = l1Of 3 ∧ r.owner ≠ l1Of 4)) ∧
    (∃ v ∈ (owned (fun m => { m with revokes := [⟨0x100, l1Of 3, 0, none⟩] })).revoke? (wordOf 0x100), v.req = none ∧
      (owned (fun m => { m with revokes := [⟨0x100, l1Of 3, 0, none⟩] })).stillHeld v = true) ∧
    (∃ v ∈ (owned (fun m => { m with revokes := [⟨0x100, l1Of 9, 0, some (l1Of 4, 0x3, 7)⟩] })).revoke? (wordOf 0x100), v.req = some (l1Of 4, 0x3, 7) ∧
      (owned (fun m => { m with revokes := [⟨0x100, l1Of 9, 0, some (l1Of 4, 0x3, 7)⟩] })).stillHeld v = false) ∧
    (let s := owned (fun m => { m with copies := [⟨4, 0x100, 0, 0x100, 0, 1⟩, ⟨4, 0x104, 0, 0x104, 0, 2⟩] })
     (∃ x ∈ s.mem.copies, x.core = 4 ∧ x.pa = 0x100) ∧ (∀ y ∈ s.mem.copies, y.pa = 0x104 → y.value ≠ s.mem.word 0x104)) ∧
    (∀ r ∈ (owned id).mem.regs, (owned id).homeLost r.pa = false) ∧
    ({ owned id with dies := [{ Die.reset 0 with fenced := true }] } : State).homeLost 0x100 = true ∧
    agentCore (l1Of 4) = some 4 ∧ Memory.wf (owned id).mem = true ∧ ((owned id).mem.regs.map Reg.pa).Nodup := by decide +kernel

/-- Both ring links of die 2 are dead, and it is not fenced yet: words of die 0's that its agents own, and their messages, are cut off. -/
def ringCut (v : List Revoke) : State :=
  { owned (fun m => { m with regs := [⟨0x100, l1Of 200, 0xF, none, false, 1, []⟩], revokes := v }) with
    fabric := { Fabric.reset with deadLinks := [(1, 2), (2, 3)] } }

theorem witness_Registry_cut :
    (ringCut []).path (agentDie (l1Of 200)) (homeDie 0x100) = false ∧ (ringCut []).wordOk (wordOf 0x100) = true ∧ (ringCut []).revoke? (wordOf 0x100) = none ∧
    (∃ v ∈ (ringCut [⟨0x100, l1Of 200, 0, none⟩]).revoke? (wordOf 0x100), (ringCut [⟨0x100, l1Of 200, 0, none⟩]).path (agentDie v.owner) (homeDie (wordOf 0x100)) = false) ∧
    (ringCut []).ownerPath (wordOf 0x100) = false ∧ (ringCut []).homeLost (wordOf 0x100) = false ∧ (owned id).ownerPath 0x100 = true ∧
    (owned id).path (agentDie (l1Of 4)) (homeDie 0x100) = true ∧ (owned id).path (agentDie (l1Of 3)) (agentDie (l1Of 4)) = true ∧
    (∀ r ∈ (owned id).mem.regs, (owned id).ownerPath r.pa = true) := by decide +kernel

/-- A write to die 2's replica that no path takes there. -/
theorem witness_PostedWrites_cut :
    let s := { ringCut [] with groups := (demo (.nop .always)).groups, mem := { (ringCut []).mem with repls := [⟨4, 4, 2, l1Of 3, 2 ^ 38 + 0x200, 0x200, false, [1, 2]⟩] } }
    (∃ r ∈ s.mem.repls.find? (fun q => q.key == 4), s.path (agentDie r.agent) (homeDie r.pa) = false ∧ (s.group? r.gid).isSome = true ∧ r.counted = false) := by decide +kernel

/-- Two REDs of a group to one word: the second waits for the first. -/
def twoReds : State := owned (fun m => { m with reds := [⟨4, 2, 0, 0, l1Of 3, 0x200, 0x200, .add32, 1⟩, ⟨5, 2, 0, 1, l1Of 3, 0x200, 0x200, .add32, 2⟩] })

theorem witness_PostedWrites_reds :
    (∃ r ∈ twoReds.mem.reds.find? (fun q => q.key == 5), (twoReds.mem.reds.map PostedRed.key).Nodup ∧
      twoReds.mem.reds.any (fun q => q.key < 5 && q.gid == r.gid && overlap q.pa q.op.bytes r.pa r.op.bytes) = true) ∧
    (∃ r ∈ twoReds.mem.reds.find? (fun q => q.key == 4), r.pa % r.op.bytes = 0 ∧ r.op.bytes = 4 ∧ r.opnd.toNat < 2 ^ 32 ∧
      twoReds.outOfReach (agentDie r.agent) r.pa r.op.bytes = false ∧ twoReds.mem.reds.any (fun q => q.key < 4 && q.gid == r.gid && overlap q.pa q.op.bytes r.pa r.op.bytes) = false) := by decide +kernel

/-- Writes to replicas: the second, of another word but of the same core, waits for the first; a store posted to another chip. -/
def twoRepls : State := owned (fun m => { m with repls := [⟨4, 4, 2, l1Of 3, 0x200, 0x200, false, [1, 2, 3, 4]⟩, ⟨5, 5, 2, l1Of 3, 0x300, 0x300, false, [9]⟩], posted := [⟨6, 2, 0, 0, 2 ^ 54, [1]⟩] })

theorem witness_PostedWrites_repls :
    (∃ r ∈ twoRepls.mem.repls.find? (fun q => q.key == 5), (twoRepls.mem.repls.map ReplWrite.key).Nodup ∧
      twoRepls.mem.repls.any (fun q => q.key < 5 && ((agentCore q.agent == agentCore r.agent && q.pa / 2 ^ 37 == r.pa / 2 ^ 37)
        || overlap q.pa q.bytes.length r.pa r.bytes.length)) = true) ∧
    (∃ r ∈ twoRepls.mem.repls.find? (fun q => q.key == 4), r.bytes.length = 4 ∧
      twoRepls.mem.repls.any (fun q => q.key < 4 && ((agentCore q.agent == agentCore r.agent && q.pa / 2 ^ 37 == r.pa / 2 ^ 37)
        || overlap q.pa q.bytes.length r.pa r.bytes.length)) = false) ∧
    (∃ p ∈ ({ twoRepls with groups := (demo (.nop .always)).groups } : State).mem.posted.find? (fun q => q.key == 6), ∃ g ∈ (demo (.nop .always)).group? p.gid,
      g.delOther.lost + g.delOther.refused = 0) := by decide +kernel

theorem witness_PostedWrites_walks :
    (match walk idle 0 0x1FFF with | .ok t => t.perms &&& accNeeds .rmw == accNeeds .rmw && !t.remote | .error _ => false) = true ∧ chipOf 0x1FFF = idle.fabric.chip.toNat ∧
    idle.mem.tlb = [] ∧ (match walk idle 0 0x2000000 with | .ok _ => false | .error _ => true) = true := by decide +kernel

/-- The page moves to the frames at 2^26 of die 1. -/
theorem witness_PostedWrites_move :
    let s := { idle with mem := { idle.mem with owners := idle.mem.owners ++ (List.range 64).map (fun k => (2 ^ 24 + 8192 + k, 1)) } }
    (match walk s 0 0x10 with | .ok t => !t.repl && t.size == 2 ^ 19 && alignDown t.pa (2 ^ 19) == 2 ^ 25 | .error _ => false) = true ∧
    (∃ e ∈ leafFrom s 0x10 walkLevels (s.viOf 0).ptroot, e.2 = 2 ^ 19) ∧ (2 ^ 37 + 8192 * 8192) % 2 ^ 19 = 0 ∧ paOk (2 ^ 37 + 8192 * 8192) = true ∧
    paOk (2 ^ 37 + 8192 * 8192 + 2 ^ 19 - 1) = true ∧ s.fenced 1 = false ∧ s.fenced 0 = false ∧ s.path 0 1 = true ∧ s.cutOwner (2 ^ 25) (2 ^ 19) = false ∧ s.cutOwner (2 ^ 37 + 8192 * 8192) (2 ^ 19) = false ∧
    s.ownsNew 0 (2 ^ 37 + 8192 * 8192) (2 ^ 19) false = true ∧ s.cmds = [] ∧
    Memory.wf s.mem = true ∧ s.mem.reds = [] := by decide +kernel

/-- A booted package in which a word of frame 1 of die 0 is registered; the frame is virtual interface 0's. -/
def framed1 : State :=
  { owned (fun m => { m with regs := [⟨0x2000, l1Of 3, 0xF, none, false, 7, []⟩], owners := [(1, 1)] }) with host := { HostSide.reset with stage := 3 } }

theorem witness_PostedWrites_owner : 8192 * (Config.dieBytes / 8192 - 1) < Config.dieBytes ∧ framed1.booted = true ∧ framed1.ownerOf 0x2000 = 1 ∧
    Memory.wf framed1.mem = true ∧ framed1.mem.reds = [] ∧ framed1.mem.repls = [] ∧ framed1.mem.revokes = [] := by decide +kernel

/-! ### Errors, the host's side, and the life of the package -/

/-- Die 2's link to the IOD is dead: it is to be fenced; it holds words homed on die 0. -/
def cutOff : State :=
  { owned (fun m => { m with regs := [⟨0x100, l1Of 200, 0xF, none, false, 1, []⟩] }) with
    dies := [Die.reset 0, Die.reset 1, { Die.reset 2 with iodLink := false }, Die.reset 3] }

/-- A die to be fenced with a placed task, one whose launch sets noreissue, a team, and a queued record; and a grid with an open range there. -/
def fencing : State :=
  let p (uid : Nat) (f : Task → Task) : Task := f { record 0x400 [] 0x42 with uid := uid, die := 2, state := .placed, launch := some fetchLaunch }
  { cutOff with
    tasks := [p 1 id, p 2 (fun t => { t with launch := some { fetchLaunch with flags := 1 } }), p 3 (fun t => { t with team := true, grid := 7 }),
      p 4 (fun t => { t with state := .queued, launch := none })]
    grids := [{ gridAt 0x400 with dealt := true, launch := some fetchLaunch, ranges := [⟨0, 1, 1, 2, 1⟩] }] }

theorem witness_ErrorsAndFences_tasks :
    fencing.fenceDue 2 = true ∧ (fencing.tasks.map Task.uid).Nodup ∧ (fencing.grids.map Grid.gridId).Nodup ∧
    (∀ t ∈ fencing.tasks, t.die = 2 ∧ t.ended = false ∧ t.endSteps = 0) ∧
    (∃ g ∈ fencing.grids, g.ended = false ∧ g.launch = some fetchLaunch ∧ (∃ r ∈ g.ranges, r.die = 2 ∧ r.stage ≠ 2)) := by decide +kernel

/-- A write of die 0's that waits for an owner on die 2, which is to be fenced. -/
def awaited : State := { cutOff with mem := { cutOff.mem with revokes := [⟨0x100, l1Of 200, 0, some (l1Of 4, 0x3, 7)⟩] } }

theorem witness_ErrorsAndFences_revokes : awaited.fenceDue 2 = true ∧ awaited.tasks = [] ∧ awaited.grids = [] ∧ agentDie (l1Of 200) = 2 ∧ 0x100 / 2 ^ 37 ≠ 2 ∧
    agentDie (l1Of 4) ≠ 2 := by decide +kernel

/-- A stash line of core 0 whose home die 1 is fenced, a group that stores to it, and a RED of it to that die. -/
def lostHome : State :=
  { demo (.nop .always) with
    dies := [Die.reset 0, { Die.reset 1 with fenced := true }, Die.reset 2, Die.reset 3]
    mem := { Mem.reset with
      lines := [⟨0, 5, some 0x4000, 0, 2 ^ 37 + 0x100, false, true, 0, false, [], false⟩]
      reds := [⟨9, 2, 0, 0, l1Of 0, 2 ^ 37 + 0x200, 0x5000, .add32, 1⟩] } }

theorem witness_ErrorsAndFences_lost :
    (∃ l ∈ lostHome.mem.line? 0 5, l.mapped = some 0x4000 ∧ (128 * 5 + 124 + 4 - 1) / 128 = (128 * 5 + 124) / 128 ∧ l.pa < 2 ^ 39 ∧ lostHome.fenced (l.pa / 2 ^ 37) = true) ∧
    lostHome.stashLost 0 (128 * 5 + 124) 4 = some (0x4000 + 124, 2 ^ 37 + 0x100 + 124) ∧ (lostHome.group? 2).isSome = true ∧
    (∃ r ∈ lostHome.mem.reds.find? (fun q => q.key == 9), lostHome.outOfReach (agentDie r.agent) r.pa r.op.bytes = true ∧ r.gid = 2) := by decide +kernel

/-- An update of die 2's replica that is on its way when the die is fenced; and a group with a posted store, whose task is killed. -/
theorem witness_ErrorsAndFences_updates :
    let s := { demo (.nop .always) with
      dies := cutOff.dies, mem := { Mem.reset with repls := [⟨4, 4, 2, l1Of 3, 2 ^ 38 + 0x200, 0x4200, false, [1, 2]⟩] } }
    (s.fenceDue 2 = true ∧ (∀ t ∈ s.tasks, t.die ≠ 2) ∧ s.grids = [] ∧ s.mem.revokes = [] ∧ (∃ q ∈ s.mem.repls, s.mem.repls = [q] ∧ q.counted = false ∧
      q.pa / 2 ^ 37 = 2 ∧ (s.group? q.gid).isSome = true)) ∧
    (∃ g ∈ twoReds.mem.reds, g.gid = 2) ∧ (∃ g ∈ s.groups, s.groups.length = 1 ∧ g.task = 1) := by decide +kernel

/-- Two messages packed in a payload, with two bytes of padding; and a payload that is one message. -/
theorem witness_ErrorsAndFences_messages :
    Flit.messages ⟨0, 1, 5, 0, 8, [2, 0, 0, 0, 7, 8, 1, 0, 0, 0, 9, 0, 0], 0, 0⟩ = [[7, 8], [9]] ∧
    [2, 0, 0, 0, 7, 8, 1, 0, 0, 0, 9, 0, 0] = [[(7 : Byte), 8], [9]].flatMap (fun m => leBytes 4 m.length ++ m) ++ List.replicate 2 0 ∧
    field [(0 : Byte), 0, 0, 0, 5] 0 4 = 0 ∧ Flit.messages ⟨0, 1, 5, 0, 8, [0, 0, 0, 0, 5], 0, 0⟩ = [[0, 0, 0, 0, 5]] := by decide +kernel

/-- A flit to this chip whose check holds. -/
def flitOf (crc : DWord) : Flit := ⟨0, 1, 5, 5, 8, [1, 2], crc, 0⟩

theorem witness_ErrorsAndFences_die : cutOff.fenceDue 2 = true ∧ cutOff.dies.any (fun d => d.num == 2) = true ∧ cutOff.tasks = [] ∧ cutOff.grids = [] ∧
    (∃ r ∈ cutOff.mem.regs, agentDie r.owner = 2 ∧ r.pa / 2 ^ 37 ≠ 2) ∧ State.reset.fenceDue 0 = false := by decide +kernel

theorem flit_body_crc (c : DWord) : Flit.body (flitOf c) = Flit.body (flitOf 0) := rfl

theorem witness_ErrorsAndFences_flit : ∃ f : Flit, Config.crc64 (Flit.body f) = f.crc ∧ f.dst = State.reset.fabric.chip ∧ f.cls.toNat < 6 ∧ f.vc = f.cls ∧
    State.reset.fabric.deadPorts.getLsbD 15 = false ∧ State.reset.fabric.recvAny.getLsbD 15 = false :=
  ⟨flitOf (Config.crc64 (Flit.body (flitOf 0))), by rw [flit_body_crc]; rfl, rfl, by decide, rfl, by decide, by decide⟩

theorem witness_ErrorsAndFences_bad_flit : ∃ f : Flit, Config.crc64 (Flit.body f) ≠ f.crc :=
  ⟨flitOf (Config.crc64 (Flit.body (flitOf 0)) + 1), by
    rw [flit_body_crc]
    show Config.crc64 (Flit.body (flitOf 0)) ≠ Config.crc64 (Flit.body (flitOf 0)) + 1
    generalize Config.crc64 (Flit.body (flitOf 0)) = c
    intro h
    have := congrArg BitVec.toNat h
    rw [BitVec.toNat_add] at this
    have hc := c.isLt
    have h1 : BitVec.toNat (1 : DWord) = 1 := rfl
    rw [h1] at this
    omega⟩

theorem witness_ErrorsAndFences_parts :
    State.reset.retired 383 = false ∧ meshStep 383 0 = some 371 ∧ meshStep 0 1 = some 1 ∧
    (∃ g ∈ (demo (.nop .always)).group? 2, 0 < g.width ∧ 255 < g.vregs) ∧ paOk (3 * 2 ^ 37) = true ∧ State.reset.mem.line? 383 2047 = none ∧
    Config.stashBytes = 128 * 2048 ∧ ({ State.reset with host := { HostSide.reset with restarting := true } } : State).host.consumed = [] := by decide +kernel

/-- A reference tick at which die 3's record is due, with its control word, for the ring at address 0x1000. -/
def recordDue (ctl : Word) : State := { State.reset with tick := 200000, host := { HostSide.reset with window := [(0x4C2, 0x1000), (0x4C4, ctl)] } }

/-- The package once it has booted. -/
def booted (s : State) : State := { s with host := { s.host with stage := 3 } }

theorem witness_HostAccesses_telemetry :
    ((recordDue 0).dies.find? (fun x => x.num == 3)).isSome = true ∧ (recordDue 0).tick ≠ 0 ∧ (recordDue 0).tick.toNat % 100000 = 0 ∧
    ((recordDue 0).win 0x1310).testBit 31 = false ∧ ((recordDue 0x80000104).win 0x1310).testBit 31 = true ∧ ((recordDue 0x80000104).win 0x1310).testBit 8 = true ∧
    ((recordDue 0x80000004).win 0x1310).testBit 31 = true ∧ ((recordDue 0x80000004).win 0x1310).testBit 8 = false ∧
    (∃ d ∈ (recordDue 0).dies.find? (fun x => x.num == 3), d.recordAt ≠ (recordDue 0).tick) ∧ (recordDue 0x80000004).ownerOf 0x1000 = 0 ∧ (recordDue 0x80000004).ownerOf 0x101F = 0 ∧
    paOk ((recordDue 0x80000004).win 0x1308 + 2 ^ 32 * (recordDue 0x80000004).win 0x130C) = true ∧ (State.reset.dies.find? (fun x => x.num == 4)) = none := by decide +kernel

theorem witness_HostAccesses_registers :
    (booted State.reset).booted = true ∧ State.reset.booted = false ∧
    (100 ≤ (0x80000064 : Word).toNat % 4096 ∧ (0x80000064 : Word).toNat % 4096 ≤ 1200 ∧ (1200 : Word).toNat % 4096 ≤ 1200 ∧ 1200 < (1201 : Word).toNat % 4096 ∧ (99 : Word).toNat % 4096 < 100) ∧
    (5 ≤ (5 : Word).toNat % 256 ∧ (200 : Word).toNat % 256 ≤ 200 ∧ 200 < (201 : Word).toNat % 256 ∧ (4 : Word).toNat % 256 < 5) ∧
    (∀ k < 8, k ≠ 0 → k ≠ 7 → Nat.land (State.reset.win (0x7000 + 4 * k)) ((0xFFFFFFF : Word).toNat % 2 ^ 28) = 0) ∧
    (∃ k < 8, k ≠ 0 ∧ k ≠ 7 ∧ Nat.land (({ State.reset with host := { HostSide.reset with window := [(0x1C01, 3)] } } : State).win (0x7000 + 4 * k)) ((2 : Word).toNat % 2 ^ 28) ≠ 0) ∧
    (State.reset.tick = 0 ∧ (200000 : DWord).toNat % 100000 = 0 ∧ (199999 : DWord).toNat % 100000 ≠ 0 ∧ (State.reset.win 0x1310).testBit 31 = false ∧
      (State.reset.dies.find? (fun d => d.num == 3)).isSome = true ∧ State.reset.capOn 3 = false ∧
      ({ State.reset with host := { HostSide.reset with power := .p1 } } : State).capOn 3 = true) := by decide +kernel

/-- Configuration records: all zeros are good, a queue count or key share out of range is not; a disabled, an enabled and a quiet interface. -/
theorem witness_HostAccesses_config :
    (booted State.reset).host.stage = 3 ∧ (booted State.reset).configBad 63 = false ∧ (booted State.reset).host.restarting = false ∧ (State.reset.viOf 63).enabled = false ∧
    ({ State.reset with host := { HostSide.reset with window := [(0x27EA, 4097)], stage := 3 } } : State).configBad 63 = true ∧
    (booted { State.reset with vis := [{ VI.reset 63 with pendingConfig := true }], host := { HostSide.reset with window := [(0x27EA, 4097)] } }).configBad 63 = true ∧
    (booted { State.reset with vis := [{ VI.reset 63 with pendingConfig := true }] }).viQuiet 63 = true ∧
    ({ State.reset with host := { HostSide.reset with stage := 3, restarting := true } } : State).host.restarting = true ∧
    (idle.viOf 0).enabled = true ∧ idle.configBad 0 = false ∧
    ((booted { idle with vis := idle.vis.map (fun v => { v with pendingConfig := true }) }).viOf 0).pendingConfig = true ∧ idle.viQuiet 0 = true := by decide +kernel

/-- A page's descriptor in the window: no group word, completion records at 0x3000, 16 slots of them. -/
def described : State :=
  { idle with
    vis := idle.vis.map (fun v => { v with pages := 64 })
    host := { HostSide.reset with stage := 3, window := [((0x10000 + 32 * 63 + 8) / 4, 0x3000), ((0x10000 + 32 * 63 + 0x10) / 4, 16), ((0x10000 + 32 * 63 + 0x14) / 4, 3)] } }

theorem witness_HostAccesses_pages :
    (described.page? 0 63 = none ∧ 63 < (described.viOf 0).pages ∧ described.win64 (pageOff 0 63) = 0 ∧ described.win64 (pageOff 0 63 + 8) = 0x3000 ∧
      chipOf 0x3000 = described.fabric.chip.toNat ∧ described.win (pageOff 0 63 + 0x10) = 16 ∧ described.win (pageOff 0 63 + 0x14) < 4 ∧
      described.win (pageOff 0 63 + 0x1C) = 0) ∧
    (∃ p ∈ submitTo.page? 0 3, p.enabled = true) ∧
    (State.reset.host.interrupts = [] ∧ ({ State.reset with host := { HostSide.reset with interrupts := [⟨0, 0x2000, 255, 1, 0, 0, 0⟩] } } : State).host.interrupts ≠ []) ∧
    (match idle.ranged schedulingCore 0 .write false 0x1FF0 16 with | .ok [(0x1FF0, 16, tr)] => tr.home | _ => false) = true ∧
    (match idle.ranged schedulingCore 0 .write false (2 ^ 36 - 4) 4 with | .ok _ => false | .error _ => true) = true ∧ (idle.flushBridge.deviceRead 0 0x404 4).isSome = true ∧
    ({ idle with mem := { idle.mem with repls := [⟨4, 4, 0, ⟨.bridge, 0⟩, 2 ^ 37, 0, false, [1]⟩] } } : State).mem.repls.any (fun q => q.agent == ⟨.bridge, 0⟩) = true := by decide +kernel

/-- A posted interrupt whose entry of the interface (R344) holds some bytes: a ring of 4 entries that has room. -/
def posting (bytes : List (Nat × Byte)) : State :=
  { idle with
    vis := idle.vis.map (fun v => { v with uintBase := 0x2000 })
    mem := { idle.mem with bytes := idle.mem.bytes ++ bytes }
    host := { idle.host with interrupts := [⟨0, 0x2000, 0, 1, 0, 0, 0⟩] } }

/-- The kind of its entry, whether its ring is full, and whether its tail and its slot can be written. -/
def entryKind (s : State) : Option (Nat × Bool × Bool × Bool) :=
  (s.deviceRead 0 0x2000 32).map (fun e =>
    let slot := field e 8 8 + 16 * (field e 0x1C 4 % field e 0x10 4)
    let v := s.devicePut 0 slot (List.replicate 16 7)
    (field e 0 1 % 4, (field e 0x1C 4 + 2 ^ 32 - field e 0x18 4) % 2 ^ 32 == field e 0x10 4, v.2, (v.1.flushBridge.deviceForce 0 0x201C [1, 0, 0, 0]).2))

/-- Entries of each kind: of the host (whether it takes the vector is free), of the interface's own memory, one that is full, and one of kind 3. -/
theorem witness_HostAccesses_interrupt :
    (entryKind (posting [(0x2002000, 1), (0x2002001, 63), (0x2002009, 5), (0x2002010, 4)])).map (fun e => (e.1, e.2.1, e.2.2.2)) = some (1, false, true) ∧
    entryKind (posting [(0x2002000, 2), (0x2002009, 0x30), (0x2002010, 4)]) = some (2, false, true, true) ∧
    (entryKind (posting [(0x2002000, 2), (0x2002009, 0x30), (0x2002010, 4), (0x200201C, 4)])).map (fun e => (e.1, e.2.1)) = some (2, true) ∧
    (entryKind (posting [(0x2002000, 3), (0x2002010, 4)])).map (fun e => e.1) = some 3 ∧
    (match (posting []).ranged schedulingCore 0 .read false 0x2004 4 with | .ok [(0x2004, 4, tr)] => tr.home | _ => false) = true := by decide +kernel

theorem witness_Lifecycle :
    State.reset.host.stage = 0 ∧ (booted State.reset).host.lifecycle = .manufacture ∧ (booted State.reset).host.keysErased = false ∧
    (booted State.reset).host.stage = 3 ∧ (booted State.reset).host.power ≠ .off ∧ State.reset.quiet = true ∧ (demo (.nop .always)).quiet = false ∧
    (State.reset.host.lifecycle = .manufacture ∧ ({ State.reset with host := { HostSide.reset with lifecycle := .deployed } } : State).host.lifecycle = .deployed) ∧
    (field [0x12, 0xE0] 0 1 = 0x12 ∧ field [0x12, 0xE0] 1 1 = 0xE0 ∧ State.reset.host.keysErased = false) ∧
    (field [0x12, 0xE3, 0, 0, 0, 0, 0, 0, 4, 0, 0, 0, 1, 0, 0, 0] 1 1 = 0xE3 ∧ (field [0x12, 0xE3, 0, 0, 0, 0, 0, 0, 4, 0, 0, 0, 1, 0, 0, 0] 8 4).testBit 2 = true ∧
      (field [0x12, 0xE3, 0, 0, 0, 0, 0, 0, 4, 0, 0, 0, 1, 0, 0, 0] 12 4).testBit 0 = true) ∧
    vendorSigned [] = false ∧ State.reset.tokenOk [] = false ∧ State.reset.sessionFor 0 = false ∧
    (({ demo (.nop .always) with host := { HostSide.reset with sessions := [⟨2, 0, 0⟩] } } : State).sessionFor 0 = true ∧
      (∃ e ∈ (demo (.nop .always)).debugGroup 0 2, e.1.halted = false ∧ 0 < e.1.width ∧ 0 < e.1.vregs ∧ 63 < e.1.sregs ∧ 0 < e.2.tregs ∧ 0 < e.2.accs ∧
        ((demo (.nop .always)).task? e.2.uid).map Task.uid = some e.2.uid) ∧
      (∃ e ∈ (inGroup (demo (.nop .always)) (fun g => { g with halted := true })).debugGroup 0 2, e.1.halted = true ∧ 255 < e.1.vregs)) := by decide +kernel

/-! ### The machine as a whole -/

theorem witness_EncodeDecode : (Instr.ffma ⟨23, true⟩ .rd 0x3F (.v 255) (.ind .up 7) (.v 0) (.ind .down 6)).wf = true := by decide +kernel
theorem witness_DecodeEncode : (0x0000_7FFF_FFE4_3FC0 < 2 ^ 64) ∧ decodeWord 0x0000_7FFF_FFE4_3FC0 = .ok (.bra .always (BitVec.ofInt 32 (-56))) := by decide +kernel

/-- A state whose group is at a word with guard 24. -/
def atReserved : State := State.reset.withFetchWord 64 0x0060_0002_8303_B040

theorem witness_IllegalUses_guard : ∀ w ∈ [0x0060_0002_8303_B040, 0x0060_0002_8303_BC40, 0x0060_0002_8303_FE40], rawOf w ≠ none ∧
    (24 ≤ w / 2 ^ 9 % 32 ∧ w / 2 ^ 9 % 32 ≤ 30 ∨ w / 2 ^ 9 % 32 = 31 ∧ w / 2 ^ 14 % 2 = 1) := by decide +kernel

theorem witness_IllegalUses_guard_state : atReserved.inputs = [] ∧ (∃ g ∈ atReserved.runner, ∃ c ∈ g.clause, g.betweenRepeats = none ∧ g.preempt.getD 0 < 4096 ∧
    c.words[c.index]? = some (some 0x0060_0002_8303_B040) ∧ g.repLeft = 0 ∧ (ctxOf { atReserved with cur := some g.gid } (guardOf 0x0060_0002_8303_B040)).isSome = true) := by decide +kernel

theorem witness_StepRuns :
    (∃ g ∈ (demo (.yield .always)).runner, ∃ c ∈ g.clause, (demo (.yield .always)).inputs = [] ∧ g.betweenRepeats = none ∧ g.preempt.getD 0 < 4096 ∧
      c.words[c.index]? = some (some (BitVec.ofNat 64 (encode (.yield .always)))) ∧ g.repLeft = 0) ∧
    (∃ g ∈ (inGroup (demo (.yield .always)) (fun g => { g with clause := g.clause.map (fun c => { c with words := [none] }) })).runner, ∃ c ∈ g.clause,
      c.words[c.index]? = some none) ∧
    (∃ g ∈ (inGroup (demo (.mov .always (.v 250) (.v 0))) (fun g => { g with repLeft := 3, repDone := 100, repSteps := some (1, 1) })).runner,
      g.stepsPast (BitVec.ofNat 64 (encode (.mov .always (.v 250) (.v 0)))) = true ∧ g.betweenRepeats = none) ∧
    (∀ k ∈ (demo (.yield .always)).tasks, (demo (.yield .always)).teamLeaves k = false) ∧ ((demo (.yield .always)).mem.regs.map Reg.pa).Nodup ∧
    (({ State.reset with inputs := [.event .referenceTick] } : State).inputs = [.event .referenceTick] ∧ Instr.referenceTick.isEvent = true) ∧
    decodeWord 0x0008_0002_8082_4600 = .error 3 := by decide +kernel

theorem witness_StepRuns_settles : ∃ u, settleOut State.reset false (.next State.reset) = .next u := ⟨_, rfl⟩

/-- A step goes on from a state whose memory has its form. -/
theorem witness_StepKeepsMemory : Memory.wf (demo (.nop .always)).mem = true ∧ ∃ t, step (demo (.nop .always)) = .next t := ⟨by decide +kernel, _, rfl⟩

/-- Finite operands with an exact sum of zero and not; NaNs; an infinity against one, and times zero; FDOT4 of finite parts, and with a NaN. -/
theorem witness_CorrectRounding_arithmetic :
    let fin := fun (v : FVal) => v.isNan = false ∧ v.isInf = false
    let rd := fun (c : Nat) => fmtF32.read false c
    fin (rd 0x3F800000) ∧ fin (rd 0xBF800000) ∧ fin (rd 0x00000001) ∧ fin (rd 0x80000000) ∧ (rd 0x7FC00000).isNan = true ∧ (rd 0x7F800001).isSig = true ∧
    (rd 0x7F800000).isInf = true ∧ (rd 0xFF800000).isInf = true ∧ (rd 0x80000000).isZero = true ∧ (rd 0xFF800000).neg ≠ (rd 0x7F800000).neg ∧
    (∀ k < 4, fin (fmtE4M3.decode (0x38B80108 / 256 ^ k % 256))) ∧ (fmtE4M3.decode (0x7F000000 / 256 ^ 3 % 256)).isNan = true ∧
    (fmtE5M2.decode 0x7C).isInf = true := by decide +kernel

/-- Results that do not overflow, and that do. -/
theorem witness_CorrectRounding : (fmtF32.round .rne false false false 1 3 0).2 &&& flOF = 0 ∧ (fmtE4M3.round .ru false true true 449 1 20).2 &&& flOF ≠ 0 ∧
    (fmtE2M1.round .rz false false false 8 1 0).2 &&& flOF ≠ 0 := by decide +kernel

/-! ### Steps with results that the spec gives -/

/-- Vector registers set, as (register, lane, value). -/
def withVec (s : State) (vs : List (Nat × Nat × Word)) : State := inGroup s (fun g => vs.foldl (fun h v => h.vset v.1 v.2.1 v.2.2) g)

/-- What a step leaves in lane 0 of v1, with its flags. -/
def leaves (i : Instr) (vs : List (Nat × Nat × Word)) : Option (Word × BitVec 5) :=
  match exec i (withVec (demo i) vs) with
  | .next t => (t.group? 2).map (fun g => (g.vget 1 0, g.fsr))
  | _ => none

/-- What a long-latency step leaves outstanding for some lanes of v1. -/
def lands (i : Instr) (s : State) (lanes : List Nat) : List (Option Word) :=
  match exec i s with
  | .next t => lanes.map (fun l => ((t.group? 2).map (fun g => g.outs.flatMap Pend.writes)).getD [] |>.findSome? (fun w => match w with
      | .v 1 k x => if k = l then some x else none
      | .s _ x => some (x.setWidth 32)
      | _ => none))
  | _ => []

/- The table of spec/12, "Shift counts are not masked". -/
theorem test_shl_31 : leaves (.shl .always (.v 1) (.v 2) (.v 3)) [(2, 0, 0x80000001), (3, 0, 31)] = some (0x80000000, 0) := by decide +kernel
theorem test_shl_32 : leaves (.shl .always (.v 1) (.v 2) (.v 3)) [(2, 0, 0x80000001), (3, 0, 32)] = some (0, 0) := by decide +kernel
theorem test_shr_256 : leaves (.shr .always (.v 1) (.v 2) (.v 3)) [(2, 0, 0x80000001), (3, 0, 0x100)] = some (0, 0) := by decide +kernel
theorem test_sar_40 : leaves (.sar .always (.v 1) (.v 2) (.v 3)) [(2, 0, 0x80000001), (3, 0, 40)] = some (0xFFFFFFFF, 0) := by decide +kernel
theorem test_rot_33 : leaves (.rot .always (.v 1) (.v 2) (.v 3)) [(2, 0, 0x80000001), (3, 0, 33)] = some (3, 0) := by decide +kernel
theorem test_rot_32 : leaves (.rot .always (.v 1) (.v 2) (.v 3)) [(2, 0, 0x80000001), (3, 0, 32)] = some (0x80000001, 0) := by decide +kernel
theorem test_shl_uniform_count : leaves (.shl .always (.v 1) (.v 2) (.s 3)) [(2, 0, 0x80000001)] = some (0x80000001, 0) := by decide +kernel
/- BFE at position 40, length 4 (spec/12); IABS of the least integer (R144). -/
theorem test_bfe_signed : leaves (.bfe .always true (.v 1) (.v 2) (.v 3)) [(2, 0, 0x80000000), (3, 0, 0x0428)] = some (0xFFFFFFFF, 0) := by decide +kernel
theorem test_bfe_unsigned : leaves (.bfe .always false (.v 1) (.v 2) (.v 3)) [(2, 0, 0x80000000), (3, 0, 0x0428)] = some (0, 0) := by decide +kernel
theorem test_iabs_least : leaves (.iabs .always (.v 1) (.v 2)) [(2, 0, 0x80000000)] = some (0x80000000, 0) := by decide +kernel
/- The table of spec/12, "FMIN does not prefer the number" (NV is bit 0 of fsr, R142). -/
theorem test_fmin_quiet_nan : leaves (.fmin .always 0 (.v 1) (.v 2) (.v 3)) [(2, 0, 0x3F800000), (3, 0, 0xFFC01234)] = some (0x7FC00000, 0) := by decide +kernel
theorem test_fmin_signalling_nan : leaves (.fmin .always 0 (.v 1) (.v 2) (.v 3)) [(2, 0, 0x3F800000), (3, 0, 0x7F800001)] = some (0x7FC00000, flNV) := by decide +kernel
theorem test_fmin_zeros : leaves (.fmin .always 0 (.v 1) (.v 2) (.v 3)) [(2, 0, 0x80000000), (3, 0, 0)] = some (0x80000000, 0) := by decide +kernel
/- CVT's example (spec/11): −2.75 as E4M3 into byte 2; and the tables of spec/08, "One value in every format". -/
theorem test_cvt_example : leaves (.cvt .always .e4m3 .f32 0 2 .rne false (.v 1) (.v 2)) [(2, 0, 0xC0300000), (1, 0, 0x11111111)] = some (0x11C31111, 0) := by decide +kernel
theorem test_cvt_e5m2 : leaves (.cvt .always .e5m2 .f32 0 0 .rne false (.v 1) (.v 2)) [(2, 0, 0xC0300000)] = some (0xC2, flNX) := by decide +kernel
theorem test_cvt_e2m1 : leaves (.cvt .always .e2m1 .f32 0 0 .rne false (.v 1) (.v 2)) [(2, 0, 0xC0300000)] = some (0xD, flNX) := by decide +kernel
theorem test_cvt_f16 : leaves (.cvt .always .f16 .f32 0 0 .rne false (.v 1) (.v 2)) [(2, 0, 0xC0300000)] = some (0xC180, 0) := by decide +kernel
theorem test_cvt_i32 : leaves (.cvt .always .i32 .f32 0 0 .rne false (.v 1) (.v 2)) [(2, 0, 0xC0300000)] = some (0xFFFFFFFD, flNX) := by decide +kernel
theorem test_cvt_saturates : leaves (.cvt .always .e4m3 .f32 0 0 .rne false (.v 1) (.v 2)) [(2, 0, 0x43FA0000)] = some (0x7E, flOF ||| flNX) := by decide +kernel
theorem test_cvt_nanovf : leaves (.cvt .always .e4m3 .f32 0 0 .rne true (.v 1) (.v 2)) [(2, 0, 0x43FA0000)] = some (0x7F, flOF ||| flNX) := by decide +kernel
theorem test_cvt_nan_to_i32 : leaves (.cvt .always .i32 .f32 0 0 .rne false (.v 1) (.v 2)) [(2, 0, 0x7FC00000)] = some (0, flNV) := by decide +kernel

/-- Four lanes of the group hold 3, 1, 4 and 1 in v2 and are the active ones (R171's example); lane 4 holds 7 and is idle. -/
def fourLanes (i : Instr) : State :=
  inGroup (withVec (demo i) [(2, 0, 3), (2, 1, 1), (2, 2, 4), (2, 3, 1), (2, 4, 7)]) (fun g => (List.range 4).foldl (fun h l => h.pset 0 l true) g)

theorem test_scanv : lands (.scanv ⟨0, false⟩ .addI32 (.v 1) (.v 2)) (fourLanes (.scanv ⟨0, false⟩ .addI32 (.v 1) (.v 2))) [0, 1, 2, 3, 4] = [some 3, some 4, some 8, some 9, none] := by decide +kernel
theorem test_scanv_exclusive : lands (.scanvExcl ⟨0, false⟩ .addI32 (.v 1) (.v 2)) (fourLanes (.scanvExcl ⟨0, false⟩ .addI32 (.v 1) (.v 2))) [0, 1, 2, 3, 4] = [some 0, some 3, some 4, some 8, none] := by decide +kernel
theorem test_redv : lands (.redv ⟨0, false⟩ .addI32 (.s 2) (.v 2)) (fourLanes (.redv ⟨0, false⟩ .addI32 (.s 2) (.v 2))) [0] = [some 9] := by decide +kernel
/- REDV over an empty mask (spec/12). -/
theorem test_redv_empty_max : lands (.redv nobody .maxF32 (.s 2) (.v 1)) (demo (.redv nobody .maxF32 (.s 2) (.v 1))) [0] = [some 0xFF800000] := by decide +kernel
theorem test_redv_empty_add : lands (.redv nobody .addF32 (.s 2) (.v 1)) (demo (.redv nobody .addF32 (.s 2) (.v 1))) [0] = [some 0x80000000] := by decide +kernel
/- PERM with indices out of range (spec/12). -/
theorem test_perm : lands (.perm .always (.v 1) (.v 4) (.v 5) (.v 9)) (withVec (demo (.perm .always (.v 1) (.v 4) (.v 5) (.v 9))) [(9, 0, 7), (9, 1, 7), (5, 0, 0xFFFFFFFF), (5, 1, 0), (4, 3, 30), (5, 4, 3)]) [0, 1, 4] = [some 7, some 0, some 30] := by
  decide +kernel

/- An indirect operand with a post-step (spec/06): v[x2++] of lane 0 with x2 = 0x1100_4020 reads v32 and leaves offset 1; an offset of 32 does not lie below the bound. -/
theorem test_indirect_target : resolveIdx 0x11004020 64 = .ok 32 ∧ resolveIdx 0x111F4020 64 = .ok 63 ∧ resolveIdx 0x11204020 64 = .error 0 := ⟨rfl, rfl, rfl⟩
theorem test_indirect_step : (match step (inGroup (demo (.fadd .always .rne 0 (.v 1) (.ind .up 2) (.v 3))) (fun g =>
      (List.range g.width).foldl (fun h l => h.xset 2 l 0x11004020) g)) with | .next t => (t.group? 2).map (fun g => g.xget 2 0) | _ => none) = some 0x11014020 := by decide +kernel

/- A step's matrix arithmetic (spec/08): the readout of 200,703 + 2^−14. -/
theorem test_readout_f32 : readF32 false 0x4843FFC001 = (0x4843FFC0, flNX) := by decide +kernel

/-- The state after a step has its group at an address, or in its handler. -/
def standsAt (o : Host.Outcome State Fault Refusal) (p : Nat) : Bool :=
  match o with
  | .next t => (t.group? 2).any (fun g => (g.vpc.get 0).toNat == p)
  | _ => false

/- BRA goes to its clause's start plus its offset (R233); TRAP enters the handler at the interface's handler base less the C base (R304). -/
theorem test_bra : standsAt (step (demo (.bra .always 0x60))) 0x60 = true := by decide +kernel
theorem test_trap : standsAt (step (framed (.trap .always 0x42))) 0x1000 = true := by decide +kernel
/- EXIT by all lanes ends the group (R36); %lane of GETSYS is the lane's number (R62). -/
theorem test_exit : (match step (demo (.exit .always)) with | .next t => (t.group? 2).any (fun g => g.residency == .ended) | _ => false) = true := by decide +kernel
theorem test_getsys : (match step (demo (.getsys .always .lane (.v 1))) with | .next t => (t.group? 2).map (fun g => g.vget 1 15) | _ => none) = some 15 := by decide +kernel
/- A store of a lane's data leaves its four bytes, lowest first (R5, R188). -/
theorem test_store : (match exec (.st ⟨0, false⟩ .b32 lanesAt) (inGroup (withVec (paged (.st ⟨0, false⟩ .b32 lanesAt)) [(8, 5, 0xAABBCCDD)]) (fun g => g.pset 0 5 true)) with
    | .next t => (List.range 4).map (fun j => t.mem.byte (0x2000100 + j)) | _ => []) = [0xDD, 0xCC, 0xBB, 0xAA] := by decide +kernel
/- A tick counts and gives each die the credit of its DIDT limit, 5 hundredths of an ampere at reset (R22, R297, R351). -/
theorem test_tick : (match exec .referenceTick State.reset with | .next t => (t.tick, t.dies.map Die.credit) | _ => (0, [])) = (1, [5, 5, 5, 5]) := by decide +kernel

end Sys2Proof.Tests
end

section
/-! The identities of the reductions (R48): the codes of a signed zero and of an infinity, read back in every format that has them, and the identity of each operation. -/
namespace Sys2Proof.Machine

/-- The bit above the magnitude is the sign. -/
theorem FFmt.withSign_sign_bit (f : FFmt) (neg : Bool) {mag : Nat} (h : mag < 2 ^ (f.fbits + f.ebits)) :
    (f.withSign neg mag / 2 ^ (f.fbits + f.ebits) % 2 = 1) ↔ neg = true := by
  cases neg
  · simp [FFmt.withSign, Nat.div_eq_of_lt h]
  · simp [FFmt.withSign, Nat.add_div_right _ (Nat.two_pow_pos _), Nat.div_eq_of_lt h]

/-- The sign leaves the fraction field as it is. -/
theorem FFmt.withSign_fraction (f : FFmt) (neg : Bool) (mag : Nat) : f.withSign neg mag % 2 ^ f.fbits = mag % 2 ^ f.fbits := by
  cases neg
  · rfl
  · simp [FFmt.withSign, Nat.pow_add]

/-- The sign leaves the exponent field as it is. -/
theorem FFmt.withSign_exponent (f : FFmt) (neg : Bool) (mag : Nat) :
    f.withSign neg mag / 2 ^ f.fbits % 2 ^ f.ebits = mag / 2 ^ f.fbits % 2 ^ f.ebits := by
  cases neg
  · rfl
  · simp [FFmt.withSign, Nat.pow_add, Nat.add_mul_div_left _ _ (Nat.two_pow_pos f.fbits)]

/-- A zero of either sign reads back as that zero (R76). -/
theorem FFmt.decode_withSign_zero (f : FFmt) (neg : Bool) : f.decode (f.withSign neg 0) = .fin neg 0 (1 - (f.bias : Int) - f.fbits) := by
  have hsign := f.withSign_sign_bit neg (Nat.two_pow_pos (f.fbits + f.ebits))
  simp [FFmt.decode, FFmt.withSign_fraction, FFmt.withSign_exponent, hsign]

/-- In a format with infinities, the code of ∞ reads back as ∞ of its sign (R76). -/
theorem FFmt.decode_infCode {f : FFmt} (hkind : f.kind = .ieee) (hbits : 0 < f.ebits) (neg : Bool) : f.decode (f.infCode neg) = .inf neg := by
  have htwo : 1 < 2 ^ f.ebits := Nat.one_lt_two_pow hbits.ne'
  have htop : 2 ^ f.ebits - 1 ≠ 0 := by omega
  have hmag : (2 ^ f.ebits - 1) * 2 ^ f.fbits < 2 ^ (f.fbits + f.ebits) := by
    rw [Nat.add_comm, Nat.pow_add]
    exact Nat.mul_lt_mul_of_pos_right (Nat.sub_lt (by omega) Nat.one_pos) (Nat.two_pow_pos _)
  have hexp : (2 ^ f.ebits - 1) % 2 ^ f.ebits = 2 ^ f.ebits - 1 := Nat.mod_eq_of_lt (by omega)
  have hsign := f.withSign_sign_bit neg hmag
  simp [FFmt.infCode, FFmt.decode, FFmt.withSign_fraction, FFmt.withSign_exponent, hsign, hkind, hexp, htop]

/-- The identity of the floating add is the code of −0.0 (R48). -/
theorem redIdentity_addF32 : redIdentity .addF32 = fmtF32.withSign true 0 := rfl

/-- Settles O60: the floating identities by reading back the codes of −0.0 and of the infinities, the integer ones by evaluation. -/
theorem reductionIdentities : Obligations.ReductionIdentities := by
  have hzero : fmtF32.decode (redIdentity .addF32) = .fin true 0 (-149) := by
    rw [redIdentity_addF32]
    exact fmtF32.decode_withSign_zero true
  have hinf (neg : Bool) : fmtF32.decode (fmtF32.infCode neg) = .inf neg := FFmt.decode_infCode rfl (by decide) neg
  exact ⟨hzero, hinf false, hinf true, rfl, rfl, rfl, by decide, by decide, by decide, rfl, rfl⟩

end Sys2Proof.Machine
end

section
/-! The codes of block scales (R76, R79): every value is a whole number of units of 2^−7, and each exponent field keeps to a binade of its own. -/
namespace Sys2Proof.Machine

/-- The value of an E3M5 code in units of 2^−7, the smallest subnormal. -/
def e3m5Units (code : Nat) : Nat :=
  let fr := code % 32
  let ex := code / 32 % 8
  if ex = 0 then fr else (32 + fr) * 2 ^ (ex - 1)

/-- With exponent field 0 the units are the fraction field. -/
theorem e3m5Units_of_subnormal {code : Nat} (hex : code / 32 % 8 = 0) : e3m5Units code = code % 32 := by
  simp [e3m5Units, hex]

/-- Any other exponent field shifts the fraction with its leading one. -/
theorem e3m5Units_of_normal {code : Nat} (hex : code / 32 % 8 ≠ 0) : e3m5Units code = (32 + code % 32) * 2 ^ (code / 32 % 8 - 1) := by
  simp [e3m5Units, hex]

/-- The value m × 2^e of a code is its units times 2^−7. -/
theorem e3m5_value_eq_units (code : Nat) : ((e3m5 code).1 : ℚ) * (2 : ℚ) ^ (e3m5 code).2 = e3m5Units code / 2 ^ 7 := by
  by_cases hex : code / 32 % 8 = 0
  · rw [e3m5Units_of_subnormal hex, div_eq_mul_inv]
    simp only [e3m5, hex, if_true]
    rfl
  · have hexp : ((code / 32 % 8 : Nat) : Int) - 8 = ((code / 32 % 8 - 1 : Nat) : Int) - (7 : Nat) := by omega
    rw [e3m5Units_of_normal hex]
    simp only [e3m5, hex, if_false]
    rw [hexp, zpow_sub₀ two_ne_zero, zpow_natCast, zpow_natCast, ← mul_div_assoc]
    push_cast
    rfl

/-- A code lies below the end of the binade of its exponent field. -/
theorem e3m5Units_lt_binade_end (code : Nat) : e3m5Units code < 32 * 2 ^ (code / 32 % 8) := by
  by_cases hex : code / 32 % 8 = 0
  · rw [e3m5Units_of_subnormal hex]
    simpa [hex] using Nat.mod_lt code (by decide : 0 < 32)
  · have hpow : 2 ^ (code / 32 % 8) = 2 * 2 ^ (code / 32 % 8 - 1) := (mul_pow_sub_one hex 2).symm
    rw [e3m5Units_of_normal hex, hpow, ← mul_assoc]
    exact Nat.mul_lt_mul_of_pos_right (by omega) (Nat.two_pow_pos _)

/-- A normal code lies at or above the start of the binade of its exponent field. -/
theorem e3m5Units_ge_binade_start {code : Nat} (hex : code / 32 % 8 ≠ 0) : 32 * 2 ^ (code / 32 % 8 - 1) ≤ e3m5Units code := by
  rw [e3m5Units_of_normal hex]
  exact Nat.mul_le_mul_right _ (Nat.le_add_right 32 _)

/-- Within one exponent field a larger fraction has more units. -/
theorem e3m5Units_lt_of_fraction_lt {c d : Nat} (hex : c / 32 % 8 = d / 32 % 8) (hfr : c % 32 < d % 32) : e3m5Units c < e3m5Units d := by
  by_cases hd : d / 32 % 8 = 0
  · rwa [e3m5Units_of_subnormal (hex.trans hd), e3m5Units_of_subnormal hd]
  · rw [e3m5Units_of_normal (hex ▸ hd), e3m5Units_of_normal hd, hex]
    exact Nat.mul_lt_mul_of_pos_right (by omega) (Nat.two_pow_pos _)

/-- A larger exponent field has more units, whatever the fractions: the binade of the one ends where that of the other begins, or before it. -/
theorem e3m5Units_lt_of_exponent_lt {c d : Nat} (hex : c / 32 % 8 < d / 32 % 8) : e3m5Units c < e3m5Units d :=
  calc e3m5Units c
    _ < 32 * 2 ^ (c / 32 % 8) := e3m5Units_lt_binade_end c
    _ ≤ 32 * 2 ^ (d / 32 % 8 - 1) := Nat.mul_le_mul_left _ (Nat.pow_le_pow_right (by decide) (by omega))
    _ ≤ e3m5Units d := e3m5Units_ge_binade_start (by omega)

/-- A larger code of one byte has more units (R79). -/
theorem e3m5Units_lt {c d : Nat} (hcd : c < d) (hd : d < 256) : e3m5Units c < e3m5Units d := by
  rcases (by omega : c / 32 % 8 < d / 32 % 8 ∨ c / 32 % 8 = d / 32 % 8) with hlt | heq
  · exact e3m5Units_lt_of_exponent_lt hlt
  · exact e3m5Units_lt_of_fraction_lt heq (by omega)

/-- Settles O59: the values are units of 2^−7, counted for the codes of R79 and ordered as the codes are. -/
theorem blockScaleCodes : Obligations.BlockScaleCodes := by
  unfold Obligations.BlockScaleCodes
  rintro value rfl
  simp only [e3m5_value_eq_units]
  refine ⟨?zero, ?smallest, ?lastSubnormal, ?firstNormal, ?belowOne, ?one, ?topBinade, ?largest, ?ordered⟩
  case ordered =>
    intro c d hcd hd
    have hunits : (e3m5Units c : ℚ) < e3m5Units d := Nat.cast_lt.mpr (e3m5Units_lt hcd hd)
    exact div_lt_div_of_pos_right hunits (by positivity)
  all_goals norm_num [e3m5Units]

end Sys2Proof.Machine
end

section
/-! Encode after decode (R101 to R131): the fields of a word make it up again, so that an instruction read without a breach has that word. -/
namespace Sys2Proof

/-- Encoding the operands of the instruction that was read gives the word back, if it was read without a breach. -/
def Raw.sound (r : Raw) (w : Nat) : Prop := ∀ i, r.result = .ok i → i.wf = true ∧ encode i = w

/-- A word read without a breach, whose instruction shows none either (R131). -/
theorem Raw.of_result {r : Raw} {i : Instr} (h : r.result = .ok i) :
    r.s1 = false ∧ r.s2 = false ∧ r.s3 = false ∧ r.i = i ∧ i.reserved = false ∧ i.accepted = true := by
  unfold Raw.result at h
  split at h
  · cases h
  · split at h
    · cases h
    · split at h
      · cases h
      · cases h
        simp_all

/-- Soundness from the word of the instruction that was read. -/
theorem Raw.sound_of {r : Raw} {w : Nat} (hev : r.i.isEvent = false)
    (henc : r.s1 = false → r.s2 = false → r.s3 = false → r.i.reserved = false → r.i.accepted = true → encode r.i = w) : r.sound w := by
  intro i h
  obtain ⟨h1, h2, h3, rfl, hres, hacc⟩ := Raw.of_result h
  exact ⟨by simp [Instr.wf, hev, hres, hacc], henc h1 h2 h3 hres hacc⟩

/-- A word whose reading shows a breach has nothing to give back. -/
theorem Raw.sound_of_breach {r : Raw} {w : Nat} (h : r.s1 = true ∨ r.s3 = true) : r.sound w := by
  intro i hr
  obtain ⟨h1, -, h3, -⟩ := Raw.of_result hr
  simp [h1, h3] at h

theorem bit_fld (w p : Nat) : bit (fld w p 1 == 1) = fld w p 1 := by
  have : fld w p 1 < 2 := Nat.mod_lt _ (by decide)
  obtain h | h : fld w p 1 = 0 ∨ fld w p 1 = 1 := by omega
  all_goals simp [h, bit]

theorem fld_lt (w p n : Nat) : fld w p n < 2 ^ n := Nat.mod_lt _ (Nat.two_pow_pos n)

theorem toNat_ofNat_fld (w p n : Nat) : (BitVec.ofNat n (fld w p n)).toNat = fld w p n := by
  rw [BitVec.toNat_ofNat, Nat.mod_eq_of_lt (fld_lt w p n)]

/-- The low 15 bits of a word are its opcode and guard (R108). -/
theorem encHead_of_word (w : Nat) : encHead (opcodeOf w) (guardOf w) = w % 2 ^ 15 := by
  simp only [encHead, guardOf, toNat_ofNat_fld, bit_fld, opcodeOf]
  simp only [fld]
  omega

/-- An operand read without a breach has the class and the field it was read from (R112, R113). -/
theorem cls_field_opndOf {c f : Nat} (hc : c < 4) (hf : f < 256) (h1 : opndBad1 c f = false) (h2 : opndBad2 c f = false) :
    (opndOf c f).cls = c ∧ (opndOf c f).field = f := by
  obtain rfl | rfl | rfl | rfl : c = 0 ∨ c = 1 ∨ c = 2 ∨ c = 3 := by omega
  · exact ⟨rfl, Nat.mod_eq_of_lt hf⟩
  · simp [opndBad1] at h1
    exact ⟨rfl, Nat.mod_eq_of_lt h1⟩
  · have h32 : f < 32 := by simp [opndBad1] at h1; exact h1.1
    have hind : ∀ f < 32, opndBad1 2 f = false → (opndOf 2 f).cls = 2 ∧ (opndOf 2 f).field = f := by decide
    exact hind f h32 h1
  · have h128 : f < 128 := by simpa [opndBad2] using h2
    have hk : fld f 5 3 = f / 32 := by simp only [fld]; omega
    have hlow : fld f 0 5 = f % 32 := by simp only [fld]; omega
    obtain h | h | h | h : f / 32 = 0 ∨ f / 32 = 1 ∨ f / 32 = 2 ∨ f / 32 = 3 := by omega
    all_goals
      simp [opndBad1, hk, h, hlow] at h1
      simp [opndOf, hk, h, Opnd.cls, Opnd.field]
      try omega

/-- A position that is unused and shows no breach holds the zero operand (R111). -/
theorem used_or_zero {use : Bool} {c f : Nat} (h : unusedBad use c f = false) : use = true ∨ opndOf c f = .zero := by
  cases use
  · simp [unusedBad] at h
    obtain ⟨rfl, rfl⟩ := h
    exact .inr rfl
  · exact .inl rfl

/-- What a format A word shows that was read without a breach (R111, R141). -/
structure AFields.Meant (x : AFields) (useA useB useC : Bool) (mask selMax : Nat) : Prop where
  mods : modsOk (BitVec.ofNat 6 mask) x.mods = true
  sel : x.sel.toNat ≤ selMax
  a : useA = true ∨ x.a = .zero
  b : useB = true ∨ x.b = .zero
  c : useC = true ∨ x.c = .zero

/-- A format A word gives itself back (R111). -/
theorem rawA_sound {w op mask selMax : Nat} {useA useB useC : Bool} {mk : AFields → Instr} (hlt : w < 2 ^ 64) (hop : opcodeOf w = op)
    (hev : ∀ x, (mk x).isEvent = false)
    (henc : ∀ x : AFields, x.mods.toNat = fld w 58 6 → x.Meant useA useB useC mask selMax →
      encode (mk x) = encA op x.g x.mods.toNat x.sel.toNat x.d x.a x.b x.c) :
    (rawA w useA useB useC mask selMax mk).sound w := by
  refine Raw.sound_of (hev _) fun h1 h2 h3 _ _ => ?_
  simp only [rawA, Bool.or_eq_false_iff, Bool.not_eq_false', decide_eq_false_iff_not, Nat.not_lt] at h1 h2 h3
  obtain ⟨⟨⟨⟨⟨⟨b1d, b1a⟩, b1b⟩, b1c⟩, -⟩, hmods⟩, hsel⟩ := h1
  obtain ⟨⟨⟨b2d, b2a⟩, b2b⟩, b2c⟩ := h2
  obtain ⟨⟨ua, ub⟩, uc⟩ := h3
  obtain ⟨cd, fd⟩ := cls_field_opndOf (fld_lt w 47 2) (fld_lt w 15 8) b1d b2d
  obtain ⟨ca, fa⟩ := cls_field_opndOf (fld_lt w 49 2) (fld_lt w 23 8) b1a b2a
  obtain ⟨cb, fb⟩ := cls_field_opndOf (fld_lt w 51 2) (fld_lt w 31 8) b1b b2b
  obtain ⟨cc, fc⟩ := cls_field_opndOf (fld_lt w 53 2) (fld_lt w 39 8) b1c b2c
  have hw := henc ⟨guardOf w, BitVec.ofNat 6 (fld w 58 6), BitVec.ofNat 3 (fld w 55 3), opndOf (fld w 47 2) (fld w 15 8), opndOf (fld w 49 2) (fld w 23 8),
    opndOf (fld w 51 2) (fld w 31 8), opndOf (fld w 53 2) (fld w 39 8)⟩ (toNat_ofNat_fld w 58 6)
    ⟨hmods, by simpa only [toNat_ofNat_fld] using hsel, used_or_zero ua, used_or_zero ub, used_or_zero uc⟩
  refine hw.trans ?_
  subst hop
  simp only [encA, encHead_of_word, cd, fd, ca, fa, cb, fb, cc, fc, toNat_ofNat_fld]
  simp only [fld]
  omega

/-- No mod bit is in use. -/
theorem modsOk_none {m : BitVec 6} (h : modsOk (BitVec.ofNat 6 0) m = true) : m = 0 := by revert m; decide

theorem sel_eq_zero {k : BitVec 3} (h : k.toNat ≤ 0) : k = 0 := BitVec.eq_of_toNat_eq (by simpa using h)

/-- Format A words that say nothing but their operands. -/
theorem raw1_sound {w op : Nat} {mk : Guard → Opnd → Opnd → Instr} (hlt : w < 2 ^ 64) (hop : opcodeOf w = op) (hev : ∀ g d a, (mk g d a).isEvent = false)
    (henc : ∀ g d a, encode (mk g d a) = encA op g 0 0 d a .zero .zero) : (raw1 w mk).sound w :=
  rawA_sound hlt hop (fun _ => hev _ _ _) fun x _ ⟨hm, hs, _, hb, hc⟩ => by
    simp [henc, modsOk_none hm, sel_eq_zero hs, hb.resolve_left Bool.false_ne_true, hc.resolve_left Bool.false_ne_true]

theorem raw2_sound {w op : Nat} {mk : Guard → Opnd → Opnd → Opnd → Instr} (hlt : w < 2 ^ 64) (hop : opcodeOf w = op)
    (hev : ∀ g d a b, (mk g d a b).isEvent = false)
    (henc : ∀ g d a b, encode (mk g d a b) = encA op g 0 0 d a b .zero) : (raw2 w mk).sound w :=
  rawA_sound hlt hop (fun _ => hev _ _ _ _) fun x _ ⟨hm, hs, _, _, hc⟩ => by
    simp [henc, modsOk_none hm, sel_eq_zero hs, hc.resolve_left Bool.false_ne_true]

theorem raw3_sound {w op : Nat} {mk : Guard → Opnd → Opnd → Opnd → Opnd → Instr} (hlt : w < 2 ^ 64) (hop : opcodeOf w = op)
    (hev : ∀ g d a b c, (mk g d a b c).isEvent = false)
    (henc : ∀ g d a b c, encode (mk g d a b c) = encA op g 0 0 d a b c) : (raw3 w mk).sound w :=
  rawA_sound hlt hop (fun _ => hev _ _ _ _ _) fun x _ ⟨hm, hs, _, _, _⟩ => by simp [henc, modsOk_none hm, sel_eq_zero hs]

/-- The fields of a format B word make it up (R114). -/
theorem encB_of_word {w : Nat} (hlt : w < 2 ^ 64) :
    encB (opcodeOf w) (guardOf w) (fld w 63 1 == 1) (fld w 15 8) (fld w 23 8) (fld w 31 32) = w := by
  simp only [encB, encHead_of_word, bit_fld]
  simp only [fld]
  omega

theorem rawImm_sound {w op : Nat} {mk : Guard → Bool → BitVec 8 → BitVec 8 → Word → Instr} (hlt : w < 2 ^ 64) (hop : opcodeOf w = op)
    (hev : ∀ g u d a imm, (mk g u d a imm).isEvent = false)
    (henc : ∀ g u d a imm, encode (mk g u d a imm) = encB op g u d.toNat a.toNat imm.toNat) : (rawImm w mk).sound w :=
  Raw.sound_of (hev _ _ _ _ _) fun _ _ _ _ _ => by
    subst hop
    simp only [rawImm, rawB, henc, toNat_ofNat_fld]
    exact encB_of_word hlt

/-- The fields of a format L word make it up (R115). -/
theorem encL_of_word {w : Nat} (hlt : w < 2 ^ 64) : encL (opcodeOf w) (guardOf w) (fld w 38 2) (fld w 36 2) (largsOf w) = w := by
  simp only [encL, encHead_of_word, largsOf, toNat_ofNat_fld, bit_fld]
  simp only [fld]
  omega

theorem scopeOf_eq_code {n : Nat} (h : n < 4) : (scopeOf n).code = n := by
  obtain rfl | rfl | rfl | rfl : n = 0 ∨ n = 1 ∨ n = 2 ∨ n = 3 := by omega
  all_goals rfl

/-- A format L word whose order and scope fields are what its instruction encodes. -/
theorem encL_eq_word {w op order scope : Nat} (hlt : w < 2 ^ 64) (hop : opcodeOf w = op) (ho : fld w 38 2 = order) (hs : fld w 36 2 = scope) :
    encL op (guardOf w) order scope (largsOf w) = w := by
  subst hop ho hs
  exact encL_of_word hlt

/-- The word of a format Y instruction from the fields that were read (R116). -/
theorem encY_of_word {w : Nat} (hlt : w < 2 ^ 64) (hA : (fld w 42 1 == 1) = false → fld w 43 2 = 0 ∧ fld w 48 16 = 0)
    (hL : (fld w 45 1 == 1) = false → fld w 46 2 = 0) :
    encY (opcodeOf w) (guardOf w) (if fld w 42 1 == 1 then some (scopeOf (fld w 43 2), BitVec.ofNat 16 (fld w 48 16)) else none)
      (if fld w 45 1 == 1 then some (scopeOf (fld w 46 2)) else none) (fld w 39 3) (fld w 33 6) (fld w 27 6) (fld w 21 6) (fld w 15 6) = w := by
  have ha : (match (if fld w 42 1 == 1 then some (scopeOf (fld w 43 2), BitVec.ofNat 16 (fld w 48 16)) else none : AcqPart) with
      | some (sc, m) => 2 ^ 42 + sc.code * 2 ^ 43 + m.toNat * 2 ^ 48 | none => 0) = fld w 42 1 * 2 ^ 42 + fld w 43 2 * 2 ^ 43 + fld w 48 16 * 2 ^ 48 := by
    cases h : (fld w 42 1 == 1)
    · have hbit := bit_fld w 42
      simp [h, bit] at hbit
      simp [hA h, ← hbit]
    · simp only [beq_iff_eq.mp h, if_true, scopeOf_eq_code (fld_lt w 43 2), toNat_ofNat_fld, one_mul]
  have hl : (match (if fld w 45 1 == 1 then some (scopeOf (fld w 46 2)) else none : Rel) with
      | some sc => 2 ^ 45 + sc.code * 2 ^ 46 | none => 0) = fld w 45 1 * 2 ^ 45 + fld w 46 2 * 2 ^ 46 := by
    cases h : (fld w 45 1 == 1)
    · have hbit := bit_fld w 45
      simp [h, bit] at hbit
      simp [hL h, ← hbit]
    · simp [beq_iff_eq.mp h, scopeOf_eq_code (fld_lt w 46 2)]
  have hw : encHead (opcodeOf w) (guardOf w) + fld w 15 6 * 2 ^ 15 + fld w 21 6 * 2 ^ 21 + fld w 27 6 * 2 ^ 27 + fld w 33 6 * 2 ^ 33 + fld w 39 3 * 2 ^ 39 +
      (fld w 42 1 * 2 ^ 42 + fld w 43 2 * 2 ^ 43 + fld w 48 16 * 2 ^ 48) + (fld w 45 1 * 2 ^ 45 + fld w 46 2 * 2 ^ 46) = w := by
    rw [encHead_of_word]
    simp only [fld]
    omega
  rw [← ha, ← hl] at hw
  exact hw

/-- What a format Y word shows that was read without a breach (R116). -/
structure YFields.Meant (y : YFields) (useA useB useC useD cmp7 : Bool) (okA okL : Option Bool) : Prop where
  a : useA = true ∨ y.ua = 0
  b : useB = true ∨ y.ub = 0
  c : useC = true ∨ y.uc = 0
  d : useD = true ∨ y.ud = 0
  cmp : cmp7 = true → y.cmp = 7
  acq : ∀ x ∈ okA, y.acq.isSome = x
  rel : ∀ x ∈ okL, y.rel.isSome = x

/-- A field that is 0 or in use. -/
theorem used_or_field_zero {use : Bool} {w p n : Nat} (h : (!use && decide (fld w p n ≠ 0)) = false) : use = true ∨ BitVec.ofNat n (fld w p n) = 0 := by
  cases use
  · simp at h
    simp [h]
  · exact .inl rfl

/-- A format Y word gives itself back (R116). -/
theorem rawY_sound {w op : Nat} {useA useB useC useD cmp7 strict : Bool} {okA okL : Option Bool} {mk : YFields → Instr} (hlt : w < 2 ^ 64)
    (hop : opcodeOf w = op) (hev : ∀ y, (mk y).isEvent = false)
    (henc : ∀ y : YFields, y.Meant useA useB useC useD cmp7 okA okL →
      encode (mk y) = encY op y.g y.acq y.rel y.cmp.toNat y.ud.toNat y.uc.toNat y.ub.toNat y.ua.toNat) :
    (rawY w useA useB useC useD cmp7 okA okL strict mk).sound w := by
  refine Raw.sound_of (hev _) fun h1 _ h3 _ _ => ?_
  have hstrict : ∀ {r : Bool}, (strict && r) = false → (!strict && r) = false → r = false := by cases strict <;> simp
  simp only [rawY, Bool.or_eq_false_iff] at h1 h3
  obtain ⟨⟨⟨⟨⟨⟨ua, ub⟩, uc⟩, ud⟩, hA⟩, hL⟩, hs⟩ := h1
  have hrefused := hstrict hs h3
  simp only [Bool.or_eq_false_iff] at hrefused
  obtain ⟨⟨hcmp, hokA⟩, hokL⟩ := hrefused
  have hAz : (fld w 42 1 == 1) = false → fld w 43 2 = 0 ∧ fld w 48 16 = 0 := fun h => by simpa [h] using hA
  have hLz : (fld w 45 1 == 1) = false → fld w 46 2 = 0 := fun h => by simpa [h] using hL
  refine (henc ⟨guardOf w, _, _, BitVec.ofNat 3 (fld w 39 3), BitVec.ofNat 6 (fld w 33 6), BitVec.ofNat 6 (fld w 27 6), BitVec.ofNat 6 (fld w 21 6),
    BitVec.ofNat 6 (fld w 15 6)⟩ ⟨used_or_field_zero ua, used_or_field_zero ub, used_or_field_zero uc, used_or_field_zero ud, ?cmp, ?acq, ?rel⟩).trans ?word
  case cmp =>
    rintro rfl
    simp at hcmp
    simp [hcmp]
  case acq =>
    rintro x rfl
    cases h : (fld w 42 1 == 1) <;> simpa [h] using hokA
  case rel =>
    rintro x rfl
    cases h : (fld w 45 1 == 1) <;> simpa [h] using hokL
  case word =>
    subst hop
    simp only [toNat_ofNat_fld]
    exact encY_of_word hlt hAz hLz

/-- The fields of a format M word make it up (R117). -/
theorem encM_of_word {w : Nat} (hlt : w < 2 ^ 64) (hz : fld w 46 18 = 0) :
    encM (opcodeOf w) (guardOf w) (fld w 45 1 == 1) (fld w 44 1 == 1) (fld w 40 4) (fld w 34 6) (fld w 26 8) (fld w 22 4) (fld w 18 4) (fld w 15 3) = w := by
  simp only [encM, encHead_of_word, bit_fld]
  simp only [fld] at hz ⊢
  omega

/-- The fields of a format J word make it up (R118). -/
theorem encJ_of_word {w : Nat} (hlt : w < 2 ^ 64) (hz : fld w 55 9 = 0) : encJ (opcodeOf w) (guardOf w) (fld w 47 8) (fld w 15 32) = w := by
  simp only [encJ, encHead_of_word]
  simp only [fld] at hz ⊢
  omega

/-- The fields of a format Z word make it up (R118). -/
theorem encZ_of_word {w : Nat} (hlt : w < 2 ^ 64) :
    encZ (opcodeOf w) (guardOf w) (fld w 40 24) (fld w 39 1 == 1) (fld w 35 4) (fld w 27 8) (fld w 21 6) (fld w 15 6) = w := by
  simp only [encZ, encHead_of_word, bit_fld]
  simp only [fld]
  omega

/-- A format M word that shows no unused field has zeros there (R218). -/
theorem mBad_eq_false {w : Nat} {p z sel s v tb ta acc : Bool} (h : mBad w p z sel s v tb ta acc = false) : fld w 46 18 = 0 ∧ (p = true ∨ fld w 45 1 = 0) ∧
    (z = true ∨ fld w 44 1 = 0) ∧ (sel = true ∨ fld w 40 4 = 0) ∧ (s = true ∨ fld w 34 6 = 0) ∧ (v = true ∨ fld w 26 8 = 0) ∧
    (tb = true ∨ fld w 22 4 = 0) ∧ (ta = true ∨ fld w 18 4 = 0) ∧ (acc = true ∨ fld w 15 3 = 0) := by
  simpa only [mBad, Bool.or_eq_false_iff, Bool.and_eq_false_iff, Bool.not_eq_false', decide_eq_false_iff_not, not_not, and_assoc] using h

/-- A format Z word that shows no unused field has zeros there. -/
theorem zBad_eq_false {w : Nat} {imm v sel vreg sb sa : Bool} (h : zBad w imm v sel vreg sb sa = false) : (imm = true ∨ fld w 40 24 = 0) ∧
    (v = true ∨ fld w 39 1 = 0) ∧ (sel = true ∨ fld w 35 4 = 0) ∧ (vreg = true ∨ fld w 27 8 = 0) ∧ (sb = true ∨ fld w 21 6 = 0) ∧
    (sa = true ∨ fld w 15 6 = 0) := by
  simpa only [zBad, Bool.or_eq_false_iff, Bool.and_eq_false_iff, Bool.not_eq_false', decide_eq_false_iff_not, not_not, and_assoc] using h

end Sys2Proof
end

section
/-! Encode after decode, family by family. -/
namespace Sys2Proof

/-! ### Codes read from a word -/

theorem rmodeOf_eq_code {n : Nat} (h : n < 4) : (rmodeOf n).code = n := by revert n; decide
theorem fmtOf_eq_code {n : Nat} (h : n < 8) : (fmtOf n).code = n := by revert n; decide
theorem icmpOf_eq_code {n : Nat} (h : n < 6) : (icmpOf n).code = n := by revert n; decide
theorem fcmpOf_eq_code {n : Nat} (h : n < 8) : (fcmpOf n).code = n := by revert n; decide
theorem redOpOf_eq_code {n : Nat} (h : n < 11) : (redOpOf n).code = n := by revert n; decide
theorem atomVarOf_eq_code {n : Nat} (h : n < 21) : (atomVarOf n).code = n := by revert n; decide
theorem idxFieldOf_eq_code {n : Nat} (h : n < 6) : (idxFieldOf n).code = n := by revert n; decide
theorem monCmpOf_eq_code {n : Nat} (h : n < 4) : (monCmpOf n).code = n := by revert n; decide
theorem sysValOf_eq_code {n : Nat} (h : n < 11) : (sysValOf n).code = n := by revert n; decide

/-- The mod bits of an ISETP word are its combination (R149). -/
theorem isetp_mods_read {m : BitVec 6} (h : modsOk (BitVec.ofNat 6 0x30) m = true) : 16 * (bopOf (m.toNat / 16)).code = m.toNat := by
  revert m; decide

/-- The mod bits of an FSETP word are its combination and its modifiers (R154). -/
theorem fsetp_mods_read (m : BitVec 6) : 16 * (bopOf (m.toNat / 16)).code + (m &&& 0x0F).toNat = m.toNat := by revert m; decide

/-- One flag in mod bit 0. -/
theorem bit_mods_read {m : BitVec 6} (h : modsOk (BitVec.ofNat 6 1) m = true) : bit (m.toNat % 2 == 1) = m.toNat := by revert m; decide

/-- Two flags in mod bits 0 and 1. -/
theorem bits_mods_read {m : BitVec 6} (h : modsOk (BitVec.ofNat 6 3) m = true) :
    bit (m.toNat % 2 == 1) + 2 * bit (m.toNat / 2 % 2 == 1) = m.toNat := by revert m; decide

/-- MOVI by its selector (R151). -/
theorem rawMovi_sound {w : Nat} (hlt : w < 2 ^ 64) (hop : opcodeOf w = 0x30) : (rawMovi w).sound w := by
  have hw := encB_of_word hlt
  rw [hop] at hw
  unfold rawMovi
  split
  case h_1 hsel => exact Raw.sound_of rfl fun _ _ _ _ _ => by simpa only [encode, toNat_ofNat_fld, hsel] using hw
  case h_2 hsel =>
    cases hu : (fld w 63 1 == 1)
    · exact Raw.sound_of_breach (.inr rfl)
    · rw [hsel, hu] at hw
      refine Raw.sound_of rfl fun _ _ _ _ _ => ?_
      simpa only [if_true, encode, toNat_ofNat_fld] using hw
  case h_3 hsel =>
    cases hu : (fld w 63 1 == 1)
    · exact Raw.sound_of_breach (.inr rfl)
    · rw [hsel, hu] at hw
      refine Raw.sound_of rfl fun _ _ _ _ _ => ?_
      simpa only [if_true, encode, toNat_ofNat_fld] using hw
  case h_4 => exact Raw.sound_of_breach (.inl rfl)

/-- Family 0 (R119). -/
theorem rawF0_sound {w op : Nat} {r : Raw} (hlt : w < 2 ^ 64) (hop : opcodeOf w = op) (hr : rawF0 op w = some r) : r.sound w := by
  unfold rawF0 at hr
  split at hr
  all_goals cases hr
  -- one, two and three sources
  case h_11 | h_12 | h_16 | h_24 | h_25 | h_26 | h_28 => exact raw1_sound hlt hop (fun _ _ _ => rfl) fun _ _ _ => rfl
  case h_6 | h_23 | h_27 => exact raw3_sound hlt hop (fun _ _ _ _ _ => rfl) fun _ _ _ _ _ => rfl
  -- ISETP and LEA
  case h_29 | h_30 =>
    exact rawA_sound hlt hop (fun _ => rfl) fun x _ hx => by
        simp [encode, isetp_mods_read hx.mods, icmpOf_eq_code (Nat.lt_succ_of_le hx.sel)]
  case h_31 => exact rawA_sound hlt hop (fun _ => rfl) fun x _ hx => by simp [encode, bit_mods_read hx.mods, hx.c.resolve_left Bool.false_ne_true]
  -- MOVI and the immediate forms
  case h_43 => exact rawMovi_sound hlt hop
  case h_44 | h_45 | h_46 | h_47 | h_48 | h_49 | h_50 | h_51 | h_52 => exact rawImm_sound hlt hop (fun _ _ _ _ _ => rfl) fun _ _ _ _ _ => rfl
  all_goals exact raw2_sound hlt hop (fun _ _ _ _ => rfl) fun _ _ _ _ => rfl

/-- A format A word with no sel and two or three operands unused or in use, whose mod bits are the instruction's. -/
theorem modsA_sound {w op mask : Nat} {useA useB useC : Bool} {mk : AFields → Instr} (hlt : w < 2 ^ 64) (hop : opcodeOf w = op)
    (hev : ∀ x, (mk x).isEvent = false)
    (henc : ∀ x : AFields, (useB = true ∨ x.b = .zero) → (useC = true ∨ x.c = .zero) → encode (mk x) = encA op x.g x.mods.toNat 0 x.d x.a x.b x.c) :
    (rawA w useA useB useC mask 0 mk).sound w :=
  rawA_sound hlt hop hev fun x _ hx => by rw [henc x hx.b hx.c, sel_eq_zero hx.sel]; rfl

/-- Family 1 (R120). -/
theorem rawF1_sound {w op : Nat} {r : Raw} (hlt : w < 2 ^ 64) (hop : opcodeOf w = op) (hfam : op / 64 = 1) (hr : rawF1 op w = some r) : r.sound w := by
  unfold rawF1 at hr
  split at hr
  case isTrue h50 =>
    have hcode : (rmodeOf (op % 16 / 4)).code = op % 16 / 4 := rmodeOf_eq_code (by omega)
    dsimp only at hr
    split at hr <;> cases hr
    case h_1 h =>
      exact modsA_sound hlt hop (fun _ => rfl) fun x _ hc => by
        rw [encode, hcode, hc.resolve_left Bool.false_ne_true, show 0x040 + 4 * (op % 16 / 4) = op by omega]
    case h_2 h =>
      exact modsA_sound hlt hop (fun _ => rfl) fun x _ hc => by
        rw [encode, hcode, hc.resolve_left Bool.false_ne_true, show 0x041 + 4 * (op % 16 / 4) = op by omega]
    case h_3 h =>
      exact modsA_sound hlt hop (fun _ => rfl) fun x _ hc => by
        rw [encode, hcode, hc.resolve_left Bool.false_ne_true, show 0x042 + 4 * (op % 16 / 4) = op by omega]
    case h_4 h0 h1 h2 =>
      have h0' : op % 4 ≠ 0 := h0
      have h1' : op % 4 ≠ 1 := h1
      have h2' : op % 4 ≠ 2 := h2
      exact modsA_sound hlt hop (fun _ => rfl) fun x _ _ => by
        rw [encode, hcode, show 0x043 + 4 * (op % 16 / 4) = op by omega]
  case isFalse =>
    split at hr <;> cases hr
    case h_4 =>
      exact rawA_sound hlt hop (fun _ => rfl) fun x _ _ => by simp only [encode, fsetp_mods_read, fcmpOf_eq_code x.sel.isLt]
    case h_5 =>
      exact rawA_sound hlt hop (fun _ => rfl) fun x _ hx => by
          simp only [encode, rmodeOf_eq_code (Nat.lt_succ_of_le hx.sel), hx.b.resolve_left Bool.false_ne_true, hx.c.resolve_left Bool.false_ne_true]
    case h_12 | h_13 => exact rawImm_sound hlt hop (fun _ _ _ _ _ => rfl) fun _ _ _ _ _ => rfl
    case h_3 | h_8 | h_9 | h_10 | h_11 => exact modsA_sound hlt hop (fun _ => rfl) fun _ _ _ => rfl
    all_goals exact modsA_sound hlt hop (fun _ => rfl) fun x _ hc => by rw [hc.resolve_left Bool.false_ne_true]; rfl

/-- The opcode and the mod bits of CVT name its formats, its element and its rounding (R121, R159). -/
theorem cvt_read {d j : Nat} (hd : d < 8) (hj : j < 7) : 0x080 + 7 * (fmtOf d).code +
    (if (fmtOf (if j < d then j else j + 1)).code < (fmtOf d).code then (fmtOf (if j < d then j else j + 1)).code
      else (fmtOf (if j < d then j else j + 1)).code - 1) = 0x080 + 7 * d + j := by
  have hsrc : (fmtOf (if j < d then j else j + 1)).code = if j < d then j else j + 1 := fmtOf_eq_code (by split <;> omega)
  rw [hsrc, fmtOf_eq_code hd]
  by_cases hjd : j < d
  · simp [hjd]
  · simp only [hjd, if_false, if_neg (by omega : ¬ j + 1 < d)]
    omega

theorem cvt_mods_read (m : BitVec 6) : (rmodeOf (m.toNat % 4)).code + 4 * (BitVec.ofNat 3 (m.toNat / 4 % 8)).toNat + 32 * bit (m.toNat / 32 == 1) = m.toNat := by
  revert m; decide

/-- Mod bit 0 in a word that uses no other. -/
theorem mods_of_bit {w : Nat} {x : AFields} (hx : x.mods.toNat = fld w 58 6) (hm : modsOk (BitVec.ofNat 6 1) x.mods = true) :
    x.mods.toNat = fld w 58 1 := by
  have hlow : fld w 58 1 = fld w 58 6 % 2 := by simp only [fld]; omega
  have : ∀ m : BitVec 6, modsOk (BitVec.ofNat 6 1) m = true → m.toNat = m.toNat % 2 := by decide
  rw [hlow, ← hx]
  exact this _ hm

theorem fld_one_eq_zero {w p : Nat} (h : ¬ fld w p 1 = 1) : fld w p 1 = 0 := by
  have := fld_lt w p 1
  omega

/-- Family 2 (R121). -/
theorem rawF2_sound {w op : Nat} {r : Raw} (hlt : w < 2 ^ 64) (hop : opcodeOf w = op) (hfam : op / 64 = 2) (hr : rawF2 op w = some r) : r.sound w := by
  unfold rawF2 at hr
  split at hr
  case isTrue hcvt =>
    cases hr
    have hcode := cvt_read (d := (op - 0x80) / 7) (j := (op - 0x80) % 7) (by omega) (by omega)
    refine rawA_sound hlt hop (fun _ => rfl) fun x _ hx => ?_
    rw [encode, hcode, cvt_mods_read, hx.b.resolve_left Bool.false_ne_true, hx.c.resolve_left Bool.false_ne_true,
      show 0x080 + 7 * ((op - 0x80) / 7) + (op - 0x80) % 7 = op by omega]
  case isFalse =>
    split at hr
    case h_1 =>
      split at hr <;> cases hr
      case isTrue hbit =>
        exact rawA_sound hlt hop (fun _ => rfl) fun x hm hx => by
          rw [encode, mods_of_bit hm hx.mods, hbit, hx.b.resolve_left Bool.false_ne_true]
      case isFalse hbit =>
        exact rawA_sound hlt hop (fun _ => rfl) fun x hm hx => by
          rw [encode, mods_of_bit hm hx.mods, fld_one_eq_zero hbit]
    all_goals cases hr
    case h_2 => exact rawA_sound hlt hop (fun _ => rfl) fun x _ hx => by rw [encode, modsOk_none hx.mods]; rfl
    case h_3 =>
      exact rawA_sound hlt hop (fun _ => rfl) fun x _ hx => by
        rw [encode, modsOk_none hx.mods, hx.b.resolve_left Bool.false_ne_true, hx.c.resolve_left Bool.false_ne_true]; rfl
    case h_4 => exact modsA_sound hlt hop (fun _ => rfl) fun _ _ _ => rfl
    all_goals exact modsA_sound hlt hop (fun _ => rfl) fun x hb hc => by
                rw [hb.resolve_left Bool.false_ne_true, hc.resolve_left Bool.false_ne_true]; rfl

/-- RPT (R174). -/
theorem rawRpt_sound {w : Nat} (hlt : w < 2 ^ 64) (hop : opcodeOf w = 0xFF) : (rawRpt w).sound w := by
  refine Raw.sound_of rfl fun h1 _ _ _ _ => ?_
  have hw := encB_of_word hlt
  simp only [rawRpt, Bool.or_eq_false_iff, decide_eq_false_iff_not, not_not] at h1
  obtain ⟨⟨⟨hu, hd⟩, ha⟩, hz⟩ := h1
  have himm : fld w 31 32 = fld w 31 6 + 64 * fld w 37 4 + 1024 * fld w 41 4 := by simp only [fld] at hz ⊢; omega
  rw [hop, hu, hd, ha, himm] at hw
  simp only [rawRpt, encode, toNat_ofNat_fld]
  exact hw

/-- Family 3 (R122). -/
theorem rawF3_sound {w op : Nat} {r : Raw} (hlt : w < 2 ^ 64) (hop : opcodeOf w = op) (hr : rawF3 op w = some r) : r.sound w := by
  unfold rawF3 at hr
  split at hr
  case isTrue h =>
    cases hr
    exact raw1_sound hlt hop (fun _ _ _ => rfl) fun _ _ _ => by
        rw [encode, redOpOf_eq_code (by omega : op - 0xC8 < 11), show 0x0C8 + (op - 0xC8) = op by omega]
  case isFalse =>
  split at hr
  case isTrue h =>
    cases hr
    exact raw1_sound hlt hop (fun _ _ _ => rfl) fun _ _ _ => by
        rw [encode, redOpOf_eq_code (by omega : op - 0xD8 < 11), show 0x0D8 + (op - 0xD8) = op by omega]
  case isFalse =>
  split at hr
  case isTrue h =>
    cases hr
    exact raw1_sound hlt hop (fun _ _ _ => rfl) fun _ _ _ => by
        rw [encode, redOpOf_eq_code (by omega : op - 0xE8 < 11), show 0x0E8 + (op - 0xE8) = op by omega]
  case isFalse =>
  split at hr
  all_goals cases hr
  case h_1 => exact raw3_sound hlt hop (fun _ _ _ _ _ => rfl) fun _ _ _ _ _ => rfl
  case h_2 => exact raw1_sound hlt hop (fun _ _ _ => rfl) fun _ _ _ => rfl
  case h_3 | h_4 | h_5 | h_9 | h_10 =>
    exact rawA_sound hlt hop (fun _ => rfl) fun x _ hx => by
      rw [encode, bit_mods_read hx.mods, sel_eq_zero hx.sel, hx.b.resolve_left Bool.false_ne_true, hx.c.resolve_left Bool.false_ne_true]; rfl
  case h_6 | h_7 | h_8 =>
    exact rawA_sound hlt hop (fun _ => rfl) fun x _ hx => by
      rw [encode, bits_mods_read hx.mods, sel_eq_zero hx.sel, hx.c.resolve_left Bool.false_ne_true]; rfl
  case h_11 | h_12 =>
    exact rawA_sound hlt hop (fun _ => rfl) fun x _ hx => by
      rw [encode, idxFieldOf_eq_code (Nat.lt_succ_of_le hx.sel), modsOk_none hx.mods, hx.b.resolve_left Bool.false_ne_true,
        hx.c.resolve_left Bool.false_ne_true]; rfl
  case h_13 => exact rawRpt_sound hlt hop

end Sys2Proof
end

section
/-! Encode after decode: families 4 to 7. -/
namespace Sys2Proof

/-- LD and LDA by the order field (R115, R123). -/
theorem rawLd_sound {w : Nat} {sz : Size} {sx : Bool} (hlt : w < 2 ^ 64) (hop : opcodeOf w = 0x100 + ldCode sz sx) : (rawLd w sz sx).sound w := by
  unfold rawLd
  split
  case h_1 ho =>
    refine Raw.sound_of rfl fun _ _ h3 _ _ => ?_
    exact encL_eq_word hlt hop ho (by simpa using h3)
  case h_2 ho =>
    refine Raw.sound_of rfl fun _ _ _ _ _ => ?_
    exact encL_eq_word hlt hop ho (scopeOf_eq_code (fld_lt w 36 2)).symm
  case h_3 => exact Raw.sound_of_breach (.inr rfl)
  case h_4 => exact Raw.sound_of_breach (.inl rfl)

/-- ST and STL by the order field (R115, R123). -/
theorem rawSt_sound {w : Nat} {sz : Size} (hlt : w < 2 ^ 64) (hop : opcodeOf w = 0x108 + stCode sz) : (rawSt w sz).sound w := by
  unfold rawSt
  split
  case h_1 ho =>
    refine Raw.sound_of rfl fun _ _ h3 _ _ => ?_
    exact encL_eq_word hlt hop ho (by simpa using h3)
  case h_2 => exact Raw.sound_of_breach (.inr rfl)
  case h_3 ho =>
    refine Raw.sound_of rfl fun _ _ _ _ _ => ?_
    exact encL_eq_word hlt hop ho (scopeOf_eq_code (fld_lt w 36 2)).symm
  case h_4 => exact Raw.sound_of_breach (.inl rfl)

theorem rawPref_sound {w : Nat} (hlt : w < 2 ^ 64) (hop : opcodeOf w = 0x110) : (rawPref w).sound w := by
  unfold rawPref
  dsimp only
  split
  case h_1 ho => exact Raw.sound_of rfl fun h1 _ _ _ _ => encL_eq_word hlt hop ho (by simpa using h1)
  case h_2 ho => exact Raw.sound_of rfl fun h1 _ _ _ _ => encL_eq_word hlt hop ho (by simpa using h1)
  case h_3 => exact Raw.sound_of_breach (.inl rfl)

theorem rawAtom_sound {w op : Nat} {mk : Guard → Scope → LArgs → Instr} (hlt : w < 2 ^ 64) (hop : opcodeOf w = op)
    (hev : ∀ g sc l, (mk g sc l).isEvent = false) (henc : ∀ g sc l, encode (mk g sc l) = encL op g 0 sc.code l) : (rawAtom w mk).sound w :=
  Raw.sound_of (hev _ _ _) fun h1 _ _ _ _ => by
    rw [rawAtom, henc]
    exact encL_eq_word hlt hop (by simpa [rawAtom] using h1) (scopeOf_eq_code (fld_lt w 36 2)).symm

/-- Family 4 (R123). -/
theorem rawF4_sound {w op : Nat} {r : Raw} (hlt : w < 2 ^ 64) (hop : opcodeOf w = op) (hr : rawF4 op w = some r) : r.sound w := by
  unfold rawF4 at hr
  split at hr
  all_goals cases hr
  case h_8 | h_9 | h_10 | h_11 | h_12 => exact rawSt_sound hlt hop
  case h_13 => exact rawPref_sound hlt hop
  case h_14 =>
    exact rawY_sound hlt hop (fun _ => rfl) fun y hy => by
      have hacq := hy.acq _ rfl
      have hrel := hy.rel _ rfl
      rw [Option.isSome_eq_false_iff, Option.isNone_iff_eq_none] at hacq hrel
      rw [encode, hacq, hrel, hy.cmp rfl, hy.d.resolve_left Bool.false_ne_true]; rfl
  case h_15 =>
    exact rawY_sound hlt hop (fun _ => rfl) fun y hy => by
      have hacq := hy.acq _ rfl
      rw [Option.isSome_eq_false_iff, Option.isNone_iff_eq_none] at hacq
      rw [encode, hacq, hy.c.resolve_left Bool.false_ne_true, hy.d.resolve_left Bool.false_ne_true]; rfl
  all_goals exact rawLd_sound hlt hop

theorem AcqPart.eq_none_of {y : YFields} {useA useB useC useD cmp7 : Bool} {okL : Option Bool}
    (hy : y.Meant useA useB useC useD cmp7 (some false) okL) : y.acq = none := by simpa using hy.acq _ rfl

theorem Rel.eq_some_of {y : YFields} {useA useB useC useD cmp7 : Bool} {okA : Option Bool}
    (hy : y.Meant useA useB useC useD cmp7 okA (some true)) : some (y.rel.getD .grp) = y.rel := by
  obtain ⟨sc, hsc⟩ := Option.isSome_iff_exists.mp (hy.rel _ rfl)
  rw [hsc]; rfl

/-- The sel of a WAIT word is its combination and its count (R200). -/
theorem wait_sel_read (k : BitVec 3) : 4 * bit (decide (4 ≤ k.toNat)) + (BitVec.ofNat 2 k.toNat).toNat = k.toNat := by revert k; decide

/-- Family 5 (R124). -/
theorem rawF5_sound {w op : Nat} {r : Raw} (hlt : w < 2 ^ 64) (hop : opcodeOf w = op) (hr : rawF5 op w = some r) : r.sound w := by
  unfold rawF5 at hr
  split at hr
  case isTrue h =>
    cases hr
    exact rawAtom_sound hlt hop (fun _ _ _ => rfl) fun _ _ _ => by
      rw [encode, atomVarOf_eq_code (by omega : op - 0x140 < 21), show 0x140 + (op - 0x140) = op by omega]
  case isFalse =>
  split at hr
  case isTrue h =>
    cases hr
    exact rawAtom_sound hlt hop (fun _ _ _ => rfl) fun _ _ _ => by
      rw [encode, atomVarOf_eq_code (by omega : op - 0x158 < 21), show 0x158 + (op - 0x158) = op by omega]
  case isFalse =>
  split at hr
  case h_6 =>
    split at hr <;> cases hr
    case isTrue hbit =>
      exact rawA_sound hlt hop (fun _ => rfl) fun x hm hx => by
        rw [encode, mods_of_bit hm hx.mods, hbit, hx.a.resolve_left Bool.false_ne_true, hx.b.resolve_left Bool.false_ne_true,
          hx.c.resolve_left Bool.false_ne_true]
    case isFalse hbit =>
      exact rawA_sound hlt hop (fun _ => rfl) fun x hm hx => by
        rw [encode, mods_of_bit hm hx.mods, fld_one_eq_zero hbit, hx.a.resolve_left Bool.false_ne_true, hx.b.resolve_left Bool.false_ne_true,
          hx.c.resolve_left Bool.false_ne_true]
  all_goals cases hr
  case h_1 =>
    exact rawY_sound hlt hop (fun _ => rfl) fun y hy => by
      rw [encode, Rel.eq_some_of hy, AcqPart.eq_none_of hy, hy.cmp rfl, hy.a.resolve_left Bool.false_ne_true, hy.b.resolve_left Bool.false_ne_true,
        hy.c.resolve_left Bool.false_ne_true]
      rfl
  case h_2 =>
    exact rawY_sound hlt hop (fun _ => rfl) fun y hy => by
      obtain ⟨q, hq⟩ := Option.isSome_iff_exists.mp (hy.acq _ rfl)
      have hrel : y.rel = none := by simpa using hy.rel _ rfl
      rw [encode, hq, hrel, hy.cmp rfl, hy.a.resolve_left Bool.false_ne_true, hy.b.resolve_left Bool.false_ne_true,
        hy.c.resolve_left Bool.false_ne_true, hy.d.resolve_left Bool.false_ne_true]
      rfl
  case h_3 =>
    exact rawY_sound hlt hop (fun _ => rfl) fun y hy => by
      rw [encode, Rel.eq_some_of hy, AcqPart.eq_none_of hy, hy.cmp rfl, hy.a.resolve_left Bool.false_ne_true, hy.b.resolve_left Bool.false_ne_true,
        hy.c.resolve_left Bool.false_ne_true, hy.d.resolve_left Bool.false_ne_true]
      rfl
  case h_4 =>
    refine Raw.sound_of rfl fun _ _ _ _ _ => ?_
    rw [encode, toNat_ofNat_fld, monCmpOf_eq_code (fld_lt w 36 2)]
    exact encL_eq_word hlt hop rfl rfl
  case h_5 => exact rawA_sound hlt hop (fun _ => rfl) fun x _ hx => by rw [encode, wait_sel_read, modsOk_none hx.mods]; rfl
  case h_7 | h_8 | h_9 =>
    exact rawA_sound hlt hop (fun _ => rfl) fun x _ hx => by
      rw [encode, modsOk_none hx.mods, hx.b.resolve_left Bool.false_ne_true, hx.c.resolve_left Bool.false_ne_true]; rfl
  all_goals exact rawY_sound hlt hop (fun _ => rfl) fun _ _ => rfl

/-- A readout or write that shows no breach (R218). -/
theorem encR_of_word {w op : Nat} (hlt : w < 2 ^ 64) (hop : opcodeOf w = op) (h : mBad w false false true true true false false true = false) :
    encR op (guardOf w) (rargsOf w) = w := by
  obtain ⟨hz, hp, hzb, -, -, -, htb, hta, -⟩ := mBad_eq_false h
  have hw := encM_of_word hlt hz
  simp only [reduceCtorEq, false_or] at hp hzb htb hta
  rw [hop, hp, hzb, htb, hta] at hw
  simp only [encR, rargsOf, toNat_ofNat_fld]
  exact hw

/-- Family 6 (R125). -/
theorem rawF6_sound {w op : Nat} {r : Raw} (hlt : w < 2 ^ 64) (hop : opcodeOf w = op) (hr : rawF6 op w = some r) : r.sound w := by
  unfold rawF6 at hr
  dsimp only at hr
  split at hr
  all_goals cases hr
  case h_5 | h_6 | h_7 | h_8 | h_9 => exact Raw.sound_of rfl fun h1 _ _ _ _ => encR_of_word hlt hop h1
  all_goals
    refine Raw.sound_of rfl fun h1 _ _ _ _ => ?_
    simp only [Bool.or_eq_false_iff, decide_eq_false_iff_not, Nat.not_le] at h1
  case h_1 =>
    obtain ⟨hz, hp, hzb, hl, -, hv, htb, -, hacc⟩ := mBad_eq_false h1
    have hw := encM_of_word hlt hz
    simp only [reduceCtorEq, false_or] at hp hzb hl hv htb hacc
    rw [hop, hp, hzb, hl, hv, htb, hacc] at hw
    simp only [encode, toNat_ofNat_fld]
    exact hw
  case h_2 =>
    obtain ⟨hz, -, -, hl, hs, hv, -, -, -⟩ := mBad_eq_false h1
    have hw := encM_of_word hlt hz
    simp only [reduceCtorEq, false_or] at hl hs hv
    rw [hop, hl, hs, hv] at hw
    simp only [encode, toNat_ofNat_fld]
    exact hw
  case h_3 =>
    obtain ⟨h1, hlsel⟩ := h1
    obtain ⟨hz, -, -, -, hs, -, -, -, -⟩ := mBad_eq_false h1
    have hw := encM_of_word hlt hz
    simp only [reduceCtorEq, false_or] at hs
    have hsel : (BitVec.ofNat 2 (fld w 40 4)).toNat = fld w 40 4 := by rw [BitVec.toNat_ofNat, Nat.mod_eq_of_lt hlsel]
    rw [hop, hs] at hw
    simp only [encode, toNat_ofNat_fld, hsel]
    exact hw
  case h_4 =>
    obtain ⟨hz, -, hzb, hl, hs, hv, htb, hta, -⟩ := mBad_eq_false h1
    have hw := encM_of_word hlt hz
    simp only [reduceCtorEq, false_or] at hzb hl hs hv htb hta
    rw [hop, hzb, hl, hs, hv, htb, hta] at hw
    simp only [encode, toNat_ofNat_fld]
    exact hw
  case h_10 =>
    obtain ⟨h1, hclr⟩ := h1
    obtain ⟨hz, hp, hzb, -, -, hv, htb, hta, -⟩ := mBad_eq_false h1
    have hw := encM_of_word hlt hz
    simp only [reduceCtorEq, false_or] at hp hzb hv htb hta
    have hsel : bit (fld w 40 4 == 1) = fld w 40 4 := by
      obtain h | h : fld w 40 4 = 0 ∨ fld w 40 4 = 1 := by omega
      all_goals simp [h, bit]
    rw [hop, hp, hzb, hv, htb, hta] at hw
    simp only [encode, toNat_ofNat_fld, hsel]
    exact hw

/-- The word of a format Z instruction with two register operands and a selector. -/
theorem encZ_ab {w op : Nat} (hlt : w < 2 ^ 64) (hop : opcodeOf w = op) (h : zBad w false false true false true true = false) :
    encZ op (guardOf w) 0 false (fld w 35 4) 0 (BitVec.ofNat 6 (fld w 21 6)).toNat (BitVec.ofNat 6 (fld w 15 6)).toNat = w := by
  obtain ⟨himm, hvb, -, hv, -, -⟩ := zBad_eq_false h
  have hw := encZ_of_word hlt
  simp only [reduceCtorEq, false_or] at himm hvb hv
  rw [hop, himm, hvb, hv] at hw
  simp only [toNat_ofNat_fld]
  exact hw

/-- The word of a format Z instruction with two register operands whose selector is known. -/
theorem encZ_ab_sel {w op sel : Nat} (hlt : w < 2 ^ 64) (hop : opcodeOf w = op) (hs : fld w 35 4 = sel) (h : zBad w false false true false true true = false) :
    encZ op (guardOf w) 0 false sel 0 (BitVec.ofNat 6 (fld w 21 6)).toNat (BitVec.ofNat 6 (fld w 15 6)).toNat = w := by
  rw [← hs]
  exact encZ_ab hlt hop h

/-- The word of a format Z instruction that uses no field, or its selector alone. -/
theorem encZ_sel {w op sel : Nat} (hlt : w < 2 ^ 64) (hop : opcodeOf w = op) (hs : fld w 35 4 = sel) (h : zBad w false false true false false false = false) :
    encZ op (guardOf w) 0 false sel 0 0 0 = w := by
  obtain ⟨himm, hvb, -, hv, hb, ha⟩ := zBad_eq_false h
  have hw := encZ_of_word hlt
  simp only [reduceCtorEq, false_or] at himm hvb hv hb ha
  rw [hop, himm, hvb, hv, hb, ha, hs] at hw
  exact hw

theorem encZ_none {w op : Nat} (hlt : w < 2 ^ 64) (hop : opcodeOf w = op) (h : zBad w false false false false false false = false) :
    encZ op (guardOf w) 0 false 0 0 0 0 = w := by
  obtain ⟨himm, hvb, hs, hv, hb, ha⟩ := zBad_eq_false h
  have hw := encZ_of_word hlt
  simp only [reduceCtorEq, false_or] at himm hvb hs hv hb ha
  rw [hop, himm, hvb, hs, hv, hb, ha] at hw
  exact hw

/-- The word of a format Z instruction with an immediate. -/
theorem encZ_imm {w op : Nat} {useB useA : Bool} (hlt : w < 2 ^ 64) (hop : opcodeOf w = op) (h : zBad w true false false false useB useA = false) :
    encZ op (guardOf w) (fld w 40 24) false 0 0 (fld w 21 6) (fld w 15 6) = w := by
  obtain ⟨-, hvb, hs, hv, -, -⟩ := zBad_eq_false h
  have hw := encZ_of_word hlt
  simp only [reduceCtorEq, false_or] at hvb hs hv
  rw [hop, hvb, hs, hv] at hw
  exact hw

/-- Jumps (R118, R233). -/
theorem encJ_eq_word {w op : Nat} (hlt : w < 2 ^ 64) (hop : opcodeOf w = op) (hz : fld w 55 9 = 0) :
    encJ op (guardOf w) (fld w 47 8) (fld w 15 32) = w := by
  subst hop
  exact encJ_of_word hlt hz

/-- Family 7 (R126). -/
theorem rawF7_sound {w op : Nat} {r : Raw} (hlt : w < 2 ^ 64) (hop : opcodeOf w = op) (hr : rawF7 op w = some r) : r.sound w := by
  unfold rawF7 at hr
  dsimp only at hr
  split at hr
  -- GETSYS, TLBINV, ICINV and SETVI, by a bit or the selector
  case h_13 =>
    split at hr <;> cases hr
    case isTrue hv =>
      refine Raw.sound_of rfl fun h1 _ h3 _ _ => ?_
      obtain ⟨himm, -, -, -, hb, ha⟩ := zBad_eq_false h1
      have hw := encZ_of_word hlt
      have hsel : fld w 35 4 < 11 := by simpa using h3
      simp only [reduceCtorEq, false_or] at himm hb ha
      rw [hop, himm, hb, ha, hv] at hw
      simp only [encode, toNat_ofNat_fld, sysValOf_eq_code hsel]
      exact hw
    case isFalse hv =>
      refine Raw.sound_of rfl fun h1 _ h3 _ _ => ?_
      obtain ⟨himm, -, -, hvr, hb, -⟩ := zBad_eq_false h1
      have hw := encZ_of_word hlt
      have hsel : fld w 35 4 < 11 := by simpa using h3
      simp only [reduceCtorEq, false_or] at himm hvr hb
      rw [hop, himm, hvr, hb, fld_one_eq_zero hv] at hw
      simp only [encode, toNat_ofNat_fld, sysValOf_eq_code hsel]
      exact hw
  case h_17 =>
    split at hr <;> cases hr
    case h_1 hs => exact Raw.sound_of rfl fun h1 _ _ _ _ => encZ_ab_sel hlt hop hs h1
    case h_2 hs =>
      refine Raw.sound_of rfl fun h1 _ _ _ _ => ?_
      obtain ⟨himm, hvb, -, hv, -, ha⟩ := zBad_eq_false h1
      have hw := encZ_of_word hlt
      simp only [reduceCtorEq, false_or] at himm hvb hv ha
      rw [hop, himm, hvb, hv, ha, hs] at hw
      simp only [encode, toNat_ofNat_fld]
      exact hw
    case h_3 hs => exact Raw.sound_of rfl fun h1 _ _ _ _ => encZ_sel hlt hop hs h1
    case h_4 => exact Raw.sound_of_breach (.inl rfl)
  case h_18 =>
    split at hr <;> cases hr
    case h_1 hs => exact Raw.sound_of rfl fun h1 _ _ _ _ => encZ_ab_sel hlt hop hs h1
    case h_2 hs => exact Raw.sound_of rfl fun h1 _ _ _ _ => encZ_sel hlt hop hs h1
    case h_3 => exact Raw.sound_of_breach (.inl rfl)
  case h_19 =>
    split at hr <;> cases hr
    case h_8 => exact Raw.sound_of_breach (.inl rfl)
    case h_1 hs | h_2 hs | h_3 hs | h_4 hs | h_5 hs | h_6 hs | h_7 hs => exact Raw.sound_of rfl fun h1 _ _ _ _ => encZ_ab_sel hlt hop hs h1
  all_goals cases hr
  -- ELECT, SPAWN and SPAWNC
  case h_6 =>
    exact rawA_sound hlt hop (fun _ => rfl) fun x _ hx => by
      rw [encode, modsOk_none hx.mods, sel_eq_zero hx.sel, hx.a.resolve_left Bool.false_ne_true, hx.b.resolve_left Bool.false_ne_true,
        hx.c.resolve_left Bool.false_ne_true]
      rfl
  case h_7 =>
    exact rawY_sound hlt hop (fun _ => rfl) fun y hy => by
      rw [encode, AcqPart.eq_none_of hy, hy.cmp rfl, hy.c.resolve_left Bool.false_ne_true, hy.d.resolve_left Bool.false_ne_true]; rfl
  case h_8 =>
    exact rawY_sound hlt hop (fun _ => rfl) fun y hy => by
      rw [encode, AcqPart.eq_none_of hy, hy.cmp rfl, hy.d.resolve_left Bool.false_ne_true]; rfl
  all_goals
    refine Raw.sound_of rfl fun h1 _ _ _ _ => ?_
    simp only [Bool.or_eq_false_iff, decide_eq_false_iff_not, not_not, Nat.not_le] at h1
  case h_1 =>
    have hw := encJ_eq_word hlt hop h1.1
    rw [h1.2] at hw
    simpa only [encode, toNat_ofNat_fld] using hw
  case h_2 | h_4 =>
    have hw := encJ_eq_word hlt hop h1.1
    rw [h1.2] at hw
    simpa only [encode, toNat_ofNat_fld] using hw
  case h_3 => simpa only [encode, toNat_ofNat_fld] using encJ_eq_word hlt hop h1
  case h_5 | h_9 | h_11 | h_12 => exact encZ_none hlt hop h1
  case h_10 =>
    obtain ⟨-, -, -, -, hb, ha⟩ := zBad_eq_false h1
    have hw := encZ_imm hlt hop h1
    simp only [reduceCtorEq, false_or] at hb ha
    rw [hb, ha] at hw
    simpa only [encode, toNat_ofNat_fld] using hw
  case h_14 =>
    obtain ⟨-, -, -, -, hb, -⟩ := zBad_eq_false h1
    have hw := encZ_imm hlt hop h1
    simp only [reduceCtorEq, false_or] at hb
    rw [hb] at hw
    simpa only [encode, toNat_ofNat_fld] using hw
  case h_15 =>
    obtain ⟨h1, hseg⟩ := h1
    have hsel : (BitVec.ofNat 3 (fld w 35 4)).toNat = fld w 35 4 := by rw [BitVec.toNat_ofNat, Nat.mod_eq_of_lt (by omega)]
    rw [encode, hsel]
    exact encZ_ab hlt hop h1
  case h_16 =>
    obtain ⟨h1, hentry⟩ := h1
    have himm : (BitVec.ofNat 4 (fld w 40 24)).toNat = fld w 40 24 := by rw [BitVec.toNat_ofNat, Nat.mod_eq_of_lt hentry]
    rw [encode, himm]
    simpa only [toNat_ofNat_fld] using encZ_imm hlt hop h1

/-- Whatever is read from a word gives it back, if it was read without a breach. -/
theorem rawOf_sound {w : Nat} {r : Raw} (hlt : w < 2 ^ 64) (hr : rawOf w = some r) : r.sound w := by
  unfold rawOf at hr
  dsimp only at hr
  split at hr
  case h_1 => exact rawF0_sound hlt rfl hr
  case h_2 hfam => exact rawF1_sound hlt rfl hfam hr
  case h_3 hfam => exact rawF2_sound hlt rfl hfam hr
  case h_4 => exact rawF3_sound hlt rfl hr
  case h_5 => exact rawF4_sound hlt rfl hr
  case h_6 => exact rawF5_sound hlt rfl hr
  case h_7 => exact rawF6_sound hlt rfl hr
  case h_8 => exact rawF7_sound hlt rfl hr

/-- Settles O54: whatever the opcode, the fields that were read without a breach make up the word again. -/
theorem decodeEncode : Obligations.DecodeEncode := by
  unfold Obligations.DecodeEncode
  intro w i hlt h
  unfold decodeWord at h
  split at h
  case h_1 => cases h
  case h_2 r hr => exact rawOf_sound hlt hr i h

/-- Refutes O53: R116 has a CPY word leave its fourth register field 0, and the decoder refuses one that does not with subcode 1; `Instr.wf` does
not ask it of the instruction, so that a CPY with `ud` = 1 is well-formed, has that bit in its word, and does not decode. -/
theorem not_encodeDecode : ¬ Obligations.EncodeDecode := by
  unfold Obligations.EncodeDecode
  intro h
  have hwf : (Instr.cpy .always ⟨none, none, 0, 1, 0, 0, 0⟩).wf = true := by decide
  have hrefused : decodeWord (encode (.cpy .always ⟨none, none, 0, 1, 0, 0, 0⟩)) = .error 1 := by decide
  have hread := (h _ hwf).2
  rw [hrefused] at hread
  cases hread

end Sys2Proof
end

section
/-! Family 0 over 32-bit words (R144): the model's arithmetic over numbers is that of bit vectors. -/
namespace Sys2Proof.Machine

/-- The signed reading of a word's number is the word's integer. -/
theorem signed_toNat {n : Nat} (hn : 0 < n) (u : BitVec n) : signed n u.toNat = u.toInt := by
  have hlt : u.toNat % 2 ^ n = u.toNat := Nat.mod_eq_of_lt u.isLt
  have htwo : 2 ^ n = 2 * 2 ^ (n - 1) := (mul_pow_sub_one hn.ne' 2).symm
  rw [signed, hlt, BitVec.toInt_eq_toNat_cond]
  refine if_congr (by omega) rfl ?_
  push_cast
  rfl

theorem s32_toNat (u : Word) : s32 u.toNat = u.toInt := signed_toNat (by decide) u

/-- An integer reduced modulo 2^32 is its word's number. -/
theorem wi32_eq_ofInt (i : Int) : wi32 i = (BitVec.ofInt 32 i).toNat := by
  simp [wi32, BitVec.toNat_ofInt]

theorem wi32_toInt (u : Word) : wi32 u.toInt = u.toNat := by rw [wi32_eq_ofInt, BitVec.ofInt_toInt]

theorem w32_eq_ofNat (n : Nat) : w32 n = (BitVec.ofNat 32 n).toNat := by rw [BitVec.toNat_ofNat, w32]

theorem w32_add_toNat (u v : Word) : w32 (u.toNat + v.toNat) = (u + v).toNat := (BitVec.toNat_add u v).symm

theorem w32_mul_toNat (u v : Word) : w32 (u.toNat * v.toNat) = (u * v).toNat := (BitVec.toNat_mul u v).symm

theorem w32_mul_add_toNat (u v w : Word) : w32 (u.toNat * v.toNat + w.toNat) = (u * v + w).toNat := by
  rw [BitVec.toNat_add, BitVec.toNat_mul, Nat.mod_add_mod, w32]

theorem wi32_sub_toNat (u v : Word) : wi32 ((u.toNat : Int) - v.toNat) = (u - v).toNat := by
  have := u.isLt
  have := v.isLt
  simp only [wi32, BitVec.toNat_sub]
  omega

theorem wi32_neg_toNat (u : Word) : wi32 (-(u.toNat : Int)) = (0 - u).toNat := by
  rw [← wi32_sub_toNat]
  simp

/-- The high half of a 64-bit product that does not wrap. -/
theorem mulh_unsigned (u v : Word) : u.toNat * v.toNat / 2 ^ 32 = (wordMulHigh false u v).toNat := by
  have hmul : u.toNat * v.toNat < 2 ^ 64 := calc
    u.toNat * v.toNat < 2 ^ 32 * 2 ^ 32 := Nat.mul_lt_mul'' u.isLt v.isLt
    _ = 2 ^ 64 := by norm_num
  have hu : u.toNat % 2 ^ 64 = u.toNat := Nat.mod_eq_of_lt (by have := u.isLt; omega)
  have hv : v.toNat % 2 ^ 64 = v.toNat := Nat.mod_eq_of_lt (by have := v.isLt; omega)
  simp only [wordMulHigh, Bool.false_eq_true, if_false, BitVec.extractLsb'_toNat, BitVec.toNat_mul, BitVec.toNat_setWidth, Nat.shiftRight_eq_div_pow,
    hu, hv, Nat.mod_eq_of_lt hmul]
  omega

/-- The high half of a signed product, whose bits lie between those of two sign-extended words. -/
theorem mulh_signed (u v : Word) : wi32 (s32 u.toNat * s32 v.toNat / 2 ^ 32) = (wordMulHigh true u v).toNat := by
  have hprod : ((u.signExtend 64 * v.signExtend 64).toNat : Int) = u.toInt * v.toInt % 2 ^ 64 := by
    have hmul := BitVec.toInt_mul (x := u.signExtend 64) (y := v.signExtend 64)
    rw [BitVec.toInt_signExtend_of_le (by decide), BitVec.toInt_signExtend_of_le (by decide)] at hmul
    rw [BitVec.toInt_eq_toNat_bmod] at hmul
    have hmod := congrArg (· % ((2 ^ 64 : Nat) : Int)) hmul
    simp only [Int.bmod_emod] at hmod
    have := (u.signExtend 64 * v.signExtend 64).isLt
    omega
  rw [s32_toNat, s32_toNat, wordMulHigh, if_pos rfl, BitVec.extractLsb'_toNat, Nat.shiftRight_eq_div_pow, wi32]
  generalize u.toInt * v.toInt = p at hprod ⊢
  omega

/-- The lesser or greater of two values of a width (R144). -/
theorem minMax_min {n : Nat} (hn : 0 < n) (sgn : Bool) (u v : BitVec n) : minMax n sgn false u.toNat v.toNat = (wordMin sgn u v).toNat := by
  cases sgn
  · have h : v.ult u = decide (v.toNat < u.toNat) := rfl
    simp only [minMax, pickExt, wordMin, Bool.false_eq_true, if_false, h, decide_eq_false_iff_not, decide_eq_true_eq]
    split <;> split <;> omega
  · have h : v.slt u = decide (v.toInt < u.toInt) := rfl
    simp only [minMax, pickExt, wordMin, if_true, signed_toNat hn, h, decide_eq_false_iff_not, decide_eq_true_eq]
    rcases lt_trichotomy u.toInt v.toInt with hlt | heq | hgt
    · simp [hlt, not_lt.mpr hlt.le]
    · simp [BitVec.toInt_inj.mp heq]
    · simp [hgt, hgt.le]

theorem minMax_max {n : Nat} (hn : 0 < n) (sgn : Bool) (u v : BitVec n) : minMax n sgn true u.toNat v.toNat = (wordMax sgn u v).toNat := by
  cases sgn
  · have h : u.ult v = decide (u.toNat < v.toNat) := rfl
    simp only [minMax, pickExt, wordMax, Bool.false_eq_true, if_false, h, decide_eq_true_eq]
    split <;> rfl
  · have h : u.slt v = decide (u.toInt < v.toInt) := rfl
    simp only [minMax, pickExt, wordMax, if_true, signed_toNat hn, h, decide_eq_true_eq]
    split <;> rfl

theorem iabs_toNat (u : Word) : (if s32 u.toNat < 0 then wi32 (-(u.toNat : Int)) else u.toNat) = (if u.msb then 0 - u else u).toNat := by
  rw [s32_toNat, wi32_neg_toNat]
  by_cases h : u.msb = true
  · rw [if_pos (BitVec.msb_eq_toInt ▸ h |> of_decide_eq_true), if_pos h]
  · have hnn : ¬ u.toInt < 0 := fun hlt => h (by rw [BitVec.msb_eq_toInt]; exact decide_eq_true hlt)
    rw [if_neg hnn, if_neg h]

/-- Clamping to the signed range (R144). -/
theorem clamp_signed (i : Int) : wi32 (clampInt (-2 ^ 31) (2 ^ 31 - 1) i) = (wordClamp (wordLeast true) (wordGreatest true) i).toNat := by
  have h : clampInt (-2 ^ 31) (2 ^ 31 - 1) i = max (wordLeast true) (min (wordGreatest true) i) := by
    simp only [clampInt, wordLeast, wordGreatest, if_true]
    split
    · omega
    · split <;> omega
  rw [h, wi32_eq_ofInt, wordClamp]

theorem iaddSat_unsigned (u v : Word) : satAt (2 ^ 32 - 1) (u.toNat + v.toNat) =
    (wordClamp (wordLeast false) (wordGreatest false) (wordInt false u + wordInt false v)).toNat := by
  simp only [satAt, wordClamp, wordLeast, wordGreatest, wordInt, Bool.false_eq_true, if_false, BitVec.toNat_ofInt]
  split <;> omega

theorem isubSat_unsigned (u v : Word) : u.toNat - v.toNat =
    (wordClamp (wordLeast false) (wordGreatest false) (wordInt false u - wordInt false v)).toNat := by
  have := u.isLt
  simp only [wordClamp, wordLeast, wordGreatest, wordInt, Bool.false_eq_true, if_false, BitVec.toNat_ofInt]
  omega

/-- An operation on both halves of a word (R144), from what it does on one. -/
theorem halves_toNat {f : Nat → Nat → Nat} {h : BitVec 16 → BitVec 16 → BitVec 16} (hf : ∀ u v : BitVec 16, f u.toNat v.toNat % 2 ^ 16 = (h u v).toNat)
    (u v : Word) : halves f u.toNat v.toNat = (wordHalves h u v).toNat := by
  have lo (w : Word) : w.toNat % 2 ^ 16 = (w.extractLsb' 0 16).toNat := by simp
  have hi (w : Word) : w.toNat / 2 ^ 16 = (w.extractLsb' 16 16).toNat := by
    have := w.isLt
    rw [BitVec.extractLsb'_toNat, Nat.shiftRight_eq_div_pow]
    omega
  rw [halves, lo, lo, hi, hi, hf, hf, wordHalves, BitVec.toNat_append, ← Nat.shiftLeft_add_eq_or_of_lt (BitVec.isLt _), Nat.shiftLeft_eq, add_comm]

theorem half_sub (u v : BitVec 16) : (u.toNat + 2 ^ 16 - v.toNat) % 2 ^ 16 = (u - v).toNat := by
  have := u.isLt
  have := v.isLt
  rw [BitVec.toNat_sub]
  omega

/-- Settles O1: each row of R144's table is an equation between the model's arithmetic over numbers and that of words. -/
theorem integerArithmetic : Obligations.IntegerArithmetic := by
  unfold Obligations.IntegerArithmetic
  refine ⟨?iadd, ?isub, ?imul, ?imulh, ?imad, ?imin, ?imax, ?iabs, ?ineg, ?iaddSat, ?isubSat, ?iaddX2, ?isubX2, ?iminX2, ?imaxX2⟩
  case iadd => exact fun g d a b => laneWise_of_int (fun _ => exec_iadd) fun x l => by rw [x.src_eq, x.src_eq, w32_add_toNat]
  case isub => exact fun g d a b => laneWise_of_int (fun _ => exec_isub) fun x l => by rw [x.src_eq, x.src_eq, wi32_sub_toNat]
  case imul => exact fun g d a b => laneWise_of_int (fun _ => exec_imul) fun x l => by rw [x.src_eq, x.src_eq, w32_mul_toNat]
  case imulh =>
    intro g sgn d a b
    refine laneWise_of_int (fun _ => exec_imulh) fun x l => ?_
    rw [x.src_eq, x.src_eq]
    cases sgn
    · exact mulh_unsigned _ _
    · exact mulh_signed _ _
  case imad => exact fun g d a b c => laneWise_of_int (fun _ => exec_imad) fun x l => by rw [x.src_eq, x.src_eq, x.src_eq, w32_mul_add_toNat]
  case imin => exact fun g sgn d a b => laneWise_of_int (fun _ => exec_imin) fun x l => by rw [x.src_eq, x.src_eq, minMax_min (by decide)]
  case imax => exact fun g sgn d a b => laneWise_of_int (fun _ => exec_imax) fun x l => by rw [x.src_eq, x.src_eq, minMax_max (by decide)]
  case iabs => exact fun g d a => laneWise_of_int (fun _ => exec_iabs) fun x l => by rw [x.src_eq, iabs_toNat]
  case ineg => exact fun g d a => laneWise_of_int (fun _ => exec_ineg) fun x l => by rw [x.src_eq, wi32_neg_toNat]
  case iaddSat =>
    intro g sgn d a b
    refine laneWise_of_int (fun _ => exec_iaddSat) fun x l => ?_
    rw [x.src_eq, x.src_eq]
    cases sgn
    · exact iaddSat_unsigned _ _
    · rw [if_pos rfl, clamp_signed, s32_toNat, s32_toNat]; rfl
  case isubSat =>
    intro g sgn d a b
    refine laneWise_of_int (fun _ => exec_isubSat) fun x l => ?_
    rw [x.src_eq, x.src_eq]
    cases sgn
    · exact isubSat_unsigned _ _
    · rw [if_pos rfl, clamp_signed, s32_toNat, s32_toNat]; rfl
  case iaddX2 =>
    exact fun g d a b => laneWise_of_int (fun _ => exec_iaddX2) fun x l => by
      rw [x.src_eq, x.src_eq, halves_toNat fun u v => (BitVec.toNat_add u v).symm]
  case isubX2 => exact fun g d a b => laneWise_of_int (fun _ => exec_isubX2) fun x l => by rw [x.src_eq, x.src_eq, halves_toNat half_sub]
  case iminX2 =>
    exact fun g sgn d a b => laneWise_of_int (fun _ => exec_iminX2) fun x l => by
      rw [x.src_eq, x.src_eq, halves_toNat fun u v => by rw [minMax_min (by decide), Nat.mod_eq_of_lt (BitVec.isLt _)]]
  case imaxX2 =>
    exact fun g sgn d a b => laneWise_of_int (fun _ => exec_imaxX2) fun x l => by
      rw [x.src_eq, x.src_eq, halves_toNat fun u v => by rw [minMax_max (by decide), Nat.mod_eq_of_lt (BitVec.isLt _)]]

end Sys2Proof.Machine
end

section
/-! Family 0, bit by bit (R145 to R149): words whose bits a function gives, and the fields, counts and reversals that the model computes over numbers. -/
namespace Sys2Proof.Machine

/-- The bits of a number that is written bit by bit. -/
theorem getLsbD_ofBits (n : Nat) (f : Nat → Bool) (i : Nat) : (ofBits n f).getLsbD i = (decide (i < n) && f i) := by
  have hfold : ∀ m, ((List.range m).foldl (fun w j => if f j then w ||| (1#n <<< j) else w) 0#n).getLsbD i = (decide (i < n) && (decide (i < m) && f i)) := by
    intro m
    induction m with
    | zero => simp
    | succ m ih =>
      have hone : (1#n <<< m).getLsbD i = (decide (i < n) && decide (i = m)) := by
        simp only [BitVec.getLsbD_shiftLeft, BitVec.getLsbD_one]
        by_cases hn : i < n <;> by_cases hm : i = m <;> simp [hn, hm] <;> omega
      rw [List.range_succ, List.foldl_append]
      simp only [List.foldl_cons, List.foldl_nil]
      split
      case isTrue hf =>
        rw [BitVec.getLsbD_or, ih, hone]
        by_cases hm : i = m
        · subst hm; simp [hf]
        · have : i < m ↔ i < m + 1 := by omega
          simp [hm, this]
      case isFalse hf =>
        rw [ih]
        by_cases hm : i = m
        · subst hm; simp [hf]
        · have : i < m ↔ i < m + 1 := by omega
          simp [this]
  have h := hfold n
  rw [ofBits]
  refine h.trans ?_
  by_cases hn : i < n <;> simp [hn]

/-- A number is that of the word with its bits. -/
theorem eq_toNat_of_testBit {m : Nat} {f : Nat → Bool} (h : ∀ j, m.testBit j = (decide (j < 32) && f j)) : m = (wordOfBits f).toNat := by
  refine Nat.eq_of_testBit_eq fun j => ?_
  rw [h, BitVec.testBit_toNat, wordOfBits, getLsbD_ofBits]

/-! ### Logic and shifts (R145) -/

theorem not_toNat (u : Word) : 2 ^ 32 - 1 - u.toNat = (~~~u).toNat := BitVec.toNat_not.symm

theorem shl_toNat (u : Word) (n : Nat) : shlOp u.toNat n = (u <<< n).toNat := by
  rw [shlOp, BitVec.toNat_shiftLeft, Nat.shiftLeft_eq]
  split
  case isTrue h => exact (Nat.mod_eq_zero_of_dvd (Dvd.dvd.mul_left (Nat.pow_dvd_pow 2 h) _)).symm
  case isFalse => rfl

theorem shr_toNat (u : Word) (n : Nat) : shrOp u.toNat n = (u >>> n).toNat := by
  rw [shrOp, BitVec.toNat_ushiftRight, Nat.shiftRight_eq_div_pow]
  split
  case isTrue h => exact (Nat.div_eq_of_lt (lt_of_lt_of_le u.isLt (Nat.pow_le_pow_right (by decide) h))).symm
  case isFalse => rfl

theorem sar_toNat (u : Word) (n : Nat) : sarOp u.toNat n = (u.sshiftRight n).toNat := by
  rw [sarOp]
  split
  case isTrue h =>
    have hu := u.isLt
    have hpow : 2 ^ 32 ≤ 2 ^ n := Nat.pow_le_pow_right (by decide) h
    rw [BitVec.toNat_sshiftRight, Nat.shiftRight_eq_div_pow, Nat.shiftRight_eq_div_pow, Nat.div_eq_of_lt (by omega), Nat.div_eq_of_lt (by omega), BitVec.msb_eq_decide]
    simp
  case isFalse => rw [s32_toNat, BitVec.sshiftRight_eq, Int.shiftRight_eq_div_pow, wi32_eq_ofInt]; rfl

theorem rot_toNat (u : Word) (n : Nat) : rotOp u.toNat n = (u.rotateLeft (n % 32)).toNat := by
  have hlow : u.toNat >>> (32 - n % 32) < 2 ^ (n % 32) := by
    rw [Nat.shiftRight_eq_div_pow]
    refine Nat.div_lt_of_lt_mul ?_
    rw [← Nat.pow_add, Nat.sub_add_cancel (by omega)]
    exact u.isLt
  have hhigh : u.toNat <<< (n % 32) % 2 ^ 32 = (u.toNat % 2 ^ (32 - n % 32)) <<< (n % 32) := by
    rw [Nat.shiftLeft_eq, Nat.shiftLeft_eq, ← Nat.mul_mod_mul_right, ← Nat.pow_add, Nat.sub_add_cancel (by omega)]
  rw [BitVec.toNat_rotateLeft, Nat.mod_mod, hhigh, ← Nat.shiftLeft_add_eq_or_of_lt hlow, ← hhigh, rotOp, w32, Nat.shiftLeft_eq, Nat.shiftRight_eq_div_pow]

/-! ### Bit fields (R146) -/

/-- A word extended to more bits than any field of R146 reaches. -/
def wideWord (sgn : Bool) (u : Word) : BitVec 320 := if sgn then u.signExtend 320 else u.setWidth 320

theorem getLsbD_wideWord (sgn : Bool) (u : Word) {k : Nat} (hk : k < 320) : (wideWord sgn u).getLsbD k = wordBit sgn u k := by
  cases sgn
  · by_cases h : k < 32
    · simp [wideWord, wordBit, hk, h]
    · simp [wideWord, wordBit, h, BitVec.getLsbD_of_ge u k (by omega)]
  · rw [wideWord, if_pos rfl, BitVec.getLsbD_signExtend, wordBit]
    simp [hk]

/-- The extended word has the word's integer, modulo its width. -/
theorem wideWord_toNat (sgn : Bool) (u : Word) : ((wideWord sgn u).toNat : Int) = (if sgn then s32 u.toNat else (u.toNat : Int)) % 2 ^ 320 := by
  cases sgn
  · have := u.isLt
    simp only [wideWord, Bool.false_eq_true, if_false, BitVec.toNat_setWidth]
    omega
  · have h := BitVec.toInt_signExtend_of_le (x := u) (by decide : 32 ≤ 320)
    rw [BitVec.toInt_eq_toNat_bmod] at h
    have hmod := congrArg (· % ((2 ^ 320 : Nat) : Int)) h
    simp only [Int.bmod_emod] at hmod
    have hlt := (u.signExtend 320).isLt
    simp only [wideWord, if_true, s32_toNat]
    omega

/-- The high part of a remainder by a product. -/
theorem emod_mul_ediv (i : Int) {a b : Int} (ha : 0 < a) (hb : 0 < b) : i % (a * b) / a = i / a % b := by
  have hab : 0 < a * b := mul_pos ha hb
  have hi : i = i % (a * b) + a * (b * (i / (a * b))) := by rw [← mul_assoc, Int.emod_add_mul_ediv]
  have hlo : 0 ≤ i % (a * b) / a := Int.ediv_nonneg (Int.emod_nonneg _ hab.ne') ha.le
  have hhi : i % (a * b) / a < b := Int.ediv_lt_of_lt_mul ha (by rw [mul_comm b]; exact Int.emod_lt_of_pos _ hab)
  conv_rhs => rw [hi, Int.add_mul_ediv_left _ _ ha.ne', Int.add_mul_emod_self_left, Int.emod_eq_of_lt hlo hhi]

/-- A field of an integer is that of the extended word. -/
theorem field_wideWord (sgn : Bool) (u : Word) {pos len : Nat} (h : pos + len ≤ 320) :
    (if sgn then s32 u.toNat else (u.toNat : Int)) / 2 ^ pos % 2 ^ len = (((wideWord sgn u).toNat / 2 ^ pos % 2 ^ len : Nat) : Int) := by
  push_cast
  rw [wideWord_toNat]
  generalize (if sgn then s32 u.toNat else (u.toNat : Int)) = i
  have hsplit : (2 : Int) ^ 320 = 2 ^ pos * 2 ^ (320 - pos) := by rw [← pow_add, Nat.add_sub_cancel' (by omega)]
  have hdiv : i % 2 ^ 320 / 2 ^ pos = i / 2 ^ pos % 2 ^ (320 - pos) := by
    rw [hsplit, emod_mul_ediv i (by positivity) (by positivity)]
  have hdvd : (2 : Int) ^ len ∣ 2 ^ (320 - pos) := pow_dvd_pow 2 (by omega)
  rw [hdiv, Int.emod_emod_of_dvd _ hdvd]

/-- The bits of the model's BFE result: the field, filled with its last bit in the signed form. -/
theorem bfe_toNat (sgn : Bool) (u v : Word) : bfeOp sgn u.toNat v.toNat = (wordExtract sgn u v).toNat := by
  have hlen : fieldLen v ≤ 32 := Nat.min_le_right _ _
  have hpos : fieldPos v < 256 := Nat.mod_lt _ (by decide)
  have hfield := field_wideWord sgn u (pos := fieldPos v) (len := fieldLen v) (by omega)
  have hbits (j : Nat) (hj : j < fieldLen v) : ((wideWord sgn u).toNat / 2 ^ fieldPos v % 2 ^ fieldLen v).testBit j = wordBit sgn u (fieldPos v + j) := by
    rw [Nat.testBit_mod_two_pow, Nat.testBit_div_two_pow, BitVec.testBit_toNat, add_comm j, getLsbD_wideWord _ _ (by omega)]
    simp [hj]
  have hlt : (wideWord sgn u).toNat / 2 ^ fieldPos v % 2 ^ fieldLen v < 2 ^ fieldLen v := Nat.mod_lt _ (Nat.two_pow_pos _)
  have hop : bfeOp sgn u.toNat v.toNat =
      (let f : Int := (if sgn then s32 u.toNat else (u.toNat : Int)) / 2 ^ fieldPos v % 2 ^ fieldLen v
       if sgn && decide (0 < fieldLen v) && decide (2 ^ (fieldLen v - 1) ≤ f) then wi32 (f - 2 ^ fieldLen v) else wi32 f) := rfl
  rw [hop]
  simp only [hfield]
  generalize (wideWord sgn u).toNat / 2 ^ fieldPos v % 2 ^ fieldLen v = f at hbits hlt ⊢
  have h32 : 2 ^ fieldLen v ≤ 2 ^ 32 := Nat.pow_le_pow_right (by decide) hlen
  have hplain : wi32 (f : Int) = f := by simp only [wi32]; omega
  -- the last bit of the field is set when the field is at least half of its range
  have hlast : 0 < fieldLen v → (decide ((2 : Int) ^ (fieldLen v - 1) ≤ (f : Int)) = wordBit sgn u (fieldPos v + fieldLen v - 1)) := by
    intro hl
    have hb := hbits (fieldLen v - 1) (by omega)
    rw [show fieldPos v + (fieldLen v - 1) = fieldPos v + fieldLen v - 1 by omega, Nat.testBit_eq_decide_div_mod_eq] at hb
    have htwo : 2 ^ fieldLen v = 2 * 2 ^ (fieldLen v - 1) := (mul_pow_sub_one hl.ne' 2).symm
    have hdiv : f / 2 ^ (fieldLen v - 1) < 2 := Nat.div_lt_of_lt_mul (by rw [mul_comm]; omega)
    rw [← hb]
    have hge : f / 2 ^ (fieldLen v - 1) % 2 = 1 ↔ 2 ^ (fieldLen v - 1) ≤ f := by
      rw [Nat.mod_eq_of_lt hdiv, ← Nat.one_le_div_iff (Nat.two_pow_pos _)]
      omega
    rw [decide_eq_decide, hge]
    exact_mod_cast Iff.rfl
  refine eq_toNat_of_testBit fun j => ?_
  split
  case isTrue hneg =>
    simp only [Bool.and_eq_true, decide_eq_true_eq] at hneg
    obtain ⟨⟨rfl, hl⟩, hge⟩ := hneg
    have hfill := hlast hl
    rw [decide_eq_true hge] at hfill
    have hval : wi32 ((f : Int) - 2 ^ fieldLen v) = 2 ^ fieldLen v * (2 ^ (32 - fieldLen v) - 1) + f := by
      have hmul : 2 ^ fieldLen v * (2 ^ (32 - fieldLen v) - 1) = 2 ^ 32 - 2 ^ fieldLen v := by
        rw [Nat.mul_sub_one, ← Nat.pow_add, Nat.add_sub_cancel' hlen]
      have hp : (2 : Int) ^ fieldLen v = ((2 ^ fieldLen v : Nat) : Int) := by push_cast; rfl
      rw [hmul, wi32, hp]
      omega
    rw [hval, Nat.testBit_two_pow_mul_add _ hlt, Nat.testBit_two_pow_sub_one]
    by_cases hj : j < fieldLen v
    · simp [hj, hbits j hj, show j < 32 by omega]
    · have hj32 : j - fieldLen v < 32 - fieldLen v ↔ j < 32 := by omega
      simp [hj, hl, ← hfill, hj32]
  case isFalse hno =>
    rw [hplain]
    by_cases hj : j < fieldLen v
    · simp [hj, hbits j hj, show j < 32 by omega]
    · have hfill : (sgn && decide (0 < fieldLen v) && wordBit sgn u (fieldPos v + fieldLen v - 1)) = false := by
        rcases Nat.eq_zero_or_pos (fieldLen v) with h0 | hl
        · simp [h0]
        · rw [← hlast hl]
          simpa using hno
      rw [Nat.testBit_lt_two_pow (lt_of_lt_of_le hlt (Nat.pow_le_pow_right (by decide) (by omega))), if_neg hj, hfill, Bool.and_false]

/-- The bits of the model's BFI result: the field's bits from a, the others from b. -/
theorem bfi_toNat (u v w : Word) : bfiOp u.toNat v.toNat w.toNat = (wordInsert u v w).toNat := by
  refine eq_toNat_of_testBit fun j => ?_
  have hlen : fieldLen w ≤ 32 := Nat.min_le_right _ _
  have hmask : (w32 ((2 ^ fieldLen w - 1) * 2 ^ fieldPos w)).testBit j =
      (decide (j < 32) && decide (fieldPos w ≤ j ∧ j < fieldPos w + fieldLen w)) := by
    rw [w32, Nat.testBit_mod_two_pow, Nat.testBit_mul_two_pow, Nat.testBit_two_pow_sub_one]
    by_cases hp : fieldPos w ≤ j
    · have hj : j - fieldPos w < fieldLen w ↔ j < fieldPos w + fieldLen w := by omega
      simp [hp, hj]
    · simp [hp]
  have hlt : w32 ((2 ^ fieldLen w - 1) * 2 ^ fieldPos w) < 2 ^ 32 := Nat.mod_lt _ (by decide)
  have hrest : (2 ^ 32 - 1 - w32 ((2 ^ fieldLen w - 1) * 2 ^ fieldPos w)).testBit j =
      (decide (j < 32) && !decide (fieldPos w ≤ j ∧ j < fieldPos w + fieldLen w)) := by
    rw [Nat.sub_sub, add_comm 1, Nat.testBit_two_pow_sub_succ hlt, hmask]
    cases decide (j < 32) <;> simp
  have hop : bfiOp u.toNat v.toNat w.toNat = (v.toNat &&& (2 ^ 32 - 1 - w32 ((2 ^ fieldLen w - 1) * 2 ^ fieldPos w))) |||
      (u.toNat * 2 ^ fieldPos w &&& w32 ((2 ^ fieldLen w - 1) * 2 ^ fieldPos w)) := rfl
  rw [hop, Nat.testBit_or, Nat.testBit_and, Nat.testBit_and, hmask, hrest, Nat.testBit_mul_two_pow, BitVec.testBit_toNat, BitVec.testBit_toNat]
  by_cases hin : fieldPos w ≤ j ∧ j < fieldPos w + fieldLen w
  · simp [hin, Bool.and_comm]
  · simp [hin, Bool.and_comm]

/-! ### Counts and reversal (R147) -/

/-- The bits that the model lists are the word's. -/
theorem bits32_toNat (u : Word) : bits32 u.toNat = (List.range 32).map (fun i => bit (u.getLsbD i)) := by
  refine List.map_congr_left fun i _ => ?_
  rw [← BitVec.testBit_toNat, Nat.testBit_eq_decide_div_mod_eq, bit]
  have := Nat.mod_two_eq_zero_or_one (u.toNat / 2 ^ i)
  by_cases h : u.toNat / 2 ^ i % 2 = 1 <;> simp [h]
  omega

/-- A sum of bits counts those that are set. -/
theorem foldl_add_bits (l : List Nat) (p : Nat → Bool) (k : Nat) : (l.map (fun i => bit (p i))).foldl (· + ·) k = k + l.countP p := by
  induction l generalizing k with
  | nil => rfl
  | cons a t ih =>
    rw [List.map_cons, List.foldl_cons, ih]
    cases h : p a <;> simp [h, bit]
    omega

theorem popc_toNat (u : Word) : popcOp u.toNat = (wordPop u).toNat := by
  have hle : (List.range 32).countP u.getLsbD ≤ 32 := by simpa using List.countP_le_length (p := u.getLsbD) (l := List.range 32)
  rw [popcOp, bits32_toNat, foldl_add_bits, wordPop, BitVec.toNat_ofNat, Nat.mod_eq_of_lt (by omega), Nat.zero_add]

theorem clz_toNat (u : Word) : clzOp u.toNat = (wordLead u).toNat := by
  have hfind : ((List.range 32).find? u.getMsbD).getD 32 = clzOp u.toNat := by
    rw [clzOp]
    split
    case isTrue h0 =>
      have hu : u = 0 := BitVec.eq_of_toNat_eq h0
      subst hu
      rfl
    case isFalse h0 =>
      have hlog : u.toNat.log2 < 32 := (Nat.log2_lt h0).mpr u.isLt
      have hsome : (List.range 32).find? u.getMsbD = some (31 - u.toNat.log2) := by
        rw [List.find?_range_eq_some]
        refine ⟨?_, List.mem_range.mpr (by omega), fun j hj => ?_⟩
        · rw [BitVec.getMsbD_eq_getLsbD, ← BitVec.testBit_toNat, show 32 - 1 - (31 - u.toNat.log2) = u.toNat.log2 by omega, Nat.testBit_log2 h0]
          simp
          omega
        · rw [BitVec.getMsbD_eq_getLsbD, ← BitVec.testBit_toNat, Nat.testBit_lt_two_pow (lt_of_lt_of_le Nat.lt_log2_self
            (Nat.pow_le_pow_right (by decide) (by omega)))]
          simp
      rw [hsome]; rfl
  have hle : clzOp u.toNat ≤ 32 := by
    rw [clzOp]
    split <;> omega
  rw [wordLead, hfind, BitVec.toNat_ofNat, Nat.mod_eq_of_lt (by omega)]

/-- A number put together from bits, the first highest, has them in reverse order. -/
theorem testBit_foldl_double (p : Nat → Bool) (n j : Nat) :
    (((List.range n).map (fun i => bit (p i))).foldl (fun a b => 2 * a + b) 0).testBit j = (decide (j < n) && p (n - 1 - j)) := by
  induction n generalizing j with
  | zero => simp
  | succ n ih =>
    rw [List.range_succ, List.map_append, List.foldl_append]
    simp only [List.map_cons, List.map_nil, List.foldl_cons, List.foldl_nil]
    cases j with
    | zero => cases h : p n <;> simp [h, bit, Nat.testBit_zero]
    | succ j =>
      rw [Nat.testBit_succ]
      have hhalf : ∀ a b, b < 2 → (2 * a + b) / 2 = a := by omega
      rw [hhalf _ _ (bit_lt _), ih, show n + 1 - 1 - (j + 1) = n - 1 - j by omega]
      simp

theorem brev_toNat (u : Word) : brevOp u.toNat = (wordReverse u).toNat := by
  refine eq_toNat_of_testBit fun j => ?_
  rw [brevOp, bits32_toNat, testBit_foldl_double]

/-! ### Comparisons (R149) -/

theorem icmp_eq_wordCompare (sgn : Bool) (cmp : ICmp) (u v : Word) : icmpOp sgn cmp u.toNat v.toNat = wordCompare sgn cmp u v := by
  have heq : (u.toNat == v.toNat) = decide (wordInt sgn u = wordInt sgn v) := by
    rw [Bool.eq_iff_iff]
    cases sgn <;> simp [wordInt, BitVec.toInt_inj, BitVec.toNat_inj]
  have hlt : (if sgn then decide (s32 u.toNat < s32 v.toNat) else decide (u.toNat < v.toNat)) = decide (wordInt sgn u < wordInt sgn v) := by
    cases sgn <;> simp [wordInt, s32_toNat]
  simp only [icmpOp, hlt, bne, heq]
  rw [Bool.eq_iff_iff]
  cases cmp <;> simp [wordCompare] <;> omega

theorem bop_eq_combine (bop : Bop) (t c : Bool) : bopOp bop t c = combine bop t c := by
  cases bop <;> cases t <;> cases c <;> rfl

theorem bit_eq_predWord (b : Bool) : bit b = (predWord b).toNat := by cases b <;> rfl

theorem toNat_beq_one (w : Word) : (w.toNat == 1) = (w == 1) := by
  rw [Bool.eq_iff_iff, beq_iff_eq, beq_iff_eq, ← BitVec.toNat_inj]; rfl

/-- Settles O2: each operation of the model over numbers has the bits of the operation on words. -/
theorem logicFieldsAndCompares : Obligations.LogicFieldsAndCompares := by
  unfold Obligations.LogicFieldsAndCompares
  refine ⟨?and, ?or, ?xor, ?not, ?shl, ?shr, ?sar, ?rot, ?bfe, ?bfi, ?popc, ?clz, ?brev, ?sel, ?isetp⟩
  case and => exact fun g d a b => laneWise_of_int (fun _ => exec_and) fun x l => by rw [x.src_eq, x.src_eq]; exact (BitVec.toNat_and ..).symm
  case or => exact fun g d a b => laneWise_of_int (fun _ => exec_or) fun x l => by rw [x.src_eq, x.src_eq]; exact (BitVec.toNat_or ..).symm
  case xor => exact fun g d a b => laneWise_of_int (fun _ => exec_xor) fun x l => by rw [x.src_eq, x.src_eq]; exact (BitVec.toNat_xor ..).symm
  case not => exact fun g d a => laneWise_of_int (fun _ => exec_not) fun x l => by rw [x.src_eq, not_toNat]
  case shl => exact fun g d a b => laneWise_of_int (fun _ => exec_shl) fun x l => by rw [x.src_eq, x.src_eq, shl_toNat]
  case shr => exact fun g d a b => laneWise_of_int (fun _ => exec_shr) fun x l => by rw [x.src_eq, x.src_eq, shr_toNat]
  case sar => exact fun g d a b => laneWise_of_int (fun _ => exec_sar) fun x l => by rw [x.src_eq, x.src_eq, sar_toNat]
  case rot => exact fun g d a b => laneWise_of_int (fun _ => exec_rot) fun x l => by rw [x.src_eq, x.src_eq, rot_toNat]
  case bfe => exact fun g sgn d a b => laneWise_of_int (fun _ => exec_bfe) fun x l => by rw [x.src_eq, x.src_eq, bfe_toNat]
  case bfi => exact fun g d a b c => laneWise_of_int (fun _ => exec_bfi) fun x l => by rw [x.src_eq, x.src_eq, x.src_eq, bfi_toNat]
  case popc => exact fun g d a => laneWise_of_int (fun _ => exec_popc) fun x l => by rw [x.src_eq, popc_toNat]
  case clz => exact fun g d a => laneWise_of_int (fun _ => exec_clz) fun x l => by rw [x.src_eq, clz_toNat]
  case brev => exact fun g d a => laneWise_of_int (fun _ => exec_brev) fun x l => by rw [x.src_eq, brev_toNat]
  case sel =>
    intro g d a b n
    refine laneWise_of_int (fun _ => exec_sel) fun x l => ?_
    rw [x.src_eq a, x.src_eq b, Ctx.src]
    cases x.g.pget n.toNat l <;> rfl
  case isetp =>
    exact fun g sgn bop cmp d a b c => laneWise_of_int (fun _ => exec_isetp) fun x l => by
      rw [x.src_eq, x.src_eq, x.src_eq, icmp_eq_wordCompare, toNat_beq_one, bop_eq_combine, bit_eq_predWord]

end Sys2Proof.Machine
end

section
/-! MOV and the index fields (R148, R173): a field of a word replaced and read, and instructions whose effect changes their group in place. -/
namespace Sys2Proof.Machine

/-- The bits of a number whose field at `lo` of width `n` is replaced. -/
theorem testBit_replace_fld (old val lo n j : Nat) : (old - fld old lo n * 2 ^ lo + val % 2 ^ n * 2 ^ lo).testBit j =
    if lo ≤ j ∧ j < lo + n then val.testBit (j - lo) else old.testBit j := by
  have hlow : old % 2 ^ lo < 2 ^ lo := Nat.mod_lt _ (Nat.two_pow_pos _)
  have hmid : val % 2 ^ n < 2 ^ n := Nat.mod_lt _ (Nat.two_pow_pos _)
  have hold : old = 2 ^ lo * (2 ^ n * (old / 2 ^ lo / 2 ^ n) + fld old lo n) + old % 2 ^ lo := by
    rw [fld, Nat.div_add_mod, Nat.div_add_mod]
  have hnew : old - fld old lo n * 2 ^ lo + val % 2 ^ n * 2 ^ lo = 2 ^ lo * (2 ^ n * (old / 2 ^ lo / 2 ^ n) + val % 2 ^ n) + old % 2 ^ lo := by
    have hsplit : ∀ x, 2 ^ lo * (2 ^ n * (old / 2 ^ lo / 2 ^ n) + x) = 2 ^ lo * (2 ^ n * (old / 2 ^ lo / 2 ^ n)) + x * 2 ^ lo := fun x => by ring
    rw [hsplit] at hold ⊢
    omega
  rw [hnew, Nat.testBit_two_pow_mul_add _ hlow, Nat.testBit_two_pow_mul_add _ hmid, Nat.testBit_mod_two_pow, Nat.testBit_mod_two_pow,
    Nat.testBit_div_two_pow, Nat.testBit_div_two_pow]
  by_cases h1 : j < lo
  · have hout : ¬ (lo ≤ j ∧ j < lo + n) := by omega
    simp [h1, hout]
  · by_cases h2 : j - lo < n
    · have hin : lo ≤ j ∧ j < lo + n := by omega
      simp [h1, h2, hin]
    · have hout : ¬ (lo ≤ j ∧ j < lo + n) := by omega
      rw [if_neg h1, if_neg h2, if_neg hout]
      congr 1
      omega

/-- IDXSET on a word (R173). -/
theorem idxPut_toNat (f : IdxField) (old val : Word) : idxPut f old.toNat val.toNat = (withBits (idxPlace f).1 (idxPlace f).2 old val).toNat := by
  refine eq_toNat_of_testBit fun j => ?_
  have hplace : (idxPlace f).1 + (idxPlace f).2 ≤ 32 := by cases f <;> decide
  rw [idxPut]
  dsimp only
  rw [testBit_replace_fld, BitVec.testBit_toNat, BitVec.testBit_toNat]
  split
  case isTrue h => simp [show j < 32 by omega]
  case isFalse h =>
    by_cases hj : j < 32
    · simp [hj]
    · simp [hj, BitVec.getLsbD_of_ge old j (by omega)]

/-- A field of a word, read from bit 0 on. -/
theorem fld_toNat (w : Word) {lo n : Nat} (h : n ≤ 32) : fld w.toNat lo n = (withBits 0 n 0 (w >>> lo)).toNat := by
  refine eq_toNat_of_testBit fun j => ?_
  rw [fld, Nat.testBit_mod_two_pow, Nat.testBit_div_two_pow, BitVec.testBit_toNat, BitVec.getLsbD_ushiftRight]
  by_cases hj : j < n
  · simp [hj, add_comm, show j < 32 by omega]
  · simp [hj]

/-- A field of a word read with its sign. -/
theorem fld_signed_toNat (w : Word) {lo n : Nat} (hn : 0 < n) : wi32 (signed n (fld w.toNat lo n)) = ((w.extractLsb' lo n).signExtend 32).toNat := by
  have hfld : fld w.toNat lo n = (w.extractLsb' lo n).toNat := by rw [BitVec.extractLsb'_toNat, Nat.shiftRight_eq_div_pow, fld]
  rw [hfld, signed_toNat hn, wi32_eq_ofInt]
  rfl

/-! ### Effects that change the group -/

/-- A ready instruction's answer depends on its body at the context alone. -/
theorem issue_congr {i : Instr} {nms : Ctx → List Named} {body body' : Ctx → Res} {s : State} {x : Ctx} (h : Runs i nms s x) (hb : body x = body' x) :
    issue i noDyn nms body s = issue i noDyn nms body' s := by
  rw [issue_ready h rfl, issue_ready h rfl, hb]

/-- An instruction whose effect is a change of its group answers the state with that change, the post-steps and the advance. -/
theorem issue_okGroup {i : Instr} {dyn : Ctx → Option Nat} {nms : Ctx → List Named} {body : Ctx → Res} {s : State} {x : Ctx} {F : Group → Group}
    (h : Runs i nms s x) (hd : dyn x = none) (hb : body x = x.okGroup F) (hgid : ∀ k, (F k).gid = k.gid) :
    issueDyn i dyn nms body s = .next (s.modGroup x.g.gid fun k => ((F k).postStep x.act (nms x)).advance) := by
  rw [issueDyn_ready h hd, hb, Ctx.okGroup, ctxOf_state h.1]
  simp only
  rw [State.modGroup_modGroup _ _ _ _ fun k hk => by rw [hgid, hk]]

theorem Group.raiseFlags_gid (g : Group) (f : Flags) : (g.raiseFlags f).gid = g.gid := rfl

/-- An instruction that changes its group in place computes a list of results, when the change makes it of the group it ran in. -/
theorem computes_of_okGroup {i : Instr} {dyn : Ctx → Option Nat} {nms : Ctx → List Named} {body : Ctx → Res} {ok : Ctx → Prop}
    {res : Ctx → List (RegPlace × DWord)} {fl : Ctx → Flags} {F : Ctx → Group → Group} (hexec : ∀ s, exec i s = issueDyn i dyn nms body s)
    (hd : ∀ x, ok x → dyn x = none) (hb : ∀ x, ok x → body x = x.okGroup (F x)) (hgid : ∀ x k, (F x k).gid = k.gid)
    (hF : ∀ x, x.g.clean = true → ok x → F x x.g = (((res x).foldl (fun h r => h.putPlace r.1 r.2) x.g).raiseFlags (fl x)))
    (hn : ∀ x, ok x → ((res x).map Prod.fst).Nodup) (hf : ∀ x, ok x → ∀ r ∈ res x, r.1.fits r.2) : Computes i nms ok res fl := by
  intro s x hx hok
  obtain ⟨l1, l2⟩ := look_putPlaces (res x) (hn x hok) (hf x hok) x.g
  obtain ⟨hl, hm⟩ := x.finish_spec (nms x) (fl x) hx.clean (putPlaces_regsOf (res x) hx.clean)
  rw [← hF x hx.clean hok] at hl hm
  refine ⟨_, _, by rw [hexec, issue_okGroup hx (hd x hok) (hb x hok) (hgid x)],
    State.modGroup_onlyGroup _ (ctxOf_group hx.1) (fun k => by rw [Group.advance_gid, Group.postStep_gid, hgid]), ⟨?_, ?_⟩, hm⟩
  · intro r hr
    have hro : r.1.ok := by
      have := hf x hok r hr
      obtain ⟨q, w⟩ := r
      cases q <;> simp only [RegPlace.fits, RegPlace.ok] at * <;> exact this.1
    rw [hl _ hro, l1 r hr]
  · intro q hq hne
    rw [hl q hq, l2 q hq hne]

/-- Without an indirect operand nothing is post-stepped. -/
theorem Group.postStep_of_no_ind {nms : List Named} (h : ∀ o ∈ namedOps nms, o.isInd = false) (g : Group) (act : DWord) : g.postStep act nms = g := by
  rw [Group.postStep_named]
  generalize lanesOf g.width act = ls
  generalize namedOps nms = ops at h ⊢
  induction ops with
  | nil => rfl
  | cons o t ih =>
    obtain ⟨ho, ht⟩ := List.forall_mem_cons.mp h
    have hstep : g.stepOne ls o = g := by
      cases o with
      | ind st k => cases ho
      | _ => rfl
    rw [List.foldl_cons, hstep, ih ht]

/-- An instruction without indirect operands that changes its group in place. -/
theorem changes_of_okGroup {i : Instr} {dyn : Ctx → Option Nat} {nms : Ctx → List Named} {body : Ctx → Res} {ok : Ctx → Prop} {F : Ctx → Group → Group}
    (hexec : ∀ s, exec i s = issueDyn i dyn nms body s) (hd : ∀ x, ok x → dyn x = none) (hb : ∀ x, ok x → body x = x.okGroup (F x))
    (hgid : ∀ x k, (F x k).gid = k.gid) (hind : ∀ x, ok x → ∀ o ∈ namedOps (nms x), o.isInd = false) : Changes i nms ok F := by
  intro s x hx hok
  rw [hexec, issue_okGroup hx (hd x hok) (hb x hok) (hgid x)]
  simp only [Group.postStep_of_no_ind (hind x hok)]

/-- In a group without poison a write of part of each word keeps what poison there is, none. -/
theorem Ctx.keepPoison_laneWise (x : Ctx) (d : Opnd) (val : Nat → Word) (hc : x.g.clean = true) :
    (x.laneWise d (fun l => ((val l).toNat, 0))).keepPoison x.g = x.laneWise d (fun l => ((val l).toNat, 0)) := by
  obtain ⟨g, hg, hr, -⟩ := x.laneWise_spec d val (fun _ => 0) hc
  unfold Group.regsOf at hr
  rw [hg, hr]
  rfl

/-- MOV to any other destination is lane-wise (R148). -/
theorem exec_mov_laneWise {g : Guard} {d a : Opnd} (hf : d ≠ .fsr) (hs : ∀ n m, ¬(d = .s n ∧ a = .s m)) (s : State) :
    exec (.mov g d a) s = issue (.mov g d a) noDyn (fun _ => namesA d [a])
      (fun x => .ok (x.s.setGroup (x.laneWise d (fun l => (x.src a l, 0))))) s := by
  rw [exec_mov]
  cases d with
  | fsr => exact absurd rfl hf
  | s n =>
    cases a with
    | s m => exact absurd ⟨rfl, rfl⟩ (hs n m)
    | _ => rfl
  | _ => rfl

/-- MOV of a 32-bit value (R148). -/
theorem laneWise_mov {g : Guard} {d a : Opnd} (hf : d ≠ .fsr) (hs : ∀ n m, ¬(d = .s n ∧ a = .s m)) :
    LaneWise (.mov g d a) d [a] (fun x l => x.g.word a l) noFlags := by
  intro s x hx
  exact laneWise_of_issue (val := fun x l => x.g.word a l) (fl := noFlags) (exec_mov_laneWise hf hs s) hx
    fun l => Prod.ext (x.src_eq a l) rfl

/-- IDXSET replaces the bits of its field (R173). -/
theorem laneWise_idxset (g : Guard) (f : IdxField) (k : BitVec 3) (a : Opnd) : LaneWise (.idxset g f (.x k) a) (.x k) [a]
    (fun x l => withBits (idxPlace f).1 (idxPlace f).2 (x.g.xget k.toNat l) (x.g.word a l)) noFlags := by
  intro s x hx
  have hval : ∀ l, idxPut f (x.src (.x k) l) (x.src a l) = (withBits (idxPlace f).1 (idxPlace f).2 (x.g.xget k.toNat l) (x.g.word a l)).toNat :=
    fun l => by rw [x.src_eq a, ← idxPut_toNat]; rfl
  have hexec : exec (.idxset g f (.x k) a) s = issue (.idxset g f (.x k) a) noDyn (fun _ => namesA (.x k) [a])
      (fun y => .ok (y.s.setGroup (y.laneWise (.x k) fun l => (idxPut f (y.src (.x k) l) (y.src a l), 0)))) s := by
    rw [exec_idxset, execIdxset]
    refine issue_congr hx ?_
    simp only [hval, x.keepPoison_laneWise _ _ hx.clean, ite_self]
  exact laneWise_of_issue (val := fun x l => withBits (idxPlace f).1 (idxPlace f).2 (x.g.xget k.toNat l) (x.g.word a l)) (fl := noFlags)
    hexec hx fun l => Prod.ext (hval l) rfl

/-- IDXGET reads its field, step with its sign (R173). -/
theorem laneWise_idxget (g : Guard) (f : IdxField) (d : Opnd) (k : BitVec 3) : LaneWise (.idxget g f d (.x k)) d [.x k]
    (fun x l => if f = .step then ((x.g.xget k.toNat l).extractLsb' 24 4).signExtend 32
      else withBits 0 (idxPlace f).2 0 ((x.g.xget k.toNat l) >>> (idxPlace f).1)) noFlags := by
  refine laneWise_of_int (fun _ => exec_idxget) fun x l => ?_
  have hplace : (idxPlace f).2 ≤ 32 := by cases f <;> decide
  have hsrc : x.src (.x k) l = (x.g.xget k.toNat l).toNat := rfl
  dsimp only
  rw [hsrc]
  split
  case isTrue h =>
    subst h
    exact fld_signed_toNat _ (by decide)
  case isFalse => exact fld_toNat _ hplace

/-- Settles O3: MOV by its destination; IDXSET and IDXGET by the bits of the field they name. -/
theorem movesAndIndexFields : Obligations.MovesAndIndexFields := by
  unfold Obligations.MovesAndIndexFields
  refine ⟨?uniform, ?fsr, fun g d a => laneWise_mov, laneWise_idxset, laneWise_idxget⟩
  case uniform =>
    intro g n m
    refine computes_of_okGroup (F := fun x h => if x.any then h.sset n.toNat (x.g.sget m.toNat) else h) (fun _ => exec_mov) (fun _ _ => rfl)
      (fun _ _ => rfl) (fun x k => by split <;> rfl) (fun x _ _ => ?_) (fun x _ => ?_) (fun x _ r hr => ?_)
    · have hraise : ∀ k : Group, k.raiseFlags 0 = k := fun k => by simp [Group.raiseFlags]
      rw [hraise]
      split <;> rfl
    · split <;> simp
    · split at hr
      · rw [List.mem_singleton.mp hr]; trivial
      · cases hr
  case fsr =>
    intro g a
    refine changes_of_okGroup (fun s => ?_) (fun _ _ => rfl) (fun x _ => rfl) (fun x k => by split <;> rfl) (fun x ha o ho => ?_)
      (dyn := fun _ => none) (body := fun x => x.okGroup fun h => if x.any then { h with fsr := (x.g.word a 0).setWidth 5 } else h)
    · have hset : ∀ (x : Ctx) (h : Group), h.setFsr (x.src a 0) = { h with fsr := (x.g.word a 0).setWidth 5 } := fun x h => by
        rw [Group.setFsr, x.src_eq, BitVec.ofNat_toNat]
      rw [exec_mov, execMov]
      simp only [hset]
      rfl
    · rw [namedOps_namesA] at ho
      rcases List.mem_cons.mp ho with rfl | ho
      · rfl
      · rw [List.mem_singleton.mp ho]; exact ha

end Sys2Proof.Machine
end

section
/-! 64-bit addresses and the immediate forms (R150, R151): a 64-bit result lane by lane as a list of results. -/
namespace Sys2Proof.Machine

/-! ### 64-bit values -/

theorem Ctx.src64_eq (x : Ctx) (o : Opnd) (l : Nat) : x.src64 o l = (x.g.word64 o l).toNat := by
  cases o with
  | v n =>
    have hlow := (x.g.vget n.toNat l).isLt
    rw [Ctx.src64, Group.word64, BitVec.toNat_append, Nat.shiftLeft_eq, mul_comm _ (2 ^ 32), ← Nat.two_pow_add_eq_or_of_lt hlow]
    omega
  | _ => rfl

/-- Addresses add modulo 2^64 (R150). -/
theorem add64_toNat (a b : DWord) : (a.toNat + b.toNat) % 2 ^ 64 = (a + b).toNat := (BitVec.toNat_add a b).symm

/-- An address and a signed offset (R150). -/
theorem addInt64_toNat (a b : DWord) (i : Int) (h : i % 2 ^ 64 = b.toNat) : (((a.toNat : Int) + i) % 2 ^ 64).toNat = (a + b).toNat := by
  rw [BitVec.toNat_add]
  omega

/-- A 32-bit value with its sign, as a 64-bit value. -/
theorem s32_mod_two_pow_64 (w : Word) : s32 w.toNat % 2 ^ 64 = ((w.signExtend 64).toNat : Int) := by
  rw [s32_toNat, BitVec.signExtend, BitVec.toNat_ofInt]
  have := Int.emod_nonneg w.toInt (show (2 ^ 64 : Int) ≠ 0 by decide)
  omega

/-- LEA's offset (R150). -/
theorem leaOffset_mod (sx : Bool) (w : Word) (k : Nat) :
    ((if sx then s32 w.toNat else (w.toNat : Int)) * 2 ^ k) % 2 ^ 64 = (((if sx then w.signExtend 64 else w.setWidth 64) <<< k : DWord).toNat : Int) := by
  have hext : (if sx then s32 w.toNat else (w.toNat : Int)) % 2 ^ 64 = ((if sx then w.signExtend 64 else w.setWidth 64 : DWord).toNat : Int) := by
    cases sx
    · have := w.isLt
      simp only [Bool.false_eq_true, if_false, BitVec.toNat_setWidth]
      omega
    · exact s32_mod_two_pow_64 w
  rw [BitVec.toNat_shiftLeft, Nat.shiftLeft_eq]
  push_cast
  rw [← hext]
  exact Int.ModEq.mul_right _ (Int.mod_modEq _ _).symm

/-! ### 64-bit results -/

/-- A 64-bit result lane by lane is the list of its parts. -/
theorem Ctx.laneWise64_eq (x : Ctx) (d : Opnd) (val : Nat → DWord) :
    x.laneWise64 d (fun l => (val l).toNat) = ((x.workLanes d).flatMap fun l => widePlaces d l (val l)).foldl (fun h r => h.putPlace r.1 r.2) x.g := by
  rw [List.foldl_flatMap]
  have hlow : ∀ w : DWord, BitVec.ofNat 32 w.toNat = ((w.extractLsb' 0 32).setWidth 64).setWidth 32 := fun w => by
    apply BitVec.eq_of_toNat_eq
    simp
  have hhigh : ∀ w : DWord, BitVec.ofNat 32 (w.toNat / 2 ^ 32) = ((w.extractLsb' 32 32).setWidth 64).setWidth 32 := fun w => by
    apply BitVec.eq_of_toNat_eq
    simp [Nat.shiftRight_eq_div_pow]
  cases d with
  | v n =>
    simp only [Ctx.laneWise64, List.foldl_map, Ctx.put64, widePlaces, List.foldl_cons, List.foldl_nil, Group.putPlace, hlow, hhigh]
  | s n =>
    simp only [Ctx.laneWise64, List.foldl_map, widePlaces, List.foldl_cons, List.foldl_nil, Group.putPlace, BitVec.ofNat_toNat, BitVec.setWidth_eq]
  | _ => simp only [Ctx.laneWise64, List.foldl_map, Ctx.put64, widePlaces, List.foldl_nil]

theorem widePlaces_lane {d : Opnd} (hd : d.isS = false) {l : Nat} {w : DWord} {q : RegPlace} (h : q ∈ (widePlaces d l w).map Prod.fst) :
    ∃ n, q = .v n l := by
  cases d with
  | v n =>
    simp only [widePlaces, List.map_cons, List.map_nil, List.mem_cons, List.not_mem_nil, or_false] at h
    exact h.elim (fun e => ⟨_, e⟩) fun e => ⟨_, e⟩
  | s n => cases hd
  | _ => cases h

/-- The places of a 64-bit result are distinct. -/
theorem widePlaces_nodup (x : Ctx) (d : Opnd) (val : Nat → DWord) :
    (((x.workLanes d).flatMap fun l => widePlaces d l (val l)).map Prod.fst).Nodup := by
  have hone : ∀ l, ((widePlaces d l (val l)).map Prod.fst).Nodup := fun l => by cases d <;> simp [widePlaces]
  rw [List.map_flatMap]
  cases hd : d.isS
  case false =>
    refine List.nodup_flatMap.mpr ⟨fun l _ => hone l, (x.workLanes_nodup d).imp fun {l k} hlk q hq hq' => ?_⟩
    obtain ⟨n, rfl⟩ := widePlaces_lane hd hq
    obtain ⟨m, hm⟩ := widePlaces_lane hd hq'
    injection hm with _ hl
    exact hlk hl
  case true =>
    cases d with
    | s n => rw [Ctx.workLanes]; split <;> simp [widePlaces]
    | _ => cases hd

theorem widePlaces_fits {x : Ctx} {d : Opnd} {val : Nat → DWord} {r : RegPlace × DWord}
    (hr : r ∈ (x.workLanes d).flatMap fun l => widePlaces d l (val l)) : r.1.fits r.2 := by
  obtain ⟨l, hl, hr⟩ := List.mem_flatMap.mp hr
  have hlt := Ctx.workLanes_lt hl
  have hpart : ∀ u : Word, ((u.setWidth 64).setWidth 32).setWidth 64 = u.setWidth 64 := fun u => by simp
  cases d with
  | v n =>
    simp only [widePlaces, List.mem_cons, List.not_mem_nil, or_false] at hr
    rcases hr with rfl | rfl <;> exact ⟨hlt, hpart _⟩
  | s n =>
    rw [List.mem_singleton.mp hr]
    trivial
  | _ => cases hr

/-- An instruction with a 64-bit result lane by lane (R139, R150). -/
theorem computes_of_laneWise64 {i : Instr} {nms : Ctx → List Named} {d : Opnd} {f : Ctx → Nat → Nat} {val : Ctx → Nat → DWord}
    (hexec : ∀ s, exec i s = issue i noDyn nms (fun x => .ok (x.s.setGroup (x.laneWise64 d (f x)))) s) (hf : ∀ x l, f x l = (val x l).toNat) :
    Computes i nms always (fun x => (x.workLanes d).flatMap fun l => widePlaces d l (val x l)) (fun _ => 0) := by
  refine computes_of_places (dyn := fun x => if noDyn x then some 3 else none) hexec (fun _ _ => rfl) (fun x _ _ => ?_)
    (fun x _ => widePlaces_nodup x d _) fun _ _ _ => widePlaces_fits
  have hraise : ∀ g : Group, g.raiseFlags 0 = g := fun g => by simp [Group.raiseFlags]
  rw [hraise, ← x.laneWise64_eq d (val x), show f x = fun l => (val x l).toNat from funext (hf x)]

/-! ### Uniform constants -/

theorem toNat_ofNat_six (d : BitVec 8) : (BitVec.ofNat 6 d.toNat).toNat = d.toNat % 64 := BitVec.toNat_ofNat _ _

/-- MOVI.hi and MOVI.sx: a uniform register with a 64-bit value (R151). -/
theorem computes_of_uniform {i : Instr} {d : BitVec 8} {body : Ctx → Res} {val : Ctx → DWord}
    (hexec : ∀ s, exec i s = issue i noDyn (fun _ => namesA (bOpnd true d) []) body s)
    (hb : ∀ x, x.g.clean = true → body x = .ok (x.s.setGroup (if x.any then x.g.sset (d.toNat % 64) (val x) else x.g))) :
    Computes i (fun _ => namesA (bOpnd true d) []) always (fun x => if x.any then [(.s (d.toNat % 64), val x)] else []) (fun _ => 0) := by
  refine computes_of_places (dyn := fun x => if noDyn x then some 3 else none) hexec (fun _ _ => rfl) (fun x hc _ => ?_) (fun x _ => ?_) fun x _ r hr => ?_
  · have hraise : ∀ g : Group, g.raiseFlags 0 = g := fun g => by simp [Group.raiseFlags]
    rw [hb x hc, hraise]
    split <;> rfl
  · split <;> simp
  · split at hr
    · rw [List.mem_singleton.mp hr]; trivial
    · cases hr

/-- In a group without poison a uniform write leaves the group's poison. -/
theorem Group.sset_keeps_poison {g : Group} (hc : g.clean = true) (n : Nat) (w : DWord) : { g.sset n w with poisonS := g.poisonS } = g.sset n w := by
  have h := Group.sset_regsOf hc n w
  unfold Group.regsOf at h
  rw [h]

theorem computes_moviHi (g : Guard) (d : BitVec 8) (imm : Word) : Computes (.moviHi g d imm) (fun _ => namesA (bOpnd true d) []) always
    (fun x => if x.any then [(.s (d.toNat % 64), imm ++ (x.g.sget (d.toNat % 64)).setWidth 32)] else []) (fun _ => 0) := by
  refine computes_of_uniform (fun s => by rw [exec_moviHi, execMoviHi]) fun x hc => ?_
  have hval : ∀ w : DWord, BitVec.ofNat 64 (imm.toNat * 2 ^ 32 + w.toNat % 2 ^ 32) = imm ++ w.setWidth 32 := fun w => by
    have hlow : w.toNat % 2 ^ 32 < 2 ^ 32 := Nat.mod_lt _ (by decide)
    have := imm.isLt
    apply BitVec.eq_of_toNat_eq
    rw [BitVec.toNat_append, Nat.shiftLeft_eq, BitVec.toNat_setWidth, mul_comm, ← Nat.two_pow_add_eq_or_of_lt hlow, BitVec.toNat_ofNat]
    omega
  simp only [Ctx.laneWise64, bOpnd, if_true, Ctx.workLanes]
  split
  · simp only [List.map_cons, List.map_nil, List.foldl_cons, List.foldl_nil, toNat_ofNat_six, hval, Group.sset_keeps_poison hc]
  · rfl

theorem computes_moviSx (g : Guard) (d : BitVec 8) (imm : Word) : Computes (.moviSx g d imm) (fun _ => namesA (bOpnd true d) []) always
    (fun x => if x.any then [(.s (d.toNat % 64), imm.signExtend 64)] else []) (fun _ => 0) := by
  refine computes_of_uniform (fun s => by rw [exec_moviSx, execMoviSx]) fun x _ => ?_
  have hval : BitVec.ofNat 64 (s32 imm.toNat % 2 ^ 64).toNat = imm.signExtend 64 := by
    rw [s32_mod_two_pow_64, Int.toNat_natCast, BitVec.ofNat_toNat, BitVec.setWidth_eq]
  simp only [Ctx.laneWise64, bOpnd, if_true, Ctx.workLanes]
  split
  · simp only [List.map_cons, List.map_nil, List.foldl_cons, List.foldl_nil, toNat_ofNat_six]
    rw [hval]
  · rfl

/-- Settles O4: the addresses by arithmetic modulo 2^64, the immediate forms by the lemmas of their namesakes. -/
theorem addressesAndImmediates : Obligations.AddressesAndImmediates := by
  unfold Obligations.AddressesAndImmediates
  refine ⟨?lea, ?iadd64, ?leaImm, ?iadd, ?imul, ?and, ?or, ?xor, ?shl, ?shr, ?sar, ?movi, computes_moviHi, computes_moviSx⟩
  case lea =>
    intro g sx sh d a b
    refine computes_of_laneWise64 (fun s => by rw [exec_lea, execLea]) fun x l => ?_
    rw [x.src64_eq, x.src_eq]
    exact addInt64_toNat _ _ _ (leaOffset_mod sx _ _)
  case iadd64 =>
    intro g d a b
    exact computes_of_laneWise64 (fun s => by rw [exec_iadd64, execIadd64]) fun x l => by rw [x.src64_eq, x.src64_eq, add64_toNat]
  case leaImm =>
    intro g u d a imm
    exact computes_of_laneWise64 (fun s => by rw [exec_leaImm, execLeaImm]) fun x l => by
      rw [x.src64_eq]
      exact addInt64_toNat _ _ _ (s32_mod_two_pow_64 imm)
  case iadd => exact fun g u d a imm => laneWise_of_int (fun _ => exec_iaddImm) fun x l => by rw [x.src_eq, w32_add_toNat]
  case imul => exact fun g u d a imm => laneWise_of_int (fun _ => exec_imulImm) fun x l => by rw [x.src_eq, w32_mul_toNat]
  case and => exact fun g u d a imm => laneWise_of_int (fun _ => exec_andImm) fun x l => by rw [x.src_eq]; exact (BitVec.toNat_and _ _).symm
  case or => exact fun g u d a imm => laneWise_of_int (fun _ => exec_orImm) fun x l => by rw [x.src_eq]; exact (BitVec.toNat_or _ _).symm
  case xor => exact fun g u d a imm => laneWise_of_int (fun _ => exec_xorImm) fun x l => by rw [x.src_eq]; exact (BitVec.toNat_xor _ _).symm
  case shl => exact fun g u d a imm => laneWise_of_int (fun _ => exec_shlImm) fun x l => by rw [x.src_eq, shl_toNat]
  case shr => exact fun g u d a imm => laneWise_of_int (fun _ => exec_shrImm) fun x l => by rw [x.src_eq, shr_toNat]
  case sar => exact fun g u d a imm => laneWise_of_int (fun _ => exec_sarImm) fun x l => by rw [x.src_eq, sar_toNat]
  case movi => exact fun g u d imm => laneWise_of_int (fun _ => exec_movi) fun _ _ => rfl

end Sys2Proof.Machine
end

section
/-! FP32 and packed floating instructions (R141, R152 to R158): modifiers bit by bit, and results that fit their format. -/
namespace Sys2Proof.Machine

/-! ### Modifiers -/

/-- The modifiers of a position change one bit. -/
theorem testBit_signMods (p : Nat) (abs neg : Bool) (n j : Nat) :
    (signMods p abs neg n).testBit j = if j = p then neg ^^ (n.testBit p && !abs) else n.testBit j := by
  have hclear : ∀ m : Nat, m / 2 ^ p % 2 = 1 → ∀ j, (m - 2 ^ p).testBit j = if j = p then false else m.testBit j := fun m hm j => by
    have h := testBit_replace_fld m 0 p 1 j
    rw [fld, pow_one, hm, Nat.one_mul, Nat.zero_mod, Nat.zero_mul, Nat.add_zero, Nat.zero_testBit] at h
    rw [h]
    exact if_congr (by omega) rfl rfl
  have hset : ∀ m : Nat, m / 2 ^ p % 2 ≠ 1 → ∀ j, (m + 2 ^ p).testBit j = if j = p then true else m.testBit j := fun m hm j => by
    have h := testBit_replace_fld m 1 p 1 j
    rw [fld, pow_one, show m / 2 ^ p % 2 = 0 by omega, Nat.zero_mul, Nat.sub_zero, Nat.one_mod_eq_one.mpr (by decide), Nat.one_mul] at h
    rw [h]
    by_cases hj : j = p
    · subst hj; simp
    · have hout : ¬(p ≤ j ∧ j < p + 1) := by omega
      rw [if_neg hout, if_neg hj]
  have hbit : ∀ m : Nat, m / 2 ^ p % 2 = 1 ↔ m.testBit p = true := fun m => by rw [Nat.testBit_eq_decide_div_mod_eq, decide_eq_true_eq]
  have habs : ∀ j, (if abs && decide (n / 2 ^ p % 2 = 1) then n - 2 ^ p else n).testBit j = if j = p then n.testBit p && !abs else n.testBit j := fun j => by
    cases abs
    case false => by_cases hj : j = p <;> simp [hj]
    case true =>
      by_cases hn : n / 2 ^ p % 2 = 1
      · simp [hn, hclear]
      · have hf : n.testBit p = false := by simpa [hbit] using hn
        by_cases hj : j = p <;> simp [hn, hj, hf]
  generalize hy : (if abs && decide (n / 2 ^ p % 2 = 1) then n - 2 ^ p else n) = y at habs
  rw [signMods, hy]
  cases neg
  case false => simp [habs]
  case true =>
    by_cases hb : y / 2 ^ p % 2 = 1
    · have hyp := (hbit y).mp hb
      rw [habs, if_pos rfl] at hyp
      simp only [hb, if_true, hclear y hb, habs, hyp]
      by_cases hj : j = p <;> simp [hj]
    · have hyp : y.testBit p = false := by simpa [hbit] using hb
      rw [habs, if_pos rfl] at hyp
      simp only [hb, if_false, if_true, hset y hb, habs, hyp]
      by_cases hj : j = p <;> simp [hj]

/-- The modifiers at several places change those bits. -/
theorem testBit_foldl_signMods (abs neg : Bool) (j : Nat) : ∀ (ps : List Nat) (n : Nat), ps.Nodup →
    (ps.foldl (fun y p => signMods p abs neg y) n).testBit j = if j ∈ ps then neg ^^ (n.testBit j && !abs) else n.testBit j
  | [], n, _ => by simp
  | p :: ps, n, h => by
    obtain ⟨hp, hn⟩ := List.nodup_cons.mp h
    rw [List.foldl_cons, testBit_foldl_signMods abs neg j ps _ hn, testBit_signMods]
    by_cases hj : j = p
    · subst hj; simp [hp]
    · simp [hj]

/-- Modifiers as masks of a word: `m` holds the sign bits. -/
theorem foldl_signMods_toNat {ps : List Nat} {m : Word} (hn : ps.Nodup) (hlt : ∀ p ∈ ps, p < 32) (hm : ∀ j < 32, m.getLsbD j = decide (j ∈ ps))
    (abs neg : Bool) (w : Word) : ps.foldl (fun y p => signMods p abs neg y) w.toNat =
      (if neg then (if abs then w &&& ~~~m else w) ^^^ m else if abs then w &&& ~~~m else w).toNat := by
  refine Nat.eq_of_testBit_eq fun j => ?_
  rw [testBit_foldl_signMods abs neg j ps _ hn, BitVec.testBit_toNat, BitVec.testBit_toNat]
  by_cases hj : j < 32
  · have hmj : m[j] = decide (j ∈ ps) := by rw [← BitVec.getLsbD_eq_getElem hj, hm j hj]
    by_cases hp : j ∈ ps <;> cases abs <;> cases neg <;> simp [hp, hmj, hj]
  · have hp : j ∉ ps := fun h => hj (hlt j h)
    rw [if_neg hp, BitVec.getLsbD_of_ge _ _ (by omega), BitVec.getLsbD_of_ge _ _ (by omega)]

theorem wordMods_eq_foldl (w : Nat) (m : BitVec 6) (j n : Nat) : wordMods w m j n =
    ((List.range (32 / w)).map fun e => w * e + w - 1).foldl (fun y p => signMods p (m.getLsbD (2 * j + 1)) (m.getLsbD (2 * j)) y) n := by
  rw [wordMods, List.foldl_map]

theorem wordMods_32 (m : BitVec 6) (j : Nat) (w : Word) : wordMods 32 m j w.toNat = (wordSigned (m.getLsbD (2 * j + 1)) (m.getLsbD (2 * j)) w).toNat := by
  rw [wordMods_eq_foldl]
  exact foldl_signMods_toNat (m := 0x80000000) (by decide) (by decide) (by decide) _ _ w

theorem wordMods_16 (m : BitVec 6) (j : Nat) (w : Word) : wordMods 16 m j w.toNat = (halvesSigned (m.getLsbD (2 * j + 1)) (m.getLsbD (2 * j)) w).toNat := by
  rw [wordMods_eq_foldl]
  exact foldl_signMods_toNat (m := 0x80008000) (by decide) (by decide) (by decide) _ _ w

theorem wordMods_8 (m : BitVec 6) (j : Nat) (w : Word) : wordMods 8 m j w.toNat = (bytesSigned (m.getLsbD (2 * j + 1)) (m.getLsbD (2 * j)) w).toNat := by
  rw [wordMods_eq_foldl]
  exact foldl_signMods_toNat (m := 0x80808080) (by decide) (by decide) (by decide) _ _ w

theorem Ctx.fsrc_eq (x : Ctx) (m : BitVec 6) (j : Nat) (o : Opnd) (l : Nat) : x.fsrc m j o l = x.fword m j o l := by
  rw [Ctx.fsrc, x.src_eq, wordMods_32, Ctx.fword]

theorem elem_toNat (w k : Nat) (u : Word) : elem w k u.toNat = (u.extractLsb' (w * k) w).toNat := by
  rw [BitVec.extractLsb'_toNat, Nat.shiftRight_eq_div_pow, elem]

theorem elem_wordMods_16 (x : Ctx) (m : BitVec 6) (j k : Nat) (o : Opnd) (l : Nat) : elem 16 k (wordMods 16 m j (x.src o l)) = x.fhalf m j o k l := by
  rw [x.src_eq, wordMods_16, elem_toNat, Ctx.fhalf]

theorem Ctx.fword_lt (x : Ctx) (m : BitVec 6) (j : Nat) (o : Opnd) (l : Nat) : x.fword m j o l < 2 ^ 32 := BitVec.isLt _

/-! ### Codes of a format -/

theorem FFmt.maxMag_lt (f : FFmt) : f.maxMag < 2 ^ (f.ebits + f.fbits) := by
  have he := Nat.two_pow_pos f.ebits
  have hf := Nat.two_pow_pos f.fbits
  have hmul : (2 ^ f.ebits - 1) * 2 ^ f.fbits ≤ 2 ^ (f.ebits + f.fbits) - 2 ^ f.fbits := by rw [pow_add, Nat.sub_one_mul]
  have hp := Nat.two_pow_pos (f.ebits + f.fbits)
  rw [FFmt.maxMag]
  split <;> omega

theorem FFmt.withSign_lt (f : FFmt) {neg : Bool} {mag : Nat} (h : mag < 2 ^ (f.ebits + f.fbits)) : f.withSign neg mag < 2 ^ (f.ebits + f.fbits + 1) := by
  rw [FFmt.withSign, pow_succ, add_comm f.fbits]
  split <;> omega

theorem FFmt.nanCode_lt (f : FFmt) : f.nanCode < 2 ^ (f.ebits + f.fbits + 1) := by
  have hp := Nat.two_pow_pos (f.ebits + f.fbits)
  have hmul : (2 ^ f.ebits - 1) * 2 ^ f.fbits ≤ 2 ^ (f.ebits + f.fbits) - 2 ^ f.fbits := by rw [pow_add, Nat.sub_one_mul]
  have hle : 2 ^ f.fbits ≤ 2 ^ (f.ebits + f.fbits) := Nat.pow_le_pow_right (by decide) (by omega)
  have hhalf : 2 ^ (f.fbits - 1) ≤ 2 ^ f.fbits := Nat.pow_le_pow_right (by decide) (by omega)
  rw [FFmt.nanCode, pow_succ]
  split <;> omega

theorem FFmt.infCode_lt (f : FFmt) (neg : Bool) : f.infCode neg < 2 ^ (f.ebits + f.fbits + 1) := by
  refine f.withSign_lt ?_
  rw [pow_add]
  exact Nat.mul_lt_mul_of_pos_right (Nat.sub_lt (Nat.two_pow_pos _) (by decide)) (Nat.two_pow_pos _)

theorem FFmt.overflow_lt (f : FFmt) (mode : RMode) (neg nanovf : Bool) : f.overflow mode neg nanovf < 2 ^ (f.ebits + f.fbits + 1) := by
  have hmax := f.withSign_lt (neg := neg) f.maxMag_lt
  have hor : ∀ b : Bool, (if b then f.infCode neg else f.withSign neg f.maxMag) < 2 ^ (f.ebits + f.fbits + 1) := fun b => by
    split
    · exact f.infCode_lt neg
    · exact hmax
  unfold FFmt.overflow
  split
  · exact hor _
  · split
    · exact f.nanCode_lt
    · exact hmax
  · exact hmax

/-- One rounding gives a code of the format. -/
theorem FFmt.round_lt (f : FFmt) (mode : RMode) (ftz nanovf neg : Bool) (num den : Nat) (e : Int) :
    (f.round mode ftz nanovf neg num den e).1 < 2 ^ (f.ebits + f.fbits + 1) := by
  have hzero := f.withSign_lt (neg := neg) (Nat.two_pow_pos (f.ebits + f.fbits))
  rw [FFmt.round]
  split
  · exact hzero
  · dsimp only
    split
    · exact f.overflow_lt _ _ _
    · split
      · exact hzero
      · next hmag _ => exact f.withSign_lt ((Nat.not_lt.mp hmag).trans_lt f.maxMag_lt)

theorem FFmt.finish_lt (f : FFmt) (mode : RMode) (ftz : Bool) (r : FVal × Flags) : (f.finish mode ftz r).1 < 2 ^ (f.ebits + f.fbits + 1) := by
  obtain ⟨v, fl⟩ := r
  rw [FFmt.finish]
  cases v with
  | nan s => exact f.nanCode_lt
  | inf n => exact f.infCode_lt n
  | fin n m e => exact f.round_lt _ _ _ _ _ _ _

theorem FFmt.minmax_lt {f : FFmt} {wantMax ftz : Bool} {a b : Nat} (ha : a < 2 ^ (f.ebits + f.fbits + 1)) (hb : b < 2 ^ (f.ebits + f.fbits + 1)) :
    (f.minmax wantMax ftz a b).1 < 2 ^ (f.ebits + f.fbits + 1) := by
  have hflush : ∀ c, c < 2 ^ (f.ebits + f.fbits + 1) → f.flushCode ftz c < 2 ^ (f.ebits + f.fbits + 1) := fun c hc => by
    rw [FFmt.flushCode]
    split
    · exact f.withSign_lt (Nat.two_pow_pos _)
    · exact hc
  rw [FFmt.minmax]
  split
  · exact f.nanCode_lt
  · split
    · exact hflush _ (by split <;> assumption)
    · exact hflush _ (by split <;> assumption)

/-- The magnitude code of an FP32 value, or of an integral value below 2^24. -/
theorem encodeMag_F32_lt {n : Nat} {q : Int} (hn : n < 2 ^ 24) (hq : q ≤ 104) : fmtF32.encodeMag n q < 2 ^ 31 := by
  rw [FFmt.encodeMag]
  split
  · decide
  · next h0 =>
    have hlog : Nat.log2 n ≤ 23 := Nat.lt_succ_iff.mp ((Nat.log2_lt h0).mpr hn)
    have hself : n < 2 ^ (Nat.log2 n + 1) := Nat.lt_log2_self
    generalize Nat.log2 n = l at hlog hself
    dsimp only
    split
    · next hex =>
      simp only [fmtF32, Nat.cast_ofNat] at hex ⊢
      by_cases hneg : q + 149 ≤ 0
      · rw [show (q - (1 - 127 - 23)).toNat = 0 by omega]
        omega
      · have hpow : (q - (1 - 127 - 23)).toNat ≤ 30 - (l + 1) := by omega
        calc n * 2 ^ (q - (1 - 127 - 23)).toNat < 2 ^ (l + 1) * 2 ^ (30 - (l + 1)) :=
              Nat.mul_lt_mul_of_lt_of_le hself (Nat.pow_le_pow_right (by decide) hpow) (Nat.two_pow_pos _)
          _ = 2 ^ 30 := by rw [← pow_add]; congr 1; omega
          _ < 2 ^ 31 := by decide
    · next hex =>
      rw [if_pos (show l ≤ fmtF32.fbits from hlog)]
      simp only [fmtF32, Nat.cast_ofNat] at hex ⊢
      have hmant : n * 2 ^ (23 - l) < 2 ^ 24 := by
        calc n * 2 ^ (23 - l) < 2 ^ (l + 1) * 2 ^ (23 - l) := Nat.mul_lt_mul_of_pos_right hself (Nat.two_pow_pos _)
          _ = 2 ^ 24 := by rw [← pow_add]; congr 1; omega
      have hex : (q + l + 127).toNat ≤ 254 := by omega
      omega

/-- A finite FP32 value is an integer below 2^24 times 2^e with e at most 104. -/
theorem read_F32_fin {ftz neg : Bool} {c m : Nat} {e : Int} (h : fmtF32.read ftz c = .fin neg m e) : m < 2 ^ 24 ∧ e ≤ 104 := by
  have hdec : ∀ {neg m e}, fmtF32.decode c = .fin neg m e → m < 2 ^ 24 ∧ e ≤ 104 := fun {neg m e} hd => by
    have hfr : c % 2 ^ 23 < 2 ^ 23 := Nat.mod_lt _ (by decide)
    have hex : c / 2 ^ 23 % 2 ^ 8 < 2 ^ 8 := Nat.mod_lt _ (by decide)
    rw [FFmt.decode] at hd
    split at hd
    · injection hd with _ hm he
      simp only [fmtF32, Nat.cast_ofNat] at hm he
      omega
    · split at hd
      · split at hd <;> cases hd
      · split at hd
        · cases hd
        · next htop _ =>
          injection hd with _ hm he
          have hne : c / 2 ^ 23 % 2 ^ 8 ≠ 2 ^ 8 - 1 := fun e => htop ⟨rfl, e⟩
          simp only [fmtF32, Nat.cast_ofNat] at hm he
          omega
  rw [FFmt.read] at h
  cases hd : fmtF32.decode c with
  | nan s => rw [hd] at h; cases h
  | inf n => rw [hd] at h; cases h
  | fin n k g =>
    obtain ⟨hk, hg⟩ := hdec hd
    rw [hd, FVal.flush] at h
    split at h
    · injection h with _ hm he
      omega
    · injection h with _ hm he
      omega

/-- Rounding to a multiple goes up by at most one. -/
theorem roundAt_le (mode : RMode) (neg : Bool) (num den : Nat) (e q : Int) :
    (roundAt mode neg num den e q).1 ≤ num * 2 ^ (e - q).toNat / (den * 2 ^ (-(e - q)).toNat) + 1 := by
  have hup : ∀ (b : Bool) (k : Nat), (if b then k + 1 else k) ≤ k + 1 := fun b k => by split <;> omega
  exact hup _ _

theorem frnd_lt (mode : RMode) (ftz : Bool) (a : Nat) : (frnd mode ftz a).1 < 2 ^ 32 := by
  rw [frnd]
  split
  · exact fmtF32.nanCode_lt
  · exact fmtF32.infCode_lt _
  · next n m e hr =>
    obtain ⟨hm, he⟩ := read_F32_fin hr
    split
    · exact fmtF32.withSign_lt (by decide)
    · split
      · exact fmtF32.withSign_lt (encodeMag_F32_lt hm he)
      · next hneg =>
        have hk : (roundAt mode n m 1 e 0).1 < 2 ^ 24 := by
          have hden : 2 ≤ 1 * 2 ^ (-(e - 0)).toNat := by
            rw [Nat.one_mul]
            exact Nat.le_self_pow (n := (-(e - 0)).toNat) (by omega) 2
          have hdiv : m * 2 ^ (e - 0).toNat / (1 * 2 ^ (-(e - 0)).toNat) ≤ m / 2 := by
            rw [show (e - 0).toNat = 0 by omega, pow_zero, Nat.mul_one]
            exact Nat.div_le_div_left hden (by decide)
          have hle := roundAt_le mode n m 1 e 0
          omega
        exact fmtF32.withSign_lt (encodeMag_F32_lt hk (by decide))

/-! ### Instructions -/

theorem codeWord_toNat {r : Nat × Flags} (h : r.1 < 2 ^ 32) : (codeWord r).toNat = r.1 := by
  rw [codeWord, BitVec.toNat_ofNat, Nat.mod_eq_of_lt h]

/-- A floating instruction whose results are codes of 32 bits. -/
theorem laneWiseBy_of_flt {i : Instr} {d : Opnd} {srcs : List Opnd} {f F : Ctx → Nat → Nat × Flags} (hexec : ∀ s, exec i s = fltLanes i d srcs f s)
    (hf : ∀ x l, f x l = F x l) (hlt : ∀ x l, (F x l).1 < 2 ^ 32) : LaneWiseBy i d srcs F :=
  laneWise_of_flt hexec fun x l => by rw [codeWord_toNat (hlt x l), hf]

/-- Two 16-bit results joined are the word of both. -/
theorem joinHalves_eq_halfPair {h : Nat → Nat × Flags} (hlt : ∀ k, (h k).1 < 2 ^ 16) : joinHalves (h 0) (h 1) = halfPair h := by
  have h0 := hlt 0
  have h1 := hlt 1
  rw [joinHalves, halfPair, codeHalves, BitVec.toNat_append, BitVec.toNat_ofNat, BitVec.toNat_ofNat, Nat.mod_eq_of_lt h0, Nat.mod_eq_of_lt h1,
    Nat.shiftLeft_eq, mul_comm (h 1).1, ← Nat.two_pow_add_eq_or_of_lt h0]
  exact Prod.ext (by dsimp only; omega) rfl

theorem halfFmt_bits (bf : Bool) : 2 ^ ((halfFmt bf).ebits + (halfFmt bf).fbits + 1) = 2 ^ 16 := by cases bf <;> rfl

theorem halfFmt_finish_lt (bf : Bool) (mode : RMode) (ftz : Bool) (r : FVal × Flags) : ((halfFmt bf).finish mode ftz r).1 < 2 ^ 16 :=
  halfFmt_bits bf ▸ (halfFmt bf).finish_lt mode ftz r

theorem halfPair_lt (h : Nat → Nat × Flags) : (halfPair h).1 < 2 ^ 32 := BitVec.isLt _

/-- Settles O5: each form is lane-wise with the model's own operation, whose results fit the destination. -/
theorem floatInstructions : Obligations.FloatInstructions := by
  unfold Obligations.FloatInstructions
  refine ⟨?fadd, ?fsub, ?fmul, ?ffma, ?frnd, ?faddImm, ?fmulImm, ?fmin, ?fmax, ?fclamp, ?fsetp, ?hadd2, ?hfma2, ?fdot4⟩
  case fadd => exact fun _ _ _ _ _ _ => laneWiseBy_of_flt (fun _ => exec_fadd) (fun x l => by simp only [x.fsrc_eq]; rfl) fun _ _ => fmtF32.finish_lt _ _ _
  case fsub => exact fun _ _ _ _ _ _ => laneWiseBy_of_flt (fun _ => exec_fsub) (fun x l => by simp only [x.fsrc_eq]; rfl) fun _ _ => fmtF32.finish_lt _ _ _
  case fmul => exact fun _ _ _ _ _ _ => laneWiseBy_of_flt (fun _ => exec_fmul) (fun x l => by simp only [x.fsrc_eq]; rfl) fun _ _ => fmtF32.finish_lt _ _ _
  case ffma => exact fun _ _ _ _ _ _ _ => laneWiseBy_of_flt (fun _ => exec_ffma) (fun x l => by simp only [x.fsrc_eq]; rfl) fun _ _ => fmtF32.finish_lt _ _ _
  case frnd => exact fun _ _ _ _ _ => laneWiseBy_of_flt (fun _ => exec_frnd) (fun x l => by simp only [x.fsrc_eq]; rfl) fun _ _ => frnd_lt _ _ _
  case faddImm => exact fun _ _ _ _ _ => laneWiseBy_of_flt (fun _ => exec_faddImm) (fun x l => by rw [x.src_eq]; rfl) fun _ _ => fmtF32.finish_lt _ _ _
  case fmulImm => exact fun _ _ _ _ _ => laneWiseBy_of_flt (fun _ => exec_fmulImm) (fun x l => by rw [x.src_eq]; rfl) fun _ _ => fmtF32.finish_lt _ _ _
  case fmin =>
    exact fun _ _ _ _ _ => laneWiseBy_of_flt (fun _ => exec_fmin) (fun x l => by simp only [x.fsrc_eq]; rfl) fun x l =>
      FFmt.minmax_lt (f := fmtF32) (x.fword_lt _ _ _ _) (x.fword_lt _ _ _ _)
  case fmax =>
    exact fun _ _ _ _ _ => laneWiseBy_of_flt (fun _ => exec_fmax) (fun x l => by simp only [x.fsrc_eq]; rfl) fun x l =>
      FFmt.minmax_lt (f := fmtF32) (x.fword_lt _ _ _ _) (x.fword_lt _ _ _ _)
  case fclamp =>
    exact fun _ _ _ _ _ _ => laneWiseBy_of_flt (fun _ => exec_fclamp) (fun x l => by simp only [x.fsrc_eq]; rfl) fun x l =>
      FFmt.minmax_lt (f := fmtF32) (FFmt.minmax_lt (f := fmtF32) (x.fword_lt _ _ _ _) (x.fword_lt _ _ _ _)) (x.fword_lt _ _ _ _)
  case fsetp =>
    exact fun _ _ _ _ _ _ _ _ => laneWise_of_flt (fun _ => exec_fsetp) fun x l => by
      simp only [x.fsrc_eq, bop_eq_combine, bit_eq_predWord, x.src_eq, toNat_beq_one]
      rfl
  case hadd2 =>
    intro g bf m d a b
    refine laneWiseBy_of_flt (fun _ => exec_hadd2) (fun x l => ?_) fun _ _ => halfPair_lt _
    simp only [elem_wordMods_16]
    exact joinHalves_eq_halfPair (h := fun k => (halfFmt bf).add .rne x.l.ftz (x.fhalf m 0 a k l) (x.fhalf m 1 b k l)) fun k =>
      halfFmt_finish_lt bf .rne x.l.ftz _
  case hfma2 =>
    intro g bf m d a b c
    refine laneWiseBy_of_flt (fun _ => exec_hfma2) (fun x l => ?_) fun _ _ => halfPair_lt _
    simp only [elem_wordMods_16]
    exact joinHalves_eq_halfPair (h := fun k => (halfFmt bf).fma .rne x.l.ftz (x.fhalf m 0 a k l) (x.fhalf m 1 b k l) (x.fhalf m 2 c k l)) fun k =>
      halfFmt_finish_lt bf .rne x.l.ftz _
  case fdot4 =>
    exact fun _ _ _ _ _ _ _ => laneWiseBy_of_flt (fun _ => exec_fdot4) (fun x l => by
      simp only [x.src_eq, wordMods_8, wordMods_32]
      rfl) fun _ _ => fmtF32.finish_lt _ _ _

end Sys2Proof.Machine
end

section
/-! CVT of one element (R159, R160): lane-wise results as lists, codes that fit their width, and one element put into a word. -/
namespace Sys2Proof.Machine

/-! ### Lane-wise results as a list -/

theorem Group.placeOf_ok {g : Group} {d : Opnd} {l : Nat} {q : RegPlace} (hl : l < 64) (h : g.placeOf d l = some q) : q.ok := by
  cases d with
  | v | ind | p | x =>
    cases h
    exact hl
  | s =>
    cases h
    trivial
  | zero | fsr => cases h

theorem Ctx.mem_inLanes {x : Ctx} {d : Opnd} {val : Nat → Word} {r : RegPlace × DWord} :
    r ∈ x.inLanes d val ↔ ∃ l ∈ x.workLanes d, x.g.placeOf d l = some r.1 ∧ r.2 = r.1.keeps (val l) := by
  have hplaced : ∀ l, r ∈ x.placed d l (val l) ↔ x.g.placeOf d l = some r.1 ∧ r.2 = r.1.keeps (val l) := fun l => by
    rw [Ctx.placed]
    cases hq : x.g.placeOf d l with
    | none => simp
    | some q =>
      simp only [List.mem_singleton, Option.some.injEq]
      constructor
      · rintro rfl; exact ⟨rfl, rfl⟩
      · rintro ⟨rfl, h⟩; exact Prod.ext rfl h
  simp only [Ctx.inLanes, List.mem_flatMap, hplaced]

/-- An instruction with a lane-wise effect, whatever registers it names, computes its results in each lane. -/
theorem computes_of_laneWise {i : Instr} {dyn : Ctx → Option Nat} {nms : Ctx → List Named} {body : Ctx → Res} {ok : Ctx → Prop} {d : Opnd}
    {f : Ctx → Nat → Nat × Flags} {val : Ctx → Nat → Word} {fl : Ctx → Nat → Flags} (hexec : ∀ s, exec i s = issueDyn i dyn nms body s)
    (hd : ∀ x, ok x → dyn x = none) (hb : ∀ x, ok x → body x = .ok (x.s.setGroup (x.laneWise d (f x))))
    (hf : ∀ x l, ok x → f x l = ((val x l).toNat, fl x l)) :
    Computes i nms ok (fun x => x.inLanes d (val x)) (fun x => x.lanesFlags d (fl x)) := by
  intro s x hx hok
  obtain ⟨g, hg, hr, hl⟩ := x.laneWise_spec d (val x) (fl x) hx.clean
  have hbody : body x = .ok (x.s.setGroup (g.raiseFlags (x.lanesFlags d (fl x)))) := by
    rw [hb x hok, show f x = fun l => ((val x l).toNat, fl x l) from funext fun l => hf x l hok, hg]
    unfold Group.regsOf at hr
    unfold Group.raiseFlags
    rw [hr]
    rfl
  obtain ⟨h, he, hlook, hm⟩ := computes_of_issue (hexec s) hx (hd x hok) hbody hr
  have hgid : h.gid = x.g.gid := by
    unfold Group.movesOn at hm
    rw [hm]
    exact Group.advance_gid _
  refine ⟨_, h, he, State.setGroup_onlyGroup (by rw [hgid]; exact ctxOf_group hx.1), ⟨?_, ?_⟩, hm⟩
  · intro r hr
    obtain ⟨l, hlw, hq, hv⟩ := Ctx.mem_inLanes.mp hr
    have hqo := Group.placeOf_ok (Ctx.workLanes_lt hlw) hq
    rw [hlook _ hqo, (hl _ hqo).1 l hlw hq, hv]
  · intro q hq hne
    rw [hlook q hq, (hl q hq).2 fun l hlw hp => hne (List.mem_map.mpr ⟨(q, q.keeps (val x l)), Ctx.mem_inLanes.mpr ⟨l, hlw, hp, rfl⟩, rfl⟩)]

/-! ### Codes -/

theorem fmtLayout_width {f : Fmt} {ff : FFmt} (h : fmtLayout f = some ff) : ff.ebits + ff.fbits + 1 = fmtWidth f := by
  cases f <;> simp only [fmtLayout, Option.some.injEq, reduceCtorEq] at h <;> subst h <;> rfl

theorem roundInt_lt {w : Nat} (hw : 0 < w) (mode : RMode) (neg : Bool) (num den : Nat) (e : Int) : (roundInt w mode neg num den e).1 < 2 ^ w := by
  have hhalf : 2 ^ (w - 1) < 2 ^ w := Nat.pow_lt_pow_right (by decide) (by omega)
  have hclamp : ∀ (i : Int) (fl : Flags), (if i < -(2 ^ (w - 1)) then (2 ^ (w - 1), flNV) else if 2 ^ (w - 1) ≤ i then (2 ^ (w - 1) - 1, flNV)
      else ((BitVec.ofInt w i).toNat, fl) : Nat × Flags).1 < 2 ^ w := fun i fl => by
    split
    · exact hhalf
    · split
      · exact (Nat.sub_le _ _).trans_lt hhalf
      · exact BitVec.isLt _
  exact hclamp _ _

/-- A conversion gives a code of its format. -/
theorem fmtConvert_lt (f : Fmt) (mode : RMode) (ftz nanovf : Bool) (v : FVal) : (fmtConvert f mode ftz nanovf v).1 < 2 ^ fmtWidth f := by
  have hw : 0 < fmtWidth f := by cases f <;> decide
  have hhalf : 2 ^ (fmtWidth f - 1) < 2 ^ fmtWidth f := Nat.pow_lt_pow_right (by decide) (by omega)
  unfold fmtConvert
  split
  · split
    · exact Nat.two_pow_pos _
    · dsimp only
      split
      · exact hhalf
      · exact (Nat.sub_le _ _).trans_lt hhalf
    · exact roundInt_lt hw _ _ _ _ _
  · next ff hf =>
    rw [← fmtLayout_width hf]
    split
    · split
      · exact Nat.two_pow_pos _
      · exact ff.nanCode_lt
    · split
      · exact ff.infCode_lt _
      · exact ff.overflow_lt _ _ _
    · exact ff.round_lt _ _ _ _ _ _ _

theorem elem_eq_element (w k : Nat) (u : Word) : elem w k u.toNat = element w k u := by
  rw [elem, element, BitVec.toNat_ushiftRight, Nat.shiftRight_eq_div_pow]

/-- One element put into a value that has room for it. -/
theorem putElem_toNat {n w j : Nat} (hn : w * j + w ≤ n) (old : BitVec n) (code : Nat) : putElem w j old.toNat code = (withElement w j old code).toNat := by
  refine Nat.eq_of_testBit_eq fun i => ?_
  rw [putElem, show elem w j old.toNat = fld old.toNat (w * j) w from rfl, testBit_replace_fld, BitVec.testBit_toNat, BitVec.testBit_toNat, withElement, getLsbD_ofBits]
  by_cases hi : i < n
  · by_cases hin : w * j ≤ i ∧ i < w * j + w <;> simp [hi, hin]
  · have hout : ¬(w * j ≤ i ∧ i < w * j + w) := by omega
    simp [hi, hout, BitVec.getLsbD_of_ge old i (by omega)]

/-! ### The instruction -/

/-- The element that CVT writes lies within 32 bits. -/
theorem cvt_element_fits {g : Guard} {dst src : Fmt} {inK toJ : BitVec 3} {rnd : RMode} {nanovf : Bool} {d a : Opnd}
    (h : (Instr.cvt g dst src inK toJ rnd nanovf d a).wf = true) : fmtWidth dst * toJ.toNat + fmtWidth dst ≤ 32 := by
  simp only [Instr.wf, Instr.accepted, Bool.and_eq_true, decide_eq_true_eq] at h
  have hlt : toJ.toNat < dst.count := by tauto
  cases dst <;> simp only [Fmt.count, fmtWidth] at hlt ⊢ <;> omega

theorem Group.raiseFlags_zero (g : Group) : g.raiseFlags 0 = g := by simp [Group.raiseFlags]

theorem State.modGroup_id (s : State) (gid : Nat) : s.modGroup gid (fun g => g) = s := by
  simp [State.modGroup, modWhere]

/-- Settles O6: by the width of the destination's element and by the destination. -/
theorem conversions : Obligations.Conversions := by
  unfold Obligations.Conversions
  intro g dst src inK toJ rnd nanovf d a hwf nms conv
  have hfits := cvt_element_fits hwf
  have hconv : ∀ (x : Ctx) l, fmtConvert dst rnd x.ftz nanovf (fmtValue src x.ftz (elem (fmtWidth src) inK.toNat (x.src a l))) = conv x l :=
    fun x l => by rw [x.src_eq, elem_eq_element]; rfl
  refine ⟨fun hw => ?wide, fun hn hd => ?narrow, fun hn n hd => ?uniform⟩
  case wide =>
    refine computes_of_laneWise (dyn := fun x => if noDyn x then some 3 else none) (fun _ => exec_cvt) (fun _ _ => rfl)
      (f := conv) (fun x _ => ?_) fun x l _ => ?_
    · simp only [hconv, hw, bne_self_eq_false, Bool.not_false, if_true]
    · rw [codeWord_toNat ((fmtConvert_lt _ _ _ _ _).trans_eq (by rw [hw]))]
  case narrow =>
    refine computes_of_laneWise (dyn := fun x => if noDyn x then some 3 else none) (fun _ => exec_cvt) (fun _ _ => rfl)
      (f := fun x l => (putElem (fmtWidth dst) toJ.toNat (x.src d l) (conv x l).1, (conv x l).2)) (fun x _ => ?_) fun x l _ => ?_
    · simp only [hconv, bne_iff_ne.mpr hn, Bool.not_true, Bool.false_eq_true, if_false]
      cases d with
      | s n => cases hd
      | _ => rfl
    · rw [x.src_eq, putElem_toNat hfits]
  case uniform =>
    subst hd
    refine computes_of_okGroup (dyn := fun x => if noDyn x then some 3 else none) (fun _ => exec_cvt) (fun _ _ => rfl)
      (F := fun x h => if x.any then (h.sset n.toNat ((withElement (fmtWidth dst) toJ.toNat (x.g.sget n.toNat) (conv x 0).1))).raiseFlags (conv x 0).2 else h)
      (fun x _ => ?_) (fun x k => by split <;> rfl) (fun x _ _ => ?_) (fun x _ => ?_) fun x _ r hr => ?_
    · simp only [hconv, bne_iff_ne.mpr hn, Bool.not_true, Bool.false_eq_true, if_false, Ctx.okGroup]
      split
      · simp only [putElem_toNat (hfits.trans (by decide : 32 ≤ 64)), BitVec.ofNat_toNat, BitVec.setWidth_eq]
      · rw [State.modGroup_id]
    · split
      · rfl
      · exact (Group.raiseFlags_zero _).symm
    · split <;> simp
    · split at hr
      · rw [List.mem_singleton.mp hr]; trivial
      · cases hr

end Sys2Proof.Machine
end

section
/-! Results that land later (R106, R107, R142): an outstanding result beside the post-steps and the advance, and the special functions (R165). -/
namespace Sys2Proof.Machine

/-! ### What an outstanding result leaves -/

/-- A group with other index registers. -/
def Group.withIndex (g : Group) (y : Store 32) : Group := { g with x := y }

/-- A group with other outstanding results and another gsr.E. -/
def Group.withPending (g : Group) (o : List Pend) (e : Bool) : Group := { g with outs := o, gsrE := e }

theorem Group.advance_withIndex (g : Group) (y : Store 32) : (g.withIndex y).advance = g.advance.withIndex y := by
  unfold Group.advance Group.withIndex
  dsimp only
  split
  · rfl
  · split
    · rfl
    · split <;> rfl

theorem Group.advance_withPending (g : Group) (o : List Pend) (e : Bool) : (g.withPending o e).advance = g.advance.withPending o e := by
  unfold Group.advance Group.withPending
  dsimp only
  split
  · rfl
  · split
    · rfl
    · split <;> rfl

/-- The advance keeps flags, gsr.E and what is outstanding. -/
theorem Group.advance_keeps (g : Group) : g.advance.fsr = g.fsr ∧ g.advance.gsrE = g.gsrE ∧ g.advance.outs = g.outs := by
  unfold Group.advance
  split
  · exact ⟨rfl, rfl, rfl⟩
  · split
    · exact ⟨rfl, rfl, rfl⟩
    · split <;> exact ⟨rfl, rfl, rfl⟩

/-- In a group without poison a post-step changes index registers alone. -/
theorem Group.stepOne_withIndex {g : Group} (hc : g.clean = true) (ls : List Nat) (o : Opnd) : ∃ y, g.stepOne ls o = g.withIndex y := by
  have hfold : ∀ (l : List Nat) (k : Nat) (f : Word → Word) (g : Group), g.clean = true →
      ∃ y, l.foldl (fun u i => u.xset k i (f (u.xget k i))) g = g.withIndex y := fun l k f => by
    induction l with
    | nil => exact fun g _ => ⟨g.x, rfl⟩
    | cons i t ih =>
      intro g hg
      obtain ⟨-, -, -, hx⟩ := (Group.clean_iff g).mp hg
      have hset : g.xset k i (f (g.xget k i)) = g.withIndex (g.x.set (k * 64 + i) (f (g.xget k i))) := by
        simp only [Group.xset, hx, List.filter_nil, Group.withIndex]
      obtain ⟨y, hy⟩ := ih (g.xset k i (f (g.xget k i))) (by rw [hset]; exact hg)
      exact ⟨y, by rw [List.foldl_cons, hy, hset]; rfl⟩
  cases o with
  | ind st k =>
    cases st with
    | none => exact ⟨g.x, rfl⟩
    | _ => exact hfold _ _ _ _ hc
  | _ => exact ⟨g.x, rfl⟩

theorem Group.postStep_withIndex {g : Group} (hc : g.clean = true) (act : DWord) (nms : List Named) : ∃ y, g.postStep act nms = g.withIndex y := by
  rw [Group.postStep_named]
  generalize lanesOf g.width act = ls
  generalize namedOps nms = ops
  induction ops generalizing g with
  | nil => exact ⟨g.x, rfl⟩
  | cons o t ih =>
    obtain ⟨y, hy⟩ := Group.stepOne_withIndex hc ls o
    obtain ⟨z, hz⟩ := ih (g := g.stepOne ls o) (by rw [hy]; exact hc)
    exact ⟨z, by rw [List.foldl_cons, hz, hy]; rfl⟩

/-- The group after an instruction that leaves a result outstanding: index registers are stepped, and no other register changes. -/
theorem Ctx.finish_pending (x : Ctx) (nms : List Named) (o : List Pend) (e : Bool) (hc : x.g.clean = true) :
    (∀ q : RegPlace, q.ok → (((x.g.withPending o e).postStep x.act nms).advance).look q = x.afterSteps (namedOps nms) q (x.g.look q)) ∧
    ∃ y, ((x.g.withPending o e).postStep x.act nms).advance = (x.g.advance.withPending o e).withIndex y := by
  let y : Ctx := { x with g := x.g.withPending o e }
  have hsteps : ∀ (q : RegPlace) (w : DWord), y.afterSteps (namedOps nms) q w = x.afterSteps (namedOps nms) q w := fun q w => by cases q <;> rfl
  have hlook : ∀ q, y.g.look q = x.g.look q := fun q => by cases q <;> rfl
  refine ⟨fun q hq => ?_, ?_⟩
  · obtain ⟨h, -⟩ := y.finish_spec nms 0 hc (Group.regsOf_refl y.g)
    have := h q hq
    rw [Group.raiseFlags_zero, hsteps, hlook] at this
    exact this
  · obtain ⟨z, hz⟩ := Group.postStep_withIndex (g := x.g.withPending o e) hc x.act nms
    exact ⟨z, by rw [hz, Group.advance_withIndex, Group.advance_withPending]⟩

theorem State.onlyGroup_nextId {t s : State} {h : Group} (k : Nat) (ht : t.onlyGroup s h) : ({ t with nextId := k } : State).onlyGroup { s with nextId := k } h := by
  obtain ⟨h1, h2, h3, h4⟩ := ht
  exact ⟨congrArg (fun t : State => { t with nextId := k }) h1, h2, h3, h4⟩

theorem Group.movesOn_withIndex (g : Group) (y : Store 32) : (g.withIndex y).movesOn g 0 := by
  unfold Group.movesOn
  rw [show g.fsr ||| 0 = g.fsr from BitVec.or_zero]
  rfl

/-- The state in which a context's group has one more result outstanding, with gsr.E as given. -/
def Ctx.leaves (x : Ctx) (e : Group → Bool) (names : List RegName) (busy : Bool) (writes : List RegWrite) (fl : Flags) : State :=
  { x.s.modGroup x.g.gid (fun g => g.withPending (g.outs ++ [⟨x.s.nextId, names, busy, writes, fl, .ready⟩]) (e g)) with nextId := x.s.nextId + 1 }

/-- An instruction whose effect leaves a result outstanding defers it. -/
theorem defersWith_of_leaves {i : Instr} {dyn : Ctx → Option Nat} {nms : Ctx → List Named} {body : Ctx → Res} {ok : Ctx → Prop}
    {also : Ctx → Group → Group} {e : Ctx → Group → Bool} {names : Ctx → List RegName} {busy : Bool} {writes : Ctx → List RegWrite} {fl : Ctx → Flags}
    (hexec : ∀ s, exec i s = issueDyn i dyn nms body s) (hd : ∀ x, ok x → dyn x = none)
    (halso : ∀ x g, also x g = g.withPending g.outs (e x g)) (he : ∀ x g, e x g.advance = e x g)
    (hb : ∀ s x, Runs i nms s x → ok x → body x = .ok (x.leaves (e x) (names x) busy (writes x) (fl x))) : DefersWith i nms ok also names busy writes fl := by
  intro s x hx hok
  have hs := ctxOf_state hx.1
  let P : Group → Group := fun g => g.withPending (g.outs ++ [⟨s.nextId, names x, busy, writes x, fl x, .ready⟩]) (e x g)
  let F : Group → Group := fun g => ((P g).postStep x.act (nms x)).advance
  have hgid : ∀ k, (F k).gid = k.gid := fun k => by rw [Group.advance_gid, Group.postStep_gid]; rfl
  have hstate : (x.leaves (e x) (names x) busy (writes x) (fl x)).modGroup x.g.gid (fun g => (g.postStep x.act (nms x)).advance) =
      { s.modGroup x.g.gid F with nextId := s.nextId + 1 } := by
    rw [Ctx.leaves, hs]
    exact congrArg (fun t : State => { t with nextId := s.nextId + 1 }) (State.modGroup_modGroup s x.g.gid P _ fun _ hk => hk)
  obtain ⟨hl, y, hm⟩ := x.finish_pending (nms x) (x.g.outs ++ [⟨s.nextId, names x, busy, writes x, fl x, .ready⟩]) (e x x.g) hx.clean
  refine ⟨_, F x.g, by rw [hexec, issueDyn_ready hx (hd x hok), hb s x hx hok], ?_, hl, ?_⟩
  · dsimp only
    rw [hstate]
    exact State.onlyGroup_nextId _ (State.modGroup_onlyGroup F (ctxOf_group hx.1) hgid)
  · rw [show F x.g = _ from hm, halso, he]
    rfl

/-- An instruction that has nothing to land changes no register but for post-steps. -/
theorem computesWith_of_nothing {i : Instr} {dyn : Ctx → Option Nat} {nms : Ctx → List Named} {body : Ctx → Res} {ok : Ctx → Prop}
    {also : Ctx → Group → Group} {e : Ctx → Group → Bool} (hexec : ∀ s, exec i s = issueDyn i dyn nms body s) (hd : ∀ x, ok x → dyn x = none)
    (halso : ∀ x g, also x g = g.withPending g.outs (e x g)) (he : ∀ x g, e x g.advance = e x g)
    (hb : ∀ s x, Runs i nms s x → ok x → body x = x.okGroup fun g => g.withPending g.outs (e x g)) : ComputesWith i nms ok also (fun _ => []) (fun _ => 0) := by
  intro s x hx hok
  obtain ⟨hl, y, hm⟩ := x.finish_pending (nms x) x.g.outs (e x x.g) hx.clean
  refine ⟨_, _, by rw [hexec, issue_okGroup hx (hd x hok) (hb s x hx hok) fun _ => rfl],
    State.modGroup_onlyGroup _ (ctxOf_group hx.1) (fun k => by rw [Group.advance_gid, Group.postStep_gid]; rfl),
    ⟨fun _ h => absurd h List.not_mem_nil, fun q hq _ => hl q hq⟩, ?_⟩
  obtain ⟨-, -, houts⟩ := x.g.advance_keeps
  rw [hm, halso, he, houts]
  exact Group.movesOn_withIndex _ _

/-! ### Lane-wise results that land later -/

theorem Ctx.laneWrites_eq (x : Ctx) (d : Opnd) (l n : Nat) : x.laneWrites d l n = x.landing d l (BitVec.ofNat 32 n) := by
  have hn : BitVec.ofNat 64 (n % 2 ^ 32) = (BitVec.ofNat 32 n).setWidth 64 := by
    apply BitVec.eq_of_toNat_eq
    simp
  cases d with
  | s m => simp only [Ctx.laneWrites, Ctx.landing, Group.placeOf, hn]
  | _ => rfl

/-- An effect over lanes that lands later, where there is something to land and where there is nothing. -/
theorem Ctx.outstanding_ready (x : Ctx) (names : List RegName) (busy : Bool) (writes : List RegWrite) (fl : Flags) :
    x.outstanding x.s names busy writes fl .ready = if names = [] ∧ writes = [] ∧ fl = 0 then x.s else x.leaves Group.gsrE names busy writes fl := by
  rw [Ctx.outstanding]
  refine if_congr ?_ rfl rfl
  simp [and_assoc]

/-- A long-latency effect over lanes. -/
theorem Ctx.laneWiseLong_eq (x : Ctx) (d : Opnd) {f : Nat → Nat × Flags} {val : Nat → Word} {fl : Nat → Flags}
    (hf : ∀ l, BitVec.ofNat 32 (f l).1 = val l ∧ (f l).2 = fl l) :
    x.laneWiseLong d f = if x.workLanes d = [] ∨ (x.outNames d 1 = [] ∧ (x.workLanes d).flatMap (fun l => x.landing d l (val l)) = [] ∧ x.lanesFlags d fl = 0) then x.s
      else x.leaves Group.gsrE (x.outNames d 1) d.isInd ((x.workLanes d).flatMap fun l => x.landing d l (val l)) (x.lanesFlags d fl) := by
  have hwrites : (x.workLanes d).flatMap (fun l => x.laneWrites d l (f l).1) = (x.workLanes d).flatMap fun l => x.landing d l (val l) := by
    simp only [x.laneWrites_eq, (hf _).1]
  have hflags : (x.workLanes d).map (fun l => (f l).2) = (x.workLanes d).map fl := by simp only [(hf _).2]
  rw [Ctx.laneWiseLong, List.isEmpty_map, List.flatMap_map, List.map_map, x.outstanding_ready, hwrites, Function.comp_def, hflags]
  by_cases hw : x.workLanes d = []
  · rw [if_pos (by rw [hw]; rfl), if_pos (.inl hw)]
  · rw [if_neg (by rwa [List.isEmpty_iff])]
    exact if_congr (by simp only [hw, false_or]; rfl) rfl rfl

/-- A long-latency instruction over its lanes defers its results. -/
theorem defers_of_laneWiseLong {i : Instr} {nms : Ctx → List Named} {d : Opnd} {f : Ctx → Nat → Nat × Flags} {val : Ctx → Nat → Word} {fl : Ctx → Nat → Flags}
    (hexec : ∀ s, exec i s = issue i noDyn nms (fun x => .ok (x.laneWiseLong d (f x))) s)
    (hf : ∀ x l, BitVec.ofNat 32 (f x l).1 = val x l ∧ (f x l).2 = fl x l) : Defers i d nms val fl := by
  refine ⟨defersWith_of_leaves (dyn := fun x => if noDyn x then some 3 else none) (e := fun _ => Group.gsrE) hexec (fun _ _ => rfl) (fun _ _ => rfl)
      (fun _ g => g.advance_keeps.2.1) fun _ x _ hx => ?_,
    computesWith_of_nothing (dyn := fun x => if noDyn x then some 3 else none) (e := fun _ => Group.gsrE) hexec (fun _ _ => rfl) (fun _ _ => rfl)
      (fun _ g => g.advance_keeps.2.1) fun _ x _ hx => ?_⟩
  · rw [x.laneWiseLong_eq d (hf x), if_neg hx]
  · rw [x.laneWiseLong_eq d (hf x), if_pos hx, Ctx.okGroup]
    exact congrArg Res.ok (State.modGroup_id _ _).symm

/-- Settles O8: each special function is a long-latency effect over lanes, whose codes are the destination's words. -/
theorem specialFunctions : Obligations.SpecialFunctions := by
  unfold Obligations.SpecialFunctions
  refine ⟨?exp2, ?lg2, ?rcp, ?rsq, ?sqrt⟩
  case exp2 => exact fun _ _ _ _ _ _ => defers_of_laneWiseLong (fun _ => exec_exp2) fun x l => by simp only [x.fsrc_eq]; exact ⟨rfl, rfl⟩
  case lg2 => exact fun _ _ _ _ => defers_of_laneWiseLong (fun _ => exec_lg2) fun x l => by simp only [x.fsrc_eq]; exact ⟨rfl, rfl⟩
  case rcp => exact fun _ _ _ _ => defers_of_laneWiseLong (fun _ => exec_rcp) fun x l => by simp only [x.fsrc_eq]; exact ⟨rfl, rfl⟩
  case rsq => exact fun _ _ _ _ => defers_of_laneWiseLong (fun _ => exec_rsq) fun x l => by simp only [x.fsrc_eq]; exact ⟨rfl, rfl⟩
  case sqrt => exact fun _ _ _ _ => defers_of_laneWiseLong (fun _ => exec_sqrt) fun x l => by simp only [x.fsrc_eq]; exact ⟨rfl, rfl⟩

end Sys2Proof.Machine
end

section
/-! PERM, RFAL, votes and predicate logic (R167 to R169, R172): masks bit by bit and predicate sources. -/
namespace Sys2Proof.Machine

theorem getLsbD_maskOf (w : Nat) (f : Nat → Bool) (i : Nat) : (maskOf w f).getLsbD i = (decide (i < 64) && decide (i < w) && f i) := by
  rw [maskOf]
  induction w with
  | zero => simp
  | succ w ih =>
    rw [List.range_succ, List.foldl_append, List.foldl_cons, List.foldl_nil]
    generalize (List.range w).foldl (fun m i => if f i then m ||| (1#64 <<< i) else m) 0 = m at ih ⊢
    have hbit : (1#64 <<< w).getLsbD i = (decide (i < 64) && decide (i = w)) := by
      by_cases h : i = w
      · subst h; simp
      · have hne : ∀ h : i - w < 64, ¬(i < w) → i - w ≠ 0 := fun _ h2 => by omega
        by_cases hl : i < w
        · simp [BitVec.getLsbD_shiftLeft, hl, h]
        · simp [BitVec.getLsbD_shiftLeft, hl, h, BitVec.getLsbD_one, show i - w ≠ 0 by omega]
    by_cases hf : f w = true
    · rw [if_pos hf, BitVec.getLsbD_or, ih, hbit]
      by_cases h : i = w
      · subst h; simp [hf]
      · simp [h, show (i < w + 1) = (i < w) from propext (by omega)]
    · rw [if_neg hf, ih]
      by_cases h : i = w
      · subst h; simp [hf]
      · simp [show (i < w + 1) = (i < w) from propext (by omega)]

/-- The active lanes are lanes of the group. -/
theorem ctxOf_act {s : State} {gd : Guard} {x : Ctx} (h : ctxOf s gd = some x) {l : Nat} (hl : x.act.getLsbD l = true) : l < x.g.width := by
  simp only [ctxOf, Option.bind_eq_bind, Option.bind_eq_some_iff] at h
  obtain ⟨_, -, g, -, _, -, _, -, _, -, h⟩ := h
  simp only [Option.pure_def, Option.some.injEq] at h
  subst h
  rw [getLsbD_maskOf] at hl
  simp only [Bool.and_eq_true, decide_eq_true_eq] at hl
  exact hl.1.2

/-- Some lane is active exactly when the list of active lanes is not empty. -/
theorem any_iff_lanes_ne_nil {s : State} {gd : Guard} {x : Ctx} (h : ctxOf s gd = some x) : x.any = true ↔ x.lanes ≠ [] := by
  rw [Ctx.any, bne_iff_ne, not_iff_not, List.eq_nil_iff_forall_not_mem]
  constructor
  · intro h0 l hl
    have := (mem_lanesOf.mp hl).2
    rw [h0] at this
    simp at this
  · intro hn
    apply BitVec.eq_of_getLsbD_eq
    intro l _
    cases hb : x.act.getLsbD l
    · simp
    · exact absurd (mem_lanesOf.mpr ⟨ctxOf_act h hb, hb⟩) (hn l)

theorem Ctx.psrc_eq (x : Ctx) (neg : Bool) (a : Opnd) : x.psrc neg a = x.psource neg a := by
  funext l
  rw [Ctx.psrc, Ctx.psource, x.src_eq, Bool.bne_eq_xor]
  congr 1
  rw [Bool.eq_iff_iff, bne_iff_ne, decide_eq_true_eq, Ne, Ne, ← BitVec.toNat_inj]
  rfl

/-- A ballot as bits of its own. -/
theorem ballot_eq (x : Ctx) (neg : Bool) (a : Opnd) :
    maskOf x.g.width (fun l => x.act.getLsbD l && x.psrc neg a l) = ofBits 64 (fun k => x.lanes.contains k && x.psource neg a k) := by
  apply BitVec.eq_of_getLsbD_eq
  intro l _
  rw [getLsbD_maskOf, getLsbD_ofBits, x.psrc_eq, Bool.eq_iff_iff]
  simp only [Bool.and_eq_true, decide_eq_true_eq, List.contains_iff_mem, Ctx.lanes, mem_lanesOf]
  tauto

theorem unionFlags_zero {α : Type} (l : List α) : unionFlags (l.map fun _ => (0 : Flags)) = 0 := by
  rw [unionFlags, List.foldl_map]
  induction l with
  | nil => rfl
  | cons a t ih => exact ih

theorem Ctx.lanesFlags_zero (x : Ctx) (d : Opnd) : x.lanesFlags d (fun _ => 0) = 0 := unionFlags_zero _

/-- Settles O9: PERM lands later, RFAL is a lane-wise result of one value, and votes and predicate logic are over predicate sources. -/
theorem lanesVotesAndPredicates : Obligations.LanesVotesAndPredicates := by
  unfold Obligations.LanesVotesAndPredicates
  refine ⟨?perm, ?rfal, ?any, ?all, ?ballot, ?pand, ?por, ?pxor, ?pnot, ?pmov⟩
  case perm =>
    intro g d a b c
    refine defers_of_laneWiseLong (f := fun x l => (if x.src b l < x.g.width then x.src a (x.src b l) else x.src c l, 0)) (fun s => ?_) fun x l => ⟨?_, rfl⟩
    · simp only [exec_perm, execPerm, Ctx.src_eq]
    · simp only [x.src_eq]
      split <;> rw [BitVec.ofNat_toNat, BitVec.setWidth_eq]
  case rfal =>
    intro g d a
    have hhead : ∀ x : Ctx, x.lanes.getD 0 0 = x.lanes.headD 0 := fun x => by cases x.lanes <;> rfl
    have hexec : ∀ s, exec (.rfal g d a) s = issue (.rfal g d a) noDyn
        (fun x => x.crossNames d a (if x.any = true then [(x.lanes.headD 0, x.lanes.headD 0)] else []) [])
        (fun x => .ok (x.s.setGroup (x.laneWise d fun _ => (x.src a (x.lanes.headD 0), 0)))) s := fun s => by
      simp only [exec_rfal, execRfal, hhead]
    have h := computes_of_laneWise (dyn := fun x => if noDyn x then some 3 else none) (ok := always) (val := fun x _ => x.g.word a (x.lanes.headD 0))
      (fl := fun _ _ => 0) hexec (fun _ _ => rfl) (fun _ _ => rfl) fun x _ _ => Prod.ext (x.src_eq a _) rfl
    simpa only [Ctx.lanesFlags_zero] using h
  case any => exact fun _ _ _ _ => laneWise_of_int (fun _ => exec_voteAny) fun x _ => by rw [x.psrc_eq, bit_eq_predWord]
  case all => exact fun _ _ _ _ => laneWise_of_int (fun _ => exec_voteAll) fun x _ => by rw [x.psrc_eq, bit_eq_predWord]
  case ballot => exact fun _ _ _ _ => computes_of_laneWise64 (fun _ => exec_voteBallot) fun x _ => by rw [ballot_eq]
  case pand => exact fun _ _ _ _ _ _ => laneWise_of_int (fun _ => exec_pand) fun x _ => by rw [x.psrc_eq, x.psrc_eq, bit_eq_predWord]
  case por => exact fun _ _ _ _ _ _ => laneWise_of_int (fun _ => exec_por) fun x _ => by rw [x.psrc_eq, x.psrc_eq, bit_eq_predWord]
  case pxor =>
    exact fun _ _ _ _ _ _ => laneWise_of_int (fun _ => exec_pxor) fun x _ => by rw [x.psrc_eq, x.psrc_eq, Bool.bne_eq_xor, bit_eq_predWord]
  case pnot => exact fun _ _ _ _ => laneWise_of_int (fun _ => exec_pnot) fun x _ => by rw [x.psrc_eq, bit_eq_predWord]
  case pmov => exact fun _ _ _ _ => laneWise_of_int (fun _ => exec_pmov) fun x _ => by rw [x.psrc_eq, bit_eq_predWord]

end Sys2Proof.Machine
end

section
/-! States that run one instruction, for refutations; and REDV in a group without lanes (R47 to R49). -/
namespace Sys2Proof.Machine

/-- A reset package whose one group is about to issue an instruction. -/
def issuing (i : Instr) : State := State.reset.withFetchWord 64 (encode i)

/-- A state with every group changed. -/
def State.mapGroups (s : State) (f : Group → Group) : State := { s with groups := s.groups.map f }

/-- The instruction is ready in a state, in a context that meets a test. -/
def readyWith (s : State) (i : Instr) (nms : Ctx → List Named) (ok : Ctx → Bool) : Bool :=
  match ctxOf s (i.guard.getD .always) with
  | some x => x.ready i (nms x) && ok x
  | none => false

theorem runs_of_readyWith {s : State} {i : Instr} {nms : Ctx → List Named} {ok : Ctx → Bool} (h : readyWith s i nms ok = true) :
    ∃ x, Runs i nms s x ∧ ok x = true := by
  rw [readyWith] at h
  split at h
  · next x hx =>
    obtain ⟨hr, ho⟩ := Bool.and_eq_true_iff.mp h
    exact ⟨x, ⟨hx, hr⟩, ho⟩
  · cases h

/-- The next state of an outcome satisfies a test. -/
def nextMeets (o : Host.Outcome State Fault Refusal) (p : State → Bool) : Bool :=
  match o with
  | .next t => p t
  | _ => false

/-- REDV.min over unsigned values to s0, in a group of width 0. -/
def emptyRedv : State := (issuing (.redv .always .minUns (.s 0) (.v 0))).mapGroups fun g => { g with width := 0 }

/-- Refutes O10: in a group of width 0, which the statement admits, the tree of an unsigned minimum has no value to start from, and REDV
writes 0 to its uniform destination, not the identity. -/
theorem not_reductions : ¬ Obligations.Reductions := by
  unfold Obligations.Reductions
  rintro ⟨hint, -⟩
  obtain ⟨hredv, -, -⟩ := hint .minUns rfl
  obtain ⟨hdefers, -⟩ := hredv .always (.s 0) (.v 0)
  obtain ⟨x, hx, hfacts⟩ := runs_of_readyWith (s := emptyRedv) (i := .redv .always .minUns (.s 0) (.v 0)) (nms := fun _ => namesA (.s 0) [.v 0])
    (ok := fun x => decide (x.lanes = [] ∧ x.g.outs = [] ∧ x.g.gid = 2)) (by decide +kernel)
  obtain ⟨hlanes, houts, hgid⟩ := of_decide_eq_true hfacts
  obtain ⟨t, h, he, ⟨-, -, hg, -⟩, -, hh⟩ := hdefers _ x hx ⟨by simp [Opnd.isS], by simp [Ctx.outNames]⟩
  have hwritten : nextMeets (exec (.redv .always .minUns (.s 0) (.v 0)) emptyRedv) (fun t => (t.group? 2).all fun g => g.outs.map (·.writes) == [[.s 0 0]]) = true := by
    decide +kernel
  have hid : h.gid = 2 := by
    rw [hh]
    exact x.g.advance_gid.trans hgid
  have hclaim : h.outs.map (·.writes) = [[.s 0 0xFFFFFFFF]] := by
    rw [hh]
    simp [houts, hlanes, Opnd.isS, Ctx.landing, Group.placeOf, Ctx.reduce, wordIdentity]
  rw [he, nextMeets, ← hid, hg, Option.all_some, hclaim] at hwritten
  exact absurd hwritten (by decide)

end Sys2Proof.Machine
end

section
/-! RPT (R174 to R177): the stepped fields of a repeated word, bit by bit, and the advance. -/
namespace Sys2Proof.Machine

/-! ### The stepped word -/

/-- One field of a repeated word stepped (R175). -/
def stepPart (w : DWord) (steps : BitVec 4) (by' : Nat) (u : DWord) (p : Nat × Nat) : DWord :=
  if steps.getLsbD p.1 then BitVec.ofNat 64 (u.toNat - fld w.toNat p.2 8 * 2 ^ p.2 + (fld w.toNat p.2 8 + by') % 256 * 2 ^ p.2) else u

theorem stepWord_eq (w : DWord) (steps : BitVec 4) (by' : Nat) : stepWord w steps by' = [(0, 15), (1, 23), (2, 31), (3, 39)].foldl (stepPart w steps by') w := rfl

theorem fld_congr {m n lo k : Nat} (h : ∀ i, lo ≤ i → i < lo + k → m.testBit i = n.testBit i) : fld m lo k = fld n lo k := by
  refine Nat.eq_of_testBit_eq fun i => ?_
  rw [fld, fld, Nat.testBit_mod_two_pow, Nat.testBit_mod_two_pow, Nat.testBit_div_two_pow, Nat.testBit_div_two_pow]
  by_cases hi : i < k
  · rw [h (i + lo) (by omega) (by omega)]
  · simp [hi]

/-- A field that the word still holds is stepped, and no other bit changes. -/
theorem getLsbD_stepPart {w u : DWord} {steps : BitVec 4} {by' : Nat} {p : Nat × Nat} (hp : p.2 + 8 ≤ 64)
    (hu : ∀ i, p.2 ≤ i → i < p.2 + 8 → u.getLsbD i = w.getLsbD i) (i : Nat) :
    (stepPart w steps by' u p).getLsbD i =
      if p.2 ≤ i ∧ i < p.2 + 8 then (if steps.getLsbD p.1 then ((fld w.toNat p.2 8 + by') % 256).testBit (i - p.2) else w.getLsbD i) else u.getLsbD i := by
  rw [stepPart]
  cases hs : steps.getLsbD p.1
  case false =>
    simp only [Bool.false_eq_true, if_false]
    by_cases hi : p.2 ≤ i ∧ i < p.2 + 8
    · rw [if_pos hi, hu i hi.1 hi.2]
    · rw [if_neg hi]
  case true =>
    have hfld : fld w.toNat p.2 8 = fld u.toNat p.2 8 := fld_congr fun i h1 h2 => by rw [BitVec.testBit_toNat, BitVec.testBit_toNat, hu i h1 h2]
    have hbit := testBit_replace_fld u.toNat ((fld w.toNat p.2 8 + by') % 256) p.2 8 i
    rw [Nat.mod_eq_of_lt (show (fld w.toNat p.2 8 + by') % 256 < 2 ^ 8 from Nat.mod_lt _ (by decide)), ← hfld] at hbit
    rw [if_pos rfl, BitVec.getLsbD_ofNat, hbit, BitVec.testBit_toNat]
    by_cases hi : i < 64
    · simp [hi]
    · have hout : ¬(p.2 ≤ i ∧ i < p.2 + 8) := by omega
      simp [hi, hout, BitVec.getLsbD_of_ge u i (by omega)]

/-- Fields that lie apart, stepped one after another. -/
theorem getLsbD_foldl_stepPart {w : DWord} {steps : BitVec 4} {by' : Nat} (i : Nat) : ∀ (ps : List (Nat × Nat)) (u : DWord),
    ps.Pairwise (fun p q => p.2 + 8 ≤ q.2) → (∀ p ∈ ps, p.2 + 8 ≤ 64) → (∀ p ∈ ps, ∀ i, p.2 ≤ i → i < p.2 + 8 → u.getLsbD i = w.getLsbD i) →
    (∀ p ∈ ps, p.2 ≤ i → i < p.2 + 8 → (ps.foldl (stepPart w steps by') u).getLsbD i =
      if steps.getLsbD p.1 then ((fld w.toNat p.2 8 + by') % 256).testBit (i - p.2) else w.getLsbD i) ∧
    ((∀ p ∈ ps, i < p.2 ∨ p.2 + 8 ≤ i) → (ps.foldl (stepPart w steps by') u).getLsbD i = u.getLsbD i)
  | [], u, _, _, _ => ⟨fun _ h => absurd h List.not_mem_nil, fun _ => rfl⟩
  | q :: qs, u, hpw, h64, hu => by
    obtain ⟨hq, hqs⟩ := List.pairwise_cons.mp hpw
    have hpart := getLsbD_stepPart (steps := steps) (by' := by') (h64 q List.mem_cons_self) (hu q List.mem_cons_self)
    obtain ⟨hin, hout⟩ := getLsbD_foldl_stepPart (w := w) (steps := steps) (by' := by') i qs (stepPart w steps by' u q) hqs (fun p hp => h64 p (List.mem_cons_of_mem _ hp)) fun p hp j h1 h2 => by
      have hqp := hq p hp
      rw [hpart, if_neg (show ¬(q.2 ≤ j ∧ j < q.2 + 8) by omega)]
      exact hu p (List.mem_cons_of_mem _ hp) j h1 h2
    refine ⟨fun p hp h1 h2 => ?_, fun hall => ?_⟩
    · rcases List.mem_cons.mp hp with rfl | hp
      · rw [List.foldl_cons, hout fun r hr => .inl (by have := hq r hr; omega), hpart, if_pos ⟨h1, h2⟩]
      · rw [List.foldl_cons, hin p hp h1 h2]
    · have hqi := hall q List.mem_cons_self
      rw [List.foldl_cons, hout fun p hp => hall p (List.mem_cons_of_mem _ hp), hpart, if_neg (by omega)]

/-- A stepped field, and every bit outside the four fields (R175). -/
theorem stepWord_fields (w : DWord) (steps : BitVec 4) (by' j : Nat) (hj : j < 4) : (stepWord w steps by').extractLsb' (fieldBit j) 8 =
    if steps.getLsbD j then w.extractLsb' (fieldBit j) 8 + BitVec.ofNat 8 by' else w.extractLsb' (fieldBit j) 8 := by
  have hmem : (j, fieldBit j) ∈ [(0, 15), (1, 23), (2, 31), (3, 39)] := by
    rcases (by omega : j = 0 ∨ j = 1 ∨ j = 2 ∨ j = 3) with rfl | rfl | rfl | rfl <;> decide
  have hnew : (BitVec.ofNat 8 ((fld w.toNat (fieldBit j) 8 + by') % 256)) = w.extractLsb' (fieldBit j) 8 + BitVec.ofNat 8 by' := by
    apply BitVec.eq_of_toNat_eq
    rw [BitVec.toNat_add, BitVec.extractLsb'_toNat, BitVec.toNat_ofNat, BitVec.toNat_ofNat, fld, Nat.shiftRight_eq_div_pow]
    omega
  apply BitVec.eq_of_getLsbD_eq
  intro b hb
  have hbit := (getLsbD_foldl_stepPart (w := w) (steps := steps) (by' := by') (fieldBit j + b) _ w (by decide) (by decide) fun _ _ _ _ _ => rfl).1 _ hmem (Nat.le_add_right _ _)
    (Nat.add_lt_add_left hb _)
  rw [BitVec.getLsbD_extractLsb', stepWord_eq, hbit, ← hnew, Nat.add_sub_cancel_left]
  cases steps.getLsbD j
  · simp [hb]
  · simp only [if_true, BitVec.getLsbD_ofNat, hb, decide_true, Bool.true_and]

theorem stepWord_rest (w : DWord) (steps : BitVec 4) (by' b : Nat) (hb : b < 15 ∨ 47 ≤ b) : (stepWord w steps by').getLsbD b = w.getLsbD b := by
  refine (getLsbD_foldl_stepPart (w := w) b [(0, 15), (1, 23), (2, 31), (3, 39)] w (by decide) (by decide) fun _ _ _ _ _ => rfl).2 fun p hp => ?_
  simp only [List.mem_cons, List.not_mem_nil, or_false] at hp
  rcases hp with rfl | rfl | rfl | rfl <;> dsimp only <;> omega

/-! ### The word now, and the advance -/

theorem Group.wordNow_zero {g : Group} (h : g.repLeft = 0) (w : DWord) : g.wordNow w = w := by
  rw [Group.wordNow, h]
  rfl

theorem Group.wordNow_step {g : Group} {steps : BitVec 4} {k : Nat} (h : g.repLeft ≠ 0) (hs : g.repSteps = some (steps, k)) (w : DWord) :
    g.wordNow w = stepWord w steps (g.repDone.toNat * k) := by
  rw [Group.wordNow, hs]
  cases hn : g.repLeft.toNat with
  | zero => exact absurd (BitVec.eq_of_toNat_eq hn) h
  | succ n => rfl

theorem Group.advance_repeat {g : Group} {c : Clause} (hc : g.clause = some c) (h : 1 < g.repLeft.toNat) :
    g.advance = { g with repDone := g.repDone + 1, repLeft := g.repLeft - 1, hold := .none } := by
  rw [Group.advance, hc]
  exact if_pos h

theorem Group.advance_next {g : Group} {c : Clause} (hc : g.clause = some c) (h : g.repLeft.toNat ≤ 1) (hi : c.index + 1 < c.words.length) :
    g.advance = { g with repDone := 0, repLeft := 0, repSteps := none, hold := .none, clause := some { c with index := c.index + 1 } } := by
  rw [Group.advance, hc]
  exact (if_neg (Nat.not_lt.mpr h)).trans (if_pos hi)

theorem Group.advance_end {g : Group} {c : Clause} (hc : g.clause = some c) (h : g.repLeft.toNat ≤ 1) (hi : c.words.length ≤ c.index + 1) :
    g.advance = { g.arriveAt c.lanes (BitVec.ofNat 32 (c.start + 8 * (c.header.toNat % 16 + 2))) with
      repDone := 0, repLeft := 0, repSteps := none, hold := .none, clause := none } := by
  rw [Group.advance, hc]
  exact (if_neg (Nat.not_lt.mpr h)).trans (if_neg (Nat.not_lt.mpr hi))

/-- RPT sets up its repeats and stays in its clause. -/
theorem exec_rpt_ready {g : Guard} {steps stride : BitVec 4} {count : BitVec 6} {s : State} {x : Ctx} (hx : Runs (.rpt g steps stride count) (fun _ => []) s x)
    {w : Option DWord} (hw : x.c.words[x.c.index + 1]? = some w)
    (hok : ∀ v, w = some v → repeatOk x.l.slots v.toNat steps (count.toNat + 1) (stride.toNat + 1) = true) :
    exec (.rpt g steps stride count) s = .next (s.modGroup x.g.gid fun h => Group.repeating h x.c (count.setWidth 7 + 1) (steps, stride.toNat + 1)) := by
  have hcount : BitVec.ofNat 7 (count.toNat + 1) = count.setWidth 7 + 1 := by
    apply BitVec.eq_of_toNat_eq
    simp
  rw [exec_rpt, execRpt, issue, issueDyn_ready hx, hcount, ctxOf_state hx.1]
  · rfl
  · rw [hw]
    cases w with
    | none => rfl
    | some v => simp [hok v rfl]

/-- Settles O11: the word field by field, the advance by its three cases. -/
theorem repeats : Obligations.Repeats := by
  unfold Obligations.Repeats
  refine ⟨fun g steps stride count s x hx w hw hok => exec_rpt_ready hx hw hok, fun g w h => Group.wordNow_zero h w, fun g w steps k h hs => ⟨fun j hj => ?_, fun b hb => ?_⟩,
    fun g c hc => ⟨Group.advance_repeat hc, Group.advance_next hc, Group.advance_end hc⟩⟩
  · rw [Group.wordNow_step h hs, stepWord_fields w steps _ j hj]
  · rw [Group.wordNow_step h hs, stepWord_rest w steps _ b hb]

end Sys2Proof.Machine
end

section
/-! The reset package, and the words that the spec writes out. -/
namespace Sys2Proof.Machine

/-- Settles O52: each word is decoded by evaluation. -/
theorem decodedWords : Obligations.DecodedWords := by
  unfold Obligations.DecodedWords
  decide +kernel

theorem reset_dies : ∀ d ∈ State.reset.dies, d.credit = 0 ∧ d.clock = 4000 ∧ d.fenced = false ∧ d.ecorr = 0 ∧ d.eunc = 0 := by decide +kernel

theorem reset_credit_limits : ∀ die < 4, State.reset.win (0x1004 + 0x100 * die) = 5 := by decide +kernel

/-- Memory of a reset package lists nothing, and an unlisted byte of a word without an owner reads 0. -/
theorem reset_byte (pa : Nat) : State.reset.mem.byte pa = 0 := rfl

/-- Settles O56: the fields of the reset state, and what its empty lists read as. -/
theorem resetState : Obligations.ResetState := by
  unfold Obligations.ResetState
  exact ⟨rfl, rfl, rfl, rfl, rfl, rfl, reset_dies, reset_credit_limits, by decide +kernel, fun _ => rfl, reset_byte, by decide +kernel⟩

end Sys2Proof.Machine
end

section
/-! The step (R104, R105, R131, R175): what a group inside its clause issues, what the bookkeeping after a step changes, and that the device's
own write-backs keep every byte (R10, R12, R258, R278). -/
namespace Sys2Proof.Machine

/-! ### Registrations that end or are spilled -/

/-- The registry names aligned words, no word twice, and none whose home is lost. -/
def State.calm (s : State) : Prop :=
  (∀ r ∈ s.mem.regs, r.pa % 4 = 0) ∧ (s.mem.regs.map Reg.pa).Nodup ∧ ∀ r ∈ s.mem.regs, s.homeLost r.pa = false

/-- A state is another with its memory changed, and where the registry is calm it stays so and no byte changes. -/
def State.keepsBytes (t s : State) : Prop :=
  t = { s with mem := t.mem } ∧ (s.calm → t.calm ∧ ∀ a, t.mem.byte a = s.mem.byte a)

theorem State.keepsBytes_refl (s : State) : s.keepsBytes s := ⟨rfl, fun h => ⟨h, fun _ => rfl⟩⟩

theorem State.keepsBytes_trans {u t s : State} (h1 : u.keepsBytes t) (h2 : t.keepsBytes s) : u.keepsBytes s := by
  obtain ⟨hu, hbu⟩ := h1
  obtain ⟨ht, hbt⟩ := h2
  refine ⟨by rw [hu, ht], fun hs => ?_⟩
  obtain ⟨hct, hyt⟩ := hbt hs
  obtain ⟨hcu, hyu⟩ := hbu hct
  exact ⟨hcu, fun a => (hyu a).trans (hyt a)⟩

theorem State.keepsBytes_foldl {α : Type} (f : State → α → State) (hf : ∀ s a, (f s a).keepsBytes s) (l : List α) (s : State) : (l.foldl f s).keepsBytes s := by
  induction l generalizing s with
  | nil => exact s.keepsBytes_refl
  | cons a t ih => exact State.keepsBytes_trans (ih (f s a)) (hf s a)

theorem Mem.regs_writeBack_sublist (m : Mem) (pw : Nat) : (m.writeBack pw).regs.Sublist m.regs := by
  rw [Mem.writeBack]
  split
  · exact List.Sublist.refl _
  · exact List.filter_sublist

theorem Mem.regs_writeBackAll_sublist (m : Mem) (l : List Nat) : (m.writeBackAll l).regs.Sublist m.regs := by
  rw [Mem.writeBackAll]
  induction l generalizing m with
  | nil => exact List.Sublist.refl _
  | cons p r ih => exact (ih (m.writeBack p)).trans (m.regs_writeBack_sublist p)

/-- A registry that names no more words, each as before, is as calm. -/
theorem State.calm_of_sublist {s : State} {m : Mem} {l : List Reg} (hm : m.regs.Sublist l) (hl : State.calm { s with mem := { s.mem with regs := l } }) :
    State.calm { s with mem := m } := by
  obtain ⟨h1, h2, h3⟩ := hl
  exact ⟨fun r hr => h1 r (hm.subset hr), (hm.map Reg.pa).nodup h2, fun r hr => h3 r (hm.subset hr)⟩

theorem State.giveBack_keepsBytes (s : State) (ws : List Nat) (hws : s.calm → ∀ p ∈ ws, p % 4 = 0) : (s.giveBack ws).keepsBytes s := by
  refine ⟨rfl, fun hs => ?_⟩
  have hlost := hs.2.2
  have hregs : s.mem.regs.filter (fun r => !(ws.contains r.pa && s.homeLost r.pa)) = s.mem.regs :=
    List.filter_eq_self.mpr fun r hr => by rw [hlost r hr, Bool.and_false, Bool.not_false]
  rw [State.giveBack, hregs]
  exact ⟨State.calm_of_sublist (s.mem.regs_writeBackAll_sublist _) hs,
    fun a => s.mem.byte_writeBackAll _ (fun p hp => hws hs p (List.mem_of_mem_filter hp)) a⟩

/-- LINE_EVICTION changes no byte (R258). -/
theorem State.evict_keepsBytes (s : State) (ag : Agent) (pa : Nat) : (s.evict ag pa).keepsBytes s := by
  have hgive := s.giveBack_keepsBytes ((s.mem.regs.filter fun r => r.owner == ag && alignDown r.pa 128 == alignDown pa 128).map fun r => r.pa) fun hs p hp => by
    obtain ⟨r, hr, rfl⟩ := List.mem_map.mp hp
    exact hs.1 r (List.mem_of_mem_filter hr)
  obtain ⟨heq, hcalm⟩ := hgive
  exact ⟨congrArg (fun t : State => { t with mem := (s.evict ag pa).mem }) heq, hcalm⟩

/-- What a byte depends on: the masks and values of the registry's words, and the home's bytes. -/
theorem Mem.byte_congr {m n : Mem} (hb : m.bytes = n.bytes)
    (hr : ∀ k, (m.reg? k).map (fun r => (r.mask, r.value)) = (n.reg? k).map fun r => (r.mask, r.value)) (a : Nat) : m.byte a = n.byte a := by
  have h := hr (wordOf a)
  rw [Mem.byte, Mem.byte, hb]
  cases hm : m.reg? (wordOf a) <;> cases hn : n.reg? (wordOf a) <;> rw [hm, hn] at h
  · cases h
  · cases h
  · injection h with h
    injection h with hmask hvalue
    dsimp only
    rw [hmask, hvalue]

/-- Among registrations of different words the one of a word does not depend on their order. -/
theorem find_reg_of_perm {l k : List Reg} (hp : l.Perm k) (hn : (l.map Reg.pa).Nodup) (pw : Nat) :
    l.find? (fun r => r.pa == pw) = k.find? (fun r => r.pa == pw) := by
  have hone : ∀ {l : List Reg}, (l.map Reg.pa).Nodup → ∀ r, l.find? (fun r => r.pa == pw) = some r ↔ r ∈ l ∧ r.pa = pw := fun {l} hn r => by
    constructor
    · intro h
      exact ⟨List.mem_of_find?_eq_some h, by simpa using List.find?_some h⟩
    · rintro ⟨hr, rfl⟩
      cases hf : l.find? (fun x => x.pa == r.pa) with
      | none => exact absurd (List.find?_eq_none.mp hf r hr) (by simp)
      | some x =>
        have hx : x.pa = r.pa := by simpa using List.find?_some hf
        rw [List.inj_on_of_nodup_map hn (List.mem_of_find?_eq_some hf) hr hx]
  apply Option.ext
  intro r
  rw [hone hn, hone ((hp.map Reg.pa).nodup_iff.mp hn), hp.mem_iff]

/-- A registry state moved to a spill table. -/
def Reg.moved (r : Reg) : Reg := { r with spilled := true }

/-- The registry with the states of a line spilled. -/
def Mem.spilled (m : Mem) (line : Nat) : Mem :=
  { m with regs := m.regs.filter (fun r => !(alignDown r.pa 128 == line && !r.spilled)) ++ (m.regs.filter fun r => alignDown r.pa 128 == line && !r.spilled).map Reg.moved }

/-- A spill moves registry states and changes no word of them. -/
theorem Mem.spilled_perm (m : Mem) (line : Nat) : ((m.spilled line).regs.map Reg.moved).Perm (m.regs.map Reg.moved) := by
  have hmoved : ∀ l : List Reg, (l.map Reg.moved).map Reg.moved = l.map Reg.moved := fun l => by rw [List.map_map]; rfl
  have hsplit := (List.filter_append_perm (fun r : Reg => !(alignDown r.pa 128 == line && !r.spilled)) m.regs).map Reg.moved
  simp only [Bool.not_not, List.map_append] at hsplit
  rw [Mem.spilled, List.map_append, hmoved]
  exact hsplit

theorem map_pa_moved (l : List Reg) : (l.map Reg.moved).map Reg.pa = l.map Reg.pa := by
  rw [List.map_map]
  rfl

theorem find_map_moved (l : List Reg) (pw : Nat) : (l.map Reg.moved).find? (fun r => r.pa == pw) = (l.find? fun r => r.pa == pw).map Reg.moved := List.find?_map ..

theorem State.calm_spilled {s : State} (hs : s.calm) (line : Nat) : State.calm { s with mem := s.mem.spilled line } := by
  obtain ⟨h1, h2, h3⟩ := hs
  have hpas : ((s.mem.spilled line).regs.map Reg.pa).Perm (s.mem.regs.map Reg.pa) := by
    have := (s.mem.spilled_perm line).map Reg.pa
    rwa [map_pa_moved, map_pa_moved] at this
  have hmem : ∀ r ∈ (s.mem.spilled line).regs, ∃ q ∈ s.mem.regs, q.pa = r.pa := fun r hr =>
    List.mem_map.mp (hpas.mem_iff.mp (List.mem_map_of_mem hr))
  refine ⟨fun r hr => ?_, hpas.nodup_iff.mpr h2, fun r hr => ?_⟩
  · obtain ⟨q, hq, he⟩ := hmem r hr
    rw [← he]
    exact h1 q hq
  · obtain ⟨q, hq, he⟩ := hmem r hr
    rw [← he]
    exact h3 q hq

theorem Mem.byte_spilled {m : Mem} (hn : (m.regs.map Reg.pa).Nodup) (line a : Nat) : (m.spilled line).byte a = m.byte a := by
  refine Mem.byte_congr (m := m.spilled line) (n := m) rfl (fun k => ?_) a
  have hperm := m.spilled_perm line
  have hnodup : (((m.spilled line).regs.map Reg.moved).map Reg.pa).Nodup := by
    refine ((hperm.map Reg.pa).nodup_iff).mpr ?_
    rwa [map_pa_moved]
  have hfind := find_reg_of_perm hperm hnodup k
  rw [find_map_moved, find_map_moved] at hfind
  have hpair : ∀ o : Option Reg, o.map (fun r => (r.mask, r.value)) = (o.map Reg.moved).map fun r => (r.mask, r.value) := fun o => by cases o <;> rfl
  rw [hpair, hpair (m.reg? k)]
  exact congrArg (Option.map fun r : Reg => (r.mask, r.value)) hfind

/-- REGISTRATION_SPILL changes no byte (R278). -/
theorem State.spill_keepsBytes (s : State) (pa : Nat) : (s.spill pa).keepsBytes s := by
  refine ⟨rfl, fun hs => ?_⟩
  have hold : ∀ p ∈ ((s.mem.regs.filter (fun r => !(alignDown r.pa 128 == alignDown pa 128 && !r.spilled))).filter (fun r => r.spilled && r.pa / 2 ^ 37 == alignDown pa 128 / 2 ^ 37)).map
      (fun r => r.pa), p % 4 = 0 := fun p hp => by
    obtain ⟨r, hr, rfl⟩ := List.mem_map.mp hp
    exact hs.1 r (List.mem_of_mem_filter (List.mem_of_mem_filter hr))
  refine ⟨State.calm_of_sublist ((s.mem.spilled (alignDown pa 128)).regs_writeBackAll_sublist _) (State.calm_spilled hs _), fun a => ?_⟩
  refine (Mem.byte_writeBackAll (s.mem.spilled (alignDown pa 128)) _ (fun p hp => ?_) a).trans (Mem.byte_spilled hs.2.1 _ a)
  exact hold p (List.mem_of_mem_take (List.mem_of_mem_filter hp))

/-! ### Caches within their capacities -/

theorem State.shrink_keepsBytes {α : Type} (s : State) (held : State → List α) (room : Nat) {drop : State → α → State} (hd : ∀ s a, (drop s a).keepsBytes s) :
    (s.shrink held room drop).keepsBytes s := by
  refine State.keepsBytes_foldl _ (fun u k => ?_) _ s
  split
  · exact hd u _
  · exact u.keepsBytes_refl

/-- Bringing caches within their capacities changes no byte (R10, R12, R16, R258, R278). -/
theorem State.fitCaches_keepsBytes (s : State) : s.fitCaches.keepsBytes s := by
  have hl1 : ∀ (u : State) (c : Nat), (u.shrink (fun v => v.mem.l1Held c) Config.l1Lines fun v a => v.evict (l1Of c) a).keepsBytes u := fun u c =>
    u.shrink_keepsBytes _ _ fun v a => v.evict_keepsBytes _ a
  have hicache : ∀ (u : State) (c : Nat), (u.shrink (fun v => v.mem.icacheHeld c) Config.icacheLines fun v a =>
      { v with mem := { v.mem with icache := v.mem.icache.filter (fun e => !(e.core == c && e.vi == a.1 && alignDown e.va 128 == a.2)) } }).keepsBytes u := fun u c =>
    u.shrink_keepsBytes _ _ fun v a => ⟨rfl, fun h => ⟨h, fun _ => rfl⟩⟩
  have hslice : ∀ (u : State) (k : Nat), (u.shrink (fun v => v.mem.sliceHeld k) Config.sliceLines State.spill).keepsBytes u := fun u k =>
    u.shrink_keepsBytes _ _ State.spill_keepsBytes
  have hif : ∀ (b : Prop) [Decidable b] (t u v : State), t.keepsBytes v → u.keepsBytes v → (if b then t else u).keepsBytes v := fun b _ t u v ht hu => by
    split
    · exact ht
    · exact hu
  have h1 := fun l => hif (s.mem.copies.length + s.mem.regs.length ≤ Config.l1Lines) s _ s s.keepsBytes_refl (State.keepsBytes_foldl _ hl1 l s)
  have h2 := fun t ht l => hif (s.mem.icache.length ≤ Config.icacheLines) t _ s ht (State.keepsBytes_trans (State.keepsBytes_foldl _ hicache l t) ht)
  have h3 := fun t ht l => hif (s.mem.regs.length ≤ Config.sliceLines) t _ s ht (State.keepsBytes_trans (State.keepsBytes_foldl _ hslice l t) ht)
  exact h3 _ (h2 _ (h1 _) _) _

/-! ### What a step leaves behind -/

theorem State.noteParks_spec (s : State) : s.noteParks = { s with groups := s.noteParks.groups } ∧
    List.Forall₂ (fun h g => ∃ ps, h = { g with parks := ps } ∧ List.Forall₂ (fun q p => ∃ b, q = { p with met := b }) ps g.parks) s.noteParks.groups s.groups := by
  have hsame : ∀ l : List Park, List.Forall₂ (fun q p : Park => ∃ b, q = { p with met := b }) l l := fun l => List.forall₂_same.mpr fun p _ => ⟨p.met, rfl⟩
  rw [State.noteParks]
  split
  · exact ⟨rfl, List.forall₂_same.mpr fun g _ => ⟨g.parks, rfl, hsame _⟩⟩
  · refine ⟨rfl, List.forall₂_map_left_iff.mpr (List.forall₂_same.mpr fun g _ => ?_)⟩
    split
    · exact ⟨_, rfl, List.forall₂_map_left_iff.mpr (List.forall₂_same.mpr fun p _ => ⟨_, rfl⟩)⟩
    · exact ⟨g.parks, rfl, hsame _⟩

/-- Noting what parked lanes see does not let a team's area be saved. -/
theorem State.noteParks_teamLeaves (s : State) (t : Task) : s.noteParks.teamLeaves t = s.teamLeaves t := by
  have hmap : ∀ (F : Group → Group), (∀ g, (F g).task = g.task ∧ (F g).residency = g.residency) →
      State.teamLeaves { s with groups := s.groups.map F } t = s.teamLeaves t := fun F hF => by
    have hhere : ∀ g, (F g).here = g.here := fun g => by rw [Group.here, Group.here, (hF g).2]
    simp only [State.teamLeaves, List.filter_map, List.any_map, Function.comp_def, (hF _).1, (hF _).2, hhere]
  rw [State.noteParks]
  split
  · rfl
  · refine hmap _ fun g => ?_
    split <;> exact ⟨rfl, rfl⟩

theorem State.saveTeams_none {s : State} (h : ∀ k ∈ s.tasks, s.teamLeaves k = false) : s.saveTeams = s := by
  have hnone : s.tasks.filter s.teamLeaves = [] := List.filter_eq_nil_iff.mpr fun k hk => by rw [h k hk]; decide
  rw [State.saveTeams, hnone]
  rfl

/-- What the device does at once after a step, where no team's area is to be saved. -/
theorem State.follow_eq {t : State} (h : ∀ k ∈ t.tasks, t.teamLeaves k = false) : t.follow = t.noteParks.fitCaches := by
  rw [State.follow, State.saveTeams_none]
  intro k hk
  rw [t.noteParks_teamLeaves]
  rw [t.noteParks_spec.1] at hk
  exact h k hk

theorem State.eq_of_mem_of_groups {a b c : State} (h1 : a = { b with mem := a.mem }) (h2 : b = { c with groups := b.groups }) :
    a = { c with mem := a.mem, groups := a.groups } := by
  have hg : a.groups = b.groups := by rw [h1]
  rw [hg]
  refine h1.trans ?_
  rw [h2]

theorem State.follow_spec {t : State} (h : ∀ k ∈ t.tasks, t.teamLeaves k = false) :
    t.follow = { t with mem := t.follow.mem, groups := t.follow.groups } ∧
    List.Forall₂ (fun h g => ∃ ps, h = { g with parks := ps } ∧ List.Forall₂ (fun q p => ∃ b, q = { p with met := b }) ps g.parks) t.follow.groups t.groups ∧
    (Memory.wf t.mem = true → (t.mem.regs.map Reg.pa).Nodup → (∀ r ∈ t.mem.regs, t.homeLost r.pa = false) → ∀ pa, t.follow.mem.byte pa = t.mem.byte pa) := by
  obtain ⟨hparks, hgroups⟩ := t.noteParks_spec
  obtain ⟨hcaches, hbytes⟩ := t.noteParks.fitCaches_keepsBytes
  rw [State.follow_eq h]
  have hkeep : t.noteParks.fitCaches.groups = t.noteParks.groups := by rw [hcaches]
  refine ⟨?_, hkeep ▸ hgroups, fun hwf hn hlost pa => ?_⟩
  · exact State.eq_of_mem_of_groups hcaches hparks
  · obtain ⟨-, -, -, -, -, hregs⟩ := Memory.wf_iff.mp hwf
    have hmem : t.noteParks.mem = t.mem := by rw [hparks]
    have hcalm : t.noteParks.calm := by
      rw [hparks]
      exact ⟨hregs, hn, hlost⟩
    rw [(hbytes hcalm).2, hmem]

/-- What the bookkeeping after a step changes of a group's hold. -/
theorem Hold.after_spec (h : Hold) (m : Mem) (e : Bool) : h.after m e = h ∨ h.after m e = .none ∨ (∃ n, h = .submit n ∧ h.after m e = .resubmit n) ∨
    ∃ n, h = .stmap n ∧ h.after m e = .remap n := by
  cases h with
  | again => cases e <;> simp [Hold.after]
  | fill core ls =>
    rw [Hold.after]
    split
    · exact .inr (.inl rfl)
    · exact .inl rfl
  | submit n => cases e <;> simp [Hold.after]
  | stmap n => cases e <;> simp [Hold.after]
  | _ => exact .inl rfl

theorem Group.settled_spec (g : Group) (m : Mem) (now : Nat) (e : Bool) :
    g.settled m now e = { g with hold := g.hold.after m e, parkedSince := (g.settled m now e).parkedSince } := by
  unfold Group.settled
  dsimp only
  split <;> rfl

/-- The bookkeeping after a step, field by field. -/
theorem settleOut_next {s t u : State} {e : Bool} (h : settleOut s e (.next t) = .next u) :
    u = { t.follow with inputs := u.inputs, fresh := t.follow.fresh + 1, beat := u.beat, rounds := u.rounds, groups := u.groups } ∧
    u.groups.map Group.gid = t.follow.groups.map Group.gid ∧
    ∀ g ∈ t.follow.groups, ∃ h ∈ u.groups, h = { g with hold := h.hold, parkedSince := h.parkedSince } ∧
      (h.hold = g.hold ∨ h.hold = .none ∨ (∃ n, g.hold = .submit n ∧ h.hold = .resubmit n) ∨ ∃ n, g.hold = .stmap n ∧ h.hold = .remap n) := by
  injection h with h
  subst h
  refine ⟨rfl, ?_, fun g hg => ⟨g.settled t.follow.mem t.follow.tick.toNat e, List.mem_map_of_mem hg, ?_⟩⟩
  · refine (List.map_map ..).trans (List.map_congr_left fun g _ => ?_)
    rw [Function.comp_apply, g.settled_spec]
  · have hs := g.settled_spec t.follow.mem t.follow.tick.toNat e
    have hh : (g.settled t.follow.mem t.follow.tick.toNat e).hold = g.hold.after t.follow.mem e := by rw [hs]
    refine ⟨?_, ?_⟩
    · rw [hh]
      exact hs
    · rw [hh]
      exact g.hold.after_spec t.follow.mem e

/-! ### The word that a group issues -/

/-- A group inside its clause issues its next word, unless a pre-emption stops it first. -/
theorem step_runs {s : State} {g : Group} {c : Clause} (hi : s.inputs = []) (hr : s.runner = some g) (hc : g.clause = some c) (hb : g.betweenRepeats = none)
    (hp : g.preempt.getD 0 < 4096) : step s = settleOut s false (countOut g.gid (State.issueWord { s with cur := some g.gid } g c)) := by
  rw [step, State.advanceOne, hi]
  dsimp only
  rw [hr]
  dsimp only
  rw [State.runGroup, hc]
  dsimp only
  rw [hb, if_neg (by decide), if_neg (by omega), hi]

theorem issueWord_ok {s : State} {g : Group} {c : Clause} {w : DWord} {i : Instr} (hw : c.words[c.index]? = some (some w)) (hi : decodeWord (g.wordNow w).toNat = .ok i) :
    s.issueWord g c = if g.stepsPast w then s.wordTrap (g.wordNow w).toNat (fun x => trapIllegal 3 x.act) else exec i s := by
  rw [State.issueWord, List.getD_eq_getElem?_getD, hw, Option.getD_some]
  dsimp only
  rw [hi]

theorem issueWord_error {s : State} {g : Group} {c : Clause} {w : DWord} {sub : Nat} (hw : c.words[c.index]? = some (some w))
    (hi : decodeWord (g.wordNow w).toNat = .error sub) :
    s.issueWord g c = s.wordTrap (g.wordNow w).toNat fun x => trapIllegal (staticSub (g.wordNow w).toNat sub x) x.act := by
  rw [State.issueWord, List.getD_eq_getElem?_getD, hw, Option.getD_some]
  dsimp only
  rw [hi]

theorem issueWord_beyond {s : State} {g : Group} {c : Clause} (hw : c.words[c.index]? = some none) : s.issueWord g c = s.wordTrap (31 * 512) beyondTrap := by
  rw [State.issueWord, List.getD_eq_getElem?_getD, hw, Option.getD_some]

theorem wordTrap_eq {s : State} {w : Nat} {x : Ctx} (tr : Ctx → Trap) (h : ctxOf s (guardOf w) = some x) : s.wordTrap w tr = .next (x.raise (tr x)) := by
  rw [State.wordTrap, h]

theorem staticSub_le (w sub : Nat) (x : Ctx) : staticSub w sub x ≤ sub := by
  unfold staticSub
  split
  · split
    · exact Nat.min_le_left _ _
    · exact Nat.le_refl _
  · exact Nat.le_refl _

theorem staticSub_of_not_wait {w sub : Nat} {x : Ctx} {r : Raw} (hr : rawOf w = some r) (hn : ∀ gd all count d a b c, r.i ≠ .wait gd all count d a b c) :
    staticSub w sub x = sub := by
  rw [staticSub, hr]
  dsimp only
  split
  · next h => exact absurd h (hn _ _ _ _ _ _ _)
  · rfl

/-- Settles O55: the word by the cases of `issueWord`, an event by the agenda, and what follows by the lemmas above. -/
theorem stepRuns : Obligations.StepRuns := by
  unfold Obligations.StepRuns
  refine ⟨fun s g c hin hrun hc hb hp => ⟨fun w hw => ⟨fun h0 => Group.wordNow_zero h0 w, ?ok, ?past, ?error⟩, ?beyond⟩, ?event, fun s t e u h => settleOut_next h,
    fun t h => State.follow_spec h⟩
  case ok =>
    intro i hi hpast
    rw [step_runs hin hrun hc hb hp, issueWord_ok hw hi, if_neg (by simp [hpast])]
  case past =>
    intro i x hi hpast hx
    rw [step_runs hin hrun hc hb hp, issueWord_ok hw hi, if_pos hpast, wordTrap_eq _ hx]
  case error =>
    intro sub x hi hx
    refine ⟨staticSub (g.wordNow w).toNat sub x, staticSub_le _ _ _, ?_, fun r hr hn => staticSub_of_not_wait hr hn⟩
    rw [step_runs hin hrun hc hb hp, issueWord_error hw hi, wordTrap_eq _ hx]
  case beyond =>
    intro x hw hx
    rw [step_runs hin hrun hc hb hp, issueWord_beyond hw, wordTrap_eq _ (show ctxOf _ (guardOf (31 * 512)) = some x from hx)]
    rfl
  case event =>
    intro s i rest hin he
    rw [step, State.advanceOne, hin]
    exact if_pos he

end Sys2Proof.Machine
end

section
/-! Correct rounding over the rational numbers (R76, R82 to R85): the values of a format's codes as a ladder, and the rung below and above an
exact value. -/
namespace Sys2Proof.Machine

/-! ### The ladder of values -/

/-- The value of a magnitude code, every exponent read as that of a finite value. -/
def FFmt.ladder (f : FFmt) (c : Nat) : ℚ :=
  ((if c < 2 ^ f.fbits then c else 2 ^ f.fbits + c % 2 ^ f.fbits : Nat) : ℚ) * (2 : ℚ) ^ ((max (c / 2 ^ f.fbits) 1 : Nat) - (f.bias : Int) - f.fbits)

/-- Rung n of the binade t. -/
theorem FFmt.ladder_rung (f : FFmt) {t n : Nat} (ht : 1 ≤ t) (hn : n ≤ 2 ^ (f.fbits + 1)) (h : t = 1 ∨ 2 ^ f.fbits ≤ n) :
    f.ladder ((t - 1) * 2 ^ f.fbits + n) = n * (2 : ℚ) ^ ((t : Int) - f.bias - f.fbits) := by
  have hp : 0 < 2 ^ f.fbits := Nat.two_pow_pos _
  rw [pow_succ] at hn
  rw [FFmt.ladder]
  rcases Nat.lt_or_ge n (2 ^ f.fbits) with hlt | hge
  · have h1 : t = 1 := h.resolve_right (by omega)
    subst h1
    simp [hlt, Nat.div_eq_of_lt hlt]
  · obtain ⟨t, rfl⟩ : ∃ k, t = k + 1 := ⟨t - 1, by omega⟩
    obtain ⟨m, rfl⟩ : ∃ k, n = 2 ^ f.fbits + k := ⟨n - 2 ^ f.fbits, by omega⟩
    have hc : (t + 1 - 1) * 2 ^ f.fbits + (2 ^ f.fbits + m) = 2 ^ f.fbits * (t + 1) + m := by rw [Nat.add_sub_cancel]; ring
    rw [hc, if_neg (by nlinarith)]
    rcases Nat.lt_or_ge m (2 ^ f.fbits) with hm | hm
    · rw [Nat.mul_add_mod, Nat.mod_eq_of_lt hm, Nat.mul_add_div hp, Nat.div_eq_of_lt hm, Nat.add_zero, max_eq_left (by omega)]
    · obtain rfl : m = 2 ^ f.fbits := by omega
      rw [Nat.mul_add_mod, Nat.mod_self, Nat.mul_add_div hp, Nat.div_self hp, max_eq_left (by omega)]
      have he : ((t + 1 + 1 : Nat) : Int) - f.bias - f.fbits = ((t + 1 : Nat) : Int) - f.bias - f.fbits + 1 := by push_cast; ring
      rw [he, zpow_add_one₀ (by norm_num)]
      push_cast
      ring

/-- Every code is a rung of a binade that has a rung above it. -/
theorem FFmt.exists_rung (f : FFmt) (c : Nat) : ∃ t n, 1 ≤ t ∧ n + 1 ≤ 2 ^ (f.fbits + 1) ∧ (t = 1 ∨ 2 ^ f.fbits ≤ n) ∧ c = (t - 1) * 2 ^ f.fbits + n := by
  have hp : 0 < 2 ^ f.fbits := Nat.two_pow_pos _
  have hc := Nat.div_add_mod c (2 ^ f.fbits)
  have hm := Nat.mod_lt c hp
  rw [pow_succ]
  rcases Nat.eq_zero_or_pos (c / 2 ^ f.fbits) with h0 | h0
  · rw [h0] at hc
    exact ⟨1, c, le_refl _, by omega, .inl rfl, by simp⟩
  · refine ⟨c / 2 ^ f.fbits, 2 ^ f.fbits + c % 2 ^ f.fbits, h0, by omega, .inr (by omega), ?_⟩
    rw [Nat.sub_one_mul, mul_comm (c / _)]
    have : 2 ^ f.fbits * 1 ≤ 2 ^ f.fbits * (c / 2 ^ f.fbits) := Nat.mul_le_mul_left _ h0
    omega

theorem FFmt.ladder_strictMono (f : FFmt) : StrictMono f.ladder := by
  refine strictMono_nat_of_lt_succ fun c => ?_
  obtain ⟨t, n, ht, hn, h, rfl⟩ := f.exists_rung c
  rw [Nat.add_assoc, f.ladder_rung ht (by omega) h, f.ladder_rung ht hn (h.imp id fun h => by omega)]
  have := zpow_pos (show (0 : ℚ) < 2 by norm_num) ((t : Int) - f.bias - f.fbits)
  push_cast
  nlinarith

/-- A finite code's value is its rung. -/
theorem magValue_eq_ladder (f : FFmt) {c : Nat} (hc : c ≤ f.maxMag) : magValue f c = f.ladder c := by
  have hp : 0 < 2 ^ f.fbits := Nat.two_pow_pos _
  have he : 0 < 2 ^ f.ebits := Nat.two_pow_pos _
  have hlt : c < 2 ^ f.fbits * 2 ^ f.ebits := by
    rw [← pow_add, add_comm]
    exact hc.trans_lt f.maxMag_lt
  have hex : c / 2 ^ f.fbits % 2 ^ f.ebits = c / 2 ^ f.fbits := Nat.mod_eq_of_lt (Nat.div_lt_of_lt_mul hlt)
  have hdm := Nat.div_add_mod c (2 ^ f.fbits)
  rw [magValue, FFmt.decode, FFmt.ladder, hex]
  by_cases h0 : c / 2 ^ f.fbits = 0
  · have hsmall : c < 2 ^ f.fbits := by rwa [Nat.div_eq_zero_iff_lt hp] at h0
    rw [if_pos h0, if_pos hsmall, h0, Nat.mod_eq_of_lt hsmall]
    rfl
  · have hbig : ¬c < 2 ^ f.fbits := fun h => h0 (Nat.div_eq_of_lt h)
    have hieee : ¬(f.kind = .ieee ∧ c / 2 ^ f.fbits = 2 ^ f.ebits - 1) := fun ⟨hk, ht⟩ => by
      simp only [FFmt.maxMag, hk] at hc
      rw [ht, mul_comm] at hdm
      have : 0 < (2 ^ f.ebits - 1) * 2 ^ f.fbits := Nat.mul_pos (by omega) hp
      omega
    have he4 : ¬(f.kind = .e4m3 ∧ c / 2 ^ f.fbits = 2 ^ f.ebits - 1 ∧ c % 2 ^ f.fbits = 2 ^ f.fbits - 1) := fun ⟨hk, ht, hm⟩ => by
      simp only [FFmt.maxMag, hk] at hc
      rw [ht, hm, Nat.mul_sub_one, mul_comm, ← pow_add] at hdm
      have : 2 ^ f.fbits * 2 ≤ 2 ^ (f.ebits + f.fbits) := by
        rw [pow_add, mul_comm]
        exact Nat.mul_le_mul_right _ (by omega)
      omega
    rw [if_neg h0, if_neg hbig, max_eq_left (by omega), if_neg hieee, if_neg he4]

/-! ### The binade of an exact value -/

theorem ilogRat_spec {num den : Nat} (hn : 0 < num) (hd : 0 < den) :
    (2 : ℚ) ^ (ilogRat num den) ≤ (num : ℚ) / den ∧ (num : ℚ) / den < (2 : ℚ) ^ (ilogRat num den + 1) := by
  have h2 : (2 : ℚ) ≠ 0 := by norm_num
  have hdq : (0 : ℚ) < den := by exact_mod_cast hd
  have hlow : (2 : ℚ) ^ (Nat.log2 num : Int) ≤ num := by
    rw [zpow_natCast]
    exact_mod_cast Nat.log2_self_le hn.ne'
  have hhigh : (num : ℚ) < (2 : ℚ) ^ ((Nat.log2 num : Int) + 1) := by
    rw [← Nat.cast_succ, zpow_natCast]
    exact_mod_cast Nat.lt_log2_self (n := num)
  have dlow : (2 : ℚ) ^ (Nat.log2 den : Int) ≤ den := by
    rw [zpow_natCast]
    exact_mod_cast Nat.log2_self_le hd.ne'
  have dhigh : (den : ℚ) < (2 : ℚ) ^ ((Nat.log2 den : Int) + 1) := by
    rw [← Nat.cast_succ, zpow_natCast]
    exact_mod_cast Nat.lt_log2_self (n := den)
  have hle : ∀ k : Int, (2 : ℚ) ^ k ≤ (num : ℚ) / den ↔ (2 : ℚ) ^ k * den ≤ num := fun k => le_div_iff₀ hdq
  have htest : (if (0 : Int) ≤ (Nat.log2 num : Int) - Nat.log2 den then den * 2 ^ ((Nat.log2 num : Int) - Nat.log2 den).toNat ≤ num
      else den ≤ num * 2 ^ (-((Nat.log2 num : Int) - Nat.log2 den)).toNat) ↔ (2 : ℚ) ^ ((Nat.log2 num : Int) - Nat.log2 den) ≤ (num : ℚ) / den := by
    generalize (Nat.log2 num : Int) - Nat.log2 den = l
    rw [hle]
    split
    · next h0 =>
      obtain ⟨k, rfl⟩ := Int.eq_ofNat_of_zero_le h0
      rw [Int.toNat_natCast, zpow_natCast, mul_comm]
      norm_cast
    · next h0 =>
      obtain ⟨k, hk⟩ := Int.eq_ofNat_of_zero_le (show 0 ≤ -l by omega)
      rw [hk, Int.toNat_natCast, show l = -(k : Int) by omega, zpow_neg, zpow_natCast, inv_mul_le_iff₀ (by positivity), mul_comm]
      norm_cast
  have hup : (num : ℚ) / den < (2 : ℚ) ^ ((Nat.log2 num : Int) - Nat.log2 den + 1) := by
    rw [div_lt_iff₀ hdq]
    calc (num : ℚ) < (2 : ℚ) ^ ((Nat.log2 num : Int) + 1) := hhigh
      _ = (2 : ℚ) ^ ((Nat.log2 num : Int) - Nat.log2 den + 1) * (2 : ℚ) ^ (Nat.log2 den : Int) := by rw [← zpow_add₀ h2]; congr 1; ring
      _ ≤ _ := mul_le_mul_of_nonneg_left dlow (by positivity)
  have hdown : (2 : ℚ) ^ ((Nat.log2 num : Int) - Nat.log2 den - 1) ≤ (num : ℚ) / den := by
    rw [hle]
    calc (2 : ℚ) ^ ((Nat.log2 num : Int) - Nat.log2 den - 1) * den ≤ (2 : ℚ) ^ ((Nat.log2 num : Int) - Nat.log2 den - 1) * (2 : ℚ) ^ ((Nat.log2 den : Int) + 1) :=
          mul_le_mul_of_nonneg_left dhigh.le (by positivity)
      _ = (2 : ℚ) ^ (Nat.log2 num : Int) := by rw [← zpow_add₀ h2]; congr 1; ring
      _ ≤ _ := hlow
  rw [ilogRat]
  by_cases h : (2 : ℚ) ^ ((Nat.log2 num : Int) - Nat.log2 den) ≤ (num : ℚ) / den
  · rw [if_pos (htest.mpr h)]
    exact ⟨h, hup⟩
  · rw [if_neg fun hc => h (htest.mp hc)]
    refine ⟨hdown, ?_⟩
    rw [sub_add_cancel]
    exact lt_of_not_ge h

/-- An exact value as a quotient of whole numbers of 2^q. -/
theorem quotient_at (num : Nat) {den : Nat} (hd : 0 < den) (e q : Int) :
    (num : ℚ) / den * (2 : ℚ) ^ e = ((num * 2 ^ (e - q).toNat : Nat) : ℚ) / ((den * 2 ^ (-(e - q)).toNat : Nat) : ℚ) * (2 : ℚ) ^ q := by
  have h2 : (2 : ℚ) ≠ 0 := by norm_num
  have hdq : (den : ℚ) ≠ 0 := by exact_mod_cast hd.ne'
  have hpow : (2 : ℚ) ^ (e - q) = (2 : ℚ) ^ (e - q).toNat / (2 : ℚ) ^ (-(e - q)).toNat := by
    rw [← zpow_natCast, ← zpow_natCast, ← zpow_sub₀ h2]
    congr 1
    omega
  have he : (2 : ℚ) ^ e = (2 : ℚ) ^ (e - q) * (2 : ℚ) ^ q := by rw [← zpow_add₀ h2]; congr 1; ring
  rw [he, hpow]
  push_cast
  field_simp

/-- The magnitude code of a whole number of 2^q, for a number that fits the binade. -/
theorem FFmt.encodeMag_rung (f : FFmt) {n : Nat} {q : Int} (hq : 1 - (f.bias : Int) - f.fbits ≤ q) (hn : n ≤ 2 ^ (f.fbits + 1))
    (h : q = 1 - (f.bias : Int) - f.fbits ∨ 2 ^ f.fbits ≤ n) : f.encodeMag n q = ((q + f.fbits + f.bias).toNat - 1) * 2 ^ f.fbits + n := by
  have hp : 0 < 2 ^ f.fbits := Nat.two_pow_pos _
  rw [FFmt.encodeMag]
  by_cases h0 : n = 0
  · subst h0
    have hq1 := h.resolve_right (by omega)
    rw [if_pos rfl, show (q + f.fbits + f.bias).toNat = 1 by omega]
    simp
  · rw [if_neg h0]
    dsimp only
    rcases Nat.lt_or_ge n (2 ^ f.fbits) with hlt | hge
    · have hq1 := h.resolve_right (by omega)
      have hlog : Nat.log2 n < f.fbits := (Nat.log2_lt h0).mpr hlt
      rw [if_pos (by omega), show (q - (1 - (f.bias : Int) - f.fbits)).toNat = 0 by omega, show (q + f.fbits + f.bias).toNat = 1 by omega]
      simp
    · have hlog : f.fbits ≤ Nat.log2 n := (Nat.le_log2 h0).mpr hge
      rw [if_neg (by omega)]
      obtain ⟨t, ht⟩ : ∃ t : Nat, q + f.fbits + f.bias = (t : Int) + 1 := ⟨(q + f.fbits + f.bias - 1).toNat, by omega⟩
      rcases Nat.lt_or_ge n (2 ^ (f.fbits + 1)) with hlt | hge'
      · have hl : Nat.log2 n = f.fbits := le_antisymm (Nat.lt_succ_iff.mp ((Nat.log2_lt h0).mpr hlt)) hlog
        rw [hl, if_pos le_rfl, Nat.sub_self, pow_zero, Nat.mul_one, ht, show ((t : Int) + 1).toNat = t + 1 by omega, Nat.add_sub_cancel, Nat.succ_mul]
        omega
      · obtain rfl : n = 2 ^ (f.fbits + 1) := by omega
        have hl : Nat.log2 (2 ^ (f.fbits + 1)) = f.fbits + 1 := Nat.log2_two_pow
        rw [hl, if_neg (by omega), Nat.add_sub_cancel_left, pow_one, pow_succ, Nat.mul_div_cancel _ (by decide), ht,
          show (q + ((f.fbits + 1 : Nat) : Int) + f.bias).toNat = t + 2 by omega, show ((t : Int) + 1).toNat - 1 = t by omega]
        have : (t + 2) * 2 ^ f.fbits = t * 2 ^ f.fbits + 2 * 2 ^ f.fbits := by ring
        omega

/-- The quantum of one rounding: the exponent of the last place of a value's binade (R82). -/
def FFmt.quantum (f : FFmt) (num den : Nat) (e : Int) : Int := max (ilogRat num den + e - f.fbits) (1 - (f.bias : Int) - f.fbits)

/-- A value lies on or above the code c, which is N / D of its quantum rounded down, and below the code after it. -/
structure Rungs (f : FFmt) (x : ℚ) (q : Int) (N D c : Nat) : Prop where
  den_pos : 0 < D
  value : x = (N : ℚ) / D * (2 : ℚ) ^ q
  below : f.ladder c = (N / D : Nat) * (2 : ℚ) ^ q
  above : f.ladder (c + 1) = (N / D + 1 : Nat) * (2 : ℚ) ^ q
  parity : c % 2 = N / D % 2
  code : f.encodeMag (N / D) q = c
  next : f.encodeMag (N / D + 1) q = c + 1

theorem exists_rungs {f : FFmt} (hf : 0 < f.fbits) {num den : Nat} (hn : 0 < num) (hd : 0 < den) (e : Int) :
    ∃ c, Rungs f ((num : ℚ) / den * (2 : ℚ) ^ e) (f.quantum num den e) (num * 2 ^ (e - f.quantum num den e).toNat) (den * 2 ^ (-(e - f.quantum num den e)).toNat) c := by
  have h2 : (2 : ℚ) ≠ 0 := by norm_num
  obtain ⟨hlow, hhigh⟩ := ilogRat_spec hn hd
  have hq1 : ilogRat num den + e - f.fbits ≤ f.quantum num den e := le_max_left _ _
  have hq2 : 1 - (f.bias : Int) - f.fbits ≤ f.quantum num den e := le_max_right _ _
  have hq3 : f.quantum num den e = ilogRat num den + e - f.fbits ∨ f.quantum num den e = 1 - (f.bias : Int) - f.fbits := max_choice _ _
  have hvalue := quotient_at num hd e (f.quantum num den e)
  have hD : 0 < den * 2 ^ (-(e - f.quantum num den e)).toNat := Nat.mul_pos hd (Nat.two_pow_pos _)
  generalize num * 2 ^ (e - f.quantum num den e).toNat = N at hvalue ⊢
  generalize den * 2 ^ (-(e - f.quantum num den e)).toNat = D at hvalue hD ⊢
  generalize f.quantum num den e = q at *
  have hDq : (0 : ℚ) < D := by exact_mod_cast hD
  have hpq : (0 : ℚ) < (2 : ℚ) ^ q := by positivity
  have hepos : (0 : ℚ) < (2 : ℚ) ^ e := by positivity
  have hlt : N / D < 2 ^ (f.fbits + 1) := by
    rw [Nat.div_lt_iff_lt_mul hD]
    have hx : (N : ℚ) / D * (2 : ℚ) ^ q < (2 : ℚ) ^ ((f.fbits + 1 : Nat) : Int) * (2 : ℚ) ^ q := by
      rw [← hvalue, ← zpow_add₀ h2]
      calc (num : ℚ) / den * (2 : ℚ) ^ e < (2 : ℚ) ^ (ilogRat num den + 1) * (2 : ℚ) ^ e := mul_lt_mul_of_pos_right hhigh hepos
        _ = (2 : ℚ) ^ (ilogRat num den + 1 + e) := by rw [← zpow_add₀ h2]
        _ ≤ _ := zpow_le_zpow_right₀ (by norm_num) (by push_cast; omega)
    have hx' := lt_of_mul_lt_mul_right hx hpq.le
    rw [div_lt_iff₀ hDq, zpow_natCast] at hx'
    exact_mod_cast hx'
  have hbin : q = 1 - (f.bias : Int) - f.fbits ∨ 2 ^ f.fbits ≤ N / D := by
    refine hq3.symm.imp id fun hq => ?_
    rw [Nat.le_div_iff_mul_le hD]
    have hx : (2 : ℚ) ^ (f.fbits : Int) * (2 : ℚ) ^ q ≤ (N : ℚ) / D * (2 : ℚ) ^ q := by
      rw [← hvalue, ← zpow_add₀ h2, hq]
      calc (2 : ℚ) ^ ((f.fbits : Int) + (ilogRat num den + e - f.fbits)) = (2 : ℚ) ^ (ilogRat num den) * (2 : ℚ) ^ e := by rw [← zpow_add₀ h2]; congr 1; ring
        _ ≤ _ := mul_le_mul_of_nonneg_right hlow hepos.le
    have hx' := le_of_mul_le_mul_right hx hpq
    rw [le_div_iff₀ hDq, zpow_natCast] at hx'
    exact_mod_cast hx'
  obtain ⟨t, ht⟩ : ∃ t : Nat, q + f.fbits + f.bias = (t : Int) + 1 := ⟨(q + f.fbits + f.bias - 1).toNat, by omega⟩
  have htn : (q + f.fbits + f.bias).toNat = t + 1 := by omega
  have hrung : ∀ n, n ≤ 2 ^ (f.fbits + 1) → N / D ≤ n → f.ladder ((t + 1 - 1) * 2 ^ f.fbits + n) = n * (2 : ℚ) ^ q := fun n hn hge => by
    rw [f.ladder_rung (by omega) hn (hbin.imp (fun h => by omega) fun h => h.trans hge)]
    congr 2
    push_cast
    omega
  have hcode : ∀ n, n ≤ 2 ^ (f.fbits + 1) → N / D ≤ n → f.encodeMag n q = (t + 1 - 1) * 2 ^ f.fbits + n := fun n hn hge => by
    rw [f.encodeMag_rung hq2 hn (hbin.imp id fun h => h.trans hge), htn]
  refine ⟨(t + 1 - 1) * 2 ^ f.fbits + N / D, hD, hvalue, hrung _ hlt.le le_rfl, hrung _ hlt (Nat.le_succ _), ?_, hcode _ hlt.le le_rfl, hcode _ hlt (Nat.le_succ _)⟩
  obtain ⟨k, hk⟩ : ∃ k, f.fbits = k + 1 := ⟨f.fbits - 1, by omega⟩
  rw [hk, pow_succ, ← mul_assoc]
  omega

/-! ### The rung that a mode picks -/

/-- Does a mode round N / D up from the whole number below it (R82)? -/
def roundsUp (mode : RMode) (neg : Bool) (N D : Nat) : Bool :=
  match mode with
  | .rne => decide (D < 2 * (N % D)) || (decide (2 * (N % D) = D) && N / D % 2 == 1)
  | .rz => false
  | .ru => !neg && N % D != 0
  | .rd => neg && N % D != 0

theorem roundAt_eq (mode : RMode) (neg : Bool) (num den : Nat) (e q : Int) : roundAt mode neg num den e q =
    (if roundsUp mode neg (num * 2 ^ (e - q).toNat) (den * 2 ^ (-(e - q)).toNat) then num * 2 ^ (e - q).toNat / (den * 2 ^ (-(e - q)).toNat) + 1
      else num * 2 ^ (e - q).toNat / (den * 2 ^ (-(e - q)).toNat), num * 2 ^ (e - q).toNat % (den * 2 ^ (-(e - q)).toNat) != 0) := by
  cases mode <;> rfl

section
variable {f : FFmt} {x : ℚ} {q : Int} {N D c : Nat} (h : Rungs f x q N D c)
include h

/-- The distances to the rungs below and above: the remainder, and what it lacks of D. -/
theorem Rungs.distances : ∃ u : ℚ, 0 < u ∧ x - f.ladder c = (N % D : Nat) * u ∧ f.ladder (c + 1) - x = ((D - N % D : Nat) : ℚ) * u := by
  have hD : (0 : ℚ) < D := by exact_mod_cast h.den_pos
  have hN : (N : ℚ) = D * (N / D : Nat) + (N % D : Nat) := by exact_mod_cast (Nat.div_add_mod N D).symm
  have hle : N % D ≤ D := (Nat.mod_lt N h.den_pos).le
  refine ⟨(2 : ℚ) ^ q / D, by positivity, ?_, ?_⟩
  · rw [h.value, h.below, hN]
    field_simp
    ring
  · rw [h.value, h.above, hN, Nat.cast_sub hle]
    push_cast
    field_simp
    ring

theorem Rungs.below_le : f.ladder c ≤ x := by
  obtain ⟨u, hu, hlow, -⟩ := h.distances
  have : (0 : ℚ) ≤ (N % D : Nat) * u := by positivity
  linarith

theorem Rungs.lt_above : x < f.ladder (c + 1) := by
  obtain ⟨u, hu, -, hhigh⟩ := h.distances
  have : 0 < D - N % D := Nat.sub_pos_of_lt (Nat.mod_lt N h.den_pos)
  have : (0 : ℚ) < ((D - N % D : Nat) : ℚ) * u := by positivity
  linarith

theorem Rungs.eq_below_iff : x = f.ladder c ↔ N % D = 0 := by
  obtain ⟨u, hu, hlow, -⟩ := h.distances
  rw [← sub_eq_zero, hlow, mul_eq_zero, Nat.cast_eq_zero]
  exact or_iff_left hu.ne'

theorem Rungs.le_code_iff (k : Nat) : f.ladder k ≤ x ↔ k ≤ c := by
  constructor
  · intro hk
    exact Nat.lt_succ_iff.mp (f.ladder_strictMono.lt_iff_lt.mp (hk.trans_lt h.lt_above))
  · intro hk
    exact (f.ladder_strictMono.monotone hk).trans h.below_le

/-- The rung below is nearer, or as near, exactly when twice the remainder is at most D. -/
theorem Rungs.below_nearer_iff : x - f.ladder c ≤ f.ladder (c + 1) - x ↔ 2 * (N % D) ≤ D := by
  obtain ⟨u, hu, hlow, hhigh⟩ := h.distances
  rw [hlow, hhigh, mul_le_mul_iff_left₀ hu, Nat.cast_le]
  omega

theorem Rungs.above_nearer_iff : f.ladder (c + 1) - x ≤ x - f.ladder c ↔ D ≤ 2 * (N % D) := by
  obtain ⟨u, hu, hlow, hhigh⟩ := h.distances
  rw [hlow, hhigh, mul_le_mul_iff_left₀ hu, Nat.cast_le]
  have := Nat.mod_lt N h.den_pos
  omega

/-- The rung below is the nearest not above the value. -/
theorem Rungs.down (hc : c ≤ f.maxMag) : magValue f c ≤ x ∧ ∀ k ≤ f.maxMag, magValue f k ≤ x → magValue f k ≤ magValue f c := by
  rw [magValue_eq_ladder f hc]
  refine ⟨h.below_le, fun k hk hle => ?_⟩
  rw [magValue_eq_ladder f hk] at hle ⊢
  exact f.ladder_strictMono.monotone ((h.le_code_iff k).mp hle)

/-- The rung above, or the one below where the value is on it, is the nearest not below the value. -/
theorem Rungs.up (hc : (if N % D != 0 then c + 1 else c) ≤ f.maxMag) : x ≤ magValue f (if N % D != 0 then c + 1 else c) ∧
    ∀ k ≤ f.maxMag, x ≤ magValue f k → magValue f (if N % D != 0 then c + 1 else c) ≤ magValue f k := by
  rw [magValue_eq_ladder f hc]
  by_cases hr : N % D = 0
  · have hx := h.eq_below_iff.mpr hr
    simp only [hr, bne_self_eq_false, Bool.false_eq_true, if_false]
    exact ⟨hx.le, fun k _ hle => hx ▸ hle⟩
  · have hne : f.ladder c ≠ x := fun e => hr (h.eq_below_iff.mp e.symm)
    simp only [bne_iff_ne.mpr hr, if_true]
    refine ⟨h.lt_above.le, fun k hk hle => ?_⟩
    rw [magValue_eq_ladder f hk] at hle ⊢
    exact f.ladder_strictMono.monotone (f.ladder_strictMono.lt_iff_lt.mp ((lt_of_le_of_ne h.below_le hne).trans_le hle))

/-- The nearer rung, or of two as near the one with the even code. -/
theorem Rungs.nearest (neg : Bool) (hc : (if roundsUp .rne neg N D then c + 1 else c) ≤ f.maxMag) : ∀ k ≤ f.maxMag,
    |magValue f (if roundsUp .rne neg N D then c + 1 else c) - x| ≤ |magValue f k - x| ∧
    (|magValue f (if roundsUp .rne neg N D then c + 1 else c) - x| = |magValue f k - x| → k ≠ (if roundsUp .rne neg N D then c + 1 else c) →
      (if roundsUp .rne neg N D then c + 1 else c) % 2 = 0) := by
  intro k hk
  rw [magValue_eq_ladder f hc, magValue_eq_ladder f hk]
  have hlow := h.below_le
  have hhigh := h.lt_above
  have hpar := h.parity
  have hbelow := h.below_nearer_iff
  have habove := h.above_nearer_iff
  have hcmp : (k ≤ c ∧ |f.ladder k - x| = x - f.ladder k ∧ f.ladder k ≤ f.ladder c ∧ (k ≠ c → f.ladder k < f.ladder c)) ∨
      (c + 1 ≤ k ∧ |f.ladder k - x| = f.ladder k - x ∧ f.ladder (c + 1) ≤ f.ladder k ∧ (k ≠ c + 1 → f.ladder (c + 1) < f.ladder k)) := by
    rcases Nat.lt_or_ge c k with hck | hck
    · have hle := f.ladder_strictMono.monotone (Nat.succ_le_of_lt hck)
      refine .inr ⟨hck, abs_of_nonneg (by linarith), hle, fun hne => f.ladder_strictMono (by omega)⟩
    · have hle := f.ladder_strictMono.monotone hck
      refine .inl ⟨hck, ?_, hle, fun hne => f.ladder_strictMono (by omega)⟩
      rw [abs_of_nonpos (by linarith)]
      ring
  cases hup : roundsUp .rne neg N D
  case false =>
    simp only [roundsUp, Bool.or_eq_false_iff, decide_eq_false_iff_not, Bool.and_eq_false_imp, decide_eq_true_eq, beq_eq_false_iff_ne] at hup
    obtain ⟨h1, h2⟩ := hup
    have hnear := hbelow.mpr (by omega)
    simp only [Bool.false_eq_true, if_false]
    rw [abs_of_nonpos (show f.ladder c - x ≤ 0 by linarith)]
    rcases hcmp with ⟨-, habs, hle, hlt⟩ | ⟨-, habs, hle, -⟩
    · rw [habs]
      exact ⟨by linarith, fun he hne => absurd (hlt hne) (by linarith)⟩
    · rw [habs]
      refine ⟨by linarith, fun he _ => ?_⟩
      have := habove.mp (by linarith)
      have := h2 (by omega)
      omega
  case true =>
    simp only [roundsUp, Bool.or_eq_true, decide_eq_true_eq, Bool.and_eq_true, beq_iff_eq] at hup
    have hnear := habove.mpr (by omega)
    simp only [if_true]
    rw [abs_of_nonneg (show 0 ≤ f.ladder (c + 1) - x by linarith)]
    rcases hcmp with ⟨-, habs, hle, -⟩ | ⟨-, habs, hle, hlt⟩
    · rw [habs]
      refine ⟨by linarith, fun he _ => ?_⟩
      have := hbelow.mp (by linarith)
      omega
    · rw [habs]
      exact ⟨by linarith, fun he hne => absurd (hlt hne) (by linarith)⟩

/-- The rung that a mode picks is what the mode makes of the value (R82). -/
theorem Rungs.roundsTo (mode : RMode) (neg : Bool) (hc : (if roundsUp mode neg N D then c + 1 else c) ≤ f.maxMag) :
    Sys2Proof.roundsTo f mode neg x (if roundsUp mode neg N D then c + 1 else c) := by
  cases mode with
  | rne => exact h.nearest neg hc
  | rz => exact h.down hc
  | ru =>
    cases neg
    · exact h.up hc
    · exact h.down hc
  | rd =>
    cases neg
    · exact h.down hc
    · exact h.up hc

end

end Sys2Proof.Machine
end

section
/-! One rounding, and arithmetic rounded once (R82 to R85, R152, R157). -/
namespace Sys2Proof.Machine

/-! ### One rounding -/

/-- The code that a rounding picks, before it is known whether it overflows. -/
def pickedCode (mode : RMode) (neg : Bool) (N D c : Nat) : Nat := if roundsUp mode neg N D then c + 1 else c

/-- Only an inexact quotient is rounded up. -/
theorem roundsUp_inexact {mode : RMode} {neg : Bool} {N D : Nat} (hD : 0 < D) (h : roundsUp mode neg N D = true) : N % D ≠ 0 := by
  intro h0
  cases mode <;> simp [roundsUp, h0] at h
  all_goals omega

/-- Is the value, rounded as if the exponent had no bound below, smaller than the smallest normal one (R86)? -/
def FFmt.tinyAt (f : FFmt) (mode : RMode) (neg : Bool) (num den : Nat) (e : Int) : Bool :=
  decide (ilogRat num den + e - f.fbits + Nat.log2 (roundAt mode neg num den e (ilogRat num den + e - f.fbits)).1 < 1 - (f.bias : Int))

/-- One rounding in terms of the rungs around the exact value. -/
theorem FFmt.round_eq {f : FFmt} {num den : Nat} (hn : 0 < num) {e : Int} {N D c : Nat}
    (hN : N = num * 2 ^ (e - f.quantum num den e).toNat) (hD : D = den * 2 ^ (-(e - f.quantum num den e)).toNat)
    (h : Rungs f ((num : ℚ) / den * (2 : ℚ) ^ e) (f.quantum num den e) N D c) (mode : RMode) (ftz nanovf neg : Bool) :
    f.round mode ftz nanovf neg num den e =
      if f.maxMag < pickedCode mode neg N D c then (f.overflow mode neg nanovf, flOF ||| flNX)
      else if ftz && decide (pickedCode mode neg N D c < 2 ^ f.fbits) && pickedCode mode neg N D c != 0 then (f.withSign neg 0, flUF ||| flNX)
      else (f.withSign neg (pickedCode mode neg N D c), flIf (N % D != 0) flNX ||| flIf (f.tinyAt mode neg num den e && N % D != 0) flUF) := by
  have hmag : f.encodeMag (roundAt mode neg num den e (f.quantum num den e)).1 (f.quantum num den e) = pickedCode mode neg N D c := by
    rw [roundAt_eq, ← hN, ← hD, pickedCode]
    dsimp only
    split
    · exact h.next
    · exact h.code
  have hinexact : (roundAt mode neg num den e (f.quantum num den e)).2 = (N % D != 0) := by rw [roundAt_eq, ← hN, ← hD]
  rw [FFmt.quantum] at hmag hinexact
  rw [FFmt.round, if_neg hn.ne']
  dsimp only
  rw [hmag, hinexact, FFmt.tinyAt]

theorem FFmt.withSign_mod (f : FFmt) (neg : Bool) {m : Nat} (h : m < 2 ^ (f.ebits + f.fbits)) : f.withSign neg m % 2 ^ (f.fbits + f.ebits) = m := by
  rw [add_comm] at h
  rw [FFmt.withSign]
  split
  · rw [Nat.add_mod_right, Nat.mod_eq_of_lt h]
  · exact Nat.mod_eq_of_lt h

/-- The floating formats (R75). -/
def floatFormats : List FFmt := [fmtF32, fmtF16, fmtBF16, fmtE4M3, fmtE5M2, fmtE2M1, fmtXF40]

/-- What is written on overflow is no zero and no subnormal. -/
theorem overflow_normal {f : FFmt} (hf : f ∈ floatFormats) (mode : RMode) (neg nanovf : Bool) :
    ¬(0 < f.overflow mode neg nanovf % 2 ^ (f.fbits + f.ebits) ∧ f.overflow mode neg nanovf % 2 ^ (f.fbits + f.ebits) < 2 ^ f.fbits) := by
  have hall : ∀ f ∈ floatFormats, ∀ mode ∈ [RMode.rne, .rz, .ru, .rd], ∀ neg ∈ [true, false], ∀ nanovf ∈ [true, false],
      ¬(0 < f.overflow mode neg nanovf % 2 ^ (f.fbits + f.ebits) ∧ f.overflow mode neg nanovf % 2 ^ (f.fbits + f.ebits) < 2 ^ f.fbits) := by decide +kernel
  exact hall f hf mode (by cases mode <;> decide) neg (by cases neg <;> decide) nanovf (by cases nanovf <;> decide)

theorem FFmt.overflow_ieee {f : FFmt} (h : f.kind = .ieee) (mode : RMode) (neg nanovf : Bool) : f.overflow mode neg nanovf =
    if mode = .rne ∨ mode = .ru ∧ neg = false ∨ mode = .rd ∧ neg = true then f.infCode neg else f.withSign neg f.maxMag := by
  unfold FFmt.overflow
  rw [h]
  cases mode <;> cases neg <;> rfl

theorem FFmt.overflow_e4m3 {f : FFmt} (h : f.kind = .e4m3) (mode : RMode) (neg nanovf : Bool) :
    f.overflow mode neg nanovf = if nanovf = true then f.nanCode else f.withSign neg f.maxMag := by
  unfold FFmt.overflow
  rw [h]

theorem FFmt.overflow_noSpecial {f : FFmt} (h : f.kind = .noSpecial) (mode : RMode) (neg nanovf : Bool) :
    f.overflow mode neg nanovf = f.withSign neg f.maxMag := by
  unfold FFmt.overflow
  rw [h]

theorem floatFormats_fbits {f : FFmt} (hf : f ∈ floatFormats) : 0 < f.fbits := by
  have hall : ∀ f ∈ floatFormats, 0 < f.fbits := by decide
  exact hall f hf

theorem flags_no_overflow (a b : Bool) : (flIf a flNX ||| flIf b flUF) &&& flOF = 0 := by cases a <;> cases b <;> decide

theorem flags_inexact (a b : Bool) : (flIf a flNX ||| flIf b flUF) &&& flNX = 0 ↔ a = false := by cases a <;> cases b <;> decide

/-- The picked code is the value itself where the quotient is exact. -/
theorem Rungs.picked_exact_iff {f : FFmt} {x : ℚ} {q : Int} {N D c : Nat} (h : Rungs f x q N D c) (mode : RMode) (neg : Bool)
    (hc : pickedCode mode neg N D c ≤ f.maxMag) : N % D = 0 ↔ magValue f (pickedCode mode neg N D c) = x := by
  rw [magValue_eq_ladder f hc, pickedCode]
  split
  case isTrue hup => exact ⟨fun h0 => absurd h0 (roundsUp_inexact h.den_pos hup), fun he => absurd he.symm h.lt_above.ne⟩
  case isFalse => rw [← h.eq_below_iff, eq_comm]

/-- A value whose picked code is too large is above the largest finite value. -/
theorem Rungs.overflow_above {f : FFmt} {x : ℚ} {q : Int} {N D c : Nat} (h : Rungs f x q N D c) {mode : RMode} {neg : Bool}
    (hc : f.maxMag < pickedCode mode neg N D c) : magValue f f.maxMag < x := by
  rw [magValue_eq_ladder f le_rfl]
  rw [pickedCode] at hc
  split at hc
  case isTrue hup =>
    have hne : x ≠ f.ladder c := fun he => roundsUp_inexact h.den_pos hup (h.eq_below_iff.mp he)
    exact (f.ladder_strictMono.monotone (Nat.lt_succ_iff.mp hc)).trans_lt (lt_of_le_of_ne h.below_le hne.symm)
  case isFalse => exact (f.ladder_strictMono hc).trans_le h.below_le

/-- A rounding without ftz: the picked code where it is finite, else what the table of overflows says (R82, R83). -/
theorem round_spec {f : FFmt} (hf : f ∈ floatFormats) (mode : RMode) (nanovf neg : Bool) {num den : Nat} (e : Int) (hn : 0 < num) (hd : 0 < den) :
    let x : ℚ := (num : ℚ) / den * (2 : ℚ) ^ e
    let r := f.round mode false nanovf neg num den e
    (r.2 &&& flOF = 0 → ∃ c ≤ f.maxMag, r.1 = f.withSign neg c ∧ Sys2Proof.roundsTo f mode neg x c ∧ (r.2 &&& flNX = 0 ↔ magValue f c = x)) ∧
    (r.2 &&& flOF ≠ 0 → r.2 = flOF ||| flNX ∧ magValue f f.maxMag < x ∧ r.1 = f.overflow mode neg nanovf) ∧
    (f.round mode true nanovf neg num den e = if 0 < r.1 % 2 ^ (f.fbits + f.ebits) ∧ r.1 % 2 ^ (f.fbits + f.ebits) < 2 ^ f.fbits then (f.withSign neg 0, flUF ||| flNX) else r) := by
  obtain ⟨c, h⟩ := exists_rungs (floatFormats_fbits hf) hn hd e
  have hround := FFmt.round_eq hn rfl rfl h mode false nanovf neg
  have hftz := FFmt.round_eq hn rfl rfl h mode true nanovf neg
  generalize num * 2 ^ (e - f.quantum num den e).toNat = N at *
  generalize den * 2 ^ (-(e - f.quantum num den e)).toNat = D at *
  dsimp only
  rw [hround, hftz]
  by_cases hc : f.maxMag < pickedCode mode neg N D c
  · simp only [if_pos hc]
    refine ⟨fun h => absurd h (by decide), fun _ => ⟨trivial, h.overflow_above hc, trivial⟩, ?_⟩
    rw [if_neg (overflow_normal hf mode neg nanovf)]
  · have hle := Nat.le_of_not_lt hc
    simp only [if_neg hc, Bool.false_and, Bool.false_eq_true, if_false, f.withSign_mod neg (hle.trans_lt f.maxMag_lt)]
    refine ⟨fun _ => ⟨_, hle, rfl, h.roundsTo mode neg hle, ?_⟩, fun hof => absurd (flags_no_overflow _ _) hof, ?_⟩
    · rw [flags_inexact, bne_eq_false_iff_eq]
      exact h.picked_exact_iff mode neg hle
    · simp [Nat.pos_iff_ne_zero, and_comm]

/-! ### Arithmetic rounded once -/

/-- The number that an exact dyadic stands for. -/
def Dy.rat (d : Dy) : ℚ := d.m * (2 : ℚ) ^ d.e

theorem Dy.rat_add (x y : Dy) : (x.add y).rat = x.rat + y.rat := by
  have hsplit : ∀ (m e g : Int), g ≤ e → ((m * 2 ^ (e - g).toNat : Int) : ℚ) * (2 : ℚ) ^ g = m * (2 : ℚ) ^ e := fun m e g h => by
    obtain ⟨k, rfl⟩ : ∃ k : Nat, e = g + k := ⟨(e - g).toNat, by omega⟩
    rw [add_sub_cancel_left, Int.toNat_natCast, zpow_add₀ (by norm_num), zpow_natCast]
    push_cast
    ring
  rw [Dy.rat, Dy.rat, Dy.rat, Dy.add]
  dsimp only
  rw [Int.cast_add, add_mul, hsplit _ _ _ (min_le_left _ _), hsplit _ _ _ (min_le_right _ _)]

theorem Dy.rat_eq_zero_iff (x : Dy) : x.rat = 0 ↔ x.m = 0 := by
  rw [Dy.rat, mul_eq_zero, Int.cast_eq_zero]
  exact or_iff_left (by positivity)

theorem FVal.dy_rat (v : FVal) : v.dy.rat = v.rat := by
  cases v with
  | nan | inf => simp [FVal.dy, Dy.rat, FVal.rat]
  | fin neg m e => cases neg <;> simp [FVal.dy, Dy.rat, FVal.rat]

theorem FVal.rat_fin_eq_zero_iff (neg : Bool) (m : Nat) (e : Int) : (FVal.fin neg m e).rat = 0 ↔ m = 0 := by
  rw [← FVal.dy_rat, Dy.rat_eq_zero_iff, FVal.dy]
  cases neg <;> simp

/-- The exact dyadic t as a value. -/
theorem Dy.rat_fin (t : Dy) : (FVal.fin (decide (t.m < 0)) t.m.natAbs t.e).rat = t.rat := by
  rw [FVal.rat, Dy.rat]
  by_cases h : t.m < 0
  · rw [if_pos (by simpa using h), neg_one_mul, Nat.cast_natAbs, abs_of_neg h]
    push_cast
    ring
  · rw [if_neg (by simpa using h), one_mul, Nat.cast_natAbs, abs_of_nonneg (by omega)]

/-- Writing a finite value is one rounding of its number, to which 0 gives its own sign. -/
theorem oneRounding_finish (f : FFmt) (mode : RMode) (ftz : Bool) (neg : Bool) (m : Nat) (e : Int) {zero : Bool}
    (hz : (FVal.fin neg m e).rat = 0 → neg = zero) : oneRounding f mode ftz (FVal.fin neg m e).rat zero (f.finish mode ftz (.fin neg m e, 0)) := by
  rw [FVal.rat_fin_eq_zero_iff] at hz
  have hfinish : f.finish mode ftz (.fin neg m e, 0) = f.round mode ftz false neg m 1 e := by
    rw [FFmt.finish, FFmt.write]
    exact Prod.ext rfl (BitVec.or_zero ..)
  rw [hfinish]
  constructor
  · intro hq
    have hm : m ≠ 0 := fun h => hq ((FVal.rat_fin_eq_zero_iff _ _ _).mpr h)
    refine ⟨neg, m, 1, e, Nat.pos_of_ne_zero hm, one_pos, ?_, rfl⟩
    rw [FVal.rat]
    ring
  · intro hq
    have hm := (FVal.rat_fin_eq_zero_iff _ _ _).mp hq
    rw [FFmt.round, if_pos hm, hz hm]

/-- The sum of finite values is a finite value, exact, the sign of an exact zero as R152 says. -/
theorem FVal.add_fin (mode : RMode) (a b : Bool) (m n : Nat) (e g : Int) : ∃ s k h,
    (FVal.fin a m e).add mode (.fin b n g) = (.fin s k h, 0) ∧ (FVal.fin s k h).rat = (FVal.fin a m e).rat + (FVal.fin b n g).rat ∧
    ((FVal.fin s k h).rat = 0 → s = if m = 0 ∧ n = 0 ∧ a = b then a else mode == .rd) := by
  have hsum : ((FVal.fin a m e).dy.add (FVal.fin b n g).dy).rat = (FVal.fin a m e).rat + (FVal.fin b n g).rat := by
    rw [Dy.rat_add, FVal.dy_rat, FVal.dy_rat]
  rw [FVal.add]
  by_cases h0 : ((FVal.fin a m e).dy.add (FVal.fin b n g).dy).m = 0
  · rw [if_pos h0]
    refine ⟨_, _, _, rfl, ?_, fun _ => ?_⟩
    · rw [← hsum, (Dy.rat_eq_zero_iff _).mpr h0, FVal.rat_fin_eq_zero_iff]
    · simp only [Bool.and_eq_true, decide_eq_true_eq, and_assoc]
      cases mode <;> rfl
  · rw [if_neg h0]
    refine ⟨_, _, _, rfl, (Dy.rat_fin _).trans hsum, fun hz => ?_⟩
    rw [Dy.rat_fin, Dy.rat_eq_zero_iff] at hz
    exact absurd hz h0

theorem oneRounding_add (f : FFmt) (mode : RMode) (ftz : Bool) (a b : Bool) (m n : Nat) (e g : Int) :
    oneRounding f mode ftz ((FVal.fin a m e).rat + (FVal.fin b n g).rat) (if m = 0 ∧ n = 0 ∧ a = b then a else mode == .rd)
      (f.finish mode ftz ((FVal.fin a m e).add mode (.fin b n g))) := by
  obtain ⟨s, k, h, hadd, hrat, hzero⟩ := FVal.add_fin mode a b m n e g
  rw [hadd, ← hrat]
  exact oneRounding_finish f mode ftz s k h hzero

theorem FVal.negate_rat (v : FVal) : v.negate.rat = -v.rat := by
  cases v with
  | nan | inf => simp [FVal.negate, FVal.rat]
  | fin neg m e => cases neg <;> simp [FVal.negate, FVal.rat]

theorem FVal.mul_fin (a b : Bool) (m n : Nat) (e g : Int) : (FVal.fin a m e).mul (.fin b n g) = (.fin (a != b) (m * n) (e + g), 0) := by
  simp [FVal.mul, FVal.isInf]

theorem FVal.rat_mul_fin (a b : Bool) (m n : Nat) (e g : Int) :
    (FVal.fin (a != b) (m * n) (e + g)).rat = (FVal.fin a m e).rat * (FVal.fin b n g).rat := by
  simp only [FVal.rat, zpow_add₀ (show (2 : ℚ) ≠ 0 by norm_num), Nat.cast_mul]
  cases a <;> cases b <;> simp <;> ring

theorem FVal.exists_fin {v : FVal} (h : v.isNan = false ∧ v.isInf = false) : ∃ neg m e, v = .fin neg m e := by
  cases v with
  | nan => simp [FVal.isNan] at h
  | inf => simp [FVal.isInf] at h
  | fin neg m e => exact ⟨neg, m, e, rfl⟩

/-- The four operations on finite values (R152). -/
theorem finite_spec (f : FFmt) (mode : RMode) (ftz : Bool) {x y : FVal} (hx : x.isNan = false ∧ x.isInf = false) (hy : y.isNan = false ∧ y.isInf = false) :
    oneRounding f mode ftz (x.rat + y.rat) (if x.isZero = true ∧ y.isZero = true ∧ x.neg = y.neg then x.neg else mode == .rd) (f.finish mode ftz (x.add mode y)) ∧
    oneRounding f mode ftz (x.rat - y.rat) (if x.isZero = true ∧ y.isZero = true ∧ x.neg ≠ y.neg then x.neg else mode == .rd)
      (f.finish mode ftz (x.add mode y.negate)) ∧
    oneRounding f mode ftz (x.rat * y.rat) (x.neg != y.neg) (f.finish mode ftz (x.mul y)) := by
  obtain ⟨a, m, e, rfl⟩ := FVal.exists_fin hx
  obtain ⟨b, n, g, rfl⟩ := FVal.exists_fin hy
  simp only [FVal.isZero, FVal.neg, beq_iff_eq]
  refine ⟨oneRounding_add f mode ftz a b m n e g, ?_, ?_⟩
  · have h := oneRounding_add f mode ftz a (!b) m n e g
    have hneg : (FVal.fin (!b) n g).rat = -(FVal.fin b n g).rat := FVal.negate_rat (.fin b n g)
    rw [hneg, ← sub_eq_add_neg] at h
    simpa [FVal.negate, Bool.eq_not] using h
  · rw [FVal.mul_fin, ← FVal.rat_mul_fin]
    exact oneRounding_finish f mode ftz _ _ _ fun _ => rfl

/-- A product with an addend, before it is written: the sum and the flags of both (R152). -/
def FVal.mulAdd (mode : RMode) (x y z : FVal) : FVal × Flags := (((x.mul y).1.add mode z).1, (x.mul y).2 ||| ((x.mul y).1.add mode z).2)

theorem FFmt.fma_eq (f : FFmt) (mode : RMode) (ftz : Bool) (a b c : Nat) :
    f.fma mode ftz a b c = f.finish mode ftz (FVal.mulAdd mode (f.read ftz a) (f.read ftz b) (f.read ftz c)) := rfl

theorem finite_mulAdd (f : FFmt) (mode : RMode) (ftz : Bool) {x y z : FVal} (hx : x.isNan = false ∧ x.isInf = false)
    (hy : y.isNan = false ∧ y.isInf = false) (hz : z.isNan = false ∧ z.isInf = false) :
    oneRounding f mode ftz (x.rat * y.rat + z.rat)
      (if (x.isZero = true ∨ y.isZero = true) ∧ z.isZero = true ∧ (x.neg != y.neg) = z.neg then z.neg else mode == .rd) (f.finish mode ftz (FVal.mulAdd mode x y z)) := by
  obtain ⟨a, m, e, rfl⟩ := FVal.exists_fin hx
  obtain ⟨b, n, g, rfl⟩ := FVal.exists_fin hy
  obtain ⟨c, o, h, rfl⟩ := FVal.exists_fin hz
  have hsum := oneRounding_add f mode ftz (a != b) c (m * n) o (e + g) h
  simp only [FVal.isZero, FVal.neg, beq_iff_eq, FVal.mulAdd, FVal.mul_fin, ← FVal.rat_mul_fin]
  have hzero : (if (m = 0 ∨ n = 0) ∧ o = 0 ∧ (a != b) = c then c else mode == .rd) = if m * n = 0 ∧ o = 0 ∧ (a != b) = c then a != b else mode == .rd := by
    simp only [← Nat.mul_eq_zero]
    exact ite_congr rfl (fun h => h.2.2.symm) fun _ => rfl
  rw [hzero]
  convert hsum using 1
  exact congrArg _ (Prod.ext rfl (BitVec.zero_or ..))

/-! ### NaNs, infinities and products of 0 and ∞ (R84) -/

theorem FFmt.finish_nan (f : FFmt) (mode : RMode) (ftz sig : Bool) (fl : Flags) : f.finish mode ftz (.nan sig, fl) = (f.nanCode, fl) := by
  simp [FFmt.finish, FFmt.write]

theorem FFmt.finish_inf (f : FFmt) (mode : RMode) (ftz neg : Bool) (fl : Flags) : f.finish mode ftz (.inf neg, fl) = (f.infCode neg, fl) := by
  simp [FFmt.finish, FFmt.write]

/-- Is a product one of 0 and ∞? -/
def FVal.invalidProduct (x y : FVal) : Prop := x.isZero = true ∧ y.isInf = true ∨ x.isInf = true ∧ y.isZero = true

theorem FVal.exists_nan {v : FVal} (h : v.isNan = true) : ∃ sig, v = .nan sig := by
  cases v with
  | nan sig => exact ⟨sig, rfl⟩
  | inf | fin => simp [FVal.isNan] at h

theorem FVal.add_nan (mode : RMode) {x y : FVal} (h : x.isNan = true ∨ y.isNan = true) : x.add mode y = (.nan false, flIf (x.isSig || y.isSig) flNV) := by
  rcases h with h | h
  · obtain ⟨sig, rfl⟩ := FVal.exists_nan h
    cases y <;> rfl
  · obtain ⟨sig, rfl⟩ := FVal.exists_nan h
    cases x <;> rfl

theorem FVal.mul_invalid {x y : FVal} (h : x.invalidProduct y) : x.mul y = (.nan false, flNV) := by
  unfold FVal.mul
  rw [if_pos]
  simpa [FVal.invalidProduct] using h

theorem FVal.mul_nan {x y : FVal} (h : x.isNan = true ∨ y.isNan = true) : x.mul y = (.nan false, flIf (x.isSig || y.isSig) flNV) := by
  rcases h with h | h
  · obtain ⟨sig, rfl⟩ := FVal.exists_nan h
    cases y <;> simp [FVal.mul, FVal.isZero, FVal.isInf]
  · obtain ⟨sig, rfl⟩ := FVal.exists_nan h
    cases x <;> simp [FVal.mul, FVal.isZero, FVal.isInf]

theorem FVal.mul_inf {x y : FVal} (hx : x.isNan = false) (hy : y.isNan = false) (h : x.isInf = true ∨ y.isInf = true) (hv : ¬x.invalidProduct y) :
    x.mul y = (.inf (x.neg != y.neg), 0) := by
  have hif : ¬((x.isZero && y.isInf) || (x.isInf && y.isZero)) = true := by simpa [FVal.invalidProduct] using hv
  unfold FVal.mul
  rw [if_neg hif]
  cases x <;> cases y <;> simp_all [FVal.isNan, FVal.isInf, FVal.neg, bne_comm]

theorem FVal.add_inf (mode : RMode) {x y : FVal} (hx : x.isNan = false) (hy : y.isNan = false) (h : x.isInf = true ∨ y.isInf = true) :
    x.add mode y = if x.isInf = true ∧ y.isInf = true ∧ x.neg ≠ y.neg then (.nan false, flNV) else (.inf (if x.isInf = true then x.neg else y.neg), 0) := by
  cases x <;> cases y <;> simp_all [FVal.add, FVal.isNan, FVal.isInf, FVal.neg]

theorem flIf_or (a b : Bool) (f : Flags) : flIf a f ||| flIf b f = flIf (a || b) f := by
  cases a <;> cases b <;> simp [flIf]

theorem FVal.isSig_of_not_nan {v : FVal} (h : v.isNan = false) : v.isSig = false := by
  cases v with
  | nan => simp [FVal.isNan] at h
  | inf | fin => rfl

theorem FVal.negate_kind (v : FVal) : v.negate.isNan = v.isNan ∧ v.negate.isInf = v.isInf ∧ v.negate.isSig = v.isSig := by
  cases v <;> exact ⟨rfl, rfl, rfl⟩

theorem FVal.negate_neg {v : FVal} (h : v.isNan = false) : v.negate.neg = !v.neg := by
  cases v with
  | nan => simp [FVal.isNan] at h
  | inf | fin => rfl

/-- A product of no NaN and not of 0 and ∞ is no NaN, without a flag. -/
theorem FVal.mul_valid {x y : FVal} (hx : x.isNan = false) (hy : y.isNan = false) (hv : ¬x.invalidProduct y) :
    ∃ v, x.mul y = (v, 0) ∧ v.isNan = false := by
  by_cases hinf : x.isInf = true ∨ y.isInf = true
  · exact ⟨_, FVal.mul_inf hx hy hinf hv, rfl⟩
  · simp only [not_or, Bool.not_eq_true] at hinf
    obtain ⟨a, m, e, rfl⟩ := FVal.exists_fin ⟨hx, hinf.1⟩
    obtain ⟨b, n, g, rfl⟩ := FVal.exists_fin ⟨hy, hinf.2⟩
    exact ⟨_, FVal.mul_fin .., rfl⟩

/-- A product with an addend, of which one is a NaN, and no product of 0 and ∞. -/
theorem FVal.mulAdd_nan (mode : RMode) {x y z : FVal} (h : x.isNan = true ∨ y.isNan = true ∨ z.isNan = true) (hv : ¬x.invalidProduct y) :
    FVal.mulAdd mode x y z = (.nan false, flIf (x.isSig || y.isSig || z.isSig) flNV) := by
  by_cases hxy : x.isNan = true ∨ y.isNan = true
  · rw [FVal.mulAdd, FVal.mul_nan hxy, FVal.add_nan mode (.inl rfl)]
    exact Prod.ext rfl (flIf_or ..)
  · have hz : z.isNan = true := (or_assoc.mpr h).resolve_left hxy
    simp only [not_or, Bool.not_eq_true] at hxy
    obtain ⟨v, hmul, hnan⟩ := FVal.mul_valid hxy.1 hxy.2 hv
    rw [FVal.mulAdd, hmul, FVal.add_nan mode (.inr hz), FVal.isSig_of_not_nan hxy.1, FVal.isSig_of_not_nan hxy.2, FVal.isSig_of_not_nan hnan]
    exact Prod.ext rfl (BitVec.zero_or ..)

/-- A product with an addend that is infinite, of no NaN, and no product of 0 and ∞. -/
theorem FVal.mulAdd_inf (mode : RMode) {x y z : FVal} (hx : x.isNan = false) (hy : y.isNan = false) (hz : z.isNan = false) (h : x.isInf = true ∨ y.isInf = true)
    (hv : ¬x.invalidProduct y) : FVal.mulAdd mode x y z = if z.isInf = true ∧ z.neg ≠ (x.neg != y.neg) then (.nan false, flNV) else (.inf (x.neg != y.neg), 0) := by
  rw [FVal.mulAdd, FVal.mul_inf hx hy h hv, FVal.add_inf mode rfl hz (.inl rfl)]
  by_cases hc : z.isInf = true ∧ z.neg ≠ (x.neg != y.neg)
  · rw [if_pos hc, if_pos ⟨rfl, hc.1, hc.2.symm⟩]
    exact Prod.ext rfl (BitVec.zero_or ..)
  · rw [if_neg hc, if_neg fun h' => hc ⟨h'.2.1, h'.2.2.symm⟩]
    exact Prod.ext rfl (BitVec.zero_or ..)

/-- NaNs and infinities in the four operations (R84). -/
theorem special_spec (f : FFmt) (mode : RMode) (ftz : Bool) (x y z : FVal) :
    let bad := ((f.nanCode, flNV) : Nat × Flags)
    let quiet := fun (sig : Bool) => ((f.nanCode, if sig = true then flNV else 0) : Nat × Flags)
    let inv := x.isZero = true ∧ y.isInf = true ∨ x.isInf = true ∧ y.isZero = true
    let add := f.finish mode ftz (x.add mode y)
    let sub := f.finish mode ftz (x.add mode y.negate)
    let mul := f.finish mode ftz (x.mul y)
    let fma := f.finish mode ftz (FVal.mulAdd mode x y z)
    (x.isNan = true ∨ y.isNan = true → add = quiet (x.isSig || y.isSig) ∧ sub = quiet (x.isSig || y.isSig) ∧ mul = quiet (x.isSig || y.isSig)) ∧
    (x.isNan = true ∨ y.isNan = true ∨ z.isNan = true → ¬inv → fma = quiet (x.isSig || y.isSig || z.isSig)) ∧
    (inv → mul = bad ∧ fma = bad) ∧
    (x.isNan = false → y.isNan = false → x.isInf = true ∨ y.isInf = true →
      let first := if x.isInf = true then x.neg else y.neg
      let second := if x.isInf = true then x.neg else !y.neg
      add = (if x.isInf = true ∧ y.isInf = true ∧ x.neg ≠ y.neg then bad else (f.infCode first, 0)) ∧
      sub = (if x.isInf = true ∧ y.isInf = true ∧ x.neg = y.neg then bad else (f.infCode second, 0)) ∧
      (¬inv → mul = (f.infCode (x.neg != y.neg), 0)) ∧
      (¬inv → z.isNan = false → fma = if z.isInf = true ∧ z.neg ≠ (x.neg != y.neg) then bad else (f.infCode (x.neg != y.neg), 0))) ∧
    (x.isNan = false ∧ x.isInf = false → y.isNan = false ∧ y.isInf = false → z.isInf = true → fma = (f.infCode z.neg, 0)) := by
  obtain ⟨hnan, hinf, hsig⟩ := y.negate_kind
  dsimp only
  refine ⟨fun h => ?_, fun h hv => ?_, fun hv => ?_, fun hx hy h => ⟨?_, ?_, fun hv => ?_, fun hv hz => ?_⟩, fun hx hy hz => ?_⟩
  · rw [FVal.add_nan mode h, FVal.add_nan mode (by rwa [hnan]), FVal.mul_nan h, hsig, f.finish_nan]
    exact ⟨rfl, rfl, rfl⟩
  · rw [FVal.mulAdd_nan mode h hv, f.finish_nan]
    rfl
  · have hflag : ∀ sig, flNV ||| flIf sig flNV = flNV := by decide
    rw [FVal.mulAdd, FVal.mul_invalid hv, FVal.add_nan mode (.inl rfl), hflag, f.finish_nan]
    exact ⟨rfl, rfl⟩
  · rw [FVal.add_inf mode hx hy h]
    split
    · exact f.finish_nan ..
    · exact f.finish_inf ..
  · rw [FVal.add_inf mode hx (hnan.trans hy) (by rwa [hinf]), hinf, FVal.negate_neg hy]
    simp only [ne_eq, Bool.eq_not, not_not]
    split
    · exact f.finish_nan ..
    · exact f.finish_inf ..
  · rw [FVal.mul_inf hx hy h hv]
    exact f.finish_inf ..
  · rw [FVal.mulAdd_inf mode hx hy hz h hv]
    split
    · exact f.finish_nan ..
    · exact f.finish_inf ..
  · obtain ⟨a, m, e, rfl⟩ := FVal.exists_fin hx
    obtain ⟨b, n, g, rfl⟩ := FVal.exists_fin hy
    have hnan : z.isNan = false := by
      cases z with
      | nan => simp [FVal.isInf] at hz
      | inf | fin => rfl
    rw [FVal.mulAdd, FVal.mul_fin, FVal.add_inf mode rfl hnan (.inr hz), if_neg fun h => Bool.false_ne_true h.1]
    exact (f.finish_inf ..).trans (Prod.ext rfl (BitVec.zero_or ..))

/-! ### FDOT4 (R157) -/

theorem FVal.exact_mul {x y : FVal} (hx : x.isNan = false ∧ x.isInf = false) (hy : y.isNan = false ∧ y.isInf = false) :
    (x.mul y).1.rat = x.rat * y.rat ∧ (x.mul y).2 = 0 ∧ (x.mul y).1.isNan = false ∧ (x.mul y).1.isInf = false := by
  obtain ⟨a, m, e, rfl⟩ := FVal.exists_fin hx
  obtain ⟨b, n, g, rfl⟩ := FVal.exists_fin hy
  rw [FVal.mul_fin]
  exact ⟨FVal.rat_mul_fin .., rfl, rfl, rfl⟩

theorem Dy.rat_foldl (l : List FVal) (d : Dy) : (l.foldl (fun a v => Dy.add a v.dy) d).rat = d.rat + (l.map FVal.rat).sum := by
  induction l generalizing d with
  | nil => simp
  | cons v t ih => rw [List.foldl_cons, ih, Dy.rat_add, FVal.dy_rat, List.map_cons, List.sum_cons, add_assoc]

/-- The exact sum of finite values. -/
theorem sumVals_fin {l : List FVal} (h : ∀ v ∈ l, v.isNan = false ∧ v.isInf = false) :
    ∃ s k e, sumVals l = (.fin s k e, 0) ∧ (FVal.fin s k e).rat = (l.map FVal.rat).sum := by
  have hinf : ∀ neg, l.any (fun v => v == .inf neg) = false := fun neg => by
    rw [List.any_eq_false]
    intro v hv he
    rw [beq_iff_eq.mp he] at hv
    exact Bool.noConfusion (h _ hv).2
  have hnan : l.any FVal.isNan = false := by
    rw [List.any_eq_false]
    exact fun v hv => by simp [(h v hv).1]
  have hsum : (l.foldl (fun a v => Dy.add a v.dy) ⟨0, 0⟩).rat = (l.map FVal.rat).sum := by
    rw [Dy.rat_foldl]
    simp [Dy.rat]
  simp only [sumVals, hinf, hnan, Bool.and_self, Bool.false_eq_true, if_false]
  by_cases h0 : (l.foldl (fun a v => Dy.add a v.dy) ⟨0, 0⟩).m = 0
  · rw [if_pos h0]
    refine ⟨_, _, _, rfl, ?_⟩
    rw [← hsum, (Dy.rat_eq_zero_iff _).mpr h0, FVal.rat_fin_eq_zero_iff]
  · rw [if_neg h0]
    exact ⟨_, _, _, rfl, (Dy.rat_fin _).trans hsum⟩

theorem sumVals_nan {l : List FVal} (h : ∃ v ∈ l, v.isNan = true) : (sumVals l).1.isNan = true := by
  have hnan : l.any FVal.isNan = true := List.any_eq_true.mpr h
  rw [sumVals]
  simp only [hnan, if_true]
  split <;> rfl

/-- The terms of FDOT4. -/
def dotTerms (x y : Nat → FVal) (z : FVal) : List FVal := z :: (List.range 4).map fun k => ((x k).mul (y k)).1

theorem fdot4_eq (e5 ftz : Bool) (a b c : Nat) :
    let f := if e5 then fmtE5M2 else fmtE4M3
    let x := fun k => f.decode (a / 256 ^ k % 256)
    let y := fun k => f.decode (b / 256 ^ k % 256)
    let z := fmtF32.read ftz c
    fdot4 e5 ftz a b c = fmtF32.finish .rne ftz ((sumVals (dotTerms x y z)).1,
      (sumVals (dotTerms x y z)).2 ||| unionFlags ((List.range 4).map fun k => ((x k).mul (y k)).2) ||| flIf z.isSig flNV) := by
  have helem : ∀ k w, elem 8 k w = w / 256 ^ k % 256 := fun k w => by
    rw [elem, pow_mul]
    rfl
  simp only [fdot4, dotTerms, helem, List.map_map, Function.comp_def]

/-- FDOT4 of finite values: the exact sum rounded once. -/
theorem fdot4_finite {x y : Nat → FVal} {z : FVal} (ftz : Bool) (hz : z.isNan = false ∧ z.isInf = false)
    (h : ∀ k < 4, (x k).isNan = false ∧ (x k).isInf = false ∧ (y k).isNan = false ∧ (y k).isInf = false) :
    ∃ zero, oneRounding fmtF32 .rne ftz (z.rat + (x 0).rat * (y 0).rat + (x 1).rat * (y 1).rat + (x 2).rat * (y 2).rat + (x 3).rat * (y 3).rat) zero
      (fmtF32.finish .rne ftz ((sumVals (dotTerms x y z)).1,
        (sumVals (dotTerms x y z)).2 ||| unionFlags ((List.range 4).map fun k => ((x k).mul (y k)).2) ||| flIf z.isSig flNV)) := by
  have hmul : ∀ k < 4, _ := fun k hk => FVal.exact_mul (x := x k) (y := y k) ⟨(h k hk).1, (h k hk).2.1⟩ (h k hk).2.2
  obtain ⟨s, m, e, hsum, hrat⟩ := sumVals_fin (l := dotTerms x y z) <| by
    rintro v (_ | ⟨_, hv⟩)
    · exact hz
    · obtain ⟨k, hk, rfl⟩ := List.mem_map.mp hv
      exact (hmul k (List.mem_range.mp hk)).2.2
  have hflags : unionFlags ((List.range 4).map fun k => ((x k).mul (y k)).2) = 0 := by
    rw [List.map_congr_left fun k hk => (hmul k (List.mem_range.mp hk)).2.1]
    exact unionFlags_zero _
  have hexact : (FVal.fin s m e).rat = z.rat + (x 0).rat * (y 0).rat + (x 1).rat * (y 1).rat + (x 2).rat * (y 2).rat + (x 3).rat * (y 3).rat := by
    rw [hrat, dotTerms]
    simp only [List.map_cons, List.sum_cons, List.range, List.range.loop, List.map_nil, List.sum_nil,
      (hmul 0 (by decide)).1, (hmul 1 (by decide)).1, (hmul 2 (by decide)).1, (hmul 3 (by decide)).1]
    ring
  rw [hsum, hflags, FVal.isSig_of_not_nan hz.1, ← hexact]
  have hnone : (0 : Flags) ||| 0 ||| flIf false flNV = 0 := by decide
  dsimp only
  rw [hnone]
  exact ⟨s, oneRounding_finish fmtF32 .rne ftz s m e fun _ => rfl⟩

theorem fdot4_nan {x y : Nat → FVal} {z : FVal} (ftz : Bool) (fl : Flags) (h : z.isNan = true ∨ ∃ k < 4, (x k).isNan = true ∨ (y k).isNan = true) :
    (fmtF32.finish .rne ftz ((sumVals (dotTerms x y z)).1, fl)).1 = fmtF32.nanCode := by
  obtain ⟨sig, hnan⟩ := FVal.exists_nan <| sumVals_nan (l := dotTerms x y z) <| by
    rcases h with h | ⟨k, hk, h⟩
    · exact ⟨z, List.mem_cons_self, h⟩
    · refine ⟨_, List.mem_cons_of_mem _ (List.mem_map.mpr ⟨k, List.mem_range.mpr hk, rfl⟩), ?_⟩
      rw [FVal.mul_nan h]
      rfl
  rw [hnan, fmtF32.finish_nan]

/-- Settles O58: the rungs of a format around the exact value, then exact sums and products of what was read, written with one rounding. -/
theorem correctRounding : Obligations.CorrectRounding := by
  unfold Obligations.CorrectRounding
  refine ⟨fun f hf mode nanovf neg num den e hn hd => ?_, fun f hf mode ftz a b c => ?_, fun e5 ftz a b c => ⟨fun hz hinf h => ?_, fun h => ?_⟩⟩
  · obtain ⟨hfine, hover, hftz⟩ := round_spec hf mode nanovf neg e hn hd
    refine ⟨hfine, fun hof => ?_, hftz⟩
    obtain ⟨hflags, habove, hcode⟩ := hover hof
    refine ⟨hflags, habove, fun hk => ?_, fun hk => ?_, fun hk => ?_⟩
    · rw [hcode, FFmt.overflow_ieee hk]
    · rw [hcode, FFmt.overflow_e4m3 hk]
    · rw [hcode, FFmt.overflow_noSpecial hk]
  · have hspecial := special_spec f mode ftz (f.read ftz a) (f.read ftz b) (f.read ftz c)
    refine ⟨fun hx hy => ?_, hspecial⟩
    obtain ⟨hadd, hsub, hmul⟩ := finite_spec f mode ftz hx hy
    exact ⟨hadd, hsub, hmul, fun hz => finite_mulAdd f mode ftz hx hy hz⟩
  · rw [fdot4_eq]
    exact fdot4_finite ftz ⟨hz, hinf⟩ h
  · rw [fdot4_eq]
    exact fdot4_nan ftz _ h

end Sys2Proof.Machine
end

section
/-! Lane values and system values (R62, R236 to R238). -/
namespace Sys2Proof.Machine

theorem Ctx.sysVal_eq (x : Ctx) (v : SysVal) (l : Nat) : x.sysVal v l = sysWord x v l := by
  have hservice : isService x.g.core = decide (384 ≤ x.g.core) := rfl
  cases v <;> simp [Ctx.sysVal, sysWord, sysCore, sysTeam, hservice]

/-- An instruction that changes nothing but the group's place in its clause. -/
theorem changes_nothing {i : Instr} (hexec : ∀ s, exec i s = issue i noDyn (fun _ => []) (fun x => .ok x.s) s) :
    Changes i (fun _ => []) always (fun _ h => h) :=
  changes_of_okGroup (F := fun _ h => h) hexec (fun _ _ => rfl) (fun x _ => by rw [Ctx.okGroup, State.modGroup_id]) (fun _ _ => rfl)
    fun _ _ o ho => absurd ho List.not_mem_nil

theorem Ctx.laneWise64_uniform (x : Ctx) (n : BitVec 6) (f : Nat → Nat) :
    x.laneWise64 (.s n) f = if x.any then x.g.sset n.toNat (BitVec.ofNat 64 (f 0)) else x.g := by
  rw [Ctx.laneWise64, Ctx.workLanes]
  split <;> rfl

/-- GETSYS in each lane. -/
theorem computes_getsys_lanes (g : Guard) (v : SysVal) (n : BitVec 8) : Computes (.getsys g v (.v n)) (fun _ => namesA (.v n) []) always
    (fun x => x.inLanes (.v n) (fun l => BitVec.ofNat 32 (sysWord x v l))) (fun _ => 0) := by
  have h := computes_of_laneWise (i := .getsys g v (.v n)) (nms := fun _ => namesA (.v n) []) (ok := always) (d := .v n)
    (f := fun x l => (x.sysVal v l % 2 ^ 32, 0)) (val := fun x l => BitVec.ofNat 32 (sysWord x v l)) (fl := fun _ _ => 0)
    (dyn := fun x => if noDyn x then some 3 else none) (body := fun x => .ok (x.s.setGroup (x.laneWise (.v n) (fun l => (x.sysVal v l % 2 ^ 32, 0)))))
    (fun _ => rfl) (fun _ _ => rfl) (fun _ _ => rfl) fun x l _ => by rw [Ctx.sysVal_eq, BitVec.toNat_ofNat]
  simpa only [Ctx.lanesFlags_zero] using h

/-- GETSYS of a uniform register. -/
theorem computes_getsys_uniform (g : Guard) (v : SysVal) (n : BitVec 6) : Computes (.getsys g v (.s n)) (fun _ => namesA (.s n) []) always
    (fun x => if x.any = true then [(.s n.toNat, BitVec.ofNat 64 (sysWord x v 0))] else []) (fun _ => 0) := by
  have hn : (n.setWidth 8).toNat % 64 = n.toNat := by rw [BitVec.toNat_setWidth_of_le (by decide)]; exact Nat.mod_eq_of_lt n.isLt
  have hop : bOpnd true (n.setWidth 8) = .s n := by
    rw [bOpnd, if_pos rfl]
    exact congrArg Opnd.s (BitVec.eq_of_toNat_eq (by rw [toNat_ofNat_six, hn]))
  have h := computes_of_uniform (i := .getsys g v (.s n)) (d := n.setWidth 8) (val := fun x => BitVec.ofNat 64 (sysWord x v 0))
    (body := fun x => .ok (x.s.setGroup (x.laneWise64 (.s n) fun l => x.sysVal v l))) (fun s => by rw [hop]; rfl) fun x _ => by
      rw [hn, Ctx.laneWise64_uniform, Ctx.sysVal_eq]
  rw [hop, hn] at h
  exact h

/-- Settles O30: ELECT and GETSYS are lane-wise, or write one uniform register; YIELD and NOP change nothing. -/
theorem laneAndSystemValues : Obligations.LaneAndSystemValues := by
  unfold Obligations.LaneAndSystemValues
  refine ⟨fun g d => laneWise_of_int (fun _ => rfl) fun x l => ?_, fun i g hi => ?_, computes_getsys_lanes, computes_getsys_uniform⟩
  · have hhead : x.lanes.getD 0 0 = x.lanes.headD 0 := by cases x.lanes <;> rfl
    rw [hhead]
    by_cases h : l = x.lanes.headD 0
    · simp only [bit, h, beq_self_eq_true, if_true]; rfl
    · simp only [bit, beq_eq_false_iff_ne.mpr h, if_neg h]; rfl
  · rcases hi with rfl | rfl
    · exact changes_nothing fun _ => rfl
    · exact changes_nothing fun _ => rfl

end Sys2Proof.Machine
end

section
/-! Transfers (R101, R233, R234): where the active lanes go, and the misaligned-target trap. -/
namespace Sys2Proof.Machine

theorem ctxOf_clause {s : State} {gd : Guard} {x : Ctx} (h : ctxOf s gd = some x) : x.g.clause = some x.c := by
  simp only [ctxOf, Option.bind_eq_bind, Option.bind_eq_some_iff] at h
  obtain ⟨_, -, g, -, c, hc, _, -, _, -, h⟩ := h
  simp only [Option.pure_def, Option.some.injEq] at h
  rw [← h]
  exact hc

theorem Ctx.mem_lanes {x : Ctx} {l : Nat} : l ∈ x.lanes ↔ l < x.g.width ∧ x.act.getLsbD l = true := by
  rw [Ctx.lanes, lanesOf, List.mem_filter, List.mem_range]

theorem Ctx.lanes_sorted (x : Ctx) : x.lanes.Pairwise (· < ·) := List.Pairwise.sublist List.filter_sublist List.pairwise_lt_range

theorem lanesOf_bit {w l : Nat} (hw : l < w) (hl : l < 64) : lanesOf w (1#64 <<< l) = [l] := by
  have hbit : ∀ i, (1#64 <<< l).getLsbD i = decide (i = l) := fun i => by
    rw [BitVec.getLsbD_shiftLeft, BitVec.getLsbD_one]
    by_cases h : i = l
    · simp [h, hl]
    · simp [h]; omega
  simp only [lanesOf, hbit]
  rw [List.filter_eq, List.count_eq_one_of_mem List.nodup_range (List.mem_range.mpr hw), List.replicate_one]

/-- Lanes that go to their targets by a transfer. -/
theorem Group.foldl_transferTo (target : Nat → Word) (ls : List Nat) (g : Group) (h : ∀ l ∈ ls, l < g.width ∧ l < 64) :
    ∃ v t, ls.foldl (fun k l => k.transferTo (1#64 <<< l) (target l)) g = { g with vpc := v, transfer := t } ∧
      (∀ l, v.get l = if l ∈ ls then target l else g.vpc.get l) ∧ ∀ i, t.getLsbD i = (g.transfer.getLsbD i || decide (i ∈ ls)) := by
  induction ls generalizing g with
  | nil => exact ⟨g.vpc, g.transfer, rfl, by simp, by simp⟩
  | cons a r ih =>
    obtain ⟨ha, hr⟩ := List.forall_mem_cons.mp h
    have hone : g.transferTo (1#64 <<< a) (target a) = { g with vpc := g.vpc.set a (target a), transfer := g.transfer ||| 1#64 <<< a } := by
      rw [Group.transferTo, Group.setVpc, lanesOf_bit ha.1 ha.2]
      rfl
    rw [List.foldl_cons, hone]
    obtain ⟨v, t, hfold, hv, ht⟩ := ih { g with vpc := g.vpc.set a (target a), transfer := g.transfer ||| 1#64 <<< a } hr
    refine ⟨v, t, hfold, fun l => ?_, fun i => ?_⟩
    · rw [hv]
      by_cases hl : l ∈ r
      · simp [hl]
      · by_cases hla : l = a
        · simp [hla]
        · simp [hl, hla, Store.get_set_ne _ _ hla]
    · rw [ht]
      by_cases hia : i = a
      · simp [hia, ha.2]
      · have hbit : (1#64 <<< a).getLsbD i = false := by simp; omega
        simp [hia, hbit]

theorem Group.foldl_vset_vget (n : Nat) (w : Word) (ls : List Nat) (hls : ∀ l ∈ ls, l < 64) (g : Group) {l : Nat} (hl : l < 64) (m : Nat) :
    (ls.foldl (fun k l => k.vset n l w) g).vget m l = if m = n ∧ l ∈ ls then w else g.vget m l := by
  induction ls generalizing g with
  | nil => simp
  | cons a r ih =>
    obtain ⟨ha, hr⟩ := List.forall_mem_cons.mp hls
    rw [List.foldl_cons, ih hr]
    have hone : (g.vset n a w).vget m l = if m = n ∧ l = a then w else g.vget m l := by
      rw [Group.vget, Group.vset, Store.get_set]
      exact if_congr (by omega) rfl rfl
    rw [hone]
    by_cases h1 : m = n <;> by_cases h2 : l ∈ r <;> by_cases h3 : l = a <;> simp [h1, h2, h3]

/-- Where the active lanes go. -/
theorem Ctx.goTo_spec (x : Ctx) (hx : ∀ l, x.act.getLsbD l = true → l < x.g.width) {g : Group} (hw : g.width = x.g.width) (hc : g.clause = some x.c)
    (target : Nat → Word) : ∃ v, x.goTo g target = { g with vpc := v, transfer := g.transfer ||| x.act, clause := some { x.c with lanes := x.c.lanes &&& ~~~x.act } } ∧
      ∀ l, v.get l = if l ∈ x.lanes then target l else g.vpc.get l := by
  obtain ⟨v, t, hfold, hv, ht⟩ := Group.foldl_transferTo target x.lanes g fun l hl => ⟨by rw [hw]; exact (mem_lanesOf.mp hl).1, Ctx.lanes_lt hl⟩
  have htransfer : t = g.transfer ||| x.act := by
    refine BitVec.eq_of_getLsbD_eq fun i _ => ?_
    rw [ht, BitVec.getLsbD_or, Ctx.lanes]
    congr 1
    by_cases hi : x.act.getLsbD i = true
    · rw [hi, decide_eq_true (mem_lanesOf.mpr ⟨hx i hi, hi⟩)]
    · rw [Bool.not_eq_true _ |>.mp hi, decide_eq_false fun h => hi (mem_lanesOf.mp h).2]
  refine ⟨v, ?_, hv⟩
  rw [Ctx.goTo, hfold, Group.leave, htransfer]
  dsimp only
  rw [hc]

theorem Group.foldl_vset_frame (n : Nat) (w : Word) (ls : List Nat) (g : Group) :
    ls.foldl (fun k l => k.vset n l w) g = { g with v := (ls.foldl (fun k l => k.vset n l w) g).v, poisonV := (ls.foldl (fun k l => k.vset n l w) g).poisonV } := by
  induction ls generalizing g with
  | nil => rfl
  | cons a r ih =>
    rw [List.foldl_cons]
    exact ih (g.vset n a w)

/-- The group in which a transfer's link register is written. -/
def Ctx.linked (x : Ctx) (link : Option Nat) (g : Group) : Group :=
  match link with
  | some n => x.lanes.foldl (fun k l => k.vset n l x.c.nextStart) g
  | none => g

theorem Ctx.linked_frame (x : Ctx) (link : Option Nat) (g : Group) : x.linked link g = { g with v := (x.linked link g).v, poisonV := (x.linked link g).poisonV } := by
  cases link with
  | none => rfl
  | some n => exact Group.foldl_vset_frame n x.c.nextStart x.lanes g

theorem Ctx.linked_vget (x : Ctx) (link : Option Nat) (g : Group) {l : Nat} (hl : l < 64) (m : Nat) :
    (x.linked link g).vget m l = if link = some m ∧ l ∈ x.lanes then x.c.nextStart else g.vget m l := by
  cases link with
  | none => simp [Ctx.linked]
  | some n =>
    rw [Ctx.linked, Group.foldl_vset_vget n x.c.nextStart x.lanes (fun _ => Ctx.lanes_lt) g hl m]
    exact if_congr (by rw [Option.some.injEq, eq_comm]) rfl rfl

theorem Ctx.badTarget_none {x : Ctx} {target : Nat → Word} (h : ∀ l ∈ x.lanes, (target l).toNat % 8 = 0) : x.badTarget target = none := by
  rw [Ctx.badTarget, List.filter_eq_nil_iff.mpr fun l hl => by simp [h l hl]]

/-- The misaligned-target trap names every active lane with a bad target, and the lowest one's target. -/
theorem Ctx.badTarget_some {x : Ctx} {target : Nat → Word} {l : Nat} (hl : l ∈ x.lanes) (hbad : (target l).toNat % 8 ≠ 0)
    (hlow : ∀ k ∈ x.lanes, k < l → (target k).toNat % 8 = 0) : x.badTarget target =
      some ⟨1, 0, maskOf x.g.width (fun k => x.act.getLsbD k && (target k).toNat % 8 != 0), (target l).setWidth 64, 0, 0, 0⟩ := by
  have hmem : ∀ k, k ∈ x.lanes.filter (fun l => (target l).toNat % 8 != 0) ↔ (k < x.g.width ∧ x.act.getLsbD k = true) ∧ (target k).toNat % 8 ≠ 0 := fun k => by
    rw [List.mem_filter, Ctx.lanes, mem_lanesOf, bne_iff_ne]
  have hsorted := x.lanes_sorted.sublist (List.filter_sublist (p := fun l => (target l).toNat % 8 != 0))
  have hin := (hmem l).mpr ⟨mem_lanesOf.mp hl, hbad⟩
  rw [Ctx.badTarget]
  cases hf : x.lanes.filter (fun l => (target l).toNat % 8 != 0) with
  | nil => rw [hf] at hin; cases hin
  | cons a r =>
    rw [hf] at hin hsorted hmem
    have ha : a = l := by
      obtain ⟨halane, habad⟩ := (hmem a).mp List.mem_cons_self
      rcases List.mem_cons.mp hin with h | h
      · exact h.symm
      · exact absurd (hlow a (mem_lanesOf.mpr halane) (List.rel_of_pairwise_cons hsorted h)) habad
    subst ha
    have hmask : maskOf x.g.width (fun i => (a :: r).contains i) = maskOf x.g.width (fun k => x.act.getLsbD k && (target k).toNat % 8 != 0) := by
      refine BitVec.eq_of_getLsbD_eq fun i _ => ?_
      rw [getLsbD_maskOf, getLsbD_maskOf]
      by_cases hw : i < x.g.width
      · have : (a :: r).contains i = (x.act.getLsbD i && (target i).toNat % 8 != 0) := by
          rw [Bool.eq_iff_iff, List.contains_iff_mem, hmem, Bool.and_eq_true, bne_iff_ne]
          simp [hw]
        rw [this]
      · simp [hw]
    dsimp only
    rw [hmask]
    simp

theorem Ctx.goTo_gid (x : Ctx) (g : Group) (target : Nat → Word) : (x.goTo g target).gid = g.gid := by
  have hfold : ∀ (ls : List Nat) (h : Group), (ls.foldl (fun h l => h.transferTo (1#64 <<< l) (target l)) h).gid = h.gid := fun ls h => by
    induction ls generalizing h with
    | nil => rfl
    | cons a r ih => exact ih _
  have hleave : ∀ (h : Group) (m : DWord), (h.leave m).gid = h.gid := fun h m => by
    rw [Group.leave]
    split <;> rfl
  rw [Ctx.goTo, hleave, hfold]

theorem Ctx.linked_gid (x : Ctx) (link : Option Nat) (g : Group) : (x.linked link g).gid = g.gid := by rw [x.linked_frame link g]

/-- A transfer: the lanes at their targets, with the link register written, or the misaligned-target trap. -/
theorem transfer_spec {i : Instr} {nms : List Named} {target : Ctx → Nat → Word} {link : Option Nat} (hind : ∀ o ∈ namedOps nms, o.isInd = false)
    {s : State} {x : Ctx} (hexec : exec i s = issue i noDyn (fun _ => nms) (fun x => x.transfer (target x) link) s) (hx : Runs i (fun _ => nms) s x) :
    ((∀ l ∈ x.lanes, (target x l).toNat % 8 = 0) → ∃ (t : State) (k : Group), exec i s = .next t ∧ t.onlyGroup s k.advance ∧ x.transferred (target x) k ∧
      ∀ n l, l < 64 → k.vget n l = if link = some n ∧ l ∈ x.lanes then BitVec.ofNat 32 (x.c.start + 8 * (x.c.header.toNat % 16 + 2)) else x.g.vget n l) ∧
    (∀ l ∈ x.lanes, (target x l).toNat % 8 ≠ 0 → (∀ k ∈ x.lanes, k < l → (target x k).toNat % 8 = 0) →
      exec i s = .next (x.raise ⟨1, 0, maskOf x.g.width (fun k => x.act.getLsbD k && (target x k).toNat % 8 != 0), (target x l).setWidth 64, 0, 0, 0⟩)) := by
  constructor
  · intro hgood
    have hbody : x.transfer (target x) link = x.okGroup fun g => x.goTo (x.linked link g) (target x) := by
      rw [Ctx.transfer, Ctx.badTarget_none hgood]
      rfl
    have hgid : ∀ k : Group, (x.goTo (x.linked link k) (target x)).gid = k.gid := fun k => by rw [Ctx.goTo_gid, Ctx.linked_gid]
    have hframe := x.linked_frame link x.g
    obtain ⟨v, hgo, hv⟩ := x.goTo_spec (fun _ => ctxOf_act hx.1) (g := x.linked link x.g) (by rw [hframe]) (by rw [hframe]; exact ctxOf_clause hx.1) (target x)
    refine ⟨_, x.goTo (x.linked link x.g) (target x), hexec.trans (issue_okGroup hx rfl hbody hgid), ?_, ⟨?_, ?_⟩, ?_⟩
    · have hone := State.modGroup_onlyGroup (s := s) (fun k => ((x.goTo (x.linked link k) (target x)).postStep x.act nms).advance) (ctxOf_group hx.1)
        fun k => by rw [Group.advance_gid, Group.postStep_gid, hgid]
      rwa [Group.postStep_of_no_ind hind] at hone
    · rw [hgo, hframe]
    · intro l _
      have hvpc : (x.linked link x.g).vpc = x.g.vpc := by rw [hframe]
      rw [hgo, ← hvpc]
      exact hv l
    · intro n l hl
      rw [hgo, ← Clause.nextStart, ← x.linked_vget link x.g hl n]
      rfl
  · intro l hl hbad hlow
    rw [hexec, issue, issueDyn_ready hx rfl, Ctx.transfer, Ctx.badTarget_some hl hbad hlow]

/-- Settles O29: each transfer is a change of its group, or the misaligned-target trap. -/
theorem transfers : Obligations.Transfers := by
  unfold Obligations.Transfers
  rintro i nms target link (⟨g, off, rfl, rfl, rfl, rfl⟩ | ⟨g, n, rfl, rfl, rfl, rfl⟩ | ⟨g, n, off, rfl, rfl, rfl, rfl⟩ | ⟨g, n, rfl, rfl, rfl, rfl⟩) s x hx
  · exact transfer_spec (link := none) (by simp [namedOps]) rfl hx
  · exact transfer_spec (link := none) (by simp [namedOps, Opnd.isInd]) rfl hx
  · exact transfer_spec (link := some n.toNat) (by simp [namedOps, Opnd.isInd]) rfl hx
  · exact transfer_spec (link := none) (by simp [namedOps, Opnd.isInd]) rfl hx

end Sys2Proof.Machine
end

section
/-! Illegal uses (R109, R131, R296, R303): the checks before an instruction's effect, and reserved guards. -/
namespace Sys2Proof.Machine

/-! ### Illegal uses of decoded instructions -/

/-- A meaning goes through the checks of R303 before its effect. -/
def checks (i : Instr) (F : State → Host.Outcome State Fault Refusal) : Prop := ∃ dyn nms body, ∀ s, F s = issueDyn i dyn nms body s

theorem checks_issueDyn (i dyn nms body) : checks i (fun s => issueDyn i dyn nms body s) := ⟨_, _, _, fun _ => rfl⟩
theorem checks_issue (i dyn3 nms body) : checks i (fun s => issue i dyn3 nms body s) := checks_issueDyn ..
theorem checks_intLanes (i d srcs f) : checks i (fun s => intLanes i d srcs f s) := checks_issue ..
theorem checks_fltLanes (i d srcs f) : checks i (fun s => fltLanes i d srcs f s) := checks_issue ..
theorem checks_specLanes (i d srcs f) : checks i (fun s => specLanes i d srcs f s) := checks_issue ..
theorem checks_evtOp (i k d a f) : checks i (fun s => evtOp i k d a f s) := checks_issue ..
theorem checks_sysOp (i dyn nms f) : checks i (fun s => sysOp i dyn nms f s) := checks_issueDyn ..
theorem checks_setvi (i sb sa f) : checks i (fun s => setvi i sb sa f s) := checks_sysOp ..

theorem checks_accrd (i form r) : checks i (fun s => accrd i form r s) := checks_issue ..
theorem checks_accwr (i int r) : checks i (fun s => accwr i int r s) := checks_issue ..

theorem checks_of_family_0 {i : Instr} (h : i.family = 0) : checks i (exec i) := by
  cases i
  all_goals cases h
  all_goals unfold exec; dsimp only
  case mov | lea | iadd64 | moviHi | moviSx | leaImm => exact checks_issue ..
  all_goals exact checks_intLanes ..

theorem checks_of_family_1 {i : Instr} (h : i.family = 1) : checks i (exec i) := by
  cases i
  all_goals cases h
  all_goals unfold exec; dsimp only
  all_goals exact checks_fltLanes ..

theorem checks_of_family_2 {i : Instr} (h : i.family = 2) : checks i (exec i) := by
  cases i
  all_goals cases h
  all_goals unfold exec; dsimp only
  case cvt | cvtq | cvtqAuto | cvtdq | bscale => exact checks_issue ..
  all_goals exact checks_specLanes ..

theorem checks_of_family_3 {i : Instr} (h : i.family = 3) : checks i (exec i) := by
  cases i
  all_goals cases h
  all_goals unfold exec; dsimp only
  case perm | rfal | voteBallot | redv | scanv | scanvExcl | idxset | rpt => exact checks_issue ..
  all_goals exact checks_intLanes ..

theorem checks_of_family_4 {i : Instr} (h : i.family = 4) : checks i (exec i) := by
  cases i
  all_goals cases h
  all_goals unfold exec; dsimp only
  all_goals exact checks_issue ..

theorem checks_of_family_5 {i : Instr} (h : i.family = 5) : checks i (exec i) := by
  cases i
  all_goals cases h
  all_goals unfold exec; dsimp only
  case wait => exact checks_issueDyn ..
  case evtAdd | evtSub | evtSet => exact checks_evtOp ..
  all_goals exact checks_issue ..

theorem checks_of_family_6 {i : Instr} (h : i.family = 6) : checks i (exec i) := by
  cases i
  all_goals cases h
  all_goals unfold exec; dsimp only
  case accrdF32 | accrdPair | accrdI32 => exact checks_accrd ..
  case accwrF32 | accwrI32 => exact checks_accwr ..
  all_goals exact checks_issue ..

theorem checks_of_family_7 {i : Instr} (h : i.family = 7) : checks i (exec i) := by
  cases i
  all_goals cases h
  all_goals unfold exec; dsimp only
  case elect => exact checks_intLanes ..
  case setseg | setrgn | tlbinvPage | tlbinvVi | tlbinvAll | icinvRange | icinvAll | setviState => exact checks_sysOp ..
  case setviHandler | setviSwap | setviPtroot | setviUint | setviKeys | setviKeybase => exact checks_setvi ..
  all_goals exact checks_issue ..

/-- Every instruction of a program goes through the checks. -/
theorem checks_of_guard {i : Instr} (h : i.isEvent = false) : checks i (exec i) := by
  have hfam : i.family < 8 := by
    cases i
    all_goals cases h
    all_goals exact Nat.le_of_ble_eq_true rfl
  interval_cases hk : i.family
  · exact checks_of_family_0 hk
  · exact checks_of_family_1 hk
  · exact checks_of_family_2 hk
  · exact checks_of_family_3 hk
  · exact checks_of_family_4 hk
  · exact checks_of_family_5 hk
  · exact checks_of_family_6 hk
  · exact checks_of_family_7 hk

/-- An illegal use traps, before anything is read or written, with a subcode that is the lowest of those that hold. -/
theorem illegal_of_checks {i : Instr} {s : State} {x : Ctx} (hi : i.isEvent = false) (hx : ctxOf s (i.guard.getD .always) = some x) {k : Nat}
    (h : ∀ dyn, ∃ sub ≤ k, illegalUse i dyn x = some sub) : ∃ sub ≤ k, exec i s = .next (x.raise (trapIllegal sub x.act)) := by
  obtain ⟨dyn, nms, body, hexec⟩ := checks_of_guard hi
  obtain ⟨sub, hle, hsub⟩ := h dyn
  refine ⟨sub, hle, ?_⟩
  rw [hexec, issueDyn, hx]
  dsimp only
  rw [hsub]

/-- The subcode is at most that of the clause's class or of privilege, where one of them forbids the instruction. -/
theorem illegalUse_le {i : Instr} {x : Ctx} {k : Nat} (dyn : Ctx → Option Nat)
    (h : (if !i.allowedIn (x.c.header.toNat / 16 % 8) then some 4 else if i.privileged && !x.g.privileged x.t then some 5 else none) = some k) :
    ∃ sub ≤ k, illegalUse i dyn x = some sub := by
  rw [illegalUse, h]
  generalize (if isService x.g.core && i.lacksService then some (min 3 ((dyn x).getD 3)) else dyn x) = own
  cases own with
  | none => exact ⟨k, le_refl k, rfl⟩
  | some a => exact ⟨min a k, Nat.min_le_right _ _, rfl⟩

theorem illegalUse_of_class {i : Instr} {x : Ctx} (dyn : Ctx → Option Nat) (h : i.allowedIn (x.c.header.toNat / 16 % 8) = false) :
    ∃ sub ≤ 4, illegalUse i dyn x = some sub := illegalUse_le dyn (by rw [h]; rfl)

theorem illegalUse_of_privileged {i : Instr} {x : Ctx} (dyn : Ctx → Option Nat) (hp : i.privileged = true) (hx : x.g.privileged x.t = false) :
    ∃ sub ≤ 5, illegalUse i dyn x = some sub := by
  cases hc : i.allowedIn (x.c.header.toNat / 16 % 8)
  · obtain ⟨sub, hle, hsub⟩ := illegalUse_of_class dyn hc
    exact ⟨sub, by omega, hsub⟩
  · exact illegalUse_le dyn (by rw [hc, hp, hx]; rfl)

theorem illegalUse_of_service {i : Instr} {x : Ctx} (dyn : Ctx → Option Nat) (hl : i.lacksService = true) (hc : 384 ≤ x.g.core) :
    ∃ sub ≤ 3, illegalUse i dyn x = some sub := by
  have hservice : (isService x.g.core && i.lacksService) = true := by rw [hl, isService, decide_eq_true hc]; rfl
  rw [illegalUse, hservice]
  rw [if_pos rfl]
  generalize (if !i.allowedIn (x.c.header.toNat / 16 % 8) then some 4 else if i.privileged && !x.g.privileged x.t then some 5 else none) = later
  cases later with
  | none => exact ⟨_, Nat.min_le_left 3 _, rfl⟩
  | some k => exact ⟨_, (Nat.min_le_left _ k).trans (Nat.min_le_left 3 _), rfl⟩

/-! ### Reserved guards -/

theorem rawMovi_guard (w : Nat) : (rawMovi w).i.guard = some (guardOf w) := by
  unfold rawMovi
  dsimp only
  repeat' split
  all_goals rfl

theorem rawPref_guard (w : Nat) : (rawPref w).i.guard = some (guardOf w) := by
  unfold rawPref
  repeat' split
  all_goals rfl

theorem rawF0_guard {op w : Nat} {r : Raw} (hr : rawF0 op w = some r) : r.i.guard = some (guardOf w) := by
  unfold rawF0 at hr
  split at hr
  all_goals cases hr
  case h_43 => exact rawMovi_guard w
  all_goals rfl

theorem rawF1_guard {op w : Nat} {r : Raw} (hr : rawF1 op w = some r) : r.i.guard = some (guardOf w) := by
  unfold rawF1 at hr
  repeat' split at hr
  all_goals cases hr
  all_goals rfl

theorem rawF2_guard {op w : Nat} {r : Raw} (hr : rawF2 op w = some r) : r.i.guard = some (guardOf w) := by
  unfold rawF2 at hr
  repeat' split at hr
  all_goals cases hr
  all_goals rfl

theorem rawF3_guard {op w : Nat} {r : Raw} (hr : rawF3 op w = some r) : r.i.guard = some (guardOf w) := by
  unfold rawF3 at hr
  repeat' split at hr
  all_goals cases hr
  all_goals rfl

theorem rawLd_guard (w : Nat) (sz : Size) (sx : Bool) : (rawLd w sz sx).i.guard = some (guardOf w) := by
  unfold rawLd
  split <;> rfl

theorem rawSt_guard (w : Nat) (sz : Size) : (rawSt w sz).i.guard = some (guardOf w) := by
  unfold rawSt
  split <;> rfl

theorem rawF4_guard {op w : Nat} {r : Raw} (hr : rawF4 op w = some r) : r.i.guard = some (guardOf w) := by
  unfold rawF4 at hr
  split at hr
  all_goals cases hr
  case h_13 => exact rawPref_guard w
  case h_14 | h_15 => rfl
  case h_8 | h_9 | h_10 | h_11 | h_12 => exact rawSt_guard ..
  all_goals exact rawLd_guard ..

theorem rawF5_guard {op w : Nat} {r : Raw} (hr : rawF5 op w = some r) : r.i.guard = some (guardOf w) := by
  unfold rawF5 at hr
  repeat' split at hr
  all_goals cases hr
  all_goals rfl

theorem rawF6_guard {op w : Nat} {r : Raw} (hr : rawF6 op w = some r) : r.i.guard = some (guardOf w) := by
  unfold rawF6 at hr
  split at hr
  all_goals cases hr
  all_goals rfl

theorem rawF7_guard {op w : Nat} {r : Raw} (hr : rawF7 op w = some r) : r.i.guard = some (guardOf w) := by
  unfold rawF7 at hr
  repeat' split at hr
  all_goals cases hr
  all_goals rfl

/-- A word's instruction has the word's guard. -/
theorem rawOf_guard {w : Nat} {r : Raw} (hr : rawOf w = some r) : r.i.guard = some (guardOf w) := by
  unfold rawOf at hr
  dsimp only at hr
  split at hr
  · exact rawF0_guard hr
  · exact rawF1_guard hr
  · exact rawF2_guard hr
  · exact rawF3_guard hr
  · exact rawF4_guard hr
  · exact rawF5_guard hr
  · exact rawF6_guard hr
  · exact rawF7_guard hr

/-- A reserved guard is an illegal use of subcode 1 in a word whose opcode is assigned (R109). -/
theorem decodeWord_reserved_guard {w : Nat} (hr : rawOf w ≠ none) (hg : (guardOf w).reserved = true) : decodeWord w = .error 1 := by
  obtain ⟨r, hr⟩ := Option.ne_none_iff_exists'.mp hr
  have hres : r.i.reserved = true := by
    rw [Instr.reserved, rawOf_guard hr]
    dsimp only
    rw [hg, Bool.true_or, Bool.true_or]
  rw [decodeWord, hr]
  dsimp only
  rw [Raw.result, hres, Bool.or_true, if_pos rfl]

theorem guardOf_reserved {w : Nat} (h : 24 ≤ w / 2 ^ 9 % 32 ∧ w / 2 ^ 9 % 32 ≤ 30 ∨ w / 2 ^ 9 % 32 = 31 ∧ w / 2 ^ 14 % 2 = 1) :
    (guardOf w).reserved = true := by
  have hlt : w / 2 ^ 9 % 32 < 32 := Nat.mod_lt _ (by decide)
  have hpred : (guardOf w).pred.toNat = w / 2 ^ 9 % 32 := by
    rw [guardOf, BitVec.toNat_ofNat, fld]
    omega
  have hne : ∀ p : BitVec 5, p.toNat ≤ 30 → (p != 31) = true := by decide
  have heq : ∀ p : BitVec 5, p.toNat = 31 → p = 31 := by decide
  rw [Guard.reserved]
  rcases h with ⟨h1, h2⟩ | ⟨h1, h2⟩
  · rw [hpred, decide_eq_true h1, hne _ (by omega)]
    rfl
  · have hneg : (guardOf w).neg = true := beq_iff_eq.mpr h2
    have h31 : (guardOf w).pred = 31 := heq _ (hpred.trans h1)
    rw [h31, hneg]
    rfl

theorem waitBad_le (x : Ctx) (n : Nat) (a c : Opnd) {k : Nat} (h : x.waitBad n a c = some k) : 1 ≤ k := by
  rw [Ctx.waitBad] at h
  split at h
  · cases h
  · split at h
    · cases h; decide
    · split at h
      · cases h; decide
      · cases h

/-- No subcode below 1 comes from a WAIT's operand values. -/
theorem staticSub_one (w : Nat) (x : Ctx) : staticSub w 1 x = 1 := by
  refine le_antisymm (staticSub_le w 1 x) ?_
  unfold staticSub
  split
  · split
    · next all count n b c _ =>
      refine le_min le_rfl ?_
      cases hw : x.waitBad (BitVec.toNat _ + 1) (.s n) c with
      | none => exact le_rfl
      | some k => exact waitBad_le x _ _ _ hw
    · exact le_rfl
  · exact le_rfl

/-- Settles O37: the checks of R303 before every effect, and reserved guards. -/
theorem illegalUses : Obligations.IllegalUses := by
  unfold Obligations.IllegalUses
  refine ⟨fun i s x hi hx => ⟨fun hc => ?_, fun hp hg => ?_, fun hl hc => ?_⟩, fun w hr hg => ?_⟩
  · exact illegal_of_checks hi hx fun dyn => illegalUse_of_class dyn hc
  · exact illegal_of_checks hi hx fun dyn => illegalUse_of_privileged dyn hp hg
  · exact illegal_of_checks hi hx fun dyn => illegalUse_of_service dyn hl hc
  · have herror := decodeWord_reserved_guard hr (guardOf_reserved hg)
    refine ⟨herror, fun s g c x hin hrun hc hb hp hw h0 hx => ?_⟩
    have hnow := Group.wordNow_zero h0 w
    rw [step_runs hin hrun hc hb hp, issueWord_error hw (by rw [hnow]; exact herror), hnow, wordTrap_eq _ hx, staticSub_one]

end Sys2Proof.Machine
end

section
/-! Lanes that leave their clause (R35, R41, R201): effects that keep the index registers but for their steps, and WAIT. -/
namespace Sys2Proof.Machine

/-! ### Effects that keep the index registers -/

/-- The index registers of a group that an effect has changed elsewhere are stepped, and it goes on with its clause. -/
theorem Ctx.finish_frame (x : Ctx) (nms : List Named) {g : Group} (hc : g.clean = true) (hw : g.width = x.g.width) (hx : g.x = x.g.x) :
    x.stepped (namedOps nms) ((g.postStep x.act nms).advance) ∧ ∃ y, (g.postStep x.act nms).advance = g.advance.withIndex y := by
  let y : Ctx := { x with g := g }
  have hlanes : y.lanes = x.lanes := by rw [Ctx.lanes, Ctx.lanes, hw]
  constructor
  · intro k l hl
    obtain ⟨h, -⟩ := y.finish_spec nms 0 hc (Group.regsOf_refl g)
    have hlook : g.look (.x k l) = x.g.look (.x k l) := by rw [Group.look, Group.look, Group.xget, Group.xget, hx]
    have := h (.x k l) hl
    rw [Group.raiseFlags_zero] at this
    rw [this, hlook, Ctx.afterSteps, Ctx.afterSteps, hlanes]
  · obtain ⟨z, hz⟩ := Group.postStep_withIndex hc x.act nms
    exact ⟨z, by rw [hz, Group.advance_withIndex]⟩

/-- A change of the group that keeps its index registers, its width, its identity and that it holds no poison. -/
structure Ctx.keepsIndex (x : Ctx) (F : Group → Group) : Prop where
  gid : ∀ k : Group, (F k).gid = k.gid
  index : (F x.g).x = x.g.x
  width : (F x.g).width = x.g.width
  clean : x.g.clean = true → (F x.g).clean = true

/-- An instruction whose effect is such a change. -/
theorem goesTo_of_okGroup {i : Instr} {dyn : Ctx → Option Nat} {nms : Ctx → List Named} {body : Ctx → Res} {ok : Ctx → Prop} {F : Ctx → Group → Group}
    (hexec : ∀ s, exec i s = issueDyn i dyn nms body s) (hd : ∀ x, ok x → dyn x = none) (hb : ∀ s x, Runs i nms s x → ok x → body x = x.okGroup (F x))
    (hF : ∀ x : Ctx, x.keepsIndex (F x)) : GoesTo i nms ok fun x => (F x x.g).advance := by
  intro s x hx hok
  obtain ⟨hgid, hindex, hwidth, hclean⟩ := hF x
  obtain ⟨hstep, y, hy⟩ := x.finish_frame (nms x) (hclean hx.clean) hwidth hindex
  refine ⟨_, ((F x x.g).postStep x.act (nms x)).advance, by rw [hexec, issue_okGroup hx (hd x hok) (hb s x hx hok) hgid],
    State.modGroup_onlyGroup (fun g => ((F x g).postStep x.act (nms x)).advance) (ctxOf_group hx.1) (fun k => by rw [Group.advance_gid, Group.postStep_gid, hgid]), hstep, ?_⟩
  rw [hy]
  rfl

/-- An instruction whose effect is such a change and a result that is outstanding. -/
theorem goesToWith_of_okGroup {i : Instr} {dyn : Ctx → Option Nat} {nms : Ctx → List Named} {body : Ctx → Res} {ok : Ctx → Prop} {F : Ctx → Group → Group}
    {names : Ctx → List RegName} {busy : Bool} {writes : Ctx → List RegWrite}
    (hexec : ∀ s, exec i s = issueDyn i dyn nms body s) (hd : ∀ x, ok x → dyn x = none)
    (hb : ∀ s x, Runs i nms s x → ok x → body x = .ok { x.s.modGroup x.g.gid (fun g => { F x g with outs := (F x g).outs ++ [⟨x.s.nextId, names x, busy, writes x, 0, .ready⟩] }) with
      nextId := x.s.nextId + 1 })
    (hF : ∀ x : Ctx, x.keepsIndex (F x)) : GoesToWith i nms ok (fun x => (F x x.g).advance) names busy writes := by
  intro s x hx hok
  have hs := ctxOf_state hx.1
  let P : Group → Group := fun g => { F x g with outs := (F x g).outs ++ [⟨s.nextId, names x, busy, writes x, 0, .ready⟩] }
  let Q : Group → Group := fun g => ((P g).postStep x.act (nms x)).advance
  obtain ⟨hgid, hindex, hwidth, hclean⟩ := hF x
  have hgidQ : ∀ k, (Q k).gid = k.gid := fun k => by rw [Group.advance_gid, Group.postStep_gid]; exact hgid k
  obtain ⟨hstep, y, hy⟩ := x.finish_frame (nms x) (g := P x.g) (hclean hx.clean) hwidth hindex
  have hbody := hb s x hx hok
  rw [hs] at hbody
  refine ⟨_, Q x.g, by rw [hexec, issueDyn_ready hx (hd x hok), hbody], ?_, hstep, ?_⟩
  · have hstate : ({ s.modGroup x.g.gid P with nextId := s.nextId + 1 } : State).modGroup x.g.gid (fun g => (g.postStep x.act (nms x)).advance) =
        { s.modGroup x.g.gid Q with nextId := s.nextId + 1 } :=
      congrArg (fun t : State => { t with nextId := s.nextId + 1 }) (State.modGroup_modGroup s x.g.gid P _ fun k hk => (hgid k).trans hk)
    dsimp only
    rw [hstate]
    exact State.onlyGroup_nextId _ (State.modGroup_onlyGroup Q (ctxOf_group hx.1) hgidQ)
  · have hpending := Group.advance_withPending (F x x.g) (P x.g).outs (F x x.g).gsrE
    obtain ⟨-, hgsr, houts⟩ := (F x x.g).advance_keeps
    have hP : P x.g = (F x x.g).withPending (P x.g).outs (F x x.g).gsrE := rfl
    rw [show Q x.g = _ from hy, hP, hpending, houts]
    rw [Group.withPending, Group.withIndex, ← hgsr]

/-! ### Lanes that leave for the clause after theirs -/

theorem Ctx.leaveNext_keeps (x : Ctx) : x.keepsIndex x.leaveNext where
  gid k := by
    rw [Ctx.leaveNext, Group.leave]
    split <;> rfl
  index := by
    rw [Ctx.leaveNext, Group.leave]
    split <;> rfl
  width := by
    rw [Ctx.leaveNext, Group.leave]
    split <;> rfl
  clean h := by
    rw [Ctx.leaveNext, Group.leave]
    split <;> exact h

/-- A status written in the lanes that leave. -/
theorem leavesWith_of_status {i : Instr} {dyn : Ctx → Option Nat} {nms : Ctx → List Named} {body : Ctx → Res} {ok : Ctx → Prop} {d : Opnd} {status : Nat}
    (hexec : ∀ s, exec i s = issueDyn i dyn nms body s) (hd : ∀ x, ok x → dyn x = none)
    (hb : ∀ x, ok x → body x = .ok (x.statusNow (x.s.modGroup x.g.gid x.leaveNext) d status)) : LeavesWith i nms ok d status := by
  have hwrites : ∀ x : Ctx, (x.lanes.flatMap fun l => x.laneWrites d l status) = x.lanes.flatMap fun l => x.landing d l (BitVec.ofNat 32 status) := fun x => by
    simp only [x.laneWrites_eq]
  have hstatus : ∀ x : Ctx, x.statusNow (x.s.modGroup x.g.gid x.leaveNext) d status =
      if x.outNames d 1 = [] ∧ (x.lanes.flatMap fun l => x.landing d l (BitVec.ofNat 32 status)) = [] then x.s.modGroup x.g.gid x.leaveNext
      else { x.s.modGroup x.g.gid (fun g => { x.leaveNext g with outs := (x.leaveNext g).outs ++ [⟨x.s.nextId, x.outNames d 1, d.isInd,
        x.lanes.flatMap fun l => x.landing d l (BitVec.ofNat 32 status), 0, .ready⟩] }) with nextId := x.s.nextId + 1 } := fun x => by
    rw [Ctx.statusNow, hwrites, Ctx.outstanding]
    refine ite_congr (by simp) (fun _ => rfl) fun _ => ?_
    exact congrArg (fun t : State => { t with nextId := x.s.nextId + 1 }) (State.modGroup_modGroup x.s x.g.gid x.leaveNext _ fun k hk => (x.leaveNext_keeps.gid k).trans hk)
  refine ⟨goesToWith_of_okGroup (F := Ctx.leaveNext) hexec (fun x h => hd x h.1) (fun s x _ h => ?_) Ctx.leaveNext_keeps,
    goesTo_of_okGroup (F := Ctx.leaveNext) hexec (fun x h => hd x h.1) (fun s x _ h => ?_) Ctx.leaveNext_keeps⟩
  · rw [hb x h.1, hstatus, if_neg h.2]
  · rw [hb x h.1, hstatus, if_pos h.2]
    rfl

/-! ### WAIT -/

theorem withOlder_nil {α : Type} {before : α → α → Bool} {t : α → Bool} {l : List α} (h : ∀ a ∈ l, t a = false) : withOlder before t l = [] := by
  rw [withOlder]
  induction l with
  | nil => rfl
  | cons a r ih =>
    obtain ⟨ha, hr⟩ := List.forall_mem_cons.mp h
    rw [List.foldr_cons, ih hr, ha]
    rfl

theorem State.performReds_none {s : State} {t : PostedRed → Bool} (h : ∀ r ∈ s.mem.reds, t r = false) : s.performReds t = s := by
  simp [State.performReds, withOlder_nil h]

/-- Nothing of a group is on its way: its reads settle nothing. -/
theorem Ctx.settle_none (x : Ctx) {s : State} (hr : ∀ q ∈ s.mem.reds, q.gid ≠ x.g.gid) (hp : ∀ q ∈ s.mem.posted, q.gid ≠ x.g.gid) (ls : List Located) :
    x.settle s ls = s := by
  have hone : ∀ p : Nat × Nat × Trans, x.settlePart s p = s := fun p => by
    have hposted : s.mem.posted.filter (fun q => q.gid == x.g.gid && overlap q.va q.bytes.length p.1 p.2.1) = [] :=
      List.filter_eq_nil_iff.mpr fun q hq => by simp [hp q hq]
    rw [Ctx.settlePart]
    split
    · rw [State.deliverWhere, hposted, List.foldl_nil]
    · split
      · rfl
      · exact State.performReds_none fun r hq => by simp [hr r hq]
  rw [Ctx.settle]
  induction ls.flatMap fun k => k.parts with
  | nil => rfl
  | cons p t ih => rw [List.foldl_cons, hone, ih]

/-- The join counter that a WAIT reads, and the state after what the read settles. -/
def Ctx.joinRead (x : Ctx) (c : Opnd) : Except Trap (Option Nat × State) :=
  if c.isZero then .ok (none, x.s)
  else match x.locate 0 4 .read false [⟨(x.lanes).getD 0 0, x.act, x.src64 c 0⟩] with
    | .error tr => .error tr
    | .ok ls => match memPoison x.s x.agent x.t.vi ls with
      | some tr => .error tr
      | none => .ok ((ls.head?).map (fun k => k.va), x.settle x.s ls)

theorem Ctx.joinRead_of_joinAt {x : Ctx} {c : Opnd} {jv : Option Nat} (h : x.joinAt c jv) : x.joinRead c = .ok (jv, x.s) ∧ (!c.isZero && x.orderWaits true) = false := by
  rcases h with ⟨hz, rfl⟩ | ⟨hz, k, hloc, hpoison, rfl, horder, hreds, hposted⟩
  · rw [Ctx.joinRead, hz]
    exact ⟨rfl, rfl⟩
  · rw [Ctx.joinRead, hz, x.src64_eq, hloc]
    dsimp only
    rw [hpoison, x.settle_none hreds hposted, horder]
    exact ⟨rfl, rfl⟩

/-- The conditions of a WAIT that count. -/
def Ctx.waitConds (x : Ctx) (n : Nat) (a : Opnd) : List (BitVec 16) := (condsOf (x.g.word64 a 0).toNat).take n

/-- The lanes that a WAIT parks, in the group after they have left the clause. -/
def Ctx.parkWait (x : Ctx) (all : Bool) (n : Nat) (d a b : Opnd) (jv : Option Nat) (g : Group) : Group :=
  { x.leaveNext g with parks := g.parks ++ x.lanes.map fun l =>
      ⟨l, x.waitConds n a, all, jv, if x.g.word b 0 = 0xFFFFFFFF then none else some (x.s.tick.toNat + (x.g.word b 0).toNat), x.statusDst d l, false, false, false,
        x.outNames d 1, d.isInd⟩ }

theorem Ctx.parkWait_keeps (x : Ctx) (all : Bool) (n : Nat) (d a b : Opnd) (jv : Option Nat) : x.keepsIndex (x.parkWait all n d a b jv) :=
  ⟨x.leaveNext_keeps.gid, x.leaveNext_keeps.index, x.leaveNext_keeps.width, x.leaveNext_keeps.clean⟩

theorem Ctx.leaveNext_parks (x : Ctx) (g : Group) : (x.leaveNext g).parks = g.parks := by
  rw [Ctx.leaveNext, Group.leave]
  split <;> rfl

/-- Does a WAIT's combination hold? -/
def Ctx.waitHolds (x : Ctx) (all : Bool) (n : Nat) (a : Opnd) (jv : Option Nat) : Bool :=
  if all then (x.waitConds n a).all (condHolds x.s x.g x.t jv) else (x.waitConds n a).any (condHolds x.s x.g x.t jv)

theorem Ctx.waitHolds_iff (x : Ctx) (all : Bool) (n : Nat) (a : Opnd) (jv : Option Nat) :
    x.waitHolds all n a jv = true ↔ x.combined all (x.waitConds n a) jv := by
  rw [Ctx.waitHolds, Ctx.combined]
  cases all
  · simp [List.any_eq_true]
  · simp [List.all_eq_true]

/-- WAIT's effect where its checks pass. -/
theorem Ctx.wait_eq {x : Ctx} {all : Bool} {n : Nat} {d a b c : Opnd} {jv : Option Nat} (hany : x.any = true) (hseg : x.waitSeg (x.waitConds n a) c = none)
    (hj : x.joinAt c jv) : x.wait all n d a b c =
      if x.waitHolds all n a jv then .ok (x.statusNow (x.s.modGroup x.g.gid x.leaveNext) d 0)
      else if x.g.word b 0 = 0 then .ok (x.statusNow (x.s.modGroup x.g.gid x.leaveNext) d 1)
      else x.okGroup (x.parkWait all n d a b jv) := by
  obtain ⟨hjoin, horder⟩ := Ctx.joinRead_of_joinAt hj
  have hparks : ∀ due : Option Nat, (x.s.modGroup x.g.gid x.leaveNext).modGroup x.g.gid (fun g => { g with parks := g.parks ++ x.lanes.map fun l =>
        (⟨l, x.waitConds n a, all, jv, due, x.statusDst d l, false, false, false, x.outNames d 1, d.isInd⟩ : Park) }) =
      x.s.modGroup x.g.gid fun g => { x.leaveNext g with parks := g.parks ++ x.lanes.map fun l =>
        (⟨l, x.waitConds n a, all, jv, due, x.statusDst d l, false, false, false, x.outNames d 1, d.isInd⟩ : Park) } := fun due => by
    rw [State.modGroup_modGroup _ _ _ _ fun k hk => (x.leaveNext_keeps.gid k).trans hk]
    simp only [Ctx.leaveNext_parks]
  have hzero : (x.g.word b 0).toNat = 0 ↔ x.g.word b 0 = 0 := by bv_omega
  have hones : (x.g.word b 0).toNat = 2 ^ 32 - 1 ↔ x.g.word b 0 = 0xFFFFFFFF := by bv_omega
  have hunfold : x.wait all n d a b c = if !x.any then .ok x.s else match x.waitSeg (x.waitConds n a) c with
      | some tr => .trap tr
      | none => if !c.isZero && x.orderWaits true then x.again else match x.joinRead c with
        | .error tr => .trap tr
        | .ok (jv, s0) =>
          if (if all then (x.waitConds n a).all (condHolds s0 x.g x.t jv) else (x.waitConds n a).any (condHolds s0 x.g x.t jv)) then
            .ok (x.statusNow (s0.modGroup x.g.gid x.leaveNext) d 0)
          else if (x.g.word b 0).toNat = 0 then .ok (x.statusNow (s0.modGroup x.g.gid x.leaveNext) d 1)
          else .ok ((s0.modGroup x.g.gid x.leaveNext).modGroup x.g.gid fun g => { g with parks := g.parks ++ x.lanes.map fun l =>
            (⟨l, x.waitConds n a, all, jv, if (x.g.word b 0).toNat = 2 ^ 32 - 1 then none else some (x.s.tick.toNat + (x.g.word b 0).toNat), x.statusDst d l,
              false, false, false, x.outNames d 1, d.isInd⟩ : Park) }) := by
    rw [Ctx.waitConds, ← x.src64_eq, ← x.src_eq]
    rfl
  rw [hunfold, hany, hseg, horder, hjoin]
  simp only [Bool.not_true, Bool.false_eq_true, if_false, hparks, hzero, hones]
  rfl

/-- Settles O25: the lanes leave with a status, or park. -/
theorem waits : Obligations.Waits := by
  unfold Obligations.Waits
  intro g all n d a b c jv
  have hexec : ∀ s, exec (.wait g all n d a b c) s = issueDyn (.wait g all n d a b c) (fun x => x.waitBad (n.toNat + 1) a c) (fun _ => namesA d [a, b, c])
    (fun x => x.wait all (n.toNat + 1) d a b c) s := fun _ => rfl
  refine ⟨leavesWith_of_status hexec ?_ ?_, leavesWith_of_status hexec ?_ ?_, goesTo_of_okGroup (F := fun x => x.parkWait all (n.toNat + 1) d a b jv) hexec ?_ ?_ ?_⟩
  · rintro x ⟨⟨-, hbad, -, -⟩, -⟩
    exact hbad
  · rintro x ⟨⟨hany, -, hseg, hj⟩, hc⟩
    rw [Ctx.wait_eq hany hseg hj, if_pos ((x.waitHolds_iff ..).mpr hc)]
  · rintro x ⟨⟨-, hbad, -, -⟩, -⟩
    exact hbad
  · rintro x ⟨⟨hany, -, hseg, hj⟩, hc, h0⟩
    rw [Ctx.wait_eq hany hseg hj, if_neg fun h => hc ((x.waitHolds_iff ..).mp h), if_pos h0]
  · rintro x ⟨⟨-, hbad, -, -⟩, -⟩
    exact hbad
  · rintro s x - ⟨⟨hany, -, hseg, hj⟩, hc, h0⟩
    rw [Ctx.wait_eq hany hseg hj, if_neg fun h => hc ((x.waitHolds_iff ..).mp h), if_neg h0]
  · exact fun x => x.parkWait_keeps ..

end Sys2Proof.Machine
end

section
/-! Fills of stash lines (R186, R187). -/
namespace Sys2Proof.Machine

/-! ### Lines -/

/-- A line that is still listed after a change of it. -/
theorem Mem.line?_setLine_same (m : Mem) {l : Line} (hl : l.mapped.isSome = true) : (m.setLine l).line? l.core l.line = some l := by
  have hnone : l.mapped.isNone = false := by rw [← Option.not_isSome, hl]; rfl
  have hrest : (m.lines.filter (fun x => !(x.core == l.core && x.line == l.line))).find? (fun x => x.core == l.core && x.line == l.line) = none := by
    rw [List.find?_eq_none]
    intro x hx
    have := (List.mem_filter.mp hx).2
    rw [Bool.not_eq_true'] at this
    rw [this]
    decide
  simp only [Mem.line?, Mem.setLine, hnone, Bool.false_and, Bool.false_eq_true, if_false, List.find?_append, hrest]
  simp

theorem Mem.line?_setLine_ne (m : Mem) (l : Line) {c n : Nat} (h : c ≠ l.core ∨ n ≠ l.line) : (m.setLine l).line? c n = m.line? c n := by
  have hl : (l.core == c && l.line == n) = false := by
    rw [Bool.and_eq_false_iff, beq_eq_false_iff_ne, beq_eq_false_iff_ne]
    exact h.imp Ne.symm Ne.symm
  have hrest : (m.lines.filter (fun x => !(x.core == l.core && x.line == l.line))).find? (fun x => x.core == c && x.line == n) =
      m.lines.find? (fun x => x.core == c && x.line == n) := by
    rw [List.find?_filter]
    refine congrArg (List.find? · m.lines) (funext fun x => ?_)
    cases hx : x.core == c && x.line == n
    · simp
    · simp only [Bool.and_eq_true, beq_iff_eq] at hx
      have hne : (c == l.core && n == l.line) = false := by
        rw [Bool.and_eq_false_iff, beq_eq_false_iff_ne, beq_eq_false_iff_ne]
        exact h
      rw [hx.1, hx.2, hne]
      rfl
  simp only [Mem.line?, Mem.setLine]
  split
  · exact hrest
  · rw [List.find?_append, hrest]
    simp [hl]

theorem Mem.present_of_line? {m : Mem} {core line : Nat} {l : Line} (h : m.line? core line = some l) : m.present core line = l.present := by
  rw [Mem.present, h]

/-! ### Nothing is deferred -/

/-- With nothing deferred on a core nothing is applied, and no fill starts. -/
theorem State.drainStash_none {s : State} {core : Nat} (h : s.deferred core = []) : s.drainStash core = s := by
  simp only [State.drainStash, h, List.foldl_nil, State.fillWaited, List.flatMap_nil]

theorem State.fillWaited_none {s : State} {core : Nat} (h : s.deferred core = []) : s.fillWaited core = s := by
  simp only [State.fillWaited, h, List.flatMap_nil, List.foldl_nil]

/-- What is deferred depends on the groups and on the accesses held. -/
theorem State.deferred_congr {s t : State} (hg : t.groups = s.groups) (hh : t.mem.held = s.mem.held) (core : Nat) : t.deferred core = s.deferred core := by
  rw [State.deferred, State.deferred, hg, hh]

/-! ### A fill that completes -/

/-- The line of a fill that has completed. -/
def Line.filled (l : Line) (t : Trans) : Line := { l with present := true, filling := false, unfinished := 0, whole := false, pa := t.pa, repl := t.repl }

/-- Memory after a fill. -/
def State.fillMem (s : State) (core line va : Nat) (l : Line) (t : Trans) : Mem :=
  ({ s with mem := (s.mem.setLine (l.filled t)).putStash core (128 * line) (s.mem.read t.pa 128) }.noteTlb core l.vi va t).mem

theorem State.noteTlb_frame (s : State) (core vi va : Nat) (t : Trans) :
    s.noteTlb core vi va t = { s with mem := (s.noteTlb core vi va t).mem } ∧
    (s.noteTlb core vi va t).mem = { s.mem with tlb := (s.noteTlb core vi va t).mem.tlb, homeVa := (s.noteTlb core vi va t).mem.homeVa } := by
  rw [State.noteTlb, State.noteHome]
  split <;> exact ⟨rfl, rfl⟩

theorem Trans.home_iff (t : Trans) : t.home = true ↔ t.remote = false ∧ t.repl = false ∧ t.lost = false := by
  simp [Trans.home, and_assoc]

/-- A fill of a line that no command writes, out of memory of this package. -/
theorem State.stashFill_of_source {s : State} {core line va : Nat} {l : Line} {t : Trans} (hl : s.mem.line? core line = some l)
    (hf : l.filling = true) (hm : l.mapped = some va) (hw : l.writers = []) (hsource : s.fillSource l va = .ok (t.pa, t)) (ht : t.home = true)
    (hsettle : s.settleLine core line t.pa = s) :
    s.stashFill core line =
      (({ s with mem := (s.mem.setLine (l.filled t)).putStash core (128 * line) (s.mem.read t.pa 128) }.noteTlb core l.vi va t).lineBack core line).drainStash core := by
  obtain ⟨hremote, hrepl, -⟩ := t.home_iff.mp ht
  rw [State.stashFill, hl, Line.filled]
  dsimp only
  rw [hf, hm]
  dsimp only
  rw [hsource]
  dsimp only
  rw [hw, hremote, hrepl]
  simp only [List.isEmpty_nil, Bool.not_true, Bool.false_eq_true, if_false, hsettle]

/-- The state after a fill of a line that nothing waits for. -/
theorem State.stashFill_eq {s : State} {core line va va0 : Nat} {l : Line} {t : Trans} (hl : s.mem.line? core line = some l) (hf : l.filling = true)
    (hm : l.mapped = some va) (hw : l.writers = []) (hr : s.reach core l.vi .read false va 128 = .ok [(va0, 128, t)]) (ht : t.home = true)
    (hd : s.deferred core = []) (hp : s.lensPending core line = false) (hcore : l.core = core) :
    s.stashFill core line =
      { s with mem := s.fillMem core line va l t, cmds := s.cmds.map fun c => { c with cleared := c.cleared.filter fun e => e != (core, line) } } := by
  obtain ⟨hremote, hrepl, -⟩ := t.home_iff.mp ht
  have hsource : s.fillSource l va = .ok (t.pa, t) := by
    rw [State.fillSource, hcore, hr]
    simp [Trans.from', hremote, hrepl]
  have hsettle : s.settleLine core line t.pa = s := by
    rw [State.settleLine, hp]
    rfl
  have htlb := State.noteTlb_frame { s with mem := (s.mem.setLine (l.filled t)).putStash core (128 * line) (s.mem.read t.pa 128) } core l.vi va t
  have hgoal : ({ s with mem := (s.mem.setLine (l.filled t)).putStash core (128 * line) (s.mem.read t.pa 128) }.noteTlb core l.vi va t).lineBack core line =
      { s with mem := s.fillMem core line va l t, cmds := s.cmds.map fun c => { c with cleared := c.cleared.filter fun e => e != (core, line) } } := by
    rw [State.lineBack, State.fillMem]
    generalize ({ s with mem := (s.mem.setLine (l.filled t)).putStash core (128 * line) (s.mem.read t.pa 128) } : State).noteTlb core l.vi va t = u at htlb ⊢
    rw [htlb.1]
  have hheld : (s.fillMem core line va l t).held = s.mem.held := by
    rw [State.fillMem, htlb.2]
    rfl
  have hnone : ∀ u : State, u.groups = s.groups → u.mem = s.fillMem core line va l t → u.deferred core = [] := fun u hg hu =>
    (State.deferred_congr hg (by rw [hu, hheld]) core).trans hd
  rw [State.stashFill_of_source hl hf hm hw hsource ht hsettle, hgoal]
  exact State.drainStash_none (hnone _ rfl rfl)

/-- Memory after a fill: the line's bytes, its presence, and nothing else. -/
theorem State.fillMem_spec (s : State) (core line va : Nat) {l : Line} (t : Trans) (hm : l.mapped = some va) (hcore : l.core = core) (hline : l.line = line) :
    (s.fillMem core line va l t).present core line = true ∧
    (∀ j < 128, (s.fillMem core line va l t).stash.get (stashKey core (128 * line) + j) = s.mem.byte (t.pa + j)) ∧
    (∀ k, k < stashKey core (128 * line) ∨ stashKey core (128 * line) + 128 ≤ k → (s.fillMem core line va l t).stash.get k = s.mem.stash.get k) ∧
    (∀ c n, c ≠ core ∨ n ≠ line → (s.fillMem core line va l t).line? c n = s.mem.line? c n) ∧
    (s.fillMem core line va l t).bytes = s.mem.bytes ∧ (s.fillMem core line va l t).regs = s.mem.regs := by
  obtain ⟨-, hmem⟩ := State.noteTlb_frame { s with mem := (s.mem.setLine (l.filled t)).putStash core (128 * line) (s.mem.read t.pa 128) } core l.vi va t
  rw [← State.fillMem] at hmem
  have hlen : (s.mem.read t.pa 128).length = 128 := by simp [Mem.read]
  have hlines : ∀ c n, (s.fillMem core line va l t).line? c n = (s.mem.setLine (l.filled t)).line? c n := fun c n => by rw [hmem]; rfl
  have hstash : (s.fillMem core line va l t).stash = s.mem.stash.write (stashKey core (128 * line)) (s.mem.read t.pa 128) := by rw [hmem]; rfl
  refine ⟨?_, fun j hj => ?_, fun k hk => ?_, fun c n h => ?_, by rw [hmem]; rfl, by rw [hmem]; rfl⟩
  · have hsame := Mem.line?_setLine_same s.mem (l := l.filled t) (by rw [Line.filled, hm]; rfl)
    rw [show (l.filled t).core = core from hcore, show (l.filled t).line = line from hline, ← hlines] at hsame
    rw [Mem.present_of_line? hsame]
    rfl
  · rw [hstash, Store.get_write_in _ _ _ (by rw [hlen]; exact hj)]
    simp [Mem.read]
  · rw [hstash, Store.get_write_out _ _ _ (by rw [hlen]; exact hk)]
  · rw [hlines]
    exact Mem.line?_setLine_ne _ _ (by rwa [show (l.filled t).core = core from hcore, show (l.filled t).line = line from hline])

/-! ### A fill that fails -/

/-- A fold whose steps change neither the groups nor memory. -/
theorem foldl_keeps_groups_mem {α : Type} {f : State → α → State} {l : List α} {s : State}
    (h : ∀ u : State, ∀ a ∈ l, u.groups = s.groups → u.mem = s.mem → (f u a).groups = s.groups ∧ (f u a).mem = s.mem) :
    (l.foldl f s).groups = s.groups ∧ (l.foldl f s).mem = s.mem := by
  suffices ∀ u : State, u.groups = s.groups → u.mem = s.mem → (l.foldl f u).groups = s.groups ∧ (l.foldl f u).mem = s.mem from this s rfl rfl
  induction l with
  | nil => exact fun u hg hm => ⟨hg, hm⟩
  | cons a r ih =>
    intro u hg hm
    obtain ⟨hg', hm'⟩ := h u a List.mem_cons_self hg hm
    exact ih (fun v b hb => h v b (List.mem_cons_of_mem _ hb)) _ hg' hm'

/-- Where no line has a writer, a command that leaves leaves no line. -/
theorem State.leaveLines_none {s : State} (c : Cmd) (h : ∀ k ∈ s.mem.lines, k.writers = []) : s.leaveLines c = { s with nextId := s.nextId + 1 } := by
  have hmine : s.mem.lines.filter (fun l => l.writers.contains c.key) = [] := by
    rw [List.filter_eq_nil_iff]
    intro k hk
    simp [h k hk]
  simp only [State.leaveLines, hmine, List.foldl_nil, List.filter_nil, List.map_nil, List.eraseDups_nil]

theorem State.consumedBy_keeps (s : State) (c : Cmd) (sub : Nat) : (s.consumedBy c sub).groups = s.groups ∧ (s.consumedBy c sub).mem = s.mem := by
  rw [State.consumedBy]
  split <;> exact ⟨rfl, rfl⟩

theorem State.faultCmd_keeps {s : State} (c : Cmd) (sub : Nat) (h : ∀ k ∈ s.mem.lines, k.writers = []) :
    (s.faultCmd c sub).groups = s.groups ∧ (s.faultCmd c sub).mem = s.mem := by
  obtain ⟨hg, hm⟩ := s.consumedBy_keeps c sub
  have hmem : ((s.consumedBy c sub).modCmd c.key (fun d => { d with sub := sub, ended := true })).mem = s.mem := hm
  rw [State.faultCmd, State.leaveLines_none _ (by rw [hmem]; exact h)]
  exact ⟨hg, hm⟩

theorem State.failOp_keeps {s : State} (e : ArrEntry) (sub core addr : Nat) (h : ∀ c, s.deferred c = []) :
    (s.failOp e sub core addr).groups = s.groups ∧ (s.failOp e sub core addr).mem = s.mem := by
  rw [State.failOp]
  refine foldl_keeps_groups_mem (s := s.modEntry e.key (fun d => d.fail sub core addr)) fun u c _ hg hm => ?_
  rw [State.drainStash_none ((State.deferred_congr (t := u) (s := s) hg (by rw [hm]; rfl) c).trans (h c))]
  exact ⟨hg, hm⟩

/-- What a failed fill makes of the commands, operations, deferred accesses and groups that wait for its line. -/
def State.fillFails (s1 : State) (core line va : Nat) (f : PageFault) : State :=
  let s2 := (s1.cmds.filter (fun c => c.waitsFor s1 core line)).foldl (fun u c => u.faultCmd c 3) s1
  let s3 := (s2.arrays.filter (fun e => e.stage == .accepted && e.toRead.contains (core, line))).foldl (fun u e => u.failOp e 8 core va) s2
  let s4 := s3.deferredFaults core line va f
  s4.groups.foldl (fun u (g : Group) => match g.hold with
    | .fill c ls => if c = core then ((ls.find? (fun e => e.1 == line)).map (fun e => u.fillTrap g e.2 va f)).getD u else u
    | _ => u) s4

theorem State.stashFillFault_eq {s : State} {core line va w : Nat} {l : Line} {f : PageFault} (hl : s.mem.line? core line = some l)
    (hf : l.filling = true) (hm : l.mapped = some va) (hsource : s.fillSource l va = .error (w, f)) :
    s.stashFillFault core line = State.fillFails { s with mem := s.mem.setLine { l with filling := false } } core line va f := by
  rw [State.stashFillFault, hl]
  dsimp only
  rw [hf, hm]
  dsimp only
  rw [hsource]
  rfl

/-- Where nothing waits for a line, the failed fill of it changes no group, and in memory the line alone. -/
theorem State.stashFillFault_keeps {s : State} {core line va : Nat} {l : Line} {e : Nat × PageFault} (hl : s.mem.line? core line = some l)
    (hf : l.filling = true) (hm : l.mapped = some va) (hcore : l.core = core) (hr : s.reach core l.vi .read false va 128 = .error e)
    (hd : ∀ c, s.deferred c = [])
    (hw : (∀ k ∈ s.mem.lines, k.writers = []) ∨ ∀ c ∈ s.cmds, c.waitsFor { s with mem := s.mem.setLine { l with filling := false } } core line = false)
    (hg : ∀ g ∈ s.groups, ∀ ls, g.hold = .fill core ls → ∀ e ∈ ls, e.1 ≠ line) :
    (s.stashFillFault core line).groups = s.groups ∧ (s.stashFillFault core line).mem = s.mem.setLine { l with filling := false } := by
  have hsource : s.fillSource l va = .error e := by rw [State.fillSource, hcore, hr]
  obtain ⟨w, f⟩ := e
  rw [State.stashFillFault_eq hl hf hm hsource]
  generalize hs1 : ({ s with mem := s.mem.setLine { l with filling := false } } : State) = s1 at hw ⊢
  have hdef : ∀ c, s1.deferred c = [] := fun c => by rw [← hs1]; exact (State.deferred_congr (s := s) (t := { s with mem := s.mem.setLine { l with filling := false } }) rfl rfl c).trans (hd c)
  have hs1g : s1.groups = s.groups := by rw [← hs1]
  have hs1m : s1.mem = s.mem.setLine { l with filling := false } := by rw [← hs1]
  have hkeep : ∀ {u : State}, u.groups = s1.groups → u.mem = s1.mem → ∀ c, u.deferred c = [] := fun hug hum c =>
    (State.deferred_congr hug (by rw [hum]) c).trans (hdef c)
  rw [State.fillFails]
  have h2 : ((s1.cmds.filter (fun c => c.waitsFor s1 core line)).foldl (fun u c => u.faultCmd c 3) s1).groups = s1.groups ∧
      ((s1.cmds.filter (fun c => c.waitsFor s1 core line)).foldl (fun u c => u.faultCmd c 3) s1).mem = s1.mem := by
    rcases hw with hw | hw
    · have hlines : ∀ k ∈ s1.mem.lines, k.writers = [] := by
        intro k hk
        rw [hs1m, Mem.setLine, hm] at hk
        rcases List.mem_append.mp hk with hk | hk
        · exact hw k (List.mem_of_mem_filter hk)
        · rw [List.mem_singleton.mp hk]
          exact hw l (List.mem_of_find?_eq_some hl)
      refine foldl_keeps_groups_mem fun u c _ hug hum => ?_
      obtain ⟨h, h'⟩ := State.faultCmd_keeps (s := u) c 3 (by rw [hum]; exact hlines)
      exact ⟨h.trans hug, h'.trans hum⟩
    · have hnone : s1.cmds.filter (fun c => c.waitsFor s1 core line) = [] := by
        rw [List.filter_eq_nil_iff, ← hs1]
        intro c hc
        rw [hs1, hw c hc]
        decide
      rw [hnone]
      exact ⟨rfl, rfl⟩
  generalize (s1.cmds.filter (fun c => c.waitsFor s1 core line)).foldl (fun u c => u.faultCmd c 3) s1 = s2 at h2 ⊢
  have h3 : ((s2.arrays.filter (fun e => e.stage == .accepted && e.toRead.contains (core, line))).foldl (fun u e => u.failOp e 8 core va) s2).groups = s2.groups ∧
      ((s2.arrays.filter (fun e => e.stage == .accepted && e.toRead.contains (core, line))).foldl (fun u e => u.failOp e 8 core va) s2).mem = s2.mem := by
    refine foldl_keeps_groups_mem fun u e _ hug hum => ?_
    obtain ⟨h, h'⟩ := State.failOp_keeps (s := u) e 8 core va (hkeep (hug.trans h2.1) (hum.trans h2.2))
    exact ⟨h.trans hug, h'.trans hum⟩
  generalize (s2.arrays.filter (fun e => e.stage == .accepted && e.toRead.contains (core, line))).foldl (fun u e => u.failOp e 8 core va) s2 = s3 at h3 ⊢
  have h4 : s3.deferredFaults core line va f = s3 := by
    rw [State.deferredFaults, hkeep (h3.1.trans h2.1) (h3.2.trans h2.2) core]
    rfl
  rw [h4]
  have h5 := foldl_keeps_groups_mem (s := s3) (l := s3.groups) (f := fun u (g : Group) => match g.hold with
    | .fill c ls => if c = core then ((ls.find? (fun e => e.1 == line)).map (fun e => u.fillTrap g e.2 va f)).getD u else u
    | _ => u) fun u g hgmem hug hum => by
      split
      · next c ls hhold =>
        split
        · next hc =>
          subst hc
          have hnone : ls.find? (fun e => e.1 == line) = none := by
            rw [List.find?_eq_none]
            intro e he
            have hgs : g ∈ s.groups := by rwa [h3.1, h2.1, hs1g] at hgmem
            simpa using hg g hgs ls hhold e he
          rw [hnone]
          exact ⟨hug, hum⟩
        · exact ⟨hug, hum⟩
      · exact ⟨hug, hum⟩
  exact ⟨h5.1.trans (h3.1.trans (h2.1.trans hs1g)), h5.2.trans (h3.2.trans (h2.2.trans hs1m))⟩

/-- Settles O42: a fill that completes changes its line alone, and one that fails its line alone where nothing waits for it. -/
theorem stashFills : Obligations.StashFills := by
  unfold Obligations.StashFills
  refine ⟨fun s core line l va va0 t hl hf hm hw hr ht hd hp hcore hline => ⟨_, rfl, ?_⟩, fun s core line l va e hl hf hm hcore hline hr hd hw hg => ⟨_, rfl, ?_⟩⟩
  · have heq := State.stashFill_eq hl hf hm hw hr ht hd hp hcore
    obtain ⟨hpresent, hbytes, hother, hlines, hb, hregs⟩ := s.fillMem_spec core line va t hm hcore hline
    rw [heq]
    exact ⟨hpresent, hbytes, hother, hlines, hb, hregs, rfl⟩
  · obtain ⟨hgroups, hmem⟩ := State.stashFillFault_keeps hl hf hm hcore hr hd hw hg
    subst hcore hline
    have hsame : (s.mem.setLine { l with filling := false }).line? l.core l.line = some { l with filling := false } :=
      Mem.line?_setLine_same s.mem (l := { l with filling := false }) (by rw [hm]; rfl)
    rw [hmem]
    exact ⟨hgroups, rfl, rfl, ⟨_, hsame, hm, rfl⟩, fun _ habsent => (Mem.present_of_line? hsame).trans habsent⟩

end Sys2Proof.Machine
end

section
/-! MONW (R199, R200), and what every memory instruction shares. -/
namespace Sys2Proof.Machine

/-! ### An instruction without indirect operands -/

/-- A ready instruction with no indirect operand, whose effect is a state: its group goes on in that state. -/
theorem exec_of_ok {i : Instr} {dyn : Ctx → Option Nat} {nms : Ctx → List Named} {body : Ctx → Res} {s t : State} {x : Ctx}
    (hexec : exec i s = issueDyn i dyn nms body s) (hx : Runs i nms s x) (hd : dyn x = none) (hb : body x = .ok t)
    (hind : ∀ o ∈ namedOps (nms x), o.isInd = false) : exec i s = .next (t.modGroup x.g.gid Group.advance) := by
  rw [hexec, issueDyn_ready hx hd, hb]
  simp only [Group.postStep_of_no_ind hind]

/-- A ready instruction that waits. -/
theorem exec_of_hold {i : Instr} {dyn : Ctx → Option Nat} {nms : Ctx → List Named} {body : Ctx → Res} {s t : State} {x : Ctx}
    (hexec : exec i s = issueDyn i dyn nms body s) (hx : Runs i nms s x) (hd : dyn x = none) (hb : body x = .hold t) : exec i s = .next t := by
  rw [hexec, issueDyn_ready hx hd, hb]

theorem bOpnd_isInd (u : Bool) (n : BitVec 8) : (bOpnd u n).isInd = false := by cases u <;> rfl

/-- The registers of a format L word are named directly. -/
theorem noInd_of_formatL {l : LArgs} {nm : Named} {u : Bool} {n : BitVec 8} {k : Nat} (h : nm.use = .op (bOpnd u n) k) :
    ∀ o ∈ namedOps [nm, addrName l], o.isInd = false := by
  intro o ho
  simp only [namedOps, addrName, h, List.filterMap_cons, List.filterMap_nil, List.mem_cons, List.not_mem_nil, or_false] at ho
  rcases ho with rfl | rfl <;> exact bOpnd_isInd _ _

/-! ### Present, unmapped lines -/

theorem mem_linesOf_div (off : Nat) {n : Nat} (hn : 0 < n) : off / 128 ∈ linesOf off n :=
  List.mem_map.mpr ⟨0, List.mem_range.mpr (by omega), by omega⟩

/-- A byte of a range lies in one of its lines. -/
theorem mem_linesOf {off n i : Nat} (h : i < n) : (off + i) / 128 ∈ linesOf off n :=
  List.mem_map.mpr ⟨(off + i) / 128 - off / 128, List.mem_range.mpr (by omega), by omega⟩

/-- Lines that are not listed are present. -/
theorem Mem.present_of_none {m : Mem} {core n : Nat} (h : m.line? core n = none) : m.present core n = true := by rw [Mem.present, h]

/-- All lines present: an access meets no absent one. -/
theorem Mem.viewLines_present {m : Mem} {core : Nat} {ls : List Nat} (h : ∀ n ∈ ls, m.present core n = true) : m.viewLines core ls = .present := by
  have hgone : ls.eraseDups.filter (fun n => (!m.present core n && (m.lineOf core n).mapped.isSome) && (m.lineOf core n).writers.isEmpty) = [] :=
    List.filter_eq_nil_iff.mpr fun n hn => by simp [h n (List.mem_eraseDups.mp hn)]
  rw [Mem.viewLines]
  simp only [hgone]
  rw [if_pos (List.all_eq_true.mpr h)]

theorem Mem.mappedAt_of_none {m : Mem} {core off : Nat} (h : m.line? core (off / 128) = none) : m.mappedAt core off = none := by
  rw [Mem.mappedAt, h]

theorem State.stashLost_of_none {s : State} {core off n : Nat} (h : ∀ ln ∈ linesOf off n, s.mem.line? core ln = none) : s.stashLost core off n = none := by
  rw [State.stashLost, List.findSome?_eq_none_iff]
  intro ln hln
  rw [h ln hln]

/-- Accesses through unmapped lines meet no page fault. -/
theorem Ctx.stashFault_of_none {x : Ctx} {acc : Access} {atomic : Bool} {n : Nat} {accs : List Acc} (hn : 0 < n)
    (h : ∀ a ∈ accs, ∀ ln ∈ x.accLines n a, x.s.mem.line? x.g.core ln = none) : x.stashFault acc atomic n accs = none := by
  have hnone : accs.filterMap (fun a =>
      if !(x.accLines n a).all (x.s.mem.present x.g.core) then none
      else match (if atomic then x.s.stashRepl x.g.core (x.stashOff a) else none) with
        | some e => some (a.mask, e.2, x.s.replFault x.g.core acc e)
        | none => if acc = .write then none
          else (x.s.stashLost x.g.core (x.stashOff a) n).map (fun e =>
            (a.mask, e.1, (⟨5, acc, x.s.levelAt x.g.core x.t.vi e.1, decide (2 ^ 64 ≤ e.2), chipOf e.1⟩ : PageFault)))) = [] := by
    rw [List.filterMap_eq_nil_iff]
    intro a ha
    have hrepl : (if atomic then x.s.stashRepl x.g.core (x.stashOff a) else none) = none := by
      rw [State.stashRepl, Mem.mappedAt_of_none (h a ha _ (mem_linesOf_div _ hn)), Option.filter_none, ite_self]
    rw [hrepl, State.stashLost_of_none (h a ha)]
    simp
  rw [Ctx.stashFault]
  exact congrArg pageTrap hnone

/-! ### MONW -/

/-- A translation that is kept changes no byte of memory. -/
theorem State.noteTlb_word (s : State) (core vi va : Nat) (t : Trans) (pw : Nat) : (s.noteTlb core vi va t).mem.word pw = s.mem.word pw := by
  rw [(s.noteTlb_frame core vi va t).2]
  rfl

/-- The group in which a monitor is armed. -/
def Group.withMonitor (k : Nat) (m : Monitor) (overflow : Bool) (g : Group) : Group :=
  { g with
    mon := g.mon.set k m
    parks := g.parks.map (fun p => if p.conds.any (fun c => condMonitor c k) then { p with met := false } else p)
    boundary := if overflow then g.boundary ++ [⟨9, 0, 0, 0, BitVec.ofNat 64 m.va, BitVec.ofNat 64 k⟩] else g.boundary }

theorem Ctx.arm_new (x : Ctx) (s : State) (k : Nat) (stash : Bool) (addr va : Nat) (cmp : MonCmp) (v word : Word) (overflow : Bool) :
    x.arm s k ⟨true, false, false, false, stash, addr, va, cmp, v⟩ word overflow =
      .ok (s.modGroup x.g.gid (Group.withMonitor k (armedMonitor stash addr va cmp v word overflow) overflow)) := rfl

theorem exec_monw_of_arm {g : Guard} {k : BitVec 2} {cmp : MonCmp} {l : LArgs} {s u : State} {x : Ctx} {m : Monitor} {overflow : Bool}
    (hx : Runs (.monw g k cmp l) (fun _ => [dataName l 1 true, addrName l]) s x)
    (hb : x.monw k.toNat cmp l = .ok (u.modGroup x.g.gid (Group.withMonitor k.toNat m overflow))) :
    exec (.monw g k cmp l) s = .next (u.modGroup x.g.gid fun h => (h.withMonitor k.toNat m overflow).advance) := by
  have hexec : exec (.monw g k cmp l) s = issue (.monw g k cmp l) noDyn (fun _ => [dataName l 1 true, addrName l]) (fun y => y.monw k.toNat cmp l) s := rfl
  rw [exec_of_ok hexec hx rfl hb (noInd_of_formatL rfl), State.modGroup_modGroup _ _ (Group.withMonitor k.toNat m overflow) _ fun _ hk => hk]

/-- A monitor on a word of memory of this package. -/
theorem Ctx.monw_memory {x : Ctx} {l : LArgs} {a : Acc} {p : Nat × Nat × Trans} (k : Nat) (cmp : MonCmp) (haccs : x.accs l = [a])
    (hr : x.Reaches l 4 .rmw false false true [⟨a, p.1, [p]⟩]) (hreds : x.noReds) :
    x.monw k cmp l = .ok ((x.s.noteTlb x.g.core x.t.vi p.1 p.2.2).modGroup x.g.gid (Group.withMonitor k
      (armedMonitor false p.2.2.pa p.1 cmp ((x.g.sget (l.t.toNat % 64)).setWidth 32) (x.s.mem.word p.2.2.pa) (Config.monitorRefused x.s.fresh))
      (Config.monitorRefused x.s.fresh))) := by
  obtain ⟨hseg, hinside, -, hpages, hhome, -, hclean, horder, -⟩ := hr
  have hp : p.2.2.home = true := by simpa [Located.home] using hhome _ (List.mem_singleton_self _)
  obtain ⟨hremote, hrepl, -⟩ := p.2.2.home_iff.mp hp
  have hsettle : x.settlePart x.s p = x.s := by
    rw [Ctx.settlePart, hremote, hrepl]
    exact State.performReds_none fun r hq => by simp [hreds r hq]
  have hmon : x.monw k cmp l = x.arm (x.s.noteTlb x.g.core x.t.vi p.1 p.2.2) k
      ⟨true, false, false, false, false, p.2.2.pa, p.1, cmp, BitVec.ofNat 32 (x.g.sget (l.t.toNat % 64)).toNat⟩
      ((x.s.noteTlb x.g.core x.t.vi p.1 p.2.2).mem.word p.2.2.pa) (Config.monitorRefused x.s.fresh) := by
    rw [haccs] at hinside hpages
    have hseg4 : x.segFault l.seg.toNat 4 false true [a] = none := hinside
    rw [Ctx.monw, haccs]
    rw [hseg4]
    dsimp only
    rw [if_neg hseg, show x.orderWaits true = false from horder, if_neg Bool.false_ne_true, hpages]
    dsimp only
    rw [hclean rfl]
    simp only [List.flatMap_cons, List.flatMap_nil, List.append_nil, hsettle, hremote, Bool.false_eq_true, if_false]
  rw [hmon, Ctx.arm_new, State.noteTlb_word, BitVec.ofNat_toNat]

/-- A monitor on a word of an unmapped stash line. -/
theorem Ctx.monw_stash {x : Ctx} {l : LArgs} {a : Acc} (k : Nat) (cmp : MonCmp) (haccs : x.accs l = [a]) (hseg : l.seg = 1)
    (hinside : x.segFault 1 4 false true [a] = none) (hlines : ∀ ln ∈ x.accLines 4 a, x.s.mem.line? x.g.core ln = none) (hbehind : x.behind 4 [a] = false)
    (horder : x.orderWaits true = false) (hpoison : x.stashPoisonTrap 4 [a] = none) :
    x.monw k cmp l = .ok (x.s.modGroup x.g.gid (Group.withMonitor k
      (armedMonitor true (stashKey x.g.core (x.stashOff a)) (x.stashOff a) cmp ((x.g.sget (l.t.toNat % 64)).setWidth 32)
        (BitVec.ofNat 32 (leNat (x.s.mem.stash.read (stashKey x.g.core (x.stashOff a)) 4))) false) false)) := by
  have hfault : x.stashFault .rmw true 4 [a] = none := Ctx.stashFault_of_none (by decide) fun b hb => by rwa [List.mem_singleton.mp hb]
  have hview : x.s.mem.viewLines x.g.core (x.accLines 4 a) = .present := Mem.viewLines_present fun n hn => Mem.present_of_none (hlines n hn)
  have hmapped : x.s.mem.mappedAt x.g.core (x.stashOff a) = none := Mem.mappedAt_of_none (hlines _ (mem_linesOf_div _ (by decide)))
  have hone : l.seg.toNat = 1 := by rw [hseg]; rfl
  have hmon : x.monw k cmp l = x.arm x.s k ⟨true, false, false, false, true, stashKey x.g.core (x.stashOff a), x.stashOff a, cmp,
      BitVec.ofNat 32 (x.g.sget (l.t.toNat % 64)).toNat⟩ (BitVec.ofNat 32 (leNat (x.s.mem.stash.read (stashKey x.g.core (x.stashOff a)) 4))) false := by
    rw [Ctx.monw, haccs, hone]
    simp only [hinside, if_true, hview, hbehind, horder, Bool.or_self, Bool.false_eq_true, if_false, hfault, hpoison, hmapped]
  rw [hmon, Ctx.arm_new, BitVec.ofNat_toNat]

/-- Settles O24: through the registry a monitor polls where there is no room; on the stash never. -/
theorem monitors : Obligations.Monitors := by
  unfold Obligations.Monitors
  refine ⟨fun g k cmp l s x a p hx haccs hr hreds => ?_, fun g k cmp l s x a hx haccs hseg hinside hlines hbehind horder hpoison => ?_⟩
  · have hs := ctxOf_state hx.1
    subst hs
    exact exec_monw_of_arm hx (Ctx.monw_memory k.toNat cmp haccs hr hreds)
  · have hs := ctxOf_state hx.1
    subst hs
    exact exec_monw_of_arm hx (Ctx.monw_stash k.toNat cmp haccs hseg hinside hlines hbehind horder hpoison)

end Sys2Proof.Machine
end

section
/-! RED through a line whose address lies inside a word (R185, R195). -/
namespace Sys2Proof.Machine

/-- RED.add of s1 to the first word of the stash. -/
def redToStash : Instr := .red .always .add32 .grp ⟨0, 1, true, true, 0, 1⟩

/-- The stash's first line is mapped to address 1, which is no line's; byte 0 of memory holds 7. -/
def redMidWord : State :=
  { issuing redToStash with mem := { State.reset.mem with bytes := [(0, 7)], lines := [⟨0, 0, some 0, 0, 1, false, true, 0, false, [], false⟩] } }

/-- What the second part of O22 asks of the context, here. -/
abbrev Ctx.redPremises (x : Ctx) : Prop :=
  x.segFault 1 4 true true (x.accs ⟨0, 1, true, true, 0, 1⟩) = none ∧ x.accs ⟨0, 1, true, true, 0, 1⟩ ≠ [] ∧
  (∀ a ∈ x.accs ⟨0, 1, true, true, 0, 1⟩, x.stashOff a = 0 ∧ x.accLines 4 a = [0] ∧ x.s.stashLost x.g.core (x.stashOff a) 4 = none) ∧
  x.s.mem.present x.g.core 0 = true ∧ (∀ r ∈ x.s.mem.lines, r.core = x.g.core → r.line = 0 → x.s.mem.line? x.g.core 0 = some r ∧ r.repl = false) ∧
  x.behind 4 (x.accs ⟨0, 1, true, true, 0, 1⟩) = false ∧ x.s.lensPending x.g.core 0 = false ∧ x.orderWaits true = false ∧ x.s.mem.posted = [] ∧ x.s.mem.reds = [] ∧
  (∀ j < 4, redMidWord.mem.placeAt x.g.core (0 + j) = some (1 + 0 + j)) ∧
  (atomRun .add32 redMidWord.mem.byte (x.stashOps ⟨0, 1, true, true, 0, 1⟩ .add32 (fun off => 1 + off))).1 0 = 7

/-- Refutes O22: through a line that is mapped to address 1, which the statement admits, RED.add writes words 0 and 4 whole, so that byte 0, which no
operation covers, changes. -/
theorem not_postedReductions : ¬ Obligations.PostedReductions := by
  unfold Obligations.PostedReductions
  rintro ⟨-, hstash⟩
  obtain ⟨x, hx, hfacts⟩ := runs_of_readyWith (s := redMidWord) (i := redToStash) (nms := fun _ => [atomName ⟨0, 1, true, true, 0, 1⟩ .add32, addrName ⟨0, 1, true, true, 0, 1⟩])
    (ok := fun x => decide x.redPremises) (by decide +kernel)
  obtain ⟨hinside, hsome, haccs, hpresent, hone, hbehind, hlens, horder, hposted, hreds, hplace, hrun⟩ := of_decide_eq_true hfacts
  have hreach : x.ReachesLines ⟨0, 1, true, true, 0, 1⟩ AtomVar.add32.bytes true false :=
    { segment := rfl, inside := hinside, some' := hsome
      present := fun a ha ln hln => by
        rw [show AtomVar.add32.bytes = 4 from rfl, (haccs a ha).2.1, List.mem_singleton] at hln
        rwa [hln]
      one := fun a ha ln hln => by
        rw [show AtomVar.add32.bytes = 4 from rfl, (haccs a ha).2.1, List.mem_singleton] at hln
        rwa [hln]
      reach := fun a ha => (haccs a ha).2.2, inOrder := hbehind
      lens := fun _ a ha ln hln => by
        rw [show AtomVar.add32.bytes = 4 from rfl, (haccs a ha).2.1, List.mem_singleton] at hln
        rwa [hln]
      clean := fun h => by cases h
      order := horder, noRace := fun h => by cases h
      posted := by rw [hposted]; exact fun q hq => by cases hq }
  obtain ⟨t, ht, -, hbytes, -⟩ := (hstash _ _ _ _ _ x hx hreach (by rw [Ctx.noReds, hreds]; exact fun q hq => by cases hq)).2 (fun off => 1 + off) fun a ha j hj => by
    rw [(haccs a ha).1]
    exact hplace j hj
  have hkept : t.mem.byte 0 = 7 := (hbytes 0).trans hrun
  have hwritten : nextMeets (exec redToStash redMidWord) (fun t => t.mem.byte 0 == 0) = true := by decide +kernel
  rw [show exec redToStash redMidWord = .next t from ht, nextMeets, hkept] at hwritten
  exact absurd hwritten (by decide)

end Sys2Proof.Machine
end

section
/-! ATOM through a line that two dies share (R185, R194, R274). -/
namespace Sys2Proof.Machine

/-- The fields of ATOM.add.b64 of s1 to the place that v0 and v1 name in the stash, in every lane. -/
def atomToStashArgs : LArgs := ⟨0, 1, true, false, 0, 2⟩

def atomToStash : Instr := .atom .always .add64 .grp atomToStashArgs

/-- The stash's first line is mapped to the last word of die 0, to which the first word of die 1 follows; the link of these dies is dead; s2 holds 1. -/
def atomAcrossDies : State :=
  { (issuing atomToStash).mapGroups (fun g => g.sset 2 1) with
    fabric := { State.reset.fabric with deadLinks := [(0, 1)] }
    mem := { State.reset.mem with lines := [⟨0, 0, some 0, 0, 2 ^ 37 - 4, false, true, 0, false, [], false⟩] } }

/-- What the third part of O20 asks of the context, here. -/
abbrev Ctx.atomPremises (x : Ctx) : Prop :=
  x.segFault 1 8 true true (x.accs atomToStashArgs) = none ∧ x.accs atomToStashArgs ≠ [] ∧
  (∀ a ∈ x.accs atomToStashArgs, x.stashOff a = 0 ∧ x.accLines 8 a = [0] ∧ x.s.stashLost x.g.core (x.stashOff a) 8 = none) ∧
  x.s.mem.present x.g.core 0 = true ∧ (∀ r ∈ x.s.mem.lines, r.core = x.g.core → r.line = 0 → x.s.mem.line? x.g.core 0 = some r ∧ r.repl = false) ∧
  x.behind 8 (x.accs atomToStashArgs) = false ∧ x.s.lensPending x.g.core 0 = false ∧ x.orderWaits true = false ∧ x.s.mem.posted = [] ∧ x.s.mem.reds = [] ∧
  x.stashPoisonTrap 8 (x.accs atomToStashArgs) = none ∧ x.g.outs = [] ∧
  (∀ j < 8, atomAcrossDies.mem.placeAt x.g.core (0 + j) = some (2 ^ 37 - 4 + 0 + j)) ∧
  (atomRun .add64 atomAcrossDies.mem.byte (x.stashOps atomToStashArgs .add64 (fun off => 2 ^ 37 - 4 + off))).1 (2 ^ 37 - 4) = 64

/-- Refutes O20: a line may be mapped across the end of a die, to a die with a dead path. The first lane's ATOM then registers a word there, by which the
home is out of reach of the second lane's, which is lost: of 64 additions of 1 one is done. -/
theorem not_atomics : ¬ Obligations.Atomics := by
  unfold Obligations.Atomics
  rintro ⟨-, hstash⟩
  obtain ⟨x, hx, hfacts⟩ := runs_of_readyWith (s := atomAcrossDies) (i := atomToStash) (nms := fun _ => [atomName atomToStashArgs .add64, addrName atomToStashArgs])
    (ok := fun x => decide x.atomPremises) (by decide +kernel)
  obtain ⟨hinside, hsome, haccs, hpresent, hone, hbehind, hlens, horder, hposted, hreds, hpoison, houts, hplace, hrun⟩ := of_decide_eq_true hfacts
  have hline : ∀ a ∈ x.accs atomToStashArgs, ∀ ln ∈ x.accLines AtomVar.add64.bytes a, ln = 0 := fun a ha ln hln => by
    rwa [show AtomVar.add64.bytes = 8 from rfl, (haccs a ha).2.1, List.mem_singleton] at hln
  have hreach : x.ReachesLines atomToStashArgs AtomVar.add64.bytes true false :=
    { segment := rfl, inside := hinside, some' := hsome
      present := fun a ha ln hln => by rwa [hline a ha ln hln]
      one := fun a ha ln hln => by rwa [hline a ha ln hln]
      reach := fun a ha => (haccs a ha).2.2, inOrder := hbehind
      lens := fun _ a ha ln hln => by rwa [hline a ha ln hln]
      clean := fun h => by cases h
      order := horder, noRace := fun h => by cases h
      posted := by rw [hposted]; exact fun q hq => by cases hq }
  have hsent : x.nothingSent .grp := ⟨fun h => (by rcases h with h | h <;> cases h), hreach.posted, (by rw [houts]; rfl)⟩
  obtain ⟨t, ht, -, hbytes, -⟩ := (hstash _ _ _ _ _ x hx hreach hpoison (by rw [Ctx.noReds, hreds]; exact fun q hq => by cases hq) hsent).2 (fun off => 2 ^ 37 - 4 + off)
    fun a ha j hj => by
      rw [(haccs a ha).1]
      exact hplace j hj
  have hall : t.mem.byte (2 ^ 37 - 4) = 64 := (hbytes _).trans hrun
  have hdone : nextMeets (exec atomToStash atomAcrossDies) (fun t => t.mem.byte (2 ^ 37 - 4) == 1) = true := by decide +kernel
  rw [show exec atomToStash atomAcrossDies = .next t from ht, nextMeets, hall] at hdone
  exact absurd hdone (by decide)

end Sys2Proof.Machine
end

section
/-! A submission by a group (R282). -/
namespace Sys2Proof.Machine

theorem exec_atom_eq {i : Instr} {g : Guard} {l : LArgs} (hi : i = .atom g .xchg64 .sys l ∨ i = .groupSubmission g l) (s : State) :
    exec i s = issue i noDyn (fun _ => [atomName l .xchg64, addrName l]) (fun x => x.atom .xchg64 .sys l) s := by
  rcases hi with rfl | rfl <;> rfl

theorem Ctx.locate_nil (x : Ctx) (seg n : Nat) (acc : Access) (atomic : Bool) : x.locate seg n acc atomic [] = .ok [] := rfl

/-- One lane's submission is the whole of the ATOM's effect. -/
theorem Ctx.atom_submission {x : Ctx} {l : LArgs} {o : AOp} {p : SubPage} {rs : List Located} {r : List Byte} {t : State} {st : Nat}
    (hinside : x.segFault 0 8 true true (x.accs l) = none) (horder : x.orderWaits true = false) (hseg : l.seg = 0) (hops : x.aops l .xchg64 = [o])
    (haccs : x.accs l = [o.acc]) (hpage : x.submitPage 0 .xchg64 .sys o.acc = some p) (hrec : x.recordFault [o] = none)
    (hloc : x.locate 0 128 .read false [⟨o.lane, 1#64 <<< o.lane, o.opnd⟩] = .ok rs) (hpoison : memPoison x.s x.agent x.t.vi rs = none)
    (hread : (x.s.release x.g x.t .sys).coreRead x.g.core x.t.vi (((x.g.seg 0).1.toNat + o.opnd) % 2 ^ 64) 128 = some r) (henabled : p.enabled = true)
    (hsub : (x.s.release x.g x.t .sys).submit p r = .accepted t ∧ st = 0 ∨
      ((x.s.release x.g x.t .sys).submit p r = .refused ∨ (x.s.release x.g x.t .sys).submit p r = .malformed) ∧ t = x.s.release x.g x.t .sys ∧ st = 2) :
    x.atom .xchg64 .sys l = .ok (x.outstanding t (atomForm .xchg64 l).names false (loadWrites (atomForm .xchg64 l) [o.lane] (leBytes 8 st)) 0 .ready) := by
  have hone : x.submitOne (x.s.release x.g x.t .sys) p (x.g.hold == .answer) o.opnd = some (t, st) := by
    rw [Ctx.submitOne]
    simp only [hread, henabled, Bool.not_true, Bool.false_eq_true, if_false]
    rcases hsub with ⟨h, rfl⟩ | ⟨h | h, rfl, rfl⟩ <;> rw [h]
  have hzero : l.seg.toNat = 0 := by rw [hseg]; rfl
  rw [haccs] at hinside
  rw [Ctx.atom, hzero]
  simp only [haccs, hops, show AtomVar.xchg64.bytes = 8 from rfl, hinside, List.isEmpty_cons, Bool.false_eq_true, if_false, horder, Nat.zero_ne_one,
    List.filter_cons, List.filter_nil, hpage, Option.isSome_some, if_true, hrec, Option.isNone_some, List.map_cons, List.map_nil, Ctx.locate_nil, hloc,
    List.nil_append, hpoison, Ctx.lensBlocks, List.any_nil, List.foldl_cons, List.foldl_nil, Option.bind_some, hone, Option.map_some]

/-- Settles O21: the operation names a submit word, so that the record is read and submitted, and its answer is the old value. -/
theorem groupSubmissions : Obligations.GroupSubmissions := by
  unfold Obligations.GroupSubmissions
  intro i g l hi s x o p rs hx hinside horder hseg hops haccs hpage hrec hloc hpoison s1 answer r hread henabled
  have hs := ctxOf_state hx.1
  subst hs
  have hexec : ∀ {t : State} {st : Nat}, (s1.submit p r = .accepted t ∧ st = 0 ∨ (s1.submit p r = .refused ∨ s1.submit p r = .malformed) ∧ t = s1 ∧ st = 2) →
      exec i x.s = .next (answer t st) := fun h =>
    exec_of_ok (exec_atom_eq hi x.s) hx rfl (Ctx.atom_submission hinside horder hseg hops haccs hpage hrec hloc hpoison hread henabled h) (noInd_of_formatL rfl)
  exact ⟨fun s2 h => hexec (.inl ⟨h, rfl⟩), fun h => hexec (.inr ⟨h, rfl, rfl⟩)⟩

end Sys2Proof.Machine
end

section
/-! What a reread leaves: an L1 drops copies, and a stash's copies in mapped lines take newer values (R263, R267). -/
namespace Sys2Proof.Machine

/-- Memory after rereads: no copy is new, no byte outside mapped lines of a stash has changed, nor anything else. -/
structure Mem.rereads (m n : Mem) : Prop where
  frame : m = { n with copies := m.copies, stash := m.stash, stashPoison := m.stashPoison }
  copies : ∀ c ∈ m.copies, c ∈ n.copies
  kept : m.stashKept n

theorem Mem.rereads_refl (m : Mem) : m.rereads m := ⟨rfl, fun _ h => h, fun _ _ => ⟨rfl, Iff.rfl⟩⟩

theorem Mem.rereads.lines {m n : Mem} (h : m.rereads n) : m.lines = n.lines := by rw [h.frame]

theorem Mem.rereads.regs {m n : Mem} (h : m.rereads n) : m.regs = n.regs := by rw [h.frame]

theorem Mem.rereads.bytes {m n : Mem} (h : m.rereads n) : m.bytes = n.bytes := by rw [h.frame]

theorem Mem.rereads.byte {m n : Mem} (h : m.rereads n) (pa : Nat) : m.byte pa = n.byte pa :=
  Mem.byte_congr h.bytes (fun k => by rw [Mem.reg?, Mem.reg?, h.regs]) pa

theorem Mem.rereads_trans {k m n : Mem} (h : k.rereads m) (h' : m.rereads n) : k.rereads n := by
  refine ⟨h.frame.trans (by rw [h'.frame]), fun c hc => h'.copies c (h.copies c hc), fun a ha => ?_⟩
  have hm : ¬ m.cacheKey a := by rwa [Mem.cacheKey, h'.lines]
  exact ⟨(h.kept a hm).1.trans (h'.kept a ha).1, (h.kept a hm).2.trans (h'.kept a ha).2⟩

theorem Mem.rereads_foldl {α : Type} {f : Mem → α → Mem} {l : List α} {m : Mem} (h : ∀ n : Mem, n.rereads m → ∀ a ∈ l, (f n a).rereads n) :
    (l.foldl f m).rereads m := by
  suffices ∀ n : Mem, n.rereads m → (l.foldl f n).rereads m from this m m.rereads_refl
  induction l with
  | nil => exact fun n hn => hn
  | cons a r ih => exact fun n hn => ih (fun k hk b hb => h k hk b (List.mem_cons_of_mem _ hb)) _ (Mem.rereads_trans (h n hn a List.mem_cons_self) hn)

/-- Bytes put into a mapped line. -/
theorem Mem.putStash_rereads {m : Mem} {l : Line} {off : Nat} {bs : List Byte} (hl : l ∈ m.lines) (hm : l.mapped.isSome = true)
    (h1 : 128 * l.line ≤ off) (h2 : off + bs.length ≤ 128 * l.line + 128) : (m.putStash l.core off bs).rereads m := by
  refine ⟨rfl, fun _ h => h, fun k hk => ?_⟩
  have hout : k < stashKey l.core off ∨ stashKey l.core off + bs.length ≤ k := by
    by_contra hin
    refine hk ⟨l, hl, hm, ?_⟩
    unfold stashKey at hin ⊢
    omega
  refine ⟨Store.get_write_out _ _ _ hout, ?_⟩
  simp only [Mem.putStash, List.mem_filter, Bool.not_eq_true', Bool.and_eq_false_iff, decide_eq_false_iff_not, not_le, and_iff_left_iff_imp]
  intro _
  omega

theorem Mem.dropCopy_rereads (m : Mem) (core pw : Nat) : (m.dropCopy core pw).rereads m :=
  ⟨rfl, fun _ h => List.mem_of_mem_filter h, fun _ _ => ⟨rfl, Iff.rfl⟩⟩

theorem Mem.setStashCopy_rereads (m : Mem) (core pw : Nat) : (m.setStashCopy core pw).rereads m := by
  refine Mem.rereads_foldl fun n hn l hl => ?_
  obtain ⟨hl, ht⟩ := List.mem_filter.mp hl
  simp only [Bool.and_eq_true, beq_iff_eq] at ht
  obtain ⟨⟨⟨⟨hcore, hmapped⟩, -⟩, -⟩, -⟩ := ht
  rw [← hcore]
  refine Mem.putStash_rereads (by rwa [hn.lines]) hmapped (by omega) ?_
  rw [Mem.read, List.length_map, List.length_range, alignDown]
  omega

theorem Mem.renew_rereads (m : Mem) (core pw : Nat) : (m.renew core pw).rereads m :=
  Mem.rereads_trans ((m.dropCopy core pw).setStashCopy_rereads core pw) (m.dropCopy_rereads core pw)

theorem Mem.renewRepl_rereads (m : Mem) (core pa n : Nat) : (m.renewRepl core pa n).rereads m := by
  refine Mem.rereads_foldl fun k hk l hl => ?_
  obtain ⟨hl, ht⟩ := List.mem_filter.mp hl
  simp only [Bool.and_eq_true, beq_iff_eq] at ht
  obtain ⟨⟨⟨hcore, hmapped⟩, -⟩, -⟩ := ht
  refine Mem.rereads_foldl fun j hj a ha => ?_
  obtain ⟨-, ha⟩ := List.mem_filter.mp ha
  simp only [Bool.and_eq_true, beq_iff_eq] at ha
  rw [← hcore]
  refine Mem.putStash_rereads (by rwa [hj.lines, hk.lines]) hmapped (by omega) ?_
  simp only [Store.read, List.length_map, List.length_range]
  omega

theorem Mem.refreshLine_rereads {m : Mem} {l : Line} (hl : l ∈ m.lines) (hm : l.mapped.isSome = true) : (m.refreshLine l).rereads m := by
  refine Mem.rereads_foldl fun n hn i hi => ?_
  have hi := List.mem_range.mp hi
  dsimp only
  split
  · exact n.rereads_refl
  · refine Mem.putStash_rereads (by rwa [hn.lines]) hm (by omega) ?_
    split
    · simp only [Store.read, List.length_map, List.length_range]
      omega
    · simp only [Mem.read, List.length_map, List.length_range]
      omega

/-- Reads of a stash range. -/
theorem State.stashRead_rereads (s : State) (plain : Bool) (core : Nat) (all : List StashRange) (off n : Nat) :
    (s.stashRead plain core all off n).1 = { s with mem := (s.stashRead plain core all off n).1.mem } ∧ (s.stashRead plain core all off n).1.mem.rereads s.mem := by
  refine ⟨rfl, Mem.rereads_foldl fun m _ p _ => ?_⟩
  split
  · dsimp only
    split
    · split
      · exact m.rereads_refl
      · exact m.dropCopy_rereads _ _
    · split
      · exact m.renewRepl_rereads _ _ _
      · exact m.renew_rereads _ _
  · exact m.rereads_refl

/-! ### The Lens reads a line -/

/-- A state after the Lens has read lines: rereads, and what the arrays have still to read. -/
structure State.lensStep (t s : State) : Prop where
  frame : t = { s with mem := t.mem, arrays := t.arrays }
  mem : t.mem.rereads s.mem
  took : lensTook s.arrays t.arrays

theorem State.lensStep_refl (s : State) : s.lensStep s := ⟨rfl, s.mem.rereads_refl, rfl⟩

theorem State.lensStep_trans {u t s : State} (h : u.lensStep t) (h' : t.lensStep s) : u.lensStep s :=
  ⟨h.frame.trans (by rw [h'.frame]), Mem.rereads_trans h.mem h'.mem, Eq.trans h.took h'.took⟩

theorem State.lensStep_foldl {α : Type} {f : State → α → State} (h : ∀ u a, (f u a).lensStep u) (l : List α) (s : State) : (l.foldl f s).lensStep s := by
  induction l generalizing s with
  | nil => exact s.lensStep_refl
  | cons a r ih => exact State.lensStep_trans (ih (f s a)) (h s a)

/-- A change of what an entry has still to read, has read, or was given up for. -/
theorem lensTook_modWhere (l : List ArrEntry) (t : ArrEntry → Bool) {f : ArrEntry → ArrEntry}
    (hf : ∀ e, { f e with toRead := [], got := [], abort := 0 } = { e with toRead := [], got := [], abort := 0 }) : lensTook l (modWhere l t f) := by
  rw [lensTook, modWhere, List.map_map]
  refine List.map_congr_left fun e _ => ?_
  rw [Function.comp_apply]
  split
  · exact hf e
  · rfl

theorem ArrEntry.fail_took (e : ArrEntry) (sub core addr : Nat) :
    { e.fail sub core addr with toRead := [], got := [], abort := 0 } = { e with toRead := [], got := [], abort := 0 } := by
  rw [ArrEntry.fail]
  split <;> rfl

theorem State.lensTake_lensStep (s : State) (e : ArrEntry) (core line : Nat) : (s.lensTake e core line).lensStep s := by
  rw [State.lensTake]
  split
  · exact ⟨rfl, s.mem.rereads_refl, lensTook_modWhere _ _ fun d => d.fail_took 7 core 0⟩
  · exact ⟨rfl, (s.stashRead_rereads true core [(128 * line, 128)] (128 * line) 128).2, lensTook_modWhere _ _ fun _ => rfl⟩

theorem State.lensFirst_lensStep (s : State) (core line : Nat) : (s.lensFirst core line).lensStep s := by
  refine State.lensStep_foldl (fun u e => ?_) _ s
  split
  · exact u.lensStep_refl
  · exact u.lensTake_lensStep e core line

/-- Nothing of a line is still to be read: the Lens reads nothing first. -/
theorem State.lensFirst_none {s : State} {core line : Nat} (h : s.lensPending core line = false) : s.lensFirst core line = s := by
  have hnone : s.arrays.filter (fun e => e.stage == .accepted && e.toRead.contains (core, line)) = [] := by
    rw [List.filter_eq_nil_iff]
    rw [State.lensPending, List.any_eq_false] at h
    exact fun e he => h e he
  rw [State.lensFirst, hnone]
  rfl

end Sys2Proof.Machine
end

section
/-! Fences, releases and acquires (R196 to R198, R254). -/
namespace Sys2Proof.Machine

/-! ### A release with nothing on its way -/

theorem State.deliverWhere_none {s : State} {t : Posted → Bool} (h : ∀ q ∈ s.mem.posted, t q = false) : s.deliverWhere t = s := by
  rw [State.deliverWhere, List.filter_eq_nil_iff.mpr fun q hq => by simp [h q hq]]
  rfl

theorem State.flushRepls_none {s : State} {t : ReplWrite → Bool} (h : ∀ q ∈ s.mem.repls, t q = false) : s.flushRepls t = s := by
  rw [State.flushRepls, withOlder_nil h]
  rfl

/-- Bytes depend on what the registry holds of each word, not on what was released. -/
theorem Mem.byte_mapRegs (m : Mem) {f : Reg → Reg} (hpa : ∀ r, (f r).pa = r.pa) (hval : ∀ r, ((f r).mask, (f r).value) = (r.mask, r.value)) (pa : Nat) :
    Mem.byte { m with regs := m.regs.map f } pa = m.byte pa := by
  refine Mem.byte_congr (m := { m with regs := m.regs.map f }) (n := m) rfl (fun k => ?_) pa
  rw [Mem.reg?, Mem.reg?, List.find?_map]
  simp only [Function.comp_def, hpa, Option.map_map]
  exact congrArg (Option.map · _) (funext hval)

/-- Memory after a release: the core's registrations are RELEASED, and accesses held for the group note it. -/
def Ctx.releaseMem (x : Ctx) (sc : Scope) : Mem :=
  { x.s.mem.releaseCore x.g.core sc x.t.paired x.s.busyWords with
    held := modWhere x.s.mem.held (fun h => h.gid == x.g.gid) (fun h =>
      { h with rel := some (match h.rel with | some o => (widerScope o.1 sc, o.2) | none => (sc, x.s.nextId)) }) }

theorem Ctx.releaseMem_spec (x : Ctx) (sc : Scope) : x.releasedMem sc (x.releaseMem sc) := by
  have hregs : (x.s.mem.releaseCore x.g.core sc x.t.paired x.s.busyWords).regs = x.releasedRegs sc := by
    refine List.map_congr_left fun r _ => if_congr Iff.rfl rfl (if_congr ?_ rfl rfl)
    simp only [Bool.and_eq_true, Bool.not_eq_true', beq_iff_eq, List.contains_eq_mem, decide_eq_false_iff_not, and_assoc]
  refine ⟨by rw [← hregs]; rfl, fun pa => ?_⟩
  have hbyte : (x.releaseMem sc).byte pa = (x.s.mem.releaseCore x.g.core sc x.t.paired x.s.busyWords).byte pa := rfl
  rw [hbyte, Mem.releaseCore]
  refine Mem.byte_mapRegs _ (fun r => ?_) (fun r => ?_) pa
  · split
    · rfl
    · split <;> rfl
  · split
    · rfl
    · split <;> rfl

/-- Nothing of the group is on its way: a release changes what is RELEASED alone. -/
theorem Ctx.release_eq {x : Ctx} {sc : Scope} (hg : x.s.group? x.g.gid = some x.g) (hreds : x.noReds) (hsent : x.nothingSent sc) :
    x.s.release x.g x.t sc = { x.s with mem := x.releaseMem sc } := by
  obtain ⟨hrepls, hposted, houts⟩ := hsent
  have hflush : (if sc = .pkg ∨ sc = .sys then x.s.flushOf x.g.core x.g.gid else x.s) = x.s := by
    split
    · next hsc => exact State.flushRepls_none fun q hq => by simp [(hrepls hsc q hq).1, (hrepls hsc q hq).2]
    · rfl
  have hatoms : x.s.releaseAtoms x.g.gid = x.s := by
    rw [State.releaseAtoms, hg, Option.any_some, houts]
    rfl
  rw [State.release, State.performReds_none fun r hr => by simp [hreds r hr], State.deliverWhere_none fun q hq => by simp [hposted q hq]]
  simp only [hflush, hatoms]
  rfl

/-! ### A result that is outstanding -/

/-- A ready instruction with no indirect operand, whose effect leaves a result outstanding. -/
theorem exec_of_outstanding {i : Instr} {dyn : Ctx → Option Nat} {nms : Ctx → List Named} {body : Ctx → Res} {s t : State} {x : Ctx} {names : List RegName}
    {busy : Bool} {writes : List RegWrite} {flags : Flags} {src : PendSrc} (hexec : exec i s = issueDyn i dyn nms body s) (hx : Runs i nms s x) (hd : dyn x = none)
    (hb : body x = .ok (x.outstanding t names busy writes flags src)) (hn : names ≠ []) (hind : ∀ o ∈ namedOps (nms x), o.isInd = false) :
    exec i s = .next { t.modGroup x.g.gid (fun g => Group.advance { g with outs := g.outs ++ [⟨t.nextId, names, busy, writes, flags, src⟩] }) with nextId := t.nextId + 1 } := by
  have hout : x.outstanding t names busy writes flags src =
      { t.modGroup x.g.gid (fun g => { g with outs := g.outs ++ [⟨t.nextId, names, busy, writes, flags, src⟩] }) with nextId := t.nextId + 1 } := by
    rw [Ctx.outstanding]
    dsimp only
    rw [List.isEmpty_eq_false_iff.mpr hn]
    rfl
  rw [exec_of_ok hexec hx hd hb hind, hout]
  exact congrArg (fun u : State => Host.Outcome.next { u with nextId := t.nextId + 1 }) (State.modGroup_modGroup t x.g.gid
    (fun g => { g with outs := g.outs ++ [⟨t.nextId, names, busy, writes, flags, src⟩] }) Group.advance fun _ hk => hk)

/-! ### REL and FENCE -/

theorem noInd_nil : ∀ o ∈ namedOps [], o.isInd = false := fun _ h => by cases h

/-- REL (R198). -/
theorem exec_rel_of_quiet {g : Guard} {sc : Scope} {s : State} {x : Ctx} (hx : Runs (.rel g sc) (fun _ => []) s x) (hany : x.any = true) (hreds : x.noReds)
    (hsent : x.nothingSent sc) (horder : x.orderWaits true = false) : exec (.rel g sc) s = .next { s.modGroup x.g.gid Group.advance with mem := x.releaseMem sc } := by
  have hs := ctxOf_state hx.1
  subst hs
  have hexec : exec (.rel g sc) x.s = issue (.rel g sc) noDyn (fun _ => []) (fun y => if y.any then y.afterRelease sc .ok else .ok y.s) x.s := rfl
  refine exec_of_ok (t := { x.s with mem := x.releaseMem sc }) hexec hx rfl ?_ noInd_nil
  rw [hany, if_pos rfl, Ctx.afterRelease, horder, Ctx.release_eq (ctxOf_group hx.1) hreds hsent]
  rfl

/-- The delivery counts that FENCE reports (R196). -/
def Group.fenceCounts (g : Group) (sc : Scope) : Delivery :=
  match sc with
  | .grp | .die => Delivery.none
  | .pkg => g.delPkg
  | .sys => g.delPkg.sum g.delOther

/-- The group after its delivery counts of a scope have been reported. -/
def Group.countsReported (sc : Scope) (g : Group) : Group :=
  { g with
    delPkg := if sc = .pkg ∨ sc = .sys then Delivery.none else g.delPkg
    delOther := if sc = .sys then Delivery.none else g.delOther }

/-- FENCE (R196). -/
theorem exec_fence_of_quiet {g : Guard} {sc : Scope} {ud : BitVec 6} {s : State} {x : Ctx} (hx : Runs (.fence g sc ud) (fun _ => [⟨0, .op (.s ud) 1, false⟩]) s x)
    (hany : x.any = true) (hreds : x.noReds) (hheld : x.writesHeld = false) (hsent : x.nothingSent sc) (horder : x.orderWaits true = false) :
    exec (.fence g sc ud) s = .next { s.modGroup x.g.gid (fun h => Group.advance { h.countsReported sc with
      outs := h.outs ++ [⟨s.nextId, [.s ud.toNat], false, [.s ud.toNat (fenceStatus (x.g.fenceCounts sc))], 0, .ready⟩] }) with
      mem := x.releaseMem sc, nextId := s.nextId + 1 } := by
  have hs := ctxOf_state hx.1
  subst hs
  have hg := ctxOf_group hx.1
  have hgroup : (State.group? { x.s with mem := x.releaseMem sc } x.g.gid).getD x.g = x.g := by
    rw [show State.group? { x.s with mem := x.releaseMem sc } x.g.gid = x.s.group? x.g.gid from rfl, hg]
    rfl
  have hexec : exec (.fence g sc ud) x.s = issue (.fence g sc ud) noDyn (fun _ => [⟨0, .op (.s ud) 1, false⟩]) (fun y =>
      if !y.any then .ok y.s
      else if y.writesHeld || y.orderWaits true then y.again
      else
        .ok (y.outstanding ((y.s.release y.g y.t sc).modGroup y.g.gid (Group.countsReported sc)) [.s ud.toNat] false
          [.s ud.toNat (fenceStatus ((((y.s.release y.g y.t sc).group? y.g.gid).getD y.g).fenceCounts sc))] 0 .ready)) x.s := by
    cases sc <;> rfl
  have hbody : (if !x.any then .ok x.s
      else if x.writesHeld || x.orderWaits true then x.again
      else
        .ok (x.outstanding ((x.s.release x.g x.t sc).modGroup x.g.gid (Group.countsReported sc)) [.s ud.toNat] false
          [.s ud.toNat (fenceStatus ((((x.s.release x.g x.t sc).group? x.g.gid).getD x.g).fenceCounts sc))] 0 .ready)) =
      Res.ok (x.outstanding ({ x.s with mem := x.releaseMem sc }.modGroup x.g.gid (Group.countsReported sc)) [.s ud.toNat] false
        [.s ud.toNat (fenceStatus (x.g.fenceCounts sc))] 0 .ready) := by
    rw [hany, hheld, horder, Ctx.release_eq hg hreds hsent, hgroup]
    rfl
  rw [exec_of_outstanding hexec hx rfl hbody (by simp) fun o ho => by
    rw [List.mem_singleton.mp ho]
    rfl]
  exact congrArg (fun u : State => Host.Outcome.next { u with nextId := x.s.nextId + 1 }) (State.modGroup_modGroup { x.s with mem := x.releaseMem sc } x.g.gid
    (Group.countsReported sc) _ fun _ hk => hk)

/-! ### ACQ -/

/-- The present mapped lines of a team that an acquire of some regions names (R197). -/
def State.acquired (s : State) (core vi lo hi : Nat) (mask : BitVec 16) (l : Line) : Bool :=
  l.core == core && decide (lo ≤ 128 * l.line) && decide (128 * l.line < hi) && l.present
    && l.mapped.any (fun va => mask.getLsbD ((s.viOf vi).regionOf va).toNat)

/-- A fold that refreshes lines. -/
theorem Mem.refreshLines_spec {m : Mem} {ls : List Line} (h : ∀ l ∈ ls, l ∈ m.lines ∧ l.mapped.isSome = true) :
    (ls.foldl Mem.refreshLine m).rereads m ∧ (ls.foldl Mem.refreshLine m).copies = m.copies := by
  have hcopies : ∀ (n : Mem) (l : Line), (n.refreshLine l).copies = n.copies := fun n l => by
    refine foldl_keeps (fun k : Mem => k.copies = n.copies) _ (fun k i hk => ?_) _ n rfl
    dsimp only
    split <;> exact hk
  exact ⟨Mem.rereads_foldl fun n hn l hl => Mem.refreshLine_rereads (by rw [hn.lines]; exact (h l hl).1) (h l hl).2,
    foldl_keeps (fun k : Mem => k.copies = m.copies) _ (fun k l hk => (hcopies k l).trans hk) _ m rfl⟩

/-- What an acquire leaves. -/
theorem State.acquire_spec (s : State) (core vi lo hi : Nat) (mask : BitVec 16) :
    (s.acquire core vi lo hi mask = { s with mem := (s.acquire core vi lo hi mask).mem, arrays := (s.acquire core vi lo hi mask).arrays }) ∧
    (∃ n : Mem, n.rereads s.mem ∧ (s.acquire core vi lo hi mask).mem = { n with
      lines := modWhere s.mem.lines (fun l => s.acquired core vi lo hi mask l && !s.mem.lineDirty l) (fun l => { l with present := false }) } ∧
      (∀ c ∈ n.copies, ¬(c.core = core ∧ mask.getLsbD c.region.toNat = true)) ∧
      ((∀ k, s.lensPending core k = false) → n.copies = s.mem.copies.filter (fun c => !(c.core == core && mask.getLsbD c.region.toNat)))) ∧
    lensTook s.arrays (s.acquire core vi lo hi mask).arrays ∧ ((∀ k, s.lensPending core k = false) → (s.acquire core vi lo hi mask).arrays = s.arrays) := by
  have hdef : s.acquire core vi lo hi mask =
      (let u := (s.mem.lines.filter (fun l => s.acquired core vi lo hi mask l && !s.mem.lineDirty l)).foldl (fun u l => u.lensFirst core l.line) s
       let m := u.mem.discard core mask
       let n := (m.lines.filter (fun l => s.acquired core vi lo hi mask l && m.lineDirty l)).foldl Mem.refreshLine m
       { u with mem := { n with lines := modWhere m.lines (fun l => s.acquired core vi lo hi mask l && !m.lineDirty l) (fun l => { l with present := false }) } }) := rfl
  have hlens : ((s.mem.lines.filter (fun l => s.acquired core vi lo hi mask l && !s.mem.lineDirty l)).foldl (fun u l => u.lensFirst core l.line) s).lensStep s :=
    State.lensStep_foldl (fun u (l : Line) => u.lensFirst_lensStep core l.line) _ s
  have hnone : (∀ k, s.lensPending core k = false) →
      (s.mem.lines.filter (fun l => s.acquired core vi lo hi mask l && !s.mem.lineDirty l)).foldl (fun u l => u.lensFirst core l.line) s = s := fun h =>
    foldl_keeps (fun u : State => u = s) (fun u (l : Line) => u.lensFirst core l.line) (fun u l hu => by rw [hu, State.lensFirst_none (h _)]) _ s rfl
  rw [hdef]
  generalize (s.mem.lines.filter (fun l => s.acquired core vi lo hi mask l && !s.mem.lineDirty l)).foldl (fun u l => u.lensFirst core l.line) s = u at hlens hnone ⊢
  obtain ⟨hframe, hmem, htook⟩ := hlens
  have hdiscard : (u.mem.discard core mask).rereads u.mem := ⟨rfl, fun _ h => List.mem_of_mem_filter h, fun _ _ => ⟨rfl, Iff.rfl⟩⟩
  have hdirty : ∀ l, (u.mem.discard core mask).lineDirty l = s.mem.lineDirty l := fun l => by
    rw [Mem.lineDirty, Mem.lineDirty, Mem.dirtyWords, Mem.dirtyWords, hdiscard.regs, hmem.regs]
  have hlines : (u.mem.discard core mask).lines = s.mem.lines := hdiscard.lines.trans hmem.lines
  obtain ⟨hreread, hcopies⟩ := Mem.refreshLines_spec (m := u.mem.discard core mask)
    (ls := (u.mem.discard core mask).lines.filter (fun l => s.acquired core vi lo hi mask l && (u.mem.discard core mask).lineDirty l)) fun l hl => by
      obtain ⟨hl, ht⟩ := List.mem_filter.mp hl
      refine ⟨hl, ?_⟩
      rw [State.acquired, Bool.and_eq_true, Bool.and_eq_true] at ht
      cases hm : l.mapped with
      | none => rw [hm] at ht; exact absurd ht.1.2 (by simp)
      | some va => rfl
  refine ⟨by rw [hframe], ⟨_, Mem.rereads_trans hreread (Mem.rereads_trans hdiscard hmem), ?_, fun c hc => ?_, fun h => ?_⟩, htook, fun h => by rw [hnone h]⟩
  · dsimp only
    rw [hlines]
    simp only [hdirty]
  · rw [hcopies] at hc
    have ht := (List.mem_filter.mp hc).2
    rintro ⟨hcore, hmask⟩
    rw [hcore, hmask, beq_self_eq_true] at ht
    cases ht
  · rw [hcopies, hnone h]
    rfl

/-- Which of a core's lines an acquire makes absent. -/
theorem State.acquired_iff {s : State} {core vi lo hi : Nat} {mask : BitVec 16} {l : Line} (hp : l.present = true) :
    (s.acquired core vi lo hi mask l && !s.mem.lineDirty l) = true ↔ l.core = core ∧ lo ≤ 128 * l.line ∧ 128 * l.line < hi ∧
      l.mapped.any (fun va => mask.getLsbD ((s.viOf vi).regionOf va).toNat) = true ∧ ∀ r ∈ s.mem.regs, ¬(r.owner = ⟨.stash, l.core⟩ ∧ alignDown r.pa 128 = l.pa) := by
  have hclean : s.mem.lineDirty l = false ↔ ∀ r ∈ s.mem.regs, ¬(r.owner = ⟨.stash, l.core⟩ ∧ alignDown r.pa 128 = l.pa) := by
    simp only [Mem.lineDirty, Mem.dirtyWords, Bool.not_eq_false', List.isEmpty_iff, List.map_eq_nil_iff, List.filter_eq_nil_iff, Bool.and_eq_true,
      decide_eq_true_eq, beq_iff_eq]
  rw [← hclean]
  simp only [State.acquired, hp, Bool.and_true, Bool.and_eq_true, Bool.not_eq_true', beq_iff_eq, decide_eq_true_eq, and_assoc]

theorem Line.absent_eq {l : Line} (h : l.present = false) : { l with present := false } = l := by
  cases l
  cases h
  rfl

/-- The lines after an acquire. -/
theorem State.line?_acquire (s : State) (core vi lo hi : Nat) (mask : BitVec 16) (c n : Nat) :
    (s.acquire core vi lo hi mask).mem.line? c n = (s.mem.line? c n).map (fun l =>
      if c = core ∧ lo ≤ 128 * n ∧ 128 * n < hi ∧ l.mapped.any (fun va => mask.getLsbD ((s.viOf vi).regionOf va).toNat) = true ∧
        (∀ r ∈ s.mem.regs, ¬(r.owner = ⟨.stash, c⟩ ∧ alignDown r.pa 128 = l.pa)) then { l with present := false } else l) := by
  obtain ⟨-, ⟨m, -, hmem, -⟩, -⟩ := s.acquire_spec core vi lo hi mask
  rw [hmem, Mem.line?, Mem.line?]
  dsimp only
  rw [modWhere, List.find?_map]
  have hkey : ((fun l : Line => l.core == c && l.line == n) ∘ fun l => if (s.acquired core vi lo hi mask l && !s.mem.lineDirty l) = true then { l with present := false } else l) =
      fun l : Line => l.core == c && l.line == n := funext fun l => by
    rw [Function.comp_apply]
    split <;> rfl
  rw [hkey]
  cases hl : s.mem.lines.find? (fun l => l.core == c && l.line == n) with
  | none => rfl
  | some l =>
    have hat := List.find?_some hl
    simp only [Bool.and_eq_true, beq_iff_eq] at hat
    obtain ⟨rfl, rfl⟩ := hat
    rw [Option.map_some, Option.map_some]
    refine congrArg some ?_
    cases hp : l.present with
    | true => exact if_congr (State.acquired_iff hp) rfl rfl
    | false => rw [Line.absent_eq hp, ite_self, ite_self]

/-- The memory and arrays that ACQ leaves: those of an acquire, where it drops anything. -/
theorem exec_acq_eq {g : Guard} {sc : Scope} {mask : BitVec 16} {s : State} {x : Ctx} (hx : Runs (.acq g sc mask) (fun _ => []) s x) (horder : x.orderWaits true = false) :
    exec (.acq g sc mask) s = .next ((if x.any = true ∧ ¬(sc = .grp ∧ x.t.paired = false)
      then s.acquire x.g.core x.t.vi (x.g.seg 1).1.toNat ((x.g.seg 1).1.toNat + (x.g.seg 1).2.toNat) mask else s).modGroup x.g.gid Group.advance) := by
  have hs := ctxOf_state hx.1
  subst hs
  have hexec : exec (.acq g sc mask) x.s = issue (.acq g sc mask) noDyn (fun _ => [])
    (fun y => if !y.any then .ok y.s else if y.orderWaits true then y.again else .ok (y.s.acquireBy y.g y.t sc mask)) x.s := rfl
  refine exec_of_ok hexec hx rfl ?_ noInd_nil
  rw [horder, State.acquireBy]
  cases x.any
  · simp only [Bool.not_false, if_true, Bool.false_eq_true, false_and, if_false]
  · simp only [Bool.not_true, Bool.false_eq_true, if_false, Bool.not_eq_true', true_and, ite_not]

/-- Settles O23. -/
theorem fences : Obligations.Fences := by
  unfold Obligations.Fences
  refine ⟨fun g sc s x hx hany hreds hsent horder => ⟨_, exec_rel_of_quiet hx hany hreds hsent horder, x.releaseMem_spec sc⟩,
    fun g sc ud s x hx hany hreds hheld hsent horder => ⟨_, ?_, x.releaseMem_spec sc⟩, fun g sc mask s x hx horder => ?_⟩
  · have hfence := exec_fence_of_quiet hx hany hreds hheld hsent horder
    cases sc <;> exact hfence
  · rw [exec_acq_eq hx horder]
    by_cases hdrops : x.any = true ∧ ¬(sc = .grp ∧ x.t.paired = false)
    · obtain ⟨hframe, ⟨m, hm, hmem, hcopies, hkept⟩, htook, hall⟩ :=
        s.acquire_spec x.g.core x.t.vi (x.g.seg 1).1.toNat ((x.g.seg 1).1.toNat + (x.g.seg 1).2.toNat) mask
      have hline := s.line?_acquire x.g.core x.t.vi (x.g.seg 1).1.toNat ((x.g.seg 1).1.toNat + (x.g.seg 1).2.toNat) mask
      rw [if_pos hdrops]
      generalize s.acquire x.g.core x.t.vi (x.g.seg 1).1.toNat ((x.g.seg 1).1.toNat + (x.g.seg 1).2.toNat) mask = u at hframe hmem htook hall hline ⊢
      have hbyte : ∀ pa, u.mem.byte pa = s.mem.byte pa := fun pa => by
        rw [hmem]
        exact hm.byte pa
      have hcop : u.mem.copies = m.copies := by rw [hmem]
      refine ⟨u.mem, u.arrays, by rw [hframe]; rfl, ?_, hbyte, htook, fun c hc => ?_, fun h => ?_, fun c n => ?_⟩
      · rw [hmem, hm.frame]
      · rw [hcop] at hc
        exact ⟨hm.copies c hc, fun _ => hcopies c hc⟩
      · have hp := h.resolve_right fun hn => hn hdrops
        exact ⟨hall hp, by rw [if_pos hdrops, hcop, hkept hp]⟩
      · rw [hline]
        refine congrArg (Option.map · _) (funext fun l => if_congr ?_ rfl rfl)
        exact ⟨fun h => ⟨hdrops, h⟩, fun h => h.2⟩
    · rw [if_neg hdrops]
      refine ⟨s.mem, s.arrays, rfl, rfl, fun _ => rfl, rfl, fun c hc => ⟨hc, fun h => absurd h hdrops⟩, fun _ => ⟨rfl, by rw [if_neg hdrops]⟩, fun c n => ?_⟩
      simp only [hdrops, false_and, if_false, Option.map_id']

end Sys2Proof.Machine
end

section
/-! ST through a line that two dies share (R185, R188, R274). -/
namespace Sys2Proof.Machine

/-- The fields of ST of v2 and v3 to the place that v0 and v1 name in the stash, in every lane. -/
def storeArgs : LArgs := ⟨0, 1, false, false, 0, 2⟩

/-- ST.b64 of v2 and v3 to the place that v0 and v1 name in the stash, in every lane. -/
def storeToStash : Instr := .st .always .b64 storeArgs

/-- The stash's first line is mapped to the last word of die 0, to which the first word of die 1 follows; the link of these dies is dead; lane 0 stores 1
and every other lane 0. -/
def storeAcrossDies : State :=
  { (issuing storeToStash).mapGroups (fun g => g.vset 2 0 1) with fabric := atomAcrossDies.fabric, mem := atomAcrossDies.mem }

/-- What the second part of O15 asks of the context, here. -/
abbrev Ctx.storePremises (x : Ctx) : Prop :=
  x.segFault 1 8 true false (x.accs storeArgs) = none ∧ x.accs storeArgs ≠ [] ∧
  (∀ a ∈ x.accs storeArgs, x.accLines 8 a = [0] ∧ x.s.stashLost x.g.core (x.stashOff a) 8 = none) ∧
  x.s.mem.present x.g.core 0 = true ∧ (∀ r ∈ x.s.mem.lines, r.core = x.g.core → r.line = 0 → x.s.mem.line? x.g.core 0 = some r ∧ r.repl = false) ∧
  x.behind 8 (x.accs storeArgs) = false ∧ x.s.lensPending x.g.core 0 = false ∧ x.orderWaits false = false ∧ x.s.mem.posted = [] ∧ x.s.mem.reds = [] ∧
  x.l.race = false ∧ x.mappedStored storeArgs 8 (2 ^ 37 - 4) = some 0

/-- Refutes O15: a line may be mapped across the end of a die, to a die with a dead path. The first lane's store then registers a word there, by which the
home is out of reach of the others, which are lost: the first lane's byte stays, not the last one's. -/
theorem not_stashLines : ¬ Obligations.StashLines := by
  unfold Obligations.StashLines
  rintro ⟨-, hstore, -⟩
  obtain ⟨x, hx, hfacts⟩ := runs_of_readyWith (s := storeAcrossDies) (i := storeToStash) (nms := fun _ => [dataName storeArgs (vregsOf 8) true, addrName storeArgs])
    (ok := fun x => decide x.storePremises) (by decide +kernel)
  obtain ⟨hinside, hsome, haccs, hpresent, hone, hbehind, hlens, horder, hposted, hreds, hrace, hlast⟩ := of_decide_eq_true hfacts
  have hline : ∀ a ∈ x.accs storeArgs, ∀ ln ∈ x.accLines 8 a, ln = 0 := fun a ha ln hln => by
    rwa [(haccs a ha).1, List.mem_singleton] at hln
  have hreach : x.ReachesLines storeArgs 8 true true :=
    { segment := rfl, inside := hinside, some' := hsome
      present := fun a ha ln hln => by rwa [hline a ha ln hln]
      one := fun a ha ln hln => by rwa [hline a ha ln hln]
      reach := fun a ha => (haccs a ha).2, inOrder := hbehind
      lens := fun _ a ha ln hln => by rwa [hline a ha ln hln]
      clean := fun h => by cases h
      order := horder, noRace := fun _ h => by rw [hrace] at h; cases h
      posted := by rw [hposted]; exact fun q hq => by cases hq }
  obtain ⟨t, ht, -, hbytes, -⟩ := hstore storeToStash storeArgs 8 true (.inr (.inr (.inl ⟨_, .b64, rfl, rfl, rfl, rfl⟩))) _ x hx hreach
    (by rw [Ctx.noReds, hreds]; exact fun q hq => by cases hq) (fun g sz sc h => by cases h)
  have hall : t.mem.byte (2 ^ 37 - 4) = 0 := by rw [hbytes, hlast, Option.getD_some]
  have hdone : nextMeets (exec storeToStash storeAcrossDies) (fun t => t.mem.byte (2 ^ 37 - 4) == 1) = true := by decide +kernel
  rw [ht, nextMeets, hall] at hdone
  exact absurd hdone (by decide)

end Sys2Proof.Machine
end

section
/-! Matrix instructions at issue (R217 to R232). -/
namespace Sys2Proof.Machine

theorem Ctx.entry_eq (x : Ctx) (kind : ArrKind) (cores : List Nat) (acc : BitVec 3) : x.entry kind cores acc false = x.arrayEntry kind cores acc := rfl

/-- MAPSET (R221). -/
theorem exec_mapset_ready {g : Guard} {sn : BitVec 6} {ta : BitVec 4} {s : State} {x : Ctx}
    (hx : Runs (.mapset g sn ta) (fun _ => [⟨0, .tile ta.toNat, false⟩, ⟨1, .op (.s sn) 2, true⟩]) s x) (hu : x.mayUseArray) :
    exec (.mapset g sn ta) s = .next ((s.modTask x.t.uid (fun t => { t with
      tiles := t.tiles.set ta.toNat (x.g.sget (sn.toNat + 1) ++ x.g.sget sn.toNat)
      tileErr := t.tileErr.filter (· != ta.toNat) })).modGroup x.g.gid Group.advance) := by
  have hs := ctxOf_state hx.1
  subst hs
  obtain ⟨hslaved, hany⟩ := hu
  have hexec : exec (.mapset g sn ta) x.s = issue (.mapset g sn ta) noDyn (fun _ => [⟨0, .tile ta.toNat, false⟩, ⟨1, .op (.s sn) 2, true⟩]) (fun y =>
      if y.s.slaved y.g.core then y.again
      else if !y.any then .ok y.s
      else .ok (y.s.modTask y.t.uid (fun t => { t with
        tiles := t.tiles.set ta.toNat (y.g.sget (sn.toNat + 1) ++ y.g.sget sn.toNat), tileErr := t.tileErr.filter (· != ta.toNat) }))) x.s := rfl
  refine exec_of_ok hexec hx rfl ?_ fun o ho => by
    rw [List.mem_singleton.mp ho]
    rfl
  rw [hslaved, hany]
  rfl

/-- An operation that may go on asks for its place and its token (R225). -/
theorem Ctx.mma_ready {x : Ctx} {sparse p z : Bool} {words : List Word} {tb ta : BitVec 4} {acc : BitVec 3} (hu : x.mayUseArray)
    (ha : x.t.tileErr.contains ta.toNat = false) (hb : x.t.tileErr.contains tb.toNat = false) (hf : x.mmaFault p sparse ta tb words = none) :
    x.mma sparse p z words tb ta acc = x.startMma sparse p z words tb ta acc := by
  obtain ⟨hslaved, hany⟩ := hu
  rw [Ctx.mma, hslaved, hany, ha, hb, hf]
  rfl

/-- The entry of an MMA or MMAS. -/
def Ctx.mmaEntry (x : Ctx) (sparse p z : Bool) (words : List Word) (tb ta : BitVec 4) (acc : BitVec 3) : ArrEntry :=
  { x.arrayEntry (if sparse then .mmas else .mma) (if p then x.t.cores else [x.g.core]) acc with
    z := z, mapA := x.t.tiles.get ta.toNat, mapB := x.t.tiles.get tb.toNat
    slotA := x.l.slots.getD (omapOf (x.t.tiles.get ta.toNat)).slot 0, slotB := x.l.slots.getD (omapOf (x.t.tiles.get tb.toNat)).slot 0
    segBase := (if p then x.t.cores else [x.g.core]).map (fun c => (c, (x.segOn c).1)), metaWords := words }

theorem Ctx.startMma_eq (x : Ctx) (sparse p z : Bool) (words : List Word) (tb ta : BitVec 4) (acc : BitVec 3) :
    x.startMma sparse p z words tb ta acc = .hold ({ x.s with nextId := x.s.nextId + 1 }.askArray (x.mmaEntry sparse p z words tb ta acc)) := rfl

theorem State.askArray_room {s : State} {e : ArrEntry} (h : s.arrayRoom e = true) : s.askArray e =
    { s with arrays := s.arrays ++ [{ e with stage := .token }] }.modGroup e.gid (fun g => { g with hold := .array { e with stage := .token } }) := by
  rw [State.askArray, if_pos h]

theorem State.askArray_full {s : State} {e : ArrEntry} (h : s.arrayRoom e = false) :
    s.askArray e = s.modGroup e.gid (fun g => { g with hold := .array { e with stage := .room } }) := by
  rw [State.askArray, h]
  rfl

/-- A group waits with its operation: in its arrays for a token, or for room in them. -/
theorem exec_of_startMma {i : Instr} {dyn : Ctx → Option Nat} {nms : Ctx → List Named} {body : Ctx → Res} {s : State} {x : Ctx} {sparse p z : Bool}
    {words : List Word} {tb ta : BitVec 4} {acc : BitVec 3} (hexec : exec i s = issueDyn i dyn nms body s) (hx : Runs i nms s x) (hd : dyn x = none)
    (hb : body x = x.startMma sparse p z words tb ta acc) :
    let e := x.mmaEntry sparse p z words tb ta acc
    (s.arrayRoom e = true → exec i s = .next ({ s with nextId := s.nextId + 1, arrays := s.arrays ++ [{ e with stage := .token }] }.modGroup
      x.g.gid (fun g => { g with hold := .array { e with stage := .token } }))) ∧
    (s.arrayRoom e = false → exec i s = .next ({ s with nextId := s.nextId + 1 }.modGroup x.g.gid (fun g => { g with hold := .array { e with stage := .room } }))) := by
  have hs := ctxOf_state hx.1
  subst hs
  intro e
  rw [exec_of_hold hexec hx hd (hb.trans (x.startMma_eq sparse p z words tb ta acc))]
  exact ⟨fun h => congrArg Host.Outcome.next (State.askArray_room (s := { x.s with nextId := x.s.nextId + 1 }) h),
    fun h => congrArg Host.Outcome.next (State.askArray_full (s := { x.s with nextId := x.s.nextId + 1 }) h)⟩

/-- MZERO (R229). -/
theorem exec_mzero_ready {g : Guard} {p : Bool} {acc : BitVec 3} {s : State} {x : Ctx} (hx : Runs (.mzero g p acc) (fun _ => [⟨0, .acc acc.toNat, false⟩]) s x)
    (hu : x.mayUseArray) (hp : x.pairBad p = false) :
    exec (.mzero g p acc) s = .next ({ s with
      nextId := s.nextId + 1
      arrays := s.arrays ++ [x.arrayEntry .mzero (if p = true then x.t.cores else [x.g.core]) acc] }.modGroup x.g.gid Group.advance) := by
  have hs := ctxOf_state hx.1
  subst hs
  obtain ⟨hslaved, hany⟩ := hu
  have hexec : exec (.mzero g p acc) x.s = issue (.mzero g p acc) noDyn (fun _ => [⟨0, .acc acc.toNat, false⟩]) (fun y =>
      if y.s.slaved y.g.core then y.again
      else if !y.any then .ok y.s
      else if y.pairBad p then .trap (y.matrixTrap 4 acc.toNat y.g.core)
      else .ok (y.enter (y.entry .mzero (y.opCores p) acc false))) x.s := rfl
  refine exec_of_ok (t := x.enter (x.entry .mzero (x.opCores p) acc false)) hexec hx rfl ?_ fun o ho => by cases ho
  rw [hslaved, hany, hp]
  rfl

theorem noInd_readNames {r : RArgs} {cnt : Nat} {rd : Bool} : ∀ o ∈ namedOps (readNames r cnt rd), o.isInd = false := by
  intro o ho
  simp only [namedOps, readNames, List.filterMap_cons, List.filterMap_nil, List.mem_cons, List.not_mem_nil, or_false] at ho
  rcases ho with rfl | rfl <;> rfl

/-- A readout (R230). -/
theorem exec_accrd_ready {i : Instr} {form cnt : Nat} {r : RArgs} {s : State} {x : Ctx} {row col : Nat} (hi : exec i s = accrd i form r s)
    (hcnt : cnt = if form = 1 then 2 * (r.n1.toNat + 1) else r.n1.toNat + 1) (hx : Runs i (fun _ => readNames r cnt false) s x) (hu : x.mayUseArray)
    (ho : x.origin r = some (row, col))
    (hp : ∀ j < r.n1.toNat + 1, ∀ l ∈ x.lanes, (x.t.queued s.arrays x.g.core (x.t.coreSel x.g.core)).accPoison.contains
      (accKey (x.t.coreSel x.g.core) r.acc.toNat (row + j) (col + l)) = false) :
    exec i s = .next ({ s with
      nextId := s.nextId + 2
      arrays := s.arrays ++ [x.arrayEntry (.accrd form row col (r.n1.toNat + 1) r.v.toNat x.act) [x.g.core] r.acc] }.modGroup x.g.gid
        (fun g => Group.advance { g with
          outs := g.outs ++ [(⟨s.nextId + 1, (List.range cnt).map (fun j => .v (r.v.toNat + j)), false, [], 0, .array s.nextId⟩ : Pend)] })) := by
  have hs := ctxOf_state hx.1
  subst hs
  obtain ⟨hslaved, hany⟩ := hu
  have hread : (x.t.queued x.s.arrays x.g.core (x.t.coreSel x.g.core)).readPoison (x.t.coreSel x.g.core) r.acc.toNat row col (r.n1.toNat + 1) x.lanes = false := by
    simp only [Task.readPoison, List.any_eq_false, Bool.not_eq_true]
    exact fun j hj => hp j (List.mem_range.mp hj)
  have hpos : (List.range cnt).map (fun j => RegName.v (r.v.toNat + j)) ≠ [] := by
    rw [Ne, List.map_eq_nil_iff, List.range_eq_nil, hcnt]
    split <;> omega
  subst hcnt
  refine exec_of_outstanding (t := x.enter (x.entry (.accrd form row col (r.n1.toNat + 1) r.v.toNat x.act) [x.g.core] r.acc false)) hi hx rfl ?_ hpos noInd_readNames
  simp only [hslaved, hany, ho, hread, Bool.false_eq_true, if_false, Bool.not_true]
  rfl

/-- A write of accumulator values (R230). -/
theorem exec_accwr_ready {i : Instr} {i32 : Bool} {r : RArgs} {s : State} {x : Ctx} {row col : Nat} (hi : exec i s = accwr i i32 r s)
    (hx : Runs i (fun _ => readNames r (r.n1.toNat + 1) true) s x) (hu : x.mayUseArray) (ho : x.origin r = some (row, col)) :
    exec i s = .next ({ s with
      nextId := s.nextId + 1
      arrays := s.arrays ++ [x.arrayEntry (.accwr i32 row col ((List.range (r.n1.toNat + 1)).flatMap (fun j =>
        x.lanes.map (fun l => (j, l, x.g.vget (r.v.toNat + j) l))))) [x.g.core] r.acc] }.modGroup x.g.gid Group.advance) := by
  have hs := ctxOf_state hx.1
  subst hs
  obtain ⟨hslaved, hany⟩ := hu
  refine exec_of_ok (t := x.enter (x.entry (.accwr i32 row col ((List.range (r.n1.toNat + 1)).flatMap (fun j =>
    x.lanes.map (fun l => (j, l, x.g.vget (r.v.toNat + j) l))))) [x.g.core] r.acc false)) hi hx rfl ?_ noInd_readNames
  simp only [hslaved, hany, ho, Bool.false_eq_true, if_false, Bool.not_true]

/-- MSTAT (R231). -/
theorem exec_mstat_ready {g : Guard} {clr : Bool} {sd : BitVec 6} {acc : BitVec 3} {s : State} {x : Ctx}
    (hx : Runs (.mstat g clr sd acc) (fun _ => [⟨0, .op (.s sd) 1, false⟩, ⟨1, .acc acc.toNat, false⟩]) s x) (hu : x.mayUseArray) :
    exec (.mstat g clr sd acc) s = .next ({ s with
      nextId := s.nextId + 2
      arrays := s.arrays ++ [x.arrayEntry (.mstat clr sd.toNat) [x.g.core] acc] }.modGroup x.g.gid (fun g => Group.advance { g with
        outs := g.outs ++ [(⟨s.nextId + 1, [.s sd.toNat], false, [], 0, .array s.nextId⟩ : Pend)] })) := by
  have hs := ctxOf_state hx.1
  subst hs
  obtain ⟨hslaved, hany⟩ := hu
  have hexec : exec (.mstat g clr sd acc) x.s = issue (.mstat g clr sd acc) noDyn (fun _ => [⟨0, .op (.s sd) 1, false⟩, ⟨1, .acc acc.toNat, false⟩]) (fun y =>
      if y.s.slaved y.g.core then y.again
      else if !y.any then .ok y.s
      else .ok (y.outstanding (y.enter (y.entry (.mstat clr sd.toNat) [y.g.core] acc false)) [.s sd.toNat] false [] 0
        (.array (y.entry (.mstat clr sd.toNat) [y.g.core] acc false).key))) x.s := rfl
  refine exec_of_outstanding (t := x.enter (x.entry (.mstat clr sd.toNat) [x.g.core] acc false)) hexec hx rfl ?_ (by simp) fun o ho => by
    rw [List.mem_singleton.mp ho]
    rfl
  rw [hslaved, hany]
  rfl

/-- Settles O28. -/
theorem matrixIssue : Obligations.MatrixIssue := by
  unfold Obligations.MatrixIssue
  refine ⟨fun g sn ta s x => exec_mapset_ready, ?mma, fun g p acc s x => exec_mzero_ready, ?accrd, ?accwr, fun g clr sd acc s x => exec_mstat_ready⟩
  case mma =>
    intro i sparse p z nms words tb ta acc hi s x hx hu ha hb hdyn hf
    rcases hi with ⟨⟨g, rfl⟩, rfl, rfl, rfl⟩ | ⟨g, lsel, v, rfl, rfl, rfl, rfl⟩
    · exact exec_of_startMma rfl hx rfl (Ctx.mma_ready hu ha hb hf)
    · obtain ⟨hwidth, hpast⟩ := hdyn g lsel v rfl
      have hdyn : (decide (x.g.width < 16 * 2 ^ lsel.toNat) || pastV255 v.toNat (x.metaRegs p (16 * 2 ^ lsel.toNat) ta)) = false := by
        rw [hpast, decide_eq_false (Nat.not_lt.mpr hwidth)]
        rfl
      exact exec_of_startMma rfl hx (if_neg (Bool.not_eq_true _ ▸ hdyn)) (Ctx.mma_ready hu ha hb hf)
  case accrd =>
    intro i form r cnt hi s x row col hx hu ho hp
    rcases hi with ⟨⟨g, rfl⟩, rfl, rfl⟩ | ⟨⟨g, rfl⟩, rfl, rfl⟩ | ⟨⟨g, rfl⟩, rfl, rfl⟩
    · exact exec_accrd_ready rfl rfl hx hu ho hp
    · exact exec_accrd_ready rfl rfl hx hu ho hp
    · exact exec_accrd_ready rfl rfl hx hu ho hp
  case accwr =>
    intro i i32 r hi s x row col hx hu ho
    rcases hi with ⟨⟨g, rfl⟩, rfl⟩ | ⟨⟨g, rfl⟩, rfl⟩
    · exact exec_accwr_ready rfl hx hu ho
    · exact exec_accwr_ready rfl hx hu ho

end Sys2Proof.Machine
end

section
/-! BAR where two groups have one number (R45, R203). -/
namespace Sys2Proof.Machine

/-- BAR on barrier 0. -/
def barInstr : Instr := .bar .always 0 .zero

/-- A lane that BAR has parked on barrier 0. -/
def barPark (lane : Nat) : Park := ⟨lane, [0x4000], true, none, none, .none, true, false, false, [], false⟩

/-- A group of the team that is to resume in a clause: lane 0 runs at 300, lanes 1 and 2 are parked at 200 and 250. -/
def Group.resuming (g : Group) : Group :=
  { g with gid := 9, num := 1, clause := none, width := 3, vpc := [(0, 300), (1, 200), (2, 250)], parks := [barPark 1, barPark 2], resumeIssue := some (0, false) }

/-- A second group of the same number, whose lane 1 may wake. -/
def Group.double (g : Group) : Group := { g with gid := 9, num := 1, clause := none, width := 3, parks := [barPark 1] }

/-- Two groups have the number 9, and barrier 0 expects no lane. -/
def barDoubled : State :=
  { issuing barInstr with
    groups := (issuing barInstr).groups.flatMap (fun g => [g, g.resuming, g.double])
    tasks := (issuing barInstr).tasks.map (fun t => { t with barriers := t.barriers.set 0 ⟨true, [], []⟩ }) }

/-- What the first part of O26 asks of the context, here. -/
abbrev Ctx.barPremises (x : Ctx) : Prop :=
  x.any = true ∧ x.s.mem.reds = [] ∧ x.s.mem.posted = [] ∧ x.g.outs.any Pend.isAtom = false ∧ x.orderWaits true = false ∧ x.g.gid ≠ 9 ∧ x.t.uid = 1 ∧
  (((x.t.barriers.mapIdx (fun j b => if j = 0 then b.arrive (barDoubled.teamLive x.t.uid) x.g.num x.act else b)).getD 0 Barrier.idle).complete = true)

/-- A group of team 1 that has a lane parked by a BAR on barrier 0 which may wake. -/
def Group.leftAsleep (h : Group) : Bool :=
  h.task == 1 && h.parks.any (fun p => p.onBar && p.conds.any (fun c => condBarrier c == some 0) && h.wakes p.lane)

/-- Refutes O26: where two groups have one number, which the statement admits, a lane that the second releases is unparked in the first too. The first
group then issues from there, and another of its lanes, which might not wake before, may wake but stays parked. -/
theorem not_barriersAndEvents : ¬ Obligations.BarriersAndEvents := by
  unfold Obligations.BarriersAndEvents
  rintro ⟨hbar, -⟩
  obtain ⟨x, hx, hfacts⟩ := runs_of_readyWith (s := barDoubled) (i := barInstr) (nms := fun _ => namesA .zero []) (ok := fun x => decide x.barPremises) (by decide +kernel)
  obtain ⟨hany, hreds, hposted, houts, horder, hgid, htask, hfull⟩ := of_decide_eq_true hfacts
  have hsent : x.nothingSent .grp := ⟨fun h => (by rcases h with h | h <;> cases h), (by rw [hposted]; exact fun q hq => by cases hq), houts⟩
  obtain ⟨-, hcomplete⟩ := hbar barInstr .always 0 .zero true (.inl ⟨rfl, rfl⟩) _ x hx hany (by rw [Ctx.noReds, hreds]; exact fun q hq => by cases hq) hsent horder
  obtain ⟨t, ht, -, hasleep, -⟩ := hcomplete hfull
  have hleft : nextMeets (exec barInstr barDoubled) (fun t => (t.group? 9).any Group.leftAsleep) = true := by decide +kernel
  rw [ht, nextMeets, Option.any_eq_true] at hleft
  obtain ⟨h, hh, hleft⟩ := hleft
  rw [Group.leftAsleep, Bool.and_eq_true, List.any_eq_true] at hleft
  obtain ⟨htask', p, hp, hwakes⟩ := hleft
  simp only [Bool.and_eq_true, beq_iff_eq] at htask' hwakes
  obtain ⟨⟨hon, hcond⟩, hwakes⟩ := hwakes
  have hsleeps := (hasleep 9 h hh (htask'.trans htask.symm) p hp hon hcond).2
  rw [if_neg (Ne.symm hgid), hwakes] at hsleeps
  cases hsleeps

end Sys2Proof.Machine
end

section
/-! Engine commands at issue (R205 to R211). -/
namespace Sys2Proof.Machine

/-! ### An acquire, and lines that a command reserves -/

/-- A state after an acquire: copies, presence and what the Lens had still to read have changed, and no byte of memory. -/
structure State.acquireStep (t s : State) (core : Nat) : Prop where
  frame : t = { s with mem := t.mem, arrays := t.arrays }
  mem : t.mem = { s.mem with copies := t.mem.copies, lines := t.mem.lines, stash := t.mem.stash, stashPoison := t.mem.stashPoison }
  byte : ∀ pa, t.mem.byte pa = s.mem.byte pa
  took : lensTook s.arrays t.arrays
  arrays : (∀ n, s.lensPending core n = false) → t.arrays = s.arrays

theorem State.acquireStep_refl (s : State) (core : Nat) : s.acquireStep s core := ⟨rfl, rfl, fun _ => rfl, rfl, fun _ => rfl⟩

theorem State.acquireBy_step (s : State) (g : Group) (t : Task) (sc : Scope) (mask : BitVec 16) : (s.acquireBy g t sc mask).acquireStep s g.core := by
  rw [State.acquireBy]
  split
  · exact s.acquireStep_refl g.core
  · obtain ⟨hframe, ⟨m, hm, hmem, -⟩, htook, hall⟩ := s.acquire_spec g.core t.vi (g.seg 1).1.toNat ((g.seg 1).1.toNat + (g.seg 1).2.toNat) mask
    refine ⟨hframe, by rw [hmem, hm.frame], fun pa => ?_, htook, hall⟩
    rw [hmem]
    exact hm.byte pa

theorem Mem.setLine_frame {m n : Mem} (h : m = { n with lines := m.lines }) (l : Line) : m.setLine l = { n with lines := (m.setLine l).lines } :=
  congrArg (fun k : Mem => { k with lines := (m.setLine l).lines }) h

/-- Lines that a command reserves: nothing else of memory changes. -/
theorem State.reserveLines_mem (s : State) (key : Nat) (ls : List (Nat × Nat)) :
    (s.reserveLines key ls).mem = { s.mem with lines := (s.reserveLines key ls).mem.lines } :=
  foldl_keeps (fun m : Mem => m = { s.mem with lines := m.lines }) _ (fun _ _ hm => Mem.setLine_frame hm _) ls s.mem rfl

/-! ### Issue -/

/-- The route string of a command, its walk, and what the read meets depend on neither the groups nor the next number. -/
theorem Cmd.route_congr (c : Cmd) (s : State) (gs : List Group) (n vi ud : Nat) : c.route { s with groups := gs, nextId := n } vi ud = c.route s vi ud := rfl

theorem Cmd.refusedNow_congr (c : Cmd) (s : State) (gs : List Group) (n : Nat) : c.refusedNow { s with groups := gs, nextId := n } = c.refusedNow s := rfl

/-- The state in which a command's counter counts it. -/
def State.counted (s : State) (c : Cmd) : State := { s with nextId := s.nextId + 1 }.modGroup c.gid (fun g => g.counts c.cmp)

theorem Group.counts_gid (g : Group) (cmp : Nat) : (g.counts cmp).gid = g.gid := by
  rw [Group.counts]
  split <;> rfl

theorem State.startCmd_bad {s : State} {c : Cmd} {ud : Nat} {t : Task} {g : Group} (h : c.controlBad ud = true) :
    State.startCmd { s with nextId := s.nextId + 1 } c ud t g = { s.counted c with cmds := s.cmds ++ [{ c with sub := 1, ended := true }] } := by
  rw [State.startCmd]
  simp only [h, if_true]
  rfl

/-- A command whose control is good, with nothing of its group on its way, joins the queue with its deliveries. -/
theorem State.startCmd_good {s : State} {c : Cmd} {ud : Nat} {t : Task} {g : Group} {dl : List Nat} {cut : Bool} (h : c.controlBad ud = false)
    (hreds : ∀ r ∈ s.mem.reds, r.gid ≠ c.gid) (hposted : ∀ q ∈ s.mem.posted, q.gid ≠ c.gid)
    (hroute : (c.op ≠ .cpy ∧ c.op ≠ .stflush ∧ (controlOf c.control.toNat).length ≠ 0) → c.route s t.vi ud = (dl, cut, 0))
    (hnone : ¬(c.op ≠ .cpy ∧ c.op ≠ .stflush ∧ (controlOf c.control.toNat).length ≠ 0) → dl = [] ∧ cut = false) :
    let c1 := { c with deliveries := dl, routeFault := cut }
    let c2 := { c1 with refused := c1.refusedNow s }
    let u := match c2.acq with | some a => (s.counted c).acquireBy g t a.1 a.2 | none => s.counted c
    State.startCmd { s with nextId := s.nextId + 1 } c ud t g = { u with cmds := u.cmds ++ [c2] }.reserveLines c2.key (c2.destLines u) := by
  have hcount : ({ s with nextId := s.nextId + 1 }.modGroup c.gid (fun k => if c.cmp < 6 then { k with e := k.e.set c.cmp (k.e.get c.cmp + 1) } else k)) = s.counted c := rfl
  have hquiet : ((s.counted c).performReds (fun r => r.gid == c.gid)).deliverWhere (fun q => q.gid == c.gid) = s.counted c := by
    rw [State.performReds_none fun r hr => by simp [hreds r hr], State.deliverWhere_none fun q hq => by simp [hposted q hq]]
  have hdl : (if (c.op != .cpy && c.op != .stflush) && (controlOf c.control.toNat).length != 0 then c.route (s.counted c) t.vi ud else ([], false, 0)) = (dl, cut, 0) := by
    by_cases hr : c.op ≠ .cpy ∧ c.op ≠ .stflush ∧ (controlOf c.control.toNat).length ≠ 0
    · rw [if_pos (by simpa [and_assoc] using hr), State.counted, State.modGroup, Cmd.route_congr]
      exact hroute hr
    · rw [if_neg (by simpa [and_assoc] using hr), (hnone hr).1, (hnone hr).2]
  rw [State.startCmd]
  simp only [h, Bool.false_eq_true, if_false, hcount, hquiet, hdl, ne_eq, not_true_eq_false]
  rfl

/-- The issue of an engine command: what its instruction makes of it. -/
theorem commands_of_engine {i : Instr} {nms : List Named} {cmd : Ctx → Cmd} {ud : Ctx → Nat} (hexec : ∀ s, exec i s = issue i noDyn (fun _ => nms) (fun x =>
      if !x.any then .ok x.s
      else if x.orderWaits true then x.again
      else if x.s.engineRoom (cmd x) x.g then .ok ({ x.s with nextId := x.s.nextId + 1 }.startCmd (cmd x) (ud x) x.t x.g)
      else .hold ({ x.s with nextId := x.s.nextId + 1 }.modGroup x.g.gid (fun g => { g with hold := .engine (cmd x) (ud x) }))) s)
    (hgid : ∀ x, (cmd x).gid = x.g.gid) (hind : ∀ o ∈ namedOps nms, o.isInd = false) : Commands i nms cmd ud := by
  intro s x hx hany horder c
  have hs := ctxOf_state hx.1
  subst hs
  have hok : x.s.engineRoom c x.g = true → exec i x.s = .next ((State.startCmd { x.s with nextId := x.s.nextId + 1 } c (ud x) x.t x.g).modGroup x.g.gid Group.advance) := by
    intro hroom
    refine exec_of_ok (hexec x.s) hx rfl ?_ hind
    rw [hany, horder, show x.s.engineRoom (cmd x) x.g = true from hroom]
    rfl
  have hcount : x.s.counted c = { x.s.modGroup x.g.gid (fun g => g.counts c.cmp) with nextId := x.s.nextId + 1 } := by
    rw [State.counted, show c.gid = x.g.gid from hgid x]
    rfl
  refine ⟨fun hroom => ?_, fun hroom hbad => ?_, fun hroom hgood hreds hposted => ?_⟩
  · refine exec_of_hold (hexec x.s) hx rfl ?_
    rw [hany, horder, show x.s.engineRoom (cmd x) x.g = false from hroom]
    rfl
  · rw [hok hroom, State.startCmd_bad hbad, hcount]
    refine congrArg Host.Outcome.next ?_
    exact (State.modGroup_modGroup { x.s with nextId := x.s.nextId + 1, cmds := x.s.cmds ++ [{ c with sub := 1, ended := true }] } x.g.gid
      (fun g => g.counts c.cmp) Group.advance fun k hk => (Group.counts_gid k c.cmp).trans hk)
  · intro routed dl cut hroute hnone c1 c2
    have hstart := State.startCmd_good (t := x.t) (g := x.g) hgood (by rwa [hgid]) (by rwa [hgid]) hroute hnone
    have hstep : (match c2.acq with | some a => (x.s.counted c).acquireBy x.g x.t a.1 a.2 | none => x.s.counted c).acquireStep (x.s.counted c) x.g.core := by
      split
      · exact State.acquireBy_step _ _ _ _ _
      · exact State.acquireStep_refl _ _
    have hnoacq : c.acq = none → (match c2.acq with | some a => (x.s.counted c).acquireBy x.g x.t a.1 a.2 | none => x.s.counted c).arrays = x.s.arrays := fun h => by
      rw [show c2.acq = none from h]
      rfl
    rw [hok hroom, hstart]
    generalize (match c2.acq with | some a => (x.s.counted c).acquireBy x.g x.t a.1 a.2 | none => x.s.counted c) = u at hstep hnoacq ⊢
    have hmem := State.reserveLines_mem { u with cmds := u.cmds ++ [c2] } c2.key (c2.destLines u)
    have hreserve : { u with cmds := u.cmds ++ [c2] }.reserveLines c2.key (c2.destLines u) =
        { u with cmds := u.cmds ++ [c2], mem := ({ u with cmds := u.cmds ++ [c2] }.reserveLines c2.key (c2.destLines u)).mem } := rfl
    rw [hreserve]
    generalize ({ u with cmds := u.cmds ++ [c2] }.reserveLines c2.key (c2.destLines u)).mem = m at hmem
    rw [hcount] at hstep
    obtain ⟨hframe, hm, hbyte, htook, hall⟩ := hstep
    refine ⟨m, u.arrays, congrArg Host.Outcome.next ?_, ?_, fun pa => ?_, htook, fun h => h.elim hnoacq hall⟩
    · have hmore := congrArg (fun v : State => { v with cmds := v.cmds ++ [c2], mem := m }.modGroup x.g.gid Group.advance) hframe
      exact hmore.trans (State.modGroup_modGroup { x.s with nextId := x.s.nextId + 1, cmds := x.s.cmds ++ [c2], mem := m, arrays := u.arrays } x.g.gid
        (fun g => g.counts c.cmp) Group.advance fun k hk => (Group.counts_gid k c.cmp).trans hk)
    · rw [hmem]
      exact congrArg (fun k : Mem => { k with lines := m.lines }) hm
    · refine Eq.trans ?_ (hbyte pa)
      rw [hmem]
      rfl

/-- Uniform operands are named directly. -/
theorem noInd_of_uNames {l : List Named} (h : ∀ nm ∈ l, ∃ k n, nm = uName k n) : ∀ o ∈ namedOps l, o.isInd = false := by
  intro o ho
  obtain ⟨nm, hnm, ho⟩ := List.mem_filterMap.mp ho
  obtain ⟨k, n, rfl⟩ := h nm hnm
  cases ho
  rfl

theorem noInd_yNames (y : YArgs) (ud : Bool) : ∀ o ∈ namedOps (yNames y ud), o.isInd = false :=
  noInd_of_uNames fun nm hnm => by
    cases ud <;> simp only [yNames, if_true, Bool.false_eq_true, if_false, List.append_nil, List.cons_append, List.nil_append, List.mem_cons, List.not_mem_nil,
      or_false] at hnm
    · rcases hnm with rfl | rfl | rfl <;> exact ⟨_, _, rfl⟩
    · rcases hnm with rfl | rfl | rfl | rfl <;> exact ⟨_, _, rfl⟩

/-- Settles O27. -/
theorem engineCommands : Obligations.EngineCommands := by
  unfold Obligations.EngineCommands
  exact ⟨fun g rel cmp ub ua => commands_of_engine (fun _ => rfl) (fun _ => rfl) (noInd_of_uNames fun nm hnm => by
      simp only [List.mem_cons, List.not_mem_nil, or_false] at hnm
      rcases hnm with rfl | rfl <;> exact ⟨_, _, rfl⟩),
    fun g y => commands_of_engine (fun _ => rfl) (fun _ => rfl) (noInd_yNames y false), fun g y => commands_of_engine (fun _ => rfl) (fun _ => rfl) (noInd_yNames y true),
    fun g y => commands_of_engine (fun _ => rfl) (fun _ => rfl) (noInd_yNames y true), fun g y => commands_of_engine (fun _ => rfl) (fun _ => rfl) (noInd_yNames y true)⟩

end Sys2Proof.Machine
end

section
/-! States that differ in memory and in what monitors have seen of it; loads and stores through unmapped lines of the stash (R185, R188, R189). -/
namespace Sys2Proof.Machine

/-! ### Beside memory -/

theorem foldl_fixed {α β : Type} {f : β → α → β} {l : List α} {b : β} (h : ∀ a ∈ l, f b a = b) : l.foldl f b = b := by
  induction l with
  | nil => rfl
  | cons a r ih =>
    rw [List.foldl_cons, h a List.mem_cons_self]
    exact ih fun c hc => h c (List.mem_cons_of_mem _ hc)

theorem sameButMonitors_refl (l : List Group) : sameButMonitors l l := by
  induction l with
  | nil => exact .nil
  | cons g r ih => exact .cons rfl ih

theorem sameButMonitors_trans {a b c : List Group} (h : sameButMonitors a b) (h' : sameButMonitors b c) : sameButMonitors a c := by
  induction h generalizing c with
  | nil => exact h'
  | cons hg _ ih =>
    cases h' with
    | cons hg' hr' => exact .cons (by rw [hg, hg']) (ih hr')

/-- Each group changed in its monitors alone. -/
theorem sameButMonitors_map {l : List Group} {f : Group → Group} (h : ∀ g, f g = { g with mon := (f g).mon }) : sameButMonitors (l.map f) l := by
  induction l with
  | nil => exact .nil
  | cons g r ih => exact .cons (h g) ih

/-- One group changed alike on both sides, without regard to its monitors. -/
theorem sameButMonitors_modWhere {a b : List Group} (h : sameButMonitors a b) (gid : Nat) {f : Group → Group}
    (hf : ∀ (g : Group) m, f { g with mon := m } = { f g with mon := (f { g with mon := m }).mon }) :
    sameButMonitors (modWhere a (fun g => g.gid == gid) f) (modWhere b (fun g => g.gid == gid) f) := by
  induction h with
  | nil => exact .nil
  | @cons g k _ _ hg _ ih =>
    refine .cons ?_ ih
    generalize g.mon = m at hg
    subst hg
    dsimp only
    split
    · exact hf k m
    · rfl

theorem State.besideMemory_refl (s : State) : s.besideMemory s := ⟨rfl, sameButMonitors_refl _⟩

theorem State.besideMemory_mem (s : State) (m : Mem) : ({ s with mem := m } : State).besideMemory s := ⟨rfl, sameButMonitors_refl _⟩

theorem State.besideMemory_trans {u t s : State} (h : u.besideMemory t) (h' : t.besideMemory s) : u.besideMemory s :=
  ⟨h.1.trans (by rw [h'.1]), sameButMonitors_trans h.2 h'.2⟩

theorem State.besideMemory_foldl {α : Type} {f : State → α → State} {l : List α} (h : ∀ t, ∀ a ∈ l, (f t a).besideMemory t) (s : State) :
    (l.foldl f s).besideMemory s := by
  induction l generalizing s with
  | nil => exact s.besideMemory_refl
  | cons a r ih =>
    exact State.besideMemory_trans (ih (fun t b hb => h t b (List.mem_cons_of_mem _ hb)) (f s a)) (h s a List.mem_cons_self)

theorem State.watch_besideMemory (s : State) (pw : Nat) : (s.watch pw).besideMemory s :=
  ⟨rfl, sameButMonitors_map fun g => by split <;> rfl⟩

theorem State.watchStash_besideMemory (s : State) (k : Nat) : (s.watchStash k).besideMemory s :=
  ⟨rfl, sameButMonitors_map fun g => by split <;> rfl⟩

/-- The step to the next word of a clause does not look at the monitors. -/
theorem Group.advance_mon (g : Group) (m : List Monitor) :
    Group.advance { g with mon := m } = { g.advance with mon := (Group.advance { g with mon := m }).mon } := by
  unfold Group.advance Group.endClause
  dsimp only
  split
  · rfl
  · split
    · rfl
    · split <;> rfl

/-- Both groups go on. -/
theorem State.besideMemory_advance {t s : State} (h : t.besideMemory s) (gid : Nat) :
    (t.modGroup gid Group.advance).besideMemory (s.modGroup gid Group.advance) :=
  ⟨by rw [State.modGroup, h.1]; rfl, sameButMonitors_modWhere h.2 gid Group.advance_mon⟩

/-! ### Unmapped lines -/

/-- Nothing of a range is mapped: what the group posted before meets none of it. -/
theorem State.redsAlias_of_none {s : State} {gid key core off n : Nat} (h : ∀ i < n, s.mem.mappedAt core (off + i) = none) :
    s.redsAlias gid key core off n = s := by
  have hmeets : ∀ pa len : Nat, ((List.range n).any (fun i =>
      match s.mem.mappedAt core (off + i) with
      | some (l, _) => !l.repl && overlap pa len (l.pa + (off + i) % 128) 1
      | none => false)) = false := by
    intro pa len
    rw [List.any_eq_false]
    intro i hi
    rw [h i (List.mem_range.mp hi)]
    exact Bool.false_ne_true
  unfold State.redsAlias
  dsimp only
  rw [State.performReds_none fun r _ => by rw [Bool.and_eq_false_iff]; exact .inr (hmeets _ _)]
  exact State.deliverWhere_none fun q _ => by rw [Bool.and_eq_false_iff]; exact .inr (hmeets _ _)

/-- A race needs a mapped word. -/
theorem Ctx.stashParts_of_none {x : Ctx} {n : Nat} {accs : List Acc} (h : ∀ a ∈ accs, ∀ i < n, x.s.mem.mappedAt x.g.core (x.stashOff a + i) = none) :
    x.stashParts n accs = [] := by
  unfold Ctx.stashParts
  rw [List.flatMap_eq_nil_iff]
  intro a ha
  rw [List.filterMap_eq_nil_iff]
  intro i hi
  rw [h a ha i (List.mem_range.mp hi)]

theorem raceTrap_nil (s : State) (gid : Nat) (ag : Agent) (store : Bool) : raceTrap s gid ag store [] = none := rfl

/-- The words of a range lie in its lines. -/
theorem wordParts_line {off : Nat} {bs : List Byte} {p : Nat × BitVec 4 × Word} (hp : p ∈ wordParts off bs) : p.1 / 128 ∈ linesOf off bs.length := by
  rw [wordParts_eq] at hp
  obtain ⟨j, hj, rfl⟩ := List.mem_map.mp hp
  have hj := List.mem_range.mp hj
  have hpw : (partAt off bs j).1 = wordOf off + 4 * j := rfl
  rw [hpw]
  unfold wordOf
  exact List.mem_map.mpr ⟨(off / 4 * 4 + 4 * j) / 128 - off / 128, List.mem_range.mpr (by omega), by omega⟩

/-- A read of unmapped lines gives the stash's bytes and changes nothing. -/
theorem State.stashRead_of_none {s : State} {plain : Bool} {core : Nat} {all : List StashRange} {off n : Nat}
    (h : ∀ ln ∈ linesOf off n, s.mem.line? core ln = none) : s.stashRead plain core all off n = (s, s.mem.stashBytes core off n) := by
  have hbs : (List.range n).map (fun i => s.stashByte plain core all (off + i)) = s.mem.stashBytes core off n :=
    List.map_congr_left fun i hi => by rw [State.stashByte, Mem.mappedAt_of_none (h _ (mem_linesOf (List.mem_range.mp hi)))]
  have hlen : (s.mem.stashBytes core off n).length = n := by rw [Mem.stashBytes, List.length_map, List.length_range]
  unfold State.stashRead
  rw [hbs]
  dsimp only
  rw [foldl_fixed]
  intro p hp
  rw [Mem.mappedAt_of_none (h _ (hlen ▸ wordParts_line hp))]

/-- A write of unmapped lines leaves its bytes in the stash. -/
theorem State.stashWrite_of_none {s : State} {gid : Nat} {plain : Bool} {core off : Nat} {bs : List Byte}
    (h : ∀ ln ∈ linesOf off bs.length, s.mem.line? core ln = none) :
    (s.stashWrite gid plain core off bs).besideMemory s ∧ (s.stashWrite gid plain core off bs).mem = s.mem.putStash core off bs := by
  rw [State.stashWrite, State.stashLost_of_none h]
  dsimp only
  refine List.foldlRecOn (motive := fun t : State => t.besideMemory s ∧ t.mem = s.mem.putStash core off bs) _ _ ⟨s.besideMemory_mem _, rfl⟩ ?_
  rintro t ⟨hbeside, hmem⟩ p hp
  have hline : p.1 / 128 ∈ linesOf off bs.length := by
    obtain ⟨ln, hln, rfl⟩ := List.mem_map.mp hp
    obtain ⟨j, hj, rfl⟩ := List.mem_map.mp hln
    have hj := List.mem_range.mp hj
    exact List.mem_map.mpr ⟨j, List.mem_range.mpr hj, by dsimp only; omega⟩
  have hmapped : t.mem.mappedAt core p.1 = none := Mem.mappedAt_of_none (by rw [hmem]; exact h _ hline)
  rw [hmapped]
  dsimp only
  refine ⟨State.besideMemory_trans (State.besideMemory_foldl (fun u _ _ => u.watchStash_besideMemory _) t) hbeside, ?_⟩
  rw [State.watchesStash_mem]
  exact hmem

/-! ### Loads and stores of the S segment -/

/-- A load names the registers it fills. -/
theorem LoadForm.names_ne_nil (f : LoadForm) : f.names ≠ [] := by
  have hpos : 0 < vregsOf f.bytes := by unfold vregsOf; split <;> omega
  unfold LoadForm.names
  split
  · exact List.cons_ne_nil _ _
  · rw [ne_eq, List.map_eq_nil_iff, List.range_eq_nil]
    omega

/-- Through unmapped lines no access acts as an acquire or a release. -/
theorem Ctx.syncs_of_none {x : Ctx} {n : Nat} {accs : List Acc} (h : ∀ a ∈ accs, ∀ ln ∈ x.accLines n a, x.s.mem.line? x.g.core ln = none) :
    x.syncs 1 n accs = false := by
  have hany : accs.any (fun a => (x.accLines n a).any (fun ln => (x.s.mem.lineOf x.g.core ln).mapped.isSome)) = false := by
    rw [List.any_eq_false]
    intro a ha
    rw [Bool.not_eq_true, List.any_eq_false]
    intro ln hln
    rw [Mem.lineOf, h a ha ln hln]
    exact Bool.false_ne_true
  rw [Ctx.syncs, hany]
  rfl

/-- Nothing older of a group waits for the lines, and they are present: all accesses are made now. -/
theorem Ctx.here_of_present {x : Ctx} {lines : Acc → List Nat} {accs : List Acc} (h : ∀ a ∈ accs, ∀ ln ∈ lines a, x.s.mem.present x.g.core ln = true) :
    x.here lines accs = (accs, []) := by
  have hall : ∀ now : List Acc, accs.foldl (fun (acc : List Acc × List Acc × List Nat) a =>
      if (lines a).all (fun ln => x.s.mem.present x.g.core ln && !acc.2.2.contains ln) then (acc.1 ++ [a], acc.2)
      else (acc.1, acc.2.1 ++ [a], acc.2.2 ++ lines a)) (now, [], []) = (now ++ accs, [], []) := by
    induction accs with
    | nil => exact fun now => by rw [List.append_nil]; rfl
    | cons a r ih =>
      intro now
      have ha : (lines a).all (fun ln => x.s.mem.present x.g.core ln && !([] : List Nat).contains ln) = true :=
        List.all_eq_true.mpr fun ln hln => by rw [h a List.mem_cons_self ln hln]; rfl
      rw [List.foldl_cons, if_pos ha, ih fun b hb => h b (List.mem_cons_of_mem _ hb), List.append_assoc]
      rfl
  rw [Ctx.here, hall []]
  rfl

/-- A load of unmapped lines. -/
theorem Ctx.load_stash {x : Ctx} {l : LArgs} {f : LoadForm} (hn : 0 < f.bytes) (h : x.ReachesStash l f.bytes false f.plain) :
    x.load l f = .ok (x.outstanding x.s f.names false
      ((x.accs l).flatMap fun a => loadWrites f (a.lanes x.g.width) (x.s.mem.stashBytes x.g.core (x.stashOff a) f.bytes)) 0 .ready) := by
  obtain ⟨hseg, hinside, hsome, hlines, hbehind, -, hclean, horder⟩ := h
  have hmapped : ∀ a ∈ x.accs l, ∀ i < f.bytes, x.s.mem.mappedAt x.g.core (x.stashOff a + i) = none := fun a ha i hi =>
    Mem.mappedAt_of_none (hlines a ha _ (mem_linesOf hi))
  have hview : x.s.mem.viewLines x.g.core ((x.accs l).flatMap (x.accLines f.bytes)) = .present := Mem.viewLines_present fun n hm => by
    obtain ⟨a, ha, hm⟩ := List.mem_flatMap.mp hm
    exact Mem.present_of_none (hlines a ha n hm)
  have hreds : ((x.accs l).map fun a => (x.stashOff a, f.bytes)).foldl (fun t r => t.redsAlias x.g.gid x.s.nextId x.g.core r.1 r.2) x.s = x.s :=
    foldl_fixed fun r hr => by
      obtain ⟨a, ha, rfl⟩ := List.mem_map.mp hr
      exact State.redsAlias_of_none (hmapped a ha)
  have hread : ∀ (all : List StashRange) (accs : List Acc) (ws : List RegWrite), accs ⊆ x.accs l → accs.foldl (fun (acc : State × List RegWrite) a =>
      ((acc.1.stashRead true x.g.core all (x.stashOff a) f.bytes).1,
        acc.2 ++ loadWrites { f with plain := true } (a.lanes x.g.width) (acc.1.stashRead true x.g.core all (x.stashOff a) f.bytes).2)) (x.s, ws) =
      (x.s, ws ++ accs.flatMap fun a => loadWrites f (a.lanes x.g.width) (x.s.mem.stashBytes x.g.core (x.stashOff a) f.bytes)) := by
    intro all accs
    induction accs with
    | nil => exact fun ws _ => by rw [List.flatMap_nil, List.append_nil]; rfl
    | cons a r ih =>
      intro ws hsub
      rw [List.foldl_cons, State.stashRead_of_none (hlines a (hsub List.mem_cons_self)), ih _ fun b hb => hsub (List.mem_cons_of_mem _ hb),
        List.flatMap_cons, List.append_assoc]
      rfl
  rw [Ctx.load, hseg, Ctx.syncs_of_none hlines]
  simp only [Bool.not_false, Bool.or_true, hinside, List.isEmpty_eq_false_iff.mpr hsome, Bool.not_true, horder, Bool.false_eq_true, if_false, if_true]
  rw [Ctx.loadStash]
  simp only [hview, hbehind, Ctx.stashFault_of_none hn hlines, Ctx.stashParts_of_none hmapped, raceTrap_nil, ite_self, hclean rfl, hreds, hread _ _ _ (List.Subset.refl _),
    Bool.false_eq_true, if_false]
  rfl

/-! ### Stored data -/

theorem leBytes_length (n v : Nat) : (leBytes n v).length = n := by
  induction n generalizing v with
  | zero => rfl
  | succ n ih => rw [leBytes, List.length_cons, ih]

theorem leBytes_getD {n i : Nat} (h : i < n) (v : Nat) : (leBytes n v).getD i 0 = BitVec.ofNat 8 (v / 256 ^ i) := by
  induction n generalizing i v with
  | zero => omega
  | succ n ih =>
    cases i with
    | zero => rw [leBytes, List.getD_cons_zero, Nat.pow_zero, Nat.div_one]
    | succ i => rw [leBytes, List.getD_cons_succ, ih (by omega), Nat.div_div_eq_div_mul, Nat.pow_succ']

/-- A byte of a register. -/
theorem leBytes_toNat_getD {n i w : Nat} (h : i < n) (v : BitVec w) : (leBytes n v.toNat).getD i 0 = v.extractLsb' (8 * i) 8 := by
  rw [leBytes_getD h]
  apply BitVec.eq_of_toNat_eq
  rw [BitVec.toNat_ofNat, BitVec.extractLsb'_toNat, Nat.shiftRight_eq_div_pow, Nat.pow_mul]

theorem length_flatMap_chunks {f : Nat → List Byte} {c : Nat} (h : ∀ j, (f j).length = c) (k : Nat) : ((List.range k).flatMap f).length = k * c := by
  induction k with
  | zero => rw [List.range_zero, List.flatMap_nil, List.length_nil, Nat.zero_mul]
  | succ k ih => rw [List.range_succ, List.flatMap_append, List.length_append, ih, List.flatMap_cons, List.flatMap_nil, List.append_nil, h, Nat.succ_mul]

/-- A byte of pieces of one length that stand one after another. -/
theorem getD_flatMap_chunks {f : Nat → List Byte} {c : Nat} (h : ∀ j, (f j).length = c) {k i : Nat} (hi : i < k * c) :
    ((List.range k).flatMap f).getD i 0 = (f (i / c)).getD (i % c) 0 := by
  induction k with
  | zero => omega
  | succ k ih =>
    rw [List.range_succ, List.flatMap_append, List.flatMap_cons, List.flatMap_nil, List.append_nil]
    have hlen := length_flatMap_chunks h k
    rw [Nat.succ_mul] at hi
    by_cases hk : i < k * c
    · rw [List.getD_append _ _ _ _ (by omega), ih hk]
    · have hdiv : i / c = k := Nat.div_eq_of_lt_le (by omega) (by rw [Nat.succ_mul]; omega)
      rw [List.getD_append_right _ _ _ _ (by omega), hlen, hdiv, Nat.mod_eq_sub_mul_div, hdiv, Nat.mul_comm c k]

theorem size_bytes_pos (sz : Size) : 0 < sz.bytes := by cases sz <;> decide

theorem bytes_le_vregsOf (sz : Size) : sz.bytes ≤ vregsOf sz.bytes * 4 := by cases sz <;> decide

/-- The data of a store has its width. -/
theorem Ctx.dataBytes_length (x : Ctx) (l : LArgs) (sz : Size) (lane : Nat) : (x.dataBytes l sz.bytes lane).length = sz.bytes := by
  unfold Ctx.dataBytes
  split
  · exact leBytes_length _ _
  · rw [List.length_take, length_flatMap_chunks (fun j => leBytes_length 4 _)]
    have := bytes_le_vregsOf sz
    omega

theorem Ctx.dataBytes_getD (x : Ctx) (l : LArgs) (sz : Size) (a : Acc) {i : Nat} (hi : i < sz.bytes) :
    (x.dataBytes l sz.bytes ((a.lanes x.g.width).getLastD 0)).getD i 0 = x.dataByte l a i := by
  unfold Ctx.dataBytes Ctx.dataByte
  dsimp only
  split
  · exact leBytes_toNat_getD hi _
  · have hlen : i < vregsOf sz.bytes * 4 := by have := bytes_le_vregsOf sz; omega
    rw [List.getD_eq_getElem?_getD, List.getElem?_take_of_lt hi, ← List.getD_eq_getElem?_getD,
      getD_flatMap_chunks (fun j => leBytes_length 4 _) hlen, leBytes_toNat_getD (by omega)]

/-- The byte that one access through the S segment leaves at a key of the stash. -/
def Ctx.stashPut (x : Ctx) (l : LArgs) (n k : Nat) (a : Acc) : Option Byte :=
  if stashKey x.g.core (x.stashOff a) ≤ k ∧ k < stashKey x.g.core (x.stashOff a) + n then some (x.dataByte l a (k - stashKey x.g.core (x.stashOff a))) else none

theorem Ctx.stashStored_eq (x : Ctx) (l : LArgs) (n k : Nat) : x.stashStored l n k = (x.accs l).reverse.findSome? (x.stashPut l n k) := rfl

/-- Writes of unmapped lines, one after another. -/
theorem Ctx.stashWrites {x : Ctx} {l : LArgs} {sz : Size} (plain : Bool) {accs : List Acc}
    (hlines : ∀ a ∈ accs, ∀ ln ∈ x.accLines sz.bytes a, x.s.mem.line? x.g.core ln = none) {t : State} (hmem : t.mem.lines = x.s.mem.lines) :
    let u := accs.foldl (fun t a => (t.redsAlias x.g.gid x.s.nextId x.g.core (x.stashOff a) sz.bytes).stashWrite x.g.gid plain x.g.core (x.stashOff a)
      (x.dataBytes l sz.bytes ((a.lanes x.g.width).getLastD 0))) t
    u.besideMemory t ∧ u.mem = { t.mem with stash := u.mem.stash, stashPoison := u.mem.stashPoison } ∧
      ∀ k, u.mem.stash.get k = (accs.reverse.findSome? (x.stashPut l sz.bytes k)).getD (t.mem.stash.get k) := by
  induction accs generalizing t with
  | nil => exact ⟨t.besideMemory_refl, rfl, fun _ => rfl⟩
  | cons a r ih =>
    have hline : ∀ ln ∈ x.accLines sz.bytes a, t.mem.line? x.g.core ln = none := fun ln hln => by
      rw [Mem.line?, hmem]
      exact hlines a List.mem_cons_self ln hln
    have hreds : t.redsAlias x.g.gid x.s.nextId x.g.core (x.stashOff a) sz.bytes = t :=
      State.redsAlias_of_none fun i hi => Mem.mappedAt_of_none (hline _ (mem_linesOf hi))
    obtain ⟨hbeside, hput⟩ := State.stashWrite_of_none (gid := x.g.gid) (plain := plain) (bs := x.dataBytes l sz.bytes ((a.lanes x.g.width).getLastD 0))
      (by rw [Ctx.dataBytes_length]; exact hline)
    rw [List.foldl_cons, hreds]
    obtain ⟨hrest, hframe, hget⟩ := ih (fun b hb => hlines b (List.mem_cons_of_mem _ hb)) (by rw [hput]; exact hmem)
    refine ⟨State.besideMemory_trans hrest hbeside, hframe.trans (by rw [hput]; rfl), fun k => ?_⟩
    rw [hget, hput, List.reverse_cons, List.findSome?_append, List.findSome?_cons, List.findSome?_nil]
    cases r.reverse.findSome? (x.stashPut l sz.bytes k) with
    | some b => rfl
    | none =>
      rw [Option.none_or, Option.getD_none, Mem.putStash]
      dsimp only
      by_cases hk : stashKey x.g.core (x.stashOff a) ≤ k ∧ k < stashKey x.g.core (x.stashOff a) + sz.bytes
      · have hin : k - stashKey x.g.core (x.stashOff a) < sz.bytes := by omega
        have hw := Store.get_write_in t.mem.stash (stashKey x.g.core (x.stashOff a)) (x.dataBytes l sz.bytes ((a.lanes x.g.width).getLastD 0))
          (i := k - stashKey x.g.core (x.stashOff a)) (by rw [Ctx.dataBytes_length]; exact hin)
        rw [Nat.add_sub_cancel' hk.1, ← List.getD_eq_getElem _ 0, x.dataBytes_getD l sz a hin] at hw
        rw [hw, Ctx.stashPut, if_pos hk]
        rfl
      · rw [Store.get_write_out _ _ _ (by rw [Ctx.dataBytes_length]; omega), Ctx.stashPut, if_neg hk]
        rfl

/-- A store to unmapped lines. -/
theorem Ctx.put4_stash {x : Ctx} {l : LArgs} {sz : Size} {rel : Option Scope} (h : x.ReachesStash l sz.bytes true (!rel.isSome)) :
    x.put4 l sz.bytes rel = .ok ((x.accs l).foldl (fun t a => (t.redsAlias x.g.gid x.s.nextId x.g.core (x.stashOff a) sz.bytes).stashWrite x.g.gid true x.g.core
      (x.stashOff a) (x.dataBytes l sz.bytes ((a.lanes x.g.width).getLastD 0))) x.s) := by
  obtain ⟨hseg, hinside, hsome, hlines, hbehind, hlens, -, horder⟩ := h
  rw [Bool.not_not] at hinside
  have hmapped : ∀ a ∈ x.accs l, ∀ i < sz.bytes, x.s.mem.mappedAt x.g.core (x.stashOff a + i) = none := fun a ha i hi =>
    Mem.mappedAt_of_none (hlines a ha _ (mem_linesOf hi))
  have hview : x.s.mem.viewLines x.g.core ((x.accs l).flatMap (x.accLines sz.bytes)) = .present := Mem.viewLines_present fun n hm => by
    obtain ⟨a, ha, hm⟩ := List.mem_flatMap.mp hm
    exact Mem.present_of_none (hlines a ha n hm)
  have hwaits : x.stashWaits sz.bytes (x.accs l) = false := by
    rw [Ctx.stashWaits, hbehind, Bool.false_or, List.any_eq_false]
    intro ln hln
    obtain ⟨a, ha, hln⟩ := List.mem_flatMap.mp hln
    rw [hlens rfl a ha ln hln]
    exact Bool.false_ne_true
  have hhere : x.here (x.accLines sz.bytes) (x.accs l) = (x.accs l, []) :=
    Ctx.here_of_present fun a ha ln hln => Mem.present_of_none (hlines a ha ln hln)
  have hrel : rel.filter (fun _ => x.syncs 1 sz.bytes (x.accs l)) = none := by
    rw [Ctx.syncs_of_none hlines]
    cases rel <;> rfl
  rw [Ctx.put4, hseg]
  simp only [hrel, hinside, List.isEmpty_eq_false_iff.mpr hsome, Option.isNone_none, Bool.not_true, horder, Bool.false_eq_true, if_false, if_true]
  rw [Ctx.putStash, hhere]
  simp only [hview, hwaits, Ctx.stashParts_of_none hmapped, raceTrap_nil, ite_self, Bool.false_eq_true, if_false]
  rfl

/-- Settles O14: lines that are not listed are the stash's own, so an access there meets neither memory nor an order of it. -/
theorem stashAccesses : Obligations.StashAccesses := by
  unfold Obligations.StashAccesses
  refine ⟨fun i l f hi s x hx hr => ?_, fun i l n plain hi s x hx hr => ?_⟩
  · have hs := ctxOf_state hx.1
    subst hs
    have hexec : exec i x.s = issue i noDyn (fun _ => [dataName l (vregsOf f.bytes) false, addrName l]) (fun y => y.load l f) x.s ∧ 0 < f.bytes := by
      obtain ⟨g, sz, sx, rfl, rfl⟩ | ⟨g, sz, sx, sc, rfl, rfl⟩ := hi <;> exact ⟨rfl, size_bytes_pos sz⟩
    exact exec_of_outstanding hexec.1 hx rfl (Ctx.load_stash hexec.2 hr) f.names_ne_nil (noInd_of_formatL rfl)
  · have hs := ctxOf_state hx.1
    subst hs
    obtain ⟨sz, rel, rfl, rfl, hexec⟩ : ∃ (sz : Size) (rel : Option Scope), n = sz.bytes ∧ plain = (!rel.isSome) ∧
        exec i x.s = issue i noDyn (fun _ => [dataName l (vregsOf sz.bytes) true, addrName l]) (fun y => y.put4 l sz.bytes rel) x.s := by
      obtain ⟨g, sz, rfl, rfl, rfl⟩ | ⟨g, sz, sc, rfl, rfl, rfl⟩ := hi
      · exact ⟨sz, none, rfl, rfl, rfl⟩
      · exact ⟨sz, some sc, rfl, rfl, rfl⟩
    obtain ⟨hbeside, hframe, hget⟩ := Ctx.stashWrites (l := l) (sz := sz) true hr.present (t := x.s) rfl
    exact ⟨_, exec_of_ok hexec hx rfl (Ctx.put4_stash hr) (noInd_of_formatL rfl), State.besideMemory_advance hbeside _, hget, hframe⟩

end Sys2Proof.Machine
end

section
/-! Loads from memory of this package (R188, R189, R263): what a group's reads leave of memory, and what they may give. -/
namespace Sys2Proof.Machine

/-! ### Words and bytes -/

theorem mem_upsert {α : Type} {l : List α} {t : α → Bool} {x a : α} (h : a ∈ upsert l t x) : a ∈ l ∨ a = x := by
  unfold upsert modWhere at h
  split at h
  · obtain ⟨b, hb, rfl⟩ := List.mem_map.mp h
    split
    · exact .inr rfl
    · exact .inl hb
  · rcases List.mem_append.mp h with h | h
    · exact .inl h
    · exact .inr (List.mem_singleton.mp h)

/-- A byte of the current value of a word. -/
theorem Mem.byteOf_word (m : Mem) (pa : Nat) : byteOf (m.word (wordOf pa)) (pa % 4) = m.byte pa := by
  apply BitVec.eq_of_toNat_eq
  have hpa := wordOf_add_mod pa
  have hlt : ∀ i, (m.byte (wordOf pa + i)).toNat < 256 := fun i => (m.byte (wordOf pa + i)).isLt
  have h0 := hlt 0
  have h1 := hlt 1
  have h2 := hlt 2
  have h3 := hlt 3
  rw [byteOf_toNat, Mem.word, BitVec.toNat_ofNat]
  conv_rhs => rw [← hpa]
  simp only [Mem.read, List.range_succ, List.range_zero, List.nil_append, List.cons_append, List.map_cons, List.map_nil, leNat]
  have hi : pa % 4 = 0 ∨ pa % 4 = 1 ∨ pa % 4 = 2 ∨ pa % 4 = 3 := by omega
  rcases hi with h | h | h | h <;> rw [h] <;> omega

/-- Pieces of a list that agree with pieces of another agree together. -/
theorem forall₂_flatMap {α β γ : Type} {R : β → γ → Prop} {l : List α} {f : α → List β} {g : α → List γ} (h : ∀ a ∈ l, List.Forall₂ R (f a) (g a)) :
    List.Forall₂ R (l.flatMap f) (l.flatMap g) := by
  induction l with
  | nil => exact .nil
  | cons a r ih => exact List.rel_append (h a List.mem_cons_self) (ih fun b hb => h b (List.mem_cons_of_mem _ hb))

/-- The bytes of the words that a range touches. -/
theorem wordsAt_bytes (pa n : Nat) : (wordsAt pa n).flatMap (fun pw => (List.range 4).map (pw + ·)) =
    (List.range (4 * ((pa + n + 3) / 4 - pa / 4))).map (wordOf pa + ·) := by
  unfold wordsAt
  generalize (pa + n + 3) / 4 - pa / 4 = k
  induction k with
  | zero => rfl
  | succ k ih =>
    rw [List.range_succ (n := k), List.map_append, List.flatMap_append, ih, Nat.mul_succ, List.range_add, List.map_append]
    simp [List.range_succ, Nat.add_assoc]

/-- A range among the bytes of the words that it touches. -/
theorem wordsAt_range (pa n : Nat) : (((wordsAt pa n).flatMap (fun pw => (List.range 4).map (pw + ·))).drop (pa % 4)).take n =
    (List.range n).map (pa + ·) := by
  rw [wordsAt_bytes]
  have hpa := wordOf_add_mod pa
  apply List.ext_getElem
  · simp only [List.length_take, List.length_drop, List.length_map, List.length_range]
    omega
  · intro i h1 h2
    simp only [List.getElem_take, List.getElem_drop, List.getElem_map, List.getElem_range]
    omega

theorem leBytes_word (w : Word) : leBytes 4 w.toNat = (List.range 4).map (byteOf w) := by
  apply List.ext_getElem
  · rw [leBytes_length, List.length_map, List.length_range]
  · intro i h1 _
    rw [leBytes_length] at h1
    rw [List.getElem_map, List.getElem_range, ← List.getD_eq_getElem _ 0, leBytes_getD h1, byteOf, Nat.pow_mul]

/-! ### What reads leave -/

/-- A state after reads of a core: copies that are new hold current values, and what else has changed is no part of memory that software
sees. -/
structure State.afterReads (t s : State) : Prop where
  frame : t = { s with mem := t.mem }
  mem : t.mem = { s.mem with copies := t.mem.copies, stash := t.mem.stash, stashPoison := t.mem.stashPoison, tlb := t.mem.tlb, homeVa := t.mem.homeVa }
  copies : ∀ c ∈ t.mem.copies, c ∈ s.mem.copies ∨ c.value = s.mem.word c.pa
  kept : t.mem.stashKept s.mem

theorem State.afterReads_refl (s : State) : s.afterReads s := ⟨rfl, rfl, fun _ h => .inl h, s.mem.rereads_refl.kept⟩

theorem State.afterReads.lines {t s : State} (h : t.afterReads s) : t.mem.lines = s.mem.lines := by rw [h.mem]

theorem State.afterReads.reg? {t s : State} (h : t.afterReads s) (pw : Nat) : t.mem.reg? pw = s.mem.reg? pw := by rw [h.mem]; rfl

theorem State.afterReads.byte {t s : State} (h : t.afterReads s) (pa : Nat) : t.mem.byte pa = s.mem.byte pa :=
  Mem.byte_congr (by rw [h.mem]) (fun k => by rw [h.reg?]) pa

theorem State.afterReads.read {t s : State} (h : t.afterReads s) (pa n : Nat) : t.mem.read pa n = s.mem.read pa n :=
  List.map_congr_left fun _ _ => h.byte _

theorem State.afterReads.word {t s : State} (h : t.afterReads s) (pw : Nat) : t.mem.word pw = s.mem.word pw := by rw [Mem.word, Mem.word, h.read]

theorem State.afterReads_trans {u t s : State} (h : u.afterReads t) (h' : t.afterReads s) : u.afterReads s := by
  refine ⟨h.frame.trans (by rw [h'.frame]), h.mem.trans (by rw [h'.mem]), fun c hc => ?_, fun k hk => ?_⟩
  · rcases h.copies c hc with hc | hc
    · exact h'.copies c hc
    · exact .inr (hc.trans (h'.word _))
  · have hm : ¬ t.mem.cacheKey k := by rwa [Mem.cacheKey, h'.lines]
    exact ⟨(h.kept k hm).1.trans (h'.kept k hk).1, (h.kept k hm).2.trans (h'.kept k hk).2⟩

theorem State.afterReads_of_rereads {s : State} {m : Mem} (h : m.rereads s.mem) : ({ s with mem := m } : State).afterReads s :=
  ⟨rfl, by rw [h.frame], fun c hc => .inl (h.copies c hc), h.kept⟩

/-- New copies, each of a current value. -/
theorem State.afterReads_of_copies {s : State} {cs : List Copy} (h : ∀ c ∈ cs, c ∈ s.mem.copies ∨ c.value = s.mem.word c.pa) :
    ({ s with mem := { s.mem with copies := cs } } : State).afterReads s :=
  ⟨rfl, rfl, h, fun _ _ => ⟨rfl, Iff.rfl⟩⟩

theorem State.noteTlb_afterReads (s : State) (core vi va : Nat) (t : Trans) : (s.noteTlb core vi va t).afterReads s := by
  obtain ⟨hframe, hmem⟩ := s.noteTlb_frame core vi va t
  refine ⟨hframe, hmem.trans (by rw [hmem]), fun c hc => .inl ?_, fun k _ => ?_⟩
  · rw [hmem] at hc
    exact hc
  · rw [hmem]
    exact ⟨rfl, Iff.rfl⟩

theorem State.fillLine_afterReads (s : State) (core vi va : Nat) (region : BitVec 4) (pa : Nat) : (s.fillLine core vi va region pa).afterReads s := by
  refine State.afterReads_of_copies fun c hc => ?_
  rcases List.mem_append.mp hc with hc | hc
  · exact .inl hc
  · obtain ⟨i, -, hi⟩ := List.mem_filterMap.mp hc
    dsimp only at hi
    split at hi
    · cases hi
    · cases hi
      exact .inr rfl

/-- A core keeps a copy of the current value of a word. -/
theorem State.keepsWord_afterReads (s : State) {m : Mem} (h : m.rereads s.mem) (core pw vi va : Nat) (region : BitVec 4) :
    ({ s with mem := Mem.setStashCopy { m with copies := (upsert m.copies (fun c => c.core == core && c.pa == pw)
      ⟨core, pw, vi, va, region, s.mem.word pw⟩) } core pw } : State).afterReads s := by
  have hm := State.afterReads_of_rereads h
  have hput := State.afterReads_of_copies (s := { s with mem := m })
    (cs := upsert m.copies (fun c => c.core == core && c.pa == pw) ⟨core, pw, vi, va, region, s.mem.word pw⟩) fun c hc =>
      (mem_upsert hc).imp id fun hc => by rw [hc]; exact (hm.word pw).symm
  exact State.afterReads_trans (State.afterReads_of_rereads (s := { s with mem := { m with copies := (upsert m.copies
    (fun c => c.core == core && c.pa == pw) ⟨core, pw, vi, va, region, s.mem.word pw⟩) } }) (Mem.setStashCopy_rereads _ core pw)) (State.afterReads_trans hput hm)

theorem State.loadWord_afterReads (s : State) (core : Nat) (old : Bool) (vi va : Nat) (region : BitVec 4) (pw : Nat) :
    (s.loadWord core old vi va region pw).1.afterReads s := by
  unfold State.loadWord
  split
  · exact State.afterReads_of_rereads (s.mem.setStashCopy_rereads core pw)
  · have hdrop : (if s.mem.stale core (sibling pw) then s.mem.dropCopy core (sibling pw) else s.mem).rereads s.mem := by
      split
      · exact s.mem.dropCopy_rereads _ _
      · exact s.mem.rereads_refl
    exact s.keepsWord_afterReads hdrop core pw vi va region

/-! ### What reads give -/

/-- A value that a plain load of a group's core may give for a word (R263). -/
def Ctx.mayReadWord (x : Ctx) (pw : Nat) (w : Word) : Prop := ∀ i < 4, x.mayRead (pw + i) (byteOf w i)

theorem Ctx.mayReadWord_current {x : Ctx} {pw : Nat} (h : pw % 4 = 0) : x.mayReadWord pw (x.s.mem.word pw) := by
  intro i hi
  have hw : wordOf (pw + i) = pw := by unfold wordOf; omega
  have hb := x.s.mem.byteOf_word (pw + i)
  rw [hw, show (pw + i) % 4 = i by omega] at hb
  exact .inl hb

/-- A copy in the core's L1 of a word that no agent owns. -/
theorem Ctx.mayReadWord_copy {x : Ctx} {c : Copy} {pw : Nat} (h : pw % 4 = 0) (hc : c ∈ x.s.mem.copies) (hcore : c.core = x.g.core) (hpa : c.pa = pw)
    (hreg : x.s.mem.reg? pw = none) : x.mayReadWord pw c.value := by
  intro i hi
  have hw : wordOf (pw + i) = pw := by unfold wordOf; omega
  exact .inr ⟨by rw [hw]; exact hreg, c, hc, hcore, by rw [hw]; exact hpa, by rw [show (pw + i) % 4 = i by omega]⟩

theorem Ctx.loadWord_value {x : Ctx} {t : State} (ht : t.afterReads x.s) {old : Bool} {pw : Nat} (hpw : pw % 4 = 0)
    (hold : old = true → x.s.mem.reg? pw = none) (vi va : Nat) (region : BitVec 4) : x.mayReadWord pw (t.loadWord x.g.core old vi va region pw).2 := by
  unfold State.loadWord
  split
  · next c hc =>
    have hmem : c ∈ t.mem.copies := List.mem_of_find?_eq_some hc
    have hkey := List.find?_some hc
    simp only [Bool.and_eq_true, beq_iff_eq] at hkey
    rcases ht.copies c hmem with hin | hval
    · exact Ctx.mayReadWord_copy hpw hin hkey.1 hkey.2 (hold rfl)
    · rw [show c.value = x.s.mem.word pw by rw [hval, hkey.2]]
      exact Ctx.mayReadWord_current hpw
  · dsimp only
    rw [ht.word]
    exact Ctx.mayReadWord_current hpw

/-- A plain load of bytes. -/
theorem Ctx.loadBytes_spec {x : Ctx} {t : State} (ht : t.afterReads x.s) {all : List Nat} {pa n : Nat} (hall : ∀ pw ∈ wordsAt pa n, pw ∈ all)
    (vi va : Nat) (region : BitVec 4) :
    (t.loadBytes x.s.mem all x.g.core vi va region pa n).1.afterReads x.s ∧
      List.Forall₂ x.mayRead ((List.range n).map (pa + ·)) (t.loadBytes x.s.mem all x.g.core vi va region pa n).2 := by
  have hold : ∀ pw ∈ wordsAt pa n, t.takesCopy x.s.mem x.g.core all pw = true → x.s.mem.reg? pw = none := by
    intro pw hpw h
    rw [State.takesCopy, Bool.and_eq_true] at h
    have hcopy := List.all_eq_true.mp h.2 pw (List.mem_filter.mpr ⟨hall pw hpw, beq_self_eq_true _⟩)
    rw [Mem.copyable, Bool.and_eq_true, Option.isNone_iff_eq_none] at hcopy
    exact hcopy.2
  have hwords : ∀ ws ⊆ wordsAt pa n, ∀ (acc : State × List Byte) (places : List Nat), acc.1.afterReads x.s → List.Forall₂ x.mayRead places acc.2 →
      (ws.foldl (fun (acc : State × List Byte) pw =>
        ((acc.1.loadWord x.g.core (t.takesCopy x.s.mem x.g.core all pw) vi (wordOf va + (pw - wordOf pa)) region pw).1,
          acc.2 ++ leBytes 4 (acc.1.loadWord x.g.core (t.takesCopy x.s.mem x.g.core all pw) vi (wordOf va + (pw - wordOf pa)) region pw).2.toNat)) acc).1.afterReads x.s ∧
      List.Forall₂ x.mayRead (places ++ ws.flatMap (fun pw => (List.range 4).map (pw + ·))) (ws.foldl (fun (acc : State × List Byte) pw =>
        ((acc.1.loadWord x.g.core (t.takesCopy x.s.mem x.g.core all pw) vi (wordOf va + (pw - wordOf pa)) region pw).1,
          acc.2 ++ leBytes 4 (acc.1.loadWord x.g.core (t.takesCopy x.s.mem x.g.core all pw) vi (wordOf va + (pw - wordOf pa)) region pw).2.toNat)) acc).2 := by
    intro ws
    induction ws with
    | nil => exact fun _ acc places ha hb => ⟨ha, by rwa [List.flatMap_nil, List.append_nil]⟩
    | cons pw r ih =>
      intro hsub acc places ha hb
      have hpw : pw ∈ wordsAt pa n := hsub List.mem_cons_self
      have haligned : pw % 4 = 0 := by
        obtain ⟨j, -, rfl⟩ := List.mem_map.mp hpw
        have := wordOf_aligned pa
        omega
      rw [List.foldl_cons, List.flatMap_cons, ← List.append_assoc]
      refine ih (fun q hq => hsub (List.mem_cons_of_mem _ hq)) _ _ (State.afterReads_trans (State.loadWord_afterReads _ _ _ _ _ _ _) ha) (List.rel_append hb ?_)
      rw [leBytes_word, List.forall₂_map_left_iff, List.forall₂_map_right_iff, List.forall₂_same]
      exact fun i hi => Ctx.loadWord_value ha haligned (hold pw hpw) _ _ _ i (List.mem_range.mp hi)
  obtain ⟨hafter, hvals⟩ := hwords _ (List.Subset.refl _) (t, []) [] ht .nil
  refine ⟨State.afterReads_trans (State.fillLine_afterReads _ _ _ _ _ _) hafter, ?_⟩
  rw [← wordsAt_range]
  exact List.forall₂_take _ (List.forall₂_drop _ hvals)

/-- A reading instruction of a core reads one piece of memory of this package. -/
theorem Ctx.readPart_spec {x : Ctx} {t : State} (ht : t.afterReads x.s) {all : List Nat} {plain : Bool} {p : Nat × Nat × Trans} (hp : p.2.2.home = true)
    (hall : ∀ pw ∈ wordsAt p.2.2.pa p.2.1, pw ∈ all) {R : Nat → Byte → Prop} (hplain : plain = true → ∀ pa b, x.mayRead pa b → R pa b)
    (hsync : plain = false → ∀ pa, R pa (x.s.mem.byte pa)) :
    (x.readPart x.s.mem all t plain p).1.afterReads x.s ∧
      List.Forall₂ R ((List.range p.2.1).map (p.2.2.pa + ·)) (x.readPart x.s.mem all t plain p).2 := by
  obtain ⟨hremote, hrepl, -⟩ := p.2.2.home_iff.mp hp
  have hnote := State.afterReads_trans (t.noteTlb_afterReads x.g.core x.t.vi p.1 p.2.2) ht
  rw [Ctx.readPart]
  simp only [hremote, hrepl, Bool.false_eq_true, if_false]
  cases plain with
  | true =>
    obtain ⟨hafter, hvals⟩ := Ctx.loadBytes_spec hnote hall x.t.vi p.1 (((t.noteTlb x.g.core x.t.vi p.1 p.2.2).viOf x.t.vi).regionOf p.1)
    exact ⟨hafter, hvals.imp (hplain rfl)⟩
  | false =>
    refine ⟨State.afterReads_trans (State.afterReads_of_rereads (Mem.rereads_foldl fun n _ w _ => n.renew_rereads x.g.core w)) hnote, ?_⟩
    rw [if_neg Bool.false_ne_true]
    dsimp only
    rw [hnote.read, Mem.read, List.forall₂_map_left_iff, List.forall₂_map_right_iff, List.forall₂_same]
    exact fun i _ => hsync rfl _

/-- It reads one access. -/
theorem Ctx.readAt_spec {x : Ctx} {t : State} (ht : t.afterReads x.s) {all : List Nat} {plain : Bool} {k : Located} (hk : k.home = true)
    (hall : ∀ p ∈ k.parts, ∀ pw ∈ wordsAt p.2.2.pa p.2.1, pw ∈ all) {R : Nat → Byte → Prop} (hplain : plain = true → ∀ pa b, x.mayRead pa b → R pa b)
    (hsync : plain = false → ∀ pa, R pa (x.s.mem.byte pa)) :
    (x.readAt x.s.mem all t plain k).1.afterReads x.s ∧ List.Forall₂ R k.places (x.readAt x.s.mem all t plain k).2 := by
  rw [Located.home, List.all_eq_true] at hk
  rw [Ctx.readAt, Located.places]
  have hparts : ∀ ps : List (Nat × Nat × Trans), ps ⊆ k.parts → ∀ (acc : State × List Byte) (places : List Nat), acc.1.afterReads x.s →
      List.Forall₂ R places acc.2 →
      (ps.foldl (fun (acc : State × List Byte) p => ((x.readPart x.s.mem all acc.1 plain p).1, acc.2 ++ (x.readPart x.s.mem all acc.1 plain p).2)) acc).1.afterReads x.s ∧
      List.Forall₂ R (places ++ ps.flatMap (fun p => (List.range p.2.1).map (fun j => p.2.2.pa + j)))
        (ps.foldl (fun (acc : State × List Byte) p => ((x.readPart x.s.mem all acc.1 plain p).1, acc.2 ++ (x.readPart x.s.mem all acc.1 plain p).2)) acc).2 := by
    intro ps
    induction ps with
    | nil => exact fun _ acc places ha hb => ⟨ha, by rwa [List.flatMap_nil, List.append_nil]⟩
    | cons p r ih =>
      intro hsub acc places ha hb
      have hp := hsub List.mem_cons_self
      obtain ⟨hafter, hvals⟩ := Ctx.readPart_spec ha (hk p hp) (hall p hp) hplain hsync
      rw [List.foldl_cons, List.flatMap_cons, ← List.append_assoc]
      exact ih (fun q hq => hsub (List.mem_cons_of_mem _ hq)) _ _ hafter (List.rel_append hb hvals)
  exact hparts k.parts (List.Subset.refl _) (t, []) [] ht .nil

/-- The bytes that accesses give, once the one is known that an access gives. -/
def givenTo (k : Located) (bs : List Byte) (data : Located → List Byte) (j : Located) : List Byte := if j = k then bs else data j

/-- A reading instruction reads every access. -/
theorem Ctx.readAll_spec {x : Ctx} {f : LoadForm} {ls : List Located} (hnodup : ls.Nodup) (hhome : ∀ k ∈ ls, k.home = true) (hsettle : x.settle x.s ls = x.s)
    {R : Nat → Byte → Prop} (hplain : f.plain = true → ∀ pa b, x.mayRead pa b → R pa b) (hsync : f.plain = false → ∀ pa, R pa (x.s.mem.byte pa)) :
    (x.readAll x.s f ls).1.afterReads x.s ∧ ∃ data : Located → List Byte,
      (x.readAll x.s f ls).2 = ls.flatMap (fun k => loadWrites f (k.acc.lanes x.g.width) (data k)) ∧ ∀ k ∈ ls, List.Forall₂ R k.places (data k) := by
  rw [Ctx.readAll, hsettle]
  have hall : ∀ k ∈ ls, ∀ p ∈ k.parts, ∀ pw ∈ wordsAt p.2.2.pa p.2.1, pw ∈ wordsRead ls := by
    intro k hk p hp pw hpw
    obtain ⟨hremote, hrepl, -⟩ := p.2.2.home_iff.mp (List.all_eq_true.mp (hhome k hk) p hp)
    exact List.mem_flatMap.mpr ⟨k, hk, List.mem_flatMap.mpr ⟨p, List.mem_filter.mpr ⟨hp, by rw [hremote, hrepl]; rfl⟩, hpw⟩⟩
  have hreads : ∀ ks : List Located, ks.Nodup → ks ⊆ ls → ∀ acc : State × List RegWrite, acc.1.afterReads x.s →
      (ks.foldl (fun (acc : State × List RegWrite) k => ((x.readAt x.s.mem (wordsRead ls) acc.1 f.plain k).1,
        acc.2 ++ loadWrites f (lanesOf x.g.width k.acc.mask) (x.readAt x.s.mem (wordsRead ls) acc.1 f.plain k).2)) acc).1.afterReads x.s ∧
      ∃ data : Located → List Byte, (ks.foldl (fun (acc : State × List RegWrite) k => ((x.readAt x.s.mem (wordsRead ls) acc.1 f.plain k).1,
        acc.2 ++ loadWrites f (lanesOf x.g.width k.acc.mask) (x.readAt x.s.mem (wordsRead ls) acc.1 f.plain k).2)) acc).2 =
          acc.2 ++ ks.flatMap (fun k => loadWrites f (k.acc.lanes x.g.width) (data k)) ∧ ∀ k ∈ ks, List.Forall₂ R k.places (data k) := by
    intro ks
    induction ks with
    | nil => exact fun _ _ acc ha => ⟨ha, fun _ => [], by rw [List.flatMap_nil, List.append_nil]; rfl, fun _ h => by cases h⟩
    | cons k r ih =>
      intro hn hsub acc ha
      obtain ⟨hk, hr⟩ := List.nodup_cons.mp hn
      obtain ⟨hafter, hvals⟩ := Ctx.readAt_spec ha (hhome k (hsub List.mem_cons_self)) (hall k (hsub List.mem_cons_self)) hplain hsync
      obtain ⟨hend, data, hdata, hrest⟩ := ih hr (fun q hq => hsub (List.mem_cons_of_mem _ hq))
        ((x.readAt x.s.mem (wordsRead ls) acc.1 f.plain k).1, acc.2 ++ loadWrites f (lanesOf x.g.width k.acc.mask) (x.readAt x.s.mem (wordsRead ls) acc.1 f.plain k).2) hafter
      refine ⟨hend, givenTo k (x.readAt x.s.mem (wordsRead ls) acc.1 f.plain k).2 data, ?_, ?_⟩
      · have hsame : r.flatMap (fun j => loadWrites f (j.acc.lanes x.g.width) (data j)) = r.flatMap (fun j => loadWrites f (j.acc.lanes x.g.width)
            (givenTo k (x.readAt x.s.mem (wordsRead ls) acc.1 f.plain k).2 data j)) := List.flatMap_congr fun j hj => by
          rw [givenTo, if_neg fun h : j = k => hk (h ▸ hj)]
        rw [List.foldl_cons, hdata, hsame, List.flatMap_cons, List.append_assoc, givenTo, if_pos rfl]
        rfl
      · intro j hj
        rcases List.mem_cons.mp hj with rfl | hj
        · rw [givenTo, if_pos rfl]
          exact hvals
        · rw [givenTo, if_neg fun h : j = k => hk (h ▸ hj)]
          exact hrest j hj
  obtain ⟨hafter, data, hdata, hvals⟩ := hreads ls hnodup (List.Subset.refl _) (x.s, []) x.s.afterReads_refl
  exact ⟨hafter, data, hdata, hvals⟩

/-! ### The accesses of an instruction -/

theorem Ctx.accs_nodup (x : Ctx) (l : LArgs) : (x.accs l).Nodup := by
  unfold Ctx.accs
  dsimp only
  split
  · split
    · exact List.nodup_singleton _
    · exact List.nodup_nil
  · exact (List.nodup_range.filter _).map fun i j h => congrArg Acc.lane h

/-- What a located access is. -/
theorem Ctx.locateOne_acc {x : Ctx} {seg n : Nat} {acc : Access} {atomic : Bool} {a : Acc} {k : Located} (h : x.locateOne seg n acc atomic a = .ok k) : k.acc = a := by
  rw [Ctx.locateOne] at h
  generalize x.s.reach x.g.core x.t.vi acc atomic (((x.g.seg seg).1.toNat + a.off) % 2 ^ 64) n = r at h
  cases r with
  | error e => cases h
  | ok ps =>
    cases h
    rfl

theorem eq_ok_of_toOption {ε α : Type} {e : Except ε α} {a : α} (h : e.toOption = some a) : e = .ok a := by
  cases e with
  | error _ => cases h
  | ok b =>
    cases h
    rfl

/-- The located accesses are the accesses, each located. -/
theorem Ctx.locate_eq {x : Ctx} {seg n : Nat} {acc : Access} {atomic : Bool} {accs : List Acc} {ls : List Located} (h : x.locate seg n acc atomic accs = .ok ls) :
    ls = accs.filterMap (fun a => (x.locateOne seg n acc atomic a).toOption) := by
  rw [Ctx.locate] at h
  split at h
  · cases h
  · rw [List.filterMap_map] at h
    exact (Except.ok.inj h).symm

theorem Ctx.locate_nodup {x : Ctx} {seg n : Nat} {acc : Access} {atomic : Bool} {l : LArgs} {ls : List Located} (h : x.locate seg n acc atomic (x.accs l) = .ok ls) :
    ls.Nodup := by
  rw [Ctx.locate_eq h]
  refine List.Nodup.filterMap (fun a b k ha hb => ?_) (x.accs_nodup l)
  rw [← Ctx.locateOne_acc (eq_ok_of_toOption ha), ← Ctx.locateOne_acc (eq_ok_of_toOption hb)]

/-- A load of memory of this package. -/
theorem Ctx.load_memory {x : Ctx} {l : LArgs} {f : LoadForm} {ls : List Located} (h : x.Reaches l f.bytes .read false f.plain false ls) :
    x.load l f = .ok (x.outstanding (x.readAll x.s f ls).1 f.names false (x.readAll x.s f ls).2 0 .ready) := by
  obtain ⟨hseg, hinside, hsome, hpages, -, hrace, hclean, horder, -⟩ := h
  have hform : { f with plain := f.plain || !x.syncs l.seg.toNat f.bytes (x.accs l) } = f := by
    rw [Ctx.syncs, bne_iff_ne.mpr hseg, Bool.true_or, Bool.not_true, Bool.or_false]
  have hnorace : (if f.plain && x.l.race then raceTrap x.s x.g.gid x.agent false (localParts ls) else none) = none := by
    split
    · next hp =>
      rw [Bool.and_eq_true] at hp
      exact hrace hp.1 hp.2
    · rfl
  rw [Ctx.load, hform]
  simp only [hinside, List.isEmpty_eq_false_iff.mpr hsome, horder, hseg, hpages, hnorace, hclean rfl, Bool.false_eq_true, if_false]

theorem loads_of_reads {i : Instr} {l : LArgs} {f : LoadForm} {reads : Ctx → Nat → Byte → Prop}
    (hexec : ∀ s, exec i s = issue i noDyn (fun _ => [dataName l (vregsOf f.bytes) false, addrName l]) (fun y => y.load l f) s)
    (hplain : f.plain = true → ∀ x pa b, Ctx.mayRead x pa b → reads x pa b) (hsync : f.plain = false → ∀ x pa, reads x pa (x.s.mem.byte pa)) :
    Loads i l f reads := by
  intro s x ls hx hr hreds
  have hs := ctxOf_state hx.1
  subst hs
  have hsettle : x.settle x.s ls = x.s := by
    refine foldl_fixed fun p hp => ?_
    obtain ⟨k, hk, hp⟩ := List.mem_flatMap.mp hp
    obtain ⟨hremote, hrepl, -⟩ := p.2.2.home_iff.mp (List.all_eq_true.mp (hr.home k hk) p hp)
    rw [Ctx.settlePart, hremote, hrepl]
    exact State.performReds_none fun q hq => by simp [hreds q hq]
  obtain ⟨hafter, data, hdata, hvals⟩ := Ctx.readAll_spec (f := f) (Ctx.locate_nodup hr.pages) hr.home hsettle (fun h => hplain h x) (fun h => hsync h x)
  refine ⟨(x.readAll x.s f ls).1.mem, data, ?_, hvals, hafter.mem, hafter.kept, hafter.byte⟩
  have hrun := exec_of_outstanding (hexec x.s) hx rfl (Ctx.load_memory hr) f.names_ne_nil (noInd_of_formatL rfl)
  rw [hdata, hafter.frame] at hrun
  exact hrun

/-- Settles O12: a read brings copies of current values alone, so each byte is current, or a copy that was there before. -/
theorem memoryLoads : Obligations.MemoryLoads := by
  unfold Obligations.MemoryLoads
  exact ⟨fun g sz sx l => loads_of_reads (fun _ => rfl) (fun _ _ _ _ h => h) (fun h => by cases h),
    fun g sz sx sc l => loads_of_reads (fun _ => rfl) (fun h => by cases h) (fun _ _ _ => rfl)⟩

end Sys2Proof.Machine
end

section
/-! Stores to memory of this package (R183, R188, R189, R255, R256). -/
namespace Sys2Proof.Machine

/-! ### What stores leave -/

/-- A state after stores to memory of this package: bytes, registrations and poison, copies of them, translations that were used, and what
monitors have seen. -/
structure State.afterStores (t s : State) : Prop where
  beside : t.besideMemory s
  mem : t.mem = { s.mem with bytes := t.mem.bytes, regs := t.mem.regs, copies := t.mem.copies, stash := t.mem.stash, stashPoison := t.mem.stashPoison
                             poison := t.mem.poison, tlb := t.mem.tlb, homeVa := t.mem.homeVa }
  kept : t.mem.stashKept s.mem

theorem State.afterStores_refl (s : State) : s.afterStores s := ⟨s.besideMemory_refl, rfl, s.mem.rereads_refl.kept⟩

theorem State.afterStores.lines {t s : State} (h : t.afterStores s) : t.mem.lines = s.mem.lines := by rw [h.mem]

theorem State.afterStores.reds {t s : State} (h : t.afterStores s) : t.mem.reds = s.mem.reds := by rw [h.mem]

theorem State.afterStores_trans {u t s : State} (h : u.afterStores t) (h' : t.afterStores s) : u.afterStores s := by
  refine ⟨State.besideMemory_trans h.beside h'.beside, h.mem.trans (by rw [h'.mem]), fun k hk => ?_⟩
  have hm : ¬ t.mem.cacheKey k := by rwa [Mem.cacheKey, h'.lines]
  exact ⟨(h.kept k hm).1.trans (h'.kept k hk).1, (h.kept k hm).2.trans (h'.kept k hk).2⟩

theorem State.afterStores_foldl {α : Type} {f : State → α → State} (h : ∀ t a, (f t a).afterStores t) (l : List α) (s : State) :
    (l.foldl f s).afterStores s := by
  induction l generalizing s with
  | nil => exact s.afterStores_refl
  | cons a r ih => exact State.afterStores_trans (ih (f s a)) (h s a)

theorem State.afterStores_of_reads {t s : State} (h : t.afterReads s) : t.afterStores s := by
  obtain ⟨hframe, hmem, -, hkept⟩ := h
  refine ⟨by rw [hframe]; exact s.besideMemory_mem _, hmem.trans (by rw [hmem]), hkept⟩

theorem State.watch_afterStores (s : State) (pw : Nat) : (s.watch pw).afterStores s := ⟨s.watch_besideMemory pw, rfl, s.mem.rereads_refl.kept⟩

theorem Mem.writeBack_frame (m : Mem) (pw : Nat) : m.writeBack pw = { m with bytes := (m.writeBack pw).bytes, regs := (m.writeBack pw).regs } := by
  unfold Mem.writeBack
  split <;> rfl

theorem Mem.cede_frame (m : Mem) (ag : Agent) (pw : Nat) : m.cede ag pw = { m with bytes := (m.cede ag pw).bytes, regs := (m.cede ag pw).regs } := by
  unfold Mem.cede
  split
  · split
    · rfl
    · exact m.writeBack_frame pw
  · rfl

theorem Mem.register_frame (m : Mem) (plain : Option Writer) (ag : Agent) (pw : Nat) (mask : BitVec 4) (val : Word) :
    m.register plain ag pw mask val = { m with
      bytes := (m.register plain ag pw mask val).bytes, regs := (m.register plain ag pw mask val).regs, poison := (m.register plain ag pw mask val).poison } := by
  unfold Mem.register
  dsimp only
  rw [m.cede_frame]

theorem State.storeWord_afterStores (s : State) (plain : Option Writer) (ag : Agent) (pa : Nat) (mask : BitVec 4) (val : Word) :
    (s.storeWord plain ag pa mask val).afterStores s := by
  have hreg : ({ s with mem := s.mem.register plain ag (wordOf pa) mask val } : State).afterStores s := by
    have hframe := s.mem.register_frame plain ag (wordOf pa) mask val
    refine ⟨s.besideMemory_mem _, hframe.trans (by rw [hframe]), fun k _ => ?_⟩
    rw [hframe]
    exact ⟨rfl, Iff.rfl⟩
  unfold State.storeWord
  refine State.afterStores_trans (State.watch_afterStores _ _) ?_
  split
  · next c _ =>
    exact State.afterStores_trans (State.afterStores_of_reads (State.afterReads_of_rereads (s := { s with mem := s.mem.register plain ag (wordOf pa) mask val })
      (Mem.renew_rereads _ c _))) hreg
  · exact hreg

theorem State.storeAtom_afterStores (s : State) (plain : Option Writer) (ag : Agent) (pa : Nat) (bs : List Byte) : (s.storeAtom plain ag pa bs).afterStores s :=
  State.afterStores_foldl (fun t _ => t.storeWord_afterStores _ _ _ _ _) _ s

/-! ### The pieces of an access -/

theorem forall_mem_of_mapM_ok {ε α β : Type} {f : α → Except ε β} {l : List α} {r : List β} (h : l.mapM f = .ok r) : ∀ b ∈ r, ∃ a ∈ l, f a = .ok b := by
  induction l generalizing r with
  | nil =>
    cases h
    exact fun b hb => by cases hb
  | cons a t ih =>
    rw [List.mapM_cons] at h
    cases ha : f a with
    | error e => rw [ha] at h; cases h
    | ok b =>
      cases ht : t.mapM f with
      | error e => rw [ha, ht] at h; cases h
      | ok r' =>
        rw [ha, ht] at h
        cases h
        intro c hc
        rcases List.mem_cons.mp hc with rfl | hc
        · exact ⟨a, List.mem_cons_self, ha⟩
        · obtain ⟨d, hd, hfd⟩ := ih ht c hc
          exact ⟨d, List.mem_cons_of_mem _ hd, hfd⟩

/-- A page's piece of a range lies inside the range. -/
theorem mem_pagePieces {va n : Nat} {p : Nat × Nat} (h : p ∈ pagePieces va n) : va ≤ p.1 ∧ p.1 + p.2 ≤ va + n ∧ p.1 < va + n := by
  unfold pagePieces at h
  split at h
  · cases h
  · obtain ⟨j, hj, rfl⟩ := List.mem_map.mp h
    have hj := List.mem_range.mp hj
    dsimp only
    unfold alignDown
    split <;> split <;> omega

/-- Cutting off an owner out of reach leaves a piece where it is. -/
theorem State.cutPiece_place {s : State} {vi : Nat} {acc : Access} {p q : Nat × Nat × Trans} (h : s.cutPiece vi acc p = .ok q) : q.1 = p.1 ∧ q.2.1 = p.2.1 := by
  unfold State.cutPiece at h
  dsimp only at h
  split_ifs at h <;> cases h <;> exact ⟨rfl, rfl⟩

/-- A piece of a located access lies inside the access. -/
theorem Ctx.locateOne_pieces {x : Ctx} {seg n : Nat} {acc : Access} {atomic : Bool} {a : Acc} {k : Located} (h : x.locateOne seg n acc atomic a = .ok k) (hn : n < 2 ^ 64) :
    ∀ p ∈ k.parts, pieceOff k.va p.1 + p.2.1 ≤ n := by
  rw [Ctx.locateOne] at h
  have hva : ((x.g.seg seg).1.toNat + a.off) % 2 ^ 64 < 2 ^ 64 := Nat.mod_lt _ (by decide)
  generalize ((x.g.seg seg).1.toNat + a.off) % 2 ^ 64 = va at h hva
  rw [State.reach] at h
  split at h
  · cases h
  · rw [State.ranged] at h
    split at h
    · cases h
    · next ps hps =>
      cases hcut : ps.mapM (x.s.cutPiece x.t.vi acc) with
      | error e => rw [hcut] at h; cases h
      | ok r =>
        rw [hcut] at h
        cases h
        intro p hp
        obtain ⟨q, hq, hcutq⟩ := forall_mem_of_mapM_ok hcut p hp
        obtain ⟨piece, hpiece, hpq⟩ := forall_mem_of_mapM_ok hps q hq
        obtain ⟨h1, h2⟩ := State.cutPiece_place hcutq
        obtain ⟨hlo, hhi, hlt⟩ := mem_pagePieces hpiece
        have hplace : q.1 = piece.1 % 2 ^ 64 ∧ q.2.1 = piece.2 := by
          split at hpq
          · cases hpq
            exact ⟨rfl, rfl⟩
          · cases hpq
        rw [h1, h2, hplace.1, hplace.2]
        unfold pieceOff
        rw [Nat.mod_eq_of_lt hva] at hlo hhi hlt ⊢
        omega

theorem Ctx.locate_pieces {x : Ctx} {seg n : Nat} {acc : Access} {atomic : Bool} {accs : List Acc} {ls : List Located} (h : x.locate seg n acc atomic accs = .ok ls)
    (hn : n < 2 ^ 64) : ∀ k ∈ ls, ∀ p ∈ k.parts, pieceOff k.va p.1 + p.2.1 ≤ n := by
  intro k hk
  rw [Ctx.locate_eq h] at hk
  obtain ⟨a, -, ha⟩ := List.mem_filterMap.mp hk
  exact Ctx.locateOne_pieces (eq_ok_of_toOption ha) hn

/-! ### Stores -/

/-- The byte of an access that one of its pieces has at a physical address. -/
def pieceIndex (va pa : Nat) (p : Nat × Nat × Trans) : Option Nat :=
  if p.2.2.pa ≤ pa ∧ pa < p.2.2.pa + p.2.1 then some (pieceOff va p.1 + (pa - p.2.2.pa)) else none

theorem Located.indexOf_eq (k : Located) (pa : Nat) : k.indexOf pa = k.parts.reverse.findSome? (pieceIndex k.va pa) := rfl

/-- One access stores its bytes. -/
theorem Ctx.writeAt_spec {x : Ctx} {t : State} {k : Located} {bs : List Byte} {plain : Bool} (hk : k.home = true) (hreds : ∀ r ∈ t.mem.reds, r.gid ≠ x.g.gid)
    (hin : ∀ p ∈ k.parts, pieceOff k.va p.1 + p.2.1 ≤ bs.length) :
    (x.writeAt t plain k bs).afterStores t ∧
      ∀ pa, (x.writeAt t plain k bs).mem.byte pa = ((k.indexOf pa).map (fun i => bs.getD i 0)).getD (t.mem.byte pa) := by
  rw [Located.home, List.all_eq_true] at hk
  unfold Ctx.writeAt
  simp only [Located.indexOf_eq]
  generalize k.parts = ps at hk hin
  induction ps generalizing t with
  | nil => exact ⟨t.afterStores_refl, fun _ => rfl⟩
  | cons p r ih =>
    obtain ⟨hremote, hrepl, hlost⟩ := p.2.2.home_iff.mp (hk p List.mem_cons_self)
    have hnote := t.noteTlb_afterReads x.g.core x.t.vi p.1 p.2.2
    have hreds' : (t.noteTlb x.g.core x.t.vi p.1 p.2.2).redsBefore x.g.gid p.2.2.pa p.2.1 = t.noteTlb x.g.core x.t.vi p.1 p.2.2 :=
      State.performReds_none fun q hq => by
        rw [(State.afterStores_of_reads hnote).reds] at hq
        simp [hreds q hq]
    rw [List.foldl_cons]
    simp only [hlost, hremote, hrepl, Bool.false_eq_true, if_false, hreds', State.store]
    have hstored := State.storeAtom_afterStores (t.noteTlb x.g.core x.t.vi p.1 p.2.2) (if plain then some { agentWriter x.agent with gid := some x.g.gid } else none)
      x.agent p.2.2.pa ((bs.drop (pieceOff k.va p.1)).take p.2.1)
    have hbytes := State.byte_storeAtom (t.noteTlb x.g.core x.t.vi p.1 p.2.2) (if plain then some { agentWriter x.agent with gid := some x.g.gid } else none)
      x.agent p.2.2.pa ((bs.drop (pieceOff k.va p.1)).take p.2.1)
    generalize (t.noteTlb x.g.core x.t.vi p.1 p.2.2).storeAtom _ _ _ _ = u at hstored hbytes ⊢
    have hu := State.afterStores_trans hstored (State.afterStores_of_reads hnote)
    obtain ⟨hafter, hget⟩ := ih (t := u) (by rw [hu.reds]; exact hreds) (fun q hq => hk q (List.mem_cons_of_mem _ hq)) fun q hq => hin q (List.mem_cons_of_mem _ hq)
    refine ⟨State.afterStores_trans hafter hu, fun pa => (hget pa).trans ?_⟩
    rw [List.reverse_cons, List.findSome?_append, List.findSome?_cons, List.findSome?_nil]
    cases r.reverse.findSome? (pieceIndex k.va pa) with
    | some i => rfl
    | none =>
      have hp := hin p List.mem_cons_self
      rw [Option.none_or, Option.map_none, Option.getD_none, hbytes, hnote.byte, pieceIndex, List.length_take, List.length_drop, Nat.min_eq_left (by omega)]
      split
      · rw [Option.map_some, Option.getD_some, List.getD_eq_getElem?_getD, List.getElem?_take_of_lt (by omega), List.getElem?_drop, ← List.getD_eq_getElem?_getD]
      · rfl

/-- The byte that one access stores at a physical address. -/
def Ctx.putAt (x : Ctx) (l : LArgs) (pa : Nat) (k : Located) : Option Byte := (k.indexOf pa).map (x.dataByte l k.acc)

theorem storedAt_eq (x : Ctx) (l : LArgs) (ls : List Located) (pa : Nat) : storedAt ls (x.dataByte l) pa = ls.reverse.findSome? (x.putAt l pa) := rfl

theorem Located.indexOf_lt {k : Located} {pa i n : Nat} (h : k.indexOf pa = some i) (hin : ∀ p ∈ k.parts, pieceOff k.va p.1 + p.2.1 ≤ n) : i < n := by
  rw [Located.indexOf_eq] at h
  obtain ⟨p, hp, hi⟩ := List.exists_of_findSome?_eq_some h
  have hle := hin p (List.mem_reverse.mp hp)
  unfold pieceIndex at hi
  split at hi
  · cases hi
    omega
  · cases hi

/-- Every access stores its bytes, in ascending lane order. -/
theorem Ctx.writes_spec {x : Ctx} {l : LArgs} {sz : Size} {plain : Bool} {ls : List Located} {t : State} (hhome : ∀ k ∈ ls, k.home = true)
    (hin : ∀ k ∈ ls, ∀ p ∈ k.parts, pieceOff k.va p.1 + p.2.1 ≤ sz.bytes) (hreds : ∀ r ∈ t.mem.reds, r.gid ≠ x.g.gid) :
    (ls.foldl (fun t k => x.writeAt t plain k (x.dataBytes l sz.bytes ((k.acc.lanes x.g.width).getLastD 0))) t).afterStores t ∧
      ∀ pa, (ls.foldl (fun t k => x.writeAt t plain k (x.dataBytes l sz.bytes ((k.acc.lanes x.g.width).getLastD 0))) t).mem.byte pa =
        (ls.reverse.findSome? (x.putAt l pa)).getD (t.mem.byte pa) := by
  induction ls generalizing t with
  | nil => exact ⟨t.afterStores_refl, fun _ => rfl⟩
  | cons k r ih =>
    have hk := hin k List.mem_cons_self
    obtain ⟨hone, hbytes⟩ := Ctx.writeAt_spec (x := x) (t := t) (plain := plain) (bs := x.dataBytes l sz.bytes ((k.acc.lanes x.g.width).getLastD 0))
      (hhome k List.mem_cons_self) hreds (by rw [Ctx.dataBytes_length]; exact hk)
    rw [List.foldl_cons]
    obtain ⟨hafter, hget⟩ := ih (fun q hq => hhome q (List.mem_cons_of_mem _ hq)) (fun q hq => hin q (List.mem_cons_of_mem _ hq)) (by rw [hone.reds]; exact hreds)
    refine ⟨State.afterStores_trans hafter hone, fun pa => (hget pa).trans ?_⟩
    rw [List.reverse_cons, List.findSome?_append, List.findSome?_cons, List.findSome?_nil]
    cases r.reverse.findSome? (x.putAt l pa) with
    | some b => rfl
    | none =>
      rw [Option.none_or, Option.getD_none, hbytes, Ctx.putAt]
      cases hi : k.indexOf pa with
      | none => rfl
      | some i => exact x.dataBytes_getD l sz k.acc (Located.indexOf_lt hi hk)

/-- The state in which a store is made: an STL's release comes first. -/
def Ctx.releasedBy (x : Ctx) (rel : Option Scope) : State :=
  match rel with
  | some sc => x.s.release x.g x.t sc
  | none => x.s

theorem Ctx.put4_memory {x : Ctx} {l : LArgs} {sz : Size} {rel : Option Scope} {ls : List Located} (h : x.Reaches l sz.bytes .write true (!rel.isSome) false ls) :
    x.put4 l sz.bytes rel = .ok (ls.foldl (fun t k => x.writeAt t rel.isNone k (x.dataBytes l sz.bytes ((k.acc.lanes x.g.width).getLastD 0))) (x.releasedBy rel)) := by
  obtain ⟨hseg, hinside, hsome, hpages, -, hrace, -, horder, hlens⟩ := h
  rw [Bool.not_not] at hinside horder
  have hrel : rel.filter (fun _ => x.syncs l.seg.toNat sz.bytes (x.accs l)) = rel := by
    rw [Ctx.syncs, bne_iff_ne.mpr hseg]
    cases rel <;> rfl
  have hplain : rel.isNone = !rel.isSome := by cases rel <;> rfl
  have hnorace : (if rel.isNone && x.l.race then raceTrap x.s x.g.gid x.agent true (localParts ls) else none) = none := by
    split
    · next hp =>
      rw [Bool.and_eq_true, hplain] at hp
      exact hrace hp.1 hp.2
    · rfl
  have horder' : x.orderWaits (!rel.isNone) = false := by rwa [hplain, Bool.not_not]
  rw [Ctx.put4, hrel]
  simp only [hinside, List.isEmpty_eq_false_iff.mpr hsome, horder', hseg, hpages, hnorace, hlens, Bool.false_eq_true, if_false]
  rfl

/-- The state in which a store of a group that has nothing on its way is made. -/
theorem Ctx.releasedBy_spec {x : Ctx} {rel : Option Scope} (hg : x.s.group? x.g.gid = some x.g) (hreds : x.noReds) (hsent : ∀ sc, rel = some sc → x.nothingSent sc) :
    x.releasedBy rel = { x.s with mem := (x.releasedBy rel).mem } ∧
      (x.releasedBy rel).mem = { x.s.mem with regs := (x.releasedBy rel).mem.regs, held := (x.releasedBy rel).mem.held } ∧
      ∀ pa, (x.releasedBy rel).mem.byte pa = x.s.mem.byte pa := by
  cases rel with
  | none => exact ⟨rfl, rfl, fun _ => rfl⟩
  | some sc =>
    have hrel : x.releasedBy (some sc) = { x.s with mem := x.releaseMem sc } := Ctx.release_eq hg hreds (hsent sc rfl)
    obtain ⟨hmem, hbyte⟩ := x.releaseMem_spec sc
    rw [hrel]
    exact ⟨rfl, hmem.trans (by rw [hmem]), hbyte⟩

theorem stores_of_puts {i : Instr} {l : LArgs} {sz : Size} {rel : Option Scope} {ok : Ctx → Prop}
    (hexec : ∀ s, exec i s = issue i noDyn (fun _ => [dataName l (vregsOf sz.bytes) true, addrName l]) (fun y => y.put4 l sz.bytes rel) s)
    (hok : ∀ x, ok x → ∀ sc, rel = some sc → x.nothingSent sc) : Stores i l sz.bytes (!rel.isSome) ok := by
  intro s x ls hx hx' hr hreds
  have hs := ctxOf_state hx.1
  subst hs
  obtain ⟨hframe, hmem, hbyte⟩ := Ctx.releasedBy_spec (ctxOf_group hx.1) hreds (hok x hx')
  have hn : sz.bytes < 2 ^ 64 := by cases sz <;> decide
  obtain ⟨hafter, hget⟩ := Ctx.writes_spec (l := l) (sz := sz) (plain := rel.isNone) (t := x.releasedBy rel) hr.home (Ctx.locate_pieces hr.pages hn)
    (by rw [hmem]; exact hreds)
  have hbeside : (x.releasedBy rel).besideMemory x.s := by
    rw [hframe]
    exact x.s.besideMemory_mem _
  refine ⟨_, exec_of_ok (hexec x.s) hx rfl (Ctx.put4_memory hr) (noInd_of_formatL rfl),
    State.besideMemory_advance (State.besideMemory_trans hafter.beside hbeside) _, fun pa => (hget pa).trans (by rw [storedAt_eq, hbyte]), ?_, fun k hk => ?_⟩
  · have hheld := congrArg Mem.held hafter.mem
    refine hafter.mem.trans ?_
    rw [State.modGroup_mem, hheld, hmem]
  · have hk' : ¬ (x.releasedBy rel).mem.cacheKey k := by
      rw [hmem]
      exact hk
    have hkept := hafter.kept k hk'
    rw [hmem] at hkept
    exact hkept

/-- Settles O13: every piece of every access is a store of its part of the data, and the last one to a byte stays. -/
theorem memoryStores : Obligations.MemoryStores := by
  unfold Obligations.MemoryStores
  exact ⟨fun g sz l => stores_of_puts (rel := none) (fun _ => rfl) (fun _ _ _ h => by cases h),
    fun g sz sc l => stores_of_puts (rel := some sc) (fun _ => rfl) (fun _ h _ hsc => by cases hsc; exact h)⟩

end Sys2Proof.Machine
end

section
/-! A fatal trap where two groups have one number (R46, R203, R226). -/
namespace Sys2Proof.Machine

/-- A group of another, paired team, with a lane that BAR has parked on barrier 0. -/
def Group.parkedElsewhere (g : Group) : Group := { g with gid := 9, task := 7, clause := none, parks := [barPark 0] }

/-- A group of the team that is swapped out, of the same number. -/
def Group.swappedOut (g : Group) : Group := { g with gid := 9, num := 1, residency := .out 0 1 }

/-- A paired team whose barrier 0 expects no lane. -/
def Task.pairedElsewhere (t : Task) : Task := { t with uid := 7, cores := [0, 1], barriers := t.barriers.set 0 ⟨true, [], []⟩ }

/-- The Lens has still to read the first line of core 0's stash, for team 7. -/
def lensEntry : ArrEntry := ⟨5, 9, 7, .mzero, .accepted, [0], 0, false, 0, 0, 0, 0, [], [], [(0, 0)], [], 0⟩

/-- Group 2 of team 1 is about to be killed; the number 9 is that of a group of team 7 and of one of team 1; the first line of core 0's stash is
mapped. -/
def fatalDoubled : State :=
  { issuing (.nop .always) with
    groups := (issuing (.nop .always)).groups.flatMap (fun g => [g, g.parkedElsewhere, g.swappedOut])
    tasks := (issuing (.nop .always)).tasks.flatMap (fun t => [t, t.pairedElsewhere])
    mem := { (issuing (.nop .always)).mem with lines := [⟨0, 0, some 0, 0, 0, false, true, 0, false, [], false⟩] }
    arrays := [lensEntry] }

/-- A trap fatal to group 2, whose team is not being killed yet, changes the matrix operations of another team. -/
def fatalTakes (s : State) : Bool :=
  match s.group? 2 with
  | some g =>
    match s.task? g.task with
    | some t => decide (g.gid = 2 ∧ t.killing = false ∧ (s.fatal g 0 0 false).arrays ≠ s.arrays.filter (fun e => e.task != g.task))
    | none => false
  | none => false

/-- Refutes O31: where two groups have one number, which the statement admits, the end of one of the killed team ends the other too; a barrier of that
one's team completes by it, a lane acquires, and the Lens reads the lines that the acquire takes: a matrix operation of another team changes. -/
theorem not_exitsAndKills : ¬ Obligations.ExitsAndKills := by
  unfold Obligations.ExitsAndKills
  rintro ⟨-, -, -, -, -, -, hfatal⟩
  have htakes : fatalTakes fatalDoubled = true := by decide +kernel
  rw [fatalTakes] at htakes
  split at htakes
  · next g hg =>
    split at htakes
    · next t ht =>
      obtain ⟨hgid, hkilling, harrays⟩ := of_decide_eq_true htakes
      obtain ⟨-, hkills⟩ := hfatal fatalDoubled g t 0 0 false (by rw [hgid]; exact hg) ht
      obtain ⟨-, hfiltered, -⟩ := hkills hkilling
      exact harrays hfiltered
    · cases htakes
  · cases htakes

end Sys2Proof.Machine
end

section
/-! Handlers (R239, R240, R302 to R308): the entry, its record, and the return. -/
namespace Sys2Proof.Machine

/-! ### The cause record -/

theorem leNat_leBytes (n v : Nat) : leNat (leBytes n v) = v % 256 ^ n := by
  induction n generalizing v with
  | zero => rw [leBytes, leNat, Nat.pow_zero, Nat.mod_one]
  | succ n ih =>
    rw [leBytes, leNat, ih, BitVec.toNat_ofNat, Nat.pow_succ' (m := 256)]
    exact (Nat.mod_mul (x := v) (a := 256) (b := 256 ^ n)).symm

/-- The first field of a record. -/
theorem field_leBytes (n v : Nat) (r : List Byte) : field (leBytes n v ++ r) 0 n = v % 256 ^ n := by
  rw [field, List.drop_zero, List.take_left' (leBytes_length n v), leNat_leBytes]

/-- A later field. -/
theorem field_skip {m off n : Nat} (h : m ≤ off) (v : Nat) (r : List Byte) : field (leBytes m v ++ r) off n = field r (off - m) n := by
  rw [field, field, List.drop_append, leBytes_length, List.drop_eq_nil_of_le (by rw [leBytes_length]; exact h), List.nil_append]

theorem field_last (n v : Nat) : field (leBytes n v) 0 n = v % 256 ^ n := by
  have h := field_leBytes n v []
  rwa [List.append_nil] at h

theorem causeRecord_holds {tr : Trap} {r : ReturnPoint} (resume tick : DWord) (hcls : tr.cls < 2 ^ 16) (hsub : tr.sub < 2 ^ 16) (hpos : tr.pos < 4) (hidx : tr.idx < 8)
    (hclause : r.clause < 2 ^ 32) (hindex : r.index < 16) (hop : r.opcode < 512) : recordHolds (causeRecord tr r resume tick) tr r resume tick := by
  have hrep : r.repLeft.toNat < 128 := r.repLeft.isLt
  have hlanes : tr.lanes.toNat < 2 ^ 64 := tr.lanes.isLt
  have hresume : resume.toNat < 2 ^ 64 := resume.isLt
  have haddr : tr.addr.toNat < 2 ^ 64 := tr.addr.isLt
  have hinfo : tr.infoA.toNat < 2 ^ 64 := tr.infoA.isLt
  have htick : tick.toNat < 2 ^ 64 := tick.isLt
  unfold recordHolds causeRecord
  simp (disch := decide) only [List.append_assoc, field_leBytes, field_skip, field_last, Nat.reduceSub]
  refine ⟨?_, ?_, ?_, ?_, ?_, ?_, ?_, ?_, ?_, ?_, ?_, ?_, ?_, ?_, ?_⟩
  · simp only [List.length_append, leBytes_length]
  · omega
  · omega
  · omega
  · unfold bit
    split <;> omega
  · split <;> omega
  all_goals omega

/-! ### Entry -/

theorem Ctx.Enters.takeTrap {x : Ctx} {tr : Trap} {r : ReturnPoint} {u : State} (h : x.Enters tr r u) :
    x.s.takeTrap x.g x.t tr r x.c.lanes = x.entered tr u := by
  obtain ⟨houtside, hcls, hhandler, haligned, hinside, harea, hwritten⟩ := h
  have hnot : ¬(tr.cls = 12 ∨ x.g.gsrH = true) := by rw [houtside]; simp [hcls]
  rw [State.takeTrap, if_neg hnot, enterHandler]
  dsimp only
  rw [if_neg hhandler, if_neg (by omega), if_neg (by omega), hwritten]
  rfl

/-- A trap outside a handler is taken as the entry to the handler says. -/
theorem State.takeTrap_eq {s : State} {g : Group} {t : Task} {tr : Trap} {r : ReturnPoint} {m : DWord} (hcls : tr.cls ≠ 12) (hout : g.gsrH = false) :
    s.takeTrap g t tr r m = match enterHandler s g t tr r m with
      | .ok s' => s'
      | .error .noHandler => s.fatal g tr.cls tr.sub false
      | .error (.fatal k) => s.fatal g 12 k false := by
  have hnot : ¬(tr.cls = 12 ∨ g.gsrH = true) := by rw [hout]; simp [hcls]
  rw [State.takeTrap, if_neg hnot] <;> rfl

/-! ### The return -/

/-- A change of groups that leaves what they have outstanding. -/
theorem filter_flatMap_modWhere {α β : Type} (l : List α) (t p : α → Bool) {f : α → α} {F : α → List β} (hp : ∀ a, p (f a) = p a) (hF : ∀ a, F (f a) = F a) :
    ((modWhere l t f).filter p).flatMap F = (l.filter p).flatMap F := by
  induction l with
  | nil => rfl
  | cons a r ih =>
    have hone : modWhere (a :: r) t f = (if t a then f a else a) :: modWhere r t f := rfl
    have ha : p (if t a then f a else a) = p a := by split <;> simp [hp]
    have hFa : F (if t a then f a else a) = F a := by split <;> simp [hF]
    rw [hone, List.filter_cons, List.filter_cons, ha]
    split
    · rw [List.flatMap_cons, List.flatMap_cons, hFa, ih]
    · exact ih

theorem State.deferred_modGroup (s : State) (gid core : Nat) {f : Group → Group} (h : ∀ g, ((f g).gid, (f g).core, (f g).outs) = (g.gid, g.core, g.outs)) :
    (s.modGroup gid f).deferred core = s.deferred core := by
  have hgid : ∀ g, (f g).gid = g.gid := fun g => congrArg Prod.fst (h g)
  have hcore : ∀ g, (f g).core = g.core := fun g => congrArg (fun q => q.2.1) (h g)
  have houts : ∀ g, (f g).outs = g.outs := fun g => congrArg (fun q => q.2.2) (h g)
  unfold State.deferred
  rw [State.modGroup_mem, State.modGroup]
  dsimp only
  rw [filter_flatMap_modWhere _ _ _ (fun g => by rw [hcore])]
  intro g
  rw [houts, hgid]

/-- Nothing waits for a line of the core: the return of a group starts no fill. -/
theorem State.fillWaited_modGroup {s : State} {gid core : Nat} {f : Group → Group} (hd : s.deferred core = [])
    (h : ∀ g, ((f g).gid, (f g).core, (f g).outs) = (g.gid, g.core, g.outs)) : (s.modGroup gid f).fillWaited core = s.modGroup gid f :=
  State.fillWaited_none ((s.deferred_modGroup gid core h).trans hd)

theorem fetchedBytes_eq (s : State) (core vi : Nat) (ps : List (Nat × Nat × Trans)) :
    ps.flatMap (fun p => s.mem.read (p.2.2.from' (l1Of core) vi p.1) p.2.1) = fetchedBytes s core vi ps := by
  refine List.flatMap_congr fun p _ => ?_
  rw [Trans.from']
  split
  · rfl
  · split <;> rfl

/-! ### RTT -/

/-- RTT, in the handler of a group that is not killed. -/
theorem exec_rtt_handling {g : Guard} {s : State} {x : Ctx} (hx : Runs (.rtt g) (fun _ => []) s x) (hany : x.any = true) (hh : x.g.gsrH = true)
    (hk : x.g.killed = false) : exec (.rtt g) s = .next ((s.returnFromTrap x.g x.t).fillWaited x.g.core) := by
  have hs := ctxOf_state hx.1
  subst hs
  have hexec : exec (.rtt g) x.s = issue (.rtt g) (fun x => !x.g.gsrH) (fun _ => []) (fun x =>
      if !x.any then .ok x.s
      else .hold (if x.g.killed then x.s.endGroup x.g.gid else (x.s.returnFromTrap x.g x.t).fillWaited x.g.core)) x.s := rfl
  refine exec_of_hold hexec hx (by simp [hh]) ?_
  rw [hany, hk]
  rfl

/-- A return with a record that can be read and a return clause that can be fetched. -/
theorem State.returnFromTrap_eq {s : State} {g : Group} {t : Task} {bytes : List Byte} {ps : List (Nat × Nat × Trans)}
    (hread : s.coreRead g.core t.vi g.trapArea 64 = some bytes) (haligned : field bytes 4 4 % 8 = 0)
    (hps : s.reach g.core t.vi .fetch false (((g.seg 4).1.toNat + field bytes 4 4) % 2 ^ 64) 8 = .ok ps) :
    s.returnFromTrap g t =
      if leNat (fetchedBytes s g.core t.vi ps) % 16 < field bytes 8 1 % 16 then s.fatal g 0 3 false
      else if (field bytes 8 1 / 16 % 2 == 1 && field bytes 8 1 % 16 == leNat (fetchedBytes s g.core t.vi ps) % 16) = true then
        s.modGroup g.gid (fun h =>
          { h.arriveAt (BitVec.ofNat 64 (field bytes 0x18 8) &&& g.live) (BitVec.ofNat 32 (field bytes 4 4 + 8 * (leNat (fetchedBytes s g.core t.vi ps) % 16 + 2))) with
            gsrH := false, clause := none, hold := .none, resumeIssue := none })
      else
        s.modGroup g.gid (fun h =>
          { h.transferTo (BitVec.ofNat 64 (field bytes 0x18 8) &&& g.live) (BitVec.ofNat 32 (field bytes 4 4)) with
            gsrH := false, clause := none, hold := .none, resume := BitVec.ofNat 64 (field bytes 0x18 8) &&& g.live
            resumeIssue := some (field bytes 8 1 % 16, field bytes 8 1 / 16 % 2 == 1)
            repLeft := BitVec.ofNat 7 (field bytes 12 4), repDone := BitVec.ofNat 8 (field bytes 12 4 / 128 % 128) }) := by
  rw [State.returnFromTrap, hread]
  dsimp only
  rw [hps]
  dsimp only
  simp only [fetchedBytes_eq]
  rw [if_neg (by rw [haligned]; decide)]

/-- RTT outside a handler is illegal. -/
theorem exec_rtt_outside {g : Guard} {s : State} {x : Ctx} (hx : ctxOf s g = some x) (hh : x.g.gsrH = false)
    (hallowed : (Instr.rtt g).allowedIn (x.c.header.toNat / 16 % 8) = true) : exec (.rtt g) s = .next (x.raise (trapIllegal 3 x.act)) := by
  have hill : illegalUse (.rtt g) (fun x => if !x.g.gsrH then some 3 else none) x = some 3 := by
    rw [illegalUse, hh, hallowed]
    cases isService x.g.core && (Instr.rtt g).lacksService <;> rfl
  have hexec : exec (.rtt g) s = issueDyn (.rtt g) (fun x => if !x.g.gsrH then some 3 else none) (fun _ => []) (fun x =>
      if !x.any then .ok x.s
      else .hold (if x.g.killed then x.s.endGroup x.g.gid else (x.s.returnFromTrap x.g x.t).fillWaited x.g.core)) s := rfl
  rw [hexec, issueDyn, show (Instr.rtt g).guard.getD .always = g from rfl, hx]
  dsimp only
  rw [hill]

/-- TRAP of a group that can enter its handler. -/
theorem exec_trap_enters {g : Guard} {code : BitVec 24} {s u : State} {x : Ctx} (hx : Runs (.trap g code) (fun _ => []) s x) (hany : x.any = true)
    (h : x.Enters ⟨10, 0, x.act, 0, code.setWidth 64, 0, 0⟩ (x.returnPoint true) u) :
    exec (.trap g code) s = .next (x.entered ⟨10, 0, x.act, 0, code.setWidth 64, 0, 0⟩ u) := by
  have hs := ctxOf_state hx.1
  subst hs
  have hexec : exec (.trap g code) x.s = issue (.trap g code) noDyn (fun _ => []) (fun x =>
    if !x.any then .ok x.s
    else .hold (x.s.takeTrap x.g x.t ⟨10, 0, x.act, 0, BitVec.ofNat 64 code.toNat, 0, 0⟩ (x.returnPoint true) x.c.lanes)) x.s := rfl
  refine exec_of_hold hexec hx rfl ?_
  rw [hany, ← h.takeTrap, BitVec.ofNat_toNat]
  rfl

/-- Settles O32: nothing that an entry or a return writes lies in what waits for a stash line, so no fill starts. -/
theorem trapAndReturn : Obligations.TrapAndReturn := by
  unfold Obligations.TrapAndReturn
  refine ⟨fun g code s x u hx hany => exec_trap_enters hx hany, fun x tr r u h => h.takeTrap,
    fun tr r resume tick hcls hsub hpos hidx hclause hindex hop => causeRecord_holds resume tick hcls hsub hpos hidx hclause hindex hop, ?_,
    fun g s x hx hh hallowed => exec_rtt_outside hx hh hallowed⟩
  intro g s x bytes hx hany hh hk hdeferred hread clause index next resume ps hps count haligned hindex
  have hret := State.returnFromTrap_eq hread haligned hps
  rw [if_neg (Nat.not_lt.mpr hindex)] at hret
  refine ⟨fun hnext => ?_, fun hnext => ?_⟩
  · rw [if_pos (by rw [Bool.and_eq_true, beq_iff_eq, beq_iff_eq]; exact hnext)] at hret
    rw [exec_rtt_handling hx hany hh hk, hret, State.fillWaited_modGroup hdeferred]
    exact fun _ => rfl
  · rw [if_neg (by rw [Bool.and_eq_true, beq_iff_eq, beq_iff_eq]; exact hnext)] at hret
    rw [exec_rtt_handling hx hany hh hk, hret, State.fillWaited_modGroup hdeferred]
    · rfl
    · exact fun _ => rfl

/-- Settles O33: a trap is taken as the entry's checks say in their order, and a return likewise. -/
theorem handlerEntry : Obligations.HandlerEntry := by
  unfold Obligations.HandlerEntry
  refine ⟨?_, ?_, ?_⟩
  · intro x tr u y hy
    refine Eq.trans ?_ hy.takeTrap
    rw [Ctx.raise, State.noteConsumed]
    show State.takeTrap _ _ _ _ _ _ = _
    by_cases hc : tr.cls = 11 ∧ x.g.privileged x.t = true
    · have hyeq : y = { x with s := { x.s with host := { x.s.host with consumed := x.s.host.consumed ++ [x.g.core] } } } := if_pos hc
      rw [if_pos hc, hyeq]
    · have hyeq : y = x := if_neg hc
      rw [if_neg hc, hyeq]
  · intro s g t tr r m hcls hout base e
    rw [State.takeTrap_eq hcls hout, enterHandler]
    refine ⟨fun h => ?_, fun h h1 => ?_, fun h h1 h2 h3 => ?_, fun h h1 h2 h3 h4 => ?_⟩
    · rw [if_pos h]
    · rw [if_neg h, if_pos h1]
    · rw [if_neg h, if_neg fun hbad => hbad.elim (fun hb => hb h1) (Nat.not_le.mpr h2), if_pos h3]
    · rw [if_neg h, if_neg fun hbad => hbad.elim (fun hb => hb h1) (Nat.not_le.mpr h2), if_neg (Nat.not_lt.mpr h3)]
      generalize s.groupPut g t.vi g.trapArea (causeRecord tr r m s.tick) = q at h4
      obtain ⟨s', b⟩ := q
      cases h4
      rfl
  · intro g s x hx hany hh hk h1 h0 h12
    refine ⟨fun hread => ?_, fun bytes hread => ⟨fun hmis => ?_, fun ps haligned hps hindex => ?_⟩⟩
    · have hret : s.returnFromTrap x.g x.t = s.fatal x.g 12 3 false := by rw [State.returnFromTrap, hread]
      rw [exec_rtt_handling hx hany hh hk, hret, State.fillWaited_none h12]
    · have hret : s.returnFromTrap x.g x.t = s.fatal x.g 1 0 false := by
        rw [State.returnFromTrap, hread]
        dsimp only
        rw [if_pos hmis]
      rw [exec_rtt_handling hx hany hh hk, hret, State.fillWaited_none h1]
    · have hret := State.returnFromTrap_eq hread haligned hps
      rw [if_pos hindex] at hret
      rw [exec_rtt_handling hx hany hh hk, hret, State.fillWaited_none h0]

end Sys2Proof.Machine
end

section
/-! SPAWN, SPAWNC and UINT (R241 to R245). -/
namespace Sys2Proof.Machine

/-- The state in which a task made by a group is created: its record stands in its queue. -/
def State.spawned (s2 : State) (x : Ctx) (rec0 c : List Byte) (addr sq die : Nat) : State :=
  { s2 with
    nextId := s2.nextId + 1
    tasks := s2.tasks ++ [{ newTask s2.nextId x.t.vi x.t.grid true false 0 sq (contOf c) (some addr) x.t.service x.t.privileged die with
      launch := x.ownLaunch rec0 }] }

theorem State.enqueueTask_of_enqueue {s1 s2 : State} {x : Ctx} {rec0 c : List Byte} {q addr sq : Nat} (h : s1.enqueue x.t.vi q 0 0 0 c = some (s2, addr, sq)) :
    s1.enqueueTask x.t.vi x.t.grid q c x.t.service x.t.privileged (x.ownLaunch rec0) =
      some (s2.spawned x rec0 c addr sq (s1.dieOfRecord x.t.vi (contOf c) x.t.service)) := by
  rw [State.enqueueTask, h]
  rfl

/-- The state in which a group's task is created: its release is done. -/
def Ctx.releasedFor (x : Ctx) (rel : Rel) : State := match rel with | some sc => x.s.release x.g x.t sc | none => x.s

/-- The state in which a spawned task's record is made durable: its join counter counts it. -/
def Ctx.joined (x : Ctx) (rel : Rel) (a : SpawnArgs) : State :=
  match a.join with
  | some k => (x.atomLocated (x.releasedFor rel) .add32 k ⟨k.acc, 0, 1, 0⟩).1
  | none => x.releasedFor rel

theorem Ctx.spawn_ok {x : Ctx} {rel : Rel} {ua ub : Nat} {a : SpawnArgs} {s2 : State} {addr sq : Nat} (hany : x.any = true) (horder : x.orderWaits true = false)
    (hchecks : x.spawnChecks ua ub none true = .ok a)
    (hroom : (x.joined rel a).enqueue x.t.vi ub 0 0 0 (patchCont a.rec0 (x.t.cont.depth + 1) (some false) (x.childLaunch a.rec0)) = some (s2, addr, sq)) :
    x.spawn rel ub ua = .ok (s2.spawned x a.rec0 (patchCont a.rec0 (x.t.cont.depth + 1) (some false) (x.childLaunch a.rec0)) addr sq
      ((x.joined rel a).dieOfRecord x.t.vi (contOf (patchCont a.rec0 (x.t.cont.depth + 1) (some false) (x.childLaunch a.rec0))) x.t.service)) := by
  have hq := State.enqueueTask_of_enqueue (rec0 := a.rec0) hroom
  have hspawn : x.spawn rel ub ua = (match (x.joined rel a).enqueueTask x.t.vi x.t.grid ub
      (patchCont a.rec0 (x.t.cont.depth + 1) (some false) (x.childLaunch a.rec0)) x.t.service x.t.privileged (x.ownLaunch a.rec0) with
    | some s3 => .ok s3
    | none => x.again) := by
    unfold Ctx.spawn
    simp only [hany, horder, hchecks, Bool.not_true, Bool.false_eq_true, if_false] <;> rfl
  rw [hspawn, hq]

/-- SPAWNC after its checks: at once where its counter is 0. -/
theorem Ctx.spawnc_eq {x : Ctx} {rel : Rel} {ua ub uc : Nat} {a : SpawnArgs} {k : Located} (hany : x.any = true) (horder : x.orderWaits true = false)
    (hchecks : x.spawnChecks ua ub (some uc) false = .ok a) (hk : a.counter = some k) :
    x.spawnc rel uc ub ua = if leNat (x.current (x.releasedFor rel) k) == 0 then
      match (x.releasedFor rel).enqueueTask x.t.vi x.t.grid ub
        (patchCont a.rec0 x.t.cont.depth (some true) (x.childLaunch a.rec0)) x.t.service x.t.privileged (x.ownLaunch a.rec0) with
      | some s3 => .ok s3
      | none => x.again
    else .ok { x.releasedFor rel with regs31 := (x.releasedFor rel).regs31 ++ [⟨x.t.vi, x.t.grid, counterKey x.t.vi k, ub,
      patchCont a.rec0 x.t.cont.depth (some true) (x.childLaunch a.rec0), x.t.service, x.t.privileged, x.ownLaunch a.rec0, none⟩] } := by
  unfold Ctx.spawnc
  simp only [hany, horder, hchecks, hk, Option.all_some, Option.map_some, Option.getD_some, Bool.not_true, Bool.false_eq_true, if_false] <;> rfl

theorem Ctx.spawnc_zero {x : Ctx} {rel : Rel} {ua ub uc : Nat} {a : SpawnArgs} {k : Located} {s2 : State} {addr sq : Nat} (hany : x.any = true)
    (horder : x.orderWaits true = false) (hchecks : x.spawnChecks ua ub (some uc) false = .ok a) (hk : a.counter = some k)
    (hzero : leNat (x.current (x.releasedFor rel) k) = 0)
    (hroom : (x.releasedFor rel).enqueue x.t.vi ub 0 0 0 (patchCont a.rec0 x.t.cont.depth (some true) (x.childLaunch a.rec0)) = some (s2, addr, sq)) :
    x.spawnc rel uc ub ua = .ok (s2.spawned x a.rec0 (patchCont a.rec0 x.t.cont.depth (some true) (x.childLaunch a.rec0)) addr sq
      ((x.releasedFor rel).dieOfRecord x.t.vi (contOf (patchCont a.rec0 x.t.cont.depth (some true) (x.childLaunch a.rec0))) x.t.service)) := by
  have hq := State.enqueueTask_of_enqueue (rec0 := a.rec0) hroom
  rw [Ctx.spawnc_eq hany horder hchecks hk, hzero, hq]
  rfl

theorem Ctx.spawnc_later {x : Ctx} {rel : Rel} {ua ub uc : Nat} {a : SpawnArgs} {k : Located} (hany : x.any = true)
    (horder : x.orderWaits true = false) (hchecks : x.spawnChecks ua ub (some uc) false = .ok a) (hk : a.counter = some k)
    (hzero : leNat (x.current (x.releasedFor rel) k) ≠ 0) :
    x.spawnc rel uc ub ua = .ok { x.releasedFor rel with regs31 := (x.releasedFor rel).regs31 ++ [⟨x.t.vi, x.t.grid, counterKey x.t.vi k, ub,
      patchCont a.rec0 x.t.cont.depth (some true) (x.childLaunch a.rec0), x.t.service, x.t.privileged, x.ownLaunch a.rec0, none⟩] } := by
  rw [Ctx.spawnc_eq hany horder hchecks hk, beq_eq_false_iff_ne.mpr hzero]
  rfl

/-- UINT of a group that has nothing on its way. -/
theorem exec_uint_quiet {g : Guard} {payload : BitVec 24} {sa : BitVec 6} {s : State} {x : Ctx} (hx : Runs (.uint g payload sa) (fun _ => [uName 1 sa]) s x)
    (hany : x.any = true) (hreds : x.noReds) (hsent : x.nothingSent .sys) (horder : x.orderWaits true = false) :
    exec (.uint g payload sa) s = .next { s.modGroup x.g.gid Group.advance with
      mem := x.releaseMem .sys
      host := { s.host with interrupts := s.host.interrupts ++
        [(⟨x.t.vi, (s.viOf x.t.vi).uintBase, x.u sa % 256, payload, sysWord x .team 0, sysWord x .core 0, x.g.num⟩ : Interrupt)] } } := by
  have hs := ctxOf_state hx.1
  subst hs
  have hexec : exec (.uint g payload sa) x.s = issue (.uint g payload sa) noDyn (fun _ => [uName 1 sa]) (fun x =>
    if !x.any then .ok x.s
    else x.afterRelease .sys (fun s1 =>
      let n : Interrupt := { vi := x.t.vi, base := (s1.viOf x.t.vi).uintBase, target := x.u sa % 256, payload := payload
                             team := sysTeam x.t x.l, core := sysCore x.g.core, group := x.g.num }
      .ok { s1 with host := { s1.host with interrupts := s1.host.interrupts ++ [n] } })) x.s := rfl
  have hteam : sysTeam x.t x.l = sysWord x .team 0 := Ctx.sysVal_eq x .team 0
  have hcore : sysCore x.g.core = sysWord x .core 0 := Ctx.sysVal_eq x .core 0
  refine (exec_of_ok hexec hx rfl (t := { x.s with
    mem := x.releaseMem .sys
    host := { x.s.host with interrupts := x.s.host.interrupts ++
      [(⟨x.t.vi, (x.s.viOf x.t.vi).uintBase, x.u sa % 256, payload, sysWord x .team 0, sysWord x .core 0, x.g.num⟩ : Interrupt)] } }) ?_
    (noInd_of_uNames fun nm h => ⟨1, sa, List.mem_singleton.mp h⟩)).trans rfl
  rw [hany, Ctx.afterRelease, horder, Ctx.release_eq (ctxOf_group hx.1) hreds hsent, hteam, hcore]
  rfl

/-- Settles O34: a spawn in the settled state does its release, its count and its record one after another. -/
theorem spawns : Obligations.Spawns := by
  unfold Obligations.Spawns
  refine ⟨?_, ?_, ?_⟩
  · intro g rel ub ua s x a hx hany y horder hchecks s0 s1 c s2 addr sq hroom
    have hs := ctxOf_state hx.1
    subst hs
    have hexec : exec (.spawn g rel ub ua) x.s = issue (.spawn g rel ub ua) noDyn (fun _ => [uName 1 ua, uName 2 ub])
      (fun x => x.settled.spawn rel (x.u ub) (x.u ua)) x.s := rfl
    refine exec_of_ok hexec hx rfl (Ctx.spawn_ok (x := x.settled) hany horder hchecks hroom) (noInd_of_uNames fun nm h => ?_)
    rcases List.mem_cons.mp h with rfl | h
    · exact ⟨1, ua, rfl⟩
    · exact ⟨2, ub, List.mem_singleton.mp h⟩
  · intro g rel uc ub ua s x a k hx hany y horder hchecks hk s1 c
    have hs := ctxOf_state hx.1
    subst hs
    have hexec : exec (.spawnc g rel uc ub ua) x.s = issue (.spawnc g rel uc ub ua) noDyn (fun _ => [uName 1 ua, uName 2 ub, uName 3 uc])
      (fun x => x.settled.spawnc rel (x.u uc) (x.u ub) (x.u ua)) x.s := rfl
    have hind : ∀ o ∈ namedOps [uName 1 ua, uName 2 ub, uName 3 uc], o.isInd = false := noInd_of_uNames fun nm h => by
      rcases List.mem_cons.mp h with rfl | h
      · exact ⟨1, ua, rfl⟩
      · rcases List.mem_cons.mp h with rfl | h
        · exact ⟨2, ub, rfl⟩
        · exact ⟨3, uc, List.mem_singleton.mp h⟩
    refine ⟨fun hzero s2 addr sq hroom => ?_, fun hzero => ?_⟩
    · exact exec_of_ok hexec hx rfl (Ctx.spawnc_zero (x := x.settled) hany horder hchecks hk hzero hroom) hind
    · exact exec_of_ok hexec hx rfl (Ctx.spawnc_later (x := x.settled) hany horder hchecks hk hzero) hind
  · intro g payload sa s x hx hany hreds hsent horder
    have hs := ctxOf_state hx.1
    subst hs
    exact ⟨_, x.releaseMem_spec .sys, exec_uint_quiet hx hany hreds hsent horder⟩

end Sys2Proof.Machine
end

section
/-! Results that land, and lanes that wake (R41, R87, R106, R107, R199 to R203). -/
namespace Sys2Proof.Machine

theorem State.group?_gid {s : State} {gid : Nat} {g : Group} (h : s.group? gid = some g) : g.gid = gid := by
  rw [State.group?] at h
  exact beq_iff_eq.mp (List.find?_some (p := fun k : Group => k.gid == gid) h)

/-- Changing a group, found by its id, changes only that group. -/
theorem State.modGroup_only {s : State} {gid : Nat} {g : Group} {f : Group → Group} (hg : s.group? gid = some g) (hf : ∀ k : Group, (f k).gid = k.gid) :
    (s.modGroup gid f).onlyGroup s (f g) := by
  obtain rfl := State.group?_gid hg
  exact State.modGroup_onlyGroup f hg hf

/-! ### A result that lands -/

theorem Group.land_eq (g : Group) (w : RegWrite) : g.land w = g.putPlace w.place w.leaves := by
  cases w with
  | v n l val => exact congrArg (g.vset n l) (by simp [RegWrite.leaves])
  | s n val => rfl

theorem RegWrite.fits {w : RegWrite} (h : w.place.ok) : w.place.fits w.leaves := by
  cases w with
  | v n l val => exact ⟨h, by simp [RegWrite.leaves]⟩
  | s n val => trivial

/-- Landed writes change registers of a group and their poison alone. -/
theorem Group.lands_frame (ws : List RegWrite) (g : Group) :
    ws.foldl Group.land g = { g with v := (ws.foldl Group.land g).v, s := (ws.foldl Group.land g).s
                                     poisonV := (ws.foldl Group.land g).poisonV, poisonS := (ws.foldl Group.land g).poisonS } := by
  refine foldl_keeps (fun h : Group => h = { g with v := h.v, s := h.s, poisonV := h.poisonV, poisonS := h.poisonS }) _ (fun h w hh => ?_) ws g rfl
  rw [hh]
  cases w <;> rfl

theorem Group.look_lands {ws : List RegWrite} (hn : (ws.map RegWrite.place).Nodup) (hok : ∀ w ∈ ws, w.place.ok) (g : Group) :
    (∀ w ∈ ws, (ws.foldl Group.land g).look w.place = w.leaves) ∧
    (∀ q : RegPlace, q.ok → q ∉ ws.map RegWrite.place → (ws.foldl Group.land g).look q = g.look q) := by
  have hfold : ws.foldl Group.land g = (ws.map (fun w => (w.place, w.leaves))).foldl (fun h r => h.putPlace r.1 r.2) g := by
    rw [List.foldl_map]
    exact congrArg (fun f => ws.foldl f g) (funext fun h => funext fun w => h.land_eq w)
  have hfst : (ws.map (fun w => (w.place, w.leaves))).map Prod.fst = ws.map RegWrite.place := by rw [List.map_map]; rfl
  obtain ⟨hin, hout⟩ := look_putPlaces (ws.map (fun w => (w.place, w.leaves))) (by rw [hfst]; exact hn)
    (fun r hr => by
      obtain ⟨w, hw, rfl⟩ := List.mem_map.mp hr
      exact RegWrite.fits (hok w hw)) g
  rw [hfold]
  refine ⟨fun w hw => hin (w.place, w.leaves) (List.mem_map.mpr ⟨w, hw, rfl⟩), fun q hq hne => hout q hq (by rw [hfst]; exact hne)⟩

theorem Group.landPend_gid (g : Group) (k : Nat) (m : DWord) : (g.landPend k m).gid = g.gid := by
  rw [Group.landPend]
  split
  · rfl
  · dsimp only
    split
    · exact (congrArg Group.gid (Group.lands_frame _ g) :)
    · exact (congrArg Group.gid (Group.lands_frame _ g) :)

/-- A result that lands in every lane of its group. -/
theorem Group.landPend_full {g : Group} {k : Nat} {o : Pend} (ho : g.outs.find? (fun q => q.key == k && q.src == .ready) = some o)
    (hl : ∀ n l v, RegWrite.v n l v ∈ o.writes → l < g.width) (hw : g.width ≤ 64) :
    g.landPend k (fullMask g.width) = { o.writes.foldl Group.land g with
      fsr := g.fsr ||| o.flags, outs := g.outs.filter (fun q => q.key != k) } := by
  have hall : ∀ w ∈ o.writes, w.inLanes (fullMask g.width) = true := fun w hmem => by
    cases w with
    | v n l val =>
      have hlt := hl n l val hmem
      simp only [RegWrite.inLanes, fullMask, BitVec.getLsbD_ofNat, Nat.testBit_two_pow_sub_one, hlt, Nat.lt_of_lt_of_le hlt hw, decide_true, Bool.and_self]
    | s n val => rfl
  have hnow : o.writes.filter (fun w => w.inLanes (fullMask g.width)) = o.writes := List.filter_eq_self.mpr hall
  have hlater : o.writes.filter (not ∘ fun w => w.inLanes (fullMask g.width)) = [] :=
    List.filter_eq_nil_iff.mpr fun w hmem => by simp [hall w hmem]
  rw [Group.landPend, ho]
  dsimp only
  rw [List.partition_eq_filter_filter, hnow, hlater]
  dsimp only
  rw [if_pos List.isEmpty_nil]
  have hf := Group.lands_frame o.writes g
  rw [show (o.writes.foldl Group.land g).fsr = g.fsr from (congrArg Group.fsr hf :), show (o.writes.foldl Group.land g).outs = g.outs from (congrArg Group.outs hf :)]

/-! ### A parked lane that unparks -/

theorem Group.writeStatus_frame (g : Group) (p : Park) (st : Nat) :
    g.writeStatus p st = { g with v := (g.writeStatus p st).v, poisonV := (g.writeStatus p st).poisonV } := by
  rw [Group.writeStatus]
  split <;> rfl

/-- The group of a lane that has unparked. -/
def Group.unparked (p : Park) (st : Nat) (g : Group) : Group :=
  { g.writeStatus p st with parks := g.parks.filter (fun q => q.lane != p.lane) }

theorem Group.unparked_frame (p : Park) (st : Nat) (g : Group) :
    g.unparked p st = { g with v := (g.unparked p st).v, poisonV := (g.unparked p st).poisonV, parks := g.parks.filter (fun q => q.lane != p.lane) } :=
  congrArg (fun h : Group => { h with parks := g.parks.filter (fun q => q.lane != p.lane) }) (g.writeStatus_frame p st)

theorem Group.vget_unparked {p : Park} (g : Group) (st : Nat) (hp : p.lane < 64) {n l : Nat} (hl : l < 64) :
    (g.unparked p st).vget n l = if p.dst = .v n ∧ l = p.lane then BitVec.ofNat 32 st else g.vget n l := by
  simp only [Group.unparked, Group.vget, Group.writeStatus]
  cases p.dst with
  | none => simp
  | v m =>
    simp only [Group.vset, Store.get_set]
    by_cases h : m = n ∧ l = p.lane
    · simp [h]
    · have hne : n * 64 + l ≠ m * 64 + p.lane := fun hk => h ⟨by omega, by omega⟩
      rw [if_neg hne, if_neg fun hk => h ⟨by simpa using hk.1, hk.2⟩]

theorem State.lensTake_modGroup (s : State) (gid : Nat) (f : Group → Group) (e : ArrEntry) (core line : Nat) :
    (s.modGroup gid f).lensTake e core line = (s.lensTake e core line).modGroup gid f := by
  rw [State.lensTake, State.lensTake]
  rw [show (s.modGroup gid f).stashBad core (128 * line) 128 = s.stashBad core (128 * line) 128 from rfl]
  split <;> rfl

section Acquire
variable {f : Group → Group} (gid : Nat) (hf : ∀ g, ((f g).gid, (f g).core, (f g).outs) = (g.gid, g.core, g.outs))
include hf

theorem State.lensFirst_modGroup (s : State) (core line : Nat) :
    (s.modGroup gid f).lensFirst core line = (s.lensFirst core line).modGroup gid f := by
  rw [State.lensFirst, State.lensFirst]
  rw [show (s.modGroup gid f).arrays = s.arrays from rfl]
  generalize s.arrays.filter (fun e => e.stage == .accepted && e.toRead.contains (core, line)) = es
  induction es generalizing s with
  | nil => rfl
  | cons e r ih =>
    rw [List.foldl_cons, List.foldl_cons, State.writeBefore, State.writeBefore, State.deferred_modGroup s gid core hf]
    split
    · exact ih s
    · rw [State.lensTake_modGroup, ih]

/-- An acquire reads of the groups only what they have deferred. -/
theorem State.acquire_modGroup (s : State) (core vi lo hi : Nat) (mask : BitVec 16) :
    (s.modGroup gid f).acquire core vi lo hi mask = (s.acquire core vi lo hi mask).modGroup gid f := by
  have hfold : ∀ (ls : List Line) (u : State), ls.foldl (fun u l => u.lensFirst core l.line) (u.modGroup gid f) =
      (ls.foldl (fun u l => u.lensFirst core l.line) u).modGroup gid f := fun ls => by
    induction ls with
    | nil => exact fun u => rfl
    | cons l r ih => exact fun u => by rw [List.foldl_cons, List.foldl_cons, State.lensFirst_modGroup gid hf, ih]
  rw [State.acquire, State.acquire]
  dsimp only
  rw [State.modGroup_mem, show (s.modGroup gid f).viOf vi = s.viOf vi from rfl, hfold]
  rfl

theorem State.acquireBy_modGroup (s : State) (g : Group) (t : Task) (sc : Scope) (mask : BitVec 16) :
    (s.modGroup gid f).acquireBy g t sc mask = (s.acquireBy g t sc mask).modGroup gid f := by
  rw [State.acquireBy, State.acquireBy]
  split
  · rfl
  · exact State.acquire_modGroup gid hf _ _ _ _ _ _
end Acquire

/-- A lane that unparks. -/
theorem State.unpark_spec {s : State} {gid : Nat} {g : Group} (t : Task) {p : Park} (status : Nat) (hg : s.group? gid = some g) (hp : p.lane < 64) :
    ∃ h, (s.unpark g t p status).onlyGroup { s with
        mem := if p.onBar = true ∧ status = 0 then (s.acquireBy g t .grp 0xFFFF).mem else s.mem
        arrays := if p.onBar = true ∧ status = 0 then (s.acquireBy g t .grp 0xFFFF).arrays else s.arrays } h ∧
      h = { g with v := h.v, poisonV := h.poisonV, parks := g.parks.filter (fun q => q.lane != p.lane) } ∧
      ∀ n l, l < 64 → h.vget n l = if p.dst = .v n ∧ l = p.lane then BitVec.ofNat 32 status else g.vget n l := by
  obtain rfl := State.group?_gid hg
  have hkeep : ∀ k, ((Group.unparked p status k).gid, (Group.unparked p status k).core, (Group.unparked p status k).outs) = (k.gid, k.core, k.outs) := fun k => by
    rw [Group.unparked_frame]
  refine ⟨g.unparked p status, ?_, g.unparked_frame p status, fun n l hl => g.vget_unparked status hp hl⟩
  have hs1 : s.unpark g t p status = if (p.onBar && status == 0) = true then (s.modGroup g.gid (Group.unparked p status)).acquireBy g t .grp 0xFFFF
      else s.modGroup g.gid (Group.unparked p status) := rfl
  rw [hs1, State.acquireBy_modGroup g.gid hkeep]
  have hframe := (s.acquireBy_step g t .grp 0xFFFF).frame
  have hgroups : ∀ u : State, u.groups = s.groups → u.group? g.gid = some g := fun u hu => by rw [State.group?, hu]; exact hg
  by_cases hb : p.onBar = true ∧ status = 0
  · rw [if_pos (by simp [hb.1, hb.2]), if_pos hb, if_pos hb]
    have hone := State.modGroup_only (f := Group.unparked p status) (hgroups _ (congrArg State.groups hframe :)) fun k => by rw [Group.unparked_frame]
    rwa [← hframe]
  · rw [if_neg (by simpa using hb), if_neg hb, if_neg hb]
    exact State.modGroup_only hg fun k => by rw [Group.unparked_frame]

/-! ### Monitors -/

theorem State.modMon_onlyGroup {s : State} {gid k : Nat} {g : Group} {m n : Monitor} {f : Monitor → Monitor} (hg : s.group? gid = some g)
    (hm : g.mon[k]? = some m) (hf : f m = n) : ∃ h, (s.modMon gid k f).onlyGroup s h ∧ h = { g with mon := g.mon.set k n } := by
  refine ⟨_, State.modGroup_only hg fun _ => rfl, ?_⟩
  have hset : g.mon.mapIdx (fun j q => if j = k then f q else q) = g.mon.set k n := by
    refine List.ext_getElem? fun j => ?_
    rw [List.getElem?_mapIdx, List.getElem?_set]
    by_cases hj : k = j
    · subst hj
      have hlt : k < g.mon.length := (List.getElem?_eq_some_iff.mp hm).1
      rw [hm, if_pos rfl, if_pos hlt, Option.map_some, if_pos rfl, hf]
    · rw [if_neg hj]
      cases g.mon[j]? with
      | none => rfl
      | some q => rw [Option.map_some, if_neg (Ne.symm hj)]
  rw [hset]

theorem Monitor.fire_eq (s : State) (die : Nat) (m : Monitor) :
    m.fire s die = { m with fired := m.fired || (m.armed && m.hit && (m.stash || !s.outOfReach die m.addr 4)) } := by
  rw [Monitor.fire]
  cases m.armed && m.hit && (m.stash || !s.outOfReach die m.addr 4) with
  | false => rw [Bool.or_false]; rfl
  | true => rw [Bool.or_true]; rfl

/-! ### Waking -/

theorem Park.late_eq (s : State) (p : Park) : p.late s = p.deadline.any (fun d => decide (d < s.tick.toNat)) := by
  rw [Park.late]
  split <;> simp_all

theorem Park.satisfied_iff {s : State} {g : Group} {t : Task} {p : Park} :
    p.satisfied s g t = true ↔ p.met = true ∨ (p.late s = false ∧ p.holds s g t = true) := by
  simp [Park.satisfied]

/-- LANE_UNPARK of a parked lane. -/
theorem exec_laneUnpark_parked {s : State} {gid lane : Nat} {g : Group} {t : Task} {p : Park} (hg : s.group? gid = some g) (ht : s.task? g.task = some t)
    (hp : g.parks.find? (fun q => q.lane == lane) = some p) :
    exec (.laneUnpark gid lane) s = .next (if (g.wakes lane && p.satisfied s g t) = true then s.unpark g t p 0 else s) := by
  change Host.Outcome.next (s.laneUnpark gid lane) = _
  rw [State.laneUnpark, hg]
  dsimp only
  rw [ht, hp]

/-- WAIT_TIMEOUT of a parked lane. -/
theorem exec_waitTimeout_parked {s : State} {gid lane : Nat} {g : Group} {t : Task} {p : Park} (hg : s.group? gid = some g) (ht : s.task? g.task = some t)
    (hp : g.parks.find? (fun q => q.lane == lane) = some p) :
    exec (.waitTimeout gid lane) s = .next (if (g.wakes lane && p.late s) = true then s.unpark g t p (if p.satisfied s g t then 0 else 1) else s) := by
  change Host.Outcome.next (s.waitTimeout gid lane) = _
  rw [State.waitTimeout, hg]
  dsimp only
  rw [ht, hp]

/-- Settles O39. -/
theorem waitingLanes : Obligations.WaitingLanes := by
  refine ⟨?_, ?_, ?_⟩
  · intro s gid g k o hg ho hn hok hl hw
    have hfull := Group.landPend_full ho hl hw
    have hframe := Group.lands_frame o.writes g
    obtain ⟨hin, hout⟩ := Group.look_lands hn hok g
    refine ⟨_, g.landPend k (fullMask g.width), rfl, State.modGroup_only hg fun q => q.landPend_gid k _, ?_⟩
    rw [hfull]
    refine ⟨hin, hout, ?_⟩
    exact congrArg (fun h : Group => { h with fsr := g.fsr ||| o.flags, outs := g.outs.filter (fun q => q.key != k) }) hframe
  · intro s gid lane g t p hlane hg ht hp ends late sat
    have hpl : p.lane = lane := beq_iff_eq.mp (List.find?_some (p := fun q : Park => q.lane == lane) hp)
    have hends : ∀ (i : Instr) (n : Nat), exec i s = .next (s.unpark g t p n) → n < 2 → ends i (BitVec.ofNat 32 n) := fun i n hi hn => by
      obtain ⟨h, hone, hh, hv⟩ := State.unpark_spec t n hg (hpl ▸ hlane)
      rw [hpl] at hh hv
      have hzero : (BitVec.ofNat 32 n = 0) ↔ n = 0 := by
        interval_cases n <;> decide
      refine ⟨_, h, hi, ?_, hh, hv⟩
      simpa only [hzero] using hone
    have hunpark := exec_laneUnpark_parked hg ht hp
    have htimeout := exec_waitTimeout_parked hg ht hp
    have hsat : sat ↔ p.satisfied s g t = true := by rw [Park.satisfied_iff, Park.late_eq]
    refine ⟨fun hw hs => hends _ 0 ?_ (by decide), fun h => ?_, fun d hd hlt hw => ?_, fun h => ?_⟩
    · rw [hunpark, hw, hsat.mp hs]
      rfl
    · rw [hunpark, if_neg]
      rw [hsat] at h
      rcases h with h | h <;> simp [h]
    · have hlate : p.late s = true := by rw [Park.late_eq, hd]; simpa using hlt
      have hmet : p.satisfied s g t = p.met := by rw [Park.satisfied, hlate, Bool.not_true, Bool.false_and, Bool.or_false]
      rw [hw, hlate, hmet] at htimeout
      cases hm : p.met with
      | true => exact hends _ 0 (by rw [htimeout, hm]; rfl) (by decide)
      | false => exact hends _ 1 (by rw [htimeout, hm]; rfl) (by decide)
    · rw [htimeout, if_neg]
      rw [Park.late_eq]
      rcases h with h | h | ⟨d, hd, hle⟩
      · simp [h]
      · simp [h]
      · simp [hd, Nat.not_lt.mpr hle]
  · intro s gid k g m hg hm becomes
    have hbecomes : ∀ (i : Instr) (f : Monitor → Monitor) (n : Monitor), exec i s = .next (s.modMon gid k f) → f m = n → becomes i n := fun i f n hi hn => by
      obtain ⟨h, hone, hh⟩ := State.modMon_onlyGroup hg hm hn
      exact ⟨_, h, hi, hone, hh⟩
    refine ⟨hbecomes _ _ _ rfl (Monitor.fire_eq s _ m), fun ha hp hf ht hr => hbecomes _ _ _ rfl ?_, fun h => hbecomes _ _ _ rfl ?_⟩
    · rw [Monitor.poll, ha, hp, hf, ht, Monitor.polled, hr]
      rfl
    · rw [Monitor.poll, if_neg]
      rcases h with h | h | h | h <;> simp [h]

end Sys2Proof.Machine
end

section
/-! CLAUSE_ISSUE of a group outside a clause (R34, R101 to R107). -/
namespace Sys2Proof.Machine

theorem foldl_min_spec (l : List Nat) (a p : Nat) : l.foldl min a = p ↔ (p = a ∨ p ∈ l) ∧ p ≤ a ∧ ∀ q ∈ l, p ≤ q := by
  induction l generalizing a with
  | nil => simp; omega
  | cons b r ih =>
    rw [List.foldl_cons, ih]
    simp only [List.mem_cons, forall_eq_or_imp, le_inf_iff, and_assoc]
    constructor
    · rintro ⟨h, ha, hb, hr⟩
      refine ⟨?_, ha, hb, hr⟩
      rcases h with h | h
      · rcases min_choice a b with hm | hm
        · exact .inl (h.trans hm)
        · exact .inr (.inl (h.trans hm))
      · exact .inr (.inr h)
    · rintro ⟨h, ha, hb, hr⟩
      refine ⟨?_, ha, hb, hr⟩
      rcases h with rfl | rfl | h
      · exact .inl (min_eq_left hb).symm
      · exact .inl (min_eq_right ha).symm
      · exact .inr h

/-- The issue address is the least vpc of the lanes that may run. -/
theorem Group.issueAddr_iff (g : Group) (p : Nat) : g.issueAddr = some p ↔
    ((∃ l < g.width, g.runnable.getLsbD l = true ∧ (g.vpc.get l).toNat = p) ∧ ∀ l < g.width, g.runnable.getLsbD l = true → p ≤ (g.vpc.get l).toNat) := by
  have hmem : ∀ q, q ∈ (lanesOf g.width g.runnable).map (fun l => (g.vpc.get l).toNat) ↔ ∃ l < g.width, g.runnable.getLsbD l = true ∧ (g.vpc.get l).toNat = q := fun q => by
    simp only [List.mem_map, lanesOf, List.mem_filter, List.mem_range, and_assoc]
  have hle : (∀ q ∈ (lanesOf g.width g.runnable).map (fun l => (g.vpc.get l).toNat), p ≤ q) ↔ ∀ l < g.width, g.runnable.getLsbD l = true → p ≤ (g.vpc.get l).toNat := by
    simp only [List.mem_map, lanesOf, List.mem_filter, List.mem_range, and_imp, forall_exists_index]
    exact ⟨fun h l hw hr => h _ l hw hr rfl, fun h q l hw hr hq => hq ▸ h l hw hr⟩
  rw [Group.issueAddr, ← hmem p, ← hle]
  cases (lanesOf g.width g.runnable).map (fun l => (g.vpc.get l).toNat) with
  | nil => simp
  | cons a r =>
    dsimp only
    rw [Option.some_inj, foldl_min_spec, List.mem_cons]
    simp only [List.mem_cons, forall_eq_or_imp]

theorem Group.issuePoint_of_fresh {g : Group} {p : Nat} (hr : g.resumeIssue = none) (hp : g.issueAddr = some p) :
    g.issuePoint = some ⟨p, g.issueSet p, 0, true, g.issueSet p &&& g.transfer⟩ := by
  rw [Group.issuePoint, hr, hp]
  rfl

/-- A group with nothing pending before its clause issues it. -/
theorem exec_clauseIssue_at {s : State} {gid : Nat} {g : Group} {t : Task} {l : Launch} {p : IssuePoint} (hg : s.group? gid = some g) (ht : s.task? g.task = some t)
    (hl : t.launch = some l) (hp : g.issuePoint = some p) (hc : g.canIssue = true) (hb : g.boundary = []) :
    exec (.clauseIssue gid) s = .next (s.issueAt g t l p) := by
  have hnone : (if g.gsrH || p.index != 0 then none else firstBoundary g.boundary) = none := by
    rw [hb]
    split <;> rfl
  change Host.Outcome.next (s.clauseIssue gid) = _
  rw [State.clauseIssue, hg]
  dsimp only
  rw [ht]
  dsimp only
  rw [hl, hp]
  dsimp only
  rw [hc, hnone]
  rfl

/-- A trap at a header of a group that has no repeat state. -/
theorem State.headerTrap_eq (u : State) {g : Group} (t : Task) (p : IssuePoint) (tr : Trap) (hat : g.repAt = none) (hleft : g.repLeft = 0) :
    u.headerTrap g t p tr = (u.setGroup g).takeTrap g t tr ⟨p.start, 0, false, 0, g.repDone, 0⟩ p.lanes := by
  have hg : { g with repAt := g.repAt.filter (fun r => r.1 != p.start) } = g := by rw [hat]; cases g; cases hat; rfl
  rw [State.headerTrap, hg, Group.repState, hat, hleft]

/-- A clause that begins with no repeat state and is no return from a trap. -/
theorem State.beginClause_eq (u : State) {g : Group} (t : Task) {p : IssuePoint} (header : DWord) (ws : List (Option DWord)) (hat : g.repAt = none)
    (hleft : g.repLeft = 0) (hr : g.resumeIssue = none) (hstep : p.step1 = true) (hindex : p.index = 0) :
    u.beginClause g t p header ws = { u with cur := some g.gid }.setGroup { g with
      clause := some ⟨p.start, header, ws, 0, p.lanes, p.lanes⟩, hold := .none, repDone := 0, repSteps := none } := by
  have hrep : g.repState p.start = (g.repDone, 0) := by rw [Group.repState, hat, hleft]
  have hor : p.lanes ||| (0 : DWord) = p.lanes := BitVec.or_zero
  rw [State.beginClause]
  dsimp only
  rw [hrep, hat, hstep, hindex]
  dsimp only
  rw [if_pos rfl, if_pos rfl, if_pos rfl]
  cases g
  cases hr
  cases hat
  cases hleft
  dsimp only
  split
  · simp only [Bool.not_true, Bool.false_and, Bool.false_eq_true, if_false, hor]
    rfl
  · simp only [hor]
    rfl

section Issue
variable {s : State} {g : Group} {t : Task} {l : Launch} {p : IssuePoint}

theorem State.issueAt_misaligned (h : p.start % 8 ≠ 0) : s.issueAt g t l p = s.headerTrap g t p ⟨1, 0, p.moved, BitVec.ofNat 64 p.start, 0, 0, 0⟩ := by
  rw [State.issueAt, if_pos h]

theorem State.issueAt_beyond {s1 : State} (h : p.start % 8 = 0) (hf : s.fetchWords g t.vi p.start 1 = .ok (s1, [none])) :
    s.issueAt g t l p = s.headerTrap g t p ⟨2, 0, p.lanes, BitVec.ofNat 64 p.start, 4, 0, 0⟩ := by
  rw [State.issueAt, if_neg (not_not.mpr h), hf]

theorem State.issueAt_fault {va : Nat} {f : PageFault} (h : p.start % 8 = 0) (hf : s.fetchWords g t.vi p.start 1 = .error (va, f)) :
    s.issueAt g t l p = s.headerTrap g t p ⟨4, f.sub, p.lanes, BitVec.ofNat 64 va, f.info, 0, 0⟩ := by
  rw [State.issueAt, if_neg (not_not.mpr h), hf]

/-- A clause whose header has been fetched. -/
theorem State.issueAt_header {s1 : State} {w : DWord} (h : p.start % 8 = 0) (hf : s.fetchWords g t.vi p.start 1 = .ok (s1, [some w])) (hpre : g.preempt = none) :
    s.issueAt g t l p =
      if (headerHigh w.toNat && p.moved != 0) = true then s1.headerTrap g t p ⟨1, 0, p.moved, BitVec.ofNat 64 p.start, 0, 0, 0⟩
      else if headerBad w.toNat = true then s1.headerTrap g t p (trapIllegal 6 p.lanes)
      else match s1.fetchWords g t.vi (p.start + 8) ((headerOf w.toNat).count + 1) with
        | .error e => s1.headerTrap g t p ⟨4, e.2.sub, p.lanes, BitVec.ofNat 64 e.1, e.2.info, 0, 0⟩
        | .ok (s2, ws) =>
          if (((headerOf w.toNat).park && (!g.outs.isEmpty || !g.owed.isEmpty)) ||
              (List.range 6).any (fun k => (headerOf w.toNat).wait.testBit k && g.e.get k != 0) || g.clauseWaits t l (g.repState p.start) ws) = true then s
          else s2.beginClause g t p w ws := by
  rw [State.issueAt, if_neg (not_not.mpr h), hf]
  dsimp only
  rw [hpre, Option.isSome_none, Bool.and_false] <;> rfl
end Issue

theorem clauseWaits_iff {h : Header} {g : Group} {b : Bool} :
    ((h.park && (!g.outs.isEmpty || !g.owed.isEmpty)) || (List.range 6).any (fun k => h.wait.testBit k && g.e.get k != 0) || b) = true ↔
    (h.park = true ∧ (g.outs ≠ [] ∨ g.owed ≠ [])) ∨ (∃ k < 6, h.wait.testBit k = true ∧ g.e.get k ≠ 0) ∨ b = true := by
  simp only [Bool.or_eq_true, Bool.and_eq_true, Bool.not_eq_true', List.isEmpty_eq_false_iff, List.any_eq_true, List.mem_range, bne_iff_ne, or_assoc]

/-- Settles O38. -/
theorem clauseIssue : Obligations.ClauseIssue := by
  refine ⟨Group.issueAddr_iff, fun s gid g t l p hg ht hl hc hb hr hleft hat hpre hp => ?_⟩
  intro lanes traps
  have hexec := exec_clauseIssue_at hg ht hl (Group.issuePoint_of_fresh hr hp) hc hb
  have htraps : ∀ (u : State) (tr : Trap),
      s.issueAt g t l ⟨p, lanes, 0, true, lanes &&& g.transfer⟩ = u.headerTrap g t ⟨p, lanes, 0, true, lanes &&& g.transfer⟩ tr → traps u tr := fun u tr hu =>
    hexec.trans (congrArg Host.Outcome.next (hu.trans (u.headerTrap_eq t _ tr hat hleft)))
  refine ⟨fun h => htraps _ _ (State.issueAt_misaligned h), fun h s1 hf => htraps _ _ (State.issueAt_beyond h hf),
    fun h va f hf => htraps _ _ (State.issueAt_fault h hf), fun h s1 w hf => ?_⟩
  have hhead := State.issueAt_header (l := l) (p := ⟨p, lanes, 0, true, lanes &&& g.transfer⟩) h hf hpre
  dsimp only at hhead
  have hhigh : (headerHigh w.toNat && lanes &&& g.transfer != 0) = true ↔ headerHigh w.toNat = true ∧ lanes &&& g.transfer ≠ 0 := by
    rw [Bool.and_eq_true, bne_iff_ne]
  refine ⟨fun h1 h2 => htraps _ _ (hhead.trans (if_pos (hhigh.mpr ⟨h1, h2⟩))), fun hn hbad => htraps _ _ ?_, fun hn hok va f hf2 => htraps _ _ ?_, fun hn hok s2 ws hf2 => ?_⟩
  · rw [hhead, if_neg (hhigh.not.mpr hn), if_pos hbad]
  · rw [hhead, if_neg (hhigh.not.mpr hn), if_neg (by simp [hok]), hf2]
  · have hrep : g.repState p = (g.repDone, 0) := by rw [Group.repState, hat, hleft]
    rw [if_neg (hhigh.not.mpr hn), if_neg (by simp [hok]), hf2] at hhead
    dsimp only at hhead
    rw [hrep] at hhead
    refine ⟨fun hw => ?_, fun hw => ?_⟩
    · rw [hexec, hhead, if_pos (clauseWaits_iff.mpr hw)]
    · rw [hexec, hhead, if_neg (clauseWaits_iff.not.mpr hw), State.beginClause_eq s2 t w ws hat hleft hr rfl rfl]

end Sys2Proof.Machine
end

section
/-! What stores, and the end of a team, leave unchanged (R26, R46). -/
namespace Sys2Proof.Machine

/-! ### Stores -/

/-- A state after stores: memory, what the groups have seen of it, and fresh numbers. -/
def State.storesOf (t s : State) : Prop := t = { s with mem := t.mem, groups := t.groups, nextId := t.nextId }

theorem State.storesOf_refl (s : State) : s.storesOf s := rfl

theorem State.storesOf_trans {u t s : State} (h : u.storesOf t) (h' : t.storesOf s) : u.storesOf s := by
  rw [State.storesOf] at h h' ⊢
  rw [h, h']

theorem State.storesOf_foldl {α : Type} {f : State → α → State} (h : ∀ u a, (f u a).storesOf u) (l : List α) (s : State) : (l.foldl f s).storesOf s := by
  induction l generalizing s with
  | nil => exact s.storesOf_refl
  | cons a r ih => exact State.storesOf_trans (ih (f s a)) (h s a)

theorem State.storesOf_mem (s : State) (m : Mem) : State.storesOf { s with mem := m } s := rfl

theorem State.modGroup_storesOf (s : State) (gid : Nat) (f : Group → Group) : (s.modGroup gid f).storesOf s := rfl

theorem State.setGroup_storesOf (s : State) (g : Group) : (s.setGroup g).storesOf s := rfl

theorem State.deviceWrite_storesOf (s : State) (pa : Nat) (bs : List Byte) : (s.deviceWrite pa bs).storesOf s := by
  rw [State.deviceWrite]
  exact State.storesOf_trans (State.storesOf_foldl (fun u pw => (rfl : (State.watch u pw).storesOf u)) _ _) (s.storesOf_mem _)

theorem State.storeAtom_storesOf (s : State) (w : Option Writer) (ag : Agent) (pa : Nat) (bs : List Byte) : (s.storeAtom w ag pa bs).storesOf s :=
  State.storesOf_foldl (fun (u : State) (p : Nat × BitVec 4 × Word) => (rfl : (u.storeWord w ag p.1 p.2.1 p.2.2).storesOf u)) (wordParts pa bs) s

theorem State.replLost_storesOf (s : State) (r : ReplWrite) : (s.replLost r).storesOf s := by
  rw [State.replLost]
  split <;> rfl

theorem State.replArrives_storesOf (s : State) (r : ReplWrite) : (s.replArrives r).storesOf s := by
  rw [State.replArrives]
  split
  · rfl
  · exact State.storesOf_trans (State.storesOf_mem _ _) (s.replLost_storesOf r)

theorem State.flushRepls_storesOf (s : State) (t : ReplWrite → Bool) : (s.flushRepls t).storesOf s :=
  State.storesOf_foldl State.replArrives_storesOf _ s

theorem State.storeRepl_storesOf (s : State) (gid : Nat) (ag : Agent) (pa : Nat) (bs : List Byte) : (s.storeRepl gid ag pa bs).storesOf s := by
  have h := s.flushRepls_storesOf (fun q => agentCore q.agent == agentCore ag && q.pa / 2 ^ 37 == pa / 2 ^ 37)
  rw [State.storeRepl]
  exact State.storesOf_trans (t := s.flushRepls (fun q => agentCore q.agent == agentCore ag && q.pa / 2 ^ 37 == pa / 2 ^ 37)) rfl h

theorem State.store_storesOf (s : State) (gid : Nat) (plain : Bool) (ag : Agent) (repl : Bool) (pa : Nat) (bs : List Byte) :
    (s.store gid plain ag repl pa bs).storesOf s := by
  rw [State.store]
  split
  · exact s.storeRepl_storesOf gid ag pa bs
  · exact s.storeAtom_storesOf _ ag pa bs

theorem State.noteTlb_storesOf (s : State) (core vi va : Nat) (t : Trans) : (s.noteTlb core vi va t).storesOf s := by
  rw [(s.noteTlb_frame core vi va t).1]
  exact s.storesOf_mem _

theorem State.groupPut_storesOf (s : State) (g : Group) (vi va : Nat) (bs : List Byte) : (s.groupPut g vi va bs).1.storesOf s := by
  rw [State.groupPut]
  split
  · rfl
  · split
    · rfl
    · refine State.storesOf_foldl (fun u p => ?_) _ s
      dsimp only
      split
      · exact State.storesOf_trans (State.deviceWrite_storesOf _ _ _) (u.noteTlb_storesOf _ _ _ _)
      · exact State.storesOf_trans (State.store_storesOf _ _ _ _ _ _ _) (u.noteTlb_storesOf _ _ _ _)

theorem State.deviceForce_storesOf (s : State) (vi va : Nat) (bs : List Byte) : (s.deviceForce vi va bs).1.storesOf s := by
  rw [State.deviceForce]
  split
  · rfl
  · split
    · rfl
    · refine State.storesOf_foldl (fun u p => ?_) _ s
      dsimp only
      split
      · exact u.deviceWrite_storesOf _ _
      · split
        · exact u.storeRepl_storesOf _ _ _ _
        · exact u.deviceWrite_storesOf _ _

theorem enterHandler_storesOf {s s' : State} {g : Group} {t : Task} {tr : Trap} {r : ReturnPoint} {resume : DWord}
    (h : enterHandler s g t tr r resume = .ok s') : s'.storesOf s := by
  have hput := s.groupPut_storesOf g t.vi g.trapArea (causeRecord tr r resume s.tick)
  rw [enterHandler] at h
  dsimp only at h
  split at h
  · cases h
  · split at h
    · cases h
    · split at h
      · cases h
      · split at h
        · cases h
        · rename_i u hu
          rw [hu] at hput
          cases h
          exact State.storesOf_trans (State.modGroup_storesOf _ _ _) hput

/-! ### Teams that end -/

/-- A task after the end of some of its groups, or of its team: its barriers, what it reports, and whether it is being killed. -/
def Task.endsFrom (a b : Task) : Prop :=
  a = { b with killing := a.killing, killInfo := a.killInfo, barriers := a.barriers, lost := a.lost, refusedStores := a.refusedStores, page := a.page } ∧
  (b.killing = true → a.killing = true)

theorem Task.endsFrom_refl (t : Task) : t.endsFrom t := ⟨rfl, id⟩

theorem Task.endsFrom_trans {a b c : Task} (h : a.endsFrom b) (h' : b.endsFrom c) : a.endsFrom c := by
  refine ⟨?_, fun hc => h.2 (h'.2 hc)⟩
  rw [h.1, h'.1]

/-- Lists related element by element, twice. -/
theorem forall₂_trans {α : Type} {R : α → α → Prop} (hR : ∀ a b c, R a b → R b c → R a c) {l k j : List α} (h : List.Forall₂ R l k) (h' : List.Forall₂ R k j) :
    List.Forall₂ R l j := by
  induction h generalizing j with
  | nil => exact h'
  | cons hab _ ih =>
    cases h' with
    | cons hbc hr => exact .cons (hR _ _ _ hab hbc) (ih hr)

/-- A state after the end of groups or teams: registers, memory, the arrays and the tasks' barriers and counts. -/
structure State.teamsOf (t s : State) : Prop where
  frame : t = { s with mem := t.mem, groups := t.groups, nextId := t.nextId, arrays := t.arrays, tasks := t.tasks }
  tasks : List.Forall₂ Task.endsFrom t.tasks s.tasks

theorem State.teamsOf_of_stores {t s : State} (h : t.storesOf s) : t.teamsOf s := by
  rw [State.storesOf] at h
  have htasks : t.tasks = s.tasks := by rw [h]
  refine ⟨by rw [h], ?_⟩
  rw [htasks]
  exact List.forall₂_same.mpr fun _ _ => Task.endsFrom_refl _

theorem State.teamsOf_refl (s : State) : s.teamsOf s := State.teamsOf_of_stores s.storesOf_refl

theorem State.teamsOf_trans {u t s : State} (h : u.teamsOf t) (h' : t.teamsOf s) : u.teamsOf s := by
  refine ⟨by rw [h.frame, h'.frame], ?_⟩
  exact forall₂_trans (R := Task.endsFrom) (fun _ _ _ => Task.endsFrom_trans) h.tasks h'.tasks

theorem State.teamsOf_foldl {α : Type} {f : State → α → State} (h : ∀ u a, (f u a).teamsOf u) (l : List α) (s : State) : (l.foldl f s).teamsOf s := by
  induction l generalizing s with
  | nil => exact s.teamsOf_refl
  | cons a r ih => exact State.teamsOf_trans (ih (f s a)) (h s a)

/-- Some tasks change. -/
theorem forall₂_modWhere {α : Type} {R : α → α → Prop} {l : List α} {p : α → Bool} {f : α → α} (hrefl : ∀ a, R a a) (hf : ∀ a, p a = true → R (f a) a) :
    List.Forall₂ R (modWhere l p f) l := by
  rw [modWhere, List.forall₂_map_left_iff]
  refine List.forall₂_same.mpr fun a _ => ?_
  split
  · exact hf a ‹_›
  · exact hrefl a

theorem State.modTask_teamsOf (s : State) (uid : Nat) {f : Task → Task} (hf : ∀ t, (f t).endsFrom t) : (s.modTask uid f).teamsOf s :=
  ⟨rfl, forall₂_modWhere Task.endsFrom_refl fun t _ => hf t⟩

theorem State.acquireBy_teamsOf (s : State) (g : Group) (t : Task) (sc : Scope) (mask : BitVec 16) : (s.acquireBy g t sc mask).teamsOf s := by
  have h := (s.acquireBy_step g t sc mask).frame
  have htasks : (s.acquireBy g t sc mask).tasks = s.tasks := (congrArg State.tasks h :)
  refine ⟨by rw [h], ?_⟩
  rw [htasks]
  exact List.forall₂_same.mpr fun _ _ => Task.endsFrom_refl _

theorem State.unpark_teamsOf (s : State) (g : Group) (t : Task) (p : Park) (st : Nat) : (s.unpark g t p st).teamsOf s := by
  rw [State.unpark]
  dsimp only
  split
  · exact State.teamsOf_trans (State.acquireBy_teamsOf _ _ _ _ _) (State.teamsOf_of_stores (State.modGroup_storesOf _ _ _))
  · exact State.teamsOf_of_stores (State.modGroup_storesOf _ _ _)

theorem State.groups_teamsOf (s : State) (gs : List Group) : State.teamsOf { s with groups := gs } s := State.teamsOf_of_stores rfl

theorem State.settleBarriers_teamsOf (s : State) (uid : Nat) : (s.settleBarriers uid).teamsOf s := by
  rw [State.settleBarriers]
  split
  · exact s.teamsOf_refl
  · dsimp only
    split
    · refine State.teamsOf_trans (State.teamsOf_foldl (fun u g => State.teamsOf_foldl (fun v p => v.unpark_teamsOf _ _ _ _) _ u) _ _) ?_
      exact State.teamsOf_trans (State.groups_teamsOf _ _) (s.modTask_teamsOf uid fun _ => ⟨rfl, id⟩)
    · exact s.teamsOf_refl

theorem State.reportCounts_teamsOf (s : State) (g : Group) : (s.reportCounts g).teamsOf s :=
  State.teamsOf_trans (State.teamsOf_of_stores (State.modGroup_storesOf _ _ _)) (s.modTask_teamsOf g.task fun _ => ⟨rfl, id⟩)

theorem State.endGroup_teamsOf (s : State) (gid : Nat) : (s.endGroup gid).teamsOf s := by
  rw [State.endGroup]
  split
  · exact s.teamsOf_refl
  · rename_i g _
    refine State.teamsOf_trans (State.teamsOf_of_stores (State.modGroup_storesOf _ _ _)) (State.teamsOf_trans (State.settleBarriers_teamsOf _ _) ?_)
    exact State.teamsOf_trans (State.modTask_teamsOf _ _ fun _ => ⟨rfl, id⟩) (s.reportCounts_teamsOf g)

theorem State.teamKilled_teamsOf (s : State) (t : Task) (g : Group) (info : DWord) : (s.teamKilled t g info).teamsOf s := by
  rw [State.teamKilled]
  dsimp only
  split
  · rename_i u hu
    exact State.teamsOf_of_stores (State.storesOf_trans (State.modGroup_storesOf _ _ _) (State.storesOf_trans (enterHandler_storesOf hu) (State.setGroup_storesOf _ _)))
  · exact State.teamsOf_trans (State.endGroup_teamsOf _ _) (State.teamsOf_of_stores (State.setGroup_storesOf _ _))

/-- A task that is found stays found. -/
theorem find_forall₂ {R : Task → Task → Prop} {l k : List Task} {uid : Nat} {t : Task} (hR : ∀ a b, R a b → a.uid = b.uid) (h : List.Forall₂ R l k)
    (ht : k.find? (fun x => x.uid == uid) = some t) : ∃ a, l.find? (fun x => x.uid == uid) = some a ∧ R a t := by
  induction h with
  | nil => cases ht
  | cons hab _ ih =>
    rw [List.find?_cons] at ht ⊢
    rw [hR _ _ hab]
    split at ht
    · cases ht
      exact ⟨_, rfl, hab⟩
    · exact ih ht

theorem Task.endsFrom_uid {a b : Task} (h : a.endsFrom b) : a.uid = b.uid := by rw [h.1]

theorem State.teamsOf.task? {u s : State} (h : u.teamsOf s) {uid : Nat} {t : Task} (ht : s.task? uid = some t) : ∃ k, u.task? uid = some k ∧ k.endsFrom t :=
  find_forall₂ (fun _ _ => Task.endsFrom_uid) h.tasks ht

/-- The state of a team of which it is noted that it is being killed. -/
def State.marksKilled (s : State) (uid : Nat) (info : DWord) : State :=
  { s with arrays := s.arrays.filter (fun e => e.task != uid) }.modTask uid (fun k =>
    { k with killing := true, killInfo := info, barriers := k.barriers.map (fun _ => ⟨false, [], []⟩) })

theorem State.marksKilled_teamsOf (s : State) (uid : Nat) (info : DWord) : (s.marksKilled uid info).teamsOf s :=
  State.teamsOf_trans (State.modTask_teamsOf _ _ fun _ => ⟨rfl, fun _ => rfl⟩) ⟨rfl, List.forall₂_same.mpr fun _ _ => Task.endsFrom_refl _⟩

/-- What a kill does beyond that is the end of groups. -/
theorem State.killTeam_marked {s : State} {uid : Nat} {t : Task} (by' : Option Nat) (info : DWord) (ht : s.task? uid = some t) :
    if t.killing then (s.killTeam uid by' info).teamsOf s else (s.killTeam uid by' info).teamsOf (s.marksKilled uid info) := by
  have hends : ∀ u : State, (match by' with | some gid => u.endGroup gid | none => u).teamsOf u := fun u => by
    split
    · exact u.endGroup_teamsOf _
    · exact u.teamsOf_refl
  rw [State.killTeam, ht]
  dsimp only
  split
  · exact hends s
  · refine State.teamsOf_trans (State.teamsOf_foldl (fun u g => ?_) _ _) (hends _)
    split
    · exact u.teamKilled_teamsOf _ _ _
    · exact u.teamKilled_teamsOf _ _ _
    · exact u.endGroup_teamsOf _

theorem State.killTeam_teamsOf (s : State) (uid : Nat) (by' : Option Nat) (info : DWord) : (s.killTeam uid by' info).teamsOf s := by
  cases ht : s.task? uid with
  | none =>
    rw [State.killTeam, ht]
    exact s.teamsOf_refl
  | some t =>
    have h := State.killTeam_marked by' info ht
    split at h
    · exact h
    · exact State.teamsOf_trans h (s.marksKilled_teamsOf uid info)

theorem find?_mapIf {α : Type} {l : List α} {p : α → Bool} {f : α → α} {a : α} (hf : ∀ a, p (f a) = p a) (h : l.find? p = some a) :
    (modWhere l p f).find? p = some (f a) := by
  rw [modWhere, List.find?_map, show (p ∘ fun b => if p b = true then f b else b) = p from funext fun b => ?_, h]
  · rw [Option.map_some, if_pos (List.find?_some h)]
  · rw [Function.comp]
    split
    · exact hf b
    · rfl

/-- A team that is killed is being killed. -/
theorem State.killTeam_killing {s : State} {uid : Nat} {t : Task} (by' : Option Nat) (info : DWord) (ht : s.task? uid = some t) :
    ∃ k, (s.killTeam uid by' info).task? uid = some k ∧ k.killing = true := by
  have h := State.killTeam_marked by' info ht
  split at h
  · rename_i hk
    obtain ⟨k, hfound, hend⟩ := h.task? ht
    exact ⟨k, hfound, hend.2 hk⟩
  · have hmarked : (s.marksKilled uid info).task? uid = some { t with killing := true, killInfo := info, barriers := t.barriers.map (fun _ => ⟨false, [], []⟩) } :=
      find?_mapIf (fun _ => rfl) ht
    obtain ⟨k, hfound, hend⟩ := h.task? hmarked
    exact ⟨k, hfound, hend.2 rfl⟩

end Sys2Proof.Machine
end

section
/-! A virtual interface disabled and started (R285, R345). -/
namespace Sys2Proof.Machine

/-! ### Virtual interfaces by number -/

theorem State.viOf_num (s : State) (n : Nat) : (s.viOf n).num = n := by
  rw [State.viOf]
  cases h : s.vi? n with
  | none => rfl
  | some v => exact beq_iff_eq.mp (List.find?_some (p := fun v : VI => v.num == n) h)

theorem State.viOf_setVi (s : State) (v : VI) (n : Nat) : (s.setVi v).viOf n = if n = v.num then v else s.viOf n := by
  rw [State.viOf, State.vi?, State.setVi_vis]
  split
  · rename_i h
    rw [h, find?_upsert s.vis (fun x => x.num == v.num) v (by simp), Option.getD_some]
  · rename_i h
    rw [find?_upsert_ne s.vis (fun x => x.num == v.num) (fun x => x.num == n) v (by simpa using Ne.symm h) fun a ha => by
      simp only [beq_iff_eq] at ha
      simpa [ha] using Ne.symm h, State.viOf, State.vi?]

theorem State.viOf_congr {t s : State} (h : t.vis = s.vis) (n : Nat) : t.viOf n = s.viOf n := by rw [State.viOf, State.viOf, State.vi?, State.vi?, h]

/-! ### Entries of queues -/

/-- A state after queue entries have changed: memory and what has been seen of it, the queues, their entries and the pools. -/
structure State.entriesOf (t s : State) : Prop where
  frame : t = { s with mem := t.mem, groups := t.groups, nextId := t.nextId, vis := t.vis, queues := t.queues, entries := t.entries }
  vis : ∀ n, t.viOf n = { s.viOf n with poolUsed := (t.viOf n).poolUsed }

theorem State.entriesOf_of_stores {t s : State} (h : t.storesOf s) : t.entriesOf s := by
  rw [State.storesOf] at h
  exact ⟨by rw [h], fun n => by rw [State.viOf_congr (s := s) (by rw [h])]⟩

theorem State.entriesOf_refl (s : State) : s.entriesOf s := ⟨rfl, fun _ => rfl⟩

theorem State.entriesOf_trans {u t s : State} (h : u.entriesOf t) (h' : t.entriesOf s) : u.entriesOf s :=
  ⟨by rw [h.frame, h'.frame], fun n => by rw [h.vis, h'.vis]⟩

theorem State.queuesAndEntries_entriesOf (s : State) (qs : List Queue) (es : List QEntry) : State.entriesOf { s with queues := qs, entries := es } s :=
  ⟨rfl, fun _ => rfl⟩

/-- A virtual interface whose pool alone changes. -/
theorem State.setPool_entriesOf {u : State} {v w : VI} {n : Nat} (hw : u.viOf n = w) (hv : v = { w with poolUsed := v.poolUsed }) : (u.setVi v).entriesOf u := by
  have hnum : v.num = n := (congrArg VI.num hv :).trans (by rw [← hw]; exact u.viOf_num n)
  refine ⟨rfl, fun m => ?_⟩
  rw [State.viOf_setVi]
  split
  · rename_i hm
    rw [hm, hnum, hw]
    exact hv
  · rfl

theorem State.trimQueue_entriesOf (s : State) (q : Queue) : (s.trimQueue q).entriesOf s := by
  rw [State.trimQueue]
  dsimp only
  split
  · exact s.entriesOf_refl
  · have hforce := fun (u : State) va bs => u.deviceForce_storesOf q.vi va bs
    refine State.entriesOf_trans (State.setPool_entriesOf (n := q.vi) (State.viOf_congr ?_ _) rfl)
      (State.entriesOf_trans (State.entriesOf_of_stores (hforce _ _ _)) (State.queuesAndEntries_entriesOf s _ _))
    exact (congrArg State.vis (hforce _ _ _) :)

theorem State.freeEntry_entriesOf (s : State) (vi addr : Nat) : (s.freeEntry vi addr).entriesOf s := by
  rw [State.freeEntry]
  split
  · exact s.entriesOf_refl
  · dsimp only
    have h := State.entriesOf_of_stores (s.deviceForce_storesOf vi addr (leBytes 4 0))
    split
    · exact State.entriesOf_trans (State.trimQueue_entriesOf _ _) (State.entriesOf_trans (State.queuesAndEntries_entriesOf _ _ _) h)
    · exact State.entriesOf_trans (State.queuesAndEntries_entriesOf _ _ _) h

theorem State.setEntry_entriesOf (s : State) (vi addr st rounds foot : Nat) : (s.setEntry vi addr st rounds foot).entriesOf s := by
  rw [State.setEntry]
  exact State.entriesOf_trans (State.queuesAndEntries_entriesOf _ _ _) (State.entriesOf_of_stores
    (State.storesOf_trans (State.deviceForce_storesOf _ _ _ _) (State.deviceForce_storesOf _ _ _ _)))

theorem State.entryState_entriesOf (s : State) (vi addr st : Nat) : (s.entryState vi addr st).entriesOf s := by
  rw [State.entryState]
  split
  · exact s.setEntry_entriesOf _ _ _ _ _
  · exact s.entriesOf_refl

/-! ### Grids that settle -/

/-- A grid that goes on: its name, whether it is of one team, and whether its record is wanted still. -/
def Grid.onward (a b : Grid) : Prop := a.gridId = b.gridId ∧ a.single = b.single ∧ (a.wanted = true → b.wanted = true)

theorem Grid.onward_refl (g : Grid) : g.onward g := ⟨rfl, rfl, id⟩

/-- A state after a grid has settled: beside entries and pools, the grids, the registrations and the records that are due. -/
structure State.settlesOf (t s : State) (gridId : Nat) : Prop where
  frame : t = { s with mem := t.mem, groups := t.groups, nextId := t.nextId, vis := t.vis, queues := t.queues, entries := t.entries
                       grids := t.grids, regs31 := t.regs31, dues := t.dues }
  vis : ∀ n, t.viOf n = { s.viOf n with poolUsed := (t.viOf n).poolUsed }
  grids : List.Forall₂ Grid.onward t.grids s.grids
  dues : t.dues = s.dues ∨ ∃ g ∈ s.grids, g.gridId = gridId ∧ g.wanted = true ∧ (∀ k ∈ s.tasks, k.grid = gridId → k.ended = true) ∧
    ∃ d : Due, d.owner = .grid gridId ∧ t.dues = s.dues ++ [d]

theorem State.gridSettle_settlesOf (s : State) (gridId : Nat) : (s.gridSettle gridId).settlesOf s gridId := by
  have hsame : s.settlesOf s gridId := ⟨rfl, fun _ => rfl, List.forall₂_same.mpr fun g _ => g.onward_refl, .inl rfl⟩
  rw [State.gridSettle]
  split
  · exact hsame
  · rename_i g hg
    dsimp only
    split
    · rename_i hends
      have hgrids : List.Forall₂ Grid.onward (modWhere s.grids (fun x => x.gridId == gridId) (fun x => { x with ended := true })) s.grids :=
        forall₂_modWhere Grid.onward_refl fun _ _ => ⟨rfl, rfl, id⟩
      have hkeep : ∀ u : State, u.entriesOf { s with
          grids := modWhere s.grids (fun x => x.gridId == gridId) (fun x => { x with ended := true })
          regs31 := s.regs31.filter (fun r => r.grid != gridId) } →
          (∀ d : Due, g.wanted = true → d.owner = .grid gridId → State.settlesOf { u with dues := u.dues ++ [d] } s gridId) ∧ u.settlesOf s gridId := fun u hu => by
        have hugrids : u.grids = modWhere s.grids (fun x => x.gridId == gridId) (fun x => { x with ended := true }) := by rw [hu.frame]
        have hudues : u.dues = s.dues := by rw [hu.frame]
        refine ⟨fun d hw hd => ⟨by rw [hu.frame], hu.vis, hugrids ▸ hgrids, .inr ⟨g, List.mem_of_find?_eq_some hg, ?_, hw, ?_, d, hd, by rw [hudues]⟩⟩,
          ⟨by rw [hu.frame], hu.vis, hugrids ▸ hgrids, .inl hudues⟩⟩
        · exact beq_iff_eq.mp (List.find?_some (p := fun g : Grid => g.gridId == gridId) hg)
        · intro k hk hkg
          have hall := (Bool.and_eq_true _ _ ▸ hends).2
          rw [List.all_eq_true] at hall
          exact hall k (List.mem_filter.mpr ⟨hk, beq_iff_eq.mpr hkg⟩)
      split
      · rename_i hw
        split
        · exact (hkeep _ (State.entryState_entriesOf _ _ _ _)).1 _ hw rfl
        · exact (hkeep _ (State.entriesOf_refl _)).1 _ hw rfl
      · split
        · exact (hkeep _ (State.freeEntry_entriesOf _ _ _)).2
        · exact (hkeep _ (State.entriesOf_refl _)).2
    · exact hsame

/-! ### Steps of a virtual interface that is disabled -/

/-- A task while its virtual interface is disabled: its name stays, and so does that it is being killed, or has been discarded. -/
def Task.goesOn (a b : Task) : Prop :=
  (a.uid = b.uid ∧ a.vi = b.vi) ∧ (b.killing = true → a.killing = true) ∧
    (b.state = .discarded ∧ b.ended = true → a.state = .discarded ∧ a.ended = true)

theorem Task.goesOn_refl (t : Task) : t.goesOn t := ⟨⟨rfl, rfl⟩, id, id⟩

theorem Task.goesOn_of_ends {a b : Task} (h : a.endsFrom b) : a.goesOn b := by
  obtain ⟨ha, hk⟩ := h
  exact ⟨by rw [ha]; exact ⟨rfl, rfl⟩, hk, fun hd => by rw [ha]; exact hd⟩

/-- A task holds no key and has reserved nothing. -/
def State.keyless (s : State) (uid : Nat) : Prop :=
  (∀ k ∈ s.keys, k.holder ≠ some uid ∧ ∀ r ∈ k.reserved, r.1 ≠ uid) ∧ ∀ r ∈ s.reservedCores, r.1 ≠ uid

/-- A state on the way to a disabled virtual interface. -/
structure State.disabling (vi : Nat) (t s : State) : Prop where
  host : t.host = s.host
  enabled : (t.viOf vi).enabled = (s.viOf vi).enabled
  tasks : List.Forall₂ Task.goesOn t.tasks s.tasks
  keys : ∀ uid, s.keyless uid → t.keyless uid

section Disabling
variable {vi : Nat}

theorem State.disabling_refl (s : State) : State.disabling vi s s := ⟨rfl, rfl, List.forall₂_same.mpr fun t _ => t.goesOn_refl, fun _ h => h⟩

theorem State.disabling_trans {u t s : State} (h : State.disabling vi u t) (h' : State.disabling vi t s) : State.disabling vi u s := by
  refine ⟨h.host.trans h'.host, h.enabled.trans h'.enabled, forall₂_trans (R := Task.goesOn) (fun a b c hab hbc => ?_) h.tasks h'.tasks, fun uid hu => h.keys uid (h'.keys uid hu)⟩
  exact ⟨⟨hab.1.1.trans hbc.1.1, hab.1.2.trans hbc.1.2⟩, fun hk => hab.2.1 (hbc.2.1 hk), fun hd => hab.2.2 (hbc.2.2 hd)⟩

theorem State.disabling_foldl {α : Type} {f : State → α → State} (h : ∀ u a, State.disabling vi (f u a) u) (l : List α) (s : State) : State.disabling vi (l.foldl f s) s := by
  induction l generalizing s with
  | nil => exact s.disabling_refl
  | cons a r ih => exact State.disabling_trans (ih (f s a)) (h s a)

theorem State.disabling_of_teams {t s : State} (h : t.teamsOf s) : State.disabling vi t s := by
  have hframe := h.frame
  have hkeys : t.keys = s.keys := (congrArg State.keys hframe :)
  have hcores : t.reservedCores = s.reservedCores := (congrArg State.reservedCores hframe :)
  exact ⟨(congrArg State.host hframe :), congrArg VI.enabled (State.viOf_congr (congrArg State.vis hframe :) vi), h.tasks.imp fun _ _ => Task.goesOn_of_ends,
    fun uid hu => by rw [State.keyless, hkeys, hcores]; exact hu⟩

theorem State.disabling_of_entries {t s : State} (h : t.entriesOf s) : State.disabling vi t s := by
  have hframe := h.frame
  have htasks : t.tasks = s.tasks := (congrArg State.tasks hframe :)
  have hkeys : t.keys = s.keys := (congrArg State.keys hframe :)
  have hcores : t.reservedCores = s.reservedCores := (congrArg State.reservedCores hframe :)
  exact ⟨(congrArg State.host hframe :), by rw [h.vis], htasks ▸ List.forall₂_same.mpr fun t _ => t.goesOn_refl,
    fun uid hu => by rw [State.keyless, hkeys, hcores]; exact hu⟩

theorem State.disabling_of_settles {t s : State} {gridId : Nat} (h : t.settlesOf s gridId) : State.disabling vi t s := by
  have hframe := h.frame
  have htasks : t.tasks = s.tasks := (congrArg State.tasks hframe :)
  have hkeys : t.keys = s.keys := (congrArg State.keys hframe :)
  have hcores : t.reservedCores = s.reservedCores := (congrArg State.reservedCores hframe :)
  exact ⟨(congrArg State.host hframe :), by rw [h.vis], htasks ▸ List.forall₂_same.mpr fun t _ => t.goesOn_refl,
    fun uid hu => by rw [State.keyless, hkeys, hcores]; exact hu⟩

theorem State.grids_disabling (s : State) (gs : List Grid) : State.disabling vi { s with grids := gs } s :=
  ⟨rfl, rfl, List.forall₂_same.mpr fun t _ => t.goesOn_refl, fun _ h => h⟩

/-- A task that gives up its keys has none, and takes none from another. -/
theorem State.releaseKeys_keyless (s : State) (uid : Nat) : (s.releaseKeys uid).keyless uid ∧ ∀ j, s.keyless j → (s.releaseKeys uid).keyless j := by
  have hkeys : ∀ k ∈ (s.releaseKeys uid).keys, ∃ k0 ∈ s.keys,
      k = { k0 with holder := if k0.holder = some uid then none else k0.holder, reserved := k0.reserved.filter (fun r => r.1 != uid) } := fun k hk => by
    obtain ⟨k0, hk0, rfl⟩ := List.mem_map.mp (List.mem_of_mem_filter hk)
    exact ⟨k0, hk0, rfl⟩
  have hcores : ∀ r ∈ (s.releaseKeys uid).reservedCores, r ∈ s.reservedCores ∧ r.1 ≠ uid := fun r hr => by
    obtain ⟨hr, hne⟩ := List.mem_filter.mp hr
    exact ⟨hr, by simpa using hne⟩
  refine ⟨⟨fun k hk => ?_, fun r hr => (hcores r hr).2⟩, fun j hj => ⟨fun k hk => ?_, fun r hr => hj.2 r (hcores r hr).1⟩⟩
  · obtain ⟨k0, -, rfl⟩ := hkeys k hk
    refine ⟨?_, fun r hr => by simpa using (List.mem_filter.mp hr).2⟩
    dsimp only
    split
    · exact fun h => by cases h
    · assumption
  · obtain ⟨k0, hk0, rfl⟩ := hkeys k hk
    refine ⟨?_, fun r hr => (hj.1 k0 hk0).2 r (List.mem_of_mem_filter hr)⟩
    dsimp only
    split
    · exact fun h => by cases h
    · exact (hj.1 k0 hk0).1

theorem State.releaseKeys_disabling (s : State) (uid : Nat) : State.disabling vi (s.releaseKeys uid) s :=
  ⟨rfl, rfl, List.forall₂_same.mpr fun t _ => t.goesOn_refl, (s.releaseKeys_keyless uid).2⟩

theorem State.modTask_disabling (s : State) (uid : Nat) {f : Task → Task} (hf : ∀ t, (f t).goesOn t) : State.disabling vi (s.modTask uid f) s :=
  ⟨rfl, rfl, forall₂_modWhere Task.goesOn_refl fun t _ => hf t, fun _ h => h⟩

theorem State.discards_disabling (s : State) (uid : Nat) : State.disabling vi (s.modTask uid (fun k => { k with state := .discarded, ended := true })) s :=
  s.modTask_disabling uid fun _ => ⟨⟨rfl, rfl⟩, id, fun _ => ⟨rfl, rfl⟩⟩

/-- What a discarded task leaves after its own mark. -/
theorem State.discardTask_after (s : State) (t : Task) :
    State.disabling vi (s.discardTask t) (s.modTask t.uid (fun k => { k with state := .discarded, ended := true })) := by
  rw [State.discardTask]
  dsimp only
  refine State.disabling_trans (State.disabling_of_settles (State.gridSettle_settlesOf _ _)) (State.disabling_trans (State.grids_disabling _ _) ?_)
  split
  · exact State.disabling_trans (State.disabling_of_entries (State.freeEntry_entriesOf _ _ _)) (State.releaseKeys_disabling _ _)
  · exact State.releaseKeys_disabling _ _

theorem State.discardTask_disabling (s : State) (t : Task) : State.disabling vi (s.discardTask t) s :=
  State.disabling_trans (s.discardTask_after t) (s.discards_disabling t.uid)

theorem State.discardGrids_disabling (s : State) (n : Nat) : State.disabling vi (s.discardGrids n) s := by
  rw [State.discardGrids]
  refine State.disabling_trans (State.disabling_foldl (fun u g => ?_) _ _) (State.grids_disabling _ _)
  split
  · exact u.disabling_refl
  · split
    · exact State.disabling_of_entries (u.freeEntry_entriesOf _ _)
    · exact u.disabling_refl

theorem State.disabling.task? {u s : State} (h : State.disabling vi u s) {uid : Nat} {t : Task} (ht : s.task? uid = some t) :
    ∃ k, u.task? uid = some k ∧ k.goesOn t := find_forall₂ (fun _ _ hab => hab.1.1) h.tasks ht

end Disabling

/-! ### Disabled -/

/-- The state in which a virtual interface takes no more submissions, and those that waited are answered. -/
def State.closes (s : State) (vi : Nat) : State := (s.setVi { s.viOf vi with enabled := false }).abortWaiting vi

/-- Its placed tasks are killed. -/
def State.killsPlaced (s : State) (vi : Nat) : State :=
  (s.tasks.filter (fun t => t.vi == vi && t.state == .placed)).foldl (fun u t => u.killTeam t.uid none 0) s

theorem State.killsPlaced_teamsOf (s : State) (vi : Nat) : (s.killsPlaced vi).teamsOf s := State.teamsOf_foldl (fun u _ => u.killTeam_teamsOf _ _ _) _ s

/-- The waiting tasks of a virtual interface. -/
def State.waitingTasks (s : State) (vi : Nat) : List Task := s.tasks.filter (fun t => t.vi == vi && (t.state == .queued || t.state == .held))

/-- Its keys are given up. -/
def State.givesKeys (s : State) (vi : Nat) : State := (s.tasks.filter (fun t => t.vi == vi)).foldl (fun u t => u.releaseKeys t.uid) s

/-- Its grids that have nothing left to run end. -/
def State.settlesGrids (s : State) (vi : Nat) : State := (s.grids.filter (fun g => g.vi == vi)).foldl (fun u g => u.gridSettle g.gridId) s

theorem State.disableVi_eq (s : State) (vi : Nat) : s.disableVi vi =
    ((((s.closes vi).waitingTasks vi).foldl State.discardTask ((s.closes vi).killsPlaced vi)).discardGrids vi |>.givesKeys vi).settlesGrids vi := rfl

theorem State.settlesGrids_disabling (s : State) (vi : Nat) : State.disabling vi (s.settlesGrids vi) s :=
  State.disabling_foldl (fun u (g : Grid) => State.disabling_of_settles (u.gridSettle_settlesOf g.gridId)) _ s

theorem State.givesKeys_disabling (s : State) (vi : Nat) : State.disabling vi (s.givesKeys vi) s :=
  State.disabling_foldl (fun u (t : Task) => u.releaseKeys_disabling t.uid) _ s

/-- Every task of the virtual interface is without keys when all of them have given theirs up. -/
theorem State.givesKeys_keyless {s : State} {vi : Nat} {t : Task} (ht : t ∈ s.tasks) (hvi : t.vi = vi) : (s.givesKeys vi).keyless t.uid := by
  have hmem : t ∈ s.tasks.filter (fun t => t.vi == vi) := List.mem_filter.mpr ⟨ht, by simpa using hvi⟩
  obtain ⟨a, b, hab⟩ := List.append_of_mem hmem
  rw [State.givesKeys, hab, List.foldl_append, List.foldl_cons]
  exact (State.disabling_foldl (vi := vi) (fun u (t : Task) => u.releaseKeys_disabling t.uid) b _).keys _ (State.releaseKeys_keyless _ _).1

/-- A placed task is being killed once all are. -/
theorem State.killsPlaced_killing {s : State} {vi : Nat} {t : Task} (ht : t ∈ s.tasks) (hfound : s.task? t.uid = some t) (hvi : t.vi = vi) (hp : t.state = .placed) :
    ∃ k, (s.killsPlaced vi).task? t.uid = some k ∧ k.killing = true := by
  have hmem : t ∈ s.tasks.filter (fun t => t.vi == vi && t.state == .placed) := List.mem_filter.mpr ⟨ht, by simp [hvi, hp]⟩
  obtain ⟨a, b, hab⟩ := List.append_of_mem hmem
  rw [State.killsPlaced, hab, List.foldl_append, List.foldl_cons]
  obtain ⟨k, hk, -⟩ := (State.teamsOf_foldl (fun u (t : Task) => u.killTeam_teamsOf t.uid none 0) a s).task? hfound
  obtain ⟨k', hk', hkill⟩ := State.killTeam_killing none 0 hk
  obtain ⟨k2, hk2, hend⟩ := (State.teamsOf_foldl (fun u (t : Task) => u.killTeam_teamsOf t.uid none 0) b _).task? hk'
  exact ⟨k2, hk2, hend.2 hkill⟩

/-- A waiting task is discarded once all are. -/
theorem State.discards_waiting {s : State} {vi : Nat} {l : List Task} {t k : Task} (ht : t ∈ l) (hk : s.task? t.uid = some k) :
    ∃ k, (l.foldl State.discardTask s).task? t.uid = some k ∧ k.state = .discarded ∧ k.ended = true := by
  obtain ⟨a, b, rfl⟩ := List.append_of_mem ht
  rw [List.foldl_append, List.foldl_cons]
  obtain ⟨k1, hk1, -⟩ := (State.disabling_foldl (vi := vi) State.discardTask_disabling a s).task? hk
  have hmarked : ((a.foldl State.discardTask s).modTask t.uid (fun k => { k with state := .discarded, ended := true })).task? t.uid =
      some { k1 with state := .discarded, ended := true } := find?_mapIf (fun _ => rfl) hk1
  obtain ⟨k2, hk2, hgoes⟩ := (State.discardTask_after (vi := vi) (a.foldl State.discardTask s) t).task? hmarked
  obtain ⟨k3, hk3, hgoes'⟩ := (State.disabling_foldl (vi := vi) State.discardTask_disabling b _).task? hk2
  exact ⟨k3, hk3, hgoes'.2.2 (hgoes.2.2 ⟨rfl, rfl⟩)⟩

/-! ### The record of a grid that is discarded -/

theorem mem_forall₂_left {α : Type} {R : α → α → Prop} {l k : List α} (h : List.Forall₂ R l k) {a : α} (ha : a ∈ l) : ∃ b ∈ k, R a b := by
  induction h with
  | nil => cases ha
  | cons hab _ ih =>
    rcases List.mem_cons.mp ha with rfl | ha
    · exact ⟨_, List.mem_cons_self, hab⟩
    · obtain ⟨b, hb, hR⟩ := ih ha
      exact ⟨b, List.mem_cons_of_mem _ hb, hR⟩

theorem mem_forall₂_right {α : Type} {R : α → α → Prop} {l k : List α} (h : List.Forall₂ R l k) {b : α} (hb : b ∈ k) : ∃ a ∈ l, R a b :=
  mem_forall₂_left (R := fun a b => R b a) h.flip hb

/-- A task by which a grid has something left to run. -/
def State.waitsFor (s : State) (gridId uid : Nat) : Prop := ∃ k ∈ s.tasks, k.uid = uid ∧ k.grid = gridId ∧ k.ended = false

/-- No record of a grid of one team has become due, nor will, since the task it waits for is discarded. -/
structure State.unpaid (ds : List Due) (gridId uid : Nat) (s : State) : Prop where
  dues : ∀ d ∈ s.dues, d.owner = .grid gridId → d ∈ ds
  grids : ∀ g ∈ s.grids, g.gridId = gridId → g.single = true ∧ (g.wanted = true → s.waitsFor gridId uid)

section Unpaid
variable {ds : List Due} {gridId uid : Nat}

theorem State.unpaid_of {t s : State} (h : s.unpaid ds gridId uid) (hd : t.dues = s.dues) (hg : List.Forall₂ Grid.onward t.grids s.grids)
    (hw : s.waitsFor gridId uid → t.waitsFor gridId uid) : t.unpaid ds gridId uid := by
  refine ⟨by rw [hd]; exact h.dues, fun g hmem hid => ?_⟩
  obtain ⟨b, hb, hgb⟩ := mem_forall₂_left hg hmem
  obtain ⟨hsingle, hwait⟩ := h.grids b hb (hgb.1.symm.trans hid)
  exact ⟨hgb.2.1.trans hsingle, fun hwanted => hw (hwait (hgb.2.2 hwanted))⟩

theorem Grid.onward_same (l : List Grid) : List.Forall₂ Grid.onward l l := List.forall₂_same.mpr fun g _ => g.onward_refl

theorem State.unpaid_of_teams {t s : State} (ht : t.teamsOf s) (h : s.unpaid ds gridId uid) : t.unpaid ds gridId uid := by
  have hframe := ht.frame
  have hgrids : t.grids = s.grids := (congrArg State.grids hframe :)
  refine State.unpaid_of h (congrArg State.dues hframe :) (hgrids ▸ Grid.onward_same _) fun hw => ?_
  obtain ⟨k, hk, hkuid, hkgrid, hkend⟩ := hw
  obtain ⟨a, ha, hak⟩ := mem_forall₂_right ht.tasks hk
  refine ⟨a, ha, ?_⟩
  rw [hak.1]
  exact ⟨hkuid, hkgrid, hkend⟩

theorem State.unpaid_of_entries {t s : State} (ht : t.entriesOf s) (h : s.unpaid ds gridId uid) : t.unpaid ds gridId uid := by
  have hframe := ht.frame
  have hgrids : t.grids = s.grids := (congrArg State.grids hframe :)
  have htasks : t.tasks = s.tasks := (congrArg State.tasks hframe :)
  exact State.unpaid_of h (congrArg State.dues hframe :) (hgrids ▸ Grid.onward_same _) fun hw => by rw [State.waitsFor, htasks]; exact hw

theorem State.unpaid_gridSettle (s : State) (j : Nat) (h : s.unpaid ds gridId uid) : (s.gridSettle j).unpaid ds gridId uid := by
  obtain ⟨hframe, -, hgrids, hdues⟩ := s.gridSettle_settlesOf j
  have htasks : (s.gridSettle j).tasks = s.tasks := (congrArg State.tasks hframe :)
  have hw : s.waitsFor gridId uid → (s.gridSettle j).waitsFor gridId uid := fun hw => by rw [State.waitsFor, htasks]; exact hw
  rcases hdues with hdues | ⟨g, hg, hid, hwanted, hall, d, hd, hdues⟩
  · exact State.unpaid_of h hdues hgrids hw
  · have hother : j ≠ gridId := fun hj => by
      obtain ⟨k, hk, -, hkgrid, hkend⟩ := (h.grids g hg (hid.trans hj)).2 hwanted
      rw [hall k hk (hkgrid.trans hj.symm)] at hkend
      cases hkend
    have hgridsOk := State.unpaid_of (t := { s.gridSettle j with dues := s.dues }) h rfl hgrids hw
    refine ⟨fun e he howner => ?_, hgridsOk.grids⟩
    rw [hdues] at he
    rcases List.mem_append.mp he with he | he
    · exact h.dues e he howner
    · rw [List.mem_singleton.mp he, hd] at howner
      exact absurd (DueOwner.grid.inj howner) hother

theorem State.unpaid_releaseKeys (s : State) (j : Nat) (h : s.unpaid ds gridId uid) : (s.releaseKeys j).unpaid ds gridId uid := ⟨h.dues, h.grids⟩

/-- A discarded task takes the record's being wanted from its own grid of one team, and from no other grid anything that it had. -/
theorem State.unpaid_discardTask {s : State} {t : Task} (ht : t.uid = uid → t.grid = gridId ∧ t.spawned = false) (h : s.unpaid ds gridId uid) :
    (s.discardTask t).unpaid ds gridId uid := by
  have hbefore : ∀ u : State, u.entriesOf ((s.modTask t.uid (fun k => { k with state := .discarded, ended := true })).releaseKeys t.uid) →
      State.unpaid ds gridId uid { u with grids := modWhere u.grids (fun g => g.gridId == t.grid) (fun g =>
        { g.unrun 1 with wanted := g.wanted && (!g.single || t.spawned) }) } := fun u hu => by
    have hframe := hu.frame
    have hgrids : u.grids = s.grids := (congrArg State.grids hframe :)
    have hdues : u.dues = s.dues := (congrArg State.dues hframe :)
    have htasks : u.tasks = modWhere s.tasks (fun k => k.uid == t.uid) (fun k => { k with state := .discarded, ended := true }) := (congrArg State.tasks hframe :)
    by_cases huid : t.uid = uid
    · obtain ⟨htg, hspawned⟩ := ht huid
      refine ⟨fun d hd => h.dues d (hdues ▸ hd), fun g hg hid => ?_⟩
      obtain ⟨g0, hg0, rfl⟩ := List.mem_map.mp hg
      split at hid
      · rename_i heq
        obtain ⟨hsingle, -⟩ := h.grids g0 (hgrids ▸ hg0) hid
        rw [if_pos heq]
        exact ⟨hsingle, fun hwanted => by simp [hsingle, hspawned] at hwanted⟩
      · rename_i hne
        exact absurd (beq_iff_eq.mpr (hid.trans htg.symm)) hne
    · refine State.unpaid_of h hdues (hgrids ▸ forall₂_modWhere Grid.onward_refl fun g _ => ⟨rfl, rfl, fun hw => (Bool.and_eq_true _ _ ▸ hw).1⟩) fun hw => ?_
      obtain ⟨k, hk, hkuid, hrest⟩ := hw
      have hne : (k.uid == t.uid) = false := by simpa using fun hku : k.uid = t.uid => huid (hku.symm.trans hkuid)
      exact ⟨k, by
        change k ∈ u.tasks
        rw [htasks]
        exact List.mem_map.mpr ⟨k, hk, if_neg (by simp [hne])⟩, hkuid, hrest⟩
  rw [State.discardTask]
  dsimp only
  refine State.unpaid_gridSettle _ _ ?_
  split
  · exact hbefore _ (State.freeEntry_entriesOf _ _ _)
  · exact hbefore _ (State.entriesOf_refl _)

theorem State.unpaid_discardGrids (s : State) (vi : Nat) (h : s.unpaid ds gridId uid) : (s.discardGrids vi).unpaid ds gridId uid := by
  rw [State.discardGrids]
  refine foldl_keeps (State.unpaid ds gridId uid) _ (fun u g hu => ?_) _ _ ?_
  · split
    · exact hu
    · split
      · exact State.unpaid_of_entries (u.freeEntry_entriesOf _ _) hu
      · exact hu
  · refine State.unpaid_of h rfl (forall₂_modWhere Grid.onward_refl fun g _ => ?_) fun hw => hw
    split
    · exact ⟨rfl, rfl, id⟩
    · exact ⟨rfl, rfl, id⟩

/-- A virtual interface that is disabled leaves no record due of a grid of one team that waits. -/
theorem State.unpaid_disableVi {s : State} {vi : Nat} (h : s.unpaid ds gridId uid)
    (ht : ∀ t ∈ s.tasks, t.uid = uid → t.grid = gridId ∧ t.spawned = false) : (s.disableVi vi).unpaid ds gridId uid := by
  rw [State.disableVi_eq]
  refine foldl_keeps (State.unpaid ds gridId uid) _ (fun u (g : Grid) hu => u.unpaid_gridSettle g.gridId hu) _ _ ?_
  refine foldl_keeps (State.unpaid ds gridId uid) _ (fun u (t : Task) hu => u.unpaid_releaseKeys t.uid hu) _ _ ?_
  refine State.unpaid_discardGrids _ vi ?_
  have hkilled : ((s.closes vi).killsPlaced vi).unpaid ds gridId uid := State.unpaid_of_teams (State.killsPlaced_teamsOf _ vi) ⟨h.dues, h.grids⟩
  have hall : ∀ t ∈ (s.closes vi).waitingTasks vi, t.uid = uid → t.grid = gridId ∧ t.spawned = false := fun t hmem => ht t (List.mem_of_mem_filter hmem)
  generalize (s.closes vi).killsPlaced vi = u at hkilled ⊢
  generalize (s.closes vi).waitingTasks vi = l at hall ⊢
  induction l generalizing u with
  | nil => exact hkilled
  | cons t r ih => exact ih _ (State.unpaid_discardTask (hall t List.mem_cons_self) hkilled) fun k hk => hall k (List.mem_cons_of_mem _ hk)

end Unpaid

/-! ### Started -/

theorem State.freshSegment_storesOf (s : State) (vi seg next seqNo : Nat) : (s.freshSegment vi seg next seqNo).1.storesOf s := by
  rw [State.freshSegment]
  refine foldl_keeps (fun acc : State × Bool => acc.1.storesOf s) _ (fun acc a hacc => ?_) _ _ (s.deviceForce_storesOf _ _ _)
  split
  · exact State.storesOf_trans (State.deviceForce_storesOf _ _ _ _) hacc
  · exact hacc

/-- Where the descriptor of a queue stands in the management window. -/
def queueDescriptor (vi q : Nat) : Nat := 0x30000 + 0x100 * vi + 16 * q

/-- The first segment of a queue, as its descriptor names it. -/
def State.firstSegment (s : State) (vi q : Nat) : Nat := s.win (queueDescriptor vi q) + 2 ^ 32 * s.win (queueDescriptor vi q + 4)

/-- One queue is linked, when its descriptor enables it. -/
def State.linkQueue (vi : Nat) (u : State) (q : Nat) : State :=
  if u.win (queueDescriptor vi q + 8) % 2 = 0 then u
  else if u.firstSegment vi q % 4096 ≠ 0 then u.flagError 4
  else match u.freshSegment vi (u.firstSegment vi q) (u.firstSegment vi q) 0 with
    | (u', true) => { u' with queues := u'.queues ++ [⟨vi, q, [u.firstSegment vi q]⟩] }
    | (_, false) => u.flagError 4

theorem State.linkQueues_eq (s : State) (vi : Nat) : s.linkQueues vi =
    (List.range (min 16 (s.viOf vi).queues)).foldl (State.linkQueue vi) ((s.forgetQueues vi).setVi { s.viOf vi with poolUsed := [] }) := by
  unfold State.linkQueues State.linkQueue State.firstSegment queueDescriptor
  rfl

/-- A queue that its descriptor enables, with its first segment. -/
def State.descriptorLinks (s : State) (vi : Nat) (q : Queue) : Prop :=
  s.win (queueDescriptor vi q.num + 8) % 2 = 1 ∧ q.segs = [s.firstSegment vi q.num]

/-- A state after queues below a number have been linked. -/
structure State.linksOf (vi n : Nat) (t s : State) : Prop where
  frame : t = { s with mem := t.mem, groups := t.groups, nextId := t.nextId, queues := t.queues, host := t.host }
  window : t.host.window = s.host.window
  queues : ∃ l, t.queues = s.queues ++ l ∧ ∀ q ∈ l, q.vi = vi ∧ q.num < n ∧ s.descriptorLinks vi q

theorem State.win_congr {t s : State} (h : t.host.window = s.host.window) (off : Nat) : t.win off = s.win off := by rw [State.win, State.win, h]

theorem State.linksOf_same {vi n : Nat} {u t s : State} (h : State.linksOf vi n t s) (hu : u = { t with mem := u.mem, groups := u.groups, nextId := u.nextId, host := u.host })
    (hw : u.host.window = t.host.window) : State.linksOf vi n u s := by
  have hq : u.queues = t.queues := (congrArg State.queues hu :)
  exact ⟨by rw [hu, h.frame], hw.trans h.window, hq ▸ h.queues⟩

theorem State.linkQueue_linksOf {vi n q : Nat} {t s : State} (hq : q < n) (h : State.linksOf vi n t s) : State.linksOf vi n (State.linkQueue vi t q) s := by
  have hflag : State.linksOf vi n (t.flagError 4) s := by
    rw [State.flagError]
    split
    · exact h
    · exact State.linksOf_same h rfl rfl
  have hwin : ∀ off, t.win off = s.win off := State.win_congr h.window
  have hseg : t.firstSegment vi q = s.firstSegment vi q := by rw [State.firstSegment, State.firstSegment, hwin, hwin]
  rw [State.linkQueue, hseg, hwin]
  split
  · exact h
  · rename_i hon
    split
    · exact hflag
    · split
      · rename_i u hu
        have hstores : u.storesOf t := by
          have hfresh := t.freshSegment_storesOf vi (s.firstSegment vi q) (s.firstSegment vi q) 0
          rwa [hu] at hfresh
        rw [State.storesOf] at hstores
        have hhost : u.host.window = t.host.window := by rw [hstores]
        obtain ⟨hframe, hwindow, l, hl, hall⟩ := State.linksOf_same h (by rw [hstores]) hhost
        refine ⟨by rw [hframe], hwindow, l ++ [⟨vi, q, [s.firstSegment vi q]⟩], ?_, fun k hk => ?_⟩
        · rw [← List.append_assoc, ← hl]
        · rcases List.mem_append.mp hk with hk | hk
          · exact hall k hk
          · obtain rfl := List.mem_singleton.mp hk
            exact ⟨rfl, hq, by dsimp only; omega, rfl⟩
      · exact hflag

theorem State.linkQueues_linksOf (s : State) (vi : Nat) :
    State.linksOf vi (min 16 (s.viOf vi).queues) (s.linkQueues vi) ((s.forgetQueues vi).setVi { s.viOf vi with poolUsed := [] }) := by
  rw [State.linkQueues_eq]
  have hall : ∀ q ∈ List.range (min 16 (s.viOf vi).queues), q < min 16 (s.viOf vi).queues := fun q hq => List.mem_range.mp hq
  have hstart : ∀ u : State, State.linksOf vi (min 16 (s.viOf vi).queues) u u := fun u => ⟨rfl, rfl, [], (List.append_nil _).symm, fun _ h => by cases h⟩
  generalize (s.forgetQueues vi).setVi { s.viOf vi with poolUsed := [] } = s0
  have hfold : ∀ (l : List Nat), (∀ q ∈ l, q < min 16 (s.viOf vi).queues) → ∀ u, State.linksOf vi (min 16 (s.viOf vi).queues) u s0 →
      State.linksOf vi (min 16 (s.viOf vi).queues) (l.foldl (State.linkQueue vi) u) s0 := fun l => by
    induction l with
    | nil => exact fun _ u hu => hu
    | cons q r ih => exact fun hl u hu => ih (fun k hk => hl k (List.mem_cons_of_mem _ hk)) _ (State.linkQueue_linksOf (hl q List.mem_cons_self) hu)
  exact hfold _ hall s0 (hstart s0)

/-- A virtual interface that starts, before its queues are linked. -/
def State.startsEmpty (s : State) (vi : Nat) : State :=
  ((s.setVi { s.viOf vi with enabled := true }).forgetQueues vi).setVi { s.viOf vi with enabled := true, poolUsed := [] }

theorem State.viOf_startsEmpty (s : State) (vi : Nat) : (s.startsEmpty vi).viOf vi = { s.viOf vi with enabled := true, poolUsed := [] } := by
  rw [State.startsEmpty, State.viOf_setVi, if_pos (s.viOf_num vi).symm]

/-- What starting a disabled virtual interface leaves. -/
theorem State.enableVi_links {s : State} {vi : Nat} (h : (s.viOf vi).enabled = false) :
    State.linksOf vi (min 16 (s.viOf vi).queues) (s.enableVi vi) (s.startsEmpty vi) := by
  have hv : (s.setVi { s.viOf vi with enabled := true }).viOf vi = { s.viOf vi with enabled := true } := by
    rw [State.viOf_setVi, if_pos (s.viOf_num vi).symm]
  have hlinks := (s.setVi { s.viOf vi with enabled := true }).linkQueues_linksOf vi
  rw [hv] at hlinks
  rw [State.enableVi, h]
  exact hlinks

theorem State.viOf_enableVi {s : State} {vi : Nat} (h : (s.viOf vi).enabled = false) :
    (s.enableVi vi).viOf vi = { s.viOf vi with enabled := true, poolUsed := [] } := by
  have hvis : (s.enableVi vi).vis = (s.startsEmpty vi).vis := (congrArg State.vis (State.enableVi_links h).frame :)
  rw [State.viOf_congr hvis, State.viOf_startsEmpty]

theorem State.enableVi_enabled (s : State) (vi : Nat) : ((s.enableVi vi).viOf vi).enabled = true := by
  cases h : (s.viOf vi).enabled with
  | false => rw [State.viOf_enableVi h]
  | true =>
    rw [State.enableVi, h]
    change ((s.setVi { s.viOf vi with enabled := true }).viOf vi).enabled = true
    rw [State.viOf_setVi, if_pos (s.viOf_num vi).symm]

theorem State.disableVi_disabling (s : State) (vi : Nat) : State.disabling vi (s.disableVi vi) (s.closes vi) := by
  rw [State.disableVi_eq]
  exact State.disabling_trans (State.settlesGrids_disabling _ vi) (State.disabling_trans (State.givesKeys_disabling _ vi) (State.disabling_trans (State.discardGrids_disabling _ vi)
    (State.disabling_trans (State.disabling_foldl State.discardTask_disabling _ _) (State.disabling_of_teams (State.killsPlaced_teamsOf _ vi)))))

theorem State.disableVi_disabled (s : State) (vi : Nat) : ((s.disableVi vi).viOf vi).enabled = false := by
  rw [(s.disableVi_disabling vi).enabled]
  change ((s.setVi { s.viOf vi with enabled := false }).viOf vi).enabled = false
  rw [State.viOf_setVi, if_pos (s.viOf_num vi).symm]

theorem find?_of_unique {l : List Task} {t : Task} (ht : t ∈ l) (hone : ∀ k ∈ l, k.uid = t.uid → k = t) : l.find? (fun k => k.uid == t.uid) = some t := by
  obtain ⟨k, hk⟩ := Option.isSome_iff_exists.mp (List.find?_isSome.mpr ⟨t, ht, beq_iff_eq.mpr rfl⟩ : (l.find? (fun k => k.uid == t.uid)).isSome = true)
  rw [hk, hone k (List.mem_of_find?_eq_some hk) (beq_iff_eq.mp (List.find?_some (p := fun k : Task => k.uid == t.uid) hk))]

/-- Settles O36. -/
theorem interfaceStates : Obligations.InterfaceStates := by
  refine ⟨fun s vi => ?_, fun s vi hoff => ?_, fun s vi hon => ?_⟩
  · intro u
    have hsteps := s.disableVi_disabling vi
    have hrest : State.disabling vi u (((s.closes vi).waitingTasks vi).foldl State.discardTask ((s.closes vi).killsPlaced vi)) :=
      State.disabling_trans (State.settlesGrids_disabling _ vi) (State.disabling_trans (State.givesKeys_disabling _ vi) (State.discardGrids_disabling _ vi))
    refine ⟨s.disableVi_disabled vi, congrArg HostSide.waiting hsteps.host, ?_, fun t ht hvi hone => ?_, fun t ht hvi => ?_, fun g hg hgone hsingle hwaits => ?_⟩
    · have hanswers := congrArg HostSide.answers hsteps.host
      rw [← List.map_const']
      exact hanswers
    · have hfound : (s.closes vi).task? t.uid = some t := find?_of_unique ht hone
      refine ⟨fun hp => ?_, fun hw => ?_⟩
      · obtain ⟨k, hk, hkill⟩ := State.killsPlaced_killing (s := s.closes vi) ht hfound hvi hp
        obtain ⟨k1, hk1, hgoes1⟩ := (State.disabling_foldl (vi := vi) State.discardTask_disabling ((s.closes vi).waitingTasks vi) ((s.closes vi).killsPlaced vi)).task? hk
        obtain ⟨k2, hk2, hgoes⟩ := hrest.task? hk1
        exact ⟨k2, hk2, hgoes.2.1 (hgoes1.2.1 hkill)⟩
      · obtain ⟨k, hk, -⟩ := (State.killsPlaced_teamsOf (s.closes vi) vi).task? hfound
        have hmem : t ∈ (s.closes vi).waitingTasks vi := List.mem_filter.mpr ⟨ht, by rcases hw with hw | hw <;> simp [hvi, hw]⟩
        obtain ⟨k1, hk1, hdone⟩ := State.discards_waiting (vi := vi) hmem hk
        obtain ⟨k2, hk2, hgoes⟩ := hrest.task? hk1
        exact ⟨k2, hk2, hgoes.2.2 hdone⟩
    · have hbefore : State.disabling vi ((((s.closes vi).waitingTasks vi).foldl State.discardTask ((s.closes vi).killsPlaced vi)).discardGrids vi) (s.closes vi) :=
        State.disabling_trans (State.discardGrids_disabling _ vi) (State.disabling_trans (State.disabling_foldl State.discardTask_disabling _ _)
          (State.disabling_of_teams (State.killsPlaced_teamsOf _ vi)))
      obtain ⟨k, hk, hkt⟩ := mem_forall₂_right hbefore.tasks ht
      have hkeyless := State.givesKeys_keyless hk (hkt.1.2.trans hvi)
      rw [hkt.1.1] at hkeyless
      exact (State.settlesGrids_disabling _ vi).keys _ hkeyless
    · obtain ⟨t, ht, htg, -, hend, -, hspawned, htone⟩ := hwaits
      have hunpaid : (s.disableVi vi).unpaid s.dues g.gridId t.uid :=
        State.unpaid_disableVi ⟨fun d hd _ => hd, fun b hb hid => by
          rw [hgone b hb hid]
          exact ⟨hsingle, fun _ => ⟨t, ht, rfl, htg, hend⟩⟩⟩ fun k hk hku => by
          rw [htone k hk hku]
          exact ⟨htg, hspawned⟩
      exact hunpaid.dues
  · intro u
    obtain ⟨hframe, hwindow, l, hqueues, hl⟩ := State.enableVi_links hoff
    have hmine : ∀ q ∈ u.queues, q.vi = vi → q ∈ l := fun q hq hqvi => by
      rcases List.mem_append.mp (hqueues ▸ hq) with hq | hq
      · have := (List.mem_filter.mp hq).2
        simp [hqvi] at this
      · exact hq
    refine ⟨s.enableVi_enabled vi, by rw [State.viOf_enableVi hoff], (congrArg State.dues hframe :), fun q hq hqvi => ?_, ?_, fun e he => ?_, fun t ht htvi => ?_, fun g hg hgvi => ?_⟩
    · obtain ⟨-, hnum, hlinks⟩ := hl q (hmine q hq hqvi)
      exact ⟨by omega, by omega, hlinks⟩
    · have hnone : l.filter (fun q => q.vi != vi) = [] := List.filter_eq_nil_iff.mpr fun q hq => by simp [(hl q hq).1]
      change (s.enableVi vi).queues.filter _ = _
      rw [hqueues, List.filter_append, hnone, List.append_nil]
      change (s.queues.filter (fun q => q.vi != vi)).filter (fun q => q.vi != vi) = _
      rw [List.filter_filter]
      simp only [Bool.and_self]
    · have hentries : u.entries = s.entries.filter (fun e => e.vi != vi) := (congrArg State.entries hframe :)
      rw [hentries] at he
      simpa using (List.mem_filter.mp he).2
    · have htasks : u.tasks = modWhere s.tasks (fun t => t.vi == vi) (fun t => { t with entry := none }) := (congrArg State.tasks hframe :)
      obtain ⟨t0, -, rfl⟩ := List.mem_map.mp (htasks ▸ ht)
      split at htvi
      · rename_i heq
        rw [if_pos heq]
      · exact absurd (beq_iff_eq.mpr htvi) ‹_›
    · have hgrids : u.grids = modWhere s.grids (fun g => g.vi == vi) (fun g => { g with entry := none }) := (congrArg State.grids hframe :)
      obtain ⟨g0, -, rfl⟩ := List.mem_map.mp (hgrids ▸ hg)
      split at hgvi
      · rename_i heq
        rw [if_pos heq]
      · exact absurd (beq_iff_eq.mpr hgvi) ‹_›
  · rw [State.enableVi, hon]
    rfl

end Sys2Proof.Machine
end

section
/-! The privileged instructions (R246 to R251). -/
namespace Sys2Proof.Machine

/-! ### Data of a range of a virtual interface -/

/-- Is data of n bytes at an address in a range? -/
def touches (base len va n : Nat) : Bool := decide (va < base + len) && decide (base < va + n)

/-- The present mapped lines of a virtual interface that have data of a range. -/
def Line.inRange (vi base len : Nat) (l : Line) : Bool := l.vi == vi && l.present && l.mapped.any (fun va => touches base len va 128)

theorem Line.inRange_mapped {vi base len : Nat} {l : Line} (h : l.inRange vi base len = true) : l.mapped.isSome = true := by
  rw [Line.inRange, Bool.and_eq_true] at h
  cases hm : l.mapped with
  | none => rw [hm] at h; exact absurd h.2 (by simp)
  | some va => rfl

/-- What goes of a virtual interface's data in a range (R248). -/
theorem State.dropRange_spec (s : State) (vi base len : Nat) :
    (s.dropRange vi base len = { s with mem := (s.dropRange vi base len).mem, arrays := (s.dropRange vi base len).arrays }) ∧
    ((s.dropRange vi base len).mem = { s.mem with copies := (s.dropRange vi base len).mem.copies, lines := (s.dropRange vi base len).mem.lines
                                                  stash := (s.dropRange vi base len).mem.stash, stashPoison := (s.dropRange vi base len).mem.stashPoison }) ∧
    (s.dropRange vi base len).mem.lines = modWhere s.mem.lines (fun l => l.inRange vi base len && !s.mem.lineDirty l) (fun l => { l with present := false }) ∧
    (∀ c ∈ (s.dropRange vi base len).mem.copies, c ∈ s.mem.copies ∧ ¬(c.vi = vi ∧ touches base len c.va 4 = true)) ∧
    lensTook s.arrays (s.dropRange vi base len).arrays ∧
    ((∀ c n, s.lensPending c n = false) → (s.dropRange vi base len).arrays = s.arrays ∧
      (s.dropRange vi base len).mem.copies = s.mem.copies.filter (fun c => !(c.vi == vi && touches base len c.va 4))) := by
  have hdef : s.dropRange vi base len =
      (let u := (s.mem.lines.filter (fun l => l.inRange vi base len && !s.mem.lineDirty l)).foldl (fun u l => u.lensFirst l.core l.line) s
       let m := (u.mem.lines.filter (fun l => l.inRange vi base len && u.mem.lineDirty l)).foldl Mem.refreshLine u.mem
       { u with mem := { m with
          copies := u.mem.copies.filter (fun c => !(c.vi == vi && touches base len c.va 4))
          lines := modWhere u.mem.lines (fun l => l.inRange vi base len && !u.mem.lineDirty l) (fun l => { l with present := false }) } }) := rfl
  have hlens : ((s.mem.lines.filter (fun l => l.inRange vi base len && !s.mem.lineDirty l)).foldl (fun u l => u.lensFirst l.core l.line) s).lensStep s :=
    State.lensStep_foldl (fun u (l : Line) => u.lensFirst_lensStep l.core l.line) _ s
  have hnone : (∀ c n, s.lensPending c n = false) →
      (s.mem.lines.filter (fun l => l.inRange vi base len && !s.mem.lineDirty l)).foldl (fun u l => u.lensFirst l.core l.line) s = s := fun h =>
    foldl_keeps (fun u : State => u = s) (fun u (l : Line) => u.lensFirst l.core l.line) (fun u l hu => by rw [hu, State.lensFirst_none (h _ _)]) _ s rfl
  rw [hdef]
  generalize (s.mem.lines.filter (fun l => l.inRange vi base len && !s.mem.lineDirty l)).foldl (fun u l => u.lensFirst l.core l.line) s = u at hlens hnone ⊢
  obtain ⟨hframe, hmem, htook⟩ := hlens
  have hdirty : ∀ l, u.mem.lineDirty l = s.mem.lineDirty l := fun l => by rw [Mem.lineDirty, Mem.lineDirty, Mem.dirtyWords, Mem.dirtyWords, hmem.regs]
  have hreread := (Mem.refreshLines_spec (m := u.mem) (ls := u.mem.lines.filter (fun l => l.inRange vi base len && u.mem.lineDirty l)) fun l hl => by
    obtain ⟨hl, ht⟩ := List.mem_filter.mp hl
    exact ⟨hl, Line.inRange_mapped (Bool.and_eq_true _ _ ▸ ht).1⟩).1
  dsimp only
  refine ⟨by rw [hframe], ?_, ?_, fun c hc => ?_, htook, fun h => by rw [hnone h]; exact ⟨rfl, rfl⟩⟩
  · rw [hreread.frame, hmem.frame]
  · rw [hmem.lines]
    simp only [hdirty]
  · obtain ⟨hc, hnot⟩ := List.mem_filter.mp hc
    exact ⟨hmem.copies c hc, fun h => by simp [h.1, h.2] at hnot⟩

/-- A line that has left one range, then another. -/
theorem Line.leavesRanges (l : Line) (vi b1 l1 b2 l2 : Nat) (d : Line → Bool) :
    (if ((if (l.inRange vi b1 l1 && !d l) = true then { l with present := false } else l : Line).inRange vi b2 l2 &&
        !d (if (l.inRange vi b1 l1 && !d l) = true then { l with present := false } else l)) = true
      then { (if (l.inRange vi b1 l1 && !d l) = true then { l with present := false } else l : Line) with present := false }
      else if (l.inRange vi b1 l1 && !d l) = true then { l with present := false } else l) =
    if l.vi = vi ∧ l.mapped.any (fun va => touches b1 l1 va 128 || touches b2 l2 va 128) = true ∧ d l = false then { l with present := false } else l := by
  cases hp : l.present with
  | false =>
    rw [Line.absent_eq hp]
    simp only [ite_self, Line.absent_eq hp]
  | true =>
    have hin : ∀ b n, l.inRange vi b n = (l.vi == vi && l.mapped.any (fun va => touches b n va 128)) := fun b n => by rw [Line.inRange, hp, Bool.and_true]
    have hout : ∀ b n, ({ l with present := false } : Line).inRange vi b n = false := fun b n => by simp [Line.inRange]
    have hany : l.mapped.any (fun va => touches b1 l1 va 128 || touches b2 l2 va 128) =
        (l.mapped.any (fun va => touches b1 l1 va 128) || l.mapped.any (fun va => touches b2 l2 va 128)) := by cases l.mapped <;> rfl
    have hvi : l.vi = vi ↔ (l.vi == vi) = true := beq_iff_eq.symm
    simp only [hany, hvi]
    cases h1 : l.inRange vi b1 l1 && !d l with
    | true =>
      rw [hin, Bool.and_eq_true, Bool.and_eq_true, Bool.not_eq_true'] at h1
      obtain ⟨⟨hv, hm⟩, hdl⟩ := h1
      rw [if_pos rfl, hout, hv, hm, hdl]
      simp
    | false =>
      rw [hin] at h1
      rw [if_neg Bool.false_ne_true, hin]
      cases h2 : l.vi == vi <;> cases h3 : d l <;> simp_all

/-- SETRGN's two ranges, one after the other. -/
theorem State.dropRanges_spec (s : State) (vi b1 l1 b2 l2 : Nat) {t : State} (ht : (s.dropRange vi b1 l1).dropRange vi b2 l2 = t) :
    (t = { s with mem := t.mem, arrays := t.arrays }) ∧
    (t.mem = { s.mem with copies := t.mem.copies, lines := t.mem.lines, stash := t.mem.stash, stashPoison := t.mem.stashPoison }) ∧
    t.mem.lines = s.mem.lines.map (fun l => if l.vi = vi ∧ l.mapped.any (fun va => touches b1 l1 va 128 || touches b2 l2 va 128) = true ∧ s.mem.lineDirty l = false
      then { l with present := false } else l) ∧
    (∀ c ∈ t.mem.copies, c ∈ s.mem.copies ∧ ¬(c.vi = vi ∧ (touches b1 l1 c.va 4 || touches b2 l2 c.va 4) = true)) ∧
    lensTook s.arrays t.arrays ∧
    ((∀ c n, s.lensPending c n = false) → t.arrays = s.arrays ∧
      t.mem.copies = s.mem.copies.filter (fun c => !(c.vi == vi && (touches b1 l1 c.va 4 || touches b2 l2 c.va 4)))) := by
  obtain ⟨hframe, hmem, hlines, hcopies, htook, hnone⟩ := s.dropRange_spec vi b1 l1
  obtain ⟨hframe', hmem', hlines', hcopies', htook', hnone'⟩ := (s.dropRange vi b1 l1).dropRange_spec vi b2 l2
  rw [ht] at hframe' hmem' hlines' hcopies' htook' hnone'
  generalize s.dropRange vi b1 l1 = u at hframe hmem hlines hcopies htook hnone hframe' hmem' hlines' hcopies' htook' hnone' ht
  have hdirty : ∀ l, u.mem.lineDirty l = s.mem.lineDirty l := fun l => by
    rw [Mem.lineDirty, Mem.lineDirty, Mem.dirtyWords, Mem.dirtyWords, hmem]
  have hpending : (∀ c n, s.lensPending c n = false) → ∀ c n, u.lensPending c n = false := fun h c n => by
    rw [State.lensPending, (hnone h).1]
    exact h c n
  refine ⟨by rw [hframe', hframe], by rw [hmem', hmem], ?_, fun c hc => ?_, Eq.trans htook' htook, fun h => ?_⟩
  · rw [hlines', hlines, modWhere, modWhere, List.map_map]
    refine List.map_congr_left fun l _ => ?_
    dsimp only [Function.comp]
    simp only [hdirty]
    exact l.leavesRanges vi b1 l1 b2 l2 _
  · obtain ⟨hc, hnot'⟩ := hcopies' c hc
    obtain ⟨hc, hnot⟩ := hcopies c hc
    refine ⟨hc, fun h => ?_⟩
    rcases (Bool.or_eq_true _ _).mp h.2 with ht | ht
    · exact hnot ⟨h.1, ht⟩
    · exact hnot' ⟨h.1, ht⟩
  · obtain ⟨ha, hc⟩ := hnone h
    obtain ⟨ha', hc'⟩ := hnone' (hpending h)
    refine ⟨ha'.trans ha, ?_⟩
    rw [hc', hc, List.filter_filter]
    refine List.filter_congr fun c _ => ?_
    cases c.vi == vi <;> simp [Bool.and_comm]

/-! ### Operations on the whole machine -/

/-- A privileged instruction that executes once per issue. -/
theorem exec_of_sysOp {i : Instr} {dyn : Ctx → Option Nat} {nms : List Named} {f : Ctx → Res} {s t : State} {x : Ctx}
    (hexec : exec i s = sysOp i dyn nms f s) (hx : Runs i (fun _ => nms) s x) (hany : x.any = true) (hd : dyn x = none) (hf : f x = .ok t)
    (hnms : ∀ nm ∈ nms, ∃ k n, nm = uName k n) : exec i s = .next (t.modGroup x.g.gid Group.advance) :=
  exec_of_ok hexec hx hd ((if_pos hany).trans hf) (noInd_of_uNames hnms)

theorem uNames_two {k j : Nat} {n m : BitVec 6} : ∀ nm ∈ [uName k n, uName j m], ∃ k n, nm = uName k n := fun nm hnm => by
  rcases List.mem_cons.mp hnm with rfl | hnm
  · exact ⟨_, _, rfl⟩
  · exact ⟨_, _, List.mem_singleton.mp hnm⟩

theorem uNames_one {k : Nat} {n : BitVec 6} : ∀ nm ∈ [uName k n], ∃ k n, nm = uName k n := fun _ hnm => ⟨_, _, List.mem_singleton.mp hnm⟩

theorem uNames_none : ∀ nm ∈ ([] : List Named), ∃ k n, nm = uName k n := fun _ hnm => by cases hnm

theorem firmwareOnly_of_firmware {x : Ctx} (h : 412 ≤ x.g.core) : firmwareOnly x = none := by
  rw [firmwareOnly, Ctx.outside, isFirmware, decide_eq_true h]
  rfl

theorem Ctx.otherVi_of_ok {x : Ctx} {vi : Nat} (h : 412 ≤ x.g.core ∨ vi = x.t.vi) : x.otherVi vi = none := by
  rw [Ctx.otherVi, Ctx.outside, isFirmware]
  rcases h with h | h
  · rw [decide_eq_true h, Bool.not_true, Bool.and_false, Bool.false_and]
    rfl
  · rw [h, bne_self_eq_false, Bool.and_false]
    rfl

/-- A privileged instruction that changes the machine as a function of its operands. -/
theorem privileged_of_sysOp {i : Instr} {dyn : Ctx → Option Nat} {nms : List Named} {f : Ctx → Res} {ok : Ctx → Prop} {F : Ctx → State → State}
    (hexec : ∀ s, exec i s = sysOp i dyn nms f s) (hd : ∀ x, ok x → dyn x = none) (hf : ∀ x, f x = .ok (F x x.s))
    (hnms : ∀ nm ∈ nms, ∃ k n, nm = uName k n) : Privileged i nms ok F := fun s x hx hany hok => by
  obtain rfl := ctxOf_state hx.1
  exact exec_of_sysOp (hexec _) hx hany (hd x hok) (hf x) hnms

/-- SETVI of one parameter. -/
theorem setsVi_of_setvi {i : Instr} {sb sa : BitVec 6} {f : Nat → VI → VI} (hexec : ∀ s, exec i s = setvi i sb sa f s) (hnum : ∀ n v, (f n v).num = v.num) :
    SetsVi i sb sa f :=
  privileged_of_sysOp hexec (fun _ => firmwareOnly_of_firmware) (fun x => by rw [State.setVi, hnum]) uNames_two

/-- SETSEG (R247). -/
theorem changes_setseg (g : Guard) (seg : BitVec 3) (sb sa : BitVec 6) : Changes (.setseg g seg sb sa) (fun _ => [uName 1 sa, uName 2 sb])
    (fun x => x.any = true ∧ ¬(seg = 1 ∧ (x.u sa % 1024 ≠ 0 ∨ 262144 < x.u sa + x.u sb)))
    (fun x h => { h with segs := h.segs.set seg.toNat (x.g.sget sa.toNat, if seg = 1 ∧ 384 ≤ h.core then 0 else x.g.sget sb.toNat) }) := by
  refine changes_of_okGroup (i := .setseg g seg sb sa) (dyn := neverIllegal) (fun _ => rfl) (fun _ _ => rfl) (fun x hok => ?_) (fun _ _ => rfl)
    fun _ _ => noInd_of_uNames uNames_two
  obtain ⟨hany, hfits⟩ := hok
  dsimp only
  rw [if_pos hany, if_neg hfits]
  have hval : ∀ n : BitVec 6, BitVec.ofNat 64 (x.u n) = x.g.sget n.toNat := fun n => BitVec.ofNat_toNat _ _ |>.trans (BitVec.setWidth_eq _)
  refine congrArg x.okGroup (funext fun h => ?_)
  rw [hval, segLimit, hval]
  simp only [isService, decide_eq_true_eq]

/-- SETRGN (R248). -/
theorem exec_setrgn_ready {g : Guard} {entry : BitVec 4} {sb sa : BitVec 6} {s : State} {x : Ctx}
    (hx : Runs (.setrgn g entry sb sa) (fun _ => [uName 1 sa, uName 2 sb]) s x) (hany : x.any = true) :
    exec (.setrgn g entry sb sa) s = .next ((s.setRegion x.t.vi entry.toNat (regionOfWords (x.u sa) (x.u sb))).modGroup x.g.gid Group.advance) := by
  obtain rfl := ctxOf_state hx.1
  exact exec_of_sysOp rfl hx hany rfl rfl uNames_two

theorem regionOfWords_eq (a b : Nat) : regionOfWords a b = ⟨a, b % 2 ^ 48, BitVec.ofNat 4 (b / 2 ^ 48), decide (b / 2 ^ 52 % 2 = 1)⟩ := by
  rw [regionOfWords, fld, fld, fld, Nat.pow_zero, Nat.div_one, Nat.pow_one]
  refine congrArg₂ (Region.mk a (b % 2 ^ 48)) (BitVec.eq_of_toNat_eq ?_) ?_
  · simp
  · exact Bool.eq_iff_iff.mpr (by rw [beq_iff_eq, decide_eq_true_eq])

/-- Settles O35. -/
theorem privilegedInstructions : Obligations.PrivilegedInstructions := by
  refine ⟨changes_setseg, fun g entry sb sa s x hx hany => ?_, fun g sb sa => ?_, fun g sb => ?_, fun g => ?_, fun g sb sa => ?_, fun g => ?_, fun g sb sa => ?_, fun g sb sa => ?_,
    fun g sb sa => ?_, fun g sb sa => ?_, fun g sb sa => ?_, fun g sb sa => ?_, fun g sb sa s x hx hany hcore hval => ⟨?_, fun _ => s.enableVi_enabled _, fun _ => s.disableVi_disabled _⟩⟩
  · refine ⟨_, exec_setrgn_ready hx hany, ?_⟩
    rw [regionOfWords_eq]
    generalize hr : (⟨x.u sa, x.u sb % 2 ^ 48, BitVec.ofNat 4 (x.u sb / 2 ^ 48), decide (x.u sb / 2 ^ 52 % 2 = 1)⟩ : Region) = r
    have hbase : r.base = x.u sa := by rw [← hr]
    have hlimit : r.limit = x.u sb % 2 ^ 48 := by rw [← hr]
    obtain ⟨hframe, hmem, hlines, hcopies, htook, hnone⟩ := State.dropRanges_spec
      (s.setVi { s.viOf x.t.vi with regions := (s.viOf x.t.vi).regionTable.set entry.toNat r }) x.t.vi
      ((s.viOf x.t.vi).regionTable.getD entry.toNat ⟨0, 0, 0, false⟩).base ((s.viOf x.t.vi).regionTable.getD entry.toNat ⟨0, 0, 0, false⟩).limit r.base r.limit
      (t := s.setRegion x.t.vi entry.toNat r) rfl
    rw [hbase, hlimit] at hlines hcopies hnone
    generalize s.setRegion x.t.vi entry.toNat r = t at hframe hmem hlines hcopies htook hnone ⊢
    have htouch : ∀ va n, decide (va < ((s.viOf x.t.vi).regionTable.getD entry.toNat ⟨0, 0, 0, false⟩).base + ((s.viOf x.t.vi).regionTable.getD entry.toNat ⟨0, 0, 0, false⟩).limit ∧
        ((s.viOf x.t.vi).regionTable.getD entry.toNat ⟨0, 0, 0, false⟩).base < va + n ∨ va < x.u sa + x.u sb % 2 ^ 48 ∧ x.u sa < va + n) =
        (touches ((s.viOf x.t.vi).regionTable.getD entry.toNat ⟨0, 0, 0, false⟩).base ((s.viOf x.t.vi).regionTable.getD entry.toNat ⟨0, 0, 0, false⟩).limit va n ||
          touches (x.u sa) (x.u sb % 2 ^ 48) va n) := fun va n => by
      simp only [touches, Bool.decide_or, Bool.decide_and]
    refine ⟨?_, ?_, hmem, htook, ?_⟩
    · have hvis : t.vis = (s.setVi { s.viOf x.t.vi with regions := (s.viOf x.t.vi).regionTable.set entry.toNat r }).vis := by rw [hframe]
      change (t.viOf x.t.vi).regions = _
      rw [State.viOf_congr hvis, State.viOf_setVi, if_pos (s.viOf_num _).symm]
    · intro old touched
      have htouched : touched = fun va n => touches old.base old.limit va n || touches (x.u sa) (x.u sb % 2 ^ 48) va n := funext fun va => funext (htouch va)
      rw [htouched]
      exact ⟨hcopies, hnone, hlines⟩
    · rw [State.modGroup_groups, State.modGroup_groups, show t.groups = s.groups from (congrArg State.groups hframe :)]
  · refine privileged_of_sysOp (fun _ => rfl) (fun x hok => Ctx.otherVi_of_ok hok) (fun x => ?_) uNames_two
    simp only [State.dropTlb]
  · exact privileged_of_sysOp (fun _ => rfl) (fun x hok => Ctx.otherVi_of_ok hok) (fun x => rfl) uNames_one
  · refine privileged_of_sysOp (fun _ => rfl) (fun x hok => firmwareOnly_of_firmware hok) (fun x => ?_) uNames_none
    simp [State.dropTlb]
  · exact privileged_of_sysOp (fun _ => rfl) (fun _ _ => rfl) (fun x => rfl) uNames_two
  · refine privileged_of_sysOp (fun _ => rfl) (fun _ _ => rfl) (fun x => ?_) uNames_none
    simp only [State.dropCode, Bool.and_true]
  · exact setsVi_of_setvi (fun _ => rfl) fun _ _ => rfl
  · exact setsVi_of_setvi (fun _ => rfl) fun _ _ => rfl
  · exact setsVi_of_setvi (fun _ => rfl) fun _ _ => rfl
  · exact setsVi_of_setvi (fun _ => rfl) fun _ _ => rfl
  · exact setsVi_of_setvi (fun _ => rfl) fun _ _ => rfl
  · exact setsVi_of_setvi (fun _ => rfl) fun _ _ => rfl
  · obtain rfl := ctxOf_state hx.1
    refine exec_of_sysOp rfl hx hany ?_ rfl uNames_two
    rw [hany, Bool.true_and, decide_eq_false (by omega), firmwareOnly_of_firmware hcore]
    rfl

end Sys2Proof.Machine
end

section
/-! PREF and PREF.l2 (R191). -/
namespace Sys2Proof.Machine

/-! ### Copies -/

/-- A state after prefetches of a core: copies of current values have been added, and fills of stash lines started. -/
structure State.prefetched (core : Nat) (t s : State) : Prop where
  frame : t = { s with mem := { s.mem with copies := t.mem.copies, lines := t.mem.lines } }
  copies : ∃ added, t.mem.copies = s.mem.copies ++ added ∧ ∀ c ∈ added, c.core = core ∧ c.value = s.mem.word c.pa ∧ s.mem.reg? c.pa = none

section Prefetch
variable {core : Nat}

theorem State.prefetched_refl (s : State) : State.prefetched core s s := ⟨rfl, [], (List.append_nil _).symm, fun _ h => by cases h⟩

theorem State.prefetched.mem {t s : State} (h : State.prefetched core t s) : t.mem = { s.mem with copies := t.mem.copies, lines := t.mem.lines } := congrArg State.mem h.frame

theorem State.prefetched.reg? {t s : State} (h : State.prefetched core t s) (pw : Nat) : t.mem.reg? pw = s.mem.reg? pw := by rw [h.mem]; rfl

theorem State.prefetched.byte {t s : State} (h : State.prefetched core t s) (pa : Nat) : t.mem.byte pa = s.mem.byte pa :=
  Mem.byte_congr (by rw [h.mem]) (fun k => by rw [h.reg?]) pa

theorem State.prefetched.word {t s : State} (h : State.prefetched core t s) (pw : Nat) : t.mem.word pw = s.mem.word pw := by rw [h.mem]; rfl

theorem State.prefetched.poisonIn {t s : State} (h : State.prefetched core t s) (pa n : Nat) : t.mem.poisonIn pa n = s.mem.poisonIn pa n := by rw [h.mem]; rfl

theorem State.prefetched_trans {u t s : State} (h : State.prefetched core u t) (h' : State.prefetched core t s) : State.prefetched core u s := by
  obtain ⟨a, ha, hall⟩ := h.copies
  obtain ⟨b, hb, hall'⟩ := h'.copies
  refine ⟨by rw [h.frame, h'.frame], b ++ a, by rw [ha, hb, List.append_assoc], fun c hc => ?_⟩
  rcases List.mem_append.mp hc with hc | hc
  · exact hall' c hc
  · obtain ⟨hcore, hval, hreg⟩ := hall c hc
    exact ⟨hcore, by rw [hval, h'.word], by rw [← h'.reg?, hreg]⟩

theorem State.prefetched_foldl {α : Type} {f : State → α → State} (h : ∀ u a, State.prefetched core (f u a) u) (l : List α) (s : State) : State.prefetched core (l.foldl f s) s := by
  induction l generalizing s with
  | nil => exact s.prefetched_refl
  | cons a r ih => exact State.prefetched_trans (ih (f s a)) (h s a)

theorem State.lines_prefetched (s : State) (m : Mem) (h : m = { s.mem with lines := m.lines }) : State.prefetched core { s with mem := m } s := by
  refine ⟨by rw [h], [], ?_, fun _ h => by cases h⟩
  rw [h, List.append_nil]

theorem State.fillLine_prefetched (s : State) (vi va : Nat) (region : BitVec 4) (pa : Nat) : State.prefetched core (s.fillLine core vi va region pa) s := by
  refine ⟨rfl, _, rfl, fun c hc => ?_⟩
  obtain ⟨i, -, hi⟩ := List.mem_filterMap.mp hc
  dsimp only at hi
  split at hi
  · cases hi
  · rename_i hnot
    cases hi
    simp only [Bool.or_eq_true, not_or, Bool.not_eq_true, Option.isSome_eq_false_iff, Option.isNone_iff_eq_none] at hnot
    exact ⟨rfl, rfl, hnot.1.1⟩

/-- A core's copy of a word is one that it had, or has the current value. -/
theorem State.prefetched.copyOf {t s : State} (h : State.prefetched core t s) (pw : Nat) :
    t.mem.copyOf core pw = s.mem.copyOf core pw ∨ s.mem.copyOf core pw = none ∧ ∃ c, t.mem.copyOf core pw = some c ∧ c.value = s.mem.word pw := by
  obtain ⟨added, hadd, hall⟩ := h.copies
  rw [Mem.copyOf, Mem.copyOf, hadd, List.find?_append]
  cases hs : s.mem.copies.find? (fun c => c.core == core && c.pa == pw) with
  | some c => exact .inl rfl
  | none =>
    cases ha : added.find? (fun c => c.core == core && c.pa == pw) with
    | none => exact .inl rfl
    | some c =>
      have hpa := (Bool.and_eq_true _ _ ▸ List.find?_some ha).2
      refine .inr ⟨rfl, c, rfl, ?_⟩
      rw [(hall c (List.mem_of_find?_eq_some ha)).2.1, beq_iff_eq.mp hpa]

theorem State.prefetched.stale {t s : State} (h : State.prefetched core t s) {pw : Nat} (hs : s.mem.stale core pw = false) : t.mem.stale core pw = false := by
  rw [Mem.stale, h.word] at *
  rcases h.copyOf pw with hc | ⟨-, c, hc, hval⟩
  · rw [hc]
    exact hs
  · rw [hc, Option.any_some, hval, bne_self_eq_false]

/-- A filled line holds a copy of each word that no agent owns, where there was none and none older beside it. -/
theorem State.copied_of_fillLine {t s : State} (h : State.prefetched core t s) (vi va : Nat) (region : BitVec 4) {pa j : Nat} (hj : j < 32)
    (hreg : s.mem.reg? (alignDown pa 128 + 4 * j) = none) (hcopy : s.mem.copyOf core (alignDown pa 128 + 4 * j) = none)
    (hstale : s.mem.stale core (sibling (alignDown pa 128 + 4 * j)) = false) :
    ∃ c ∈ (t.fillLine core vi va region pa).mem.copies, c.core = core ∧ c.pa = alignDown pa 128 + 4 * j ∧ c.value = s.mem.word (alignDown pa 128 + 4 * j) := by
  rcases h.copyOf (alignDown pa 128 + 4 * j) with hc | ⟨-, c, hc, hval⟩
  · refine ⟨⟨core, alignDown pa 128 + 4 * j, vi, alignDown va 128 + 4 * j, region, t.mem.word (alignDown pa 128 + 4 * j)⟩, List.mem_append_right _ ?_, rfl, rfl, h.word _⟩
    refine List.mem_filterMap.mpr ⟨j, List.mem_range.mpr hj, ?_⟩
    dsimp only
    rw [h.reg?, hreg, hc, hcopy, h.stale hstale]
    rfl
  · have hfound := List.find?_some (p := fun c : Copy => c.core == core && c.pa == alignDown pa 128 + 4 * j) hc
    simp only [Bool.and_eq_true, beq_iff_eq] at hfound
    exact ⟨c, List.mem_append_left _ (List.mem_of_find?_eq_some hc), hfound.1, hfound.2, hval⟩

end Prefetch

/-! ### Fills -/

theorem Mem.startFill_frame (m : Mem) (core line : Nat) : m.startFill core line = { m with lines := (m.startFill core line).lines } := by
  rw [Mem.startFill]
  split <;> rfl

theorem Mem.line?_lineOf {m : Mem} {core line : Nat} (h : (m.lineOf core line).mapped.isSome = true) : m.line? core line = some (m.lineOf core line) := by
  rw [Mem.lineOf] at h ⊢
  cases hl : m.line? core line with
  | none => rw [hl] at h; cases h
  | some l => rfl

theorem Mem.lineOf_name (m : Mem) (core line : Nat) : (m.lineOf core line).core = core ∧ (m.lineOf core line).line = line := by
  rw [Mem.lineOf]
  cases hl : m.line? core line with
  | none => exact ⟨rfl, rfl⟩
  | some l =>
    have h := List.find?_some (p := fun l : Line => l.core == core && l.line == line) hl
    simp only [Bool.and_eq_true, beq_iff_eq] at h
    exact h

/-- A line whose fill may start. -/
def Line.fillable (l : Line) : Bool := l.mapped.isSome && !l.present && l.writers.isEmpty

/-- The fill of a line has started, if it may. -/
def Line.startedIf (p : Prop) [Decidable p] (l : Line) : Line := if p ∧ l.fillable = true then { l with filling := true } else l

theorem Line.startedIf_false {p : Prop} [Decidable p] (h : ¬p) : Line.startedIf p = id := funext fun _ => if_neg fun hp => h hp.1

theorem Mem.line?_startFill (m : Mem) (core line c n : Nat) :
    (m.startFill core line).line? c n = (m.line? c n).map (Line.startedIf (c = core ∧ n = line)) := by
  have hname := m.lineOf_name core line
  rw [Mem.startFill]
  split
  · rename_i hf
    have hm : (m.lineOf core line).mapped.isSome = true := by
      rw [Bool.and_eq_true, Bool.and_eq_true] at hf
      exact hf.1.1
    have hsame := m.line?_setLine_same (l := { m.lineOf core line with filling := true }) hm
    by_cases h : c = core ∧ n = line
    · rw [h.1, h.2, Mem.line?_lineOf hm]
      rw [hname.1, hname.2] at hsame
      rw [hsame, Option.map_some, Line.startedIf, if_pos ⟨⟨rfl, rfl⟩, hf⟩]
    · rw [Mem.line?_setLine_ne _ _ (by
        rw [hname.1, hname.2]
        omega)]
      rw [Line.startedIf_false h, Option.map_id_apply]
  · rename_i hf
    cases hl : m.line? c n with
    | none => rfl
    | some l =>
      have hnot : ¬((c = core ∧ n = line) ∧ l.fillable = true) := fun h => by
        rw [h.1.1, h.1.2] at hl
        rw [Mem.lineOf, hl] at hf
        exact hf h.2
      rw [Option.map_some, Line.startedIf, if_neg hnot]

theorem Line.startedIf_or (p q : Prop) [Decidable p] [Decidable q] (l : Line) : (l.startedIf p).startedIf q = l.startedIf (p ∨ q) := by
  have hkeep : ({ l with filling := true } : Line).fillable = l.fillable := rfl
  by_cases hl : l.fillable = true
  · by_cases hp : p <;> by_cases hq : q <;> simp [Line.startedIf, hp, hq, hl, hkeep]
  · simp [Line.startedIf, hl]

/-- The fills of some lines of a core. -/
theorem Mem.line?_startFills (core : Nat) (ns : List Nat) (m : Mem) (c n : Nat) :
    (ns.foldl (fun m k => m.startFill core k) m).line? c n = (m.line? c n).map (Line.startedIf (c = core ∧ n ∈ ns)) := by
  induction ns generalizing m with
  | nil => rw [List.foldl_nil, Line.startedIf_false (by simp), Option.map_id_apply]
  | cons k r ih =>
    rw [List.foldl_cons, ih, Mem.line?_startFill, Option.map_map]
    refine congrArg (fun f => Option.map f (m.line? c n)) (funext fun l => ?_)
    rw [Function.comp, Line.startedIf_or]
    exact if_congr (by rw [List.mem_cons, ← and_or_left]) rfl rfl

/-! ### The instructions -/

/-- The accesses of a prefetch that its segment reaches. -/
def Ctx.within (x : Ctx) (seg : Nat) (accs : List Acc) : List Acc := accs.filter (fun a => decide (a.off < (x.g.seg seg).2.toNat))

theorem Ctx.prefLine_prefetched (x : Ctx) (l2 : Bool) (seg : Nat) (s : State) (a : Acc) : State.prefetched x.g.core (x.prefLine l2 seg s a) s := by
  rw [Ctx.prefLine]
  split
  · exact s.prefetched_refl
  · split
    · exact s.lines_prefetched _ (Mem.startFill_frame _ _ _)
    · split
      · exact s.prefetched_refl
      · refine State.prefetched_foldl (fun u p => ?_) _ s
        split
        · exact u.prefetched_refl
        · exact u.fillLine_prefetched _ _ _ _

/-- A prefetch of the S segment starts fills and does nothing else. -/
theorem Ctx.prefLines_stash (x : Ctx) (l2 : Bool) (accs : List Acc) (s : State) :
    accs.foldl (x.prefLine l2 1) s =
      { s with mem := ((x.within 1 accs).map (fun a => x.stashOff a / 128)).foldl (fun m k => m.startFill x.g.core k) s.mem } := by
  induction accs generalizing s with
  | nil => rfl
  | cons a r ih =>
    rw [List.foldl_cons, ih, Ctx.prefLine, Ctx.within, Ctx.within, List.filter_cons]
    by_cases h : (x.g.seg 1).2.toNat ≤ a.off
    · rw [if_pos h, decide_eq_false (by omega)]
      rfl
    · rw [if_neg h, if_pos rfl, decide_eq_true (by omega)]
      rfl

/-- A prefetch of another segment touches no line of the stash, and one into the L2 keeps no copy. -/
theorem Ctx.prefLine_other {x : Ctx} {l2 : Bool} {seg : Nat} (hseg : seg ≠ 1) (s : State) (a : Acc) :
    (x.prefLine l2 seg s a).mem.lines = s.mem.lines ∧ (l2 = true → x.prefLine l2 seg s a = s) := by
  rw [Ctx.prefLine]
  split
  · exact ⟨rfl, fun _ => rfl⟩
  · split
    · exact ⟨rfl, fun _ => rfl⟩
    · refine ⟨foldl_keeps (fun u : State => u.mem.lines = s.mem.lines) _ (fun u p hu => ?_) _ s rfl,
        fun h2 => foldl_keeps (fun u : State => u = s) _ (fun u p hu => ?_) _ s rfl⟩
      · split <;> exact hu
      · rw [h2, Bool.true_or, Bool.true_or, Bool.true_or, if_pos rfl, hu]

theorem Ctx.prefLines_other {x : Ctx} {l2 : Bool} {seg : Nat} (hseg : seg ≠ 1) (accs : List Acc) (s : State) :
    (accs.foldl (x.prefLine l2 seg) s).mem.lines = s.mem.lines ∧ (l2 = true → accs.foldl (x.prefLine l2 seg) s = s) :=
  ⟨foldl_keeps (fun u : State => u.mem.lines = s.mem.lines) _ (fun u a hu => (x.prefLine_other hseg u a).1.trans hu) _ s rfl,
    fun h2 => foldl_keeps (fun u : State => u = s) _ (fun u a hu => ((x.prefLine_other hseg u a).2 h2).trans hu) _ s rfl⟩

theorem Ctx.prefLines_prefetched (x : Ctx) (l2 : Bool) (seg : Nat) (accs : List Acc) (s : State) :
    State.prefetched x.g.core (accs.foldl (x.prefLine l2 seg) s) s := State.prefetched_foldl (fun u a => x.prefLine_prefetched l2 seg u a) accs s

/-- The line of one access of PREF. -/
theorem Ctx.prefLine_home {x : Ctx} {seg : Nat} {s : State} {a : Acc} {k : Located} {p : Nat × Nat × Trans} (hseg : seg ≠ 1) (hoff : a.off < (x.g.seg seg).2.toNat)
    (hk : x.locateOne seg 1 .read false a = .ok k) (hp : k.parts = [p]) (hhome : p.2.2.home = true) (hpoison : s.mem.poisonIn (alignDown p.2.2.pa 128) 128 = none) :
    x.prefLine false seg s a = s.fillLine x.g.core x.t.vi p.1 ((s.viOf x.t.vi).regionOf p.1) p.2.2.pa := by
  obtain ⟨hremote, hrepl, -⟩ := p.2.2.home_iff.mp hhome
  rw [Ctx.prefLine, if_neg (by omega), if_neg hseg, hk]
  dsimp only
  rw [hp, List.foldl_cons, List.foldl_nil, hremote, hrepl, hpoison]
  rfl

/-- PREF copies the words of its lines that no agent owns. -/
theorem Ctx.prefLines_copies {x : Ctx} {seg : Nat} {accs : List Acc} {s : State} (hseg : seg ≠ 1) {a : Acc} (ha : a ∈ accs) (hoff : a.off < (x.g.seg seg).2.toNat)
    {k : Located} {p : Nat × Nat × Trans} (hk : x.locateOne seg 1 .read false a = .ok k) (hp : k.parts = [p]) (hhome : p.2.2.home = true)
    (hpoison : s.mem.poisonIn (alignDown p.2.2.pa 128) 128 = none) {j : Nat} (hj : j < 32) (hreg : s.mem.reg? (alignDown p.2.2.pa 128 + 4 * j) = none)
    (hcopy : s.mem.copyOf x.g.core (alignDown p.2.2.pa 128 + 4 * j) = none) (hstale : s.mem.stale x.g.core (sibling (alignDown p.2.2.pa 128 + 4 * j)) = false) :
    ∃ c ∈ (accs.foldl (x.prefLine false seg) s).mem.copies, c.core = x.g.core ∧ c.pa = alignDown p.2.2.pa 128 + 4 * j ∧
      c.value = s.mem.word (alignDown p.2.2.pa 128 + 4 * j) := by
  obtain ⟨before, after, rfl⟩ := List.append_of_mem ha
  have hbefore := x.prefLines_prefetched false seg before s
  obtain ⟨c, hc, hfacts⟩ := State.copied_of_fillLine hbefore x.t.vi p.1 (((before.foldl (x.prefLine false seg) s).viOf x.t.vi).regionOf p.1) hj hreg hcopy hstale
  rw [List.foldl_append, List.foldl_cons, x.prefLine_home hseg hoff hk hp hhome (by rw [hbefore.poisonIn]; exact hpoison)]
  obtain ⟨added, hadd, -⟩ := (x.prefLines_prefetched false seg after
    ((before.foldl (x.prefLine false seg) s).fillLine x.g.core x.t.vi p.1 (((before.foldl (x.prefLine false seg) s).viOf x.t.vi).regionOf p.1) p.2.2.pa)).copies
  exact ⟨c, by rw [hadd]; exact List.mem_append_left _ hc, hfacts⟩

/-- A prefetch of either kind. -/
theorem exec_pref_ready {i : Instr} {l : LArgs} {l2 : Bool} {s : State} {x : Ctx} (hexec : exec i s = issue i noDyn (fun _ => [addrName l])
      (fun x => .ok ((x.accs l).foldl (x.prefLine l2 l.seg.toNat) x.s)) s) (hx : Runs i (fun _ => [addrName l]) s x) :
    exec i s = .next { s.modGroup x.g.gid Group.advance with mem := ((x.accs l).foldl (x.prefLine l2 l.seg.toNat) s).mem } := by
  obtain rfl := ctxOf_state hx.1
  rw [exec_of_ok hexec hx rfl rfl fun o ho => by
    rw [List.mem_singleton.mp ho]
    exact bOpnd_isInd _ _]
  have hframe := (x.prefLines_prefetched l2 l.seg.toNat (x.accs l) x.s).frame
  refine congrArg Host.Outcome.next ?_
  generalize (x.accs l).foldl (x.prefLine l2 l.seg.toNat) x.s = t at hframe ⊢
  rw [hframe]
  rfl

/-- Settles O18. -/
theorem prefetches : Obligations.Prefetches := by
  intro i l hi s x hx
  have hready : ∃ l2 : Bool, exec i s = .next { s.modGroup x.g.gid Group.advance with mem := ((x.accs l).foldl (x.prefLine l2 l.seg.toNat) s).mem } ∧
      ((∃ g, i = .prefL2 g l) → l2 = true) ∧ ((∃ g, i = .pref g l) → l2 = false) := by
    obtain ⟨g, rfl | rfl⟩ := hi
    · exact ⟨false, exec_pref_ready rfl hx, (by rintro ⟨_, h⟩; cases h), fun _ => rfl⟩
    · exact ⟨true, exec_pref_ready rfl hx, fun _ => rfl, by rintro ⟨_, h⟩; cases h⟩
  obtain ⟨l2, hexec, hL2, hL1⟩ := hready
  have hpre := x.prefLines_prefetched l2 l.seg.toNat (x.accs l) s
  obtain ⟨added, hadd, hall⟩ := hpre.copies
  refine ⟨_, hexec, hpre.mem, hpre.byte, fun c hc => by rw [hadd]; exact List.mem_append_left _ hc, fun c hc hnot => ?_, fun h => ?_, fun g hg hseg a ha hoff k p hk hp hhome hpoison j hj => ?_,
    fun c n => ?_⟩
  · rw [hadd] at hc
    exact hall c ((List.mem_append.mp hc).resolve_left hnot)
  · by_cases hseg : l.seg.toNat = 1
    · rw [hseg, Ctx.prefLines_stash]
      exact foldl_keeps (fun m : Mem => m.copies = s.mem.copies) _ (fun m k hm => by rw [Mem.startFill_frame]; exact hm) _ s.mem rfl
    · rw [(x.prefLines_other hseg (x.accs l) s).2 (hL2 h)]
  · intro pw hreg hcopy hstale
    rw [hL1 ⟨g, hg⟩]
    exact x.prefLines_copies hseg ha hoff hk hp hhome hpoison hj hreg hcopy hstale
  · by_cases hseg : l.seg.toNat = 1
    · rw [hseg, Ctx.prefLines_stash, Mem.line?_startFills]
      refine congrArg (fun f => Option.map f (s.mem.line? c n)) (funext fun r => if_congr ?_ rfl rfl)
      simp only [Ctx.within, List.mem_map, List.mem_filter, decide_eq_true_eq, Line.fillable, Bool.and_eq_true, Bool.not_eq_true', List.isEmpty_iff, true_and, and_assoc]
    · rw [Mem.line?, (x.prefLines_other hseg (x.accs l) s).1, ← Mem.line?]
      simp only [hseg, false_and, if_false, Option.map_id']

end Sys2Proof.Machine
end

section
/-! STMAP (R192). -/
namespace Sys2Proof.Machine

/-! ### Lines that are no longer listed -/

theorem Mem.line?_setLine_plain (m : Mem) {l : Line} (hm : l.mapped = none) (hp : l.present = true) (hu : l.unfinished = 0) (hf : l.filling = false) (hw : l.writers = []) :
    (m.setLine l).line? l.core l.line = none := by
  rw [Mem.line?, Mem.setLine, hm, hp, hu, hf, hw]
  refine List.find?_eq_none.mpr fun k hk => ?_
  have hk := (List.mem_filter.mp hk).2
  rw [Bool.not_eq_true'] at hk
  rw [hk]
  exact Bool.false_ne_true

/-- A number outside a line's bytes of the stash. -/
def outsideLine (core line k : Nat) : Prop := k < stashKey core (128 * line) ∨ stashKey core (128 * line) + 128 ≤ k

/-- The words that a line's stash owns, when it is mapped. -/
def Mem.ownWords (m : Mem) (l : Line) : List Nat := if l.mapped.isSome then m.dirtyWords l else []

theorem Mem.ownWords_aligned {m : Mem} (h : ∀ r ∈ m.regs, r.pa % 4 = 0) (l : Line) : ∀ p ∈ m.ownWords l, p % 4 = 0 := fun p hp => by
  rw [Mem.ownWords] at hp
  split at hp
  · obtain ⟨r, hr, rfl⟩ := List.mem_map.mp hp
    exact h r (List.mem_of_mem_filter hr)
  · cases hp

theorem Mem.writeBackAll_frame (m : Mem) (ws : List Nat) : m.writeBackAll ws = { m with bytes := (m.writeBackAll ws).bytes, regs := (m.writeBackAll ws).regs } :=
  foldl_keeps (fun n : Mem => n = { m with bytes := n.bytes, regs := n.regs }) Mem.writeBack (fun n p hn => by rw [n.writeBack_frame p, hn]) ws m rfl

theorem Mem.keepLine_frame (m : Mem) (l : Line) : m.keepLine l = { m with stash := (m.keepLine l).stash, stashPoison := (m.keepLine l).stashPoison } := rfl

/-- What is kept of a line lies in its own bytes of the stash. -/
theorem Mem.stash_keepLine {m : Mem} (h : ∀ r ∈ m.regs, r.pa % 4 = 0) (l : Line) {k : Nat} (hk : outsideLine l.core l.line k) : (m.keepLine l).stash.get k = m.stash.get k := by
  have hall : ∀ pw ∈ m.dirtyWords l, pw % 4 = 0 := fun pw hpw => by
    obtain ⟨r, hr, rfl⟩ := List.mem_map.mp hpw
    exact h r (List.mem_of_mem_filter hr)
  change (((m.dirtyWords l).foldl (fun (st : Store 8) pw => st.write (stashKey l.core (128 * l.line + pw % 128)) (m.read pw 4)) m.stash).get k) = _
  generalize m.dirtyWords l = ws at hall
  generalize m.stash = st
  induction ws generalizing st with
  | nil => rfl
  | cons pw r ih =>
    rw [List.foldl_cons, ih (fun p hp => hall p (List.mem_cons_of_mem _ hp))]
    have hpw := hall pw List.mem_cons_self
    refine Store.get_write_out _ _ _ ?_
    rw [show (m.read pw 4).length = 4 by simp [Mem.read]]
    simp only [outsideLine, stashKey] at hk ⊢
    omega

/-- A line whose home can take what the stash owns of it is written back. -/
theorem State.flushLine_reached {s : State} {core line : Nat} (h : (s.mem.lineOf core line).mapped.isSome = true → s.mem.dirtyWords (s.mem.lineOf core line) ≠ [] →
      s.outOfReach (dieOf core) (s.mem.lineOf core line).pa 128 = false ∧ s.homeRefuses (s.mem.lineOf core line).pa = false) :
    s.flushLine core line = ({ s with mem := s.mem.writeBackAll (s.mem.ownWords (s.mem.lineOf core line)) }, 0, 0) := by
  cases hl : s.mem.line? core line with
  | none => rw [State.flushLine, Mem.lineOf, hl]; rfl
  | some l =>
    have hof : s.mem.lineOf core line = l := by rw [Mem.lineOf, hl]; rfl
    rw [hof] at h ⊢
    rw [State.flushLine, hl]
    dsimp only
    cases hm : l.mapped with
    | none =>
      rw [Mem.ownWords, hm]
      rfl
    | some va =>
      rw [hm] at h
      rw [Mem.ownWords, hm, if_neg (by simp), Option.isSome_some, if_pos rfl]
      by_cases hd : s.mem.dirtyWords l = []
      · have hregs : s.mem.regs.filter (fun r => !([] : List Nat).contains r.pa) = s.mem.regs := List.filter_eq_self.mpr fun _ _ => rfl
        rw [hd, hregs]
        split
        · rfl
        · split <;> rfl
      · obtain ⟨hreach, hrefuse⟩ := h rfl hd
        rw [hreach, hrefuse]
        rfl

theorem Group.countWords_zero (g : Group) (pkg : Bool) (va now : Nat) : g.countWords pkg 0 0 va now = g := rfl

/-! ### One line -/

/-- The line that STMAP leaves. -/
def Line.remapped (l : Line) (vi : Nat) (target : Option Nat) : Line :=
  match target with
  | none => { l with vi := vi, unfinished := 0, filling := false, whole := false, mapped := none, present := true }
  | some va => { l with vi := vi, unfinished := 0, filling := false, whole := false, mapped := some (alignDown va 128), pa := 2 ^ 80, present := false }

/-- What a line that is unmapped holds is kept in it. -/
def Mem.keptFor (m : Mem) (l : Line) (target : Option Nat) : Mem := if l.mapped.isSome && target.isNone then m.keepLine l else m

/-- What the stash owns of a line that is remapped is written back. -/
def Mem.flushedFor (m : Mem) (l : Line) (target : Option Nat) : Mem := (m.keptFor l target).writeBackAll (m.ownWords l)

/-- The poison of a line that is mapped is gone. -/
def Mem.cleanFor (m : Mem) (core line : Nat) (target : Option Nat) : Mem :=
  match target with
  | none => m
  | some _ => { m with stashPoison := m.stashPoison.filter (fun p => !(decide (stashKey core (128 * line) ≤ p) && decide (p < stashKey core (128 * line) + 128))) }

/-- Memory after STMAP has mapped or unmapped a line. -/
def Mem.remap (m : Mem) (core vi line : Nat) (target : Option Nat) : Mem :=
  ((m.flushedFor (m.lineOf core line) target).cleanFor core line target).setLine ((m.lineOf core line).remapped vi target)

theorem Mem.keptFor_frame (m : Mem) (l : Line) (target : Option Nat) :
    m.keptFor l target = { m with stash := (m.keptFor l target).stash, stashPoison := (m.keptFor l target).stashPoison } := by
  rw [Mem.keptFor]
  split <;> rfl

theorem Mem.flushedFor_frame (m : Mem) (l : Line) (target : Option Nat) :
    m.flushedFor l target = { m with bytes := (m.flushedFor l target).bytes, regs := (m.flushedFor l target).regs
                                     stash := (m.keptFor l target).stash, stashPoison := (m.keptFor l target).stashPoison } := by
  have h := (m.keptFor l target).writeBackAll_frame (m.ownWords l)
  have hkept := m.keptFor_frame l target
  rw [← Mem.flushedFor] at h
  generalize m.keptFor l target = k at h hkept ⊢
  exact h.trans (by rw [hkept])

theorem Mem.cleanFor_frame (m : Mem) (core line : Nat) (target : Option Nat) : m.cleanFor core line target = { m with stashPoison := (m.cleanFor core line target).stashPoison } := by
  cases target <;> rfl

theorem Mem.remap_frame (m : Mem) (core vi line : Nat) (target : Option Nat) : m.remap core vi line target =
    { m with bytes := (m.flushedFor (m.lineOf core line) target).bytes, regs := (m.flushedFor (m.lineOf core line) target).regs
             lines := (m.remap core vi line target).lines, stash := (m.keptFor (m.lineOf core line) target).stash
             stashPoison := ((m.flushedFor (m.lineOf core line) target).cleanFor core line target).stashPoison } := by
  rw [Mem.remap, Mem.setLine, Mem.cleanFor_frame, Mem.flushedFor_frame]

/-- STMAP of one line whose home can take what the stash owns of it. -/
theorem State.mapLine_reached {s : State} {gid core vi line : Nat} {target : Option Nat} (h : (s.mem.lineOf core line).mapped.isSome = true →
      s.mem.dirtyWords (s.mem.lineOf core line) ≠ [] →
      s.outOfReach (dieOf core) (s.mem.lineOf core line).pa 128 = false ∧ s.homeRefuses (s.mem.lineOf core line).pa = false) :
    s.mapLine gid core vi line target = { s with mem := s.mem.remap core vi line target }.lineBack core line := by
  have hflush : ({ s with mem := if (s.mem.lineOf core line).mapped.isSome && target.isNone then s.mem.keepLine (s.mem.lineOf core line) else s.mem } : State).flushLine core line =
      ({ s with mem := s.mem.flushedFor (s.mem.lineOf core line) target }, 0, 0) := by
    rw [Mem.flushedFor, Mem.keptFor]
    split
    · exact State.flushLine_reached (s := { s with mem := s.mem.keepLine (s.mem.lineOf core line) }) h
    · exact State.flushLine_reached h
  rw [State.mapLine, hflush]
  simp only [Group.countWords_zero, State.modGroup_id]
  cases target <;> rfl

/-- Memory after lines have been remapped: the registry and the homes, the stash, and its lines. -/
structure Mem.remapped (m n : Mem) : Prop where
  frame : m = { n with bytes := m.bytes, regs := m.regs, lines := m.lines, stash := m.stash, stashPoison := m.stashPoison }
  regs : ∀ r ∈ m.regs, r ∈ n.regs
  byte : ∀ pa, m.byte pa = n.byte pa

theorem Mem.remapped_refl (m : Mem) : m.remapped m := ⟨rfl, fun _ h => h, fun _ => rfl⟩

theorem Mem.remapped_trans {k m n : Mem} (h : k.remapped m) (h' : m.remapped n) : k.remapped n :=
  ⟨by rw [h.frame, h'.frame], fun r hr => h'.regs r (h.regs r hr), fun pa => (h.byte pa).trans (h'.byte pa)⟩

section Line
variable {m : Mem} (core vi line : Nat) (target : Option Nat)

theorem Line.remapped_name (l : Line) : (l.remapped vi target).core = l.core ∧ (l.remapped vi target).line = l.line := by
  cases target <;> exact ⟨rfl, rfl⟩

theorem Mem.line?_remap_ne {c n : Nat} (h : c ≠ core ∨ n ≠ line) : (m.remap core vi line target).line? c n = m.line? c n := by
  have hname := m.lineOf_name core line
  have hremap := Line.remapped_name vi target (m.lineOf core line)
  rw [Mem.remap, Mem.line?_setLine_ne _ _ (by rw [hremap.1, hremap.2, hname.1, hname.2]; exact h), Mem.line?, Mem.line?, Mem.cleanFor_frame, Mem.flushedFor_frame]

/-- A line that has been mapped or unmapped. -/
theorem Mem.line_remap (hw : (m.lineOf core line).writers = []) : ((m.remap core vi line target).lineOf core line).mapped = target.map (alignDown · 128) ∧
    (m.remap core vi line target).present core line = target.isNone := by
  obtain ⟨hcore, hline⟩ := m.lineOf_name core line
  have hremap := Line.remapped_name vi target (m.lineOf core line)
  rw [hcore, hline] at hremap
  cases target with
  | none =>
    have h := ((m.flushedFor (m.lineOf core line) none).cleanFor core line none).line?_setLine_plain (l := (m.lineOf core line).remapped vi none) rfl rfl rfl rfl hw
    rw [hremap.1, hremap.2, ← Mem.remap] at h
    rw [Mem.lineOf, h, Mem.present_of_none h]
    exact ⟨rfl, rfl⟩
  | some va =>
    have h := ((m.flushedFor (m.lineOf core line) (some va)).cleanFor core line (some va)).line?_setLine_same (l := (m.lineOf core line).remapped vi (some va)) rfl
    rw [hremap.1, hremap.2, ← Mem.remap] at h
    rw [Mem.lineOf, h, Mem.present_of_line? h]
    exact ⟨rfl, rfl⟩

/-- A line that is mapped leaves the bytes of the stash, and loses its poison. -/
theorem Mem.stash_remap_some (va : Nat) : (m.remap core vi line (some va)).stash = m.stash ∧
    ∀ p, p ∈ (m.remap core vi line (some va)).stashPoison ↔ p ∈ m.stashPoison ∧ outsideLine core line p := by
  have hkept : m.keptFor (m.lineOf core line) (some va) = m := by
    rw [Mem.keptFor, Option.isNone_some, Bool.and_false]
    rfl
  rw [Mem.remap_frame, hkept]
  refine ⟨rfl, fun p => ?_⟩
  dsimp only [Mem.cleanFor]
  rw [Mem.flushedFor_frame, hkept, List.mem_filter]
  simp only [outsideLine, Bool.not_eq_true', Bool.and_eq_false_iff, decide_eq_false_iff_not, Nat.not_le, Nat.not_lt]

section Aligned
variable (hregs : ∀ r ∈ m.regs, r.pa % 4 = 0)
include hregs

theorem Mem.remap_remapped : (m.remap core vi line target).remapped m := by
  have hkept := m.keptFor_frame (m.lineOf core line) target
  have hregs' : (m.keptFor (m.lineOf core line) target).regs = m.regs := by rw [hkept]
  refine ⟨?_, fun r hr => ?_, fun pa => ?_⟩
  · rw [Mem.remap_frame]
  · rw [Mem.remap_frame] at hr
    exact hregs' ▸ ((m.keptFor (m.lineOf core line) target).regs_writeBackAll_sublist _).subset hr
  · rw [Mem.remap_frame]
    refine (Mem.byte_congr rfl (fun _ => rfl) pa).trans (((m.keptFor (m.lineOf core line) target).byte_writeBackAll (m.ownWords (m.lineOf core line))
      (Mem.ownWords_aligned hregs _) pa).trans (Mem.byte_congr (by rw [hkept]) (fun k => by rw [Mem.reg?, Mem.reg?, hregs']) pa))

theorem Mem.stash_remap {k : Nat} (hk : outsideLine core line k) : (m.remap core vi line target).stash.get k = m.stash.get k := by
  obtain ⟨hcore, hline⟩ := m.lineOf_name core line
  rw [Mem.remap_frame]
  dsimp only
  rw [Mem.keptFor]
  split
  · exact Mem.stash_keepLine hregs _ (by rw [hcore, hline]; exact hk)
  · rfl

end Aligned
end Line

/-! ### The lines of a range -/

section Range
variable {gid core vi first : Nat} {target : Nat → Option Nat}

/-- What lets a line be remapped at once: no command writes it, the Lens has nothing to read of it, and what its stash owns of it reaches home. -/
def State.remappable (s : State) (core line : Nat) : Prop :=
  (s.mem.lineOf core line).writers = [] ∧ (s.mem.present core line = true → s.lensPending core line = false) ∧
    ((s.mem.lineOf core line).mapped.isSome = true → s.mem.dirtyWords (s.mem.lineOf core line) ≠ [] →
      s.outOfReach (dieOf core) (s.mem.lineOf core line).pa 128 = false ∧ s.homeRefuses (s.mem.lineOf core line).pa = false)

theorem State.mapWaits_of_remappable {s : State} {line : Nat} (h : s.remappable core line) : s.mapWaits core line = false := by
  obtain ⟨hw, hlens, -⟩ := h
  rw [State.mapWaits, hw]
  cases hp : s.mem.present core line with
  | false => rfl
  | true => rw [hlens hp]; rfl

/-- A state after STMAP has remapped the lines of a range from its number i, n of them. -/
structure State.remapsTo (core first i n : Nat) (target : Nat → Option Nat) (t s : State) : Prop where
  frame : t = { s with mem := t.mem, cmds := s.cmds.map (fun c => { c with cleared := c.cleared.filter (fun p =>
    !decide (p.1 = core ∧ first + i ≤ p.2 ∧ p.2 < first + i + n)) }) }
  mem : t.mem.remapped s.mem
  lines : ∀ j, i ≤ j → j < i + n → (t.mem.lineOf core (first + j)).mapped = (target j).map (alignDown · 128) ∧ t.mem.present core (first + j) = (target j).isNone
  others : ∀ c k, (c ≠ core ∨ k < first + i ∨ first + i + n ≤ k) → t.mem.line? c k = s.mem.line? c k
  stash : ∀ k, (∀ j, i ≤ j → j < i + n → outsideLine core (first + j) k) → t.mem.stash.get k = s.mem.stash.get k
  mapped : (∀ j, i ≤ j → j < i + n → (target j).isSome = true) → t.mem.stash = s.mem.stash ∧
    ∀ p, p ∈ t.mem.stashPoison ↔ p ∈ s.mem.stashPoison ∧ ∀ j, i ≤ j → j < i + n → outsideLine core (first + j) p

theorem State.remapsTo_zero (s : State) (i : Nat) : State.remapsTo core first i 0 target s s := by
  have hnone : ∀ p : Nat × Nat, decide (p.1 = core ∧ first + i ≤ p.2 ∧ p.2 < first + i + 0) = false := fun p => decide_eq_false (by omega)
  have hcmds : s.cmds.map (fun c => { c with cleared := c.cleared.filter (fun p => !decide (p.1 = core ∧ first + i ≤ p.2 ∧ p.2 < first + i + 0)) }) = s.cmds := by
    simp only [hnone, Bool.not_false, List.filter_true, List.map_id']
  refine ⟨by rw [hcmds], s.mem.remapped_refl, fun j h1 h2 => by omega, fun _ _ _ => rfl, fun _ _ => rfl, fun _ => ⟨rfl, fun p => ?_⟩⟩
  exact ⟨fun h => ⟨h, fun j h1 h2 => by omega⟩, And.left⟩

/-- One line is remapped. -/
theorem State.mapLine_remapsTo {s : State} {i : Nat} (hregs : ∀ r ∈ s.mem.regs, r.pa % 4 = 0) (h : s.remappable core (first + i)) :
    State.remapsTo core first i 1 target (s.mapLine gid core vi (first + i) (target i)) s := by
  obtain ⟨hw, -, hreach⟩ := h
  have hmem : (s.mapLine gid core vi (first + i) (target i)).mem = s.mem.remap core vi (first + i) (target i) := by rw [State.mapLine_reached hreach]; rfl
  have hone : ∀ j, i ≤ j → j < i + 1 → j = i := fun j h1 h2 => by omega
  refine ⟨?_, ?_, fun j h1 h2 => ?_, fun c k hk => ?_, fun k hk => ?_, fun hall => ?_⟩
  · rw [State.mapLine_reached hreach, State.lineBack]
    refine congrArg (fun f => ({ s with mem := s.mem.remap core vi (first + i) (target i), cmds := s.cmds.map f } : State)) (funext fun c => ?_)
    refine congrArg (fun l => ({ c with cleared := l } : Cmd)) (List.filter_congr fun p _ => ?_)
    rw [bne, Bool.not_eq_eq_eq_not, Bool.not_not, Bool.eq_iff_iff, beq_iff_eq, decide_eq_true_eq, Prod.ext_iff]
    dsimp only
    omega
  · rw [hmem]
    exact Mem.remap_remapped core vi (first + i) (target i) hregs
  · rw [hone j h1 h2, hmem]
    exact Mem.line_remap core vi (first + i) (target i) hw
  · rw [hmem]
    exact Mem.line?_remap_ne core vi (first + i) (target i) (by omega)
  · rw [hmem]
    exact Mem.stash_remap core vi (first + i) (target i) hregs (hk i (Nat.le_refl i) (Nat.lt_succ_self i))
  · obtain ⟨va, hva⟩ := Option.isSome_iff_exists.mp (hall i (Nat.le_refl i) (Nat.lt_succ_self i))
    rw [hmem, hva]
    obtain ⟨hstash, hpoison⟩ := Mem.stash_remap_some (m := s.mem) core vi (first + i) va
    refine ⟨hstash, fun p => (hpoison p).trans (and_congr_right fun _ => ?_)⟩
    exact ⟨fun hp j h1 h2 => hone j h1 h2 ▸ hp, fun hp => hp i (Nat.le_refl i) (Nat.lt_succ_self i)⟩

/-- The lines of two ranges that adjoin. -/
theorem State.remapsTo_trans {u t s : State} {i n : Nat} (h : State.remapsTo core first (i + 1) n target u t) (h' : State.remapsTo core first i 1 target t s) :
    State.remapsTo core first i (n + 1) target u s := by
  have hlater : ∀ j, i ≤ j → j < i + (n + 1) → j = i ∨ i + 1 ≤ j ∧ j < i + 1 + n := fun j h1 h2 => by omega
  have houtside : ∀ k, (∀ j, i ≤ j → j < i + (n + 1) → outsideLine core (first + j) k) ↔
      (∀ j, i ≤ j → j < i + 1 → outsideLine core (first + j) k) ∧ ∀ j, i + 1 ≤ j → j < i + 1 + n → outsideLine core (first + j) k := fun k => by
    refine ⟨fun hk => ⟨fun j h1 h2 => hk j h1 (by omega), fun j h1 h2 => hk j (by omega) (by omega)⟩, fun ⟨hk, hk'⟩ j h1 h2 => ?_⟩
    rcases hlater j h1 h2 with hj | ⟨hj1, hj2⟩
    · exact hk j h1 (by omega)
    · exact hk' j hj1 hj2
  refine ⟨?_, Mem.remapped_trans h.mem h'.mem, fun j h1 h2 => ?_, fun c k hk => ?_, fun k hk => ?_, fun hall => ?_⟩
  · have hcmds : ∀ l : List (Nat × Nat), (l.filter (fun p => !decide (p.1 = core ∧ first + i ≤ p.2 ∧ p.2 < first + i + 1))).filter
        (fun p => !decide (p.1 = core ∧ first + (i + 1) ≤ p.2 ∧ p.2 < first + (i + 1) + n)) =
        l.filter (fun p => !decide (p.1 = core ∧ first + i ≤ p.2 ∧ p.2 < first + i + (n + 1))) := fun l => by
      rw [List.filter_filter]
      refine List.filter_congr fun p _ => ?_
      rw [Bool.eq_iff_iff]
      simp only [Bool.and_eq_true, Bool.not_eq_true', decide_eq_false_iff_not]
      omega
    rw [h.frame, h'.frame]
    simp only [List.map_map, Function.comp_def, hcmds]
  · rcases hlater j h1 h2 with hj | ⟨hj1, hj2⟩
    · obtain ⟨hm, hp⟩ := h'.lines j h1 (by omega)
      have hsame := h.others core (first + j) (by omega)
      rw [Mem.lineOf, hsame, Mem.present, hsame]
      exact ⟨hm, hp⟩
    · exact h.lines j hj1 hj2
  · exact (h.others c k (by omega)).trans (h'.others c k (by omega))
  · obtain ⟨hk1, hk2⟩ := (houtside k).mp hk
    exact (h.stash k hk2).trans (h'.stash k hk1)
  · obtain ⟨hs1, hp1⟩ := h'.mapped fun j h1 h2 => hall j h1 (by omega)
    obtain ⟨hs2, hp2⟩ := h.mapped fun j h1 h2 => hall j (by omega) (by omega)
    refine ⟨hs2.trans hs1, fun p => ?_⟩
    rw [hp2, hp1, houtside, and_assoc]

/-- What is remappable stays so when other lines have been remapped. -/
theorem State.remappable_of_remapsTo {t s : State} {i n line : Nat} (h : State.remapsTo core first i n target t s) (hl : line < first + i ∨ first + i + n ≤ line)
    (hs : s.remappable core line) : t.remappable core line := by
  obtain ⟨hw, hlens, hreach⟩ := hs
  have hline : t.mem.lineOf core line = s.mem.lineOf core line := by rw [Mem.lineOf, Mem.lineOf, h.others core line (.inr hl)]
  have hpresent : t.mem.present core line = s.mem.present core line := by rw [Mem.present, Mem.present, h.others core line (.inr hl)]
  have harrays : t.arrays = s.arrays := (congrArg State.arrays h.frame :)
  have hlost : ∀ pa, t.homeLost pa = s.homeLost pa := fun pa => by rw [h.frame]; rfl
  have hpath : ∀ a b, t.path a b = s.path a b := fun a b => by rw [h.frame]; rfl
  have hperms : t.mem.remotePerms = s.mem.remotePerms := (congrArg Mem.remotePerms h.mem.frame :)
  refine ⟨by rw [hline]; exact hw, fun hp => ?_, fun hm hd => ?_⟩
  · rw [State.lensPending, harrays]
    exact hlens (hpresent ▸ hp)
  · rw [hline] at hm hd ⊢
    obtain ⟨hr, hrefuse⟩ := hreach hm fun hnil => hd (by
      rw [Mem.dirtyWords, List.map_eq_nil_iff, List.filter_eq_nil_iff] at hnil ⊢
      exact fun r hr => hnil r (h.mem.regs r hr))
    refine ⟨?_, by rw [State.homeRefuses, hperms]; exact hrefuse⟩
    rw [State.outOfReach, Bool.or_eq_false_iff, Bool.or_eq_false_iff] at hr ⊢
    rw [hlost, hpath]
    refine ⟨hr.1, ?_⟩
    have hcut := hr.2
    rw [State.cutOwner, List.any_eq_false] at hcut ⊢
    exact fun r hmem => by
      rw [hpath]
      exact hcut r (h.mem.regs r hmem)

/-- STMAP's lines, all of which are remappable. -/
theorem State.mapLines_remapsTo {n i : Nat} {s : State} (hregs : ∀ r ∈ s.mem.regs, r.pa % 4 = 0)
    (h : ∀ j, i ≤ j → j < i + n → s.remappable core (first + j)) :
    ∃ t, State.mapLines gid core vi first target n i s = (t, none) ∧ State.remapsTo core first i n target t s := by
  induction n generalizing i s with
  | zero => exact ⟨s, rfl, s.remapsTo_zero i⟩
  | succ n ih =>
    have hfirst := h i (Nat.le_refl i) (by omega)
    have hone := State.mapLine_remapsTo (gid := gid) (vi := vi) (target := target) hregs hfirst
    obtain ⟨t, ht, hrest⟩ := ih (i := i + 1) (s := s.mapLine gid core vi (first + i) (target i)) (fun r hr => hregs r (hone.mem.regs r hr))
      fun j h1 h2 => State.remappable_of_remapsTo hone (by omega) (h j (by omega) (by omega))
    refine ⟨t, ?_, State.remapsTo_trans hrest hone⟩
    rw [State.mapLines, State.mapWaits_of_remappable hfirst, if_neg Bool.false_ne_true, ht]

end Range

/-! ### The instruction -/

/-- STMAP whose checks pass, on lines that are all remappable. -/
theorem Ctx.stmap_ok {x : Ctx} {ua ub uc : Nat} {t : State} (hany : x.any = true) (hcount : 1 ≤ fld uc 0 12 ∧ fld uc 0 12 ≤ 2048) (hreserved : fld uc 12 4 = 0 ∧ fld uc 17 47 = 0)
    (haligned : ua % 128 = 0 ∧ ub % 128 = 0) (hstash : ua + 128 * fld uc 0 12 ≤ (x.g.seg 1).2.toNat)
    (hglobal : (fld uc 16 1 == 1) = false → ub + 128 * fld uc 0 12 ≤ (x.g.seg 0).2.toNat) (hhold : x.g.hold.mapped = 0) (hdef : t.deferred x.g.core = [])
    (ht : State.mapLines x.g.gid x.g.core x.t.vi (((x.g.seg 1).1.toNat + ua) / 128)
      (fun i => if fld uc 16 1 == 1 then none else some (((x.g.seg 0).1.toNat + ub + 128 * i) % 2 ^ 64)) (fld uc 0 12) 0 x.s = (t, none)) :
    x.stmap ua ub uc = .ok t := by
  have hbad : ¬(fld uc 0 12 = 0 ∨ 2048 < fld uc 0 12 ∨ (decide (fld uc 12 4 ≠ 0) || decide (fld uc 17 47 ≠ 0)) = true ∨ ua % 128 ≠ 0 ∨ ub % 128 ≠ 0) := by
    simp [hreserved.1, hreserved.2, haligned.1, haligned.2]
    omega
  have hg : (!(fld uc 16 1 == 1) && decide ((x.g.seg 0).2.toNat < ub + 128 * fld uc 0 12)) = false := by
    cases hu : fld uc 16 1 == 1 with
    | true => rfl
    | false => rw [decide_eq_false (by have := hglobal hu; omega)]; rfl
  rw [Ctx.stmap]
  simp only [hany, Bool.not_true, Bool.false_eq_true, if_false]
  rw [if_neg hbad, if_neg (by omega), if_neg (by rw [hg]; exact Bool.false_ne_true), hhold, Nat.sub_zero, ht]
  exact congrArg Res.ok (State.drainStash_none hdef)

/-- Settles O19. -/
theorem stashMapping : Obligations.StashMapping := by
  intro g uc ub ua s x hx hany count unmap first hlow hhigh hres1 hres2 ha hb hstash hglobal hdef hwf hhold hlines mine
  obtain rfl := ctxOf_state hx.1
  obtain ⟨t, ht, hremaps⟩ := State.mapLines_remapsTo (gid := x.g.gid) (core := x.g.core) (vi := x.t.vi) (first := first) (n := count) (i := 0) (s := x.s)
    (target := fun i => if unmap then none else some (((x.g.seg 0).1.toNat + x.u ub + 128 * i) % 2 ^ 64)) (Memory.wf_iff.mp hwf).2.2.2.2.2
    fun j _ hj => hlines j (by omega)
  obtain ⟨hframe, hmem, hdone, hothers, hbytes, hmapped⟩ := hremaps
  have hgroups : t.groups = x.s.groups := (congrArg State.groups hframe :)
  have hheld : t.mem.held = x.s.mem.held := (congrArg Mem.held hmem.frame :)
  have hexec := exec_of_ok (i := .stmap g uc ub ua) rfl hx rfl
    (Ctx.stmap_ok hany ⟨hlow, hhigh⟩ ⟨hres1, hres2⟩ ⟨ha, hb⟩ hstash hglobal hhold ((State.deferred_congr hgroups hheld _).trans hdef) ht)
    (noInd_of_uNames fun nm hnm => by
      rcases List.mem_cons.mp hnm with rfl | hnm
      · exact ⟨_, _, rfl⟩
      · exact uNames_two nm hnm)
  refine ⟨t.mem, ?_, hmem.byte, fun j hj => ?_, fun c n h => hothers c n (by omega), fun k hk => hbytes k fun j _ hj => hk j (by omega), fun hunmap => ?_, hmem.frame⟩
  · rw [hexec]
    refine congrArg Host.Outcome.next ?_
    have hmine : ∀ p, decide (p.1 = x.g.core ∧ first + 0 ≤ p.2 ∧ p.2 < first + 0 + count) = mine p := fun p => by rw [Nat.add_zero]
    simp only [hmine] at hframe
    generalize t.mem = m at hframe
    rw [hframe]
    rfl
  · obtain ⟨hm, hp⟩ := hdone j (Nat.zero_le j) (by omega)
    rw [hm, hp]
    cases unmap <;> exact ⟨rfl, rfl⟩
  · obtain ⟨hs, hp⟩ := hmapped fun j _ _ => by rw [hunmap]; rfl
    refine ⟨hs, fun p => (hp p).trans (and_congr_right fun _ => ?_)⟩
    exact ⟨fun h j hj => h j (Nat.zero_le j) (by omega), fun h j _ hj => h j (by omega)⟩

end Sys2Proof.Machine
end

section
/-! Block conversions (R94 to R97, R161 to R164). -/
namespace Sys2Proof.Machine

/-! ### Rows of registers -/

theorem Group.vsetAll_eq (g : Group) (n l : Nat) (xs : List Nat) :
    g.vsetAll n l xs = (rowPlaces n l (xs.map (BitVec.ofNat 32))).foldl (fun h r => h.putPlace r.1 r.2) g := by
  have hrow : rowPlaces n l (xs.map (BitVec.ofNat 32)) = (xs.mapIdx (fun j v => (j, v))).map (fun p => (.v (n + p.1) l, (BitVec.ofNat 32 p.2).setWidth 64)) := by
    refine List.ext_getElem? fun j => ?_
    simp only [rowPlaces, List.getElem?_mapIdx, List.getElem?_map, Option.map_map, Function.comp_def]
  rw [Group.vsetAll, hrow, List.foldl_map]
  refine congrArg (fun f => List.foldl f g (xs.mapIdx (fun j v => (j, v)))) (funext fun h => funext fun p => ?_)
  exact congrArg (h.vset (n + p.1) l) (by simp)

theorem Group.vsetAlls_eq (n : Nat) (xs : Nat → List Nat) (ls : List Nat) (g : Group) :
    ls.foldl (fun h l => h.vsetAll n l (xs l)) g = (ls.flatMap (fun l => rowPlaces n l ((xs l).map (BitVec.ofNat 32)))).foldl (fun h r => h.putPlace r.1 r.2) g := by
  rw [List.foldl_flatMap]
  exact congrArg (fun f => List.foldl f g ls) (funext fun h => funext fun l => h.vsetAll_eq n l (xs l))

theorem mem_rowPlaces {n l : Nat} {ws : List Word} {r : RegPlace × DWord} (h : r ∈ rowPlaces n l ws) : (∃ j < ws.length, r.1 = .v (n + j) l) ∧ ∃ w : Word, r.2 = w.setWidth 64 := by
  obtain ⟨j, hj, rfl⟩ := List.mem_mapIdx.mp h
  exact ⟨⟨j, hj, rfl⟩, _, rfl⟩

theorem rowPlaces_fits {n l : Nat} {ws : List Word} {r : RegPlace × DWord} (hl : l < 64) (h : r ∈ rowPlaces n l ws) : r.1.fits r.2 := by
  obtain ⟨⟨j, -, hj⟩, w, hw⟩ := mem_rowPlaces h
  rw [hj, hw]
  exact ⟨hl, by simp⟩

theorem rowPlaces_nodup (n l : Nat) (ws : List Word) : ((rowPlaces n l ws).map Prod.fst).Nodup := by
  have hfst : (rowPlaces n l ws).map Prod.fst = (List.range ws.length).map (fun j => RegPlace.v (n + j) l) := by
    refine List.ext_getElem (by simp [rowPlaces]) fun j hj hj' => ?_
    simp [rowPlaces]
  rw [hfst]
  refine List.nodup_range.map fun a b hab => ?_
  simp only [RegPlace.v.injEq] at hab
  omega

/-- The rows of several lanes are distinct places. -/
theorem rows_nodup (n : Nat) (ws : Nat → List Word) {ls : List Nat} (h : ls.Nodup) : ((ls.flatMap (fun l => rowPlaces n l (ws l))).map Prod.fst).Nodup := by
  rw [List.map_flatMap]
  refine List.nodup_flatMap.mpr ⟨fun l _ => rowPlaces_nodup n l (ws l), h.imp fun {a b} hab => ?_⟩
  intro q hq hq'
  obtain ⟨r, hr, rfl⟩ := List.mem_map.mp hq
  obtain ⟨r', hr', he⟩ := List.mem_map.mp hq'
  obtain ⟨⟨j, -, hj⟩, -⟩ := mem_rowPlaces hr
  obtain ⟨⟨j', -, hj'⟩, -⟩ := mem_rowPlaces hr'
  rw [hj, hj'] at he
  simp only [RegPlace.v.injEq] at he
  exact hab he.2.symm

theorem rows_fits {n : Nat} {ws : Nat → List Word} {ls : List Nat} (h : ∀ l ∈ ls, l < 64) : ∀ r ∈ ls.flatMap (fun l => rowPlaces n l (ws l)), r.1.fits r.2 := fun r hr => by
  obtain ⟨l, hl, hr⟩ := List.mem_flatMap.mp hr
  exact rowPlaces_fits (h l hl) hr

/-! ### The count of flushed elements -/

theorem Ctx.addUflo_none {x : Ctx} (h : x.l.frameSize = 0) (s : State) (n : Nat) : x.addUflo s n = .ok s := by
  rw [Ctx.addUflo, if_pos (by simp [h])]

theorem Ctx.segFault_first {x : Ctx} (h : (x.g.seg 2).2.toNat < 4) :
    x.segFault 2 4 true true [⟨x.lanes.getD 0 0, x.act, 0⟩] = some ⟨2, 0, x.act, 0, 2, 0, 0⟩ := by
  rw [Ctx.segFault]
  simp [h]

theorem Ctx.segFault_fits {x : Ctx} (h : 4 ≤ (x.g.seg 2).2.toNat) (ha : (x.g.seg 2).1.toNat % 4 = 0) :
    x.segFault 2 4 true true [⟨x.lanes.getD 0 0, x.act, 0⟩] = none := by
  rw [Ctx.segFault]
  simp [ha, Nat.not_lt.mpr h]

/-- The RED that adds a count to the first word of the frame. -/
def Ctx.ufloRed (x : Ctx) (p : Nat × Nat × Trans) (n : Nat) : PostedRed :=
  ⟨x.s.nextId, x.g.gid, x.s.tick.toNat, x.lanes.headD 0, x.agent, p.2.2.pa, p.1, .add32, BitVec.ofNat 64 n⟩

theorem Ctx.addUflo_posted {x : Ctx} {k : Located} {p : Nat × Nat × Trans} (hany : x.any = true) (hframe : x.l.frameSize ≠ 0) (hlimit : 4 ≤ (x.g.seg 2).2.toNat)
    (haligned : (x.g.seg 2).1.toNat % 4 = 0) (horder : x.orderWaits false = false) (hloc : x.locate 2 4 .write true [⟨x.lanes.headD 0, x.act, 0⟩] = .ok [k])
    (hp : k.parts = [p]) (hhome : p.2.2.home = true) (hlens : x.lensBlocks [k] = false) (h : Group) (n : Nat) :
    x.addUflo (x.s.setGroup h) n = .ok (({ x.s.noteTlb x.g.core x.t.vi p.1 p.2.2 with
      mem := { (x.s.noteTlb x.g.core x.t.vi p.1 p.2.2).mem with reds := x.s.mem.reds ++ [x.ufloRed p n] }, nextId := x.s.nextId + 1 } : State).setGroup h) := by
  obtain ⟨hremote, hrepl, hlost⟩ := p.2.2.home_iff.mp hhome
  have hhead : x.lanes.getD 0 0 = x.lanes.headD 0 := by cases x.lanes <;> rfl
  have hreds : (x.s.noteTlb x.g.core x.t.vi p.1 p.2.2).mem.reds = x.s.mem.reds := by rw [(State.noteTlb_frame x.s x.g.core x.t.vi p.1 p.2.2).2]
  have hframe' := (State.noteTlb_frame x.s x.g.core x.t.vi p.1 p.2.2).1
  have hnote : (x.s.setGroup h).noteTlb x.g.core x.t.vi p.1 p.2.2 = (x.s.noteTlb x.g.core x.t.vi p.1 p.2.2).setGroup h := by
    rw [State.noteTlb, State.noteTlb, State.noteHome, State.noteHome]
    split <;> rfl
  rw [Ctx.addUflo, hany, if_neg (by simp [hframe]), horder, if_neg Bool.false_ne_true]
  dsimp only
  rw [Ctx.segFault_fits hlimit haligned, hhead, hloc]
  dsimp only
  rw [hlens, if_neg Bool.false_ne_true, List.foldl_cons, List.foldl_nil, hp, List.foldl_cons, List.foldl_nil, hnote, hlost, hremote]
  simp only [Bool.false_eq_true, if_false]
  rw [← hreds]
  generalize x.s.noteTlb x.g.core x.t.vi p.1 p.2.2 = u at hframe' ⊢
  rw [hframe']
  rfl

/-- An instruction that leaves results in distinct places and counts. -/
theorem computesAndCounts_of_places {i : Instr} {dyn : Ctx → Option Nat} {nms : Ctx → List Named} {body : Ctx → Res} {ok : Ctx → Prop}
    {res : Ctx → List (RegPlace × DWord)} {fl : Ctx → Flags} {count : Ctx → Nat → Nat} (hexec : ∀ s, exec i s = issueDyn i dyn nms body s)
    (hd : ∀ x, ok x → dyn x = none)
    (hb : ∀ x, ok x → body x = x.addUflo (x.s.setGroup (((res x).foldl (fun h r => h.putPlace r.1 r.2) x.g).raiseFlags (fl x))) (x.lanes.map (count x)).sum)
    (hn : ∀ x, ok x → ((res x).map Prod.fst).Nodup) (hf : ∀ x, ok x → ∀ r ∈ res x, r.1.fits r.2) : ComputesAndCounts i nms ok res fl count := by
  refine ⟨computes_of_places hexec (fun x h => hd x h.1) (fun x _ h => by rw [hb x h.1, Ctx.addUflo_none h.2]) (fun x h => hn x h.1) (fun x h => hf x h.1), ?_, ?_⟩
  · intro s x hx hok hany hframe horder hlimit
    rw [hexec, issueDyn_ready hx (hd x hok), hb x hok, Ctx.addUflo, hany, if_neg (by simp [hframe]), horder, if_neg Bool.false_ne_true]
    dsimp only
    rw [Ctx.segFault_first hlimit]
  · intro s x k p hx hok hany hframe hlimit haligned horder hloc hp hhome hlens s1 red
    obtain rfl := ctxOf_state hx.1
    obtain ⟨l1, l2⟩ := look_putPlaces (res x) (hn x hok) (hf x hok) x.g
    obtain ⟨hlook, hmoves⟩ := x.finish_spec (nms x) (fl x) hx.clean (putPlaces_regsOf (res x) hx.clean)
    have hbody := (hb x hok).trans (Ctx.addUflo_posted hany hframe hlimit haligned horder hloc hp hhome hlens _ _)
    have hgid : (((res x).foldl (fun h r => h.putPlace r.1 r.2) x.g).raiseFlags (fl x)).gid = x.g.gid := by
      have hregs := putPlaces_regsOf (res x) hx.clean
      unfold Group.regsOf at hregs
      rw [hregs]
      rfl
    have hgroups : ∀ (m : Mem) (j : Nat), State.group? { s1 with mem := m, nextId := j } x.g.gid = some x.g := fun m j => by
      have hs1 : s1.groups = x.s.groups := (congrArg State.groups (State.noteTlb_frame x.s x.g.core x.t.vi p.1 p.2.2).1 :)
      rw [State.group?]
      change s1.groups.find? _ = _
      rw [hs1]
      exact ctxOf_group hx.1
    refine ⟨_, _, by rw [hexec, issueDyn_ready hx (hd x hok), hbody], ?_, ⟨fun r hr => ?_, fun q hq hne => ?_⟩, hmoves⟩
    · rw [← hgid]
      dsimp only
      rw [State.modGroup_setGroup]
      · refine State.setGroup_onlyGroup (g := x.g) ?_
        rw [Group.advance_gid, Group.postStep_gid, hgid]
        exact hgroups _ _
      · intro j hj
        rw [Group.advance_gid, Group.postStep_gid, hj]
    · have hro : r.1.ok := by
        have := hf x hok r hr
        obtain ⟨q, w⟩ := r
        cases q <;> simp only [RegPlace.fits, RegPlace.ok] at * <;> exact this.1
      rw [hlook _ hro, l1 r hr]
    · rw [hlook q hq, l2 q hq hne]

/-! ### The conditions of a block conversion -/

theorem pastV255_eq_false {n k : Nat} (h : n + k ≤ 256) : pastV255 n k = false := decide_eq_false (by omega)

theorem blockOk_dyn {k : Slot} {b c : Opnd} {a na d nd : Nat} (h : blockOk k b c a na d nd) :
    (!k.quantOk || !k.bandOk c || (if k.block = 0 then !b.isZero else b.isZero) || pastV255 a na || pastV255 d nd) = false := by
  obtain ⟨hq, hband, hblock, ha, hd⟩ := h
  rw [hq, hband, pastV255_eq_false ha, pastV255_eq_false hd]
  by_cases hk : k.block = 0
  · rw [if_pos hk, hblock.mp hk]
    rfl
  · rw [if_neg hk, Bool.not_eq_true _ |>.mp fun hb => hk (hblock.mpr hb)]
    rfl

theorem Ctx.lanes_rows_nodup (x : Ctx) (n : Nat) (ws : Nat → List Word) : ((x.lanes.flatMap (fun l => rowPlaces n l (ws l))).map Prod.fst).Nodup :=
  rows_nodup n ws (lanesOf_nodup _ _)

theorem Ctx.lanes_rows_fits (x : Ctx) (n : Nat) (ws : Nat → List Word) : ∀ r ∈ x.lanes.flatMap (fun l => rowPlaces n l (ws l)), r.1.fits r.2 :=
  rows_fits fun _ => Ctx.lanes_lt

theorem foldl_add_sum (f : Nat → Nat) (ls : List Nat) (n : Nat) : ls.foldl (fun n l => n + f l) n = n + (ls.map f).sum := by
  induction ls generalizing n with
  | nil => rfl
  | cons l r ih => rw [List.foldl_cons, ih, List.map_cons, List.sum_cons, Nat.add_assoc]

/-! ### The instructions -/

/-- The scale that CVTQ divides by (R94). -/
theorem quantScale_eq (k : Slot) (code : Nat) :
    ((if k.block = 0 then (1, 0) else e3m5 (if (k.block != 0 && code == 0) = true then 0x60 else code) : Nat × Int), flIf (k.block != 0 && code == 0) flNV) =
      (((quantScale k code).1, (quantScale k code).2.1), (quantScale k code).2.2) := by
  rw [quantScale]
  by_cases hk : k.block = 0
  · simp [hk, flIf]
  · by_cases hc : code = 0
    · simp [hk, hc, flIf]
    · simp [hk, hc, flIf]

theorem flushBF16_lt {r : Nat × Flags} (ftz : Bool) (h : r.1 < 2 ^ 32) : (flushBF16 ftz r).1 < 2 ^ 32 := by
  rw [flushBF16]
  split
  · exact Nat.two_pow_pos 32
  · exact h

theorem bscale_lt (fmax : Nat) (ftz : Bool) (v : FVal) : (bscale fmax ftz v).1 < 2 ^ 32 := by
  refine flushBF16_lt ftz ?_
  lift_lets
  extract_lets pow
  have hpow : ∀ k : Int, pow k < 2 ^ 32 := fun k => (fmtBF16.round_lt .rne false false false 1 1 k).trans (by decide)
  clear_value pow
  split
  · exact hpow _
  · exact hpow _
  · split
    · exact hpow _
    · dsimp only
      split
      · exact hpow _
      · split
        · exact hpow _
        · exact hpow _

/-- BSCALE (R164). -/
theorem computes_bscale (g : Guard) (slot : BitVec 3) (d a : Opnd) :
    Computes (.bscale g slot d a) (fun _ => namesA d [a]) (fun x => (x.slot slot.toNat).quantOk = true)
      (fun x => x.inLanes d (fun l => codeWord (bscale (fmtMax (x.slot slot.toNat).elt) x.l.ftz (fmtF32.read x.l.ftz (x.g.word a l).toNat))))
      (fun x => x.lanesFlags d (fun l => (bscale (fmtMax (x.slot slot.toNat).elt) x.l.ftz (fmtF32.read x.l.ftz (x.g.word a l).toNat)).2)) :=
  computes_of_laneWise (dyn := fun x => if !(x.slot slot.toNat).quantOk then some 3 else none) (fun _ => exec_bscale) (fun x hq => by rw [hq]; rfl) (fun x _ => rfl)
    fun x l _ => by rw [x.src_eq, codeWord_toNat (bscale_lt _ _ _)]; rfl

/-- What a block conversion does with the rows, flags and counts of its lanes. -/
def Ctx.rowsBody (x : Ctx) (n : Nat) (F : Nat → Nat × List Nat × Flags × Nat) : Res :=
  x.addUflo (x.s.setGroup (((x.lanes.map F).foldl (fun h q => h.vsetAll n q.1 q.2.1) x.g).raiseFlags (unionFlags ((x.lanes.map F).map (fun q => q.2.2.1)))))
    ((x.lanes.map F).foldl (fun m q => m + q.2.2.2) 0)

theorem Ctx.rowsBody_eq (x : Ctx) (n : Nat) (r : Nat → List Nat × Flags × Nat) : x.rowsBody n (fun l => (l, r l)) =
    x.addUflo (x.s.setGroup (((x.lanes.flatMap (fun l => rowPlaces n l ((r l).1.map (BitVec.ofNat 32)))).foldl (fun h q => h.putPlace q.1 q.2) x.g).raiseFlags
      (unionFlags (x.lanes.map (fun l => (r l).2.1))))) (x.lanes.map (fun l => (r l).2.2)).sum := by
  rw [Ctx.rowsBody, List.foldl_map, List.foldl_map, List.map_map, Group.vsetAlls_eq n (fun l => (r l).1), foldl_add_sum (fun l => (r l).2.2), Nat.zero_add]
  rfl

/-- CVTQ (R94, R161, R162). -/
theorem Ctx.cvtq_lane (x : Ctx) (k : Slot) (a b c : Opnd) (l : Nat) :
    (let (bm, be, f1) := bandScale k (x.src c l % 2 ^ 16)
     let code := x.src b l % 256
     let zero := k.block != 0 && code == 0
     let (sm, se) := if k.block = 0 then (1, 0) else e3m5 (if zero then 0x60 else code)
     let (cs, f2, n) := convertBlock k k.nanovf (x.blockIns k (vnum a) l) (sm * bm) (se + be)
     (l, packCodes k cs, f1 ||| f2 ||| flIf zero flNV, n)) =
    (l, packCodes k (convertBlock k k.nanovf (x.blockIns k (vnum a) l) ((quantScale k ((x.g.word b l).toNat % 256)).1 * (bandScale k ((x.g.word c l).toNat % 2 ^ 16)).1)
        ((quantScale k ((x.g.word b l).toNat % 256)).2.1 + (bandScale k ((x.g.word c l).toNat % 2 ^ 16)).2.1)).1,
      (bandScale k ((x.g.word c l).toNat % 2 ^ 16)).2.2 ||| (convertBlock k k.nanovf (x.blockIns k (vnum a) l)
        ((quantScale k ((x.g.word b l).toNat % 256)).1 * (bandScale k ((x.g.word c l).toNat % 2 ^ 16)).1)
        ((quantScale k ((x.g.word b l).toNat % 256)).2.1 + (bandScale k ((x.g.word c l).toNat % 2 ^ 16)).2.1)).2.1 ||| (quantScale k ((x.g.word b l).toNat % 256)).2.2,
      (convertBlock k k.nanovf (x.blockIns k (vnum a) l) ((quantScale k ((x.g.word b l).toNat % 256)).1 * (bandScale k ((x.g.word c l).toNat % 2 ^ 16)).1)
        ((quantScale k ((x.g.word b l).toNat % 256)).2.1 + (bandScale k ((x.g.word c l).toNat % 2 ^ 16)).2.1)).2.2) := by
  obtain ⟨hscale, hflag⟩ := Prod.ext_iff.mp (quantScale_eq k ((x.g.word b l).toNat % 256))
  dsimp only at hscale hflag
  rw [x.src_eq, x.src_eq]
  dsimp only
  rw [hscale, hflag]

/-- The elements of a lane's block that CVTDQ gives back (R163). -/
def Ctx.dequants (x : Ctx) (k : Slot) (a b c : Opnd) (l : Nat) : List (Nat × Flags) :=
  let sc : Nat × Int := if k.block = 0 then (1, 0) else e3m5 (x.src b l % 256)
  (List.range k.inputs).map (fun j => dequant k x.ftz (elem (k.place j).2.1 (k.place j).2.2 (x.g.vget (vnum a + (k.place j).1) l).toNat) sc.1 sc.2 (x.src c l % 2 ^ 16))

/-- CVTDQ is issued with the elements of its lanes' blocks. -/
theorem exec_cvtdq_issue {g : Guard} {slot : BitVec 3} {d a b c : Opnd} {s : State} : exec (.cvtdq g slot d a b c) s = issue (.cvtdq g slot d a b c)
    (fun x => let k := x.slot slot.toNat
      !k.quantOk || !k.bandOk c || (if k.block = 0 then !b.isZero else b.isZero) || pastV255 (vnum a) k.codeRegs || pastV255 (vnum d) k.inputs)
    (fun x => let k := x.slot slot.toNat
      [⟨0, .op d k.inputs, false⟩, ⟨1, .op a k.codeRegs, true⟩, ⟨2, .op b 1, true⟩, ⟨3, .op c 1, true⟩])
    (fun x => .ok (x.s.setGroup (((x.lanes.map (fun l => (l, x.dequants (x.slot slot.toNat) a b c l))).foldl (fun h q => h.vsetAll (vnum d) q.1 (q.2.map (·.1))) x.g).raiseFlags
      (unionFlags ((x.lanes.map (fun l => (l, x.dequants (x.slot slot.toNat) a b c l))).flatMap (fun q => q.2.map (·.2))))))) s := by
  rw [exec_cvtdq]
  rfl

/-- Settles O7. -/
theorem blockConversions : Obligations.BlockConversions := by
  refine ⟨fun g slot n a b c => ?_, fun g slot n a c => ?_, fun g slot n a b c => ?_, computes_bscale⟩
  · intro r
    refine computesAndCounts_of_places (dyn := fun x => if !(x.slot slot.toNat).quantOk || !(x.slot slot.toNat).bandOk c ||
        (if (x.slot slot.toNat).block = 0 then !b.isZero else b.isZero) || pastV255 (vnum a) (x.slot slot.toNat).inputs || pastV255 n.toNat (x.slot slot.toNat).codeRegs
        then some 3 else none) (fun _ => exec_cvtq) (fun x h => by rw [blockOk_dyn h]; rfl) (fun x _ => ?_) (fun x _ => x.lanes_rows_nodup _ _) fun x _ => x.lanes_rows_fits _ _
    exact (congrArg (x.rowsBody n.toNat) (funext fun l => x.cvtq_lane (x.slot slot.toNat) a b c l)).trans (x.rowsBody_eq n.toNat (r x))
  · intro r
    refine computesAndCounts_of_places (dyn := fun x => if !(x.slot slot.toNat).quantOk || !(x.slot slot.toNat).bandOk c || (x.slot slot.toNat).block == 0 ||
        pastV255 (vnum a) (x.slot slot.toNat).inputs || pastV255 n.toNat ((x.slot slot.toNat).codeRegs + 1)
        then some 3 else none) (fun _ => exec_cvtqAuto) (fun x h => ?_) (fun x _ => ?_) (fun x _ => x.lanes_rows_nodup _ _) fun x _ => x.lanes_rows_fits _ _
    · obtain ⟨hq, hband, hblock, ha, hd⟩ := h
      rw [hq, hband, beq_false_of_ne hblock, pastV255_eq_false ha, pastV255_eq_false (by omega)]
      rfl
    · refine Eq.trans (congrArg (x.rowsBody n.toNat) (funext fun l => ?_)) (x.rowsBody_eq n.toNat (r x))
      rw [x.src_eq]
  · intro r
    refine computes_of_places (fun _ => exec_cvtdq_issue) (fun x h => congrArg (fun w : Bool => if w = true then some 3 else none) (blockOk_dyn h)) (fun x _ _ => ?_)
      (fun x _ => x.lanes_rows_nodup _ _) fun x _ => x.lanes_rows_fits _ _
    have hr : ∀ l, x.dequants (x.slot slot.toNat) a b c l = r x l := fun l => by
      rw [Ctx.dequants, x.src_eq, x.src_eq]
      simp only [elem_eq_element]
      rfl
    simp only [hr]
    rw [List.foldl_map, List.flatMap_map, Group.vsetAlls_eq (vnum (.v n)) (fun l => (r x l).map (·.1))]
    simp only [List.map_map]
    rfl

end Sys2Proof.Machine
end

section
/-! A denied record whose queue entry a group monitors (R199, R286, R291). -/
namespace Sys2Proof.Machine

/-- A service team's record, which waits in the queue entry at 0. -/
def Task.waitingRecord (t : Task) : Task :=
  { t with uid := 7, state := .queued, spawned := true, team := false, service := true, die := 4, keys := [], entry := some 0,
           cont := { t.cont with shape := 0xC1, footprint := 0, join := 0 } }

/-- Virtual interface 0 has a service partition without cores; the scheduling processor has the page of its queue in its TLB, and a group monitors
the first word of it. -/
def monitoredEntry : State :=
  { (issuing (.nop .always)).mapGroups (fun g => { g with mon := [⟨true, false, false, false, false, 0, 0, .ne, 0⟩] }) with
    tasks := (issuing (.nop .always)).tasks.map Task.waitingRecord
    vis := [{ VI.reset 0 with partition := 1 }]
    mem := { (issuing (.nop .always)).mem with tlb := [⟨some schedulingCore, 4, 0, 0, 8192, 0, 1, false⟩] } }

/-- A record with its launch record, tried on its own, that finds no place, and whose denial changes a group. -/
def deniedFires (s : State) : Bool :=
  match s.task? 7 with
  | some t => decide (t.uid = 7 ∧ t.state = .queued ∧ t.team = false ∧ t.keys = [] ∧ t.launch = some fetchLaunch ∧ s.grid? t.grid = none ∧
      (s.modTask t.uid (fun k => { k with launch := some fetchLaunch })).refusal { t with launch := some fetchLaunch } (some fetchLaunch) = none ∧
      (s.modTask t.uid (fun k => { k with launch := some fetchLaunch })).findPlace { t with launch := some fetchLaunch } = none ∧
      (s.tryTask t.uid).groups ≠ s.groups)
  | none => false

/-- Refutes O44: the count of a record's denials is written to its queue entry, a word of memory that a group may monitor; the group's monitor fires
by it, where the statement leaves every group as it was. -/
theorem not_tasksAndGrids : ¬ Obligations.TasksAndGrids := by
  unfold Obligations.TasksAndGrids
  rintro ⟨-, -, -, -, htried, -⟩
  have hfires : deniedFires monitoredEntry = true := by decide +kernel
  rw [deniedFires] at hfires
  split at hfires
  · next t ht =>
    obtain ⟨huid, hqueued, hteam, hkeys, hlaunch, hgrid, hrefusal, hplace, hgroups⟩ := of_decide_eq_true hfires
    have hrecord := htried monitoredEntry t ⟨huid ▸ ht, .inl hqueued, (fun g hg => by rw [hgrid] at hg; cases hg), .inl hteam⟩
    simp only [hlaunch] at hrecord
    obtain ⟨-, hplaces⟩ := hrecord
    obtain ⟨-, hheld⟩ := hplaces fetchLaunch rfl hrefusal
    obtain ⟨hdenied, -⟩ := hheld (by rw [hkeys]; rfl)
    obtain ⟨-, hsame, -⟩ := hdenied (.inl hplace)
    exact hgroups hsame
  · cases hfires

end Sys2Proof.Machine
end

section
/-! A die fence where two groups have one number (R274, R301). -/
namespace Sys2Proof.Machine

/-- A team that has ended on the same die. -/
def Task.endedThere (t : Task) : Task := { t with uid := 7, ended := true }

/-- A group of the team that has ended, of the same number, with a lost store in its delivery record. -/
def Group.endedThere (g : Group) : Group := { g with task := 7, delPkg := ⟨1, 0, 0, 0⟩ }

/-- Die 0 has lost its link to the IOD; the launch of its placed team sets noreissue; the number of the team's group is that of a group of a team that
has ended. -/
def fenceDoubled : State :=
  { issuing (.nop .always) with
    groups := (issuing (.nop .always)).groups.flatMap (fun g => [g.endedThere, g])
    tasks := (issuing (.nop .always)).tasks.flatMap (fun t => [{ t with launch := some { fetchLaunch with flags := 0xFF } }, t.endedThere])
    dies := State.reset.dies.map (fun d => if d.num = 0 then { d with iodLink := false } else d) }

/-- A fence of die 0, which is due, changes task 7, which has ended. -/
def fenceTouchesEnded (s : State) : Bool :=
  match s.task? 7 with
  | some t => decide (s.fenceDue 0 = true ∧ (s.tasks.map Task.uid).Nodup ∧ s.grids = [] ∧ t ∈ s.tasks ∧ t.uid = 7 ∧ t.die = 0 ∧ t.ended = true) &&
      nextMeets (exec (.dieFence 0) s) (fun u => decide (u.task? 7 ≠ some t))
  | none => false

/-- Refutes O49: where two groups have one number, which the statement admits, the end of a group of a killed task reports the other's lost stores to
its task, which has ended and is to stay as it is. -/
theorem not_errorsAndFences : ¬ Obligations.ErrorsAndFences := by
  unfold Obligations.ErrorsAndFences
  rintro ⟨-, -, -, -, htasks, -⟩
  have htouches : fenceTouchesEnded fenceDoubled = true := by decide +kernel
  rw [fenceTouchesEnded] at htouches
  split at htouches
  · next t ht =>
    rw [Bool.and_eq_true, decide_eq_true_eq] at htouches
    obtain ⟨⟨hdue, hnodup, hgrids, hmem, huid, hdie, hended⟩, hchanged⟩ := htouches
    obtain ⟨u, hu, hfenced, -⟩ := htasks fenceDoubled 0 hdue hnodup (by rw [hgrids]; exact List.nodup_nil)
    obtain ⟨k, hk, hkept, -⟩ := hfenced t hmem hdie
    rw [hu, nextMeets, decide_eq_true_eq, ← huid, hk, hkept (.inl hended)] at hchanged
    exact hchanged rfl
  · cases htouches

end Sys2Proof.Machine
end

section
/-! Reset, power, lifecycle, attestation and debug (R346 to R350, R356). -/
namespace Sys2Proof.Machine

/-! ### Words of the management window -/

theorem State.win_winSet_same (s : State) {off o : Nat} (val : Nat) (h : o / 4 = off / 4) : (s.winSet off val).win o = val % 2 ^ 32 := by
  rw [State.win, State.winSet, h, Store.get_set_same, BitVec.toNat_ofNat]

theorem State.win_winSet_ne (s : State) {off o : Nat} (val : Nat) (h : o / 4 ≠ off / 4) : (s.winSet off val).win o = s.win o := by
  rw [State.win, State.winSet, Store.get_set_ne _ _ h]
  rfl

/-- What a store holds at a key, in a store without the keys that a test names. -/
theorem Store.get_filter_key {w : Nat} (st : Store w) (t : Nat → Bool) (k : Nat) : Store.get (st.filter (fun c => t c.1)) k = if t k = true then st.get k else 0 := by
  induction st with
  | nil => rw [List.filter_nil, Store.get_nil, ite_self]
  | cons c r ih =>
    obtain ⟨j, x⟩ := c
    by_cases hj : j = k
    · subst hj
      by_cases ht : t j = true <;> simp [ht, Store.get, ih]
    · by_cases ht : t j = true <;> simp [ht, Store.get, ih, hj]

/-! ### Power and lifecycle -/

theorem State.booted_iff {s : State} : s.booted = true ↔ s.host.stage = 3 := by
  rw [State.booted, beq_iff_eq]

theorem State.not_booted {s : State} (h : s.host.stage ≠ 3) : s.booted = false := by
  rw [← Bool.not_eq_true, State.booted_iff]
  exact h

theorem HostSide.runs_iff {h : HostSide} : h.runs = true ↔ h.stage ≠ 0 := by
  rw [HostSide.runs, bne_iff_ne]

theorem State.win_showPower (s : State) : s.showPower.win 0x400 = powerCode s.host.requested + 256 * powerCode s.host.power := by
  rw [State.showPower, State.win_winSet_same _ _ rfl]
  cases s.host.requested <;> cases s.host.power <;> rfl

theorem State.showPower_lifecycle (s : State) : s.showPower.host.lifecycle = s.host.lifecycle := rfl

/-- A package that has not booted grants no request (R349). -/
theorem State.power_not_booted {s : State} (h : s.host.stage ≠ 3) (p : Power) : s.powerNow p = s ∧ s.powerLater p = s :=
  ⟨if_pos (.inr (State.not_booted h)), if_pos (.inr (State.not_booted h))⟩

/-- A request for P0 or P1 is granted at once (R350). -/
theorem State.powerNow_spec {s : State} (hoff : s.host.power ≠ .off) (hstage : s.host.stage = 3) (p : Power) :
    (s.powerNow p).host.power = p ∧ (s.powerNow p).host.requested = p ∧ (s.powerNow p).win 0x400 = powerCode p + 256 * powerCode p ∧
      (s.powerNow p).groups = s.groups ∧ (s.powerNow p).mem = s.mem := by
  rw [State.powerNow, if_neg (by rw [State.booted_iff.mpr hstage]; simp [hoff])]
  exact ⟨rfl, rfl, State.win_showPower _, rfl, rfl⟩

/-- Another request is noted (R350). -/
theorem State.powerLater_spec {s : State} (hoff : s.host.power ≠ .off) (hstage : s.host.stage = 3) (p : Power) :
    (s.powerLater p).host.power = s.host.power ∧ (s.powerLater p).host.requested = p ∧ (s.powerLater p).groups = s.groups ∧ (s.powerLater p).mem = s.mem := by
  rw [State.powerLater, if_neg (by rw [State.booted_iff.mpr hstage]; simp [hoff])]
  exact ⟨rfl, rfl, rfl, rfl⟩

/-- A quiet package enters the state that waits; in RETAIN no session of level VI is left (R347, R350). -/
theorem State.powerEntry_quiet {s : State} (hoff : s.host.power ≠ .off) (hquiet : s.quiet = true) (hreq : s.host.requested = .idle ∨ s.host.requested = .retain)
    (hnew : s.host.power ≠ s.host.requested) :
    s.powerEntry.host.power = s.host.requested ∧ (s.host.requested = .retain → ∀ e ∈ s.powerEntry.host.sessions, e.level ≠ 1) := by
  rw [State.powerEntry, if_pos (by simp [hquiet, hreq, hnew, hoff])]
  by_cases hretain : s.host.requested = .retain
  · rw [if_pos hretain]
    refine ⟨rfl, fun _ e he => ?_⟩
    obtain ⟨-, hlevel⟩ := List.mem_filter.mp he
    simpa using hlevel
  · rw [if_neg hretain]
    exact ⟨rfl, fun h => absurd h hretain⟩

theorem State.powerEntry_busy {s : State} (h : s.quiet = false) : s.powerEntry = s := by
  rw [State.powerEntry, h]
  rfl

/-- Boot takes every image when the fuses are read and each image verifies (R349). -/
theorem HostSide.boot_all {h : HostSide} {n : Nat} (hfuses : Config.fusesRead n = true) (h0 : imageOk 0 = true) (h1 : imageOk 1 = true) (h2 : imageOk 2 = true) :
    h.boot n = { ((h.measure 0).measure 1).measure 2 with stage := 3, failure := 0 } := by
  simp [HostSide.boot, hfuses, h0, h1, h2]

theorem HostSide.boot_fuses {h : HostSide} {n : Nat} (hfuses : Config.fusesRead n = false) : h.boot n = { h with stage := 0, failure := 4 } := by
  simp [HostSide.boot, hfuses]

theorem HostSide.measure_length (h : HostSide) (k : Nat) : (h.measure k).measurements.length = h.measurements.length := List.length_set ..

/-- Boot changes nothing of the host's side but the stage, the failure and the measurements. -/
theorem HostSide.boot_rest (h : HostSide) (n : Nat) :
    h.boot n = { h with stage := (h.boot n).stage, failure := (h.boot n).failure, measurements := (h.boot n).measurements } := by
  by_cases hf : Config.fusesRead n = true <;> by_cases h0 : imageOk 0 = true <;> by_cases h1 : imageOk 1 = true <;> by_cases h2 : imageOk 2 = true <;>
    simp [HostSide.boot, HostSide.measure, hf, h0, h1, h2]

/-- What a package reset leaves (R349, log 8). -/
theorem State.packageReset_spec (s : State) : ∃ f : Fabric, s.packageReset = { s.wiped with host := s.wiped.host.boot s.fresh, fabric := f } ∧
    f.retiredCores = s.fabric.retiredCores ∧ ((s.wiped.host.boot s.fresh).stage ≠ 0 → f.chip = Config.platformChip 0) := by
  rw [State.packageReset]
  by_cases h : (s.wiped.host.boot s.fresh).stage = 0
  · exact ⟨s.wiped.fabric, if_pos h, rfl, fun hn => absurd h hn⟩
  · exact ⟨_, if_neg h, rfl, fun _ => rfl⟩

/-- The owner keys of the configuration records are erased from the window (R346). -/
theorem get_eraseKeys (w : Store 32) (k : Nat) :
    (eraseKeys w).get k = if 0x8000 ≤ 4 * k ∧ 4 * k < 0xA000 ∧ 0x38 ≤ 4 * k % 128 ∧ 4 * k % 128 < 0x58 then 0 else w.get k := by
  rw [eraseKeys, Store.get_filter_key w (fun j => !(decide (0x8000 ≤ 4 * j) && decide (4 * j < 0xA000) && decide (0x38 ≤ 4 * j % 128) && decide (4 * j % 128 < 0x58)))]
  by_cases h : 0x8000 ≤ 4 * k ∧ 4 * k < 0xA000 ∧ 0x38 ≤ 4 * k % 128 ∧ 4 * k % 128 < 0x58
  · obtain ⟨h1, h2, h3, h4⟩ := h
    simp [h1, h2, h3, h4]
  · rw [if_neg h, if_pos]
    simpa [and_assoc, or_assoc, Nat.not_lt, imp_iff_not_or] using h

/-! ### Attestation and debug -/

theorem State.spdm_spec {s : State} (hstage : s.host.stage ≠ 0) (req : List Byte) :
    ∃ bytes, s.spdm req = { s with host := { s.host with answers := s.host.answers ++ [.spdm bytes] } } ∧
      (field req 0 1 = 0x12 → field req 1 1 = 0xE0 → s.host.keysErased = false → bytes = [0x12, 0x60] ++ s.host.report ++ Config.deviceSign s.host.report) ∧
      (field req 0 1 = 0x12 → field req 1 1 = 0xE3 → (field req 8 4).testBit 2 = true → (field req 12 4).testBit 0 = true →
        field bytes 1 1 = 0x63 ∧ field bytes 12 4 = 4 ∧ field bytes 16 4 = 1) := by
  rw [State.spdm, HostSide.runs_iff.mpr hstage, if_neg (by decide)]
  by_cases hneg : field req 0 1 = 0x12 ∧ field req 1 1 = 0xE3
  · rw [if_pos hneg]
    refine ⟨_, rfl, fun _ h => (by rw [hneg.2] at h; cases h), fun _ _ h2 h0 => ?_⟩
    rw [spdmAlgorithms, h2, h0, if_pos (show (true && true) = true from rfl)]
    decide
  · rw [if_neg hneg]
    by_cases hreport : field req 0 1 = 0x12 ∧ field req 1 1 = 0xE0 ∧ !s.host.keysErased
    · rw [if_pos hreport]
      exact ⟨_, rfl, fun _ _ _ => rfl, fun h0 h1 => absurd ⟨h0, h1⟩ hneg⟩
    · rw [if_neg hreport]
      exact ⟨_, rfl, fun h0 h1 hk => absurd ⟨h0, h1, by rw [hk]; rfl⟩ hreport, fun h0 h1 => absurd ⟨h0, h1⟩ hneg⟩

/-- An open session acts on the group that it names. -/
theorem exec_debug_on {s : State} {vi gid : Nat} {g : Group} {t : Task} (hs : s.sessionFor vi = true) (hg : s.debugGroup vi gid = some (g, t)) :
    exec (.debugSessionAccess vi (.halt gid)) s = .next (s.setGroup { g with halted := true }) ∧
    exec (.debugSessionAccess vi (.resume gid)) s = .next (s.setGroup { g with halted := false }) ∧
    (∀ r val, exec (.debugSessionAccess vi (.writeReg gid r val)) s = .next (if g.halted && g.hasReg t r then s.writeReg g t r val else s)) ∧
    (∀ lane, exec (.debugSessionAccess vi (.readVpc gid lane)) s = .next (s.answer (.debugValue ((g.vpc.get lane).setWidth 128)))) ∧
    ∀ r, exec (.debugSessionAccess vi (.readReg gid r)) s = .next (s.answer (if g.hasReg t r then .debugValue (g.regValue t r) else .abort)) := by
  simp only [exec_debugSessionAccess, execDebugSessionAccess, hs, if_true, State.debug, hg, implies_true, and_self]

/-- A session writes a register that a halted group has. -/
theorem exec_debug_write {s : State} {vi gid : Nat} {g : Group} {t : Task} (hs : s.sessionFor vi = true) (hg : s.debugGroup vi gid = some (g, t)) (hh : g.halted = true)
    {r : DebugReg} (hr : g.hasReg t r = true) (val : BitVec 128) : exec (.debugSessionAccess vi (.writeReg gid r val)) s = .next (s.writeReg g t r val) := by
  obtain ⟨-, -, hw, -⟩ := exec_debug_on hs hg
  rw [hw, hh, hr]
  rfl

/-- A session reads a register that a group has. -/
theorem exec_debug_read {s : State} {vi gid : Nat} {g : Group} {t : Task} (hs : s.sessionFor vi = true) (hg : s.debugGroup vi gid = some (g, t))
    {r : DebugReg} (hr : g.hasReg t r = true) : exec (.debugSessionAccess vi (.readReg gid r)) s = .next (s.answer (.debugValue (g.regValue t r))) := by
  obtain ⟨-, -, -, -, hv⟩ := exec_debug_on hs hg
  rw [hv, hr]
  rfl

theorem State.task?_modTask (s : State) (uid : Nat) {t : Task} (f : Task → Task) (h : s.task? uid = some t) (hf : ∀ k, (f k).uid = k.uid) :
    (s.modTask uid f).task? uid = some (f t) :=
  find?_mapIf (fun k => congrArg (· == uid) (hf k)) h

/-- Settles O51. -/
theorem lifecycle : Obligations.Lifecycle := by
  unfold Obligations.Lifecycle
  refine ⟨?reset, ?unbooted, ?power, ?off, ?stopped, ?commands, ?attest, ?nonce, ?token, ?closed, ?session⟩
  case reset =>
    intro s
    obtain ⟨f, hu, hretired, hchip⟩ := s.packageReset_spec
    have hrest := HostSide.boot_rest s.wiped.host s.fresh
    refine ⟨_, rfl, ?_⟩
    rw [hu]
    refine ⟨rfl, rfl, rfl, rfl, rfl, rfl, rfl, (congrArg HostSide.lifecycle hrest :), (congrArg HostSide.power hrest :), (congrArg HostSide.sessions hrest :), hretired,
      fun hfuses h0 h1 h2 => ?_, fun hfuses => ?_⟩
    · have hboot := HostSide.boot_all (h := s.wiped.host) hfuses h0 h1 h2
      have hstage : (s.wiped.host.boot s.fresh).stage = 3 := (congrArg HostSide.stage hboot :)
      refine ⟨hstage, (congrArg HostSide.failure hboot :), hchip (by rw [hstage]; decide), ?_⟩
      rw [(congrArg HostSide.measurements hboot :)]
      simp only [HostSide.measure_length]
      rfl
    · have hboot := HostSide.boot_fuses (h := s.wiped.host) hfuses
      exact ⟨(congrArg HostSide.stage hboot :), (congrArg HostSide.failure hboot :)⟩
  case unbooted =>
    intro s hstage i hi
    obtain rfl | rfl | rfl | rfl := hi
    · exact congrArg _ (State.power_not_booted hstage _).1
    · exact congrArg _ (State.power_not_booted hstage _).1
    · exact congrArg _ (State.power_not_booted hstage _).2
    · exact congrArg _ (State.power_not_booted hstage _).2
  case power =>
    intro s hoff hstage
    refine ⟨?_, ?_, fun hquiet hreq hnew => ⟨_, rfl, State.powerEntry_quiet hoff hquiet hreq hnew⟩, fun hbusy => congrArg _ (State.powerEntry_busy hbusy)⟩
    · rintro i p (⟨rfl, rfl⟩ | ⟨rfl, rfl⟩)
      · exact ⟨_, rfl, State.powerNow_spec hoff hstage _⟩
      · exact ⟨_, rfl, State.powerNow_spec hoff hstage _⟩
    · rintro i p (⟨rfl, rfl⟩ | ⟨rfl, rfl⟩)
      · exact ⟨_, rfl, State.powerLater_spec hoff hstage _⟩
      · exact ⟨_, rfl, State.powerLater_spec hoff hstage _⟩
  case off =>
    intro s
    refine ⟨_, rfl, rfl, rfl, rfl, rfl, rfl, ?_, State.showPower_lifecycle _⟩
    rw [State.win_showPower]
    rfl
  case stopped =>
    rintro s i hstage (rfl | ⟨c, rfl | rfl | rfl | rfl⟩) <;>
      simp [exec_nonceIssue, execNonceIssue, exec_lifecycleDeploy, execLifecycleDeploy, exec_lifecycleReturn, execLifecycleReturn, exec_debugTokenUnlock, execDebugTokenUnlock,
        State.unlock, exec_spdmRequest, execSpdmRequest, State.spdm, HostSide.runs, hstage]
  case commands =>
    intro s c
    refine ⟨fun hstage hlife hsigned => ?_, fun hnot => ?_, fun hstage hlife hsigned hdevice => ?_, fun hnot => ?_⟩
    · rw [exec_lifecycleDeploy, execLifecycleDeploy, if_pos ⟨HostSide.runs_iff.mpr hstage, hlife, hsigned⟩]
    · rw [exec_lifecycleDeploy, execLifecycleDeploy, if_neg]
      rintro ⟨-, hlife, hsigned⟩
      exact hnot.elim (fun h => h hlife) (fun h => by rw [h] at hsigned; cases hsigned)
    · refine ⟨eraseKeys s.host.window, ?_, get_eraseKeys _⟩
      rw [exec_lifecycleReturn, execLifecycleReturn, if_pos ⟨HostSide.runs_iff.mpr hstage, hlife, hsigned, hdevice⟩]
    · rw [exec_lifecycleReturn, execLifecycleReturn, if_neg]
      rintro ⟨-, hlife, hsigned, -⟩
      exact hnot.elim (fun h => h hlife) (fun h => by rw [h] at hsigned; cases hsigned)
  case attest =>
    intro s req hstage
    obtain ⟨bytes, hspdm, hbytes⟩ := State.spdm_spec hstage req
    exact ⟨bytes, congrArg _ hspdm, hbytes⟩
  case nonce =>
    intro s hstage
    refine ⟨Config.nonceOf s.host.nonces, ?_⟩
    rw [exec_nonceIssue, execNonceIssue, HostSide.runs_iff.mpr hstage]
    rfl
  case token =>
    intro s k hstage
    refine ⟨fun hbad => ?_, fun hgood => ?_⟩
    · rw [exec_debugTokenUnlock, execDebugTokenUnlock, State.unlock, HostSide.runs_iff.mpr hstage, hbad]
      rfl
    · rw [exec_debugTokenUnlock, execDebugTokenUnlock, State.unlock, HostSide.runs_iff.mpr hstage, hgood]
      exact ⟨_, rfl, rfl, rfl, rfl, rfl⟩
  case closed =>
    intro s vi op hclosed
    rw [exec_debugSessionAccess, execDebugSessionAccess, hclosed]
    rfl
  case session =>
    intro s vi gid g t hs hg
    obtain ⟨hhalt, hresume, hwrite, hvpc, -⟩ := exec_debug_on hs hg
    refine ⟨hhalt, hresume, fun hrun r val => by rw [hwrite, hrun]; rfl, fun hh => ⟨?_, ?_, ?_, ?_, ?_, ?_⟩, hvpc, ?_, ?_, ?_, ?_, exec_debug_read hs hg rfl, ?_⟩
    · exact fun lane n val hlane hn => exec_debug_write hs hg hh (by simp [Group.hasReg, hlane, hn]) val
    · exact fun n val hn => exec_debug_write hs hg hh (by simp [Group.hasReg, hn]) val
    · exact fun lane n val hlane hn => exec_debug_write hs hg hh (by simp [Group.hasReg, hlane, hn]) val
    · exact fun lane k val hlane hk => exec_debug_write hs hg hh (by simp [Group.hasReg, hlane, hk]) val
    · intro n val hn ht
      exact ⟨_, _, exec_debug_write hs hg hh (by simp [Group.hasReg, hn]) val, rfl, rfl,
        State.task?_modTask s t.uid _ ht fun _ => rfl, Store.get_set_same .., fun m hm => Store.get_set_ne _ _ hm⟩
    · intro n row col val hn hrow hcol ht
      exact ⟨_, _, exec_debug_write hs hg hh (by simp [Group.hasReg, hn, hrow, hcol]) val, rfl, rfl,
        State.task?_modTask s t.uid _ ht fun _ => rfl, Store.get_set_same .., fun key hkey => Store.get_set_ne _ _ hkey⟩
    · exact fun lane n hlane hn => exec_debug_read hs hg (by simp [Group.hasReg, hlane, hn])
    · exact fun n hn => exec_debug_read hs hg (by simp [Group.hasReg, hn])
    · exact fun k hk => exec_debug_read hs hg (by simp [Group.hasReg, hk])
    · exact fun n hn => exec_debug_read hs hg (by simp [Group.hasReg, hn])
    · rw [exec_debug_read hs hg rfl, Group.regValue]
      cases g.gsrE <;> cases g.gsrH <;> rfl

end Sys2Proof.Machine
end

section
/-! Submissions and completion records (R279 to R288). -/
namespace Sys2Proof.Machine

/-! ### What making a record durable leaves unchanged -/

/-- A state after a record was put into a queue: stores, the queues with their pools, the entries and the sequence. -/
def State.queuesOf (t s : State) : Prop :=
  t = { s with mem := t.mem, groups := t.groups, nextId := t.nextId, queues := t.queues, vis := t.vis, entries := t.entries, seqNo := t.seqNo }

theorem State.queuesOf_trans {u t s : State} (h : u.queuesOf t) (h' : t.queuesOf s) : u.queuesOf s := by
  rw [State.queuesOf] at h h' ⊢
  rw [h, h']

theorem State.queuesOf_of_stores {t s : State} (h : t.storesOf s) : t.queuesOf s := by
  rw [State.storesOf] at h
  rw [State.queuesOf, h]

theorem State.roomIn_queuesOf {s t : State} {vi q addr : Nat} (h : s.roomIn vi q = some (t, addr)) : t.queuesOf s := by
  unfold State.roomIn at h
  split at h
  · cases h
  · next qu hqu =>
    lift_lets at h
    extract_lets last v sq at h
    split at h
    · cases h
      rfl
    · split at h
      · cases h
      · next i hi =>
        extract_lets seg at h
        have h1 := s.freshSegment_storesOf vi seg (qu.segs.getD 0 0) (sq + 1)
        generalize s.freshSegment vi seg (qu.segs.getD 0 0) (sq + 1) = first at h h1
        obtain ⟨s1, ok1⟩ := first
        dsimp only at h h1
        have h2 : (if ok1 = true then s1.deviceForce vi last (leBytes 8 seg) else (s, false)).1.storesOf s := by
          split
          · exact State.storesOf_trans (s1.deviceForce_storesOf vi last (leBytes 8 seg)) h1
          · exact s.storesOf_refl
        generalize (if ok1 = true then s1.deviceForce vi last (leBytes 8 seg) else (s, false)) = second at h h2
        obtain ⟨s2, ok2⟩ := second
        dsimp only at h h2
        split at h
        · cases h
          exact State.queuesOf_trans (t := s2) rfl (State.queuesOf_of_stores h2)
        · cases h

theorem State.enqueue_queuesOf {s t : State} {vi q addr sq : Nat} {tag ptr : DWord} {flags : BitVec 32} {c : List Byte}
    (h : s.enqueue vi q tag ptr flags c = some (t, addr, sq)) : t.queuesOf s := by
  unfold State.enqueue at h
  split at h
  · cases h
  · split at h
    · cases h
    · next s1 at' hroom =>
      have h2 := s1.deviceForce_storesOf vi at' (entryBytes 1 tag s.seqNo ptr flags c)
      generalize s1.deviceForce vi at' (entryBytes 1 tag s.seqNo ptr flags c) = f at h h2
      obtain ⟨s2, ok⟩ := f
      cases ok
      · cases h
      · cases h
        exact State.queuesOf_trans (State.queuesOf_trans (t := s2) rfl (State.queuesOf_of_stores h2)) (State.roomIn_queuesOf hroom)

/-! ### Submissions -/

theorem satAt_eq_min (m x : Nat) : satAt m x = min m x := by
  rw [satAt]
  split <;> omega

/-- A grid that a submission asks for is the last one, and not dealt yet (R284). -/
theorem State.submit_grid {s u : State} {p : SubPage} {r : List Byte} (h : s.submit p r = .accepted u) (hkind : (subOf r).kind = 0) :
    ∃ g, u.grids = s.grids ++ [g] ∧ g.vi = p.vi ∧ g.page = p.page ∧ g.tag = (subOf r).tag ∧ g.dealt = false ∧ g.launchPtr = (subOf r).pointer ∧
      g.wanted = (subOf r).wanted := by
  unfold State.submit at h
  lift_lets at h
  extract_lets f ptr at h
  split at h
  · cases h
  · split at h
    · cases h
    · split at h
      · cases h
      · next s1 addr sq hq =>
        cases h
        rw [← show s1.grids = s.grids from (congrArg State.grids (State.enqueue_queuesOf hq) :)]
        exact ⟨_, rfl, rfl, rfl, rfl, rfl, rfl, rfl⟩

theorem State.submit_restarting {s : State} (p : SubPage) (r : List Byte) (h : s.host.restarting = true) : s.submit p r = .retry := by
  unfold State.submit
  rw [if_pos h]

theorem State.wake_eq {s : State} (h : s.host.power ≠ .idle) : s.wake = s := if_neg h

/-- The record of a submission that is refused or malformed is due where one is wanted (R283). -/
theorem State.immediate_spec (s : State) (p : SubPage) (r : List Byte) (status : Nat) : ∃ ds, s.immediate p r status = { s with dues := s.dues ++ ds } ∧
    (field r 5 1 % 2 = 0 → ds = []) ∧
    (field r 5 1 % 2 = 1 → ∃ d, ds = [d] ∧ d.vi = p.vi ∧ d.page = p.page ∧ d.tag = BitVec.ofNat 64 (field r 8 8) ∧ d.status = status) := by
  by_cases h : field r 5 1 % 2 = 1
  · exact ⟨_, if_pos (beq_iff_eq.mpr h), fun h0 => by omega, fun _ => ⟨_, rfl, rfl, rfl, rfl, rfl⟩⟩
  · refine ⟨[], ?_, fun _ => rfl, fun h1 => absurd h1 h⟩
    rw [List.append_nil]
    exact if_neg fun hw => h (beq_iff_eq.mp hw)

/-- A write to a submit window that is aborted, dropped or tried (R279 to R281, R345, R349). -/
theorem State.hostSubmit_tried {s : State} {vi page : Nat} {r : List Byte} {p : SubPage} (hp : s.page? vi page = some p) (hon : p.enabled = true)
    (hvi : (s.viOf vi).enabled = true) (hstage : s.host.stage = 3) :
    s.hostSubmit vi page r = if r.length ≠ 128 then s.dropWrite vi page else match s.hostTry p r with
      | some s1 => s1
      | none => if s.host.restarting then s.answer .retry else { s with host := { s.host with waiting := s.host.waiting ++ [⟨vi, page, r, s.tick.toNat⟩] } } := by
  rw [State.hostSubmit, hp]
  simp only [hon, hvi, State.booted_iff.mpr hstage]
  rfl

theorem State.hostTry_accepted {s u : State} {p : SubPage} {r : List Byte} (h : s.submit p r = .accepted u) (hp : u.host.power ≠ .idle) :
    s.hostTry p r = some (u.answer (.accept (BitVec.ofNat 64 (field r 8 8)))) := by
  unfold State.hostTry
  rw [h]
  dsimp only
  rw [State.wake_eq hp]
  rfl

theorem State.hostTry_retry {s : State} {p : SubPage} {r : List Byte} (h : s.submit p r = .retry) : s.hostTry p r = none := by
  unfold State.hostTry
  rw [h]

/-- A submission that waits is tried again (R281). -/
theorem State.hostSubmitRetry_tried {s : State} {vi page : Nat} {r : List Byte} {p : SubPage} {h : HostSub} {rest : List HostSub}
    (hw : takeSub vi page r s.host.waiting = some (h, rest)) (hp : s.page? vi page = some p) (hon : p.enabled = true) (hvi : (s.viOf vi).enabled = true) :
    s.hostSubmitRetry vi page r = match State.hostTry { s with host := { s.host with waiting := rest } } p r with
      | some u => u
      | none => if h.since + 200 ≤ s.tick.toNat then State.answer { s with host := { s.host with waiting := rest } } .retry else s := by
  rw [State.hostSubmitRetry, hw, hp]
  simp only [hon, hvi]
  rfl

/-! ### Completion records -/

theorem Due.bytes_length (d : Due) : d.bytes.length = 32 := by
  simp [Due.bytes, leBytes_length]

/-- The device writes a piece of this package's memory (R288). -/
theorem State.devicePut_home {s : State} {vi va0 va : Nat} {bs : List Byte} {tr : Trans} (hr : s.ranged schedulingCore vi .write false va0 bs.length = .ok [(va, bs.length, tr)])
    (ht : tr.home = true) (h0 : pieceOff va0 va = 0) : s.devicePut vi va0 bs = (s.deviceWrite tr.pa bs, true) := by
  obtain ⟨hremote, hrepl, hlost⟩ := (Trans.home_iff tr).mp ht
  rw [State.devicePut, hr]
  simp [hremote, hrepl, hlost, h0]

theorem State.page?_nextSlot (s : State) (p q : SubPage) {vi page : Nat} (hp : s.page? vi page = some p) (hq : (s.nextSlot p).page? vi page = some q) :
    q = { p with next := (p.next + 1) % 2 ^ p.slots } := by
  have hkey : p.vi = vi ∧ p.page = page := by simpa using List.find?_some hp
  obtain ⟨rfl, rfl⟩ := hkey
  have hsame : (s.nextSlot p).page? p.vi p.page = some { p with next := (p.next + 1) % 2 ^ p.slots } := find?_mapIf (fun _ => rfl) hp
  exact Option.some.inj (hq.symm.trans hsame)

/-- A completion record is written to the page's next slot (R288). -/
theorem State.completionWrite_spec {s : State} {vi page : Nat} {d : Due} {p : SubPage} {va : Nat} {tr : Trans}
    (hd : s.dues.find? (fun d => d.vi == vi && d.page == page) = some d) (hp : s.page? vi page = some p) (hfree : s.slotFree p = true)
    (hr : s.ranged schedulingCore vi .write false p.slotAddr 32 = .ok [(va, 32, tr)]) (ht : tr.home = true) (h0 : pieceOff p.slotAddr va = 0) :
    ∃ u : State, s.completionWrite vi page = u.afterRecord d ∧ (∀ a, u.mem.byte a = (s.deviceWrite tr.pa d.bytes).mem.byte a) ∧
      u.dues = dropDue vi page s.dues ∧ u.host.interrupts = s.host.interrupts ++ d.interruptOf (s.viOf vi).uintBase ∧
      ∀ q, u.page? vi page = some q → q = { p with next := (p.next + 1) % 2 ^ p.slots } := by
  have hput : s.devicePut vi p.slotAddr d.bytes = (s.deviceWrite tr.pa d.bytes, true) :=
    State.devicePut_home (by rw [Due.bytes_length]; exact hr) ht h0
  have hkeeps := s.deviceWrite_storesOf tr.pa d.bytes
  have hwrite : s.completionWrite vi page = State.afterRecord
      (let s2 := ({ s.deviceWrite tr.pa d.bytes with dues := dropDue vi page (s.deviceWrite tr.pa d.bytes).dues } : State).nextSlot p
       { s2 with host := { s2.host with interrupts := s2.host.interrupts ++ d.interruptOf (s2.viOf vi).uintBase } }) d := by
    rw [State.completionWrite, hd, hp]
    simp only [hfree, hput]
    rfl
  generalize s.deviceWrite tr.pa d.bytes = t at hkeeps hwrite
  refine ⟨_, hwrite, fun a => rfl, ?_, ?_, fun q hq => ?_⟩
  · show dropDue vi page t.dues = _
    rw [(congrArg State.dues hkeeps :)]
  · show t.host.interrupts ++ d.interruptOf (t.viOf vi).uintBase = _
    rw [(congrArg State.host hkeeps :), State.viOf, State.vi?, (congrArg State.vis hkeeps :)]
    rfl
  · refine State.page?_nextSlot _ p q ?_ hq
    rw [← hp]
    exact congrArg (List.find? _) (congrArg State.pages hkeeps :)

/-- Settles O46. -/
theorem submissions : Obligations.Submissions := by
  unfold Obligations.Submissions
  have hdrop : ∀ (s : State) vi page, s.dropWrite vi page = { s with
      pages := s.pages.map (fun p => if p.vi = vi ∧ p.page = page then { p with drops := min (2 ^ 64 - 1) (p.drops + 1) } else p) } := by
    intro s vi page
    simp [State.dropWrite, modWhere, satAt_eq_min]
  refine ⟨fun s vi page => congrArg _ (hdrop s vi page), fun s vi page r => ⟨fun hnone => ?_, fun p hp => ⟨fun hoff => ?_, fun hon hvi hstage hlen => ?_⟩⟩,
    fun s vi page r p hlen hp => ⟨fun hon hstopped => ?_, fun hon hvi hstage => ⟨fun u hu hpower => ⟨?_, fun hkind => ?_⟩, fun status hstatus => ?_, fun hrestart => ?_, fun hretry hrun => ?_⟩,
      fun hnone => ?_, fun h rest hw hon hvi => ⟨fun u hu hpower => ?_, fun hretry => ?_⟩⟩,
    fun s gid g since hg hhold => ⟨fun hlate => ?_, fun hearly => ?_⟩, fun s vi page d p va tr hd hp => ⟨fun hfull => ?_, fun hfree hr ht h0 => ?_⟩⟩
  · rw [exec_hostSubmission, execHostSubmission, State.hostSubmit, hnone]
    rfl
  · rw [exec_hostSubmission, execHostSubmission, State.hostSubmit, hp]
    simp only [hoff, Bool.not_false, if_true, State.answer, hdrop]
  · rw [exec_hostSubmission, execHostSubmission, State.hostSubmit_tried hp hon hvi hstage, if_pos hlen]
    rfl
  · rw [exec_hostSubmission, execHostSubmission, State.hostSubmit, hp]
    have hstop : (!(s.viOf vi).enabled || !s.booted) = true := by
      rcases hstopped with h | h
      · rw [h]; rfl
      · rw [State.not_booted h, Bool.not_false, Bool.or_true]
    simp only [hon, Bool.not_true, hstop, if_true]
    rfl
  · rw [exec_hostSubmission, execHostSubmission, State.hostSubmit_tried hp hon hvi hstage, if_neg (not_not.mpr hlen), State.hostTry_accepted hu hpower]
    rfl
  · obtain ⟨g, hgrids, hgvi, hgpage, hgtag, hdealt, hptr, hwanted⟩ := State.submit_grid hu hkind
    refine ⟨g, hgrids, hgvi, hgpage, hgtag, hdealt, hptr, hwanted.trans ?_⟩
    rw [← beq_eq_decide]
    rfl
  · rw [exec_hostSubmission, execHostSubmission, State.hostSubmit_tried hp hon hvi hstage, if_neg (not_not.mpr hlen)]
    obtain ⟨ds, himm, hnot, hwanted⟩ := s.immediate_spec p r status
    refine ⟨ds, ?_, hnot, hwanted⟩
    have htry : s.hostTry p r = some ((s.immediate p r status).answer (.accept (BitVec.ofNat 64 (field r 8 8)))) := by
      unfold State.hostTry
      rcases hstatus with ⟨h, rfl⟩ | ⟨h, rfl⟩ <;> rw [h] <;> rfl
    rw [htry, himm]
    rfl
  · rw [exec_hostSubmission, execHostSubmission, State.hostSubmit_tried hp hon hvi hstage, if_neg (not_not.mpr hlen),
      State.hostTry_retry (State.submit_restarting p r hrestart), hrestart]
    rfl
  · rw [exec_hostSubmission, execHostSubmission, State.hostSubmit_tried hp hon hvi hstage, if_neg (not_not.mpr hlen), State.hostTry_retry hretry, hrun]
    rfl
  · rw [exec_hostSubmissionRetry, execHostSubmissionRetry, State.hostSubmitRetry, hnone]
  · rw [exec_hostSubmissionRetry, execHostSubmissionRetry, State.hostSubmitRetry_tried hw hp hon hvi, State.hostTry_accepted hu hpower]
    rfl
  · rw [exec_hostSubmissionRetry, execHostSubmissionRetry, State.hostSubmitRetry_tried hw hp hon hvi, State.hostTry_retry hretry]
    rfl
  · refine ⟨_, rfl, ?_⟩
    rw [State.groupSubmitRetry, hg]
    simp only [hhold, if_pos hlate]
    exact State.setGroup_onlyGroup (h := { g with hold := .answer }) (by rw [← State.group?_gid hg] at hg; exact hg)
  · rw [exec_groupSubmissionRetry, execGroupSubmissionRetry, State.groupSubmitRetry, hg]
    simp only [hhold, if_neg (Nat.not_le.mpr hearly)]
  · rw [exec_completionRecordWrite, execCompletionRecordWrite, State.completionWrite, hd, hp]
    simp only [hfull]
    rfl
  · obtain ⟨u, hu, hbytes, hdues, hints, hpage⟩ := State.completionWrite_spec hd hp hfree hr ht h0
    refine ⟨u, congrArg _ hu, fun j hj => ?_, fun pa hpa => ?_, hdues, hints, hpage⟩
    · rw [hbytes, State.byte_deviceWrite, Due.bytes_length, if_pos (by omega), Nat.add_sub_cancel_left]
    · rw [hbytes, State.byte_deviceWrite, Due.bytes_length, if_neg (by omega)]

end Sys2Proof.Machine
end

section
/-! The registry's messages, evictions and spills (R254 to R258, R277, R278). -/
namespace Sys2Proof.Machine

/-! ### Registrations that end -/

@[simp] theorem wordOf_wordOf (pa : Nat) : wordOf (wordOf pa) = wordOf pa := by
  simp [wordOf]

/-- A registry without the words that a test names. -/
theorem Mem.reg?_without (m : Mem) (t : Nat → Bool) (k : Nat) :
    Mem.reg? { m with regs := m.regs.filter (fun r => !t r.pa) } k = if t k = true then none else m.reg? k := by
  rw [Mem.reg?, Mem.reg?, List.find?_filter]
  split
  · next ht =>
    rw [List.find?_eq_none]
    intro r _ h
    simp only [decide_eq_true_eq, Bool.not_eq_true', beq_iff_eq] at h
    obtain ⟨hr, rfl⟩ := h
    rw [ht] at hr
    cases hr
  · next ht =>
    congr 1
    funext r
    by_cases hr : r.pa = k
    · rw [hr, Bool.not_eq_true _ |>.mp ht]
      simp
    · simp [hr]

theorem Mem.byte_without (m : Mem) (t : Nat → Bool) (a : Nat) :
    Mem.byte { m with regs := m.regs.filter (fun r => !t r.pa) } a = if t (wordOf a) = true then m.bytes.get a else m.byte a := by
  rw [Mem.byte, Mem.reg?_without]
  by_cases ht : t (wordOf a) = true
  · rw [if_pos ht, if_pos ht]
  · rw [if_neg ht, if_neg ht]
    rfl

/-- What registrations that end leave as software reads it: a word whose home is lost has what the home held (R256, R274). -/
theorem State.byte_giveBack (s : State) {ws : List Nat} (hws : ∀ p ∈ ws, p % 4 = 0) (a : Nat) :
    (s.giveBack ws).mem.byte a = if (ws.contains (wordOf a) && s.homeLost (wordOf a)) = true then s.mem.bytes.get a else s.mem.byte a :=
  (Mem.byte_writeBackAll _ _ (fun p hp => hws p (List.mem_of_mem_filter hp)) a).trans (s.mem.byte_without (fun k => ws.contains k && s.homeLost k) a)

theorem State.reg?_giveBack (s : State) {ws : List Nat} {k : Nat} (hk : k ∈ ws) (h : s.ownerPath k = true ∨ s.homeLost k = true) :
    (s.giveBack ws).mem.reg? k = none := by
  refine Mem.reg?_writeBackAll _ _ (h.imp (fun hpath => List.mem_filter.mpr ⟨hk, hpath⟩) fun hlost => ?_)
  rw [s.mem.reg?_without (fun k => ws.contains k && s.homeLost k), if_pos]
  simp [hk, hlost]

theorem State.giveBack_frame (s : State) (ws : List Nat) :
    s.giveBack ws = { s with mem := { s.mem with bytes := (s.giveBack ws).mem.bytes, regs := (s.giveBack ws).mem.regs } } :=
  congrArg (fun m : Mem => ({ s with mem := m } : State)) (Mem.writeBackAll_frame _ _)

/-- A registration that neither reaches its home nor is lost with it stays (R19). -/
theorem State.giveBack_cut {s : State} {k : Nat} (hpath : s.ownerPath k = false) (hlost : s.homeLost k = false) : s.giveBack [k] = s := by
  have hregs : s.mem.regs.filter (fun r => !([k].contains r.pa && s.homeLost r.pa)) = s.mem.regs := by
    refine List.filter_eq_self.mpr fun r _ => ?_
    by_cases hr : r.pa = k
    · rw [hr, hlost, Bool.and_false, Bool.not_false]
    · simp [hr]
  rw [State.giveBack, hregs]
  simp [hpath, Mem.writeBackAll]

/-- One registration ends (R256). -/
theorem State.giveBack_one (s : State) {k : Nat} (hpath : s.ownerPath k = true) : s.giveBack [k] =
    { s with mem := if s.homeLost k = true then { s.mem with regs := s.mem.regs.filter (fun r => r.pa != k) } else s.mem.writeBack k } := by
  have hws : [k].filter s.ownerPath = [k] := by simp [hpath]
  by_cases hlost : s.homeLost k = true
  · have hregs : s.mem.regs.filter (fun r => !([k].contains r.pa && s.homeLost r.pa)) = s.mem.regs.filter (fun r => r.pa != k) := by
      refine List.filter_congr fun r _ => ?_
      by_cases hr : r.pa = k
      · simp [hr, hlost]
      · simp [hr]
    rw [State.giveBack, hregs, hws, if_pos hlost]
    have hnone : Mem.reg? { s.mem with regs := s.mem.regs.filter (fun r => r.pa != k) } k = none := by
      simp [Mem.reg?, List.find?_eq_none]
    show ({ s with mem := Mem.writeBack { s.mem with regs := s.mem.regs.filter (fun r => r.pa != k) } k } : State) = _
    rw [Mem.writeBack, hnone]
  · have hregs : s.mem.regs.filter (fun r => !([k].contains r.pa && s.homeLost r.pa)) = s.mem.regs := by
      refine List.filter_eq_self.mpr fun r _ => ?_
      by_cases hr : r.pa = k
      · simp [hr, hlost]
      · simp [hr]
    rw [State.giveBack, hregs, hws, if_neg hlost]
    rfl

/-! ### Registration -/

theorem Mem.renew_regs (m : Mem) (core pw : Nat) : (m.renew core pw).regs = m.regs := by
  unfold Mem.renew Mem.setStashCopy
  refine foldl_keeps (fun n : Mem => n.regs = m.regs) _ (fun _ _ hb => ?_) _ _ rfl
  exact hb

/-- The word that a write leaves registered (R254, R255). -/
theorem State.reg?_storeWord {s : State} (plain : Option Writer) {ag : Agent} {pa : Nat} (mask : BitVec 4) (val : Word)
    (hown : ∀ r, s.mem.reg? (wordOf pa) = some r → r.owner = ag) :
    ∃ r, (s.storeWord plain ag pa mask val).mem.reg? (wordOf pa) = some r ∧ r.owner = ag ∧ r.released = none := by
  have hcede : s.mem.cede ag (wordOf pa) = s.mem := by
    rw [Mem.cede]
    split
    · next r hr => rw [if_pos (hown r hr)]
    · rfl
  have howner : (s.mem.regFor ag (wordOf pa)).owner = ag := by
    rw [Mem.regFor]
    cases hr : s.mem.reg? (wordOf pa) with
    | none => rfl
    | some r => exact hown r hr
  have hreg : (s.mem.register plain ag (wordOf pa) mask val).reg? (wordOf pa) = some ((s.mem.regFor ag (wordOf pa)).write plain mask val) := by
    rw [Mem.register, hcede]
    exact find?_upsert _ (fun r : Reg => r.pa == wordOf pa) _ (beq_iff_eq.mpr (Mem.regFor_pa ..))
  refine ⟨(s.mem.regFor ag (wordOf pa)).write plain mask val, ?_, howner, rfl⟩
  rw [State.storeWord, State.watch_mem, ← hreg]
  dsimp only
  split
  · exact congrArg (List.find? _) (Mem.renew_regs _ _ _)
  · rfl

/-- A request that arrives and meets no other owner (R255). -/
theorem State.request_served {s : State} {ag : Agent} {pa : Nat} (mask : BitVec 4) (val : Word) (hok : s.wordOk (wordOf pa) = true)
    (hfree : s.revoke? (wordOf pa) = none) (hpath : s.path (agentDie ag) (homeDie (wordOf pa)) = true)
    (hown : ∀ r, s.mem.reg? (wordOf pa) = some r → r.owner = ag) : s.request ag pa mask val = s.storeWord (some (agentWriter ag)) ag (wordOf pa) mask val := by
  rw [State.request]
  simp only [hok, hfree, hpath]
  cases hr : s.mem.reg? (wordOf pa) with
  | none => rfl
  | some r => exact if_pos (hown r hr)

/-- The copies of a core after a forward (R255, R267). -/
theorem State.forward_copies {s : State} {ag : Agent} {pa c : Nat} {r : Reg} (hr : s.mem.reg? (wordOf pa) = some r) (hc : agentCore ag = some c) (hne : r.owner ≠ ag)
    (h1 : s.path (agentDie ag) (homeDie (wordOf pa)) = true) (h2 : s.path (agentDie r.owner) (homeDie (wordOf pa)) = true)
    (h3 : s.path (agentDie r.owner) (agentDie ag) = true) :
    let new := s.mem.copies.map (fun x => if x.core = c ∧ x.pa = wordOf pa then { x with value := s.mem.word (wordOf pa) } else x)
    let m := { s.mem with copies := new }
    s.forward ag pa = { s with mem := { s.mem with copies :=
      if (m.copyOf c (wordOf pa)).isSome && m.stale c (sibling (wordOf pa)) then new.filter (fun y => !(y.core == c && y.pa == sibling (wordOf pa))) else new } } := by
  intro new m
  have hown : s.ownerPath (wordOf pa) = true := by rw [State.ownerPath, hr]; exact h2
  have hnew : modWhere s.mem.copies (fun x => x.core == c && x.pa == wordOf pa) (fun x => { x with value := s.mem.word (wordOf pa) }) = new := by
    simp [modWhere, new]
  rw [State.forward, hr, hc]
  dsimp only
  rw [hnew, if_neg (by simp [hne, h1, hown, h3])]
  show ({ s with mem := if (m.copyOf c (wordOf pa)).isSome && m.stale c (sibling (wordOf pa)) then m.dropCopy c (sibling (wordOf pa)) else m } : State) = _
  split <;> rfl

theorem Mem.stale_iff_first (m : Mem) (core pw : Nat) : m.stale core pw = true ↔ ∃ y, m.copyOf core pw = some y ∧ y.value ≠ m.word pw := by
  simp [Mem.stale, Option.any_eq_true]

theorem Mem.copyOf_some {m : Mem} {core pw : Nat} {y : Copy} (h : m.copyOf core pw = some y) : y ∈ m.copies ∧ y.core = core ∧ y.pa = pw := by
  have hkey := List.find?_some h
  simp only [Bool.and_eq_true, beq_iff_eq] at hkey
  exact ⟨List.mem_of_find?_eq_some h, hkey⟩

theorem Mem.copyOf_isSome {m : Mem} {core pw : Nat} : (m.copyOf core pw).isSome = true ↔ ∃ x ∈ m.copies, x.core = core ∧ x.pa = pw := by
  simp [Mem.copyOf]

/-- When an older copy of the other half goes (R267), and when nothing goes. -/
theorem forward_drops {m : Mem} {c pw : Nat} {k : List Copy} (hk : k = m.copies.filter (fun y => !(y.core == c && y.pa == sibling pw))) :
    ((∃ x ∈ m.copies, x.core = c ∧ x.pa = pw) → (∀ y ∈ m.copies, y.core = c → y.pa = sibling pw → y.value ≠ m.word (sibling pw)) →
      (if (m.copyOf c pw).isSome && m.stale c (sibling pw) then k else m.copies) = k) ∧
    ((∀ x ∈ m.copies, x.core = c → x.pa ≠ pw) ∨ (∀ y ∈ m.copies, y.core = c → y.pa = sibling pw → y.value = m.word (sibling pw)) →
      (if (m.copyOf c pw).isSome && m.stale c (sibling pw) then k else m.copies) = m.copies) := by
  refine ⟨fun hhas hold => ?_, fun hnot => if_neg fun h => ?_⟩
  · rw [Mem.copyOf_isSome.mpr hhas, Bool.true_and]
    split
    · rfl
    · next hfresh =>
      refine (hk.trans (List.filter_eq_self.mpr fun y hy => ?_)).symm
      by_contra hkey
      simp only [Bool.not_eq_true', Bool.and_eq_false_iff, beq_eq_false_iff_ne, not_or, not_not] at hkey
      obtain ⟨y', hy'⟩ := Option.isSome_iff_exists.mp (Mem.copyOf_isSome.mpr ⟨y, hy, hkey⟩)
      obtain ⟨hmem, hcore, hpa⟩ := Mem.copyOf_some hy'
      exact hfresh ((m.stale_iff_first c (sibling pw)).mpr ⟨y', hy', hold y' hmem hcore hpa⟩)
  · rw [Bool.and_eq_true, Mem.copyOf_isSome, Mem.stale_iff_first] at h
    obtain ⟨⟨x, hx, hcore, hpa⟩, y, hy, hvalue⟩ := h
    obtain ⟨hmem, hycore, hypa⟩ := Mem.copyOf_some hy
    exact hnot.elim (fun hn => hn x hx hcore hpa) (fun hn => hvalue (hn y hmem hycore hypa))

/-- The end of a revocation that no request waits for. -/
theorem State.serve_none {s : State} {v : Revoke} (h : v.req = none) :
    s.serve v = { s with mem := { s.mem with revokes := s.mem.revokes.filter (fun r => r.pa != v.pa) } } := by
  rw [State.serve, h]

theorem State.serve_some {s : State} {v : Revoke} {ag : Agent} {mask : BitVec 4} {val : Word} (h : v.req = some (ag, mask, val)) :
    s.serve v = State.storeWord { s with mem := { s.mem with revokes := s.mem.revokes.filter (fun r => r.pa != v.pa) } } (some (agentWriter ag)) ag v.pa mask val := by
  rw [State.serve, h]

/-- The answers to a revocation, of the owner that still holds the word or no more does (R277). -/
theorem State.answers {s : State} {pa : Nat} {v : Revoke} (hv : s.revoke? (wordOf pa) = some v) (hpath : s.path (agentDie v.owner) (homeDie (wordOf pa)) = true) :
    v.pa = wordOf pa ∧
    (s.stillHeld v = true → s.writtenBack pa = (s.giveBack [wordOf pa]).serve v ∧ s.notHeld pa = s ∧ s.ownerPath (wordOf pa) = true) ∧
    (s.stillHeld v = false → s.notHeld pa = s.serve v ∧ s.writtenBack pa = s) := by
  have hpa : v.pa = wordOf pa := by simpa using List.find?_some hv
  have hanswer : s.answerRevoke v = if s.stillHeld v = true then (s.giveBack [wordOf pa]).serve v else s.serve v := by
    rw [State.answerRevoke, hpa, hpath]
    rfl
  refine ⟨hpa, fun hheld => ⟨?_, ?_, ?_⟩, fun hgone => ⟨?_, ?_⟩⟩
  · rw [State.writtenBack, hv]
    dsimp only
    rw [if_pos hheld, hanswer, if_pos hheld]
  · rw [State.notHeld, hv]
    exact if_pos hheld
  · rw [State.stillHeld, hpa, Option.any_eq_true] at hheld
    obtain ⟨r, hr, howner⟩ := hheld
    rw [State.ownerPath, hr, Option.all_some, beq_iff_eq.mp howner]
    exact hpath
  · rw [State.notHeld, hv]
    dsimp only
    rw [if_neg (by rw [hgone]; decide), hanswer, if_neg (by rw [hgone]; decide)]
  · rw [State.writtenBack, hv]
    exact if_neg (by rw [hgone]; decide)

theorem State.answers_cut {s : State} {pa : Nat} {v : Revoke} (hv : s.revoke? (wordOf pa) = some v) (hpath : s.path (agentDie v.owner) (homeDie (wordOf pa)) = false) :
    s.writtenBack pa = s ∧ s.notHeld pa = s := by
  have hpa : v.pa = wordOf pa := by simpa using List.find?_some hv
  have hanswer : s.answerRevoke v = s := by
    rw [State.answerRevoke, hpa, hpath]
    rfl
  rw [State.writtenBack, State.notHeld, hv]
  simp only [hanswer, ite_self, and_self]

theorem State.evict_spec (s : State) (ag : Agent) (pa : Nat) (hwf : Memory.wf s.mem = true) :
    ((∀ r ∈ s.mem.regs, s.homeLost r.pa = false) → ∀ a, (s.evict ag pa).mem.byte a = s.mem.byte a) ∧
    ((∀ r ∈ s.mem.regs, s.ownerPath r.pa = true) → ∀ r ∈ (s.evict ag pa).mem.regs, ¬(r.owner = ag ∧ alignDown r.pa 128 = alignDown pa 128)) ∧
    s.evict ag pa = { s with mem := { s.mem with bytes := (s.evict ag pa).mem.bytes, regs := (s.evict ag pa).mem.regs, copies := (s.evict ag pa).mem.copies } } := by
  obtain ⟨-, -, -, -, -, haligned⟩ := Memory.wf_iff.mp hwf
  have hlist : ∃ ws, ws = (s.mem.regs.filter (fun r => r.owner == ag && alignDown r.pa 128 == alignDown pa 128)).map (fun r => r.pa) := ⟨_, rfl⟩
  obtain ⟨ws, hws⟩ := hlist
  have hevict : ∃ cs, s.evict ag pa = { s.giveBack ws with mem := { (s.giveBack ws).mem with copies := cs } } := ⟨_, by rw [hws]; rfl⟩
  obtain ⟨cs, hevict⟩ := hevict
  have hmem : ∀ p ∈ ws, ∃ r ∈ s.mem.regs, r.pa = p := by
    rw [hws]
    intro p hp
    obtain ⟨r, hr, rfl⟩ := List.mem_map.mp hp
    exact ⟨r, List.mem_of_mem_filter hr, rfl⟩
  have hws4 : ∀ p ∈ ws, p % 4 = 0 := fun p hp => by
    obtain ⟨r, hr, rfl⟩ := hmem p hp
    exact haligned r hr
  refine ⟨fun hhomes a => ?_, fun hpaths r hr => ?_, ?_⟩
  · rw [hevict]
    refine (s.byte_giveBack hws4 a).trans (if_neg fun h => ?_)
    rw [Bool.and_eq_true, List.contains_iff_mem] at h
    obtain ⟨hin, hlost⟩ := h
    obtain ⟨q, hq, hpa⟩ := hmem _ hin
    rw [← hpa, hhomes q hq] at hlost
    cases hlost
  · rintro ⟨howner, hline⟩
    rw [hevict] at hr
    have hregs : r ∈ s.mem.regs := List.mem_of_mem_filter ((Mem.regs_writeBackAll_sublist _ _).subset hr)
    have hin : r.pa ∈ ws := by
      rw [hws]
      exact List.mem_map_of_mem (List.mem_filter.mpr ⟨hregs, by simp [howner, hline]⟩)
    have hnone := s.reg?_giveBack hin (.inl (hpaths r hregs))
    exact List.find?_eq_none.mp hnone r hr (beq_self_eq_true _)
  · rw [hevict, s.giveBack_frame ws]

theorem State.spill_spec (s : State) (pa : Nat) (hwf : Memory.wf s.mem = true) :
    s.spill pa = { s with mem := { s.mem with bytes := (s.spill pa).mem.bytes, regs := (s.spill pa).mem.regs } } ∧
    (∀ r ∈ (s.spill pa).mem.regs, alignDown r.pa 128 = alignDown pa 128 → r.spilled = true) ∧
    ((s.mem.regs.map Reg.pa).Nodup → ∀ a, (s.spill pa).mem.byte a = s.mem.byte a) := by
  obtain ⟨-, -, -, -, -, haligned⟩ := Memory.wf_iff.mp hwf
  have hspill : ∃ ws, (∀ p ∈ ws, p % 4 = 0) ∧ s.spill pa = { s with mem := (s.mem.spilled (alignDown pa 128)).writeBackAll ws } := by
    refine ⟨_, fun p hp => ?_, rfl⟩
    obtain ⟨r, hr, rfl⟩ := List.mem_map.mp (List.mem_of_mem_take (List.mem_of_mem_filter hp))
    exact haligned r (List.mem_of_mem_filter (List.mem_of_mem_filter hr))
  obtain ⟨ws, hws, hspill⟩ := hspill
  rw [hspill]
  refine ⟨?_, fun r hr hline => ?_, fun hnodup a => (Mem.byte_writeBackAll _ ws hws a).trans (Mem.byte_spilled hnodup _ a)⟩
  · exact congrArg (fun m : Mem => ({ s with mem := m } : State)) ((s.mem.spilled (alignDown pa 128)).writeBackAll_frame ws)
  · obtain hr | hr := List.mem_append.mp ((Mem.regs_writeBackAll_sublist _ ws).subset hr)
    · obtain ⟨-, hkept⟩ := List.mem_filter.mp hr
      simpa [hline] using hkept
    · obtain ⟨q, -, rfl⟩ := List.mem_map.mp hr
      rfl

/-- Settles O47. -/
theorem registry : Obligations.Registry := by
  unfold Obligations.Registry
  refine ⟨fun s ag pa mask val hok hfree => ⟨fun hcut => ?_, fun hpath hown => ?_, fun r hr hne hpath => ?_, fun r hr => ?_⟩,
    fun s pa v hv hcut => ⟨congrArg Host.Outcome.next (State.answers_cut hv hcut).1, congrArg Host.Outcome.next (State.answers_cut hv hcut).2⟩,
    fun s pa v hv hreq hpath => ⟨fun hheld => ?_, fun hgone => ?_⟩, fun s pa v ag mask val hv hreq hpath => ?_, fun s ag pa r c hr hc hne h1 h2 h3 => ?_,
    fun s pa hpath hlost => congrArg Host.Outcome.next (State.giveBack_cut hpath hlost), fun s pa hend => ?_, fun s ag pa hwf => ?_, fun s pa hwf => ?_⟩
  · rw [exec_registrationRequest, execRegistrationRequest, State.request]
    simp only [hcut, Bool.not_false, Bool.or_true, if_true]
  · refine ⟨_, congrArg Host.Outcome.next (State.request_served mask val hok hfree hpath hown), ?_, fun j hj => ?_, fun a ha => ?_, (State.storeWord_afterStores ..).beside⟩
    · have hreg := State.reg?_storeWord (some (agentWriter ag)) (pa := wordOf pa) mask val (by rwa [wordOf_wordOf])
      rwa [wordOf_wordOf] at hreg
    · have hword : wordOf (wordOf pa + j) = wordOf pa ∧ (wordOf pa + j) % 4 = j := by
        have := wordOf_aligned pa
        simp only [wordOf] at this ⊢
        omega
      rw [State.byte_storeWord, wordOf_wordOf, hword.1, hword.2]
      simp only [true_and]
    · rw [State.byte_storeWord, wordOf_wordOf, if_neg fun h => ha h.1]
  · rw [exec_registrationRequest, execRegistrationRequest, State.request]
    simp only [hok, hfree, hpath, hr, if_neg hne]
    rfl
  · rw [exec_revocation, execRevocation, State.revoke]
    simp only [hfree, hr]
    rfl
  · obtain ⟨hpa, hhas, -⟩ := State.answers hv hpath
    obtain ⟨hback, hkept, hown⟩ := hhas hheld
    refine ⟨_, congrArg Host.Outcome.next (hback.trans (State.serve_none hreq)), s.reg?_giveBack List.mem_cons_self (.inl hown), fun a => ?_, ?_, ?_, congrArg Host.Outcome.next hkept⟩
    · refine (s.byte_giveBack (ws := [wordOf pa]) (fun p hp => by rw [List.mem_singleton.mp hp]; exact wordOf_aligned pa) a).trans ?_
      by_cases ha : wordOf a = wordOf pa
      · simp [ha]
      · simp [ha]
    · rw [hpa, s.giveBack_frame]
    · rw [s.giveBack_frame]
  · obtain ⟨hpa, -, hnot⟩ := State.answers hv hpath
    obtain ⟨hserved, hkept⟩ := hnot hgone
    exact ⟨congrArg Host.Outcome.next (by rw [hserved, State.serve_none hreq, hpa]), congrArg Host.Outcome.next hkept⟩
  · obtain ⟨hpa, hhas, hnot⟩ := State.answers hv hpath
    by_cases hheld : s.stillHeld v = true
    · obtain ⟨hback, -, hown⟩ := hhas hheld
      rw [if_pos hheld, hheld, exec_writtenBack, execWrittenBack, hback, State.serve_some hreq, s.giveBack_one hown, hpa]
      dsimp only
      by_cases hlost : s.homeLost (wordOf pa) = true
      · simp only [if_pos hlost]
      · simp only [if_neg hlost, (congrArg Mem.revokes (s.mem.writeBack_frame (wordOf pa)) :)]
    · rw [Bool.not_eq_true] at hheld
      obtain ⟨hserved, -⟩ := hnot hheld
      rw [hheld, if_neg (by decide), exec_notHeld, execNotHeld, hserved, State.serve_some hreq, hpa]
  · refine ⟨_, congrArg Host.Outcome.next (State.forward_copies hr hc hne h1 h2 h3), ?_⟩
    exact forward_drops (m := { s.mem with copies := _ }) rfl
  · refine ⟨_, congrArg Host.Outcome.next (s.giveBack_frame [wordOf pa]), s.reg?_giveBack List.mem_cons_self hend, fun a => ?_, rfl⟩
    refine (s.byte_giveBack (ws := [wordOf pa]) (fun p hp => by rw [List.mem_singleton.mp hp]; exact wordOf_aligned pa) a).trans ?_
    by_cases ha : wordOf a = wordOf pa
    · simp [ha]
    · simp [ha]
  · obtain ⟨hbytes, hregs, hframe⟩ := s.evict_spec ag pa hwf
    exact ⟨_, congrArg Host.Outcome.next hframe, hbytes, hregs, rfl⟩
  · obtain ⟨hframe, hspilled, hbytes⟩ := s.spill_spec pa hwf
    exact ⟨_, congrArg Host.Outcome.next hframe, rfl, hspilled, hbytes⟩

end Sys2Proof.Machine
end

section
/-! Keys and places (R292 to R296). -/
namespace Sys2Proof.Machine

/-! ### Keys -/

theorem State.keyHome_eq {s : State} {vi : Nat} (k : Nat) (hshare : (s.viOf vi).keyShare ≠ 0) (hlive : s.liveDies ≠ []) :
    s.keyHome vi k = if (s.viOf vi).keyBase + k * 0x9E3779B1 % 2 ^ 32 % 2 ^ 30 % (s.viOf vi).keyShare < 4096 then
      s.liveDies[k * 0x9E3779B1 % 2 ^ 32 / 2 ^ 30 % s.liveDies.length]?.map (fun d => (d, (s.viOf vi).keyBase + k * 0x9E3779B1 % 2 ^ 32 % 2 ^ 30 % (s.viOf vi).keyShare))
      else none := by
  have hlen : k * 0x9E3779B1 % 2 ^ 32 / 2 ^ 30 % s.liveDies.length < s.liveDies.length := Nat.mod_lt _ (List.length_pos_iff.mpr hlive)
  rw [State.keyHome]
  by_cases he : (s.viOf vi).keyBase + k * 0x9E3779B1 % 2 ^ 32 % 2 ^ 30 % (s.viOf vi).keyShare < 4096
  · rw [if_neg (by simp only [hshare, hlive, false_or]; omega), if_pos he, List.getElem?_eq_getElem hlen, List.getD_eq_getElem _ _ hlen]
    rfl
  · rw [if_pos (.inr (.inr (by omega))), if_neg he]

theorem Task.older_iff (a b : Task) : a.older b = true ↔ a.seqNo < b.seqNo ∨ a.seqNo = b.seqNo ∧ a.linear < b.linear := by
  simp [Task.older]

theorem Task.older_irrefl (a : Task) : a.older a = false := by
  rw [← Bool.not_eq_true, Task.older_iff]
  omega

theorem Task.older_trans {a b c : Task} (h : a.older b = true) (h' : b.older c = true) : a.older c = true := by
  rw [Task.older_iff] at *
  omega

/-- One that is not older than a record is not older than an older record. -/
theorem Task.not_older_of_older {a b c : Task} (h : c.older b = false) (h' : a.older b = true) : c.older a = false := by
  rw [← Bool.not_eq_true, Task.older_iff] at *
  omega

/-- The choice among the reservations of an entry (R294). -/
def State.oldestOf (s : State) (b : Option (Task × Nat)) (r : Nat × Nat) : Option (Task × Nat) :=
  match s.task? r.1, b with
  | some t, some (u, k) => if t.older u then some (t, r.2) else some (u, k)
  | some t, none => some (t, r.2)
  | none, b => b

theorem State.oldestOf_none {s : State} {r : Nat × Nat} (b : Option (Task × Nat)) (h : s.task? r.1 = none) : s.oldestOf b r = b := by
  unfold State.oldestOf
  rw [h]

theorem State.oldestOf_first {s : State} {r : Nat × Nat} {t : Task} (h : s.task? r.1 = some t) : s.oldestOf none r = some (t, r.2) := by
  unfold State.oldestOf
  rw [h]

theorem State.oldestOf_next {s : State} {r : Nat × Nat} {t : Task} (e : Task × Nat) (h : s.task? r.1 = some t) :
    s.oldestOf (some e) r = if t.older e.1 = true then some (t, r.2) else some e := by
  unfold State.oldestOf
  rw [h]

/-- A record is the oldest of those that reserve. -/
def State.oldestIn (s : State) (l : List (Nat × Nat)) (u : Task) (j : Nat) : Prop :=
  (∃ r ∈ l, s.task? r.1 = some u ∧ r.2 = j) ∧ ∀ r ∈ l, ∀ t, s.task? r.1 = some t → t.older u = false

/-- What was chosen among some reservations is the oldest record's, or none where no record reserves. -/
def State.chosen (s : State) (l : List (Nat × Nat)) : Option (Task × Nat) → Prop
  | none => ∀ r ∈ l, s.task? r.1 = none
  | some e => s.oldestIn l e.1 e.2

theorem State.chosen_oldestOf {s : State} {l : List (Nat × Nat)} {b : Option (Task × Nat)} (r : Nat × Nat) (h : s.chosen l b) : s.chosen (l ++ [r]) (s.oldestOf b r) := by
  have hlast : ∀ {t : Task}, s.task? r.1 = some t → ∀ p ∈ [r], ∀ k, s.task? p.1 = some k → k = t := fun ht p hp k hk => by
    rw [List.mem_singleton.mp hp, ht] at hk
    exact (Option.some.inj hk).symm
  cases ht : s.task? r.1 with
  | none =>
    rw [State.oldestOf_none b ht]
    cases b with
    | none => exact fun q hq => (List.mem_append.mp hq).elim (h q) (fun h => List.mem_singleton.mp h ▸ ht)
    | some e =>
      obtain ⟨⟨q, hq, hu⟩, hall⟩ := h
      refine ⟨⟨q, List.mem_append_left _ hq, hu⟩, fun p hp t hpt => (List.mem_append.mp hp).elim (fun h => hall p h t hpt) fun h => ?_⟩
      rw [List.mem_singleton.mp h, ht] at hpt
      cases hpt
  | some t =>
    cases b with
    | none =>
      rw [State.oldestOf_first ht]
      refine ⟨⟨r, List.mem_append_right _ List.mem_cons_self, ht, rfl⟩, fun p hp k hk => (List.mem_append.mp hp).elim (fun hl => ?_) fun hl => ?_⟩
      · rw [h p hl] at hk
        cases hk
      · rw [hlast ht p hl k hk]
        exact t.older_irrefl
    | some e =>
      rw [State.oldestOf_next e ht]
      obtain ⟨⟨q, hq, hu⟩, hall⟩ := h
      by_cases holder : t.older e.1 = true
      · rw [if_pos holder]
        refine ⟨⟨r, List.mem_append_right _ List.mem_cons_self, ht, rfl⟩, fun p hp k hk => (List.mem_append.mp hp).elim (fun h => ?_) fun h => ?_⟩
        · exact Task.not_older_of_older (hall p h k hk) holder
        · rw [hlast ht p h k hk]
          exact t.older_irrefl
      · rw [if_neg holder]
        refine ⟨⟨q, List.mem_append_left _ hq, hu⟩, fun p hp k hk => (List.mem_append.mp hp).elim (fun h => hall p h k hk) fun h => ?_⟩
        rw [hlast ht p h k hk]
        exact Bool.not_eq_true _ |>.mp holder

theorem State.chosen_foldl (s : State) (l : List (Nat × Nat)) : s.chosen l (l.foldl s.oldestOf none) := by
  induction l using List.reverseRecOn with
  | nil => exact fun r hr => by cases hr
  | append_singleton l r ih =>
    rw [List.foldl_append]
    exact State.chosen_oldestOf r ih

/-- Does an entry stand at a key's home? -/
def State.keyThere (s : State) (home : Nat × Nat) (e : KeyEntry) : Prop := e ∈ s.keys ∧ e.die = home.1 ∧ e.index = home.2

/-- Does a record reserve a key at a home? -/
def State.keyAsks (s : State) (home : Nat × Nat) (u : Task) (j : Nat) : Prop :=
  ∃ e r, s.keyThere home e ∧ r ∈ e.reserved ∧ s.task? r.1 = some u ∧ r.2 = j

theorem State.mem_keyEntries {s : State} {home : Nat × Nat} {e : KeyEntry} : e ∈ s.keyEntries home ↔ s.keyThere home e := by
  simp [State.keyEntries, State.keyThere]

/-- The oldest reservation at a home, where there is one (R294). -/
theorem State.topReserve_spec (s : State) (home : Nat × Nat) :
    match s.topReserve (s.keyEntries home) with
    | none => ∀ u j, ¬s.keyAsks home u j
    | some (u, j) => s.keyAsks home u j ∧ ∀ t k, s.keyAsks home t k → t.older u = false := by
  have hspec := s.chosen_foldl ((s.keyEntries home).flatMap (fun e => e.reserved))
  have hfold : s.topReserve (s.keyEntries home) = ((s.keyEntries home).flatMap (fun e => e.reserved)).foldl s.oldestOf none := rfl
  have hasks : ∀ t k, s.keyAsks home t k ↔ ∃ r ∈ (s.keyEntries home).flatMap (fun e => e.reserved), s.task? r.1 = some t ∧ r.2 = k := fun t k => by
    simp only [State.keyAsks, List.mem_flatMap, State.mem_keyEntries]
    exact ⟨fun ⟨e, r, he, hr, h⟩ => ⟨r, ⟨e, he, hr⟩, h⟩, fun ⟨r, ⟨e, he, hr⟩, h⟩ => ⟨e, r, he, hr, h⟩⟩
  rw [hfold]
  generalize ((s.keyEntries home).flatMap (fun e => e.reserved)).foldl s.oldestOf none = b at hspec ⊢
  cases b with
  | none =>
    rintro u j hask
    obtain ⟨r, hr, ht, -⟩ := (hasks u j).mp hask
    rw [hspec r hr] at ht
    cases ht
  | some e =>
    obtain ⟨hin, hall⟩ := hspec
    refine ⟨(hasks _ _).mpr hin, fun t k hask => ?_⟩
    obtain ⟨r, hr, ht, -⟩ := (hasks t k).mp hask
    exact hall r hr t ht

/-- When a key is granted (R292 to R294). -/
theorem State.keyOk_iff {s : State} {t : Task} {k : Nat} {home : Nat × Nat} (hhome : s.keyHome t.vi k = some home) :
    s.keyOk t k = true ↔ (∀ e, s.keyThere home e → e.holder = none) ∧ match s.topReserve (s.keyEntries home) with
      | none => True
      | some (u, j) => u.uid = t.uid ∨ t.older u = true ∧ u.vi = t.vi ∧ j = k := by
  rw [State.keyOk, hhome]
  dsimp only
  rw [Bool.and_eq_true, List.all_eq_true]
  refine and_congr ⟨fun h e he => Option.isNone_iff_eq_none.mp (h e (State.mem_keyEntries.mpr he)), fun h e he => Option.isNone_iff_eq_none.mpr (h e (State.mem_keyEntries.mp he))⟩ ?_
  cases s.topReserve (s.keyEntries home) with
  | none => simp
  | some e => simp [and_assoc]

/-- The grant of a key, by what stands at its home (R292 to R294). -/
theorem State.keyOk_spec {s : State} {t : Task} {k : Nat} {home : Nat × Nat} (hhome : s.keyHome t.vi k = some home) :
    ((∃ e, s.keyThere home e ∧ e.holder ≠ none) → s.keyOk t k = false) ∧
    (s.task? t.uid = some t → (∃ u j, s.keyAsks home u j ∧ u.older t = true) → s.keyOk t k = false) ∧
    ((∃ u j, s.keyAsks home u j) → (∀ u j, s.keyAsks home u j → j ≠ k ∧ u.uid ≠ t.uid) → s.keyOk t k = false) ∧
    ((∀ e, s.keyThere home e → e.holder = none) → (∀ u j, s.keyAsks home u j → u.uid = t.uid ∨ t.older u = true ∧ u.vi = t.vi ∧ j = k) → s.keyOk t k = true) := by
  have htop := s.topReserve_spec home
  have hiff := State.keyOk_iff hhome
  generalize s.topReserve (s.keyEntries home) = b at htop hiff
  simp only [← Bool.not_eq_true]
  refine ⟨fun ⟨e, he, hheld⟩ hok => hheld ((hiff.mp hok).1 e he), fun ht ⟨u, j, hask, holder⟩ hok => ?_, fun ⟨u, j, hask⟩ hall hok => ?_, fun hfree hall => hiff.mpr ⟨hfree, ?_⟩⟩
  · obtain ⟨-, hgrant⟩ := hiff.mp hok
    cases b with
    | none => exact htop u j hask
    | some e =>
      obtain ⟨⟨q, r, -, -, hr, -⟩, hoLd⟩ := htop
      have hnot := hoLd u j hask
      rcases hgrant with hsame | ⟨hyoung, -⟩
      · have huid : r.1 = t.uid := by
          have := List.find?_some hr
          exact (beq_iff_eq.mp this).symm.trans hsame
        rw [huid, ht] at hr
        rw [← Option.some.inj hr, holder] at hnot
        cases hnot
      · rw [Task.older_trans holder hyoung] at hnot
        cases hnot
  · obtain ⟨-, hgrant⟩ := hiff.mp hok
    cases b with
    | none => exact htop u j hask
    | some e =>
      obtain ⟨hkey, huid⟩ := hall e.1 e.2 htop.1
      rcases hgrant with hsame | ⟨-, -, hsame⟩
      · exact huid hsame
      · exact hkey hsame
  · cases b with
    | none => trivial
    | some e => exact hall e.1 e.2 htop.1

/-! ### Keys that are taken -/

theorem State.keyHome_keys (s : State) (l : List KeyEntry) (vi k : Nat) : State.keyHome { s with keys := l } vi k = s.keyHome vi k := rfl

/-- An entry for a key of a task, at the key's home. -/
def KeyEntry.heldAt (e : KeyEntry) (vi : Nat) (home : Nat × Nat) (k uid : Nat) : Prop := e.vi = vi ∧ (e.die, e.index) = home ∧ e.key = k ∧ e.holder = some uid

/-- The entry that stands for a key is changed; others stay. -/
theorem State.modKey_spec (s : State) (vi k : Nat) (f : KeyEntry → KeyEntry) (hf : ∀ e, (f e).vi = e.vi ∧ (f e).die = e.die ∧ (f e).index = e.index ∧ (f e).key = e.key) :
    ∃ l, s.modKey vi k f = { s with keys := l } ∧
      (∀ home, s.keyHome vi k = some home → ∃ e, f e ∈ l ∧ e.vi = vi ∧ (e.die, e.index) = home ∧ e.key = k) ∧
      (∀ e ∈ s.keys, (e.key ≠ k → e ∈ l)) ∧ ∀ e ∈ l, e ∈ s.keys ∨ ∃ e', e = f e' ∧ (e' ∈ s.keys ∨ e'.reserved = []) := by
  unfold State.modKey
  split
  · next hnone => exact ⟨s.keys, rfl, fun home h => (by rw [hnone] at h; cases h), fun e he _ => he, fun e he => .inl he⟩
  · next home hhome =>
    dsimp only
    generalize hold : (s.keys.find? (fun e => e.vi == vi && e.die == home.1 && e.index == home.2 && e.key == k)).getD ⟨vi, home.1, home.2, k, none, []⟩ = old
    have hkey : old.vi = vi ∧ (old.die, old.index) = home ∧ old.key = k := by
      cases hfind : s.keys.find? (fun e => e.vi == vi && e.die == home.1 && e.index == home.2 && e.key == k) with
      | none =>
        rw [hfind] at hold
        rw [← hold]
        exact ⟨rfl, rfl, rfl⟩
      | some e =>
        rw [hfind, Option.getD_some] at hold
        have he := List.find?_some hfind
        simp only [Bool.and_eq_true, beq_iff_eq, and_assoc] at he
        obtain ⟨h1, h2, h3, h4⟩ := he
        rw [← hold]
        exact ⟨h1, Prod.ext h2 h3, h4⟩
    have hfrom : old ∈ s.keys ∨ old.reserved = [] := by
      cases hfind : s.keys.find? (fun e => e.vi == vi && e.die == home.1 && e.index == home.2 && e.key == k) with
      | none =>
        rw [hfind] at hold
        exact .inr (by rw [← hold]; rfl)
      | some e =>
        rw [hfind, Option.getD_some] at hold
        exact .inl (hold ▸ List.mem_of_find?_eq_some hfind)
    refine ⟨_, rfl, fun home' h => ⟨old, ?_, hkey.1, hkey.2.1.trans (Option.some.inj (hhome.symm.trans h)), hkey.2.2⟩, fun e he hne => ?_, fun e he => ?_⟩
    · have hin := find?_upsert s.keys (fun e => e.vi == vi && e.die == home.1 && e.index == home.2 && e.key == k) (f old) (by
        obtain ⟨h1, h2, h3, h4⟩ := hf old
        obtain ⟨h5, h6, h7⟩ := hkey
        rw [h1, h2, h3, h4, h5, h7, ← h6]
        simp)
      exact List.mem_of_find?_eq_some hin
    · rw [upsert]
      split
      · exact List.mem_map.mpr ⟨e, he, by simp [hne]⟩
      · exact List.mem_append_left _ he
    · rw [upsert] at he
      split at he
      · obtain ⟨e', he', rfl⟩ := List.mem_map.mp he
        split
        · exact .inr ⟨old, rfl, hfrom⟩
        · exact .inl he'
      · exact (List.mem_append.mp he).imp id fun h => ⟨old, List.mem_singleton.mp h, hfrom⟩

/-- A task takes keys: each is held at its home, and nothing is reserved that was not (R293). -/
theorem State.holdKeys_spec (s : State) (t : Task) (ks : List Nat) :
    let u := ks.foldl (fun u k => u.modKey t.vi k (fun e => { e with holder := some t.uid })) s
    (∃ l, u = { s with keys := l }) ∧
    (∀ k, (∃ home, s.keyHome t.vi k = some home ∧ (k ∈ ks ∨ ∃ e ∈ s.keys, e.heldAt t.vi home k t.uid)) →
      ∃ home, s.keyHome t.vi k = some home ∧ ∃ e ∈ u.keys, e.heldAt t.vi home k t.uid) ∧
    ∀ e ∈ u.keys, ∀ r ∈ e.reserved, ∃ e' ∈ s.keys, r ∈ e'.reserved := by
  induction ks generalizing s with
  | nil =>
    refine ⟨⟨s.keys, rfl⟩, fun k ⟨home, hhome, h⟩ => ⟨home, hhome, h.resolve_left (by simp)⟩, fun e he r hr => ⟨e, he, hr⟩⟩
  | cons k ks ih =>
    obtain ⟨l, hl, hin, hkeep, hback⟩ := s.modKey_spec t.vi k (fun e => { e with holder := some t.uid }) (fun _ => ⟨rfl, rfl, rfl, rfl⟩)
    rw [List.foldl_cons, hl]
    obtain ⟨⟨l', hl'⟩, hheld, hres⟩ := ih { s with keys := l }
    refine ⟨⟨l', hl'⟩, fun j ⟨home, hhome, hj⟩ => hheld j ⟨home, hhome, ?_⟩, fun e he r hr => ?_⟩
    · by_cases hjk : j = k
      · subst hjk
        obtain ⟨e, he, h1, h2, h3⟩ := hin home hhome
        exact .inr ⟨_, he, h1, h2, h3, rfl⟩
      · refine hj.imp (fun h => (List.mem_cons.mp h).resolve_left hjk) fun ⟨e, he, hat⟩ => ⟨e, hkeep e he (by rw [hat.2.2.1]; exact hjk), hat⟩
    · obtain ⟨e', he', hr'⟩ := hres e he r hr
      obtain hold | ⟨q, rfl, hq⟩ := hback e' he'
      · exact ⟨e', hold, hr'⟩
      · refine hq.elim (fun h => ⟨q, h, hr'⟩) fun h => ?_
        have : r ∈ q.reserved := hr'
        rw [h] at this
        cases this

theorem State.takeKeys_spec (s : State) (t : Task) :
    (∀ k ∈ t.keys, ∀ home, s.keyHome t.vi k = some home → ∃ e ∈ (s.takeKeys t).keys, e.heldAt t.vi home k t.uid) ∧
    ∀ e ∈ (s.takeKeys t).keys, ∀ r ∈ e.reserved, r.1 ≠ t.uid := by
  obtain ⟨-, hheld, hres⟩ := (s.releaseKeys t.uid).holdKeys_spec t t.keys
  refine ⟨fun k hk home hhome => ?_, fun e he r hr => ?_⟩
  · obtain ⟨home', hhome', h⟩ := hheld k ⟨home, hhome, .inl hk⟩
    rwa [Option.some.inj (hhome'.symm.trans hhome)] at h
  · obtain ⟨e', he', hr'⟩ := hres e he r hr
    obtain ⟨q, -, rfl⟩ := List.mem_map.mp (List.mem_of_mem_filter he')
    obtain ⟨-, hne⟩ := List.mem_filter.mp hr'
    simpa using hne

/-! ### Dies and the order of the search -/

/-- The dies that are eligible, each by its own test. -/
def diesWhere (b0 b1 b2 b3 : Bool) : List Nat := (if b0 then [0] else []) ++ (if b1 then [1] else []) ++ (if b2 then [2] else []) ++ (if b3 then [3] else [])

/-- The dies of the package that a test names. -/
theorem filter_range_four (p : Nat → Bool) : (List.range 4).filter p = diesWhere (p 0) (p 1) (p 2) (p 3) := by
  rw [show List.range 4 = [0, 1, 2, 3] from rfl]
  cases h0 : p 0 <;> cases h1 : p 1 <;> cases h2 : p 2 <;> cases h3 : p 3 <;> simp [diesWhere, h0, h1, h2, h3]

theorem firstFrom_mem : ∀ b0 b1 b2 b3 : Bool, ∀ d < 4, d ∈ diesWhere b0 b1 b2 b3 → (firstFrom (diesWhere b0 b1 b2 b3) d).getD 5 = d := by
  decide

theorem firstFrom_none : ∀ b0 b1 b2 b3 : Bool, ∀ d < 4, diesWhere b0 b1 b2 b3 = [] → (firstFrom (diesWhere b0 b1 b2 b3) d).getD 5 = 5 := by
  decide

/-- The first of some dies after a die, wrapping (R295). -/
theorem firstFrom_next : ∀ b0 b1 b2 b3 : Bool, ∀ d < 4, ∀ j < 4,
    (d + j) % 4 ∈ diesWhere b0 b1 b2 b3 ∧ (∀ i < j, (d + i) % 4 ∉ diesWhere b0 b1 b2 b3) → (firstFrom (diesWhere b0 b1 b2 b3) d).getD 5 = (d + j) % 4 := by
  decide

theorem State.eligible_eq (s : State) (vi : Nat) (paired : Bool) :
    ∃ p : Nat → Bool, s.eligible vi paired = (List.range 4).filter p :=
  ⟨_, by rw [State.eligible, State.liveDies, List.filter_filter]⟩

theorem insertBy_perm {α : Type} (le : α → α → Bool) (x : α) (l : List α) : (insertBy le x l).Perm (x :: l) := by
  induction l with
  | nil => exact List.Perm.refl _
  | cons y r ih =>
    rw [insertBy]
    split
    · exact List.Perm.refl _
    · exact (ih.cons y).trans (List.Perm.swap x y r)

theorem sortBy_perm {α : Type} (le : α → α → Bool) (l : List α) : (sortBy le l).Perm l := by
  induction l with
  | nil => exact List.Perm.refl _
  | cons x r ih => exact (insertBy_perm le x (sortBy le r)).trans (ih.cons x)

theorem sortBy_pairwise {α : Type} {le : α → α → Bool} (htotal : ∀ a b, le a b = true ∨ le b a = true) (htrans : ∀ a b c, le a b = true → le b c = true → le a c = true)
    (l : List α) : (sortBy le l).Pairwise (fun a b => le a b = true) := by
  induction l with
  | nil => exact List.Pairwise.nil
  | cons x r ih =>
    show (insertBy le x (sortBy le r)).Pairwise _
    generalize sortBy le r = k at ih
    induction k with
    | nil => exact List.pairwise_singleton ..
    | cons y k ihk =>
      obtain ⟨hy, hk⟩ := List.pairwise_cons.mp ih
      rw [insertBy]
      split
      · next hxy => exact List.pairwise_cons.mpr ⟨fun z hz => (List.mem_cons.mp hz).elim (fun h => h ▸ hxy) fun h => htrans _ _ _ hxy (hy z h), ih⟩
      · next hxy =>
        refine List.pairwise_cons.mpr ⟨fun z hz => ?_, ihk hk⟩
        exact (List.mem_cons.mp ((insertBy_perm le x k).mem_iff.mp hz)).elim (fun h => h ▸ (htotal x y).resolve_left hxy) (hy z)

theorem foldl_min_le {f : Nat → Nat} (l : List Nat) (a : Nat) : l.foldl (fun n c => min n (f c)) a ≤ a ∧ ∀ c ∈ l, l.foldl (fun n c => min n (f c)) a ≤ f c := by
  induction l generalizing a with
  | nil => exact ⟨Nat.le_refl _, fun c hc => by cases hc⟩
  | cons b r ih =>
    obtain ⟨h1, h2⟩ := ih (min a (f b))
    exact ⟨h1.trans (Nat.min_le_left _ _), fun c hc => (List.mem_cons.mp hc).elim (fun h => h ▸ h1.trans (Nat.min_le_right _ _)) (h2 c)⟩

/-- The units of a die. -/
def dieUnits (paired : Bool) : List (List Nat) :=
  if paired = true then (List.range 48).map (fun p => [2 * p, 2 * p + 1]) else (List.range 96).map (fun c => [c])

theorem mem_dieUnits {paired : Bool} {u : List Nat} (h : u ∈ dieUnits paired) : u.headD 0 ∈ u ∧ u.headD 0 < 96 := by
  rw [dieUnits] at h
  split at h
  · obtain ⟨p, hp, rfl⟩ := List.mem_map.mp h
    have := List.mem_range.mp hp
    exact ⟨List.mem_cons_self, by show 2 * p < 96; omega⟩
  · obtain ⟨c, hc, rfl⟩ := List.mem_map.mp h
    exact ⟨List.mem_cons_self, List.mem_range.mp hc⟩

/-- A unit's rank decides as R295 says: its step, its distance, its lowest core. -/
theorem rank_order {pref : Nat} {a b : List Nat} (hpref : pref < 96) (ha : a.headD 0 ∈ a ∧ a.headD 0 < 96) (hb : b.headD 0 ∈ b ∧ b.headD 0 < 96)
    (h : unitRank pref a ≤ unitRank pref b) :
    let near := fun (u : List Nat) => u.foldl (fun n c => min n (meshDist c pref)) 1000
    let mates := fun (u : List Nat) => clusterOf (u.headD 0) = clusterOf pref
    pref ∈ a ∨ pref ∉ b ∧ (mates a ∧ ¬mates b ∨ (mates a ↔ mates b) ∧ (near a < near b ∨ near a = near b ∧ a.headD 0 ≤ b.headD 0)) := by
  intro near mates
  have hnear : ∀ u : List Nat, u.headD 0 ∈ u ∧ u.headD 0 < 96 → near u < 1000 := fun u hu => by
    refine lt_of_le_of_lt ((foldl_min_le (f := fun c => meshDist c pref) u 1000).2 _ hu.1) ?_
    show meshDist (u.headD 0) pref < 1000
    rw [meshDist]
    omega
  have hna := hnear a ha
  have hnb := hnear b hb
  have hrank : ∀ u : List Nat, ∃ step, unitRank pref u = (step * 1000 + near u) * 1000 + u.headD 0 ∧ (pref ∈ u → step = 0) ∧
      (pref ∉ u → mates u → step = 1) ∧ (pref ∉ u → ¬mates u → step = 2) := fun u => by
    refine ⟨if u.contains pref then 0 else if mates u then 1 else 2, rfl, fun h => if_pos (List.contains_iff_mem.mpr h), fun h hm => ?_, fun h hm => ?_⟩
    · rw [if_neg (fun hc => h (List.contains_iff_mem.mp hc)), if_pos hm]
    · rw [if_neg (fun hc => h (List.contains_iff_mem.mp hc)), if_neg hm]
  obtain ⟨sa, ha', -, ha1, ha2⟩ := hrank a
  obtain ⟨sb, hb', hb0, hb1, hb2⟩ := hrank b
  rw [ha', hb'] at h
  by_cases hpa : pref ∈ a
  · exact .inl hpa
  · right
    by_cases hpb : pref ∈ b
    · have := hb0 hpb
      by_cases hma : mates a
      · have := ha1 hpa hma
        omega
      · have := ha2 hpa hma
        omega
    · refine ⟨hpb, ?_⟩
      by_cases hma : mates a <;> by_cases hmb : mates b
      · have := ha1 hpa hma
        have := hb1 hpb hmb
        exact .inr ⟨iff_of_true hma hmb, by omega⟩
      · exact .inl ⟨hma, hmb⟩
      · have := ha2 hpa hma
        have := hb1 hpb hmb
        omega
      · have := ha2 hpa hma
        have := hb2 hpb hmb
        exact .inr ⟨iff_of_false hma hmb, by omega⟩

/-! ### Places -/

theorem forall₂_of_mapM_some {α β : Type} {f : α → Option β} {l : List α} {r : List β} (h : l.mapM f = some r) : List.Forall₂ (fun a b => f a = some b) l r := by
  induction l generalizing r with
  | nil =>
    cases h
    exact List.Forall₂.nil
  | cons a l ih =>
    rw [List.mapM_cons] at h
    cases ha : f a with
    | none =>
      rw [ha] at h
      cases h
    | some b =>
      rw [ha] at h
      cases hl : l.mapM f with
      | none =>
        rw [hl] at h
        cases h
      | some k =>
        rw [hl] at h
        cases h
        exact List.Forall₂.cons ha (ih hl)

theorem mem_mapM_some {α β : Type} {f : α → Option β} {l : List α} {r : List β} (h : l.mapM f = some r) {b : β} (hb : b ∈ r) : ∃ a ∈ l, f a = some b := by
  have hall := forall₂_of_mapM_some h
  clear h
  induction hall with
  | nil => cases hb
  | cons hab _ ih =>
    rcases List.mem_cons.mp hb with rfl | hb
    · exact ⟨_, List.mem_cons_self, hab⟩
    · obtain ⟨a, ha, hf⟩ := ih hb
      exact ⟨a, List.mem_cons_of_mem _ ha, hf⟩

/-- A lane block that some groups may use: aligned, inside a core, and with room at each of its positions for those that take it (R24, R54). -/
def blockHolds (use : Nat → Nat) (width vgran : Nat) (bs : List Nat) : Prop :=
  ∀ b ∈ bs, b % width = 0 ∧ b + width ≤ 64 ∧ ∀ i < width, use (b + i) + 8 * vgran * bs.count b ≤ 1024

theorem pickBlocks_spec {use : Nat → Nat} {width vgran n : Nat} {got bs : List Nat} (h : pickBlocks use width vgran n got = some bs)
    (hgot : blockHolds use width vgran got) : bs.length = got.length + n ∧ blockHolds use width vgran bs := by
  induction n generalizing got with
  | zero =>
    cases h
    exact ⟨rfl, hgot⟩
  | succ n ih =>
    rw [pickBlocks] at h
    split at h
    · next j hj =>
      have hroom := List.find?_some hj
      have hin : j < 64 / width := List.mem_range.mp (List.mem_of_find?_eq_some hj)
      simp only [List.all_eq_true, List.mem_range, decide_eq_true_eq] at hroom
      have hfit : width * j + width ≤ 64 := by
        have hmul := Nat.mul_le_of_le_div width (j + 1) 64 hin
        rwa [Nat.mul_comm, Nat.mul_succ] at hmul
      have hnext : blockHolds use width vgran (got ++ [width * j]) := fun b hb => by
        by_cases hbj : b = width * j
        · rw [hbj, List.count_append, List.count_singleton_self]
          exact ⟨Nat.mul_mod_right .., hfit, hroom⟩
        · have hb' : b ∈ got := (List.mem_append.mp hb).resolve_right fun h => hbj (List.mem_singleton.mp h)
          rw [List.count_append, List.count_eq_zero_of_not_mem (fun h => hbj (List.mem_singleton.mp h))]
          exact hgot b hb'
      obtain ⟨hlen, hbs⟩ := ih h hnext
      exact ⟨by rw [hlen, List.length_append, List.length_singleton, Nat.add_assoc, Nat.add_comm 1 n], hbs⟩
    · cases h

theorem State.stashRoom_spec {s : State} {core len base : Nat} (h : s.stashRoom core len = some base) (hlen : len ≠ 0) :
    base + len ≤ Config.stashBytes ∧ ∀ r ∈ s.stashUse core, r.2 ≠ 0 → base + len ≤ r.1 ∨ r.1 + r.2 ≤ base := by
  rw [State.stashRoom] at h
  rw [if_neg hlen] at h
  have hroom := List.find?_some h
  simp only [Bool.and_eq_true, List.all_eq_true, decide_eq_true_eq, Bool.or_eq_true, List.mem_filter, bne_iff_ne] at hroom
  exact ⟨hroom.1, fun r hr hne => hroom.2 r ⟨hr, hne⟩⟩

theorem State.fitCore_spec {s : State} {core : Nat} {k : Need} {f : List Nat × Nat} (h : s.fitCore core k = some f) :
    s.groupFits core k.sgran k.groups = true ∧ s.teamFits core k.tregs k.accs = true ∧ f.1.length = k.groups ∧
      blockHolds (s.posUse core) k.width k.vgran f.1 ∧
      (k.stash ≠ 0 → f.2 + k.stash ≤ Config.stashBytes ∧ ∀ r ∈ s.stashUse core, r.2 ≠ 0 → f.2 + k.stash ≤ r.1 ∨ r.1 + r.2 ≤ f.2) := by
  rw [State.fitCore] at h
  split at h
  · next hfits =>
    obtain ⟨hgroup, hteam⟩ := Bool.and_eq_true_iff.mp hfits
    split at h
    · next bs st hbs hst =>
      cases h
      obtain ⟨hlen, hblocks⟩ := pickBlocks_spec hbs fun b hb => by cases hb
      exact ⟨hgroup, hteam, hlen.trans (Nat.zero_add _), hblocks, State.stashRoom_spec hst⟩
    · cases h
  · cases h

theorem State.not_coreKept {s : State} {t : Task} {core : Nat} (h : s.coreKept t core = false) :
    ∀ r ∈ s.reservedCores, r.2 = core → r.1 ≠ t.uid → ∀ k, s.task? r.1 = some k → k.older t = false := by
  intro r hr hcore huid k hk
  rw [State.coreKept, List.any_eq_false] at h
  have := h r hr
  rw [hk] at this
  simpa [hcore, huid] using this

/-- A unit that a team takes (R295). -/
theorem State.fitUnit_spec {s : State} {t : Task} {u : List Nat} {es : List (Nat × List Nat × Nat)} (h : s.fitUnit t u = some es) :
    es.map (fun e => e.1) = u ∧ ∀ e ∈ es, s.coreOk t.vi e.1 = true ∧ s.inTurn t.vi e.1 = true ∧ s.coreKept t e.1 = false ∧ s.fitCore e.1 t.need = some e.2 := by
  rw [State.fitUnit] at h
  split at h
  · next hall =>
    have hfits := forall₂_of_mapM_some h
    have heach : ∀ {c : Nat} {e : Nat × List Nat × Nat}, (s.fitCore c t.need).map (fun f => (c, f.1, f.2)) = some e → e.1 = c ∧ s.fitCore e.1 t.need = some e.2 := by
      intro c e he
      obtain ⟨f, hf, rfl⟩ := Option.map_eq_some_iff.mp he
      exact ⟨rfl, hf⟩
    refine ⟨?_, fun e he => ?_⟩
    · clear h hall
      induction hfits with
      | nil => rfl
      | cons hce _ ih => rw [List.map_cons, ih, (heach hce).1]
    · obtain ⟨c, hc, hce⟩ := mem_mapM_some h he
      obtain ⟨hec, hfit⟩ := heach hce
      have hcore := List.all_eq_true.mp hall c hc
      simp only [Bool.and_eq_true, Bool.not_eq_true', and_assoc] at hcore
      obtain ⟨hok, hturn, hkept⟩ := hcore
      rw [hec] at hfit ⊢
      exact ⟨hok, hturn, hkept, hfit⟩
  · cases h

theorem State.findPlace_iff {s : State} {t : Task} (ht : t.service = false) (es : List (Nat × List Nat × Nat)) :
    s.findPlace t = some es ↔ ∃ pre u post, searchOrder t.die t.cont.preferred (t.cont.shape.getLsbD 8) = pre ++ u :: post ∧
      (∀ w ∈ pre, s.fitUnit t w = none) ∧ s.fitUnit t u = some es := by
  rw [State.findPlace, ht, if_neg (by decide), List.findSome?_eq_some_iff]
  exact ⟨fun ⟨pre, u, post, h, hu, hpre⟩ => ⟨pre, u, post, h, hpre, hu⟩, fun ⟨pre, u, post, h, hpre, hu⟩ => ⟨pre, u, post, h, hu, hpre⟩⟩

/-- What an aged record reserves (R294). -/
theorem State.reserveUnit_spec {s : State} {t : Task} (ht : t.service = false) :
    (t.need.holdable = true → ∀ pre u post, searchOrder t.die t.cont.preferred (t.cont.shape.getLsbD 8) = pre ++ u :: post →
      (∀ w ∈ pre, w.all (s.coreOk t.vi) = false) → u.all (s.coreOk t.vi) = true → s.reserveUnit t = u) ∧
    (t.need.holdable = false ∨ (∀ w ∈ searchOrder t.die t.cont.preferred (t.cont.shape.getLsbD 8), w.all (s.coreOk t.vi) = false) → s.reserveUnit t = []) := by
  rw [State.reserveUnit, ht, if_neg (by decide)]
  refine ⟨fun hhold pre u post h hpre hu => ?_, fun hnone => ?_⟩
  · rw [List.find?_eq_some_iff_append.mpr ⟨by simp only [hu, hhold, Bool.and_self], pre, post, h, fun w hw => by simp only [hpre w hw, Bool.false_and, Bool.not_false]⟩]
    rfl
  · rw [List.find?_eq_none.mpr]
    · rfl
    · rintro w hw h
      obtain ⟨hall, hhold⟩ := Bool.and_eq_true_iff.mp h
      rcases hnone with hnot | hnot
      · rw [hnot] at hhold
        cases hhold
      · rw [hnot w hw] at hall
        cases hall

/-- The service core that a team takes (R296). -/
theorem State.findPlace_service {s : State} {t : Task} (ht : t.service = true) (c : Nat) (bs : List Nat) :
    s.findPlace t = some [(c, bs, 0)] ↔ ∃ pre post, s.partitionCores (s.viOf t.vi).partition = pre ++ c :: post ∧
      (∀ w ∈ pre, (s.freeSlots w).length < t.need.groups ∨ s.coreKept t w = true) ∧ t.need.groups ≤ (s.freeSlots c).length ∧ s.coreKept t c = false ∧
      bs = (s.freeSlots c).take t.need.groups := by
  rw [State.findPlace, ht, if_pos rfl, State.fitService, Option.map_eq_some_iff]
  constructor
  · rintro ⟨d, hd, he⟩
    cases he
    obtain ⟨hfit, pre, post, h, hpre⟩ := List.find?_eq_some_iff_append.mp hd
    simp only [Bool.and_eq_true, decide_eq_true_eq, Bool.not_eq_true'] at hfit
    refine ⟨pre, post, h, fun w hw => ?_, hfit.1, hfit.2, rfl⟩
    have hnot := hpre w hw
    simp only [Bool.not_and, Bool.or_eq_true, Bool.not_eq_true', decide_eq_false_iff_not, Bool.not_not] at hnot
    exact hnot.imp Nat.lt_of_not_le id
  · rintro ⟨pre, post, h, hpre, hroom, hkept, rfl⟩
    refine ⟨c, List.find?_eq_some_iff_append.mpr ⟨by simp [hroom, hkept], pre, post, h, fun w hw => ?_⟩, rfl⟩
    rcases hpre w hw with hlt | hk
    · simp [Nat.not_le.mpr hlt]
    · simp [hk]

/-- Settles O45. -/
theorem placement : Obligations.Placement := by
  unfold Obligations.Placement
  refine ⟨fun s vi k hshare hlive => State.keyHome_eq k hshare hlive, fun s t k home hhome => State.keyOk_spec hhome, fun s t => s.takeKeys_spec t, fun s vi c => ?_,
    fun die pref paired hpref => ?_, fun s t ht => ⟨State.findPlace_iff ht, State.reserveUnit_spec ht⟩, fun s t u es h => ?_,
    fun s t ht => ⟨?_, State.findPlace_service ht⟩⟩
  · intro h d ok
    obtain ⟨p, hp⟩ := s.eligible_eq vi (c.shape.getLsbD 8)
    have hok : ok = diesWhere (p 0) (p 1) (p 2) (p 3) := hp.trans (filter_range_four p)
    have hd : d < 4 := by
      show h % 768 / 192 < 4
      omega
    have hdie : s.dieOfRecord vi c false = (firstFrom ok d).getD 5 := rfl
    rw [hdie, hok]
    exact ⟨rfl, firstFrom_mem _ _ _ _ d hd, firstFrom_none _ _ _ _ d hd, fun j hj _ hin hout => firstFrom_next _ _ _ _ d hd j hj ⟨hin, hout⟩⟩
  · intro units dist near mates
    refine ⟨sortBy (fun a b => decide (unitRank pref a ≤ unitRank pref b)) units, sortBy_perm _ _, rfl, ?_⟩
    have hsorted := sortBy_pairwise (le := fun a b => decide (unitRank pref a ≤ unitRank pref b)) (fun a b => by simp only [decide_eq_true_eq]; omega)
      (fun a b c => by simp only [decide_eq_true_eq]; omega) units
    have hmem : ∀ u ∈ sortBy (fun a b => decide (unitRank pref a ≤ unitRank pref b)) units, u ∈ dieUnits paired := fun u hu => (sortBy_perm _ _).mem_iff.mp hu
    refine List.Pairwise.imp_of_mem (fun {a b} ha hb hab => ?_) hsorted
    exact rank_order hpref (mem_dieUnits (hmem a ha)) (mem_dieUnits (hmem b hb)) (of_decide_eq_true hab)
  · intro n
    obtain ⟨hmap, hall⟩ := State.fitUnit_spec h
    refine ⟨hmap, fun e he => ?_⟩
    obtain ⟨hok, hturn, hkept, hfit⟩ := hall e he
    obtain ⟨hgroup, hteam, hlen, hblocks, hstash⟩ := State.fitCore_spec hfit
    exact ⟨hok, hturn, State.not_coreKept hkept, hgroup, hteam, hlen, hblocks, hstash⟩
  · rw [State.reserveUnit, ht, if_pos rfl]

end Sys2Proof.Machine
end

section
/-! Posted writes, walks, home moves and frames with a new owner (R183, R195, R257, R272, R273, R312, R315, R316). -/
namespace Sys2Proof.Machine

/-! ### The value that a RED leaves -/

theorem toNat_lo {x : DWord} (h : x.toNat < 2 ^ 32) : (x.setWidth 32).toNat = x.toNat := by
  rw [BitVec.toNat_setWidth, Nat.mod_eq_of_lt h]

theorem ofNat_lo (w : Word) : BitVec.ofNat 64 w.toNat = w.setWidth 64 := by
  apply BitVec.eq_of_toNat_eq
  rw [BitVec.toNat_ofNat, BitVec.toNat_setWidth]

theorem ofNat_toNat (x : DWord) : BitVec.ofNat 64 x.toNat = x := BitVec.ofNat_toNat .. |>.trans (BitVec.setWidth_eq x)

/-- The model's operation on numbers is R194's on words. -/
theorem atomApply_eq (op : AtomVar) {x o : DWord} (hx : op.bytes = 4 → x.toNat < 2 ^ 32) (ho : op.bytes = 4 → o.toNat < 2 ^ 32) :
    BitVec.ofNat 64 (atomApply op x.toNat o.toNat 0) = atomValue op x o 0 := by
  cases op <;> simp only [atomApply, atomValue]
  case add32 =>
    apply BitVec.eq_of_toNat_eq
    simp [BitVec.toNat_add]
  case add64 =>
    apply BitVec.eq_of_toNat_eq
    simp [BitVec.toNat_add]
  case addF32 => rw [toNat_lo (hx rfl), toNat_lo (ho rfl)]
  case minSgn32 => rw [← toNat_lo (hx rfl), ← toNat_lo (ho rfl), ← ofNat_lo, ← minMax_min (by decide)]; rfl
  case minUns32 => rw [← toNat_lo (hx rfl), ← toNat_lo (ho rfl), ← ofNat_lo, ← minMax_min (by decide)]; rfl
  case maxSgn32 => rw [← toNat_lo (hx rfl), ← toNat_lo (ho rfl), ← ofNat_lo, ← minMax_max (by decide)]; rfl
  case maxUns32 => rw [← toNat_lo (hx rfl), ← toNat_lo (ho rfl), ← ofNat_lo, ← minMax_max (by decide)]; rfl
  case minSgn64 => rw [← ofNat_toNat (wordMin true x o), ← minMax_min (by decide)]; rfl
  case minUns64 => rw [← ofNat_toNat (wordMin false x o), ← minMax_min (by decide)]; rfl
  case maxSgn64 => rw [← ofNat_toNat (wordMax true x o), ← minMax_max (by decide)]; rfl
  case maxUns64 => rw [← ofNat_toNat (wordMax false x o), ← minMax_max (by decide)]; rfl
  case and32 => exact (congrArg _ (BitVec.toNat_and ..).symm).trans (ofNat_toNat _)
  case and64 => exact (congrArg _ (BitVec.toNat_and ..).symm).trans (ofNat_toNat _)
  case or32 => exact (congrArg _ (BitVec.toNat_or ..).symm).trans (ofNat_toNat _)
  case or64 => exact (congrArg _ (BitVec.toNat_or ..).symm).trans (ofNat_toNat _)
  case xor32 => exact (congrArg _ (BitVec.toNat_xor ..).symm).trans (ofNat_toNat _)
  case xor64 => exact (congrArg _ (BitVec.toNat_xor ..).symm).trans (ofNat_toNat _)
  case xchg32 => exact ofNat_toNat o
  case xchg64 => exact ofNat_toNat o
  case cas32 => by_cases h : x = o <;> simp [h, BitVec.toNat_inj]
  case cas64 => by_cases h : x = o <;> simp [h, BitVec.toNat_inj]

theorem atomBytes_four_or_eight (op : AtomVar) : op.bytes = 4 ∨ op.bytes = 8 := by
  cases op <;> simp [AtomVar.bytes]

/-- One byte of a number of 64 bits at most. -/
theorem leBytes_getD_ofNat {n k : Nat} (hk : k < n) (hn : n ≤ 8) (v : Nat) : (leBytes n v).getD k 0 = (BitVec.ofNat 64 v).extractLsb' (8 * k) 8 := by
  rw [leBytes_getD hk]
  apply BitVec.eq_of_toNat_eq
  rw [BitVec.toNat_ofNat, BitVec.extractLsb'_toNat, BitVec.toNat_ofNat, Nat.shiftRight_eq_div_pow, Nat.pow_mul, show (2 : Nat) ^ 8 = 256 from rfl,
    show (2 : Nat) ^ 64 = 256 ^ k * 256 * 256 ^ (7 - k) by rw [show (2 : Nat) ^ 64 = 256 ^ 8 from rfl, ← Nat.pow_succ, ← Nat.pow_add]; congr 1; omega,
    Nat.mul_assoc, Nat.mod_mul_right_div_self, Nat.mod_mul_right_mod]

/-! ### Words that a RED changes -/

/-- The registry's state of the words, after a RED of one of them. -/
theorem Mem.reg?_redWord (m : Mem) (op : AtomVar) (pw : Nat) (val : Word) (k : Nat) :
    (m.redWord op pw val).reg? k = if k = pw then (m.reg? pw).map (fun r => { r with mask := 0xF, value := val }) else m.reg? k := by
  unfold Mem.redWord
  cases hr : m.reg? pw with
  | none =>
    show m.reg? k = _
    split
    · rename_i h; rw [h, hr]; rfl
    · rfl
  | some r =>
    have hpa := Mem.reg?_pa hr
    show (modWhere m.regs (fun x => x.pa == pw) (fun _ => { r with mask := 0xF, value := val })).find? (fun x => x.pa == k) = _
    split
    · rename_i h
      subst h
      exact find?_modWhere _ _ _ (by simpa using hpa) (List.any_eq_true.mpr ⟨r, Mem.reg?_mem hr, by simpa using hpa⟩)
    · rename_i h
      exact find?_modWhere_ne _ _ _ _ (by simpa [hpa] using Ne.symm h) (fun x hx => by
        have : x.pa = pw := by simpa using hx
        simpa [this] using Ne.symm h)

/-- A RED changes its word, as software reads it, and no other byte (R257). -/
theorem Mem.byte_redWord (m : Mem) (op : AtomVar) {pw : Nat} (hp : pw % 4 = 0) (val : Word) (a : Nat) :
    (m.redWord op pw val).byte a = if wordOf a = pw then byteOf val (a % 4) else m.byte a := by
  have hreg := m.reg?_redWord op pw val (wordOf a)
  have hmod : a % 4 < 4 := Nat.mod_lt _ (by decide)
  have hadd := wordOf_add_mod a
  cases hr : m.reg? pw with
  | none =>
    have hbytes : (m.redWord op pw val).bytes = m.bytes.write pw (leBytes 4 val.toNat) := by unfold Mem.redWord; rw [hr]; rfl
    by_cases h : wordOf a = pw
    · rw [if_pos h, Mem.byte_of_none (by rw [hreg, if_pos h, hr]; rfl), hbytes]
      have hlen : a % 4 < (leBytes 4 val.toNat).length := by rw [leBytes_length]; exact hmod
      have hget := Store.get_write_in m.bytes pw _ hlen
      rw [show pw + a % 4 = a by omega] at hget
      rw [hget, ← List.getD_eq_getElem _ 0, leBytes_getD hmod]
      simp [byteOf, Nat.pow_mul]
    · rw [if_neg h] at hreg ⊢
      have hget : (m.redWord op pw val).bytes.get a = m.bytes.get a := by
        rw [hbytes, Store.get_write_out _ _ _ (by rw [leBytes_length]; omega)]
      simp only [Mem.byte, hreg, hget]
  | some r =>
    have hbytes : (m.redWord op pw val).bytes = m.bytes := by unfold Mem.redWord; rw [hr]
    by_cases h : wordOf a = pw
    · rw [if_pos h] at hreg ⊢
      rw [hr] at hreg
      rw [Mem.byte_of_some hreg, if_pos]
      have : a % 4 = 0 ∨ a % 4 = 1 ∨ a % 4 = 2 ∨ a % 4 = 3 := by omega
      dsimp only
      rcases this with h | h | h | h <;> rw [h] <;> decide
    · rw [if_neg h] at hreg ⊢
      simp only [Mem.byte, hreg, hbytes]

/-- A byte after the first words of a RED of whole words. -/
theorem State.byte_redParts (op : AtomVar) {pa : Nat} (hpa : pa % 4 = 0) {bs : List Byte} (s : State) {k : Nat} (hk : 4 * k ≤ bs.length) (a : Nat) :
    (((List.range k).map (partAt pa bs)).foldl (fun t p => State.watch { t with mem := t.mem.redWord op p.1 p.2.2 } p.1) s).mem.byte a =
      if pa ≤ a ∧ a < pa + 4 * k then bs.getD (a - pa) 0 else s.mem.byte a := by
  have hword : wordOf pa = pa := by unfold wordOf; omega
  induction k with
  | zero => rw [if_neg (by omega)]; rfl
  | succ k ih =>
    rw [List.range_succ, List.map_append, List.foldl_append]
    simp only [List.map_cons, List.map_nil, List.foldl_cons, List.foldl_nil]
    have hpart : (partAt pa bs k).1 = pa + 4 * k := by simp only [partAt, hword]
    have hadd := wordOf_add_mod a
    have hj : a % 4 < 4 := Nat.mod_lt _ (by decide)
    have hal := wordOf_aligned a
    rw [State.watch_mem, Mem.byte_redWord _ _ (by rw [hpart]; omega), ih (by omega), hpart]
    by_cases he : wordOf a = pa + 4 * k
    · rw [if_pos he, partAt_byte pa bs k hj (by rw [partAt_mask pa bs k hj, hword]; simp; omega), hword, if_pos (by omega)]
      congr 1; omega
    · rw [if_neg he]
      have : (pa ≤ a ∧ a < pa + 4 * k) ↔ (pa ≤ a ∧ a < pa + 4 * (k + 1)) := by omega
      simp only [this]

/-- A RED leaves the value of its operation at its place, and every other byte as it was (R257). -/
theorem State.byte_redAt (s : State) (op : AtomVar) {pa : Nat} (hpa : pa % op.bytes = 0) (opnd a : Nat) :
    (s.redAt op pa opnd).mem.byte a = if pa ≤ a ∧ a < pa + op.bytes then
      (leBytes op.bytes (atomApply op (leNat (s.mem.read pa op.bytes)) opnd 0)).getD (a - pa) 0 else s.mem.byte a := by
  obtain ⟨k, hk⟩ : ∃ k, op.bytes = 4 * k := by
    rcases atomBytes_four_or_eight op with h | h
    · exact ⟨1, h⟩
    · exact ⟨2, h⟩
  have h4 : pa % 4 = 0 := by
    rcases atomBytes_four_or_eight op with h | h <;> rw [h] at hpa <;> omega
  unfold State.redAt
  dsimp only
  rw [wordParts_eq]
  simp only [leBytes_length]
  rw [show (pa + op.bytes + 3) / 4 - pa / 4 = k by rw [hk]; omega, State.byte_redParts op h4 s (by rw [leBytes_length, hk])]
  rw [hk]

theorem leNat_lt (l : List Byte) : leNat l < 256 ^ l.length := by
  induction l with
  | nil => decide
  | cons b r ih =>
    have hb := b.isLt
    rw [leNat, List.length_cons, Nat.pow_succ]
    omega

theorem Mem.leNat_read_lt (m : Mem) (pa n : Nat) : leNat (m.read pa n) < 256 ^ n := by
  have h := leNat_lt (m.read pa n)
  rwa [Mem.read, List.length_map, List.length_range] at h

theorem valueAt_toNat (m : Mem) (pa : Nat) (op : AtomVar) : (valueAt m.byte pa op.bytes).toNat = leNat (m.read pa op.bytes) := by
  have h := m.leNat_read_lt pa op.bytes
  rw [show valueAt m.byte pa op.bytes = BitVec.ofNat 64 (leNat (m.read pa op.bytes)) from rfl, BitVec.toNat_ofNat, Nat.mod_eq_of_lt]
  refine Nat.lt_of_lt_of_le h ?_
  rcases atomBytes_four_or_eight op with hop | hop <;> rw [hop] <;> decide

/-- A RED does R194's operation on the word it finds (R257). -/
theorem State.byte_redAt_atomStep (s : State) (op : AtomVar) {pa : Nat} (hpa : pa % op.bytes = 0) {opnd : DWord} (ho : op.bytes = 4 → opnd.toNat < 2 ^ 32)
    (a : Nat) : (s.redAt op pa opnd.toNat).mem.byte a = atomStep op s.mem.byte pa opnd 0 a := by
  rw [State.byte_redAt s op hpa, atomStep]
  split
  · rename_i h
    have h8 : op.bytes ≤ 8 := by rcases atomBytes_four_or_eight op with hop | hop <;> omega
    rw [leBytes_getD_ofNat (by omega) h8, ← valueAt_toNat, atomApply_eq op (fun hop => ?_) ho]
    have h := s.mem.leNat_read_lt pa op.bytes
    rw [valueAt_toNat]
    rw [hop] at h ⊢
    exact h
  · rfl

theorem Mem.byte_renewAll (ps : List (Nat × BitVec 4 × Word)) (core : Nat) (m : Mem) (a : Nat) :
    (ps.foldl (fun m p => m.renew core p.1) m).byte a = m.byte a := by
  induction ps generalizing m with
  | nil => rfl
  | cons p r ih => rw [List.foldl_cons, ih, Mem.byte_renew]

/-- A RED within reach, performed, as software reads it. -/
theorem State.byte_performRed {s : State} {r : PostedRed} (h : s.outOfReach (agentDie r.agent) r.pa r.op.bytes = false) (a : Nat) :
    (s.performRed r).mem.byte a = (s.redAt r.op r.pa r.opnd.toNat).mem.byte a := by
  unfold State.performRed
  rw [if_neg (by simp [h])]
  dsimp only
  split
  · exact Mem.byte_renewAll _ _ _ a
  · rfl

theorem State.redPerform_some {s : State} {k : Nat} {r : PostedRed} (hr : s.mem.reds.find? (fun q => q.key == k) = some r) :
    s.redPerform k = if s.mem.reds.any (fun q => q.key < k && q.gid == r.gid && overlap q.pa q.op.bytes r.pa r.op.bytes) then s
      else State.performRed { s with mem := { s.mem with reds := s.mem.reds.filter (fun q => q.key != k) } } r := by
  unfold State.redPerform
  rw [hr]

/-! ### Stores that do not arrive at once -/

theorem Group.countStore_other (g : Group) (refused : Bool) (va now : Nat) :
    g.countStore false refused va now = { g with delOther := (g.countStore false refused va now).delOther } := rfl

theorem Group.countStore_pkg (g : Group) (refused : Bool) (va now : Nat) :
    g.countStore true refused va now = { g with delPkg := (g.countStore true refused va now).delPkg } := rfl

/-- REMOTE_STORE_REFUSAL takes a posted store away and counts it in its group's record. -/
theorem State.remoteRefusal_spec {s : State} {k : Nat} {p : Posted} {g : Group} (hp : s.mem.posted.find? (fun q => q.key == k) = some p)
    (hg : s.group? p.gid = some g) :
    (s.remoteRefusal k).onlyGroup { s with mem := { s.mem with posted := s.mem.posted.filter (fun q => q.key != k) } } (g.countStore false true p.va s.fresh) := by
  have hgid : g.gid = p.gid := State.group?_gid hg
  unfold State.remoteRefusal
  rw [hp]
  dsimp only
  rw [← hgid] at hg ⊢
  exact State.modGroup_onlyGroup _ hg (fun _ => rfl)

theorem State.replUpdate_some {s : State} {k : Nat} {r : ReplWrite} (hr : s.mem.repls.find? (fun q => q.key == k) = some r) :
    s.replUpdate k = if s.mem.repls.any (fun q => q.key < k && ((agentCore q.agent == agentCore r.agent && q.pa / 2 ^ 37 == r.pa / 2 ^ 37)
      || overlap q.pa q.bytes.length r.pa r.bytes.length)) then s else s.replArrives r := by
  unfold State.replUpdate
  rw [hr]
  rfl

/-- A store whose path to a replica has died is taken away, and counted once. -/
theorem State.replArrives_lost {s : State} {r : ReplWrite} (h : s.path (agentDie r.agent) (homeDie r.pa) = false) :
    (s.replArrives r).mem.repls.map (fun q => q.key) = (s.mem.repls.map (fun q => q.key)).filter (· != r.key) ∧
      (s.replArrives r).mem.bytes = s.mem.bytes ∧
      ∀ g, s.group? r.gid = some g → ∃ h, (s.replArrives r).group? r.gid = some h ∧ h = { g with delPkg := h.delPkg } ∧
        h.delPkg.lost = g.delPkg.lost + (if s.mem.repls.any (fun q => q.store == r.store && q.counted) = true then 0 else 1) := by
  have hkeys : ∀ l : List ReplWrite, (l.filter (fun q => q.key != r.key)).map (fun q => q.key) = (l.map (fun q => q.key)).filter (· != r.key) :=
    fun l => by rw [List.filter_map]; rfl
  unfold State.replArrives
  rw [if_neg (by simp [h])]
  dsimp only
  unfold State.replLost
  by_cases hc : s.mem.repls.any (fun q => q.store == r.store && q.counted) = true
  · rw [if_pos hc]
    exact ⟨hkeys _, rfl, fun g hg => ⟨g, hg, rfl, by rw [if_pos hc]; rfl⟩⟩
  · rw [if_neg hc]
    refine ⟨?_, rfl, fun g hg => ?_⟩
    · rw [hkeys]
      congr 1
      show List.map _ (List.map _ s.mem.repls) = _
      rw [List.map_map]
      refine List.map_congr_left fun q _ => ?_
      show ReplWrite.key (if q.store == r.store then { q with counted := true } else q) = q.key
      split <;> rfl
    · have hgid := State.group?_gid hg
      refine ⟨g.countStore true false r.va s.fresh, ?_, rfl, ?_⟩
      · exact find_modWhere_same _ (fun k hk => hk) hg
      · rw [if_neg hc]; rfl

/-- A store arrives at a replica. -/
theorem State.replArrives_taken {s : State} {r : ReplWrite} (h : s.path (agentDie r.agent) (homeDie r.pa) = true) :
    (s.replArrives r).mem.repls = s.mem.repls.filter (fun q => q.key != r.key) ∧ (s.replArrives r).mem.bytes = s.mem.bytes.write r.pa r.bytes := by
  unfold State.replArrives
  rw [if_pos h]
  exact ⟨rfl, rfl⟩

/-! ### Walks (R312, R315) -/

/-- Is an entry in the same TLB as another? -/
def Tlb.beside (e x : Tlb) : Bool := x.core == e.core && x.die == e.die

theorem tlbPut_of_new {l : List Tlb} {e : Tlb} (h : l.contains e = false) (room va : Nat) :
    tlbPut l room e va =
      (if decide (room ≤ ((l.filter (fun x => !(e.beside x && x.covers e.vi va))).filter e.beside).length) = true
        then (l.filter (fun x => !(e.beside x && x.covers e.vi va))).erase (((l.filter (fun x => !(e.beside x && x.covers e.vi va))).find? e.beside).getD e)
        else l.filter (fun x => !(e.beside x && x.covers e.vi va))) ++ [e] := by
  unfold tlbPut
  rw [if_neg (fun hc => by rw [h] at hc; cases hc)]
  rfl

/-- Taking the first entry that a test names leaves one fewer of those. -/
theorem length_filter_erase_find {α : Type} [DecidableEq α] (l : List α) (t : α → Bool) (d : α) (h : 0 < (l.filter t).length) :
    ((l.erase ((l.find? t).getD d)).filter t).length + 1 = (l.filter t).length := by
  cases hx : l.find? t with
  | none =>
    rw [List.filter_eq_nil_iff.mpr (fun a ha => List.find?_eq_none.mp hx a ha)] at h
    exact absurd h (by simp)
  | some x =>
    have hperm := (List.perm_cons_erase (List.mem_of_find?_eq_some hx)).filter t
    rw [hperm.length_eq, List.filter_cons_of_pos (List.find?_some hx)]
    rfl

/-- The room of a TLB is kept: what goes in takes the place of another, or of the oldest one. -/
theorem tlbPut_spec (l : List Tlb) {room : Nat} (hroom : 0 < room) (e : Tlb) (va : Nat) :
    e ∈ tlbPut l room e va ∧ (∀ x ∈ tlbPut l room e va, x ∈ l ∨ x = e) ∧
      ((l.filter e.beside).length ≤ room → ((tlbPut l room e va).filter e.beside).length ≤ room) := by
  cases hin : l.contains e with
  | true =>
    have hput : tlbPut l room e va = l := by unfold tlbPut; rw [if_pos hin]
    rw [hput]
    exact ⟨by simpa using hin, fun x hx => .inl hx, id⟩
  | false =>
    rw [tlbPut_of_new hin]
    have hsub : (l.filter (fun x => !(e.beside x && x.covers e.vi va))).Sublist l := List.filter_sublist
    generalize l.filter (fun x => !(e.beside x && x.covers e.vi va)) = l1 at hsub
    have hlen : (l1.filter e.beside).length ≤ (l.filter e.beside).length := (hsub.filter _).length_le
    have hself : e.beside e = true := by simp [Tlb.beside]
    refine ⟨by simp, fun x hx => ?_, fun hl => ?_⟩
    · rcases List.mem_append.mp hx with hx | hx
      · left
        split at hx
        · exact hsub.mem (List.mem_of_mem_erase hx)
        · exact hsub.mem hx
      · exact .inr (by simpa using hx)
    · rw [List.filter_append, List.length_append, List.filter_cons_of_pos hself]
      simp only [List.filter_nil, List.length_cons, List.length_nil, decide_eq_true_eq]
      split
      · have := length_filter_erase_find l1 e.beside e (by omega)
        omega
      · omega

/-! ### Pages that move (R273) -/

/-- What a range of a store reads after it has moved, key by key. -/
theorem Store.get_setAll_shift {w : Nat} (part st : Store w) {b : Option Nat} (hpart : Store.above part b) (old new j : Nat) (hold : ∀ c ∈ part, old ≤ c.1) :
    Store.get (Store.setAll st (part.map (fun c => (c.1 - old + new, c.2)))) (new + j) =
      if Store.get part (old + j) = 0 then st.get (new + j) else Store.get part (old + j) := by
  induction part generalizing st b with
  | nil => rfl
  | cons c r ih =>
    obtain ⟨k, x⟩ := c
    simp only [Store.above, Bool.and_eq_true] at hpart
    obtain ⟨⟨-, hx⟩, hr⟩ := hpart
    have hk : old ≤ k := hold (k, x) (List.mem_cons_self ..)
    rw [show Store.setAll st (List.map (fun c => (c.1 - old + new, c.2)) ((k, x) :: r)) =
      Store.setAll (st.set (k - old + new) x) (r.map (fun c => (c.1 - old + new, c.2))) from rfl,
      ih _ hr (fun c hc => hold c (List.mem_cons_of_mem _ hc)), Store.get]
    by_cases he : k = old + j
    · rw [if_pos he, Store.above_get_zero r hr (Nat.le_of_eq he.symm), if_pos rfl, show new + j = k - old + new by omega, Store.get_set_same,
        if_neg (by simpa using hx)]
    · rw [if_neg he, Store.get_set_ne _ _ (by omega)]

/-- A moved range reads as it did at its old place. -/
theorem Store.get_moveRange {w : Nat} {st : Store w} (hst : st.wf = true) (old new : Nat) {n j : Nat} (hj : j < n) :
    (st.moveRange old new n).get (new + j) = st.get (old + j) := by
  unfold Store.moveRange
  rw [Store.get_setAll_shift _ _ (Store.above_filter st _ hst) old new j (fun c hc => by
    have := (List.mem_filter.mp hc).2
    simp at this
    exact this.1)]
  have hpart := Store.get_filter_key st (fun k => decide (old ≤ k) && decide (k < old + n)) (old + j)
  have hrest := Store.get_filter_key st (fun k => !(decide (new ≤ k) && decide (k < new + n))) (new + j)
  rw [if_pos (by simp; omega)] at hpart
  rw [if_neg (by simp; omega)] at hrest
  rw [hpart, hrest]
  split
  · rename_i h; rw [h]
  · rfl

/-- Registrations that are written back are gone from the list. -/
theorem Mem.not_mem_writeBackAll {m : Mem} {l : List Nat} {r : Reg} (hr : r ∈ (m.writeBackAll l).regs) : r.pa ∉ l := fun hl =>
  absurd (List.find?_eq_none.mp (Mem.reg?_writeBackAll m l (.inl hl)) r hr) (by simp)

theorem Mem.reg?_none_of {m : Mem} {pw : Nat} (h : ∀ r ∈ m.regs, r.pa ≠ pw) : m.reg? pw = none :=
  List.find?_eq_none.mpr fun r hr => by simpa using h r hr

/-- The memory of a home move before its bytes are copied: no word of either frame is registered. -/
def Mem.moveReady (m : Mem) (old new n : Nat) : Mem :=
  m.writeBackAll ((m.regs.filter (fun r => (decide (old ≤ r.pa) && decide (r.pa < old + n)) || (decide (new ≤ r.pa) && decide (r.pa < new + n)))).map (fun r => r.pa))

theorem Mem.moveReady_regs {m : Mem} {old new n : Nat} {r : Reg} (hr : r ∈ (m.moveReady old new n).regs) :
    ¬(old ≤ r.pa ∧ r.pa < old + n) ∧ ¬(new ≤ r.pa ∧ r.pa < new + n) := by
  have hmem : r ∈ m.regs := (m.regs_writeBackAll_sublist _).mem hr
  have hnot := Mem.not_mem_writeBackAll hr
  rw [← not_or]
  refine fun hin => hnot (List.mem_map.mpr ⟨r, List.mem_filter.mpr ⟨hmem, ?_⟩, rfl⟩)
  simpa using hin

/-- With no RED under way, a page that moves is written back, copied, and its registrations are gone. -/
theorem State.movePage_bytes {s : State} (old new n : Nat) (hreds : s.mem.reds = []) :
    (s.movePage old new n).mem.bytes = (s.mem.moveReady old new n).bytes.moveRange old new n ∧
      (s.movePage old new n).mem.regs = (s.mem.moveReady old new n).regs ∧ (s.movePage old new n).mem.tlb = (s.mem.moveReady old new n).tlb := by
  have hnone : s.performReds (fun r => decide (old ≤ r.pa) && decide (r.pa < old + n)) = s := State.performReds_none (by simp [hreds])
  unfold State.movePage
  dsimp only
  rw [hnone]
  exact ⟨rfl, rfl, rfl⟩

/-- A page that moves has its bytes at its new frame (R273). -/
theorem State.byte_movePage {s : State} {old new n j : Nat} (hwf : Memory.wf s.mem = true) (hreds : s.mem.reds = []) (ho : old % 4 = 0) (hn : new % 4 = 0)
    (hj : j < n) : (s.movePage old new n).mem.byte (new + j) = s.mem.byte (old + j) := by
  obtain ⟨hbytes, hregs, -⟩ := State.movePage_bytes (s := s) old new n hreds
  have haligned : ∀ p ∈ (s.mem.regs.filter (fun r => (decide (old ≤ r.pa) && decide (r.pa < old + n)) || (decide (new ≤ r.pa) && decide (r.pa < new + n)))).map
      (fun r => r.pa), p % 4 = 0 := fun p hp => by
    obtain ⟨r, hr, rfl⟩ := List.mem_map.mp hp
    exact Memory.regs_aligned hwf (List.mem_of_mem_filter hr)
  have hready : Memory.wf (s.mem.moveReady old new n) = true := Mem.writeBackAll_wf _ hwf
  have hword : ∀ k, wordOf k = k / 4 * 4 := fun _ => rfl
  have hnew : (s.movePage old new n).mem.reg? (wordOf (new + j)) = none := Mem.reg?_none_of fun r hr he => by
    rw [hregs] at hr
    exact (Mem.moveReady_regs hr).2 (by rw [he, hword]; omega)
  have hold : (s.mem.moveReady old new n).reg? (wordOf (old + j)) = none := Mem.reg?_none_of fun r hr he =>
    (Mem.moveReady_regs hr).1 (by rw [he, hword]; omega)
  rw [Mem.byte_of_none hnew, hbytes, Store.get_moveRange (Memory.bytes_wf hready) old new hj, ← Mem.byte_of_none hold]
  exact Mem.byte_writeBackAll _ _ haligned _

theorem State.deviceWrite_regs_mem {s : State} {pa : Nat} {bs : List Byte} {r : Reg} (h : r ∈ (s.deviceWrite pa bs).mem.regs) : r ∈ s.mem.regs := by
  simp only [State.deviceWrite, State.watches_mem] at h
  exact (s.mem.regs_writeBackAll_sublist _).mem h

/-- The page sizes of R312 are powers of two, of 8 KiB or more. -/
theorem leafFrom_size {s : State} {va : Nat} {l : List (Nat × Nat × Nat × Bool)} (hl : ∀ x ∈ l, 2 ≤ x.2.1) {table e n : Nat}
    (h : leafFrom s va l table = some (e, n)) : n % 4 = 0 := by
  induction l generalizing table with
  | nil => cases h
  | cons x r ih =>
    obtain ⟨lv, lo, w, ok⟩ := x
    rw [leafFrom] at h
    split at h
    · cases h
    · split at h
      · obtain ⟨-, rfl⟩ := Prod.mk.inj (Option.some.inj h)
        obtain ⟨k, hk⟩ := Nat.exists_eq_add_of_le (hl _ (List.mem_cons_self ..))
        rw [show lo = 2 + k from hk, Nat.pow_add]
        exact Nat.mul_mod_right ..
      · exact ih (fun x hx => hl x (List.mem_cons_of_mem _ hx)) h

/-- A home move whose checks pass moves the page, writes its table entry and drops its translations (R273). -/
theorem State.homeMove_moved {s : State} {vi va die frame e n : Nat} {t : Trans} (hw : walk s vi va = .ok t)
    (hleaf : leafFrom s va walkLevels (s.viOf vi).ptroot = some (e, n)) (hrepl : t.repl = false)
    (hfine : (chipOf va == s.fabric.chip.toNat && decide (die < 4) && (die * 2 ^ 37 + 8192 * frame) % n == 0 && paOk (die * 2 ^ 37 + 8192 * frame)
      && paOk (die * 2 ^ 37 + 8192 * frame + n - 1) && !s.fenced die && !s.fenced (alignDown t.pa n / 2 ^ 37)
      && s.ownsNew vi (die * 2 ^ 37 + 8192 * frame) n t.repl && alignDown t.pa n != die * 2 ^ 37 + 8192 * frame
      && s.path (alignDown t.pa n / 2 ^ 37) die && !s.cutOwner (alignDown t.pa n) n && !s.cutOwner (die * 2 ^ 37 + 8192 * frame) n
      && !s.cmds.any (fun c => (s.task? c.task).any (fun k => k.vi == vi))) = true) :
    s.homeMove vi va die frame = ((s.movePage (alignDown t.pa n) (die * 2 ^ 37 + 8192 * frame) n).deviceWrite
      (moved (alignDown t.pa n) (die * 2 ^ 37 + 8192 * frame) n e)
      (leBytes 8 (leNat (s.mem.read e 8) - fld (leNat (s.mem.read e 8)) 13 40 * 2 ^ 13 + (die * 2 ^ 37 + 8192 * frame)))).dropTlb
      (fun x => x.vi == vi && decide (x.base ≤ va) && decide (va < x.base + x.size)) := by
  unfold State.homeMove
  rw [hw, hleaf]
  dsimp only
  rw [if_pos hfine, if_neg (by simp [hrepl])]

/-! ### Frames with a new owner (R316) -/

theorem mem_withOlder {α : Type} {before : α → α → Bool} {t : α → Bool} {l : List α} {a : α} (ha : a ∈ l) (ht : t a = true) : a ∈ withOlder before t l := by
  induction l with
  | nil => cases ha
  | cons b r ih =>
    rw [withOlder, List.foldr_cons]
    change a ∈ if (t b || (withOlder before t r).any (before b)) = true then b :: withOlder before t r else withOlder before t r
    rcases List.mem_cons.mp ha with rfl | ha
    · rw [if_pos (by simp [ht])]; exact List.mem_cons_self ..
    · split
      · exact List.mem_cons_of_mem _ (ih ha)
      · exact ih ha

/-- The REDs, the stores to replicas and the translations of a state are another's. -/
def State.sameFlow (t s : State) : Prop := t.mem.reds = s.mem.reds ∧ t.mem.repls = s.mem.repls ∧ t.mem.tlb = s.mem.tlb

theorem State.sameFlow_refl (s : State) : s.sameFlow s := ⟨rfl, rfl, rfl⟩

theorem State.sameFlow_trans {u t s : State} (h : u.sameFlow t) (h' : t.sameFlow s) : u.sameFlow s :=
  ⟨h.1.trans h'.1, h.2.1.trans h'.2.1, h.2.2.trans h'.2.2⟩

theorem State.sameFlow_foldl {α : Type} {f : State → α → State} (h : ∀ t a, (f t a).sameFlow t) (l : List α) (s : State) : (l.foldl f s).sameFlow s :=
  foldl_keeps (fun t => t.sameFlow s) f (fun t a ht => State.sameFlow_trans (h t a) ht) l s s.sameFlow_refl

theorem Mem.renew_sameFlow (m : Mem) (core pw : Nat) :
    (m.renew core pw).reds = m.reds ∧ (m.renew core pw).repls = m.repls ∧ (m.renew core pw).tlb = m.tlb := by
  unfold Mem.renew Mem.setStashCopy
  refine foldl_keeps (fun n : Mem => n.reds = m.reds ∧ n.repls = m.repls ∧ n.tlb = m.tlb) _ (fun n l hb => ?_) _ _ ⟨rfl, rfl, rfl⟩
  exact hb

theorem Mem.redWord_sameFlow (m : Mem) (op : AtomVar) (pw : Nat) (val : Word) :
    (m.redWord op pw val).reds = m.reds ∧ (m.redWord op pw val).repls = m.repls ∧ (m.redWord op pw val).tlb = m.tlb := by
  unfold Mem.redWord
  cases m.reg? pw <;> exact ⟨rfl, rfl, rfl⟩

theorem State.storeWord_sameFlow (s : State) (plain : Option Writer) (ag : Agent) (pa : Nat) (mask : BitVec 4) (val : Word) :
    (s.storeWord plain ag pa mask val).sameFlow s := by
  have hreg : ({ s with mem := s.mem.register plain ag (wordOf pa) mask val } : State).sameFlow s := by
    have hframe := s.mem.register_frame plain ag (wordOf pa) mask val
    exact ⟨(congrArg Mem.reds hframe :), (congrArg Mem.repls hframe :), (congrArg Mem.tlb hframe :)⟩
  unfold State.storeWord
  refine State.sameFlow_trans (t := { s with mem := s.mem.register plain ag (wordOf pa) mask val }) ?_ hreg
  dsimp only
  split
  · exact Mem.renew_sameFlow _ _ _
  · exact State.sameFlow_refl _

theorem State.redAt_sameFlow (s : State) (op : AtomVar) (pa opnd : Nat) : (s.redAt op pa opnd).sameFlow s :=
  State.sameFlow_foldl (f := fun t (p : Nat × BitVec 4 × Word) => State.watch { t with mem := t.mem.redWord op p.1 p.2.2 } p.1)
    (fun t p => t.mem.redWord_sameFlow op p.1 p.2.2) _ s

theorem State.performRed_sameFlow (s : State) (r : PostedRed) : (s.performRed r).sameFlow s := by
  unfold State.performRed
  split
  · exact s.sameFlow_refl
  · dsimp only
    split
    · refine State.sameFlow_trans (t := s.redAt r.op r.pa r.opnd.toNat) ?_ (s.redAt_sameFlow ..)
      exact foldl_keeps (fun m : Mem => m.reds = (s.redAt r.op r.pa r.opnd.toNat).mem.reds ∧ m.repls = (s.redAt r.op r.pa r.opnd.toNat).mem.repls ∧
        m.tlb = (s.redAt r.op r.pa r.opnd.toNat).mem.tlb) _ (fun m p hm => by
          obtain ⟨h1, h2, h3⟩ := m.renew_sameFlow _ p.1
          exact ⟨h1.trans hm.1, h2.trans hm.2.1, h3.trans hm.2.2⟩) _ _ ⟨rfl, rfl, rfl⟩
    · exact s.redAt_sameFlow ..

/-- REDs that a test names are under way no more. -/
theorem State.performReds_spec (s : State) (t : PostedRed → Bool) :
    (∀ r ∈ (s.performReds t).mem.reds, t r = false) ∧ (s.performReds t).mem.tlb = s.mem.tlb := by
  obtain ⟨hreds, -, htlb⟩ := State.sameFlow_foldl State.performRed_sameFlow (withOlder PostedRed.precedes t s.mem.reds)
    { s with mem := { s.mem with reds := s.mem.reds.filter (fun r => !(withOlder PostedRed.precedes t s.mem.reds).contains r) } }
  refine ⟨fun r hr => ?_, htlb⟩
  rw [show (s.performReds t).mem.reds = _ from hreds] at hr
  obtain ⟨hmem, hnot⟩ := List.mem_filter.mp hr
  cases ht : t r with
  | false => rfl
  | true => simp [mem_withOlder hmem ht] at hnot

theorem State.replArrives_flow (s : State) (r : ReplWrite) :
    (s.replArrives r).mem.reds = s.mem.reds ∧ (s.replArrives r).mem.tlb = s.mem.tlb ∧
      ∀ q ∈ (s.replArrives r).mem.repls, q.key ≠ r.key ∧ ∃ p ∈ s.mem.repls, p.key = q.key ∧ p.pa = q.pa := by
  unfold State.replArrives
  split
  · refine ⟨rfl, rfl, fun q hq => ?_⟩
    obtain ⟨hmem, hne⟩ := List.mem_filter.mp hq
    exact ⟨by simpa using hne, q, hmem, rfl, rfl⟩
  · dsimp only
    unfold State.replLost
    split
    · refine ⟨rfl, rfl, fun q hq => ?_⟩
      obtain ⟨hmem, hne⟩ := List.mem_filter.mp hq
      exact ⟨by simpa using hne, q, hmem, rfl, rfl⟩
    · refine ⟨rfl, rfl, fun q hq => ?_⟩
      obtain ⟨hmem, hne⟩ := List.mem_filter.mp hq
      obtain ⟨p, hp, rfl⟩ := List.mem_map.mp hmem
      refine ⟨by simpa using hne, p, hp, ?_⟩
      split <;> exact ⟨rfl, rfl⟩

theorem State.replsArrive_flow (l : List ReplWrite) (s : State) :
    (l.foldl State.replArrives s).mem.reds = s.mem.reds ∧ (l.foldl State.replArrives s).mem.tlb = s.mem.tlb ∧
      ∀ q ∈ (l.foldl State.replArrives s).mem.repls, (∀ r ∈ l, q.key ≠ r.key) ∧ ∃ p ∈ s.mem.repls, p.key = q.key ∧ p.pa = q.pa := by
  induction l generalizing s with
  | nil => exact ⟨rfl, rfl, fun q hq => ⟨by simp, q, hq, rfl, rfl⟩⟩
  | cons r l ih =>
    obtain ⟨h1, h2, h3⟩ := ih (s.replArrives r)
    obtain ⟨k1, k2, k3⟩ := s.replArrives_flow r
    refine ⟨h1.trans k1, h2.trans k2, fun q hq => ?_⟩
    obtain ⟨hne, p, hp, hkey, hpa⟩ := h3 q hq
    obtain ⟨hne', p', hp', hkey', hpa'⟩ := k3 p hp
    refine ⟨fun r' hr' => ?_, p', hp', hkey'.trans hkey, hpa'.trans hpa⟩
    rcases List.mem_cons.mp hr' with rfl | hr'
    · exact hkey ▸ hne'
    · exact hne r' hr'

/-- Stores to replicas that a test of their places names are under way no more. -/
theorem State.flushRepls_spec (s : State) (t : Nat → Bool) :
    (s.flushRepls (fun q => t q.pa)).mem.reds = s.mem.reds ∧ (s.flushRepls (fun q => t q.pa)).mem.tlb = s.mem.tlb ∧
      ∀ q ∈ (s.flushRepls (fun q => t q.pa)).mem.repls, t q.pa = false := by
  obtain ⟨h1, h2, h3⟩ := State.replsArrive_flow (withOlder ReplWrite.precedes (fun q => t q.pa) s.mem.repls) s
  refine ⟨h1, h2, fun q hq => ?_⟩
  obtain ⟨hne, p, hp, hkey, hpa⟩ := h3 q hq
  cases ht : t q.pa with
  | false => rfl
  | true => exact absurd hkey.symm (hne p (mem_withOlder hp (by rw [hpa]; exact ht)))

theorem State.serve_sameFlow (s : State) (v : Revoke) : (s.serve v).sameFlow s := by
  unfold State.serve
  dsimp only
  split
  · exact State.storeWord_sameFlow _ _ _ _ _ _
  · exact s.sameFlow_refl

theorem State.answerRevoke_sameFlow (s : State) (v : Revoke) : (s.answerRevoke v).sameFlow s := by
  unfold State.answerRevoke
  split
  · exact s.sameFlow_refl
  · split
    · refine State.sameFlow_trans (State.serve_sameFlow _ v) ?_
      rw [s.giveBack_frame]
      exact s.sameFlow_refl
    · exact s.serve_sameFlow v

/-! A frame that is quit, and what the answers before it leave. -/

/-- Is an address on a frame? -/
def onFrame (pa a : Nat) : Bool := decide (pa ≤ a) && decide (a < pa + 8192)

/-- The state in which a frame's registrations end: its REDs, stores and requests are served. -/
def State.frameServed (s : State) (pa : Nat) : State :=
  let s1 := (s.performReds (fun r => onFrame pa r.pa)).flushRepls (fun q => onFrame pa q.pa)
  (s1.mem.revokes.filter (fun v => onFrame pa v.pa)).foldl State.answerRevoke s1

/-- The registrations of a frame that end at their homes. -/
def State.frameMem (s : State) (pa : Nat) : Mem :=
  s.mem.writeBackAll (((s.mem.regs.filter (fun r => onFrame pa r.pa)).map (fun r => r.pa)).filter s.ownerPath)

/-- What stands in the memory of a frame that is quit. -/
theorem State.quitFrame_mem (s : State) (pa : Nat) : ∃ lines homeVa,
    (s.quitFrame pa).mem = { (s.frameServed pa).frameMem pa with
      regs := ((s.frameServed pa).frameMem pa).regs.filter (fun r => !onFrame pa r.pa)
      revokes := ((s.frameServed pa).frameMem pa).revokes.filter (fun v => !onFrame pa v.pa)
      copies := ((s.frameServed pa).frameMem pa).copies.filter (fun c => !onFrame pa c.pa)
      lines := lines, homeVa := homeVa } ∧
    ∀ l ∈ lines, l.mapped.isSome = true → l.pa = 2 ^ 80 ∨ onFrame pa l.pa = false := by
  refine ⟨_, _, rfl, fun l hl hmapped => ?_⟩
  obtain ⟨k, -, rfl⟩ := List.mem_map.mp hl
  dsimp only at hmapped ⊢
  split at hmapped
  · next h => rw [if_pos h]; exact .inl rfl
  · next h =>
    rw [if_neg h]
    by_cases hpa : k.pa = 2 ^ 80
    · exact .inl hpa
    · right
      cases hon : onFrame pa k.pa with
      | false => rfl
      | true => 
        refine absurd ?_ h
        have hne : (k.pa != 2 ^ 80) = true := bne_iff_ne.mpr hpa
        have hin : (decide (pa ≤ k.pa) && decide (k.pa < pa + 8192)) = true := hon
        rw [hmapped, hne, hin]
        rfl

/-- Nothing of a frame that is quit is left. -/
theorem State.quitFrame_left (s : State) (pa : Nat) :
    (∀ r ∈ (s.quitFrame pa).mem.regs, onFrame pa r.pa = false) ∧ (∀ c ∈ (s.quitFrame pa).mem.copies, onFrame pa c.pa = false) ∧
      (∀ r ∈ (s.quitFrame pa).mem.reds, onFrame pa r.pa = false) ∧ (∀ q ∈ (s.quitFrame pa).mem.repls, onFrame pa q.pa = false) ∧
      (∀ v ∈ (s.quitFrame pa).mem.revokes, onFrame pa v.pa = false) ∧
      (∀ l ∈ (s.quitFrame pa).mem.lines, l.mapped.isSome = true → l.pa = 2 ^ 80 ∨ onFrame pa l.pa = false) ∧ (s.quitFrame pa).mem.tlb = s.mem.tlb := by
  obtain ⟨lines, homeVa, hmem, hlines⟩ := s.quitFrame_mem pa
  have hback := Mem.writeBackAll_frame (s.frameServed pa).mem
    ((((s.frameServed pa).mem.regs.filter (fun r => onFrame pa r.pa)).map (fun r => r.pa)).filter (s.frameServed pa).ownerPath)
  obtain ⟨hreds, htlb⟩ := s.performReds_spec (fun r => onFrame pa r.pa)
  obtain ⟨hreds', htlb', hrepls⟩ := (s.performReds (fun r => onFrame pa r.pa)).flushRepls_spec (onFrame pa)
  obtain ⟨hr, hq, ht⟩ := State.sameFlow_foldl State.answerRevoke_sameFlow
    (((s.performReds (fun r => onFrame pa r.pa)).flushRepls (fun q => onFrame pa q.pa)).mem.revokes.filter (fun v => onFrame pa v.pa))
    ((s.performReds (fun r => onFrame pa r.pa)).flushRepls (fun q => onFrame pa q.pa))
  have hkept : ∀ {α : Type} {f : α → Bool} {l : List α}, ∀ a ∈ l.filter (fun a => !f a), f a = false := fun a ha => by simpa using (List.mem_filter.mp ha).2
  rw [hmem]
  refine ⟨fun r hr => hkept (f := fun r : Reg => onFrame pa r.pa) r hr, fun c hc => hkept (f := fun c : Copy => onFrame pa c.pa) c hc, fun r hr' => ?_, fun q hq' => ?_,
    fun v hv => hkept (f := fun v : Revoke => onFrame pa v.pa) v hv, hlines, ?_⟩
  · have h1 : r ∈ (s.frameServed pa).mem.reds := (congrArg Mem.reds hback :) ▸ hr'
    exact hreds r (hreds' ▸ (hr ▸ h1 :))
  · have h1 : q ∈ (s.frameServed pa).mem.repls := (congrArg Mem.repls hback :) ▸ hq'
    exact hrepls q (hq ▸ h1 :)
  · exact ((congrArg Mem.tlb hback :).trans ht).trans (htlb'.trans htlb)

/-- Where nothing was on its way to a frame and its owners can be reached, no byte changes (R5, R316). -/
theorem State.byte_quitFrame {s : State} {pa : Nat} (hwf : Memory.wf s.mem = true) (hreds : ∀ r ∈ s.mem.reds, onFrame pa r.pa = false)
    (hrepls : ∀ q ∈ s.mem.repls, onFrame pa q.pa = false) (hrevokes : ∀ v ∈ s.mem.revokes, onFrame pa v.pa = false)
    (hpath : ∀ r ∈ s.mem.regs, onFrame pa r.pa = true → s.ownerPath r.pa = true) (a : Nat) : (s.quitFrame pa).mem.byte a = s.mem.byte a := by
  obtain ⟨lines, homeVa, hmem, -⟩ := s.quitFrame_mem pa
  have hserved : s.frameServed pa = s := by
    unfold State.frameServed
    dsimp only
    rw [State.performReds_none hreds, State.flushRepls_none hrepls, List.filter_eq_nil_iff.mpr (fun v hv => by simp [hrevokes v hv])]
    rfl
  have haligned : ∀ p ∈ ((s.mem.regs.filter (fun r => onFrame pa r.pa)).map (fun r => r.pa)).filter s.ownerPath, p % 4 = 0 := fun p hp => by
    obtain ⟨r, hr, rfl⟩ := List.mem_map.mp (List.mem_of_mem_filter hp)
    exact Memory.regs_aligned hwf (List.mem_of_mem_filter hr)
  have hbyte := Mem.byte_writeBackAll s.mem _ haligned a
  rw [hserved] at hmem
  rw [hmem]
  refine ((Mem.byte_congr (n := { s.frameMem pa with regs := (s.frameMem pa).regs.filter (fun r => !onFrame pa r.pa) }) rfl (fun _ => rfl) a).trans ((s.frameMem pa).byte_without (onFrame pa) a)).trans ?_
  split
  · next hon =>
    refine (Mem.byte_of_none (Mem.reg?_none_of fun r hr he => ?_)).symm.trans hbyte
    have hmem : r ∈ s.mem.regs := (s.mem.regs_writeBackAll_sublist _).mem hr
    rw [← he] at hon
    exact Mem.not_mem_writeBackAll hr (List.mem_filter.mpr ⟨List.mem_map.mpr ⟨r, List.mem_filter.mpr ⟨hmem, hon⟩, rfl⟩, hpath r hmem hon⟩)
  · exact hbyte

/-- How the owner table writes a frame's owner: its number and 1, or 0 for none. -/
def frameOwnerCode (vi : Option (BitVec 6)) : Byte := match vi with | some n => BitVec.ofNat 8 (n.toNat + 1) | none => 0

theorem frameOwnerCode_toNat (vi : Option (BitVec 6)) : (frameOwnerCode vi).toNat = match vi with | some n => n.toNat + 1 | none => 0 := by
  cases vi with
  | none => rfl
  | some n =>
    have := n.isLt
    show (BitVec.ofNat 8 (n.toNat + 1)).toNat = n.toNat + 1
    rw [BitVec.toNat_ofNat, Nat.mod_eq_of_lt (by omega)]

/-- The state before a frame gets its new owner. -/
def State.frameFreed (s : State) (pa : Nat) (new : Byte) : State :=
  if s.mem.owners.get (pa / 8192) = new then s.dropFrame pa else (s.dropFrame pa).quitFrame pa

/-- FRAME_OWNER_CHANGE on a frame of a booted package. -/
theorem State.frameOwner_booted {s : State} {die frame : Nat} (hd : die < 4) (hf : 8192 * frame < Config.dieBytes) (hb : s.booted = true) (vi : Option (BitVec 6)) :
    s.frameOwner die frame vi =
      { s.frameFreed (die * 2 ^ 37 + 8192 * frame) (frameOwnerCode vi) with
        mem := { (s.frameFreed (die * 2 ^ 37 + 8192 * frame) (frameOwnerCode vi)).mem with
          owners := (s.frameFreed (die * 2 ^ 37 + 8192 * frame) (frameOwnerCode vi)).mem.owners.set ((die * 2 ^ 37 + 8192 * frame) / 8192) (frameOwnerCode vi) } } := by
  have hfine : (decide (die < 4) && decide (8192 * frame < Config.dieBytes) && s.booted) = true := by
    rw [hb, decide_eq_true hd, decide_eq_true hf]
    rfl
  exact (if_pos hfine : s.frameOwner die frame vi = _)

theorem State.frameFreed_same {s : State} {pa : Nat} {new : Byte} (h : s.mem.owners.get (pa / 8192) = new) : s.frameFreed pa new = s.dropFrame pa := if_pos h

theorem State.frameFreed_other {s : State} {pa : Nat} {new : Byte} (h : ¬ s.mem.owners.get (pa / 8192) = new) :
    s.frameFreed pa new = (s.dropFrame pa).quitFrame pa := if_neg h

/-- No translation of the frame is left. -/
theorem State.frameFreed_tlb (s : State) (pa : Nat) (new : Byte) : ∀ e ∈ (s.frameFreed pa new).mem.tlb, overlap e.pa e.size pa 8192 = false := by
  intro e he
  have htlb : (s.frameFreed pa new).mem.tlb = (s.dropFrame pa).mem.tlb := by
    by_cases h : s.mem.owners.get (pa / 8192) = new
    · rw [State.frameFreed_same h]
    · obtain ⟨-, -, -, -, -, -, htlb⟩ := (s.dropFrame pa).quitFrame_left pa
      rw [State.frameFreed_other h]
      exact htlb
  rw [htlb] at he
  have := (List.mem_filter.mp he).2
  simp only [Bool.not_eq_true', Bool.or_eq_false_iff] at this
  exact this.1

theorem onFrame_false_iff {pa a : Nat} : onFrame pa a = false ↔ ¬(pa ≤ a ∧ a < pa + 8192) := by
  rw [onFrame]
  simp

/-! ### The clauses of O48 -/

theorem redPerform_clause (s : State) (k : Nat) (r : PostedRed) (hr : s.mem.reds.find? (fun q => q.key == k) = some r) :
    (s.mem.reds.any (fun q => q.key < k && q.gid == r.gid && overlap q.pa q.op.bytes r.pa r.op.bytes) = true → exec (.redPerform k) s = .next s) ∧
    (s.mem.reds.any (fun q => q.key < k && q.gid == r.gid && overlap q.pa q.op.bytes r.pa r.op.bytes) = false → s.outOfReach (agentDie r.agent) r.pa r.op.bytes = false →
      r.pa % r.op.bytes = 0 →
      (r.op.bytes = 4 → r.opnd.toNat < 2 ^ 32) →
      ∃ u, exec (.redPerform k) s = .next u ∧ u.mem.reds = s.mem.reds.filter (fun q => q.key != k) ∧
        ∀ a, u.mem.byte a = atomStep r.op s.mem.byte r.pa r.opnd 0 a) := by
  have hexec : exec (.redPerform k) s = .next (s.redPerform k) := rfl
  rw [hexec, State.redPerform_some hr]
  refine ⟨fun h => by rw [if_pos h], fun h hreach hpa ho => ?_⟩
  rw [if_neg (by simp [h])]
  refine ⟨_, rfl, (State.performRed_sameFlow _ r).1, fun a => ?_⟩
  rw [State.byte_performRed (s := { s with mem := { s.mem with reds := s.mem.reds.filter (fun q => q.key != k) } }) hreach, State.byte_redAt_atomStep _ _ hpa ho]
  rfl

theorem remoteStoreRefusal_clause (s : State) (k : Nat) (p : Posted) (g : Group) (hp : s.mem.posted.find? (fun q => q.key == k) = some p)
    (hg : s.group? p.gid = some g) :
    ∃ u h, exec (.remoteStoreRefusal k) s = .next u ∧ u.onlyGroup { s with mem := { s.mem with posted := s.mem.posted.filter (fun q => q.key != k) } } h ∧
      h = { g with delOther := h.delOther } ∧ h.delOther.refused = g.delOther.refused + 1 ∧ h.delOther.lost = g.delOther.lost ∧
      (g.delOther.lost + g.delOther.refused = 0 → h.delOther.page = alignDown p.va 8192) := by
  refine ⟨_, _, rfl, State.remoteRefusal_spec hp hg, rfl, rfl, rfl, fun h => ?_⟩
  show (if g.delOther.lost + g.delOther.refused = 0 then alignDown p.va 8192 else g.delOther.page) = _
  rw [if_pos h]

theorem replReplicaUpdate_clause (s : State) (k : Nat) (r : ReplWrite) (hr : s.mem.repls.find? (fun q => q.key == k) = some r) :
    let before := s.mem.repls.any (fun q => q.key < k && ((agentCore q.agent == agentCore r.agent && q.pa / 2 ^ 37 == r.pa / 2 ^ 37)
      || overlap q.pa q.bytes.length r.pa r.bytes.length))
    (before = true → exec (.replReplicaUpdate k) s = .next s) ∧
    (before = false → s.path (agentDie r.agent) (homeDie r.pa) = false → ∃ u, exec (.replReplicaUpdate k) s = .next u ∧
      u.mem.repls.map (fun q => q.key) = (s.mem.repls.map (fun q => q.key)).filter (· != k) ∧ u.mem.bytes = s.mem.bytes ∧
      ∀ g, s.group? r.gid = some g → ∃ h, u.group? r.gid = some h ∧ h = { g with delPkg := h.delPkg } ∧
        h.delPkg.lost = g.delPkg.lost + (if s.mem.repls.any (fun q => q.store == r.store && q.counted) = true then 0 else 1)) ∧
    (before = false → s.path (agentDie r.agent) (homeDie r.pa) = true →
      ∃ u, exec (.replReplicaUpdate k) s = .next u ∧ u.mem.repls = s.mem.repls.filter (fun q => q.key != k) ∧
        (∀ j (h : j < r.bytes.length), u.mem.bytes.get (r.pa + j) = r.bytes[j]) ∧
        (∀ a, a < r.pa ∨ r.pa + r.bytes.length ≤ a → u.mem.bytes.get a = s.mem.bytes.get a)) := by
  intro before
  have hexec : exec (.replReplicaUpdate k) s = .next (s.replUpdate k) := rfl
  have hkey : r.key = k := by simpa using List.find?_some hr
  rw [hexec, State.replUpdate_some hr]
  refine ⟨fun h => by rw [if_pos h], fun h hpath => ?_, fun h hpath => ?_⟩
  · rw [if_neg (fun hc => by rw [show before = true from hc] at h; cases h), ← hkey]
    exact ⟨_, rfl, State.replArrives_lost hpath⟩
  · rw [if_neg (fun hc => by rw [show before = true from hc] at h; cases h), ← hkey]
    obtain ⟨hrepls, hbytes⟩ := State.replArrives_taken hpath
    refine ⟨_, rfl, hrepls, fun j hj => ?_, fun a ha => ?_⟩
    · rw [hbytes, Store.get_write_in _ _ _ hj]
    · rw [hbytes, Store.get_write_out _ _ _ ha]

theorem tableWalk_clause (s : State) (die vi : Nat) (va : DWord) (acc : Access) (t : Trans) (hd : die ≤ 4) (hc : chipOf va.toNat = s.fabric.chip.toNat)
    (hw : walk s vi va.toNat = .ok t) (hp : t.perms &&& accNeeds acc = accNeeds acc) :
    ∃ l, exec (.tableWalk ⟨die, vi⟩ va acc) s = .next { s with mem := { s.mem with tlb := l } } ∧
      let e : Tlb := ⟨none, die, vi, alignDown va.toNat t.size, t.size, t.pa - va.toNat % t.size, t.perms, t.repl⟩
      let shared := fun (l : List Tlb) => (l.filter (fun x => x.core == none && x.die == die)).length
      e ∈ l ∧ (∀ x ∈ l, x ∈ s.mem.tlb ∨ x = e) ∧ (shared s.mem.tlb ≤ 16384 → shared l ≤ 16384) := by
  refine ⟨tlbPut s.mem.tlb Config.dieTlb (t.entry none die vi va.toNat) va.toNat, ?_, ?_⟩
  · have htable : s.tableWalk die vi va.toNat acc =
        { s with mem := { s.mem with tlb := tlbPut s.mem.tlb Config.dieTlb (t.entry none die vi va.toNat) va.toNat } } := by
      unfold State.tableWalk
      rw [if_neg (by omega), hw]
      dsimp only
      rw [if_pos hp]
    exact congrArg Host.Outcome.next htable
  · exact tlbPut_spec s.mem.tlb (by decide) (t.entry none die vi va.toNat) va.toNat

theorem tableWalk_failed (s : State) (die vi : Nat) (va : DWord) (acc : Access) (e : Nat × Nat) (hw : walk s vi va.toNat = .error e) :
    exec (.tableWalk ⟨die, vi⟩ va acc) s = .next s := by
  have htable : s.tableWalk die vi va.toNat acc = s := by
    unfold State.tableWalk
    rw [hw]
    dsimp only
    split <;> rfl
  exact congrArg Host.Outcome.next htable

theorem homeMove_clause (s : State) (vi : Nat) (va : DWord) (die frame : Nat) (t : Trans) (e n : Nat) (hw : walk s vi va.toNat = .ok t)
    (hleaf : leafFrom s va.toNat walkLevels (s.viOf vi).ptroot = some (e, n)) :
    let new := die * 2 ^ 37 + 8192 * frame
    let old := alignDown t.pa n
    t.repl = false → chipOf va.toNat = s.fabric.chip.toNat → die < 4 → new % n = 0 → paOk new = true → paOk (new + n - 1) = true →
    s.fenced die = false → s.fenced (old / 2 ^ 37) = false → s.ownsNew vi new n false = true → old ≠ new →
    s.path (old / 2 ^ 37) die = true → s.cutOwner old n = false → s.cutOwner new n = false →
    s.cmds.any (fun c => (s.task? c.task).any (fun k => k.vi == vi)) = false → Memory.wf s.mem = true → s.mem.reds = [] →
    ∃ u, exec (.homeMove vi va die frame) s = .next u ∧
      (∀ j < n, (new + j < moved old new n e ∨ moved old new n e + 8 ≤ new + j) → u.mem.byte (new + j) = s.mem.byte (old + j)) ∧
      (∀ r ∈ u.mem.regs, ¬(old ≤ r.pa ∧ r.pa < old + n)) ∧ (∀ x ∈ u.mem.tlb, ¬(x.vi = vi ∧ x.base ≤ va.toNat ∧ va.toNat < x.base + x.size)) := by
  intro new old hrepl hchip hdie hmod hok hok' hfence hfence' howns hne hpath hcut hcut' hcmds hwf hreds
  have hmove := State.homeMove_moved (die := die) (frame := frame) hw hleaf hrepl (by
    rw [hrepl]
    simp only [Bool.and_eq_true, beq_iff_eq, decide_eq_true_eq, bne_iff_ne, ne_eq, Bool.not_eq_true']
    exact ⟨⟨⟨⟨⟨⟨⟨⟨⟨⟨⟨⟨hchip, hdie⟩, hmod⟩, hok⟩, hok'⟩, hfence⟩, hfence'⟩, howns⟩, hne⟩, hpath⟩, hcut⟩, hcut'⟩, hcmds⟩)
  have hn4 : n % 4 = 0 := leafFrom_size (by decide) hleaf
  have hold : old % 4 = 0 := by
    show t.pa / n * n % 4 = 0
    rw [Nat.mul_mod, hn4]
    rfl
  have hnew : new % 4 = 0 := by
    show (die * 2 ^ 37 + 8192 * frame) % 4 = 0
    omega
  refine ⟨_, congrArg Host.Outcome.next hmove, fun j hj hout => ?_, fun r hr => ?_, fun x hx => ?_⟩
  · refine (State.byte_deviceWrite _ _ _ (new + j)).trans ?_
    rw [leBytes_length, if_neg (fun hc => hout.elim (Nat.not_lt.mpr hc.1) (Nat.not_le.mpr hc.2))]
    exact State.byte_movePage hwf hreds hold hnew hj
  · have hr := State.deviceWrite_regs_mem (show r ∈ (State.deviceWrite _ _ _).mem.regs from hr)
    rw [(State.movePage_bytes old new n hreds).2.1] at hr
    exact (Mem.moveReady_regs hr).1
  · have := (List.mem_filter.mp hx).2
    rintro ⟨hvi, hbase, hend⟩
    simp [hvi, hbase, hend] at this

theorem frameOwnerChange_clause (s : State) (die frame : Nat) (owner : Option (BitVec 6)) (hd : die < 4) (hf : 8192 * frame < Config.dieBytes)
    (hb : s.booted = true) :
    ∃ u, exec (.frameOwnerChange die frame owner) s = .next u ∧
    u.ownerOf (die * 2 ^ 37 + 8192 * frame) = (match owner with | some n => BitVec.toNat n + 1 | none => 0) ∧
    (∀ e ∈ u.mem.tlb, overlap e.pa e.size (die * 2 ^ 37 + 8192 * frame) 8192 = false) ∧
    (let pa := die * 2 ^ 37 + 8192 * frame
     let on := fun (a : Nat) => pa ≤ a ∧ a < pa + 8192
     (s.ownerOf pa = u.ownerOf pa → u = { s with mem := { s.mem with tlb := u.mem.tlb, owners := u.mem.owners } }) ∧
     (s.ownerOf pa ≠ u.ownerOf pa →
       (∀ r ∈ u.mem.regs, ¬on r.pa) ∧ (∀ c ∈ u.mem.copies, ¬on c.pa) ∧ (∀ r ∈ u.mem.reds, ¬on r.pa) ∧ (∀ q ∈ u.mem.repls, ¬on q.pa) ∧
       (∀ v ∈ u.mem.revokes, ¬on v.pa) ∧ (∀ l ∈ u.mem.lines, l.mapped.isSome = true → ¬on l.pa) ∧
       (Memory.wf s.mem = true → (∀ r ∈ s.mem.reds, ¬on r.pa) → (∀ q ∈ s.mem.repls, ¬on q.pa) → (∀ v ∈ s.mem.revokes, ¬on v.pa) →
         (∀ r ∈ s.mem.regs, on r.pa → s.ownerPath r.pa = true) → ∀ a, u.mem.byte a = s.mem.byte a))) := by
  generalize hpa : die * 2 ^ 37 + 8192 * frame = pa
  have hsmall : pa + 8192 < 2 ^ 80 := by
    have : Config.dieBytes < 2 ^ 38 := by decide
    omega
  have hdef := s.frameOwner_booted hd hf hb owner
  rw [hpa] at hdef
  have howner : (s.frameOwner die frame owner).ownerOf pa = (frameOwnerCode owner).toNat := by
    rw [hdef]
    exact congrArg BitVec.toNat (Store.get_set_same ..)
  refine ⟨s.frameOwner die frame owner, rfl, by rw [howner, frameOwnerCode_toNat], ?_, fun hsame => ?_, fun hother => ?_⟩
  · rw [hdef]
    exact s.frameFreed_tlb pa _
  · rw [howner] at hsame
    rw [hdef, State.frameFreed_same (BitVec.eq_of_toNat_eq hsame)]
    rfl
  · rw [howner] at hother
    rw [hdef, State.frameFreed_other (fun h => hother (congrArg BitVec.toNat h))]
    have hbyte := State.byte_quitFrame (s := s.dropFrame pa) (pa := pa)
    have hleft := (s.dropFrame pa).quitFrame_left pa
    generalize (s.dropFrame pa).quitFrame pa = t at hbyte hleft ⊢
    obtain ⟨hregs, hcopies, hreds, hrepls, hrevokes, hlines, -⟩ := hleft
    refine ⟨fun r hr => onFrame_false_iff.mp (hregs r hr), fun c hc => onFrame_false_iff.mp (hcopies c hc), fun r hr => onFrame_false_iff.mp (hreds r hr),
      fun q hq => onFrame_false_iff.mp (hrepls q hq), fun v hv => onFrame_false_iff.mp (hrevokes v hv), fun l hl hmapped => ?_, fun hwf hreds hrepls hrevokes hpath a => ?_⟩
    · rcases hlines l hl hmapped with h | h
      · rw [h]; omega
      · exact onFrame_false_iff.mp h
    · refine hbyte hwf (fun r hr => onFrame_false_iff.mpr (hreds r hr)) (fun q hq => onFrame_false_iff.mpr (hrepls q hq))
        (fun v hv => onFrame_false_iff.mpr (hrevokes v hv)) (fun r hr hon => hpath r hr ?_) a
      rw [onFrame] at hon
      simpa using hon

/-- Settles O48, event by event: a RED does its operation on the word that it finds, wherever the registry has it; a page that moves and a
frame that is quit are written back first, so that their bytes are at the home. -/
theorem postedWrites : Obligations.PostedWrites := by
  unfold Obligations.PostedWrites
  exact ⟨redPerform_clause, remoteStoreRefusal_clause, replReplicaUpdate_clause, tableWalk_clause, tableWalk_failed, homeMove_clause, frameOwnerChange_clause⟩

end Sys2Proof.Machine
end

section
/-! The management window, configuration records, submission pages and telemetry (R280, R338 to R342, R344, R351, R352). -/
namespace Sys2Proof.Machine

/-! ### Words of the window -/

/-- A word of the window is set, where its value fits it. -/
theorem setsWord_of {i : Instr} {s : State} {off val : Nat} (h : exec i s = .next (s.winSet off val)) (hval : val < 2 ^ 32) : setsWord i s off val :=
  ⟨_, h, by rw [State.win_winSet_same s val rfl, Nat.mod_eq_of_lt hval], fun o ho => State.win_winSet_ne s val ho, rfl⟩

theorem State.flagError_eq (s : State) (cause : Nat) :
    s.flagError cause = { s with host := { s.host with error := true, errCause := if s.host.error = true then s.host.errCause else cause } } := by
  rw [State.flagError]
  cases h : s.host.error with
  | true =>
    rw [if_pos rfl, if_pos rfl, ← h]
  | false => rfl

theorem flagsCause_of {i : Instr} {s : State} {cause : Nat} (h : exec i s = .next (s.flagError cause)) : flagsCause i s cause := by
  rw [flagsCause, h, State.flagError_eq]

theorem State.booted_of_stage {s : State} (h : s.host.stage = 3) : s.booted = true := State.booted_iff.mpr h

theorem pcapWrite_clause (s : State) (die : Nat) (val : Word) (hb : s.booted = true) (hd : die < 4) :
    (100 ≤ val.toNat % 4096 → val.toNat % 4096 ≤ 1200 →
      setsWord (.pcapWrite die val) s (0x1000 + 0x100 * die) (val.toNat % 4096 + 2 ^ 31 * (val.toNat / 2 ^ 31))) ∧
    (val.toNat % 4096 < 100 ∨ 1200 < val.toNat % 4096 → flagsCause (.pcapWrite die val) s 3) ∧
    (5 ≤ val.toNat % 256 → val.toNat % 256 ≤ 200 → setsWord (.didtWrite die val) s (0x1004 + 0x100 * die) (val.toNat % 256)) ∧
    (val.toNat % 256 < 5 ∨ 200 < val.toNat % 256 → flagsCause (.didtWrite die val) s 3) := by
  have hval := val.isLt
  have hcap : fld val.toNat 0 12 = val.toNat % 4096 := by simp [fld]
  have hon : fld val.toNat 31 1 = val.toNat / 2 ^ 31 := by simp only [fld]; omega
  have hlimit : fld val.toNat 0 8 = val.toNat % 256 := by simp [fld]
  have hgo : ¬(4 ≤ die ∨ s.booted = false) := by simp [hb]; omega
  have hpcap : exec (.pcapWrite die val) s = .next (if 4 ≤ die ∨ s.booted = false then s
    else if fld val.toNat 0 12 < 100 ∨ 1200 < fld val.toNat 0 12 then s.flagError 3
    else s.winSet (dieOff die 0) (fld val.toNat 0 12 + 2 ^ 31 * fld val.toNat 31 1)) := rfl
  have hdidt : exec (.didtWrite die val) s = .next (if 4 ≤ die ∨ s.booted = false then s
    else if fld val.toNat 0 8 < 5 ∨ 200 < fld val.toNat 0 8 then s.flagError 3
    else s.winSet (dieOff die 4) (fld val.toNat 0 8)) := rfl
  rw [if_neg hgo, hcap, hon] at hpcap
  rw [if_neg hgo, hlimit] at hdidt
  refine ⟨fun h1 h2 => setsWord_of ?_ (by omega), fun h => flagsCause_of ?_, fun h1 h2 => setsWord_of ?_ (by omega), fun h => flagsCause_of ?_⟩
  · rw [hpcap, if_neg (by omega)]; rfl
  · rw [hpcap, if_pos h]
  · rw [hdidt, if_neg (by omega), show dieOff die 4 = 0x1004 + 0x100 * die by unfold dieOff; omega]
  · rw [hdidt, if_pos h]

/-- A ring's control word is written; the sequence starts again where it enables the ring. -/
theorem ringCtl_eq (val : Word) : ringCtl val = val.toNat % 32 + 256 * (val.toNat / 256 % 2) + 2 ^ 31 * (val.toNat / 2 ^ 31) ∧ ringCtl val < 2 ^ 32 := by
  have := val.isLt
  simp only [ringCtl, fld]
  omega

theorem enables_iff (n : Nat) (val : Word) : (!n.testBit 31 && val.getLsbD 31) = decide (n / 2 ^ 31 % 2 = 0 ∧ val.toNat / 2 ^ 31 = 1) := by
  have := val.isLt
  rw [← BitVec.testBit_toNat, Nat.testBit_eq_decide_div_mod_eq, Nat.testBit_eq_decide_div_mod_eq, Bool.eq_iff_iff]
  simp
  omega

theorem ringWrite_clause (s : State) (die : Nat) (val : Word) (hb : s.booted = true) (hd : die < 4) :
    let ctl := val.toNat % 32 + 256 * (val.toNat / 256 % 2) + 2 ^ 31 * (val.toNat / 2 ^ 31)
    let newly := fun (off : Nat) => decide (s.win off / 2 ^ 31 % 2 = 0 ∧ val.toNat / 2 ^ 31 = 1)
    (∃ u, exec (.trctlWrite die val) s = .next u ∧ u.win (0x1010 + 0x100 * die) = ctl ∧
      u.dies = s.dies.map (fun d => if d.num = die ∧ newly (0x1010 + 0x100 * die) then { d with trSeq := 0 } else d)) ∧
    (∃ u, exec (.dlctlWrite die val) s = .next u ∧ u.win (0x1030 + 0x100 * die) = ctl ∧
      u.dies = s.dies.map (fun d => if d.num = die ∧ newly (0x1030 + 0x100 * die) then { d with dlSeq := 0 } else d)) := by
  obtain ⟨hctl, hlt⟩ := ringCtl_eq val
  have hgo : ¬(4 ≤ die ∨ s.booted = false) := by simp [hb]; omega
  have hoff : dieOff die 0x10 = 0x1010 + 0x100 * die ∧ dieOff die 0x30 = 0x1030 + 0x100 * die := by unfold dieOff; omega
  have hdies : ∀ (on : Bool) (f : Die → Die) (l : List Die), modWhere l (fun d => d.num == die) (fun d => if on then f d else d) =
      l.map (fun d => if d.num = die ∧ on then f d else d) := fun on f l => by
    refine List.map_congr_left fun d _ => ?_
    by_cases hn : d.num = die <;> cases on <;> simp [hn]
  intro ctl newly
  refine ⟨⟨_, congrArg Host.Outcome.next (if_neg hgo), ?_, ?_⟩, ⟨_, congrArg Host.Outcome.next (if_neg hgo), ?_, ?_⟩⟩
  · show (s.winSet _ (ringCtl val)).win _ = _
    rw [hoff.1, State.win_winSet_same s _ rfl, Nat.mod_eq_of_lt hlt, hctl]
  · show modWhere s.dies _ _ = _
    rw [hdies, enables_iff, hoff.1]
  · show (s.winSet _ (ringCtl val)).win _ = _
    rw [hoff.2, State.win_winSet_same s _ rfl, Nat.mod_eq_of_lt hlt, hctl]
  · show modWhere s.dies _ _ = _
    rw [hdies, enables_iff, hoff.2]

theorem beforeBoot_clause (s : State) (i : Instr) (hb : s.booted = false)
    (hi : i = .errorBitClear ∨ (∃ die val, i = .pcapWrite die val ∨ i = .didtWrite die val ∨ i = .trctlWrite die val ∨ i = .dlctlWrite die val) ∨
      (∃ die unc, i = .errorCountClear die unc) ∨ (∃ n, i = .flr n ∨ i = .configRecordApply n) ∨ (∃ off val, i = .registerWrite off val)) : exec i s = .next s := by
  have hnot : (!s.booted) = true := by rw [hb]; rfl
  rcases hi with rfl | ⟨die, val, rfl | rfl | rfl | rfl⟩ | ⟨die, unc, rfl⟩ | ⟨n, rfl | rfl⟩ | ⟨off, val, rfl⟩
  · exact congrArg Host.Outcome.next (if_pos hnot)
  · exact congrArg Host.Outcome.next (if_pos (.inr hb))
  · exact congrArg Host.Outcome.next (if_pos (.inr hb))
  · exact congrArg Host.Outcome.next (if_pos (.inr hb))
  · exact congrArg Host.Outcome.next (if_pos (.inr hb))
  · exact congrArg Host.Outcome.next (if_pos hnot)
  · exact congrArg Host.Outcome.next (if_neg (by simp [hb]))
  · exact congrArg Host.Outcome.next (if_pos (by simp [hb]))
  · exact congrArg Host.Outcome.next (if_pos hnot)

theorem modWhere_num (l : List Die) (die : Nat) (f : Die → Die) : modWhere l (fun d => d.num == die) f = l.map (fun d => if d.num = die then f d else d) := by
  refine List.map_congr_left fun d _ => ?_
  by_cases hn : d.num = die <;> simp [hn]

theorem errorCountClear_clause (s : State) (die : Nat) (unc : Bool) (hb : s.booted = true) : exec (.errorCountClear die unc) s = .next { s with
    dies := s.dies.map (fun d => if d.num = die then (if unc = true then { d with eunc := 0 } else { d with ecorr := 0 }) else d) } := by
  have hclear : (if (!s.booted) = true then s else s.modDie die (fun d => if unc then { d with eunc := 0 } else { d with ecorr := 0 })) =
      s.modDie die (fun d => if unc then { d with eunc := 0 } else { d with ecorr := 0 }) := if_neg (by simp [hb])
  exact (congrArg Host.Outcome.next hclear).trans (congrArg (fun l => Host.Outcome.next { s with dies := l }) (modWhere_num s.dies die _))

theorem thermalThrottle_clause (s : State) (die : Nat) : exec (.thermalThrottle die) s = .next { s with
    dies := s.dies.map (fun d => if d.num = die then { d with clock := max 1000 (d.clock - 100), throttle := d.throttle ||| 2 } else d) } :=
  congrArg (fun l => (.next { s with dies := l } : Host.Outcome State Fault Refusal)) (modWhere_num s.dies die (fun d => { d with clock := max 1000 (d.clock - 100), throttle := d.throttle ||| 2 }))

/-! ### Reads of the window -/

theorem windowMask_config {o : Nat} (h : 0x8000 ≤ o ∧ o < 0xA000) : windowMask o =
    if o % 128 < 0x20 then (if o % 128 % 8 = 0 then 0xFFFFFFFF else 0xFFFF) else if o % 128 = 0x20 then 0x3C01F else if o % 128 < 0x60 then 0xFFFFFFFF
    else if o % 128 = 0x78 then 0xFFF else if o % 128 = 0x7C then 0xC0000000 else 0 := by
  unfold windowMask
  rw [if_neg (by omega), if_neg (by omega), if_neg (by omega), if_pos h]

theorem windowMask_page {o : Nat} (h : 0x10000 ≤ o ∧ o < 0x30000) : (o % 32 = 0x10 → windowMask o = 0x1F) ∧ (o % 32 = 0x1C → windowMask o = 0) := by
  unfold windowMask
  rw [if_neg (by omega), if_neg (by omega), if_neg (by omega), if_neg (by omega), if_pos h]
  exact ⟨fun hr => by simp only [hr], fun hr => by simp only [hr]⟩

theorem windowMask_queue {o : Nat} (h : 0x30000 ≤ o ∧ o < 0x34000) : (o % 16 = 8 → windowMask o = 1) ∧ (o % 16 = 0xC → windowMask o = 0) := by
  unfold windowMask queueWord
  rw [if_neg (by omega), if_neg (by omega), if_neg (by omega), if_neg (by omega), if_neg (by omega), if_pos (by simp [h])]
  exact ⟨fun hr => by simp only [hr], fun hr => by simp only [hr]⟩

theorem State.windowRead_masked (s : State) {o : Nat} (h4 : o % 4 = 0) (h : 0x1400 ≤ o) : s.windowRead o = Nat.land (s.win o) (windowMask o) := by
  unfold State.windowRead
  rw [show alignDown o 4 = o by unfold alignDown; omega]
  dsimp only
  rw [if_neg (by omega), if_neg (by omega), if_neg (by omega)]

theorem State.windowRead_le (s : State) {o m : Nat} (h4 : o % 4 = 0) (h : 0x1400 ≤ o) (hm : windowMask o = m) : s.windowRead o ≤ m := by
  rw [s.windowRead_masked h4 h, hm]
  exact Nat.and_le_right

theorem windowRead_clause (s : State) : s.windowRead 0 = s.host.stage % 256 + 256 * (s.host.failure % 256) ∧
    s.windowRead 8 = (if s.host.error = true then 1 else 0) + 256 * (s.host.errCause % 256) ∧
    (∀ vi q, vi < 64 → q < 16 → s.windowRead (0x30008 + 0x100 * vi + 16 * q) < 2 ∧ s.windowRead (0x3000C + 0x100 * vi + 16 * q) = 0) ∧
    (∀ vi page, vi < 64 → page < 64 → s.windowRead (0x10010 + 0x800 * vi + 32 * page) < 32 ∧ s.windowRead (0x1001C + 0x800 * vi + 32 * page) = 0) ∧
    (∀ n i, n < 64 → i < 6 → s.windowRead (0x8060 + 128 * n + 4 * i) = 0 ∧ s.windowRead (0x8078 + 128 * n) < 4096) := by
  refine ⟨rfl, rfl, fun vi q hvi hq => ⟨?_, ?_⟩, fun vi page hvi hp => ⟨?_, ?_⟩, fun n i hn hi => ⟨?_, ?_⟩⟩
  · exact Nat.lt_succ_of_le (s.windowRead_le (by omega) (by omega) ((windowMask_queue (by omega)).1 (by omega)))
  · exact Nat.le_zero.mp (s.windowRead_le (by omega) (by omega) ((windowMask_queue (by omega)).2 (by omega)))
  · exact Nat.lt_succ_of_le (s.windowRead_le (by omega) (by omega) ((windowMask_page (by omega)).1 (by omega)))
  · exact Nat.le_zero.mp (s.windowRead_le (by omega) (by omega) ((windowMask_page (by omega)).2 (by omega)))
  · refine Nat.le_zero.mp (s.windowRead_le (by omega) (by omega) ?_)
    rw [windowMask_config (by omega), if_neg (by omega), if_neg (by omega), if_neg (by omega), if_neg (by omega), if_neg (by omega)]
  · refine Nat.lt_succ_of_le (s.windowRead_le (by omega) (by omega) ?_)
    rw [windowMask_config (by omega), if_neg (by omega), if_neg (by omega), if_neg (by omega), if_pos (by omega)]

theorem decide_bit (b : Bool) : decide (bit b = 1) = b := by cases b <;> rfl

/-- A die's status word (R351). -/
theorem dieStatus_clause (s : State) (die : Nat) (d : Die) (hd : die < 4) (hf : s.dies.find? (fun x => x.num == die) = some d) :
    let w := s.windowRead (0x1034 + 0x100 * die)
    w % 2 ^ 15 = d.clock % 2 ^ 15 ∧ w.testBit 15 = d.fenced ∧ w.testBit 16 = (s.capOn die && d.throttle.getLsbD 0) ∧ w.testBit 17 = d.throttle.getLsbD 1 ∧
      w.testBit 18 = d.waited ∧ w.testBit 19 = decide (s.host.requested = .p1) ∧ w < 2 ^ 20 := by
  have hnum : d.num = die := beq_iff_eq.mp (List.find?_some (p := fun x : Die => x.num == die) hf)
  have hread : s.windowRead (0x1034 + 0x100 * die) = d.clock % 2 ^ 15 + 2 ^ 15 * bit d.fenced + 2 ^ 16 * s.reasons d := by
    have hdie : (0x1034 + 0x100 * die - 0x1000) / 0x100 = die := by omega
    have hmod : (0x1034 + 0x100 * die) % 0x100 = 0x34 := by omega
    unfold State.windowRead
    rw [show alignDown (0x1034 + 0x100 * die) 4 = 0x1034 + 0x100 * die by unfold alignDown; omega]
    dsimp only
    rw [if_neg (by omega), if_neg (by omega), if_pos (by omega), hdie, hf, hmod]
    have hmask : windowMask (0x1034 + 0x100 * die) = 0 := by
      unfold windowMask
      rw [if_neg (by omega), if_pos (by omega)]
      simp only [hmod]
    rw [hmask]
    show Nat.land _ 0 + _ = _
    rw [show Nat.land (s.win (0x1034 + 0x100 * die)) 0 = 0 from Nat.and_zero _, Nat.zero_add]
    rfl
  intro w
  have hw : w = d.clock % 2 ^ 15 + 2 ^ 15 * bit d.fenced + 2 ^ 16 * (bit (s.capOn die && d.throttle.getLsbD 0) + 2 * bit (d.throttle.getLsbD 1)
      + 4 * bit d.waited + 8 * bit (s.host.requested == .p1)) := by
    rw [show w = _ from hread, State.reasons, hnum]
  have h1 := bit_lt d.fenced
  have h2 := bit_lt (s.capOn die && d.throttle.getLsbD 0)
  have h3 := bit_lt (d.throttle.getLsbD 1)
  have h4 := bit_lt d.waited
  have h5 := bit_lt (s.host.requested == .p1)
  have hp1 : (s.host.requested == .p1) = decide (s.host.requested = .p1) := by cases s.host.requested <;> rfl
  simp only [Nat.testBit_eq_decide_div_mod_eq]
  refine ⟨by omega, ?_, ?_, ?_, ?_, ?_, by omega⟩
  · rw [← decide_bit d.fenced]; congr 2; omega
  · rw [← decide_bit (s.capOn die && _)]; congr 2; omega
  · rw [← decide_bit (d.throttle.getLsbD 1)]; congr 2; omega
  · rw [← decide_bit d.waited]; congr 2; omega
  · rw [← hp1, ← decide_bit (s.host.requested == .p1)]; congr 2; omega

/-! ### Writes of words, masks and pages -/

theorem registerWrite_clause (s : State) (off : Nat) (val : Word) (ho : 0x8000 ≤ off ∧ off < 0xA000 ∧ off % 128 ≠ 0x7C ∨ 0x30000 ≤ off ∧ off < 0x34000)
    (h4 : off % 4 = 0) (hs : s.host.stage = 3) : setsWord (.registerWrite off val) s off val.toNat := by
  refine setsWord_of (congrArg Host.Outcome.next ?_) val.isLt
  have hword : (configWord off || queueWord off) = true := by
    unfold configWord queueWord
    rcases ho with ⟨h1, h2, h3⟩ | ⟨h1, h2⟩
    · simp [h1, h2, h3]
    · simp [h1, h2]
  rw [State.registerWrite, show alignDown off 4 = off by unfold alignDown; omega]
  rw [if_neg (by simp [State.booted_of_stage hs]), if_pos (by rw [Bool.or_assoc, hword, Bool.or_true])]

theorem maskWrite_clause (s : State) (j : Nat) (mask : Word) (h0 : 0 < j) (h8 : j < 8) (hs : s.host.stage = 3) :
    ((∀ k < 8, k ≠ 0 → k ≠ j → Nat.land (s.win (0x7000 + 4 * k)) (mask.toNat % 2 ^ 28) = 0) →
      setsWord (.servicePartitionMaskWrite j mask) s (0x7000 + 4 * j) (mask.toNat % 2 ^ 28)) ∧
    ((∃ k < 8, k ≠ 0 ∧ k ≠ j ∧ Nat.land (s.win (0x7000 + 4 * k)) (mask.toNat % 2 ^ 28) ≠ 0) → flagsCause (.servicePartitionMaskWrite j mask) s 2) := by
  have hgo : ¬(j = 0 ∨ 8 ≤ j ∨ (!s.booted) = true) := by rw [State.booted_of_stage hs]; simp; omega
  have hany : (List.range 8).any (fun k => k != 0 && k != j && Nat.land (s.win (0x7000 + 4 * k)) (mask.toNat % 2 ^ 28) != 0) = true ↔
      ∃ k < 8, k ≠ 0 ∧ k ≠ j ∧ Nat.land (s.win (0x7000 + 4 * k)) (mask.toNat % 2 ^ 28) ≠ 0 := by
    simp only [List.any_eq_true, List.mem_range, Bool.and_eq_true, bne_iff_ne, and_assoc]
  refine ⟨fun h => setsWord_of (congrArg Host.Outcome.next ?_) (by omega), fun h => flagsCause_of (congrArg Host.Outcome.next ?_)⟩
  · rw [State.maskWrite, if_neg hgo, if_neg (fun hc => by
      obtain ⟨k, hk, hk0, hkj, hne⟩ := hany.mp hc
      exact hne (h k hk hk0 hkj))]
  · rw [State.maskWrite, if_neg hgo, if_pos (hany.mpr h)]

end Sys2Proof.Machine
end

section
/-! Configuration records, submission pages and telemetry records (R280, R341, R351, R352). -/
namespace Sys2Proof.Machine

/-! ### Configuration records (R341) -/

theorem State.viOf_setOwn (s : State) {v : VI} {n : Nat} (h : v.num = n) : (s.setVi v).viOf n = v := by
  rw [State.viOf_setVi, if_pos h.symm]

/-- The error bit changes nothing else. -/
theorem State.flagError_rest (s : State) (cause : Nat) : (s.flagError cause).host.error = true ∧ (s.flagError cause).host.window = s.host.window ∧
    (s.flagError cause).vis = s.vis ∧ (s.flagError cause).mem = s.mem ∧ (s.flagError cause).pages = s.pages := by
  rw [State.flagError_eq]
  exact ⟨rfl, rfl, rfl, rfl, rfl⟩

/-- A record that waits: its apply bit stands, and nothing else of it changes. -/
theorem State.configWait_spec (s : State) (n : Nat) : ((s.configWait n).viOf n).pendingConfig = true ∧
    (s.configWait n).win (0x807C + 128 * n) = 2 ^ 31 + s.win (0x807C + 128 * n) % 2 ^ 30 ∧ (s.configWait n).mem = s.mem := by
  have hoff : configOff n + 0x7C = 0x807C + 128 * n := by unfold configOff; omega
  have hnum : ({ s.viOf n with pendingConfig := true } : VI).num = n := s.viOf_num n
  refine ⟨(congrArg VI.pendingConfig (State.viOf_setOwn _ hnum) :), ?_, rfl⟩
  refine (State.win_winSet_same s _ (by rw [hoff])).trans ?_
  rw [hoff, Nat.mod_eq_of_lt (by omega)]

/-- A record that is rejected: nothing changes but its error and apply bits. -/
theorem State.configReject_spec (s : State) (n : Nat) : (s.configReject n).host.error = true ∧ (s.configReject n).win (0x807C + 128 * n) = 2 ^ 30 ∧
    ((s.configReject n).viOf n).enabled = (s.viOf n).enabled ∧ (s.configReject n).mem = s.mem := by
  have hoff : configOff n + 0x7C = 0x807C + 128 * n := by unfold configOff; omega
  have hnum : ({ s.viOf n with pendingConfig := false } : VI).num = n := s.viOf_num n
  obtain ⟨herr, hwin, hvis, hmem, -⟩ := ((s.winSet (configOff n + 0x7C) (2 ^ 30)).setVi { s.viOf n with pendingConfig := false }).flagError_rest 1
  refine ⟨herr, ?_, ?_, hmem⟩
  · exact (State.win_congr hwin _).trans (State.win_winSet_same s _ (by rw [hoff]))
  · exact (congrArg VI.enabled ((State.viOf_congr hvis n).trans (State.viOf_setOwn _ hnum)) :)

/-- A virtual interface as its record leaves it, started with empty queues. -/
theorem State.viOf_configPut (s : State) (n : Nat) : (s.configPut n).viOf n = { s.configured n with pendingConfig := false, enabled := true, poolUsed := [] } := by
  have hnum : ({ s.configured n with pendingConfig := false, enabled := true } : VI).num = n := s.viOf_num n
  have hlinks := (s.setVi { s.configured n with pendingConfig := false, enabled := true }).linkQueues_linksOf n
  rw [State.viOf_setOwn s hnum] at hlinks
  refine (State.viOf_congr (congrArg State.vis hlinks.frame :) n).trans ?_
  exact State.viOf_setOwn _ hnum

theorem State.configApply_go {s : State} {n : Nat} (hn : n < 64) (hs : s.host.stage = 3) : s.configApply n =
    if s.host.restarting then s.configWait n else if s.configBad n then s.configReject n else if (s.viOf n).enabled then s.configWait n else s.configPut n := by
  rw [State.configApply, if_neg (by simp [State.booted_of_stage hs]; omega)]

theorem State.configQuiesce_go {s : State} {n : Nat} (hp : (s.viOf n).pendingConfig = true) (hq : s.viQuiet n = true) (hr : s.host.restarting = false) :
    s.configQuiesce n = if s.configBad n then s.configReject n else s.configPut n := by
  rw [State.configQuiesce, if_pos (by simp [hp, hq, hr])]

/-- A record that is not rejected has the reserved bits of its apply word clear. -/
theorem State.configBad_reserved {s : State} {n : Nat} (h : s.configBad n = false) : s.win (0x807C + 128 * n) % 2 ^ 30 = 0 := by
  have hoff : configOff n + 0x7C = 0x807C + 128 * n := by unfold configOff; omega
  rw [State.configBad] at h
  simp only [Bool.or_eq_false_iff] at h
  have hres := h.1.1.1
  rw [State.configReserved] at hres
  simp only [Bool.or_eq_false_iff] at hres
  have := hres.2
  rw [hoff] at this
  simpa using this

theorem configRecord_clause (s : State) (n : Nat) (hn : n < 64) (hs : s.host.stage = 3) (hr : s.host.restarting = false) (hbad : s.configBad n = false) :
    ((s.viOf n).enabled = true → ∃ u, exec (.configRecordApply n) s = .next u ∧ (u.viOf n).pendingConfig = true ∧ u.win (0x807C + 128 * n) = 2 ^ 31) ∧
    ((s.viOf n).enabled = false → exec (.configRecordApply n) s = .next (s.configPut n)) ∧
    ((s.viOf n).pendingConfig = true → s.viQuiet n = true → exec (.configRecordQuiesceApply n) s = .next (s.configPut n)) ∧
    ((s.configPut n).viOf n).enabled = true ∧ ((s.configPut n).viOf n).pairs = (List.range 4).map (fun d => BitVec.ofNat 64 (s.win64 (0x8000 + 128 * n + 8 * d) % 2 ^ 48)) ∧
    ((s.configPut n).viOf n).keyShare = s.win (0x8028 + 128 * n) := by
  have happly : exec (.configRecordApply n) s = .next (s.configApply n) := rfl
  have hquiesce : exec (.configRecordQuiesceApply n) s = .next (s.configQuiesce n) := rfl
  rw [State.configApply_go hn hs, hr, hbad] at happly
  refine ⟨fun hon => ?_, fun hoff => ?_, fun hp hq => ?_, ?_, ?_, ?_⟩
  · rw [hon] at happly
    obtain ⟨hpend, hwin, -⟩ := s.configWait_spec n
    exact ⟨s.configWait n, happly, hpend, by rw [hwin, State.configBad_reserved hbad, Nat.add_zero]⟩
  · rw [hoff] at happly
    exact happly
  · rw [State.configQuiesce_go hp hq hr, hbad] at hquiesce
    exact hquiesce
  · rw [s.viOf_configPut n]
  · rw [s.viOf_configPut n]
    rfl
  · rw [s.viOf_configPut n]
    show s.win (configOff n + 0x28) = _
    rw [show configOff n + 0x28 = 0x8028 + 128 * n by unfold configOff; omega]

theorem configRestarting_clause (s : State) (n : Nat) (hn : n < 64) (hs : s.host.stage = 3) (hr : s.host.restarting = true) :
    ∃ u, exec (.configRecordApply n) s = .next u ∧ (u.viOf n).pendingConfig = true ∧
    u.win (0x807C + 128 * n) = 2 ^ 31 + s.win (0x807C + 128 * n) % 2 ^ 30 ∧ u.mem = s.mem := by
  have happly : exec (.configRecordApply n) s = .next (s.configApply n) := rfl
  rw [State.configApply_go hn hs, if_pos hr] at happly
  exact ⟨_, happly, s.configWait_spec n⟩

theorem configRejected_clause (s : State) (n : Nat) (i : Instr) (hn : n < 64) (hs : s.host.stage = 3) (hr : s.host.restarting = false) (hbad : s.configBad n = true)
    (hi : i = .configRecordApply n ∨ (i = .configRecordQuiesceApply n ∧ (s.viOf n).pendingConfig = true ∧ s.viQuiet n = true)) :
    ∃ u, exec i s = .next u ∧ u.host.error = true ∧ u.win (0x807C + 128 * n) = 2 ^ 30 ∧ (u.viOf n).enabled = (s.viOf n).enabled ∧ u.mem = s.mem := by
  refine ⟨s.configReject n, ?_, s.configReject_spec n⟩
  rcases hi with rfl | ⟨rfl, hp, hq⟩
  · have happly : exec (.configRecordApply n) s = .next (s.configApply n) := rfl
    rw [State.configApply_go hn hs, hr, hbad] at happly
    exact happly
  · have hquiesce : exec (.configRecordQuiesceApply n) s = .next (s.configQuiesce n) := rfl
    rw [State.configQuiesce_go hp hq hr, hbad] at hquiesce
    exact hquiesce

/-! ### Submission pages (R280) -/

/-- A descriptor that passes the checks of R280. -/
def State.pageFine (s : State) (vi page : Nat) : Bool :=
  let o := pageOff vi page
  decide (page < (s.viOf vi).pages) && s.win64 o % 8192 == 0 && (s.win64 o == 0 || chipOf (s.win64 o) == s.fabric.chip.toNat) && s.win64 (o + 8) % 4096 == 0
    && chipOf (s.win64 (o + 8)) == s.fabric.chip.toNat && decide (4 ≤ s.win (o + 0x10)) && decide (s.win (o + 0x10) ≤ 16) && decide (s.win (o + 0x14) < 4)
    && s.win (o + 0x1C) == 0 && !s.pages.any (fun p => p.vi == vi && p.enabled && s.win64 o != 0 && p.groupAddr == s.win64 o)

/-- The page that a descriptor gives. -/
def State.pageOf (s : State) (vi page : Nat) : SubPage :=
  { vi := vi, page := page, groupAddr := s.win64 (pageOff vi page), base := s.win64 (pageOff vi page + 8), slots := s.win (pageOff vi page + 0x10)
    privileged := s.win (pageOff vi page + 0x14) / 2 % 2 == 1, enabled := true, next := 0, drops := ((s.page? vi page).map (fun q => q.drops)).getD 0 }

theorem State.pageEnable_go {s : State} {vi page : Nat} (hvi : vi < 64) (hp : page < 64) (hs : s.host.stage = 3)
    (hold : ∀ p, s.page? vi page = some p → p.enabled = false) : s.pageEnable vi page =
      if s.pageFine vi page then (({ s with pages := upsert s.pages (fun q => q.vi == vi && q.page == page) (s.pageOf vi page) }).winSet (pageOff vi page + 0x14)
        (s.win (pageOff vi page + 0x14) - s.win (pageOff vi page + 0x14) % 2 + 1)).winSet (pageOff vi page + 0x18) 0
      else (s.winSet (pageOff vi page + 0x14) (s.win (pageOff vi page + 0x14) - s.win (pageOff vi page + 0x14) % 2)).flagError 4 := by
  have hoff : (s.page? vi page).any (fun p => p.enabled) = false := by
    cases h : s.page? vi page with
    | none => rfl
    | some p => exact hold p h
  unfold State.pageEnable
  dsimp only
  rw [if_neg (by rw [hoff, State.booted_of_stage hs]; simp; omega)]
  rfl

theorem pageEnable_clause (s : State) (vi page : Nat) (hvi : vi < 64) (hp : page < 64) (hs : s.host.stage = 3)
    (hold : ∀ p, s.page? vi page = some p → p.enabled = false) : ∃ u, exec (.submissionPageEnable vi page) s = .next u ∧
    let o := pageOff vi page
    (page < (s.viOf vi).pages → s.win64 o = 0 → s.win64 (o + 8) % 4096 = 0 → chipOf (s.win64 (o + 8)) = s.fabric.chip.toNat → 4 ≤ s.win (o + 0x10) →
      s.win (o + 0x10) ≤ 16 → s.win (o + 0x14) < 4 → s.win (o + 0x1C) = 0 → ∃ p, u.page? vi page = some p ∧ p.enabled = true ∧
        p.slots = s.win (o + 0x10) ∧ p.privileged = decide (2 ≤ s.win (o + 0x14)) ∧ u.win (o + 0x18) = 0) ∧
    (s.win64 (pageOff vi page + 8) % 4096 ≠ 0 → u.host.error = true ∧ u.pages = s.pages) ∧
    (∀ p, u.page? vi page = some p → p.enabled = true → p.base = s.win64 (pageOff vi page + 8) ∧ p.groupAddr = s.win64 (pageOff vi page) ∧
      p.next = 0 ∧ 4 ≤ p.slots ∧ p.slots ≤ 16) := by
  have hgo := State.pageEnable_go hvi hp hs hold
  refine ⟨s.pageEnable vi page, rfl, ?_⟩
  intro o
  cases hfine : s.pageFine vi page with
  | true =>
    rw [hfine, if_pos rfl] at hgo
    have hpage : (s.pageEnable vi page).page? vi page = some (s.pageOf vi page) := by
      rw [hgo]
      exact find?_upsert _ _ _ (by simp [State.pageOf])
    have hfine' := hfine
    simp only [State.pageFine, Bool.and_eq_true, beq_iff_eq, decide_eq_true_eq] at hfine'
    obtain ⟨⟨⟨⟨⟨⟨⟨-, hbase⟩, -⟩, hlo⟩, hhi⟩, -⟩, -⟩, -⟩ := hfine'
    refine ⟨fun _ _ _ _ _ _ hctl _ => ⟨_, hpage, rfl, rfl, ?_, ?_⟩, fun hbad => absurd hbase hbad, fun p hp hon => ?_⟩
    · show (s.win (o + 0x14) / 2 % 2 == 1) = _
      rw [Bool.eq_iff_iff]
      simp
      omega
    · rw [hgo]
      exact State.win_winSet_same _ _ rfl
    · rw [hpage] at hp
      cases hp
      exact ⟨rfl, rfl, rfl, hlo, hhi⟩
  | false =>
    rw [hfine, if_neg (by decide)] at hgo
    obtain ⟨herr, -, -, -, hpages⟩ := (s.winSet (pageOff vi page + 0x14) (s.win (pageOff vi page + 0x14) - s.win (pageOff vi page + 0x14) % 2)).flagError_rest 4
    rw [← hgo] at herr hpages
    refine ⟨fun h1 h2 h3 h4 h5 h6 h7 h8 => ?_, fun _ => ⟨herr, hpages⟩, fun p hp hon => ?_⟩
    · have hyes : s.pageFine vi page = true := by
        have hother : s.pages.any (fun p => p.vi == vi && p.enabled && s.win64 (pageOff vi page) != 0 && p.groupAddr == s.win64 (pageOff vi page)) = false :=
          List.any_eq_false.mpr fun p _ => by simp [show s.win64 (pageOff vi page) = 0 from h2]
        unfold State.pageFine
        dsimp only
        rw [hother]
        simp only [Bool.and_eq_true, beq_iff_eq, decide_eq_true_eq, Bool.or_eq_true, Bool.not_false]
        exact ⟨⟨⟨⟨⟨⟨⟨⟨⟨h1, by rw [h2]⟩, .inl h2⟩, h3⟩, h4⟩, h5⟩, h6⟩, h7⟩, h8⟩, trivial⟩
      rw [hyes] at hfine
      cases hfine
    · rw [hold p ((congrArg (List.find? _) hpages).symm.trans hp)] at hon
      cases hon

theorem pageDisable_clause (s : State) (vi page : Nat) (p : SubPage) (hp : s.page? vi page = some p) (hon : p.enabled = true) :
    ∃ u q, exec (.submissionPageDisable vi page) s = .next u ∧
    u.page? vi page = some q ∧ q = { p with enabled := false } ∧ u.tasks = s.tasks ∧ u.grids = s.grids ∧ u.entries = s.entries := by
  have hany : (s.page? vi page).any (fun p => p.enabled) = true := by rw [hp]; exact hon
  refine ⟨_, { p with enabled := false }, congrArg Host.Outcome.next (if_pos hany), ?_, rfl, rfl, rfl, rfl⟩
  exact find?_mapIf (fun _ => rfl) hp

/-! ### Telemetry (R351, R352) -/

theorem State.deviceWrite_besideMemory (s : State) (pa : Nat) (bs : List Byte) : (s.deviceWrite pa bs).besideMemory s := by
  rw [State.deviceWrite]
  exact State.besideMemory_trans (State.besideMemory_foldl (fun t pw _ => t.watch_besideMemory pw) _) (s.besideMemory_mem _)

theorem Store.map_get_write (st : Store 8) (a : Nat) (e : List Byte) {n : Nat} (hn : e.length = n) : (List.range n).map (fun j => (st.write a e).get (a + j)) = e := by
  refine List.ext_getElem (by simp [hn]) fun j h1 h2 => ?_
  simp [Store.get_write_in st a e h2]

theorem State.map_byte_deviceWrite (s : State) (a : Nat) (e : List Byte) {n : Nat} (hn : e.length = n) :
    (List.range n).map (fun j => (s.deviceWrite a e).mem.byte (a + j)) = e := by
  refine List.ext_getElem (by simp [hn]) fun j h1 h2 => ?_
  simp [State.byte_deviceWrite, h2]

/-- The die record after the cap of an interval (R351). -/
def State.cappedDie (s : State) (die : Nat) (d : Die) : Die :=
  if s.capOn die then d.cap (fld (s.win (dieOff die 0)) 0 12) (Config.measured s.fresh die 4).toNat else { d with throttle := d.throttle &&& ~~~1 }

theorem Die.cap_frame (d : Die) (cap power : Nat) : d.cap cap power = { d with clock := (d.cap cap power).clock, throttle := (d.cap cap power).throttle } := by
  unfold Die.cap
  split
  · rfl
  · split <;> rfl

theorem State.cappedDie_frame (s : State) (die : Nat) (d : Die) :
    s.cappedDie die d = { d with clock := (s.cappedDie die d).clock, throttle := (s.cappedDie die d).throttle } := by
  unfold State.cappedDie
  split
  · exact d.cap_frame _ _
  · rfl

/-- The clock after an interval (R351). -/
theorem State.cappedDie_clock (s : State) (die : Nat) (d : Die) :
    let power := (Config.measured s.fresh die 4).toNat
    let cap := s.win (0x1000 + 0x100 * die) % 4096
    (s.capOn die = true → cap < power → (s.cappedDie die d).clock = max 1000 (d.clock - 100)) ∧
      (s.capOn die = true → power ≤ cap → cap * 95 ≤ power * 100 → (s.cappedDie die d).clock = d.clock) ∧
      (s.capOn die = true → power * 100 < cap * 95 → power ≤ cap → (s.cappedDie die d).clock = min 4000 (d.clock + 100)) ∧
      (s.capOn die = false → (s.cappedDie die d).clock = d.clock) := by
  intro power cap
  have hcap : fld (s.win (dieOff die 0)) 0 12 = cap := by
    show s.win (0x1000 + 0x100 * die + 0) / 2 ^ 0 % 2 ^ 12 = _
    rw [Nat.pow_zero, Nat.div_one]
    rfl
  have hon : s.capOn die = true → s.cappedDie die d = d.cap cap power := fun h => by rw [State.cappedDie, if_pos h, hcap]
  refine ⟨fun h h1 => ?_, fun h h1 h2 => ?_, fun h h1 h2 => ?_, fun h => ?_⟩
  · rw [hon h, Die.cap, if_pos h1]
  · rw [hon h, Die.cap, if_neg (by omega), if_neg (by omega)]
  · rw [hon h, Die.cap, if_neg (by omega), if_pos h1]
  · rw [State.cappedDie, if_neg (by simp [h])]

/-- The die record after a telemetry interval. -/
def State.sampledDie (s : State) (die : Nat) (d : Die) : Die :=
  { s.cappedDie die d with
    recordAt := s.tick, waited := false, throttle := (s.cappedDie die d).throttle &&& ~~~2
    trTail := if (s.win (dieOff die 0x10)).testBit 31 then (s.cappedDie die d).trTail + 1 else (s.cappedDie die d).trTail
    trSeq := if (s.win (dieOff die 0x10)).testBit 31 then (s.cappedDie die d).trSeq + 1 else (s.cappedDie die d).trSeq }

/-- The state after an interval's record is written, where one is. -/
def State.telemetryPut (s : State) (die : Nat) (d : Die) : State :=
  if (s.win (dieOff die 0x10)).testBit 31
  then s.ringPut (s.win64 (dieOff die 8)) (s.win (dieOff die 0x10)) (s.cappedDie die d).trTail.toNat (s.telemetryBytes (s.cappedDie die d)) else s

theorem State.telemetry_due {s : State} {die : Nat} {d : Die} (hd : s.dies.find? (fun x => x.num == die) = some d) (h0 : s.tick ≠ 0)
    (hmod : s.tick.toNat % 100000 = 0) (hnew : d.recordAt ≠ s.tick) : s.telemetry die = (s.telemetryPut die d).modDie die (fun _ => s.sampledDie die d) := by
  unfold State.telemetry
  rw [hd]
  dsimp only
  rw [if_neg (by rintro (h | h | h) <;> contradiction)]
  rfl

theorem telemetryIdle_clause (s : State) (die : Nat) (h : s.dies.find? (fun x => x.num == die) = none ∨ s.tick = 0 ∨ s.tick.toNat % 100000 ≠ 0 ∨
    (∀ d, s.dies.find? (fun x => x.num == die) = some d → d.recordAt = s.tick)) : exec (.telemetryRecord die) s = .next s := by
  refine congrArg Host.Outcome.next ?_
  unfold State.telemetry
  cases hd : s.dies.find? (fun x => x.num == die) with
  | none => rfl
  | some d =>
    dsimp only
    rw [if_pos]
    rcases h with h | h | h | h
    · rw [h] at hd; cases hd
    · exact .inl h
    · exact .inr (.inl h)
    · exact .inr (.inr (h d hd))

/-- The fields of a telemetry record (R352). -/
theorem State.telemetryBytes_holds (s : State) (d : Die) :
    (s.telemetryBytes d).length = 32 ∧ field (s.telemetryBytes d) 0 8 = s.tick.toNat ∧
      field (s.telemetryBytes d) 8 4 = (Config.measured s.fresh d.num 0).toNat % 2 ^ 32 ∧ field (s.telemetryBytes d) 18 1 = d.num % 256 ∧
      field (s.telemetryBytes d) 20 2 = d.clock % 2 ^ 16 ∧ field (s.telemetryBytes d) 24 4 = d.trSeq.toNat ∧ field (s.telemetryBytes d) 28 4 = 2 ^ 31 := by
  have htick : s.tick.toNat < 2 ^ 64 := s.tick.isLt
  have hseq : d.trSeq.toNat < 2 ^ 32 := d.trSeq.isLt
  unfold State.telemetryBytes
  dsimp only
  simp (disch := decide) only [List.append_assoc, field_leBytes, field_skip, field_last, Nat.reduceSub]
  refine ⟨by simp only [List.length_append, leBytes_length], by omega, rfl, by omega, rfl, by omega, by omega⟩

theorem telemetryRecord_clause (s : State) (die : Nat) (d : Die) (hd : s.dies.find? (fun x => x.num == die) = some d) (h0 : s.tick ≠ 0)
    (hmod : s.tick.toNat % 100000 = 0) (hnew : d.recordAt ≠ s.tick) :
    let ctl := s.win (0x1010 + 0x100 * die)
    let on := ctl.testBit 31
    let slot := s.win (0x1008 + 0x100 * die) + 2 ^ 32 * s.win (0x100C + 0x100 * die) + 32 * (d.trTail.toNat % 2 ^ (ctl % 32))
    let power := (Config.measured s.fresh die 4).toNat
    let cap := s.win (0x1000 + 0x100 * die) % 4096
    ∃ u k, exec (.telemetryRecord die) s = .next u ∧ u.dies.find? (fun x => x.num == die) = some k ∧
      k.waited = false ∧ k.recordAt = s.tick ∧ k.trTail = (if on = true then d.trTail + 1 else d.trTail) ∧ k.trSeq = (if on = true then d.trSeq + 1 else d.trSeq) ∧
      (s.capOn die = true → cap < power → k.clock = max 1000 (d.clock - 100)) ∧
      (s.capOn die = true → power ≤ cap → cap * 95 ≤ power * 100 → k.clock = d.clock) ∧
      (s.capOn die = true → power * 100 < cap * 95 → power ≤ cap → k.clock = min 4000 (d.clock + 100)) ∧ (s.capOn die = false → k.clock = d.clock) ∧
      (on = false → u = { s with dies := u.dies }) ∧
      (on = true →
        let tells := fun (e : List Byte) => field e 0 8 = s.tick.toNat ∧ field e 8 4 = (Config.measured s.fresh die 0).toNat % 2 ^ 32 ∧
          field e 18 1 = d.num % 256 ∧ field e 20 2 = k.clock % 2 ^ 16 ∧ field e 24 4 = d.trSeq.toNat ∧ field e 28 4 = 2 ^ 31
        (ctl.testBit 8 = true → tells ((List.range 32).map (fun j => u.host.hostMem.get (hostKey 0 (slot + j)))) ∧
          u = { s with dies := u.dies, host := { s.host with hostMem := u.host.hostMem } }) ∧
        (ctl.testBit 8 = false → paOk slot = true → s.ownerOf slot = 0 → s.ownerOf (slot + 31) = 0 → tells ((List.range 32).map (fun j => u.mem.byte (slot + j))) ∧
          (∀ pa, pa < slot ∨ slot + 32 ≤ pa → u.mem.byte pa = s.mem.byte pa) ∧ u.besideMemory { s with dies := u.dies })) := by
  intro ctl on slot power cap
  have hnum : d.num = die := beq_iff_eq.mp (List.find?_some (p := fun x : Die => x.num == die) hd)
  have hframe := s.cappedDie_frame die d
  have hcnum : (s.cappedDie die d).num = die := (congrArg Die.num hframe :).trans hnum
  have htail : (s.cappedDie die d).trTail = d.trTail := (congrArg Die.trTail hframe :)
  have hseq : (s.cappedDie die d).trSeq = d.trSeq := (congrArg Die.trSeq hframe :)
  have hctl : s.win (dieOff die 0x10) = ctl := by
    show s.win (0x1000 + 0x100 * die + 0x10) = s.win (0x1010 + 0x100 * die)
    rw [show 0x1000 + 0x100 * die + 0x10 = 0x1010 + 0x100 * die by omega]
  have hbase : s.win64 (dieOff die 8) = s.win (0x1008 + 0x100 * die) + 2 ^ 32 * s.win (0x100C + 0x100 * die) := by
    show s.win (0x1000 + 0x100 * die + 8) + 2 ^ 32 * s.win (0x1000 + 0x100 * die + 8 + 4) = _
    rw [show 0x1000 + 0x100 * die + 8 = 0x1008 + 0x100 * die by omega, show 0x1008 + 0x100 * die + 4 = 0x100C + 0x100 * die by omega]
  obtain ⟨hc1, hc2, hc3, hc4⟩ := s.cappedDie_clock die d
  have hgo := State.telemetry_due hd h0 hmod hnew
  have hput : on = true → s.telemetryPut die d = s.ringPut (s.win (0x1008 + 0x100 * die) + 2 ^ 32 * s.win (0x100C + 0x100 * die)) ctl d.trTail.toNat
      (s.telemetryBytes (s.cappedDie die d)) := fun hon => by
    unfold State.telemetryPut
    rw [hctl, hbase, htail, if_pos hon]
  have hidle : on = false → s.telemetryPut die d = s := fun hoff => by
    unfold State.telemetryPut
    rw [hctl, if_neg (fun h => by rw [show ctl.testBit 31 = on from rfl, hoff] at h; cases h)]
  have hdies : (s.telemetryPut die d).dies = s.dies := by
    unfold State.telemetryPut State.ringPut
    split
    · dsimp only
      split
      · rfl
      · split
        · exact (congrArg State.dies (s.deviceWrite_storesOf _ _) :)
        · rfl
    · rfl
  obtain ⟨hlen, htells⟩ := s.telemetryBytes_holds (s.cappedDie die d)
  rw [hcnum] at htells
  have htells : field (s.telemetryBytes (s.cappedDie die d)) 0 8 = s.tick.toNat ∧
      field (s.telemetryBytes (s.cappedDie die d)) 8 4 = (Config.measured s.fresh die 0).toNat % 2 ^ 32 ∧ field (s.telemetryBytes (s.cappedDie die d)) 18 1 = d.num % 256 ∧
      field (s.telemetryBytes (s.cappedDie die d)) 20 2 = (s.sampledDie die d).clock % 2 ^ 16 ∧ field (s.telemetryBytes (s.cappedDie die d)) 24 4 = d.trSeq.toNat ∧
      field (s.telemetryBytes (s.cappedDie die d)) 28 4 = 2 ^ 31 := by
    rw [hnum, ← hseq]
    exact htells
  refine ⟨s.telemetry die, s.sampledDie die d, rfl, ?_, rfl, rfl, ?_, ?_, hc1, hc2, hc3, hc4, fun hoff => ?_, fun hon => ⟨fun h8 => ?_, fun h8 hok ho1 ho2 => ?_⟩⟩
  · rw [hgo]
    refine find?_modWhere _ _ _ (beq_iff_eq.mpr hcnum) (List.any_eq_true.mpr ⟨d, ?_, beq_iff_eq.mpr hnum⟩)
    rw [hdies]
    exact List.mem_of_find?_eq_some hd
  · show (if (s.win (dieOff die 0x10)).testBit 31 then (s.cappedDie die d).trTail + 1 else (s.cappedDie die d).trTail) = _
    rw [hctl, htail]
  · show (if (s.win (dieOff die 0x10)).testBit 31 then (s.cappedDie die d).trSeq + 1 else (s.cappedDie die d).trSeq) = _
    rw [hctl, hseq]
  · rw [hgo, hidle hoff]
    rfl
  · have hhost : s.telemetryPut die d = { s with host := { s.host with hostMem := s.host.hostMem.write (hostKey 0 slot) (s.telemetryBytes (s.cappedDie die d)) } } := by
      rw [hput hon]
      exact if_pos h8
    have hkey : ∀ j, hostKey 0 (slot + j) = hostKey 0 slot + j := fun j => by unfold hostKey; omega
    have hread : (List.range 32).map (fun j => (s.telemetry die).host.hostMem.get (hostKey 0 (slot + j))) = s.telemetryBytes (s.cappedDie die d) := by
      simp only [hkey]
      rw [hgo, hhost]
      exact Store.map_get_write s.host.hostMem (hostKey 0 slot) _ hlen
    refine ⟨?_, by rw [hgo, hhost]; rfl⟩
    rw [hread]
    exact htells
  · have hwrite : s.telemetryPut die d = s.deviceWrite slot (s.telemetryBytes (s.cappedDie die d)) := by
      rw [hput hon]
      unfold State.ringPut
      dsimp only
      rw [if_neg (by simp [h8]), if_pos]
      simp only [Bool.and_eq_true, beq_iff_eq]
      exact ⟨⟨hok, ho1⟩, ho2⟩
    have hread : (List.range 32).map (fun j => (s.telemetry die).mem.byte (slot + j)) = s.telemetryBytes (s.cappedDie die d) := by
      rw [hgo, hwrite]
      exact s.map_byte_deviceWrite slot _ hlen
    refine ⟨by rw [hread]; exact htells, fun pa hpa => ?_, ?_⟩
    · rw [hgo, hwrite]
      refine (s.byte_deviceWrite slot _ pa).trans (if_neg ?_)
      rw [hlen]
      omega
    · rw [hgo, hwrite]
      obtain ⟨hrest, hmon⟩ := s.deviceWrite_besideMemory slot (s.telemetryBytes (s.cappedDie die d))
      generalize s.deviceWrite slot (s.telemetryBytes (s.cappedDie die d)) = t at hrest hmon ⊢
      exact ⟨by rw [hrest]; rfl, hmon⟩

end Sys2Proof.Machine
end

section
/-! Interrupts that are delivered, BAR2 and function-level resets (R338, R339, R344). -/
namespace Sys2Proof.Machine

/-! ### Reads that do not depend on how a word is registered -/

/-- A memory that reads, translates and is reached as another does. -/
structure Mem.readsAs (m n : Mem) : Prop where
  byte : ∀ a, m.byte a = n.byte a
  owners : m.owners = n.owners
  tlb : m.tlb = n.tlb
  remotePerms : m.remotePerms = n.remotePerms
  poison : m.poison = n.poison

theorem Mem.readsAs.read {m n : Mem} (h : m.readsAs n) (a k : Nat) : m.read a k = n.read a k :=
  List.map_congr_left fun _ _ => h.byte _

/-- A state in which an access translates as in another. -/
structure State.translatesAs (t s : State) : Prop where
  mem : t.mem.readsAs s.mem
  dies : t.dies = s.dies
  fabric : t.fabric = s.fabric
  vis : t.vis = s.vis

theorem State.translatesAs.fenced {t s : State} (h : t.translatesAs s) (d : Nat) : t.fenced d = s.fenced d := by rw [State.fenced, State.fenced, h.dies]

theorem State.translatesAs.path {t s : State} (h : t.translatesAs s) (a b : Nat) : t.path a b = s.path a b := by
  have hup : ∀ a b, t.ringUp a b = s.ringUp a b := fun a b => by rw [State.ringUp, State.ringUp, h.fabric, h.fenced, h.fenced]
  have hring : t.ringPath a b = s.ringPath a b := by simp only [State.ringPath, hup]
  have hiod : ∀ d, t.iodUp d = s.iodUp d := fun d => by rw [State.iodUp, State.iodUp, h.dies]
  rw [State.path, State.path, hiod, hiod, hring]

theorem walkFrom_translatesAs {t s : State} (h : t.translatesAs s) (vi va : Nat) (l : List (Nat × Nat × Nat × Bool)) (table : Nat) :
    walkFrom t vi va l table = walkFrom s vi va l table := by
  have howner : ∀ p, t.ownerOf p = s.ownerOf p := fun p => by rw [State.ownerOf, State.ownerOf, h.mem.owners]
  have howns : ∀ v p n, t.ownsAll v p n = s.ownsAll v p n := fun v p n => by rw [State.ownsAll, State.ownsAll, h.mem.owners]
  have hlive : t.liveDies = s.liveDies := by simp only [State.liveDies, h.fenced]
  induction l generalizing table with
  | nil => rfl
  | cons x r ih =>
    obtain ⟨lv, lo, n, leafOk⟩ := x
    simp only [walkFrom, howner, howns, h.fenced, hlive, h.mem.read, ih]

theorem translate_translatesAs {t s : State} (h : t.translatesAs s) (vi : Nat) (acc : Access) (atomic : Bool) (va : Nat) :
    translate t vi acc atomic va = translate s vi acc atomic va := by
  have hwalk : walk t vi va = walk s vi va := by
    rw [walk, walk, walkFrom_translatesAs h, State.viOf_congr h.vis]
  have htlb : t.tlb? vi va = s.tlb? vi va := by rw [State.tlb?, State.tlb?, h.mem.tlb]
  have hjudge : judge t = judge s := funext fun _ => funext fun _ => funext fun _ => funext fun _ => by simp only [judge, h.fenced]
  have hreach : ∀ c, t.reachable c = s.reachable c := fun c => by rw [State.reachable, State.reachable, h.fabric]
  simp only [translate, walked, hwalk, htlb, hjudge, hreach, h.mem.remotePerms, h.fabric]

theorem State.translatesAs.seen {t s : State} (h : t.translatesAs s) (core : Nat) : (t.seen core).translatesAs (s.seen core) := by
  refine ⟨⟨h.mem.byte, h.mem.owners, ?_, h.mem.remotePerms, h.mem.poison⟩, ?_, ?_, h.vis⟩
  · show _ ++ _ = _ ++ _
    rw [h.mem.tlb]
  · show List.map _ _ = List.map _ _
    rw [h.dies]
    simp only [h.path]
  · show (if _ then _ else _) = (if _ then _ else _)
    rw [h.path, h.fabric]

theorem ranged_translatesAs {t s : State} (h : t.translatesAs s) (hcut : ∀ pa n, t.cutOwner pa n = s.cutOwner pa n)
    (core vi : Nat) (acc : Access) (atomic : Bool) (va n : Nat) : t.ranged core vi acc atomic va n = s.ranged core vi acc atomic va n := by
  have hrange : translateRange (t.seen core) vi acc atomic va n = translateRange (s.seen core) vi acc atomic va n := by
    simp only [translateRange, translate_translatesAs (h.seen core)]
  have hpiece : ∀ p, t.cutPiece vi acc p = s.cutPiece vi acc p := fun p => by
    simp only [State.cutPiece, hcut]
  unfold State.ranged
  rw [hrange]
  split
  · rfl
  · rw [show t.cutPiece vi acc = s.cutPiece vi acc from funext hpiece]

theorem deviceRead_translatesAs {t s : State} (h : t.translatesAs s) (hcut : ∀ pa n, t.cutOwner pa n = s.cutOwner pa n) (vi va n : Nat) :
    t.deviceRead vi va n = s.deviceRead vi va n := by
  unfold State.deviceRead State.coreRead
  rw [ranged_translatesAs h hcut]
  split
  · rfl
  · simp only [Mem.poisonIn, h.mem.poison, h.mem.read]

/-- The host's side has no part in a translation. -/
theorem State.hostSide_translatesAs (s : State) (h : HostSide) : State.translatesAs { s with host := h } s :=
  ⟨⟨fun _ => rfl, rfl, rfl, rfl, rfl⟩, rfl, rfl, rfl⟩

/-! ### The bridge -/

/-- What a release of the bridge's words does to one (R254, R338). -/
def State.bridgeRelease (s : State) (vi : Nat) (r : Reg) : Reg :=
  if r.owner == ⟨.bridge, 0⟩ && s.ownerOf r.pa == vi + 1 then r.release ⟨⟨.bridge, 0⟩, .sys, false⟩ else r

theorem State.bridgeRelease_keeps (s : State) (vi : Nat) (r : Reg) : (s.bridgeRelease vi r).pa = r.pa ∧ (s.bridgeRelease vi r).mask = r.mask ∧
    (s.bridgeRelease vi r).value = r.value ∧ (s.bridgeRelease vi r).owner = r.owner := by
  unfold State.bridgeRelease
  split <;> exact ⟨rfl, rfl, rfl, rfl⟩

theorem State.releaseBridge_eq (s : State) (vi : Nat) :
    s.releaseBridge vi = { s.flushBridge with mem := { s.flushBridge.mem with regs := s.flushBridge.mem.regs.map (s.flushBridge.bridgeRelease vi) } } := rfl

/-- A release of the bridge changes nothing that a read gives. -/
theorem State.releaseBridge_reads (s : State) (vi : Nat) : (∀ pa, (s.releaseBridge vi).mem.byte pa = s.flushBridge.mem.byte pa) ∧
    ∀ v va n, (s.releaseBridge vi).deviceRead v va n = s.flushBridge.deviceRead v va n := by
  rw [State.releaseBridge_eq]
  generalize s.flushBridge = f
  have hkeeps := fun r => f.bridgeRelease_keeps vi r
  have hbyte := f.mem.byte_mapRegs (f := f.bridgeRelease vi) (fun r => (hkeeps r).1) (fun r => Prod.ext (hkeeps r).2.1 (hkeeps r).2.2.1)
  refine ⟨hbyte, fun v va n => deviceRead_translatesAs
    (t := { f with mem := { f.mem with regs := f.mem.regs.map (f.bridgeRelease vi) } }) (s := f) ⟨⟨hbyte, rfl, rfl, rfl, rfl⟩, rfl, rfl, rfl⟩ (fun pa k => ?_) v va n⟩
  unfold State.cutOwner
  dsimp only
  rw [List.any_map]
  refine congrArg (f.mem.regs.any) (funext fun r => ?_)
  obtain ⟨hpa, -, -, howner⟩ := hkeeps r
  show (decide ((f.bridgeRelease vi r).pa < pa + k) && decide (pa < (f.bridgeRelease vi r).pa + 4) &&
    !f.path (agentDie (f.bridgeRelease vi r).owner) (homeDie (f.bridgeRelease vi r).pa)) = _
  rw [hpa, howner]

theorem State.replArrives_agents (s : State) (r : ReplWrite) : ∀ q ∈ (s.replArrives r).mem.repls, q.key ≠ r.key ∧ ∃ p ∈ s.mem.repls, p.key = q.key ∧ p.agent = q.agent := by
  unfold State.replArrives
  split
  · intro q hq
    obtain ⟨hmem, hne⟩ := List.mem_filter.mp hq
    exact ⟨by simpa using hne, q, hmem, rfl, rfl⟩
  · dsimp only
    unfold State.replLost
    intro q hq
    obtain ⟨hmem, hne⟩ := List.mem_filter.mp hq
    refine ⟨by simpa using hne, ?_⟩
    split at hmem
    · exact ⟨q, hmem, rfl, rfl⟩
    · obtain ⟨p, hp, rfl⟩ := List.mem_map.mp hmem
      refine ⟨p, hp, ?_⟩
      split <;> exact ⟨rfl, rfl⟩

theorem State.replsArrive_agents (l : List ReplWrite) (s : State) :
    ∀ q ∈ (l.foldl State.replArrives s).mem.repls, (∀ r ∈ l, q.key ≠ r.key) ∧ ∃ p ∈ s.mem.repls, p.key = q.key ∧ p.agent = q.agent := by
  induction l generalizing s with
  | nil => exact fun q hq => ⟨by simp, q, hq, rfl, rfl⟩
  | cons r l ih =>
    intro q hq
    obtain ⟨hne, p, hp, hkey, hag⟩ := ih (s.replArrives r) q hq
    obtain ⟨hne', p', hp', hkey', hag'⟩ := s.replArrives_agents r p hp
    refine ⟨fun r' hr' => ?_, p', hp', hkey'.trans hkey, hag'.trans hag⟩
    rcases List.mem_cons.mp hr' with rfl | hr'
    · exact hkey ▸ hne'
    · exact hne r' hr'

/-- No update of a replica that the bridge made is under way after its flush. -/
theorem State.flushBridge_agents (s : State) : ∀ q ∈ s.flushBridge.mem.repls, q.agent ≠ ⟨.bridge, 0⟩ := by
  intro q hq hbad
  obtain ⟨hne, p, hp, hkey, hag⟩ := State.replsArrive_agents _ s q hq
  exact hne p (mem_withOlder hp (by simp [hag, hbad])) hkey.symm

/-- What a BAR2 read answers: the bytes, or an abort (R338). -/
def barAnswer : Option (List Byte) → Answer
  | some bs => .readData bs
  | none => .abort

theorem bar2Read_clause (s : State) (n off len : Nat) :
    let f := s.flushBridge
    ∃ u a, exec (.hostBar2Read n off len) s = .next u ∧ u.host.answers = s.host.answers ++ [a] ∧
    (∀ pa, u.mem.byte pa = f.mem.byte pa) ∧ ((∀ q ∈ s.mem.repls, q.agent ≠ ⟨.bridge, 0⟩) → f = s) ∧ (∀ q ∈ f.mem.repls, q.agent ≠ ⟨.bridge, 0⟩) ∧
    (∀ bs, off + len ≤ 2 ^ 36 → f.deviceRead n off len = some bs → a = .readData bs) ∧ (2 ^ 36 < off + len → a = .abort) := by
  intro f
  obtain ⟨hbyte, hread⟩ := s.releaseBridge_reads n
  have hhost : (s.releaseBridge n).host = s.host := by
    rw [State.releaseBridge_eq]
    exact (congrArg State.host (s.flushRepls_storesOf _) :)
  have hbar : s.bar2Read n off len = (s.releaseBridge n).answer (barAnswer (if off + len ≤ 2 ^ 36 then f.deviceRead n off len else none)) := by
    unfold State.bar2Read
    dsimp only
    rw [hread]
    cases (if off + len ≤ 2 ^ 36 then s.flushBridge.deviceRead n off len else none) <;> rfl
  refine ⟨_, barAnswer (if off + len ≤ 2 ^ 36 then f.deviceRead n off len else none), congrArg Host.Outcome.next hbar, ?_, hbyte, fun h => ?_, s.flushBridge_agents,
    fun bs hlen hbs => ?_, fun hlen => ?_⟩
  · show (s.releaseBridge n).host.answers ++ _ = _
    rw [hhost]
  · exact State.flushRepls_none fun q hq => by simpa using h q hq
  · rw [if_pos hlen, hbs]; rfl
  · rw [if_neg (by omega)]; rfl

/-- A BAR2 write of one piece of this package's memory. -/
theorem State.bar2Write_one {s : State} {n off : Nat} {bytes : List Byte} {tr : Trans} (hoff : off + bytes.length ≤ 2 ^ 36)
    (hr : s.ranged schedulingCore n .write false off bytes.length = .ok [(off, bytes.length, tr)]) (ht : tr.home = true) :
    s.bar2Write n off bytes = (s.noteHome off tr).storeAtom (some { agentWriter ⟨.bridge, 0⟩ with gid := some 0 }) ⟨.bridge, 0⟩ tr.pa bytes := by
  obtain ⟨hremote, hrepl, hlost⟩ := (Trans.home_iff tr).mp ht
  unfold State.bar2Write
  rw [if_pos hoff, hr]
  simp [hremote, hrepl, hlost, State.store]

theorem bar2Write_clause (s : State) (n off : Nat) (bytes : List Byte) (va : Nat) (tr : Trans) (hoff : off + bytes.length ≤ 2 ^ 36)
    (hr : s.ranged schedulingCore n .write false off bytes.length = .ok [(va, bytes.length, tr)]) (ht : tr.home = true) (hva : va = off) :
    ∃ u, exec (.hostBar2Write n off bytes) s = .next u ∧ (∀ j < bytes.length, u.mem.byte (tr.pa + j) = bytes.getD j 0) ∧
      (∀ pa, pa < tr.pa ∨ tr.pa + bytes.length ≤ pa → u.mem.byte pa = s.mem.byte pa) ∧ u.besideMemory s := by
  subst hva
  have hnote : (∀ pa, (s.noteHome va tr).mem.byte pa = s.mem.byte pa) ∧ (s.noteHome va tr).besideMemory s := by
    unfold State.noteHome
    split
    · exact ⟨fun _ => rfl, s.besideMemory_refl⟩
    · exact ⟨fun _ => rfl, s.besideMemory_mem _⟩
  refine ⟨_, congrArg Host.Outcome.next (State.bar2Write_one hoff hr ht), fun j hj => ?_, fun pa hpa => ?_, ?_⟩
  · rw [State.byte_storeAtom, if_pos (by omega), Nat.add_sub_cancel_left]
  · rw [State.byte_storeAtom, if_neg (by omega), hnote.1]
  · exact State.besideMemory_trans (State.storeAtom_afterStores _ _ _ _ _).1 hnote.2

theorem bar2Write_failed (s : State) (n off : Nat) (bytes : List Byte) (e : Nat × PageFault) (hoff : off + bytes.length ≤ 2 ^ 36)
    (hr : s.ranged schedulingCore n .write false off bytes.length = .error e) : exec (.hostBar2Write n off bytes) s = .next s := by
  refine congrArg Host.Outcome.next ?_
  unfold State.bar2Write
  rw [if_pos hoff, hr]

theorem flr_clause (s : State) (n : Nat) (hn : n < 64) (hb : s.booted = true) : exec (.flr n) s = .next ((s.disableVi n).enableVi n) :=
  congrArg Host.Outcome.next (if_pos ⟨hn, hb⟩)

/-! ### Interrupts that are delivered (R344) -/

theorem State.devicePut_storesOf (s : State) (vi va : Nat) (bs : List Byte) : (s.devicePut vi va bs).1.storesOf s := by
  unfold State.devicePut
  split
  · exact s.storesOf_refl
  · dsimp only
    split
    · exact s.storesOf_refl
    · refine State.storesOf_foldl (fun u p => ?_) _ s
      split
      · exact u.deviceWrite_storesOf _ _
      · split
        · exact u.storeRepl_storesOf _ _ _ _
        · exact u.deviceWrite_storesOf _ _

theorem State.storesOf.host {t s : State} (h : t.storesOf s) : t.host = s.host := (congrArg State.host h :)

/-- The fields of an interrupt target's entry (R245). -/
def entryKind (e : List Byte) : Nat := field e 0 1 % 4
@[reducible] def entryFull (e : List Byte) : Prop := (field e 0x1C 4 + 2 ^ 32 - field e 0x18 4) % 2 ^ 32 = field e 0x10 4
def entrySlot (e : List Byte) : Nat := field e 8 8 + 16 * (field e 0x1C 4 % field e 0x10 4)

/-- The entry of the table that an interrupt was posted under (R251). -/
def Interrupt.entry (i : Interrupt) : Nat := (i.base.toNat + 32 * (i.target % 256)) % 2 ^ 64

/-- A queue's tail moves on. -/
def State.moveTail (s : State) (i : Interrupt) (e : List Byte) : State × Bool :=
  s.deviceForce i.vi (i.entry + 0x1C) (leBytes 4 ((field e 0x1C 4 + 1) % 2 ^ 32))

theorem State.deliver_some {s : State} {i : Interrupt} {e : List Byte} (he : s.deviceRead i.vi i.entry 32 = some e) :
    s.deliver i =
      if entryKind e = 0 ∨ entryKind e = 3 ∨ entryFull e then s.dropInterrupt i.vi i.entry e
      else if entryKind e = 1 then
        if !Config.hostTakes i.vi (field e 1 1 % 64) (field e 8 8) then s.dropInterrupt i.vi i.entry e else
        match State.moveTail { s with host := { s.host with hostMem := s.host.hostMem.write (hostKey i.vi (entrySlot e)) i.bytes } } i e with
        | (u, true) => u.answer (.msix i.vi (field e 1 1 % 64))
        | (_, false) => s.dropInterrupt i.vi i.entry e
      else match s.devicePut i.vi (entrySlot e) i.bytes with
        | (u, true) => (match u.flushBridge.moveTail i e with
          | (v, true) => v
          | (_, false) => s.dropInterrupt i.vi i.entry e)
        | (_, false) => s.dropInterrupt i.vi i.entry e := by
  unfold State.deliver
  dsimp only
  rw [show s.deviceRead i.vi ((i.base.toNat + 32 * (i.target % 256)) % 2 ^ 64) 32 = some e from he]
  rfl

theorem State.deliver_none {s : State} {i : Interrupt} (he : s.deviceRead i.vi i.entry 32 = none) : s.deliver i = s := by
  unfold State.deliver
  dsimp only
  rw [show s.deviceRead i.vi ((i.base.toNat + 32 * (i.target % 256)) % 2 ^ 64) 32 = none from he]

theorem State.dropInterrupt_host (s : State) (vi entry : Nat) (e : List Byte) : (s.dropInterrupt vi entry e).host = s.host :=
  (s.deviceForce_storesOf _ _ _).host

theorem State.moveTail_host (s : State) (i : Interrupt) (e : List Byte) : (s.moveTail i e).1.host = s.host := (s.deviceForce_storesOf _ _ _).host

/-- A delivery posts nothing. -/
theorem State.deliver_interrupts (s : State) (i : Interrupt) : (s.deliver i).host.interrupts = s.host.interrupts := by
  cases he : s.deviceRead i.vi i.entry 32 with
  | none => rw [State.deliver_none he]
  | some e =>
    have hdrop := congrArg HostSide.interrupts (s.dropInterrupt_host i.vi i.entry e)
    rw [State.deliver_some he]
    split
    · exact hdrop
    · split
      · split
        · exact hdrop
        · have htail := State.moveTail_host { s with host := { s.host with hostMem := s.host.hostMem.write (hostKey i.vi (entrySlot e)) i.bytes } } i e
          split
          · next u hu => rw [hu] at htail; exact (congrArg HostSide.interrupts htail :)
          · exact hdrop
      · have hput := (s.devicePut_storesOf i.vi (entrySlot e) i.bytes).host
        split
        · next v hv =>
          rw [hv] at hput
          have htail := State.moveTail_host v.flushBridge i e
          have hflush : v.flushBridge.host = v.host := (v.flushRepls_storesOf _).host
          split
          · next w hw =>
            rw [hw] at htail
            exact congrArg HostSide.interrupts ((htail.trans hflush).trans hput)
          · exact hdrop
        · exact hdrop

/-- The device writes, without a permission of the tenant's, a piece of this package's memory. -/
theorem State.deviceForce_home {s : State} {vi va0 va : Nat} {bs : List Byte} {tr : Trans} (hr : s.ranged schedulingCore vi .read false va0 bs.length = .ok [(va, bs.length, tr)])
    (ht : tr.home = true) (h0 : pieceOff va0 va = 0) : s.deviceForce vi va0 bs = (s.deviceWrite tr.pa bs, true) := by
  obtain ⟨hremote, hrepl, -⟩ := (Trans.home_iff tr).mp ht
  rw [State.deviceForce, hr]
  simp [hremote, hrepl, h0]

theorem pieceOff_self (va : Nat) : pieceOff va va = 0 := by
  unfold pieceOff
  omega

/-- The value of some bytes that stand in memory. -/
theorem valueAt_of {m : Nat → Byte} {pa : Nat} {bs : List Byte} (h : ∀ j < bs.length, m (pa + j) = bs.getD j 0) :
    valueAt m pa bs.length = BitVec.ofNat 64 (leNat bs) := by
  unfold valueAt
  congr 2
  refine List.ext_getElem (by simp) fun j h1 h2 => ?_
  rw [List.getElem_map, List.getElem_range, h j h2, List.getD_eq_getElem _ _ h2]

/-- An interrupt that is dropped is counted in its entry, up to the most that the count holds (R245, R344). -/
theorem State.dropInterrupt_counts {s : State} {vi entry : Nat} {e : List Byte} {tr : Trans}
    (hr : s.ranged schedulingCore vi .read false (entry + 4) 4 = .ok [(entry + 4, 4, tr)]) (ht : tr.home = true) :
    valueAt (s.dropInterrupt vi entry e).mem.byte tr.pa 4 = BitVec.ofNat 64 (min (2 ^ 32 - 1) (field e 4 4 + 1)) ∧
      (∀ pa, pa < tr.pa ∨ tr.pa + 4 ≤ pa → (s.dropInterrupt vi entry e).mem.byte pa = s.mem.byte pa) := by
  have hlen : ∀ v, (leBytes 4 v).length = 4 := leBytes_length 4
  have hdrop : s.dropInterrupt vi entry e = s.deviceWrite tr.pa (leBytes 4 (satAt (2 ^ 32 - 1) (field e 4 4 + 1))) :=
    congrArg Prod.fst (State.deviceForce_home (by rw [hlen]; exact hr) ht (pieceOff_self _))
  rw [hdrop]
  refine ⟨?_, fun pa hpa => ?_⟩
  · have hval := valueAt_of (m := (s.deviceWrite tr.pa (leBytes 4 (satAt (2 ^ 32 - 1) (field e 4 4 + 1)))).mem.byte) (pa := tr.pa)
      (bs := leBytes 4 (satAt (2 ^ 32 - 1) (field e 4 4 + 1))) (fun j hj => by
        rw [State.byte_deviceWrite, if_pos (by omega), Nat.add_sub_cancel_left])
    rw [hlen] at hval
    rw [hval, leNat_leBytes, satAt_eq_min, Nat.mod_eq_of_lt (by omega)]
  · rw [State.byte_deviceWrite, hlen, if_neg (by omega)]

theorem Interrupt.bytes_length (i : Interrupt) : i.bytes.length = 16 := by
  simp only [Interrupt.bytes, List.length_append, leBytes_length]

theorem uintDelivery_clause (s : State) (i : Interrupt) (r : List Interrupt) (hi : s.host.interrupts = i :: r) :
    ∃ u, exec .uintDelivery s = .next u ∧ u.host.interrupts = r ∧
    let entry := (i.base.toNat + 32 * (i.target % 256)) % 2 ^ 64
    (∀ e, s.deviceRead i.vi entry 32 = some e →
      let kind := field e 0 1 % 4
      let slot := field e 8 8 + 16 * (field e 0x1C 4 % field e 0x10 4)
      let full := (field e 0x1C 4 + 2 ^ 32 - field e 0x18 4) % 2 ^ 32 = field e 0x10 4
      let takes := Config.hostTakes i.vi (field e 1 1 % 64) (field e 8 8)
      let moves := fun (v w : State) => v.deviceForce i.vi (entry + 0x1C) (leBytes 4 ((field e 0x1C 4 + 1) % 2 ^ 32)) = (w, true)
      let s1 := ({ s with host := { s.host with interrupts := r } } : State)
      (kind = 1 → ¬full → takes = true → ∀ w, moves { s1 with host := { s1.host with hostMem := s.host.hostMem.write (hostKey i.vi slot) i.bytes } } w →
        u.mem = w.mem ∧ u.host.answers = s.host.answers ++ [.msix i.vi (field e 1 1 % 64)] ∧
        (∀ j < 16, u.host.hostMem.get (hostKey i.vi slot + j) = i.bytes.getD j 0)) ∧
      (kind = 2 → ¬full → ∀ v w, s1.devicePut i.vi slot i.bytes = (v, true) → moves v.flushBridge w → u = w) ∧
      (kind = 0 ∨ kind = 3 ∨ full ∨ (kind = 1 ∧ takes = false) → u.host.answers = s.host.answers ∧ u.host.hostMem = s.host.hostMem ∧
        ∀ va tr, s.ranged schedulingCore i.vi .read false (entry + 4) 4 = .ok [(va, 4, tr)] → tr.home = true → va = entry + 4 →
          valueAt u.mem.byte tr.pa 4 = BitVec.ofNat 64 (min (2 ^ 32 - 1) (field e 4 4 + 1)) ∧
          (∀ pa, pa < tr.pa ∨ tr.pa + 4 ≤ pa → u.mem.byte pa = s.mem.byte pa))) := by
  have hexec : exec .uintDelivery s = .next (State.deliver { s with host := { s.host with interrupts := r } } i) := by
    refine congrArg Host.Outcome.next ?_
    unfold State.uintDelivery
    rw [hi]
  have hsame : State.translatesAs { s with host := { s.host with interrupts := r } } s := s.hostSide_translatesAs _
  refine ⟨_, hexec, State.deliver_interrupts _ i, ?_⟩
  intro entry e he kind slot full takes moves s1
  have he1 : s1.deviceRead i.vi i.entry 32 = some e := by
    rw [deviceRead_translatesAs hsame (fun _ _ => rfl)]
    exact he
  have hgo := State.deliver_some he1
  have hfull : entryFull e ↔ full := Iff.rfl
  refine ⟨fun hk hf ht w hw => ?_, fun hk hf v w hv hw => ?_, fun hk => ?_⟩
  · have hw' : State.moveTail { s1 with host := { s1.host with hostMem := s1.host.hostMem.write (hostKey i.vi (entrySlot e)) i.bytes } } i e = (w, true) := hw
    have hhost := State.moveTail_host { s1 with host := { s1.host with hostMem := s1.host.hostMem.write (hostKey i.vi (entrySlot e)) i.bytes } } i e
    rw [hw'] at hhost hgo
    rw [if_neg (by rw [hfull, show entryKind e = 1 from hk]; simp [hf]), if_pos (show entryKind e = 1 from hk), if_neg (by simpa using ht)] at hgo
    dsimp only at hhost hgo
    rw [hgo]
    refine ⟨rfl, ?_, fun j hj => ?_⟩
    · show w.host.answers ++ _ = _
      rw [hhost]
    · show w.host.hostMem.get _ = _
      rw [hhost]
      have hj' : j < i.bytes.length := by rw [i.bytes_length]; exact hj
      refine (Store.get_write_in s.host.hostMem (hostKey i.vi slot) i.bytes hj').trans ?_
      rw [List.getD_eq_getElem _ _ hj']
  · have hv' : s1.devicePut i.vi (entrySlot e) i.bytes = (v, true) := hv
    have hw' : v.flushBridge.moveTail i e = (w, true) := hw
    rw [if_neg (by rw [hfull, show entryKind e = 2 from hk]; simp [hf]), if_neg (by rw [show entryKind e = 2 from hk]; decide), hv'] at hgo
    dsimp only at hgo
    rw [hw'] at hgo
    exact hgo
  · have hdrop : s1.deliver i = s1.dropInterrupt i.vi i.entry e := by
      rw [hgo]
      by_cases hf : entryKind e = 0 ∨ entryKind e = 3 ∨ entryFull e
      · rw [if_pos hf]
      · obtain ⟨h1, h2⟩ : kind = 1 ∧ takes = false := by
          rcases hk with h | h | h | h
          · exact absurd (.inl h) hf
          · exact absurd (.inr (.inl h)) hf
          · exact absurd (.inr (.inr (hfull.mpr h))) hf
          · exact h
        rw [if_neg hf, if_pos (show entryKind e = 1 from h1), if_pos (by simpa using h2)]
    rw [hdrop]
    have hhost := s1.dropInterrupt_host i.vi i.entry e
    refine ⟨by rw [hhost], by rw [hhost], fun va tr hr ht hva => ?_⟩
    subst hva
    refine State.dropInterrupt_counts (s := s1) ?_ ht
    rw [ranged_translatesAs hsame (fun _ _ => rfl)]
    exact hr

/-- Settles O50, register by register and access by access: what the window keeps are words of one store, so that one word changes and no
other; an interrupt is a piece written for the device, and the release of the bridge's words leaves every read as it was. -/
theorem hostAccesses : Obligations.HostAccesses := by
  unfold Obligations.HostAccesses
  refine ⟨fun s hb => congrArg Host.Outcome.next (if_neg (by simp [hb])), pcapWrite_clause, ringWrite_clause, beforeBoot_clause, errorCountClear_clause,
    thermalThrottle_clause, telemetryIdle_clause, dieStatus_clause, telemetryRecord_clause, windowRead_clause, registerWrite_clause, maskWrite_clause,
    configRecord_clause, configRestarting_clause, configRejected_clause, pageEnable_clause, pageDisable_clause, flr_clause, fun s h => ?_, uintDelivery_clause,
    bar2Read_clause, bar2Write_clause, bar2Write_failed⟩
  refine congrArg Host.Outcome.next ?_
  unfold State.uintDelivery
  rw [h]

end Sys2Proof.Machine
end

section
/-! Engine commands that start, serve and complete (R205 to R208, R212, R257). -/
namespace Sys2Proof.Machine

/-! ### Commands by their keys -/

theorem State.cmd?_key {s : State} {key : Nat} {c : Cmd} (h : s.cmds.find? (fun d => d.key == key) = some c) : c.key = key :=
  beq_iff_eq.mp (List.find?_some (p := fun d : Cmd => d.key == key) h)

theorem State.nowCmd_of_find {s : State} {key : Nat} {c : Cmd} (h : s.cmds.find? (fun d => d.key == key) = some c) : s.nowCmd c = c := by
  rw [State.nowCmd, State.cmd?_key h, h]
  rfl

/-- A command after a change of it that keeps its name. -/
theorem State.find_modCmd {s : State} {key : Nat} {c : Cmd} {f : Cmd → Cmd} (h : s.cmds.find? (fun d => d.key == key) = some c) (hf : ∀ d : Cmd, (f d).key = d.key) :
    (s.modCmd key f).cmds.find? (fun d => d.key == key) = some (f c) := by
  refine find?_mapIf (f := f) (fun d => ?_) h
  show ((f d).key == key) = _
  rw [hf]

theorem State.engineStep_some {s : State} {key part : Nat} {c : Cmd} {t : Task} (hc : s.cmds.find? (fun d => d.key == key) = some c) (ht : s.task? c.task = some t) :
    s.engineStep key part = (c.step s t ((t.launch.map Launch.race).getD false) part).getD s := by
  rw [State.engineStep, State.cmd?, hc]
  dsimp only
  rw [ht]

theorem State.signalCmd_some {s : State} {key : Nat} {c : Cmd} {t : Task} (hc : s.cmds.find? (fun d => d.key == key) = some c) (ht : s.task? c.task = some t)
    (fault : Bool) : s.signalCmd key fault = if c.ended && (c.sub != 0) == fault && !c.wordWaits s t.vi then s.finishCmd c t else s := by
  rw [State.signalCmd, State.cmd?, hc]
  dsimp only
  rw [ht]

/-- A step of a command of the CPY family none of whose deliveries is refused anew: a piece is read, or a part written. -/
theorem Cmd.step_serves {c : Cmd} {s : State} {key : Nat} (hc : s.cmds.find? (fun d => d.key == key) = some c) (hended : c.ended = false) (hop : c.op ≠ .stflush)
    (href : c.refusedNow s = c.refused) (t : Task) (race : Bool) :
    (∀ j, 16 ≤ j → c.step s t race j = c.fetchPiece s t race) ∧
      ∀ j p, j < 16 → c.parts.find? (fun p => p.1 == j) = some p → c.step s t race j = c.writePart s t j p.2.1 p.2.2 := by
  have hserve : ∀ j, c.step s t race j = match c.parts.find? (fun p => p.1 == j), decide (j < 16) with
      | some p, true => c.writePart s t j p.2.1 p.2.2
      | none, true => none
      | _, false => c.fetchPiece s t race := fun j => by
    unfold Cmd.step
    rw [hended, if_neg (by decide), if_neg hop]
    dsimp only
    rw [href, if_pos rfl, State.nowCmd_of_find hc] <;> rfl
  refine ⟨fun j hj => ?_, fun j p hj hp => ?_⟩
  · rw [hserve, decide_eq_false (by omega)]
    cases c.parts.find? (fun p => p.1 == j) <;> rfl
  · rw [hserve, decide_eq_true hj, hp]

/-! ### The clauses of O41 -/

theorem engineEnqueue_clause (s : State) (gid : Nat) (g : Group) (t : Task) (c : Cmd) (ud : Nat) (hg : s.group? gid = some g) (ht : s.task? g.task = some t)
    (hh : g.hold = .engine c ud) :
    (s.engineRoom c g = true → exec (.engineCommandEnqueue gid) s = .next ((s.startCmd c ud t g).modGroup gid Group.advance)) ∧
    (s.engineRoom c g = false → exec (.engineCommandEnqueue gid) s = .next s) := by
  have hexec : exec (.engineCommandEnqueue gid) s = .next (if s.engineRoom c g then (s.startCmd c ud t g).modGroup gid Group.advance else s) := by
    refine congrArg Host.Outcome.next ?_
    unfold State.engineEnqueue
    rw [hg]
    dsimp only
    rw [hh, ht]
  exact ⟨fun h => by rw [hexec, if_pos h], fun h => by rw [hexec, h]; rfl⟩

/-- A command that has served everything ends with its outcome (R208, R211, R212). -/
theorem State.endCmd_eq {s : State} {key : Nat} {c : Cmd} (hc : s.cmds.find? (fun d => d.key == key) = some c)
    (hlines : s.mem.lines.any (fun l => l.writers.contains key) = false) :
    s.endCmd c = { s with
      cmds := s.cmds.map (fun d => if d.key = key then { d with sub := if c.routeFault = true then 7 else if c.refused = 0#16 then 0 else 6, ended := true } else d) } := by
  have hkey := State.cmd?_key hc
  have hsub : (if c.routeFault then 7 else if c.refused ≠ 0 then 6 else 0) = (if c.routeFault = true then 7 else if c.refused = 0#16 then 0 else 6) := by
    by_cases h : c.refused = 0#16 <;> simp [h]
  unfold State.endCmd
  dsimp only
  rw [State.nowCmd_of_find hc, hkey, if_neg (by rw [show (State.modCmd s key _).mem = s.mem from rfl, hlines]; decide), hsub]
  refine congrArg (fun l => { s with cmds := l }) (List.map_congr_left fun d _ => ?_)
  by_cases h : d.key = key <;> simp [h]

theorem engineEnds_clause (s : State) (key : Nat) (c : Cmd) (t : Task) (hc : s.cmds.find? (fun d => d.key == key) = some c) (ht : s.task? c.task = some t)
    (hended : c.ended = false) (hflush : c.op = .stflush → c.total ≤ c.done) (hcopy : c.op ≠ .stflush → c.total ≤ c.fetched ∧ c.parts = [] ∧ c.refusedNow s = c.refused)
    (hlines : s.mem.lines.any (fun l => l.writers.contains key) = false) :
    exec (.engineLineWritten ⟨key, 16⟩) s = .next { s with
      cmds := s.cmds.map (fun d => if d.key = key then { d with sub := if c.routeFault = true then 7 else if c.refused = 0#16 then 0 else 6, ended := true } else d) } := by
  have hstep : c.step s t ((t.launch.map Launch.race).getD false) 16 = some (s.endCmd c) := by
    by_cases hop : c.op = .stflush
    · unfold Cmd.step
      rw [hended, if_neg (by decide), if_pos hop, if_pos (hflush hop)]
    · obtain ⟨htotal, hparts, href⟩ := hcopy hop
      have hpiece : c.piece s = none := by
        unfold Cmd.piece
        exact if_pos htotal
      rw [(Cmd.step_serves hc hended hop href t _).1 16 (by decide)]
      unfold Cmd.fetchPiece
      rw [hpiece, hparts]
      rfl
  refine congrArg Host.Outcome.next ?_
  rw [State.engineStep_some hc ht, hstep]
  exact State.endCmd_eq hc hlines

/-- What a completion does to the group's counter (R207). -/
def Cmd.counted (c : Cmd) (g : Group) : Group :=
  if c.cmp < 6 then { g with e := g.e.set c.cmp (if g.e.get c.cmp = 0 then 0 else g.e.get c.cmp - 1) } else g

theorem Cmd.counted_gid (c : Cmd) (g : Group) : (c.counted g).gid = g.gid := by
  unfold Cmd.counted
  split <;> rfl

theorem Cmd.counted_boundary (c : Cmd) (g : Group) : (c.counted g).boundary = g.boundary ∧ (c.counted g).residency = g.residency := by
  unfold Cmd.counted
  split <;> exact ⟨rfl, rfl⟩

/-- A command with no release and no words of its own releases nothing. -/
theorem State.releaseCmd_none {s : State} {c : Cmd} (hrel : c.rel = none) (hwords : c.words = []) (paired : Bool) : s.releaseCmd c paired = s := by
  have hnone : s.mem.regs.filter (fun r => ([] : List Nat).contains r.pa && r.owner == c.agent) = [] := List.filter_eq_nil_iff.mpr fun r _ => by simp
  unfold State.releaseCmd
  rw [hrel, hwords, if_neg (by rintro (h | h) <;> cases h)]
  dsimp only
  rw [hnone]
  rfl

/-- A completion without a word (R207, R208). -/
theorem State.finishCmd_plain {s : State} {c : Cmd} {t : Task} (hcmp : c.cmp ≠ 6) (hrel : c.rel = none) (hwords : c.words = []) :
    s.finishCmd c t = if c.sub = 0 then { s.modGroup c.gid c.counted with cmds := s.cmds.filter (fun d => d.key != c.key) }
      else State.pendTrap { s.modGroup c.gid c.counted with cmds := s.cmds.filter (fun d => d.key != c.key) } (fun _ => true) c.gid c.task
        ⟨7, c.sub, c.opcode, 0, 0, BitVec.ofNat 64 c.word⟩ 4 := by
  have hno : (c.cmp == 6 && c.cwOk) = false := by rw [beq_eq_false_iff_ne.mpr hcmp]; rfl
  unfold State.finishCmd
  rw [State.releaseCmd_none hrel hwords, hno]
  rfl

theorem Cmd.wordWaits_none {c : Cmd} (hcmp : c.cmp ≠ 6) (s : State) (vi : Nat) : c.wordWaits s vi = false := by
  rw [Cmd.wordWaits, beq_eq_false_iff_ne.mpr hcmp]
  rfl

theorem engineCompletion_clause (s : State) (key : Nat) (c : Cmd) (t : Task) (hc : s.cmds.find? (fun d => d.key == key) = some c) (ht : s.task? c.task = some t)
    (hended : c.ended = true) (hcmp : c.cmp ≠ 6) (hrel : c.rel = none) (hwords : c.words = []) :
    let counted := fun (g : Group) => if c.cmp < 6 then { g with e := g.e.set c.cmp (if g.e.get c.cmp = 0 then 0 else g.e.get c.cmp - 1) } else g
    (c.sub = 0 → exec (.engineCommandCompletion key) s = .next { s.modGroup c.gid counted with cmds := s.cmds.filter (fun d => d.key != key) } ∧
      exec (.engineFault key) s = .next s) ∧
    (c.sub ≠ 0 → exec (.engineCommandCompletion key) s = .next s ∧
      ∀ g, s.group? c.gid = some g → g.residency ≠ .ended → exec (.engineFault key) s = .next ({ s with
        cmds := s.cmds.filter (fun d => d.key != key) }.modGroup c.gid (fun g => { counted g with
          boundary := g.boundary ++ [(⟨7, c.sub, c.opcode, 0, 0, BitVec.ofNat 64 c.word⟩ : Boundary)] }))) := by
  intro counted
  have hkey := State.cmd?_key hc
  have hsignal : ∀ fault, s.signalCmd key fault = if (c.sub != 0) == fault then s.finishCmd c t else s := fun fault => by
    rw [State.signalCmd_some hc ht, hended, Cmd.wordWaits_none hcmp, Bool.true_and, Bool.not_false, Bool.and_true]
  have hdone : exec (.engineCommandCompletion key) s = .next (s.signalCmd key false) := rfl
  have hfault : exec (.engineFault key) s = .next (s.signalCmd key true) := rfl
  have hfinish := State.finishCmd_plain (s := s) (t := t) hcmp hrel hwords
  rw [hkey] at hfinish
  refine ⟨fun hsub => ⟨?_, ?_⟩, fun hsub => ⟨?_, fun g hg hres => ?_⟩⟩
  · rw [hdone, hsignal, if_pos (by simp [hsub]), hfinish, if_pos hsub]
    rfl
  · rw [hfault, hsignal, if_neg (by simp [hsub])]
  · rw [hdone, hsignal, if_neg (by simp [hsub])]
  · have hgid : g.gid = c.gid := State.group?_gid hg
    have hcounted : (s.modGroup c.gid c.counted).group? c.gid = some (c.counted g) :=
      find_modWhere_same c.counted (fun k hk => (c.counted_gid k).trans hk) hg
    have htrap : State.trapGroup { s.modGroup c.gid c.counted with cmds := s.cmds.filter (fun d => d.key != key) } (fun _ => true) c.gid c.task = some (c.counted g) := by
      unfold State.trapGroup
      rw [show State.group? { s.modGroup c.gid c.counted with cmds := s.cmds.filter (fun d => d.key != key) } c.gid = some (c.counted g) from hcounted]
      exact if_pos (by rw [(c.counted_boundary g).2]; exact hres)
    rw [hfault, hsignal, if_pos (by simp [hsub]), hfinish, if_neg hsub, State.pendTrap, htrap]
    refine congrArg (fun l => Host.Outcome.next { s with cmds := s.cmds.filter (fun d => d.key != key), groups := l }) ?_
    show modWhere (modWhere s.groups (fun h => h.gid == c.gid) c.counted) (fun h => h.gid == (c.counted g).gid) _ = _
    rw [c.counted_gid, hgid, modWhere_modWhere s.groups _ _ _ (fun h hh => by rw [c.counted_gid]; exact hh)]
    refine List.map_congr_left fun h _ => ?_
    dsimp only
    rw [(c.counted_boundary h).1]
    rfl

/-! ### The completion word (R206, R257) -/

/-- Words written part by part, by any rule that changes the masked bytes of one word. -/
theorem State.byte_parts {f : State → Nat × BitVec 4 × Word → State}
    (hf : ∀ t p, p.1 % 4 = 0 → ∀ a, (f t p).mem.byte a = if wordOf a = p.1 ∧ p.2.1.getLsbD (a % 4) = true then byteOf p.2.2 (a % 4) else t.mem.byte a)
    (pa : Nat) (bs : List Byte) (s : State) (a : Nat) :
    ((wordParts pa bs).foldl f s).mem.byte a = if pa ≤ a ∧ a < pa + bs.length then bs.getD (a - pa) 0 else s.mem.byte a := by
  have hj : a % 4 < 4 := Nat.mod_lt _ (by decide)
  have hadd := wordOf_add_mod a
  have hal := wordOf_aligned a
  have hpal := wordOf_aligned pa
  have hparts : ∀ k, (((List.range k).map (partAt pa bs)).foldl f s).mem.byte a =
      if pa ≤ a ∧ a < pa + bs.length ∧ a < wordOf pa + 4 * k then bs.getD (a - pa) 0 else s.mem.byte a := fun k => by
    induction k with
    | zero =>
      have : ¬(pa ≤ a ∧ a < pa + bs.length ∧ a < wordOf pa + 4 * 0) := by unfold wordOf; omega
      rw [if_neg this]; rfl
    | succ k ih =>
      have hpart : (partAt pa bs k).1 = wordOf pa + 4 * k := rfl
      rw [List.range_succ, List.map_append, List.foldl_append]
      simp only [List.map_cons, List.map_nil, List.foldl_cons, List.foldl_nil]
      rw [hf _ _ (by rw [hpart]; omega), ih, hpart]
      by_cases he : wordOf a = wordOf pa + 4 * k
      · have ha : wordOf pa + 4 * k + a % 4 = a := by omega
        have hmask := partAt_mask pa bs k hj
        rw [ha] at hmask
        by_cases hm : (partAt pa bs k).2.1.getLsbD (a % 4) = true
        · rw [if_pos ⟨he, hm⟩, partAt_byte pa bs k hj hm, ha]
          rw [hmask, Bool.and_eq_true, decide_eq_true_eq, decide_eq_true_eq] at hm
          rw [if_pos ⟨hm.1, hm.2, by omega⟩]
        · rw [if_neg (fun h => hm h.2)]
          rw [hmask, Bool.and_eq_true, decide_eq_true_eq, decide_eq_true_eq] at hm
          rw [if_neg (by omega), if_neg (by omega)]
      · rw [if_neg (fun h => he h.1)]
        have : a < wordOf pa + 4 * k ↔ a < wordOf pa + 4 * (k + 1) := by omega
        simp only [this]
  rw [wordParts_eq, hparts]
  have : a < pa + bs.length → a < wordOf pa + 4 * ((pa + bs.length + 3) / 4 - pa / 4) := by unfold wordOf; omega
  by_cases h : pa ≤ a ∧ a < pa + bs.length
  · rw [if_pos ⟨h.1, h.2, this h.2⟩, if_pos h]
  · rw [if_neg (fun h' => h ⟨h'.1, h'.2.1⟩), if_neg h]

/-- Some bytes of a word are written as by a RED.set: no other byte of it changes, and no owner. -/
theorem State.redPut_spec (s : State) {pw : Nat} (hp : pw % 4 = 0) (mask : BitVec 4) (val : Word) :
    (∀ a, (s.redPut pw mask val).mem.byte a = if wordOf a = pw ∧ mask.getLsbD (a % 4) = true then byteOf val (a % 4) else s.mem.byte a) ∧
      (∀ k, ((s.redPut pw mask val).mem.reg? k).map (fun r => r.owner) = (s.mem.reg? k).map (fun r => r.owner)) ∧ (s.redPut pw mask val).storesOf s := by
  refine ⟨fun a => ?_, fun k => ?_, rfl⟩
  · have hj : a % 4 < 4 := Nat.mod_lt _ (by decide)
    unfold State.redPut
    rw [State.watch_mem, Mem.byte_redWord _ _ hp]
    by_cases he : wordOf a = pw
    · rw [if_pos he, byteOf_putBytes _ _ _ hj, ← he, Mem.byteOf_word]
      simp
    · rw [if_neg he, if_neg (fun h => he h.1)]
  · unfold State.redPut
    rw [State.watch_mem, Mem.reg?_redWord]
    by_cases hk : k = pw
    · rw [if_pos hk, hk]
      cases s.mem.reg? pw <;> rfl
    · rw [if_neg hk]

/-- A completion word at a home of this package is written like a RED.set. -/
theorem State.putWord_home {s : State} {c : Cmd} {vi va : Nat} {tr : Trans} (hrel : c.rel = none)
    (hr : s.reach c.core vi .write true (((c.seg 2).1.toNat + c.cwOff) % 2 ^ 64) 8 = .ok [(va, 8, tr)]) (ht : tr.home = true)
    (h0 : pieceOff (((c.seg 2).1.toNat + c.cwOff) % 2 ^ 64) va = 0) :
    s.putWord c vi = ((wordParts tr.pa (leBytes 8 c.word)).foldl (fun v w => v.redPut w.1 w.2.1 w.2.2) s, 0) := by
  obtain ⟨hremote, hrepl, hlost⟩ := (Trans.home_iff tr).mp ht
  have haway : s.awayFault vi [(va, 8, tr)] = none := by
    unfold State.awayFault
    simp [hremote, hlost]
  have hpart : ((leBytes 8 c.word).drop 0).take 8 = leBytes 8 c.word := by
    rw [List.drop_zero, List.take_of_length_le (by rw [leBytes_length])]
  unfold State.putWord
  rw [hrel]
  dsimp only [Option.isNone_none]
  rw [hr]
  dsimp only
  rw [haway]
  simp only [List.foldl_cons, List.foldl_nil, hremote, hrepl, h0, hpart]
  rfl

/-- A completion with a word (R206 to R208). -/
theorem State.finishCmd_word {s : State} {c : Cmd} {t : Task} {va : Nat} {tr : Trans} (hcmp : c.cmp = 6) (hok : c.cwOk = true) (hrel : c.rel = none) (hwords : c.words = [])
    (hr : s.reach c.core t.vi .write true (((c.seg 2).1.toNat + c.cwOff) % 2 ^ 64) 8 = .ok [(va, 8, tr)]) (ht : tr.home = true)
    (h0 : pieceOff (((c.seg 2).1.toNat + c.cwOff) % 2 ^ 64) va = 0) :
    s.finishCmd c t = { (wordParts tr.pa (leBytes 8 c.word)).foldl (fun v w => v.redPut w.1 w.2.1 w.2.2) s with
      cmds := ((wordParts tr.pa (leBytes 8 c.word)).foldl (fun v w => v.redPut w.1 w.2.1 w.2.2) s).cmds.filter (fun d => d.key != c.key) } := by
  have hyes : (c.cmp == 6 && c.cwOk) = true := by rw [hcmp, hok]; rfl
  have hsame : s.modGroup c.gid c.counted = s := by
    rw [show c.counted = fun g => g from funext fun g => if_neg (by rw [hcmp]; decide), State.modGroup_id]
  unfold Cmd.counted at hsame
  unfold State.finishCmd
  dsimp only
  rw [State.releaseCmd_none hrel hwords, hsame, hyes, if_pos rfl, if_pos rfl, State.putWord_home hrel hr ht h0]
  rfl

theorem engineWord_clause (s : State) (key : Nat) (c : Cmd) (t : Task) (va : Nat) (tr : Trans) (hc : s.cmds.find? (fun d => d.key == key) = some c)
    (htask : s.task? c.task = some t) (hended : c.ended = true) (hcmp : c.cmp = 6) (hok : c.cwOk = true) (hrel : c.rel = none) (hwords : c.words = [])
    (hr : s.reach c.core t.vi .write true (((c.seg 2).1.toNat + c.cwOff) % 2 ^ 64) 8 = .ok [(va, 8, tr)]) (hwait : c.wordWaits s t.vi = false)
    (ht : tr.home = true) (h0 : pieceOff (((c.seg 2).1.toNat + c.cwOff) % 2 ^ 64) va = 0) :
    ∃ u, exec (if c.sub = 0 then .engineCommandCompletion key else .engineFault key) s = .next u ∧
      (∀ j < 8, u.mem.byte (tr.pa + j) = BitVec.ofNat 8 (c.word / 256 ^ j)) ∧
      (∀ pa, pa < tr.pa ∨ tr.pa + 8 ≤ pa → u.mem.byte pa = s.mem.byte pa) ∧ u.cmds = s.cmds.filter (fun d => d.key != key) ∧
      ∀ pw, (u.mem.reg? pw).map (fun r => r.owner) = (s.mem.reg? pw).map (fun r => r.owner) := by
  have hkey := State.cmd?_key hc
  have hsignal : exec (if c.sub = 0 then .engineCommandCompletion key else .engineFault key) s = .next (s.finishCmd c t) := by
    have hboth : ∀ fault, (c.sub != 0) = fault → s.signalCmd key fault = s.finishCmd c t := fun fault hf => by
      rw [State.signalCmd_some hc htask, hended, hwait, if_pos (by simp [hf])]
    by_cases hsub : c.sub = 0
    · rw [if_pos hsub]
      exact congrArg Host.Outcome.next (hboth false (by simp [hsub]))
    · rw [if_neg hsub]
      exact congrArg Host.Outcome.next (hboth true (by simp [hsub]))
  rw [State.finishCmd_word hcmp hok hrel hwords hr ht h0, hkey] at hsignal
  have hbyte := State.byte_parts (f := fun v w => v.redPut w.1 w.2.1 w.2.2) (fun v p hp => (v.redPut_spec hp p.2.1 p.2.2).1) tr.pa (leBytes 8 c.word) s
  have hlen : (leBytes 8 c.word).length = 8 := leBytes_length 8 _
  have hall : ∀ l : List (Nat × BitVec 4 × Word), (∀ p ∈ l.map (fun p => p.1), p % 4 = 0) → ∀ v : State, v.storesOf s →
      (∀ pw, (v.mem.reg? pw).map (fun r => r.owner) = (s.mem.reg? pw).map (fun r => r.owner)) →
      (l.foldl (fun v w => v.redPut w.1 w.2.1 w.2.2) v).storesOf s ∧
        ∀ pw, ((l.foldl (fun v w => v.redPut w.1 w.2.1 w.2.2) v).mem.reg? pw).map (fun r => r.owner) = (s.mem.reg? pw).map (fun r => r.owner) := fun l => by
    induction l with
    | nil => exact fun _ v h1 h2 => ⟨h1, h2⟩
    | cons p r ih =>
      intro hl v h1 h2
      obtain ⟨-, howner, hstores⟩ := v.redPut_spec (pw := p.1) (hl _ (by simp)) p.2.1 p.2.2
      exact ih (fun q hq => hl q (List.mem_cons_of_mem _ hq)) _ (State.storesOf_trans hstores h1) (fun pw => (howner pw).trans (h2 pw))
  obtain ⟨hstores, howners⟩ := hall _ wordParts_aligned s s.storesOf_refl (fun _ => rfl)
  refine ⟨_, hsignal, fun j hj => ?_, fun pa hpa => ?_, ?_, howners⟩
  · refine (hbyte (tr.pa + j)).trans ?_
    rw [hlen, if_pos (by omega), Nat.add_sub_cancel_left, leBytes_getD hj]
  · refine (hbyte pa).trans ?_
    rw [hlen, if_neg (by omega)]
  · exact congrArg (List.filter _) (congrArg State.cmds hstores :)

/-! ### Pieces of a CPY (R207, R210) -/

/-- A piece of memory of this package, read. -/
theorem Cmd.readPlace_home {c : Cmd} {s : State} {t : Task} {a : Place} {ao n va : Nat} {ra : Trans} (hcore : a.core = none) (hlim : ao + n ≤ a.lim)
    (hr : s.reach c.core t.vi .read false ((a.base + ao) % 2 ^ 64) n = .ok [(va, n, ra)]) (ht : ra.home = true) (hclean : s.mem.poisonIn ra.pa n = none) :
    c.readPlace s t false (a, ao) n = .ok (s.mem.read ra.pa n) := by
  obtain ⟨hremote, hrepl, -⟩ := (Trans.home_iff ra).mp ht
  have hsrc : ra.from' c.agent t.vi va = ra.pa := by
    rw [Trans.from', hremote, hrepl]
    rfl
  unfold Cmd.readPlace
  rw [if_neg (by dsimp only; omega), hcore]
  dsimp only
  rw [hr]
  simp only [Cmd.races, Bool.false_and, Bool.and_false, List.any_cons, List.any_nil, Bool.or_false, List.flatMap_cons, List.flatMap_nil, hsrc, hclean, hrepl]
  simp

theorem foldl_refused_nil (c : Cmd) (s : State) (h : c.deliveries = []) : c.refusedNow s = c.refused := by
  unfold Cmd.refusedNow
  rw [h]
  rfl

/-- A piece from memory to memory is read (R207): the command alone changes. -/
theorem Cmd.fetchPiece_home {c : Cmd} {s : State} {t : Task} {p : Piece} {a b : Place} {ao va : Nat} {ra : Trans} (hop : c.op = .cpy) (hp : c.piece s = some p)
    (hsrcs : p.srcs = [(a, ao)]) (hdsts : p.dsts = [0]) (hcore : a.core = none) (hlim : ao + p.len ≤ a.lim) (hkeep : (controlOf c.control.toNat).consume = false)
    (hb : c.target s 0 = some b) (hbcore : b.core = none)
    (hr : s.reach c.core t.vi .read false ((a.base + ao) % 2 ^ 64) p.len = .ok [(va, p.len, ra)]) (ht : ra.home = true) (hclean : s.mem.poisonIn ra.pa p.len = none) :
    c.fetchPiece s t false = some (((s.modCmd c.key (fun d => { d with fetched := d.fetched + p.len })).setParts c.key id).setParts c.key
      (fun l => l ++ [(0, p.at', s.mem.read ra.pa p.len)])) := by
  have hall : c.readAll s t false p.len p.srcs = .ok [s.mem.read ra.pa p.len] := by
    rw [hsrcs, Cmd.readAll, Cmd.readPlace_home hcore hlim hr ht hclean]
    rfl
  have hparts : [0].flatMap (c.partsAt s p.at' (s.mem.read ra.pa p.len)) = [(0, p.at', s.mem.read ra.pa p.len)] := by
    rw [List.flatMap_cons, List.flatMap_nil, List.append_nil, Cmd.partsAt, hb]
    dsimp only
    rw [hbcore]
    rfl
  unfold Cmd.fetchPiece
  rw [hp]
  dsimp only
  rw [hall, hsrcs, hdsts]
  dsimp only
  have hcoll : ¬ c.op = .coll := by rw [hop]; decide
  simp only [hkeep, List.isEmpty_cons, Bool.false_eq_true, if_false, if_neg hcoll, List.headD_cons, hparts, List.any_nil, List.foldl_nil]

theorem copyRead_clause (s : State) (key : Nat) (c : Cmd) (t : Task) (hc : s.cmds.find? (fun d => d.key == key) = some c) (htask : s.task? c.task = some t)
    (hended : c.ended = false) (hop : c.op = .cpy) (hdel : c.deliveries = []) (hrace : (t.launch.map Launch.race).getD false = false)
    (p : Piece) (a : Place) (ao va : Nat) (ra : Trans) (hp : c.piece s = some p) (hsrcs : p.srcs = [(a, ao)]) (hdsts : p.dsts = [0]) (hcore : a.core = none)
    (hlim : ao + p.len ≤ a.lim) (hkeep : (controlOf c.control.toNat).consume = false) (hb : ∀ b, c.target s 0 = some b → b.core = none)
    (hr : s.reach c.core t.vi .read false ((a.base + ao) % 2 ^ 64) p.len = .ok [(va, p.len, ra)]) (ht : ra.home = true) (hclean : s.mem.poisonIn ra.pa p.len = none) :
    ∃ u d, exec (.engineLineWritten ⟨key, 16⟩) s = .next u ∧ u = { s with cmds := u.cmds } ∧ u.cmds.find? (fun d => d.key == key) = some d ∧
        d.fetched = c.fetched + p.len ∧ d.parts = c.parts ++ [(0, p.at', (List.range p.len).map (fun j => s.mem.byte (ra.pa + j)))] ∧
        d.done = d.parts.foldl (fun n q => min n q.2.1) d.fetched := by
  have hkey := State.cmd?_key hc
  have hne : c.op ≠ .stflush := by rw [hop]; decide
  have htarget : c.target s 0 = some (c.place (controlOf c.control.toNat).dseg) := if_neg (by rw [hop]; decide)
  have hstep := ((Cmd.step_serves hc hended hne (foldl_refused_nil c s hdel) t false).1 16 (by decide)).trans
    (Cmd.fetchPiece_home hop hp hsrcs hdsts hcore hlim hkeep htarget (hb _ htarget) hr ht hclean)
  have hgo := State.engineStep_some hc htask (part := 16)
  rw [hrace, hstep, Option.getD_some] at hgo
  rw [hkey] at hgo
  have h1 := State.find_modCmd (f := fun d => { d with fetched := d.fetched + p.len }) hc (fun _ => rfl)
  have h2 := State.find_modCmd (f := fun d => let e := { d with parts := id d.parts }; { e with done := e.progress }) h1 (fun _ => rfl)
  have h3 := State.find_modCmd (f := fun d => let e := { d with parts := d.parts ++ [(0, p.at', s.mem.read ra.pa p.len)] }; { e with done := e.progress }) h2 (fun _ => rfl)
  exact ⟨_, _, congrArg Host.Outcome.next hgo, rfl, h3, rfl, rfl, rfl⟩

/-! A part that is written. -/

/-- The bytes of a part are stored in memory of this package, and their words are noted (R209). -/
theorem Cmd.writePlace_home {c : Cmd} {s : State} {t : Task} {b : Place} {off vb : Nat} {rb : Trans} {bs : List Byte} (hcore : b.core = none) (hlim : off + bs.length ≤ b.lim)
    (hr : s.reach c.core t.vi .write false ((b.base + off) % 2 ^ 64) bs.length = .ok [(vb, bs.length, rb)]) (ht : rb.home = true)
    (hlens : s.lensWaits c.task rb.pa bs.length = false) (h0 : pieceOff ((b.base + off) % 2 ^ 64) vb = 0) :
    c.writePlace s t (b, off) bs = .ok
      (((s.noteHome vb rb).storeAtom (some (agentWriter c.agent)) c.agent rb.pa bs).wroteWords c t.paired (wordsAt rb.pa bs.length)) := by
  obtain ⟨hremote, hrepl, hlost⟩ := (Trans.home_iff rb).mp ht
  have haway : s.awayFault t.vi [(vb, bs.length, rb)] = none := by
    unfold State.awayFault
    simp [hremote, hlost]
  unfold Cmd.writePlace
  dsimp only
  rw [if_neg (by omega), hcore]
  dsimp only
  rw [hr]
  dsimp only
  rw [haway]
  simp only [List.any_cons, List.any_nil, Bool.or_false, hremote, hrepl, hlens, Bool.false_eq_true, if_false, List.foldl_cons, List.foldl_nil, h0, List.drop_zero,
    List.take_length]

theorem State.wroteWords_keeps (s : State) (c : Cmd) (pair : Bool) (ws : List Nat) (a : Nat) : (s.wroteWords c pair ws).mem.byte a = s.mem.byte a := by
  refine Mem.byte_mapRegs s.mem (fun r => ?_) (fun r => ?_) a
  · split <;> rfl
  · split <;> rfl

/-- The oldest part for a destination in memory is written there (R187). -/
theorem Cmd.writePart_home {c : Cmd} {s : State} {t : Task} {b : Place} {p vb : Nat} {rb : Trans} {bs : List Byte} (hb : c.target s 0 = some b) (hcore : b.core = none)
    (hlim : c.ua + p + bs.length ≤ b.lim)
    (hr : s.reach c.core t.vi .write false ((b.base + (c.ua + p)) % 2 ^ 64) bs.length = .ok [(vb, bs.length, rb)]) (ht : rb.home = true)
    (hlens : s.lensWaits c.task rb.pa bs.length = false) (h0 : pieceOff ((b.base + (c.ua + p)) % 2 ^ 64) vb = 0) :
    c.writePart s t 0 p bs = some ((((s.noteHome vb rb).storeAtom (some (agentWriter c.agent)) c.agent rb.pa bs).wroteWords c t.paired
      (wordsAt rb.pa bs.length)).setParts c.key (fun l => l.erase (0, p, bs))) := by
  have hlines : stashLines [(b, c.ua + p)] bs.length = [] := by
    unfold stashLines
    rw [List.flatMap_cons, List.flatMap_nil, List.append_nil, hcore]
  unfold Cmd.writePart
  rw [hb]
  dsimp only
  rw [hlines, List.any_nil, if_neg (by decide), Cmd.writePlace_home hcore hlim hr ht hlens h0]
  rfl

theorem copyWrite_clause (s : State) (key : Nat) (c : Cmd) (t : Task) (hc : s.cmds.find? (fun d => d.key == key) = some c) (htask : s.task? c.task = some t)
    (hended : c.ended = false) (hop : c.op = .cpy) (hdel : c.deliveries = [])
    (p : Nat) (bs : List Byte) (b : Place) (vb : Nat) (rb : Trans) (hpart : c.parts.find? (fun q => q.1 == 0) = some (0, p, bs)) (hb : c.target s 0 = some b)
    (hcore : b.core = none) (hlim : c.ua + p + bs.length ≤ b.lim)
    (hr : s.reach c.core t.vi .write false ((b.base + (c.ua + p)) % 2 ^ 64) bs.length = .ok [(vb, bs.length, rb)]) (ht : rb.home = true)
    (hlens : s.lensWaits c.task rb.pa bs.length = false) (h0 : pieceOff ((b.base + (c.ua + p)) % 2 ^ 64) vb = 0) :
    ∃ u, exec (.engineLineWritten ⟨key, 0⟩) s = .next u ∧ (∀ j < bs.length, u.mem.byte (rb.pa + j) = bs.getD j 0) ∧
        (∀ pa, pa < rb.pa ∨ rb.pa + bs.length ≤ pa → u.mem.byte pa = s.mem.byte pa) ∧
        (∃ d, u.cmds.find? (fun d => d.key == key) = some d ∧ d.fetched = c.fetched ∧ d.parts = c.parts.erase (0, p, bs) ∧
          d.done = d.parts.foldl (fun n q => min n q.2.1) d.fetched) := by
  obtain rfl := State.cmd?_key hc
  have hne : c.op ≠ .stflush := by rw [hop]; decide
  have hstep := ((Cmd.step_serves hc hended hne (foldl_refused_nil c s hdel) t ((t.launch.map Launch.race).getD false)).2 0 _ (by decide) hpart).trans
    (Cmd.writePart_home hb hcore hlim hr ht hlens h0)
  have hgo := State.engineStep_some hc htask (part := 0)
  rw [hstep, Option.getD_some] at hgo
  have hnote : (s.noteHome vb rb).cmds = s.cmds ∧ ∀ a, (s.noteHome vb rb).mem.byte a = s.mem.byte a := by
    unfold State.noteHome
    split <;> exact ⟨rfl, fun _ => rfl⟩
  have hbyte : ∀ a, ((s.noteHome vb rb).storeAtom (some (agentWriter c.agent)) c.agent rb.pa bs).mem.byte a =
      if rb.pa ≤ a ∧ a < rb.pa + bs.length then bs.getD (a - rb.pa) 0 else s.mem.byte a := fun a => by
    rw [State.byte_storeAtom, hnote.2]
  have hcmds : ((s.noteHome vb rb).storeAtom (some (agentWriter c.agent)) c.agent rb.pa bs).cmds = s.cmds :=
    (congrArg State.cmds (State.storeAtom_storesOf _ _ _ _ _) : _).trans hnote.1
  generalize (s.noteHome vb rb).storeAtom (some (agentWriter c.agent)) c.agent rb.pa bs = w at hgo hbyte hcmds
  rw [← hcmds] at hc
  have h1 := State.find_modCmd (s := w) (f := fun d => { d with words := d.words ++ wordsAt rb.pa bs.length }) hc (fun _ => rfl)
  have h2 := State.find_modCmd (f := fun d => let e := { d with parts := d.parts.erase (0, p, bs) }; { e with done := e.progress }) h1 (fun _ => rfl)
  refine ⟨_, congrArg Host.Outcome.next hgo, fun j hj => ?_, fun a ha => ?_, ⟨_, h2, rfl, rfl, rfl⟩⟩
  · refine (w.wroteWords_keeps c t.paired (wordsAt rb.pa bs.length) _).trans ?_
    rw [hbyte, if_pos (by omega), Nat.add_sub_cancel_left]
  · refine (w.wroteWords_keeps c t.paired (wordsAt rb.pa bs.length) _).trans ?_
    rw [hbyte, if_neg (by omega)]

/-- Settles O41, event by event: a command is found by its key, and each step of it is one equation. -/
theorem engineProgress : Obligations.EngineProgress := by
  unfold Obligations.EngineProgress
  refine ⟨engineEnqueue_clause, engineEnds_clause, engineCompletion_clause, ?_, fun s key c t hc htask hended hop hdel hrace =>
    ⟨copyRead_clause s key c t hc htask hended hop hdel hrace, copyWrite_clause s key c t hc htask hended hop hdel⟩⟩
  exact fun s key c t va tr hc htask hended hcmp hok hrel hwords hr hwait ht h0 =>
    engineWord_clause s key c t va tr hc htask hended hcmp hok hrel hwords hr hwait ht h0

end Sys2Proof.Machine
end

section
/-! The save area of a group, written and read back (R71 to R73). -/
namespace Sys2Proof.Machine

/-! ### Blocks within a string of bytes -/

/-- A string of bytes holds a block at an offset. -/
def blockAt (b : List Byte) (off : Nat) (blk : List Byte) : Prop := ∀ j < blk.length, b[off + j]? = blk[j]?

theorem blockAt_left {b x y : List Byte} {off : Nat} (h : blockAt b off (x ++ y)) : blockAt b off x := fun j hj => by
  rw [h j (by rw [List.length_append]; omega), List.getElem?_append_left hj]

theorem blockAt_right {b x y : List Byte} {off : Nat} (h : blockAt b off (x ++ y)) : blockAt b (off + x.length) y := fun j hj => by
  rw [Nat.add_assoc, h _ (by rw [List.length_append]; omega), List.getElem?_append_right (Nat.le_add_right _ _), Nat.add_sub_cancel_left]

/-- A number at the start of a block, and what follows it. -/
theorem blockAt_number {b r : List Byte} {off n v : Nat} (h : blockAt b off (leBytes n v ++ r)) :
    blockAt b off (leBytes n v) ∧ blockAt b (off + n) r := by
  have hr := blockAt_right h
  rw [leBytes_length] at hr
  exact ⟨blockAt_left h, hr⟩

theorem length_flatMap_of {α : Type} {c : Nat} {f : α → List Byte} (hf : ∀ a, (f a).length = c) (l : List α) :
    (l.flatMap f).length = l.length * c := by
  induction l with
  | nil => simp
  | cons a r ih => rw [List.flatMap_cons, List.length_append, hf, ih, List.length_cons, Nat.succ_mul, Nat.add_comm]

/-- The pieces of a block of equal pieces stand one after the other. -/
theorem blockAt_flatMap {b : List Byte} {off c m n : Nat} {f : Nat → List Byte} (hf : ∀ a, (f a).length = c)
    (h : blockAt b off ((List.range m).flatMap f)) (hn : n < m) : blockAt b (off + n * c) (f n) := by
  have hsplit : List.range m = List.range n ++ (n :: (List.range (m - n - 1)).map (n + 1 + ·)) := by
    rw [show m = n + (1 + (m - n - 1)) by omega, List.range_add, List.range_add]
    simp [Function.comp_def, Nat.add_assoc]
  rw [hsplit, List.flatMap_append, List.flatMap_cons] at h
  have h' := blockAt_left (blockAt_right h)
  rwa [length_flatMap_of hf, List.length_range] at h'

theorem field_of_blockAt {b : List Byte} {off n v : Nat} (h : blockAt b off (leBytes n v)) : field b off n = v % 256 ^ n := by
  have heq : (b.drop off).take n = leBytes n v := by
    refine List.ext_getElem? fun j => ?_
    rcases Nat.lt_or_ge j n with hj | hj
    · rw [List.getElem?_take_of_lt hj, List.getElem?_drop, h j (by rwa [leBytes_length])]
    · rw [List.getElem?_eq_none (by rw [List.length_take]; omega), List.getElem?_eq_none (by rwa [leBytes_length])]
  rw [field, heq, leNat_leBytes]

/-- The field of a value that fits it. -/
theorem field_of_fits {b : List Byte} {off n v : Nat} (h : blockAt b off (leBytes n v)) (hv : v < 256 ^ n) : field b off n = v := by
  rw [field_of_blockAt h, Nat.mod_eq_of_lt hv]

/-! ### What the header holds -/

theorem Group.issueAddr_lt {g : Group} {p : Nat} (h : g.issueAddr = some p) : p < 2 ^ 32 := by
  rw [Group.issueAddr] at h
  cases hl : (lanesOf g.width g.runnable).map (fun l => (g.vpc.get l).toNat) with
  | nil => rw [hl] at h; cases h
  | cons a r =>
    rw [hl] at h
    obtain rfl := Option.some.inj h
    have ha : a ∈ (lanesOf g.width g.runnable).map (fun l => (g.vpc.get l).toNat) := hl ▸ List.mem_cons_self
    obtain ⟨l, -, rfl⟩ := List.mem_map.mp ha
    exact Nat.lt_of_le_of_lt ((foldl_min_spec r _ _).mp rfl).2.1 (g.vpc.get l).isLt

theorem Group.deadline_eq (g : Group) : g.deadline = g.parks.foldl (fun n p => p.deadline.elim n (min n)) (2 ^ 64 - 1) := by
  rw [Group.deadline]
  congr 1
  funext n p
  cases p.deadline <;> rfl

theorem Group.deadline_lt (g : Group) : g.deadline < 2 ^ 64 := by
  rw [g.deadline_eq]
  have hle : ∀ (l : List Park) (a : Nat), l.foldl (fun n p => p.deadline.elim n (min n)) a ≤ a := by
    intro l
    induction l with
    | nil => exact fun a => Nat.le_refl _
    | cons p r ih =>
      intro a
      refine Nat.le_trans (ih _) ?_
      show p.deadline.elim a (min a) ≤ a
      cases p.deadline with
      | none => exact Nat.le_refl _
      | some d => exact Nat.min_le_left _ _
  have := hle g.parks (2 ^ 64 - 1)
  omega

theorem getLsbD_fullMask {w l : Nat} (hw : w ≤ 64) : (fullMask w).getLsbD l = decide (l < w) := by
  rw [fullMask, BitVec.getLsbD_ofNat, Nat.testBit_two_pow_sub_one, Bool.and_eq_right_iff_imp.mpr]
  intro h
  exact decide_eq_true (Nat.lt_of_lt_of_le (of_decide_eq_true h) hw)

theorem Group.exitedMask_bit (g : Group) (hw : g.width ≤ 64) (l : Nat) :
    (fullMask g.width &&& ~~~g.live).getLsbD l = (decide (l < g.width) && g.exited l) := by
  rw [BitVec.getLsbD_and, BitVec.getLsbD_not, getLsbD_fullMask hw, Group.live, getLsbD_maskOf]
  by_cases hl : l < g.width
  · simp [hl, Nat.lt_of_lt_of_le hl hw]
  · simp [hl]

theorem Group.parkedMask_bit (g : Group) (hw : g.width ≤ 64) (l : Nat) :
    (maskOf g.width g.parked).getLsbD l = (decide (l < g.width) && g.parked l) := by
  rw [getLsbD_maskOf]
  by_cases hl : l < g.width
  · simp [hl, Nat.lt_of_lt_of_le hl hw]
  · simp [hl]

theorem foldl_add_six (f : Nat → Nat) :
    (List.range 6).foldl (fun n k => n + f k) 0 = f 0 + f 1 + f 2 + f 3 + f 4 + f 5 := by
  simp [List.range_succ]

/-- The six event counters packed into one word. -/
theorem packed_six (e : Nat → BitVec 6) {k : Nat} (hk : k < 6) :
    (List.range 6).foldl (fun n k => n + (e k).toNat * 2 ^ (6 * k)) 0 < 2 ^ 36 ∧
    (List.range 6).foldl (fun n k => n + (e k).toNat * 2 ^ (6 * k)) 0 / 2 ^ (6 * k) % 64 = (e k).toNat := by
  have h0 := (e 0).isLt
  have h1 := (e 1).isLt
  have h2 := (e 2).isLt
  have h3 := (e 3).isLt
  have h4 := (e 4).isLt
  have h5 := (e 5).isLt
  rw [foldl_add_six (fun k => (e k).toNat * 2 ^ (6 * k))]
  refine ⟨by omega, ?_⟩
  interval_cases k <;> omega

theorem Group.saveHeader_eq (g : Group) (cause : Nat) : g.saveHeader cause =
    leBytes 4 (if cause = 1 then 2 ^ 32 - 1 else g.issueAddr.getD (2 ^ 32 - 1)) ++ leBytes 4 (bit g.gsrE + 2 * bit g.gsrH)
      ++ leBytes 8 (fullMask g.width &&& ~~~g.live).toNat ++ leBytes 8 (maskOf g.width g.parked).toNat ++ leBytes 4 g.fsr.toNat
      ++ leBytes 4 ((g.repAt.elim g.repLeft (fun r => r.2.2)).toNat + 128 * ((g.repAt.elim g.repDone (fun r => r.2.1)).toNat % 128))
      ++ leBytes 8 ((List.range 6).foldl (fun n k => n + (g.e.get k).toNat * 2 ^ (6 * k)) 0) ++ leBytes 8 g.deadline
      ++ leBytes 4 cause ++ leBytes 12 0 := by
  rw [Group.saveHeader]
  cases g.repAt <;> rfl

/-- The fields of a header, as a save writes them (R72). -/
theorem blockAt_saveHeader {g : Group} {cause : Nat} {b : List Byte} (hw : g.width ≤ 64) (hc : cause < 2 ^ 32) (h : blockAt b 0 (g.saveHeader cause)) :
    (field b 0 4 = if cause = 1 then 2 ^ 32 - 1 else g.issueAddr.getD (2 ^ 32 - 1)) ∧
    field b 4 4 = (if g.gsrE = true then 1 else 0) + (if g.gsrH = true then 2 else 0) ∧
    (∀ l < 64, (field b 8 8).testBit l = (decide (l < g.width) && g.exited l) ∧ (field b 0x10 8).testBit l = (decide (l < g.width) && g.parked l)) ∧
    field b 0x18 4 = g.fsr.toNat ∧
    (field b 0x1C 4 % 128 = (g.repAt.elim g.repLeft (fun r => r.2.2)).toNat ∧
      field b 0x1C 4 / 128 = (g.repAt.elim g.repDone (fun r => r.2.1)).toNat % 128) ∧
    (∀ k < 6, field b 0x20 8 / 2 ^ (6 * k) % 64 = (g.e.get k).toNat) ∧
    field b 0x28 8 = g.parks.foldl (fun n p => p.deadline.elim n (min n)) (2 ^ 64 - 1) ∧ field b 0x30 4 = cause ∧ field b 0x34 12 = 0 := by
  rw [Group.saveHeader_eq] at h
  generalize g.repAt.elim g.repLeft (fun r => r.2.2) = left at h ⊢
  generalize g.repAt.elim g.repDone (fun r => r.2.1) = done at h ⊢
  simp only [List.append_assoc] at h
  obtain ⟨hissue, h⟩ := blockAt_number h
  obtain ⟨hgsr, h⟩ := blockAt_number h
  obtain ⟨hexited, h⟩ := blockAt_number h
  obtain ⟨hparked, h⟩ := blockAt_number h
  obtain ⟨hfsr, h⟩ := blockAt_number h
  obtain ⟨hrepeat, h⟩ := blockAt_number h
  obtain ⟨hevents, h⟩ := blockAt_number h
  obtain ⟨hdeadline, h⟩ := blockAt_number h
  obtain ⟨hcause, hzero⟩ := blockAt_number h
  have hleft := left.isLt
  refine ⟨?_, ?_, fun l hl => ⟨?_, ?_⟩, ?_, ?_, fun k hk => ?_, ?_, field_of_fits hcause hc, field_of_fits hzero (by decide)⟩
  · rw [field_of_fits hissue]
    split
    · decide
    · cases hp : g.issueAddr with
      | none => decide
      | some p => exact g.issueAddr_lt hp
  · rw [field_of_fits hgsr] <;> cases g.gsrE <;> cases g.gsrH <;> decide
  · rw [field_of_fits hexited (BitVec.isLt _), BitVec.testBit_toNat, g.exitedMask_bit hw]
  · rw [field_of_fits hparked (BitVec.isLt _), BitVec.testBit_toNat, g.parkedMask_bit hw]
  · exact field_of_fits hfsr (Nat.lt_trans g.fsr.isLt (by decide))
  · rw [field_of_fits hrepeat (by omega)]
    omega
  · rw [field_of_fits hevents (Nat.lt_trans (packed_six g.e.get hk).1 (by decide))]
    exact (packed_six g.e.get hk).2
  · rw [field_of_fits hdeadline g.deadline_lt, g.deadline_eq]

theorem blockAt_words {w : Nat} {b : List Byte} {off m n l : Nat} {f : Nat → Nat → Word}
    (h : blockAt b off ((List.range m).flatMap (fun k => (List.range w).flatMap (fun i => leBytes 4 (f k i).toNat)))) (hn : n < m) (hl : l < w) :
    field b (off + 4 * (n * w + l)) 4 = (f n l).toNat := by
  have hlen : ∀ k, ((List.range w).flatMap (fun i => leBytes 4 (f k i).toNat)).length = w * 4 := fun k => by
    rw [length_flatMap_of (fun i => leBytes_length 4 _), List.length_range]
  have hword := blockAt_flatMap (fun i => leBytes_length 4 (f n i).toNat) (blockAt_flatMap hlen h hn) hl
  rw [show off + 4 * (n * w + l) = off + n * (w * 4) + l * 4 by ring]
  exact field_of_fits hword (BitVec.isLt _)

theorem blockAt_doubles {b : List Byte} {off m n : Nat} {f : Nat → DWord} (h : blockAt b off ((List.range m).flatMap (fun k => leBytes 8 (f k).toNat)))
    (hn : n < m) : field b (off + 8 * n) 8 = (f n).toNat := by
  rw [Nat.mul_comm]
  exact field_of_fits (blockAt_flatMap (fun i => leBytes_length 8 (f i).toNat) h hn) (BitVec.isLt _)

/-- A string that holds the blocks of a save is a save area of the group (R71, R72). -/
theorem areaHolds_of_blocks {g : Group} {cause live : Nat} {b : List Byte} (hw : g.width ≤ 64) (hc : cause < 2 ^ 32)
    (h : ∀ e ∈ g.saveBlocks cause live, blockAt b e.1 e.2) : areaHolds g cause live b := by
  rw [Group.saveBlocks] at h
  simp only [List.forall_mem_cons] at h
  obtain ⟨hheader, hs, hp, hx, hvpc, hv, -⟩ := h
  obtain ⟨hissue, hgsr, hmasks, hfsr, ⟨hleft, hdone⟩, hevents, hdeadline, hcause, hzero⟩ := blockAt_saveHeader hw hc hheader
  refine ⟨hissue, hgsr, hmasks, hfsr, hleft, hdone, hevents, hdeadline, hcause, hzero, fun n hn => blockAt_doubles hs hn, fun n hn l hl => ?_,
    fun k hk l hl => blockAt_words hx hk hl, fun l hl => ?_, fun n hn l hl => blockAt_words hv hn hl⟩
  · have hfield := blockAt_doubles (f := fun n => g.p.get n &&& fullMask g.width) hp hn
    rw [Group.offPred] at hfield
    rw [hfield, BitVec.testBit_toNat, BitVec.getLsbD_and, getLsbD_fullMask hw, Group.pget, Bool.and_comm]
  · have hword := blockAt_flatMap (fun i => leBytes_length 4 (g.vpc.get i).toNat) hvpc hl
    rw [Nat.mul_comm l 4] at hword
    exact field_of_fits hword (g.vpc.get l).isLt

end Sys2Proof.Machine
end

section
/-! A group that comes back from its save area (R73). -/
namespace Sys2Proof.Machine

/-! ### Register files that are written key by key -/

theorem Store.get_foldl_set {α : Type} {w : Nat} (key : α → Nat) (val : α → BitVec w) (l : List α) (st : Store w) {j : Nat} {x : BitVec w}
    (hval : ∀ a ∈ l, key a = j → val a = x) (hst : st.get j = x ∨ ∃ a ∈ l, key a = j) :
    (l.foldl (fun st a => st.set (key a) (val a)) st).get j = x := by
  induction l generalizing st with
  | nil => exact hst.elim id fun ⟨a, ha, _⟩ => absurd ha List.not_mem_nil
  | cons a r ih =>
    refine ih _ (fun c hc => hval c (List.mem_cons_of_mem _ hc)) ?_
    rw [Store.get_set]
    split
    next hj => exact .inl (hval a List.mem_cons_self hj.symm)
    next hj =>
      refine hst.imp_right fun ⟨c, hc, hkey⟩ => ⟨c, (List.mem_cons.mp hc).resolve_left fun h => hj (h ▸ hkey.symm), hkey⟩

/-- A file of n registers that is written one by one. -/
theorem Store.get_foldl_range {w n i : Nat} (f : Nat → BitVec w) (hi : i < n) :
    ((List.range n).foldl (fun (st : Store w) k => st.set k (f k)) []).get i = f i :=
  Store.get_foldl_set (fun k => k) f _ _ (fun _ _ h => congrArg f h) (.inr ⟨i, List.mem_range.mpr hi, rfl⟩)

/-- A file of n registers of w lanes that is written lane by lane. -/
theorem Store.get_foldl_lanes {w n k l : Nat} (f : Nat → Nat → Word) (hw : w ≤ 64) (hl : l < w) :
    ((List.range n).foldl (fun (st : Store 32) k => (List.range w).foldl (fun st i => st.set (k * 64 + i) (f k i)) st) []).get (k * 64 + l)
      = if k < n then f k l else 0 := by
  have hflat := List.foldl_flatMap (f := fun k => (List.range w).map (fun i => (k, i)))
    (g := fun (st : Store 32) (c : Nat × Nat) => st.set (c.1 * 64 + c.2) (f c.1 c.2)) (l := List.range n) (init := [])
  simp only [List.foldl_map] at hflat
  rw [← hflat]
  refine Store.get_foldl_set (fun c : Nat × Nat => c.1 * 64 + c.2) (fun c => f c.1 c.2) _ _ (fun c hc hkey => ?_) ?_
  · obtain ⟨m, hm, hc⟩ := List.mem_flatMap.mp hc
    obtain ⟨i, hi, rfl⟩ := List.mem_map.mp hc
    rw [List.mem_range] at hm hi
    obtain ⟨rfl, rfl⟩ : m = k ∧ i = l := by omega
    rw [if_pos hm]
  · split
    next hk => exact .inr ⟨(k, l), List.mem_flatMap.mpr ⟨k, List.mem_range.mpr hk, List.mem_map.mpr ⟨l, List.mem_range.mpr hl, rfl⟩⟩, rfl⟩
    next => exact .inl rfl

/-! ### Parked lanes -/

theorem restoreParks_same {ps : List Park} {width old : Nat} {mask : DWord}
    (hmask : ∀ p ∈ ps, mask.getLsbD p.lane = true) (hlanes : ∀ l < width, mask.getLsbD l = true → ∃ p ∈ ps, p.lane = l) :
    restoreParks ps width mask old old = ps := by
  have hnew : (lanesOf width mask).filter (fun l => ps.all (fun p => p.lane != l)) = [] := by
    refine List.filter_eq_nil_iff.mpr fun l hl => ?_
    obtain ⟨hlt, hbit⟩ := mem_lanesOf.mp hl
    obtain ⟨p, hp, hlane⟩ := hlanes l hlt hbit
    rw [List.all_eq_true]
    intro hall
    simpa [hlane] using hall p hp
  rw [restoreParks, hnew, List.filter_eq_self.mpr hmask]
  simp

theorem Group.issueAddr_congr {g h : Group} (hw : h.width = g.width) (hparks : h.parks = g.parks) (hh : h.gsrH = g.gsrH) (hr : h.resume = g.resume)
    (hvpc : ∀ l < g.width, h.vpc.get l = g.vpc.get l) : h.issueAddr = g.issueAddr := by
  have hrun : h.runnable = g.runnable := by
    refine BitVec.eq_of_getLsbD_eq fun i _ => ?_
    rw [Group.runnable, Group.runnable, getLsbD_maskOf, getLsbD_maskOf, hw]
    by_cases hi : i < g.width
    · simp [Group.exited, Group.parked, hparks, hh, hr, hvpc i hi]
    · simp [hi]
  have hmap : (lanesOf h.width h.runnable).map (fun l => (h.vpc.get l).toNat) = (lanesOf g.width g.runnable).map (fun l => (g.vpc.get l).toNat) := by
    rw [hrun, hw]
    exact List.map_congr_left fun l hl => by rw [hvpc l (mem_lanesOf.mp hl).1]
  rw [Group.issueAddr, Group.issueAddr, hmap]

/-! ### The group that a save area holds -/

/-- The group that a save area holds, with its repeat state not yet put at its issue address. -/
def Group.readBack (g : Group) (live : Nat) (b : List Byte) : Group :=
  { g with
    gsrE := field b 4 4 % 2 == 1, gsrH := field b 4 4 / 2 % 2 == 1, fsr := BitVec.ofNat 5 (field b 0x18 4)
    repLeft := BitVec.ofNat 7 (field b 0x1C 4), repDone := BitVec.ofNat 8 (field b 0x1C 4 / 128 % 128), repSteps := none, repAt := none
    e := (List.range 6).foldl (fun (st : Store 6) k => st.set k (BitVec.ofNat 6 (field b 0x20 8 / 2 ^ (6 * k)))) []
    parks := restoreParks g.parks g.width (BitVec.ofNat 64 (field b 0x10 8) &&& ~~~BitVec.ofNat 64 (field b 8 8)) g.deadline (field b 0x28 8)
    s := (List.range (8 * g.sgran)).foldl (fun (st : Store 64) n => st.set n (BitVec.ofNat 64 (field b (64 + 8 * n) 8))) []
    p := (List.range 24).foldl (fun (st : Store 64) n =>
      st.set n (BitVec.ofNat 64 (field b (g.offPred + 8 * n) 8) &&& fullMask g.width)) []
    x := (List.range 8).foldl (fun (st : Store 32) k => (List.range g.width).foldl (fun st i =>
      st.set (k * 64 + i) (BitVec.ofNat 32 (field b (g.offIdx + 4 * (k * g.width + i)) 4))) st) []
    v := (List.range (8 * live)).foldl (fun (st : Store 32) k => (List.range g.width).foldl (fun st i =>
      st.set (k * 64 + i) (BitVec.ofNat 32 (field b (g.offVec + 4 * (k * g.width + i)) 4))) st) []
    vpc := (List.range g.width).foldl (fun (st : Store 32) i =>
      st.set i (if (BitVec.ofNat 64 (field b 8 8)).getLsbD i then exitedVpc else BitVec.ofNat 32 (field b (g.offVpc + 4 * i) 4))) []
    transfer := fullMask g.width, residency := .resident, parkedSince := none }

theorem Group.restored_eq (g : Group) (live : Nat) (b : List Byte) : g.restored live b =
    (g.readBack live b).issueAddr.elim (g.readBack live b) (fun p =>
      if (g.readBack live b).repLeft = 0 then g.readBack live b
      else { g.readBack live b with repLeft := 0, repDone := 0, repAt := some (p, (g.readBack live b).repDone, (g.readBack live b).repLeft) }) := by
  have h : g.restored live b = (match (g.readBack live b).issueAddr with
      | some p => if (g.readBack live b).repLeft = 0 then g.readBack live b
        else { g.readBack live b with repLeft := 0, repDone := 0, repAt := some (p, (g.readBack live b).repDone, (g.readBack live b).repLeft) }
      | none => g.readBack live b) := rfl
  rw [h]
  cases (g.readBack live b).issueAddr <;> rfl

theorem ofNat_field {w n : Nat} {x : BitVec w} (h : n = x.toNat) : BitVec.ofNat w n = x := by
  rw [h, BitVec.ofNat_toNat, BitVec.setWidth_eq]

/-- What a group reads back from an area that holds it is the group as it was, but for its place in a repeat (R73). -/
theorem Group.readBack_spec {g : Group} {cause live : Nat} {b : List Byte} (hw : g.width ≤ 64) (h : areaHolds g cause live b)
    (hparks : ∀ p ∈ g.parks, p.lane < g.width ∧ g.exited p.lane = false) :
    (∀ n < 8 * g.sgran, (g.readBack live b).sget n = g.sget n) ∧ (∀ n < 24, ∀ l < g.width, (g.readBack live b).pget n l = g.pget n l) ∧
    (∀ k < 8, ∀ l < g.width, (g.readBack live b).xget k l = g.xget k l) ∧
    (∀ l < g.width, (g.readBack live b).vpc.get l = g.vpc.get l) ∧
    (∀ n l, l < g.width → (g.readBack live b).vget n l = if n < 8 * live then g.vget n l else 0) ∧
    (∀ k < 6, (g.readBack live b).e.get k = g.e.get k) ∧
    (g.readBack live b).gsrE = g.gsrE ∧ (g.readBack live b).gsrH = g.gsrH ∧ (g.readBack live b).fsr = g.fsr ∧
    (g.readBack live b).parks = g.parks ∧
    (g.readBack live b).repLeft = g.repAt.elim g.repLeft (fun r => r.2.2) ∧
    (g.readBack live b).repDone = BitVec.ofNat 8 ((g.repAt.elim g.repDone (fun r => r.2.1)).toNat % 128) := by
  obtain ⟨-, hgsr, hmasks, hfsr, hleft, hdone, hevents, hdeadline, -, -, hs, hp, hx, hvpc, hv⟩ := h
  have hexited : ∀ l < g.width, (BitVec.ofNat 64 (field b 8 8)).getLsbD l = g.exited l := fun l hl => by
    have h64 := Nat.lt_of_lt_of_le hl hw
    rw [BitVec.getLsbD_ofNat, (hmasks l h64).1]
    simp [h64, hl]
  have hparked : ∀ l < g.width, (BitVec.ofNat 64 (field b 0x10 8)).getLsbD l = g.parked l := fun l hl => by
    have h64 := Nat.lt_of_lt_of_le hl hw
    rw [BitVec.getLsbD_ofNat, (hmasks l h64).2]
    simp [h64, hl]
  refine ⟨fun n hn => ?_, fun n hn l hl => ?_, fun k hk l hl => ?_, fun l hl => ?_, fun n l hl => ?_, fun k hk => ?_, ?_, ?_, ?_, ?_, ?_, ?_⟩
  · exact (Store.get_foldl_range _ hn).trans (ofNat_field (hs n hn))
  · have hword := Store.get_foldl_range (fun n => BitVec.ofNat 64 (field b (g.offPred + 8 * n) 8) &&& fullMask g.width) hn
    have h64 := Nat.lt_of_lt_of_le hl hw
    rw [Group.pget, Group.readBack, hword, BitVec.getLsbD_and, getLsbD_fullMask hw, BitVec.getLsbD_ofNat]
    have hbit := hp n hn l h64
    rw [Group.offPred, hbit]
    simp [h64, hl]
  · refine (Store.get_foldl_lanes _ hw hl).trans ?_
    rw [if_pos hk]
    exact ofNat_field (hx k hk l hl)
  · refine (Store.get_foldl_range _ hl).trans ?_
    rw [hexited l hl]
    split
    next he => exact (beq_iff_eq.mp he).symm
    next => exact ofNat_field (hvpc l hl)
  · refine (Store.get_foldl_lanes _ hw hl).trans ?_
    split
    next hn => exact ofNat_field (hv n hn l hl)
    next => rfl
  · refine (Store.get_foldl_range (fun k => BitVec.ofNat 6 (field b 0x20 8 / 2 ^ (6 * k))) hk).trans (BitVec.eq_of_toNat_eq ?_)
    rw [BitVec.toNat_ofNat]
    exact hevents k hk
  · rw [Group.readBack]
    dsimp only
    rw [hgsr]
    cases g.gsrE <;> cases g.gsrH <;> rfl
  · rw [Group.readBack]
    dsimp only
    rw [hgsr]
    cases g.gsrE <;> cases g.gsrH <;> rfl
  · exact ofNat_field hfsr
  · rw [Group.readBack]
    dsimp only
    rw [hdeadline, ← g.deadline_eq]
    refine restoreParks_same (fun p hp => ?_) fun l hl hbit => ?_
    · obtain ⟨hlane, hlive⟩ := hparks p hp
      rw [BitVec.getLsbD_and, BitVec.getLsbD_not, hexited _ hlane, hparked _ hlane, hlive, Group.parked]
      simp [Nat.lt_of_lt_of_le hlane hw]
      exact ⟨p, hp, rfl⟩
    · rw [BitVec.getLsbD_and, hparked l hl] at hbit
      obtain ⟨p, hp, hlane⟩ := List.any_eq_true.mp (Bool.and_eq_true_iff.mp hbit).1
      exact ⟨p, hp, beq_iff_eq.mp hlane⟩
  · refine BitVec.eq_of_toNat_eq ?_
    rw [Group.readBack]
    dsimp only
    rw [BitVec.toNat_ofNat]
    exact hleft
  · rw [Group.readBack]
    dsimp only
    rw [hdone, Nat.mod_mod]

/-- An area that holds a group gives it back as it was (R73). -/
theorem Group.restored_cameBack {g : Group} {cause live : Nat} {b : List Byte} (hw : g.width ≤ 64) (h : areaHolds g cause live b)
    (hparks : ∀ p ∈ g.parks, p.lane < g.width ∧ g.exited p.lane = false) : cameBack g live (g.restored live b) := by
  obtain ⟨hs, hp, hx, hvpc, hv, he, hgsrE, hgsrH, hfsr, hps, hleft, hdone⟩ := Group.readBack_spec hw h hparks
  have hissue : (g.readBack live b).issueAddr = g.issueAddr := Group.issueAddr_congr rfl hps hgsrH rfl hvpc
  have hrest : g.readBack live b = { g with
      s := (g.readBack live b).s, p := (g.readBack live b).p, x := (g.readBack live b).x, vpc := (g.readBack live b).vpc, v := (g.readBack live b).v
      e := (g.readBack live b).e, transfer := (g.readBack live b).transfer, residency := .resident, parkedSince := none
      repLeft := (g.readBack live b).repLeft, repDone := (g.readBack live b).repDone, repAt := none, repSteps := none } := by
    rw [Group.readBack] at hgsrE hgsrH hfsr hps ⊢
    dsimp only at hgsrE hgsrH hfsr hps
    rw [hgsrE, hgsrH, hfsr, hps]
  rw [Group.restored_eq, hissue]
  generalize g.readBack live b = r at hs hp hx hvpc hv he hleft hdone hrest ⊢
  cases hp' : g.issueAddr with
  | none =>
    refine ⟨hs, hp, hx, hvpc, hv, he, ?_, ?_, fun hat hzero => ⟨?_, ?_⟩⟩
    · rw [hrest] <;> rfl
    · intro _ _ p hsome
      rw [hp'] at hsome
      cases hsome
    · rw [Option.elim_none, hleft, hat, Option.elim_none, hzero]
    · rw [hrest] <;> rfl
  | some p =>
    rw [Option.elim_some]
    split
    next h0 =>
      refine ⟨hs, hp, hx, hvpc, hv, he, ?_, ?_, fun hat hzero => ⟨h0, ?_⟩⟩
      · rw [hrest]
      · intro hat hne
        rw [hleft, hat] at h0
        exact absurd h0 hne
      · rw [hrest]
    next h0 =>
      refine ⟨hs, hp, hx, hvpc, hv, he, ?_, ?_, fun hat hzero => ?_⟩
      · rw [hrest]
      · intro hat _ q hq
        rw [hp'] at hq
        obtain rfl := Option.some.inj hq
        refine ⟨rfl, ?_⟩
        rw [hdone, hleft, hat] <;> rfl
      · rw [hleft, hat] at h0
        exact absurd hzero h0

end Sys2Proof.Machine
end

section
/-! Groups that are pre-empted, saved, swapped out and reinstated (R43, R309, R310, R341). -/
namespace Sys2Proof.Machine

/-! ### What stores note in a group -/

/-- A group after stores: what it has lost is counted, and its monitors have seen them. -/
def Group.notesOf (a b : Group) : Prop := a = { b with delPkg := a.delPkg, mon := a.mon }

theorem Group.notesOf_refl (g : Group) : g.notesOf g := rfl

theorem Group.notesOf_trans {a b c : Group} (h : a.notesOf b) (h' : b.notesOf c) : a.notesOf c := by
  rw [Group.notesOf] at h h' ⊢
  rw [h, h']

/-- The groups of a state after stores. -/
def State.notesOf (t s : State) : Prop := List.Forall₂ Group.notesOf t.groups s.groups

theorem State.notesOf_of_groups {t s : State} (h : t.groups = s.groups) : t.notesOf s := by
  rw [State.notesOf, h]
  exact List.forall₂_same.mpr fun g _ => g.notesOf_refl

theorem State.notesOf_trans {u t s : State} (h : u.notesOf t) (h' : t.notesOf s) : u.notesOf s :=
  forall₂_trans (R := Group.notesOf) (fun _ _ _ => Group.notesOf_trans) h h'

theorem State.notesOf_foldl {α : Type} {f : State → α → State} (h : ∀ u a, (f u a).notesOf u) (l : List α) (s : State) : (l.foldl f s).notesOf s := by
  induction l generalizing s with
  | nil => exact State.notesOf_of_groups rfl
  | cons a r ih => exact State.notesOf_trans (ih (f s a)) (h s a)

theorem State.watch_notesOf (s : State) (pw : Nat) : (s.watch pw).notesOf s := by
  rw [State.notesOf, State.watch, List.forall₂_map_left_iff]
  refine List.forall₂_same.mpr fun g _ => ?_
  split
  · rfl
  · exact g.notesOf_refl

theorem State.deviceWrite_notesOf (s : State) (pa : Nat) (bs : List Byte) : (s.deviceWrite pa bs).notesOf s := by
  rw [State.deviceWrite]
  exact State.notesOf_trans (State.notesOf_foldl (fun u pw => u.watch_notesOf pw) _ _) (State.notesOf_of_groups rfl)

theorem State.storeAtom_notesOf (s : State) (w : Option Writer) (ag : Agent) (pa : Nat) (bs : List Byte) : (s.storeAtom w ag pa bs).notesOf s := by
  rw [State.storeAtom]
  refine State.notesOf_foldl (fun u p => ?_) _ s
  rw [State.storeWord]
  exact State.notesOf_trans (State.watch_notesOf _ _) (State.notesOf_of_groups rfl)

theorem State.replLost_notesOf (s : State) (r : ReplWrite) : (s.replLost r).notesOf s := by
  rw [State.replLost]
  split
  · exact State.notesOf_of_groups rfl
  · exact forall₂_modWhere Group.notesOf_refl fun g _ => g.countStore_pkg false r.va s.fresh

theorem State.replArrives_notesOf (s : State) (r : ReplWrite) : (s.replArrives r).notesOf s := by
  rw [State.replArrives]
  split
  · exact State.notesOf_of_groups rfl
  · exact State.notesOf_trans (State.notesOf_of_groups rfl) (s.replLost_notesOf r)

theorem State.flushRepls_notesOf (s : State) (t : ReplWrite → Bool) : (s.flushRepls t).notesOf s :=
  State.notesOf_foldl State.replArrives_notesOf _ s

theorem State.storeRepl_notesOf (s : State) (gid : Nat) (ag : Agent) (pa : Nat) (bs : List Byte) : (s.storeRepl gid ag pa bs).notesOf s := by
  have h := s.flushRepls_notesOf (fun q => agentCore q.agent == agentCore ag && q.pa / 2 ^ 37 == pa / 2 ^ 37)
  rw [State.storeRepl]
  exact State.notesOf_trans (State.notesOf_of_groups rfl) h

theorem State.store_notesOf (s : State) (gid : Nat) (plain : Bool) (ag : Agent) (repl : Bool) (pa : Nat) (bs : List Byte) :
    (s.store gid plain ag repl pa bs).notesOf s := by
  rw [State.store]
  split
  · exact s.storeRepl_notesOf gid ag pa bs
  · exact s.storeAtom_notesOf _ ag pa bs

theorem State.noteTlb_notesOf (s : State) (core vi va : Nat) (t : Trans) : (s.noteTlb core vi va t).notesOf s := by
  rw [(s.noteTlb_frame core vi va t).1]
  exact State.notesOf_of_groups rfl

theorem State.groupPut_notesOf (s : State) (g : Group) (vi va : Nat) (bs : List Byte) : (s.groupPut g vi va bs).1.notesOf s := by
  rw [State.groupPut]
  split
  · exact State.notesOf_of_groups rfl
  · split
    · exact State.notesOf_of_groups rfl
    · refine State.notesOf_foldl (fun u p => ?_) _ s
      dsimp only
      split
      · exact State.notesOf_trans (State.deviceWrite_notesOf _ _ _) (u.noteTlb_notesOf _ _ _ _)
      · exact State.notesOf_trans (State.store_notesOf _ _ _ _ _ _ _) (u.noteTlb_notesOf _ _ _ _)

theorem foldl_bind_none {α β : Type} (f : β → α → Option α) (l : List β) : l.foldl (fun o b => o.bind (f b)) none = none := by
  induction l with
  | nil => rfl
  | cons b r ih => exact ih

theorem State.putBlocks_notesOf {s u : State} {g : Group} {vi : Nat} {l : List (Nat × List Byte)} (h : s.putBlocks g vi l = some u) :
    u.storesOf s ∧ u.notesOf s := by
  induction l generalizing s with
  | nil =>
    obtain rfl := Option.some.inj h
    exact ⟨s.storesOf_refl, State.notesOf_of_groups rfl⟩
  | cons b r ih =>
    have hput := s.groupPut_notesOf g vi (((g.seg 5).1.toNat + b.1) % 2 ^ 64) b.2
    have hstores := s.groupPut_storesOf g vi (((g.seg 5).1.toNat + b.1) % 2 ^ 64) b.2
    rw [State.putBlocks, List.foldl_cons, Option.bind_some] at h
    split at h
    · exact ih h
    · rcases hp : s.groupPut g vi (((g.seg 5).1.toNat + b.1) % 2 ^ 64) b.2 with ⟨v, ok⟩
      rw [hp] at h hput hstores
      cases ok with
      | true =>
        obtain ⟨h1, h2⟩ := ih (s := v) h
        exact ⟨State.storesOf_trans h1 hstores, State.notesOf_trans h2 hput⟩
      | false =>
        have hnone := foldl_bind_none (fun (b : Nat × List Byte) (u : State) =>
          if b.2.isEmpty then some u
          else match u.groupPut g vi (((g.seg 5).1.toNat + b.1) % 2 ^ 64) b.2 with
            | (u', true) => some u'
            | (_, false) => none) r
        cases hnone.symm.trans h

theorem find?_forall₂ {α β : Type} {R : α → β → Prop} {p : α → Bool} {q : β → Bool} (hR : ∀ a b, R a b → p a = q b) {l : List α} {k : List β}
    (h : List.Forall₂ R l k) {b : β} (hb : k.find? q = some b) : ∃ a, l.find? p = some a ∧ R a b := by
  induction h with
  | nil => cases hb
  | cons hab _ ih =>
    rw [List.find?_cons] at hb ⊢
    rw [hR _ _ hab]
    split at hb
    · cases hb
      exact ⟨_, rfl, hab⟩
    · exact ih hb

theorem State.notesOf.group? {u s : State} (h : u.notesOf s) {gid : Nat} {g : Group} (hg : s.group? gid = some g) :
    ∃ k, u.group? gid = some k ∧ k.notesOf g :=
  find?_forall₂ (R := Group.notesOf) (fun a b hab => by rw [hab]) (id h : List.Forall₂ Group.notesOf u.groups s.groups) hg

theorem State.group?_mapped {s : State} {gid : Nat} {g : Group} {f : Group → Group} (hg : s.group? gid = some g) (hf : ∀ k : Group, (f k).gid = k.gid) :
    (s.modGroup gid f).group? gid = some (f g) :=
  find?_mapIf (fun k => by rw [hf k]) hg

/-! ### A save -/

theorem State.markPoison_frame (s : State) (core vi va : Nat) :
    ∃ l, s.markPoison core vi va = { s with mem := { s.mem with poison := l } } := by
  rw [State.markPoison]
  split
  · exact ⟨_, rfl⟩
  · exact ⟨s.mem.poison, rfl⟩

theorem State.markPoisons_groups {α : Type} (core vi : Nat) (f : α → Nat) (l : List α) (s : State) :
    (l.foldl (fun u a => u.markPoison core vi (f a)) s).groups = s.groups := by
  refine foldl_keeps (fun u : State => u.groups = s.groups) _ (fun u a hu => ?_) l s rfl
  obtain ⟨l, h⟩ := u.markPoison_frame core vi (f a)
  rw [h]
  exact hu

theorem State.saveTeam_notesOf {s u : State} {t : Task} (h : s.saveTeam t = some u) : u.notesOf s := by
  rw [State.saveTeam] at h
  split at h
  · obtain rfl := Option.some.inj h
    exact State.notesOf_of_groups rfl
  · split at h
    · obtain rfl := Option.some.inj h
      exact State.notesOf_of_groups rfl
    · obtain ⟨v, hv, rfl⟩ := Option.map_eq_some_iff.mp h
      refine State.notesOf_trans (State.notesOf_of_groups ?_) (State.putBlocks_notesOf hv).2
      exact State.markPoisons_groups _ _ _ _ _

theorem State.saveTeam_of_here {s : State} {t : Task} (h : ∃ k ∈ s.groups, k.task = t.uid ∧ k.here = true) : s.saveTeam t = some s := by
  obtain ⟨k, hk, htask, hhere⟩ := h
  have hany : (s.groups.filter (fun g => g.task == t.uid)).any Group.here = true :=
    List.any_eq_true.mpr ⟨k, List.mem_filter.mpr ⟨hk, beq_iff_eq.mpr htask⟩, hhere⟩
  rw [State.saveTeam, State.teamLeaves]
  simp [hany]

theorem Group.savePoison_clean {g : Group} (h : g.clean = true) (live : Nat) : g.savePoison live = [] := by
  simp only [Group.clean, Bool.and_eq_true, List.isEmpty_iff] at h
  obtain ⟨⟨⟨hv, hs⟩, hp⟩, hx⟩ := h
  rw [Group.savePoison, hv, hs, hp, hx]
  rfl

/-- What a save leaves: the group is out of its core, and memory has the blocks of its area where nothing else is to be written. -/
theorem State.saveGroup_spec {s u : State} {gid : Nat} {g : Group} {t : Task} {cause live : Nat} (hg : s.group? gid = some g)
    (ht : s.task? g.task = some t) (h : s.saveGroup g t cause live = some u) :
    ∃ h, u.group? gid = some h ∧ h.residency = .out cause (min live g.vgran) ∧ h.v = [] ∧ h.s = [] ∧ h.clause = none ∧ h.parks = g.parks ∧
      (g.clean = true → (∃ k ∈ s.groups, k.task = g.task ∧ k.gid ≠ gid ∧ k.here = true) →
        ∃ m, s.putBlocks g t.vi (g.saveBlocks cause (min live g.vgran)) = some m ∧ u.mem = m.mem) := by
  obtain rfl := State.group?_gid hg
  rw [State.saveGroup] at h
  dsimp only at h
  split at h
  · cases h
  · split at h
    · cases h
    · rename_i s1 hput
      have hnotes := (State.putBlocks_notesOf hput).2
      obtain ⟨k, hk, hkg⟩ := hnotes.group? hg
      have hmarked := State.markPoisons_groups g.core t.vi (fun off => ((g.seg 5).1.toNat + off) % 2 ^ 64) (g.savePoison (min live g.vgran)) s1
      have hclean : g.clean = true → (g.savePoison (min live g.vgran)).foldl (fun u off => u.markPoison g.core t.vi (((g.seg 5).1.toNat + off) % 2 ^ 64)) s1 = s1 :=
        fun hc => by rw [Group.savePoison_clean hc, List.foldl_nil]
      generalize (g.savePoison (min live g.vgran)).foldl (fun u off => u.markPoison g.core t.vi (((g.seg 5).1.toNat + off) % 2 ^ 64)) s1 = s2 at h hmarked hclean
      have hk2 : s2.group? g.gid = some k := by rw [State.group?, hmarked]; exact hk
      obtain ⟨h', hfound, hh'⟩ := (State.saveTeam_notesOf h).group? (State.group?_mapped hk2 fun _ => rfl)
      rw [Group.notesOf] at hkg hh'
      refine ⟨h', hfound, by rw [hh'], by rw [hh'], by rw [hh'], by rw [hh'], by rw [hh', hkg], fun hc ⟨o, ho, htask, hne, hhere⟩ => ⟨s1, hput, ?_⟩⟩
      obtain ⟨o', ho', hoo⟩ := mem_forall₂_right hnotes ho
      rw [Group.notesOf] at hoo
      have huid : t.uid = g.task := beq_iff_eq.mp (List.find?_some (p := fun t : Task => t.uid == g.task) ht)
      have hsame := State.saveTeam_of_here (s := s2.modGroup g.gid (fun h =>
        { h with residency := .out cause (min live g.vgran), v := [], s := [], p := [], x := [], poisonV := [], poisonS := [], poisonP := []
                 poisonX := [], clause := none, hold := .none, preempt := none, resumeIssue := none, repAt := none })) (t := t)
        ⟨o', ?_, ?_, ?_⟩
      · rw [hsame] at h
        obtain rfl := Option.some.inj h
        rw [hclean hc] <;> rfl
      · rw [State.modGroup, modWhere, hmarked]
        refine List.mem_map.mpr ⟨o', ho', if_neg ?_⟩
        rw [hoo]
        simpa using hne
      · rw [hoo, huid]
        exact htask
      · rw [hoo]
        exact hhere

end Sys2Proof.Machine
end

section
/-! Groups that are pre-empted, saved and reinstated, and slices that end (R43, R309, R310, R341). -/
namespace Sys2Proof.Machine

theorem State.preemptTask_placed {s : State} {uid : Nat} (h : s.tasks.any (fun t => t.uid == uid && t.state == .placed && !t.ended) = true) :
    s.preemptTask uid = { s with
      groups := s.groups.map (fun g => if g.task = uid ∧ g.residency = .resident ∧ g.preempt = none then { g with preempt := some 0 } else g) } := by
  rw [State.preemptTask, if_pos h]
  dsimp only
  rw [modWhere]
  congr 2
  funext g
  simp only [Bool.and_eq_true, beq_iff_eq, Option.isNone_iff_eq_none, and_assoc]

theorem State.preemptTask_frame (s : State) (uid : Nat) : s.preemptTask uid = { s with groups := (s.preemptTask uid).groups } := by
  rw [State.preemptTask]
  split <;> rfl

/-! ### What a request, a save and a swap-out do -/

theorem State.preemptionSave_starts {s : State} {gid : Nat} {g : Group} {t : Task} (hg : s.group? gid = some g) (ht : s.task? g.task = some t)
    (hb : g.betweenRepeats = none) (hr : g.residency = .resident) (hp : g.preempt ≠ none) (hall : g.allParked = true) :
    s.preemptionSave gid = s.setGroup { g with preempt := none, residency := .saving 0 s.tick.toNat g.vgran } := by
  rw [State.preemptionSave, hg]
  dsimp only
  rw [ht]
  dsimp only
  rw [hb]
  dsimp only
  rw [if_pos ⟨hr, Option.isSome_iff_ne_none.mpr hp, hall⟩]

theorem State.preemptionSave_saves {s : State} {gid : Nat} {g : Group} {t : Task} {cause since live : Nat} (hg : s.group? gid = some g)
    (ht : s.task? g.task = some t) (hb : g.betweenRepeats = none) (hw : s.saveWaits g = false) (hr : g.residency = .saving cause since live) :
    s.preemptionSave gid = s.saveNow g t cause live := by
  rw [State.preemptionSave, hg]
  dsimp only
  rw [ht]
  dsimp only
  rw [hb]
  dsimp only
  rw [if_neg (fun h => by rw [hr] at h; cases h.1), if_neg (by rw [hw]; decide), hr]

theorem State.swapOut_saves {s : State} {gid : Nat} {g : Group} {t : Task} {since : Nat} (hg : s.group? gid = some g) (ht : s.task? g.task = some t)
    (hw : s.saveWaits g = false) (hs : g.parkedSince = some since) (hr : g.residency = .resident) (hall : g.allParked = true)
    (hth : (s.viOf t.vi).swap ≠ 0) (hlate : since + (s.viOf t.vi).swap < s.tick.toNat) : s.swapOut gid = s.saveNow g t 1 g.vgran := by
  rw [State.swapOut, hg]
  dsimp only
  rw [ht, hs]
  dsimp only
  rw [if_pos ⟨hr, hall, hth, hlate, by rw [hw]; rfl⟩]

theorem State.saveNow_some {s u : State} {g : Group} {t : Task} {cause live : Nat} (h : s.saveGroup g t cause live = some u) :
    s.saveNow g t cause live = u := by
  rw [State.saveNow, h]

theorem State.saveNow_none {s : State} {g : Group} {t : Task} {cause live : Nat} (h : s.saveGroup g t cause live = none) :
    s.saveNow g t cause live = s.fatal g 12 3 false := by
  rw [State.saveNow, h]

theorem State.preemptionOverrun_late {s : State} {gid : Nat} {g : Group} (hg : s.group? gid = some g) (hr : g.residency = .resident)
    (hp : 4096 ≤ g.preempt.getD 0) : s.preemptionOverrun gid = s.fatal g 12 1 false := by
  rw [State.preemptionOverrun, hg]
  dsimp only
  rw [if_pos ⟨hr, hp⟩]

theorem State.preemptionOverrun_early {s : State} {gid : Nat} {g : Group} (hg : s.group? gid = some g) (hp : g.preempt.getD 0 < 4096) :
    s.preemptionOverrun gid = s := by
  rw [State.preemptionOverrun, hg]
  dsimp only
  rw [if_neg (fun h => Nat.not_lt.mpr h.2 hp)]

theorem State.preemptionSaveTimeout_of {s : State} {gid : Nat} {g : Group} {since live : Nat} (hg : s.group? gid = some g)
    (hr : g.residency = .saving 0 since live) :
    s.preemptionSaveTimeout gid = if g.outs ≠ [] ∧ since + 1000000 < s.tick.toNat then s.fatal g 12 1 false else s := by
  rw [State.preemptionSaveTimeout, hg]
  dsimp only
  rw [hr]
  refine if_congr ?_ rfl rfl
  cases g.outs <;> simp

/-! ### A group comes back -/

theorem Group.restorePoison_none (g : Group) (live : Nat) :
    g.restorePoison live (fun _ => false) = { g with poisonV := [], poisonS := [], poisonP := [], poisonX := [] } := by
  simp [Group.restorePoison]

theorem State.restoreTeam_in {s : State} {t : Task} (h : t.teamSaved = false) : s.restoreTeam t = some s := by
  rw [State.restoreTeam, h]
  rfl

theorem State.poisonedAt_none {s : State} (h : s.mem.poison = []) (core vi va : Nat) : s.poisonedAt core vi va = false := by
  rw [State.poisonedAt, h]
  cases s.wordAt core vi va <;> rfl

theorem State.settleBarriers_none {s : State} {uid : Nat} {t : Task} (ht : s.task? uid = some t) (h : t.barriers.any Barrier.complete = false) :
    s.settleBarriers uid = s := by
  rw [State.settleBarriers, ht]
  dsimp only
  rw [if_neg (by rw [h]; decide)]

theorem State.endIfExited_live {s : State} {gid : Nat} {g : Group} (hg : s.group? gid = some g) (h : g.live ≠ 0) : s.endIfExited gid = s := by
  rw [State.endIfExited, hg]
  dsimp only
  rw [if_neg (fun hc => h hc.1)]

/-- A group that keeps a lane, and whose return completes no barrier, is the one that its area holds. -/
theorem State.restoreGroup_spec {s u : State} {gid : Nat} {g : Group} {t : Task} {live : Nat} (hg : s.group? gid = some g) (ht : s.task? g.task = some t)
    (h : s.restoreGroup g t live = some u) (hteam : t.teamSaved = false) (hpoison : s.mem.poison = []) :
    ∃ b, s.readRaw g.core t.vi (g.seg 5).1.toNat (g.offVec + 32 * g.width * live) = some b ∧
      let h := { g.restored live b with poisonV := [], poisonS := [], poisonP := [], poisonX := [] }
      (h.live ≠ 0 → (t.lanesGone h.num (fullMask h.width &&& ~~~h.live)).barriers.any Barrier.complete = false → u.group? gid = some h) := by
  obtain rfl := State.group?_gid hg
  rw [State.restoreGroup, State.restoreTeam_in hteam] at h
  dsimp only at h
  obtain ⟨b, hb, hu⟩ := Option.map_eq_some_iff.mp h
  refine ⟨b, hb, ?_⟩
  have hnone : (fun off => s.poisonedAt g.core t.vi (((g.seg 5).1.toNat + off) % 2 ^ 64)) = fun _ => false :=
    funext fun _ => State.poisonedAt_none hpoison _ _ _
  rw [hnone, Group.restorePoison_none] at hu
  have hgid : (g.restored live b).gid = g.gid := by
    rw [Group.restored_eq]
    cases (g.readBack live b).issueAddr with
    | none => rfl
    | some p => rw [Option.elim_some]; split <;> rfl
  intro h hlive hbar
  have hdef : ({ g.restored live b with poisonV := [], poisonS := [], poisonP := [], poisonX := [] } : Group) = h := rfl
  rw [hdef] at hu
  have hh : h.gid = g.gid := hgid
  clear_value h
  have huid : t.uid = g.task := beq_iff_eq.mp (List.find?_some (p := fun t : Task => t.uid == g.task) ht)
  have htask : (s.setGroup h).task? t.uid = some t := by
    rw [huid]
    exact ht
  rw [State.settleBarriers_none (State.task?_modTask _ _ (fun k => k.lanesGone h.num (fullMask h.width &&& ~~~h.live)) htask fun _ => rfl) hbar] at hu
  have hfound : ((s.setGroup h).modTask t.uid fun k => k.lanesGone h.num (fullMask h.width &&& ~~~h.live)).group? g.gid = some h := by
    rw [State.group?, State.modTask, State.setGroup]
    dsimp only
    rw [hh]
    exact find_modWhere_same (fun _ => h) (fun _ _ => hh) hg
  rw [State.endIfExited_live hfound hlive] at hu
  rw [← hu]
  exact hfound

theorem State.reinstatement_due {s : State} {gid : Nat} {g : Group} {t : Task} {cause live : Nat} (hg : s.group? gid = some g)
    (ht : s.task? g.task = some t) (hr : g.residency = .out cause live) (hwants : s.wantsBack g t cause = true)
    (hblock : s.blockFits g.core g.block g.width g.vgran = true) (hfits : s.groupFits g.core g.sgran 1 = true)
    (hteam : t.teamIn = true ∨ ∀ c ∈ t.cores, s.teamFits c t.tregs t.accs = true) :
    s.reinstatement gid = (s.restoreGroup g t live).getD (s.fatal g 12 3 false) := by
  have hroom : (t.teamIn || t.cores.all (fun c => s.teamFits c t.tregs t.accs)) = true := by
    rw [Bool.or_eq_true, List.all_eq_true]
    exact hteam
  rw [State.reinstatement, hg]
  dsimp only
  rw [ht, hr]
  dsimp only
  rw [if_pos (by rw [hwants, hblock, hfits, hroom]; rfl)]
  cases s.restoreGroup g t live <;> rfl

/-! ### A group's own stores in its area -/

theorem State.groupPut_one {s u : State} {g : Group} {vi va va0 : Nat} {bs : List Byte} {tr : Trans} (h : s.groupPut g vi va bs = (u, true))
    (hreach : s.reach g.core vi .write false va bs.length = .ok [(va0, bs.length, tr)]) (hhome : tr.home = true) (hoff : pieceOff va va0 = 0) (a : Nat) :
    u.mem.byte a = if tr.pa ≤ a ∧ a < tr.pa + bs.length then bs.getD (a - tr.pa) 0 else s.mem.byte a := by
  obtain ⟨hremote, hrepl, hlost⟩ := (Trans.home_iff tr).mp hhome
  rw [State.groupPut, hreach] at h
  dsimp only at h
  rw [if_neg (by simp [hlost, hremote])] at h
  have hu := (Prod.mk.inj h).1
  rw [List.foldl_cons, List.foldl_nil] at hu
  dsimp only at hu
  rw [hremote, if_neg (by decide), hrepl, hoff, List.drop_zero, List.take_length, State.store, if_neg (by decide)] at hu
  obtain ⟨-, hnote⟩ := s.noteTlb_frame g.core vi va0 tr
  rw [← hu, State.byte_storeAtom]
  congr 1
  rw [hnote]
  exact Mem.byte_congr rfl (fun _ => rfl) a

/-! ### Slices -/

theorem State.timeSliceExpiry_spec {s : State} {die pair : Nat} {u : Turn} (hl : 2 ≤ (s.sharers die pair).length) (hu : s.turn? die pair = some u)
    (hs : u.since + (s.viOf (s.running die pair)).slice ≤ s.tick.toNat) :
    (s.timeSliceExpiry die pair).turn? die pair = some ⟨die, pair, nextShare (s.sharers die pair) (s.running die pair), s.tick.toNat⟩ ∧
      (s.timeSliceExpiry die pair).mem = s.mem ∧ (s.timeSliceExpiry die pair).tasks = s.tasks := by
  have hframe : ∀ l : List Task, (l.foldl (fun u t => u.preemptTask t.uid) s).mem = s.mem ∧ (l.foldl (fun u t => u.preemptTask t.uid) s).tasks = s.tasks := fun l =>
    foldl_keeps (fun v : State => v.mem = s.mem ∧ v.tasks = s.tasks) _ (fun v t h => by rw [v.preemptTask_frame]; exact h) l s ⟨rfl, rfl⟩
  rw [State.timeSliceExpiry]
  dsimp only
  rw [if_pos (by rw [hu]; exact ⟨hl, hs⟩)]
  refine ⟨find?_upsert _ _ _ (by simp), (hframe _).1, (hframe _).2⟩

/-- Settles O40. -/
theorem residence : Obligations.Residence := by
  unfold Obligations.Residence
  refine ⟨fun s uid h => congrArg Host.Outcome.next (State.preemptTask_placed h), fun s gid g t hg ht => ?_, fun g cause live hw hc => ⟨rfl, fun b hb => areaHolds_of_blocks hw hc hb⟩,
    fun s g vi va bs u va0 tr h hreach hhome hoff => ?_, fun g cause live b hw h hparks => Group.restored_cameBack hw h hparks,
    fun s die pair u hl hu hs => ⟨_, rfl, State.timeSliceExpiry_spec hl hu hs⟩⟩
  · intro leaves
    refine ⟨fun hb hr hp hall => congrArg Host.Outcome.next (State.preemptionSave_starts hg ht hb hr hp hall), fun hb hw => ⟨fun cause since live hr => ⟨?_, fun hnone => ?_⟩, ?_⟩,
      fun hr hp => congrArg Host.Outcome.next (State.preemptionOverrun_late hg hr hp), fun hp => congrArg Host.Outcome.next (State.preemptionOverrun_early hg hp),
      fun since live hr => ?_, fun cause live hr hwants hblock hfits hteam => ?_⟩
    · intro u hu
      exact ⟨congrArg Host.Outcome.next ((State.preemptionSave_saves hg ht hb hw hr).trans (State.saveNow_some hu)), State.saveGroup_spec hg ht hu⟩
    · exact congrArg Host.Outcome.next ((State.preemptionSave_saves hg ht hb hw hr).trans (State.saveNow_none hnone))
    · intro since hs hr hall hth hlate u hu
      obtain ⟨h, hfound, hres, hrest⟩ := State.saveGroup_spec hg ht hu
      exact ⟨congrArg Host.Outcome.next ((State.swapOut_saves hg ht hw hs hr hall hth hlate).trans (State.saveNow_some hu)), h, hfound, hres, hrest⟩
    · have htimeout := State.preemptionSaveTimeout_of hg hr
      refine ⟨fun hne hlate => congrArg Host.Outcome.next (htimeout.trans (if_pos ⟨hne, hlate⟩)), fun hor => congrArg Host.Outcome.next (htimeout.trans (if_neg ?_))⟩
      rintro ⟨hne, hlate⟩
      exact hor.elim hne fun h => Nat.not_lt.mpr h hlate
    · have hback := State.reinstatement_due hg ht hr hwants hblock hfits hteam
      refine ⟨fun u hu => ⟨congrArg Host.Outcome.next (hback.trans (by rw [hu] <;> rfl)), State.restoreGroup_spec hg ht hu⟩,
        fun hnone => congrArg Host.Outcome.next (hback.trans (by rw [hnone] <;> rfl))⟩
  · have hbyte := State.groupPut_one h hreach hhome hoff
    refine ⟨fun j hj => ?_, fun pa hpa => ?_⟩
    · rw [hbyte, if_pos ⟨Nat.le_add_right _ _, Nat.add_lt_add_left hj _⟩, Nat.add_sub_cancel_left]
    · rw [hbyte, if_neg fun h => by omega]

end Sys2Proof.Machine
end

section
/-! Stores to memory of other chips and to REPL pages, and loads of them (R183, R189, R262, R272). -/
namespace Sys2Proof.Machine

/-! ### The pieces of a store -/

/-- The pieces of located accesses, each with its access. -/
def piecesOf (ls : List Located) : List (Located × Nat × Nat × Trans) := ls.flatMap (fun k => k.parts.map (fun p => (k, p)))

/-- The bytes that a store leaves in a piece. -/
def Ctx.pieceBytes (x : Ctx) (l : LArgs) (n : Nat) (c : Located × Nat × Nat × Trans) : List Byte :=
  ((x.dataBytes l n ((c.1.acc.lanes x.g.width).getLastD 0)).drop (pieceOff c.1.va c.2.1)).take c.2.2.1

/-- A piece as the statement of a store names it. -/
def Ctx.asStore (x : Ctx) (l : LArgs) (n : Nat) (c : Located × Nat × Nat × Trans) : Nat × Trans × List Byte := (c.2.1, c.2.2.2, x.pieceBytes l n c)

/-- The store of one piece. -/
def Ctx.writePiece (x : Ctx) (plain : Bool) (l : LArgs) (n : Nat) (t : State) (c : Located × Nat × Nat × Trans) : State :=
  x.writeAt t plain { c.1 with parts := [c.2] } (x.dataBytes l n ((c.1.acc.lanes x.g.width).getLastD 0))

theorem storePieces_eq (x : Ctx) (l : LArgs) (n : Nat) (ls : List Located) : storePieces x l n ls = (piecesOf ls).map (x.asStore l n) := by
  rw [storePieces, piecesOf, List.map_flatMap]
  refine List.flatMap_congr fun k _ => ?_
  rw [List.map_map]
  rfl

theorem Ctx.writes_eq (x : Ctx) (plain : Bool) (l : LArgs) (n : Nat) (ls : List Located) (s : State) :
    ls.foldl (fun t k => x.writeAt t plain k (x.dataBytes l n ((k.acc.lanes x.g.width).getLastD 0))) s = (piecesOf ls).foldl (x.writePiece plain l n) s := by
  rw [piecesOf, List.foldl_flatMap]
  congr 1
  funext t k
  rw [List.foldl_map]
  rfl

theorem mem_piecesOf {ls : List Located} {c : Located × Nat × Nat × Trans} : c ∈ piecesOf ls ↔ c.1 ∈ ls ∧ c.2 ∈ c.1.parts := by
  obtain ⟨k, p⟩ := c
  simp only [piecesOf, List.mem_flatMap, List.mem_map, Prod.mk.injEq]
  constructor
  · rintro ⟨k', hk', p', hp', rfl, rfl⟩
    exact ⟨hk', hp'⟩
  · exact fun h => ⟨k, h.1, p, h.2, rfl, rfl⟩

theorem localParts_far {ls : List Located} (h : ∀ c ∈ piecesOf ls, c.2.2.2.home = false) : localParts ls = [] := by
  refine List.flatMap_eq_nil_iff.mpr fun k hk => ?_
  rw [List.filter_eq_nil_iff.mpr fun p hp => ?_, List.map_nil]
  have hhome := h (k, p) (mem_piecesOf.mpr ⟨hk, hp⟩)
  rw [Trans.home] at hhome
  rw [hhome]
  exact Bool.false_ne_true

/-- A store whose pieces do not lie with homes of this package meets no race. -/
theorem Ctx.put4_far {x : Ctx} {l : LArgs} {n : Nat} {rel : Option Scope} {ls : List Located} (hseg : l.seg.toNat ≠ 1) (hsome : x.accs l ≠ [])
    (hinside : x.segFault l.seg.toNat n true rel.isSome (x.accs l) = none) (horder : x.orderWaits rel.isSome = false)
    (hpages : x.locate l.seg.toNat n .write false (x.accs l) = .ok ls) (hlens : x.lensBlocks ls = false) (hfar : ∀ c ∈ piecesOf ls, c.2.2.2.home = false) :
    x.put4 l n rel = .ok ((piecesOf ls).foldl (x.writePiece rel.isNone l n) (x.releasedBy rel)) := by
  have hrel : rel.filter (fun _ => x.syncs l.seg.toNat n (x.accs l)) = rel := by
    rw [Ctx.syncs, bne_iff_ne.mpr hseg]
    cases rel <;> rfl
  have hnorace : (if rel.isNone && x.l.race then raceTrap x.s x.g.gid x.agent true (localParts ls) else none) = none := by
    rw [localParts_far hfar]
    split <;> rfl
  have horder' : x.orderWaits (!rel.isNone) = false := by
    rw [show (!rel.isNone) = rel.isSome by cases rel <;> rfl]
    exact horder
  rw [Ctx.put4, hrel]
  simp only [hinside, List.isEmpty_eq_false_iff.mpr hsome, horder', hseg, hpages, hnorace, hlens, Bool.false_eq_true, if_false]
  rw [← x.writes_eq]
  rfl

/-! ### What becomes of a piece -/

theorem State.noteTlb_remote {s : State} {core vi va : Nat} {t : Trans} (h : t.remote = true) : s.noteTlb core vi va t = s := by
  rw [State.noteTlb, h, if_pos rfl]

/-- A plain store to another chip is on its way. -/
def Ctx.sends (x : Ctx) (t : State) (va : Nat) (bs : List Byte) : State :=
  { t with mem := { t.mem with posted := t.mem.posted ++ [⟨t.nextId, x.g.gid, x.t.vi, t.tick.toNat, va, bs⟩] }, nextId := t.nextId + 1 }

theorem Ctx.writePiece_remote {x : Ctx} {plain : Bool} {l : LArgs} {n : Nat} {t : State} {c : Located × Nat × Nat × Trans} (hr : c.2.2.2.remote = true)
    (hl : c.2.2.2.lost = false) : x.writePiece plain l n t c =
      if plain then x.sends t c.2.1 (x.pieceBytes l n c) else (x.sends t c.2.1 (x.pieceBytes l n c)).deliverWhere (fun q => q.gid == x.g.gid) := by
  rw [Ctx.writePiece, Ctx.writeAt, List.foldl_cons, List.foldl_nil, State.noteTlb_remote hr]
  simp only [hr, hl, Bool.false_eq_true, if_false, if_true]
  rfl

theorem Ctx.writePiece_repl {x : Ctx} {plain : Bool} {l : LArgs} {n : Nat} {t : State} {c : Located × Nat × Nat × Trans} (hr : c.2.2.2.remote = false)
    (hrepl : c.2.2.2.repl = true) (hl : c.2.2.2.lost = false) (hreds : ∀ r ∈ t.mem.reds, r.gid ≠ x.g.gid) : x.writePiece plain l n t c =
      (t.noteTlb x.g.core x.t.vi c.2.1 c.2.2.2).storeRepl x.g.gid x.agent c.2.2.2.pa (x.pieceBytes l n c) := by
  have hnone : (t.noteTlb x.g.core x.t.vi c.2.1 c.2.2.2).redsBefore x.g.gid c.2.2.2.pa c.2.2.1 = t.noteTlb x.g.core x.t.vi c.2.1 c.2.2.2 :=
    State.performReds_none fun q hq => by
      rw [(State.afterStores_of_reads (t.noteTlb_afterReads x.g.core x.t.vi c.2.1 c.2.2.2)).reds] at hq
      simp [hreds q hq]
  rw [Ctx.writePiece, Ctx.writeAt, List.foldl_cons, List.foldl_nil]
  simp only [hr, hrepl, hl, Bool.false_eq_true, if_false, hnone, State.store, if_true]
  rfl

theorem Ctx.writePiece_lost {x : Ctx} {plain : Bool} {l : LArgs} {n : Nat} {t : State} {c : Located × Nat × Nat × Trans} (hl : c.2.2.2.lost = true) :
    x.writePiece plain l n t c = (t.noteTlb x.g.core x.t.vi c.2.1 c.2.2.2).modGroup x.g.gid
      (fun g => g.countStore true false c.2.1 (t.noteTlb x.g.core x.t.vi c.2.1 c.2.2.2).fresh) := by
  rw [Ctx.writePiece, Ctx.writeAt, List.foldl_cons, List.foldl_nil]
  simp only [hl, if_true]

/-! ### Plain stores to other chips -/

theorem Ctx.foldl_sends (x : Ctx) (es : List (Nat × Trans × List Byte)) (s : State) :
    es.foldl (fun t e => x.sends t e.1 e.2.2) s =
      { s with
        mem := { s.mem with posted := s.mem.posted ++ es.mapIdx (fun j e => ⟨s.nextId + j, x.g.gid, x.t.vi, s.tick.toNat, e.1, e.2.2⟩) }
        nextId := s.nextId + es.length } := by
  induction es generalizing s with
  | nil => simp
  | cons e r ih =>
    rw [List.foldl_cons, ih]
    simp only [Ctx.sends, List.mapIdx_cons, List.append_assoc, List.cons_append, List.nil_append, Nat.add_zero, List.length_cons,
      Nat.add_assoc, Nat.add_comm 1]

theorem foldl_map_congr {α β γ : Type} {f : α → β → α} {g : α → γ → α} {h : β → γ} {P : α → Prop} {l : List β} (hf : ∀ a, P a → ∀ b ∈ l, f a b = g a (h b))
    (hP : ∀ a, P a → ∀ b ∈ l, P (f a b)) {a : α} (ha : P a) : l.foldl f a = (l.map h).foldl g a := by
  induction l generalizing a with
  | nil => rfl
  | cons b r ih =>
    rw [List.foldl_cons, List.map_cons, List.foldl_cons, ← hf a ha b List.mem_cons_self]
    exact ih (fun c hc d hd => hf c hc d (List.mem_cons_of_mem _ hd)) (fun c hc d hd => hP c hc d (List.mem_cons_of_mem _ hd)) (hP a ha b List.mem_cons_self)

theorem Ctx.writes_remote {x : Ctx} {l : LArgs} {n : Nat} {ls : List Located} (h : ∀ c ∈ piecesOf ls, c.2.2.2.remote = true ∧ c.2.2.2.lost = false) (s : State) :
    (piecesOf ls).foldl (x.writePiece true l n) s = (storePieces x l n ls).foldl (fun t e => x.sends t e.1 e.2.2) s := by
  rw [storePieces_eq]
  refine foldl_map_congr (P := fun _ => True) (fun t _ c hc => ?_) (fun _ _ _ _ => trivial) trivial
  rw [Ctx.writePiece_remote (h c hc).1 (h c hc).2, if_pos rfl]
  rfl

/-! ### Stores to replicas -/

theorem Mem.renewRepl_frame (m : Mem) (core pa n : Nat) : m.renewRepl core pa n =
    { m with stash := (m.renewRepl core pa n).stash, stashPoison := (m.renewRepl core pa n).stashPoison } := by
  refine foldl_keeps (fun k : Mem => k = { m with stash := k.stash, stashPoison := k.stashPoison }) _ (fun k l hk => ?_) _ m rfl
  refine foldl_keeps (fun k : Mem => k = { m with stash := k.stash, stashPoison := k.stashPoison }) _ (fun j a hj => ?_) _ k hk
  rw [hj] <;> rfl

theorem State.replLost_reds (s : State) (r : ReplWrite) : (s.replLost r).mem.reds = s.mem.reds := by
  rw [State.replLost]
  split <;> rfl

theorem State.replArrives_reds (s : State) (r : ReplWrite) : (s.replArrives r).mem.reds = s.mem.reds := by
  rw [State.replArrives]
  split
  · rfl
  · exact s.replLost_reds r

theorem State.storeRepl_reds (s : State) (gid : Nat) (ag : Agent) (pa : Nat) (bs : List Byte) : (s.storeRepl gid ag pa bs).mem.reds = s.mem.reds := by
  have h := foldl_keeps (fun u : State => u.mem.reds = s.mem.reds) State.replArrives (fun u r hu => (u.replArrives_reds r).trans hu)
    (withOlder ReplWrite.precedes (fun q => agentCore q.agent == agentCore ag && q.pa / 2 ^ 37 == pa / 2 ^ 37) s.mem.repls) s rfl
  rw [← State.flushRepls] at h
  rw [State.storeRepl]
  generalize s.flushRepls (fun q => agentCore q.agent == agentCore ag && q.pa / 2 ^ 37 == pa / 2 ^ 37) = u at h ⊢
  dsimp only
  cases agentCore ag with
  | none => exact h
  | some c =>
    dsimp only
    rw [Mem.renewRepl_frame]
    exact h

theorem Ctx.writes_repl {x : Ctx} {plain : Bool} {l : LArgs} {n : Nat} {ls : List Located}
    (h : ∀ c ∈ piecesOf ls, c.2.2.2.remote = false ∧ c.2.2.2.repl = true ∧ c.2.2.2.lost = false) {s : State} (hreds : ∀ r ∈ s.mem.reds, r.gid ≠ x.g.gid) :
    (piecesOf ls).foldl (x.writePiece plain l n) s =
      (storePieces x l n ls).foldl (fun t e => (t.noteTlb x.g.core x.t.vi e.1 e.2.1).storeRepl x.g.gid x.agent e.2.1.pa e.2.2) s := by
  rw [storePieces_eq]
  have hpiece : ∀ t : State, t.mem.reds = s.mem.reds → ∀ c ∈ piecesOf ls, x.writePiece plain l n t c =
      (t.noteTlb x.g.core x.t.vi c.2.1 c.2.2.2).storeRepl x.g.gid x.agent c.2.2.2.pa (x.pieceBytes l n c) := fun t ht c hc => by
    obtain ⟨hr, hrepl, hl⟩ := h c hc
    exact Ctx.writePiece_repl hr hrepl hl (by rw [ht]; exact hreds)
  refine foldl_map_congr (P := fun t : State => t.mem.reds = s.mem.reds) hpiece (fun t ht c hc => ?_) rfl
  rw [hpiece t ht c hc, State.storeRepl_reds, (t.noteTlb_frame x.g.core x.t.vi c.2.1 c.2.2.2).2]
  exact ht

theorem replicaOf_own (ag : Agent) (pa : Nat) : replicaFor ag pa = if agentDie ag < 4 then agentDie ag * 2 ^ 37 + pa % 2 ^ 37 else pa := rfl

/-- The home replica and the writer's own lie apart, or are the same. -/
theorem replicas_apart {pa n die : Nat} (hn : n ≤ 2 ^ 37) (h : die * 2 ^ 37 + pa % 2 ^ 37 ≠ pa) :
    pa + n ≤ die * 2 ^ 37 + pa % 2 ^ 37 ∨ die * 2 ^ 37 + pa % 2 ^ 37 + n ≤ pa := by
  omega

theorem get_twoWrites {st : Store 8} {pa own : Nat} {bs : List Byte} (h : own = pa ∨ pa + bs.length ≤ own ∨ own + bs.length ≤ pa) :
    (∀ i < bs.length, ((st.write pa bs).write own bs).get (pa + i) = bs.getD i 0 ∧ ((st.write pa bs).write own bs).get (own + i) = bs.getD i 0) ∧
    ∀ a, (a < pa ∨ pa + bs.length ≤ a) → (a < own ∨ own + bs.length ≤ a) → ((st.write pa bs).write own bs).get a = st.get a := by
  refine ⟨fun i hi => ⟨?_, ?_⟩, fun a h1 h2 => by rw [Store.get_write_out _ _ _ h2, Store.get_write_out _ _ _ h1]⟩
  · rcases h with rfl | h
    · rw [Store.get_write_in _ _ _ hi, List.getD_eq_getElem _ _ hi]
    · rw [Store.get_write_out _ _ _ (by omega), Store.get_write_in _ _ _ hi, List.getD_eq_getElem _ _ hi]
  · rw [Store.get_write_in _ _ _ hi, List.getD_eq_getElem _ _ hi]

/-- A store to a REPL page whose source has nothing on its way to the home before it. -/
theorem State.storeRepl_spec {s : State} {gid : Nat} {ag : Agent} {pa : Nat} {bs : List Byte} (hn : bs.length ≤ 2 ^ 37)
    (hclear : ∀ q ∈ s.mem.repls, ¬(agentCore q.agent = agentCore ag ∧ q.pa / 2 ^ 37 = pa / 2 ^ 37)) :
    let t := s.storeRepl gid ag pa bs
    let own := if agentDie ag < 4 then agentDie ag * 2 ^ 37 + pa % 2 ^ 37 else pa
    t = { s with mem := t.mem, nextId := s.nextId + 4 } ∧
    (∀ i < bs.length, t.mem.bytes.get (pa + i) = bs.getD i 0 ∧ t.mem.bytes.get (own + i) = bs.getD i 0) ∧
    (∀ a, (a < pa ∨ pa + bs.length ≤ a) → (a < own ∨ own + bs.length ≤ a) → t.mem.bytes.get a = s.mem.bytes.get a) ∧
    (∃ later, t.mem.repls = s.mem.repls ++ later ∧ ∀ q, q ∈ later ↔ ∃ d ∈ s.liveDies, q.pa = d * 2 ^ 37 + pa % 2 ^ 37 ∧ q.pa ≠ pa ∧ q.pa ≠ own ∧
      q.key = s.nextId + d ∧ q.store = s.nextId ∧ q.gid = gid ∧ q.agent = ag ∧ q.bytes = bs ∧ q.counted = false ∧
      q.va = (s.mem.homeVa.get (pa / 8192)).toNat * 8192) := by
  intro t own
  have hnone : s.flushRepls (fun q => agentCore q.agent == agentCore ag && q.pa / 2 ^ 37 == pa / 2 ^ 37) = s :=
    State.flushRepls_none fun q hq => by simpa using hclear q hq
  have ht : t = s.storeRepl gid ag pa bs := rfl
  have hown : own = replicaFor ag pa := rfl
  rw [State.storeRepl, hnone] at ht
  clear_value t own
  have hbytes : t.mem.bytes = (s.mem.bytes.write pa bs).write own bs := by
    rw [ht, hown]
    cases agentCore ag with
    | none => rfl
    | some c => dsimp only; rw [Mem.renewRepl_frame] <;> rfl
  have hapart : own = pa ∨ pa + bs.length ≤ own ∨ own + bs.length ≤ pa := by
    rw [hown, replicaOf_own]
    split
    · by_cases h : agentDie ag * 2 ^ 37 + pa % 2 ^ 37 = pa
      · exact .inl h
      · exact .inr (replicas_apart hn h)
    · exact .inl rfl
  obtain ⟨hin, hout⟩ := get_twoWrites (st := s.mem.bytes) hapart
  refine ⟨by rw [ht], by rw [hbytes]; exact hin, by rw [hbytes]; exact hout, _, by rw [ht], fun q => ?_⟩
  rw [List.mem_map]
  simp only [List.mem_filter, Bool.and_eq_true, decide_eq_true_eq]
  constructor
  · rintro ⟨d, ⟨hd, h1, h2⟩, rfl⟩
    exact ⟨d, hd, rfl, h1, hown ▸ h2, rfl, rfl, rfl, rfl, rfl, rfl, rfl⟩
  · rintro ⟨d, hd, hpa, h1, h2, hkey, hstore, hgid, hag, hbs, hcount, hva⟩
    refine ⟨d, ⟨hd, ?_, ?_⟩, ?_⟩
    · rw [replicaOf, ← hpa]
      exact h1
    · rw [replicaOf, ← hpa, ← hown]
      exact h2
    · obtain ⟨key, store, gid', ag', pa', va', counted, bs'⟩ := q
      subst hpa hkey hstore hgid hag hbs hcount hva
      rfl

/-! ### Stores that are lost -/

theorem State.group?_noteTlb (s : State) (core vi va : Nat) (t : Trans) (gid : Nat) : (s.noteTlb core vi va t).group? gid = s.group? gid := by
  rw [(s.noteTlb_frame core vi va t).1]
  rfl

theorem Ctx.writes_lost {x : Ctx} {plain : Bool} {l : LArgs} {n : Nat} {cs : List (Located × Nat × Nat × Trans)} (h : ∀ c ∈ cs, c.2.2.2.lost = true)
    {s : State} {g : Group} (hg : s.group? x.g.gid = some g) :
    ∃ k, (cs.foldl (x.writePiece plain l n) s).group? x.g.gid = some k ∧ k.delPkg.lost = g.delPkg.lost + cs.length ∧
      k.delPkg.refused = g.delPkg.refused ∧ ∀ pa, (cs.foldl (x.writePiece plain l n) s).mem.byte pa = s.mem.byte pa := by
  induction cs generalizing s g with
  | nil => exact ⟨g, hg, rfl, rfl, fun _ => rfl⟩
  | cons c r ih =>
    have hmem := (s.noteTlb_frame x.g.core x.t.vi c.2.1 c.2.2.2).2
    have hfound : (x.writePiece plain l n s c).group? x.g.gid = some (g.countStore true false c.2.1 (s.noteTlb x.g.core x.t.vi c.2.1 c.2.2.2).fresh) := by
      rw [Ctx.writePiece_lost (h c List.mem_cons_self)]
      exact State.group?_mapped ((s.group?_noteTlb _ _ _ _ _).trans hg) fun _ => rfl
    obtain ⟨k, hk, hlost, hrefused, hbyte⟩ := ih (fun d hd => h d (List.mem_cons_of_mem _ hd)) hfound
    refine ⟨k, hk, ?_, hrefused, fun pa => (hbyte pa).trans ?_⟩
    · rw [hlost, List.length_cons]
      exact Nat.add_right_comm _ _ _
    · rw [Ctx.writePiece_lost (h c List.mem_cons_self), State.modGroup_mem, hmem]
      exact Mem.byte_congr rfl (fun _ => rfl) pa

end Sys2Proof.Machine
end

section
/-! Stores to other chips that arrive at once (R189, R262), and O16. -/
namespace Sys2Proof.Machine

/-- A state after stores to other chips have arrived: memory, what monitors have seen, and fresh numbers; no word is newly registered or
poisoned, and nothing more is on its way. -/
structure State.delivers (t s : State) : Prop where
  beside : t.besideMemory { s with nextId := t.nextId }
  regs : ∀ r ∈ t.mem.regs, ∃ q ∈ s.mem.regs, q.owner = r.owner ∧ q.pa = r.pa
  poison : ∀ p ∈ t.mem.poison, p ∈ s.mem.poison
  perms : t.mem.remotePerms = s.mem.remotePerms
  fewer : ∀ q ∈ t.mem.posted, q ∈ s.mem.posted
  later : s.nextId ≤ t.nextId
  same : (∀ q ∈ s.mem.posted, q.key < s.nextId) → t.mem.posted = s.mem.posted

theorem State.delivers_refl (s : State) : s.delivers s :=
  ⟨s.besideMemory_refl, fun r h => ⟨r, h, rfl, rfl⟩, fun _ h => h, rfl, fun _ h => h, Nat.le_refl _, fun _ => rfl⟩

theorem State.besideMemory_renumber {t s : State} (h : t.besideMemory s) (n : Nat) : ({ t with nextId := n } : State).besideMemory { s with nextId := n } :=
  ⟨by rw [h.1], h.2⟩

theorem State.delivers_trans {u t s : State} (h : u.delivers t) (h' : t.delivers s) : u.delivers s := by
  refine ⟨State.besideMemory_trans h.beside (State.besideMemory_renumber h'.beside u.nextId), fun r hr => ?_, fun p hp => h'.poison p (h.poison p hp), h.perms.trans h'.perms,
    fun q hq => h'.fewer q (h.fewer q hq), h'.later.trans h.later, fun hkeys => ?_⟩
  · obtain ⟨q, hq, ho, hp⟩ := h.regs r hr
    obtain ⟨q', hq', ho', hp'⟩ := h'.regs q hq
    exact ⟨q', hq', ho'.trans ho, hp'.trans hp⟩
  · have ht := h'.same hkeys
    refine (h.same ?_).trans ht
    rw [ht]
    exact fun q hq => Nat.lt_of_lt_of_le (hkeys q hq) h'.later

theorem State.delivers.group? {t s : State} (h : t.delivers s) {gid : Nat} {g : Group} (hg : s.group? gid = some g) :
    ∃ k, t.group? gid = some k ∧ k.core = g.core := by
  obtain ⟨k, hk, hkg⟩ := find?_forall₂ (R := fun a b : Group => a = { b with mon := a.mon }) (p := fun k : Group => k.gid == gid)
    (q := fun k : Group => k.gid == gid) (fun a b hab => by rw [hab]) (id h.beside.2 : List.Forall₂ _ t.groups s.groups) hg
  exact ⟨k, hk, by rw [hkg]⟩

/-- What is in reach stays in reach. -/
theorem State.delivers.outOfReach {t s : State} (h : t.delivers s) {die pa n : Nat} (hs : s.outOfReach die pa n = false) : t.outOfReach die pa n = false := by
  have hdies : t.dies = s.dies := (congrArg State.dies h.beside.1 :)
  have hfabric : t.fabric = s.fabric := (congrArg State.fabric h.beside.1 :)
  have hlost : t.homeLost pa = s.homeLost pa := by
    rw [State.homeLost, State.homeLost, State.reachable, State.reachable, State.fenced, State.fenced, hdies, hfabric]
  have hpath : ∀ a b, t.path a b = s.path a b := fun a b => by
    simp only [State.path, State.iodUp, State.ringPath, State.ringUp, State.fenced, hdies, hfabric]
  simp only [State.outOfReach, Bool.or_eq_false_iff] at hs ⊢
  obtain ⟨⟨h1, h2⟩, h3⟩ := hs
  refine ⟨⟨hlost.trans h1, by rw [hpath]; exact h2⟩, ?_⟩
  rw [State.cutOwner, List.any_eq_false] at h3 ⊢
  intro r hr
  obtain ⟨q, hq, ho, hp⟩ := h.regs r hr
  rw [← ho, ← hp, hpath]
  exact h3 q hq

theorem State.delivers.homeRefuses {t s : State} (h : t.delivers s) (pa : Nat) : t.homeRefuses pa = s.homeRefuses pa := by
  simp only [State.homeRefuses, h.perms]

theorem State.delivers.poisonPart {t s : State} (h : t.delivers s) {pa n : Nat} (hs : s.mem.poisonPart pa n = false) : t.mem.poisonPart pa n = false := by
  rw [Mem.poisonPart, List.any_eq_false] at hs ⊢
  exact fun p hp => hs p (h.poison p hp)

/-! ### One store that arrives -/

theorem State.deviceWrite_mem (s : State) (pa : Nat) (bs : List Byte) :
    (s.deviceWrite pa bs).mem = (s.mem.writeBackAll ((wordParts pa bs).map (·.1))).writeHome pa bs := by
  simp only [State.deviceWrite, State.watches_mem]

/-- A write by the device, after which a core renews its copies. -/
def State.writeRenewed (s : State) (core pa : Nat) (bs : List Byte) : State :=
  { s.deviceWrite pa bs with mem := (wordParts pa bs).foldl (fun m p => m.renew core p.1) (s.deviceWrite pa bs).mem }

theorem State.remoteStore_eq (s : State) (core vi va : Nat) (bs : List Byte) :
    s.remoteStore core vi va bs = s.writeRenewed core (remoteKey vi va) bs := rfl

theorem State.writeRenewed_spec (s : State) (core pa : Nat) (bs : List Byte) :
    (s.writeRenewed core pa bs).besideMemory s ∧ (∀ r ∈ (s.writeRenewed core pa bs).mem.regs, r ∈ s.mem.regs) ∧
    (∀ p ∈ (s.writeRenewed core pa bs).mem.poison, p ∈ s.mem.poison) ∧
    (s.writeRenewed core pa bs).mem.remotePerms = s.mem.remotePerms ∧ (s.writeRenewed core pa bs).mem.posted = s.mem.posted ∧
    ∀ a, (s.writeRenewed core pa bs).mem.byte a = if pa ≤ a ∧ a < pa + bs.length then bs.getD (a - pa) 0 else s.mem.byte a := by
  have hre : (s.writeRenewed core pa bs).mem.rereads (s.deviceWrite pa bs).mem := Mem.rereads_foldl fun n _ p _ => n.renew_rereads core p.1
  have hmem : (s.deviceWrite pa bs).mem.remotePerms = s.mem.remotePerms ∧ (s.deviceWrite pa bs).mem.posted = s.mem.posted ∧
      ∀ p ∈ (s.deviceWrite pa bs).mem.poison, p ∈ s.mem.poison := by
    rw [State.deviceWrite_mem, Mem.writeBackAll_frame]
    exact ⟨rfl, rfl, fun p hp => List.mem_of_mem_filter hp⟩
  refine ⟨State.besideMemory_trans (State.besideMemory_mem _ _) (s.deviceWrite_besideMemory _ _), fun r hr => ?_, fun p hp => ?_, ?_, ?_, fun a => ?_⟩
  · rw [hre.regs] at hr
    exact State.deviceWrite_regs_mem hr
  · rw [hre.frame] at hp
    exact hmem.2.2 p hp
  · rw [hre.frame]
    exact hmem.1
  · rw [hre.frame]
    exact hmem.2.1
  · rw [hre.byte, State.byte_deviceWrite]

/-- The group's store to another chip, with nothing of the group on its way before it, arrives. -/
theorem Ctx.sends_delivered {x : Ctx} {t : State} {g : Group} {va : Nat} {bs : List Byte} (hg : t.group? x.g.gid = some g) (hcore : g.core = x.g.core)
    (hposted : ∀ q ∈ t.mem.posted, q.gid ≠ x.g.gid) (hreach : t.outOfReach (dieOf x.g.core) (remoteKey x.t.vi va) bs.length = false)
    (hrefuses : t.homeRefuses (remoteKey x.t.vi va) = false) (hpoison : t.mem.poisonPart (remoteKey x.t.vi va) bs.length = false) :
    ((x.sends t va bs).deliverWhere (fun q => q.gid == x.g.gid)).delivers t ∧
    ∀ a, ((x.sends t va bs).deliverWhere (fun q => q.gid == x.g.gid)).mem.byte a =
      if remoteKey x.t.vi va ≤ a ∧ a < remoteKey x.t.vi va + bs.length then bs.getD (a - remoteKey x.t.vi va) 0 else t.mem.byte a := by
  have hfilter : (x.sends t va bs).mem.posted.filter (fun q => q.gid == x.g.gid) = [⟨t.nextId, x.g.gid, x.t.vi, t.tick.toNat, va, bs⟩] := by
    rw [Ctx.sends, List.filter_append, List.filter_eq_nil_iff.mpr fun q hq => by simpa using hposted q hq]
    simp
  let v : State := { t with
    mem := { t.mem with posted := (x.sends t va bs).mem.posted.filter (fun q => q.key != t.nextId) }
    nextId := t.nextId + 1 }
  have hone : (x.sends t va bs).deliverWhere (fun q => q.gid == x.g.gid) = v.writeRenewed g.core (remoteKey x.t.vi va) bs := by
    have hdie : v.groupDie x.g.gid = dieOf x.g.core := by
      have hv : v.group? x.g.gid = some g := hg
      rw [State.groupDie, hv, Option.map_some, Option.getD_some, hcore]
    have hv : v.group? x.g.gid = some g := hg
    have h1 : v.outOfReach (v.groupDie x.g.gid) (remoteKey x.t.vi va) bs.length = false := by
      rw [hdie]
      exact hreach
    have h2 : (v.homeRefuses (remoteKey x.t.vi va) || v.mem.poisonPart (remoteKey x.t.vi va) bs.length) = false :=
      Bool.or_eq_false_iff.mpr ⟨hrefuses, hpoison⟩
    rw [State.deliverWhere, hfilter, List.foldl_cons, List.foldl_nil, State.deliverPosted]
    show (if v.outOfReach (v.groupDie x.g.gid) (remoteKey x.t.vi va) bs.length then _
      else if v.homeRefuses (remoteKey x.t.vi va) || v.mem.poisonPart (remoteKey x.t.vi va) bs.length then _ else v.writeAway x.g.gid x.t.vi va bs) = _
    rw [h1, if_neg Bool.false_ne_true, h2, if_neg Bool.false_ne_true, State.writeAway, hv] <;> rfl
  obtain ⟨hbeside, hregs, hpois, hperms, hsame, hbyte⟩ := v.writeRenewed_spec g.core (remoteKey x.t.vi va) bs
  have hnext : (v.writeRenewed g.core (remoteKey x.t.vi va) bs).nextId = t.nextId + 1 := (congrArg State.nextId hbeside.1 :)
  rw [hone]
  refine ⟨⟨?_, fun r hr => ⟨r, hregs r hr, rfl, rfl⟩, hpois, hperms, fun q hq => ?_, by rw [hnext]; exact Nat.le_succ _, fun hkeys => ?_⟩, hbyte⟩
  · rw [hnext]
    exact State.besideMemory_trans hbeside (State.besideMemory_mem { t with nextId := t.nextId + 1 } _)
  · rw [hsame] at hq
    obtain ⟨hq, hkey⟩ := List.mem_filter.mp hq
    rcases List.mem_append.mp hq with hq | hq
    · exact hq
    · obtain rfl := List.mem_singleton.mp hq
      simp at hkey
  · rw [hsame]
    show (t.mem.posted ++ [_]).filter _ = _
    rw [List.filter_append, List.filter_eq_self.mpr fun q hq => by simpa using Nat.ne_of_lt (hkeys q hq)]
    simp

end Sys2Proof.Machine
end

section
/-! Stores to other chips that arrive at once, where each byte ends up (R189, R262). -/
namespace Sys2Proof.Machine

/-- The byte that a piece of a store to another chip leaves at one of the names of its bytes here. -/
def Ctx.leftAt (x : Ctx) (name : Nat → Nat) (l : LArgs) (n pa : Nat) (c : Located × Nat × Nat × Trans) : Option Byte :=
  if name c.2.1 ≤ pa ∧ pa < name c.2.1 + (x.pieceBytes l n c).length then some ((x.pieceBytes l n c).getD (pa - name c.2.1) 0) else none

/-- A located access at the names of its bytes here. -/
def Located.renamed (name : Nat → Nat) (k : Located) : Located :=
  { k with parts := k.parts.map (fun p => (p.1, p.2.1, { p.2.2 with pa := name p.1 })) }

theorem atRemote_eq (vi : Nat) : atRemote vi = Located.renamed (remoteKey vi) := rfl

/-- A piece of a store to another chip that can be delivered there. -/
structure Ctx.deliverable (x : Ctx) (l : LArgs) (n : Nat) (c : Located × Nat × Nat × Trans) (s : State) : Prop where
  remote : c.2.2.2.remote = true
  kept : c.2.2.2.lost = false
  reach : s.outOfReach (dieOf x.g.core) (remoteKey x.t.vi c.2.1) (x.pieceBytes l n c).length = false
  taken : s.homeRefuses (remoteKey x.t.vi c.2.1) = false
  whole : s.mem.poisonPart (remoteKey x.t.vi c.2.1) (x.pieceBytes l n c).length = false

theorem Ctx.deliverable_after {x : Ctx} {l : LArgs} {n : Nat} {c : Located × Nat × Nat × Trans} {t s : State} (h : t.delivers s)
    (hc : x.deliverable l n c s) : x.deliverable l n c t :=
  ⟨hc.remote, hc.kept, h.outOfReach hc.reach, (h.homeRefuses _).trans hc.taken, h.poisonPart hc.whole⟩

/-- Every piece arrives, and of several stores to a byte the last one stays. -/
theorem Ctx.writes_delivered {x : Ctx} {l : LArgs} {n : Nat} {cs : List (Located × Nat × Nat × Trans)} {s : State} {g : Group}
    (hcs : ∀ c ∈ cs, x.deliverable l n c s) (hg : s.group? x.g.gid = some g) (hcore : g.core = x.g.core) (hposted : ∀ q ∈ s.mem.posted, q.gid ≠ x.g.gid) :
    (cs.foldl (x.writePiece false l n) s).delivers s ∧
    ∀ pa, (cs.foldl (x.writePiece false l n) s).mem.byte pa = (cs.reverse.findSome? (x.leftAt (remoteKey x.t.vi) l n pa)).getD (s.mem.byte pa) := by
  induction cs generalizing s g with
  | nil => exact ⟨s.delivers_refl, fun _ => rfl⟩
  | cons c r ih =>
    obtain ⟨hremote, hkept, hreach, htaken, hwhole⟩ := hcs c List.mem_cons_self
    obtain ⟨hone, hbytes⟩ := Ctx.sends_delivered hg hcore hposted hreach htaken hwhole
    have hpiece : x.writePiece false l n s c = (x.sends s c.2.1 (x.pieceBytes l n c)).deliverWhere (fun q => q.gid == x.g.gid) := by
      rw [Ctx.writePiece_remote hremote hkept, if_neg Bool.false_ne_true]
    rw [← hpiece] at hone hbytes
    obtain ⟨k, hk, hkcore⟩ := hone.group? hg
    rw [List.foldl_cons]
    obtain ⟨hrest, hget⟩ := ih (fun d hd => Ctx.deliverable_after hone (hcs d (List.mem_cons_of_mem _ hd))) hk (hkcore.trans hcore)
      fun q hq => hposted q (hone.fewer q hq)
    refine ⟨State.delivers_trans hrest hone, fun pa => (hget pa).trans ?_⟩
    rw [List.reverse_cons, List.findSome?_append, List.findSome?_cons, List.findSome?_nil]
    cases r.reverse.findSome? (x.leftAt (remoteKey x.t.vi) l n pa) with
    | some b => rfl
    | none =>
      rw [Option.none_or, Option.getD_none, hbytes, Ctx.leftAt]
      split <;> rfl

theorem findSome?_flatMap {α β γ : Type} (l : List α) (f : α → List β) (g : β → Option γ) :
    (l.flatMap f).findSome? g = l.findSome? (fun a => (f a).findSome? g) := by
  induction l with
  | nil => rfl
  | cons a r ih =>
    rw [List.flatMap_cons, List.findSome?_append, ih, List.findSome?_cons]
    cases (f a).findSome? g <;> rfl

theorem findSome?_congr_mem {α β : Type} {l : List α} {f g : α → Option β} (h : ∀ a ∈ l, f a = g a) : l.findSome? f = l.findSome? g := by
  induction l with
  | nil => rfl
  | cons a r ih => rw [List.findSome?_cons, List.findSome?_cons, h a List.mem_cons_self, ih fun b hb => h b (List.mem_cons_of_mem _ hb)]

/-- What the pieces leave is what the accesses store, at the names of the bytes here. -/
theorem leftAt_storedAt {x : Ctx} (name : Nat → Nat) {l : LArgs} {sz : Size} {ls : List Located}
    (hin : ∀ k ∈ ls, ∀ p ∈ k.parts, pieceOff k.va p.1 + p.2.1 ≤ sz.bytes) (pa : Nat) :
    (piecesOf ls).reverse.findSome? (x.leftAt name l sz.bytes pa) = storedAt (ls.map (Located.renamed name)) (x.dataByte l) pa := by
  rw [storedAt_eq, piecesOf, List.reverse_flatMap, findSome?_flatMap, ← List.map_reverse, List.findSome?_map]
  refine findSome?_congr_mem fun k hk => ?_
  have hk := hin k (List.mem_reverse.mp hk)
  rw [Function.comp_apply, Function.comp_apply, ← List.map_reverse, List.findSome?_map, Ctx.putAt, Located.indexOf_eq, Located.renamed, ← List.map_reverse,
    List.findSome?_map, List.map_findSome?]
  refine findSome?_congr_mem fun p hp => ?_
  have hle := hk p (List.mem_reverse.mp hp)
  have hlen : (x.pieceBytes l sz.bytes (k, p)).length = p.2.1 := by
    rw [Ctx.pieceBytes, List.length_take, List.length_drop, Ctx.dataBytes_length]
    exact Nat.min_eq_left (by dsimp only; omega)
  simp only [Function.comp_apply, Ctx.leftAt, pieceIndex, hlen]
  generalize name p.1 = key
  split
  next h =>
    rw [Option.map_some, ← x.dataBytes_getD l sz k.acc (i := pieceOff k.va p.1 + (pa - key)) (by omega), Ctx.pieceBytes,
      List.getD_eq_getElem?_getD, List.getElem?_take_of_lt (by dsimp only; omega), List.getElem?_drop, ← List.getD_eq_getElem?_getD]
  next => rfl

end Sys2Proof.Machine
end

section
/-! Loads of other chips' memory and of REPL pages, and O16 (R183, R189, R262, R272). -/
namespace Sys2Proof.Machine

/-! ### Loads -/

/-- A state after loads that keep no copy in an L1: translations, and copies in mapped lines of the stash. -/
structure State.farReads (t s : State) : Prop where
  frame : t = { s with mem := t.mem }
  mem : t.mem = { s.mem with stash := t.mem.stash, stashPoison := t.mem.stashPoison, tlb := t.mem.tlb, homeVa := t.mem.homeVa }
  kept : t.mem.stashKept s.mem

theorem State.farReads_refl (s : State) : s.farReads s := ⟨rfl, rfl, fun _ _ => ⟨rfl, Iff.rfl⟩⟩

theorem State.farReads_trans {u t s : State} (h : u.farReads t) (h' : t.farReads s) : u.farReads s := by
  have hlines : t.mem.lines = s.mem.lines := by rw [h'.mem]
  refine ⟨by rw [h.frame, h'.frame], by rw [h.mem, h'.mem], fun k hk => ?_⟩
  have hk' : ¬ t.mem.cacheKey k := by rwa [Mem.cacheKey, hlines]
  exact ⟨(h.kept k hk').1.trans (h'.kept k hk).1, (h.kept k hk').2.trans (h'.kept k hk).2⟩

theorem State.farReads.read {t s : State} (h : t.farReads s) (pa n : Nat) : t.mem.read pa n = s.mem.read pa n := by
  rw [Mem.read, Mem.read]
  refine List.map_congr_left fun i _ => ?_
  rw [h.mem]
  exact Mem.byte_congr rfl (fun _ => rfl) _

theorem State.farReads.bytes {t s : State} (h : t.farReads s) : t.mem.bytes = s.mem.bytes := by rw [h.mem]

theorem State.noteTlb_farReads (s : State) (core vi va : Nat) (t : Trans) : (s.noteTlb core vi va t).farReads s := by
  obtain ⟨hframe, hmem⟩ := s.noteTlb_frame core vi va t
  refine ⟨hframe, by rw [hmem], fun k _ => ?_⟩
  rw [hmem]
  exact ⟨rfl, Iff.rfl⟩

theorem State.readRepl_farReads (s : State) (ag : Agent) (pa n : Nat) : (s.readRepl ag pa n).1.farReads s := by
  rw [State.readRepl]
  cases agentCore ag with
  | none => exact s.farReads_refl
  | some c => exact ⟨rfl, by dsimp only; rw [Mem.renewRepl_frame], (s.mem.renewRepl_rereads c pa n).kept⟩

/-- The bytes that a core reads in a piece of another chip's memory or of a REPL page. -/
def Ctx.farBytes (x : Ctx) (p : Nat × Nat × Trans) : List Byte :=
  if p.2.2.remote = true then x.s.mem.read (remoteKey x.t.vi p.1) p.2.1 else x.s.mem.bytes.read (replicaFor x.agent p.2.2.pa) p.2.1

theorem Ctx.readPart_far {x : Ctx} {m : Mem} {all : List Nat} {t : State} {plain : Bool} {p : Nat × Nat × Trans} (ht : t.farReads x.s)
    (hp : p.2.2.remote = true ∨ p.2.2.repl = true) :
    (x.readPart m all t plain p).1.farReads x.s ∧ (x.readPart m all t plain p).2 = x.farBytes p := by
  have hnote := State.farReads_trans (t.noteTlb_farReads x.g.core x.t.vi p.1 p.2.2) ht
  rw [Ctx.readPart, Ctx.farBytes]
  dsimp only
  split
  next hr =>
    refine ⟨hnote, ?_⟩
    rw [Mem.remoteRead, hnote.read]
  next hr =>
    rw [if_pos (hp.resolve_left hr)]
    refine ⟨State.farReads_trans (State.readRepl_farReads _ _ _ _) hnote, ?_⟩
    rw [State.readRepl, hnote.bytes]

theorem Ctx.readAt_far {x : Ctx} {m : Mem} {all : List Nat} {t : State} {plain : Bool} {k : Located} (ht : t.farReads x.s)
    (hk : ∀ p ∈ k.parts, p.2.2.remote = true ∨ p.2.2.repl = true) :
    (x.readAt m all t plain k).1.farReads x.s ∧ (x.readAt m all t plain k).2 = k.parts.flatMap x.farBytes := by
  rw [Ctx.readAt]
  have hparts : ∀ (ps : List (Nat × Nat × Trans)), ps ⊆ k.parts → ∀ acc : State × List Byte, acc.1.farReads x.s →
      (ps.foldl (fun acc p => let (s', b) := x.readPart m all acc.1 plain p; (s', acc.2 ++ b)) acc).1.farReads x.s ∧
      (ps.foldl (fun acc p => let (s', b) := x.readPart m all acc.1 plain p; (s', acc.2 ++ b)) acc).2 = acc.2 ++ ps.flatMap x.farBytes := by
    intro ps
    induction ps with
    | nil => exact fun _ acc ha => ⟨ha, by rw [List.flatMap_nil, List.append_nil] <;> rfl⟩
    | cons p r ih =>
      intro hsub acc ha
      obtain ⟨hread, hbytes⟩ := Ctx.readPart_far (m := m) (all := all) (plain := plain) ha (hk p (hsub List.mem_cons_self))
      obtain ⟨h1, h2⟩ := ih (fun q hq => hsub (List.mem_cons_of_mem _ hq)) ((x.readPart m all acc.1 plain p).1, acc.2 ++ (x.readPart m all acc.1 plain p).2) hread
      rw [List.foldl_cons]
      refine ⟨h1, h2.trans ?_⟩
      dsimp only
      rw [hbytes, List.flatMap_cons, List.append_assoc]
  exact hparts k.parts (List.Subset.refl _) (t, []) ht

theorem Ctx.readAll_far {x : Ctx} {f : LoadForm} {ls : List Located} (hsettle : x.settle x.s ls = x.s)
    (hfar : ∀ k ∈ ls, ∀ p ∈ k.parts, p.2.2.remote = true ∨ p.2.2.repl = true) :
    (x.readAll x.s f ls).1.farReads x.s ∧
      (x.readAll x.s f ls).2 = ls.flatMap (fun k => loadWrites f (k.acc.lanes x.g.width) (k.parts.flatMap x.farBytes)) := by
  rw [Ctx.readAll, hsettle]
  have hks : ∀ ks : List Located, ks ⊆ ls → ∀ acc : State × List RegWrite, acc.1.farReads x.s →
      (ks.foldl (fun acc k => let (t, bs) := x.readAt x.s.mem (wordsRead ls) acc.1 f.plain k; (t, acc.2 ++ loadWrites f (lanesOf x.g.width k.acc.mask) bs)) acc).1.farReads x.s ∧
      (ks.foldl (fun acc k => let (t, bs) := x.readAt x.s.mem (wordsRead ls) acc.1 f.plain k; (t, acc.2 ++ loadWrites f (lanesOf x.g.width k.acc.mask) bs)) acc).2 =
        acc.2 ++ ks.flatMap (fun k => loadWrites f (k.acc.lanes x.g.width) (k.parts.flatMap x.farBytes)) := by
    intro ks
    induction ks with
    | nil => exact fun _ acc ha => ⟨ha, by rw [List.flatMap_nil, List.append_nil] <;> rfl⟩
    | cons k r ih =>
      intro hsub acc ha
      obtain ⟨hread, hbytes⟩ := Ctx.readAt_far (m := x.s.mem) (all := wordsRead ls) (plain := f.plain) ha (hfar k (hsub List.mem_cons_self))
      obtain ⟨h1, h2⟩ := ih (fun q hq => hsub (List.mem_cons_of_mem _ hq)) ((x.readAt x.s.mem (wordsRead ls) acc.1 f.plain k).1,
        acc.2 ++ loadWrites f (lanesOf x.g.width k.acc.mask) (x.readAt x.s.mem (wordsRead ls) acc.1 f.plain k).2) hread
      rw [List.foldl_cons]
      refine ⟨h1, h2.trans ?_⟩
      dsimp only
      rw [hbytes, List.flatMap_cons, List.append_assoc]
      rfl
  exact hks ls (List.Subset.refl _) (x.s, []) x.s.farReads_refl

theorem far_of_pieces {ls : List Located} (h : ∀ k ∈ ls, ∀ p ∈ k.parts, p.2.2.remote = true ∨ p.2.2.repl = true) :
    ∀ c ∈ piecesOf ls, c.2.2.2.home = false := fun c hc => by
  obtain ⟨hk, hp⟩ := mem_piecesOf.mp hc
  rcases h c.1 hk c.2 hp with h | h <;> simp [Trans.home, h]

theorem Ctx.load_far {x : Ctx} {l : LArgs} {f : LoadForm} {ls : List Located} (hseg : l.seg.toNat ≠ 1) (hsome : x.accs l ≠ [])
    (hinside : x.segFault l.seg.toNat f.bytes false (!f.plain) (x.accs l) = none) (horder : x.orderWaits (!f.plain) = false)
    (hpages : x.locate l.seg.toNat f.bytes .read false (x.accs l) = .ok ls) (hclean : memPoison x.s x.agent x.t.vi ls = none)
    (hfar : ∀ k ∈ ls, ∀ p ∈ k.parts, p.2.2.remote = true ∨ p.2.2.repl = true) :
    x.load l f = .ok (x.outstanding (x.readAll x.s f ls).1 f.names false (x.readAll x.s f ls).2 0 .ready) := by
  have hform : { f with plain := f.plain || !x.syncs l.seg.toNat f.bytes (x.accs l) } = f := by
    rw [Ctx.syncs, bne_iff_ne.mpr hseg, Bool.true_or, Bool.not_true, Bool.or_false]
  have hnorace : (if f.plain && x.l.race then raceTrap x.s x.g.gid x.agent false (localParts ls) else none) = none := by
    rw [localParts_far (far_of_pieces hfar)]
    split <;> rfl
  rw [Ctx.load, hform]
  simp only [hinside, List.isEmpty_eq_false_iff.mpr hsome, horder, hseg, hpages, hnorace, hclean, Bool.false_eq_true, if_false]

/-! ### Stores -/

theorem Group.advance_delPkg (g : Group) : g.advance.delPkg = g.delPkg := by
  rw [Group.advance]
  split
  · rfl
  · split
    · rfl
    · dsimp only
      split
      · rfl
      · rfl

/-- A release neither registers nor unregisters a word. -/
theorem Ctx.releasedBy_delivers {x : Ctx} {rel : Option Scope} (hg : x.s.group? x.g.gid = some x.g) (hreds : x.noReds)
    (hsent : ∀ sc, rel = some sc → x.nothingSent sc) : (x.releasedBy rel).delivers x.s := by
  cases rel with
  | none => exact x.s.delivers_refl
  | some sc =>
    have hrel : x.releasedBy (some sc) = { x.s with mem := x.releaseMem sc } := Ctx.release_eq hg hreds (hsent sc rfl)
    obtain ⟨hmem, -⟩ := x.releaseMem_spec sc
    rw [hrel]
    refine ⟨State.besideMemory_mem _ _, fun r hr => ?_, fun p hp => ?_, by rw [hmem], fun q hq => ?_, Nat.le_refl _, fun _ => by rw [hmem]⟩
    · rw [hmem] at hr
      obtain ⟨q, hq, rfl⟩ := List.mem_map.mp (id hr : r ∈ x.releasedRegs sc)
      refine ⟨q, hq, ?_⟩
      split
      · exact ⟨rfl, rfl⟩
      · split <;> exact ⟨rfl, rfl⟩
    · rw [hmem] at hp
      exact hp
    · rw [hmem] at hq
      exact hq

/-- What a store does to memory of other chips and to replicas. -/
theorem stores_far {i : Instr} {l : LArgs} {sz : Size} {rel : Option Scope}
    (hexec : ∀ s, exec i s = issue i noDyn (fun _ => [dataName l (vregsOf sz.bytes) true, addrName l]) (fun y => y.put4 l sz.bytes rel) s)
    {s : State} {x : Ctx} {ls : List Located}
    (hx : Runs i (fun _ => [dataName l (vregsOf sz.bytes) true, addrName l]) s x) (hseg : l.seg.toNat ≠ 1) (hsome : x.accs l ≠ [])
    (hinside : x.segFault l.seg.toNat sz.bytes true rel.isSome (x.accs l) = none) (horder : x.orderWaits rel.isSome = false)
    (hpages : x.locate l.seg.toNat sz.bytes .write false (x.accs l) = .ok ls) (hlens : x.lensBlocks ls = false) :
    let es := storePieces x l sz.bytes ls
    ((∀ e ∈ es, e.2.1.remote = true ∧ e.2.1.lost = false) → rel = none →
      exec i s = .next { s.modGroup x.g.gid Group.advance with
        mem := { s.mem with posted := s.mem.posted ++ es.mapIdx (fun j e => ⟨s.nextId + j, x.g.gid, x.t.vi, s.tick.toNat, e.1, e.2.2⟩) }
        nextId := s.nextId + es.length }) ∧
    ((∀ e ∈ es, e.2.1.remote = true ∧ e.2.1.lost = false ∧ s.outOfReach (dieOf x.g.core) (remoteKey x.t.vi e.1) e.2.2.length = false ∧
        s.homeRefuses (remoteKey x.t.vi e.1) = false ∧ s.mem.poisonPart (remoteKey x.t.vi e.1) e.2.2.length = false) →
      x.noReds → (∀ sc, rel = some sc → x.nothingSent sc) → ∀ sc, rel = some sc →
      ∃ t, exec i s = .next t ∧ t.besideMemory { s.modGroup x.g.gid Group.advance with nextId := t.nextId } ∧
        (∀ pa, t.mem.byte pa = (storedAt (ls.map (atRemote x.t.vi)) (x.dataByte l) pa).getD (s.mem.byte pa)) ∧
        ((∀ q ∈ s.mem.posted, q.key < s.nextId) → t.mem.posted = s.mem.posted)) ∧
    ((∀ e ∈ es, e.2.1.remote = false ∧ e.2.1.repl = true ∧ e.2.1.lost = false) → x.noReds → (∀ sc, rel = some sc → x.nothingSent sc) →
      ∃ m : Mem, (rel = none → m = s.mem) ∧ (∀ sc, rel = some sc → x.releasedMem sc m) ∧
        exec i s = .next ((es.foldl (fun (t : State) e => (t.noteTlb x.g.core x.t.vi e.1 e.2.1).storeRepl x.g.gid x.agent e.2.1.pa e.2.2)
          { s with mem := m }).modGroup x.g.gid Group.advance)) ∧
    ((∀ e ∈ es, e.2.1.lost = true) → x.noReds → (∀ sc, rel = some sc → x.nothingSent sc) →
      ∃ t h, exec i s = .next t ∧ t.group? x.g.gid = some h ∧ h.delPkg.lost = x.g.delPkg.lost + es.length ∧
        h.delPkg.refused = x.g.delPkg.refused ∧ ∀ pa, t.mem.byte pa = s.mem.byte pa) := by
  have hs := ctxOf_state hx.1
  subst hs
  have hg := ctxOf_group hx.1
  have hrun : (∀ c ∈ piecesOf ls, c.2.2.2.home = false) →
      exec i x.s = .next (((piecesOf ls).foldl (x.writePiece rel.isNone l sz.bytes) (x.releasedBy rel)).modGroup x.g.gid Group.advance) := fun hfar =>
    exec_of_ok (hexec x.s) hx rfl (Ctx.put4_far hseg hsome hinside horder hpages hlens hfar) (noInd_of_formatL rfl)
  have hmem : ∀ {P : Nat × Trans × List Byte → Prop}, (∀ e ∈ storePieces x l sz.bytes ls, P e) → ∀ c ∈ piecesOf ls, P (x.asStore l sz.bytes c) := fun h c hc =>
    h _ (by rw [storePieces_eq]; exact List.mem_map_of_mem hc)
  have hn : sz.bytes < 2 ^ 64 := by cases sz <;> decide
  refine ⟨fun h hplain => ?_, fun h hreds hsent sc hsc => ?_, fun h hreds hsent => ?_, fun h hreds hsent => ?_⟩
  · have hpieces := hmem h
    rw [hrun fun c hc => by simp [Trans.home, show c.2.2.2.remote = true from (hpieces c hc).1], hplain]
    show Host.Outcome.next (((piecesOf ls).foldl (x.writePiece true l sz.bytes) x.s).modGroup x.g.gid Group.advance) = _
    rw [Ctx.writes_remote hpieces, Ctx.foldl_sends] <;> rfl
  · have hpieces := hmem h
    have hreleased := Ctx.releasedBy_delivers hg hreds hsent
    obtain ⟨k, hk, hkcore⟩ := hreleased.group? hg
    obtain ⟨-, -, hbyte⟩ := Ctx.releasedBy_spec hg hreds hsent
    obtain ⟨hdel, hget⟩ := Ctx.writes_delivered (x := x) (l := l) (n := sz.bytes) (cs := piecesOf ls) (s := x.releasedBy rel)
      (fun c hc => by
        obtain ⟨h1, h2, h3, h4, h5⟩ := hpieces c hc
        exact Ctx.deliverable_after hreleased ⟨h1, h2, h3, h4, h5⟩) hk hkcore
      (fun q hq => (hsent sc hsc).2.1 q (hreleased.fewer q hq))
    have hall := State.delivers_trans hdel hreleased
    have hnone : rel.isNone = false := by rw [hsc]; rfl
    rw [hnone] at hrun
    refine ⟨_, hrun fun c hc => by simp [Trans.home, show c.2.2.2.remote = true from (hpieces c hc).1], ?_, fun pa => ?_, hall.same⟩
    · exact State.besideMemory_advance hall.beside x.g.gid
    · rw [State.modGroup_mem, hget, hbyte, leftAt_storedAt (remoteKey x.t.vi) (Ctx.locate_pieces hpages hn), ← atRemote_eq]
  · have hpieces := hmem h
    obtain ⟨hframe, hrelmem, -⟩ := Ctx.releasedBy_spec hg hreds hsent
    refine ⟨(x.releasedBy rel).mem, fun hnone => by rw [hnone]; rfl, fun sc hsc => ?_, ?_⟩
    · rw [hsc, Ctx.releasedBy, Ctx.release_eq hg hreds (hsent sc hsc)]
      exact x.releaseMem_spec sc
    · rw [hrun fun c hc => by simp [Trans.home, show c.2.2.2.repl = true from (hpieces c hc).2.1], ← hframe,
        Ctx.writes_repl hpieces (by rw [hrelmem]; exact hreds)]
  · have hpieces := hmem h
    obtain ⟨hframe, -, hbyte⟩ := Ctx.releasedBy_spec hg hreds hsent
    have hfound : (x.releasedBy rel).group? x.g.gid = some x.g := by
      rw [hframe]
      exact hg
    obtain ⟨k, hk, hlost, hrefused, hbytes⟩ := Ctx.writes_lost (x := x) (plain := rel.isNone) (l := l) (n := sz.bytes) hpieces hfound
    refine ⟨_, k.advance, hrun fun c hc => by simp [Trans.home, show c.2.2.2.lost = true from hpieces c hc], State.group?_mapped hk Group.advance_gid, ?_, ?_, fun pa => ?_⟩
    · rw [Group.advance_delPkg, hlost, storePieces_eq, List.length_map]
    · rw [Group.advance_delPkg, hrefused]
    · rw [State.modGroup_mem, hbytes, hbyte]

/-- What a load reads of other chips' memory and of REPL pages. -/
theorem loads_far {i : Instr} {l : LArgs} {f : LoadForm}
    (hexec : ∀ s, exec i s = issue i noDyn (fun _ => [dataName l (vregsOf f.bytes) false, addrName l]) (fun y => y.load l f) s) {s : State} {x : Ctx}
    {ls : List Located} (hx : Runs i (fun _ => [dataName l (vregsOf f.bytes) false, addrName l]) s x) (hseg : l.seg.toNat ≠ 1) (hsome : x.accs l ≠ [])
    (hinside : x.segFault l.seg.toNat f.bytes false (!f.plain) (x.accs l) = none) (horder : x.orderWaits (!f.plain) = false)
    (hpages : x.locate l.seg.toNat f.bytes .read false (x.accs l) = .ok ls) (hclean : memPoison s x.agent x.t.vi ls = none)
    (hfar : ∀ k ∈ ls, ∀ p ∈ k.parts, p.2.2.remote = true ∨ p.2.2.repl = true) (hposted : ∀ q ∈ s.mem.posted, q.gid ≠ x.g.gid) :
    ∃ m : Mem, exec i s = .next { s.modGroup x.g.gid (fun g =>
        Group.advance { g with outs := g.outs ++ [⟨s.nextId, f.names, false, ls.flatMap (fun k => loadWrites f (k.acc.lanes x.g.width)
          (k.parts.flatMap (fun p => if p.2.2.remote = true then s.mem.read (remoteKey x.t.vi p.1) p.2.1
            else s.mem.bytes.read (replicaFor x.agent p.2.2.pa) p.2.1))), 0, .ready⟩] }) with mem := m, nextId := s.nextId + 1 } ∧
      m = { s.mem with stash := m.stash, stashPoison := m.stashPoison, tlb := m.tlb, homeVa := m.homeVa } ∧ m.stashKept s.mem := by
  have hs := ctxOf_state hx.1
  subst hs
  have hsettle : x.settle x.s ls = x.s := by
    refine foldl_fixed fun p hp => ?_
    obtain ⟨k, hk, hp⟩ := List.mem_flatMap.mp hp
    rw [Ctx.settlePart]
    split
    next => exact State.deliverWhere_none fun q hq => by simp [hposted q hq]
    next hr => rw [if_pos ((hfar k hk p hp).resolve_left hr)]
  obtain ⟨hafter, hwrites⟩ := Ctx.readAll_far (f := f) hsettle hfar
  refine ⟨(x.readAll x.s f ls).1.mem, ?_, hafter.mem, hafter.kept⟩
  have hrun := exec_of_outstanding (hexec x.s) hx rfl (Ctx.load_far hseg hsome hinside horder hpages hclean hfar) f.names_ne_nil (noInd_of_formatL rfl)
  rw [hwrites, hafter.frame] at hrun
  exact hrun

/-- Settles O16. -/
theorem remoteAndReplicas : Obligations.RemoteAndReplicas := by
  unfold Obligations.RemoteAndReplicas
  refine ⟨fun i l n plain hi s x ls hx hseg hsome hinside horder hpages hlens => ?_, fun s gid ag pa bs hn hclear => State.storeRepl_spec hn hclear,
    fun i l f hi s x ls hx hseg hsome hinside horder hpages hclean hfar hposted => ?_⟩
  · rcases hi with ⟨g, sz, sx, rfl, rfl, h, rfl⟩ | ⟨g, sz, sx, sc, rfl, rfl, h, rfl⟩ | ⟨g, sz, rfl, rfl, -, rfl⟩ | ⟨g, sz, sc, rfl, rfl, -, rfl⟩
    · cases h
    · cases h
    · obtain ⟨h1, -, h3, h4⟩ := stores_far (rel := none) (fun _ => rfl) hx hseg hsome hinside horder hpages hlens
      refine ⟨fun h _ => h1 h rfl, fun _ _ _ h => by (cases h), fun h hreds _ => ?_, fun h hreds _ => h4 h hreds fun _ h => by cases h⟩
      obtain ⟨m, hm, -, hexec⟩ := h3 h hreds fun _ h => by cases h
      exact ⟨m, fun _ => hm rfl, fun _ _ _ h => by (cases h), hexec⟩
    · obtain ⟨-, h2, h3, h4⟩ := stores_far (rel := some sc) (fun _ => rfl) hx hseg hsome hinside horder hpages hlens
      refine ⟨fun _ h => by (cases h), fun h hreds hsent _ => h2 h hreds (fun sc' h => by cases h; exact hsent g sz sc rfl) sc rfl, fun h hreds hsent => ?_,
        fun h hreds hsent => h4 h hreds fun sc' h => by cases h; exact hsent g sz sc rfl⟩
      obtain ⟨m, -, hm, hexec⟩ := h3 h hreds fun sc' h => by cases h; exact hsent g sz sc rfl
      exact ⟨m, fun h => by (cases h), fun _ _ sc' h => by cases h; exact hm sc rfl, hexec⟩
  · rcases hi with ⟨g, sz, sx, rfl, rfl⟩ | ⟨g, sz, sx, sc, rfl, rfl⟩
    · exact loads_far (fun _ => rfl) hx hseg hsome hinside horder hpages hclean hfar hposted
    · exact loads_far (fun _ => rfl) hx hseg hsome hinside horder hpages hclean hfar hposted

end Sys2Proof.Machine
end

section
/-! Where memory accesses trap: segment faults, page faults, races and poison (R64, R178, R268, R303, R306, R314, R318). -/
namespace Sys2Proof.Machine

/-! ### Masks of several lanes -/

theorem foldl_or_covers {α : Type} (f : α → DWord) {l : List α} {a : α} (h : a ∈ l) (m : DWord) :
    l.foldl (fun m e => m ||| f e) m &&& f a = f a ∧ ∀ b : DWord, m &&& b = b → l.foldl (fun m e => m ||| f e) m &&& b = b := by
  have hkeeps : ∀ (l : List α) (m b : DWord), m &&& b = b → l.foldl (fun m e => m ||| f e) m &&& b = b := by
    intro l
    induction l with
    | nil => exact fun m b h => h
    | cons c r ih =>
      intro m b h
      refine ih _ b (BitVec.eq_of_getLsbD_eq fun i hi => ?_)
      have hbit := congrArg (·.getLsbD i) h
      simp only [BitVec.getLsbD_and, BitVec.getLsbD_or] at hbit ⊢
      revert hbit
      cases m.getLsbD i <;> cases b.getLsbD i <;> simp
  refine ⟨?_, fun b hb => hkeeps l m b hb⟩
  induction l generalizing m with
  | nil => cases h
  | cons c r ih =>
    rcases List.mem_cons.mp h with rfl | h
    · exact hkeeps r _ _ (BitVec.eq_of_getLsbD_eq fun i hi => by simpa using .inr)
    · exact ih h _

theorem foldl_or_mask {α : Type} (f : α → DWord) {l : List α} {a : α} (h : a ∈ l) : l.foldl (fun m e => m ||| f e) 0 &&& f a = f a :=
  (foldl_or_covers f h 0).1

/-! ### Segment faults -/

/-- The subcodes of the segment fault that an access raises (R64). -/
def Ctx.subcodes (x : Ctx) (seg n : Nat) (write aligned : Bool) (a : Acc) : List Nat :=
  (if (x.g.seg seg).2.toNat < a.off + n then [0] else []) ++ (if write && (seg == 3 || seg == 4) then [1] else [])
    ++ (if aligned && ((x.g.seg seg).1.toNat + a.off) % n != 0 then [2] else [])

/-- The segment fault of the accesses that raise a subcode. -/
def segTrap (seg sub : Nat) (bad : List Acc) : Option Trap :=
  match bad with
  | [] => none
  | b :: r => some ⟨2, sub, (b :: r).foldl (fun m a => m ||| a.mask) 0, BitVec.ofNat 64 b.off, BitVec.ofNat 64 seg, 0, 0⟩

theorem Ctx.segFault_eq (x : Ctx) (seg n : Nat) (write aligned : Bool) (accs : List Acc) : x.segFault seg n write aligned accs =
    [0, 1, 2].findSome? (fun sub => segTrap seg sub (accs.filter (fun a => (x.subcodes seg n write aligned a).contains sub))) := rfl

theorem findSome?_lowest {α : Type} {f : Nat → Option α} {sub : Nat} (hsub : sub ∈ [0, 1, 2]) {a : α} (h : f sub = some a) :
    ∃ k ≤ sub, ∃ b, f k = some b ∧ [0, 1, 2].findSome? f = some b := by
  simp only [List.findSome?_cons, List.findSome?_nil]
  cases h0 : f 0 with
  | some b => exact ⟨0, Nat.zero_le _, b, h0, rfl⟩
  | none =>
    have hne : sub ≠ 0 := fun hs => by rw [hs, h0] at h; cases h
    cases h1 : f 1 with
    | some b => exact ⟨1, Nat.one_le_iff_ne_zero.mpr hne, b, h1, rfl⟩
    | none =>
      have hne' : sub ≠ 1 := fun hs => by rw [hs, h1] at h; cases h
      obtain rfl : sub = 2 := by simpa [hne, hne'] using hsub
      rw [h]
      exact ⟨2, Nat.le_refl _, a, h, rfl⟩

/-- The segment fault of some accesses: the lowest subcode that one raises, and the lanes of those that raise it. -/
theorem Ctx.segFault_some {x : Ctx} {seg n : Nat} {write aligned : Bool} {accs : List Acc} {a : Acc} {sub : Nat} (ha : a ∈ accs)
    (h : sub = 0 ∧ (x.g.seg seg).2.toNat < a.off + n ∨ sub = 1 ∧ write = true ∧ (seg = 3 ∨ seg = 4) ∨
      sub = 2 ∧ aligned = true ∧ ((x.g.seg seg).1.toNat + a.off) % n ≠ 0) :
    ∃ tr, x.segFault seg n write aligned accs = some tr ∧ tr.cls = 2 ∧ tr.sub ≤ sub ∧ (tr.sub = sub → tr.lanes &&& a.mask = a.mask) ∧
      tr.infoA = BitVec.ofNat 64 seg ∧ ∃ b ∈ accs, tr.addr = BitVec.ofNat 64 b.off := by
  have hmem : sub ∈ x.subcodes seg n write aligned a ∧ sub ∈ [0, 1, 2] := by
    rw [Ctx.subcodes]
    rcases h with ⟨rfl, h⟩ | ⟨rfl, hw, hs⟩ | ⟨rfl, hal, hm⟩
    · simp [h]
    · simp [hw, hs]
    · simp [hal, hm]
  have hbad : a ∈ accs.filter (fun a => (x.subcodes seg n write aligned a).contains sub) :=
    List.mem_filter.mpr ⟨ha, List.contains_iff_mem.mpr hmem.1⟩
  obtain ⟨tr, htr⟩ : ∃ tr, segTrap seg sub (accs.filter (fun a => (x.subcodes seg n write aligned a).contains sub)) = some tr := by
    cases hf : accs.filter (fun a => (x.subcodes seg n write aligned a).contains sub) with
    | nil => rw [hf] at hbad; cases hbad
    | cons b r => exact ⟨_, rfl⟩
  obtain ⟨k, hk, u, hu, hfound⟩ := findSome?_lowest (f := fun sub => segTrap seg sub (accs.filter (fun a => (x.subcodes seg n write aligned a).contains sub))) hmem.2 htr
  refine ⟨u, (x.segFault_eq _ _ _ _ _).trans hfound, ?_⟩
  cases hf : accs.filter (fun a => (x.subcodes seg n write aligned a).contains k) with
  | nil => simp only [hf, segTrap] at hu; cases hu
  | cons b r =>
    simp only [hf, segTrap] at hu
    obtain rfl := Option.some.inj hu
    refine ⟨rfl, hk, fun hsub => ?_, rfl, b, List.mem_of_mem_filter (hf ▸ List.mem_cons_self), rfl⟩
    subst hsub
    rw [hf] at hbad
    exact foldl_or_mask Acc.mask hbad

/-! ### Page faults -/

theorem PageFault.info_eq (e : PageFault) :
    e.info = BitVec.ofNat 64 (accCode e.acc + 16 * e.level + (if e.remote = true then 256 else 0) + 2 ^ 16 * e.chip) := by
  rw [PageFault.info]
  cases e.remote <;> rfl

/-- The page fault of several accesses: the first one's, for the lanes of all. -/
theorem Ctx.locate_error {x : Ctx} {seg n : Nat} {acc : Access} {atomic : Bool} {accs : List Acc} {a : Acc} {va : Nat} {e : PageFault} (ha : a ∈ accs)
    (h : x.locateOne seg n acc atomic a = .error (va, e)) :
    ∃ tr b vb eb, x.locate seg n acc atomic accs = .error tr ∧ tr.cls = 4 ∧ tr.lanes &&& a.mask = a.mask ∧
      b ∈ accs ∧ x.locateOne seg n acc atomic b = .error (vb, eb) ∧ tr.sub = eb.sub ∧ tr.addr = BitVec.ofNat 64 vb ∧
      tr.infoA = BitVec.ofNat 64 (accCode eb.acc + 16 * eb.level + (if eb.remote = true then 256 else 0) + 2 ^ 16 * eb.chip) := by
  let fault (r : Acc × Except (Nat × PageFault) Located) : Option (DWord × Nat × PageFault) :=
    match r.2 with | .error e => some (r.1.mask, e.1, e.2) | .ok _ => none
  have heq : x.locate seg n acc atomic accs = (match pageTrap ((accs.map (fun a => (a, x.locateOne seg n acc atomic a))).filterMap fault) with
      | some t => .error t
      | none => .ok ((accs.map (fun a => (a, x.locateOne seg n acc atomic a))).filterMap (fun r => r.2.toOption))) := rfl
  have hin : (a.mask, va, e) ∈ (accs.map (fun a => (a, x.locateOne seg n acc atomic a))).filterMap fault :=
    List.mem_filterMap.mpr ⟨_, List.mem_map_of_mem ha, by simp only [fault, h]⟩
  cases hl : (accs.map (fun a => (a, x.locateOne seg n acc atomic a))).filterMap fault with
  | nil => rw [hl] at hin; cases hin
  | cons p r =>
    have hp : p ∈ (accs.map (fun a => (a, x.locateOne seg n acc atomic a))).filterMap fault := hl ▸ List.mem_cons_self
    obtain ⟨q, hq, hfault⟩ := List.mem_filterMap.mp hp
    obtain ⟨b, hb, rfl⟩ := List.mem_map.mp hq
    cases hone : x.locateOne seg n acc atomic b with
    | ok k => simp only [fault, hone] at hfault; cases hfault
    | error f =>
      simp only [fault, hone] at hfault
      obtain rfl := Option.some.inj hfault
      rw [heq, hl]
      refine ⟨_, b, f.1, f.2, rfl, rfl, ?_, hb, hone, rfl, rfl, f.2.info_eq⟩
      rw [hl] at hin
      exact foldl_or_mask (fun e : DWord × Nat × PageFault => e.1) hin

/-! ### Races -/

theorem mem_racing {m : Mem} {gid pa n : Nat} {ag : Agent} {r : Reg} : r ∈ m.racing gid ag pa n ↔
    m.reg? r.pa = some r ∧ r.owner ≠ ag ∧ ∃ e ∈ r.plain, r.pa % 4 = 0 ∧ e.byte < 4 ∧ pa ≤ r.pa + e.byte ∧ r.pa + e.byte < pa + n ∧
      e.writer.own gid ag = false ∧ ∀ k ∈ e.rels, inScope k.paired k.agent k.scope ag = false := by
  have hlen : (List.replicate n (0 : Byte)).length = n := List.length_replicate
  have hbyte : ∀ (e : PlainByte) (j : Nat), (partAt pa (List.replicate n 0) j).2.1.getLsbD e.byte =
      (decide (e.byte < 4) && decide (pa ≤ wordOf pa + 4 * j + e.byte) && decide (wordOf pa + 4 * j + e.byte < pa + n)) := fun e j => by
    by_cases h : e.byte < 4
    · rw [partAt_mask _ _ _ h, hlen, decide_eq_true h, Bool.true_and]
    · rw [BitVec.getLsbD_of_ge _ _ (Nat.le_of_not_lt h), decide_eq_false h]
      rfl
  have hopen : ∀ j, r.openTo (partAt pa (List.replicate n 0) j).2.1 gid ag = true ↔
      ∃ e ∈ r.plain, (e.byte < 4 ∧ pa ≤ wordOf pa + 4 * j + e.byte) ∧ wordOf pa + 4 * j + e.byte < pa + n ∧
        e.writer.own gid ag = false ∧ ∀ k ∈ e.rels, inScope k.paired k.agent k.scope ag = false := fun j => by
    simp only [Reg.openTo, List.any_eq_true, Bool.and_eq_true, hbyte, decide_eq_true_eq, Bool.not_eq_true', List.any_eq_false, Bool.not_eq_true, and_assoc]
  rw [Mem.racing, wordParts_eq, hlen]
  simp only [List.mem_filterMap, List.mem_map, List.mem_range]
  constructor
  · rintro ⟨p, ⟨j, hj, rfl⟩, hp⟩
    cases hr : m.reg? (partAt pa (List.replicate n 0) j).1 with
    | none => rw [hr] at hp; cases hp
    | some q =>
      rw [hr] at hp
      dsimp only at hp
      split at hp
      · next hc =>
        obtain rfl := Option.some.inj hp
        have hpa : q.pa = wordOf pa + 4 * j := beq_iff_eq.mp (List.find?_some (p := fun r : Reg => r.pa == wordOf pa + 4 * j) hr)
        rw [Bool.and_eq_true, hopen] at hc
        obtain ⟨ho, e, he, ⟨h1, h2⟩, h3, h4, h5⟩ := hc
        rw [← hpa] at h2 h3
        refine ⟨by rw [hpa]; exact hr, of_decide_eq_true ho, e, he, ?_, h1, h2, h3, h4, h5⟩
        rw [hpa, wordOf]
        omega
      · cases hp
  · rintro ⟨hr, ho, e, he, hal, h1, h2, h3, h4, h5⟩
    have hword : r.pa = wordOf pa + 4 * (r.pa / 4 - pa / 4) := by
      rw [wordOf]
      omega
    refine ⟨_, ⟨r.pa / 4 - pa / 4, by omega, rfl⟩, ?_⟩
    have hfound : m.reg? (partAt pa (List.replicate n 0) (r.pa / 4 - pa / 4)).1 = some r := by
      show m.reg? (wordOf pa + 4 * (r.pa / 4 - pa / 4)) = some r
      rw [← hword]
      exact hr
    rw [hfound]
    dsimp only
    rw [if_pos]
    rw [Bool.and_eq_true, hopen, ← hword]
    exact ⟨decide_eq_true ho, e, he, ⟨h1, h2⟩, h3, h4, h5⟩

end Sys2Proof.Machine
end

section
/-! Which traps a memory instruction takes, and those of its registers (R51, R57, R182, R268, R306, R318). -/
namespace Sys2Proof.Machine

/-- The places where accesses race: lanes, the address of the word, and its registration. -/
def raceHits (x : Ctx) (ls : List Located) : List (DWord × Nat × Reg) :=
  (localParts ls).flatMap (fun e => (x.s.mem.racing x.g.gid x.agent e.2.2.1 e.2.2.2).map (fun r => (e.1, alignDown e.2.1 4 + (r.pa - wordOf e.2.2.1), r)))

theorem mem_raceHits {x : Ctx} {ls : List Located} {h : DWord × Nat × Reg} : h ∈ raceHits x ls ↔
    ∃ k ∈ ls, ∃ p ∈ k.parts, localPiece p ∧ racesOn x p.2.2.pa p.2.1 h.2.2 ∧ h.1 = k.acc.mask ∧ h.2.1 = alignDown p.1 4 + (h.2.2.pa - wordOf p.2.2.pa) := by
  obtain ⟨m, va, r⟩ := h
  simp only [raceHits, localParts, List.mem_flatMap, List.mem_map, List.mem_filter, mem_racing, racesOn, localPiece, Bool.and_eq_true,
    Bool.not_eq_true', Prod.mk.injEq]
  constructor
  · rintro ⟨e, ⟨k, hk, p, ⟨hp, ⟨h1, h2⟩, h3⟩, rfl⟩, q, hq, rfl, rfl, rfl⟩
    exact ⟨k, hk, p, hp, ⟨h1, h2, h3⟩, hq, rfl, rfl⟩
  · rintro ⟨k, hk, p, hp, ⟨h1, h2, h3⟩, hr, rfl, rfl⟩
    exact ⟨_, ⟨k, hk, p, ⟨hp, ⟨h1, h2⟩, h3⟩, rfl⟩, r, hr, rfl, rfl, rfl⟩

/-- Accesses of which one races take the trap of the first word that one races on, for every lane that races on it. -/
theorem raceTrap_some {x : Ctx} {ls : List Located} {write : Bool} {k : Located} {p : Nat × Nat × Trans} {r : Reg} (hk : k ∈ ls) (hp : p ∈ k.parts)
    (hl : localPiece p) (hr : racesOn x p.2.2.pa p.2.1 r) :
    ∃ tr q pq kq, raceTrap x.s x.g.gid x.agent write (localParts ls) = some tr ∧ tr.cls = 5 ∧ tr.sub = 0 ∧ kq ∈ ls ∧ pq ∈ kq.parts ∧ localPiece pq ∧
      racesOn x pq.2.2.pa pq.2.1 q ∧ tr.addr = BitVec.ofNat 64 (alignDown pq.1 4 + (q.pa - wordOf pq.2.2.pa)) ∧
      tr.infoA = BitVec.ofNat 64 (agentCode q.owner.kind + 8 * (if write = true then 1 else 0) + 2 ^ 16 * q.owner.id) ∧
      (q = r → tr.lanes &&& k.acc.mask = k.acc.mask) := by
  have hhit : (k.acc.mask, alignDown p.1 4 + (r.pa - wordOf p.2.2.pa), r) ∈ raceHits x ls := mem_raceHits.mpr ⟨k, hk, p, hp, hl, hr, rfl, rfl⟩
  rw [raceTrap, ← raceHits]
  cases hh : raceHits x ls with
  | nil => rw [hh] at hhit; cases hhit
  | cons h more =>
    obtain ⟨kq, hkq, pq, hpq, hlq, hq, -, haddr⟩ := mem_raceHits.mp (hh ▸ List.mem_cons_self : h ∈ raceHits x ls)
    refine ⟨_, h.2.2, pq, kq, rfl, rfl, rfl, hkq, hpq, hlq, hq, ?_, rfl, fun hqr => ?_⟩
    · rw [haddr]
    · rw [hh] at hhit
      exact foldl_or_mask (fun e : DWord × Nat × Reg => e.1) (List.mem_filter.mpr ⟨hhit, by rw [hqr]; exact beq_self_eq_true _⟩)

/-- Reads of which one meets poison take the deferred-error trap, for every lane that meets some. -/
theorem memPoison_some {x : Ctx} {ls : List Located} {k : Located} {p : Nat × Nat × Trans} (hk : k ∈ ls) (hp : p ∈ k.parts)
    (h : ∃ w ∈ x.s.mem.poison, w < p.2.2.from' x.agent x.t.vi p.1 + p.2.1 ∧ p.2.2.from' x.agent x.t.vi p.1 < w + 4) :
    ∃ tr, memPoison x.s x.agent x.t.vi ls = some tr ∧ tr.cls = 11 ∧ tr.sub = 1 ∧ tr.lanes &&& k.acc.mask = k.acc.mask := by
  obtain ⟨w, hw, h1, h2⟩ := h
  obtain ⟨v, hv⟩ : ∃ v, x.s.mem.poisonIn (p.2.2.from' x.agent x.t.vi p.1) p.2.1 = some v := by
    rw [← Option.isSome_iff_exists, Mem.poisonIn, List.find?_isSome]
    exact ⟨w, hw, by simp [h1, h2]⟩
  rw [memPoison]
  dsimp only
  split
  next hnil =>
    exfalso
    have hk' := List.flatMap_eq_nil_iff.mp hnil k hk
    have hp' := List.filterMap_eq_nil_iff.mp hk' p hp
    rw [hv] at hp'
    cases hp'
  next h r hcons =>
    refine ⟨_, rfl, rfl, rfl, ?_⟩
    refine foldl_or_mask (fun e : DWord × Nat => e.1) (a := (k.acc.mask, alignDown p.1 4 + (v - wordOf (p.2.2.from' x.agent x.t.vi p.1)))) ?_
    exact List.mem_flatMap.mpr ⟨k, hk, List.mem_filterMap.mpr ⟨p, hp, by rw [hv, Option.map_some]⟩⟩

/-! ### The stops of each memory instruction -/

/-- A ready instruction that traps. -/
theorem exec_of_trap {i : Instr} {dyn : Ctx → Option Nat} {nms : Ctx → List Named} {body : Ctx → Res} {s : State} {x : Ctx} {tr : Trap}
    (hexec : exec i s = issueDyn i dyn nms body s) (hx : Runs i nms s x) (hd : dyn x = none) (hb : body x = .trap tr) : exec i s = .next (x.raise tr) := by
  rw [hexec, issueDyn_ready hx hd, hb]

/-- Where the effect of a memory instruction stops. -/
structure Ctx.Stops (x : Ctx) (l : LArgs) (n : Nat) (write aligned : Bool) (acc : Access) (atomic : Bool) (body : Res) : Prop where
  segment : ∀ tr, x.accs l ≠ [] → x.segFault l.seg.toNat n write aligned (x.accs l) = some tr → body = .trap tr
  page : ∀ tr, x.accs l ≠ [] → x.segFault l.seg.toNat n write aligned (x.accs l) = none → l.seg.toNat ≠ 1 → x.orderWaits true = false →
    x.locate l.seg.toNat n acc atomic (x.accs l) = .error tr → body = .trap tr
  race : ∀ tr ls, x.accs l ≠ [] → x.segFault l.seg.toNat n write aligned (x.accs l) = none → l.seg.toNat ≠ 1 → x.orderWaits true = false →
    x.locate l.seg.toNat n acc atomic (x.accs l) = .ok ls → aligned = false → x.l.race = true →
    raceTrap x.s x.g.gid x.agent write (localParts ls) = some tr → body = .trap tr
  poison : ∀ tr ls, x.accs l ≠ [] → x.segFault l.seg.toNat n write aligned (x.accs l) = none → l.seg.toNat ≠ 1 → x.orderWaits true = false →
    x.locate l.seg.toNat n acc atomic (x.accs l) = .ok ls → (aligned = true ∨ x.l.race = false) → write = false ∨ acc = .rmw →
    memPoison x.s x.agent x.t.vi ls = some tr → body = .trap tr

theorem Ctx.orderWaits_plain {x : Ctx} (h : x.orderWaits true = false) (sync : Bool) : x.orderWaits sync = false := by
  cases sync with
  | true => exact h
  | false =>
    rw [Ctx.orderWaits, List.any_eq_false] at h ⊢
    intro d hd
    have := h d hd
    simp only [Bool.and_eq_true, List.any_eq_true, Bool.or_eq_true, Bool.true_and, Bool.false_and, not_and, not_exists, Bool.or_false] at this ⊢
    exact fun hgid n hn hm => this hgid n hn (.inl hm)

theorem Ctx.load_stops (x : Ctx) (l : LArgs) (f : LoadForm) : x.Stops l f.bytes false (!f.plain) .read false (x.load l f) := by
  have hform : l.seg.toNat ≠ 1 → { f with plain := f.plain || !x.syncs l.seg.toNat f.bytes (x.accs l) } = f := fun hseg => by
    rw [Ctx.syncs, bne_iff_ne.mpr hseg, Bool.true_or, Bool.not_true, Bool.or_false]
  refine ⟨fun tr _ h => ?_, fun tr hsome hin hseg horder hl => ?_, fun tr ls hsome hin hseg horder hl hal hrace ht => ?_,
    fun tr ls hsome hin hseg horder hl hplain _ ht => ?_⟩
  · rw [Ctx.load]
    simp only [h]
  · rw [Ctx.load, hform hseg]
    simp only [hin, List.isEmpty_eq_false_iff.mpr hsome, Ctx.orderWaits_plain horder, hseg, hl, Bool.false_eq_true, if_false]
  · have hp : f.plain = true := by simpa using hal
    rw [hp] at hin
    rw [Ctx.load, hform hseg]
    simp only [hin, List.isEmpty_eq_false_iff.mpr hsome, Ctx.orderWaits_plain horder, hseg, hl, Bool.false_eq_true, if_false, hp, hrace, Bool.and_self, if_true, ht]
  · have hnone : (f.plain && x.l.race) = false := by
      rcases hplain with h | h
      · rw [show f.plain = false by simpa using h, Bool.false_and]
      · rw [h, Bool.and_false]
    rw [Ctx.load, hform hseg]
    simp only [hin, List.isEmpty_eq_false_iff.mpr hsome, Ctx.orderWaits_plain horder, hseg, hl, Bool.false_eq_true, if_false, hnone, ht]

theorem Ctx.put4_stops (x : Ctx) (l : LArgs) (n : Nat) (rel : Option Scope) : x.Stops l n true rel.isSome .write false (x.put4 l n rel) := by
  have hrel : l.seg.toNat ≠ 1 → rel.filter (fun _ => x.syncs l.seg.toNat n (x.accs l)) = rel := fun hseg => by
    rw [Ctx.syncs, bne_iff_ne.mpr hseg]
    cases rel <;> rfl
  refine ⟨fun tr _ h => ?_, fun tr hsome hin hseg horder hl => ?_, fun tr ls hsome hin hseg horder hl hal hrace ht => ?_,
    fun tr ls hsome hin hseg horder hl hplain hread _ => ?_⟩
  · rw [Ctx.put4]
    simp only [h]
  · rw [Ctx.put4, hrel hseg]
    simp only [hin, List.isEmpty_eq_false_iff.mpr hsome, Ctx.orderWaits_plain horder, hseg, hl, Bool.false_eq_true, if_false]
  · have hp : rel.isNone = true := by
      cases rel with
      | none => rfl
      | some sc => cases hal
    rw [Ctx.put4, hrel hseg]
    simp only [hin, List.isEmpty_eq_false_iff.mpr hsome, Ctx.orderWaits_plain horder, hseg, hl, Bool.false_eq_true, if_false, hp, hrace, Bool.and_self, if_true, ht]
  · rcases hread with h | h <;> cases h

theorem Ctx.aops_acc {x : Ctx} {l : LArgs} {op : AtomVar} {o : AOp} (h : o ∈ x.aops l op) : o.acc ∈ x.accs l := by
  obtain ⟨a, ha, ho⟩ := List.mem_flatMap.mp h
  obtain ⟨i, -, rfl⟩ := List.mem_map.mp ho
  exact ha

theorem Ctx.atom_stops {x : Ctx} {l : LArgs} {op : AtomVar} {sc : Scope} (hsub : ∀ a ∈ x.accs l, x.submitPage l.seg.toNat op sc a = none) :
    x.Stops l op.bytes true true .rmw true (x.atom op sc l) := by
  have hops : (x.aops l op).filter (fun o => (x.submitPage l.seg.toNat op sc o.acc).isSome) = [] :=
    List.filter_eq_nil_iff.mpr fun o ho => by rw [hsub _ (Ctx.aops_acc ho)]; exact Bool.false_ne_true
  have hplain : (x.accs l).filter (fun a => (x.submitPage l.seg.toNat op sc a).isNone) = x.accs l :=
    List.filter_eq_self.mpr fun a ha => by rw [hsub a ha]; rfl
  have hrecs : x.locate 0 128 .read false [] = .ok [] := rfl
  have hfault : x.recordFault [] = none := rfl
  refine ⟨fun tr _ h => ?_, fun tr hsome hin hseg horder hl => ?_, fun tr ls hsome hin hseg horder hl hal hrace ht => ?_,
    fun tr ls hsome hin hseg horder hl _ _ ht => ?_⟩
  · rw [Ctx.atom]
    simp only [h]
  · rw [Ctx.atom]
    simp only [hin, List.isEmpty_eq_false_iff.mpr hsome, horder, hseg, hops, hplain, hfault, hl, Bool.false_eq_true, if_false]
  · cases hal
  · rw [Ctx.atom]
    simp only [hin, List.isEmpty_eq_false_iff.mpr hsome, horder, hseg, hops, hplain, hfault, hl, Bool.false_eq_true, if_false, List.map_nil, hrecs,
      List.append_nil, ht]

theorem Ctx.red_stops (x : Ctx) (l : LArgs) (op : AtomVar) : x.Stops l op.bytes true true .write true (x.red op l) := by
  refine ⟨fun tr _ h => ?_, fun tr hsome hin hseg horder hl => ?_, fun tr ls hsome hin hseg horder hl hal hrace ht => ?_,
    fun tr ls hsome hin hseg horder hl _ hread ht => ?_⟩
  · rw [Ctx.red]
    simp only [h]
  · rw [Ctx.red]
    simp only [hin, List.isEmpty_eq_false_iff.mpr hsome, Ctx.orderWaits_plain horder, hseg, hl, Bool.false_eq_true, if_false]
  · cases hal
  · rcases hread with h | h <;> cases h

theorem Ctx.monw_stops (x : Ctx) (k : Nat) (cmp : MonCmp) (l : LArgs) : x.Stops l 4 false true .rmw true (x.monw k cmp l) := by
  refine ⟨fun tr _ h => ?_, fun tr hsome hin hseg horder hl => ?_, fun tr ls hsome hin hseg horder hl hal hrace ht => ?_,
    fun tr ls hsome hin hseg horder hl _ _ ht => ?_⟩
  · rw [Ctx.monw]
    simp only [h]
  · obtain ⟨a, r, hr⟩ := List.exists_cons_of_ne_nil hsome
    rw [Ctx.monw]
    dsimp only
    rw [hin]
    simp only [hr] at hl ⊢
    simp only [hseg, horder, hl, Bool.false_eq_true, if_false]
  · cases hal
  · obtain ⟨a, r, hr⟩ := List.exists_cons_of_ne_nil hsome
    rw [Ctx.monw]
    dsimp only
    rw [hin]
    simp only [hr] at hl ⊢
    simp only [hseg, horder, hl, ht, Bool.false_eq_true, if_false]

end Sys2Proof.Machine
end

section
/-! Bound faults, poisoned registers, and O17 (R51, R57, R318). -/
namespace Sys2Proof.Machine

/-! ### Bound faults -/

/-- A bound fault of a position: subcode, position, index register and lanes. -/
abbrev Fault57 := Nat × Nat × Nat × DWord

/-- The better of two bound faults: the lowest subcode, then the first position (R57). -/
def betterFault (b : Option Fault57) (f : Fault57) : Option Fault57 :=
  match b with
  | none => some f
  | some y => if f.1 < y.1 ∨ (f.1 = y.1 ∧ f.2.1 < y.2.1) then some f else some y

theorem boundFault_eq (x : Ctx) (names : List Named) : boundFault x names =
    ((names.flatMap (fun nm => nm.faults x)).foldl betterFault none).map (fun f => ⟨3, f.1, f.2.2.2, 0, 0, f.2.1, f.2.2.1⟩) := rfl

/-- One fault comes no later than another. -/
def notAfter (y f : Fault57) : Prop := y.1 < f.1 ∨ y.1 = f.1 ∧ y.2.1 ≤ f.2.1

theorem notAfter_trans {a b c : Fault57} (h : notAfter a b) (h' : notAfter b c) : notAfter a c := by
  unfold notAfter at *
  omega

theorem foldl_betterFault (l : List Fault57) (b : Fault57) :
    ∃ y, l.foldl betterFault (some b) = some y ∧ y ∈ b :: l ∧ ∀ f ∈ b :: l, notAfter y f := by
  induction l generalizing b with
  | nil => exact ⟨b, rfl, List.mem_singleton_self b, fun f hf => by rw [List.mem_singleton.mp hf]; exact .inr ⟨rfl, Nat.le_refl _⟩⟩
  | cons a r ih =>
    rw [List.foldl_cons, betterFault]
    split
    next h =>
      obtain ⟨y, hy, hmem, hle⟩ := ih a
      refine ⟨y, hy, List.mem_cons_of_mem _ hmem, fun f hf => ?_⟩
      rcases List.mem_cons.mp hf with rfl | hf
      · exact notAfter_trans (hle a List.mem_cons_self) (by unfold notAfter; omega)
      · exact hle f hf
    next h =>
      obtain ⟨y, hy, hmem, hle⟩ := ih b
      refine ⟨y, hy, ?_, fun f hf => ?_⟩
      · rcases List.mem_cons.mp hmem with rfl | hm
        · exact List.mem_cons_self
        · exact List.mem_cons_of_mem _ (List.mem_cons_of_mem _ hm)
      · rcases List.mem_cons.mp hf with rfl | hf
        · exact hle _ List.mem_cons_self
        · rcases List.mem_cons.mp hf with rfl | hf
          · exact notAfter_trans (hle b List.mem_cons_self) (by unfold notAfter; omega)
          · exact hle f (List.mem_cons_of_mem _ hf)

/-- The bound fault of an instruction is one of its positions' faults, and none comes before it. -/
theorem boundFault_some {x : Ctx} {names : List Named} {nm : Named} {f : Fault57} (hnm : nm ∈ names) (hf : f ∈ nm.faults x) :
    ∃ tr, boundFault x names = some tr ∧ tr.cls = 3 ∧ (tr.sub < f.1 ∨ tr.sub = f.1 ∧ tr.pos ≤ f.2.1) ∧
      ∃ nq ∈ names, (tr.sub, tr.pos, tr.idx, tr.lanes) ∈ nq.faults x := by
  have hmem : f ∈ names.flatMap (fun nm => nm.faults x) := List.mem_flatMap.mpr ⟨nm, hnm, hf⟩
  rw [boundFault_eq]
  cases hl : names.flatMap (fun nm => nm.faults x) with
  | nil => rw [hl] at hmem; cases hmem
  | cons b r =>
    obtain ⟨y, hy, hin, hle⟩ := foldl_betterFault r b
    rw [List.foldl_cons, betterFault, hy, Option.map_some]
    obtain ⟨nq, hnq, hq⟩ := List.mem_flatMap.mp (hl ▸ hin : y ∈ names.flatMap (fun nm => nm.faults x))
    exact ⟨_, rfl, rfl, hle f (hl ▸ hmem), nq, hnq, hq⟩

/-- The index that a word gives, or the subcode of its bound fault. -/
theorem resolveIdx_error {w : Word} {vregs e : Nat} (h : boundSub w vregs = some e) : resolveIdx w vregs = .error e := by
  have hlt := w.isLt
  have hfld : fld w.toNat 28 4 = w.toNat / 2 ^ 28 ∧ fld w.toNat 8 8 = w.toNat / 2 ^ 8 % 256 ∧ fld w.toNat 0 8 = w.toNat % 256 ∧
      fld w.toNat 16 8 = w.toNat / 2 ^ 16 % 256 := by
    unfold fld
    omega
  obtain ⟨h28, h8, h0, h16⟩ := hfld
  rw [boundSub] at h
  rw [resolveIdx, idxBound, h28, h8, h0, h16]
  generalize w.toNat / 2 ^ 28 = mode at h ⊢
  generalize (if w.toNat / 2 ^ 8 % 256 = 0 then 256 else w.toNat / 2 ^ 8 % 256) = bound at h ⊢
  generalize w.toNat % 256 = base at h ⊢
  generalize w.toNat / 2 ^ 16 % 256 = off at h ⊢
  have hcheck : ∀ n, (if bound ≤ n then some 0 else if vregs ≤ n then some 1 else none) = some e →
      (if bound ≤ n then (.error 0 : Except Nat Nat) else if vregs ≤ n then .error 1 else .ok n) = .error e := fun n h => by
    split at h
    next hle =>
      obtain rfl := Option.some.inj h
      rw [if_pos hle]
    next hle =>
      rw [if_neg hle]
      split at h
      next hv =>
        obtain rfl := Option.some.inj h
        rw [if_pos hv]
      next => cases h
  by_cases h1 : mode = 1
  · subst h1
    exact hcheck (base + off) (by simpa using h)
  · by_cases h2 : mode = 2
    · subst h2
      by_cases hle : bound ≤ base
      · simp only [hle, and_self, if_true] at h ⊢
        simp at h
        rw [← h]
      · simp only [hle, if_false] at h ⊢
        exact hcheck (base + off % (bound - base)) (by simpa using h)
    · simp only [h1, h2, ne_eq, not_false_eq_true, and_self, if_true] at h
      obtain rfl := Option.some.inj h
      split <;> simp_all

theorem boundSub_mem {w : Word} {vregs e : Nat} (h : boundSub w vregs = some e) : e ∈ [0, 1, 2] := by
  rw [boundSub] at h
  dsimp only at h
  generalize (if w.toNat / 2 ^ 8 % 256 = 0 then 256 else w.toNat / 2 ^ 8 % 256) = bound at h
  generalize (if w.toNat / 2 ^ 28 = 1 then _ else _ : Nat) = n at h
  split at h
  · obtain rfl := Option.some.inj h
    decide
  · split at h
    · obtain rfl := Option.some.inj h
      decide
    · split at h
      · obtain rfl := Option.some.inj h
        decide
      · split at h
        · obtain rfl := Option.some.inj h
          decide
        · cases h

theorem Named.faults_pos {nm : Named} {x : Ctx} {f : Fault57} (h : f ∈ nm.faults x) : f.2.1 = nm.pos := by
  rw [Named.faults] at h
  split at h
  · rw [List.mem_singleton.mp h]
  · split at h
    · obtain ⟨sub, -, hsome⟩ := List.mem_filterMap.mp h
      dsimp only at hsome
      split at hsome
      · cases hsome
      · exact (Option.some.inj hsome) ▸ rfl
    · cases h

/-! ### Poisoned registers -/

theorem regPoison_some {x : Ctx} {gd : Guard} {names : List Named} {nm : Named} {q : Nat × Nat × DWord} (hnm : nm ∈ names) (hq : nm.poison x = some q) :
    ∃ tr, regPoison x gd names = some tr ∧ tr.cls = 11 ∧ tr.sub = 0 ∧ tr.lanes &&& q.2.2 = q.2.2 := by
  have hmem : q ∈ (guardPoison x gd).toList ++ names.filterMap (fun nm => nm.indexPoison x) ++ names.filterMap (fun nm => nm.poison x) :=
    List.mem_append_right _ (List.mem_filterMap.mpr ⟨nm, hnm, hq⟩)
  rw [regPoison]
  cases hl : (guardPoison x gd).toList ++ names.filterMap (fun nm => nm.indexPoison x) ++ names.filterMap (fun nm => nm.poison x) with
  | nil => rw [hl] at hmem; cases hmem
  | cons p r =>
    rw [hl] at hmem
    exact ⟨_, rfl, rfl, rfl, foldl_or_mask (fun e : Nat × Nat × DWord => e.2.2) hmem⟩

theorem getLsbD_of_covers {m b : DWord} {lane : Nat} (h : m &&& b = b) (hb : b.getLsbD lane = true) : m.getLsbD lane = true := by
  have hbit := congrArg (·.getLsbD lane) h
  simp only [BitVec.getLsbD_and, hb, Bool.and_true] at hbit
  exact hbit

/-- The lanes that read poison in one of the vector registers of a position. -/
def Ctx.badLanes (x : Ctx) (n : Nat) : DWord := maskOf x.g.width (fun i => x.act.getLsbD i && x.g.poisonV.contains (n * 64 + i))

theorem Named.poison_vector {nm : Named} {x : Ctx} {m : BitVec 8} {c j lane : Nat} (hrd : nm.rd = true) (huse : nm.use = .op (.v m) c) (hj : j < c)
    (hl : lane ∈ x.lanes) (hp : (m.toNat + j) * 64 + lane ∈ x.g.poisonV) :
    ∃ q, nm.poison x = some q ∧ q.2.2.getLsbD lane = true := by
  obtain ⟨hlt, hact⟩ := mem_lanesOf.mp hl
  have hbit : (x.badLanes (m.toNat + j)).getLsbD lane = true := by
    rw [Ctx.badLanes, getLsbD_maskOf, decide_eq_true (lanesOf_lt hl), decide_eq_true hlt, hact, List.contains_iff_mem.mpr hp]
    rfl
  have hne : (x.badLanes (m.toNat + j) != 0) = true := by
    rw [bne_iff_ne]
    intro h0
    rw [h0] at hbit
    simp at hbit
  have heq : nm.poison x = ((List.range c).find? (fun j => x.badLanes (m.toNat + j) != 0)).map (fun j =>
      (0, m.toNat + j, (List.range c).foldl (fun a k => a ||| x.badLanes (m.toNat + k)) 0)) := by
    rw [Named.poison, hrd, huse]
    rfl
  obtain ⟨k, hk⟩ := Option.isSome_iff_exists.mp (List.find?_isSome.mpr ⟨j, List.mem_range.mpr hj, hne⟩ :
    ((List.range c).find? (fun j => x.badLanes (m.toNat + j) != 0)).isSome = true)
  rw [heq, hk, Option.map_some]
  exact ⟨_, rfl, getLsbD_of_covers (foldl_or_mask (fun k => x.badLanes (m.toNat + k)) (List.mem_range.mpr hj)) hbit⟩

theorem Named.poison_uniform {nm : Named} {x : Ctx} {m : BitVec 6} {c j : Nat} (hrd : nm.rd = true) (huse : nm.use = .op (.s m) c) (hj : j < c)
    (hany : x.any = true) (hp : m.toNat + j ∈ x.g.poisonS) : ∃ q, nm.poison x = some q ∧ q.2.2 = x.act := by
  have heq : nm.poison x = (List.range c).findSome? (fun j =>
      if x.g.poisonS.contains (m.toNat + j) && x.any then some (1, m.toNat + j, x.act) else none) := by
    rw [Named.poison, hrd, huse]
    rfl
  have hsome : ((List.range c).findSome? (fun j =>
      if x.g.poisonS.contains (m.toNat + j) && x.any then some (1, m.toNat + j, x.act) else none)).isSome = true := by
    rw [List.findSome?_isSome_iff]
    exact ⟨j, List.mem_range.mpr hj, by rw [List.contains_iff_mem.mpr hp, hany]; rfl⟩
  obtain ⟨q, hq⟩ := Option.isSome_iff_exists.mp hsome
  refine ⟨q, heq.trans hq, ?_⟩
  obtain ⟨k, -, hk⟩ := List.exists_of_findSome?_eq_some hq
  split at hk
  · exact (Option.some.inj hk) ▸ rfl
  · cases hk

/-! ### The checks of an instruction that may issue -/

theorem mayIssue_legal {i : Instr} {s : State} {x : Ctx} (h : mayIssue i s x) (dyn : Ctx → Option Nat) (hd : dyn x = none) : illegalUse i dyn x = none := by
  obtain ⟨-, hclass, hpriv, hservice⟩ := h
  have h1 : (isService x.g.core && i.lacksService) = false := by
    cases hs : isService x.g.core with
    | false => rfl
    | true => rw [hservice hs]; rfl
  have h2 : (i.privileged && !x.g.privileged x.t) = false := by
    cases hp : i.privileged with
    | false => rfl
    | true => rw [hpriv hp]; rfl
  rw [illegalUse, h1, h2, hclass, hd]
  rfl

theorem exec_of_bound {i : Instr} {dyn : Ctx → Option Nat} {nms : List Named} {body : Ctx → Res} {s : State} {x : Ctx} {tr : Trap}
    (hexec : exec i s = issueDyn i dyn (fun _ => nms) body s) (h : mayIssue i s x) (hd : dyn x = none) (hb : boundFault x nms = some tr) :
    exec i s = .next (x.raise tr) := by
  rw [hexec, issueDyn, h.1]
  dsimp only
  rw [mayIssue_legal h dyn hd]
  dsimp only
  rw [hb]

theorem exec_of_regPoison {i : Instr} {dyn : Ctx → Option Nat} {nms : List Named} {body : Ctx → Res} {s : State} {x : Ctx} {tr : Trap}
    (hexec : exec i s = issueDyn i dyn (fun _ => nms) body s) (h : mayIssue i s x) (hd : dyn x = none) (hb : boundFault x nms = none)
    (hbusy : x.busy nms = false) (hcross : isCrossLane i = false) (hp : regPoison x (i.guard.getD .always) nms = some tr) :
    exec i s = .next (x.raise tr) := by
  rw [hexec, issueDyn, h.1]
  dsimp only
  rw [mayIssue_legal h dyn hd]
  dsimp only
  rw [hb]
  dsimp only
  rw [hbusy, hcross, hp]
  rfl

/-- What the registers of an instruction make of it: its positions are told apart by their numbers. -/
theorem registers_trap {i : Instr} {dyn : Ctx → Option Nat} {nms : List Named} {body : Ctx → Res} {s : State} {x : Ctx}
    (hexec : exec i s = issueDyn i dyn (fun _ => nms) body s) (h : mayIssue i s x) (hd : dyn x = none) (hcross : isCrossLane i = false)
    (hpos : ∀ nm ∈ nms, ∀ nq ∈ nms, nq.pos = nm.pos → nq = nm) :
    (∀ nm ∈ nms, (nm.use.beyond x.g x.t = true →
        ∃ tr, exec i s = .next (x.raise tr) ∧ tr.cls = 3 ∧ tr.sub ≤ 1 ∧ (tr.sub = 1 → tr.pos ≤ nm.pos)) ∧
      (∀ st k c lane e, nm.use = .op (.ind st k) c → lane ∈ x.lanes → boundSub (x.g.xget k.toNat lane) (8 * x.g.vgran) = some e →
        ∃ tr, exec i s = .next (x.raise tr) ∧ tr.cls = 3 ∧ tr.sub ≤ e ∧ (tr.sub = e → tr.pos ≤ nm.pos ∧
          (tr.pos = nm.pos → tr.idx = k.toNat ∧ tr.lanes.getLsbD lane = true)))) ∧
    (boundFault x nms = none → x.busy nms = false → ∀ nm ∈ nms, nm.rd = true →
      (∀ m c j lane, nm.use = .op (.v m) c → j < c → lane ∈ x.lanes → (m.toNat + j) * 64 + lane ∈ x.g.poisonV →
        ∃ tr, exec i s = .next (x.raise tr) ∧ tr.cls = 11 ∧ tr.sub = 0 ∧ tr.lanes.getLsbD lane = true) ∧
      (∀ m c j, nm.use = .op (.s m) c → j < c → x.any = true → m.toNat + j ∈ x.g.poisonS →
        ∃ tr, exec i s = .next (x.raise tr) ∧ tr.cls = 11 ∧ tr.sub = 0 ∧ tr.lanes &&& x.act = x.act)) := by
  refine ⟨fun nm hnm => ⟨fun hbeyond => ?_, fun st k c lane e huse hlane hsub => ?_⟩, fun hb hbusy nm hnm hrd =>
    ⟨fun m c j lane huse hj hlane hp => ?_, fun m c j huse hj hany hp => ?_⟩⟩
  · have hfault : ((1, nm.pos, 0, x.act) : Fault57) ∈ nm.faults x := by
      rw [Named.faults, if_pos hbeyond]
      exact List.mem_singleton_self _
    obtain ⟨tr, htr, hcls, hle, -⟩ := boundFault_some hnm hfault
    dsimp only at hle
    exact ⟨tr, exec_of_bound hexec h hd htr, hcls, by omega, fun h1 => by omega⟩
  · obtain ⟨hlt, hact⟩ := mem_lanesOf.mp hlane
    have hbeyond : nm.use.beyond x.g x.t = false := by rw [huse]; rfl
    let bad (sub : Nat) : DWord := maskOf x.g.width (fun i => x.act.getLsbD i &&
      (match resolveIdx (x.g.xget k.toNat i) x.g.vregs with | .ok _ => false | .error e => e == sub))
    have hfaults : nm.faults x = [0, 1, 2].filterMap (fun sub => if bad sub = 0 then none else some (sub, nm.pos, k.toNat, bad sub)) := by
      rw [Named.faults, if_neg (by rw [hbeyond]; decide), huse] <;> rfl
    have hbit : (bad e).getLsbD lane = true := by
      have hres : resolveIdx (x.g.xget k.toNat lane) x.g.vregs = .error e := resolveIdx_error hsub
      rw [getLsbD_maskOf, decide_eq_true (lanesOf_lt hlane), decide_eq_true hlt, hact, hres]
      simp
    have he : e ∈ [0, 1, 2] := boundSub_mem hsub
    have hfault : ((e, nm.pos, k.toNat, bad e) : Fault57) ∈ nm.faults x := by
      rw [hfaults]
      refine List.mem_filterMap.mpr ⟨e, he, if_neg fun h0 => ?_⟩
      rw [h0] at hbit
      simp at hbit
    obtain ⟨tr, htr, hcls, hle, nq, hnq, hq⟩ := boundFault_some hnm hfault
    dsimp only at hle
    refine ⟨tr, exec_of_bound hexec h hd htr, hcls, by omega, fun hsub' => ⟨by omega, fun hpos' => ?_⟩⟩
    have hqpos : nq.pos = nm.pos := (Named.faults_pos hq).symm.trans hpos'
    rw [hpos nm hnm nq hnq hqpos, hfaults] at hq
    obtain ⟨sub, -, hsome⟩ := List.mem_filterMap.mp hq
    split at hsome
    · cases hsome
    · simp only [Option.some.injEq, Prod.mk.injEq] at hsome
      obtain ⟨h1, -, h3, h4⟩ := hsome
      refine ⟨h3.symm, ?_⟩
      rw [← h4, h1, hsub']
      exact hbit
  · obtain ⟨q, hq, hbit⟩ := Named.poison_vector hrd huse hj hlane hp
    obtain ⟨tr, htr, hcls, hsub, hcov⟩ := regPoison_some (gd := i.guard.getD .always) hnm hq
    exact ⟨tr, exec_of_regPoison hexec h hd hb hbusy hcross htr, hcls, hsub, getLsbD_of_covers hcov hbit⟩
  · obtain ⟨q, hq, hact⟩ := Named.poison_uniform hrd huse hj hany hp
    obtain ⟨tr, htr, hcls, hsub, hcov⟩ := regPoison_some (gd := i.guard.getD .always) hnm hq
    rw [hact] at hcov
    exact ⟨tr, exec_of_regPoison hexec h hd hb hbusy hcross htr, hcls, hsub, hcov⟩

/-! ### Memory instructions -/

theorem Ctx.atom_segment {x : Ctx} {op : AtomVar} {sc : Scope} {l : LArgs} {tr : Trap} (h : x.segFault l.seg.toNat op.bytes true true (x.accs l) = some tr) :
    x.atom op sc l = .trap tr := by
  rw [Ctx.atom]
  simp only [h]

/-- What a memory instruction is: how it issues, and where its effect stops. -/
theorem accessForm_stops {i : Instr} {l : LArgs} {n : Nat} {write aligned : Bool} {acc : Access} {nms : List Named}
    (h : accessForm i l n write aligned acc nms) :
    ∃ body : Ctx → Res, (∀ s, exec i s = issue i noDyn (fun _ => nms) body s) ∧ isCrossLane i = false ∧
      (∀ nm ∈ nms, ∀ nq ∈ nms, nq.pos = nm.pos → nq = nm) ∧
      (∀ x : Ctx, ∀ tr, x.accs l ≠ [] → x.segFault l.seg.toNat n write aligned (x.accs l) = some tr → body x = .trap tr) ∧
      ∀ x : Ctx, noSubmission x i l → x.Stops l n write aligned acc (atomicForm i) (body x) := by
  have hpos : ∀ (u v : Use) (r q : Bool), ∀ nm ∈ [(⟨0, u, r⟩ : Named), ⟨1, v, q⟩], ∀ nq ∈ [(⟨0, u, r⟩ : Named), ⟨1, v, q⟩], nq.pos = nm.pos → nq = nm := by
    intro u v r q nm hnm nq hnq
    simp only [List.mem_cons, List.not_mem_nil, or_false] at hnm hnq
    rcases hnm with rfl | rfl <;> rcases hnq with rfl | rfl <;> simp
  rcases h with ⟨g, sz, sx, rfl, rfl, rfl, rfl, rfl, rfl⟩ | ⟨g, sz, sx, sc, rfl, rfl, rfl, rfl, rfl, rfl⟩ | ⟨g, sz, rfl, rfl, rfl, rfl, rfl, rfl⟩ |
    ⟨g, sz, sc, rfl, rfl, rfl, rfl, rfl, rfl⟩ | ⟨g, op, sc, rfl, rfl, rfl, rfl, rfl, rfl⟩ | ⟨g, op, sc, rfl, rfl, rfl, rfl, rfl, rfl⟩ |
    ⟨g, k, cmp, rfl, rfl, rfl, rfl, rfl, rfl⟩
  · exact ⟨fun x => x.load l (loadForm sz sx true l), fun _ => rfl, rfl, hpos _ _ _ _, fun x => (x.load_stops l (loadForm sz sx true l)).segment,
      fun x _ => x.load_stops l (loadForm sz sx true l)⟩
  · exact ⟨fun x => x.load l (loadForm sz sx false l), fun _ => rfl, rfl, hpos _ _ _ _, fun x => (x.load_stops l (loadForm sz sx false l)).segment,
      fun x _ => x.load_stops l (loadForm sz sx false l)⟩
  · exact ⟨fun x => x.put4 l sz.bytes none, fun _ => rfl, rfl, hpos _ _ _ _, fun x => (x.put4_stops l sz.bytes none).segment,
      fun x _ => x.put4_stops l sz.bytes none⟩
  · exact ⟨fun x => x.put4 l sz.bytes (some sc), fun _ => rfl, rfl, hpos _ _ _ _, fun x => (x.put4_stops l sz.bytes (some sc)).segment,
      fun x _ => x.put4_stops l sz.bytes (some sc)⟩
  · exact ⟨fun x => x.atom op sc l, fun _ => rfl, rfl, hpos _ _ _ _, fun x tr _ h => Ctx.atom_segment h,
      fun x hsub => Ctx.atom_stops (hsub g op sc rfl)⟩
  · exact ⟨fun x => x.red op l, fun _ => rfl, rfl, hpos _ _ _ _, fun x => (x.red_stops l op).segment, fun x _ => x.red_stops l op⟩
  · exact ⟨fun x => x.monw k.toNat cmp l, fun _ => rfl, rfl, hpos _ _ _ _, fun x => (x.monw_stops k.toNat cmp l).segment,
      fun x _ => x.monw_stops k.toNat cmp l⟩

theorem namesA_positions {d a b : Opnd} : ∀ nm ∈ namesA d [a, b], ∀ nq ∈ namesA d [a, b], nq.pos = nm.pos → nq = nm := by
  intro nm hnm nq hnq
  simp only [namesA, List.mapIdx_cons, List.mapIdx_nil, List.mem_cons, List.not_mem_nil, or_false] at hnm hnq
  rcases hnm with rfl | rfl | rfl <;> rcases hnq with rfl | rfl | rfl <;> simp

theorem setWidth_ofNat (seg : BitVec 3) : BitVec.ofNat 64 seg.toNat = seg.setWidth 64 := BitVec.ofNat_toNat 64 seg

/-- Settles O17. -/
theorem accessTraps : Obligations.AccessTraps := by
  unfold Obligations.AccessTraps
  refine ⟨fun i l n write aligned acc nms hform s x hx a ha => ?_, fun i nms hi s x hmay => ?_⟩
  · obtain ⟨body, hexec, -, -, hsegment, hstops⟩ := accessForm_stops hform
    have hs := ctxOf_state hx.1
    subst hs
    have hne : x.accs l ≠ [] := List.ne_nil_of_mem ha
    have htrap : ∀ tr, body x = .trap tr → exec i x.s = .next (x.raise tr) := fun tr hb => exec_of_trap (hexec x.s) hx rfl hb
    refine ⟨fun sub hsub => ?_, fun hin hseg horder hnosub => ⟨fun va e he => ?_, fun ls hls => ⟨fun hal hrace k hk p hp hl r hr => ?_, fun hplain hread k hk p hp hw => ?_⟩⟩⟩
    · obtain ⟨tr, htr, hcls, hle, hlanes, hinfo, haddr⟩ := Ctx.segFault_some ha hsub
      exact ⟨tr, htrap tr (hsegment x tr hne htr), hcls, hle, hlanes, hinfo.trans (setWidth_ofNat _), haddr⟩
    · obtain ⟨tr, b, vb, eb, htr, hcls, hlanes, hb, hone, hsub, haddr, hinfo⟩ := Ctx.locate_error ha he
      exact ⟨tr, b, vb, eb, htrap tr ((hstops x hnosub).page tr hne hin hseg horder htr), hcls, hlanes, hb, hone, hsub, haddr, hinfo⟩
    · obtain ⟨tr, q, pq, kq, htr, hcls, hsub, hkq, hpq, hlq, hq, haddr, hinfo, hlanes⟩ := raceTrap_some (write := write) hk hp hl hr
      exact ⟨tr, q, pq, kq, htrap tr ((hstops x hnosub).race tr ls hne hin hseg horder hls hal hrace htr), hcls, hsub, hkq, hpq, hlq, hq, haddr, hinfo, hlanes⟩
    · obtain ⟨tr, htr, hcls, hsub, hlanes⟩ := memPoison_some hk hp hw
      exact ⟨tr, htrap tr ((hstops x hnosub).poison tr ls hne hin hseg horder hls hplain hread htr), hcls, hsub, hlanes⟩
  · rcases hi with ⟨l, n, write, aligned, acc, hform⟩ | ⟨g, d, a, b, rfl, rfl⟩
    · obtain ⟨body, hexec, hcross, hpos, -, -⟩ := accessForm_stops hform
      exact registers_trap (hexec s) hmay rfl hcross hpos
    · exact registers_trap (dyn := fun x => if noDyn x then some 3 else none)
        (body := fun x => .ok (x.s.setGroup (x.laneWise d (fun l => (w32 (x.src a l + x.src b l), 0))))) rfl hmay rfl rfl namesA_positions

end Sys2Proof.Machine
end

section
/-! Memory's canonical form (log 1), kept by what the registry, the homes and the translation do to a state. -/
namespace Sys2Proof.Machine

/-- The memory of a state has its canonical form. -/
def State.Canonical (s : State) : Prop := Memory.wf s.mem = true

/-! ### Composition -/

theorem State.Canonical.foldl {α : Type} {f : State → α → State} {l : List α} {s : State} (h : s.Canonical)
    (hf : ∀ u a, u.Canonical → (f u a).Canonical) : (l.foldl f s).Canonical :=
  foldl_keeps State.Canonical f hf l s h

/-- A state with another memory is canonical when that memory is. -/
theorem State.Canonical.withMem {s : State} {m : Mem} (h : Memory.wf m = true) : ({ s with mem := m } : State).Canonical := h

theorem Mem.foldl_wf {α : Type} {f : Mem → α → Mem} {l : List α} {m : Mem} (h : Memory.wf m = true)
    (hf : ∀ n a, Memory.wf n = true → Memory.wf (f n a) = true) : Memory.wf (l.foldl f m) = true :=
  foldl_keeps (fun n => Memory.wf n = true) f hf l m h

/-- Where one outcome of a branch is canonical and the other too, the branch is. -/
theorem State.Canonical.branch {c : Prop} [Decidable c] {s t : State} (hs : s.Canonical) (ht : t.Canonical) : (if c then s else t).Canonical := by
  split
  · exact hs
  · exact ht

/-! ### Groups, tasks and virtual interfaces lie outside memory -/

theorem State.Canonical.setGroup {s : State} {g : Group} (h : s.Canonical) : (s.setGroup g).Canonical := h
theorem State.Canonical.modGroup {s : State} {gid : Nat} {f : Group → Group} (h : s.Canonical) : (s.modGroup gid f).Canonical := h
theorem State.Canonical.modTask {s : State} {uid : Nat} {f : Task → Task} (h : s.Canonical) : (s.modTask uid f).Canonical := h
theorem State.Canonical.setVi {s : State} {v : VI} (h : s.Canonical) : (s.setVi v).Canonical := h
theorem State.Canonical.modEntry {s : State} {k : Nat} {f : ArrEntry → ArrEntry} (h : s.Canonical) : (s.modEntry k f).Canonical := h
theorem State.Canonical.lineBack {s : State} {core line : Nat} (h : s.Canonical) : (s.lineBack core line).Canonical := h
theorem State.Canonical.noCount {s since : State} (h : s.Canonical) : (s.noCount since).Canonical := h

/-! ### Registrations -/

theorem Mem.byEngine_wf {m : Mem} {words : List Nat} {core cmd : Nat} {pair : Bool} (h : Memory.wf m = true) :
    Memory.wf (m.byEngine words core cmd pair) = true :=
  Memory.wf_mapRegs _ (fun r => by split <;> rfl) h

theorem Mem.releaseCmd_wf {m : Mem} {words : List Nat} {gid cmd : Nat} {k : Rls} (h : Memory.wf m = true) :
    Memory.wf (m.releaseCmd words gid cmd k) = true :=
  Memory.wf_mapRegs _ (fun r => by split <;> rfl) h

theorem State.Canonical.giveBack {s : State} {ws : List Nat} (h : s.Canonical) : (s.giveBack ws).Canonical :=
  Mem.writeBackAll_wf _ (Memory.wf_filterRegs _ h)

theorem State.Canonical.serve {s : State} {v : Revoke} (h : s.Canonical) : (s.serve v).Canonical := by
  unfold State.serve
  dsimp only
  split
  · exact State.storeWord_wf _ _ _ _ _ h
  · exact h

theorem State.Canonical.answerRevoke {s : State} {v : Revoke} (h : s.Canonical) : (s.answerRevoke v).Canonical :=
  .branch h (.branch h.giveBack.serve h.serve)

theorem State.Canonical.writtenBack {s : State} {pa : Nat} (h : s.Canonical) : (s.writtenBack pa).Canonical := by
  unfold State.writtenBack
  split
  · exact .branch h.answerRevoke h
  · exact h

theorem State.Canonical.notHeld {s : State} {pa : Nat} (h : s.Canonical) : (s.notHeld pa).Canonical := by
  unfold State.notHeld
  split
  · exact .branch h h.answerRevoke
  · exact h

/-! ### Writes at the homes -/

theorem State.Canonical.redPut {s : State} {pw : Nat} {mask : BitVec 4} {val : Word} (h : s.Canonical) : (s.redPut pw mask val).Canonical :=
  Mem.redWord_wf _ _ _ h

theorem State.Canonical.remoteStore {s : State} {core vi va : Nat} {bs : List Byte} (h : s.Canonical) :
    (s.remoteStore core vi va bs).Canonical :=
  Mem.foldl_wf (State.remoteWrite_wf vi va bs h) (fun _ _ hn => Mem.renew_wf _ _ hn)

theorem State.Canonical.flushOf {s : State} {core gid : Nat} (h : s.Canonical) : (s.flushOf core gid).Canonical := State.flushRepls_wf _ h

/-! ### Stash lines and the Lens -/

theorem Mem.keepLine_wf {m : Mem} {l : Line} (h : Memory.wf m = true) : Memory.wf (m.keepLine l) = true := by
  have hstash : (((m.dirtyWords l).foldl (fun st pw => st.write (stashKey l.core (128 * l.line + pw % 128)) (m.read pw 4)) m.stash) : Store 8).wf = true :=
    foldl_keeps (fun st : Store 8 => st.wf = true) _ (fun st _ hst => Store.wf_write st _ _ hst) _ _ (Memory.stash_wf h)
  exact Memory.wf_of (Memory.wf_stash hstash h) rfl rfl rfl rfl rfl rfl

theorem State.Canonical.lensTake {s : State} {e : ArrEntry} {core line : Nat} (h : s.Canonical) : (s.lensTake e core line).Canonical :=
  .branch h.modEntry (State.Canonical.modEntry (State.stashRead_wf _ _ _ _ _ h))

theorem State.Canonical.lensFirst {s : State} {core line : Nat} (h : s.Canonical) : (s.lensFirst core line).Canonical :=
  h.foldl (fun _ _ hu => .branch hu hu.lensTake)

/-! ### Translation -/

theorem State.Canonical.noteHome {s : State} {va : Nat} {t : Trans} (h : s.Canonical) : (s.noteHome va t).Canonical :=
  .branch h (Memory.wf_homeVa (Store.wf_set _ _ _ (Memory.homeVa_wf h)) h)

theorem State.Canonical.noteTlb {s : State} {core vi va : Nat} {t : Trans} (h : s.Canonical) : (s.noteTlb core vi va t).Canonical :=
  .branch h (State.Canonical.noteHome h)

theorem State.Canonical.devicePut {s : State} {vi va : Nat} {bs : List Byte} (h : s.Canonical) : (s.devicePut vi va bs).1.Canonical := by
  unfold State.devicePut
  split
  · exact h
  · split
    · exact h
    · refine h.foldl (fun u p hu => ?_)
      dsimp only
      split
      · exact State.remoteWrite_wf _ _ _ hu
      · split
        · exact State.storeRepl_wf _ _ _ _ hu
        · exact State.deviceWrite_wf _ _ hu

theorem State.Canonical.groupPut {s : State} {g : Group} {vi va : Nat} {bs : List Byte} (h : s.Canonical) :
    (s.groupPut g vi va bs).1.Canonical := by
  unfold State.groupPut
  split
  · exact h
  · split
    · exact h
    · refine h.foldl (fun u p hu => ?_)
      dsimp only
      split
      · exact State.remoteWrite_wf _ _ _ hu.noteTlb
      · exact State.store_wf _ _ _ _ _ _ hu.noteTlb

/-! ### Acquires, barriers, ends and kills (R45, R46, R197, R304) -/

theorem State.Canonical.acquire {s : State} {core vi lo hi : Nat} {mask : BitVec 16} (h : s.Canonical) :
    (s.acquire core vi lo hi mask).Canonical := by
  have hlens : ∀ l : List Line, (l.foldl (fun u l => u.lensFirst core l.line) s).Canonical := fun _ => h.foldl (fun _ _ hu => hu.lensFirst)
  unfold State.acquire
  exact Memory.wf_of (Mem.foldl_wf (m := (State.mem _).discard core mask) (hlens _) (fun _ _ hn => Mem.refreshLine_wf _ hn)) rfl rfl rfl rfl rfl rfl

theorem State.Canonical.acquireBy {s : State} {g : Group} {t : Task} {sc : Scope} {mask : BitVec 16} (h : s.Canonical) :
    (s.acquireBy g t sc mask).Canonical := .branch h h.acquire

theorem State.Canonical.unpark {s : State} {g : Group} {t : Task} {p : Park} {st : Nat} (h : s.Canonical) : (s.unpark g t p st).Canonical :=
  .branch (State.Canonical.acquireBy h) h

theorem State.Canonical.settleBarriers {s : State} {uid : Nat} (h : s.Canonical) : (s.settleBarriers uid).Canonical := by
  unfold State.settleBarriers
  split
  · exact h
  · dsimp only
    split
    · exact State.Canonical.foldl h (fun _ _ hu => hu.foldl (fun _ _ hv => hv.unpark))
    · exact h

theorem State.Canonical.endGroup {s : State} {gid : Nat} (h : s.Canonical) : (s.endGroup gid).Canonical := by
  unfold State.endGroup
  split
  · exact h
  · exact State.Canonical.modGroup (State.Canonical.settleBarriers h)

theorem State.Canonical.endIfExited {s : State} {gid : Nat} (h : s.Canonical) : (s.endIfExited gid).Canonical := by
  unfold State.endIfExited
  split
  · exact .branch h.endGroup h
  · exact h

theorem enterHandler_canonical {s u : State} {g : Group} {t : Task} {tr : Trap} {r : ReturnPoint} {resume : DWord} (h : s.Canonical)
    (hu : enterHandler s g t tr r resume = .ok u) : u.Canonical := by
  have hput := h.groupPut (g := g) (vi := t.vi) (va := g.trapArea) (bs := causeRecord tr r resume s.tick)
  unfold enterHandler at hu
  dsimp only at hu
  repeat' split at hu
  case h_2 v hv =>
    rw [hv] at hput
    cases hu
    exact hput
  all_goals cases hu

theorem State.Canonical.teamKilled {s : State} {t : Task} {g : Group} {info : DWord} (h : s.Canonical) : (s.teamKilled t g info).Canonical := by
  unfold State.teamKilled
  dsimp only
  split
  case h_1 u hu =>
    refine State.Canonical.modGroup (enterHandler_canonical ?_ hu)
    exact h
  case h_2 => exact State.Canonical.endGroup h

theorem State.Canonical.killTeam {s : State} {uid : Nat} {by' : Option Nat} {info : DWord} (h : s.Canonical) :
    (s.killTeam uid by' info).Canonical := by
  have hends : ∀ u : State, u.Canonical → (match by' with | some gid => u.endGroup gid | none => u).Canonical := by
    intro u hu
    cases by' with
    | none => exact hu
    | some gid => exact hu.endGroup
  unfold State.killTeam
  split
  · exact h
  · dsimp only
    split
    · exact hends s h
    · refine State.Canonical.foldl (hends _ h) (fun u g hu => ?_)
      split
      · exact hu.teamKilled
      · exact hu.teamKilled
      · exact hu.endGroup

theorem State.Canonical.fatal {s : State} {g : Group} {cls sub : Nat} {byExit : Bool} (h : s.Canonical) : (s.fatal g cls sub byExit).Canonical :=
  h.killTeam

theorem State.Canonical.takeTrap {s : State} {g : Group} {t : Task} {tr : Trap} {r : ReturnPoint} {resume : DWord} (h : s.Canonical) :
    (s.takeTrap g t tr r resume).Canonical := by
  unfold State.takeTrap
  split
  · exact h.fatal
  · split
    case h_1 u hu => exact enterHandler_canonical h hu
    case h_2 => exact h.fatal
    case h_3 => exact h.fatal

theorem State.Canonical.returnFromTrap {s : State} {g : Group} {t : Task} (h : s.Canonical) : (s.returnFromTrap g t).Canonical := by
  unfold State.returnFromTrap
  split
  · exact h.fatal
  · exact .branch h.fatal (.branch h.fatal (.branch h.modGroup h.modGroup))

end Sys2Proof.Machine
end

section
/-! Memory's canonical form, kept by traps, by the issue of an instruction, and by accesses to memory and to stash lines. -/
namespace Sys2Proof.Machine

/-! ### Results and outcomes -/

/-- Every state that an instruction's effect leaves is canonical. -/
def Res.Canonical (r : Res) : Prop :=
  match r with
  | .ok s => s.Canonical
  | .hold s => s.Canonical
  | .trap _ => True

/-- The state that an outcome goes on with is canonical. -/
def OutcomeCanonical (o : Host.Outcome State Fault Refusal) : Prop := ∀ t, o = .next t → t.Canonical

theorem OutcomeCanonical.next {t : State} (h : t.Canonical) : OutcomeCanonical (.next t) := fun _ ht => by cases ht; exact h
theorem OutcomeCanonical.fault {f : Fault} : OutcomeCanonical (.fault f) := fun _ ht => by cases ht
theorem OutcomeCanonical.refused {r : Refusal} : OutcomeCanonical (.refused r) := fun _ ht => by cases ht

/-- A fold whose accumulator carries a state. -/
theorem State.Canonical.foldlPair {α β : Type} {f : State × β → α → State × β} {l : List α} {p : State × β} (h : p.1.Canonical)
    (hf : ∀ q a, q.1.Canonical → (f q a).1.Canonical) : (l.foldl f p).1.Canonical :=
  foldl_keeps (fun q : State × β => q.1.Canonical) f hf l p h

theorem Res.Canonical.branch {c : Prop} [Decidable c] {r q : Res} (hr : r.Canonical) (hq : q.Canonical) : (if c then r else q).Canonical := by
  split
  · exact hr
  · exact hq

/-! ### Issue (R108 to R110, R303) -/

theorem State.Canonical.winSet {s : State} {off val : Nat} (h : s.Canonical) : (s.winSet off val).Canonical := h

theorem State.Canonical.ringPut {s : State} {base ctl tail : Nat} {e : List Byte} (h : s.Canonical) : (s.ringPut base ctl tail e).Canonical :=
  .branch h (.branch (State.deviceWrite_wf _ _ h) h)

theorem State.Canonical.logDeferred {s : State} {g : Group} {t : Task} {reg : Nat × Nat} (h : s.Canonical) : (s.logDeferred g t reg).Canonical := by
  unfold State.logDeferred
  dsimp only
  split
  · exact h
  · exact .branch h (State.Canonical.ringPut h)

theorem State.Canonical.logIdle {s : State} {x : Ctx} {gd : Guard} {names : List Named} (h : s.Canonical) :
    (x.logIdle gd names s).Canonical := .branch h (h.foldl (fun _ _ hu => hu.logDeferred))

theorem State.Canonical.noteConsumed {s : State} {g : Group} {t : Task} {cls : Nat} (h : s.Canonical) : (s.noteConsumed g t cls).Canonical :=
  .branch h h

theorem State.Canonical.raise {x : Ctx} {tr : Trap} (h : x.s.Canonical) : (x.raise tr).Canonical := h.noteConsumed.takeTrap

/-- An instruction keeps memory canonical when its effect does. -/
theorem issueDyn_canonical {i : Instr} {dyn : Ctx → Option Nat} {names : Ctx → List Named} {body : Ctx → Res} {s : State} (h : s.Canonical)
    (hbody : ∀ x : Ctx, x.s.Canonical → (body x).Canonical) : OutcomeCanonical (issueDyn i dyn names body s) := by
  unfold issueDyn
  cases hx : ctxOf s (i.guard.getD .always) with
  | none => exact .fault
  | some x =>
    have hs : x.s.Canonical := by rw [ctxOf_state hx]; exact h
    have hres := hbody x hs
    refine .next ?_
    split
    · exact hs.raise
    · split
      · exact hs.raise
      · split
        · exact h
        · split
          · exact hs.raise
          · split
            · exact hs.raise
            case h_2 u hu =>
              rw [hu] at hres
              exact .branch hres (State.Canonical.logIdle hres)
            case h_3 u hu =>
              rw [hu] at hres
              exact State.Canonical.modGroup (State.Canonical.logIdle hres)

theorem issue_canonical {i : Instr} {dyn3 : Ctx → Bool} {names : Ctx → List Named} {body : Ctx → Res} {s : State} (h : s.Canonical)
    (hbody : ∀ x : Ctx, x.s.Canonical → (body x).Canonical) : OutcomeCanonical (issue i dyn3 names body s) :=
  issueDyn_canonical h hbody

theorem Ctx.okGroup_canonical {x : Ctx} {f : Group → Group} (h : x.s.Canonical) : (x.okGroup f).Canonical := h

theorem State.Canonical.outstanding {s : State} {x : Ctx} {names : List RegName} {busy : Bool} {writes : List RegWrite} {flags : Flags}
    {src : PendSrc} (h : s.Canonical) : (x.outstanding s names busy writes flags src).Canonical := .branch h h

theorem State.Canonical.laneWiseLong {x : Ctx} {d : Opnd} {f : Nat → Nat × Flags} (h : x.s.Canonical) : (x.laneWiseLong d f).Canonical :=
  .branch h h.outstanding

/-! ### Memory of other chips (R183) -/

theorem State.Canonical.writeAway {s : State} {gid vi va : Nat} {bs : List Byte} (h : s.Canonical) : (s.writeAway gid vi va bs).Canonical := by
  unfold State.writeAway
  split
  · exact h.remoteStore
  · exact State.remoteWrite_wf _ _ _ h

theorem State.Canonical.deliverPosted {s : State} {p : Posted} (h : s.Canonical) : (s.deliverPosted p).Canonical :=
  .branch h (.branch h (State.Canonical.writeAway h))

theorem State.Canonical.deliverWhere {s : State} {t : Posted → Bool} (h : s.Canonical) : (s.deliverWhere t).Canonical :=
  h.foldl (fun _ _ hu => hu.deliverPosted)

theorem State.Canonical.redRemote {s : State} {gid vi va : Nat} {op : AtomVar} {opnd : Nat} (h : s.Canonical) :
    (s.redRemote gid vi va op opnd).Canonical :=
  .branch h.deliverWhere.modGroup (.branch h.deliverWhere.modGroup h.deliverWhere.writeAway)

theorem State.Canonical.redsBefore {s : State} {gid pa n : Nat} (h : s.Canonical) : (s.redsBefore gid pa n).Canonical := State.redsBefore_wf _ _ _ h
theorem State.Canonical.performReds {s : State} {t : PostedRed → Bool} (h : s.Canonical) : (s.performReds t).Canonical := State.performReds_wf _ h

theorem State.Canonical.settlePart {s : State} {x : Ctx} {p : Nat × Nat × Trans} (h : s.Canonical) : (x.settlePart s p).Canonical :=
  .branch h.deliverWhere (.branch h h.redsBefore)

theorem State.Canonical.settle {s : State} {x : Ctx} {ls : List Located} (h : s.Canonical) : (x.settle s ls).Canonical :=
  h.foldl (fun _ _ hu => hu.settlePart)

/-! ### Loads and stores of memory -/

theorem State.Canonical.readPart {s : State} {x : Ctx} {m : Mem} {all : List Nat} {plain : Bool} {p : Nat × Nat × Trans} (h : s.Canonical) :
    (x.readPart m all s plain p).1.Canonical := by
  unfold Ctx.readPart
  dsimp only
  split
  · exact h.noteTlb
  · split
    · exact State.readRepl_wf _ _ _ h.noteTlb
    · split
      · exact State.loadBytes_wf _ _ _ _ _ _ _ _ h.noteTlb
      · exact Mem.foldl_wf (m := (s.noteTlb _ _ _ _).mem) h.noteTlb (fun _ _ hn => Mem.renew_wf _ _ hn)

theorem State.Canonical.readAt {s : State} {x : Ctx} {m : Mem} {all : List Nat} {plain : Bool} {k : Located} (h : s.Canonical) :
    (x.readAt m all s plain k).1.Canonical :=
  State.Canonical.foldlPair (p := (s, [])) h (fun _ _ hq => hq.readPart)

theorem State.Canonical.readAll {s : State} {x : Ctx} {f : LoadForm} {ls : List Located} (h : s.Canonical) : (x.readAll s f ls).1.Canonical :=
  State.Canonical.foldlPair (p := (x.settle s ls, [])) h.settle (fun _ _ hq => hq.readAt)

theorem State.Canonical.writeAt {s : State} {x : Ctx} {plain : Bool} {k : Located} {bs : List Byte} (h : s.Canonical) :
    (x.writeAt s plain k bs).Canonical := by
  refine h.foldl (fun u p hu => ?_)
  dsimp only
  split
  · exact State.Canonical.modGroup hu.noteTlb
  · split
    · exact .branch (State.Canonical.noteTlb hu) (State.Canonical.deliverWhere (State.Canonical.noteTlb hu))
    · exact State.store_wf _ _ _ _ _ _ hu.noteTlb.redsBefore

/-! ### Stash lines (R186) -/

theorem Mem.startFill_wf {m : Mem} {core line : Nat} (h : Memory.wf m = true) : Memory.wf (m.startFill core line) = true := by
  unfold Mem.startFill
  dsimp only
  split
  · exact Mem.setLine_wf _ h
  · exact h

theorem Ctx.waitFill_canonical {x : Ctx} {n : Nat} {accs : List Acc} {lines : List Nat} (h : x.s.Canonical) : (x.waitFill n accs lines).Canonical :=
  Mem.foldl_wf (m := x.s.mem) h (fun _ _ hn => Mem.startFill_wf hn)

theorem State.Canonical.redsAlias {s : State} {gid key core off n : Nat} (h : s.Canonical) : (s.redsAlias gid key core off n).Canonical :=
  h.performReds.deliverWhere

theorem State.Canonical.settleLine {s : State} {core line home : Nat} (h : s.Canonical) : (s.settleLine core line home).Canonical :=
  .branch h h.performReds.deliverWhere

theorem State.Canonical.stashWrite {s : State} {gid : Nat} {plain : Bool} {core off : Nat} {bs : List Byte} (h : s.Canonical) :
    (s.stashWrite gid plain core off bs).Canonical := State.stashWrite_wf _ _ _ _ _ h

theorem State.Canonical.stashAtomAt {s : State} {gid core : Nat} {op : AtomVar} {off opnd new : Nat} (h : s.Canonical) :
    (s.stashAtomAt gid core op off opnd new).1.Canonical := h.stashWrite

theorem State.Canonical.stashRedAt {s : State} {gid core : Nat} {op : AtomVar} {off opnd : Nat} (h : s.Canonical) :
    (s.stashRedAt gid core op off opnd).Canonical := by
  unfold State.stashRedAt
  split
  · exact h
  · exact Mem.foldl_wf (m := (s.redAt _ _ _).mem) (State.redAt_wf _ _ _ h) (fun _ _ hn => Mem.renew_wf _ _ hn)
  · exact h.stashAtomAt

theorem State.Canonical.drainPend {s : State} {gid : Nat} {o : Pend} (h : s.Canonical) : (s.drainPend gid o).Canonical := by
  unfold State.drainPend
  dsimp only
  split
  · split
    · exact h
    · exact State.Canonical.modGroup (State.Canonical.foldlPair (p := (List.foldl _ s _, [])) (h.foldl (fun _ _ hu => hu.redsAlias))
        (fun _ _ hq => State.stashRead_wf _ _ _ _ _ hq))
  · split
    · exact h
    · exact State.Canonical.modGroup (State.Canonical.foldlPair (p := (s, [])) h (fun _ _ hq => hq.redsAlias.stashAtomAt))
  · exact h

theorem State.Canonical.refuseDeferred {s : State} {d : Deferred} {core : Nat} {e : Line × Nat} (h : s.Canonical) :
    (s.refuseDeferred d core e).Canonical := .branch h h

theorem State.Canonical.applyDeferred {s : State} {d : Deferred} (h : s.Canonical) : (s.applyDeferred d).Canonical := by
  unfold State.applyDeferred
  split
  · exact h.drainPend
  case h_2 k _ _ =>
    have hother := State.Canonical.redsAlias (s := { s with mem := { s.mem with held := s.mem.held.filter (fun q => q.key != k.key) } })
      (gid := k.gid) (key := k.key) (core := k.core) (off := k.addr) (n := k.bytes.length) h
    have hdone : (match k.red with
        | none => (State.redsAlias { s with mem := { s.mem with held := s.mem.held.filter (fun q => q.key != k.key) } }
            k.gid k.key k.core k.addr k.bytes.length).stashWrite k.gid k.plain k.core k.addr k.bytes
        | some op => (State.redsAlias { s with mem := { s.mem with held := s.mem.held.filter (fun q => q.key != k.key) } }
            k.gid k.key k.core k.addr k.bytes.length).stashRedAt k.gid k.core op k.addr (leNat k.bytes)).Canonical := by
      split
      · exact hother.stashWrite
      · exact hother.stashRedAt
    dsimp only
    split
    · exact hdone
    · exact Memory.wf_mapRegs _ (fun r => (apply_ite Reg.pa _ _ _).trans (ite_self r.pa)) hdone
  · exact h

theorem State.Canonical.fillWaited {s : State} {core : Nat} (h : s.Canonical) : (s.fillWaited core).Canonical :=
  Mem.foldl_wf (m := s.mem) h (fun _ _ hn => Mem.startFill_wf hn)

theorem State.Canonical.drainStash {s : State} {core : Nat} (h : s.Canonical) : (s.drainStash core).Canonical := by
  refine State.Canonical.fillWaited (State.Canonical.foldlPair (p := (s, [])) h (fun q d hq => ?_))
  dsimp only
  split
  · split
    · exact hq.refuseDeferred
    · exact hq.applyDeferred
  · exact hq

theorem State.Canonical.deferLoad {x : Ctx} {f : LoadForm} {uni : Bool} {accs : List Acc} (h : x.s.Canonical) : (x.deferLoad f uni accs).Canonical :=
  h.outstanding

theorem State.Canonical.holdStores {x : Ctx} {l : List (Acc × List Byte)} {red : Option AtomVar} {plain : Bool} (h : x.s.Canonical) :
    (x.holdStores l red plain).Canonical := h.foldl (fun _ _ hu => hu)

/-! ### Releases (R254) -/

theorem State.Canonical.releaseAtoms {s : State} {gid : Nat} (h : s.Canonical) : (s.releaseAtoms gid).Canonical := .branch h h

theorem State.Canonical.release {s : State} {g : Group} {t : Task} {sc : Scope} (h : s.Canonical) : (s.release g t sc).Canonical := by
  have hposted := (h.performReds (t := fun r => r.gid == g.gid)).deliverWhere (t := fun q => q.gid == g.gid)
  exact Memory.wf_of (Mem.releaseCore_wf _ _ _ _ (State.Canonical.releaseAtoms (.branch hposted.flushOf hposted))) rfl rfl rfl rfl rfl rfl

end Sys2Proof.Machine
end

section
/-! Memory's canonical form, kept by the instructions of families 4 and 5 that read, write, map and synchronise. -/
namespace Sys2Proof.Machine

theorem Res.Canonical.trap {tr : Trap} : (Res.trap tr).Canonical := True.intro

theorem Ctx.again_canonical {x : Ctx} (h : x.s.Canonical) : x.again.Canonical := h

/-- The state of a result that is a pair. -/
theorem State.Canonical.ofPair {β : Type} {p : State × β} {u : State} {b : β} (h : p.1.Canonical) (hp : p = (u, b)) : u.Canonical := by
  rw [hp] at h
  exact h

/-! ### Loads (R188, R189) -/

theorem Ctx.loadStash_canonical {x : Ctx} {f : LoadForm} {uni : Bool} {accs : List Acc} (h : x.s.Canonical) :
    (x.loadStash f uni accs).Canonical := by
  unfold Ctx.loadStash
  dsimp only
  split
  · exact x.waitFill_canonical h
  · exact State.Canonical.deferLoad h
  · split
    · exact x.again_canonical h
    · split
      · exact .trap
      · split
        · exact .trap
        · split
          · exact .trap
          · exact State.Canonical.outstanding (State.Canonical.foldlPair (p := (List.foldl _ x.s _, []))
              (h.foldl (fun _ _ hu => hu.redsAlias)) (fun _ _ hq => State.stashRead_wf _ _ _ _ _ hq))

theorem Ctx.load_canonical {x : Ctx} {l : LArgs} {f : LoadForm} (h : x.s.Canonical) : (x.load l f).Canonical := by
  unfold Ctx.load
  dsimp only
  split
  · exact .trap
  · refine .branch h (.branch (x.again_canonical h) (.branch (x.loadStash_canonical h) ?_))
    split
    · exact .trap
    · split
      · exact .trap
      · split
        · exact .trap
        · exact State.Canonical.outstanding h.readAll

theorem execLd_canonical {g : Guard} {sz : Size} {sx : Bool} {l : LArgs} {s : State} (h : s.Canonical) : OutcomeCanonical (execLd g sz sx l s) :=
  issue_canonical h (fun x hx => x.load_canonical hx)

theorem execLda_canonical {g : Guard} {sz : Size} {sx : Bool} {sc : Scope} {l : LArgs} {s : State} (h : s.Canonical) :
    OutcomeCanonical (execLda g sz sx sc l s) :=
  issue_canonical h (fun x hx => x.load_canonical hx)

/-! ### Stores (R188, R189) -/

theorem Ctx.putStash_canonical {x : Ctx} {s : State} {n : Nat} {plain : Bool} {accs : List Acc} {data : Acc → List Byte} (hx : x.s.Canonical)
    (h : s.Canonical) : (x.putStash s n plain accs data).Canonical := by
  unfold Ctx.putStash
  dsimp only
  split
  · exact x.waitFill_canonical hx
  · split
    · exact x.again_canonical hx
    · split
      · exact .trap
      · exact State.Canonical.holdStores (State.Canonical.foldl h (fun _ _ hu => hu.redsAlias.stashWrite))

theorem Ctx.put4_canonical {x : Ctx} {l : LArgs} {n : Nat} {rel : Option Scope} (h : x.s.Canonical) : (x.put4 l n rel).Canonical := by
  have hreleased : ∀ r : Option Scope, (match r with | some sc => x.s.release x.g x.t sc | none => x.s).Canonical := by
    intro r
    cases r with
    | none => exact h
    | some sc => exact h.release
  unfold Ctx.put4
  dsimp only
  split
  · exact .trap
  · refine .branch h (.branch (x.again_canonical h) (.branch (x.putStash_canonical h (hreleased _)) ?_))
    split
    · exact .trap
    · split
      · exact .trap
      · exact .branch (x.again_canonical h) (State.Canonical.foldl (hreleased _) (fun _ _ hu => hu.writeAt))

theorem execSt_canonical {g : Guard} {sz : Size} {l : LArgs} {s : State} (h : s.Canonical) : OutcomeCanonical (execSt g sz l s) :=
  issue_canonical h (fun x hx => x.put4_canonical hx)

theorem execStl_canonical {g : Guard} {sz : Size} {sc : Scope} {l : LArgs} {s : State} (h : s.Canonical) : OutcomeCanonical (execStl g sz sc l s) :=
  issue_canonical h (fun x hx => x.put4_canonical hx)

/-! ### Prefetches and the mapping of lines (R191, R192) -/

theorem State.Canonical.prefLine {s : State} {x : Ctx} {l2 : Bool} {seg : Nat} {a : Acc} (h : s.Canonical) :
    (x.prefLine l2 seg s a).Canonical := by
  refine .branch h (.branch (Mem.startFill_wf h) ?_)
  split
  · exact h
  · exact h.foldl (fun _ _ hu => .branch hu (State.fillLine_wf _ _ _ _ _ hu))

theorem execPref_canonical {g : Guard} {l : LArgs} {s : State} (h : s.Canonical) : OutcomeCanonical (execPref g l s) :=
  issue_canonical h (fun _ hx => State.Canonical.foldl hx (fun _ _ hu => hu.prefLine))

theorem execPrefL2_canonical {g : Guard} {l : LArgs} {s : State} (h : s.Canonical) : OutcomeCanonical (execPrefL2 g l s) :=
  issue_canonical h (fun _ hx => State.Canonical.foldl hx (fun _ _ hu => hu.prefLine))

theorem State.Canonical.mapLine {s : State} {gid core vi line : Nat} {target : Option Nat} (h : s.Canonical) :
    (s.mapLine gid core vi line target).Canonical := by
  have hkept : ({ s with mem := if (s.mem.lineOf core line).mapped.isSome && target.isNone then s.mem.keepLine (s.mem.lineOf core line)
      else s.mem } : State).Canonical := by
    refine State.Canonical.withMem ?_
    split
    · exact Mem.keepLine_wf h
    · exact h
  have hflush := State.flushLine_wf core line hkept
  unfold State.mapLine
  cases target with
  | none => exact Mem.setLine_wf _ hflush
  | some va => exact Mem.setLine_wf _ hflush

theorem State.Canonical.mapLines {gid core vi first : Nat} {target : Nat → Option Nat} {n i : Nat} {s : State} (h : s.Canonical) :
    (State.mapLines gid core vi first target n i s).1.Canonical := by
  induction n generalizing i s with
  | zero => exact h
  | succ n ih =>
    rw [State.mapLines]
    split
    · exact h
    · exact ih h.mapLine

theorem Ctx.stmap_canonical {x : Ctx} {ua ub uc : Nat} (h : x.s.Canonical) : (x.stmap ua ub uc).Canonical := by
  refine .branch h (.branch .trap (.branch .trap (.branch .trap ?_)))
  dsimp only
  split
  case h_1 u hu => exact State.Canonical.drainStash (.ofPair h.mapLines hu)
  case h_2 u _ hu => exact State.Canonical.drainStash (.ofPair h.mapLines hu)

theorem execStmap_canonical {g : Guard} {uc ub ua : BitVec 6} {s : State} (h : s.Canonical) : OutcomeCanonical (execStmap g uc ub ua s) :=
  issue_canonical h (fun x hx => x.stmap_canonical hx)

/-! ### Fences, acquires and releases (R196 to R198) -/

theorem execFence_canonical {g : Guard} {sc : Scope} {ud : BitVec 6} {s : State} (h : s.Canonical) : OutcomeCanonical (execFence g sc ud s) :=
  issue_canonical h (fun x hx => .branch hx (.branch (x.again_canonical hx) (State.Canonical.outstanding hx.release.modGroup)))

theorem execAcq_canonical {g : Guard} {sc : Scope} {mask : BitVec 16} {s : State} (h : s.Canonical) : OutcomeCanonical (execAcq g sc mask s) :=
  issue_canonical h (fun x hx => .branch hx (.branch (x.again_canonical hx) hx.acquireBy))

theorem Ctx.afterRelease_canonical {x : Ctx} {sc : Scope} {f : State → Res} (h : x.s.Canonical) (hf : ∀ u : State, u.Canonical → (f u).Canonical) :
    (x.afterRelease sc f).Canonical := .branch (x.again_canonical h) (hf _ h.release)

theorem execRel_canonical {g : Guard} {sc : Scope} {s : State} (h : s.Canonical) : OutcomeCanonical (execRel g sc s) :=
  issue_canonical h (fun x hx => .branch (x.afterRelease_canonical hx (fun _ hu => hu)) hx)

/-! ### Monitors and WAIT (R199 to R202) -/

theorem Ctx.arm_canonical {x : Ctx} {s : State} {k : Nat} {m : Monitor} {word : Word} {overflow : Bool} (h : s.Canonical) :
    (x.arm s k m word overflow).Canonical := h

theorem Ctx.monw_canonical {x : Ctx} {k : Nat} {cmp : MonCmp} {l : LArgs} (h : x.s.Canonical) : (x.monw k cmp l).Canonical := by
  unfold Ctx.monw
  dsimp only
  split
  · exact .trap
  · exact h
  · split
    · split
      · exact x.waitFill_canonical h
      · exact x.again_canonical h
      · split
        · exact x.again_canonical h
        · split
          · exact .trap
          · exact .trap
          · exact x.arm_canonical h.redsAlias
          · exact x.arm_canonical h
    · refine .branch (x.again_canonical h) ?_
      split
      · exact .trap
      · split
        · exact .trap
        · exact h
        · exact .branch (x.arm_canonical (State.Canonical.noteTlb h.settlePart)) (x.arm_canonical (State.Canonical.noteTlb h.settlePart))

theorem execMonw_canonical {g : Guard} {k : BitVec 2} {cmp : MonCmp} {l : LArgs} {s : State} (h : s.Canonical) :
    OutcomeCanonical (execMonw g k cmp l s) :=
  issue_canonical h (fun x hx => x.monw_canonical hx)

theorem State.Canonical.statusNow {s : State} {x : Ctx} {d : Opnd} {st : Nat} (h : s.Canonical) : (x.statusNow s d st).Canonical := h.outstanding

theorem Ctx.wait_canonical {x : Ctx} {all : Bool} {count : Nat} {d a b c : Opnd} (h : x.s.Canonical) : (x.wait all count d a b c).Canonical := by
  unfold Ctx.wait
  dsimp only
  refine .branch h ?_
  split
  · exact .trap
  · refine .branch (x.again_canonical h) ?_
    split
    · exact .trap
    case h_2 jv u hu =>
      have hread : u.Canonical := by
        split at hu
        · cases hu
          exact h
        · split at hu
          · cases hu
          · split at hu
            · cases hu
            · cases hu
              exact h.settle
      exact .branch (State.Canonical.statusNow hread) (.branch (State.Canonical.statusNow hread) hread)

theorem execWait_canonical {g : Guard} {all : Bool} {count : BitVec 2} {d a b c : Opnd} {s : State} (h : s.Canonical) :
    OutcomeCanonical (execWait g all count d a b c s) :=
  issueDyn_canonical h (fun x hx => x.wait_canonical hx)

/-! ### Barriers and event counters (R203, R204) -/

theorem State.Canonical.arrive {s : State} {x : Ctx} {k : Nat} {park : Option Opnd} (h : s.Canonical) : (x.arrive k park s).Canonical := by
  unfold Ctx.arrive
  refine State.Canonical.settleBarriers ?_
  cases park with
  | none => exact h
  | some d => exact h

theorem execBar_canonical {g : Guard} {k : BitVec 3} {d : Opnd} {s : State} (h : s.Canonical) : OutcomeCanonical (execBar g k d s) :=
  issue_canonical h (fun x hx => .branch (x.afterRelease_canonical hx (fun _ hu => hu.arrive)) hx)

theorem execBarArrive_canonical {g : Guard} {k : BitVec 3} {d : Opnd} {s : State} (h : s.Canonical) : OutcomeCanonical (execBarArrive g k d s) :=
  issue_canonical h (fun x hx => .branch (x.afterRelease_canonical hx (fun _ hu => hu.arrive)) hx)

theorem evtOp_canonical {i : Instr} {k : Nat} {d a : Opnd} {f : Nat → Nat → Nat} {s : State} (h : s.Canonical) :
    OutcomeCanonical (evtOp i k d a f s) :=
  issue_canonical h (fun _ hx => .branch hx hx)

end Sys2Proof.Machine
end

section
/-! Memory's canonical form, kept by queues and submissions, by ATOM and RED, and by the instructions of family 7 that every group has. -/
namespace Sys2Proof.Machine

/-! ### Queues (R285 to R287) -/

theorem State.Canonical.deviceForce {s : State} {vi va : Nat} {bs : List Byte} (h : s.Canonical) : (s.deviceForce vi va bs).1.Canonical := by
  unfold State.deviceForce
  split
  · exact h
  · split
    · exact h
    · exact h.foldl (fun _ _ hu => .branch (State.remoteWrite_wf _ _ _ hu) (.branch (State.storeRepl_wf _ _ _ _ hu) (State.deviceWrite_wf _ _ hu)))

theorem State.Canonical.freshSegment {s : State} {vi seg next seqNo : Nat} (h : s.Canonical) : (s.freshSegment vi seg next seqNo).1.Canonical :=
  State.Canonical.foldlPair h.deviceForce (fun q a hq => by
    split
    · exact hq.deviceForce
    · exact hq)

theorem State.Canonical.roomIn {s u : State} {vi q a : Nat} (h : s.Canonical) (hu : s.roomIn vi q = some (u, a)) : u.Canonical := by
  unfold State.roomIn at hu
  split at hu
  · cases hu
  · dsimp only at hu
    split at hu
    · cases hu
      exact h
    · split at hu
      · cases hu
      · obtain ⟨_, hu⟩ := Option.ite_none_right_eq_some.mp hu
        obtain ⟨rfl, -⟩ := Prod.mk.inj (Option.some.inj hu)
        refine State.Canonical.setVi ?_
        split
        · exact h.freshSegment.deviceForce
        · exact h

theorem State.Canonical.enqueue {s u : State} {vi q : Nat} {tag pointer : DWord} {flags : BitVec 32} {cont : List Byte} {e : Nat × Nat}
    (h : s.Canonical) (hu : s.enqueue vi q tag pointer flags cont = some (u, e)) : u.Canonical := by
  unfold State.enqueue at hu
  split at hu
  · cases hu
  · split at hu
    · cases hu
    · rename_i hroom
      split at hu
      · cases hu
      · rename_i hforce
        have hdone := State.Canonical.ofPair (h.roomIn hroom).deviceForce hforce
        cases hu
        exact hdone

theorem State.Canonical.submit {s u : State} {p : SubPage} {r : List Byte} (h : s.Canonical) (hu : s.submit p r = .accepted u) : u.Canonical := by
  unfold State.submit at hu
  dsimp only at hu
  split at hu
  · cases hu
  · generalize ((subOf r).reserved || _ || _) = bad at hu
    split at hu
    · cases hu
    · split at hu
      · split at hu
        · cases hu
        · rename_i hin
          have hdone := h.enqueue hin
          cases hu
          exact hdone
      · split at hu
        · cases hu
        · split at hu
          · cases hu
          · rename_i hin
            have hdone := h.enqueue hin
            cases hu
            exact hdone

theorem State.Canonical.enqueueTask {s u : State} {vi grid q : Nat} {bs : List Byte} {service privileged : Bool} {launch : Option Launch}
    (h : s.Canonical) (hu : s.enqueueTask vi grid q bs service privileged launch = some u) : u.Canonical := by
  unfold State.enqueueTask at hu
  dsimp only at hu
  split at hu
  · cases hu
  · rename_i hin
    have hdone := h.enqueue hin
    cases hu
    exact hdone

theorem State.Canonical.immediate {s : State} {p : SubPage} {r : List Byte} {status : Nat} (h : s.Canonical) : (s.immediate p r status).Canonical :=
  .branch h h

/-! ### ATOM (R194, R282) -/

theorem State.Canonical.submitOne {s u : State} {x : Ctx} {p : SubPage} {final : Bool} {off k : Nat} (h : s.Canonical)
    (hu : x.submitOne s p final off = some (u, k)) : u.Canonical := by
  unfold Ctx.submitOne at hu
  dsimp only at hu
  split at hu
  · cases hu
    exact h
  · split at hu
    · cases hu
      exact h
    · split at hu
      case h_1 hsub =>
        cases hu
        exact h.submit hsub
      case h_2 | h_3 =>
        cases hu
        exact h
      case h_4 =>
        split at hu
        · cases hu
          exact h
        · cases hu

theorem State.Canonical.atomLocated {s : State} {x : Ctx} {op : AtomVar} {k : Located} {o : AOp} (h : s.Canonical) :
    (x.atomLocated s op k o).1.Canonical := by
  unfold Ctx.atomLocated
  split
  · exact h
  · dsimp only
    split
    · exact h.noteTlb.deliverWhere.remoteStore
    · exact State.atomAt_wf _ _ _ _ _ h.noteTlb.redsBefore

theorem Ctx.atomStash_canonical {x : Ctx} {op : AtomVar} {sc : Scope} {l : LArgs} {ops : List AOp} (h : x.s.Canonical) :
    (x.atomStash op sc l ops).Canonical := by
  unfold Ctx.atomStash
  dsimp only
  split
  · exact .trap
  · split
    · exact x.waitFill_canonical h
    · exact h.release.outstanding
    · split
      · exact x.again_canonical h
      · split
        · exact .trap
        · exact State.Canonical.outstanding (State.Canonical.foldlPair (p := (x.s.release x.g x.t sc, [])) h.release
            (fun _ _ hq => hq.redsAlias.stashAtomAt))

/-- The operations of an ATOM, one after another: while every one of them is made, memory stays canonical. -/
theorem foldl_bind_canonical {α β : Type} {f : State × β → α → Option (State × Nat)} {g : State × β → α → State × Nat → β} {l : List α}
    (hf : ∀ c o v k, c.1.Canonical → f c o = some (v, k) → v.Canonical) {acc : Option (State × β)} (hacc : ∀ p, acc = some p → p.1.Canonical) :
    ∀ p, l.foldl (fun (acc : Option (State × β)) o => acc.bind (fun c => (f c o).map (fun d => (d.1, g c o d)))) acc = some p →
      p.1.Canonical := by
  induction l generalizing acc with
  | nil => exact hacc
  | cons o r ih =>
    refine ih (fun p hp => ?_)
    obtain ⟨c, hc, hd⟩ := Option.bind_eq_some_iff.mp hp
    obtain ⟨⟨v, k⟩, hv, rfl⟩ := Option.map_eq_some_iff.mp hd
    exact hf _ _ _ _ (hacc c hc) hv

theorem Ctx.atom_canonical {x : Ctx} {op : AtomVar} {sc : Scope} {l : LArgs} (h : x.s.Canonical) : (x.atom op sc l).Canonical := by
  unfold Ctx.atom
  dsimp only
  split
  · exact .trap
  · refine .branch h (.branch (x.again_canonical h) (.branch (x.atomStash_canonical h) ?_))
    split
    · exact .trap
    · split
      · exact .trap
      · exact .trap
      · split
        · exact .trap
        · refine .branch (x.again_canonical h) ?_
          split
          case h_1 u _ hu =>
            refine State.Canonical.outstanding (foldl_bind_canonical (fun v o w k hv hw => ?_) ?_ (u, _) hu)
            · split at hw
              · exact hv.submitOne hw
              · obtain ⟨q, _, hq⟩ := Option.map_eq_some_iff.mp hw
                exact .ofPair hv.atomLocated hq
            · intro p hp
              cases hp
              exact h.release
          case h_2 => exact h

theorem execAtom_canonical {g : Guard} {op : AtomVar} {sc : Scope} {l : LArgs} {s : State} (h : s.Canonical) : OutcomeCanonical (execAtom g op sc l s) :=
  issue_canonical h (fun x hx => x.atom_canonical hx)

theorem execGroupSubmission_canonical {g : Guard} {l : LArgs} {s : State} (h : s.Canonical) : OutcomeCanonical (execGroupSubmission g l s) :=
  issue_canonical h (fun x hx => x.atom_canonical hx)

/-! ### RED (R195) -/

theorem State.Canonical.redLocated {s : State} {x : Ctx} {op : AtomVar} {k : Located} {o : AOp} (h : s.Canonical) : (x.redLocated s op k o).Canonical := by
  unfold Ctx.redLocated
  split
  · exact h
  · exact .branch h.noteTlb.modGroup (.branch h.noteTlb.redRemote (State.Canonical.noteTlb h))

theorem Ctx.redStash_canonical {x : Ctx} {op : AtomVar} {accs : List Acc} {ops : List AOp} (h : x.s.Canonical) : (x.redStash op accs ops).Canonical := by
  unfold Ctx.redStash
  dsimp only
  split
  · exact .trap
  · split
    · exact x.waitFill_canonical h
    · exact .branch (x.again_canonical h) (State.Canonical.holdStores (State.Canonical.foldl h (fun _ _ hu => hu.redsAlias.stashRedAt)))

theorem Ctx.red_canonical {x : Ctx} {op : AtomVar} {l : LArgs} (h : x.s.Canonical) : (x.red op l).Canonical := by
  unfold Ctx.red
  dsimp only
  split
  · exact .trap
  · refine .branch h (.branch (x.again_canonical h) (.branch (x.redStash_canonical h) ?_))
    split
    · exact .trap
    · refine .branch (x.again_canonical h) (h.foldl (fun u o hu => ?_))
      split
      · exact hu.redLocated
      · exact hu

theorem execRed_canonical {g : Guard} {op : AtomVar} {sc : Scope} {l : LArgs} {s : State} (h : s.Canonical) : OutcomeCanonical (execRed g op sc l s) :=
  issue_canonical h (fun x hx => x.red_canonical hx)

theorem Res.Canonical.ok {s : State} (h : s.Canonical) : (Res.ok s).Canonical := h
theorem Res.Canonical.hold {s : State} (h : s.Canonical) : (Res.hold s).Canonical := h

/-! ### Transfers, EXIT, TRAP and RTT (R233 to R240) -/

theorem Ctx.transfer_canonical {x : Ctx} {target : Nat → Word} {link : Option Nat} (h : x.s.Canonical) : (x.transfer target link).Canonical := by
  unfold Ctx.transfer
  split
  · exact .trap
  · exact x.okGroup_canonical h

theorem Ctx.exit_canonical {x : Ctx} (h : x.s.Canonical) : x.exit.Canonical :=
  .branch h (.branch (.hold (.branch h.endGroup h.fatal)) (.ok (State.Canonical.endIfExited (State.Canonical.settleBarriers h))))

theorem execExit_canonical {g : Guard} {s : State} (h : s.Canonical) : OutcomeCanonical (execExit g s) :=
  issue_canonical h (fun x hx => x.exit_canonical hx)

theorem execTrap_canonical {g : Guard} {code : BitVec 24} {s : State} (h : s.Canonical) : OutcomeCanonical (execTrap g code s) :=
  issue_canonical h (fun _ hx => .branch hx hx.takeTrap)

theorem execRtt_canonical {g : Guard} {s : State} (h : s.Canonical) : OutcomeCanonical (execRtt g s) :=
  issue_canonical h (fun _ hx => .branch hx (.hold (.branch hx.endGroup hx.returnFromTrap.fillWaited)))

/-! ### SPAWN, SPAWNC and UINT (R241 to R245) -/

theorem Ctx.settled_canonical {x : Ctx} (h : x.s.Canonical) : x.settled.s.Canonical := h.performReds.deliverWhere

theorem Ctx.released_canonical {x : Ctx} (rel : Rel) (h : x.s.Canonical) :
    (match rel with | some sc => x.s.release x.g x.t sc | none => x.s).Canonical := by
  cases rel with
  | none => exact h
  | some sc => exact h.release

theorem Ctx.spawn_canonical {x : Ctx} {rel : Rel} {ub ua : Nat} (h : x.s.Canonical) : (x.spawn rel ub ua).Canonical := by
  refine .branch h (.branch (x.again_canonical h) ?_)
  split
  · exact .trap
  case h_2 a _ =>
    have hjoin : (match a.join with
        | some k => (x.atomLocated (match rel with | some sc => x.s.release x.g x.t sc | none => x.s) .add32 k ⟨k.acc, 0, 1, 0⟩).1
        | none => (match rel with | some sc => x.s.release x.g x.t sc | none => x.s)).Canonical := by
      split
      · exact State.Canonical.atomLocated (x.released_canonical rel h)
      · exact x.released_canonical rel h
    dsimp only
    split
    case h_1 u hu => exact State.Canonical.enqueueTask hjoin hu
    case h_2 => exact x.again_canonical h

theorem Ctx.spawnc_canonical {x : Ctx} {rel : Rel} {uc ub ua : Nat} (h : x.s.Canonical) : (x.spawnc rel uc ub ua).Canonical := by
  refine .branch h (.branch (x.again_canonical h) ?_)
  split
  · exact .trap
  · refine .branch ?_ (x.released_canonical rel h)
    generalize hin : State.enqueueTask _ _ _ _ _ _ _ _ = o
    cases o with
    | none => exact x.again_canonical h
    | some u => exact State.Canonical.enqueueTask (x.released_canonical rel h) hin

theorem execSpawn_canonical {g : Guard} {rel : Rel} {ub ua : BitVec 6} {s : State} (h : s.Canonical) : OutcomeCanonical (execSpawn g rel ub ua s) :=
  issue_canonical h (fun x hx => x.settled.spawn_canonical (x.settled_canonical hx))

theorem execSpawnc_canonical {g : Guard} {rel : Rel} {uc ub ua : BitVec 6} {s : State} (h : s.Canonical) :
    OutcomeCanonical (execSpawnc g rel uc ub ua s) :=
  issue_canonical h (fun x hx => x.settled.spawnc_canonical (x.settled_canonical hx))

theorem execUint_canonical {g : Guard} {payload : BitVec 24} {sa : BitVec 6} {s : State} (h : s.Canonical) :
    OutcomeCanonical (execUint g payload sa s) :=
  issue_canonical h (fun x hx => .branch hx (x.afterRelease_canonical hx (fun _ hu => hu)))

end Sys2Proof.Machine
end

section
/-! Memory's canonical form, kept by virtual interfaces, their queues and grids, and by the privileged instructions. -/
namespace Sys2Proof.Machine

/-! ### Queue entries, keys and grids (R26, R285 to R287, R294) -/

theorem State.Canonical.flagError {s : State} {cause : Nat} (h : s.Canonical) : (s.flagError cause).Canonical := .branch h h

theorem State.Canonical.trimQueue {s : State} {q : Queue} (h : s.Canonical) : (s.trimQueue q).Canonical :=
  .branch h (State.Canonical.setVi (State.Canonical.deviceForce h))

theorem State.Canonical.freeEntry {s : State} {vi addr : Nat} (h : s.Canonical) : (s.freeEntry vi addr).Canonical := by
  unfold State.freeEntry
  split
  · exact h
  · dsimp only
    split
    · exact State.Canonical.trimQueue (h.deviceForce (vi := vi) (va := addr) (bs := leBytes 4 0))
    · exact h.deviceForce (vi := vi) (va := addr) (bs := leBytes 4 0)

theorem State.Canonical.setEntry {s : State} {vi addr st rounds foot : Nat} (h : s.Canonical) : (s.setEntry vi addr st rounds foot).Canonical :=
  h.deviceForce.deviceForce

theorem State.Canonical.entryState {s : State} {vi addr st : Nat} (h : s.Canonical) : (s.entryState vi addr st).Canonical := by
  unfold State.entryState
  split
  · exact h.setEntry
  · exact h

theorem State.Canonical.releaseKeys {s : State} {uid : Nat} (h : s.Canonical) : (s.releaseKeys uid).Canonical := h

theorem State.Canonical.gridSettle {s : State} {gridId : Nat} (h : s.Canonical) : (s.gridSettle gridId).Canonical := by
  unfold State.gridSettle
  split
  · exact h
  · refine .branch (.branch ?_ ?_) h
    · split
      · exact State.Canonical.entryState h
      · exact h
    · split
      · exact State.Canonical.freeEntry h
      · exact h

theorem State.Canonical.discardTask {s : State} {t : Task} (h : s.Canonical) : (s.discardTask t).Canonical := by
  unfold State.discardTask
  refine State.Canonical.gridSettle ?_
  cases t.entry with
  | none => exact h
  | some a =>
    exact State.Canonical.freeEntry (s := (s.modTask t.uid (fun k => { k with state := .discarded, ended := true })).releaseKeys t.uid) h

theorem State.Canonical.discardGrids {s : State} {vi : Nat} (h : s.Canonical) : (s.discardGrids vi).Canonical := by
  refine State.Canonical.foldl h (fun u g hu => .branch hu ?_)
  split
  · exact hu.freeEntry
  · exact hu

/-! ### A virtual interface started or disabled (R345) -/

theorem State.Canonical.disableVi {s : State} {vi : Nat} (h : s.Canonical) : (s.disableVi vi).Canonical := by
  refine State.Canonical.foldl (State.Canonical.foldl (State.Canonical.discardGrids ?_) (fun _ _ hu => hu.releaseKeys)) (fun _ _ hu => hu.gridSettle)
  exact State.Canonical.foldl (State.Canonical.foldl h (fun _ _ hu => hu.killTeam)) (fun _ _ hu => hu.discardTask)

theorem State.Canonical.linkQueues {s : State} {vi : Nat} (h : s.Canonical) : (s.linkQueues vi).Canonical := by
  refine State.Canonical.foldl h (fun u q hu => .branch hu (.branch hu.flagError ?_))
  split
  case h_1 hseg =>
    have hfresh := State.Canonical.ofPair hu.freshSegment hseg
    exact hfresh
  case h_2 => exact hu.flagError

theorem State.Canonical.enableVi {s : State} {vi : Nat} (h : s.Canonical) : (s.enableVi vi).Canonical :=
  .branch h (State.Canonical.linkQueues h)

/-! ### The privileged instructions (R246 to R251) -/

theorem State.Canonical.dropRange {s : State} {vi base len : Nat} (h : s.Canonical) : (s.dropRange vi base len).Canonical := by
  have hlens : ∀ l : List Line, (l.foldl (fun u l => u.lensFirst l.core l.line) s).Canonical := fun _ => h.foldl (fun _ _ hu => hu.lensFirst)
  unfold State.dropRange
  exact Memory.wf_of (Mem.foldl_wf (m := State.mem _) (hlens _) (fun _ _ hn => Mem.refreshLine_wf _ hn)) rfl rfl rfl rfl rfl rfl

theorem State.Canonical.setRegion {s : State} {vi k : Nat} {r : Region} (h : s.Canonical) : (s.setRegion vi k r).Canonical :=
  State.Canonical.dropRange (State.Canonical.dropRange h)

theorem State.Canonical.dropTlb {s : State} {t : Tlb → Bool} (h : s.Canonical) : (s.dropTlb t).Canonical := h
theorem State.Canonical.takeRoot {s : State} {vi : Nat} (h : s.Canonical) : (s.takeRoot vi).Canonical := h
theorem State.Canonical.dropCode {s : State} {vi : Nat} {t : Nat → Bool} (h : s.Canonical) : (s.dropCode vi t).Canonical := h

theorem sysOp_canonical {i : Instr} {dyn : Ctx → Option Nat} {names : List Named} {f : Ctx → Res} {s : State} (h : s.Canonical)
    (hf : ∀ x : Ctx, x.s.Canonical → (f x).Canonical) : OutcomeCanonical (sysOp i dyn names f s) :=
  issueDyn_canonical h (fun x hx => .branch (hf x hx) hx)

theorem setvi_canonical {i : Instr} {sb sa : BitVec 6} {f : Nat → VI → VI} {s : State} (h : s.Canonical) : OutcomeCanonical (setvi i sb sa f s) :=
  sysOp_canonical h (fun _ hx => hx)

theorem execSetseg_canonical {g : Guard} {seg : BitVec 3} {sb sa : BitVec 6} {s : State} (h : s.Canonical) :
    OutcomeCanonical (execSetseg g seg sb sa s) :=
  sysOp_canonical h (fun x hx => .branch .trap (x.okGroup_canonical hx))

theorem execSetrgn_canonical {g : Guard} {entry : BitVec 4} {sb sa : BitVec 6} {s : State} (h : s.Canonical) :
    OutcomeCanonical (execSetrgn g entry sb sa s) :=
  sysOp_canonical h (fun _ hx => hx.setRegion)

theorem execSetviState_canonical {g : Guard} {sb sa : BitVec 6} {s : State} (h : s.Canonical) : OutcomeCanonical (execSetviState g sb sa s) :=
  sysOp_canonical h (fun _ hx => .ok (.branch hx.disableVi hx.enableVi))

end Sys2Proof.Machine
end

section
/-! Memory's canonical form, kept by engine commands (R187, R193, R205 to R215). -/
namespace Sys2Proof.Machine

/-! ### Issue -/

theorem State.Canonical.modCmd {s : State} {key : Nat} {f : Cmd → Cmd} (h : s.Canonical) : (s.modCmd key f).Canonical := h

theorem State.Canonical.reserveLines {s : State} {key : Nat} {ls : List (Nat × Nat)} (h : s.Canonical) : (s.reserveLines key ls).Canonical :=
  Mem.foldl_wf (m := s.mem) h (fun _ _ hn => Mem.setLine_wf _ hn)

theorem State.Canonical.startCmd {s : State} {c : Cmd} {ud : Nat} {t : Task} {g : Group} (h : s.Canonical) : (s.startCmd c ud t g).Canonical := by
  have hposted : ∀ u : State, u.Canonical → ((u.performReds (fun r => r.gid == c.gid)).deliverWhere (fun q => q.gid == c.gid)).Canonical :=
    fun _ hu => hu.performReds.deliverWhere
  unfold State.startCmd
  refine .branch h (.branch (hposted _ h) (State.Canonical.reserveLines ?_))
  cases c.acq with
  | none => exact hposted _ h
  | some a => exact State.Canonical.acquireBy (hposted _ h)

theorem Ctx.engine_canonical {x : Ctx} {op : EngineOp} {acq : AcqPart} {rel : Rel} {cmp ua ub ud : Nat} {control : DWord} (h : x.s.Canonical) :
    (x.engine op acq rel cmp ua ub ud control).Canonical :=
  .branch h (.branch (x.again_canonical h) (.branch (.ok (State.Canonical.startCmd h)) h))

theorem execStflush_canonical {g : Guard} {rel : Rel} {cmp : BitVec 3} {ub ua : BitVec 6} {s : State} (h : s.Canonical) :
    OutcomeCanonical (execStflush g rel cmp ub ua s) :=
  issue_canonical h (fun x hx => x.engine_canonical hx)

/-! ### Reads of a piece -/

/-- Every state that a read or a write of a piece leaves is canonical. -/
def EngRes.Canonical {α : Type} (P : α → Prop) (r : EngRes α) : Prop :=
  match r with
  | .ok a => P a
  | .wait s => s.Canonical
  | .fault _ => True

theorem Cmd.readPlace_canonical {c : Cmd} {s : State} {t : Task} {race : Bool} {e : Place × Nat} {n : Nat} (h : s.Canonical) :
    (c.readPlace s t race e n).Canonical (fun _ => True) := by
  unfold Cmd.readPlace
  dsimp only
  split
  · exact True.intro
  · split
    · split
      · exact True.intro
      · split
        · exact True.intro
        · split <;> exact True.intro
    · split
      · exact Mem.startFill_wf h
      · split
        · exact h
        · split
          · exact True.intro
          · split
            · exact True.intro
            · split <;> exact True.intro

theorem Cmd.readAll_canonical {c : Cmd} {s : State} {t : Task} {race : Bool} {n : Nat} {l : List (Place × Nat)} (h : s.Canonical) :
    (c.readAll s t race n l).Canonical (fun _ => True) := by
  induction l with
  | nil => exact True.intro
  | cons e r ih =>
    have hplace := c.readPlace_canonical (t := t) (race := race) (e := e) (n := n) h
    rw [Cmd.readAll]
    split
    · exact True.intro
    case h_2 u hu =>
      rw [hu] at hplace
      exact hplace
    · split
      · exact True.intro
      case h_2 u hu =>
        rw [hu] at ih
        exact ih
      · exact True.intro

/-! ### Writes of a part -/

theorem Cmd.anchor_canonical {c : Cmd} {s : State} {core line : Nat} (h : s.Canonical) : (c.anchor s core line).Canonical State.Canonical := by
  unfold Cmd.anchor
  dsimp only
  split
  · exact h
  · split
    · exact h
    · split
      · exact True.intro
      · exact True.intro
      · split
        · exact True.intro
        · exact State.Canonical.noteHome (Mem.setLine_wf _ h)

theorem State.Canonical.reachLine {s : State} {key core line : Nat} (h : s.Canonical) : (s.reachLine key core line).Canonical :=
  Mem.setLine_wf _ h

theorem State.Canonical.wroteWords {s : State} {c : Cmd} {pair : Bool} {ws : List Nat} (h : s.Canonical) : (s.wroteWords c pair ws).Canonical :=
  Mem.byEngine_wf h

theorem State.Canonical.storeRepl {s : State} {gid : Nat} {ag : Agent} {pa : Nat} {bs : List Byte} (h : s.Canonical) :
    (s.storeRepl gid ag pa bs).Canonical := State.storeRepl_wf _ _ _ _ h

theorem Cmd.writePlace_canonical {c : Cmd} {s : State} {t : Task} {e : Place × Nat} {bs : List Byte} (h : s.Canonical) :
    (c.writePlace s t e bs).Canonical State.Canonical := by
  unfold Cmd.writePlace
  dsimp only
  split
  · exact True.intro
  · split
    · split
      · exact True.intro
      · split
        · exact True.intro
        · split
          · exact h
          · exact h.foldl (fun u p hu => .branch hu.noteHome.remoteStore (.branch hu.noteHome.storeRepl.noCount
              (State.Canonical.wroteWords (State.storeAtom_wf _ _ _ _ hu.noteHome))))
    · have hanchor := c.anchor_canonical (core := ‹Nat›) (line := (e.1.base + e.2) / 128) h
      split
      case h_1 u hu =>
        rw [hu] at hanchor
        exact hanchor
      case h_2 => exact True.intro
      case h_3 u hu =>
        rw [hu] at hanchor
        have hs : u.Canonical := hanchor
        split
        · exact True.intro
        · exact State.Canonical.wroteWords (State.Canonical.noCount (State.Canonical.stashWrite hs.reachLine))

/-! ### Lines that commands leave (R187) -/

theorem State.Canonical.lineDone {s : State} {core line : Nat} (h : s.Canonical) : (s.lineDone core line).Canonical := by
  have hsettled : (if (s.mem.lineOf core line).mapped.isSome then s.settleLine core line (s.mem.lineOf core line).pa else s).Canonical :=
    .branch h.settleLine h
  unfold State.lineDone
  dsimp only
  generalize (if (s.mem.lineOf core line).mapped.isSome then s.settleLine core line (s.mem.lineOf core line).pa else s) = u at hsettled ⊢
  refine State.Canonical.drainStash (State.Canonical.lineBack (State.Canonical.withMem (Mem.setLine_wf _ ?_)))
  split
  · exact Mem.refreshLine_wf _ hsettled
  · exact hsettled

theorem State.Canonical.finishLine {s : State} {key core line : Nat} (h : s.Canonical) : (s.finishLine key core line).Canonical :=
  .branch h.lineDone (Mem.setLine_wf _ h)

theorem State.Canonical.leaveLines {s : State} {c : Cmd} (h : s.Canonical) : (s.leaveLines c).Canonical := by
  unfold State.leaveLines
  refine State.Canonical.foldl (State.Canonical.foldl ?_ (fun _ _ hu => hu.lineDone)) (fun _ _ hu => hu.fillWaited)
  exact Mem.foldl_wf (m := s.mem) h (fun _ _ hn => Mem.setLine_wf _ hn)

theorem State.Canonical.consumedBy {s : State} {c : Cmd} {sub : Nat} (h : s.Canonical) : (s.consumedBy c sub).Canonical := .branch h h

theorem State.Canonical.faultCmd {s : State} {c : Cmd} {sub : Nat} (h : s.Canonical) : (s.faultCmd c sub).Canonical :=
  h.consumedBy.modCmd.leaveLines

theorem State.Canonical.endCmd {s : State} {c : Cmd} (h : s.Canonical) : (s.endCmd c).Canonical := .branch (State.Canonical.leaveLines h) h

/-! ### One step of a command -/

theorem State.Canonical.flushLine {s : State} {core line : Nat} (h : s.Canonical) : (s.flushLine core line).1.Canonical := State.flushLine_wf _ _ h

theorem Cmd.flushStep_canonical {c : Cmd} {s u : State} (h : s.Canonical) (hu : c.flushStep s = some u) : u.Canonical := by
  unfold Cmd.flushStep at hu
  dsimp only at hu
  split at hu
  · cases hu
    exact h.faultCmd
  · split at hu
    · cases hu
    · split at hu
      · cases hu
        exact h.flushLine.faultCmd
      · split at hu
        · cases hu
          exact h.flushLine.faultCmd
        · obtain rfl := Option.some.inj hu
          refine State.Canonical.modCmd (State.Canonical.withMem ?_)
          split
          · exact Mem.setLine_wf _ h.flushLine
          · exact h.flushLine

theorem State.Canonical.setParts {s : State} {key : Nat} {f : List (Nat × Nat × List Byte) → List (Nat × Nat × List Byte)} (h : s.Canonical) :
    (s.setParts key f).Canonical := h

theorem Cmd.fetchPiece_canonical {c : Cmd} {s u : State} {t : Task} {race : Bool} (h : s.Canonical) (hu : c.fetchPiece s t race = some u) :
    u.Canonical := by
  unfold Cmd.fetchPiece at hu
  dsimp only at hu
  split at hu
  · split at hu
    · cases hu
      exact h.endCmd
    · cases hu
  case h_2 p _ =>
    have hread := c.readAll_canonical (t := t) (race := race) (n := p.len) (l := p.srcs) h
    split at hu
    · cases hu
      exact h
    · split at hu
      · cases hu
        exact h.faultCmd
      case h_2 v hv =>
        rw [hv] at hread
        split at hu
        · cases hu
        · cases hu
          exact hread
      · obtain ⟨_, hu⟩ := Option.ite_none_left_eq_some.mp hu
        obtain rfl := Option.some.inj hu
        exact Mem.foldl_wf (m := State.mem _) h (fun _ _ hn => Mem.setLine_wf _ hn)

theorem Cmd.writePart_canonical {c : Cmd} {s u : State} {t : Task} {j p : Nat} {bs : List Byte} (h : s.Canonical)
    (hu : c.writePart s t j p bs = some u) : u.Canonical := by
  unfold Cmd.writePart at hu
  dsimp only at hu
  split at hu
  · cases hu
    exact h
  case h_2 pl _ =>
    have hwrite := c.writePlace_canonical (t := t) (e := (pl, c.ua + p)) (bs := bs) h
    split at hu
    · cases hu
    · split at hu
      · cases hu
        exact h.faultCmd
      · cases hu
      case h_3 v hv =>
        rw [hv] at hwrite
        have hs : v.Canonical := hwrite
        cases hu
        exact State.Canonical.foldl hs.setParts (fun _ _ hw => hw.finishLine)

theorem Cmd.step_canonical {c : Cmd} {s u : State} {t : Task} {race : Bool} {j : Nat} (h : s.Canonical) (hu : c.step s t race j = some u) :
    u.Canonical := by
  have hrefused : (if c.refusedNow s = c.refused then s
      else (s.modCmd c.key (fun d => { d with refused := c.refusedNow s })).setParts c.key (fun l =>
        if c.op = .cpym then l.filter (fun p => !(c.refusedNow s).getLsbD p.1) else l)).Canonical := .branch h h
  unfold Cmd.step at hu
  dsimp only at hu
  generalize (if c.refusedNow s = c.refused then s else _) = v at hrefused hu
  split at hu
  · cases hu
  · split at hu
    · split at hu
      · cases hu
        exact h.endCmd
      · exact c.flushStep_canonical h hu
    · split at hu
      · exact Cmd.writePart_canonical hrefused hu
      · cases hu
      · exact Cmd.fetchPiece_canonical hrefused hu

/-! ### Completion (R206 to R208) -/

theorem State.Canonical.releaseCmd {s : State} {c : Cmd} {paired : Bool} (h : s.Canonical) : (s.releaseCmd c paired).Canonical := by
  have hflushed : (if c.rel = some .pkg ∨ c.rel = some .sys then s.flushOf c.core c.gid else s).Canonical := .branch h.flushOf h
  unfold State.releaseCmd
  dsimp only
  refine Mem.writeBackAll_wf _ ?_
  generalize (if c.rel = some .pkg ∨ c.rel = some .sys then s.flushOf c.core c.gid else s) = u at hflushed ⊢
  cases c.rel with
  | none => exact hflushed
  | some sc => exact Mem.releaseCmd_wf hflushed

theorem State.Canonical.putWord {s : State} {c : Cmd} {vi : Nat} (h : s.Canonical) : (s.putWord c vi).1.Canonical := by
  unfold State.putWord
  dsimp only
  split
  · exact h
  · split
    · exact h
    · exact h.foldl (fun u p hu => .branch hu.remoteStore (.branch hu.storeRepl.noCount (.branch (State.deviceWrite_wf _ _ hu)
        (hu.foldl (fun _ _ hv => hv.redPut)))))

theorem State.Canonical.pendTrap {s : State} {ok : Group → Bool} {gid task : Nat} {b : Boundary} {late : Nat} (h : s.Canonical) :
    (s.pendTrap ok gid task b late).Canonical := by
  unfold State.pendTrap
  split
  · exact h
  · exact h

theorem State.Canonical.finishCmd {s : State} {c : Cmd} {t : Task} (h : s.Canonical) : (s.finishCmd c t).Canonical := by
  have hword : ∀ b : Bool, ∀ u : State, u.Canonical → (if b then u.putWord c t.vi else (u, 0)).1.Canonical := by
    intro b u hu
    split
    · exact hu.putWord
    · exact hu
  have hrel := h.releaseCmd (c := c) (paired := t.paired)
  exact .branch (hword _ _ hrel) (State.Canonical.pendTrap (hword _ _ hrel))

end Sys2Proof.Machine
end

section
/-! Memory's canonical form, kept by the matrix arrays, by the issue of a clause and by lanes that wake. -/
namespace Sys2Proof.Machine

/-! ### Matrix instructions (R217 to R232) -/

theorem State.Canonical.askArray {s : State} {e : ArrEntry} (h : s.Canonical) : (s.askArray e).Canonical := .branch h h

theorem Ctx.mma_canonical {x : Ctx} {sparse p z : Bool} {words : List Word} {tb ta : BitVec 4} {acc : BitVec 3} (h : x.s.Canonical) :
    (x.mma sparse p z words tb ta acc).Canonical := by
  refine .branch (x.again_canonical h) (.branch h (.branch (.hold h.fatal) ?_))
  split
  · exact .trap
  · exact State.Canonical.askArray h

theorem execMma_canonical {g : Guard} {p z : Bool} {tb ta : BitVec 4} {acc : BitVec 3} {s : State} (h : s.Canonical) :
    OutcomeCanonical (execMma g p z tb ta acc s) :=
  issue_canonical h (fun x hx => x.mma_canonical hx)

theorem execMmas_canonical {g : Guard} {p z : Bool} {lsel : BitVec 2} {v : BitVec 8} {tb ta : BitVec 4} {acc : BitVec 3} {s : State}
    (h : s.Canonical) : OutcomeCanonical (execMmas g p z lsel v tb ta acc s) :=
  issue_canonical h (fun x hx => x.mma_canonical hx)

theorem execMapset_canonical {g : Guard} {sn : BitVec 6} {ta : BitVec 4} {s : State} (h : s.Canonical) : OutcomeCanonical (execMapset g sn ta s) :=
  issue_canonical h (fun x hx => .branch (x.again_canonical hx) (.branch hx hx))

theorem execMzero_canonical {g : Guard} {p : Bool} {acc : BitVec 3} {s : State} (h : s.Canonical) : OutcomeCanonical (execMzero g p acc s) :=
  issue_canonical h (fun x hx => .branch (x.again_canonical hx) (.branch hx (.branch .trap hx)))

theorem accrd_canonical {i : Instr} {form : Nat} {r : RArgs} {s : State} (h : s.Canonical) : OutcomeCanonical (accrd i form r s) :=
  issue_canonical h (fun x hx => .branch (x.again_canonical hx) (.branch hx (by
    split
    · exact .trap
    · exact .branch .trap (.ok (State.Canonical.outstanding (s := x.enter _) hx)))))

theorem accwr_canonical {i : Instr} {i32 : Bool} {r : RArgs} {s : State} (h : s.Canonical) : OutcomeCanonical (accwr i i32 r s) :=
  issue_canonical h (fun x hx => .branch (x.again_canonical hx) (.branch hx (by
    split
    · exact .trap
    · exact hx)))

theorem execMstat_canonical {g : Guard} {clr : Bool} {sd : BitVec 6} {acc : BitVec 3} {s : State} (h : s.Canonical) :
    OutcomeCanonical (execMstat g clr sd acc s) :=
  issue_canonical h (fun x hx => .branch (x.again_canonical hx) (.branch hx (.ok (State.Canonical.outstanding (s := x.enter _) hx))))

/-! ### Acceptance, the Lens and retirement (R225, R226, R232) -/

theorem State.Canonical.acceptOp {s : State} {e : ArrEntry} (h : s.Canonical) : (s.acceptOp e).Canonical :=
  State.Canonical.modGroup (State.Canonical.deliverWhere (State.Canonical.performReds h))

theorem State.Canonical.failOp {s : State} {e : ArrEntry} {sub core addr : Nat} (h : s.Canonical) : (s.failOp e sub core addr).Canonical :=
  h.modEntry.foldl (fun _ _ hu => hu.drainStash)

theorem State.Canonical.lensRead {s : State} {e : ArrEntry} {core line : Nat} (h : s.Canonical) : (s.lensRead e core line).Canonical :=
  h.lensTake.foldl (fun _ _ hu => hu.drainStash)

theorem State.Canonical.landArray {s : State} {e : ArrEntry} {ws : List RegWrite} {fl : Flags} (h : s.Canonical) : (s.landArray e ws fl).Canonical := h

theorem State.Canonical.abortOp {s : State} {t : Task} {e : ArrEntry} (h : s.Canonical) : (s.abortOp t e).Canonical :=
  State.Canonical.pendTrap (State.Canonical.modTask h)

theorem State.Canonical.poisonedRead {s : State} {t : Task} {e : ArrEntry} {form : Nat} (h : s.Canonical) : (s.poisonedRead t e form).Canonical :=
  h.landArray.pendTrap

theorem State.Canonical.retireOp {s : State} {t : Task} {e : ArrEntry} (h : s.Canonical) : (s.retireOp t e).Canonical := by
  have hgone : ({ s with arrays := s.arrays.filter (fun d => d.key != e.key) } : State).Canonical := h
  unfold State.retireOp
  dsimp only
  split
  · exact .branch hgone.abortOp hgone.modTask
  · exact .branch hgone.abortOp hgone.modTask
  · exact hgone.modTask
  · exact .branch hgone.poisonedRead hgone.landArray
  · exact hgone.modTask
  · exact .branch hgone.landArray.modTask hgone.landArray

/-! ### The issue of a clause (R101 to R107, R302) -/

theorem State.Canonical.fetchOne {s : State} {core vi va : Nat} {t : Trans} (h : s.Canonical) : (s.fetchOne core vi va t).1.Canonical :=
  State.Canonical.noteTlb h

theorem State.Canonical.fetchWords {s u : State} {g : Group} {vi off n : Nat} {ws : List (Option DWord)} (h : s.Canonical)
    (hu : s.fetchWords g vi off n = .ok (u, ws)) : u.Canonical := by
  induction n generalizing s off ws with
  | zero =>
    cases hu
    exact h
  | succ n ih =>
    rw [State.fetchWords] at hu
    split at hu
    · cases hu
      exact h
    · dsimp only at hu
      split at hu
      · cases hu
      · cases hu
        exact h
      · split at hu
        · cases hu
        case h_2 hrest =>
          cases hu
          exact ih h.fetchOne hrest

theorem State.Canonical.takeBoundary {s : State} {g : Group} {t : Task} {p : Nat} {b : Boundary} (h : s.Canonical) : (s.takeBoundary g t p b).Canonical :=
  State.Canonical.takeTrap (State.Canonical.noteConsumed (State.Canonical.setGroup h))

theorem State.Canonical.headerTrap {s : State} {g : Group} {t : Task} {p : IssuePoint} {tr : Trap} (h : s.Canonical) :
    (s.headerTrap g t p tr).Canonical := State.Canonical.takeTrap (State.Canonical.setGroup h)

theorem State.Canonical.beginClause {s : State} {g : Group} {t : Task} {p : IssuePoint} {header : DWord} {ws : List (Option DWord)} (h : s.Canonical) :
    (s.beginClause g t p header ws).Canonical := by
  refine .branch h ?_
  split
  · exact h
  · exact State.Canonical.takeTrap h

theorem State.Canonical.issueAt {s : State} {g : Group} {t : Task} {l : Launch} {p : IssuePoint} (h : s.Canonical) : (s.issueAt g t l p).Canonical := by
  refine .branch h.headerTrap ?_
  split
  · exact h.headerTrap
  case h_2 hheader =>
    have h1 := h.fetchWords hheader
    refine .branch h1.headerTrap (.branch h1.headerTrap ?_)
    split
    · exact h1.headerTrap
    case h_2 hwords => exact .branch h.modGroup (.branch h (h1.fetchWords hwords).beginClause)
  · exact h.headerTrap

theorem State.Canonical.clauseIssue {s : State} {gid : Nat} (h : s.Canonical) : (s.clauseIssue gid).Canonical := by
  unfold State.clauseIssue
  split
  · exact h
  · split
    · exact h
    · split
      · refine .branch h ?_
        split
        · exact h.takeBoundary
        · exact h.issueAt
      · exact h

/-! ### Lanes that wake (R41, R202) -/

theorem State.Canonical.noteParks {s : State} (h : s.Canonical) : s.noteParks.Canonical := .branch h h

theorem State.Canonical.laneUnpark {s : State} {gid lane : Nat} (h : s.Canonical) : (s.laneUnpark gid lane).Canonical := by
  unfold State.laneUnpark
  split
  · exact h
  · split
    · exact .branch h.unpark h
    · exact h

theorem State.Canonical.waitTimeout {s : State} {gid lane : Nat} (h : s.Canonical) : (s.waitTimeout gid lane).Canonical := by
  unfold State.waitTimeout
  split
  · exact h
  · split
    · exact .branch h.unpark h
    · exact h

theorem State.Canonical.modMon {s : State} {gid k : Nat} {f : Monitor → Monitor} (h : s.Canonical) : (s.modMon gid k f).Canonical := h

end Sys2Proof.Machine
end

section
/-! Memory's canonical form, kept by groups that are saved and come back, and by the events of cores. -/
namespace Sys2Proof.Machine

/-! ### The save area (R71 to R73, R309, R310) -/

/-- A fold that may fail: while it does not, memory stays canonical. -/
theorem foldl_option_canonical {α : Type} {f : State → α → Option State} {l : List α} (hf : ∀ u a v, u.Canonical → f u a = some v → v.Canonical)
    {o : Option State} (ho : ∀ u, o = some u → u.Canonical) : ∀ u, l.foldl (fun o a => o.bind (fun u => f u a)) o = some u → u.Canonical := by
  induction l generalizing o with
  | nil => exact ho
  | cons a r ih =>
    refine ih (fun v hv => ?_)
    obtain ⟨w, hw, hfw⟩ := Option.bind_eq_some_iff.mp hv
    exact hf _ _ _ (ho w hw) hfw

theorem State.Canonical.markPoison {s : State} {core vi va : Nat} (h : s.Canonical) : (s.markPoison core vi va).Canonical := by
  unfold State.markPoison
  split
  · exact h
  · exact h

theorem State.Canonical.putBlocks {s u : State} {g : Group} {vi : Nat} {l : List (Nat × List Byte)} (h : s.Canonical)
    (hu : s.putBlocks g vi l = some u) : u.Canonical := by
  refine foldl_option_canonical (fun v b w hv hw => ?_) (fun v hv => ?_) u hu
  · split at hw
    · cases hw
      exact hv
    · split at hw
      case h_1 hput =>
        cases hw
        exact .ofPair hv.groupPut hput
      case h_2 => cases hw
  · cases hv
    exact h

theorem State.Canonical.saveTeam {s u : State} {t : Task} (h : s.Canonical) (hu : s.saveTeam t = some u) : u.Canonical := by
  unfold State.saveTeam at hu
  split at hu
  · cases hu
    exact h
  · split at hu
    · cases hu
      exact h
    · obtain ⟨v, hv, rfl⟩ := Option.map_eq_some_iff.mp hu
      exact State.Canonical.modTask ((h.putBlocks hv).foldl (fun _ _ hw => hw.markPoison))

theorem State.Canonical.saveTeams {s : State} (h : s.Canonical) : s.saveTeams.Canonical := by
  refine h.foldl (fun u t hu => ?_)
  split
  case h_1 hv => exact hu.saveTeam hv
  case h_2 =>
    split
    · exact hu.fatal
    · exact hu

theorem State.Canonical.saveGroup {s u : State} {g : Group} {t : Task} {cause live : Nat} (h : s.Canonical)
    (hu : s.saveGroup g t cause live = some u) : u.Canonical := by
  unfold State.saveGroup at hu
  dsimp only at hu
  split at hu
  · cases hu
  · split at hu
    · cases hu
    case h_2 hput =>
      exact State.Canonical.saveTeam (State.Canonical.modGroup ((h.putBlocks hput).foldl (fun _ _ hw => hw.markPoison))) hu

theorem State.Canonical.restoreTeam {s u : State} {t : Task} (h : s.Canonical) (hu : s.restoreTeam t = some u) : u.Canonical := by
  unfold State.restoreTeam at hu
  split at hu
  · cases hu
    exact h
  · split at hu
    · cases hu
      exact h
    · obtain ⟨b, _, rfl⟩ := Option.map_eq_some_iff.mp hu
      exact h

theorem State.Canonical.restoreGroup {s u : State} {g : Group} {t : Task} {live : Nat} (h : s.Canonical)
    (hu : s.restoreGroup g t live = some u) : u.Canonical := by
  unfold State.restoreGroup at hu
  split at hu
  · cases hu
  case h_2 hteam =>
    have hback := h.restoreTeam hteam
    obtain ⟨b, _, rfl⟩ := Option.map_eq_some_iff.mp hu
    exact State.Canonical.endIfExited (State.Canonical.settleBarriers hback)

theorem State.Canonical.saveNow {s : State} {g : Group} {t : Task} {cause live : Nat} (h : s.Canonical) : (s.saveNow g t cause live).Canonical := by
  unfold State.saveNow
  split
  case h_1 hu => exact h.saveGroup hu
  case h_2 => exact h.fatal

theorem State.Canonical.preemptionSave {s : State} {gid : Nat} (h : s.Canonical) : (s.preemptionSave gid).Canonical := by
  unfold State.preemptionSave
  split
  · exact h
  · split
    · exact h
    · split
      · exact h
      · refine .branch h.setGroup (.branch h ?_)
        split
        · exact h.saveNow
        · exact h

theorem State.Canonical.preemptTask {s : State} {uid : Nat} (h : s.Canonical) : (s.preemptTask uid).Canonical := .branch h h

theorem State.Canonical.preemptionOverrun {s : State} {gid : Nat} (h : s.Canonical) : (s.preemptionOverrun gid).Canonical := by
  unfold State.preemptionOverrun
  split
  · exact .branch h.fatal h
  · exact h

theorem State.Canonical.preemptionSaveTimeout {s : State} {gid : Nat} (h : s.Canonical) : (s.preemptionSaveTimeout gid).Canonical := by
  unfold State.preemptionSaveTimeout
  split
  · split
    · exact .branch h.fatal h
    · exact h
  · exact h

theorem State.Canonical.swapOut {s : State} {gid : Nat} (h : s.Canonical) : (s.swapOut gid).Canonical := by
  unfold State.swapOut
  split
  · exact h
  · split
    · exact .branch h.saveNow h
    · exact h

theorem State.Canonical.reinstatement {s : State} {gid : Nat} (h : s.Canonical) : (s.reinstatement gid).Canonical := by
  unfold State.reinstatement
  split
  · exact h
  · split
    · refine .branch ?_ h
      split
      case h_1 hu => exact h.restoreGroup hu
      case h_2 => exact h.fatal
    · exact h

/-! ### Engine commands (R205 to R208) -/

theorem State.Canonical.engineEnqueue {s : State} {gid : Nat} (h : s.Canonical) : (s.engineEnqueue gid).Canonical := by
  unfold State.engineEnqueue
  split
  · exact h
  · split
    · exact .branch h.startCmd.modGroup h
    · exact h

theorem State.Canonical.signalCmd {s : State} {key : Nat} {fault : Bool} (h : s.Canonical) : (s.signalCmd key fault).Canonical := by
  unfold State.signalCmd
  split
  · exact h
  · split
    · exact .branch h.finishCmd h
    · exact h

theorem State.Canonical.engineStep {s : State} {key part : Nat} (h : s.Canonical) : (s.engineStep key part).Canonical := by
  unfold State.engineStep
  split
  · exact h
  case h_2 c _ =>
    split
    case h_1 t _ =>
      cases hu : c.step s t ((t.launch.map Launch.race).getD false) part with
      | none => exact h
      | some u => exact c.step_canonical h hu
    case h_2 => exact h

/-! ### Fills of stash lines (R186) -/

theorem State.Canonical.stashFill {s : State} {core line : Nat} (h : s.Canonical) : (s.stashFill core line).Canonical := by
  unfold State.stashFill
  split
  · exact h
  · split
    · split
      · exact h
      · exact .branch (Mem.setLine_wf _ h) (State.Canonical.drainStash (State.Canonical.lineBack (State.Canonical.noteTlb
          (State.Canonical.withMem (Mem.putStash_wf _ _ _ (Mem.setLine_wf _ h.settleLine))))))
    · exact h

theorem State.Canonical.fillTrap {s : State} {g : Group} {lanes : DWord} {va : Nat} {f : PageFault} (h : s.Canonical) :
    (s.fillTrap g lanes va f).Canonical := by
  unfold State.fillTrap
  split
  · exact h.takeTrap
  · exact h

theorem State.Canonical.deferredFaults {s : State} {core line va : Nat} {f : PageFault} (h : s.Canonical) :
    (s.deferredFaults core line va f).Canonical := h.foldl (fun _ _ hu => hu)

theorem State.Canonical.stashFillFault {s : State} {core line : Nat} (h : s.Canonical) : (s.stashFillFault core line).Canonical := by
  unfold State.stashFillFault
  split
  · exact h
  · split
    · split
      · exact h
      · refine State.Canonical.foldl (State.Canonical.deferredFaults (State.Canonical.foldl
          (State.Canonical.foldl (Mem.setLine_wf _ h) (fun _ _ hu => hu.faultCmd)) (fun _ _ hu => hu.failOp))) (fun u g hu => ?_)
        split
        case h_1 ls _ =>
          refine .branch ?_ hu
          cases ls.find? (fun e => e.1 == line) with
          | none => exact hu
          | some e => exact hu.fillTrap
        case h_2 => exact hu
    · exact h

/-! ### The matrix arrays and the tick (R22, R225 to R227, R276, R297) -/

theorem State.Canonical.matrixRoom {s : State} {gid : Nat} (h : s.Canonical) : (s.matrixRoom gid).Canonical := by
  unfold State.matrixRoom
  split
  · exact .branch h.askArray h
  · exact h

theorem State.Canonical.modDie {s : State} {n : Nat} {f : Die → Die} (h : s.Canonical) : (s.modDie n f).Canonical := h

theorem State.Canonical.grantToken {s : State} {die : Nat} (h : s.Canonical) : (s.grantToken die).Canonical := by
  unfold State.grantToken
  split
  · exact .branch h.modDie.acceptOp h
  · exact h

theorem State.Canonical.lensLine {s : State} {op core line : Nat} (h : s.Canonical) : (s.lensLine op core line).Canonical := by
  unfold State.lensLine
  split
  · exact h
  · exact .branch h (.branch (.branch h h.lensRead) (Mem.startFill_wf h))

theorem State.Canonical.matrixRetire {s : State} {op : Nat} (h : s.Canonical) : (s.matrixRetire op).Canonical := by
  unfold State.matrixRetire
  split
  · exact h
  · split
    · exact .branch h.retireOp h
    · exact h

theorem State.Canonical.overdue {s : State} (h : s.Canonical) : s.overdue.Canonical :=
  State.Canonical.foldl (.branch h h.performReds.deliverWhere) (fun _ _ hu => hu.answerRevoke)

theorem State.Canonical.nextTick {s : State} (h : s.Canonical) : s.nextTick.Canonical := State.Canonical.overdue h

end Sys2Proof.Machine
end

section
/-! Memory's canonical form, kept by grids, dispatch rounds, the end of a task, completion records and submissions. -/
namespace Sys2Proof.Machine

/-! ### Grids and their strings (R26, R299, R325 to R331) -/

theorem State.Canonical.modGrid {s : State} {id : Nat} {f : Grid → Grid} (h : s.Canonical) : (s.modGrid id f).Canonical := h
theorem State.Canonical.putString {s : State} {vi va str : Nat} (h : s.Canonical) : (s.putString vi va str).Canonical := h.deviceForce
theorem State.Canonical.rerouteAll {s : State} (h : s.Canonical) : s.rerouteAll.Canonical := h

theorem State.Canonical.giveUp {s : State} {gridId status : Nat} (h : s.Canonical) : (s.giveUp gridId status).Canonical :=
  State.Canonical.gridSettle (State.Canonical.foldl h (fun _ _ hu => hu))

theorem State.Canonical.routeRewrite {s : State} {gridId : Nat} (h : s.Canonical) : (s.routeRewrite gridId).Canonical := by
  unfold State.routeRewrite
  split
  · exact h
  · split
    · exact h
    · refine .branch h ?_
      split
      · exact h.modGrid.giveUp
      · exact State.Canonical.modGrid (h.foldl (fun _ _ hu => hu.putString))

theorem State.Canonical.refuseGrid {s : State} {gridId : Nat} (h : s.Canonical) : (s.refuseGrid gridId).Canonical := h.modGrid.gridSettle

theorem State.Canonical.gridRangeDeal {s : State} {gridId : Nat} (h : s.Canonical) : (s.gridRangeDeal gridId).Canonical := by
  unfold State.gridRangeDeal
  split
  · exact h
  · refine .branch h ?_
    split
    · exact h.refuseGrid
    · split
      · exact h.refuseGrid
      · dsimp only
        split
        · exact h.modGrid.entryState
        · exact h

theorem State.Canonical.gridRangeExpansion {s : State} {gridId j : Nat} (h : s.Canonical) : (s.gridRangeExpansion gridId j).Canonical := by
  unfold State.gridRangeExpansion
  split
  · exact h
  · split
    · exact .branch h h
    · exact h

/-! ### Dispatch (R27, R74, R291 to R294, R326) -/

theorem State.Canonical.modKey {s : State} {vi k : Nat} {f : KeyEntry → KeyEntry} (h : s.Canonical) : (s.modKey vi k f).Canonical := by
  unfold State.modKey
  split
  · exact h
  · exact h

theorem State.Canonical.takeKeys {s : State} {t : Task} (h : s.Canonical) : (s.takeKeys t).Canonical :=
  h.releaseKeys.foldl (fun _ _ hu => hu.modKey)

theorem State.Canonical.reserveKeys {s : State} {t : Task} (h : s.Canonical) : (s.reserveKeys t).Canonical := h.foldl (fun _ _ hu => hu.modKey)

theorem State.Canonical.loadImage {s : State} {vi : Nat} {l : Launch} (h : s.Canonical) : (s.loadImage vi l).Canonical := by
  unfold State.loadImage
  split
  · exact .branch h (h.foldl (fun _ _ hu => hu.setRegion))
  · exact h

theorem Mem.clearStash_wf {m : Mem} {core base len : Nat} (h : Memory.wf m = true) : Memory.wf (m.clearStash core base len) = true :=
  Memory.wf_of (Memory.wf_stash (Store.filter_wf _ _ (Memory.stash_wf h)) h) rfl rfl rfl rfl rfl rfl

theorem State.Canonical.placeTask {s : State} {t : Task} {l : Launch} {units : List (Nat × List Nat × Nat)} (h : s.Canonical) :
    (s.placeTask t l units).Canonical := by
  have hcleared : ∀ (v : State) (len : Nat), v.Canonical →
      (units.foldl (fun (u : State) e => { u with mem := u.mem.clearStash e.1 e.2.2 len }) v).Canonical :=
    fun v len hv => hv.foldl (fun _ _ hu => Mem.clearStash_wf hu)
  have hacquired : ∀ v : State, v.Canonical → (units.foldl (fun u e => u.acquire e.1 t.vi 0 0 0xFFFF) v).Canonical :=
    fun v hv => hv.foldl (fun _ _ hu => hu.acquire)
  unfold State.placeTask
  dsimp only
  cases t.entry with
  | none => exact hacquired _ (hcleared _ _ (State.Canonical.modTask h.loadImage.takeKeys))
  | some a => exact State.Canonical.setEntry (hacquired _ (hcleared _ _ (State.Canonical.modTask h.loadImage.takeKeys)))


theorem State.Canonical.deny {s : State} {t : Task} {st : TaskState} {code rounds foot : Nat} (h : s.Canonical) :
    (s.deny t st code rounds foot).Canonical := by
  unfold State.deny
  dsimp only
  split
  · exact h.modTask.setEntry
  · exact h

theorem State.Canonical.denyKeys {s : State} {t : Task} (h : s.Canonical) : (s.denyKeys t).Canonical := .branch h.deny.reserveKeys h.deny

theorem State.Canonical.denyRoom {s : State} {t : Task} {unit : List Nat} (h : s.Canonical) : (s.denyRoom t unit).Canonical :=
  .branch (State.Canonical.deny h) h.deny

theorem State.Canonical.tryRecord {s : State} {t : Task} (h : s.Canonical) : (s.tryRecord t).Canonical := by
  unfold State.tryRecord
  dsimp only
  split
  · exact h
  · exact h
  · refine .branch h.modTask.denyKeys ?_
    split
    · exact .branch h.modTask.denyRoom h.modTask.placeTask
    · exact h.modTask.denyRoom

theorem State.Canonical.tryGang {s : State} {t : Task} {g : Grid} {l : Launch} (h : s.Canonical) : (s.tryGang t g l).Canonical := by
  refine .branch h ?_
  split
  · exact State.Canonical.foldl h (fun _ _ hu => hu.placeTask)
  · exact h.denyRoom

theorem State.Canonical.tryTask {s : State} {uid : Nat} (h : s.Canonical) : (s.tryTask uid).Canonical := by
  unfold State.tryTask
  split
  · exact h
  · refine .branch h ?_
    split
    · exact .branch h (.branch (.branch h.tryGang h) (.branch h h.tryRecord))
    · exact .branch h h.tryRecord
    · exact h.tryRecord

theorem State.Canonical.dispatchRound {s : State} {die : Nat} (h : s.Canonical) : (s.dispatchRound die).Canonical :=
  .branch h (h.foldl (fun _ _ hu => hu.tryTask))

theorem State.Canonical.timeSliceExpiry {s : State} {die pair : Nat} (h : s.Canonical) : (s.timeSliceExpiry die pair).Canonical :=
  .branch (State.Canonical.foldl h (fun _ _ hu => hu.preemptTask)) h

/-! ### The end of a task (R28 to R31) -/

theorem State.Canonical.reportCounts {s : State} {g : Group} (h : s.Canonical) : (s.reportCounts g).Canonical := h

theorem State.Canonical.endRelease {s : State} {t : Task} (h : s.Canonical) : (s.endRelease t).Canonical := by
  refine h.foldl (fun u g hu => ?_)
  have hdone : ((u.release g t .sys).deliverWhere (fun q => q.gid == g.gid)).Canonical := State.Canonical.deliverWhere hu.release
  dsimp only
  generalize (u.release g t .sys).deliverWhere (fun q => q.gid == g.gid) = v at hdone ⊢
  split
  · exact State.Canonical.reportCounts hdone
  · exact hdone

theorem State.Canonical.endLine {s : State} {uid : Nat} {l : Line} (h : s.Canonical) : (s.endLine uid l).Canonical :=
  .branch h.flushLine h.flushLine.modTask

theorem State.Canonical.endFree {s : State} {t : Task} (h : s.Canonical) : (s.endFree t).Canonical :=
  State.Canonical.releaseKeys (h.foldl (fun _ _ hu => hu.endLine))

theorem State.Canonical.deviceWrite {s : State} {pa : Nat} {bs : List Byte} (h : s.Canonical) : (s.deviceWrite pa bs).Canonical :=
  State.deviceWrite_wf _ _ h

theorem State.Canonical.endJoin {s : State} {t : Task} (h : s.Canonical) : (s.endJoin t).Canonical := by
  refine .branch h ?_
  split
  · exact h
  · exact .branch h (.branch (State.Canonical.deviceWrite h) h.deviceWrite)

theorem State.Canonical.endRecord {s : State} {t : Task} (h : s.Canonical) : (s.endRecord t).Canonical := by
  unfold State.endRecord
  cases t.entry with
  | none => exact h
  | some a => exact State.Canonical.entryState h

theorem State.Canonical.endContinue {s u : State} {uid : Nat} (h : s.Canonical) (hu : s.endContinue uid = some u) : u.Canonical := by
  refine foldl_option_canonical (fun v r w hv hw => ?_) (fun v hv => ?_) u hu
  · unfold State.enqueueReg at hw
    split at hw
    · exact hv.enqueueTask hw
    · cases hw
      exact hv
  · cases hv
    exact h

theorem State.Canonical.endCount {s : State} {t : Task} (h : s.Canonical) : (s.endCount t).Canonical := by
  unfold State.endCount
  refine State.Canonical.gridSettle ?_
  cases t.entry with
  | none => exact h
  | some a => exact .branch (State.Canonical.freeEntry h) h

theorem State.Canonical.endLast {s : State} {uid : Nat} (h : s.Canonical) : (s.endLast uid).Canonical := by
  unfold State.endLast
  split
  · exact h
  case h_2 hu =>
    split
    · exact (h.endContinue hu).endCount
    · exact h.endContinue hu

theorem State.Canonical.endSteps {s : State} {uid : Nat} (h : s.Canonical) : (s.endSteps uid).Canonical := by
  unfold State.endSteps
  split
  · exact h
  · dsimp only
    split
    · exact h.endJoin
    · exact .branch h.endJoin.modTask.endRecord h.endJoin.endLast

theorem State.Canonical.taskEnd {s : State} {uid : Nat} (h : s.Canonical) : (s.taskEnd uid).Canonical := by
  unfold State.taskEnd
  split
  · exact h
  · refine .branch h (.branch h.endLast (.branch h ?_))
    split
    · exact h.modTask.endSteps
    · exact .branch h.endRelease.endFree.modTask.endSteps h
    · exact h

/-! ### Completion records (R288) -/


theorem State.Canonical.afterRecord {s : State} {d : Due} (h : s.Canonical) : (s.afterRecord d).Canonical := by
  unfold State.afterRecord
  split
  · exact h
  · exact h.endLast
  · split
    · split
      · exact h.freeEntry
      · exact h
    · exact h

theorem State.Canonical.completionWrite {s : State} {vi page : Nat} (h : s.Canonical) : (s.completionWrite vi page).Canonical := by
  unfold State.completionWrite
  split
  · refine .branch h ?_
    split
    · exact h
    case h_2 hput =>
      have hwritten := State.Canonical.ofPair h.devicePut hput
      exact State.Canonical.afterRecord hwritten
  · exact h

/-! ### Submissions (R279 to R284) -/

theorem State.Canonical.answer {s : State} {a : Answer} (h : s.Canonical) : (s.answer a).Canonical := h
theorem State.Canonical.dropWrite {s : State} {vi page : Nat} (h : s.Canonical) : (s.dropWrite vi page).Canonical := h
theorem State.Canonical.wake {s : State} (h : s.Canonical) : s.wake.Canonical := .branch h h

theorem State.Canonical.hostTry {s u : State} {p : SubPage} {r : List Byte} (h : s.Canonical) (hu : s.hostTry p r = some u) : u.Canonical := by
  unfold State.hostTry at hu
  dsimp only at hu
  split at hu
  case h_1 hsub =>
    cases hu
    exact (h.submit hsub).wake.answer
  case h_2 | h_3 =>
    cases hu
    exact h.immediate.answer
  case h_4 => cases hu

theorem State.Canonical.hostSubmit {s : State} {vi page : Nat} {r : List Byte} (h : s.Canonical) : (s.hostSubmit vi page r).Canonical := by
  unfold State.hostSubmit
  split
  · exact h.answer
  · refine .branch h.dropWrite.answer (.branch h.answer (.branch h.dropWrite ?_))
    split
    case h_1 hu => exact h.hostTry hu
    case h_2 => exact .branch h.answer h

theorem State.Canonical.hostSubmitRetry {s : State} {vi page : Nat} {r : List Byte} (h : s.Canonical) : (s.hostSubmitRetry vi page r).Canonical := by
  unfold State.hostSubmitRetry
  split
  case h_1 k rest p _ _ =>
    have hrest : ({ s with host := { s.host with waiting := rest } } : State).Canonical := h
    refine .branch hrest.dropWrite.answer (.branch hrest.answer ?_)
    split
    case h_1 hu => exact hrest.hostTry hu
    case h_2 => exact .branch hrest.answer h
  · exact h

theorem State.Canonical.groupSubmitRetry {s : State} {gid : Nat} (h : s.Canonical) : (s.groupSubmitRetry gid).Canonical := by
  unfold State.groupSubmitRetry
  split
  · exact h
  · split
    · exact .branch h h
    · exact h

end Sys2Proof.Machine
end

section
/-! Memory's canonical form, kept by the events of the memory system, by die fences and by errors (R254 to R258, R272, R273, R277,
R278, R312, R316 to R323). -/
namespace Sys2Proof.Machine

/-! ### The registry's messages (R255 to R258, R277, R278) -/

theorem State.Canonical.sendRevoke {s : State} {pw : Nat} {owner : Agent} {req : Option (Agent × BitVec 4 × Word)} (h : s.Canonical) :
    (s.sendRevoke pw owner req).Canonical := h

theorem State.Canonical.request {s : State} {ag : Agent} {pa : Nat} {mask : BitVec 4} {val : Word} (h : s.Canonical) :
    (s.request ag pa mask val).Canonical := by
  refine .branch h ?_
  split
  · exact .branch (State.storeWord_wf _ _ _ _ _ h) h.sendRevoke
  · exact State.storeWord_wf _ _ _ _ _ h

theorem State.Canonical.revoke {s : State} {pa : Nat} (h : s.Canonical) : (s.revoke pa).Canonical := by
  unfold State.revoke
  dsimp only
  split
  · exact h.sendRevoke
  · exact h

theorem State.Canonical.forward {s : State} {ag : Agent} {pa : Nat} (h : s.Canonical) : (s.forward ag pa).Canonical := by
  unfold State.forward
  dsimp only
  split
  · refine .branch h (State.Canonical.withMem ?_)
    split
    · exact Mem.dropCopy_wf _ _ h
    · exact h
  · exact h

theorem State.Canonical.evict {s : State} {ag : Agent} {pa : Nat} (h : s.Canonical) : (s.evict ag pa).Canonical :=
  State.Canonical.giveBack h

/-- Registrations that are all of words registered before leave the form. -/
theorem Memory.wf_regs {m : Mem} {l : List Reg} (hl : ∀ r ∈ l, r.pa % 4 = 0) (h : Memory.wf m = true) : Memory.wf { m with regs := l } = true := by
  obtain ⟨hb, hs, ho, hp, hv, -⟩ := Memory.wf_iff.mp h
  exact Memory.wf_iff.mpr ⟨hb, hs, ho, hp, hv, hl⟩

theorem State.Canonical.spill {s : State} {pa : Nat} (h : s.Canonical) : (s.spill pa).Canonical := by
  refine State.Canonical.withMem (Mem.writeBackAll_wf _ (Memory.wf_regs (fun r hr => ?_) h))
  rcases List.mem_append.mp hr with hr | hr
  · exact Memory.regs_aligned h (List.mem_of_mem_filter hr)
  · obtain ⟨q, hq, rfl⟩ := List.mem_map.mp hr
    have haligned : q.pa % 4 = 0 := Memory.regs_aligned h (List.mem_of_mem_filter hq)
    exact haligned

/-! ### Capacities (R10, R12, R16) -/

theorem State.Canonical.shrink {α : Type} {s : State} {held : State → List α} {room : Nat} {drop : State → α → State}
    (hd : ∀ u a, u.Canonical → (drop u a).Canonical) (h : s.Canonical) : (s.shrink held room drop).Canonical := by
  refine h.foldl (fun u k hu => ?_)
  split
  · exact hd _ _ hu
  · exact hu

theorem State.Canonical.fitCaches {s : State} (h : s.Canonical) : s.fitCaches.Canonical := by
  have hl1 : ∀ (l : List Nat) (u : State), u.Canonical →
      (l.foldl (fun u c => u.shrink (fun v => v.mem.l1Held c) Config.l1Lines (fun v a => v.evict (l1Of c) a)) u).Canonical :=
    fun l u hu => hu.foldl (fun _ _ hv => hv.shrink (fun _ _ hw => hw.evict))
  have hslices : ∀ (l : List Nat) (u : State), u.Canonical →
      (l.foldl (fun u k => u.shrink (fun v => v.mem.sliceHeld k) Config.sliceLines State.spill) u).Canonical :=
    fun l u hu => hu.foldl (fun _ _ hv => hv.shrink (fun _ _ hw => hw.spill))
  have hcode : ∀ u : State, u.Canonical → (if s.mem.icache.length ≤ Config.icacheLines then u
      else ((s.mem.icache.map (fun e => e.core)).eraseDups).foldl (fun u c => u.shrink (fun v => v.mem.icacheHeld c) Config.icacheLines (fun v a =>
        { v with mem := { v.mem with icache := v.mem.icache.filter (fun e => !(e.core == c && e.vi == a.1 && alignDown e.va 128 == a.2)) } })) u).Canonical :=
    fun u hu => .branch hu (hu.foldl (fun _ _ hv => hv.shrink (fun _ _ hw => hw)))
  exact .branch (hcode _ (.branch h (hl1 _ _ h))) (hslices _ _ (hcode _ (.branch h (hl1 _ _ h))))

/-! ### Posted writes (R183, R195, R272) -/

theorem State.Canonical.redPerform {s : State} {k : Nat} (h : s.Canonical) : (s.redPerform k).Canonical := by
  unfold State.redPerform
  split
  · exact h
  · exact .branch h (State.performRed_wf _ h)

theorem State.Canonical.remoteRefusal {s : State} {k : Nat} (h : s.Canonical) : (s.remoteRefusal k).Canonical := by
  unfold State.remoteRefusal
  split
  · exact h
  · exact h

theorem State.Canonical.replUpdate {s : State} {k : Nat} (h : s.Canonical) : (s.replUpdate k).Canonical := by
  unfold State.replUpdate
  split
  · exact h
  · exact .branch h (State.replArrives_wf _ h)

/-! ### Walks, frame owners and home moves (R273, R312, R315, R316) -/

theorem State.Canonical.tableWalk {s : State} {die vi va : Nat} {acc : Access} (h : s.Canonical) : (s.tableWalk die vi va acc).Canonical := by
  refine .branch h ?_
  split
  · exact .branch h h
  · exact h

theorem State.Canonical.dropFrame {s : State} {pa : Nat} (h : s.Canonical) : (s.dropFrame pa).Canonical := h.dropTlb

theorem State.Canonical.flushRepls {s : State} {t : ReplWrite → Bool} (h : s.Canonical) : (s.flushRepls t).Canonical := State.flushRepls_wf _ h

theorem State.Canonical.quitFrame {s : State} {pa : Nat} (h : s.Canonical) : (s.quitFrame pa).Canonical := by
  unfold State.quitFrame
  dsimp only
  generalize hu : List.foldl State.answerRevoke _ _ = u
  have hserved : u.Canonical := by
    rw [← hu]
    exact State.Canonical.foldl (State.Canonical.flushRepls h.performReds) (fun _ _ hv => hv.answerRevoke)
  generalize hm : u.mem.writeBackAll _ = m
  have hback : Memory.wf m = true := by
    rw [← hm]
    exact Mem.writeBackAll_wf _ hserved
  exact Memory.wf_of (Memory.wf_homeVa (Store.wf_set _ _ _ (Memory.homeVa_wf hback)) (Memory.wf_filterRegs _ hback)) rfl rfl rfl rfl rfl rfl

theorem Memory.wf_owners {m : Mem} {b : Store 8} (hb : b.wf = true) (h : Memory.wf m = true) : Memory.wf { m with owners := b } = true := by
  obtain ⟨hbytes, hs, -, hp, hv, hr⟩ := Memory.wf_iff.mp h
  exact Memory.wf_iff.mpr ⟨hbytes, hs, hb, hp, hv, hr⟩

theorem Memory.owners_wf {m : Mem} (h : Memory.wf m = true) : m.owners.wf = true := by
  obtain ⟨-, -, ho, -⟩ := Memory.wf_iff.mp h
  exact ho

theorem State.Canonical.setOwner {s : State} {k : Nat} {b : Byte} (h : s.Canonical) :
    ({ s with mem := { s.mem with owners := s.mem.owners.set k b } } : State).Canonical :=
  Memory.wf_owners (Store.wf_set _ _ _ (Memory.owners_wf h)) h

theorem State.Canonical.frameOwner {s : State} {die frame : Nat} {vi : Option (BitVec 6)} (h : s.Canonical) : (s.frameOwner die frame vi).Canonical :=
  .branch (State.Canonical.setOwner (.branch h.dropFrame (State.Canonical.quitFrame h.dropFrame))) h

theorem State.Canonical.movePage {s : State} {old new n : Nat} (h : s.Canonical) : (s.movePage old new n).Canonical := State.movePage_wf _ _ _ h

theorem State.Canonical.moveRepl {s : State} {old new n : Nat} (h : s.Canonical) : (s.moveRepl old new n).Canonical :=
  (State.Canonical.flushRepls h).foldl (fun _ _ hu => hu.movePage)

theorem State.Canonical.homeMove {s : State} {vi va die frame : Nat} (h : s.Canonical) : (s.homeMove vi va die frame).Canonical := by
  unfold State.homeMove
  dsimp only
  split
  · exact .branch (State.Canonical.dropTlb (State.Canonical.deviceWrite (.branch h.moveRepl h.movePage))) h
  · exact h

/-! ### Die fences (R300, R301, R322, R323) -/

theorem State.Canonical.countLost {s : State} {gid va : Nat} (h : s.Canonical) : (s.countLost gid va).Canonical := h
theorem State.Canonical.dropTask {s : State} {t : Task} (h : s.Canonical) : (s.dropTask t).Canonical := h
theorem State.Canonical.rebuildKeys {s : State} (h : s.Canonical) : s.rebuildKeys.Canonical := h

theorem State.Canonical.loseWrites {s : State} {uid : Nat} (h : s.Canonical) : (s.loseWrites uid).Canonical :=
  h.foldl (fun _ _ hu => hu.foldl (fun _ _ hv => hv.countLost))

theorem State.Canonical.killFenced {s : State} {t : Task} (h : s.Canonical) : (s.killFenced t).Canonical :=
  State.Canonical.foldl (s := _) h (fun _ _ hu => .branch hu.endGroup hu.reportCounts)

theorem State.Canonical.requeue {s : State} {t : Task} {die : Nat} (h : s.Canonical) : (s.requeue t die).Canonical := by
  unfold State.requeue
  dsimp only
  split
  · exact State.Canonical.entryState h
  · exact h

theorem State.Canonical.fenceTask {s : State} {die : Nat} {t : Task} (h : s.Canonical) : (s.fenceTask die t).Canonical := by
  refine .branch h ?_
  split
  · exact .branch h.killFenced (.branch h.dropTask.modTask h.requeue)
  · exact .branch (.branch h.releaseKeys.modTask.modGrid h.releaseKeys.modTask) h.modTask
  · exact .branch (.branch h.releaseKeys.modTask.modGrid h.releaseKeys.modTask) h.modTask
  · exact h

theorem State.Canonical.fenceGrid {s : State} {die : Nat} {g : Grid} (h : s.Canonical) : (s.fenceGrid die g).Canonical := by
  unfold State.fenceGrid
  split
  · exact h
  · exact .branch h (.branch h.modGrid h.modGrid)

theorem Mem.fence_wf {m : Mem} {die : Nat} (h : Memory.wf m = true) : Memory.wf (m.fence die) = true := Memory.wf_filterRegs _ h

theorem State.Canonical.serveFenced {s : State} {old : List Revoke} {die : Nat} (h : s.Canonical) : (s.serveFenced old die).Canonical :=
  h.foldl (fun _ _ hu => hu.serve)

theorem State.Canonical.replLost {s : State} {r : ReplWrite} (h : s.Canonical) : (s.replLost r).Canonical := State.replLost_wf _ h

theorem State.Canonical.fenceLosses {s : State} {die : Nat} (h : s.Canonical) : (s.fenceLosses die).Canonical :=
  State.Canonical.foldl (h.foldl (fun _ _ hu => hu.replLost)) (fun _ _ hu => hu.loseWrites)

theorem State.Canonical.fenceMem {s : State} {die : Nat} {ds : List Die} {rc : List (Nat × Nat)} (h : s.Canonical) :
    ({ s with dies := ds, mem := s.mem.fence die, reservedCores := rc } : State).Canonical := Mem.fence_wf h

theorem State.Canonical.fenceTasks {s : State} {die : Nat} {l : List Task} (h : s.Canonical) :
    (l.foldl (fun u t => u.fenceTask die t) s).Canonical := h.foldl (fun _ _ hu => hu.fenceTask)

theorem State.Canonical.fenceGrids {s : State} {die : Nat} {l : List Grid} (h : s.Canonical) :
    (l.foldl (fun u g => u.fenceGrid die g) s).Canonical := h.foldl (fun _ _ hu => hu.fenceGrid)

theorem State.Canonical.settleGrids {s : State} {l : List Grid} (h : s.Canonical) : (l.foldl (fun u g => u.gridSettle g.gridId) s).Canonical :=
  h.foldl (fun _ _ hu => hu.gridSettle)

theorem State.Canonical.fenceDie {s : State} {die : Nat} (h : s.Canonical) : (s.fenceDie die).Canonical := by
  have hlost : (s.fenceLosses die).Canonical := h.fenceLosses
  unfold State.fenceDie
  split
  · exact h
  · dsimp only
    generalize s.fenceLosses die = u at hlost ⊢
    exact State.Canonical.settleGrids (State.Canonical.rebuildKeys (State.Canonical.fenceGrids (State.Canonical.fenceTasks
      (State.Canonical.serveFenced (State.Canonical.fenceMem hlost)))))

theorem State.Canonical.linkDead {s : State} {a b : Nat} (h : s.Canonical) : (s.linkDead a b).Canonical :=
  .branch h (.branch h (.branch h h))

theorem State.Canonical.chipDead {s : State} {chip : Nat} (h : s.Canonical) : (s.chipDead chip).Canonical :=
  State.Canonical.deliverWhere h

theorem State.Canonical.flit {s : State} {port : Nat} {f : Flit} (h : s.Canonical) : (s.flit port f).Canonical := .branch h h

/-! ### Errors (R317, R318, R321) -/

theorem State.Canonical.terminate {s : State} {j : Nat} (h : s.Canonical) : (s.terminate j).Canonical :=
  .branch h (h.foldl (fun _ _ hu => hu.disableVi))

theorem State.Canonical.errCore {s : State} {core : Nat} (h : s.Canonical) : (s.errCore core).Canonical := .branch h (.branch h h.terminate)

theorem State.Canonical.poisonWord {s : State} {pa : Nat} (h : s.Canonical) : (s.poisonWord pa).Canonical := h

theorem State.Canonical.stashError {s : State} {core addr : Nat} (h : s.Canonical) : (s.stashError core addr).Canonical := by
  unfold State.stashError
  dsimp only
  split
  · exact h.poisonWord
  · exact h

theorem State.Canonical.l1Error {s : State} {ag : Agent} {core pa : Nat} (h : s.Canonical) : (s.l1Error ag core pa).Canonical :=
  .branch h.poisonWord (Mem.dropCopy_wf _ _ h)

theorem State.Canonical.regError {s : State} {pa : Nat} (h : s.Canonical) : (s.regError pa).Canonical :=
  State.Canonical.foldl (State.Canonical.withMem (Memory.wf_filterRegs _ h)) (fun _ _ hu => hu.poisonWord)

theorem State.Canonical.strikeAt {s : State} {site : ErrSite} (h : s.Canonical) : (s.strikeAt site).Canonical := by
  cases site with
  | vector | uniform | predicate | index => exact h.modGroup
  | tileReg | accValue => exact h.modTask
  | groupControl gid =>
    unfold State.strikeAt
    dsimp only
    split
    · exact .branch h.fatal h
    · exact h
  | stashWord => exact .branch h.stashError h
  | l1Word => exact .branch h.l1Error h
  | icacheLine => exact h
  | l2Word | hbmWord => exact .branch h.poisonWord h
  | l2Registration => exact .branch h.regError h
  | serviceL1 => exact .branch (State.Canonical.errCore h.l1Error) h.l1Error
  | privilegedUse => exact .branch (State.Canonical.errCore h) h
  | firmwareCore => exact .branch h.errCore h
  | keyTable | prismQueue | spillTable => exact h.fenceDie

theorem State.Canonical.strike {s : State} {site : ErrSite} (h : s.Canonical) : (s.strike site).Canonical :=
  .branch (State.Canonical.strikeAt h) h.strikeAt

theorem State.Canonical.uncorrectable {s : State} {site : ErrSite} (h : s.Canonical) : (s.uncorrectable site).Canonical := h.strike.modDie

theorem State.Canonical.restarted {s : State} (h : s.Canonical) : s.restarted.Canonical :=
  State.Canonical.foldl (s := { s with host := _ }) h (fun _ _ hu => hu.errCore)

end Sys2Proof.Machine
end

section
/-! Memory's canonical form, kept by the host's accesses, the management window, power, lifecycle and debug (R280, R338 to R353). -/
namespace Sys2Proof.Machine

/-! ### BAR2 and interrupts (R338, R344) -/

theorem State.Canonical.flushBridge {s : State} (h : s.Canonical) : s.flushBridge.Canonical := State.Canonical.flushRepls h

theorem State.Canonical.releaseBridge {s : State} {vi : Nat} (h : s.Canonical) : (s.releaseBridge vi).Canonical := by
  have hback : s.flushBridge.Canonical := h.flushBridge
  exact State.Canonical.withMem (Memory.wf_mapRegs _ (fun r => (apply_ite Reg.pa _ _ _).trans (ite_self r.pa)) hback)

theorem State.Canonical.bar2Read {s : State} {n off len : Nat} (h : s.Canonical) : (s.bar2Read n off len).Canonical := by
  have hback : (s.releaseBridge n).Canonical := h.releaseBridge
  unfold State.bar2Read
  dsimp only
  generalize s.releaseBridge n = u at hback ⊢
  split
  · exact hback.answer
  · exact hback.answer

theorem State.Canonical.bar2Write {s : State} {n off : Nat} {bs : List Byte} (h : s.Canonical) : (s.bar2Write n off bs).Canonical := by
  unfold State.bar2Write
  split
  · exact h
  · exact h.foldl (fun u p hu => .branch hu.noteHome (.branch (State.remoteWrite_wf _ _ _ hu.noteHome) (State.store_wf _ _ _ _ _ _ hu.noteHome)))

theorem State.Canonical.dropInterrupt {s : State} {vi entry : Nat} {e : List Byte} (h : s.Canonical) : (s.dropInterrupt vi entry e).Canonical :=
  h.deviceForce

theorem State.Canonical.setHost {s : State} {w : HostSide} (h : s.Canonical) : ({ s with host := w } : State).Canonical := h

theorem State.Canonical.deliver {s : State} {i : Interrupt} (h : s.Canonical) : (s.deliver i).Canonical := by
  unfold State.deliver
  dsimp only
  split
  · exact h
  · refine .branch h.dropInterrupt ?_
    split
    · refine .branch h.dropInterrupt ?_
      split
      case h_1 u hu =>
        have hslot : u.Canonical := by
          refine State.Canonical.ofPair ?_ hu
          exact State.Canonical.deviceForce (State.Canonical.setHost h)
        exact hslot.answer
      case h_2 => exact h.dropInterrupt
    · split
      case h_1 u hu =>
        have hput : u.Canonical := State.Canonical.ofPair h.devicePut hu
        split
        case h_1 v hv => exact State.Canonical.ofPair (State.Canonical.deviceForce hput.flushBridge) hv
        case h_2 => exact h.dropInterrupt
      case h_2 => exact h.dropInterrupt

theorem State.Canonical.uintDelivery {s : State} (h : s.Canonical) : s.uintDelivery.Canonical := by
  unfold State.uintDelivery
  split
  · exact h
  · exact State.Canonical.deliver h

/-! ### The management window (R280, R340 to R342, R351 to R353) -/

theorem State.Canonical.registerWrite {s : State} {off : Nat} {val : Word} (h : s.Canonical) : (s.registerWrite off val).Canonical := by
  unfold State.registerWrite
  dsimp only
  split
  · exact h
  · exact .branch h.winSet (.branch h.winSet (.branch (.branch h.flagError (.branch h h.winSet)) h))

theorem State.Canonical.setPages {s : State} {l : List SubPage} (h : s.Canonical) : ({ s with pages := l } : State).Canonical := h

theorem State.Canonical.pageEnable {s : State} {vi page : Nat} (h : s.Canonical) : (s.pageEnable vi page).Canonical := by
  unfold State.pageEnable
  dsimp only
  split
  · exact h
  · split
    · exact State.Canonical.winSet (State.Canonical.winSet (State.Canonical.setPages h))
    · exact h.winSet.flagError

theorem State.Canonical.pageDisable {s : State} {vi page : Nat} (h : s.Canonical) : (s.pageDisable vi page).Canonical := .branch h h

theorem State.Canonical.maskWrite {s : State} {j : Nat} {mask : Word} (h : s.Canonical) : (s.maskWrite j mask).Canonical :=
  .branch h (.branch h.flagError h)

theorem State.Canonical.configPut {s : State} {n : Nat} (h : s.Canonical) : (s.configPut n).Canonical :=
  State.Canonical.winSet (State.Canonical.linkQueues h.setVi)

theorem State.Canonical.configReject {s : State} {n : Nat} (h : s.Canonical) : (s.configReject n).Canonical := State.Canonical.flagError h

theorem State.Canonical.configWait {s : State} {n : Nat} (h : s.Canonical) : (s.configWait n).Canonical := h

theorem State.Canonical.configApply {s : State} {n : Nat} (h : s.Canonical) : (s.configApply n).Canonical :=
  .branch h (.branch h.configWait (.branch h.configReject (.branch h.configWait h.configPut)))

theorem State.Canonical.configQuiesce {s : State} {n : Nat} (h : s.Canonical) : (s.configQuiesce n).Canonical :=
  .branch (.branch h.configReject h.configPut) h

theorem State.Canonical.telemetry {s : State} {die : Nat} (h : s.Canonical) : (s.telemetry die).Canonical := by
  unfold State.telemetry
  split
  · exact h
  · exact .branch h (State.Canonical.modDie (.branch h.ringPut h))

/-! ### Reset and power (R347, R349, R350) -/

theorem State.wiped_canonical (s : State) : s.wiped.Canonical := Memory.wf_reset

theorem State.packageReset_canonical (s : State) : s.packageReset.Canonical := by
  refine State.Canonical.branch ?_ ?_
  · exact s.wiped_canonical
  · exact s.wiped_canonical

theorem State.Canonical.showPower {s : State} (h : s.Canonical) : s.showPower.Canonical := h

theorem State.Canonical.powerNow {s : State} {p : Power} (h : s.Canonical) : (s.powerNow p).Canonical := .branch h h
theorem State.Canonical.powerLater {s : State} {p : Power} (h : s.Canonical) : (s.powerLater p).Canonical := .branch h h
theorem State.Canonical.powerEntry {s : State} (h : s.Canonical) : s.powerEntry.Canonical := .branch (.branch h h) h

theorem execPowerStateOff_canonical (s : State) : OutcomeCanonical (execPowerStateOff s) :=
  .next (State.Canonical.showPower s.wiped_canonical)

/-! ### Attestation and debug (R347 to R349) -/

theorem State.Canonical.spdm {s : State} {r : List Byte} (h : s.Canonical) : (s.spdm r).Canonical := .branch h (.branch h (.branch h h))
theorem State.Canonical.unlock {s : State} {k : List Byte} (h : s.Canonical) : (s.unlock k).Canonical := .branch h (.branch h h)

theorem State.Canonical.writeReg {s : State} {g : Group} {t : Task} {r : DebugReg} {val : BitVec 128} (h : s.Canonical) :
    (s.writeReg g t r val).Canonical := by
  cases r with
  | vector | uniform | predicate | index | counter | fsr => exact h.setGroup
  | tile | accumulator => exact h.modTask
  | gsr | repeatLeft => exact h

/-- What a session does to a group that it reaches leaves memory canonical when the access does. -/
theorem State.Canonical.debugGroup {s : State} {vi gid : Nat} {f : Group → Task → State} (h : s.Canonical) (hf : ∀ g t, (f g t).Canonical) :
    (match s.debugGroup vi gid with | some (g, t) => f g t | none => s).Canonical := by
  split
  · exact hf _ _
  · exact h

theorem State.Canonical.debug {s : State} {vi : Nat} {op : DebugOp} (h : s.Canonical) : (s.debug vi op).Canonical := by
  cases op with
  | halt | resume => exact h.debugGroup (fun _ _ => h.setGroup)
  | writeReg => exact h.debugGroup (fun _ _ => .branch h.writeReg h)
  | writeMem => exact h.devicePut
  | readVpc | readReg | readInd => exact h.debugGroup (fun _ _ => h.answer)
  | readMem va len =>
    unfold State.debug
    dsimp only
    split
    · exact h.answer
    · exact h.answer

end Sys2Proof.Machine
end

section
/-! Memory's canonical form, kept by the instructions that work on registers, those that only post a RED beside it included (R144 to R177). -/
namespace Sys2Proof.Machine

theorem intLanes_canonical {i : Instr} {d : Opnd} {srcs : List Opnd} {f : Ctx → Nat → Nat} {s : State} (h : s.Canonical) :
    OutcomeCanonical (intLanes i d srcs f s) := issue_canonical h (fun _ hx => hx)

theorem fltLanes_canonical {i : Instr} {d : Opnd} {srcs : List Opnd} {f : Ctx → Nat → Nat × Flags} {s : State} (h : s.Canonical) :
    OutcomeCanonical (fltLanes i d srcs f s) := issue_canonical h (fun _ hx => hx)

theorem specLanes_canonical {i : Instr} {d : Opnd} {srcs : List Opnd} {f : Ctx → Nat → Nat × Flags} {s : State} (h : s.Canonical) :
    OutcomeCanonical (specLanes i d srcs f s) := issue_canonical h (fun _ hx => State.Canonical.laneWiseLong hx)

theorem execMov_canonical {g : Guard} {d a : Opnd} {s : State} (h : s.Canonical) : OutcomeCanonical (execMov g d a s) := by
  refine issue_canonical h (fun x hx => ?_)
  split
  · exact Ctx.okGroup_canonical hx
  · exact Ctx.okGroup_canonical hx
  · exact hx

theorem execCvt_canonical {g : Guard} {dst src : Fmt} {k j : BitVec 3} {rnd : RMode} {nanovf : Bool} {d a : Opnd} {s : State} (h : s.Canonical) :
    OutcomeCanonical (execCvt g dst src k j rnd nanovf d a s) := by
  refine issue_canonical h (fun x hx => ?_)
  dsimp only
  refine .branch hx ?_
  split
  · exact .branch (Ctx.okGroup_canonical hx) hx
  · exact hx

/-! ### The RED of a conversion (R95, R164) -/

/-- The RED that counts flushed elements, posted to one part of the counter. -/
theorem State.Canonical.uflo {s : State} {x : Ctx} {count : Nat} {p : Nat × Nat × Trans} (h : s.Canonical) :
    (let u := s.noteTlb x.g.core x.t.vi p.1 p.2.2
      if p.2.2.lost then u.modGroup x.g.gid (fun g => g.countStore true false p.1 u.fresh)
      else if p.2.2.remote then u.redRemote x.g.gid x.t.vi p.1 .add32 count
      else
        let r : PostedRed := ⟨u.nextId, x.g.gid, u.tick.toNat, (x.lanes).getD 0 0, x.agent, p.2.2.pa, p.1, .add32, BitVec.ofNat 64 count⟩
        { u with mem := { u.mem with reds := u.mem.reds ++ [r] }, nextId := u.nextId + 1 }).Canonical :=
  .branch h.noteTlb.modGroup (.branch (State.Canonical.redRemote h.noteTlb) h.noteTlb)

theorem Ctx.addUflo_canonical {x : Ctx} {s : State} {count : Nat} (hx : x.s.Canonical) (h : s.Canonical) : (x.addUflo s count).Canonical := by
  refine .branch h (.branch hx ?_)
  dsimp only
  split
  · trivial
  · split
    · trivial
    · exact .branch hx (h.foldl (fun _ _ hu => hu.foldl (fun _ _ hv => hv.uflo)))

theorem execCvtq_canonical {g : Guard} {slot : BitVec 3} {d a b c : Opnd} {s : State} (h : s.Canonical) :
    OutcomeCanonical (execCvtq g slot d a b c s) := issue_canonical h (fun _ hx => Ctx.addUflo_canonical hx hx.setGroup)

theorem execCvtqAuto_canonical {g : Guard} {slot : BitVec 3} {d a c : Opnd} {s : State} (h : s.Canonical) :
    OutcomeCanonical (execCvtqAuto g slot d a c s) := issue_canonical h (fun _ hx => Ctx.addUflo_canonical hx hx.setGroup)

/-! ### Reductions and scans (R166, R167) -/

theorem Ctx.noteEmpty_canonical {x : Ctx} (h : x.s.Canonical) : x.noteEmpty.s.Canonical := h

theorem execRedv_canonical {g : Guard} {op : RedOp} {d a : Opnd} {s : State} (h : s.Canonical) : OutcomeCanonical (execRedv g op d a s) :=
  issue_canonical h (fun _ hx => State.Canonical.branch (Ctx.noteEmpty_canonical hx) (State.Canonical.outstanding (Ctx.noteEmpty_canonical hx)))

theorem Ctx.scan_canonical {x : Ctx} {op : RedOp} {d : Opnd} {vals : List Nat} (h : x.s.Canonical) : (x.scan op d vals).Canonical :=
  State.Canonical.branch (Ctx.noteEmpty_canonical h) (State.Canonical.outstanding (Ctx.noteEmpty_canonical h))

/-! ### System values -/

theorem execGetsys_canonical {g : Guard} {v : SysVal} {d : SysDst} {s : State} (h : s.Canonical) : OutcomeCanonical (execGetsys g v d s) :=
  issue_canonical h (fun _ hx => hx)

theorem Ctx.copy_canonical {x : Ctx} {op : EngineOp} {y : YArgs} (h : x.s.Canonical) : (x.copy op y).Canonical := Ctx.engine_canonical h

end Sys2Proof.Machine
end

section
/-! Memory's canonical form is kept by every instruction, by every event and by every step (log 1, log 2). -/
namespace Sys2Proof.Machine

/-- Whatever is executed leaves memory canonical. -/
theorem exec_canonical {s : State} (i : Instr) (h : s.Canonical) : OutcomeCanonical (exec i s) := by
  cases i with
  | iadd | isub | imul | imulh | imad | imin | imax | iabs | ineg | iaddSat | isubSat | iaddX2 | isubX2 | iminX2 | imaxX2 | and | or
  | xor | not | shl | shr | sar | rot | bfe | bfi | popc | clz | brev | sel | isetp | movi | iaddImm | imulImm | andImm | orImm
  | xorImm | shlImm | shrImm | sarImm | voteAny | voteAll | pand | por | pxor | pnot | pmov | idxget | elect =>
    dsimp only [exec]
    exact intLanes_canonical h
  | fadd | fsub | fmul | ffma | fmin | fmax | fclamp | fsetp | frnd | hadd2 | hfma2 | fdot4 | faddImm | fmulImm =>
    dsimp only [exec]
    exact fltLanes_canonical h
  | exp2 | lg2 | rcp | rsq | sqrt =>
    dsimp only [exec]
    exact specLanes_canonical h
  | lea | iadd64 | moviHi | moviSx | leaImm | cvtdq | bscale | rfal | voteBallot | idxset | rpt | nop | yield =>
    dsimp only [exec]
    exact issue_canonical h (fun _ hx => hx)
  | perm =>
    dsimp only [exec]
    exact issue_canonical h (fun _ hx => State.Canonical.laneWiseLong hx)
  | scanv | scanvExcl =>
    dsimp only [exec]
    exact issue_canonical h (fun _ hx => Ctx.scan_canonical hx)
  | mov =>
    dsimp only [exec]
    exact execMov_canonical h
  | cvt =>
    dsimp only [exec]
    exact execCvt_canonical h
  | cvtq =>
    dsimp only [exec]
    exact execCvtq_canonical h
  | cvtqAuto =>
    dsimp only [exec]
    exact execCvtqAuto_canonical h
  | redv =>
    dsimp only [exec]
    exact execRedv_canonical h
  | getsys =>
    dsimp only [exec]
    exact execGetsys_canonical h
  | ld =>
    dsimp only [exec]
    exact execLd_canonical h
  | st =>
    dsimp only [exec]
    exact execSt_canonical h
  | lda =>
    dsimp only [exec]
    exact execLda_canonical h
  | stl =>
    dsimp only [exec]
    exact execStl_canonical h
  | pref =>
    dsimp only [exec]
    exact execPref_canonical h
  | prefL2 =>
    dsimp only [exec]
    exact execPrefL2_canonical h
  | stmap =>
    dsimp only [exec]
    exact execStmap_canonical h
  | stflush =>
    dsimp only [exec]
    exact execStflush_canonical h
  | atom =>
    dsimp only [exec]
    exact execAtom_canonical h
  | groupSubmission =>
    dsimp only [exec]
    exact execGroupSubmission_canonical h
  | red =>
    dsimp only [exec]
    exact execRed_canonical h
  | fence =>
    dsimp only [exec]
    exact execFence_canonical h
  | acq =>
    dsimp only [exec]
    exact execAcq_canonical h
  | rel =>
    dsimp only [exec]
    exact execRel_canonical h
  | monw =>
    dsimp only [exec]
    exact execMonw_canonical h
  | wait =>
    dsimp only [exec]
    exact execWait_canonical h
  | bar =>
    dsimp only [exec]
    exact execBar_canonical h
  | barArrive =>
    dsimp only [exec]
    exact execBarArrive_canonical h
  | mapset =>
    dsimp only [exec]
    exact execMapset_canonical h
  | mma =>
    dsimp only [exec]
    exact execMma_canonical h
  | mmas =>
    dsimp only [exec]
    exact execMmas_canonical h
  | mzero =>
    dsimp only [exec]
    exact execMzero_canonical h
  | mstat =>
    dsimp only [exec]
    exact execMstat_canonical h
  | exit =>
    dsimp only [exec]
    exact execExit_canonical h
  | trap =>
    dsimp only [exec]
    exact execTrap_canonical h
  | rtt =>
    dsimp only [exec]
    exact execRtt_canonical h
  | spawn =>
    dsimp only [exec]
    exact execSpawn_canonical h
  | spawnc =>
    dsimp only [exec]
    exact execSpawnc_canonical h
  | uint =>
    dsimp only [exec]
    exact execUint_canonical h
  | setseg =>
    dsimp only [exec]
    exact execSetseg_canonical h
  | setrgn =>
    dsimp only [exec]
    exact execSetrgn_canonical h
  | setviState =>
    dsimp only [exec]
    exact execSetviState_canonical h
  | evtAdd | evtSub | evtSet =>
    dsimp only [exec]
    exact evtOp_canonical h
  | cpy | cpym | gath | coll =>
    dsimp only [exec]
    exact issue_canonical h (fun _ hx => Ctx.copy_canonical hx)
  | accrdF32 | accrdPair | accrdI32 =>
    dsimp only [exec]
    exact accrd_canonical h
  | accwrF32 | accwrI32 =>
    dsimp only [exec]
    exact accwr_canonical h
  | bra | brx | call | ret =>
    dsimp only [exec]
    exact issue_canonical h (fun _ hx => Ctx.transfer_canonical hx)
  | tlbinvPage | tlbinvAll =>
    dsimp only [exec]
    exact sysOp_canonical h (fun _ hx => State.Canonical.dropTlb hx)
  | tlbinvVi =>
    dsimp only [exec]
    exact sysOp_canonical h (fun _ hx => State.Canonical.dropTlb hx.takeRoot)
  | icinvRange | icinvAll =>
    dsimp only [exec]
    exact sysOp_canonical h (fun _ hx => State.Canonical.dropCode hx)
  | setviHandler | setviSwap | setviPtroot | setviUint | setviKeys | setviKeybase =>
    dsimp only [exec]
    exact setvi_canonical h
  | clauseIssue =>
    dsimp only [exec]
    exact .next h.clauseIssue
  | longLatencyResult =>
    dsimp only [exec]
    exact .next h.modGroup
  | laneUnpark =>
    dsimp only [exec]
    exact .next h.laneUnpark
  | waitTimeout =>
    dsimp only [exec]
    exact .next h.waitTimeout
  | monitorFire | monitorPoll =>
    dsimp only [exec]
    exact .next h.modMon
  | swapOut =>
    dsimp only [exec]
    exact .next h.swapOut
  | reinstatement =>
    dsimp only [exec]
    exact .next h.reinstatement
  | preemptionRequest =>
    dsimp only [exec]
    exact .next h.preemptTask
  | preemptionSave =>
    dsimp only [exec]
    exact .next h.preemptionSave
  | preemptionOverrun =>
    dsimp only [exec]
    exact .next h.preemptionOverrun
  | preemptionSaveTimeout =>
    dsimp only [exec]
    exact .next h.preemptionSaveTimeout
  | timeSliceExpiry =>
    dsimp only [exec]
    exact .next h.timeSliceExpiry
  | engineCommandEnqueue =>
    dsimp only [exec]
    exact .next h.engineEnqueue
  | engineCommandCompletion | engineFault =>
    dsimp only [exec]
    exact .next h.signalCmd
  | stashFillComplete =>
    dsimp only [exec]
    exact .next h.stashFill
  | stashFillFault =>
    dsimp only [exec]
    exact .next h.stashFillFault
  | matrixArrayQueueRoom =>
    dsimp only [exec]
    exact .next h.matrixRoom
  | matrixStartTokenGrant =>
    dsimp only [exec]
    exact .next h.grantToken
  | lensLineRead =>
    dsimp only [exec]
    exact .next h.lensLine
  | matrixOperationRetire =>
    dsimp only [exec]
    exact .next h.matrixRetire
  | referenceTick =>
    dsimp only [exec]
    exact .next h.nextTick
  | dispatchRound =>
    dsimp only [exec]
    exact .next h.dispatchRound
  | taskEnd =>
    dsimp only [exec]
    exact .next h.taskEnd
  | completionRecordWrite =>
    dsimp only [exec]
    exact .next h.completionWrite
  | hostSubmission =>
    dsimp only [exec]
    exact .next h.hostSubmit
  | hostSubmissionRetry =>
    dsimp only [exec]
    exact .next h.hostSubmitRetry
  | groupSubmissionRetry =>
    dsimp only [exec]
    exact .next h.groupSubmitRetry
  | submitPageWriteDrop =>
    dsimp only [exec]
    exact .next h.dropWrite
  | gridRangeDeal =>
    dsimp only [exec]
    exact .next h.gridRangeDeal
  | gridRangeExpansion =>
    dsimp only [exec]
    exact .next h.gridRangeExpansion
  | dieFence =>
    dsimp only [exec]
    exact .next (.branch h.fenceDie h)
  | ucieLinkDead =>
    dsimp only [exec]
    exact .next h.linkDead
  | bermoistPortDead =>
    dsimp only [exec]
    exact .next h
  | remoteChipUnreachable =>
    dsimp only [exec]
    exact .next h.chipDead
  | fabricFlitReceive =>
    dsimp only [exec]
    exact .next h.flit
  | registrationRequest =>
    dsimp only [exec]
    exact .next h.request
  | revocation =>
    dsimp only [exec]
    exact .next h.revoke
  | writtenBack =>
    dsimp only [exec]
    exact .next h.writtenBack
  | notHeld =>
    dsimp only [exec]
    exact .next h.notHeld
  | forward =>
    dsimp only [exec]
    exact .next h.forward
  | writeBack =>
    dsimp only [exec]
    exact .next h.giveBack
  | lineEviction =>
    dsimp only [exec]
    exact .next h.evict
  | registrationSpill =>
    dsimp only [exec]
    exact .next h.spill
  | redPerform =>
    dsimp only [exec]
    exact .next h.redPerform
  | remoteStoreRefusal =>
    dsimp only [exec]
    exact .next h.remoteRefusal
  | replReplicaUpdate =>
    dsimp only [exec]
    exact .next h.replUpdate
  | homeMove =>
    dsimp only [exec]
    exact .next h.homeMove
  | tableWalk =>
    dsimp only [exec]
    exact .next h.tableWalk
  | uncorrectableError =>
    dsimp only [exec]
    exact .next h.uncorrectable
  | correctedError | thermalThrottle =>
    dsimp only [exec]
    exact .next h.modDie
  | uintDelivery =>
    dsimp only [exec]
    exact .next h.uintDelivery
  | coreRetirement =>
    dsimp only [exec]
    exact .next (.branch h (State.Canonical.rerouteAll h))
  | routeRewrite =>
    dsimp only [exec]
    exact .next h.routeRewrite
  | packageReset =>
    dsimp only [exec]
    exact .next s.packageReset_canonical
  | flr =>
    dsimp only [exec]
    exact .next (.branch h.disableVi.enableVi h)
  | hostBar2Read =>
    dsimp only [exec]
    exact .next h.bar2Read
  | hostBar2Write =>
    dsimp only [exec]
    exact .next h.bar2Write
  | spdmRequest =>
    dsimp only [exec]
    exact .next h.spdm
  | nonceIssue | lifecycleDeploy | lifecycleReturn | errorBitClear | trctlWrite | dlctlWrite | errorCountClear =>
    dsimp only [exec]
    exact .next (.branch h h)
  | debugTokenUnlock =>
    dsimp only [exec]
    exact .next h.unlock
  | powerStateP0 | powerStateP1 =>
    dsimp only [exec]
    exact .next h.powerNow
  | powerStateIdle | powerStateRetain =>
    dsimp only [exec]
    exact .next h.powerLater
  | powerStateEntry =>
    dsimp only [exec]
    exact .next h.powerEntry
  | pcapWrite | didtWrite =>
    dsimp only [exec]
    exact .next (.branch h (.branch h.flagError h.winSet))
  | registerWrite =>
    dsimp only [exec]
    exact .next h.registerWrite
  | telemetryRecord =>
    dsimp only [exec]
    exact .next h.telemetry
  | servicePartitionMaskWrite =>
    dsimp only [exec]
    exact .next h.maskWrite
  | configRecordApply =>
    dsimp only [exec]
    exact .next h.configApply
  | configRecordQuiesceApply =>
    dsimp only [exec]
    exact .next h.configQuiesce
  | submissionPageEnable =>
    dsimp only [exec]
    exact .next h.pageEnable
  | submissionPageDisable =>
    dsimp only [exec]
    exact .next h.pageDisable
  | engineLineWritten =>
    dsimp only [exec]
    exact .next h.engineStep
  | meshLinkRetirement =>
    dsimp only [exec]
    exact .next (.branch (State.Canonical.rerouteAll h) h)
  | frameOwnerChange =>
    dsimp only [exec]
    exact .next h.frameOwner
  | debugSessionAccess =>
    dsimp only [exec]
    exact .next (.branch h.debug h)
  | firmwareRestartComplete =>
    dsimp only [exec]
    exact .next (.branch h.restarted h)
  | powerStateOff =>
    dsimp only [exec]
    exact execPowerStateOff_canonical s

end Sys2Proof.Machine
end

section
/-! Memory's canonical form is kept by every step: the agenda, a group inside its clause, the device's own events, and what follows (log 1, log 2). -/
namespace Sys2Proof.Machine

/-! ### The instruction of a group inside its clause (R104, R131, R177, R309) -/

theorem wordTrap_canonical {s : State} {w : Nat} {tr : Ctx → Trap} (h : s.Canonical) : OutcomeCanonical (s.wordTrap w tr) := by
  unfold State.wordTrap
  cases hx : ctxOf s (guardOf w) with
  | none => exact .fault
  | some x =>
    have hs : x.s.Canonical := by rw [ctxOf_state hx]; exact h
    exact .next hs.raise

theorem issueWord_canonical {s : State} {g : Group} {c : Clause} (h : s.Canonical) : OutcomeCanonical (s.issueWord g c) := by
  unfold State.issueWord
  split
  · exact wordTrap_canonical h
  · split
    · split
      · exact wordTrap_canonical h
      · exact exec_canonical _ h
    · exact wordTrap_canonical h

/-- What is done to the state of an outcome leaves it canonical. -/
theorem countOut_canonical {gid : Nat} {o : Host.Outcome State Fault Refusal} (h : OutcomeCanonical o) : OutcomeCanonical (countOut gid o) := by
  cases o with
  | next t => exact .next (State.Canonical.modGroup (h t rfl))
  | fault => exact .fault
  | refused => exact .refused

theorem runGroup_canonical {s : State} {g : Group} (h : s.Canonical) : OutcomeCanonical (s.runGroup g) := by
  unfold State.runGroup
  split
  · exact .next h
  · split
    · exact .next h.preemptionSave
    · split
      · exact .next h.preemptionOverrun
      · exact countOut_canonical (issueWord_canonical h)

/-! ### The device's own events -/

theorem firstEvent_canonical {s t : State} {l : List Instr} (h : s.Canonical) (ht : s.firstEvent l = some t) : t.Canonical := by
  induction l with
  | nil => cases ht
  | cons i r ih =>
    simp only [State.firstEvent] at ht
    split at ht
    case h_1 u hu =>
      split at ht
      · exact ih ht
      · cases ht
        exact exec_canonical i h _ hu
    case h_2 => exact ih ht

theorem State.Canonical.idle {s : State} (h : s.Canonical) : s.idle.Canonical := by
  refine .branch h.nextTick ?_
  split
  · exact h.routeRewrite
  · exact State.Canonical.dispatchRound h
  · cases hfirst : s.firstEvent s.ready with
    | none => exact h.nextTick
    | some t => exact firstEvent_canonical h hfirst

/-! ### What a step leaves behind -/

theorem State.Canonical.settleStep {old s : State} {event : Bool} (h : s.Canonical) : (State.settle old s event).Canonical :=
  State.Canonical.fitCaches (State.Canonical.saveTeams h.noteParks)

theorem settleOut_canonical {old : State} {event : Bool} {o : Host.Outcome State Fault Refusal} (h : OutcomeCanonical o) :
    OutcomeCanonical (settleOut old event o) := by
  cases o with
  | next t => exact .next (h t rfl).settleStep
  | fault => exact .fault
  | refused => exact .refused

theorem takeInput_canonical {s : State} {i : Input} {rest : List Input} (h : s.Canonical) : OutcomeCanonical (s.takeInput i rest) := by
  cases i with
  | event e =>
    unfold State.takeInput
    dsimp only
    split
    · exact settleOut_canonical (exec_canonical e h)
    · exact .refused
  | turn gid =>
    have hturn : ({ s with inputs := rest, cur := some gid } : State).Canonical := h
    exact settleOut_canonical (.next hturn)

theorem step_canonical {s : State} (h : s.Canonical) : OutcomeCanonical (step s) := by
  unfold step State.advanceOne
  split
  · exact takeInput_canonical h
  · split
    · exact settleOut_canonical (runGroup_canonical h)
    · exact settleOut_canonical (.next h.idle)

/-- Settles O57: everything that a step does to memory goes through writes of the stores, maps and filters of the registrations, and
registrations of aligned words, each of which keeps the canonical form. -/
theorem stepKeepsMemory : Obligations.StepKeepsMemory := by
  unfold Obligations.StepKeepsMemory
  intro s t h hstep
  exact step_canonical h t hstep

end Sys2Proof.Machine
end
